-- ==== Sys2Proof/Word.lean ====
section
/-! DEFINITION. The word types of Laneel 1, finite maps kept as sorted lists, and the plainest list helpers. -/

namespace Sys2Proof

/-- A 32-bit register value (R4). -/
abbrev Word := BitVec 32
/-- A 64-bit value: a register pair, an address operand, a register of BAR0 (R54, R182, R333). -/
abbrev DWord := BitVec 64
/-- A program counter: 57 bits (R4). -/
abbrev PC := BitVec 57
/-- An instruction word: 128 bits (R180). -/
abbrev IWord := BitVec 128
/-- A lane mask of one warp (R5, R11). -/
abbrev Mask := BitVec 32
/-- The 192 bytes of a line, byte 0 in the least significant bits (R58). -/
abbrev Line := BitVec 1536

/-- A finite map from natural numbers, kept as a list with strictly rising keys. -/
abbrev NatMap (α : Type) := List (Nat × α)

/-- The value at a key, if the map lists it. -/
def mapGet? {α : Type} (m : NatMap α) (k : Nat) : Option α :=
  match m with
  | [] => none
  | (k', v) :: rest => if k = k' then some v else mapGet? rest k

/-- The value at a key, or `d` where the map lists none. -/
def mapGetD {α : Type} (m : NatMap α) (k : Nat) (d : α) : α :=
  (mapGet? m k).getD d

/-- Set the value at a key, keeping the keys strictly rising. -/
def mapSet {α : Type} (m : NatMap α) (k : Nat) (v : α) : NatMap α :=
  match m with
  | [] => [(k, v)]
  | (k', v') :: rest =>
    if k < k' then (k, v) :: (k', v') :: rest
    else if k = k' then (k, v) :: rest
    else (k', v') :: mapSet rest k v

/-- Remove a key. -/
def mapErase {α : Type} (m : NatMap α) (k : Nat) : NatMap α :=
  m.filter (fun e => e.1 ≠ k)

/-- Change the value at a key, where the map lists one. -/
def mapModify {α : Type} (m : NatMap α) (k : Nat) (f : α → α) : NatMap α :=
  m.map (fun e => if e.1 = k then (e.1, f e.2) else e)

/-- Set a key in a canonical map whose unlisted keys read as `d`: writing `d` removes the entry. -/
def mapPut {α : Type} [DecidableEq α] (d : α) (m : NatMap α) (k : Nat) (v : α) : NatMap α :=
  match m with
  | [] => if v = d then [] else [(k, v)]
  | (k', v') :: rest =>
    if k < k' then (if v = d then (k', v') :: rest else (k, v) :: (k', v') :: rest)
    else if k = k' then (if v = d then rest else (k, v) :: rest)
    else (k', v') :: mapPut d rest k v

/-- The smallest key that the map does not list, at or above `k`. -/
def mapFresh {α : Type} (m : NatMap α) : Nat :=
  m.foldl (fun n e => if n ≤ e.1 then e.1 + 1 else n) 0

/-- Replace element `n` of a list, where it exists. -/
def listModify {α : Type} (l : List α) (n : Nat) (f : α → α) : List α :=
  match l, n with
  | [], _ => []
  | a :: rest, 0 => f a :: rest
  | a :: rest, n + 1 => a :: listModify rest n f

/-- The maximum of a list of natural numbers, 0 when it is empty. -/
def listMax (l : List Nat) : Nat := l.foldl max 0

/-- `0, 1, …, n - 1`, by structural recursion. -/
def upTo : Nat → List Nat
  | 0 => []
  | n + 1 => upTo n ++ [n]

end Sys2Proof
end

