-- ==== Sys2Proof/Syntax.lean ====
section
/-! DEFINITION. The steps of the part: every instruction of Laneel 1 with its decoded operands, and every event and command of the table of operations. -/

namespace Sys2Proof

/-- Type codes (Table 8.5, R190). -/
inductive Ty where
  | i32 | n32 | i64 | n64 | b8 | b16 | b32 | b64 | b128 | f16x2 | bf16x2 | f32 | f64
  deriving DecidableEq, Repr

/-- Comparisons (Table 8.6, R191). -/
inductive Cond where
  | eq | ne | lt | le | gt | ge | equ | neu | ltu | leu | gtu | geu | num | nan
  deriving DecidableEq, Repr

/-- Atomic and reduction operations (Table 8.6, R268). -/
inductive Aop where
  | add | min | max | and | or | xor | exch
  deriving DecidableEq, Repr

/-- Rounding modes (R122). -/
inductive Rnd where
  | rn | rz | rd | ru
  deriving DecidableEq, Repr

/-- Ordering kinds (R90). -/
inductive Kind where
  | none | acq | rel | ar
  deriving DecidableEq, Repr

/-- Scopes (Table 4.1, R89). -/
inductive Scope where
  | wp | co | cl | dv | sy
  deriving DecidableEq, Repr

/-- Modes of `shfl` (Table 9.9, R222). -/
inductive ShflMode where
  | pick | shift | rot | xor
  deriving DecidableEq, Repr

/-- Modes of `vote` (Table 9.9, R223). -/
inductive VoteMode where
  | every | some | same | count
  deriving DecidableEq, Repr

/-- Sparsity patterns N:M (Table 12.3). -/
inductive Pattern where
  | p24 | p14 | p28 | p48
  deriving DecidableEq, Repr

/-- Parts written by `tcfg` (R296). -/
inductive TilePart where
  | slot | rows | cols
  deriving DecidableEq, Repr

/-- The kind in which an accumulator is read (R303, R305). -/
inductive AccKind where
  | f32 | i32 | f64
  deriving DecidableEq, Repr

/-- Operations of `tepi` (Table 12.5). -/
inductive TepiOp where
  | none | relu | sigm | tanh
  deriving DecidableEq, Repr

/-- The control registers that `movc` writes (R219). -/
inductive CtlReg where
  | sbias | tenable
  deriving DecidableEq, Repr

/-- A source operand (Table 8.2). In the tile stream `s n` names qn. -/
inductive Opd where
  | v (n : BitVec 8)
  | s (n : BitVec 7)
  | int (n : BitVec 5)
  | const (c : BitVec 4)
  | zero
  | lit (x : Word)
  deriving DecidableEq, Repr

/-- A destination operand (R186); `none` is 0x1FE, a discarded result. In the tile stream `s n` names qn. -/
inductive Dst where
  | v (n : BitVec 8)
  | s (n : BitVec 7)
  | none
  deriving DecidableEq, Repr

/-- A tag operand (R181, R283): a tag number, or a register holding one. -/
inductive TagOpd where
  | tag (n : BitVec 6)
  | reg (n : BitVec 7)
  deriving DecidableEq, Repr

/-- The fields that every instruction word carries: guards (R187), scheduling (R189), slack (R40) and hint (R188). -/
structure Hdr where
  g1 : BitVec 4
  g2 : BitVec 4
  gc : Bool
  sch : BitVec 2
  slk : BitVec 3
  hint : BitVec 2
  deriving DecidableEq, Repr

/-- A memory operand: base, index, index scale and byte offset (R192, R262). -/
structure MAddr where
  base : Opd
  index : Opd
  isc : BitVec 3
  off : Word
  deriving DecidableEq, Repr

/-- The vector-path resources of a partition (Table 2.1). -/
inductive UnitKind where
  | vec | vec64 | sfu | xl | agu
  deriving DecidableEq, Repr

/-- One copy of a unit: a resource in its fast or thrifty form (R36). -/
structure Inst where
  kind : UnitKind
  thrifty : Bool
  deriving DecidableEq, Repr

/-- The header fields of a packet (Table 18.9). -/
structure PktHdr where
  idem : Bool
  nocpl : Bool
  fence : Bool
  ring : Nat
  user : DWord
  deriving DecidableEq, Repr

/-- A reduction window (Table 18.11, R85). -/
structure Window where
  base : Nat
  len : Nat
  fp32 : Bool
  q : Int
  deriving DecidableEq, Repr

/-- The body of CTXCREATE (Table 18.11). -/
structure CtxBody where
  ctx : Nat
  asid : Nat
  vquota : Nat
  fgroup : Nat
  root : Nat
  aperture : Nat
  l1lease : Nat
  cllease : Nat
  cllimit : Nat
  hslimit : Nat
  fring : Nat
  wins : List Window
  deriving DecidableEq, Repr

/-- An ECC outcome at a structure (R405, Table 22.5). -/
inductive EccKind where
  | corrSram | uncorrSram | corrDram | uncorrDram | linkFail | l1Parity
  deriving DecidableEq, Repr

/-- Every step of the table of operations: the instructions of Laneel 1 with their operands, then the events of
the part and the commands of its host, each naming the party it concerns. -/
inductive Instr where
  -- integer arithmetic (Table 9.2)
  | iadd (h : Hdr) (t : Ty) (sat : Bool) (a : Dst) (b c : Opd)
  | isub (h : Hdr) (t : Ty) (sat : Bool) (a : Dst) (b c : Opd)
  | imul (h : Hdr) (t : Ty) (sat : Bool) (a : Dst) (b c : Opd)
  | imulh (h : Hdr) (t : Ty) (a : Dst) (b c : Opd)
  | imad (h : Hdr) (t : Ty) (sat : Bool) (a : Dst) (b c e : Opd)
  | idiv (h : Hdr) (t : Ty) (sat : Bool) (a m : Dst) (b c : Opd)
  | imin (h : Hdr) (t : Ty) (a : Dst) (b c : Opd)
  | imax (h : Hdr) (t : Ty) (a : Dst) (b c : Opd)
  | iabs (h : Hdr) (t : Ty) (sat : Bool) (a : Dst) (b : Opd)
  -- logic (Table 9.4)
  | and (h : Hdr) (t : Ty) (a : Dst) (b c : Opd)
  | or (h : Hdr) (t : Ty) (a : Dst) (b c : Opd)
  | xor (h : Hdr) (t : Ty) (a : Dst) (b c : Opd)
  | andn (h : Hdr) (t : Ty) (a : Dst) (b c : Opd)
  | bfn3 (h : Hdr) (t : Ty) (a : Dst) (b c e : Opd) (tt : BitVec 8)
  -- shifts and bit fields (Table 9.5)
  | shl (h : Hdr) (t : Ty) (a : Dst) (b c : Opd)
  | shr (h : Hdr) (t : Ty) (a : Dst) (b c : Opd)
  | fsh (h : Hdr) (t : Ty) (a : Dst) (hi lo sh : Opd)
  | popc (h : Hdr) (t : Ty) (a : Dst) (b : Opd)
  | clz (h : Hdr) (t : Ty) (a : Dst) (b : Opd)
  | brev (h : Hdr) (t : Ty) (a : Dst) (b : Opd)
  | bfx (h : Hdr) (t : Ty) (a : Dst) (b pos len : Opd)
  | bfi (h : Hdr) (t : Ty) (a : Dst) (b f pos len : Opd)
  | adrs (h : Hdr) (t : Ty) (a : Dst) (base idx : Opd) (sh : BitVec 5)
  | permb (h : Hdr) (a : Dst) (b c sel : Opd)
  -- select, move, compare (Table 9.7), special registers (R218, R219)
  | sel (h : Hdr) (t : Ty) (a : Dst) (b c : Opd) (p : BitVec 3)
  | mov (h : Hdr) (t : Ty) (a : Dst) (b : Opd)
  | movs (h : Hdr) (wide : Bool) (a : Dst) (x : BitVec 6)
  | movc (h : Hdr) (x : CtlReg) (b : Opd)
  | icmp (h : Hdr) (cond : Cond) (t : Ty) (pd : BitVec 3) (b c : Opd)
  | plop (h : Hdr) (pd pa pb pc : BitVec 3) (tt : BitVec 8)
  -- cross-lane (Table 9.9)
  | shfl (h : Hdr) (mode : ShflMode) (t : Ty) (pd : BitVec 3) (a b : BitVec 8) (c : Opd) (w : BitVec 3)
  | vote (h : Hdr) (mode : VoteMode) (pd : BitVec 3) (a : Dst) (p : BitVec 3)
  | ballot (h : Hdr) (a : Dst) (p : BitVec 3)
  | redux (h : Hdr) (op : Aop) (t : Ty) (a : Dst) (b : BitVec 8)
  | scan (h : Hdr) (op : Aop) (excl : Bool) (seg : Option (BitVec 3)) (t : Ty) (a b : BitVec 8)
  | matchLanes (h : Hdr) (whole : Bool) (t : Ty) (pd : BitVec 3) (a : Dst) (b : BitVec 8)
  | elect (h : Hdr) (pd : BitVec 3) (a : Dst)
  -- floating point (Tables 10.1, 10.3, 10.5)
  | fadd (h : Hdr) (t : Ty) (sat : Bool) (rnd : Rnd) (a : Dst) (b c : Opd)
  | fsub (h : Hdr) (t : Ty) (sat : Bool) (rnd : Rnd) (a : Dst) (b c : Opd)
  | fmul (h : Hdr) (t : Ty) (sat : Bool) (rnd : Rnd) (a : Dst) (b c : Opd)
  | ffma (h : Hdr) (t : Ty) (sat : Bool) (rnd : Rnd) (a : Dst) (b c e : Opd)
  | fmin (h : Hdr) (t : Ty) (a : Dst) (b c : Opd)
  | fmax (h : Hdr) (t : Ty) (a : Dst) (b c : Opd)
  | fcmp (h : Hdr) (cond : Cond) (t : Ty) (pd : BitVec 3) (b c : Opd)
  | fclass (h : Hdr) (t : Ty) (pd : BitVec 3) (b m : Opd)
  | frnd (h : Hdr) (t : Ty) (rnd : Rnd) (a : Dst) (b : Opd)
  | fscale (h : Hdr) (t : Ty) (rnd : Rnd) (a : Dst) (b n : Opd)
  | fgexp (h : Hdr) (t : Ty) (a : Dst) (b : Opd)
  | fdot2 (h : Hdr) (t : Ty) (rnd : Rnd) (a : Dst) (b c e : Opd)
  | frcp (h : Hdr) (t : Ty) (rnd : Rnd) (a : Dst) (b : Opd)
  | frsq (h : Hdr) (t : Ty) (a : Dst) (b : Opd)
  | fsqrt (h : Hdr) (t : Ty) (rnd : Rnd) (a : Dst) (b : Opd)
  | fexp2 (h : Hdr) (t : Ty) (a : Dst) (b : Opd)
  | flog2 (h : Hdr) (t : Ty) (a : Dst) (b : Opd)
  | fsin (h : Hdr) (t : Ty) (a : Dst) (b : Opd)
  | fcos (h : Hdr) (t : Ty) (a : Dst) (b : Opd)
  | ftanh (h : Hdr) (t : Ty) (a : Dst) (b : Opd)
  | fsigm (h : Hdr) (t : Ty) (a : Dst) (b : Opd)
  -- conversions and random draws (R251 to R260)
  | cvt (h : Hdr) (d st : Ty) (sat : Bool) (rnd : Rnd) (a : Dst) (b : Opd) (c : Option Opd)
  | cvtsEncode (h : Hdr) (slot : BitVec 3) (a : Dst) (b c m : Opd) (pos : BitVec 5)
  | cvtsDecode (h : Hdr) (slot : BitVec 3) (a : Dst) (b : Opd) (idx : BitVec 5)
  | qblk (h : Hdr) (slot : BitVec 3) (a : BitVec 8) (b : Opd)
  | dqblk (h : Hdr) (slot : BitVec 3) (a b : BitVec 8)
  | dropm (h : Hdr) (wide : Bool) (pd : BitVec 3) (b c : Opd)
  | rng (h : Hdr) (t : Ty) (a : Dst) (b : Opd)
  -- control (R227 to R238)
  | bra (h : Hdr) (off : Word)
  | brx (h : Hdr) (b : Opd)
  | call (h : Hdr) (a : BitVec 8) (off : Word)
  | ret (h : Hdr) (b : BitVec 8)
  | exit (h : Hdr)
  | yield (h : Hdr)
  | nop (h : Hdr)
  | waitc (h : Hdr) (ld st cp tl : BitVec 8)
  | enrol (h : Hdr) (n : BitVec 3)
  | rejoin (h : Hdr) (n : BitVec 3)
  | strike (h : Hdr) (n : BitVec 3)
  | trap (h : Hdr) (code : BitVec 8)
  | rte (h : Hdr)
  | ipf (h : Hdr) (n : BitVec 5) (off : Word)
  | icinv (h : Hdr) (b len : Opd)
  | ifence (h : Hdr)
  -- memory (Table 11.1)
  | ld (h : Hdr) (t : Ty) (kind : Kind) (scope : Scope) (a : Dst) (m : MAddr)
  | st (h : Hdr) (t : Ty) (kind : Kind) (scope : Scope) (m : MAddr) (d : Opd)
  | atom (h : Hdr) (op : Aop) (t : Ty) (kind : Kind) (scope : Scope) (a : Dst) (m : MAddr) (d : Opd)
  | red (h : Hdr) (op : Aop) (t : Ty) (kind : Kind) (scope : Scope) (m : MAddr) (d : Opd)
  | fld (h : Hdr) (a : BitVec 8) (pd : BitVec 3) (m : MAddr)
  | fset (h : Hdr) (pd : BitVec 3) (m : MAddr) (d : Opd)
  | fclr (h : Hdr) (m : MAddr)
  | waiton (h : Hdr) (cond : Cond) (t : Ty) (a : Dst) (m : MAddr) (d : Opd)
  | txb (h : Hdr) (off : Word)
  | txe (h : Hdr)
  | txa (h : Hdr) (code : BitVec 8)
  | fence (h : Hdr) (kind : Kind) (scope : Scope) (spec : Bool)
  | gath (h : Hdr) (t : Ty) (a : BitVec 8) (m : MAddr) (n : BitVec 3)
  | dpf (h : Hdr) (m : MAddr)
  -- engines, tags and barriers (R283 to R291)
  | cpy (h : Hdr) (scope : Scope) (auto : Bool) (dst src len : Opd) (tag : TagOpd)
  | cpyt (h : Hdr) (scope : Scope) (auto : Bool) (dst src org : Opd) (tag : TagOpd)
  | tagarm (h : Hdr) (tag : TagOpd) (count : Opd)
  | tagwt (h : Hdr) (all : Bool) (mask : Opd)
  | tagff (h : Hdr) (a : Dst) (mask : Opd)
  | tagclr (h : Hdr) (mask : Opd)
  | bari (h : Hdr) (nx : Bool) (nb : BitVec 5) (n : Opd)
  | bara (h : Hdr) (nb : BitVec 5) (rank : Opd)
  | barw (h : Hdr) (nb : BitVec 5) (phi : Opd)
  | bar (h : Hdr)
  -- tile stream (Table 12.2) and warp-tile moves (Table 12.7)
  | tcfg (h : Hdr) (part : TilePart) (t : BitVec 3) (x : Opd)
  | tld (h : Hdr) (t : BitVec 3) (ql : BitVec 5) (qc : Option (BitVec 5))
  | tzero (h : Hdr) (f64 : Bool) (a : BitVec 2)
  | mma (h : Hdr) (a : BitVec 2) (ta tb : BitVec 3)
  | mmas (h : Hdr) (pat : Pattern) (a : BitVec 2) (ta tb tm : BitVec 3)
  | dcmp (h : Hdr) (pat : Pattern) (ta : BitVec 3) (qd : BitVec 5) (terms : BitVec 5) (l : Opd)
  | mmad (h : Hdr) (a : BitVec 2) (ta tb : BitVec 3)
  | tdrain (h : Hdr) (add raw auto : Bool) (scope : Scope) (kind : AccKind) (a : BitVec 2) (ql : BitVec 5)
      (qc : Option (BitVec 5)) (tag : TagOpd)
  | tmov (h : Hdr) (kind : AccKind) (t : BitVec 3) (a : BitVec 2) (blk : Opd)
  | tepi (h : Hdr) (op : TepiOp) (kind : AccKind) (t : BitVec 3) (a : BitVec 2) (blk alpha : Opd)
      (tb : Option (BitVec 3))
  | tstv (h : Hdr) (ty : Ty) (t : BitVec 3) (off : Opd) (vs : BitVec 8)
  | tldv (h : Hdr) (ty : Ty) (vd : BitVec 8) (t : BitVec 3) (off : Opd)
  -- system (R309 to R315)
  | launch (h : Hdr) (b : Opd)
  | pbar (h : Hdr)
  | gbar (h : Hdr)
  | event (h : Hdr) (x : Opd)
  | forkw (h : Hdr) (n : Opd) (off : Word)
  | yieldw (h : Hdr) (x : Opd)
  | choose (h : Hdr) (k : Opd)
  | chooseNone (h : Hdr)
  | chooseSelf (h : Hdr)
  -- events of a core; k is the core, j the scheduling partition, w a warp
  | issueSelect (k j : Nat)
  | classBatchClose (k j : Nat)
  | yieldExpiry (w : Nat)
  | instanceStart (k j : Nat) (u : Inst)
  | resultWrite (w : Nat)
  | slackViolation (w : Nat)
  | unitGate (k j : Nat) (u : Inst)
  | unitWake (k j : Nat) (u : Inst)
  -- events of the memory path; r is a request
  | requestSend (r : Nat)
  | homeSliceRequest (r : Nat)
  | fillArrive (r : Nat)
  | writeAck (r : Nat)
  | accessRetry (r : Nat)
  | releaseComplete (f : Nat)
  | specFenceComplete (f : Nat)
  | waitonPoll (r : Nat)
  | fifoServe (cluster bank : Nat)
  | gatherSubgroupRelease (g : Nat)
  | txCommit (c : Nat)
  | txUnlock (c : Nat)
  | copyDeliver (c : Nat)
  | pageFaultRoute (x : Nat) (page : Nat)
  | replayComplete (w : Nat) (i : Nat)
  | ifetchRequest (k : Nat) (line : Nat)
  | ifetchFill (r : Nat)
  | fetchFault (r : Nat)
  -- tile events; t is a tenant
  | tileInstrStart (t : Nat)
  | tileInstrComplete (t : Nat) (n : Nat)
  -- events of blocks and grids
  | phaseRecordWrite (b : Nat)
  | phaseStart (b : Nat)
  | gbarOpen (g : Nat)
  | blockPlace (g : Nat)
  | blockDeschedule (b : Nat)
  | blockRequeue (b : Nat)
  | blockEnd (b : Nat)
  | gridComplete (g : Nat)
  | gridTimeLimit (g : Nat)
  | deviceLaunchRead (d : Nat)
  | rivalEnd (b : Nat)
  | viewCommit (v : Nat)
  | commitRetryEnd (v : Nat)
  | outboxPerform (v : Nat)
  | viewIdReturn (v : Nat)
  | viewSpill (v : Nat) (line : Nat)
  -- events from outside and errors
  | hostMemWrite (pa : Nat) (bytes : List (BitVec 8))
  | ylReductionArrive (pa : Nat) (op : Aop) (t : Ty) (x : DWord)
  | ylLinkState (y : Nat) (up : Bool) (chip : Nat)
  | memoryError (kind : EccKind) (unit : Nat) (index : Nat) (pa : Nat) (va : Nat) (x : Option Nat)
  -- registers and queues
  | qtailDoorbell (q : Nat) (v : DWord)
  | qctlReset (q : Nat) (ctl : DWord)
  | queueEnable (q : Nat) (ctl : DWord)
  | queueDisable (q : Nat) (ctl : DWord)
  | ringEnable (r : Nat) (ctl : DWord)
  | ringDisable (r : Nat) (ctl : DWord)
  | eheadWrite (r : Nat) (v : DWord)
  | interruptCoalesceTimeout (r : Nat)
  | creset (x : Nat)
  | partcfgWrite (v : DWord)
  | registerWrite (off size : Nat) (v : DWord)
  -- packets; q is the queue, n the command sequence number
  | pad (q : Nat) (len : Nat)
  | launchPkt (q n : Nat) (h : PktHdr) (record limit : Nat)
  | graph (q n : Nat) (h : PktHdr) (table count limit : Nat)
  | graphNodeStart (gr node : Nat)
  | copy (q n : Nat) (h : PktHdr) (src dst bytes : Nat)
  | fill (q n : Nat) (h : PktHdr) (dst bytes : Nat) (pattern : DWord)
  | signalWrite (q n : Nat) (h : PktHdr) (addr : Nat) (v : DWord)
  | signalAdd (q n : Nat) (h : PktHdr) (addr : Nat) (v : DWord)
  | wait (q n : Nat) (h : PktHdr) (addr : Nat) (v : DWord) (cond : Cond) (timeout : Nat)
  | waitTimeout (q n : Nat)
  | inval (q n : Nat) (h : PktHdr) (start bytes : Nat) (whole : Bool)
  | resume (q n : Nat) (h : PktHdr) (fq seq addr : Nat) (unres : Bool)
  | preemptSaveQueue (q n : Nat) (h : PktHdr) (target area size : Nat)
  | preemptSaveContext (q n : Nat) (h : PktHdr) (area size : Nat)
  | preemptRestore (q n : Nat) (h : PktHdr) (area size : Nat)
  | stop (q n : Nat) (h : PktHdr) (target : Nat)
  | stopContinue (q n : Nat) (h : PktHdr) (target : Nat)
  | ctxcreate (q n : Nat) (h : PktHdr) (body : CtxBody)
  | ctxdestroy (q n : Nat) (h : PktHdr) (ctx : Nat)
  | cmcfgCacheWay (q n : Nat) (h : PktHdr) (cluster : Nat) (mask : BitVec 16)
  | cmcfgScratchpad (q n : Nat) (h : PktHdr) (cluster : Nat) (mask : BitVec 16) (owner : Nat)
  | cmcfgFifo (q n : Nat) (h : PktHdr) (cluster : Nat) (mask : BitVec 16) (owner port : Nat)
  | oppoint (q n : Nat) (h : PktHdr) (mask : DWord) (slots railf railt : Nat)
  -- power
  | railSlewDone
  | retentionEnter (cluster : Nat)
  | wakeStart (cluster : Nat)
  | retentionExit (cluster : Nat) (parityError : Bool)
  -- telemetry and cooling
  | histEnable (v : DWord)
  | histDisable (v : DWord)
  | histDrainDone
  | thermalSample (celsius : Nat)
  | thermalRecover
  -- firmware and security
  | deviceReset
  | loadimg
  | enrolKey
  | revoke
  | romboot
  | mailboxBadcmd
  | getVersion (req : List (BitVec 8))
  | getCapabilities (req : List (BitVec 8))
  | negotiateAlgorithms (req : List (BitVec 8))
  | getDigests (req : List (BitVec 8))
  | getCertificate (req : List (BitVec 8))
  | challenge (req : List (BitVec 8))
  | getMeasurements (req : List (BitVec 8))
  | keyExchange (req : List (BitVec 8))
  | finish (req : List (BitVec 8))
  | hostPeerWriteAck (r : Nat)
  | yunavinFlitRetry (y : Nat)
  deriving DecidableEq, Repr

end Sys2Proof
end

