-- ==== Sys2Proof/Config.lean ====
section
/-! DEFINITION. What the manual leaves to chance or to a named outside standard: free values with no body, so that
nothing can be proved of their value, and the standards that the manual only names. -/

namespace Sys2Proof.Config

/-- Whether an event whose time the manual does not fix, and which may happen at a master pulse, does happen at it (R410: no
value is promised for the durations of the memory path and the command path). The arguments are the pulse and the number of the
event among those that may happen. FREE VALUE, log entry 3. -/
opaque happens : Nat → Nat → Bool

/-- How far a reading of gtime lies from floor(5 M / 9): within 2 ticks (R386), so the reading is the value plus this
minus 2. The arguments are the place and the master pulse. FREE VALUE, log entry 4. -/
opaque gtimeSkew : Nat → Nat → Fin 5

/-- Which free choice is taken where the manual lists several allowed outcomes and fixes none (placement, the order
of independent events). FREE VALUE, log entry 5. -/
opaque choice : Nat → Nat

/-- How many ticks after a write is installed tx comes (R93): the back-invalidation of host copies, or the acknowledgement of
host or peer; 0 where neither applies. For writes that no request of a core waits on: write-backs, commits, engine writes,
installs of views. The argument numbers the write. FREE VALUE, log entry 114. -/
opaque recallTicks : Nat → Nat

/-- The bytes of a record that hardware keeps in memory and whose layout the manual does not give: a phase record (R24, R25), the
operands of an outbox entry (Table 7.6). The arguments are the number of the write and the place of the byte. FREE VALUE, log
entry 94. -/
opaque recordByte : Nat → Nat → BitVec 8

/-- SHA-384, which R399 and R403 name and do not define. UNINTERPRETED, log entry 6. -/
opaque sha384 : List (BitVec 8) → BitVec 384

/-- ECDSA P-384 verification of a digest under a public key (X, Y) and a signature (r, s), which R399 and R401 name
and do not define. UNINTERPRETED, log entry 6. -/
opaque ecdsaVerify : BitVec 384 → BitVec 384 → BitVec 384 → BitVec 384 → BitVec 384 → Bool

/-- The public key of KEYSLOT 0, the Stolzesko key (Table 22.1), whose value the manual does not give. FREE VALUE. -/
opaque vendorKey : BitVec 384 × BitVec 384

/-- The mask ROM of an engine: 0 security core, 1 command cores, 2 management core (R398). FREE VALUE. -/
opaque romImage : Nat → List (BitVec 8)

/-- The body of an SPDM 1.3 response to a request, in a state of the measurements (R403 names DMTF SPDM 1.3 and does
not define its messages, which also hold nonces and keys drawn afresh: the first argument numbers the draw, the second the
message). FREE VALUE, log entry 6. -/
opaque spdmBody : Nat → Nat → List (BitVec 8) → List (BitVec 8) → List (BitVec 8)

/-- A predicate or bit that the manual leaves open: the result of an `fset` that a world queues (Table 7.5), and others
that the log names. The argument numbers the draw. FREE VALUE, log entry 7. -/
opaque freeBit : Nat → Bool

/-- Which of the four command cores acts for a queue; its index stands in records (Table 18.13), and the manual does not say which it
is. FREE VALUE, log entry 40. -/
opaque commandCore : Nat → Fin 4

/-- The stepping field REV[15:8] (Table 18.3), whose value the manual does not give. FREE VALUE. -/
opaque stepping : BitVec 8

end Sys2Proof.Config
end

