-- ==== Sys2Proof/WellFormed.lean ====
section
/-! DEFINITION. Which instruction terms some word of a stream encodes: the operand kinds of Table 9.1, the types, codes
and ranges of each entry, and the guard, slack, scheduling and literal rules (R180 to R195). An event or a command of
the table of operations has no word and is always well formed. -/

namespace Sys2Proof

/-- The two streams (R180). -/
inductive Stream where
  | vector | tile
  deriving DecidableEq, Repr

/-- Width of a type in bits; a pair type is a 32-bit register (Table 8.5, R182). -/
def Ty.bits : Ty → Nat
  | .b8 => 8
  | .b16 => 16
  | .i32 | .n32 | .b32 | .f16x2 | .bf16x2 | .f32 => 32
  | .i64 | .n64 | .b64 | .f64 => 64
  | .b128 => 128

/-- Width of the register a type fills: 8- and 16-bit loads fill a 32-bit register (R266). -/
def Ty.regBits (t : Ty) : Nat := max 32 t.bits

/-- A floating-point type: its sources accept fixed constants (R184). -/
def Ty.isFloat : Ty → Bool
  | .f16x2 | .bf16x2 | .f32 | .f64 => true
  | _ => false

/-- A pair type. -/
def Ty.isPair : Ty → Bool
  | .f16x2 | .bf16x2 => true
  | _ => false

/-- `.i32 .n32 .i64 .n64`. -/
def Ty.isInt : Ty → Bool
  | .i32 | .n32 | .i64 | .n64 => true
  | _ => false

/-- `.i32 .n32`. -/
def Ty.isInt32 : Ty → Bool
  | .i32 | .n32 => true
  | _ => false

/-- `.b32 .b64`. -/
def Ty.isBits : Ty → Bool
  | .b32 | .b64 => true
  | _ => false

/-- `.f32 .f64`. -/
def Ty.isReal : Ty → Bool
  | .f32 | .f64 => true
  | _ => false

/-- The types of the integer entries in a stream: the tile stream has `.i32` and `.n32` only (Table 12.1). -/
def Ty.okInt (st : Stream) (t : Ty) : Bool :=
  match st with
  | .vector => t.isInt
  | .tile => t.isInt32

/-- The types of the logic entries (R211). -/
def Ty.okLogic (st : Stream) (t : Ty) : Bool :=
  match st with
  | .vector => t.isInt || t.isBits
  | .tile => t.isInt32

/-- The types of `sel` (Table 9.7). -/
def Ty.okSel (st : Stream) (t : Ty) : Bool :=
  match st with
  | .vector => t.isInt || t.isBits || t.isFloat
  | .tile => t.isInt32

/-- A register number fits an operand of `w` bits: even for a pair, a multiple of 4 for a quad (R182). -/
def alignedReg (w : Nat) (n : Nat) : Bool :=
  if w = 128 then n % 4 = 0 else if w = 64 then n % 2 = 0 else true

/-- A uniform register, or a q register in the tile stream (R136), of at most 64 bits. -/
def okS (st : Stream) (w : Nat) (n : BitVec 7) : Bool :=
  (st = .vector || n.toNat < 32) && w ≠ 128 && alignedReg w n.toNat

/-- A vector register. -/
def okV (st : Stream) (w : Nat) (n : BitVec 8) : Bool :=
  st = .vector && alignedReg w n.toNat

/-- Kind S: a general source of `w` bits (Table 9.1). -/
def Opd.okSrc (st : Stream) (w : Nat) (flt : Bool) : Opd → Bool
  | .v n => okV st w n
  | .s n => okS st w n
  | .int _ | .zero | .lit _ => true
  | .const _ => flt

/-- A register, integer or zero: a data field that can hold no literal. -/
def Opd.okData (st : Stream) (w : Nat) (flt : Bool) : Opd → Bool
  | .lit _ => false
  | o => o.okSrc st w flt

/-- A value that the whole group shares: a uniform register, an integer, the literal where `l`, zero where `z` and a
fixed constant where `c`. -/
def Opd.okOne (st : Stream) (w : Nat) (l z c : Bool) : Opd → Bool
  | .s n => okS st w n
  | .int _ => true
  | .lit _ => l
  | .zero => z
  | .const _ => c
  | .v _ => false

/-- The base of a memory operand: an even vector pair, any s0 to s126, or zero (R182, R262). -/
def Opd.okBase (z : Bool) : Opd → Bool
  | .v n => n.toNat % 2 = 0
  | .s n => n.toNat ≤ 126
  | .zero => z
  | _ => false

/-- The index of a memory operand (R262). -/
def Opd.okIndex : Opd → Bool
  | .v _ | .s _ | .int _ | .zero => true
  | _ => false

/-- An even register pair, vector or uniform. -/
def Opd.okPair : Opd → Bool
  | .v n => n.toNat % 2 = 0
  | .s n => n.toNat % 2 = 0
  | _ => false

/-- Kind d, and "d or z" where `z`. -/
def Dst.ok (st : Stream) (w : Nat) (z : Bool) : Dst → Bool
  | .v n => okV st w n
  | .s n => okS st w n
  | .none => z

/-- Kind V as a destination, and "V or z" where `z`. -/
def Dst.okVec (w : Nat) (z : Bool) : Dst → Bool
  | .v n => alignedReg w n.toNat
  | .s _ => false
  | .none => z

/-- A tag operand (R181). -/
def TagOpd.ok (st : Stream) : TagOpd → Bool
  | .tag _ => true
  | .reg n => st = .vector || n.toNat < 32

def Opd.isVec : Opd → Bool
  | .v _ => true
  | _ => false

def Opd.isLit : Opd → Bool
  | .lit _ => true
  | _ => false

def Dst.isUni : Dst → Bool
  | .s _ => true
  | _ => false

/-- A uniform destination with a vector-register source is not allowed (R186). -/
def okUni (a : Dst) (srcs : List Opd) : Bool := !(a.isUni && srcs.any Opd.isVec)

/-- At most one source holds the literal (R185). -/
def okLits (srcs : List Opd) : Bool := (srcs.filter Opd.isLit).length ≤ 1

/-- The rules a general entry shares: destination, sources of one width, literal count, uniform destination. -/
def okArith (st : Stream) (w : Nat) (flt : Bool) (a : Dst) (srcs : List Opd) : Bool :=
  a.ok st w false && srcs.all (Opd.okSrc st w flt) && okLits srcs && okUni a srcs

/-- A guard index of the stream (R187, R136). -/
def okGuard (st : Stream) (g : BitVec 4) : Bool :=
  st = .vector || (g.toNat % 8 ≤ 3 || g.toNat % 8 = 7)

/-- The header: guards, slack (R40, R136), scheduling (R189) and hint (R188). `ctrl` is class CTRL. -/
def Hdr.ok (st : Stream) (ctrl hint : Bool) (h : Hdr) : Bool :=
  okGuard st h.g1 && okGuard st h.g2 && (hint || h.hint = 0) &&
  (match st with
   | .vector => h.sch ≠ 3 && (!ctrl || h.slk = 0)
   | .tile => h.slk = 0 && h.sch = 0)

/-- A predicate destination of the stream (R215). -/
def okPd (st : Stream) (pd : BitVec 3) : Bool := st = .vector || pd.toNat ≤ 3 || pd = 7

/-- A predicate operand of the stream (R181). -/
def okPred (st : Stream) (p : BitVec 3) : Bool := st = .vector || p.toNat ≤ 3 || p = 7

/-- COND 0x0 to 0x5. -/
def Cond.isInt : Cond → Bool
  | .eq | .ne | .lt | .le | .gt | .ge => true
  | _ => false

/-- An offset is a multiple of 16 (R193). -/
def okOff (off : Word) : Bool := off.toNat % 16 = 0

/-- The memory operand of layout M (R262). -/
def MAddr.ok (m : MAddr) : Bool := m.base.okBase true && m.index.okIndex && m.isc.toNat ≤ 4

/-- A uniform destination needs uniform base and index (R266, R186). -/
def MAddr.uniFor (m : MAddr) (a : Dst) : Bool := okUni a [m.base, m.index]

/-- Width of a special register that `movs` reads: 32, 64, or 0 for either (Table 9.8); `none` where unassigned. -/
def specialWidth (n : Nat) : Option Nat :=
  if n ≤ 4 then some 32
  else if n = 5 then some 64
  else if n ≤ 0x11 then some 0
  else if n ≤ 0x13 then some 32
  else if n ≤ 0x16 then some 64
  else if n ≤ 0x19 then some 32
  else if n ≤ 0x1B then some 64
  else if n = 0x1C then some 32
  else if n ≤ 0x1F then some 64
  else if n ≤ 0x22 then some 32
  else none

/-- The special registers marked "Stream" in Table 9.8. -/
def specialStream (n : Nat) : Bool :=
  n = 4 || (6 ≤ n && n ≤ 0x11) || (0x14 ≤ n && n ≤ 0x17) || n = 0x1B

/-- `wide` (SUB 0x7) agrees with the register's width. -/
def okSpecial (st : Stream) (wide : Bool) (n : Nat) : Bool :=
  (match specialWidth n with
   | some 32 => !wide
   | some 64 => wide
   | some _ => true
   | none => false) && (st = .vector || specialStream n)

/-- Operations of `redux` and `scan` by type (R225). -/
def okRedux (op : Aop) (t : Ty) : Bool :=
  match op with
  | .add | .min | .max => t.isInt || t = .f32
  | .and | .or | .xor => t.isInt || t.isBits
  | .exch => false

/-- Operations of `atom` and `red` by type (Table 11.3). -/
def okAop (op : Aop) (t : Ty) : Bool :=
  match op with
  | .add => t.isInt || t.isReal
  | .min | .max => t.isInt
  | .and | .or | .xor => t.isInt || t.isBits
  | .exch => t.isInt || t.isBits || t.isReal

/-- The types that `cvt` converts between (R251). -/
def Ty.okCvt : Ty → Bool
  | .i32 | .n32 | .i64 | .n64 | .f16x2 | .bf16x2 | .f32 | .f64 => true
  | _ => false

/-- Field C of `cvt` (Table 10.8). -/
def okCvtC (d st : Ty) (c : Option Opd) : Bool :=
  match d.isPair, st.isPair, c with
  | true, false, some o => o.okSrc .vector st.bits st.isFloat
  | false, true, some o => o = .int 0 || o = .int 1 || o = .zero
  | true, true, none => true
  | false, false, none => true
  | _, _, _ => false

/-- Overlapping destinations of `idiv` (R210). -/
def okQuotRem (w : Nat) : Dst → Dst → Bool
  | .v n, .v m => n.toNat / (w / 32) ≠ m.toNat / (w / 32)
  | .s n, .s m => n.toNat / (w / 32) ≠ m.toNat / (w / 32)
  | _, _ => true

/-- The types of `tstv` and `tldv` (Table 12.7). -/
def Ty.okMove : Ty → Bool
  | .b32 | .b64 | .b128 => true
  | _ => false

/-- The offset of a warp-tile move (R308). -/
def okTileOff (t : Ty) : Opd → Bool
  | .int n => n.toNat % (t.bits / 8) = 0 && n.toNat ≤ 192 - t.bits / 8
  | .lit x => x.toNat % (t.bits / 8) = 0 && x.toNat ≤ 192 - t.bits / 8
  | _ => false

/-- An integer or literal count of `bari` lies from 1 to 16,388 (R145, R290). -/
def okBariCount (st : Stream) : Opd → Bool
  | .s n => okS st 32 n
  | .int n => 1 ≤ n.toNat
  | .lit x => 1 ≤ x.toNat && x.toNat ≤ 16388
  | _ => false

/-- A rank or φ operand (Tables 11.7, 12.1): a literal in the tile stream only; zero for an omitted rank where `z`. -/
def okRank (st : Stream) (z : Bool) (o : Opd) : Bool := o.okOne st 32 (st = .tile) z false

/-- The scope of a copy or drain (R90, R192). -/
def Scope.wide : Scope → Bool
  | .cl | .dv | .sy => true
  | _ => false

/-- `sat` only at pair types, `rnd` only at `.f32` and `.f64` (Table 10.1). -/
def okFp (t : Ty) (sat : Bool) (rnd : Rnd) : Bool :=
  t.isFloat && (!sat || t.isPair) && (rnd = .rn || t.isReal)

/-- The mask operand of a tag instruction (R288). -/
def okMask (st : Stream) (o : Opd) : Bool := o.okOne st 64 true false false

/-- The term is an instruction of the stream that some word encodes. -/
def WellFormed (st : Stream) : Instr → Bool
  | .iadd h t _ a b c | .isub h t _ a b c | .imul h t _ a b c =>
    h.ok st false false && t.okInt st && okArith st t.bits false a [b, c]
  | .imulh h t a b c => st = .vector && h.ok st false false && t.isInt && okArith st t.bits false a [b, c]
  | .imad h t _ a b c e => h.ok st false false && t.okInt st && okArith st t.bits false a [b, c, e]
  | .idiv h t _ a m b c =>
    st = .vector && h.ok st false false && t.isInt && okArith st t.bits false a [b, c] &&
    m.ok st t.bits true && okUni m [b, c] && okQuotRem t.bits a m
  | .imin h t a b c | .imax h t a b c =>
    h.ok st false false && t.okInt st && okArith st t.bits false a [b, c]
  | .iabs h t _ a b =>
    st = .vector && h.ok st false false && (t = .i32 || t = .i64) && okArith st t.bits false a [b]
  | .and h t a b c | .or h t a b c | .xor h t a b c =>
    h.ok st false false && t.okLogic st && okArith st t.bits false a [b, c]
  | .andn h t a b c => st = .vector && h.ok st false false && t.okLogic st && okArith st t.bits false a [b, c]
  | .bfn3 h t a b c e _ =>
    st = .vector && h.ok st false false && t.okLogic st && okArith st t.bits false a [b, c, e] &&
    !b.isLit && !c.isLit && !e.isLit
  | .shl h t a b c | .shr h t a b c =>
    h.ok st false false && t.okLogic st && a.ok st t.bits false && b.okSrc st t.bits false && c.okSrc st 32 false &&
    okLits [b, c] && okUni a [b, c]
  | .fsh h t a b c e =>
    st = .vector && h.ok st false false && t.isBits && a.ok st t.bits false && b.okSrc st t.bits false &&
    c.okSrc st t.bits false && e.okSrc st 32 false && okLits [b, c, e] && okUni a [b, c, e]
  | .popc h t a b | .clz h t a b =>
    st = .vector && h.ok st false false && t.isBits && a.ok st 32 false && b.okSrc st t.bits false && okUni a [b]
  | .brev h t a b => st = .vector && h.ok st false false && t.isBits && okArith st t.bits false a [b]
  | .bfx h t a b p l =>
    st = .vector && h.ok st false false && t.isInt && a.ok st t.bits false && b.okSrc st t.bits false &&
    p.okSrc st 32 false && l.okSrc st 32 false && okLits [b, p, l] && okUni a [b, p, l]
  | .bfi h t a b f p l =>
    st = .vector && h.ok st false false && t.isBits && a.ok st t.bits false && b.okSrc st t.bits false &&
    f.okSrc st t.bits false && p.okSrc st 32 false && l.okSrc st 32 false && okLits [b, f, p, l] &&
    okUni a [b, f, p, l]
  | .adrs h t a b x _ =>
    st = .vector && h.ok st false false && t.isInt32 && a.ok st 64 false && b.okSrc st 64 false &&
    x.okSrc st 32 false && okLits [b, x] && okUni a [b, x]
  | .permb h a b c e => st = .vector && h.ok st false false && okArith st 32 false a [b, c, e]
  | .sel h t a b c p =>
    h.ok st false false && t.okSel st && okArith st t.bits t.isFloat a [b, c] && okPred st p
  | .mov h t a b =>
    h.ok st false false &&
    (if t = .b128 then st = .vector && a.okVec 128 false && b.isVec && b.okSrc st 128 false
     else t.okSel st && okArith st t.bits t.isFloat a [b])
  | .movs h wide a x => h.ok st true false && a.ok st (if wide then 64 else 32) false && okSpecial st wide x.toNat
  | .movc h _ b => st = .vector && h.ok st true false && b.okOne st 32 true false false
  | .icmp h cond t pd b c =>
    h.ok st false false && t.okInt st && cond.isInt && okPd st pd && b.okSrc st t.bits false &&
    c.okSrc st t.bits false && okLits [b, c]
  | .plop h _ _ _ _ _ => st = .vector && h.ok st false false
  | .shfl h _ t _ a b c w =>
    st = .vector && h.ok st false false && t.isBits && okV st t.bits a && okV st t.bits b && c.okSrc st 32 false &&
    w.toNat ≤ 5
  | .vote h _ pd a _ => st = .vector && h.ok st false false && a.ok st 32 true && (pd ≠ 7 || a ≠ .none)
  | .ballot h a _ => st = .vector && h.ok st false false && a.ok st 32 false
  | .redux h op t a b =>
    st = .vector && h.ok st false false && okRedux op t && a.ok st t.bits false && okV st t.bits b
  | .scan h op _ _ t a b =>
    st = .vector && h.ok st false false && okRedux op t && okV st t.bits a && okV st t.bits b
  | .matchLanes h whole t pd a b =>
    st = .vector && h.ok st false false && t.isBits && okV st t.bits b &&
    (if whole then a.ok st 32 true && (pd ≠ 7 || a ≠ .none) else a.okVec 32 false && pd = 0)
  | .elect h pd a => st = .vector && h.ok st false false && a.ok st 32 true && (pd ≠ 7 || a ≠ .none)
  | .fadd h t sat rnd a b c | .fsub h t sat rnd a b c | .fmul h t sat rnd a b c =>
    st = .vector && h.ok st false false && okFp t sat rnd && okArith st t.bits true a [b, c]
  | .ffma h t sat rnd a b c e =>
    st = .vector && h.ok st false false && okFp t sat rnd && okArith st t.bits true a [b, c, e]
  | .fmin h t a b c | .fmax h t a b c =>
    st = .vector && h.ok st false false && t.isFloat && okArith st t.bits true a [b, c]
  | .fcmp h _ t _ b c =>
    st = .vector && h.ok st false false && t.isReal && b.okSrc st t.bits true && c.okSrc st t.bits true &&
    okLits [b, c]
  | .fclass h t _ b m =>
    st = .vector && h.ok st false false && t.isReal && b.okSrc st t.bits true && m.okSrc st 32 false && okLits [b, m]
  | .frnd h t _ a b => st = .vector && h.ok st false false && t.isReal && okArith st t.bits true a [b]
  | .fscale h t _ a b n =>
    st = .vector && h.ok st false false && t.isReal && a.ok st t.bits false && b.okSrc st t.bits true &&
    n.okSrc st 32 false && okLits [b, n] && okUni a [b, n]
  | .fgexp h t a b =>
    st = .vector && h.ok st false false && t.isReal && a.ok st 32 false && b.okSrc st t.bits true && okUni a [b]
  | .fdot2 h t _ a b c e => st = .vector && h.ok st false false && t.isPair && okArith st 32 true a [b, c, e]
  | .frcp h t rnd a b | .fsqrt h t rnd a b =>
    st = .vector && h.ok st false false && okFp t false rnd && okArith st t.bits true a [b]
  | .frsq h t a b | .fexp2 h t a b | .flog2 h t a b | .fsin h t a b | .fcos h t a b | .ftanh h t a b
  | .fsigm h t a b =>
    st = .vector && h.ok st false false && (t = .f32 || t.isPair) && okArith st t.bits true a [b]
  | .cvt h d s sat rnd a b c =>
    st = .vector && h.ok st false false && d.okCvt && s.okCvt && d ≠ s && a.ok st d.bits false &&
    b.okSrc st s.bits s.isFloat && okCvtC d s c && okLits (b :: c.toList) && okUni a (b :: c.toList) &&
    (!sat || d.isPair || (d.isInt && s.isInt)) && (rnd = .rn || !(d.isPair || (d.isInt && s.isInt)))
  | .cvtsEncode h _ a b c m pos =>
    st = .vector && h.ok st false false && a.ok st 32 false && b.okSrc st 32 true && c.okSrc st 32 true &&
    m.okSrc st 32 false && okLits [b, c, m] && okUni a [b, c, m] && pos.toNat % 2 = 0 && pos.toNat ≤ 6
  | .cvtsDecode h _ a b idx =>
    st = .vector && h.ok st false false && a.ok st 32 false && b.okSrc st 32 false && okUni a [b] && idx.toNat ≤ 7
  | .qblk h _ _ b => st = .vector && h.ok st false false && b.okSrc st 32 true
  | .dqblk h _ _ _ => st = .vector && h.ok st false false
  | .dropm h wide pd b c =>
    st = .vector && h.ok st false false && pd ≠ 7 && b.okSrc st (if wide then 64 else 32) false &&
    c.okSrc st 32 false && okLits [b, c]
  | .rng h t a b =>
    st = .vector && h.ok st false false && (t.isBits || t = .f32) && a.ok st t.bits false && b.okSrc st 64 false &&
    okUni a [b]
  | .bra h off => h.ok st true false && okOff off
  | .brx h b => st = .vector && h.ok st true false && b.okPair
  | .call h a off => st = .vector && h.ok st true false && okV st 64 a && okOff off
  | .ret h b => st = .vector && h.ok st true false && okV st 64 b
  | .exit h | .nop h => h.ok st true false
  | .yield h => st = .vector && h.ok st true false && h.sch = 0
  | .waitc h _ _ _ _ | .enrol h _ | .rejoin h _ | .strike h _ | .trap h _ | .rte h | .ifence h =>
    st = .vector && h.ok st true false
  | .ipf h n off => st = .vector && h.ok st true false && 1 ≤ n.toNat && n.toNat ≤ 8 && okOff off
  | .icinv h b len => st = .vector && h.ok st true false && b.okPair && len.okSrc st 32 false
  | .ld h t kind scope a m =>
    st = .vector && h.ok st false true && (kind = .none && scope = .wp || kind = .acq) && m.ok &&
    a.ok st t.regBits false && m.uniFor a
  | .st h t kind scope m d =>
    st = .vector && h.ok st false true && (kind = .none && scope = .wp || kind = .rel) && m.ok &&
    d.okData st t.regBits false
  | .atom h op t _ _ a m d =>
    st = .vector && h.ok st false true && okAop op t && m.ok && a.okVec t.bits true && d.okData st t.bits t.isFloat
  | .red h op t kind _ m d =>
    st = .vector && h.ok st false true && okAop op t && op ≠ .exch && (kind = .none || kind = .rel) && m.ok &&
    d.okData st t.bits t.isFloat
  | .fld h a pd m => st = .vector && h.ok st false false && okV st 64 a && pd ≠ 7 && m.ok
  | .fset h _ m d => st = .vector && h.ok st false false && m.ok && d.okData st 64 false
  | .fclr h m => st = .vector && h.ok st false false && m.ok
  | .waiton h cond t a m d =>
    st = .vector && h.ok st false false && cond.isInt && t.isInt && a.ok st t.bits true && m.ok &&
    d.okData st t.bits false && okUni a [m.base, m.index, d]
  | .txb h off => st = .vector && h.ok st true false && okOff off
  | .txe h | .txa h _ => st = .vector && h.ok st true false
  | .fence h kind _ spec =>
    st = .vector && h.ok st true false && kind ≠ .none && (!spec || kind = .acq || kind = .ar)
  | .gath h t a m _ => st = .vector && h.ok st false true && t.isBits && okV st t.bits a && m.ok
  | .dpf h m => st = .vector && h.ok st false true && m.ok
  | .cpy h scope _ x y len tag =>
    st = .vector && h.ok st false true && scope.wide && x.okBase false && y.okBase false && len.okSrc st 32 false &&
    tag.ok st
  | .cpyt h scope _ x y org tag =>
    st = .vector && h.ok st false true && scope.wide && x.okBase false && y.okBase false &&
    (match org with
     | .v _ | .s _ => true
     | _ => false) && tag.ok st
  | .tagarm h tag count => h.ok st true false && tag.ok st && count.okSrc st 32 false
  | .tagwt h _ mask => h.ok st true false && okMask st mask
  | .tagff h a mask => h.ok st true false && a.ok st 32 false && okMask st mask
  | .tagclr h mask => h.ok st true false && okMask st mask
  | .bari h _ _ n => h.ok st true false && okBariCount st n
  | .bara h _ r => h.ok st true false && okRank st true r
  | .barw h _ p => h.ok st true false && okRank st false p
  | .bar h => st = .vector && h.ok st true false
  | .tcfg h _ _ x => st = .tile && h.ok st true false && x.okOne st 32 true true false
  | .tld h _ ql _ => st = .tile && h.ok st true true && ql.toNat % 2 = 0
  | .tzero h f64 a => st = .tile && h.ok st true false && (!f64 || a.toNat % 2 = 0)
  | .mma h _ _ _ | .mmas h _ _ _ _ _ | .mmad h _ _ _ => st = .tile && h.ok st true false
  | .dcmp h _ _ qd terms l =>
    st = .tile && h.ok st true false && qd.toNat ≤ 28 && 1 ≤ terms.toNat && terms.toNat ≤ 4 &&
    l.okOne st 32 true true true
  | .tdrain h _ _ _ scope kind a ql _ tag =>
    st = .tile && h.ok st true true && scope.wide && (kind ≠ .f64 || a.toNat % 2 = 0) && ql.toNat % 2 = 0 && tag.ok st
  | .tmov h kind _ a blk =>
    st = .tile && h.ok st true false && (kind ≠ .f64 || a.toNat % 2 = 0) && blk.okOne st 32 false false false
  | .tepi h _ kind _ _ blk alpha _ =>
    st = .tile && h.ok st true false && kind ≠ .f64 && blk.okOne st 32 false false false &&
    alpha.okOne st 32 true false true
  | .tstv h t _ off v => st = .vector && h.ok st false false && t.okMove && okTileOff t off && okV st t.bits v
  | .tldv h t v _ off => st = .vector && h.ok st false false && t.okMove && okTileOff t off && okV st t.bits v
  | .launch h b => st = .vector && h.ok st true false && b.okPair
  | .pbar h => h.ok st true false
  | .gbar h => st = .vector && h.ok st true false
  | .event h x => st = .vector && h.ok st true false && x.okSrc st 32 false
  | .forkw h n off =>
    st = .vector && h.ok st true false && okOff off &&
    (match n with
     | .s _ => true
     | .int n => 2 ≤ n.toNat && n.toNat ≤ 8
     | _ => false)
  | .yieldw h x =>
    st = .vector && h.ok st true false &&
    (match x with
     | .v _ | .s _ | .int _ | .lit _ => true
     | _ => false)
  | .choose h k =>
    st = .vector && h.ok st true false &&
    (match k with
     | .s _ | .lit _ => true
     | .int n => n.toNat ≤ 7
     | _ => false)
  | .chooseNone h | .chooseSelf h => st = .vector && h.ok st true false
  | .issueSelect .. | .classBatchClose .. | .yieldExpiry .. | .instanceStart .. | .resultWrite .. | .slackViolation ..
  | .unitGate .. | .unitWake .. | .requestSend .. | .homeSliceRequest .. | .fillArrive .. | .writeAck ..
  | .accessRetry .. | .releaseComplete .. | .specFenceComplete .. | .waitonPoll .. | .fifoServe ..
  | .gatherSubgroupRelease .. | .txCommit .. | .txUnlock .. | .copyDeliver .. | .pageFaultRoute ..
  | .replayComplete .. | .ifetchRequest .. | .ifetchFill .. | .fetchFault .. | .tileInstrStart ..
  | .tileInstrComplete .. | .phaseRecordWrite .. | .phaseStart .. | .gbarOpen .. | .blockPlace ..
  | .blockDeschedule .. | .blockRequeue .. | .blockEnd .. | .gridComplete .. | .gridTimeLimit ..
  | .deviceLaunchRead .. | .rivalEnd .. | .viewCommit .. | .commitRetryEnd .. | .outboxPerform .. | .viewIdReturn ..
  | .viewSpill .. | .hostMemWrite .. | .ylReductionArrive .. | .ylLinkState .. | .memoryError .. | .qtailDoorbell ..
  | .qctlReset .. | .queueEnable .. | .queueDisable .. | .ringEnable .. | .ringDisable .. | .eheadWrite ..
  | .interruptCoalesceTimeout .. | .creset .. | .partcfgWrite .. | .registerWrite .. | .pad .. | .launchPkt ..
  | .graph .. | .graphNodeStart .. | .copy .. | .fill .. | .signalWrite .. | .signalAdd .. | .wait ..
  | .waitTimeout .. | .inval .. | .resume .. | .preemptSaveQueue .. | .preemptSaveContext .. | .preemptRestore ..
  | .stop .. | .stopContinue .. | .ctxcreate .. | .ctxdestroy .. | .cmcfgCacheWay .. | .cmcfgScratchpad ..
  | .cmcfgFifo .. | .oppoint .. | .railSlewDone | .retentionEnter .. | .wakeStart .. | .retentionExit ..
  | .histEnable .. | .histDisable .. | .histDrainDone | .thermalSample .. | .thermalRecover | .deviceReset | .loadimg
  | .enrolKey | .revoke | .romboot | .mailboxBadcmd | .getVersion .. | .getCapabilities .. | .negotiateAlgorithms ..
  | .getDigests .. | .getCertificate .. | .challenge .. | .getMeasurements .. | .keyExchange .. | .finish ..
  | .hostPeerWriteAck .. | .yunavinFlitRetry .. => true

end Sys2Proof
end

