-- ==== Sys2Proof/Decode.lean ====
section
/-! DEFINITION. The decoder of instruction words (Tables 8.1 to 8.10, R180 to R196), total on any word and rejecting
with the ILLOP reason, and the encoder written from the same tables. The decoder of packets follows (R336, R339). -/

namespace Sys2Proof

/-- The fields of an instruction word (Table 8.1). -/
structure Raw where
  opc : BitVec 10
  sub : BitVec 4
  a : BitVec 9
  b : BitVec 9
  c : BitVec 9
  d : BitVec 9
  e : BitVec 9
  g1 : BitVec 4
  g2 : BitVec 4
  gc : Bool
  hint : BitVec 2
  slk : BitVec 3
  lit : Bool
  sch : BitVec 2
  xf : BitVec 20
  ext : Word
  deriving DecidableEq, Repr

/-- The fields at their bit positions (Table 8.1). -/
def Raw.ofWord (w : IWord) : Raw :=
  { opc := w.extractLsb' 0 10, sub := w.extractLsb' 10 4, a := w.extractLsb' 14 9, b := w.extractLsb' 23 9,
    c := w.extractLsb' 32 9, d := w.extractLsb' 41 9, e := w.extractLsb' 50 9, g1 := w.extractLsb' 59 4,
    g2 := w.extractLsb' 63 4, gc := w.getLsbD 67, hint := w.extractLsb' 68 2, slk := w.extractLsb' 70 3,
    lit := w.getLsbD 73, sch := w.extractLsb' 74 2, xf := w.extractLsb' 76 20, ext := w.extractLsb' 96 32 }

/-- The word with these fields. -/
def Raw.toWord (r : Raw) : IWord :=
  r.ext ++ r.xf ++ r.sch ++ BitVec.ofBool r.lit ++ r.slk ++ r.hint ++ BitVec.ofBool r.gc ++ r.g2 ++ r.g1 ++ r.e ++ r.d
    ++ r.c ++ r.b ++ r.a ++ r.sub ++ r.opc

/-- One name per opcode of Table 8.9. -/
inductive Op where
  | iadd | isub | imul | imulh | imad | idiv | imin | imax | iabs
  | and | or | xor | andn | bfn3 | shl | shr | fsh | popc | clz | brev | bfx | bfi | adrs | permb
  | sel | mov | movs | movc | icmp | plop
  | shfl | vote | ballot | redux | scan | matchLanes | elect
  | fadd | fsub | fmul | ffma | fmin | fmax | fcmp | fclass | frnd | fscale | fgexp | fdot2
  | frcp | frsq | fsqrt | fexp2 | flog2 | fsin | fcos | ftanh | fsigm
  | cvt | cvts | qblk | dqblk | dropm | rng
  | bra | brx | call | ret | exit | yield | nop | waitc | enrol | rejoin | strike | trap | rte | ipf | icinv | ifence
  | ld | st | atom | red | fld | fset | fclr | waiton | txb | txe | txa | fence | gath | dpf
  | cpy | cpyt | tagarm | tagwt | tagff | tagclr | bari | bara | barw | bar
  | tcfg | tld | tzero | mma | mmas | dcmp | mmad | tdrain | tmov | tepi | tstv | tldv
  | launch | pbar | gbar | event | forkw | yieldw | choose
  deriving DecidableEq, Repr

/-- The opcode map (Table 8.9), first part: arithmetic and floating point. -/
def opTable1 : List (Nat × Op) :=
  [(0x001, .iadd), (0x002, .isub), (0x003, .imul), (0x004, .imulh), (0x005, .imad), (0x006, .idiv), (0x007, .imin),
   (0x008, .imax), (0x009, .iabs), (0x010, .and), (0x011, .or), (0x012, .xor), (0x013, .andn), (0x014, .bfn3),
   (0x018, .shl), (0x019, .shr), (0x01A, .fsh), (0x020, .popc), (0x021, .clz), (0x022, .brev), (0x023, .bfx),
   (0x024, .bfi), (0x025, .adrs), (0x026, .permb), (0x028, .sel), (0x029, .mov), (0x02A, .movs), (0x02B, .movc),
   (0x030, .icmp), (0x031, .plop), (0x040, .shfl), (0x041, .vote), (0x042, .ballot), (0x043, .redux), (0x044, .scan),
   (0x045, .matchLanes), (0x046, .elect)]

def opTable2 : List (Nat × Op) :=
  [(0x060, .fadd), (0x061, .fsub), (0x062, .fmul), (0x063, .ffma), (0x064, .fmin), (0x065, .fmax), (0x066, .fcmp),
   (0x067, .fclass), (0x068, .frnd), (0x069, .fscale), (0x06A, .fgexp), (0x06B, .fdot2), (0x070, .frcp),
   (0x071, .frsq), (0x072, .fsqrt), (0x073, .fexp2), (0x074, .flog2), (0x075, .fsin), (0x076, .fcos), (0x077, .ftanh),
   (0x078, .fsigm), (0x080, .cvt), (0x081, .cvts), (0x082, .qblk), (0x083, .dqblk), (0x088, .dropm), (0x089, .rng)]

/-- Control and memory. -/
def opTable3 : List (Nat × Op) :=
  [(0x0C0, .bra), (0x0C1, .brx), (0x0C2, .call), (0x0C3, .ret), (0x0C4, .exit), (0x0C5, .yield), (0x0C6, .nop),
   (0x0C7, .waitc), (0x0C8, .enrol), (0x0C9, .rejoin), (0x0CA, .strike), (0x0CB, .trap), (0x0CC, .rte), (0x0D0, .ipf),
   (0x0D1, .icinv), (0x0D2, .ifence), (0x100, .ld), (0x101, .st), (0x102, .atom), (0x103, .red), (0x108, .fld),
   (0x109, .fset), (0x10A, .fclr), (0x10B, .waiton), (0x110, .txb), (0x111, .txe), (0x112, .txa), (0x118, .fence),
   (0x119, .gath), (0x11A, .dpf)]

/-- Engines, barriers, tiles and system. -/
def opTable4 : List (Nat × Op) :=
  [(0x140, .cpy), (0x141, .cpyt), (0x148, .tagarm), (0x149, .tagwt), (0x14A, .tagff), (0x14B, .tagclr), (0x160, .bari),
   (0x161, .bara), (0x162, .barw), (0x163, .bar), (0x180, .tcfg), (0x181, .tld), (0x182, .tzero), (0x183, .mma),
   (0x184, .mmas), (0x185, .dcmp), (0x186, .mmad), (0x187, .tdrain), (0x188, .tmov), (0x189, .tepi), (0x190, .tstv),
   (0x191, .tldv), (0x1C0, .launch), (0x1C1, .pbar), (0x1C2, .gbar), (0x1C3, .event), (0x1E0, .forkw),
   (0x1E1, .yieldw), (0x1E2, .choose)]

def opTable : List (Nat × Op) := opTable1 ++ opTable2 ++ opTable3 ++ opTable4

/-- The operation of an opcode, if Table 8.9 assigns it. -/
def Op.ofCode (c : BitVec 10) : Option Op := (opTable.find? (fun e => e.1 = c.toNat)).map (·.2)

/-- The opcode of an operation. -/
def Op.code (o : Op) : BitVec 10 :=
  BitVec.ofNat 10 (((opTable.find? (fun e => e.2 = o)).map (·.1)).getD 0)

/-- Type codes (Table 8.5). -/
def tyOf? (c : BitVec 4) : Option Ty :=
  match c.toNat with
  | 0x0 => some .i32
  | 0x1 => some .n32
  | 0x2 => some .i64
  | 0x3 => some .n64
  | 0x4 => some .b8
  | 0x5 => some .b16
  | 0x6 => some .b32
  | 0x7 => some .b64
  | 0x8 => some .b128
  | 0x9 => some .f16x2
  | 0xA => some .bf16x2
  | 0xB => some .f32
  | 0xC => some .f64
  | _ => none

def Ty.code : Ty → BitVec 4
  | .i32 => 0x0#4
  | .n32 => 0x1#4
  | .i64 => 0x2#4
  | .n64 => 0x3#4
  | .b8 => 0x4#4
  | .b16 => 0x5#4
  | .b32 => 0x6#4
  | .b64 => 0x7#4
  | .b128 => 0x8#4
  | .f16x2 => 0x9#4
  | .bf16x2 => 0xA#4
  | .f32 => 0xB#4
  | .f64 => 0xC#4

/-- The type SUB names; a reserved code is refused with reason 0x03 before this is used. -/
def tyOf (c : BitVec 4) : Ty := (tyOf? c).getD .i32

/-- COND codes (Table 8.6). -/
def condOf? (c : BitVec 4) : Option Cond :=
  match c.toNat with
  | 0x0 => some .eq
  | 0x1 => some .ne
  | 0x2 => some .lt
  | 0x3 => some .le
  | 0x4 => some .gt
  | 0x5 => some .ge
  | 0x8 => some .equ
  | 0x9 => some .neu
  | 0xA => some .ltu
  | 0xB => some .leu
  | 0xC => some .gtu
  | 0xD => some .geu
  | 0xE => some .num
  | 0xF => some .nan
  | _ => none

def condOf (c : BitVec 4) : Cond := (condOf? c).getD .eq

def Cond.code : Cond → BitVec 4
  | .eq => 0x0#4
  | .ne => 0x1#4
  | .lt => 0x2#4
  | .le => 0x3#4
  | .gt => 0x4#4
  | .ge => 0x5#4
  | .equ => 0x8#4
  | .neu => 0x9#4
  | .ltu => 0xA#4
  | .leu => 0xB#4
  | .gtu => 0xC#4
  | .geu => 0xD#4
  | .num => 0xE#4
  | .nan => 0xF#4

/-- AOP codes (Table 8.6). -/
def aopOf? (c : BitVec 4) : Option Aop :=
  match c.toNat with
  | 0 => some .add
  | 1 => some .min
  | 2 => some .max
  | 3 => some .and
  | 4 => some .or
  | 5 => some .xor
  | 6 => some .exch
  | _ => none

def aopOf (c : BitVec 4) : Aop := (aopOf? c).getD .add

def Aop.code : Aop → BitVec 4
  | .add => 0#4
  | .min => 1#4
  | .max => 2#4
  | .and => 3#4
  | .or => 4#4
  | .xor => 5#4
  | .exch => 6#4

def rndOf (c : BitVec 2) : Rnd :=
  match c.toNat with
  | 0 => .rn
  | 1 => .rz
  | 2 => .rd
  | _ => .ru

def Rnd.code : Rnd → BitVec 2
  | .rn => 0#2
  | .rz => 1#2
  | .rd => 2#2
  | .ru => 3#2

def kindOf (c : BitVec 2) : Kind :=
  match c.toNat with
  | 0 => .none
  | 1 => .acq
  | 2 => .rel
  | _ => .ar

def Kind.code : Kind → BitVec 2
  | .none => 0#2
  | .acq => 1#2
  | .rel => 2#2
  | .ar => 3#2

/-- Scope codes (Table 4.1); 5 to 7 are refused with reason 0x0A before this is used. -/
def scopeOf (c : BitVec 3) : Scope :=
  match c.toNat with
  | 0 => .wp
  | 1 => .co
  | 2 => .cl
  | 3 => .dv
  | _ => .sy

def Scope.code : Scope → BitVec 3
  | .wp => 0#3
  | .co => 1#3
  | .cl => 2#3
  | .dv => 3#3
  | .sy => 4#3

def patOf (c : BitVec 4) : Pattern :=
  match c.toNat with
  | 0 => .p24
  | 1 => .p14
  | 2 => .p28
  | _ => .p48

def Pattern.code : Pattern → BitVec 4
  | .p24 => 0#4
  | .p14 => 1#4
  | .p28 => 2#4
  | .p48 => 3#4

def accKindOf (c : BitVec 2) : AccKind :=
  match c.toNat with
  | 0 => .f32
  | 1 => .i32
  | _ => .f64

def AccKind.code : AccKind → BitVec 2
  | .f32 => 0#2
  | .i32 => 1#2
  | .f64 => 2#2

def tepiOf (c : BitVec 2) : TepiOp :=
  match c.toNat with
  | 0 => .none
  | 1 => .relu
  | 2 => .sigm
  | _ => .tanh

def TepiOp.code : TepiOp → BitVec 2
  | .none => 0#2
  | .relu => 1#2
  | .sigm => 2#2
  | .tanh => 3#2

def shflOf (c : BitVec 4) : ShflMode :=
  match c.toNat with
  | 0 => .pick
  | 1 => .shift
  | 2 => .rot
  | _ => .xor

def ShflMode.code : ShflMode → BitVec 4
  | .pick => 0#4
  | .shift => 1#4
  | .rot => 2#4
  | .xor => 3#4

def voteOf (c : BitVec 4) : VoteMode :=
  match c.toNat with
  | 0 => .every
  | 1 => .some
  | 2 => .same
  | _ => .count

def VoteMode.code : VoteMode → BitVec 4
  | .every => 0#4
  | .some => 1#4
  | .same => 2#4
  | .count => 3#4

def partOf (c : BitVec 4) : TilePart :=
  match c.toNat with
  | 0 => .slot
  | 1 => .rows
  | _ => .cols

def TilePart.code : TilePart → BitVec 4
  | .slot => 0#4
  | .rows => 1#4
  | .cols => 2#4

/-- A general operand field as a source (Table 8.2); reserved values are refused with reason 0x04. -/
def Opd.ofField (v : BitVec 9) (ext : Word) : Opd :=
  if v.toNat < 0x100 then .v (v.setWidth 8)
  else if v.toNat < 0x180 then .s (v.setWidth 7)
  else if v.toNat < 0x1A0 then .int (v.setWidth 5)
  else if v.toNat < 0x1B0 then .const (v.setWidth 4)
  else if v.toNat = 0x1FF then .lit ext
  else .zero

def Opd.toField : Opd → BitVec 9
  | .v n => 0b0#1 ++ n
  | .s n => 0b10#2 ++ n
  | .int n => 0b1100#4 ++ n
  | .const c => 0b11010#5 ++ c
  | .zero => 0x1FE#9
  | .lit _ => 0x1FF#9

/-- A field as a destination (R186). -/
def Dst.ofField (v : BitVec 9) : Dst :=
  if v.toNat < 0x100 then .v (v.setWidth 8)
  else if v.toNat < 0x180 then .s (v.setWidth 7)
  else .none

def Dst.toField : Dst → BitVec 9
  | .v n => 0b0#1 ++ n
  | .s n => 0b10#2 ++ n
  | .none => 0x1FE#9

/-- A tag operand field (R181). -/
def TagOpd.ofField (v : BitVec 9) : TagOpd :=
  if v.toNat < 0x180 then .reg (v.setWidth 7) else .tag (v.setWidth 6)

def TagOpd.toField : TagOpd → BitVec 9
  | .tag n => 0b110#3 ++ n
  | .reg n => 0b10#2 ++ n

/-- A special operand 0x180 + n (R181). -/
def special {k : Nat} (n : BitVec k) : BitVec 9 := 0x180#9 ||| n.setWidth 9

/-- Operand kinds of the encoding tables. -/
inductive Kd where
  /-- Not used: zero. -/
  | none
  | d (w : Nat) (z : Bool)
  /-- A destination that is a vector register. -/
  | dv (w : Nat) (z : Bool)
  | s (w : Nat) (flt : Bool)
  /-- A source that is a vector register. -/
  | v (w : Nat)
  | pred
  /-- `movs` of a special register. -/
  | sreg
  /-- A control register of `movc`. -/
  | ctl
  | int
  | one (w : Nat) (l z c : Bool)
  | base (z : Bool)
  | index
  | pair
  | org
  | mask
  | tag
  | tile (z : Bool)
  | acc
  | bar
  | tileOff (t : Ty)
  | count
  | rank (z : Bool)
  | forkN
  | score
  | pickK
  | zeroOnly
  /-- T of `dcmp`: any value but its four is out of its range (R301). -/
  | terms
  /-- A q register, zero where `z`, even where `ev`. -/
  | q (z ev : Bool)
  /-- Field C of `cvt`, for its two types. -/
  | cvtC (d s : Ty)
  deriving DecidableEq, Repr

/-- The field is a general operand of Table 8.2, judged by check 0x04; a special operand is judged by its kind. -/
def Kd.general : Kd → Bool
  | .none | .pred | .sreg | .ctl | .tag | .tile _ | .acc | .bar | .terms => false
  | _ => true

/-- A destination field: it never holds the literal (R185). -/
def Kd.isDst : Kd → Bool
  | .d _ _ | .dv _ _ | .ctl => true
  | _ => false

def inRange (v : BitVec 9) (lo hi : Nat) : Bool := lo ≤ v.toNat && v.toNat ≤ hi

/-- Check 0x09 of one field: the operand kind is accepted. -/
def Kd.ok (st : Stream) (v : BitVec 9) (ext : Word) : Kd → Bool
  | .none => true
  | .d w z => (v.toNat < 0x180 || v = 0x1FE) && (Dst.ofField v).ok st w z
  | .dv w z => (v.toNat < 0x180 || v = 0x1FE) && (Dst.ofField v).okVec w z
  | .s w f => (Opd.ofField v ext).okSrc st w f
  | .v w => v.toNat < 0x100 && okV st w (v.setWidth 8)
  | .pred => inRange v 0x180 0x187 && okPred st (v.setWidth 3)
  | .sreg => inRange v 0x180 0x1BF
  | .ctl => v = 0x1A1 || v = 0x1A2
  | .int => inRange v 0x180 0x19F
  | .one w l z c => (Opd.ofField v ext).okOne st w l z c
  | .base z => (Opd.ofField v ext).okBase z
  | .index => (Opd.ofField v ext).okIndex
  | .pair => (Opd.ofField v ext).okPair
  | .org => v.toNat < 0x180
  | .mask => okMask st (Opd.ofField v ext)
  | .tag => inRange v 0x180 0x1BF || (inRange v 0x100 0x17F && (st = .vector || v.toNat < 0x120))
  | .tile z => inRange v 0x180 0x187 || (z && v = 0x1FE)
  | .acc => inRange v 0x180 0x183
  | .bar => inRange v 0x180 0x19F
  | .tileOff _ => inRange v 0x180 0x19F || v = 0x1FF
  | .count => (Opd.ofField v ext).okOne st 32 true false false
  | .rank z => okRank st z (Opd.ofField v ext)
  | .forkN => inRange v 0x100 0x19F
  | .score => v.toNat < 0x1A0 || v = 0x1FF
  | .pickK => inRange v 0x100 0x19F || v = 0x1FF
  | .zeroOnly => v = 0x1FE
  | .terms => true
  | .q z ev => (inRange v 0x100 0x11F && (!ev || v.toNat % 2 = 0)) || (z && v = 0x1FE)
  | .cvtC x y =>
    if x.isPair then (Opd.ofField v ext).okSrc st y.bits y.isFloat
    else v = 0x180 || v = 0x181 || v = 0x1FE

/-- Check 0x0A of one field: an encoded immediate is in range. -/
def Kd.inRange (v : BitVec 9) (ext : Word) : Kd → Bool
  | .tileOff t => okTileOff t (Opd.ofField v ext)
  | .count =>
    match Opd.ofField v ext with
    | .int n => 1 ≤ n.toNat
    | .lit x => 1 ≤ x.toNat && x.toNat ≤ 16388
    | _ => true
  | .forkN => v.toNat < 0x180 || Sys2Proof.inRange v 0x182 0x188
  | .pickK => v.toNat < 0x188 || v = 0x1FF
  | .terms => Sys2Proof.inRange v 0x181 0x184
  | _ => true

/-- What bits [127:96] hold when they are not the literal (Table 8.8). -/
inductive ExtKind where
  /-- No extension: zero unless LIT = 1. -/
  | none
  /-- A byte offset, or the limits of `waitc`. -/
  | offset
  /-- The offset of a target: a multiple of 16. -/
  | target
  /-- A code or truth table in [103:96]. -/
  | code
  | zero
  deriving DecidableEq, Repr

/-- What an entry says of one word: its streams, class, fields and checks. -/
structure Entry where
  vec : Bool := true
  tile : Bool := false
  ctrl : Bool := false
  hint : Bool := false
  /-- Check 0x03. -/
  sub : Bool := true
  a : Kd := .none
  b : Kd := .none
  c : Kd := .none
  d : Kd := .none
  e : Kd := .none
  /-- The XF bits used. -/
  xf : BitVec 20 := 0
  ext : ExtKind := .none
  /-- Further conditions of checks 0x05, 0x08, 0x09 and 0x0A. -/
  ok5 : Bool := true
  ok8 : Bool := true
  ok9 : Bool := true
  okA : Bool := true
  /-- The entry combines lanes: a uniform destination takes vector sources (R186). -/
  combines : Bool := false
  deriving DecidableEq, Repr

def Raw.slot (r : Raw) : BitVec 3 := r.xf.extractLsb' 14 3
def Raw.condV (r : Raw) : BitVec 4 := r.xf.extractLsb' 10 4
def Raw.pdV (r : Raw) : BitVec 3 := r.xf.extractLsb' 7 3
def Raw.sat (r : Raw) : Bool := r.xf.getLsbD 6
def Raw.rnd (r : Raw) : BitVec 2 := r.xf.extractLsb' 4 2
def Raw.stype (r : Raw) : BitVec 4 := r.xf.extractLsb' 0 4
def Raw.excl (r : Raw) : Bool := r.xf.getLsbD 4
def Raw.seg (r : Raw) : Bool := r.xf.getLsbD 5
def Raw.isc (r : Raw) : BitVec 3 := r.xf.extractLsb' 13 3
def Raw.pdM (r : Raw) : BitVec 3 := r.xf.extractLsb' 10 3
def Raw.aop (r : Raw) : BitVec 4 := r.xf.extractLsb' 6 4
def Raw.kind (r : Raw) : BitVec 2 := r.xf.extractLsb' 4 2
def Raw.spec (r : Raw) : Bool := r.xf.getLsbD 3
def Raw.scope (r : Raw) : BitVec 3 := r.xf.extractLsb' 0 3

/-- Place a field in XF at bit `p` of the field. -/
def place {k : Nat} (v : BitVec k) (p : Nat) : BitVec 20 := v.setWidth 20 <<< p

/-- The XF bits of each field (Table 8.7). -/
def mSLOT : BitVec 20 := 0x1C000
def mCOND : BitVec 20 := 0x03C00
def mPD : BitVec 20 := 0x00380
def mSAT : BitVec 20 := 0x00040
def mRND : BitVec 20 := 0x00030
def mSTYPE : BitVec 20 := 0x0000F
def mISC : BitVec 20 := 0x0E000
def mPDM : BitVec 20 := 0x01C00
def mAOP : BitVec 20 := 0x003C0
def mSPEC : BitVec 20 := 0x00008
def mSCOPE : BitVec 20 := 0x00007
def mKIND : BitVec 20 := 0x00030

/-- SUB names a type that the entry accepts. -/
def subTy (r : Raw) (p : Ty → Bool) : Bool := (tyOf? r.sub).any p

/-- An entry with a destination and up to three sources of one type. -/
def entryArith (r : Raw) (tile flt : Bool) (types : Ty → Bool) (srcs : Nat) (xf : BitVec 20) : Entry :=
  let w := (tyOf r.sub).bits
  { tile := tile, sub := subTy r types, a := .d w false, b := .s w flt,
    c := if 2 ≤ srcs then .s w flt else .none, d := if 3 ≤ srcs then .s w flt else .none, xf := xf  }

/-- The memory operand fields of layout M. -/
def entryMem (r : Raw) (e : Entry) : Entry :=
  { e with b := .base true, c := .index, ext := .offset, xf := e.xf ||| mISC, okA := e.okA && r.isc.toNat ≤ 4 }

/-- The entry of each opcode in a stream (Tables 9.2 to 12.7, 1.2, 7.3). -/
def entry (st : Stream) (r : Raw) : Op → Entry
  | .iadd | .isub | .imul => entryArith r true false (Ty.okInt st) 2 mSAT
  | .imulh => entryArith r false false Ty.isInt 2 0
  | .imad => entryArith r true false (Ty.okInt st) 3 mSAT
  | .idiv =>
    { entryArith r false false Ty.isInt 2 mSAT with
      e := .d (tyOf r.sub).bits true
      ok9 := okUni (Dst.ofField r.e) [Opd.ofField r.b r.ext, Opd.ofField r.c r.ext] &&
        okQuotRem (tyOf r.sub).bits (Dst.ofField r.a) (Dst.ofField r.e) }
  | .imin | .imax => entryArith r true false (Ty.okInt st) 2 0
  | .iabs => entryArith r false false (fun t => t = .i32 || t = .i64) 1 mSAT
  | .and | .or | .xor => entryArith r true false (Ty.okLogic st) 2 0
  | .andn => entryArith r false false (Ty.okLogic st) 2 0
  | .bfn3 => { entryArith r false false (Ty.okLogic st) 3 0 with ext := .code }
  | .shl | .shr => { entryArith r true false (Ty.okLogic st) 1 0 with c := .s 32 false }
  | .fsh => { entryArith r false false Ty.isBits 2 0 with d := .s 32 false }
  | .popc | .clz => { entryArith r false false Ty.isBits 1 0 with a := .d 32 false }
  | .brev => entryArith r false false Ty.isBits 1 0
  | .bfx => { entryArith r false false Ty.isInt 1 0 with c := .s 32 false, d := .s 32 false }
  | .bfi => { entryArith r false false Ty.isBits 2 0 with d := .s 32 false, e := .s 32 false }
  | .adrs =>
    { sub := subTy r Ty.isInt32, a := .d 64 false, b := .s 64 false, c := .s 32 false, d := .int }
  | .permb => entryArith r false false (fun t => t = .b32) 3 0
  | .sel => { entryArith r true (tyOf r.sub).isFloat (Ty.okSel st) 2 0 with d := .pred }
  | .mov =>
    if r.sub = Ty.code .b128 then { sub := st = .vector, tile := true, a := .dv 128 false, b := .v 128 }
    else entryArith r true (tyOf r.sub).isFloat (Ty.okSel st) 1 0
  | .movs =>
    let n := r.b.toNat - 0x180
    { tile := true, ctrl := true, a := .d (if r.sub = Ty.code .b64 then 64 else 32) false, b := .sreg,
      sub := (r.sub = Ty.code .b32 || r.sub = Ty.code .b64) &&
        (!inRange r.b 0x180 0x1BF ||
          (match specialWidth n with
           | some 32 => r.sub = Ty.code .b32
           | some 64 => r.sub = Ty.code .b64
           | _ => true))
      ok9 := st = .vector || specialStream n
      okA := (specialWidth n).isSome
      combines := true }
  | .movc => { ctrl := true, sub := r.sub = Ty.code .b32, a := .ctl, b := .one 32 true false false }
  | .icmp =>
    let w := (tyOf r.sub).bits
    { tile := true, sub := subTy r (Ty.okInt st), b := .s w false, c := .s w false, xf := mCOND ||| mPD,
      ok9 := okPd st r.pdV, okA := r.condV.toNat ≤ 5 }
  | .plop => { sub := r.sub = 0, b := .pred, c := .pred, d := .pred, xf := mPD, ext := .code }
  | .shfl =>
    let w := (tyOf r.sub).bits
    { sub := subTy r Ty.isBits, a := .dv w false, b := .v w, c := .s 32 false, d := .int, xf := mPD ||| mSTYPE,
      okA := r.stype.toNat ≤ 3 && r.d.toNat ≤ 0x185 }
  | .vote =>
    { sub := r.sub = Ty.code .b32, a := .d 32 true, b := .pred, xf := mPD ||| mSTYPE,
      ok9 := r.a ≠ 0x1FE || r.pdV ≠ 7, okA := r.stype.toNat ≤ 3, combines := true }
  | .ballot =>
    { sub := r.sub = Ty.code .b32, a := .d 32 false, b := .pred, xf := mSTYPE, okA := r.stype = 0, combines := true }
  | .redux =>
    let w := (tyOf r.sub).bits
    { sub := subTy r (fun t => (t.isInt || t.isBits || t = .f32) && (r.stype.toNat > 2 || !t.isBits)),
      a := .d w false, b := .v w, xf := mSTYPE,
      okA := r.stype.toNat ≤ 5 && (r.sub ≠ Ty.code .f32 || r.stype.toNat ≤ 2), combines := true }
  | .scan =>
    let w := (tyOf r.sub).bits
    { sub := subTy r (fun t => (t.isInt || t.isBits || t = .f32) && (r.stype.toNat > 2 || !t.isBits)),
      a := .dv w false, b := .v w, d := if r.seg then .pred else .none, xf := mSTYPE ||| mRND,
      okA := r.stype.toNat ≤ 5 && (r.sub ≠ Ty.code .f32 || r.stype.toNat ≤ 2) }
  | .matchLanes =>
    let w := (tyOf r.sub).bits
    let peers : Bool := r.stype = 0
    { sub := subTy r Ty.isBits, a := if peers then .dv 32 false else .d 32 true, b := .v w,
      xf := if peers then mSTYPE else mPD ||| mSTYPE,
      ok9 := peers || r.a ≠ 0x1FE || r.pdV ≠ 7, okA := r.stype.toNat ≤ 1, combines := true }
  | .elect =>
    { sub := r.sub = 0, a := .d 32 true, xf := mPD ||| mSTYPE, ok9 := r.a ≠ 0x1FE || r.pdV ≠ 7, okA := r.stype = 0,
      combines := true }
  | .fadd | .fsub | .fmul =>
    { entryArith r false true Ty.isFloat 2 (mSAT ||| mRND) with
      ok5 := !r.sat || (tyOf r.sub).isPair, okA := r.rnd = 0 || (tyOf r.sub).isReal }
  | .ffma =>
    { entryArith r false true Ty.isFloat 3 (mSAT ||| mRND) with
      ok5 := !r.sat || (tyOf r.sub).isPair, okA := r.rnd = 0 || (tyOf r.sub).isReal }
  | .fmin | .fmax => { entryArith r false true Ty.isFloat 2 mRND with okA := r.rnd = 0 }
  | .fcmp =>
    let w := (tyOf r.sub).bits
    { sub := subTy r Ty.isReal, b := .s w true, c := .s w true, xf := mCOND ||| mPD, okA := (condOf? r.condV).isSome }
  | .fclass => { sub := subTy r Ty.isReal, b := .s (tyOf r.sub).bits true, c := .s 32 false, xf := mPD }
  | .frnd => entryArith r false true Ty.isReal 1 mRND
  | .fscale => { entryArith r false true Ty.isReal 1 mRND with c := .s 32 false }
  | .fgexp => { entryArith r false true Ty.isReal 1 mRND with a := .d 32 false, okA := r.rnd = 0 }
  | .fdot2 =>
    { sub := subTy r Ty.isPair, a := .d 32 false, b := .s 32 true, c := .s 32 true, d := .s 32 true, xf := mRND }
  | .frcp | .fsqrt =>
    { entryArith r false true Ty.isFloat 1 mRND with okA := r.rnd = 0 || (tyOf r.sub).isReal }
  | .frsq | .fexp2 | .flog2 | .fsin | .fcos | .ftanh | .fsigm =>
    { entryArith r false true (fun t => t = .f32 || t.isPair) 1 mRND with okA := r.rnd = 0 }
  | .cvt =>
    let d := tyOf r.sub
    let s := tyOf r.stype
    let same : Bool := d.isPair = s.isPair
    { sub := subTy r Ty.okCvt && (tyOf? r.stype).any Ty.okCvt && r.sub ≠ r.stype, a := .d d.bits false,
      b := .s s.bits s.isFloat, c := if same then .none else .cvtC d s, xf := mSAT ||| mRND ||| mSTYPE,
      ok5 := !r.sat || d.isPair || (d.isInt && s.isInt),
      okA := r.rnd = 0 || !(d.isPair || (d.isInt && s.isInt)) }
  | .cvts =>
    if r.sub = Ty.code .f32 then
      { sub := r.stype = Ty.code .b32, a := .d 32 false, b := .s 32 false, c := .int,
        xf := mSLOT ||| mRND ||| mSTYPE, okA := r.rnd = 0 && r.c.toNat ≤ 0x187 }
    else
      { sub := r.sub = Ty.code .b32 && r.stype = Ty.code .f32, a := .d 32 false, b := .s 32 true, c := .s 32 true,
        d := .s 32 false, e := .int, xf := mSLOT ||| mRND ||| mSTYPE,
        okA := r.rnd = 0 && r.e.toNat ≤ 0x186 && r.e.toNat % 2 = 0 }
  | .qblk =>
    { sub := r.sub = Ty.code .b32 && r.stype = Ty.code .f32, a := .dv 32 false, b := .s 32 true,
      xf := mSLOT ||| mRND ||| mSTYPE, okA := r.rnd = 0 }
  | .dqblk =>
    { sub := r.sub = Ty.code .f32 && r.stype = Ty.code .b32, a := .dv 32 false, b := .v 32,
      xf := mSLOT ||| mRND ||| mSTYPE, okA := r.rnd = 0 }
  | .dropm =>
    { sub := subTy r Ty.isBits, b := .s (tyOf r.sub).bits false, c := .s 32 false, xf := mPD, ok9 := r.pdV ≠ 7 }
  | .rng => { sub := subTy r (fun t => t.isBits || t = .f32), a := .d (tyOf r.sub).bits false, b := .s 64 false }
  | .bra => { tile := true, ctrl := true, sub := r.sub = 0, ext := .target }
  | .brx => { ctrl := true, sub := r.sub = 0, b := .pair }
  | .call => { ctrl := true, sub := r.sub = 0, a := .dv 64 false, ext := .target }
  | .ret => { ctrl := true, sub := r.sub = 0, b := .v 64 }
  | .exit | .nop => { tile := true, ctrl := true, sub := r.sub = 0 }
  | .yield => { ctrl := true, sub := r.sub = 0, ok8 := r.sch = 0 }
  | .waitc => { ctrl := true, sub := r.sub = 0, ext := .offset }
  | .enrol | .rejoin | .strike => { ctrl := true, sub := r.sub = 0, xf := mSCOPE }
  | .trap => { ctrl := true, sub := r.sub = 0, ext := .code }
  | .rte | .ifence => { ctrl := true, sub := r.sub = 0 }
  | .ipf => { ctrl := true, sub := r.sub = 0, b := .int, ext := .target, okA := inRange r.b 0x181 0x188 }
  | .icinv => { ctrl := true, sub := r.sub = 0, b := .pair, c := .s 32 false }
  | .ld =>
    entryMem r
      { hint := true, sub := subTy r (fun _ => true), a := .d (tyOf r.sub).regBits false, xf := mKIND ||| mSCOPE,
        okA := r.scope.toNat ≤ 4 && (r.kind = 0 && r.scope = 0 || r.kind = 1) }
  | .st =>
    entryMem r
      { hint := true, sub := subTy r (fun _ => true), d := .s (tyOf r.sub).regBits false, xf := mKIND ||| mSCOPE,
        okA := r.scope.toNat ≤ 4 && (r.kind = 0 && r.scope = 0 || r.kind = 2) }
  | .atom =>
    entryMem r
      { hint := true, sub := subTy r (fun t => (aopOf? r.aop).all (fun o => okAop o t) && (t.isInt || t.isBits || t.isReal)),
        a := .dv (tyOf r.sub).bits true, d := .s (tyOf r.sub).bits (tyOf r.sub).isFloat,
        xf := mAOP ||| mKIND ||| mSCOPE, okA := r.scope.toNat ≤ 4 && r.aop.toNat ≤ 6 }
  | .red =>
    entryMem r
      { hint := true, sub := subTy r (fun t => (aopOf? r.aop).all (fun o => okAop o t) && (t.isInt || t.isBits || t.isReal)),
        d := .s (tyOf r.sub).bits (tyOf r.sub).isFloat, xf := mAOP ||| mKIND ||| mSCOPE,
        okA := r.scope.toNat ≤ 4 && r.aop.toNat ≤ 5 && (r.kind = 0 || r.kind = 2) }
  | .fld => entryMem r { sub := r.sub = Ty.code .b64, a := .dv 64 false, xf := mPDM, ok9 := r.pdM ≠ 7 }
  | .fset => entryMem r { sub := r.sub = Ty.code .b64, d := .s 64 false, xf := mPDM }
  | .fclr => entryMem r { sub := r.sub = Ty.code .b64 }
  | .waiton =>
    entryMem r
      { sub := subTy r Ty.isInt, a := .d (tyOf r.sub).bits true, d := .s (tyOf r.sub).bits false, xf := mAOP,
        okA := r.aop.toNat ≤ 5 }
  | .txb => { ctrl := true, sub := r.sub = 0, ext := .target }
  | .txe => { ctrl := true, sub := r.sub = 0, ext := .zero }
  | .txa => { ctrl := true, sub := r.sub = 0, ext := .code }
  | .fence =>
    { ctrl := true, sub := r.sub = 0, xf := mKIND ||| mSPEC ||| mSCOPE, ext := .zero,
      okA := r.scope.toNat ≤ 4 && r.kind ≠ 0 && (!r.spec || r.kind = 1 || r.kind = 3) }
  | .gath => entryMem r { hint := true, sub := subTy r Ty.isBits, a := .dv (tyOf r.sub).bits false, xf := mPDM }
  | .dpf => entryMem r { hint := true, sub := r.sub = 0 }
  | .cpy =>
    { hint := true, sub := r.sub = 0, a := .base false, b := .base false, c := .s 32 false, d := .tag,
      xf := mSAT ||| mSCOPE, okA := r.scope.toNat ≤ 4 && 2 ≤ r.scope.toNat }
  | .cpyt =>
    { hint := true, sub := r.sub = 0, a := .base false, b := .base false, c := .org, d := .tag,
      xf := mSAT ||| mSCOPE, okA := r.scope.toNat ≤ 4 && 2 ≤ r.scope.toNat }
  | .tagarm => { tile := true, ctrl := true, sub := r.sub = 0, b := .tag, c := .s 32 false }
  | .tagwt => { tile := true, ctrl := true, sub := r.sub.toNat ≤ 1, b := .mask }
  | .tagff => { tile := true, ctrl := true, sub := r.sub = 0, a := .d 32 false, b := .mask }
  | .tagclr => { tile := true, ctrl := true, sub := r.sub = 0, b := .mask }
  | .bari => { tile := true, ctrl := true, sub := r.sub = 0, b := .bar, c := .count, xf := mSAT }
  | .bara => { tile := true, ctrl := true, sub := r.sub = 0, b := .bar, c := .rank true }
  | .barw => { tile := true, ctrl := true, sub := r.sub = 0, b := .bar, c := .rank false }
  | .bar => { ctrl := true, sub := r.sub = 0 }
  | .tcfg =>
    { vec := false, tile := true, ctrl := true, sub := r.sub.toNat ≤ 2, a := .tile false, b := .one 32 true true false }
  | .tld =>
    { vec := false, tile := true, ctrl := true, hint := true, sub := r.sub = 0, a := .tile false, b := .q false true,
      c := .q true false }
  | .tzero =>
    { vec := false, tile := true, ctrl := true, sub := r.sub.toNat ≤ 1, a := .acc, ok9 := r.sub = 0 || r.a.toNat % 2 = 0 }
  | .mma | .mmad =>
    { vec := false, tile := true, ctrl := true, sub := r.sub = 0, a := .acc, b := .tile false, c := .tile false }
  | .mmas =>
    { vec := false, tile := true, ctrl := true, sub := r.sub.toNat ≤ 3, a := .acc, b := .tile false, c := .tile false,
      d := .tile false }
  | .dcmp =>
    { vec := false, tile := true, ctrl := true, sub := r.sub.toNat ≤ 3, a := .tile false, b := .q false false,
      c := .terms, d := .one 32 true true true, okA := r.b.toNat ≤ 0x11C }
  | .tdrain =>
    { vec := false, tile := true, ctrl := true, hint := true, sub := r.sub.toNat ≤ 2, a := .acc, b := .q false true,
      c := .q true false, d := .tag, xf := mSAT ||| mRND ||| mSCOPE, ok9 := r.sub.toNat ≠ 2 || r.a.toNat % 2 = 0,
      okA := r.scope.toNat ≤ 4 && 2 ≤ r.scope.toNat }
  | .tmov =>
    { vec := false, tile := true, ctrl := true, sub := r.sub.toNat / 4 ≤ 2, a := .tile false, b := .acc,
      c := .one 32 false false false, ok5 := r.sub.toNat % 4 = 0, ok9 := r.sub.toNat / 4 ≠ 2 || r.b.toNat % 2 = 0 }
  | .tepi =>
    { vec := false, tile := true, ctrl := true, sub := r.sub.toNat / 4 ≤ 1, a := .tile false, b := .acc,
      c := .one 32 false false false, d := .one 32 true false true, e := .tile true }
  | .tstv =>
    { sub := subTy r Ty.okMove, a := .tile false, b := .tileOff (tyOf r.sub), c := .v (tyOf r.sub).bits }
  | .tldv =>
    { sub := subTy r Ty.okMove, a := .dv (tyOf r.sub).bits false, b := .tile false, c := .tileOff (tyOf r.sub) }
  | .launch => { ctrl := true, sub := r.sub = 0, b := .pair }
  | .pbar => { tile := true, ctrl := true, sub := r.sub = 0 }
  | .gbar => { ctrl := true, sub := r.sub = 0 }
  | .event => { ctrl := true, sub := r.sub = 0, b := .s 32 false }
  | .forkw => { ctrl := true, sub := r.sub = 0, b := .forkN, ext := .target }
  | .yieldw => { ctrl := true, sub := r.sub = 0, b := .score }
  | .choose => { ctrl := true, sub := r.sub.toNat ≤ 2, b := if r.sub = 0 then .pickK else .zeroOnly }

/-- A general operand field holds a value that the stream does not define (check 0x04). -/
def okField (st : Stream) (k : Kd) (v : BitVec 9) : Bool :=
  !k.general || (!inRange v 0x1B0 0x1FD && (st = .vector || (inRange v 0x100 0x11F || 0x180 ≤ v.toNat)))

/-- An unused field is zero (check 0x05). -/
def okUnused (k : Kd) (v : BitVec 9) : Bool := k ≠ .none || v = 0

/-- The extension's unused bits are zero (check 0x05). -/
def okExt (e : ExtKind) (lit : Bool) (ext : Word) : Bool :=
  lit ||
    (match e with
     | .none | .zero => ext = 0
     | .code => ext.toNat < 256
     | .offset | .target => true)

/-- The literal rules of R185 (check 0x06). -/
def okLit (e : Entry) (r : Raw) : Bool :=
  let fs := [(e.a, r.a), (e.b, r.b), (e.c, r.c), (e.d, r.d), (e.e, r.e)]
  let n := (fs.filter (fun f => f.1 ≠ .none && f.2 = 0x1FF)).length
  (if r.lit then e.ext = .none && n = 1 else n = 0) && fs.all (fun f => !(f.1.isDst && f.2 = 0x1FF))

/-- The sources that the destination rule of R186 looks at. -/
def generalSrcs (e : Entry) (r : Raw) : List Opd :=
  ([(e.b, r.b), (e.c, r.c), (e.d, r.d), (e.e, r.e)].filter (fun f => f.1.general && !f.1.isDst)).map
    (fun f => Opd.ofField f.2 r.ext)

/-- A uniform destination in A has no vector-register source (R186). -/
def okDst (e : Entry) (r : Raw) : Bool := !e.a.isDst || e.combines || okUni (Dst.ofField r.a) (generalSrcs e r)

/-- Slack and scheduling (check 0x08). -/
def okSched (st : Stream) (e : Entry) (r : Raw) : Bool :=
  match st with
  | .vector => r.sch ≠ 3 && (!e.ctrl || r.slk = 0)
  | .tile => r.slk = 0 && r.sch = 0

/-- The first check of Table 8.10 that the word fails, from 0x02 on (R195). In the tile stream a general operand field with 0x120 to
0x17F fails 0x04 before R295's 0x09 can be asked (DEDUCED, log entry 125). -/
def Entry.reason (st : Stream) (r : Raw) (e : Entry) : Option Nat :=
  if !(match st with
       | .vector => e.vec
       | .tile => e.tile) then some 0x02
  else if !e.sub then some 0x03
  else if !(okField st e.a r.a && okField st e.b r.b && okField st e.c r.c && okField st e.d r.d && okField st e.e r.e)
    then some 0x04
  else if !(okUnused e.a r.a && okUnused e.b r.b && okUnused e.c r.c && okUnused e.d r.d && okUnused e.e r.e &&
      r.xf &&& ~~~e.xf = 0 && (e.hint || r.hint = 0) && okExt e.ext r.lit r.ext && e.ok5) then some 0x05
  else if !okLit e r then some 0x06
  else if !(okGuard st r.g1 && okGuard st r.g2) then some 0x07
  else if !(okSched st e r && e.ok8) then some 0x08
  else if !(e.a.ok st r.a r.ext && e.b.ok st r.b r.ext && e.c.ok st r.c r.ext && e.d.ok st r.d r.ext &&
      e.e.ok st r.e r.ext && okDst e r && e.ok9) then some 0x09
  else if !(e.a.inRange r.a r.ext && e.b.inRange r.b r.ext && e.c.inRange r.c r.ext && e.d.inRange r.d r.ext &&
      e.e.inRange r.e r.ext && (e.ext ≠ .target || okOff r.ext) && e.okA) then some 0x0A
  else none

/-- The header fields. -/
def Raw.hdr (r : Raw) : Hdr :=
  { g1 := r.g1, g2 := r.g2, gc := r.gc, sch := r.sch, slk := r.slk, hint := r.hint }

/-- Fields A to E as sources. -/
def Raw.srcA (r : Raw) : Opd := Opd.ofField r.a r.ext
def Raw.srcB (r : Raw) : Opd := Opd.ofField r.b r.ext
def Raw.srcC (r : Raw) : Opd := Opd.ofField r.c r.ext
def Raw.srcD (r : Raw) : Opd := Opd.ofField r.d r.ext
def Raw.srcE (r : Raw) : Opd := Opd.ofField r.e r.ext
/-- Field A as a destination. -/
def Raw.dst (r : Raw) : Dst := Dst.ofField r.a
/-- A field as a vector register, an integer, a predicate or a tile. -/
def vreg (f : BitVec 9) : BitVec 8 := f.setWidth 8
def low3 (f : BitVec 9) : BitVec 3 := f.setWidth 3
def low5 (f : BitVec 9) : BitVec 5 := f.setWidth 5
def low2 (f : BitVec 9) : BitVec 2 := f.setWidth 2
/-- The memory operand. -/
def Raw.mem (r : Raw) : MAddr := { base := r.srcB, index := r.srcC, isc := r.isc, off := r.ext }
/-- An optional q register: `none` where the field is 0x1FE. -/
def optQ (f : BitVec 9) : Option (BitVec 5) := if f = 0x1FE then none else some (low5 f)
def Raw.code8 (r : Raw) : BitVec 8 := r.ext.setWidth 8

/-- The instruction of a word that passed the checks. -/
def build (r : Raw) : Op → Instr
  | .iadd => .iadd r.hdr (tyOf r.sub) r.sat r.dst r.srcB r.srcC
  | .isub => .isub r.hdr (tyOf r.sub) r.sat r.dst r.srcB r.srcC
  | .imul => .imul r.hdr (tyOf r.sub) r.sat r.dst r.srcB r.srcC
  | .imulh => .imulh r.hdr (tyOf r.sub) r.dst r.srcB r.srcC
  | .imad => .imad r.hdr (tyOf r.sub) r.sat r.dst r.srcB r.srcC r.srcD
  | .idiv => .idiv r.hdr (tyOf r.sub) r.sat r.dst (Dst.ofField r.e) r.srcB r.srcC
  | .imin => .imin r.hdr (tyOf r.sub) r.dst r.srcB r.srcC
  | .imax => .imax r.hdr (tyOf r.sub) r.dst r.srcB r.srcC
  | .iabs => .iabs r.hdr (tyOf r.sub) r.sat r.dst r.srcB
  | .and => .and r.hdr (tyOf r.sub) r.dst r.srcB r.srcC
  | .or => .or r.hdr (tyOf r.sub) r.dst r.srcB r.srcC
  | .xor => .xor r.hdr (tyOf r.sub) r.dst r.srcB r.srcC
  | .andn => .andn r.hdr (tyOf r.sub) r.dst r.srcB r.srcC
  | .bfn3 => .bfn3 r.hdr (tyOf r.sub) r.dst r.srcB r.srcC r.srcD r.code8
  | .shl => .shl r.hdr (tyOf r.sub) r.dst r.srcB r.srcC
  | .shr => .shr r.hdr (tyOf r.sub) r.dst r.srcB r.srcC
  | .fsh => .fsh r.hdr (tyOf r.sub) r.dst r.srcB r.srcC r.srcD
  | .popc => .popc r.hdr (tyOf r.sub) r.dst r.srcB
  | .clz => .clz r.hdr (tyOf r.sub) r.dst r.srcB
  | .brev => .brev r.hdr (tyOf r.sub) r.dst r.srcB
  | .bfx => .bfx r.hdr (tyOf r.sub) r.dst r.srcB r.srcC r.srcD
  | .bfi => .bfi r.hdr (tyOf r.sub) r.dst r.srcB r.srcC r.srcD r.srcE
  | .adrs => .adrs r.hdr (tyOf r.sub) r.dst r.srcB r.srcC (low5 r.d)
  | .permb => .permb r.hdr r.dst r.srcB r.srcC r.srcD
  | .sel => .sel r.hdr (tyOf r.sub) r.dst r.srcB r.srcC (low3 r.d)
  | .mov => .mov r.hdr (tyOf r.sub) r.dst r.srcB
  | .movs => .movs r.hdr (r.sub = Ty.code .b64) r.dst (r.b.setWidth 6)
  | .movc => .movc r.hdr (if r.a = 0x1A1 then .sbias else .tenable) r.srcB
  | .icmp => .icmp r.hdr (condOf r.condV) (tyOf r.sub) r.pdV r.srcB r.srcC
  | .plop => .plop r.hdr r.pdV (low3 r.b) (low3 r.c) (low3 r.d) r.code8
  | .shfl => .shfl r.hdr (shflOf r.stype) (tyOf r.sub) r.pdV (vreg r.a) (vreg r.b) r.srcC (low3 r.d)
  | .vote => .vote r.hdr (voteOf r.stype) r.pdV r.dst (low3 r.b)
  | .ballot => .ballot r.hdr r.dst (low3 r.b)
  | .redux => .redux r.hdr (aopOf r.stype) (tyOf r.sub) r.dst (vreg r.b)
  | .scan =>
    .scan r.hdr (aopOf r.stype) r.excl (if r.seg then some (low3 r.d) else none) (tyOf r.sub) (vreg r.a) (vreg r.b)
  | .matchLanes => .matchLanes r.hdr (r.stype ≠ 0) (tyOf r.sub) r.pdV r.dst (vreg r.b)
  | .elect => .elect r.hdr r.pdV r.dst
  | .fadd => .fadd r.hdr (tyOf r.sub) r.sat (rndOf r.rnd) r.dst r.srcB r.srcC
  | .fsub => .fsub r.hdr (tyOf r.sub) r.sat (rndOf r.rnd) r.dst r.srcB r.srcC
  | .fmul => .fmul r.hdr (tyOf r.sub) r.sat (rndOf r.rnd) r.dst r.srcB r.srcC
  | .ffma => .ffma r.hdr (tyOf r.sub) r.sat (rndOf r.rnd) r.dst r.srcB r.srcC r.srcD
  | .fmin => .fmin r.hdr (tyOf r.sub) r.dst r.srcB r.srcC
  | .fmax => .fmax r.hdr (tyOf r.sub) r.dst r.srcB r.srcC
  | .fcmp => .fcmp r.hdr (condOf r.condV) (tyOf r.sub) r.pdV r.srcB r.srcC
  | .fclass => .fclass r.hdr (tyOf r.sub) r.pdV r.srcB r.srcC
  | .frnd => .frnd r.hdr (tyOf r.sub) (rndOf r.rnd) r.dst r.srcB
  | .fscale => .fscale r.hdr (tyOf r.sub) (rndOf r.rnd) r.dst r.srcB r.srcC
  | .fgexp => .fgexp r.hdr (tyOf r.sub) r.dst r.srcB
  | .fdot2 => .fdot2 r.hdr (tyOf r.sub) (rndOf r.rnd) r.dst r.srcB r.srcC r.srcD
  | .frcp => .frcp r.hdr (tyOf r.sub) (rndOf r.rnd) r.dst r.srcB
  | .frsq => .frsq r.hdr (tyOf r.sub) r.dst r.srcB
  | .fsqrt => .fsqrt r.hdr (tyOf r.sub) (rndOf r.rnd) r.dst r.srcB
  | .fexp2 => .fexp2 r.hdr (tyOf r.sub) r.dst r.srcB
  | .flog2 => .flog2 r.hdr (tyOf r.sub) r.dst r.srcB
  | .fsin => .fsin r.hdr (tyOf r.sub) r.dst r.srcB
  | .fcos => .fcos r.hdr (tyOf r.sub) r.dst r.srcB
  | .ftanh => .ftanh r.hdr (tyOf r.sub) r.dst r.srcB
  | .fsigm => .fsigm r.hdr (tyOf r.sub) r.dst r.srcB
  | .cvt =>
    .cvt r.hdr (tyOf r.sub) (tyOf r.stype) r.sat (rndOf r.rnd) r.dst r.srcB
      (if (tyOf r.sub).isPair = (tyOf r.stype).isPair then none else some r.srcC)
  | .cvts =>
    if r.sub = Ty.code .f32 then .cvtsDecode r.hdr r.slot r.dst r.srcB (low5 r.c)
    else .cvtsEncode r.hdr r.slot r.dst r.srcB r.srcC r.srcD (low5 r.e)
  | .qblk => .qblk r.hdr r.slot (vreg r.a) r.srcB
  | .dqblk => .dqblk r.hdr r.slot (vreg r.a) (vreg r.b)
  | .dropm => .dropm r.hdr (r.sub = Ty.code .b64) r.pdV r.srcB r.srcC
  | .rng => .rng r.hdr (tyOf r.sub) r.dst r.srcB
  | .bra => .bra r.hdr r.ext
  | .brx => .brx r.hdr r.srcB
  | .call => .call r.hdr (vreg r.a) r.ext
  | .ret => .ret r.hdr (vreg r.b)
  | .exit => .exit r.hdr
  | .yield => .yield r.hdr
  | .nop => .nop r.hdr
  | .waitc =>
    .waitc r.hdr (r.ext.extractLsb' 0 8) (r.ext.extractLsb' 8 8) (r.ext.extractLsb' 16 8) (r.ext.extractLsb' 24 8)
  | .enrol => .enrol r.hdr r.scope
  | .rejoin => .rejoin r.hdr r.scope
  | .strike => .strike r.hdr r.scope
  | .trap => .trap r.hdr r.code8
  | .rte => .rte r.hdr
  | .ipf => .ipf r.hdr (low5 r.b) r.ext
  | .icinv => .icinv r.hdr r.srcB r.srcC
  | .ifence => .ifence r.hdr
  | .ld => .ld r.hdr (tyOf r.sub) (kindOf r.kind) (scopeOf r.scope) r.dst r.mem
  | .st => .st r.hdr (tyOf r.sub) (kindOf r.kind) (scopeOf r.scope) r.mem r.srcD
  | .atom => .atom r.hdr (aopOf r.aop) (tyOf r.sub) (kindOf r.kind) (scopeOf r.scope) r.dst r.mem r.srcD
  | .red => .red r.hdr (aopOf r.aop) (tyOf r.sub) (kindOf r.kind) (scopeOf r.scope) r.mem r.srcD
  | .fld => .fld r.hdr (vreg r.a) r.pdM r.mem
  | .fset => .fset r.hdr r.pdM r.mem r.srcD
  | .fclr => .fclr r.hdr r.mem
  | .waiton => .waiton r.hdr (condOf r.aop) (tyOf r.sub) r.dst r.mem r.srcD
  | .txb => .txb r.hdr r.ext
  | .txe => .txe r.hdr
  | .txa => .txa r.hdr r.code8
  | .fence => .fence r.hdr (kindOf r.kind) (scopeOf r.scope) r.spec
  | .gath => .gath r.hdr (tyOf r.sub) (vreg r.a) r.mem r.pdM
  | .dpf => .dpf r.hdr r.mem
  | .cpy => .cpy r.hdr (scopeOf r.scope) r.sat r.srcA r.srcB r.srcC (TagOpd.ofField r.d)
  | .cpyt => .cpyt r.hdr (scopeOf r.scope) r.sat r.srcA r.srcB r.srcC (TagOpd.ofField r.d)
  | .tagarm => .tagarm r.hdr (TagOpd.ofField r.b) r.srcC
  | .tagwt => .tagwt r.hdr (r.sub = 1) r.srcB
  | .tagff => .tagff r.hdr r.dst r.srcB
  | .tagclr => .tagclr r.hdr r.srcB
  | .bari => .bari r.hdr r.sat (low5 r.b) r.srcC
  | .bara => .bara r.hdr (low5 r.b) r.srcC
  | .barw => .barw r.hdr (low5 r.b) r.srcC
  | .bar => .bar r.hdr
  | .tcfg => .tcfg r.hdr (partOf r.sub) (low3 r.a) r.srcB
  | .tld => .tld r.hdr (low3 r.a) (low5 r.b) (optQ r.c)
  | .tzero => .tzero r.hdr (r.sub = 1) (low2 r.a)
  | .mma => .mma r.hdr (low2 r.a) (low3 r.b) (low3 r.c)
  | .mmas => .mmas r.hdr (patOf r.sub) (low2 r.a) (low3 r.b) (low3 r.c) (low3 r.d)
  | .dcmp => .dcmp r.hdr (patOf r.sub) (low3 r.a) (low5 r.b) (low5 r.c) r.srcD
  | .mmad => .mmad r.hdr (low2 r.a) (low3 r.b) (low3 r.c)
  | .tdrain =>
    .tdrain r.hdr (r.xf.getLsbD 6) (r.xf.getLsbD 5) (r.xf.getLsbD 4) (scopeOf r.scope) (accKindOf (r.sub.setWidth 2))
      (low2 r.a) (low5 r.b) (optQ r.c) (TagOpd.ofField r.d)
  | .tmov => .tmov r.hdr (accKindOf (r.sub.extractLsb' 2 2)) (low3 r.a) (low2 r.b) r.srcC
  | .tepi =>
    .tepi r.hdr (tepiOf (r.sub.setWidth 2)) (accKindOf (r.sub.extractLsb' 2 2)) (low3 r.a) (low2 r.b) r.srcC r.srcD
      (if r.e = 0x1FE then none else some (low3 r.e))
  | .tstv => .tstv r.hdr (tyOf r.sub) (low3 r.a) r.srcB (vreg r.c)
  | .tldv => .tldv r.hdr (tyOf r.sub) (vreg r.a) (low3 r.b) r.srcC
  | .launch => .launch r.hdr r.srcB
  | .pbar => .pbar r.hdr
  | .gbar => .gbar r.hdr
  | .event => .event r.hdr r.srcB
  | .forkw => .forkw r.hdr r.srcB r.ext
  | .yieldw => .yieldw r.hdr r.srcB
  | .choose =>
    if r.sub = 0 then .choose r.hdr r.srcB else if r.sub = 1 then .chooseNone r.hdr else .chooseSelf r.hdr

/-- The decoder of one word: the instruction, or the ILLOP reason of the first failing check (R195). -/
def decodeRaw (st : Stream) (r : Raw) : Except Nat Instr :=
  match Op.ofCode r.opc with
  | none => .error 0x01
  | some op =>
    match (entry st r op).reason st r with
    | some n => .error n
    | none => .ok (build r op)

/-- Decode a word of a stream. -/
def decodeWord (st : Stream) (w : IWord) : Except Nat Instr := decodeRaw st (Raw.ofWord w)

/-- The literal among the sources. -/
def litOf (srcs : List Opd) : Option Word :=
  srcs.findSome? (fun o =>
    match o with
    | .lit x => some x
    | _ => none)

/-- A word of operation `o` with no operand: SUB, header and literal. -/
def rawOf (o : Op) (sub : BitVec 4) (h : Hdr) (lit : Option Word) : Raw :=
  { opc := o.code, sub := sub, a := 0, b := 0, c := 0, d := 0, e := 0, g1 := h.g1, g2 := h.g2, gc := h.gc,
    hint := h.hint, slk := h.slk, lit := lit.isSome, sch := h.sch, xf := 0, ext := lit.getD 0 }

/-- A q register field. -/
def qField (n : BitVec 5) : BitVec 9 := 0b1000#4 ++ n

def optQField (q : Option (BitVec 5)) : BitVec 9 :=
  match q with
  | some n => qField n
  | none => 0x1FE#9

/-- The fields of an instruction's word; `none` for an event or a command, which has no word. -/
def encodeRaw : Instr → Option Raw
  | .iadd h t sat a b c =>
    some
      { rawOf .iadd (t.code) h (litOf [b, c]) with
        a := a.toField,
        b := b.toField,
        c := c.toField,
        xf := place (BitVec.ofBool sat) 6 }
  | .isub h t sat a b c =>
    some
      { rawOf .isub (t.code) h (litOf [b, c]) with
        a := a.toField,
        b := b.toField,
        c := c.toField,
        xf := place (BitVec.ofBool sat) 6 }
  | .imul h t sat a b c =>
    some
      { rawOf .imul (t.code) h (litOf [b, c]) with
        a := a.toField,
        b := b.toField,
        c := c.toField,
        xf := place (BitVec.ofBool sat) 6 }
  | .imulh h t a b c =>
    some
      { rawOf .imulh (t.code) h (litOf [b, c]) with
        a := a.toField,
        b := b.toField,
        c := c.toField }
  | .imad h t sat a b c e =>
    some
      { rawOf .imad (t.code) h (litOf [b, c, e]) with
        a := a.toField,
        b := b.toField,
        c := c.toField,
        d := e.toField,
        xf := place (BitVec.ofBool sat) 6 }
  | .idiv h t sat a m b c =>
    some
      { rawOf .idiv (t.code) h (litOf [b, c]) with
        a := a.toField,
        b := b.toField,
        c := c.toField,
        e := m.toField,
        xf := place (BitVec.ofBool sat) 6 }
  | .imin h t a b c =>
    some
      { rawOf .imin (t.code) h (litOf [b, c]) with
        a := a.toField,
        b := b.toField,
        c := c.toField }
  | .imax h t a b c =>
    some
      { rawOf .imax (t.code) h (litOf [b, c]) with
        a := a.toField,
        b := b.toField,
        c := c.toField }
  | .iabs h t sat a b =>
    some
      { rawOf .iabs (t.code) h (litOf [b]) with
        a := a.toField,
        b := b.toField,
        xf := place (BitVec.ofBool sat) 6 }
  | .and h t a b c =>
    some
      { rawOf .and (t.code) h (litOf [b, c]) with
        a := a.toField,
        b := b.toField,
        c := c.toField }
  | .or h t a b c => some { rawOf .or (t.code) h (litOf [b, c]) with a := a.toField, b := b.toField, c := c.toField }
  | .xor h t a b c =>
    some
      { rawOf .xor (t.code) h (litOf [b, c]) with
        a := a.toField,
        b := b.toField,
        c := c.toField }
  | .andn h t a b c =>
    some
      { rawOf .andn (t.code) h (litOf [b, c]) with
        a := a.toField,
        b := b.toField,
        c := c.toField }
  | .bfn3 h t a b c e tt =>
    some
      { rawOf .bfn3 (t.code) h none with
        a := a.toField,
        b := b.toField,
        c := c.toField,
        d := e.toField,
        ext := tt.setWidth 32 }
  | .shl h t a b c =>
    some
      { rawOf .shl (t.code) h (litOf [b, c]) with
        a := a.toField,
        b := b.toField,
        c := c.toField }
  | .shr h t a b c =>
    some
      { rawOf .shr (t.code) h (litOf [b, c]) with
        a := a.toField,
        b := b.toField,
        c := c.toField }
  | .fsh h t a b c e =>
    some
      { rawOf .fsh (t.code) h (litOf [b, c, e]) with
        a := a.toField,
        b := b.toField,
        c := c.toField,
        d := e.toField }
  | .popc h t a b => some { rawOf .popc (t.code) h (litOf [b]) with a := a.toField, b := b.toField }
  | .clz h t a b => some { rawOf .clz (t.code) h (litOf [b]) with a := a.toField, b := b.toField }
  | .brev h t a b => some { rawOf .brev (t.code) h (litOf [b]) with a := a.toField, b := b.toField }
  | .bfx h t a b p l =>
    some
      { rawOf .bfx (t.code) h (litOf [b, p, l]) with
        a := a.toField,
        b := b.toField,
        c := p.toField,
        d := l.toField }
  | .bfi h t a b f p l =>
    some
      { rawOf .bfi (t.code) h (litOf [b, f, p, l]) with
        a := a.toField,
        b := b.toField,
        c := f.toField,
        d := p.toField,
        e := l.toField }
  | .adrs h t a b x n =>
    some
      { rawOf .adrs (t.code) h (litOf [b, x]) with
        a := a.toField,
        b := b.toField,
        c := x.toField,
        d := special n }
  | .permb h a b c e =>
    some
      { rawOf .permb (Ty.code .b32) h (litOf [b, c, e]) with
        a := a.toField,
        b := b.toField,
        c := c.toField,
        d := e.toField }
  | .sel h t a b c p =>
    some
      { rawOf .sel (t.code) h (litOf [b, c]) with
        a := a.toField,
        b := b.toField,
        c := c.toField,
        d := special p }
  | .mov h t a b => some { rawOf .mov (t.code) h (litOf [b]) with a := a.toField, b := b.toField }
  | .movs h wide a x =>
    some
      { rawOf .movs (if wide then Ty.code .b64 else Ty.code .b32) h none with
        a := a.toField,
        b := special x }
  | .movc h x b =>
    some
      { rawOf .movc (Ty.code .b32) h (litOf [b]) with
        a := (match x with | .sbias => 0x1A1#9 | .tenable => 0x1A2#9),
        b := b.toField }
  | .icmp h cond t pd b c =>
    some
      { rawOf .icmp (t.code) h (litOf [b, c]) with
        b := b.toField,
        c := c.toField,
        xf := place cond.code 10 ||| place pd 7 }
  | .fcmp h cond t pd b c =>
    some
      { rawOf .fcmp (t.code) h (litOf [b, c]) with
        b := b.toField,
        c := c.toField,
        xf := place cond.code 10 ||| place pd 7 }
  | .plop h pd p q r tt =>
    some
      { rawOf .plop (0) h none with
        b := special p,
        c := special q,
        d := special r,
        xf := place pd 7,
        ext := tt.setWidth 32 }
  | .shfl h mode t pd a b c w =>
    some
      { rawOf .shfl (t.code) h (litOf [c]) with
        a := (Opd.v a).toField,
        b := (Opd.v b).toField,
        c := c.toField,
        d := special w,
        xf := place pd 7 ||| place mode.code 0 }
  | .vote h mode pd a p =>
    some
      { rawOf .vote (Ty.code .b32) h none with
        a := a.toField,
        b := special p,
        xf := place pd 7 ||| place mode.code 0 }
  | .ballot h a p => some { rawOf .ballot (Ty.code .b32) h none with a := a.toField, b := special p }
  | .redux h op t a b =>
    some
      { rawOf .redux (t.code) h none with
        a := a.toField,
        b := (Opd.v b).toField,
        xf := place op.code 0 }
  | .scan h op excl seg t a b =>
    some
      { rawOf .scan (t.code) h none with
        a := (Opd.v a).toField,
        b := (Opd.v b).toField,
        d := (match seg with | some p => special p | none => 0),
        xf := place op.code 0 ||| place (BitVec.ofBool excl) 4 ||| place (BitVec.ofBool seg.isSome) 5 }
  | .matchLanes h whole t pd a b =>
    some
      { rawOf .matchLanes (t.code) h none with
        a := a.toField,
        b := (Opd.v b).toField,
        xf := place pd 7 ||| place (BitVec.ofBool whole) 0 }
  | .elect h pd a => some { rawOf .elect (0) h none with a := a.toField, xf := place pd 7 }
  | .fadd h t sat rnd a b c =>
    some
      { rawOf .fadd (t.code) h (litOf [b, c]) with
        a := a.toField,
        b := b.toField,
        c := c.toField,
        xf := place (BitVec.ofBool sat) 6 ||| place rnd.code 4 }
  | .fsub h t sat rnd a b c =>
    some
      { rawOf .fsub (t.code) h (litOf [b, c]) with
        a := a.toField,
        b := b.toField,
        c := c.toField,
        xf := place (BitVec.ofBool sat) 6 ||| place rnd.code 4 }
  | .fmul h t sat rnd a b c =>
    some
      { rawOf .fmul (t.code) h (litOf [b, c]) with
        a := a.toField,
        b := b.toField,
        c := c.toField,
        xf := place (BitVec.ofBool sat) 6 ||| place rnd.code 4 }
  | .ffma h t sat rnd a b c e =>
    some
      { rawOf .ffma (t.code) h (litOf [b, c, e]) with
        a := a.toField,
        b := b.toField,
        c := c.toField,
        d := e.toField,
        xf := place (BitVec.ofBool sat) 6 ||| place rnd.code 4 }
  | .fmin h t a b c =>
    some
      { rawOf .fmin (t.code) h (litOf [b, c]) with
        a := a.toField,
        b := b.toField,
        c := c.toField }
  | .fmax h t a b c =>
    some
      { rawOf .fmax (t.code) h (litOf [b, c]) with
        a := a.toField,
        b := b.toField,
        c := c.toField }
  | .fclass h t pd b m =>
    some
      { rawOf .fclass (t.code) h (litOf [b, m]) with
        b := b.toField,
        c := m.toField,
        xf := place pd 7 }
  | .frnd h t rnd a b =>
    some
      { rawOf .frnd (t.code) h (litOf [b]) with
        a := a.toField,
        b := b.toField,
        xf := place rnd.code 4 }
  | .fscale h t rnd a b n =>
    some
      { rawOf .fscale (t.code) h (litOf [b, n]) with
        a := a.toField,
        b := b.toField,
        c := n.toField,
        xf := place rnd.code 4 }
  | .fgexp h t a b => some { rawOf .fgexp (t.code) h (litOf [b]) with a := a.toField, b := b.toField }
  | .fdot2 h t rnd a b c e =>
    some
      { rawOf .fdot2 (t.code) h (litOf [b, c, e]) with
        a := a.toField,
        b := b.toField,
        c := c.toField,
        d := e.toField,
        xf := place rnd.code 4 }
  | .frcp h t rnd a b =>
    some
      { rawOf .frcp (t.code) h (litOf [b]) with
        a := a.toField,
        b := b.toField,
        xf := place rnd.code 4 }
  | .fsqrt h t rnd a b =>
    some
      { rawOf .fsqrt (t.code) h (litOf [b]) with
        a := a.toField,
        b := b.toField,
        xf := place rnd.code 4 }
  | .frsq h t a b => some { rawOf .frsq (t.code) h (litOf [b]) with a := a.toField, b := b.toField }
  | .fexp2 h t a b => some { rawOf .fexp2 (t.code) h (litOf [b]) with a := a.toField, b := b.toField }
  | .flog2 h t a b => some { rawOf .flog2 (t.code) h (litOf [b]) with a := a.toField, b := b.toField }
  | .fsin h t a b => some { rawOf .fsin (t.code) h (litOf [b]) with a := a.toField, b := b.toField }
  | .fcos h t a b => some { rawOf .fcos (t.code) h (litOf [b]) with a := a.toField, b := b.toField }
  | .ftanh h t a b => some { rawOf .ftanh (t.code) h (litOf [b]) with a := a.toField, b := b.toField }
  | .fsigm h t a b => some { rawOf .fsigm (t.code) h (litOf [b]) with a := a.toField, b := b.toField }
  | .cvt h d s sat rnd a b c =>
    some
      { rawOf .cvt (d.code) h (litOf (b :: c.toList)) with
        a := a.toField,
        b := b.toField,
        c := (match c with | some o => o.toField | none => 0),
        xf := place (BitVec.ofBool sat) 6 ||| place rnd.code 4 ||| place s.code 0 }
  | .cvtsEncode h slot a b c m pos =>
    some
      { rawOf .cvts (Ty.code .b32) h (litOf [b, c, m]) with
        a := a.toField,
        b := b.toField,
        c := c.toField,
        d := m.toField,
        e := special pos,
        xf := place slot 14 ||| place (Ty.code .f32) 0 }
  | .cvtsDecode h slot a b idx =>
    some
      { rawOf .cvts (Ty.code .f32) h (litOf [b]) with
        a := a.toField,
        b := b.toField,
        c := special idx,
        xf := place slot 14 ||| place (Ty.code .b32) 0 }
  | .qblk h slot a b =>
    some
      { rawOf .qblk (Ty.code .b32) h (litOf [b]) with
        a := (Opd.v a).toField,
        b := b.toField,
        xf := place slot 14 ||| place (Ty.code .f32) 0 }
  | .dqblk h slot a b =>
    some
      { rawOf .dqblk (Ty.code .f32) h none with
        a := (Opd.v a).toField,
        b := (Opd.v b).toField,
        xf := place slot 14 ||| place (Ty.code .b32) 0 }
  | .dropm h wide pd b c =>
    some
      { rawOf .dropm (if wide then Ty.code .b64 else Ty.code .b32) h (litOf [b, c]) with
        b := b.toField,
        c := c.toField,
        xf := place pd 7 }
  | .rng h t a b => some { rawOf .rng (t.code) h (litOf [b]) with a := a.toField, b := b.toField }
  | .bra h off => some { rawOf .bra (0) h none with ext := off }
  | .brx h b => some { rawOf .brx (0) h none with b := b.toField }
  | .call h a off => some { rawOf .call (0) h none with a := (Opd.v a).toField, ext := off }
  | .ret h b => some { rawOf .ret (0) h none with b := (Opd.v b).toField }
  | .exit h => some (rawOf .exit (0) h none)
  | .yield h => some (rawOf .yield (0) h none)
  | .nop h => some (rawOf .nop (0) h none)
  | .rte h => some (rawOf .rte (0) h none)
  | .ifence h => some (rawOf .ifence (0) h none)
  | .txe h => some (rawOf .txe (0) h none)
  | .bar h => some (rawOf .bar (0) h none)
  | .pbar h => some (rawOf .pbar (0) h none)
  | .gbar h => some (rawOf .gbar (0) h none)
  | .waitc h ld st cp tl => some { rawOf .waitc (0) h none with ext := tl ++ cp ++ st ++ ld }
  | .enrol h n => some { rawOf .enrol (0) h none with xf := place n 0 }
  | .rejoin h n => some { rawOf .rejoin (0) h none with xf := place n 0 }
  | .strike h n => some { rawOf .strike (0) h none with xf := place n 0 }
  | .trap h code => some { rawOf .trap (0) h none with ext := code.setWidth 32 }
  | .txa h code => some { rawOf .txa (0) h none with ext := code.setWidth 32 }
  | .ipf h n off => some { rawOf .ipf (0) h none with b := special n, ext := off }
  | .icinv h b len => some { rawOf .icinv (0) h (litOf [len]) with b := b.toField, c := len.toField }
  | .ld h t kind scope a m =>
    some
      { rawOf .ld (t.code) h none with
        a := a.toField,
        b := m.base.toField,
        c := m.index.toField,
        xf := place m.isc 13 ||| place kind.code 4 ||| place scope.code 0,
        ext := m.off }
  | .st h t kind scope m x =>
    some
      { rawOf .st (t.code) h none with
        b := m.base.toField,
        c := m.index.toField,
        d := x.toField,
        xf := place m.isc 13 ||| place kind.code 4 ||| place scope.code 0,
        ext := m.off }
  | .atom h op t kind scope a m x =>
    some
      { rawOf .atom (t.code) h none with
        a := a.toField,
        b := m.base.toField,
        c := m.index.toField,
        d := x.toField,
        xf := place m.isc 13 ||| place op.code 6 ||| place kind.code 4 ||| place scope.code 0,
        ext := m.off }
  | .red h op t kind scope m x =>
    some
      { rawOf .red (t.code) h none with
        b := m.base.toField,
        c := m.index.toField,
        d := x.toField,
        xf := place m.isc 13 ||| place op.code 6 ||| place kind.code 4 ||| place scope.code 0,
        ext := m.off }
  | .fld h a pd m =>
    some
      { rawOf .fld (Ty.code .b64) h none with
        a := (Opd.v a).toField,
        b := m.base.toField,
        c := m.index.toField,
        xf := place m.isc 13 ||| place pd 10,
        ext := m.off }
  | .fset h pd m x =>
    some
      { rawOf .fset (Ty.code .b64) h none with
        b := m.base.toField,
        c := m.index.toField,
        d := x.toField,
        xf := place m.isc 13 ||| place pd 10,
        ext := m.off }
  | .fclr h m =>
    some
      { rawOf .fclr (Ty.code .b64) h none with
        b := m.base.toField,
        c := m.index.toField,
        xf := place m.isc 13,
        ext := m.off }
  | .waiton h cond t a m x =>
    some
      { rawOf .waiton (t.code) h none with
        a := a.toField,
        b := m.base.toField,
        c := m.index.toField,
        d := x.toField,
        xf := place m.isc 13 ||| place cond.code 6,
        ext := m.off }
  | .txb h off => some { rawOf .txb (0) h none with ext := off }
  | .fence h kind scope spec =>
    some
      { rawOf .fence (0) h none with
        xf := place kind.code 4 ||| place scope.code 0 ||| place (BitVec.ofBool spec) 3 }
  | .gath h t a m n =>
    some
      { rawOf .gath (t.code) h none with
        a := (Opd.v a).toField,
        b := m.base.toField,
        c := m.index.toField,
        xf := place m.isc 13 ||| place n 10,
        ext := m.off }
  | .dpf h m =>
    some
      { rawOf .dpf (0) h none with
        b := m.base.toField,
        c := m.index.toField,
        xf := place m.isc 13,
        ext := m.off }
  | .cpy h scope auto x y z tag =>
    some
      { rawOf .cpy (0) h (litOf [z]) with
        a := x.toField,
        b := y.toField,
        c := z.toField,
        d := tag.toField,
        xf := place (BitVec.ofBool auto) 6 ||| place scope.code 0 }
  | .cpyt h scope auto x y z tag =>
    some
      { rawOf .cpyt (0) h (litOf [z]) with
        a := x.toField,
        b := y.toField,
        c := z.toField,
        d := tag.toField,
        xf := place (BitVec.ofBool auto) 6 ||| place scope.code 0 }
  | .tagarm h tag count => some { rawOf .tagarm (0) h (litOf [count]) with b := tag.toField, c := count.toField }
  | .tagwt h all mask =>
    some
      { rawOf .tagwt ((BitVec.ofBool all).setWidth 4) h (litOf [mask]) with
        b := mask.toField }
  | .tagff h a mask => some { rawOf .tagff (0) h (litOf [mask]) with a := a.toField, b := mask.toField }
  | .tagclr h mask => some { rawOf .tagclr (0) h (litOf [mask]) with b := mask.toField }
  | .bari h nx nb n =>
    some
      { rawOf .bari (0) h (litOf [n]) with
        b := special nb,
        c := n.toField,
        xf := place (BitVec.ofBool nx) 6 }
  | .bara h nb r => some { rawOf .bara (0) h (litOf [r]) with b := special nb, c := r.toField }
  | .barw h nb p => some { rawOf .barw (0) h (litOf [p]) with b := special nb, c := p.toField }
  | .tcfg h part t x => some { rawOf .tcfg (part.code) h (litOf [x]) with a := special t, b := x.toField }
  | .tld h t ql qc => some { rawOf .tld (0) h none with a := special t, b := qField ql, c := optQField qc }
  | .tzero h f64 a => some { rawOf .tzero ((BitVec.ofBool f64).setWidth 4) h none with a := special a }
  | .mma h a ta tb => some { rawOf .mma (0) h none with a := special a, b := special ta, c := special tb }
  | .mmad h a ta tb => some { rawOf .mmad (0) h none with a := special a, b := special ta, c := special tb }
  | .mmas h pat a ta tb tm =>
    some
      { rawOf .mmas (pat.code) h none with
        a := special a,
        b := special ta,
        c := special tb,
        d := special tm }
  | .dcmp h pat ta qd terms l =>
    some
      { rawOf .dcmp (pat.code) h (litOf [l]) with
        a := special ta,
        b := qField qd,
        c := special terms,
        d := l.toField }
  | .tdrain h add raw auto scope kind a ql qc tag =>
    some
      { rawOf .tdrain (kind.code.setWidth 4) h none with
        a := special a,
        b := qField ql,
        c := optQField qc,
        d := tag.toField,
        xf := place (BitVec.ofBool add) 6 ||| place (BitVec.ofBool raw) 5 ||| place (BitVec.ofBool auto) 4 ||| place scope.code 0 }
  | .tmov h kind t a blk =>
    some
      { rawOf .tmov (kind.code ++ 0#2) h none with
        a := special t,
        b := special a,
        c := blk.toField }
  | .tepi h op kind t a blk alpha tb =>
    some
      { rawOf .tepi (kind.code ++ op.code) h (litOf [alpha]) with
        a := special t,
        b := special a,
        c := blk.toField,
        d := alpha.toField,
        e := (match tb with | some n => special n | none => 0x1FE#9) }
  | .tstv h t n off v =>
    some
      { rawOf .tstv (t.code) h (litOf [off]) with
        a := special n,
        b := off.toField,
        c := (Opd.v v).toField }
  | .tldv h t v n off =>
    some
      { rawOf .tldv (t.code) h (litOf [off]) with
        a := (Opd.v v).toField,
        b := special n,
        c := off.toField }
  | .launch h b => some { rawOf .launch (0) h none with b := b.toField }
  | .event h x => some { rawOf .event (0) h (litOf [x]) with b := x.toField }
  | .forkw h n off => some { rawOf .forkw (0) h none with b := n.toField, ext := off }
  | .yieldw h x => some { rawOf .yieldw (0) h (litOf [x]) with b := x.toField }
  | .choose h k => some { rawOf .choose (0) h (litOf [k]) with b := k.toField }
  | .chooseNone h => some { rawOf .choose (1) h none with b := 0x1FE#9 }
  | .chooseSelf h => some { rawOf .choose (2) h none with b := 0x1FE#9 }
  | .issueSelect .. | .classBatchClose .. | .yieldExpiry .. | .instanceStart .. | .resultWrite .. | .slackViolation ..
  | .unitGate .. | .unitWake .. | .requestSend .. | .homeSliceRequest .. | .fillArrive .. | .writeAck ..
  | .accessRetry .. | .releaseComplete .. | .specFenceComplete .. | .waitonPoll .. | .fifoServe ..
  | .gatherSubgroupRelease .. | .txCommit .. | .txUnlock .. | .copyDeliver .. | .pageFaultRoute ..
  | .replayComplete .. | .ifetchRequest .. | .ifetchFill .. | .fetchFault .. | .tileInstrStart ..
  | .tileInstrComplete .. | .phaseRecordWrite .. | .phaseStart .. | .gbarOpen .. | .blockPlace ..
  | .blockDeschedule .. | .blockRequeue .. | .blockEnd .. | .gridComplete .. | .gridTimeLimit ..
  | .deviceLaunchRead .. | .rivalEnd .. | .viewCommit .. | .commitRetryEnd .. | .outboxPerform .. | .viewIdReturn ..
  | .viewSpill .. | .hostMemWrite .. | .ylReductionArrive .. | .ylLinkState .. | .memoryError .. | .qtailDoorbell ..
  | .qctlReset .. | .queueEnable .. | .queueDisable .. | .ringEnable .. | .ringDisable .. | .eheadWrite ..
  | .interruptCoalesceTimeout .. | .creset .. | .partcfgWrite .. | .registerWrite .. | .pad .. | .launchPkt ..
  | .graph .. | .graphNodeStart .. | .copy .. | .fill .. | .signalWrite .. | .signalAdd .. | .wait ..
  | .waitTimeout .. | .inval .. | .resume .. | .preemptSaveQueue .. | .preemptSaveContext .. | .preemptRestore ..
  | .stop .. | .stopContinue .. | .ctxcreate .. | .ctxdestroy .. | .cmcfgCacheWay .. | .cmcfgScratchpad ..
  | .cmcfgFifo .. | .oppoint .. | .railSlewDone | .retentionEnter .. | .wakeStart .. | .retentionExit ..
  | .histEnable .. | .histDisable .. | .histDrainDone | .thermalSample .. | .thermalRecover | .deviceReset | .loadimg
  | .enrolKey | .revoke | .romboot | .mailboxBadcmd | .getVersion .. | .getCapabilities .. | .negotiateAlgorithms ..
  | .getDigests .. | .getCertificate .. | .challenge .. | .getMeasurements .. | .keyExchange .. | .finish ..
  | .hostPeerWriteAck .. | .yunavinFlitRetry .. => none

/-- The word of an instruction. -/
def encode (i : Instr) : Option IWord := (encodeRaw i).map Raw.toWord

/-- Whether a word's opcode belongs to the tile stream alone (Table 8.9). -/
def isTileOpcode (w : IWord) : Bool := 0x180 ≤ (w.extractLsb' 0 10).toNat && (w.extractLsb' 0 10).toNat ≤ 0x189

/-- The stream in which a lone word is read: the tile stream for a tile opcode, else the vector stream. -/
def streamOf (w : IWord) : Stream := if isTileOpcode w then .tile else .vector

/-- The instruction that the decoder reads from a word given by its bits. -/
def decodeTableWord (nbits w : Nat) : Option Instr :=
  let word : IWord := BitVec.ofNat 128 (w % 2 ^ nbits)
  (decodeWord (streamOf word) word).toOption

end Sys2Proof
end

