-- ==== Sys2Proof/Machine/State.lean ====
section
/-! DEFINITION. The state of the device, as plain data: threads, warps, blocks and grids; caches, home slices and
translators; engines, tile sequencers and tenants; registers, queues and rings; power, telemetry and firmware. -/

namespace Sys2Proof.Machine

/-- Reasons for which a step stops the machine. The manual describes no state from which the part as a whole cannot go
on: a failed access is an error response, a page fault parks its party, a trap without a handler kills its block. -/
inductive Fault where
  /-- Raised by no meaning (safe): the type is closed, and every behaviour of the manual is an effect. -/
  | never
  deriving DecidableEq, Repr

/-- Reasons for which a step has no meaning. -/
inductive Refusal where
  /-- Raised by an arm of `exec` whose step has no meaning yet (safe: the run ends there). -/
  | notModelled (mnemonic : String)
  deriving DecidableEq, Repr

/-- Why a lane is in its state (R5; Table 20.6, field state). -/
inductive LaneSt where
  /-- Exited, or never started (R16). -/
  | exited
  | runnable
  /-- Waits at a `rejoin` that names mask `n` (R12). -/
  | rejoin (n : Nat)
  /-- Held at its park point by replay record `i` (R31). -/
  | faultPark (i : Nat)
  /-- Parked on a fetch fault of a page (R35, R323). -/
  | fetchPark (page : Nat)
  /-- Arrived at `bar` (R291). -/
  | bar
  /-- Arrived at `pbar`, `gbar` or `forkw` (R23, R27, R165). -/
  | boundary
  /-- Waits in `barw` while the phase bit of barrier `nb` equals `phi` (R145). -/
  | barw (nb : Nat) (phi : Bool)
  /-- Waits in `tagwt` (R74). -/
  | tagWait (all : Bool) (mask : DWord)
  /-- Waits in `waiton`, `fld` or on a FIFO port, for the requests of instruction number `g` (R28). -/
  | memWait (g : Nat)
  /-- Held by gather `g` until its sub-group is released (R78). -/
  | gath (g : Nat)
  /-- In the entry sequence of a trap handler until a clock (R318, R373). -/
  | entry (clock : Nat)
  deriving DecidableEq, Repr

/-- What keeps a runnable lane from issuing beyond registers and units. -/
inductive Hold where
  | none
  /-- Held at a release or fence operation (R97, R99). -/
  | fence (f : Nat)
  /-- Held by `choose` until the commit of a view completes (R171). -/
  | choose (v : Nat)
  /-- Held at `txe` until commit `c` is decided (R84). -/
  | commit (c : Nat)
  /-- Held at `cpyt` until its lasts are read (R285), or at issue for an engine slot (R284). -/
  | engine
  deriving DecidableEq, Repr

/-- An open transaction of a lane (R82): fallback, recorded reads and buffered writes by aligned 8-byte word. -/
structure Tx where
  fallback : PC
  reads : NatMap DWord
  writes : NatMap (DWord × BitVec 8)
  deriving DecidableEq, Repr

/-- One lane of a warp: the thread's own state (R4) and what the scheduler and the fault machinery keep of it. -/
structure Lane where
  st : LaneSt
  hold : Hold
  pc : PC
  /-- v0 to v255; an unlisted register holds 0 (R24). -/
  regs : NatMap Word
  /-- p0 to p6. -/
  preds : BitVec 7
  /-- Pass counter, 0 to 127 (R8). -/
  pass : Nat
  /-- The first clock on which the lane may issue again (R318). -/
  readyAt : Nat
  /-- The clock at which a `yield` ends by itself (R230). -/
  yieldUntil : Option Nat
  inHandler : Bool
  resume : PC
  tcause : Word
  tpc : DWord
  taddr : DWord
  tinfo : DWord
  txstat : Word
  tx : Option Tx
  deriving DecidableEq, Repr

/-- A register that an issued instruction will still write (R46). -/
structure Pend where
  lanes : Mask
  vregs : List Nat
  sregs : List Nat
  preds : List Nat
  /-- The completion clock; `none` while the memory path holds it. -/
  done : Option Nat
  unit : UnitKind
  thrifty : Bool
  /-- The issue clock plus the fast latency plus the encoded slack; `none` for code 0b111 or a fast producer (R50). -/
  promise : Option Nat
  slk : BitVec 3
  pc : PC
  issued : Nat
  /-- The request that completes it, for `done = none`. -/
  req : Option Nat
  deriving DecidableEq, Repr

/-- A consumer that is otherwise ready and stalls on a thrifty register (R50). -/
structure Stall where
  lanes : Mask
  pc : PC
  /-- The producers that meet the condition and, of these, have not completed before another: the latest to complete are
  left. -/
  producers : List Pend
  deriving DecidableEq, Repr

/-- The last AGU operation of a warp: the clock of its L1 lookup (R38, R47), whether it was steered thrifty, and what that
promises its consumers (R50). -/
structure AguOp where
  lookAt : Nat
  thrifty : Bool
  promise : Option Nat
  slk : BitVec 3
  deriving DecidableEq, Repr

/-- What an access does at the place that performs it. -/
inductive AccKindM where
  /-- `f32`: an `ld.f32`, which a window of FP32 kind converts (R86). -/
  | load (f32 : Bool)
  | store
  /-- `atom`; `ret`: it returns the old value. -/
  | atom (op : Aop) (t : Ty) (ret : Bool)
  | red (op : Aop) (t : Ty)
  | fld
  | fset
  | fclr
  | waiton (cond : Cond) (t : Ty)
  | gath (g : Nat)
  | prefetch
  | ifetch
  deriving DecidableEq, Repr

/-- One access of a request: its lane, byte address, width in bytes and operand, and the value returned. -/
structure Acc where
  lane : Nat
  addr : Nat
  bytes : Nat
  data : BitVec 128
  result : Option (BitVec 128)
  pred : Bool
  deriving DecidableEq, Repr

/-- How far a request has come. -/
inductive ReqSt where
  /-- Not started: it waits for release `f` (R97, R99). -/
  | fenced (f : Nat)
  /-- Not sent: no slot is free (R61), or an older request to its line waits. -/
  | waiting
  /-- Joins the pending fill of request `r` (R62). -/
  | joined (r : Nat)
  /-- On its way to the place that performs it. -/
  | sent
  /-- Held at its place: a future on an empty cell, a registered or polled wait, a FIFO operation. -/
  | held
  /-- Got a retry response (R103). -/
  | retry
  /-- Faulted on its page with a REASON of Table 14.1, and no replay record is free yet (R32, R357). -/
  | faulted (reason : Nat)
  /-- Got an error response with a reason of Table 3.3. -/
  | error (reason : Nat)
  /-- Performed; the host or a peer still has to acknowledge the write (R93), `two` for a type 2 write. -/
  | ackWait (two : Bool)
  /-- Performed; its response is on its way back. -/
  | performed
  deriving DecidableEq, Repr

/-- A copy of a line on its way: bytes, valid chunks, expiry at the cluster cache and at the L1, `TLdv`, `TLsy`, and the
leaf of each page that it touches. -/
structure Fill where
  data : Line
  valid : BitVec 12
  expCc : Nat
  expL1 : Nat
  tldv : Nat
  tlsy : Nat
  leafs : NatMap DWord
  deriving DecidableEq, Repr

/-- A request in the memory path: the accesses of one instruction that lie in one page of one line (R58, R62). -/
structure Req where
  kind : AccKindM
  st : ReqSt
  ctx : Nat
  asid : Nat
  view : Nat
  core : Nat
  warp : Option Nat
  block : Option Nat
  /-- The virtual line number (byte address divided by 192) and page number. -/
  line : Nat
  page : Nat
  accs : List Acc
  /-- For a load with a uniform destination: the lanes that share it (R266). -/
  uni : Mask
  /-- The destination and its width in bits. -/
  dst : Dst
  bits : Nat
  pd : BitVec 3
  hint : BitVec 2
  scope : Scope
  /-- An operation at `.wp`, `.co` or `.cl` that pins its line (R102, R271). -/
  pin : Bool
  /-- It follows a release (R99): one that finds no room for its pin releases at `.dv` first (R102). -/
  rel : Bool
  /-- A load inside a transaction (R82). -/
  inTx : Bool
  /-- A load ahead of a speculative fence, or a prefetch: not a demand access (R361). -/
  demand : Bool
  /-- Its fill may be kept in the core's L1: no younger write of the core to the line has been issued, and no later event
  of R92 has ended the copy (R96). -/
  keep : Bool
  /-- … and in the cluster cache. -/
  keepCc : Bool
  /-- The clock of its core on which it reaches its L1 lookup (R38, R47). -/
  lookAt : Nat
  /-- An L1 hit: the clock on which its data arrives (R325). -/
  hitAt : Option Nat
  /-- The expiry of the copy that supplied its value, 0 for none (R101). -/
  exp : Nat
  /-- The number of the step at which the place that supplies its value read it (R95). -/
  readNo : Nat
  /-- It holds one of the core's request slots since this clock (R61). -/
  slot : Option Nat
  /-- The number under which it left the core (R96). -/
  sentNo : Nat
  pc : PC
  /-- The completion times that its acknowledgement carries (R93). -/
  tcl : Nat
  tdv : Nat
  tsy : Nat
  fill : Option Fill
  /-- The replay record this request replays, if any. -/
  replay : Option Nat
  /-- The instruction's number: the requests of one instruction share it. -/
  group : Nat
  /-- The gtime before which nothing happens to it. -/
  due : Nat
  /-- The word of its instruction. -/
  word : IWord
  deriving DecidableEq, Repr

/-- A replay record (R31; Table 20.6): the access with the addresses and data of its faulting lanes, those lanes, and the pages
that it waits on; parts of it that wait on none are being performed again. -/
structure Replay where
  req : Req
  lanes : Mask
  waits : List Nat
  /-- The lanes whose access has failed, each with the reason (R33, R88). -/
  fails : NatMap Nat
  /-- The first faulting address: that of the lowest of its lanes. -/
  faddr : DWord
  deriving DecidableEq, Repr

/-- The kind of a phase boundary (R313). -/
inductive Boundary where
  | pbar
  | gbar
  | forkw (n : Nat)
  deriving DecidableEq, Repr

/-- What the lanes of a release do when it completes. -/
inductive AfterRel where
  /-- They were not held: requests, copies and launches that name the release go on. -/
  | nothing
  /-- A fence: they go on after it (R99). -/
  | step
  /-- They arrive at numbered barrier `nb` of the core of rank `rank` (R145). -/
  | bara (nb rank : Nat)
  /-- They arrive at `bar` (R291). -/
  | bar
  /-- They were not held: the record of an `event` is written, with its user value (R314). -/
  | event (x : Word)
  deriving DecidableEq, Repr

/-- A release or fence in progress for lanes of a warp (R97 to R100). -/
structure FenceOp where
  warp : Nat
  lanes : Mask
  kind : Kind
  scope : Scope
  spec : Bool
  pc : PC
  after : AfterRel
  /-- The step of R97 reached: 1 older loads, 2 older writes, 3 widening, 4 horizon. -/
  step : Nat
  /-- Older operations that it waits for, by group id of their requests. -/
  loads : List Nat
  writes : List Nat
  /-- The operation number at its issue: younger instructions have larger ones. -/
  born : Nat
  /-- A speculative fence: instructions issued ahead, the saved lanes, and the lines and expiries of the copies that loads
  ahead of it used (R100, R101). -/
  issued : Nat
  saved : NatMap Lane
  specLines : List (Nat × Nat)
  /-- An instruction ahead of it is about to trap: the group rolls back first (R101, R373). -/
  back : Bool
  /-- The horizon of its scope as it stood after step 3 (R97, step 4). -/
  until_ : Nat
  deriving DecidableEq, Repr

/-- A warp (R4, R232, R94, R32). -/
structure Warp where
  block : Nat
  index : Nat
  core : Nat
  part : Nat
  rank : Nat
  age : Nat
  lanes : List Lane
  /-- s0 to s127; an unlisted register holds 0. -/
  sregs : NatMap Word
  /-- j0 to j7; an unlisted mask is 0. -/
  masks : NatMap Mask
  sbias : Int
  tenable : Word
  ctrLd : Nat
  ctrSt : Nat
  ctrCp : Nat
  ctrTl : Nat
  hcl : Nat
  hdv : Nat
  hsy : Nat
  replays : NatMap Replay
  agu : AguOp
  pend : List Pend
  /-- Consumers that are otherwise ready and stall on a thrifty register (R50). -/
  stalls : List Stall
  /-- The clock since which its candidate has been eligible without issuing (R10). -/
  eligibleSince : Option Nat
  /-- A SCH yield: its end, and the warps that must issue first (R189). -/
  schYield : Option (Nat × List Nat)
  /-- A SCH batch with the next word: the clock and the class (R189). -/
  schBatch : Option (Nat × Nat)
  /-- Lanes whose younger memory instructions wait for an acquire (R98), by group id of the loads. -/
  acquire : List (Mask × Nat)
  deriving DecidableEq, Repr

/-- A copy tag (R73, R287). -/
structure Tag where
  count : Nat
  ready : Bool
  failed : Option (Nat × Nat)
  deriving DecidableEq, Repr

/-- A numbered barrier (R144). A party is 32 · warp index + lane, or 65,536 + rank for a sequencer. -/
structure NBar where
  e : Nat
  a : Nat
  p : Bool
  x : Bool
  broken : Bool
  arrived : List Nat
  deriving DecidableEq, Repr

/-- A line copy in an L1 data cache, an L1 instruction cache or a cluster cache (R55, R58, R92, R94). `leafs` lists the
leaf of each page that its valid chunks lie in. -/
structure DLine where
  line : Nat
  asid : Nat
  view : Nat
  ctx : Nat
  data : Line
  valid : BitVec 12
  expiry : Nat
  tldv : Nat
  tlsy : Nat
  hint : BitVec 2
  lastUse : Nat
  /-- The way of its set that it stands in; in a cluster cache, the number of the bank (R65, R71). -/
  way : Nat
  leafs : NatMap DWord
  deriving DecidableEq, Repr

/-- What a home slice keeps of a page of a line: its frame, its leaf and its memory type (R55, R56). -/
structure PTag where
  frame : Nat
  leaf : DWord
  mtype : Nat
  deriving DecidableEq, Repr

/-- A line at its home slice (R70, R93, R102), or a spilled view copy (R176). -/
structure HLine where
  line : Nat
  asid : Nat
  view : Nat
  ctx : Nat
  data : Line
  valid : BitVec 12
  dirty : BitVec 192
  /-- Written mask of a view copy (R163). -/
  written : BitVec 192
  /-- The pages of the line that this slice homes and holds. -/
  tags : NatMap PTag
  /-- E[k]: the latest expiry granted into cluster k (R93). -/
  exp : NatMap Nat
  tldv : Nat
  tlsy : Nat
  /-- The holder of a pin: a core at `.co`, a cluster at `.cl`. -/
  pinCo : Option Nat
  pinCl : Option Nat
  /-- The commit that holds the line locked: a transaction or a view (R84, R172). -/
  lockTx : Option Nat
  lockView : Option Nat
  hint : BitVec 2
  lastUse : Nat
  /-- The way of its set (R71), and for a `.co` pin the way of the core's L1 that holds it (R102). -/
  way : Nat
  pinWay : Nat
  /-- The latest tx of a write to it that takes its time from a back-invalidation or an acknowledgement (R93): until then a
  write is pending. -/
  tx : Nat
  spilled : Bool
  deriving DecidableEq, Repr

/-- A TLB entry (R358): ASID or 0, first page, page count, the level of the leaf, the leaf as read and its entry's
address. The lists are kept most recently used first. -/
structure TlbE where
  asid : Nat
  page : Nat
  pages : Nat
  level : Nat
  leaf : DWord
  entry : Nat
  deriving DecidableEq, Repr

/-- A walk-cache entry (R358): the pointer read at a level, for the addresses that share the bits above it. -/
structure WcE where
  asid : Nat
  level : Nat
  key : Nat
  next : Nat
  deriving DecidableEq, Repr

/-- A home slice (R70). -/
structure Slice where
  lines : List HLine
  /-- Per set, the latest expiry of an evicted line (R93). -/
  evicted : NatMap Nat
  tlb : List TlbE
  walkCache : List WcE
  /-- Held future loads, oldest first: requests (R80). -/
  poste : List Nat
  /-- Registered waits (R277). -/
  waits : List Nat
  deriving DecidableEq, Repr

/-- The mode of a cluster-memory bank (R64, R68). -/
inductive BankMode where
  | cacheWay
  | scratchpad (owner : Nat)
  | fifo (owner port : Nat)
  deriving DecidableEq, Repr

/-- A cluster-memory bank. -/
structure Bank where
  mode : BankMode
  /-- Bytes of a scratchpad bank; an unlisted byte is 0. -/
  bytes : NatMap (BitVec 8)
  /-- Poisoned 48-byte sectors of the bank (R405). -/
  poison : List Nat
  fifo : List (BitVec 128)
  /-- FIFO operations waiting to be served, in arrival order. -/
  waiting : List Nat
  deriving DecidableEq, Repr

/-- A range-lock entry (R75, R76). -/
structure RangeLock where
  view : Nat
  asid : Nat
  lo : Nat
  hi : Nat
  kind : Nat
  dest : Bool
  deriving DecidableEq, Repr

/-- Power state of a cluster (Table 21.2). -/
inductive PowerSt where
  | running
  | retention
  | waking (done : Nat)
  deriving DecidableEq, Repr

/-- A cluster. -/
structure Cluster where
  pattern : BitVec 16
  /-- The slot count that OPPOINT asks for; 16 until one does (R388). -/
  slots : Nat
  graph : Bool
  /-- Clocks passed up to master pulse `pulseBase` (R386). -/
  clkBase : Nat
  pulseBase : Nat
  power : PowerSt
  idleSince : Option Nat
  /-- A wake-up that waits for its window (R393): its class and lowest curve index. -/
  wakeReq : Option (Nat × Nat)
  /-- A wake-up of it has started, and the block that it is for has not come yet. -/
  woken : Bool
  banks : NatMap Bank
  cc : List DLine
  locks : NatMap RangeLock
  deriving DecidableEq, Repr

/-- One copy of a vector-path resource (R37, R390). -/
structure InstSt where
  inst : Inst
  /-- Accepted instructions that have not started: the clock on which each starts, and its occupancy in clocks. -/
  queue : List (Nat × Nat)
  /-- The clock on which the instruction it runs ends. -/
  busyUntil : Nat
  gated : Bool
  wakeAt : Option Nat
  deriving DecidableEq, Repr

/-- A scheduling partition of a core (R10). -/
structure Part where
  insts : List InstSt
  /-- The open class batch: class and the clock at which it closes. -/
  batch : Option (Nat × Nat)
  /-- The clock on which the uniform unit last accepted an instruction (R411), plus 1. -/
  ctrlUsed : Nat
  /-- Histogram events counted (R396). -/
  histEvents : Nat
  deriving DecidableEq, Repr

/-- A core. -/
structure Core where
  l1d : List DLine
  l1i : List DLine
  parts : NatMap Part
  deriving DecidableEq, Repr

/-- A tile instruction in the stream queue or running (R137, R292): the instruction, its word address, the values captured at
issue, the clock on which it completes, and for `tld` the last and the range entry. -/
structure TileOp where
  instr : Instr
  pc : PC
  vals : List DWord
  doneClock : Nat
  last : BitVec 512
  locks : List Nat
  /-- The page on which it waits for a `RESUME`: the sequencer is parked at it (R148). -/
  paused : Option Nat
  deriving DecidableEq, Repr

/-- The decomposition state of a tile (R158, R160). -/
structure Decomp where
  pat : Pattern
  terms : Nat
  tu : Nat
  status : Nat
  l : Word
  s : Word
  offcuts : List (Nat × Nat)
  deriving DecidableEq, Repr

/-- State of a tile sequencer (Table 20.7). -/
inductive SeqSt where
  | running
  | faultPark (page : Nat)
  | barw (nb : Nat) (phi : Bool)
  | tagWait (all : Bool) (mask : DWord)
  | pbar
  | stopped
  | exited
  deriving DecidableEq, Repr

/-- A tenant's fault record (Table 20.2). -/
structure TFault where
  cause : Nat
  reason : Nat
  rank : Nat
  spc : DWord
  addr : DWord
  postmark : Nat
  deriving DecidableEq, Repr

/-- A tenant with its sequencer (R134, R138, R140, R142). -/
structure Tenant where
  block : Nat
  rank : Nat
  core : Nat
  rows : Nat
  pc : PC
  q : NatMap Word
  qp : BitVec 4
  st : SeqSt
  /-- q registers (by number) and predicates (32 + number) still pending, with the clock of completion (R137). -/
  pend : List (Nat × Nat)
  /-- q0 to q31 are still to be read from ARGS (R135). -/
  argsLeft : Bool
  queue : List TileOp
  running : List TileOp
  /-- Row ρ of tile n at 32 n + ρ; an unlisted row is 0. -/
  tiles : NatMap Line
  /-- Element (i, j) of accumulator n at 1,024 n + 32 i + j; an unlisted element is 0. -/
  acc : NatMap Word
  tslot : NatMap Word
  trows : NatMap Word
  tcols : NatMap Word
  decomp : NatMap Decomp
  fault : Option TFault
  deriving DecidableEq, Repr

/-- A launch record (Table 18.12). -/
structure LaunchRec where
  w : List Nat
  e : List Nat
  gang : Nat
  curve : List Nat
  slots : List (BitVec 128)
  code : Nat
  stream : Nat
  seed : DWord
  args : Nat
  parea : Nat
  vstore : Nat
  handler : Nat
  psize : Nat
  vsb : Nat
  scratch : Nat
  cscratch : Nat
  vsq : Nat
  regs : Nat
  trows : Nat
  tags : Nat
  nbars : Nat
  banks : Nat
  sbias : Int
  steer : Nat
  class_ : Nat
  prio : Nat
  cring : Nat
  carryv : BitVec 256
  carrys : BitVec 128
  deriving DecidableEq, Repr

/-- What a thread keeps across a phase (R24). -/
structure ThreadRec where
  pc : PC
  label : PC
  live : Bool
  preds : BitVec 7
  regs : NatMap Word
  deriving DecidableEq, Repr

/-- What a warp keeps across a phase (R24). -/
structure WarpRec where
  threads : List ThreadRec
  masks : NatMap Mask
  sbias : Int
  tenable : Word
  sregs : NatMap Word
  deriving DecidableEq, Repr

/-- A phase record (R24, R135). -/
structure PhaseRec where
  warps : List WarpRec
  scratch : NatMap (BitVec 8)
  /-- Per rank: PC and predicates of the sequencer; `none` when it has exited. -/
  seqs : List (Option (PC × BitVec 4))
  deriving DecidableEq, Repr

/-- An arrival at a phase boundary. -/
structure Arrival where
  warp : Nat
  lane : Nat
  kind : Boundary
  pc : PC
  label : PC
  deriving DecidableEq, Repr

/-- Where a block stands. -/
inductive BlockSt where
  | resident
  /-- Its next phase is queued (R26). -/
  | queued
  /-- Held at the grid barrier (R27). -/
  | gbar
  /-- Held by `forkw` until its rivals end (R165). -/
  | forked
  /-- Saved to the standing area (R29). -/
  | descheduled
  /-- Saved by PREEMPT (R377). -/
  | preempted
  /-- All its threads have exited and it drains (R150, R168). -/
  | ended
  deriving DecidableEq, Repr

/-- How a rival ended (Table 7.4). -/
structure RivalEnd where
  status : Nat
  score : Word
  view : Nat
  chosen : Bool
  /-- The time of its commit (R110). -/
  time : Nat
  /-- It has ended, and where it committed, its commit is over with its outbox (R169). -/
  isOver : Bool
  deriving DecidableEq, Repr

/-- A block, or a rival copy of one. -/
structure Block where
  grid : Nat
  curve : Nat
  /-- `%wid` with wf0 and wf1 zero. -/
  wid : DWord
  st : BlockSt
  cluster : Nat
  cores : List Nat
  warps : List Nat
  tenants : List Nat
  scratchOff : Nat
  tags : NatMap Tag
  nbars : NatMap NBar
  view : Nat
  depth : Nat
  world : Nat
  parent : Option Nat
  rec_ : Option PhaseRec
  arrivals : List Arrival
  barArrived : List (Nat × Nat)
  /-- A tenant fault that broke its barriers (R149): cause, rank, address. -/
  broken : Option (Nat × Nat × Nat)
  /-- The rivals of a completed fork and whether the block judges (R170). -/
  rivals : List RivalEnd
  judging : Bool
  /-- Blocks that are its live rivals. -/
  children : List Nat
  yielded : Option Word
  selfMark : Bool
  /-- The cause of a kill (R375): trap cause, address. -/
  killed : Option Nat
  exhausted : Bool
  /-- A PREEMPT brings its lanes to a state that can be saved (R377). -/
  saving : Bool
  /-- Its next phase was queued by a grid barrier that opened at this tick, and has not started (R27). -/
  turn : Option Nat
  /-- Ranks whose sequencer had still to read q0 to q31 when the block was saved (R135). -/
  unread : List Nat
  /-- Where its record stands in the standing area, while it is descheduled (R381). -/
  saveAt : Option Nat
  /-- Command firmware pre-empts it for class 0 work: the record that firmware keeps, empty until it is taken (R350). -/
  kept : Option (List (BitVec 8))
  /-- Copies that have failed and through whose tag no lane has completed yet (R287): tag key, address, reason, engine. -/
  unheard : List (Nat × Nat × Nat × Nat)
  deriving DecidableEq, Repr

/-- What started a grid. -/
inductive GridSrc where
  | packet
  | device (parent : Nat)
  | node (graph node : Nat)
  deriving DecidableEq, Repr

/-- A grid. -/
structure Grid where
  ctx : Nat
  queue : Nat
  seq : Nat
  hdr : PktHdr
  src : GridSrc
  lrec : LaunchRec
  recAddr : Nat
  class_ : Nat
  /-- The next curve index to offer (R21). -/
  next : Nat
  limit : Nat
  firstIssue : Option Nat
  status : Nat
  reason : Nat
  cause : BitVec 16
  faddr : Nat
  engine : Nat
  /-- The largest Tsy of its writes so far: the final record waits for it (R347). -/
  hsy : Nat
  retried : Bool
  noPlace : Bool
  deriving DecidableEq, Repr

/-- A graph (R343). -/
structure Graph where
  ctx : Nat
  queue : Nat
  seq : Nat
  hdr : PktHdr
  limit : Nat
  firstStart : Option Nat
  recs : List Nat
  cost : List Nat
  preds : List (List Nat)
  slack : List Nat
  /-- Per node: 0 not started, 1 running, 2 complete, 3 failed. -/
  st : List Nat
  status : Nat
  reason : Nat
  cause : BitVec 16
  faddr : Nat
  engine : Nat
  failing : Nat
  /-- Nodes whose records wait for a `RESUME` of a page. -/
  paused : List (Nat × Nat)
  deriving DecidableEq, Repr

/-- An operation of a view's outbox (R174). -/
inductive OutOp where
  | access (r : Req)
  | launch (addr : Nat) (core warp : Nat)
  | event (x : Word) (core : Nat)
  deriving DecidableEq, Repr

/-- A view other than the base (R161, R162, R173). -/
structure View where
  parent : Nat
  ctx : Nat
  grid : Nat
  /-- Its rival-record slot in the view store of the grid (R165, R176). -/
  slot : Nat
  outbox : List OutOp
  /-- The sequence number of the first operation that the outbox holds (R176). -/
  outNo : Nat
  /-- The latest expiry granted to any copy tagged with it. -/
  latest : Nat
  /-- Dropped or discarded; its ID returns at a tick (R173). -/
  returnAt : Option Nat
  /-- A commit in progress: the warp that chose, and the tick at which the retry ends (R172). -/
  commit : Option (Option Nat × Nat)
  /-- Installs of a commit into the base that wait on a page (R409): line and page. -/
  pendingInstalls : List (Nat × Nat)
  /-- Committed into the base: its outbox is being performed, for the warp that chose (R175, R329). -/
  performing : Option (Option Nat)
  deriving DecidableEq, Repr

/-- What started an operation of a bulk copy engine. -/
inductive CopyKind where
  | cpy | cpyt | drain | copyPkt | fillPkt
  deriving DecidableEq, Repr

/-- How far an operation of a bulk copy engine has come. -/
inductive CopySt where
  /-- At issue: its lane reads the lasts (R285). -/
  | lasts
  /-- At issue: when the lanes below it have issued, its ranges are checked, and in a world the pages of its destination (R284,
  Table 7.5). -/
  | checks
  /-- At issue: it waits for an engine slot and range entries, then for its release (R284). -/
  | queued
  /-- In progress (R286). -/
  | active
  /-- Its last byte is delivered; delivered bytes may still be waiting for their completion times (R108). -/
  | closed
  /-- Saved by PREEMPT, with its block (Table 20.3). -/
  | saved
  deriving DecidableEq, Repr

/-- Bytes still to be delivered: `len` bytes from `dst` on, read from `src` on, or taken from `data` where there is no
source; `keep` says which bits of a single byte read are kept; `row` is the output row of a drain (R126). -/
structure CopyPiece where
  dst : Nat
  src : Option Nat
  len : Nat
  keep : Option (BitVec 8)
  data : BitVec 128
  row : Nat
  deriving DecidableEq, Repr

/-- An operation of a bulk copy engine (R284, R286). -/
structure CopyOp where
  kind : CopyKind
  st : CopySt
  ctx : Nat
  asid : Nat
  view : Nat
  cluster : Nat
  core : Nat
  block : Option Nat
  rank : Nat
  tag : Option Nat
  scope : Scope
  warp : Option Nat
  lane : Nat
  pc : PC
  /-- The instruction, and its operands as captured at issue; of a drain, what it read of its accumulator. -/
  instr : Option Instr
  args : List DWord
  snap : NatMap Word
  org : Opd
  /-- `.auto`, until its instruction has armed the tag. -/
  auto : Bool
  /-- Its instruction has armed the tag, with its bytes (R284). -/
  armed : Bool
  pieces : List CopyPiece
  /-- Its single piece is delivered from its end, because the ranges overlap upward. -/
  back : Bool
  /-- The type of the elements that an `.add` drain adds. -/
  add : Option Ty
  total : Nat
  /-- Chunks of source sectors that have been read, of which bytes are still to be delivered (R77). -/
  ahead : NatMap (BitVec 128)
  locks : List Nat
  /-- Delivered bytes whose completion time has not come (R108): count and tick. -/
  counting : List (Nat × Nat)
  paused : Option Nat
  tenant : Option Nat
  /-- The queue and command sequence number of a packet. -/
  cmd : Option (Nat × Nat)
  /-- The release that it waits for (Table 4.4). -/
  rel : Option Nat
  group : Nat
  deriving DecidableEq, Repr

/-- A transaction commit in progress (R84, R109). -/
structure Commit where
  warp : Nat
  lanes : List Nat
  /-- The writes stand in their lines, which stay locked until gtime reaches `until_`. -/
  installed : Bool
  until_ : Nat
  deriving DecidableEq, Repr

/-- A gather in progress (R78). -/
structure Gather where
  warp : Nat
  issued : Nat
  lanes : Mask
  arrived : Mask
  released : Nat
  lock : Option (Nat × Nat)
  dst : BitVec 8
  regs : Nat
  /-- The values that have arrived, by lane. -/
  vals : NatMap DWord
  pc : PC
  group : Nat
  deriving DecidableEq, Repr

/-- A pending page fault of a context (R366). -/
structure PFault where
  ctx : Nat
  page : Nat
  fetch : Bool
  reason : Nat
  faddr : Nat
  engine : Nat
  queue : Nat
  seq : Nat
  routed : Bool
  deriving DecidableEq, Repr

/-- A completion record (Table 18.13). -/
structure Record where
  postmark : Nat
  seq : Nat
  queue : Nat
  engine : Nat
  status : Nat
  reason : Nat
  cause : BitVec 16
  kind : Nat
  faddr : Nat
  user : DWord
  result : Nat
  deriving DecidableEq, Repr

/-- A command in progress on a queue (R338). -/
structure Cmd where
  seq : Nat
  instr : Instr
  hdr : PktHdr
  started : Bool
  /-- It has performed everything; its final record is still to be written. -/
  done : Bool
  /-- STATUS, REASON and FADDR of a failure. -/
  fail : Option (Nat × Nat × Nat)
  /-- The page on which it waits for a `RESUME`. -/
  paused : Option Nat
  /-- The CAUSE and RESULT of its final record. -/
  cause : BitVec 16
  result : Nat
  /-- The tick from which its time counts, or at which what it waits for has come. -/
  due : Nat
  deriving DecidableEq, Repr

/-- What command firmware keeps of a queue besides its registers (R335 to R338, R382). -/
structure Queue where
  doorbell : Nat
  cmds : List Cmd
  stopped : Bool
  /-- Its firmware has been replaced: packets start again after the next doorbell (R400). -/
  asleep : Bool
  deriving DecidableEq, Repr

/-- What the device keeps of an event ring besides its registers (R347, R348). -/
structure Ring where
  phase : Bool
  held : List Record
  batch : Nat
  batchFirst : Nat
  deriving DecidableEq, Repr

/-- A context (R352, Table 18.11). -/
structure Ctx where
  body : CtxBody
  /-- A CTXDESTROY of it has started. -/
  destroying : Bool
  /-- Its standing area: address, size and bytes used (R381). -/
  standing : Option (Nat × Nat × Nat)
  deriving DecidableEq, Repr

/-- A device launch waiting to be read (R309, R310). -/
structure DevLaunch where
  ctx : Nat
  addr : Nat
  grid : Nat
  warp : Option Nat
  /-- Its instruction's number: the launches of one instruction count once in st (R232). -/
  group : Nat
  waiting : Option Nat
  /-- The view whose outbox it is the first operation of, until its record is read (R329). -/
  view : Option Nat
  /-- The page on which its read waits for a `RESUME`. -/
  paused : Option Nat
  due : Nat
  deriving DecidableEq, Repr

/-- An owner key slot (R401). -/
structure KeySlot where
  x : BitVec 384
  y : BitVec 384
  written : Bool
  revoked : Bool
  deriving DecidableEq, Repr

/-- Security core state (R398 to R403). -/
structure Security where
  /-- Fuses: owner key slots 1 to 4 and the minimum SVN of each engine; they survive reset. -/
  keys : NatMap KeySlot
  minSvn : NatMap Nat
  /-- The running replacement image of engine 0 (command) and 1 (management): DIGEST and KEYSLOT. -/
  image : NatMap (BitVec 384 × Nat)
  log : List (Nat × BitVec 384)
  /-- SPDM responses sent, oldest first: the place of the message in the list of R403, from 0, and the body. -/
  responses : List (Nat × List (BitVec 8))
  /-- The secured session: 0 none, 1 its keys are exchanged, 2 it is established (R403). -/
  session : Nat
  deriving DecidableEq, Repr

/-- What runs next: an issued group of a warp, or a sequencer. -/
inductive Cursor where
  | group (w : Nat) (lanes : Mask)
  | seq (t : Nat)
  deriving DecidableEq, Repr

/-- An event that will happen after some master pulses. -/
structure Coming where
  pulses : Nat
  ev : Instr
  deriving DecidableEq, Repr

/-- Ordering codes (R1). -/
inductive OrderingCode where
  | p384 | p192 | m384
  deriving DecidableEq, Repr

/-- A rail change in progress (R388): the rails to come, when they are reached, the slots of the clusters of an OPPOINT that are
applied afterwards, and its queue and number. -/
structure RailMove where
  fast : Nat
  thrifty : Nat
  due : Nat
  clusters : List Nat
  slots : Nat
  queue : Nat
  seq : Nat
  deriving DecidableEq, Repr

/-- The device. -/
structure State where
  code : OrderingCode
  /-- Master pulses since device reset (R386). -/
  pulses : Nat
  /-- Groups selected for issue and not yet executed, in issue order. -/
  cursor : List Cursor
  /-- Events to come, in order: what the outside and the unfixed durations of R410 bring. -/
  agenda : List Coming
  /-- Physical memory (Table 18.1): strictly rising addresses, no entry equal to 0. -/
  mem : List Host.Cell
  /-- Owner of each local frame; an unlisted frame has owner 0 (R365). -/
  owners : NatMap Nat
  /-- Poisoned bytes by physical 16-byte chunk number, and frames reported (R405, R406). -/
  poison : List Nat
  reported : List Nat
  corrected : NatMap Nat
  /-- When a corrected error of a structure was last recorded (R405), by 4,096 · structure + index. -/
  lastCorr : NatMap Nat
  /-- Registers of BAR0 by offset; an unlisted register holds its reset value (R333, R334). -/
  bar0 : NatMap DWord
  queues : NatMap Queue
  rings : NatMap Ring
  msix : List Nat
  ctxs : NatMap Ctx
  grids : NatMap Grid
  graphs : NatMap Graph
  blocks : NatMap Block
  warps : NatMap Warp
  cores : NatMap Core
  clusters : NatMap Cluster
  slices : NatMap Slice
  tenants : NatMap Tenant
  views : NatMap View
  reqs : NatMap Req
  fences : NatMap FenceOp
  copies : NatMap CopyOp
  commits : NatMap Commit
  gathers : NatMap Gather
  pfaults : List PFault
  devLaunches : NatMap DevLaunch
  /-- The latest Tdv of a host write received (R331). -/
  hostTdv : Nat
  /-- Writes and reductions from outside that have met a pinned line: they are made again at every pulse (R103). -/
  outside : List Instr
  railMove : Option RailMove
  /-- The thermal cap of R408 and the gtime since which the sensor has read below 90 °C. -/
  thermalCap : Nat
  coolSince : Option Nat
  /-- Wake-ups started in the window of R393: window number and count. -/
  wakes : Nat × Nat
  /-- The histogram buffer (R396): keys and counts, oldest first. -/
  histBuf : List (DWord × Nat)
  security : Security
  /-- Numbers operations and events, so that each free value is drawn once. -/
  tick : Nat
  deriving DecidableEq, Repr

/-- A cluster as at device reset: full pattern, running, every bank in cache-way mode (R64, R389). -/
def Cluster.reset : Cluster :=
  { pattern := 0xFFFF#16, slots := 16, graph := false, clkBase := 0, pulseBase := 0, power := .running, idleSince := none,
    wakeReq := none, woken := false, banks := [], cc := [], locks := [] }

/-- No AGU operation yet. -/
def AguOp.start : AguOp := { lookAt := 0, thrifty := false, promise := none, slk := 7 }

/-- A core as at device reset: empty caches. -/
def Core.reset : Core := { l1d := [], l1i := [], parts := [] }

/-- A home slice as at device reset: empty. -/
def Slice.reset : Slice := { lines := [], evicted := [], tlb := [], walkCache := [], poste := [], waits := [] }

/-- A bank in cache-way mode. -/
def Bank.reset : Bank := { mode := .cacheWay, bytes := [], poison := [], fifo := [], waiting := [] }

/-- What command firmware keeps of a queue at reset. -/
def Queue.reset : Queue := { doorbell := 0, cmds := [], stopped := false, asleep := false }

/-- What the device keeps of a ring at reset. -/
def Ring.reset : Ring := { phase := true, held := [], batch := 0, batchFirst := 0 }

/-- The security core with no owner key written and no image loaded. -/
def Security.reset : Security :=
  { keys := [], minSvn := [], image := [], log := [], responses := [], session := 0 }

/-- The device right after reset, command firmware not yet started (R398, R386, R64, Tables 18.3 to 18.8, 21.2, 21.5,
22.2, 22.5: every register at the reset value of its table, held as an unlisted entry of `bar0`). -/
def State.reset : State :=
  { code := .p384, pulses := 0, cursor := [], agenda := [], mem := [], owners := [], poison := [], reported := [],
    corrected := [], lastCorr := [], bar0 := [], queues := [], rings := [], msix := [], ctxs := [], grids := [], graphs := [],
    blocks := [], warps := [], cores := [], clusters := [], slices := [], tenants := [], views := [], reqs := [],
    fences := [], copies := [], commits := [], gathers := [], pfaults := [], devLaunches := [], hostTdv := 0, outside := [], railMove := none,
    thermalCap := 16, coolSince := none, wakes := (0, 0), histBuf := [], security := Security.reset, tick := 0 }

end Sys2Proof.Machine
end

