-- ==== Sys2Proof/Machine/Ops.lean ====
section
/-! DEFINITION. The named operations over the state: looking up and changing its parts, physical memory, clocks, lanes
and groups, rejoin masks, numbered barriers, the exit of lanes, taking a trap and returning from one. -/

namespace Sys2Proof.Machine

/-- The lanes of a mask, ascending. -/
def maskLanes (m : Mask) : List Nat := (upTo 32).filter (fun l => m.getLsbD l)

/-- The mask of a list of lanes. -/
def lanesMask (ls : List Nat) : Mask := ls.foldl (fun m l => m ||| BitVec.ofNat 32 (2 ^ l)) 0

/-! ### Parts of the state -/

def State.core (s : State) (k : Nat) : Core := mapGetD s.cores k Core.reset
def State.modCore (s : State) (k : Nat) (f : Core → Core) : State :=
  { s with cores := mapSet s.cores k (f (s.core k)) }
def State.cluster (s : State) (c : Nat) : Cluster := mapGetD s.clusters c Cluster.reset
def State.modCluster (s : State) (c : Nat) (f : Cluster → Cluster) : State :=
  { s with clusters := mapSet s.clusters c (f (s.cluster c)) }
def State.slice (s : State) (x : Nat) : Slice := mapGetD s.slices x Slice.reset
def State.modSlice (s : State) (x : Nat) (f : Slice → Slice) : State :=
  { s with slices := mapSet s.slices x (f (s.slice x)) }
def State.queue (s : State) (q : Nat) : Queue := mapGetD s.queues q Queue.reset
def State.modQueue (s : State) (q : Nat) (f : Queue → Queue) : State :=
  { s with queues := mapSet s.queues q (f (s.queue q)) }
def State.ring (s : State) (r : Nat) : Ring := mapGetD s.rings r Ring.reset
def State.modRing (s : State) (r : Nat) (f : Ring → Ring) : State :=
  { s with rings := mapSet s.rings r (f (s.ring r)) }

def State.warp? (s : State) (w : Nat) : Option Warp := mapGet? s.warps w
def State.modWarp (s : State) (w : Nat) (f : Warp → Warp) : State := { s with warps := mapModify s.warps w f }
def State.block? (s : State) (b : Nat) : Option Block := mapGet? s.blocks b
def State.modBlock (s : State) (b : Nat) (f : Block → Block) : State := { s with blocks := mapModify s.blocks b f }
def State.grid? (s : State) (g : Nat) : Option Grid := mapGet? s.grids g
def State.modGrid (s : State) (g : Nat) (f : Grid → Grid) : State := { s with grids := mapModify s.grids g f }
def State.ctx? (s : State) (c : Nat) : Option Ctx := mapGet? s.ctxs c
def State.modCtx (s : State) (c : Nat) (f : Ctx → Ctx) : State := { s with ctxs := mapModify s.ctxs c f }
def State.tenant? (s : State) (t : Nat) : Option Tenant := mapGet? s.tenants t
def State.modTenant (s : State) (t : Nat) (f : Tenant → Tenant) : State := { s with tenants := mapModify s.tenants t f }
def State.view? (s : State) (v : Nat) : Option View := mapGet? s.views v
def State.modView (s : State) (v : Nat) (f : View → View) : State := { s with views := mapModify s.views v f }
def State.req? (s : State) (r : Nat) : Option Req := mapGet? s.reqs r
def State.modReq (s : State) (r : Nat) (f : Req → Req) : State := { s with reqs := mapModify s.reqs r f }
def State.modCopy (s : State) (c : Nat) (f : CopyOp → CopyOp) : State := { s with copies := mapModify s.copies c f }
def State.modFence (s : State) (c : Nat) (f : FenceOp → FenceOp) : State := { s with fences := mapModify s.fences c f }

/-- Change the first command of a queue with a number. -/
def Queue.modCmd (k : Queue) (n : Nat) (f : Cmd → Cmd) : Queue :=
  { k with cmds := listModify k.cmds (k.cmds.findIdx (fun c => c.seq = n)) f }
/-- The first command with a number leaves its queue. -/
def Queue.dropCmd (k : Queue) (n : Nat) : Queue := { k with cmds := k.cmds.eraseP (fun c => c.seq = n) }

/-- Draw the next operation number. -/
def State.next (s : State) : State := { s with tick := s.tick + 1 }

def Warp.lane? (wp : Warp) (l : Nat) : Option Lane := wp.lanes[l]?
def Warp.modLane (wp : Warp) (l : Nat) (f : Lane → Lane) : Warp := { wp with lanes := listModify wp.lanes l f }
def Warp.modLanes (wp : Warp) (ls : List Nat) (f : Lane → Lane) : Warp := ls.foldl (fun wp l => wp.modLane l f) wp
def State.modLane (s : State) (w l : Nat) (f : Lane → Lane) : State := s.modWarp w (fun wp => wp.modLane l f)
def State.modLanes (s : State) (w : Nat) (ls : List Nat) (f : Lane → Lane) : State :=
  s.modWarp w (fun wp => wp.modLanes ls f)
def State.lane? (s : State) (w l : Nat) : Option Lane := (s.warp? w).bind (fun wp => wp.lane? l)

/-- A block is being saved (R29, R377). -/
def State.isSaving (s : State) (b : Option Nat) : Bool := (b.bind s.block?).any (·.saving)

/-- The block, grid and launch record of a warp. -/
def State.blockOfWarp (s : State) (w : Nat) : Option Block := (s.warp? w).bind (fun wp => s.block? wp.block)
def State.gridOfBlock (s : State) (b : Nat) : Option Grid := (s.block? b).bind (fun bl => s.grid? bl.grid)
def State.recOfBlock (s : State) (b : Nat) : Option LaunchRec := (s.gridOfBlock b).map (·.lrec)

/-! ### Registers of the party -/

def Lane.reg (la : Lane) (n : Nat) : Word := mapGetD la.regs n 0
def Lane.setReg (la : Lane) (n : Nat) (x : Word) : Lane := { la with regs := mapPut 0 la.regs n x }
def Warp.sreg (wp : Warp) (n : Nat) : Word := mapGetD wp.sregs n 0
def Warp.setSreg (wp : Warp) (n : Nat) (x : Word) : Warp := { wp with sregs := mapPut 0 wp.sregs n x }
def Warp.mask (wp : Warp) (n : Nat) : Mask := mapGetD wp.masks n 0
def Warp.setMask (wp : Warp) (n : Nat) (x : Mask) : Warp := { wp with masks := mapPut 0 wp.masks n x }
def Tenant.qreg (t : Tenant) (n : Nat) : Word := mapGetD t.q n 0
def Tenant.setQreg (t : Tenant) (n : Nat) (x : Word) : Tenant := { t with q := mapPut 0 t.q n x }
/-- p0 to p6; p7 reads as true (R4). -/
def Lane.pred (la : Lane) (n : Nat) : Bool := if n = 7 then true else la.preds.getLsbD n
/-- Write a predicate; a write to p7 is ignored (R4). -/
def Lane.setPred (la : Lane) (n : Nat) (x : Bool) : Lane :=
  if n < 7 then
    { la with preds := (la.preds &&& ~~~(BitVec.ofNat 7 (2 ^ n))) ||| (if x then BitVec.ofNat 7 (2 ^ n) else 0) }
  else la
def Tenant.pred (t : Tenant) (n : Nat) : Bool := if n = 7 then true else t.qp.getLsbD n
def Tenant.setPred (t : Tenant) (n : Nat) (x : Bool) : Tenant :=
  if n < 4 then
    { t with qp := (t.qp &&& ~~~(BitVec.ofNat 4 (2 ^ n))) ||| (if x then BitVec.ofNat 4 (2 ^ n) else 0) }
  else t

/-! ### Physical memory -/

/-- A byte of physical memory; a byte that nothing has written reads 0 (log entry 2). -/
def readMem (m : List Host.Cell) (a : Nat) : BitVec 8 := mapGetD m a 0

/-- Write a byte, keeping the canonical form. -/
def writeMem (m : List Host.Cell) (a : Nat) (b : BitVec 8) : List Host.Cell := mapPut 0 m a b

/-- Write consecutive bytes. -/
def writeMemBytes (m : List Host.Cell) (a : Nat) : List (BitVec 8) → List Host.Cell
  | [] => m
  | b :: bs => writeMemBytes (writeMem m a b) (a + 1) bs

def readMemBytes (m : List Host.Cell) (a n : Nat) : List (BitVec 8) := (upTo n).map (fun i => readMem m (a + i))

/-- The canonical form: strictly rising addresses, and no entry equal to what an unlisted address reads as. -/
def Memory.wf : List Host.Cell → Bool
  | [] => true
  | [e] => e.2 ≠ 0
  | e :: f :: rest => e.2 ≠ 0 && e.1 < f.1 && Memory.wf (f :: rest)

/-- The little-endian number of a list of bytes. -/
def bytesNat : List (BitVec 8) → Nat
  | [] => 0
  | b :: bs => b.toNat + 256 * bytesNat bs

/-- The `n` little-endian bytes of a number. -/
def natBytes : Nat → Nat → List (BitVec 8)
  | 0, _ => []
  | n + 1, x => BitVec.ofNat 8 x :: natBytes n (x / 256)

def State.readPhys (s : State) (a n : Nat) : Nat := bytesNat (readMemBytes s.mem a n)
def State.writePhys (s : State) (a : Nat) (bs : List (BitVec 8)) : State := { s with mem := writeMemBytes s.mem a bs }

/-! ### Lines (R58) -/

/-- Byte `i` of a line. -/
def lineByte (x : Line) (i : Nat) : BitVec 8 := x.extractLsb' (8 * i) 8
/-- `n` bytes of a line from byte `i`, as a number. -/
def lineGet (x : Line) (i n : Nat) : Nat := (x.toNat >>> (8 * i)) % 2 ^ (8 * n)
/-- Write `n` bytes of a line from byte `i`. -/
def lineSet (x : Line) (i n v : Nat) : Line :=
  (x &&& ~~~(BitVec.ofNat 1536 ((2 ^ (8 * n) - 1) * 2 ^ (8 * i)))) ||| BitVec.ofNat 1536 (v % 2 ^ (8 * n) * 2 ^ (8 * i))

/-! ### Clocks (R386, R317) -/

/-- Pulses that a pattern passes among the first `n` pulses since reset. -/
def passed (pat : BitVec 16) (n : Nat) : Nat :=
  let ones (k : Nat) : Nat := ((upTo k).filter (fun i => pat.getLsbD i)).length
  n / 16 * ones 16 + ones (n % 16)

/-- The core clocks of a cluster since device reset: passed pulses only. -/
def Cluster.clock (c : Cluster) (pulses : Nat) : Nat := c.clkBase + (passed c.pattern pulses - passed c.pattern c.pulseBase)

/-- The cluster of a core. -/
def clusterOf (k : Nat) : Nat := k / 8

/-- `%clock` of a core. -/
def State.clock (s : State) (k : Nat) : Nat := (s.cluster (clusterOf k)).clock s.pulses

/-- gtime with no skew: floor(5 M / 9) (R386). -/
def State.gtime (s : State) : Nat := 5 * s.pulses / 9

/-- gtime as read at a place: within 2 ticks of floor(5 M / 9) (R386; log entry 4). -/
def State.gtimeAt (s : State) (place : Nat) : Nat := s.gtime + (Config.gtimeSkew place s.pulses).val - 2

/-- Places that read gtime. -/
def placeCore (k : Nat) : Nat := 1000 + k
def placeSlice (x : Nat) : Nat := 2000 + x
def placeCluster (c : Nat) : Nat := 3000 + c

/-! ### Groups (R5, R6) -/

/-- The issue group that runs: a warp, its lanes and their common PC. -/
structure Grp where
  w : Nat
  wp : Warp
  lanes : List Nat
  pc : PC
  deriving DecidableEq, Repr

/-- The lanes of a mask that are runnable at one PC, that of the lowest of them (R5). -/
def groupOf (wp : Warp) (w : Nat) (m : Mask) : Option Grp :=
  let run := (maskLanes m).filter (fun l => (wp.lane? l).any (fun la => la.st = .runnable))
  match run with
  | [] => none
  | l0 :: _ =>
    match wp.lane? l0 with
    | none => none
    | some la0 =>
      some { w := w, wp := wp, pc := la0.pc, lanes := run.filter (fun l => (wp.lane? l).any (fun la => la.pc = la0.pc)) }

/-- The group that the state runs, when a warp's group was selected. -/
def State.grp (s : State) : Option Grp :=
  match s.cursor with
  | .group w m :: _ => (s.warp? w).bind (fun wp => groupOf wp w m)
  | _ => none

/-- The tenant whose sequencer the state runs. -/
def State.seq (s : State) : Option Nat :=
  match s.cursor with
  | .seq t :: _ => if (s.tenant? t).any (fun te => te.st = .running) then some t else none
  | _ => none

/-- A guard (R187): one predicate, negated or not. -/
def guardPred (g : BitVec 4) (p : Nat → Bool) : Bool := (p (g.toNat % 8)) != g.getLsbD 3

/-- The guard of a lane (R187). -/
def guardOf (h : Hdr) (p : Nat → Bool) : Bool :=
  if h.gc then guardPred h.g1 p || guardPred h.g2 p else guardPred h.g1 p && guardPred h.g2 p

/-- G: the guard-true lanes of the group (R204). -/
def Grp.trues (g : Grp) (h : Hdr) : List Nat :=
  g.lanes.filter (fun l => (g.wp.lane? l).any (fun la => guardOf h la.pred))

/-- Advance the PC of lanes by one word. -/
def Lane.step (la : Lane) : Lane := { la with pc := la.pc + 16 }
def State.stepLanes (s : State) (w : Nat) (ls : List Nat) : State := s.modLanes w ls Lane.step
/-- Advance a sequencer by one word. -/
def State.stepSeq (s : State) (t : Nat) : State := s.modTenant t (fun te => { te with pc := te.pc + 16 })

/-- `%wid` of a lane: the block's, with wf0 the lane and wf1 the warp (R14, R15). -/
def laneWid (bl : Block) (wp : Warp) (l : Nat) : DWord := bl.wid ||| BitVec.ofNat 64 (l + 32 * wp.index)

/-! ### Rejoin masks (R12) -/

/-- The lanes parked at any `rejoin` that names mask `n`. -/
def Warp.waiting (wp : Warp) (n : Nat) : List Nat :=
  (upTo 32).filter (fun l => (wp.lane? l).any (fun la => la.st = .rejoin n))

/-- Release the lanes that wait on mask `n` once every enrolled lane waits; released lanes are eligible on the next
clock (R12, R318). -/
def Warp.tryRelease (wp : Warp) (n clock : Nat) : Warp :=
  let ws := wp.waiting n
  if ws ≠ [] ∧ wp.mask n &&& ~~~(lanesMask ws) = 0 then
    (wp.modLanes ws (fun la => { la with pc := la.pc + 16, st := .runnable, readyAt := clock + 1 })).setMask n 0
  else wp

/-- Strike lanes from mask `n`. -/
def Warp.strike (wp : Warp) (n : Nat) (ls : List Nat) (clock : Nat) : Warp :=
  (wp.setMask n (wp.mask n &&& ~~~(lanesMask ls))).tryRelease n clock

/-- Lanes leave every mask (R12, exit). -/
def Warp.leaveMasks (wp : Warp) (ls : List Nat) (clock : Nat) : Warp :=
  (upTo 8).foldl (fun wp n => wp.strike n ls clock) wp

/-! ### Numbered barriers (R144, R145) -/

/-- The key of barrier `n` of the core of rank `r`. -/
def nbarKey (r n : Nat) : Nat := 32 * r + n
/-- The key of tag `n` of the core of rank `r`. -/
def tagKey (r n : Nat) : Nat := 64 * r + n

/-- Threads of a block that have not exited. -/
def Warp.live (wp : Warp) : List Nat := (upTo 32).filter (fun l => (wp.lane? l).any (fun la => la.st ≠ .exited))
def State.liveThreads (s : State) (bl : Block) : Nat :=
  (bl.warps.map (fun w => ((s.warp? w).map (fun wp => wp.live.length)).getD 0)).sum

/-- A barrier at the start of a phase (R144). -/
def NBar.start (e : Nat) : NBar := { e := e, a := 0, p := false, x := true, broken := false, arrived := [] }
def State.nbar (s : State) (b r n : Nat) : NBar :=
  ((s.block? b).bind (fun bl => mapGet? bl.nbars (nbarKey r n))).getD (NBar.start 0)
def State.modNbar (s : State) (b r n : Nat) (f : NBar → NBar) : State :=
  s.modBlock b (fun bl => { bl with nbars := mapModify bl.nbars (nbarKey r n) f })

/-- Unpark every lane of a warp that waits in `barw` of barrier `n`, at its next word. -/
def Warp.releaseBarw (wp : Warp) (n : Nat) : Warp :=
  { wp with lanes := wp.lanes.map (fun la =>
      match la.st with
      | .barw n' _ => if n' = n then { la with st := .runnable, pc := la.pc + 16 } else la
      | _ => la) }

/-- Release every waiter of barrier `n` of the core of rank `r`: lanes and the sequencer. -/
def State.releaseBarw (s : State) (b r n : Nat) : State :=
  match s.block? b with
  | none => s
  | some bl =>
    let s := bl.warps.foldl (fun s w => s.modWarp w (fun wp => if wp.rank = r then wp.releaseBarw n else wp)) s
    bl.tenants.foldl (fun s t => s.modTenant t (fun te =>
      match te.st with
      | .barw n' _ => if te.rank = r ∧ n' = n then { te with st := .running, pc := te.pc + 16 } else te
      | _ => te)) s

/-- Check(N) of R145: when the arrivals reach the count, flip the phase and release every waiter. -/
def State.checkNbar (s : State) (b r n : Nat) : State :=
  let nb := s.nbar b r n
  if nb.e ≤ nb.a then
    (s.modNbar b r n (fun nb => { nb with a := 0, p := !nb.p, arrived := [] })).releaseBarw b r n
  else s

/-- The party number of a thread, and of a sequencer, in a barrier's arrived bits. -/
def partyLane (index l : Nat) : Nat := 32 * index + l
def partySeq (r : Nat) : Nat := 65536 + r

/-- A thread leaves the numbered barriers of its block (R145, exit). -/
def State.leaveNbars (s : State) (b party : Nat) : State :=
  match s.block? b with
  | none => s
  | some bl =>
    bl.nbars.foldl (fun s e =>
      let r := e.1 / 32
      let n := e.1 % 32
      let nb := s.nbar b r n
      if nb.x ∧ party ∉ nb.arrived then (s.modNbar b r n (fun nb => { nb with e := nb.e - 1 })).checkNbar b r n
      else s) s

/-! ### The block barrier (R291, R107) -/

/-- Merge the horizons of every warp of a block (R107). -/
def State.mergeHorizons (s : State) (bl : Block) : State :=
  let ws := bl.warps.filterMap (fun w => s.warp? w)
  let cl := listMax (ws.map (·.hcl))
  let dv := listMax (ws.map (·.hdv))
  let sy := listMax (ws.map (·.hsy))
  bl.warps.foldl (fun s w => s.modWarp w (fun wp => { wp with hcl := cl, hdv := dv, hsy := sy })) s

/-- When every live thread of the block has arrived at `bar`, merge the horizons and unpark them (R291). -/
def State.tryBar (s : State) (b : Nat) : State :=
  match s.block? b with
  | none => s
  | some bl =>
    if bl.barArrived ≠ [] ∧ bl.barArrived.length = s.liveThreads bl then
      let s := s.mergeHorizons bl
      let s := bl.barArrived.foldl (fun s wl => s.modLane wl.1 wl.2 (fun la => { la with st := .runnable, pc := la.pc + 16 })) s
      s.modBlock b (fun bl => { bl with barArrived := [] })
    else s

/-! ### Taking a trap, killing a block, exit (R229, R372 to R375) -/

/-- What a trap writes (Table 20.1): the cause, the PC recorded, the address (`none`: kept), the information, and the
PC to which `rte` returns (Table 9.14). -/
structure Trap where
  cause : Nat
  pc : PC
  addr : Option DWord
  info : DWord
  resume : PC
  deriving DecidableEq, Repr

/-- An ILLOP trap at a word with a reason (R195). -/
def Trap.illop (pc : PC) (reason : Nat) : Trap :=
  { cause := 0x01, pc := pc, addr := none, info := BitVec.ofNat 64 reason, resume := pc }
def Trap.misalign (pc : PC) (a : DWord) : Trap := { cause := 0x02, pc := pc, addr := some a, info := 0, resume := pc }
/-- ACCESS at the instruction itself. -/
def Trap.access (pc : PC) (a : DWord) (reason : Nat) : Trap :=
  { cause := 0x03, pc := pc, addr := some a, info := BitVec.ofNat 64 reason, resume := pc }

/-- A lane leaves the boundary and block-barrier arrivals of its block. -/
def Block.forget (bl : Block) (w l : Nat) : Block :=
  { bl with
    arrivals := bl.arrivals.filter (fun a => ¬(a.warp = w ∧ a.lane = l))
    barArrived := bl.barArrived.filter (fun a => ¬(a.1 = w ∧ a.2 = l)) }

/-- The kinds of arrival of a boundary agree (R313): all `pbar`, all `gbar`, or all `forkw` of one count. -/
def sameKind (as : List Arrival) : Bool :=
  match as with
  | [] => true
  | a :: rest => rest.all (fun b => b.kind = a.kind)

/-- Requests leave every list in which they wait. -/
def State.dropHeld (s : State) (drop : List Nat) : State :=
  { s with
    reqs := s.reqs.filter (fun e => e.1 ∉ drop)
    slices := s.slices.map (fun e => (e.1, { e.2 with
      poste := e.2.poste.filter (fun r => r ∉ drop), waits := e.2.waits.filter (fun r => r ∉ drop) }))
    clusters := s.clusters.map (fun e => (e.1, { e.2 with banks := e.2.banks.map (fun b => (b.1, { b.2 with
      waiting := b.2.waiting.filter (fun r => r ∉ drop) })) })) }

/-- Withdraw the held requests of a lane: futures, waits and FIFO operations (R229, R81). -/
def State.withdraw (s : State) (w l : Nat) : State :=
  s.dropHeld ((s.reqs.filter (fun e =>
    e.2.warp = some w && e.2.st = .held && e.2.accs.any (fun a => a.lane = l))).map (·.1))

/-- One lane exits (R229): it leaves every mask, the barriers' counts and any arrival, its transaction is discarded and
its held requests are withdrawn. -/
def State.exitLane (s : State) (w l : Nat) : State :=
  match s.warp? w with
  | none => s
  | some wp =>
    match wp.lane? l with
    | none => s
    | some la =>
      if la.st = .exited then s
      else
        let s := s.modWarp w (fun wp => wp.leaveMasks [l] (s.clock wp.core))
        let s := s.leaveNbars wp.block (partyLane wp.index l)
        let s := s.withdraw w l
        let s := s.modLane w l (fun la => { la with st := .exited, hold := .none, tx := none, inHandler := false })
        let s := s.modBlock wp.block (fun bl => bl.forget w l)
        s.tryBar wp.block

/-- Stop a sequencer under step 1 of R149: what stands in its queue is older and completes. -/
def State.stopSeq (s : State) (t : Nat) : State :=
  s.modTenant t (fun te => if te.st = .exited then te else { te with st := .stopped })

/-- Discard what a stream queue holds (R149). -/
def State.clearQueue (s : State) (t : Nat) : State := s.modTenant t (fun te => { te with queue := [] })

/-- Record in the grid's final record that a block was killed by a cause (R375); a rival's end is told to its parent
only (R169). -/
def State.noteKill (s : State) (b cause : Nat) (addr : DWord) (core : Nat) : State :=
  match s.block? b with
  | none => s
  | some bl =>
    if bl.parent.isSome then s
    else s.modGrid bl.grid (fun g =>
      let g := { g with cause := g.cause ||| BitVec.ofNat 16 (2 ^ cause) }
      if g.status = 0 then { g with status := 1, reason := cause, faddr := addr.toNat, engine := 0x1000 + core } else g)

/-- Kill a block (R375): each live thread exits and every sequencer stops under step 1 of R149: queued tile instructions and issued drains
complete. -/
def State.killBlock (s : State) (b cause : Nat) (addr : DWord) (core : Nat) : State :=
  match s.block? b with
  | none => s
  | some bl =>
    if bl.killed.isSome then s
    else
      let s := s.noteKill b cause addr core
      let s := s.modBlock b (fun bl => { bl with killed := some cause })
      let s := bl.warps.foldl (fun s w => (upTo 32).foldl (fun s l => s.exitLane w l) s) s
      bl.tenants.foldl (fun s t => s.stopSeq t) s

/-- The trap registers, the resume PC and the handler PC of a lane (R373, steps 2 to 5). -/
def Lane.enter (la : Lane) (t : Trap) (handler : PC) (clock : Nat) : Lane :=
  { la with
    tcause := BitVec.ofNat 32 t.cause
    tpc := t.pc.setWidth 64
    taddr := t.addr.getD la.taddr
    tinfo := t.info
    resume := (la.tx.map (·.fallback)).getD t.resume
    txstat := if la.tx.isSome then 0x05 else la.txstat
    tx := none
    pc := handler
    st := .entry (clock + 4)
    hold := .none
    readyAt := clock + 4
    inHandler := true }

/-- The incomplete speculative fence that a lane of a warp has passed (R100). -/
def State.aheadOf (s : State) (w l : Nat) : Option Nat :=
  (s.fences.find? (fun e => e.2.spec && e.2.warp = w && e.2.lanes.getLsbD l)).map (·.1)

/-- An instruction ahead of a speculative fence is about to trap: its group rolls back next, and the trap is taken when the instruction
issues again (R101, R373, step 1). -/
def State.breakSpec (s : State) (n : Nat) : State :=
  if (mapGet? s.fences n).any (·.back) then s
  else { s.modFence n (fun f => { f with back := true }) with agenda := { pulses := 0, ev := .specFenceComplete n } :: s.agenda }

/-- A lane takes a trap (R373), or kills its block where the launch names no handler or the lane is in one (R375). -/
def State.trapLane (s : State) (w l : Nat) (t : Trap) : State :=
  match s.warp? w with
  | none => s
  | some wp =>
    match wp.lane? l, s.recOfBlock wp.block with
    | some la, some lr =>
      if la.st = .exited then s
      else
        match s.aheadOf w l with
        | some n => s.breakSpec n
        | none =>
          if lr.handler = 0 ∨ la.inHandler then
            s.killBlock wp.block t.cause (t.addr.getD (t.pc.setWidth 64)) wp.core
          else
            (s.modLane w l (fun la => la.enter t (BitVec.ofNat 57 lr.handler) (s.clock wp.core))).modBlock wp.block
              (fun bl => bl.forget w l)
    | _, _ => s

/-- Several lanes take one trap. -/
def State.trapLanes (s : State) (w : Nat) (ls : List Nat) (t : Trap) : State := ls.foldl (fun s l => s.trapLane w l t) s

/-- Return of a lane from its handler (R235, R374): the resume PC, eligible 3 clocks later (R318). -/
def Lane.ret (la : Lane) (clock : Nat) : Lane := { la with pc := la.resume, inHandler := false, readyAt := clock + 3 }

/-- Exit several lanes. -/
def State.exitLanes (s : State) (w : Nat) (ls : List Nat) : State := ls.foldl (fun s l => s.exitLane w l) s

/-- When every live thread of a block has arrived at a boundary and the arrivals differ in kind, each takes ILLOP
reason 0x0B at its own word (R313). -/
def State.checkArrivals (s : State) (b : Nat) : State :=
  match s.block? b with
  | none => s
  | some bl =>
    if bl.arrivals ≠ [] ∧ bl.arrivals.length = s.liveThreads bl ∧ !sameKind bl.arrivals then
      bl.arrivals.foldl (fun s a => s.trapLane a.warp a.lane (.illop a.pc 0x0B)) s
    else s

/-! ### Tenant faults (R149, R376) -/

/-- Break every numbered barrier of a block: lanes that wait at one trap with TBROKEN (R149, step 2 and 3). -/
def State.breakBarriers (s : State) (b cause rank : Nat) (addr : DWord) : State :=
  match s.block? b with
  | none => s
  | some bl =>
    let s := s.modBlock b (fun bl => { bl with
      broken := some (bl.broken.getD (cause, rank, addr.toNat))
      nbars := bl.nbars.map (fun e => (e.1, { e.2 with broken := true })) })
    bl.warps.foldl (fun s w =>
      (upTo 32).foldl (fun s l =>
        match s.lane? w l with
        | some la =>
          match la.st with
          | .barw _ _ | .bar | .boundary =>
            s.trapLane w l
              { cause := 0x0B, pc := la.pc, addr := some addr, info := BitVec.ofNat 64 (cause + 256 * rank),
                resume := la.pc }
          | _ => s
        | none => s) s) s

/-- The TBROKEN trap of a lane of a block whose barriers are broken (R149). -/
def Block.tbroken (bl : Block) (pc : PC) : Option Trap :=
  bl.broken.map (fun x =>
    { cause := 0x0B, pc := pc, addr := some (BitVec.ofNat 64 x.2.2), info := BitVec.ofNat 64 (x.1 + 256 * x.2.1),
      resume := pc })

/-- A tenant faults (R149, R376): its record is written, the sequencer stops and the block's barriers break. A second
fault of the same tenant changes nothing. -/
def State.tenantFault (s : State) (t cause reason : Nat) (spc : PC) (addr : DWord) : State :=
  match s.tenant? t with
  | none => s
  | some te =>
    if te.fault.isSome then s
    else
      let f : TFault := { cause := cause, reason := reason, rank := te.rank, spc := spc.setWidth 64, addr := addr, postmark := s.gtime }
      let s := s.modTenant t (fun te => { te with fault := some f })
      let s := s.stopSeq t
      let s := match s.block? te.block with
        | none => s
        | some bl =>
          s.modGrid bl.grid (fun g =>
            let g := { g with cause := g.cause ||| 0x4000#16 ||| BitVec.ofNat 16 (2 ^ cause) }
            if g.status = 0 then
              { g with
                status := 1, reason := reason, faddr := (if addr = 0 then f.spc else addr).toNat,
                engine := 0x3000 + 2 * te.core + t % 2 }
            else g)
      s.breakBarriers te.block cause te.rank addr

/-- The outcome of an illegal word or a failed check at the party's word: an ILLOP trap of lanes (R195). -/
def State.illopLanes (s : State) (g : Grp) (ls : List Nat) (reason : Nat) : State :=
  s.trapLanes g.w ls (.illop g.pc reason)

/-- … or a tenant fault with cause ILLOP in the tile stream (R292). -/
def State.illopSeq (s : State) (t reason : Nat) : State :=
  match s.tenant? t with
  | none => s
  | some te => s.tenantFault t 0x01 reason te.pc 0

/-- The word at the running party's PC is illegal: every lane of its group traps, or its tenant faults (R196, R292). -/
def illegalWord (reason : Nat) (s : State) : State :=
  match s.grp with
  | some g => s.illopLanes g g.lanes reason
  | none =>
    match s.seq with
    | some t => s.illopSeq t reason
    | none => s

end Sys2Proof.Machine
end

