-- ==== Sys2Proof/Machine/Float.lean ====
section
/-! DEFINITION. Exact numbers, the floating-point formats of Table 5.1, rounding, overflow, stochastic rounding and NaN
payloads (R114 to R128). -/

namespace Sys2Proof.Machine

/-- An exact number: num · 2^exp / den. -/
structure Ex where
  num : Int
  exp : Int
  den : Nat
  deriving DecidableEq, Repr

def Ex.ofInt (n : Int) : Ex := { num := n, exp := 0, den := 1 }
def Ex.zero : Ex := Ex.ofInt 0
def Ex.neg (x : Ex) : Ex := { x with num := -x.num }
def Ex.abs (x : Ex) : Ex := { x with num := x.num.natAbs }
def Ex.mul (x y : Ex) : Ex := { num := x.num * y.num, exp := x.exp + y.exp, den := x.den * y.den }
/-- Multiply by a power of two. -/
def Ex.scale (x : Ex) (n : Int) : Ex := { x with exp := x.exp + n }
/-- The numerator at a smaller exponent `e`. -/
def Ex.numAt (x : Ex) (e : Int) : Int := x.num * (2 ^ (x.exp - e).toNat : Nat)
def Ex.add (x y : Ex) : Ex :=
  let e := min x.exp y.exp
  { num := x.numAt e * y.den + y.numAt e * x.den, exp := e, den := x.den * y.den }
def Ex.sub (x y : Ex) : Ex := x.add y.neg
/-- Quotient; the divisor is not zero where it is used. -/
def Ex.div (x y : Ex) : Ex :=
  { num := x.num * y.den * y.num.sign, exp := x.exp - y.exp, den := x.den * y.num.natAbs }
def Ex.isZero (x : Ex) : Bool := x.num = 0
def Ex.isNeg (x : Ex) : Bool := x.num < 0
def Ex.lt (x y : Ex) : Bool := (x.sub y).num < 0
def Ex.le (x y : Ex) : Bool := (x.sub y).num ≤ 0

/-- `n / d` rounded to an integer in a mode (R122). -/
def roundDiv (m : Rnd) (n : Int) (d : Nat) : Int :=
  let q := n / (d : Int)
  let r := n % (d : Int)
  match m with
  | .rn => if 2 * r < d then q else if (d : Int) < 2 * r then q + 1 else if q % 2 = 0 then q else q + 1
  | .rz => if 0 ≤ n ∨ r = 0 then q else q + 1
  | .rd => q
  | .ru => if r = 0 then q else q + 1

/-- x / 2^q rounded to an integer. -/
def Ex.roundAt (x : Ex) (m : Rnd) (q : Int) : Int :=
  if q ≤ x.exp then roundDiv m (x.num * (2 ^ (x.exp - q).toNat : Nat)) x.den
  else roundDiv m x.num (x.den * 2 ^ (q - x.exp).toNat)

/-- x rounded to an integer. -/
def Ex.round (x : Ex) (m : Rnd) : Int := x.roundAt m 0

/-- floor(log2 |x|) of a number that is not zero. -/
def Ex.ilog2 (x : Ex) : Int :=
  let a := x.num.natAbs
  let e : Int := (Nat.log2 a : Int) - Nat.log2 x.den
  let fits : Bool := if 0 ≤ e then x.den * 2 ^ e.toNat ≤ a else x.den ≤ a * 2 ^ (-e).toNat
  x.exp + (if fits then e else e - 1)

/-- What a format does past its largest finite value. -/
inductive FKind where
  /-- Infinity and NaN as IEEE 754-2019. -/
  | ieee
  /-- E4M3: no infinity, one NaN. -/
  | e4m3
  /-- E2M1: neither. -/
  | e2m1
  deriving DecidableEq, Repr

/-- A floating-point format (Table 5.1): exponent and mantissa bits, bias, NaN payload bits kept in a change of
format (Table 5.7). -/
structure FF where
  ebits : Nat
  mbits : Nat
  bias : Nat
  kind : FKind
  keep : Nat
  deriving DecidableEq, Repr

def FF.fp64 : FF := { ebits := 11, mbits := 52, bias := 1023, kind := .ieee, keep := 22 }
def FF.fp32 : FF := { ebits := 8, mbits := 23, bias := 127, kind := .ieee, keep := 22 }
def FF.bf16 : FF := { ebits := 8, mbits := 7, bias := 127, kind := .ieee, keep := 6 }
def FF.fp16 : FF := { ebits := 5, mbits := 10, bias := 15, kind := .ieee, keep := 9 }
def FF.e4m3 : FF := { ebits := 4, mbits := 3, bias := 7, kind := .e4m3, keep := 0 }
def FF.e5m2 : FF := { ebits := 5, mbits := 2, bias := 15, kind := .ieee, keep := 1 }
def FF.e2m1 : FF := { ebits := 2, mbits := 1, bias := 1, kind := .e2m1, keep := 0 }

def FF.bits (f : FF) : Nat := 1 + f.ebits + f.mbits
/-- The exponent of the least magnitude m_min. -/
def FF.qmin (f : FF) : Int := 1 - (f.bias : Int) - f.mbits
/-- The code of the largest finite magnitude. -/
def FF.maxCode (f : FF) : Nat :=
  match f.kind with
  | .ieee => (2 ^ f.ebits - 1) * 2 ^ f.mbits - 1
  | .e4m3 => 0x7E
  | .e2m1 => 7
/-- The code of infinity. -/
def FF.infCode (f : FF) : Nat := (2 ^ f.ebits - 1) * 2 ^ f.mbits
/-- The quiet bit. -/
def FF.quiet (f : FF) : Nat := 2 ^ (f.mbits - 1)
def FF.signBit (f : FF) : Nat := 2 ^ (f.ebits + f.mbits)

/-- A value read from a format. -/
inductive FV where
  /-- A NaN: its sign and its mantissa bits, the quiet bit among them. -/
  | nan (neg : Bool) (mant : Nat)
  | inf (neg : Bool)
  | fin (neg : Bool) (m : Nat) (e : Int)
  deriving DecidableEq, Repr

/-- Read the bits of a format. -/
def FF.read (f : FF) (x : Nat) : FV :=
  let neg := x / f.signBit % 2 = 1
  let e := x / 2 ^ f.mbits % 2 ^ f.ebits
  let m := x % 2 ^ f.mbits
  match f.kind with
  | .ieee =>
    if e = 2 ^ f.ebits - 1 then (if m = 0 then .inf neg else .nan neg m)
    else if e = 0 then .fin neg m f.qmin
    else .fin neg (2 ^ f.mbits + m) (f.qmin + e - 1)
  | .e4m3 =>
    if x % f.signBit = 0x7F then .nan neg m
    else if e = 0 then .fin neg m f.qmin
    else .fin neg (2 ^ f.mbits + m) (f.qmin + e - 1)
  | .e2m1 => if e = 0 then .fin neg m f.qmin else .fin neg (2 ^ f.mbits + m) (f.qmin + e - 1)

def FV.isNaN : FV → Bool
  | .nan _ _ => true
  | _ => false
def FV.isInf : FV → Bool
  | .inf _ => true
  | _ => false
def FV.isZero : FV → Bool
  | .fin _ 0 _ => true
  | _ => false
def FV.neg : FV → Bool
  | .nan n _ => n
  | .inf n => n
  | .fin n _ _ => n
/-- The exact value of a finite value. -/
def FV.ex : FV → Ex
  | .fin n m e => { num := if n then -(m : Int) else m, exp := e, den := 1 }
  | _ => Ex.zero

/-- The sign bit with a code. -/
def FF.pack (f : FF) (neg : Bool) (code : Nat) : Nat := (if neg then f.signBit else 0) + code
def FF.zero (f : FF) (neg : Bool) : Nat := f.pack neg 0
def FF.inf (f : FF) (neg : Bool) : Nat := f.pack neg f.infCode

/-- A quiet NaN of the format with a sign and payload P (Table 5.7). -/
def FF.nan (f : FF) (neg : Bool) (p : Nat) : Nat :=
  match f.kind with
  | .ieee => f.pack neg (f.infCode + f.quiet + p % 2 ^ f.keep)
  | .e4m3 => f.pack neg 0x7F
  | .e2m1 => f.pack neg 7

/-- A NaN passed on in its own format: quieted, sign and payload kept (R127, R128). -/
def FF.quieted (f : FF) (neg : Bool) (mant : Nat) : Nat :=
  match f.kind with
  | .ieee => f.pack neg (f.infCode + f.quiet + mant % f.quiet)
  | .e4m3 => f.pack neg 0x7F
  | .e2m1 => f.pack neg 7

/-- A NaN of format `g` written into format `f`: its own format keeps every bit, another the bits of Table 5.7. -/
def FF.nanFrom (f g : FF) (neg : Bool) (mant : Nat) : Nat :=
  if f = g then f.quieted neg mant else f.nan neg (mant % g.quiet % 2 ^ g.keep)

/-- Fold17 of a PC (R126). -/
def fold17 (pc : PC) : Nat :=
  (pc.extractLsb' 4 17 ^^^ pc.extractLsb' 21 17 ^^^ pc.extractLsb' 38 17 ^^^ (pc.extractLsb' 55 2).setWidth 17).toNat

/-- The payload of a NaN produced by an invalid operation (R126). -/
def nanPayload (pc : PC) (o : Nat) : Nat := fold17 pc * 32 + o % 32

/-- The hash H (R125). -/
def hashH (seed ctr : DWord) : DWord :=
  let round (z : DWord) (sh : Nat) (m : DWord) : DWord := (z ^^^ (z >>> sh)) * m
  let z := seed ^^^ ctr ^^^ 0x6A3B0F5D91C427E8#64
  let z := round z 29 0xB4F28C1D5E973A6B#64
  let z := round z 31 0xD1C36E852F4B9A17#64
  let z := round z 27 0x8E5AF321C76D04B9#64
  let z := round z 30 0xC2B71D94E0685F33#64
  z ^^^ (z >>> 32)

/-- The counter of a rounding (R125). -/
def roundCtr (pc : PC) (c : Nat) (w : DWord) : DWord :=
  ((pc.extractLsb' 4 20).setWidth 64 <<< 44) + BitVec.ofNat 64 (c * 2 ^ 32) + (w.setWidth 32).setWidth 64

/-- rand16 (R124). -/
def rand16 (seed : DWord) (pc : PC) (c : Nat) (w : DWord) : Nat := ((hashH seed (roundCtr pc c w)) >>> 48).toNat

/-- The outcome of an overflow: IEEE 754-2019 by the mode for FP32 and FP64, Table 5.5 otherwise (R123). A slot of FP32 or FP64 with SAT
has no row in that table: SAT changes nothing there (DESIGN CHOICE, log entry 126). -/
def FF.overflow (f : FF) (rnd : Rnd) (sat neg : Bool) : Nat :=
  match f.kind with
  | .e2m1 => f.pack neg 7
  | .e4m3 => if sat then f.pack neg f.maxCode else f.pack neg 0x7F
  | .ieee =>
    if 16 < f.bits then
      match rnd, neg with
      | .rn, _ => f.inf neg
      | .rz, _ => f.pack neg f.maxCode
      | .rd, false => f.pack neg f.maxCode
      | .rd, true => f.inf neg
      | .ru, false => f.inf neg
      | .ru, true => f.pack neg f.maxCode
    else if sat then f.pack neg f.maxCode
    else f.inf neg

/-- A number far below m_min, replaced by another of its sign that rounds alike: no boundary lies between them. -/
def FF.floorTiny (f : FF) (x : Ex) : Ex :=
  if x.ilog2 < f.qmin - 20 then { num := if x.isNeg then -1 else 1, exp := f.qmin - 20, den := 1 } else x

/-- The bits of an exact number rounded into a format: subnormals kept, the stochastic zone below m_min for formats of
16 bits or fewer (R124). `negZ` is the sign of an exact zero. -/
def FF.write (f : FF) (rnd : Rnd) (sat : Bool) (r16 : Nat) (negZ : Bool) (x : Ex) : Nat :=
  if x.isZero then f.zero negZ
  else
    let x := f.floorTiny x
    let neg := x.isNeg
    let a := x.abs
    let e := a.ilog2
    if f.bits ≤ 16 ∧ e < f.qmin then
      if (r16 : Int) < (a.scale (16 - f.qmin)).round .rd then f.pack neg 1 else f.zero neg
    else
      let q := max (e - f.mbits) f.qmin
      let n := (x.roundAt rnd q).natAbs
      let code := (q - f.qmin).toNat * 2 ^ f.mbits + n
      if f.maxCode < code then f.overflow rnd sat neg else f.pack neg code

/-- Write a finite value or an infinity; an infinity is an overflow of its own sign (R123). -/
def FF.writeFV (f : FF) (rnd : Rnd) (sat : Bool) (r16 : Nat) (v : FV) : Nat :=
  match v with
  | .inf neg => if 16 < f.bits then f.inf neg else f.overflow rnd sat neg
  | .fin neg _ _ => f.write rnd sat r16 neg v.ex
  | .nan neg m => f.quieted neg m

/-- The format of a part of a floating-point type. -/
def Ty.ff : Ty → FF
  | .f16x2 => .fp16
  | .bf16x2 => .bf16
  | .f64 => .fp64
  | _ => .fp32

/-- An integer supplied exactly in a type (R184); every integer 0 to 31 is exact in every type. -/
def intBits (t : Ty) (n : Nat) : Nat :=
  if t.isFloat then
    let b := (Ty.ff t).write .rn false 0 false (Ex.ofInt n)
    if t.isPair then b + 2 ^ 16 * b else b
  else n

/-- The FP32 patterns of the fixed constants (Table 8.3). -/
def const32 : List Nat :=
  [0xBF800000, 0xBF000000, 0x3F000000, 0x3E800000, 0x3E000000, 0x3FB504F3, 0x3F3504F3, 0x3F317218, 0x3FB8AA3B,
   0x40549A78, 0x40490FDB, 0x3EA2F983, 0x40C90FDB, 0x7F800000, 0xFF800000, 0x80000000]
/-- RoundNE of the exact constants in FP64, FP16 and BF16 (R183). -/
def const64 : List Nat :=
  [0xBFF0000000000000, 0xBFE0000000000000, 0x3FE0000000000000, 0x3FD0000000000000, 0x3FC0000000000000,
   0x3FF6A09E667F3BCD, 0x3FE6A09E667F3BCD, 0x3FE62E42FEFA39EF, 0x3FF71547652B82FE, 0x400A934F0979A371,
   0x400921FB54442D18, 0x3FD45F306DC9C883, 0x401921FB54442D18, 0x7FF0000000000000, 0xFFF0000000000000,
   0x8000000000000000]
def const16 : List Nat :=
  [0xBC00, 0xB800, 0x3800, 0x3400, 0x3000, 0x3DA8, 0x39A8, 0x398C, 0x3DC5, 0x42A5, 0x4248, 0x3518, 0x4648, 0x7C00,
   0xFC00, 0x8000]
def constB16 : List Nat :=
  [0xBF80, 0xBF00, 0x3F00, 0x3E80, 0x3E00, 0x3FB5, 0x3F35, 0x3F31, 0x3FB9, 0x4055, 0x4049, 0x3EA3, 0x40C9, 0x7F80,
   0xFF80, 0x8000]

/-- A fixed constant in a floating-point type (R183). -/
def constBits (t : Ty) (c : Nat) : Nat :=
  match t with
  | .f64 => const64.getD c 0
  | .f16x2 => const16.getD c 0 * 0x10001
  | .bf16x2 => constB16.getD c 0 * 0x10001
  | _ => const32.getD c 0

/-- An FP32 value widened exactly to FP64 (R185). A signalling NaN is quieted as an operand's NaN is (DESIGN CHOICE, log entry 127). -/
def widen32 (x : Nat) : Nat :=
  match FF.fp32.read x with
  | .nan neg m => FF.fp64.nanFrom FF.fp32 neg m
  | v => FF.fp64.writeFV .rn false 0 v

end Sys2Proof.Machine
end

