-- ==== Sys2Proof/Machine/Operands.lean ====
section
/-! DEFINITION. Operand forms: what a source field supplies to a lane or a sequencer, how a destination is written, and
the one operation through which every instruction that computes on registers acts (R181 to R187, R204 to R206). -/

namespace Sys2Proof

/-- The highest vector register of a field, plus 1; 0 where the field names none (R206). -/
def Opd.top (o : Opd) (bits : Nat) : Nat :=
  match o with
  | .v n => n.toNat + max 1 (bits / 32)
  | _ => 0
def Dst.top (d : Dst) (bits : Nat) : Nat :=
  match d with
  | .v n => n.toNat + max 1 (bits / 32)
  | _ => 0


/-- The highest vector register of a memory operand, plus 1. -/
def MAddr.top (m : MAddr) : Nat := max (m.base.top 64) (m.index.top 32)

/-- A signed integer type. -/
def Ty.signed (t : Ty) : Bool := t = .i32 || t = .i64

end Sys2Proof

namespace Sys2Proof.Machine

/-- The outcome of a meaning. -/
abbrev Out := Host.Outcome State Fault Refusal

/-- What a party reads at issue: its vector and uniform (or q) registers, its predicates, its lane, its `%wid`, the
launch seed and the PC of the word. -/
structure Regs where
  vr : Nat → Word
  sr : Nat → Word
  pr : Nat → Bool
  lane : Nat
  wid : DWord
  seed : DWord
  pc : PC

/-- A register, a pair or a quad from a register file, low word first (R182). -/
def regGet (f : Nat → Word) (n bits : Nat) : Nat :=
  if bits ≤ 32 then (f n).toNat
  else if bits ≤ 64 then (f n).toNat + 2 ^ 32 * (f (n + 1)).toNat
  else (f n).toNat + 2 ^ 32 * (f (n + 1)).toNat + 2 ^ 64 * (f (n + 2)).toNat + 2 ^ 96 * (f (n + 3)).toNat

/-- A literal in a source of a type (R185). -/
def litBits (t : Ty) (x : Word) : Nat :=
  match t with
  | .i64 => (x.signExtend 64).toNat
  | .f64 => widen32 x.toNat
  | _ => x.toNat

/-- Src(F, l): the value that a source field supplies (R181 to R185). -/
def Regs.src (r : Regs) (t : Ty) (o : Opd) : Nat :=
  match o with
  | .v n => regGet r.vr n.toNat t.regBits
  | .s n => regGet r.sr n.toNat t.regBits
  | .int n => intBits t n.toNat
  | .const c => constBits t c.toNat
  | .zero => 0
  | .lit x => litBits t x

/-- A 32-bit source read as an unsigned integer (R212). -/
def Regs.src32 (r : Regs) (o : Opd) : Nat := r.src .b32 o
/-- A 64-bit source. -/
def Regs.src64 (r : Regs) (o : Opd) : Nat := r.src .b64 o

/-- One result of an instruction: a register of a width, or a predicate. -/
inductive Wr where
  | reg (d : Dst) (bits x : Nat)
  | pred (pd : BitVec 3) (x : Bool)
  deriving DecidableEq, Repr

/-- Write a register, a pair or a quad of a lane. -/
def Lane.setRegs (la : Lane) (n bits x : Nat) : Lane :=
  if bits ≤ 32 then la.setReg n (BitVec.ofNat 32 x)
  else if bits ≤ 64 then (la.setReg n (BitVec.ofNat 32 x)).setReg (n + 1) (BitVec.ofNat 32 (x / 2 ^ 32))
  else
    (((la.setReg n (BitVec.ofNat 32 x)).setReg (n + 1) (BitVec.ofNat 32 (x / 2 ^ 32))).setReg (n + 2)
      (BitVec.ofNat 32 (x / 2 ^ 64))).setReg (n + 3) (BitVec.ofNat 32 (x / 2 ^ 96))
/-- Write a uniform register or a pair of them. -/
def Warp.setSregs (wp : Warp) (n bits x : Nat) : Warp :=
  if bits ≤ 32 then wp.setSreg n (BitVec.ofNat 32 x)
  else (wp.setSreg n (BitVec.ofNat 32 x)).setSreg (n + 1) (BitVec.ofNat 32 (x / 2 ^ 32))
/-- Write a q register or a pair of them. -/
def Tenant.setQregs (te : Tenant) (n bits x : Nat) : Tenant :=
  if bits ≤ 32 then te.setQreg n (BitVec.ofNat 32 x)
  else (te.setQreg n (BitVec.ofNat 32 x)).setQreg (n + 1) (BitVec.ofNat 32 (x / 2 ^ 32))

/-- The part of a result that a lane keeps. -/
def Lane.put (la : Lane) (w : Wr) : Lane :=
  match w with
  | .reg (.v n) bits x => la.setRegs n.toNat bits x
  | .reg _ _ _ => la
  | .pred pd x => la.setPred pd.toNat x
/-- The part of a result that a warp keeps: its uniform registers (R205). -/
def Warp.putUni (wp : Warp) (w : Wr) : Warp :=
  match w with
  | .reg (.s n) bits x => wp.setSregs n.toNat bits x
  | _ => wp
/-- A result in the tile stream: `s n` names qn, and predicates are qp0 to qp3. -/
def Tenant.put (te : Tenant) (w : Wr) : Tenant :=
  match w with
  | .reg (.s n) bits x => te.setQregs n.toNat bits x
  | .reg _ _ _ => te
  | .pred pd x => te.setPred pd.toNat x

def Lane.puts (la : Lane) (ws : List Wr) : Lane := ws.foldl Lane.put la
def Warp.putsUni (wp : Warp) (ws : List Wr) : Warp := ws.foldl Warp.putUni wp
def Tenant.puts (te : Tenant) (ws : List Wr) : Tenant := ws.foldl Tenant.put te

/-- What lane `l` of a warp reads. -/
def Warp.regs (wp : Warp) (wid seed : DWord) (pc : PC) (l : Nat) : Regs :=
  { vr := fun n => ((wp.lane? l).map (fun la => la.reg n)).getD 0
    sr := wp.sreg
    pr := fun n => ((wp.lane? l).map (fun la => la.pred n)).getD (n = 7)
    lane := l
    wid := wid ||| BitVec.ofNat 64 (l + 32 * wp.index)
    seed := seed
    pc := pc }

/-- What a sequencer reads; its `%wid` has wf0 and wf1 zero. -/
def Tenant.regs (te : Tenant) (wid seed : DWord) : Regs :=
  { vr := fun _ => 0, sr := te.qreg, pr := te.pred, lane := 0, wid := wid, seed := seed, pc := te.pc }

/-- The `%wid` of a block without its thread fields, and its launch seed. -/
def State.widOf (s : State) (b : Nat) : DWord := ((s.block? b).map (·.wid)).getD 0
def State.seedOf (s : State) (b : Nat) : DWord := ((s.recOfBlock b).map (·.seed)).getD 0
/-- The launch's `.regs` count (R206). -/
def State.regsOf (s : State) (b : Nat) : Nat := ((s.recOfBlock b).map (·.regs)).getD 256

/-- Format slot `n` of the launch of the running group (R119). -/
def State.slotOf (s : State) (n : Nat) : BitVec 128 :=
  (s.grp.bind (fun g => (s.recOfBlock g.wp.block).bind (fun lr => lr.slots[n]?))).getD 0

/-- The views of the guard-true lanes of a group. -/
def State.views' (s : State) (g : Grp) (h : Hdr) : List Regs :=
  (g.trues h).map (g.wp.regs (s.widOf g.wp.block) (s.seedOf g.wp.block) g.pc)

/-- Write the results of the lanes of G, `f r` for a lane that reads `r`; a uniform destination takes the value of the
lowest lane (R205). -/
def Warp.writes (wp : Warp) (rs : List Regs) (f : Regs → List Wr) : Warp :=
  match rs with
  | [] => wp
  | r0 :: _ => (rs.foldl (fun wp r => wp.modLane r.lane (fun la => la.puts (f r))) wp).putsUni (f r0)

/-- An instruction that computes on registers only. `top` is one more than the highest vector register that its fields
name (R206); `ok` is the entry's check of the launch record; `f G r` gives the results of the lane that reads `r`, G
being what every guard-true lane reads (R204). A failed check is ILLOP reason 0x0B in G (R196). -/
def aluCk (h : Hdr) (top : Nat) (ok : Bool) (f : List Regs → Regs → List Wr) (s : State) : State :=
  match s.grp with
  | some g =>
    if s.regsOf g.wp.block < top ∨ !ok then
      (s.stepLanes g.w (g.lanes.filter (fun l => l ∉ g.trues h))).illopLanes g (g.trues h) 0x0B
    else
      let rs := s.views' g h
      (s.modWarp g.w (fun wp => wp.writes rs (f rs))).stepLanes g.w g.lanes
  | none =>
    match s.seq with
    | some t =>
      match s.tenant? t with
      | some te =>
        let r := te.regs (s.widOf te.block) (s.seedOf te.block)
        (s.modTenant t (fun te => if guardOf h te.pred then te.puts (f [r] r) else te)).stepSeq t
      | none => s
    | none => s

/-- … with no check but that of R206. -/
def alu (h : Hdr) (top : Nat) (f : List Regs → Regs → List Wr) (s : State) : State := aluCk h top true f s

/-- … of one destination of a width, computed by each lane from its own sources. -/
def alu1 (h : Hdr) (a : Dst) (bits top : Nat) (f : Regs → Nat) (s : State) : State :=
  alu h (max (a.top bits) top) (fun _ r => [.reg a bits (f r)]) s

/-- Half `p` of a pair-typed value, or the single part of another (Part). -/
def part (t : Ty) (x p : Nat) : Nat := if t.isPair then x / 2 ^ (16 * p) % 2 ^ 16 else x

/-- The parts of a type: two halves of a pair type, else one. -/
def parts (t : Ty) : List Nat := if t.isPair then [0, 1] else [0]

/-- Assemble the parts of a result. -/
def joinParts (t : Ty) (f : Nat → Nat) : Nat := if t.isPair then f 0 + 2 ^ 16 * f 1 else f 0

/-- The address of a memory operand: Base + SignExtend(Index) · 2^ISC + SignExtend(EXT), modulo 2^64 (R192). -/
def Regs.addr (r : Regs) (m : MAddr) : DWord :=
  BitVec.ofNat 64 (r.src64 m.base) + ((BitVec.ofNat 32 (r.src32 m.index)).signExtend 64 <<< m.isc.toNat)
    + m.off.signExtend 64

/-- Bits [63:57] equal bit 56 (R54). -/
def canonical (a : DWord) : Bool := (a.setWidth 57).signExtend 64 = a

end Sys2Proof.Machine
end

