-- ==== Sys2Proof/Machine/Flags.lean ====
section
/-! DEFINITION. The machine has no flags register; its predicates play that part. Here are the computations that give
them: comparisons, classes and truth tables, with the integer reading and wrapping of types (R129, R191, R211, R246). -/

namespace Sys2Proof.Machine

/-- A value read as an integer of a type (R129, R204). -/
def intVal (t : Ty) (x : Nat) : Int :=
  if t.signed then (if x < 2 ^ (t.bits - 1) then (x : Int) else (x : Int) - 2 ^ t.bits) else x

/-- An integer wrapped into a type, modulo 2^n. -/
def wrapTo (t : Ty) (x : Int) : Nat := (x % (2 ^ t.bits : Nat)).toNat

def tyMin (t : Ty) : Int := if t.signed then -(2 ^ (t.bits - 1) : Nat) else 0
def tyMax (t : Ty) : Int := if t.signed then (2 ^ (t.bits - 1) : Nat) - 1 else (2 ^ t.bits : Nat) - 1

/-- Clamp(x, TypeMin, TypeMax). -/
def clampTo (t : Ty) (x : Int) : Int := max (tyMin t) (min (tyMax t) x)

/-- A result with its saturation, as bits of the type (R209). -/
def intResult (t : Ty) (sat : Bool) (x : Int) : Nat := wrapTo t (if sat then clampTo t x else x)

/-- Compare for integers, codes 0x0 to 0x5; no other code reaches it (R217). -/
def cmpInt (c : Cond) (b e : Int) : Bool :=
  match c with
  | .eq => b = e
  | .ne => b ≠ e
  | .lt => b < e
  | .le => b ≤ e
  | .gt => e < b
  | .ge => e ≤ b
  | _ => false

/-- x < y of two values that are not NaN; −0 = +0. -/
def FV.lt (x y : FV) : Bool :=
  match x, y with
  | .inf true, .inf true => false
  | .inf true, _ => true
  | .inf false, _ => false
  | _, .inf n => !n
  | x, y => x.ex.lt y.ex
def FV.eq (x y : FV) : Bool := !x.lt y && !y.lt x

/-- Compare for floating point (Table 8.6, R191). -/
def cmpFlt (c : Cond) (x y : FV) : Bool :=
  let un := x.isNaN || y.isNaN
  match c with
  | .eq => !un && x.eq y
  | .ne => un || !x.eq y
  | .lt => !un && x.lt y
  | .le => !un && !y.lt x
  | .gt => !un && y.lt x
  | .ge => !un && !x.lt y
  | .equ => un || x.eq y
  | .neu => !un && !x.eq y
  | .ltu => un || x.lt y
  | .leu => un || !y.lt x
  | .gtu => un || y.lt x
  | .geu => un || !x.lt y
  | .num => !un
  | .nan => un

/-- The class of a value (Table 10.4). -/
def fClass (f : FF) (x : Nat) : Nat :=
  match f.read x with
  | .nan _ m => if m < f.quiet then 0 else 1
  | .inf n => if n then 2 else 9
  | .fin n m _ =>
    if m = 0 then (if n then 5 else 6)
    else if m < 2 ^ f.mbits then (if n then 4 else 7)
    else (if n then 3 else 8)

/-- A bit of a truth table, the first source being the least significant bit of its index (R211). -/
def ttBit (tt : BitVec 8) (b c e : Bool) : Bool := tt.getLsbD (b.toNat + 2 * c.toNat + 4 * e.toNat)

/-- Compare at a type: integers by Table 9.7, floating point by Table 10.3. -/
def cmpAt (c : Cond) (t : Ty) (x y : Nat) : Bool :=
  if t.isFloat then cmpFlt c ((Ty.ff t).read x) ((Ty.ff t).read y) else cmpInt c (intVal t x) (intVal t y)

end Sys2Proof.Machine
end

