-- ==== Sys2Proof/Machine/FloatOps.lean ====
section
/-! DEFINITION. The operations of floating-point arithmetic on values: exact sums and products, NaN rules, minimum and
maximum (R126, R127, R240, R242). -/

namespace Sys2Proof.Machine

/-- A finite value from an integer scaled by a power of two, with the sign that a zero takes. -/
def FV.ofNum (n : Int) (e : Int) (negZ : Bool) : FV := if n = 0 then .fin negZ 0 e else .fin (n < 0) n.natAbs e

def FV.negate : FV → FV
  | .nan n m => .nan n m
  | .inf n => .inf (!n)
  | .fin n m e => .fin (!n) m e

/-- The exact product; `none` for 0 · ∞ (R240). -/
def FV.mul (x y : FV) : Option FV :=
  match x, y with
  | .inf a, y => if y.isZero then none else some (.inf (a != y.neg))
  | x, .inf b => if x.isZero then none else some (.inf (x.neg != b))
  | .fin a m e, .fin b n g => some (.fin (a != b) (m * n) (e + g))
  | x, _ => some x

/-- The exact sum; `none` for ∞ − ∞. An exact zero is +0 except under `.rd`, and a sum of zeros of one sign keeps it
(R240). -/
def FV.sum (rnd : Rnd) (x y : FV) : Option FV :=
  match x, y with
  | .inf a, .inf b => if a = b then some (.inf a) else none
  | .inf a, _ => some (.inf a)
  | _, .inf b => some (.inf b)
  | .fin a m e, .fin b n g =>
    let q := min e g
    let x : Int := (if a then -(m : Int) else m) * (2 ^ (e - q).toNat : Nat)
    let y : Int := (if b then -(n : Int) else n) * (2 ^ (g - q).toNat : Nat)
    some (FV.ofNum (x + y) q (if a = b then a else rnd = .rd))
  | x, _ => some x

/-- The first NaN of a list (R127). -/
def firstNaN (xs : List FV) : Option (Bool × Nat) :=
  match xs with
  | [] => none
  | .nan n m :: _ => some (n, m)
  | _ :: rest => firstNaN rest

/-- A result in a format: the first NaN operand, or the NaN of an invalid operation of origin `o`, or the exact value
rounded (R126, R127, R240). -/
def FF.result (f : FF) (rnd : Rnd) (sat : Bool) (r16 : Nat) (pc : PC) (o : Nat) (ops : List FV) (v : Option FV) : Nat :=
  match firstNaN ops with
  | some (n, m) => f.quieted n m
  | none =>
    match v with
    | none => f.nan false (nanPayload pc o)
    | some v => f.writeFV rnd sat r16 v

/-- x below y, with −0 below +0 (R242). -/
def FV.below (x y : FV) : Bool := x.lt y || (x.isZero && y.isZero && x.neg && !y.neg)

/-- Minimum or maximum of two patterns (R242, Table 9.10). -/
def FF.minmax (f : FF) (isMax : Bool) (b c : Nat) : Nat :=
  let x := f.read b
  let y := f.read c
  match firstNaN [x, y] with
  | some (n, m) => f.quieted n m
  | none => if isMax then (if x.below y then c else b) else (if y.below x then c else b)

/-- The draw of a lane for half `p` of its result (R125). -/
def Regs.rand (r : Regs) (p : Nat) : Nat := rand16 r.seed r.pc (2 * r.lane + p) r.wid

end Sys2Proof.Machine
end

