-- ==== Sys2Proof/Machine/Formats.lean ====
section
/-! DEFINITION. Format slots, stored elements and DX blocks (R114 to R121, Tables 5.1 to 5.7). -/

namespace Sys2Proof.Machine

/-- A value on its way into or out of a stored format: a NaN with the format it comes from, an infinity, or an exact
number with the sign that a zero takes. -/
inductive XV where
  | nan (neg : Bool) (mant : Nat) (src : FF)
  | inf (neg : Bool)
  | num (neg : Bool) (x : Ex)
  deriving DecidableEq, Repr

/-- A pattern of a format as a value. -/
def FF.xv (f : FF) (b : Nat) : XV :=
  match f.read b with
  | .nan n m => .nan n m f
  | .inf n => .inf n
  | .fin n m e => .num n (FV.fin n m e).ex

/-- An integer as a value. -/
def XV.ofInt (n : Int) : XV := .num (n < 0) (Ex.ofInt n)

def XV.isNaN : XV → Bool
  | .nan _ _ _ => true
  | _ => false
def XV.isInf : XV → Bool
  | .inf _ => true
  | _ => false
def XV.neg : XV → Bool
  | .nan n _ _ => n
  | .inf n => n
  | .num n _ => n

/-- Multiply an exact number; infinities and NaNs stay (R121). -/
def XV.scaleBy (v : XV) (f : Ex → Ex) : XV :=
  match v with
  | .num n x => .num n (f x)
  | v => v

/-- Deliver a value into a floating-point format (R122 to R128). -/
def FF.put (f : FF) (rnd : Rnd) (sat : Bool) (r16 : Nat) (v : XV) : Nat :=
  match v with
  | .nan n m g => f.nanFrom g n m
  | .inf n => f.writeFV rnd sat r16 (.inf n)
  | .num n x => f.write rnd sat r16 n x

/-- Deliver a value into an integer range: rounded, saturated, 0 for a NaN (R123). -/
def putInt (rnd : Rnd) (lo hi : Int) (v : XV) : Int :=
  match v with
  | .nan _ _ _ => 0
  | .inf n => if n then lo else hi
  | .num _ x => max lo (min hi (x.round rnd))

/-! ### Slots (Table 5.4) -/

def slotFmt (x : BitVec 128) : Nat := (x.extractLsb' 0 4).toNat
def slotScale (x : BitVec 128) : Nat := (x.extractLsb' 4 2).toNat
def slotSat (x : BitVec 128) : Bool := x.getLsbD 6
def slotGap (x : BitVec 128) : Nat := (x.extractLsb' 8 4).toNat
def slotTscale (x : BitVec 128) : Nat := (x.extractLsb' 32 32).toNat
/-- The per-tensor scale, 1 without one (R121). -/
def slotEx (x : BitVec 128) : Ex := if slotScale x = 1 then (FF.fp32.read (slotTscale x)).ex else Ex.ofInt 1

/-- Whether a format code is of the DX family, and its magnitude bits. -/
def dxBits (c : Nat) : Option Nat :=
  match c with
  | 7 => some 9
  | 8 => some 3
  | 9 => some 1
  | _ => none

/-- R120. -/
def slotOk (x : BitVec 128) : Bool :=
  let f := slotFmt x
  let e := slotTscale x / 2 ^ 23
  x.extractLsb' 12 20 = 0 && x.extractLsb' 64 64 = 0 && !x.getLsbD 7 && f < 12 && slotScale x ≠ 3
    && ((slotScale x = 2) == (dxBits f).isSome)
    && (slotScale x ≠ 1 || (1 ≤ e && e < 255))
    && (slotGap x = 0 || (dxBits f).isSome)

/-- The floating-point format of a code. -/
def fmtFF (c : Nat) : Option FF :=
  match c with
  | 0 => some .fp64
  | 1 => some .fp32
  | 2 => some .bf16
  | 3 => some .fp16
  | 4 => some .e4m3
  | 5 => some .e5m2
  | 6 => some .e2m1
  | _ => none

/-- Element bits of a format that is not a block format (Table 5.1). -/
def fmtBits (c : Nat) : Nat :=
  match c with
  | 0 => 64
  | 1 => 32
  | 2 => 16
  | 3 => 16
  | 4 => 8
  | 5 => 8
  | 6 => 4
  | 10 => 8
  | 11 => 4
  | _ => 0

/-- An element of a format that is not a block format, as a value without its slot's scale. -/
def readElem (c b : Nat) : XV :=
  match fmtFF c with
  | some f => f.xv b
  | none => XV.ofInt (if c = 10 then intVal8 8 b else intVal8 4 b)
where
  /-- A two's-complement integer of `n` bits. -/
  intVal8 (n b : Nat) : Int := if b % 2 ^ n < 2 ^ (n - 1) then (b % 2 ^ n : Nat) else (b % 2 ^ n : Nat) - (2 ^ n : Nat)

/-- An element read through a slot: e · TSCALE, exact (R121). -/
def readSlot (slot : BitVec 128) (b : Nat) : XV := (readElem (slotFmt slot) b).scaleBy (fun x => x.mul (slotEx slot))

/-- A value written through a slot: the exact quotient by TSCALE, rounded once (R121). -/
def writeSlot (slot : BitVec 128) (r16 : Nat) (v : XV) : Nat :=
  let v := v.scaleBy (fun x => if slotScale slot = 1 then x.div (slotEx slot) else x)
  let c := slotFmt slot
  match fmtFF c with
  | some f => f.put .rn (slotSat slot) r16 v
  | none =>
    let n := fmtBits c
    (putInt .rn (-(2 ^ (n - 1) : Nat)) ((2 ^ (n - 1) : Nat) - 1) v % (2 ^ n : Nat)).toNat

/-! ### DX blocks (R116 to R118) -/

/-- Bytes of a padded block, for `m` magnitude bits (Table 5.2). -/
def dxBytes (m : Nat) : Nat := if m = 9 then 48 else if m = 3 then 24 else 16

/-- The exponent of Step(e). -/
def dxStep (m e : Nat) : Int := (e : Int) - 127 - ((m : Int) - 1)

/-- RoundNE(|y| / Step(e)). -/
def dxMag (m e : Nat) (y : Ex) : Nat := (y.abs.roundAt .rn (dxStep m e)).natAbs
def dxFits (m e : Nat) (y : Ex) : Bool := dxMag m e y ≤ 2 ^ m - 1

/-- The largest magnitude of a format (Table 5.1). -/
def dxMax (m : Nat) : Ex := { num := (2 ^ m - 1 : Nat), exp := dxStep m 254, den := 1 }

/-- The magnitude of a value, an infinity counting as the format's largest. -/
def dxAbs (m : Nat) (v : XV) : Ex :=
  match v with
  | .num _ x => x.abs
  | _ => dxMax m

def exMax (xs : List Ex) : Ex := xs.foldl (fun a x => if a.lt x then x else a) Ex.zero

/-- One element: selector, sign and magnitude, packed (R118). `r16` is its draw. -/
def dxElem (m e0 e1 : Nat) (v : XV) (r16 : Nat) : Nat :=
  let sign := if v.neg then 2 ^ m else 0
  match v with
  | .num _ x =>
    let y := x.abs
    let step : Ex := { num := 1, exp := dxStep m e0, den := 1 }
    if !y.isZero && y.lt step then
      sign + (if (r16 : Int) < (y.scale (16 - dxStep m e0)).round .rd then 1 else 0)
    else if dxFits m e0 y then sign + dxMag m e0 y
    else 2 ^ (m + 1) + sign + min (dxMag m e1 y) (2 ^ m - 1)
  | _ => 2 ^ (m + 1) + sign + (2 ^ m - 1)

/-- The block of 32 values, as a number (R116, R118); `gap` and `sat` come from the slot. -/
def dxWrite (m gap : Nat) (sat : Bool) (vs : List (XV × Nat)) : Nat :=
  let bad := vs.any (fun v => v.1.isNaN || (v.1.isInf && !sat))
  let big := exMax (vs.map (fun v => dxAbs m v.1))
  let e1? := (upTo 255).find? (fun e => dxFits m e big)
  if bad ∨ (e1? = none ∧ !sat) then 0xFFFF
  else
    let e1 := e1?.getD 254
    let e0 := e1 - gap
    let elems := vs.map (fun v => dxElem m e0 e1 v.1 v.2)
    e0 + 2 ^ 8 * e1 + 2 ^ 16 * (elems.foldr (fun x acc => x + 2 ^ (m + 2) * acc) 0)

/-- Element `i` of a block; `none` in a block NaN (R117). -/
def dxRead (m block i : Nat) : Option XV :=
  let e0 := block % 256
  let e1 := block / 256 % 256
  if e0 = 255 ∨ e1 = 255 then none
  else
    let x := block / 2 ^ (16 + i * (m + 2)) % 2 ^ (m + 2)
    let neg := x / 2 ^ m % 2 = 1
    let mag : Nat := x % 2 ^ m
    some (.num neg
      { num := if neg then -(mag : Int) else mag, exp := dxStep m (if x / 2 ^ (m + 1) = 1 then e1 else e0), den := 1 })

end Sys2Proof.Machine
end

