-- ==== Sys2Proof/Machine/Control.lean ====
section
/-! DEFINITION. Control: branches, calls and returns, exit, yield, waits on the warp's counters, rejoin masks, traps
(R11 to R13, R226 to R235). -/

namespace Sys2Proof.Machine

/-- An instruction that is not a computation on registers: guard-false lanes advance (R6); the guard-true lanes take
ILLOP reason 0x0B when a vector register lies beyond the launch's count (R206); else `f` acts for them. -/
def onGroup (h : Hdr) (top : Nat) (s : State) (f : Grp → List Nat → State → State) : State :=
  match s.grp with
  | none => s
  | some g =>
    let G := g.trues h
    let s' := s.stepLanes g.w (g.lanes.filter (fun l => l ∉ G))
    if G = [] then s'
    else if s.regsOf g.wp.block < top then s'.illopLanes g G 0x0B
    else f g G s'

/-- What lane `l` of a group reads. -/
def State.laneRegs (s : State) (g : Grp) (l : Nat) : Regs :=
  g.wp.regs (s.widOf g.wp.block) (s.seedOf g.wp.block) g.pc l

/-- A lane leaves its transaction with a cause (R83, Table 3.2): its write set is discarded and it continues at its
fallback; a lane in none is unchanged. -/
def Lane.abort (la : Lane) (cause code : Nat) : Lane :=
  match la.tx with
  | none => la
  | some tx => { la with tx := none, hold := .none, pc := tx.fallback, txstat := BitVec.ofNat 32 (cause + 256 * code) }
def State.abortLanes (s : State) (w : Nat) (ls : List Nat) (cause code : Nat) : State :=
  s.modLanes w ls (fun la => la.abort cause code)

/-- The lanes of a list that are in a transaction, and the others. -/
def Warp.inTx (wp : Warp) (ls : List Nat) : List Nat := ls.filter (fun l => (wp.lane? l).any (fun la => la.tx.isSome))
def Warp.notTx (wp : Warp) (ls : List Nat) : List Nat := ls.filter (fun l => (wp.lane? l).any (fun la => la.tx.isNone))

/-- An instruction that aborts a transaction (R83): lanes in one abort with cause 0x05, `f` acts for the others. -/
def outsideTx (g : Grp) (G : List Nat) (s : State) (f : List Nat → State → State) : State :=
  let s := s.abortLanes g.w (g.wp.inTx G) 0x05 0
  match g.wp.notTx G with
  | [] => s
  | G' => f G' s

/-! ### Branches (R227, R228) -/

/-- Set the PC of lanes. -/
def State.jump (s : State) (w : Nat) (ls : List Nat) (pc : PC) : State := s.modLanes w ls (fun la => { la with pc := pc })

/-- The target of a relative branch. -/
def target (pc : PC) (off : Word) : PC := pc + off.signExtend 57

/-- `bra` (R228). -/
def execBra (h : Hdr) (off : Word) (s : State) : Out :=
  .next (match s.seq with
  | some t => s.modTenant t (fun te => { te with pc := if guardOf h te.pred then target te.pc off else te.pc + 16 })
  | none => onGroup h 0 s (fun g G s => s.jump g.w G (target g.pc off)))

/-- One lane branches to a register's value: ACCESS for a non-canonical target, MISALIGN for one that is not a
multiple of 16 (R228). -/
def State.branchTo (s : State) (g : Grp) (l : Nat) (t : DWord) : State :=
  if !canonical t then s.trapLane g.w l (.access g.pc t 0x06)
  else if t.extractLsb' 0 4 ≠ 0 then s.trapLane g.w l (.misalign g.pc t)
  else s.jump g.w [l] (t.setWidth 57)

/-- `brx` (R228). -/
def execBrx (h : Hdr) (b : Opd) (s : State) : Out :=
  .next (onGroup h (b.top 64) s (fun g G s =>
    G.foldl (fun s' l => s'.branchTo g l (BitVec.ofNat 64 ((s.laneRegs g l).src64 b))) s))

/-- `call` (R228). -/
def execCall (h : Hdr) (a : BitVec 8) (off : Word) (s : State) : Out :=
  .next (onGroup h (Opd.top (.v a) 64) s (fun g G s =>
    (s.modLanes g.w G (fun la => la.setRegs a.toNat 64 ((g.pc + 16).signExtend 64).toNat)).jump g.w G (target g.pc off)))

/-- `ret` (R228). -/
def execRet (h : Hdr) (b : BitVec 8) (s : State) : Out :=
  .next (onGroup h (Opd.top (.v b) 64) s (fun g G s =>
    G.foldl (fun s' l => s'.branchTo g l (BitVec.ofNat 64 ((s.laneRegs g l).src64 (.v b)))) s))

/-! ### Ending, yielding, doing nothing (R229 to R231) -/

/-- `exit`: each lane of G ends; in the tile stream, the sequencer ends (R229). -/
def execExit (h : Hdr) (s : State) : Out :=
  .next (match s.seq with
  | some t => s.modTenant t (fun te => if guardOf h te.pred then { te with st := .exited } else { te with pc := te.pc + 16 })
  | none => onGroup h 0 s (fun g G s => (s.exitLanes g.w G).checkArrivals g.wp.block))

/-- `yield`: a `nop`; its guard-true lanes wait for another group of the warp, at most 16 clocks (R230, R6). What it does as SCH
0b01 does, to the choice among warps, happens at its issue (R189). -/
def execYield (h : Hdr) (s : State) : Out :=
  .next (onGroup h 0 s (fun g G s =>
    (s.stepLanes g.w G).modLanes g.w G (fun la => { la with yieldUntil := some (s.clock g.wp.core + 16) })))

/-- `nop` (R231). -/
def execNop (_h : Hdr) (s : State) : Out :=
  .next (match s.seq with
  | some t => s.stepSeq t
  | none => match s.grp with
    | none => s
    | some g => s.stepLanes g.w g.lanes)

/-- Whether the counters of a warp are at or below four limits (R233). A counter of more than 255, which only the operations of an outbox
bring about (R329), reads as 255 (R232; log entry 121). -/
def Warp.countersOk (wp : Warp) (ld st cp tl : BitVec 8) : Bool :=
  wp.ctrLd ≤ ld.toNat && min 255 wp.ctrSt ≤ st.toNat && wp.ctrCp ≤ cp.toNat && wp.ctrTl ≤ tl.toNat

/-- `waitc`: the group is held at its word until the counters are within the limits (R233). -/
def execWaitc (h : Hdr) (ld st cp tl : BitVec 8) (s : State) : Out :=
  .next (onGroup h 0 s (fun g G s => if g.wp.countersOk ld st cp tl then s.stepLanes g.w G else s))

/-! ### Rejoin masks (R12) -/

/-- `enrol` (R12). -/
def execEnrol (h : Hdr) (n : BitVec 3) (s : State) : Out :=
  .next (onGroup h 0 s (fun g G s =>
    (s.modWarp g.w (fun wp => wp.setMask n.toNat (wp.mask n.toNat ||| lanesMask G))).stepLanes g.w G))

/-- `rejoin` (R12). -/
def execRejoin (h : Hdr) (n : BitVec 3) (s : State) : Out :=
  .next (onGroup h 0 s (fun g G s =>
    (s.modLanes g.w G (fun la => { la with st := .rejoin n.toNat })).modWarp g.w
      (fun wp => wp.tryRelease n.toNat (s.clock wp.core))))

/-- `strike` (R12). -/
def execStrike (h : Hdr) (n : BitVec 3) (s : State) : Out :=
  .next (onGroup h 0 s (fun g G s =>
    (s.stepLanes g.w G).modWarp g.w (fun wp => wp.strike n.toNat G (s.clock wp.core))))

/-! ### Traps (R234, R235) -/

/-- `trap code`: cause SWTRAP for each lane of G (R234). -/
def execTrap (h : Hdr) (code : BitVec 8) (s : State) : Out :=
  .next (onGroup h 0 s (fun g G s =>
    s.trapLanes g.w G
      { cause := 0x08, pc := g.pc, addr := none, info := code.setWidth 64, resume := g.pc + 16 }))

/-- `rte`: each lane of G in a handler returns to its resume PC; another takes ILLOP reason 0x0B (R235). -/
def execRte (h : Hdr) (s : State) : Out :=
  .next (onGroup h 0 s (fun g G s =>
    let inH := G.filter (fun l => (g.wp.lane? l).any (·.inHandler))
    (s.modLanes g.w inH (fun la => la.ret (s.clock g.wp.core))).illopLanes g (G.filter (fun l => l ∉ inH)) 0x0B))

end Sys2Proof.Machine
end

