-- ==== Sys2Proof/Machine/Bar.lean ====
section
/-! DEFINITION. The registers of BAR0 and the physical address map (R332 to R334, Tables 18.1 to 18.8, 21.2, 21.4, 22.2,
22.5): storage, reset values, partitions, counters, and the context error log. -/

namespace Sys2Proof.Machine

/-- Bytes of local DRAM (Table 18.1). -/
def State.dramSize (s : State) : Nat := if s.code = .p192 then 0x3000000000 else 0x6000000000

/-! ### Offsets -/

def offPartcfg : Nat := 0x20
def offGstat : Nat := 0x28
def offYlid : Nat := 0x30
def offQueue (q r : Nat) : Nat := 0x10000 + 0x40 * q + r
def offRing (r n : Nat) : Nat := 0x20000 + 0x40 * r + n
def offCtx (x n : Nat) : Nat := 0x40000 + 0x200 * x + n
def offPort (y n : Nat) : Nat := 0x80000 + 0x100 * y + n
def offPattern (c : Nat) : Nat := 0xA0000 + 8 * c
def offRailf : Nat := 0xA0200
def offRailt : Nat := 0xA0208
def offSlewk : Nat := 0xA0210
def offSlewwin : Nat := 0xA0218
def offHctl : Nat := 0xB0000
def offHbase : Nat := 0xB0008
def offHsize : Nat := 0xB0010
def offMbcmd : Nat := 0xC0000
def offMbarg (n : Nat) : Nat := 0xC0008 + 8 * n
def offMbstat : Nat := 0xC0028
def offMeascnt : Nat := 0xC0030
def offErrdwr : Nat := 0xD0000
def offErrdrd : Nat := 0xD0008
def offErrd (i w : Nat) : Nat := 0xD0100 + 16 * i + 8 * w
def offCounter (k n : Nat) : Nat := 0x1000000 + 0x1000 * k + n

/-- What a register of BAR0 holds until something is written to it: its reset value (Tables 18.3 to 18.8, 21.2 …). -/
def regReset (code : OrderingCode) (off : Nat) : DWord :=
  if off = 0x00 then 0x4B390001
  else if off = 0x08 then 1 + (Config.stepping.setWidth 64 <<< 8) + (if code = .p192 then 0x10000 else 0)
  else if off = 0x10 then (if code = .p192 then 0x3000000000 else 0x6000000000)
  else if off = offYlid then 0x3FF
  else if 0x10000 ≤ off ∧ off < 0x14000 ∧ off % 0x40 = 0x08 then 4
  else if 0x20000 ≤ off ∧ off < 0x21000 ∧ off % 0x40 = 0x08 then 4
  else if off = offRailf then 800
  else if off = offRailt then 550
  else if off = offSlewk then 4
  else if off = offSlewwin then 256
  else 0

/-- The stored value of a register. -/
def State.reg (s : State) (off : Nat) : DWord := mapGetD s.bar0 off (regReset s.code off)
def State.setReg (s : State) (off : Nat) (v : DWord) : State :=
  { s with bar0 := mapPut (regReset s.code off) s.bar0 off v }
/-- Add to a counter, modulo 2^64. -/
def State.bump (s : State) (off n : Nat) : State := s.setReg off (s.reg off + BitVec.ofNat 64 n)

/-! ### Partitions (R351, R362) -/

/-- The number P of hard partitions. -/
def State.nparts (s : State) : Nat := 2 ^ ((s.reg offPartcfg).toNat % 4)
/-- Channels and clusters of a partition. -/
def State.chansPer (s : State) : Nat := 128 / s.nparts
def State.clustersPer (s : State) : Nat := 64 / s.nparts
/-- The partition of a context slot, a queue, a ring and a cluster. -/
def ctxPart (x : Nat) : Nat := x / 64
def State.queuePart (s : State) (q : Nat) : Nat := q / (256 / s.nparts)
def State.ringPart (s : State) (r : Nat) : Nat := r / (64 / s.nparts)
def State.clusterPart (s : State) (c : Nat) : Nat := c / s.clustersPer
/-- QCTL.CLASS and QCTL.CTX of a queue: the class, and the context slot. -/
def State.qctl (s : State) (q : Nat) : Nat := (s.reg (offQueue q 0x20)).toNat
def State.queueClass (s : State) (q : Nat) : Nat := s.qctl q / 4 % 4
def State.queueCtx (s : State) (q : Nat) : Nat := 64 * s.queuePart q + s.qctl q / 16 % 64

/-- The fold of a page number onto a channel (R362). -/
def chanHash (n : Nat) : Nat :=
  let f (i : Nat) : Nat := n / 2 ^ i % 128
  f 0 ^^^ f 7 ^^^ f 14 ^^^ f 21 ^^^ f 28 ^^^ f 35 ^^^ (n / 2 ^ 42 % 8)

/-- The home slice of a virtual page of a context (R362). -/
def State.homeOf (s : State) (x page : Nat) : Nat := s.chansPer * ctxPart x + chanHash page % s.chansPer

/-! ### Physical ranges (Table 18.1) -/

/-- What a physical address names. -/
inductive PRange where
  | local_ | device | host | peer (p : Nat) | none
  deriving DecidableEq, Repr

def State.range (s : State) (pa : Nat) : PRange :=
  if pa < s.dramSize then .local_
  else if 0x7FFF00000000 ≤ pa ∧ pa ≤ 0x7FFF03FFFFFF then .device
  else if 0x800000000000 ≤ pa ∧ pa ≤ 0xFFFFFFFFFFFF then .host
  else if 0x1000000000000 ≤ pa ∧ pa < 0x1000000000000 + 1023 * 2 ^ 40 then .peer ((pa - 0x1000000000000) / 2 ^ 40)
  else .none

/-- The partition that holds a local frame (R362). -/
def State.framePart (s : State) (f : Nat) : Nat := f / (s.dramSize / 4096 / s.nparts)

/-- The channel of a local frame (R362). -/
def State.frameChan (s : State) (f : Nat) : Nat := s.chansPer * s.framePart f + chanHash f % s.chansPer

/-- Some port of this device is up (R353). -/
def State.portUp (s : State) : Bool := (upTo 12).any (fun y => (s.reg (offPort y 8)).getLsbD 0)

/-- The owner value of a context (R352). -/
def ownerOf (x : Nat) : Nat := 1 + x
def State.owner (s : State) (f : Nat) : Nat := mapGetD s.owners f 0

/-- Zero a frame and give it an owner; its poison goes (R365, R405). -/
def State.claim (s : State) (f owner : Nat) : State :=
  { s with
    mem := s.mem.filter (fun c => ¬(4096 * f ≤ c.1 ∧ c.1 < 4096 * f + 4096))
    poison := s.poison.filter (fun q => q / 256 ≠ f)
    owners := mapPut 0 s.owners f owner }

/-- Log an error response in the error log of a context (Table 18.6, R88). -/
def State.logError (s : State) (x addr reason engine : Nat) : State :=
  let wr := (s.reg (offCtx x 0x30)).toNat
  let rd := (s.reg (offCtx x 0x38)).toNat
  if (wr + 2 ^ 32 - rd % 2 ^ 32) % 2 ^ 32 < 16 then
    let i := wr % 16
    ((s.setReg (offCtx x (0x100 + 16 * i)) ((BitVec.ofNat 57 addr).signExtend 64)).setReg (offCtx x (0x108 + 16 * i))
      (BitVec.ofNat 64 (reason + 256 * engine))).setReg (offCtx x 0x30) (BitVec.ofNat 64 ((wr + 1) % 2 ^ 32))
  else s.bump (offCtx x 0x40) 1

/-- Write a device error record, or drop it while 64 are unread (R407). -/
def State.deviceError (s : State) (kind structure_ unit pa : Nat) : State :=
  let wr := (s.reg offErrdwr).toNat
  let rd := (s.reg offErrdrd).toNat
  let s' := s.setReg offErrdwr (BitVec.ofNat 64 ((wr + 1) % 2 ^ 32))
  if (wr + 2 ^ 32 - rd % 2 ^ 32) % 2 ^ 32 < 64 then
    (s'.setReg (offErrd (wr % 64) 0) (BitVec.ofNat 64 pa)).setReg (offErrd (wr % 64) 1)
      (BitVec.ofNat 64 (kind + 256 * structure_ + 4096 * unit + 2 ^ 32 * (s.gtime % 2 ^ 32)))
  else s'

/-! ### Reading registers (R333, R334) -/

/-- The contexts of a partition that live, and its blocks. -/
def State.liveCtxs (s : State) (p : Nat) : Nat := (s.ctxs.filter (fun e => ctxPart e.1 = p)).length

def BlockSt.isResident : BlockSt → Bool
  | .resident => true
  | _ => false

/-- A whole register as a read returns it: computed ones, write-only ones, else the stored value. -/
def State.readReg (s : State) (off : Nat) : DWord :=
  if off = 0x18 then BitVec.ofNat 64 (s.gtimeAt 0)
  else if 0x1000 ≤ off ∧ off < 0x1000 + 0x100 * s.nparts ∧ off % 0x100 = 0 then
    BitVec.ofNat 64 (s.liveCtxs ((off - 0x1000) / 0x100) + 2 ^ 8 * s.clustersPer + 2 ^ 16 * s.chansPer)
  else if 0xA0000 ≤ off ∧ off < 0xA0200 then
    let c := s.cluster ((off - 0xA0000) / 8)
    BitVec.ofNat 64 (c.pattern.toNat + 2 ^ 16 * (match c.power with | .running => 0 | .retention => 1 | .waking _ => 2)
      + (if c.graph then 2 ^ 18 else 0))
  else if 0x10000 ≤ off ∧ off < 0x14000 ∧ off % 0x40 = 0x10 then 0
  else if 0x40000 ≤ off ∧ off < 0x80000 ∧ off % 0x200 = 0 then
    let x := (off - 0x40000) / 0x200
    if (s.ctx? x).isSome then
      BitVec.ofNat 64 (1 + 2 ^ 8 * (s.views.filter (fun e => e.2.ctx = x && e.2.returnAt.isNone)).length
        + 2 ^ 16 * (s.blocks.filter (fun e => e.2.st.isResident && (s.grid? e.2.grid).any (fun g => g.ctx = x))).length)
    else 0
  else if 0x40000 ≤ off ∧ off < 0x80000 ∧ off % 0x200 = 8 then 0
  else s.reg off

/-- A read of BAR0 of some bytes; other sizes and alignments read zero (R333). -/
def State.readBar (s : State) (off size : Nat) : Nat :=
  if size = 8 ∧ off % 8 = 0 then (s.readReg off).toNat
  else if size = 4 ∧ off % 4 = 0 then (s.readReg (off / 8 * 8)).toNat / 2 ^ (8 * (off % 8)) % 2 ^ 32
  else 0

/-- A write to BAR0 as the event that it is (R333): a doorbell, a control register, a partition change, another. A
4-byte write replaces half of the stored value. -/
def State.regEvent (s : State) (off size : Nat) (v : DWord) : Option Instr :=
  if ¬(size = 8 ∧ off % 8 = 0) ∧ ¬(size = 4 ∧ off % 4 = 0) then none
  else
    let o := off / 8 * 8
    let old := s.reg o
    let full : DWord :=
      if size = 8 then v
      else if off % 8 = 0 then (old &&& 0xFFFFFFFF00000000) ||| (v.setWidth 32).setWidth 64
      else (old &&& 0xFFFFFFFF) ||| ((v.setWidth 32).setWidth 64 <<< 32)
    some (
      if o = offPartcfg then .partcfgWrite full
      else if 0x10000 ≤ o ∧ o < 0x14000 ∧ o % 0x40 = 0x10 then .qtailDoorbell ((o - 0x10000) / 0x40) full
      else if 0x10000 ≤ o ∧ o < 0x14000 ∧ o % 0x40 = 0x20 then
        let q := (o - 0x10000) / 0x40
        if full.getLsbD 0 && !old.getLsbD 0 then .queueEnable q full
        else if !full.getLsbD 0 && old.getLsbD 0 then .queueDisable q full
        else if full.getLsbD 31 then .qctlReset q full
        else .registerWrite off size v
      else if 0x20000 ≤ o ∧ o < 0x21000 ∧ o % 0x40 = 0x28 then
        let r := (o - 0x20000) / 0x40
        if full.getLsbD 0 && !old.getLsbD 0 then .ringEnable r full
        else if !full.getLsbD 0 && old.getLsbD 0 then .ringDisable r full
        else .registerWrite off size v
      else if 0x20000 ≤ o ∧ o < 0x21000 ∧ o % 0x40 = 0x18 then .eheadWrite ((o - 0x20000) / 0x40) full
      else if 0x40000 ≤ o ∧ o < 0x80000 ∧ o % 0x200 = 8 then
        (if full.getLsbD 0 then .creset ((o - 0x40000) / 0x200) else .registerWrite off size v)
      else if o = offHctl then
        (if full.getLsbD 0 && !old.getLsbD 0 then .histEnable full
        else if !full.getLsbD 0 && old.getLsbD 0 then .histDisable full
        else .registerWrite off size v)
      else if o = offMbcmd then
        (match full.toNat % 256 with
        | 1 => .loadimg
        | 2 => .enrolKey
        | 3 => .revoke
        | 4 => .romboot
        | _ => .mailboxBadcmd)
      else .registerWrite off size v)

end Sys2Proof.Machine
end

