-- ==== Sys2Proof/Machine/Translate.lean ====
section
/-! DEFINITION. Translation at a home slice: the Sv57 walk with its checks, the walk cache and the TLB, accessed and
dirty bits, large leaves sent to other slices, and the ownership of frames (R355 to R366). -/

namespace Sys2Proof.Machine

/-- For whom an access is made: its context, tags and cluster, the core whose pins it may use (engines use none), the
commit whose locks it passes, and whether it is a demand access and an instruction fetch (R55, R103, R361). -/
structure Who where
  ctx : Nat
  asid : Nat
  view : Nat
  cluster : Nat
  core : Option Nat
  lockTx : Option Nat
  lockView : Option Nat
  demand : Bool
  fetch : Bool
  deriving DecidableEq, Repr

/-! ### Entries (Table 19.1) -/

def pteV (e : DWord) : Bool := e.getLsbD 0
def pteR (e : DWord) : Bool := e.getLsbD 1
def pteW (e : DWord) : Bool := e.getLsbD 2
def pteX (e : DWord) : Bool := e.getLsbD 3
def pteU (e : DWord) : Bool := e.getLsbD 4
def pteG (e : DWord) : Bool := e.getLsbD 5
def pteA (e : DWord) : Bool := e.getLsbD 6
def pteD (e : DWord) : Bool := e.getLsbD 7
def ptePpn (e : DWord) : Nat := (e.extractLsb' 10 44).toNat
def pteRsvd (e : DWord) : Nat := (e.extractLsb' 54 7).toNat
def ptePbmt (e : DWord) : Nat := (e.extractLsb' 61 2).toNat
def pteN (e : DWord) : Bool := e.getLsbD 63

/-- The memory type of a leaf on a frame; `none` for the dashes of Table 19.3. A frame outside every range is no fault
of the walk (R357): its access gets an error response. -/
def leafType (pbmt : Nat) (r : PRange) : Option Nat :=
  match r with
  | .none => some 0
  | .local_ => if pbmt ≤ 1 then some pbmt else none
  | .device => if pbmt = 2 then some 2 else none
  | .host | .peer _ => if pbmt ≤ 1 then some 3 else if pbmt = 2 then some 2 else none

/-- Some access that the leaf's permissions forbid (R357, kind 1). -/
def leafForbids (e : DWord) (store fetch : Bool) : Bool :=
  !pteU e || (fetch && !pteX e) || (!fetch && !pteR e) || (store && !pteW e)

/-- The frame number that a leaf of a level gives a page (R356). -/
def leafFrame (e : DWord) (lvl page : Nat) : Nat :=
  if lvl = 0 then (if pteN e then ptePpn e / 16 * 16 + page % 16 else ptePpn e)
  else ptePpn e / 2 ^ (9 * lvl) * 2 ^ (9 * lvl) + page % 2 ^ (9 * lvl)

/-- First page and page count of the TLB entry of a leaf; a leaf above 1 GiB is held as 1 GiB (R356). -/
def leafSpan (e : DWord) (lvl page : Nat) : Nat × Nat :=
  let n := if lvl = 0 then (if pteN e then 16 else 1) else if lvl = 1 then 512 else 262144
  (page / n * n, n)

/-- The index of a page in the table of a level (R355). -/
def vpn (page lvl : Nat) : Nat := page / 2 ^ (9 * lvl) % 512

/-- How a check of an entry that a walk reads comes out. -/
inductive PteR where
  | fault (kind : Nat)
  | pointer (a : Nat)
  | leaf
  deriving DecidableEq, Repr

/-- The checks of R357 on one entry, in their order. -/
def pteCheck (rangeOf : Nat → PRange) (e : DWord) (lvl page : Nat) (store fetch : Bool) : PteR :=
  if !pteV e then .fault 0
  else if pteRsvd e ≠ 0 then .fault 2
  else if pteW e && !pteR e then .fault 6
  else if !pteX e && !pteW e && !pteR e then
    (if lvl = 0 || pteN e || ptePbmt e ≠ 0 || pteU e || pteA e || pteD e then .fault 6 else .pointer (ptePpn e * 4096))
  else if ptePbmt e = 3 then .fault 5
  else if pteN e && (lvl ≠ 0 || ptePpn e % 16 ≠ 8) then .fault 3
  else if 1 ≤ lvl ∧ ptePpn e % 2 ^ (9 * lvl) ≠ 0 then .fault 4
  else if (leafType (ptePbmt e) (rangeOf (leafFrame e lvl page * 4096))).isNone then .fault 5
  else if leafForbids e store fetch then .fault 1
  else .leaf

/-- How a walk ends: a fault at a level, or a leaf with the address of its entry; and the pointers it read, by level. -/
structure WalkR where
  fault : Option Nat
  lvl : Nat
  leaf : DWord
  entry : Nat
  ptrs : List (Nat × Nat)
  deriving DecidableEq, Repr

/-- Bit 7 of a REASON, and its level and kind (R357). -/
def walkReason (lvl kind : Nat) (store : Bool) : Nat := lvl + 8 * kind + (if store then 128 else 0)

/-- The walk below a table at `a`, from a level down (R357). -/
def walkFrom (rd : Nat → DWord) (rangeOf : Nat → PRange) (page : Nat) (store fetch : Bool) :
    Nat → Nat → List (Nat × Nat) → WalkR
  | lvl, a, ptrs =>
    let ea := a + 8 * vpn page lvl
    let e := rd ea
    match pteCheck rangeOf e lvl page store fetch with
    | .fault k => { fault := some (walkReason lvl k store), lvl := lvl, leaf := e, entry := ea, ptrs := ptrs }
    | .leaf => { fault := none, lvl := lvl, leaf := e, entry := ea, ptrs := ptrs }
    | .pointer b =>
      match lvl with
      | 0 => { fault := some (walkReason 0 6 store), lvl := 0, leaf := e, entry := ea, ptrs := ptrs }
      | l + 1 => walkFrom rd rangeOf page store fetch l b ((l + 1, b) :: ptrs)

/-- A physical 8-byte read of a walk (R355). -/
def State.readPte (s : State) (a : Nat) : DWord :=
  match s.range a with
  | .device => BitVec.ofNat 64 (s.readBar (a - 0x7FFF00000000) 8)
  | _ => BitVec.ofNat 64 (s.readPhys a 8)

/-! ### Walk cache and TLB (R358) -/

/-- The key of a walk-cache entry of a level: the address bits above what the pointer's table maps. -/
def wcKey (lvl page : Nat) : Nat := page / 2 ^ (9 * lvl)

/-- The deepest walk-cache hit for a page: the level and table below which the walk starts; the root without a hit. -/
def Slice.walkStart (sl : Slice) (asid page root : Nat) : Nat × Nat :=
  match [1, 2, 3, 4].find? (fun l => sl.walkCache.any (fun e => e.asid = asid && e.level = l && e.key = wcKey l page)) with
  | none => (4, root)
  | some l =>
    match sl.walkCache.find? (fun e => e.asid = asid && e.level = l && e.key = wcKey l page) with
    | none => (4, root)
    | some e => (l - 1, e.next)

/-- Keep an entry as the most recently used; at most 256 are kept. -/
def Slice.putWc (sl : Slice) (e : WcE) : Slice :=
  { sl with walkCache :=
      (e :: sl.walkCache.filter (fun f => ¬(f.asid = e.asid ∧ f.level = e.level ∧ f.key = e.key))).take 256 }

/-- The entry that a walk starts below is the most recently used. -/
def Slice.useWc (sl : Slice) (asid page : Nat) : Slice :=
  match [1, 2, 3, 4].findSome? (fun l => sl.walkCache.find? (fun e => e.asid = asid && e.level = l && e.key = wcKey l page)) with
  | none => sl
  | some e => sl.putWc e

/-- The set of a TLB entry. -/
def TlbE.set (e : TlbE) : Nat := e.page / e.pages % 256

/-- Drop what lies beyond the eighth entry of a set; the lists are kept most recently used first. -/
def trimSet (set : Nat) (n : Nat) : List TlbE → List TlbE
  | [] => []
  | e :: rest =>
    if e.set = set then (match n with
      | 0 => trimSet set 0 rest
      | n + 1 => e :: trimSet set n rest)
    else e :: trimSet set n rest

/-- Install a TLB entry as the most recently used of its set. -/
def Slice.putTlb (sl : Slice) (e : TlbE) : Slice :=
  { sl with tlb := trimSet e.set 8 (e :: sl.tlb.filter (fun f => ¬(f.asid = e.asid ∧ f.page = e.page ∧ f.pages = e.pages))) }

/-- The TLB entry for a page of an ASID. -/
def Slice.tlb? (sl : Slice) (asid page : Nat) : Option TlbE :=
  sl.tlb.find? (fun e => (e.asid = asid || e.asid = 0) && e.page ≤ page && page < e.page + e.pages)

/-- The slices that home a page of a span, in the context's partition (R359). -/
def State.spanSlices (s : State) (x first pages : Nat) : List Nat :=
  if pages ≤ 16 then (upTo pages).map (fun i => s.homeOf x (first + i))
  else (upTo s.chansPer).map (fun i => s.chansPer * ctxPart x + i)

/-- Keep the entry of a walk's leaf: in the walking slice, and for a leaf above 4 KiB in every slice that homes a page of
it (R358, R359); and the pointers it read, in the walking slice's walk cache. -/
def State.keepWalk (s : State) (x sl asid page : Nat) (w : WalkR) : State :=
  let (first, pages) := leafSpan w.leaf w.lvl page
  let e : TlbE := { asid := if pteG w.leaf then 0 else asid, page := first, pages := pages, level := w.lvl, leaf := w.leaf,
                    entry := w.entry }
  let s := s.modSlice sl (fun c => w.ptrs.reverse.foldl (fun c p =>
    c.putWc { asid := asid, level := p.1, key := wcKey p.1 page, next := p.2 }) c)
  (if pages = 1 then [sl] else sl :: (s.spanSlices x first pages).filter (· ≠ sl)).foldl
    (fun s y => s.modSlice y (fun c => c.putTlb e)) s

/-- A failed walk keeps the pointers above the level that failed, and nothing of that level (R322). -/
def State.keepPtrs (s : State) (sl asid page : Nat) (w : WalkR) : State :=
  s.modSlice sl (fun c => w.ptrs.reverse.foldl (fun c p =>
    c.putWc { asid := asid, level := p.1, key := wcKey p.1 page, next := p.2 }) c)

/-! ### Accessed and dirty bits, frames (R360, R361, R365) -/

/-- Set A, and D for a store, in the entry at its address and in the leaf as kept. -/
def setAD (e : DWord) (store : Bool) : DWord := e ||| 0x40 ||| (if store then 0x80 else 0)

/-- The outcome of a translation: the physical address of the page, its type and leaf; a page fault with its REASON; an
error response; or a drop of an access that is no demand access. -/
inductive TransR where
  | ok (frame mtype : Nat) (leaf : DWord)
  | fault (reason : Nat)
  | error (reason : Nat)
  | drop
  deriving DecidableEq, Repr

/-- The frame that a leaf names, with its owner checked and claimed (R365, R353, R332). -/
def State.useFrame (s : State) (p : Who) (e : DWord) (lvl page : Nat) : State × TransR :=
  let f := leafFrame e lvl page
  match s.range (f * 4096) with
  | .none => (s, .error 0x02)
  | .local_ =>
    if s.framePart f ≠ ctxPart p.ctx then (s, .error 0x02)
    else if s.owner f = ownerOf p.ctx then (s, .ok f (ptePbmt e) e)
    else if s.owner f ≠ 0 then (s, .error 0x02)
    else if p.demand then (s.claim f (ownerOf p.ctx), .ok f (ptePbmt e) e)
    else (s, .drop)
  | .peer _ => if s.portUp then (s, .ok f (if ptePbmt e = 2 then 2 else 3) e) else (s, .error 0x02)
  | .host => (s, .ok f (if ptePbmt e = 2 then 2 else 3) e)
  | .device => (s, .ok f 2 e)

/-- What a translation that is no demand leaves: nothing at all where it gives no frame (R321, R361). -/
def quiet (x : State × State × TransR) : State × TransR :=
  match x with
  | (_, s, .ok f mt leaf) => (s, .ok f mt leaf)
  | (s, _, r) => (s, r)

/-- The root table of a context. -/
def State.rootOf (s : State) (x : Nat) : Nat := ((s.ctx? x).map (·.body.root)).getD 0

/-- A walk from the table at `a` of a level down, its outcome kept (R357 to R361). -/
def State.walkAt (s : State) (p : Who) (page : Nat) (store : Bool) (lvl a : Nat) : State × TransR :=
  let x := s.homeOf p.ctx page
  let w := walkFrom s.readPte s.range page store p.fetch lvl a []
  match w.fault with
  | some r => if p.demand then (s.keepPtrs x p.asid page w, .fault r) else (s, .drop)
  | none =>
    let stale := !pteA w.leaf || (store && !pteD w.leaf)
    if !p.demand then
      (if !pteA w.leaf then (s, .drop)
      else quiet (s, (s.keepWalk p.ctx x p.asid page w).useFrame p w.leaf w.lvl page))
    else
      let leaf := if stale then setAD w.leaf store else w.leaf
      let s := if stale then s.writePhys w.entry (natBytes 8 leaf.toNat) else s
      (s.keepWalk p.ctx x p.asid page { w with leaf := leaf }).useFrame p leaf w.lvl page

/-- A walk afresh, from below the deepest walk-cache hit (R358). -/
def State.walk (s : State) (p : Who) (page : Nat) (store : Bool) : State × TransR :=
  let x := s.homeOf p.ctx page
  let (lvl, a) := (s.slice x).walkStart p.asid page (s.rootOf p.ctx)
  let r := (s.modSlice x (fun c => c.useWc p.asid page)).walkAt p page store lvl a
  if p.demand then r else quiet (s, r)

/-- Translate a page at its home slice for an access (R55, R358, R360): a TLB hit whose leaf allows the access and whose
accessed and dirty bits need no change, or that still stands in memory as read and is then changed; where it does not, the walk
restarts at that level; without a hit, a walk afresh. -/
def State.translate (s : State) (p : Who) (page : Nat) (store : Bool) : State × TransR :=
  let x := s.homeOf p.ctx page
  match (s.slice x).tlb? p.asid page with
  | none => s.walk p page store
  | some e =>
    if leafForbids e.leaf store p.fetch then s.walk p page store
    else
      let s1 := s.modSlice x (fun c => c.putTlb e)
      if !p.demand then (if pteA e.leaf then quiet (s, s1.useFrame p e.leaf e.level page) else (s, .drop))
      else if pteA e.leaf && (!store || pteD e.leaf) then s1.useFrame p e.leaf e.level page
      else if s.readPte e.entry = e.leaf then
        let leaf := setAD e.leaf store
        ((s1.writePhys e.entry (natBytes 8 leaf.toNat)).modSlice x (fun c => c.putTlb { e with leaf := leaf })).useFrame p leaf
          e.level page
      else
        (s.modSlice x (fun c => { c with tlb := c.tlb.filter (· ≠ e) })).walkAt p page store e.level (e.entry / 4096 * 4096)

end Sys2Proof.Machine
end

