-- ==== Sys2Proof/Machine/Fetch.lean ====
section
/-! DEFINITION. The word that the running party executes: its line in the L1 instruction cache of its core (R35, R134,
R180). -/

namespace Sys2Proof.Machine

/-- The context and ASID of a block. -/
def State.ctxIdOf (s : State) (b : Nat) : Nat := ((s.gridOfBlock b).map (·.ctx)).getD 0
def State.asidOf (s : State) (b : Nat) : Nat := ((s.ctx? (s.ctxIdOf b)).map (·.body.asid)).getD 0
def State.viewOf (s : State) (b : Nat) : Nat := ((s.block? b).map (·.view)).getD 0

/-- A line copy matches a line number, an ASID (or is global) and a view (R55). -/
def DLine.hits (l : DLine) (line asid view : Nat) : Bool := l.line = line && (l.asid = asid || l.asid = 0) && l.view = view

/-- The word at a PC in a core's L1 instruction cache, when its chunk is valid there and the leaf of its page allows the fetch (R55,
R319). -/
def State.icacheWord (s : State) (k asid view : Nat) (pc : PC) : Option IWord :=
  let a := pc.toNat
  match (s.core k).l1i.find? (fun l => l.hits (a / 192) asid view && l.valid.getLsbD (a % 192 / 16) &&
      (mapGet? l.leafs (a / 4096)).all (fun e => !leafForbids e false true)) with
  | none => none
  | some l => some (BitVec.ofNat 128 (lineGet l.data (a % 192) 16))

/-- The stream, core, block and PC of a cursor. -/
def State.party (s : State) (c : Cursor) : Option (Stream × Nat × Nat × PC) :=
  match c with
  | .group w m => (s.warp? w).bind (fun wp => (groupOf wp w m).map (fun g => (Stream.vector, wp.core, wp.block, g.pc)))
  | .seq t =>
    (s.tenant? t).bind (fun te => if te.st = .running then some (Stream.tile, te.core, te.block, te.pc) else none)

/-- The stream and word that the running party executes, if its line holds the word. -/
def State.fetch (s : State) : Option (Stream × IWord) :=
  match s.cursor with
  | [] => none
  | c :: _ =>
    match s.party c with
    | none => none
    | some (st, k, b, pc) => (s.icacheWord k (s.asidOf b) (s.viewOf b) pc).map (fun w => (st, w))

/-- The running party has had its turn. -/
def State.popCursor (s : State) : State := { s with cursor := s.cursor.tail }

end Sys2Proof.Machine
end

