-- ==== Sys2Proof/Machine/Home.lean ====
section
/-! DEFINITION. Home slices: the lines they hold, the lookup through a chain of views, victims and write-backs, spilled
view copies, writes with their completion times, pins and locks (R55 to R59, R70, R71, R92 to R96, R102 to R104, R162,
R163, R176, R177). -/

namespace Sys2Proof.Machine

/-! ### Lines, chunks and pages (R58) -/

/-- The page of byte `i` of a line. -/
def linePage (line i : Nat) : Nat := (line * 192 + i) / 4096
/-- The chunks of a line that lie in a page. -/
def lineChunks (line page : Nat) : BitVec 12 :=
  (upTo 12).foldl (fun m i => if linePage line (16 * i) = page then m ||| BitVec.ofNat 12 (2 ^ i) else m) 0
/-- The pages that a line touches. -/
def linePages (line : Nat) : List Nat :=
  let p := linePage line 0
  if linePage line 191 = p then [p] else [p, p + 1]
/-- The bytes of the chunks of a mask. -/
def chunkBytes (m : BitVec 12) : BitVec 192 :=
  (upTo 12).foldl (fun b i => if m.getLsbD i then b ||| BitVec.ofNat 192 ((2 ^ 16 - 1) * 2 ^ (16 * i)) else b) 0
/-- Spread a byte mask over the bits of a line. -/
def byteBits (m : BitVec 192) : Line :=
  (upTo 192).foldl (fun b i => if m.getLsbD i then b ||| BitVec.ofNat 1536 (255 * 2 ^ (8 * i)) else b) 0
/-- Replace the bytes of a mask in a line. -/
def lineMerge (old new : Line) (m : BitVec 192) : Line :=
  let b := byteBits m
  (old &&& ~~~b) ||| (new &&& b)
/-- `n` consecutive bytes of a line, from byte `i`. -/
def byteMask (i n : Nat) : BitVec 192 := BitVec.ofNat 192 ((2 ^ n - 1) * 2 ^ i)

/-- The line copy of a home slice with its tags. -/
def HLine.is (h : HLine) (line asid view : Nat) : Bool := h.line = line && h.asid = asid && h.view = view
/-- … that a lookup under an ASID meets. -/
def HLine.hits (h : HLine) (line asid view : Nat) : Bool := h.line = line && (h.asid = asid || h.asid = 0) && h.view = view
def HLine.hasPage (h : HLine) (page : Nat) : Bool := (mapGet? h.tags page).isSome

/-- Set or replace a line of a slice. -/
def Slice.putLine (sl : Slice) (h : HLine) : Slice :=
  { sl with lines := h :: sl.lines.filter (fun g => !g.is h.line h.asid h.view) }
def Slice.dropLine (sl : Slice) (line asid view : Nat) : Slice :=
  { sl with lines := sl.lines.filter (fun g => !g.is line asid view) }
def Slice.modLine (sl : Slice) (line asid view : Nat) (f : HLine → HLine) : Slice :=
  { sl with lines := sl.lines.map (fun g => if g.is line asid view then f g else g) }
def State.modHLine (s : State) (x : Nat) (h : HLine) (f : HLine → HLine) : State :=
  s.modSlice x (fun sl => sl.modLine h.line h.asid h.view f)

/-- A view and its ancestors up to the base (R162); worlds nest at most four deep (R161). -/
def State.chainN (s : State) : Nat → Nat → List Nat
  | 0, _ => [0]
  | n + 1, v => if v = 0 then [0] else v :: s.chainN n (((s.view? v).map (·.parent)).getD 0)
def State.chain (s : State) (v : Nat) : List Nat := s.chainN 5 v

/-- The copy that a lookup of a page of a line in a view finds at its home slice (R162): the nearest of the chain. -/
def State.copyAt (s : State) (p : Who) (line page : Nat) : Option HLine :=
  let sl := s.slice (s.homeOf p.ctx page)
  (s.chain p.view).findSome? (fun u => sl.lines.find? (fun h => h.hits line p.asid u && h.hasPage page))

/-- The later of `t` and an expiry plus 4; an expiry of 0 never existed (R93). -/
def after4 (t e : Nat) : Nat := if e = 0 then t else max t (e + 4)

/-! ### Victims (R71) -/

/-- What the choice of a victim reads of a copy. -/
structure Cand where
  key : Nat × Nat × Nat
  ctx : Nat
  hint : BitVec 2
  lastUse : Nat
  deriving DecidableEq, Repr

/-- The least recently used candidate. -/
def lru (cs : List Cand) : Option Cand :=
  cs.foldl (fun b c => match b with
    | none => some c
    | some d => if c.lastUse < d.lastUse then some c else some d) none

/-- The victim of a fill of a context among the candidates of its set that rule 1 of R71 leaves: rules 2 to 5. `full` says
that the context holds more lines than its limit. -/
def victim (cs : List Cand) (ctx : Nat) (full : Bool) : Option Cand :=
  let own := if full then lru (cs.filter (fun c => c.ctx = ctx)) else none
  own.or ((lru (cs.filter (fun c => c.hint = 1))).or ((lru (cs.filter (fun c => c.hint ≠ 2))).or (lru cs)))

/-! ### Write-back, view store, eviction -/

/-- Write bytes of a line piece to its frame. -/
def writePiece (m : List Host.Cell) (frame line page : Nat) (data : Line) (mask : BitVec 192) : List Host.Cell :=
  (upTo 192).foldl (fun m i =>
    if mask.getLsbD i && linePage line i = page then writeMem m (frame * 4096 + (line * 192 + i) % 4096) (lineByte data i)
    else m) m

/-- The bytes that a write-back writes: every valid byte of each sector that holds a dirty one (R57). -/
def HLine.backMask (h : HLine) : BitVec 192 :=
  let valid := chunkBytes h.valid
  (upTo 4).foldl (fun m k =>
    let sec := byteMask (48 * k) 48
    if h.dirty &&& sec = 0 then m else m ||| (sec &&& valid)) 0

/-- The physical chunks that a write-back writes. -/
def HLine.backChunks (h : HLine) : List Nat :=
  h.tags.flatMap (fun t => (upTo 12).filterMap (fun i =>
    if linePage h.line (16 * i) = t.1 && h.backMask.getLsbD (16 * i) then some ((t.2.frame * 4096 + (h.line * 192 + 16 * i) % 4096) / 16)
    else none))

/-- Write a dirty base line back to its frames; the sectors written are no longer poisoned (R405). -/
def State.writeBack (s : State) (h : HLine) : State :=
  if h.dirty = 0 then s
  else
    { s with mem := h.tags.foldl (fun m t => writePiece m t.2.frame h.line t.1 h.data h.backMask) s.mem
             poison := s.poison.filter (fun c => c ∉ h.backChunks) }

/-- Registered waits and held futures keep no line; a line is excluded from eviction while pinned or locked (R71). -/
def HLine.fixed (h : HLine) : Bool := h.pinCo.isSome || h.pinCl.isSome || h.lockTx.isSome || h.lockView.isSome

/-- A write to the line is pending: a recall of host copies or an acknowledgement of host or peer is still to come (R71, R93). -/
def State.pendingWrite (s : State) (x : Nat) (h : HLine) : Bool :=
  s.gtimeAt (placeSlice x) < h.tx ||
    s.reqs.any (fun e => (match e.2.st with | .ackWait _ => true | _ => false) && h.hits e.2.line e.2.asid e.2.view)

/-- The latest expiry of an evicted line is kept for its set (R93). -/
def State.keepExpiry (s : State) (x : Nat) (h : HLine) : State :=
  s.modSlice x (fun sl =>
    { sl with evicted := mapSet sl.evicted (h.line % 320) (max (mapGetD sl.evicted (h.line % 320) 0) (listMax (h.exp.map (·.2)))) })

/-- Evict a base line: it is written back. -/
def State.evictBase (s : State) (x : Nat) (h : HLine) : State :=
  ((s.keepExpiry x h).writeBack h).modSlice x (fun sl => sl.dropLine h.line h.asid h.view)

/-! ### The areas of a grid in memory (R24, R25, R176) -/

/-- The extent of a field of the work identifier. -/
def LaunchRec.extent (r : LaunchRec) (i : Nat) : Nat := r.e.getD i 0

/-- The bytes P of a phase record (R25). -/
def LaunchRec.phaseBytes (r : LaunchRec) : Nat :=
  let nv := ((upTo 256).filter (fun i => r.carryv.getLsbD i)).length
  let ns := ((upTo 128).filter (fun i => r.carrys.getLsbD i)).length
  192 * (1 + r.extent 1 * (2 + (128 * nv + 191) / 192 + (4 * ns + 191) / 192) + (r.cscratch + 191) / 192)

/-- For whom hardware accesses the areas of a grid of a context. -/
def State.whoArea (s : State) (x : Nat) : Who :=
  { ctx := x, asid := ((s.ctx? x).map (·.body.asid)).getD 0, view := 0, cluster := 65, core := none, lockTx := none, lockView := none,
    demand := true, fetch := false }

/-- The pages of `n` bytes of an area, each with the first byte in it and the one past the last. -/
def areaPages (a n : Nat) : List (Nat × Nat × Nat) :=
  (upTo ((a + n - 1) / 4096 - a / 4096 + 1)).map (fun i =>
    let pg := a / 4096 + i
    (pg, max a (pg * 4096), min (a + n) ((pg + 1) * 4096)))

/-- Base lines of an area that stand at their home slices are written back and dropped, so that memory holds its bytes. -/
def State.areaFlush (s : State) (x a n : Nat) : State :=
  (areaPages a n).foldl (fun s e =>
    let k := s.homeOf x e.1
    ((s.slice k).lines.filter (fun h => h.view = 0 && h.ctx = x && e.2.1 / 192 ≤ h.line && h.line ≤ (e.2.2 - 1) / 192 && !h.fixed &&
      !s.pendingWrite k h)).foldl (fun s h => s.evictBase k h) s) s

/-- A byte of an area in memory; 0 where its page is not mapped. -/
def State.areaByte (s : State) (x a : Nat) : Nat :=
  match (s.translate (s.whoArea x) (a / 4096) false).2 with
  | .ok f _ _ => s.readPhys (f * 4096 + a % 4096) 1
  | _ => 0

/-- Hardware writes bytes of an area; what lies in a page that no translation serves is not written (log entry 94). -/
def State.areaPut (s : State) (x a : Nat) (bs : List (BitVec 8)) : State :=
  (areaPages a bs.length).foldl (fun s e =>
    match s.translate (s.whoArea x) e.1 true with
    | (s, .ok f _ _) => s.writePhys (f * 4096 + e.2.1 % 4096) ((bs.drop (e.2.1 - a)).take (e.2.2 - e.2.1))
    | _ => s) (s.areaFlush x a bs.length)

/-- A phase record of `n` bytes is written to its place; the manual does not give its layout (R24, R25): free values. -/
def State.putRecord (s : State) (x a n : Nat) : State :=
  if n = 0 then s else (s.areaPut x a ((upTo n).map (Config.recordByte s.tick))).next

/-- The launch record of the grid whose view store a view uses. -/
def State.recOfView (s : State) (v : Nat) : Option LaunchRec :=
  (s.view? v).bind (fun vw => (s.grid? vw.grid).map (·.lrec))

/-- Entries that a bucket of the view store of a grid holds (R176). -/
def State.bucketUse (s : State) (grid b bucket : Nat) : Nat :=
  let mine (v : Nat) : Bool := (s.view? v).any (fun vw => vw.grid = grid)
  let lines := (s.slices.map (fun e => (e.2.lines.filter (fun h =>
    h.spilled && mine h.view && (h.line + 257 * h.view) % b = bucket)).length)).sum
  let outs := (s.views.map (fun e => if e.2.grid = grid then
    ((upTo e.2.outbox.length).filter (fun j => (e.2.outNo + j + 257 * e.1) % b = bucket)).length else 0)).sum
  lines + outs

/-- The eight entries of a bucket of a view store, after its Q rival-record slots (R176). -/
def LaunchRec.bucketAt (r : LaunchRec) (bucket : Nat) : Nat := r.vstore + r.vsq * r.phaseBytes + 2048 * bucket

/-- KEY of the entry of an outbox operation. -/
def outKey (j : Nat) : Nat := 2 ^ 56 + j

/-- The bytes of an entry (Table 7.6). -/
def entryBytes (data : List (BitVec 8)) (key mask asid view flags : Nat) : List (BitVec 8) :=
  data ++ natBytes 8 key ++ natBytes 24 mask ++ natBytes 2 asid ++ natBytes 1 view ++ natBytes 1 flags ++ natBytes 28 0

/-- An entry with key `key` of view `v`, numbered `k` for its bucket, is written to a free place of it (R176). -/
def State.putEntry (s : State) (v k : Nat) (bytes : List (BitVec 8)) : State :=
  match s.view? v, s.recOfView v with
  | some vw, some r =>
    if r.vstore = 0 then s
    else
      let a := r.bucketAt ((k + 257 * v) % max 1 r.vsb)
      let s := s.areaFlush vw.ctx a 2048
      let i := ((upTo 8).find? (fun i => s.areaByte vw.ctx (a + 256 * i + 227) % 2 = 0)).getD 0
      s.areaPut vw.ctx (a + 256 * i) bytes
  | _, _ => s

/-- … and freed: its FLAGS read 0 (R176). -/
def State.freeEntry (s : State) (v k key : Nat) : State :=
  match s.view? v, s.recOfView v with
  | some vw, some r =>
    if r.vstore = 0 then s
    else
      let a := r.bucketAt ((k + 257 * v) % max 1 r.vsb)
      let s := s.areaFlush vw.ctx a 2048
      let byte (i o : Nat) : Nat := s.areaByte vw.ctx (a + 256 * i + o)
      match (upTo 8).find? (fun i => byte i 227 % 2 = 1 && byte i 226 = v % 256 &&
          ((upTo 8).map (fun b => byte i (192 + b) * 256 ^ b)).sum = key) with
      | some i => s.areaPut vw.ctx (a + 256 * i + 227) [0]
      | none => s
  | _, _ => s

/-- The entry of a spilled line. -/
def State.putLineEntry (s : State) (h : HLine) : State :=
  s.putEntry h.view h.line (entryBytes (natBytes 192 h.data.toNat) (h.line * 192) h.written.toNat h.asid h.view 1)
def State.freeLineEntry (s : State) (h : HLine) : State := s.freeEntry h.view h.line (h.line * 192)

/-- The entry of the operation of an outbox with sequence number `j`; Table 7.6 does not lay out its operands: free values. -/
def State.putOutEntry (s : State) (v j : Nat) : State :=
  (s.putEntry v j (entryBytes ((upTo 192).map (Config.recordByte s.tick)) (outKey j) 0 (s.whoArea (((s.view? v).map (·.ctx)).getD 0)).asid v 3)).next

/-- The entries of an outbox are freed. -/
def State.freeOutEntries (s : State) (v : Nat) (vw : View) : State :=
  (upTo vw.outbox.length).foldl (fun s j => s.freeEntry v (vw.outNo + j) (outKey (vw.outNo + j))) s

/-- The entries of the spilled lines of a view are freed. -/
def State.freeLineEntries (s : State) (v : Nat) : State :=
  (s.slices.flatMap (fun e => e.2.lines.filter (fun h => h.view = v && h.spilled))).foldl State.freeLineEntry s

/-- The rivals of a view and of its descendants end as EXHAUSTED (R177). -/
def State.exhaust (s : State) (v : Nat) : State :=
  let hit := s.blocks.filter (fun e => e.2.parent.isSome && v ∈ s.chain e.2.view)
  hit.foldl (fun s e => (s.modBlock e.1 (fun bl => { bl with exhausted := true })).killBlock e.1 0 0 0) s

/-- Spill a view copy to its bucket; a full bucket exhausts its rival (R176, R177). -/
def State.spill (s : State) (x : Nat) (h : HLine) : State :=
  let b := max 1 (((s.recOfView h.view).map (·.vsb)).getD 1)
  let g := ((s.view? h.view).map (·.grid)).getD 0
  if s.bucketUse g b ((h.line + 257 * h.view) % b) < 8 then
    (s.putLineEntry h).modHLine x h (fun h => { h with spilled := true })
  else (s.modSlice x (fun sl => sl.dropLine h.line h.asid h.view)).exhaust h.view

/-- Evict a line from a home slice: a base line is written back and its expiry kept for its set (R93), a view copy is
spilled. -/
def State.evictHome (s : State) (x : Nat) (h : HLine) : State :=
  if h.view = 0 then s.evictBase x h else (s.keepExpiry x h).spill x h

/-- The lowest way that none of some copies stands in (R71). -/
def freeWay (ways used : List Nat) : Option Nat := ways.find? (· ∉ used)

/-- The soft limit of a context in each home slice. -/
def State.hsLimit (s : State) (x : Nat) : Nat := ((s.ctx? x).map (·.body.hslimit)).getD 0
def State.clLimit (s : State) (x : Nat) : Nat := ((s.ctx? x).map (·.body.cllimit)).getD 0

/-- Make room for one more line in a set of a slice, with the way that it takes; `none` when every way is excluded. -/
def State.homeRoom (s : State) (x set ctx : Nat) : Option (State × Nat) :=
  let live := (s.slice x).lines.filter (fun h => !h.spilled)
  let inSet := live.filter (fun h => h.line % 320 = set)
  match freeWay (upTo 16) (inSet.map (·.way)) with
  | some w => some (s, w)
  | none =>
    let cs := (inSet.filter (fun h => !h.fixed && !s.pendingWrite x h)).map (fun h =>
      { key := (h.line, h.asid, h.view), ctx := h.ctx, hint := h.hint, lastUse := h.lastUse : Cand })
    let full := s.hsLimit ctx < (live.filter (fun h => h.ctx = ctx)).length
    match victim cs ctx full with
    | none => none
    | some c =>
      (inSet.find? (fun h => h.is c.key.1 c.key.2.1 c.key.2.2)).map (fun h => (s.evictHome x h, h.way))

/-! ### Bringing a line in -/

/-- Chunks of a page of a line whose physical bytes are not poisoned (R405). -/
def State.soundChunks (s : State) (line page frame : Nat) : BitVec 12 :=
  (upTo 12).foldl (fun m i =>
    let a := frame * 4096 + (line * 192 + 16 * i) % 4096
    if linePage line (16 * i) = page ∧ a / 16 ∉ s.poison then m ||| BitVec.ofNat 12 (2 ^ i)
    else m) 0

/-- The bytes of a page of a line, read from its frame. -/
def State.readPiece (s : State) (line page frame : Nat) : Line :=
  (upTo 192).foldl (fun d i =>
    if linePage line i = page then lineSet d i 1 (readMem s.mem (frame * 4096 + (line * 192 + i) % 4096)).toNat else d) 0

/-- The base line of a page at its home slice, read from memory under a translation (R55, R58): a new line, or one more
page of a line held. `none` when the set has no way to give. Of a line that was held before and evicted, the set's latest expiry
is what is left: the completion times of its writes lie at most 4 ticks after it, and the line carries that bound (R93, R94;
DEDUCED, log entry 115). -/
def State.bringIn (s : State) (p : Who) (line page : Nat) (hint : BitVec 2) (t : PTag) : Option State :=
  let x := s.homeOf p.ctx page
  let asid := if pteG t.leaf then 0 else p.asid
  let ok := s.soundChunks line page t.frame
  match (s.slice x).lines.find? (fun h => h.is line asid 0) with
  | some h =>
    if h.hasPage page then
      some (s.modHLine x h (fun h => { h with tags := mapSet h.tags page t }))
    else
      some (s.modHLine x h (fun h =>
        { h with data := lineMerge h.data (s.readPiece line page t.frame) (chunkBytes ok), valid := h.valid ||| ok,
                 tags := mapSet h.tags page t }))
  | none =>
    (s.homeRoom x (line % 320) p.ctx).map (fun (s, way) =>
      let e := mapGetD (s.slice x).evicted (line % 320) 0
      let h : HLine :=
        { line := line, asid := asid, view := 0, ctx := p.ctx, data := s.readPiece line page t.frame, valid := ok, dirty := 0,
          written := 0, tags := [(page, t)], exp := [(64, e)], tldv := after4 0 e, tlsy := after4 0 e,
          pinCo := none, pinCl := none, lockTx := none, lockView := none, hint := hint, lastUse := s.tick, way := way, pinWay := 0,
          tx := 0, spilled := false }
      (s.modSlice x (fun sl => sl.putLine h)).next)

/-- What an access finds at the home slice of its page. -/
inductive HRes where
  /-- The line is held and the access may be performed on it; its memory type. -/
  | ok (mtype : Nat)
  /-- Type 2: it is performed at its target, at this physical page. -/
  | target (frame : Nat)
  | retry
  | fault (reason : Nat)
  | error (reason : Nat)
  | drop
  /-- The set has no way to give: it waits (R71). -/
  | full
  deriving DecidableEq, Repr

/-- Another commit holds the line (R84, R109, R110): a view's commit answers every access with a retry, a transaction's
lock every access whose chain meets the locked copy. -/
def State.locked (s : State) (p : Who) (line page : Nat) : Bool :=
  let ch := s.chain p.view
  (s.slice (s.homeOf p.ctx page)).lines.any (fun h =>
    h.line = line && (h.asid = p.asid || h.asid = 0) &&
      ((h.lockView.isSome && h.lockView ≠ p.lockView) || (h.lockTx.isSome && h.lockTx ≠ p.lockTx && h.view ∈ ch)))

/-- A pinned copy and an access from outside its holder (R103): a cluster's own copy engine is inside its `.cl` (Table 4.1). -/
def HLine.pinnedFrom (h : HLine) (p : Who) : Bool :=
  (match h.pinCo with
  | some k => p.core ≠ some k
  | none => false) ||
  (match h.pinCl with
  | some c => p.cluster ≠ c
  | none => false)

/-- The copy that an access meets is pinned, and the access comes from outside the holder (R103). -/
def State.pinnedAt (s : State) (p : Who) (line page : Nat) : Bool :=
  (s.slice (s.homeOf p.ctx page)).lines.any (fun h => h.hits line p.asid h.view && h.view ∈ s.chain p.view && h.pinnedFrom p)

/-- The tag of a page allows the access without another translation (R55, R360). -/
def PTag.allows (t : PTag) (store fetch : Bool) : Bool := !leafForbids t.leaf store fetch && (!store || pteD t.leaf)

/-- An access reaches the home slice of its page: the copy it meets, a retry of a locked or pinned line, or a translation
and a fill from memory (R55, R103, R357). -/
def State.home (s : State) (p : Who) (line page : Nat) (store : Bool) (hint : BitVec 2) : State × HRes :=
  if s.locked p line page then (s, .retry)
  else
    match s.copyAt p line page with
    | some h =>
      if h.pinnedFrom p then (s, .retry)
      else
        match mapGet? h.tags page with
        | some t =>
          if t.allows store p.fetch then
            ((s.modHLine (s.homeOf p.ctx page) h (fun h => { h with lastUse := s.tick })).next, .ok t.mtype)
          else
            match s.translate p page store with
            | (s, .ok f mt leaf) =>
              (s.modHLine (s.homeOf p.ctx page) h (fun h =>
                { h with tags := mapSet h.tags page { t with frame := f, leaf := leaf } }), if mt = 2 then .target f else .ok mt)
            | (s, .fault r) => (s, .fault r)
            | (s, .error r) => (s, .error r)
            | (s, .drop) => (s, .drop)
        | none => (s, .retry)
    | none =>
      match s.translate p page store with
      | (s, .ok f mt leaf) =>
        if mt = 2 then (s, .target f)
        else
          match s.bringIn p line page hint { frame := f, leaf := leaf, mtype := mt } with
          | some s => (s, .ok mt)
          | none => (s, .full)
      | (s, .fault r) => (s, .fault r)
      | (s, .error r) => (s, .error r)
      | (s, .drop) => (s, .drop)

/-! ### Reading and writing the copy (R162, R163, R93) -/

/-- Bytes of a line as a view reads them at the home slice; `none` where the data is poisoned (R88). -/
def State.homeRead (s : State) (p : Who) (line page i n : Nat) : Option Nat :=
  match s.copyAt p line page with
  | some h => if h.valid.getLsbD (i / 16) then some (lineGet h.data i n) else none
  | none => none

/-! ### Waits and held futures (R80, R81, R276) -/

/-- For whom a request of a core is made. -/
def Req.who (q : Req) : Who :=
  { ctx := q.ctx, asid := q.asid, view := q.view, cluster := clusterOf q.core, core := some q.core, lockTx := none,
    lockView := none, demand := q.demand, fetch := q.kind = .ifetch }

/-- The virtual address of an access within its line. -/
def Acc.at_ (a : Acc) (line : Nat) : Nat := a.addr - line * 192

/-- The answer that a held wait or future of a request gets from what its home slice holds now: the value, or nothing while
it goes on waiting. -/
def State.heldAnswer (s : State) (q : Req) (a : Acc) : Option Nat :=
  let p := q.who
  match s.copyAt p q.line q.page with
  | none => none
  | some h =>
    if h.pinnedFrom p || s.locked p q.line q.page then none
    else
      match q.kind with
      | .waiton c t =>
        (s.homeRead p q.line q.page (a.at_ q.line) a.bytes).bind (fun v =>
          if cmpInt c (intVal t v) (intVal t a.data.toNat) then some v else none)
      | .fld =>
        (s.homeRead p q.line q.page (a.at_ q.line + 8) 8).bind (fun st =>
          if st % 2 = 1 then s.homeRead p q.line q.page (a.at_ q.line) 8 else none)
      | _ => none

/-- The fills on their way that no copy may be kept of: those of some cores, and those of a cluster's cache, that a test picks
(R92, R96). -/
def State.spoilFills (s : State) (cores : List Nat) (cluster line asid view : Nat) (f : Req → Bool) : State :=
  { s with reqs := s.reqs.map (fun e =>
      if e.2.line = line && e.2.view = view && (e.2.asid = asid || asid = 0 || e.2.fill.any (fun f => f.leafs.any (fun l => pteG l.2))) &&
          clusterOf e.2.core = cluster && f e.2 then
        (e.1, { e.2 with keep := e.2.keep && e.2.core ∉ cores, keepCc := false })
      else e) }

/-- Its value has been read at the place that supplies it, and is on its way. -/
def Req.read (q : Req) : Bool := q.st = .performed

/-- Drop the copies of a line in the L1s of some cores and in their cluster's cache, and those on their way there (R92, R96,
R102). -/
def State.dropCopies (s : State) (cores : List Nat) (cluster line asid view : Nat) : State :=
  let keep (d : DLine) : Bool := !(d.line = line && (d.asid = asid || d.asid = 0) && d.view = view)
  let s := cores.foldl (fun s k => s.modCore k (fun c => { c with l1d := c.l1d.filter keep })) s
  (s.modCluster cluster (fun c => { c with cc := c.cc.filter keep })).spoilFills cores cluster line asid view Req.read

/-- Answer a held request if its condition holds now: it is performed, carries the line's times (R94), and leaves the lists of
its slice; the copies that its core could read are dropped (R96). -/
def State.tryAnswer (s : State) (x r : Nat) : State :=
  match s.req? r with
  | none => s
  | some q =>
    match q.accs with
    | [a] =>
      match s.heldAnswer q a with
      | none => s
      | some v =>
        let h := s.copyAt q.who q.line q.page
        let td := (h.map (·.tldv)).getD 0
        ((s.dropCopies [q.core] (clusterOf q.core) q.line q.asid q.view).modReq r (fun q =>
          { q with st := .performed, tcl := td, tdv := td, tsy := (h.map (·.tlsy)).getD 0,
                   accs := [{ a with result := some (BitVec.ofNat 128 v), pred := true }] })).modSlice
          x (fun sl => { sl with waits := sl.waits.filter (· ≠ r), poste := sl.poste.filter (· ≠ r) })
    | _ => s

/-- After a write to a line, its slice evaluates the waits registered on it and answers the futures held on it, oldest first
(R80, R81, R276). -/
def State.afterWrite (s : State) (x line : Nat) : State :=
  ((s.slice x).waits ++ (s.slice x).poste).foldl (fun s r =>
    if (s.req? r).any (fun q => q.line = line) then s.tryAnswer x r else s) s

/-! ### Writes (R163, R93) -/

/-- A spilled copy is fetched back before it is used: its entry is freed (R176). -/
def State.unspill (s : State) (x : Nat) (h : HLine) : State :=
  if h.spilled then
    (match s.homeRoom x (h.line % 320) h.ctx with
    | some (s, way) => (s.freeLineEntry h).modHLine x h (fun h => { h with spilled := false, way := way })
    | none => s)
  else s

/-- The copy of a view's own that a write changes: the base line, or the view's copy, made from what the lookup of its
parent reads at its first write (R163). -/
def State.ownCopy (s : State) (p : Who) (line page : Nat) : State × Option HLine :=
  let x := s.homeOf p.ctx page
  match s.copyAt p line page with
  | none => (s, none)
  | some h =>
    if h.view = p.view then (s.unspill x h, some { h with spilled := false })
    else
      match (s.slice x).lines.find? (fun g => g.is line h.asid p.view) with
      | some g =>
        let g' := { g with data := lineMerge g.data h.data (chunkBytes (lineChunks line page)),
                           valid := g.valid ||| (h.valid &&& lineChunks line page),
                           tags := mapSet g.tags page ((mapGet? h.tags page).getD { frame := 0, leaf := 0, mtype := 0 }) }
        (s.modSlice x (fun sl => sl.putLine g'), some g')
      | none =>
        match s.homeRoom x (line % 320) p.ctx with
        | none => (s, none)
        | some (s, way) =>
          let g : HLine :=
            { h with view := p.view, ctx := p.ctx, valid := h.valid &&& lineChunks line page, dirty := 0, written := 0,
                     tags := h.tags.filter (fun t => t.1 = page), exp := [], pinCo := none, pinCl := none, lockTx := none,
                     lockView := none, lastUse := s.tick, way := way, pinWay := 0, tx := 0, spilled := false }
          ((s.modSlice x (fun sl => sl.putLine g)).next, some g)

/-- E[k] of a line (R93), over the copies under every view tag (R178). -/
def State.expiryOf (s : State) (p : Who) (line page k : Nat) : Nat :=
  listMax ((s.slice (s.homeOf p.ctx page)).lines.map (fun h =>
    if h.line = line && (h.asid = p.asid || h.asid = 0) then max (mapGetD h.exp k 0) (mapGetD h.exp 64 0) else 0))
/-- The largest E[k] over all clusters. -/
def State.expiryMax (s : State) (p : Who) (line page : Nat) : Nat :=
  listMax ((s.slice (s.homeOf p.ctx page)).lines.map (fun h =>
    if h.line = line && (h.asid = p.asid || h.asid = 0) then listMax (h.exp.map (·.2)) else 0))

/-- Completion times of a write, before tx is known: Tcl, Tdv (R93). -/
structure Times where
  tcl : Nat
  tdv : Nat
  deriving DecidableEq, Repr

/-- The home slice's gtime. -/
def State.sliceTime (s : State) (p : Who) (page : Nat) : Nat := s.gtimeAt (placeSlice (s.homeOf p.ctx page))

/-- Completion times of a write to a line now (R93); a write to a line that the writer's own core or cluster has pinned
takes the time itself. -/
def State.times (s : State) (p : Who) (line page : Nat) (pinned : Bool) : Times :=
  let t := s.sliceTime p page
  if pinned then { tcl := t, tdv := t }
  else { tcl := after4 t (s.expiryOf p line page p.cluster), tdv := after4 t (s.expiryMax p line page) }

/-- Install a write in the line (R93, R163): the bytes, the dirty or written mask, TLdv and TLsy; then the slice looks at the
waits on the line. -/
def State.install (s : State) (p : Who) (line page i n v : Nat) : State × Times :=
  match s.ownCopy p line page with
  | (s, none) => (s, { tcl := s.sliceTime p page, tdv := s.sliceTime p page })
  | (s, some g) =>
    let pinned := g.pinCo.isSome || g.pinCl.isSome
    let tm := s.times p line page pinned
    ((s.modHLine (s.homeOf p.ctx page) g (fun h =>
      { h with data := lineSet h.data i n v, valid := h.valid ||| BitVec.ofNat 12 (2 ^ (i / 16)),
               dirty := h.dirty ||| byteMask i n,
               written := if h.view = 0 then h.written else h.written ||| byteMask i n,
               tldv := if pinned then h.tldv else max h.tldv tm.tdv,
               tlsy := if pinned then h.tlsy else max h.tlsy tm.tdv })).afterWrite (s.homeOf p.ctx page) line, tm)

/-- Tsy of a write that no request of a core waits on (R93): its tx is a free value (log entry 114), and the line takes both. -/
def State.recalled (s : State) (p : Who) (line page tdv : Nat) : State × Nat :=
  let tx := s.sliceTime p page + Config.recallTicks s.tick
  let tsy := max tdv tx
  match s.copyAt p line page with
  | none => (s.next, tsy)
  | some h => ((s.modHLine (s.homeOf p.ctx page) h (fun h => { h with tlsy := max h.tlsy tsy, tx := max h.tx tx })).next, tsy)

/-- Bring TLsy up to a write's Tsy once tx is known (R93). -/
def State.noteTsy (s : State) (p : Who) (line page tsy : Nat) : State :=
  match s.copyAt p line page with
  | none => s
  | some h => s.modHLine (s.homeOf p.ctx page) h (fun h => { h with tlsy := max h.tlsy tsy })

/-! ### Pins (R102 to R104) -/

/-- Pinned lines of a core in a set of its L1, and of a cluster. -/
def State.coPins (s : State) (k set : Nat) : Nat :=
  (s.slices.map (fun e => (e.2.lines.filter (fun h => h.pinCo = some k && h.line % 128 = set)).length)).sum
def State.clPins (s : State) (c : Nat) : Nat :=
  (s.slices.map (fun e => (e.2.lines.filter (fun h => h.pinCl = some c)).length)).sum

/-- The cores of a cluster. -/
def clusterCores (c : Nat) : List Nat := (upTo 8).map (fun i => 8 * c + i)

/-- The ways of a set of a core's L1 that pins hold (R102). -/
def State.pinWays (s : State) (k set : Nat) : List Nat :=
  s.slices.flatMap (fun e => (e.2.lines.filter (fun h => h.pinCo = some k && h.line % 128 = set)).map (·.pinWay))

/-- A core has a write to the line of a copy that is not acknowledged: the copy has a pending write (R71). -/
def State.unacked (s : State) (cores : List Nat) (d : DLine) : Bool :=
  s.reqs.any (fun e => e.2.core ∈ cores && d.hits e.2.line e.2.asid e.2.view &&
    (match e.2.kind with | .store | .atom _ _ _ | .red _ _ | .fset | .fclr => true | _ => false))

/-- A way for one more copy among some ways of a set (R71): the lowest that holds no valid copy, or that of a victim, which
goes; `none` where every one is excluded. `full` says that the context holds more lines than its limit. -/
def wayFor (ls : List DLine) (sets now : Nat) (ways : List Nat) (full : Bool) (busy : DLine → Bool) (line ctx : Nat) :
    Option (Nat × List DLine) :=
  let live := ls.filter (fun e => now < e.expiry || e.line % sets ≠ line % sets)
  let inSet := live.filter (fun e => e.line % sets = line % sets)
  match freeWay ways (inSet.map (·.way)) with
  | some w => some (w, live)
  | none =>
    let cs := (inSet.filter (fun e => e.way ∈ ways && !busy e)).map (fun e =>
      { key := (e.line, e.asid, e.view), ctx := e.ctx, hint := e.hint, lastUse := e.lastUse : Cand })
    match victim cs ctx full with
    | none => none
    | some c =>
      (inSet.find? (fun e => (e.line, e.asid, e.view) = c.key)).map (fun e =>
        (e.way, live.filter (fun e => (e.line, e.asid, e.view) ≠ c.key)))

/-- Pin the line of an operation at `.wp` or `.co` to its core, or at `.cl` to its cluster, where the holder has room; the
answer says whether the line is pinned to the holder now (R102). A `.co` pin takes a way of the set in the core's L1. An operation
at `.cl` on a line that its own core holds pinned leaves that pin as it is (DESIGN CHOICE, log entry 116). -/
def State.takePin (s : State) (p : Who) (line page : Nat) (scope : Scope) : State × Bool :=
  match s.ownCopy p line page with
  | (s, none) => (s, false)
  | (s, some h) =>
    if h.pinCo.isSome || h.pinCl.isSome then (s, true)
    else
      match p.core with
      | none => (s, false)
      | some k =>
        if scope = .cl then
          if s.clPins p.cluster < 128 then
            ((s.modHLine (s.homeOf p.ctx page) h (fun h => { h with pinCl := some p.cluster })).dropCopies
              (clusterCores p.cluster) p.cluster line p.asid p.view, true)
          else (s, false)
        else if 2 ≤ s.coPins k (line % 128) then (s, false)
        else
          let s := s.dropCopies [k] p.cluster line p.asid p.view
          let ways := (upTo 8).filter (· ∉ s.pinWays k (line % 128))
          match wayFor (s.core k).l1d 128 (s.gtimeAt (placeCore k)) ways false (s.unacked [k]) line p.ctx with
          | none => (s, false)
          | some (w, ls) =>
            ((s.modHLine (s.homeOf p.ctx page) h (fun h => { h with pinCo := some k, pinWay := w })).modCore k (fun c =>
              { c with l1d := ls }), true)

/-- Write a pinned line back to its home slice and unpin it: a write of the releasing warp (R104). The answer holds the
completion times of the write-back: Tcl and Tdv, and Tsy with its tx (R93). -/
def State.unpin (s : State) (x : Nat) (h : HLine) (cluster : Nat) : State × Times × Nat :=
  let p : Who := { ctx := h.ctx, asid := h.asid, view := h.view, cluster := cluster, core := none, lockTx := none,
                   lockView := none, demand := true, fetch := false }
  let t := s.gtimeAt (placeSlice x)
  let all (k : Option Nat) : Nat := listMax ((s.slice x).lines.map (fun g =>
    if g.line = h.line && (g.asid = h.asid || g.asid = 0) then
      (match k with
      | some k => max (mapGetD g.exp k 0) (mapGetD g.exp 64 0)
      | none => listMax (g.exp.map (·.2)))
    else 0))
  let tm : Times := { tcl := after4 t (all (some p.cluster)), tdv := after4 t (all none) }
  let tx := t + Config.recallTicks s.tick
  let tsy := max tm.tdv tx
  ((s.modHLine x h (fun h =>
    { h with pinCo := none, pinCl := none, tldv := max h.tldv tm.tdv, tlsy := max h.tlsy tsy, tx := max h.tx tx })).next.afterWrite x
      h.line, tm, tsy)

/-- Merge the completion times of a write into the horizons of a warp (R94). -/
def Warp.merge (wp : Warp) (tcl tdv tsy : Nat) : Warp :=
  { wp with hcl := max wp.hcl tcl, hdv := max wp.hdv tdv, hsy := max wp.hsy tsy }

/-- The pinned lines that some test picks, each with its slice. -/
def State.pinned (s : State) (f : HLine → Bool) : List (Nat × HLine) :=
  s.slices.flatMap (fun e => (e.2.lines.filter f).map (fun h => (e.1, h)))

/-- Write back and unpin every line that a test picks, merging the times into some warps' horizons. -/
def State.unpinAll (s : State) (f : HLine → Bool) (cluster : Nat) (ws : List Nat) : State :=
  (s.pinned f).foldl (fun s e =>
    let (s, tm, tsy) := s.unpin e.1 e.2 cluster
    ws.foldl (fun s w => s.modWarp w (fun wp => wp.merge tm.tcl tm.tdv tsy)) s) s

/-- The pins that a release at a scope by a lane on core `k` widens (R104). -/
def HLine.widens (h : HLine) (k : Nat) (scope : Scope) : Bool :=
  match scope with
  | .wp | .co => false
  | .cl => h.pinCo = some k
  | .dv | .sy => h.pinCo = some k || h.pinCl = some (clusterOf k)

/-- The widening of a release at a scope by a lane on core `k` (R104): lines that become pinned at `.cl` lose the copies that the
cluster holds of them (R102). -/
def State.widen (s : State) (k : Nat) (scope : Scope) (ws : List Nat) : State :=
  let c := clusterOf k
  match scope with
  | .wp | .co => s
  | .cl =>
    (s.pinned (fun h => h.pinCo = some k)).foldl (fun s e =>
      if s.clPins c < 128 then
        (s.modHLine e.1 e.2 (fun h => { h with pinCo := none, pinCl := some c })).dropCopies (clusterCores c) c e.2.line e.2.asid e.2.view
      else
        let (s, tm, tsy) := s.unpin e.1 e.2 c
        ws.foldl (fun s w => s.modWarp w (fun wp => wp.merge tm.tcl tm.tdv tsy)) s) s
  | .dv | .sy => s.unpinAll (fun h => h.pinCo = some k || h.pinCl = some c) c ws

end Sys2Proof.Machine
end

