-- ==== Sys2Proof/Machine/MemPath.lean ====
section
/-! DEFINITION. The way of a request: copies in the L1 and the cluster cache, banks of cluster memory, reduction windows,
atomic operations, arrival at the home slice or at a target, and the response that returns to the warp (R55 to R71, R80,
R85, R86, R91 to R96, R102, R103, R266 to R277). -/

namespace Sys2Proof

/-- An address in a window of the context's table (R85). -/
def Window.has (w : Window) (a : Nat) : Bool := w.len ≠ 0 && w.base % 2 ^ 57 ≤ a && a < w.base % 2 ^ 57 + w.len
/-- A reduction that a window accepts (R85). -/
def Window.accepts (w : Window) (op : Aop) (t : Ty) : Bool :=
  (t.isInt && op ≠ .exch) || (w.fp32 && t = .f32 && op = .add)

end Sys2Proof

namespace Sys2Proof.Machine

/-- The 57-bit virtual address of a canonical address. -/
def va57 (a : DWord) : Nat := a.toNat % 2 ^ 57
/-- Line and page of a virtual address. -/
def lineOf (a : Nat) : Nat := a / 192
def pageOf (a : Nat) : Nat := a / 4096

/-! ### Reduction windows (R85, R86) -/

/-- The window of a context that holds an address, with its index. -/
def State.windowOf (s : State) (x a : Nat) : Option (Nat × Window) :=
  match s.ctx? x with
  | none => none
  | some c => ((upTo c.body.wins.length).zip c.body.wins).find? (fun e => e.2.has a)
/-- What an FP32 window adds for a value: the fixed-point number, or nothing for a NaN or an infinity (R86). -/
def windowAddend (q : Int) (x : Nat) : Option Int :=
  let v := FF.fp32.read x
  if v.isNaN || v.isInf then none
  else some (max (-(2 ^ 63 - 1)) (min (2 ^ 63 - 1) ((v.ex.scale (-q)).round .rn)))
/-- What `ld.f32` reads of an element of an FP32 window (R86). -/
def windowRead (q : Int) (raw : Nat) : Nat :=
  FF.fp32.write .rn false 0 false { num := intVal .i64 raw, exp := q, den := 1 }
/-- An `ld.f32` of an aligned element of an FP32 window: its scale. -/
def State.win32 (s : State) (x a : Nat) (f32 : Bool) : Option Int :=
  if f32 && a % 8 = 0 then (s.windowOf x a).bind (fun e => if e.2.fp32 then some e.2.q else none) else none

/-! ### Atomic operations (Table 11.3, R269) -/

/-- The new value that an atomic or reduction of lane `l` writes. -/
def atomNew (op : Aop) (t : Ty) (pc : PC) (l old x : Nat) : Nat :=
  match op with
  | .exch => x
  | .and => old &&& x
  | .or => old ||| x
  | .xor => old ^^^ x
  | .min => if intVal t x < intVal t old then x else old
  | .max => if intVal t old < intVal t x then x else old
  | .add =>
    if t.isFloat then
      let f := Ty.ff t
      f.result .rn false 0 pc l [f.read old, f.read x] ((f.read old).sum .rn (f.read x))
    else wrapTo t (intVal t old + intVal t x)

/-! ### Cluster memory (R64 to R68) -/

/-- What an address of a context's aperture names for a party of a cluster. -/
inductive BankAt where
  | scratch (b off : Nat)
  | fifo (b : Nat)
  | error (reason : Nat)
  deriving DecidableEq, Repr

/-- The offset of an address in the aperture of its context (R67). -/
def State.apertureOff (s : State) (x a : Nat) : Option Nat :=
  match s.ctx? x with
  | none => none
  | some c =>
    let base := c.body.aperture % 2 ^ 57
    if base ≤ a ∧ a < base + 0x400000 then some (a - base) else none

def Cluster.bank (c : Cluster) (b : Nat) : Bank := mapGetD c.banks b Bank.reset
def Cluster.modBank (c : Cluster) (b : Nat) (f : Bank → Bank) : Cluster := { c with banks := mapSet c.banks b (f (c.bank b)) }
def State.modBank (s : State) (cl b : Nat) (f : Bank → Bank) : State := s.modCluster cl (fun c => c.modBank b f)

/-- Size of a block's scratch window (R66). -/
def windowSize (scratch : Nat) : Nat := (scratch + 191) / 192 * 192

/-- The scratch window of a block: its offset and size. -/
def State.scratchOf (s : State) (b : Nat) : Nat × Nat :=
  (((s.block? b).map (·.scratchOff)).getD 0, windowSize (((s.recOfBlock b).map (·.scratch)).getD 0))

/-- Where an access of `n` bytes at aperture offset `o` goes (R67); `block` is the block whose window is checked. -/
def State.bankAt (s : State) (x cl : Nat) (block : Option Nat) (o n : Nat) : BankAt :=
  let b := o / 262144
  match ((s.cluster cl).bank b).mode with
  | .cacheWay => .error 0x04
  | .scratchpad w =>
    if w ≠ x then .error 0x04
    else
      match block with
      | none => .error 0x03
      | some bl =>
        let (off, size) := s.scratchOf bl
        if off ≤ o ∧ o + n ≤ off + size then .scratch b (o % 262144) else .error 0x03
  | .fifo w port =>
    if w ≠ x ∨ block.isNone then .error 0x04
    else if port / 16 = o / 16 then .fifo b
    else .error 0x04

def Bank.get (b : Bank) (off n : Nat) : Nat := bytesNat ((upTo n).map (fun i => mapGetD b.bytes (off + i) 0))
/-- … `none` where it is poisoned (R405). -/
def Bank.get? (b : Bank) (off n : Nat) : Option Nat :=
  if off / 48 ∈ b.poison ∨ (off + n - 1) / 48 ∈ b.poison then none else some (b.get off n)
def Bank.put (b : Bank) (off : Nat) : List (BitVec 8) → Bank
  | [] => b
  | x :: xs => Bank.put { b with bytes := mapPut 0 b.bytes off x } (off + 1) xs

/-! ### Requests -/

/-- A type of access that reads a value back. -/
def AccKindM.returns (k : AccKindM) : Bool :=
  match k with
  | .load _ | .fld | .waiton _ _ | .gath _ | .prefetch | .ifetch => true
  | .atom _ _ ret => ret
  | _ => false
/-- A type of access that writes. -/
def AccKindM.writes (k : AccKindM) : Bool :=
  match k with
  | .store | .atom _ _ _ | .red _ _ | .fset | .fclr => true
  | _ => false
/-- Loads, whose fills may be kept in the L1 and the cluster cache. -/
def AccKindM.fills (k : AccKindM) : Bool :=
  match k with
  | .load _ | .gath _ | .prefetch | .ifetch => true
  | _ => false
/-- It takes a request slot (R61): waits and futures that wait do not, and the fetch slots are others (R320). -/
def AccKindM.slotted (k : AccKindM) : Bool :=
  match k with
  | .fld | .waiton _ _ | .ifetch => false
  | _ => true

/-- The span of bytes that an access reads: whole words inside a transaction (R82), the whole element of a window
(R86). -/
def State.span (s : State) (q : Req) (a : Acc) : Nat × Nat :=
  if q.inTx then (a.addr / 8 * 8, if a.bytes = 16 then 16 else 8)
  else
    match q.kind with
    | .load f => if (s.win32 q.ctx a.addr f).isSome then (a.addr, 8) else (a.addr, a.bytes)
    | _ => (a.addr, a.bytes)

/-- Remove a request. -/
def State.dropReq (s : State) (r : Nat) : State := { s with reqs := s.reqs.filter (fun e => e.1 ≠ r) }

/-- The incomplete speculative fence that some lanes of a warp have passed (R100). -/
def State.specFence (s : State) (w : Nat) (m : Mask) : Option Nat :=
  (s.fences.find? (fun e => e.2.spec && e.2.warp = w && e.2.lanes &&& m ≠ 0)).map (·.1)

/-- A load ahead of a speculative fence that would fault, or that meets memory of another type than 0, waits for the fence
(R100). -/
def State.awaitFence (s : State) (r : Nat) (q : Req) : State :=
  let f := q.warp.bind (fun w => s.specFence w (if q.uni = 0 then lanesMask (q.accs.map (·.lane)) else q.uni))
  s.modReq r (fun q => { q with st := (match f with | some n => .fenced n | none => .waiting), demand := true, slot := none })

/-- An operation that finds no room for its pin is performed as if its scope were `.dv` (R102): where it follows a release, a
release at `.dv` completes first. Its older accesses have returned already. -/
def State.raiseRelease (s : State) (r : Nat) (q : Req) : State :=
  match q.warp with
  | none => s
  | some w =>
    let f : FenceOp :=
      { warp := w, lanes := lanesMask (q.accs.map (·.lane)), kind := .rel, scope := .dv, spec := false, pc := q.pc, after := .nothing,
        step := 1, loads := [], writes := [], born := s.tick, issued := 0, saved := [], specLines := [], back := false, until_ := 0 }
    ({ s with fences := s.fences ++ [(s.tick, f)] }.modReq r (fun q => { q with st := .fenced s.tick, pin := false, rel := false })).next

/-- A load of a lane ahead of a speculative fence. -/
def Req.ahead (q : Req) : Bool := !q.demand && (match q.kind with | .load _ => true | _ => false)

/-- Add requests under fresh numbers; those of a running instruction carry its word. -/
def State.addReqs (s : State) (qs : List Req) : State :=
  let w := s.fetch.map (·.2)
  qs.foldl (fun s q => { s with reqs := s.reqs ++ [(mapFresh s.reqs, { q with word := w.getD q.word })] }) s

/-- Put an event before everything else that is to come: the next step. -/
def State.pushEvent (s : State) (ev : Instr) : State := { s with agenda := { pulses := 0, ev := ev } :: s.agenda }

/-- Work of some accesses of a request fails: they go on as requests of their own with an error response, and the request
keeps the others. -/
def State.splitErrors (s : State) (r : Nat) (bad : List (Nat × Acc)) : State :=
  if bad = [] then s
  else
    match s.req? r with
    | none => s
    | some q =>
      let s := bad.foldl (fun s e => s.logError q.ctx e.2.addr e.1 (0x4000 + s.homeOf q.ctx q.page)) s
      let s := s.addReqs (bad.map (fun e => { q with st := .error e.1, accs := [e.2], slot := none, fill := none }))
      let rest := q.accs.filter (fun a => bad.all (fun e => e.2.lane ≠ a.lane))
      if rest = [] then s.dropReq r else s.modReq r (fun q => { q with accs := rest })

/-- The whole request gets an error response; the place that answers logs its first address (R88). -/
def State.failReq (s : State) (r : Nat) (q : Req) (reason engine : Nat) : State :=
  (s.logError q.ctx ((q.accs.head?.map (·.addr)).getD (q.line * 192)) reason engine).modReq r (fun q =>
    { q with st := .error reason })

/-- A fault on a page is reported: one pending fault for each context and page (R366). -/
def State.raiseFault (s : State) (f : PFault) : State :=
  if s.pfaults.any (fun g => g.ctx = f.ctx && g.page = f.page) then s else { s with pfaults := s.pfaults ++ [f] }

/-- The queue and command sequence number of the grid of a block (R366). -/
def State.cmdOf (s : State) (block : Option Nat) : Nat × Nat :=
  ((block.bind s.gridOfBlock).map (fun g => (g.queue, g.seq))).getD (0, 0)

/-- A request faults on its page (R357, R366). -/
def State.faultReq (s : State) (r : Nat) (q : Req) (reason : Nat) : State :=
  let (qu, sq) := s.cmdOf q.block
  (s.raiseFault { ctx := q.ctx, page := q.page, fetch := q.kind = .ifetch, reason := reason,
                  faddr := (q.accs.head?.map (·.addr)).getD (q.line * 192), engine := 0x1000 + q.core, queue := qu, seq := sq,
                  routed := false }).modReq r (fun q => { q with st := .faulted reason })

/-! ### Copies in the L1 and the cluster cache (R55, R60, R65, R71, R92) -/

/-- A copy supplies a chunk to a reader: its tags match, its lease runs, the chunk is valid and its leaf allows it. -/
def DLine.supplies (d : DLine) (line asid view page chunk now : Nat) (fetch : Bool) : Bool :=
  d.hits line asid view && now < d.expiry && d.valid.getLsbD chunk &&
    ((mapGet? d.leafs page).any (fun e => !leafForbids e false fetch))

/-- The chunks that the accesses of a request touch. -/
def Req.chunks (q : Req) : List Nat := q.accs.map (fun a => a.at_ q.line / 16)

/-- The copies are of one line under one tag. -/
def DLine.same (e d : DLine) : Bool := e.line = d.line && e.asid = d.asid && e.view = d.view

/-- Keep a copy in a set-associative cache (R71): merged into a copy with its tags, or in a way without a valid copy, or in
the place of a victim; `none` where every way is excluded, and the fill waits. -/
def putCopy (ls : List DLine) (sets now : Nat) (ways : List Nat) (full : Bool) (busy : DLine → Bool) (d : DLine) :
    Option (List DLine) :=
  match ls.find? (fun e => e.same d && now < e.expiry) with
  | some e =>
    let m : DLine :=
      { d with data := lineMerge e.data d.data (chunkBytes d.valid), valid := e.valid ||| d.valid,
               expiry := min e.expiry d.expiry, tldv := max e.tldv d.tldv, tlsy := max e.tlsy d.tlsy, way := e.way,
               leafs := d.leafs.foldl (fun m l => mapSet m l.1 l.2) e.leafs }
    some (ls.map (fun e => if e.same d && now < e.expiry then m else e))
  | none => (wayFor ls sets now ways full busy d.line d.ctx).map (fun x => { d with way := x.1 } :: x.2)

/-- The ways of the cluster cache: its banks in cache-way mode (R65). -/
def Cluster.ways (c : Cluster) : List Nat := (upTo 16).filter (fun b => (c.bank b).mode = .cacheWay)

/-- The lease lengths of a context for a memory type: L1 and cluster cache (Table 4.2). -/
def State.leases (s : State) (x mtype : Nat) : Nat × Nat :=
  if mtype = 0 then ((s.ctx? x).map (fun c => (c.body.l1lease, c.body.cllease))).getD (0, 0) else (0, 0)

/-- Keep a fill in the L1 data cache of a core, in a way of its set that no pin holds (R102); `none`: the fill waits (R71). -/
def State.fillL1 (s : State) (k : Nat) (d : DLine) : Option State :=
  let now := s.gtimeAt (placeCore k)
  if d.expiry ≤ now then some s
  else (putCopy (s.core k).l1d 128 now ((upTo 8).filter (· ∉ s.pinWays k (d.line % 128))) false (s.unacked [k]) d).map (fun ls =>
    s.modCore k (fun c => { c with l1d := ls }))
/-- Keep a fill in the cluster cache of a cluster; `none`: the fill waits. A cache without a way keeps nothing. -/
def State.fillCc (s : State) (cl : Nat) (d : DLine) : Option State :=
  let now := s.gtimeAt (placeCluster cl)
  let c := s.cluster cl
  if d.expiry ≤ now || c.ways = [] then some s
  else
    let full := s.clLimit d.ctx < (c.cc.filter (fun e => e.ctx = d.ctx && now < e.expiry)).length
    (putCopy c.cc 1280 now c.ways full (s.unacked (clusterCores cl)) d).map (fun ls => s.modCluster cl (fun c => { c with cc := ls }))

/-- The copy that a fill leaves in a cache. -/
def Req.copy (q : Req) (f : Fill) (expiry tick : Nat) : DLine :=
  { line := q.line, asid := if (f.leafs.all (fun l => pteG l.2)) && f.leafs ≠ [] then 0 else q.asid, view := q.view, ctx := q.ctx,
    data := f.data, valid := f.valid, expiry := expiry, tldv := f.tldv, tlsy := f.tlsy, hint := q.hint, lastUse := tick,
    way := 0, leafs := f.leafs }

/-- A store updates the copy in its core's L1, or in its cluster's cache, in place (R60, R65), where the copy's permissions allow it
(R55); it leaves the lease unchanged. -/
def patchCopies (ls : List DLine) (line asid view page i n v : Nat) : List DLine :=
  ls.map (fun d =>
    if d.hits line asid view && d.valid.getLsbD (i / 16) && (mapGet? d.leafs page).any (fun e => !leafForbids e true false) then
      { d with data := lineSet d.data i n v }
    else d)

/-! ### Arrival at the home slice: loads (R55, R59, R92, R96, R162) -/

/-- The other piece of the sectors that straddle a page boundary (R59): the chunks of the other page in sectors that also
hold a chunk that the request touches. -/
def otherPiece (line page : Nat) (chunks : List Nat) : BitVec 12 :=
  (upTo 12).foldl (fun m i =>
    if linePage line (16 * i) ≠ page && chunks.any (fun c => c / 3 = i / 3) then m ||| BitVec.ofNat 12 (2 ^ i) else m) 0

/-- Record an expiry granted into a cluster (R93), and the latest one granted to copies tagged with a view (R173). -/
def State.grant (s : State) (p : Who) (line page e : Nat) : State :=
  match s.copyAt p line page with
  | none => s
  | some h =>
    (s.modHLine (s.homeOf p.ctx page) h (fun h => { h with exp := mapSet h.exp p.cluster (max e (mapGetD h.exp p.cluster 0)) })).modView
      p.view (fun v => { v with latest := max v.latest e })

/-- The fill that a home slice supplies for a page of a line: its valid chunks, and the untouched piece of a straddling
sector where the other page's slice has its translation with A set (R59, R92, R361). -/
def State.supply (s : State) (p : Who) (q : Req) (mtype : Nat) : State × Option Fill :=
  match s.copyAt p q.line q.page with
  | none => (s, none)
  | some h =>
    let t := s.sliceTime p q.page
    let (l1, cl) := s.leases q.ctx mtype
    let pinned := h.pinCo.isSome || h.pinCl.isSome
    let expCc := if pinned || q.hint = 3 || cl = 0 || (s.cluster p.cluster).ways = [] then 0 else t + cl
    let expL1 := if pinned || q.hint = 3 || l1 = 0 then 0 else if expCc = 0 then t + l1 else min (t + l1) expCc
    let leaf := (mapGet? h.tags q.page).map (·.leaf)
    let f : Fill :=
      { data := h.data, valid := h.valid &&& lineChunks q.line q.page, expCc := expCc, expL1 := expL1, tldv := h.tldv,
        tlsy := h.tlsy, leafs := [(q.page, leaf.getD 0)] }
    let granted := max expCc (if q.kind = .ifetch then 0 else expL1)
    let s := if granted = 0 then s else s.grant p q.line q.page granted
    let other := otherPiece q.line q.page q.chunks
    if other = 0 || granted = 0 then (s, some f)
    else
      let page2 := if linePage q.line 0 = q.page then q.page + 1 else q.page - 1
      let y := s.homeOf q.ctx page2
      if ((s.slice y).tlb? q.asid page2).any (fun e => pteA e.leaf && !leafForbids e.leaf false p.fetch) then
        match s.home { p with demand := false } q.line page2 false q.hint with
        | (s, .ok 0) =>
          match s.copyAt p q.line page2 with
          | some h2 =>
            if h2.pinCo.isSome || h2.pinCl.isSome then (s, some f)
            else
              (s.grant p q.line page2 granted,
                some { f with data := lineMerge f.data h2.data (chunkBytes (other &&& h2.valid)), valid := f.valid ||| (other &&& h2.valid),
                              tldv := max f.tldv h2.tldv, tlsy := max f.tlsy h2.tlsy,
                              leafs := mapSet f.leafs page2 (((mapGet? h2.tags page2).map (·.leaf)).getD 0) })
          | none => (s, some f)
        | (s, _) => (s, some f)
      else (s, some f)

/-- Read the accesses of a load from a supplied line: values, and the accesses whose data is poisoned. -/
def State.readAccs (s : State) (q : Req) (rd : Nat → Nat → Option Nat) : List Acc × List (Nat × Acc) :=
  q.accs.foldl (fun r a =>
    let (lo, n) := s.span q a
    match rd (lo - q.line * 192) n with
    | some v => (r.1 ++ [{ a with result := some (BitVec.ofNat 128 v) }], r.2)
    | none => (r.1, r.2 ++ [(0x05, a)])) ([], [])

/-- The copy of the cluster cache that supplies every chunk a request touches. -/
def State.ccCopy (s : State) (q : Req) : Option DLine :=
  let c := clusterOf q.core
  (s.cluster c).cc.find? (fun d => q.chunks.all (fun ch =>
    d.supplies q.line q.asid q.view q.page ch (s.gtimeAt (placeCluster c)) (q.kind = .ifetch)))
/-- The copy of the cluster cache supplies the L1 (R92): its use is noted, and the copy made of it lives no longer than itself. -/
def State.ccFill (s : State) (q : Req) (d : DLine) : State × Fill :=
  let c := clusterOf q.core
  let l1 := (s.leases q.ctx 0).1
  ((s.modCluster c (fun cl => { cl with cc := cl.cc.map (fun e => if e.same d then { e with lastUse := s.tick } else e) })).next,
    { data := d.data, valid := d.valid, expCc := 0, expL1 := if l1 = 0 then 0 else min (s.gtimeAt (placeCluster c) + l1) d.expiry,
      tldv := d.tldv, tlsy := d.tlsy, leafs := d.leafs })

/-- Read from a device register or the memory of host or peer at a physical address (R91, type 2). -/
def State.targetRead (s : State) (pa n : Nat) : Nat :=
  match s.range pa with
  | .device => s.readBar (pa - 0x7FFF00000000) n
  | _ => s.readPhys pa n
/-- Write there; a register write is the event that it is, next to happen. -/
def State.targetWrite (s : State) (pa n v : Nat) : State :=
  match s.range pa with
  | .device =>
    match s.regEvent (pa - 0x7FFF00000000) n (BitVec.ofNat 64 v) with
    | some ev => s.pushEvent ev
    | none => s
  | _ => s.writePhys pa (natBytes n v)

/-- The physical address of an access on a frame. -/
def physOf (frame a : Nat) : Nat := frame * 4096 + a % 4096

/-- A load performed: results, fill, the expiry of the copy that it makes, and the times that it carries to the warp (R94,
R95). -/
def State.loaded (s : State) (r : Nat) (accs : List Acc) (bad : List (Nat × Acc)) (fill : Option Fill) (tldv tlsy : Nat) : State :=
  (s.modReq r (fun q =>
    { q with st := .performed, fill := fill, exp := (fill.map (·.expL1)).getD 0, readNo := s.tick, tcl := tldv, tdv := tldv, tsy := tlsy,
             accs := q.accs.map (fun a => (accs.find? (fun b => b.lane = a.lane)).getD a) })).splitErrors r bad

/-- The memory type of the page of an address, as far as a translation with no effect tells it (R174, R83, R100, R282). -/
def State.peekType (s : State) (p : Who) (a : Nat) : Option Nat :=
  match (s.copyAt p (lineOf a) (pageOf a)).bind (fun h => mapGet? h.tags (pageOf a)) with
  | some t => some t.mtype
  | none =>
    match (s.translate { p with demand := false } (pageOf a) false).2 with
    | .ok _ mt _ => some mt
    | _ => none

/-- A load, gather or prefetch arrives: the cluster cache, then the home slice or the target. A prefetch of a page of another type
than 0, or whose translation would fault or set a bit, is dropped without trace (R282). -/
def State.arriveLoad (s : State) (r : Nat) (q : Req) : State :=
  let p := q.who
  let c := p.cluster
  if q.kind = .prefetch && s.peekType p ((q.accs.head?.map (·.addr)).getD 0) ≠ some 0 then s.dropReq r
  else
  match (if q.hint = 3 then none else s.ccCopy q) with
  | some d =>
    let (accs, bad) := s.readAccs q (fun i n => some (lineGet d.data i n))
    let (s, fill) := s.ccFill q d
    s.loaded r accs bad (some fill) d.tldv d.tlsy
  | none =>
    match s.home p q.line q.page false q.hint with
    | (s, .retry) => s.modReq r (fun q => { q with st := .retry })
    | (s, .full) => s
    | (s, .fault reason) => if q.ahead then s.awaitFence r q else if q.kind = .prefetch then s.dropReq r else s.faultReq r q reason
    | (s, .error e) =>
      if q.ahead then s.awaitFence r q
      else if q.kind = .prefetch then s.dropReq r
      else s.failReq r q e (0x4000 + s.homeOf q.ctx q.page)
    | (s, .drop) => if q.ahead then s.awaitFence r q else s.dropReq r
    | (s, .target f) =>
      if q.ahead then s.awaitFence r q
      else if q.kind = .prefetch then s.dropReq r
      else if q.view ≠ 0 then s.modReq r (fun q => { q with st := .error 0x105 })
      else
        let (accs, bad) := s.readAccs q (fun i n => some (s.targetRead (physOf f (q.line * 192 + i)) n))
        s.loaded r accs bad none 0 0
    | (s, .ok mt) =>
      if q.ahead && mt ≠ 0 then s.awaitFence r q
      else if q.kind = .prefetch && (mt ≠ 0 || q.hint = 3) then s.dropReq r
      else
        let (accs, bad) := s.readAccs q (fun i n => s.homeRead p q.line q.page i n)
        if q.ahead && bad ≠ [] then s.awaitFence r q
        else
        let (s, fill) := s.supply p q mt
        let s := if q.hint = 3 then s.dropCopies [q.core] c q.line q.asid q.view else s
        let td := (fill.map (·.tldv)).getD 0
        let ts := (fill.map (·.tlsy)).getD 0
        s.loaded r accs bad (if q.hint = 3 || mt ≠ 0 then none else fill) td ts

/-! ### Arrival: writes and futures (R80, R93, R102, R267 to R275) -/

/-- A place that holds bytes: how an operation of an access reads and writes it. A write narrower than a poisoned sector changes
nothing and gets an error response (R405), so a write looks at what it would read first. -/
structure Cell where
  rd : State → Nat → Nat → Option Nat
  wr : State → Nat → Nat → Nat → State × Times

/-- One access of a writing request performed at a cell (R269, R273, R274): the state, the access with its result, and the
completion times; `none` where the data is poisoned. -/
def performAcc (s : State) (q : Req) (c : Cell) (a : Acc) : Option (State × Acc × Times) :=
  match q.kind with
  | .store =>
    (c.rd s a.addr a.bytes).map (fun _ =>
      let (s, t) := c.wr s a.addr a.bytes a.data.toNat
      (s, a, t))
  | .atom op ty _ =>
    (c.rd s a.addr a.bytes).map (fun old =>
      let (s, t) := c.wr s a.addr a.bytes (atomNew op ty q.pc a.lane old a.data.toNat)
      (s, { a with result := some (BitVec.ofNat 128 old) }, t))
  | .red op ty =>
    match s.windowOf q.ctx a.addr with
    | some (i, w) =>
      if w.fp32 && ty = .f32 then
        match windowAddend w.q a.data.toNat with
        | none => some (s.bump (offCtx q.ctx (0x10 + 8 * i)) 1, a, { tcl := 0, tdv := 0 })
        | some n =>
          (c.rd s a.addr 8).map (fun old =>
            let (s, t) := c.wr s a.addr 8 (wrapTo .i64 (intVal .i64 old + n))
            (s, a, t))
      else
        (c.rd s a.addr a.bytes).map (fun old =>
          let (s, t) := c.wr s a.addr a.bytes (atomNew op ty q.pc a.lane old a.data.toNat)
          (s, a, t))
    | none =>
      (c.rd s a.addr a.bytes).map (fun old =>
        let (s, t) := c.wr s a.addr a.bytes (atomNew op ty q.pc a.lane old a.data.toNat)
        (s, a, t))
  | .fset =>
    (c.rd s (a.addr + 8) 8).map (fun st =>
      if st % 2 = 1 then (s, { a with pred := false }, { tcl := 0, tdv := 0 })
      else
        let (s, t) := c.wr s a.addr 16 (a.data.toNat % 2 ^ 64 + 2 ^ 64)
        (s, { a with pred := true }, t))
  | .fclr =>
    (c.rd s (a.addr + 8) 8).map (fun _ =>
      let (s, t) := c.wr s (a.addr + 8) 8 0
      (s, a, t))
  | _ => none

/-- The accesses of a writing request, one after another in ascending lane order (R264). -/
def performAccs (q : Req) (c : Cell) : State → List Acc → State × List Acc × List (Nat × Acc) × Times
  | s, [] => (s, [], [], { tcl := 0, tdv := 0 })
  | s, a :: rest =>
    match performAcc s q c a with
    | none =>
      let (s, ok, bad, t) := performAccs q c s rest
      (s, ok, (0x05, a) :: bad, t)
    | some (s, b, t1) =>
      let (s, ok, bad, t) := performAccs q c s rest
      (s, b :: ok, bad, { tcl := max t1.tcl t.tcl, tdv := max t1.tdv t.tdv })

/-- The cell of a line at its home slice. -/
def homeCell (p : Who) (line page : Nat) : Cell :=
  { rd := fun s a n => s.homeRead p line page (a - line * 192) n
    wr := fun s a n v => s.install p line page (a - line * 192) n v }

/-- The cell of a type 2 target. -/
def targetCell (frame : Nat) (t : Nat) : Cell :=
  { rd := fun s a n => some (s.targetRead (physOf frame a) n)
    wr := fun s a n v => (s.targetWrite (physOf frame a) n v, { tcl := t, tdv := t }) }

/-- A writing request has been performed: results and completion times; `wait` says whether tx is still to come, and whether the write is of
type 2 (R93). -/
def State.performed (s : State) (r : Nat) (ok : List Acc) (bad : List (Nat × Acc)) (tcl tdv tsy : Nat) (wait : Option Bool) :
    State :=
  (s.modReq r (fun q =>
    { q with st := (match wait with | some two => .ackWait two | none => .performed), tcl := tcl, tdv := tdv, tsy := tsy,
             accs := q.accs.map (fun a => (ok.find? (fun b => b.lane = a.lane)).getD a) })).splitErrors r bad

/-- Operations that a reduction window refuses (R85, R270, R275, R277): every atomic, future and wait, and every reduction
that it does not accept. -/
def State.windowRefuses (s : State) (q : Req) : Bool :=
  match q.accs with
  | [] => false
  | a :: _ =>
    match s.windowOf q.ctx a.addr with
    | none => false
    | some (_, w) =>
      match q.kind with
      | .red op t => !w.accepts op t
      | .atom _ _ _ | .fld | .fset | .fclr | .waiton _ _ => true
      | _ => false

/-- Append an operation to the outbox of a view: it takes an entry of the view store, and a full bucket exhausts the rival
(R174, R176, R177). -/
def State.queueOut (s : State) (v : Nat) (op : OutOp) : State :=
  match s.view? v with
  | none => s
  | some vw =>
    let b := max 1 (((s.recOfView v).map (·.vsb)).getD 1)
    let j := vw.outNo + vw.outbox.length
    if s.bucketUse vw.grid b ((j + 257 * v) % b) < 8 then
      (s.putOutEntry v j).modView v (fun vw => { vw with outbox := vw.outbox ++ [op] })
    else s.exhaust v

/-- Operations that a world queues in its outbox when they meet a page of type 2 or 3 (Table 7.5). -/
def AccKindM.queues (k : AccKindM) : Bool :=
  match k with
  | .store | .fset | .atom _ _ false | .red _ _ => true
  | _ => false

/-- An access of a world that meets a page of type 2 or 3 at its home slice: queued, and complete at once; or WESC
(Table 7.5), told as reason 0x105. What a queued `fset` puts in its predicate is not stated: a free value (log entry 7). -/
def State.escapeReq (s : State) (r : Nat) (q : Req) : State :=
  let t := s.sliceTime q.who q.page
  if q.kind.queues then
    ((s.queueOut q.view (.access q)).modReq r (fun q =>
      { q with st := .performed, tcl := t, tdv := t, tsy := t,
               accs := q.accs.map (fun a => { a with pred := Config.freeBit (s.tick + a.lane) }) })).next
  else s.modReq r (fun q => { q with st := .error 0x105 })

/-- The peer frame of a reduction in a window that is sent to its home chip (R85): its page lies in a peer's range, and this chip
has an ID. -/
def State.peerFrame (s : State) (p : Who) (a : Nat) : Option Nat :=
  if (s.windowOf p.ctx a).isNone || (s.reg offYlid).toNat % 1024 = 1023 then none
  else
    ((s.copyAt p (lineOf a) (pageOf a)).bind (fun h => mapGet? h.tags (pageOf a))).bind (fun t =>
      match s.range (t.frame * 4096) with
      | .peer _ => some t.frame
      | _ => none)

/-- … of a request that is such a reduction. -/
def State.peerRed (s : State) (q : Req) : Option Nat :=
  match q.kind with
  | .red _ _ => q.accs.head?.bind (fun a => s.peerFrame q.who a.addr)
  | _ => none

/-- A line that another chip changes is held here no longer: it is written back, and waits on it are looked at afresh. -/
def State.yieldLine (s : State) (p : Who) (line page : Nat) : State :=
  match s.copyAt p line page with
  | some h => if h.fixed then s else s.evictHome (s.homeOf p.ctx page) h
  | none => s

/-- A store, atomic, reduction, `fset` or `fclr` arrives. -/
def State.arriveWrite (s : State) (r : Nat) (q : Req) : State :=
  let p := q.who
  let eng := 0x4000 + s.homeOf q.ctx q.page
  if s.windowRefuses q then s.failReq r q 0x07 eng
  else
    match s.home p q.line q.page true q.hint with
    | (s, .retry) => s.modReq r (fun q => { q with st := .retry })
    | (s, .full) => s
    | (s, .fault reason) => s.faultReq r q reason
    | (s, .error e) => s.failReq r q e eng
    | (s, .drop) => s.dropReq r
    | (s, .target f) =>
      let t := s.sliceTime p q.page
      if q.view ≠ 0 then s.escapeReq r q
      else
        let (s, ok, bad, _) := performAccs q (targetCell f t) s q.accs
        s.performed r ok bad t t t (if s.range (f * 4096) = .device then none else some true)
    | (s, .ok mt) =>
      if q.view ≠ 0 ∧ 2 ≤ mt then s.escapeReq r q
      else
        let (s, own) := s.ownCopy p q.line q.page
        let held := own.any (fun h => h.pinCo.isSome || h.pinCl.isSome)
        if own.isNone then s
        else
        match (if held then none else s.peerRed q) with
        | some f =>
          let s := s.yieldLine p q.line q.page
          let (s, ok, bad, _) := performAccs q (targetCell f (s.sliceTime p q.page)) s q.accs
          let t := s.times p q.line q.page false
          s.performed r ok bad t.tcl t.tdv t.tdv (some false)
        | none =>
          let pin := q.pin && !(q.accs.head?.any (fun a => (s.windowOf q.ctx a.addr).isSome))
          let (s, pinned) := if pin then s.takePin p q.line q.page q.scope else (s, held)
          if pin && !pinned && q.rel then s.raiseRelease r q
          else
          let (s, ok, bad, t) := performAccs q (homeCell p q.line q.page) s q.accs
          let patched (cc : List DLine) : List DLine :=
            q.accs.foldl (fun cc a => patchCopies cc q.line q.asid q.view q.page (a.at_ q.line) a.bytes a.data.toNat) cc
          let s := match q.kind with
            | .store => (s.modCluster p.cluster (fun c => { c with cc := patched c.cc })).spoilFills [] p.cluster q.line q.asid q.view Req.read
            | _ => s.dropCopies [q.core] p.cluster q.line q.asid q.view
          let td := ((s.copyAt p q.line q.page).map (·.tldv)).getD 0
          let ts := ((s.copyAt p q.line q.page).map (·.tlsy)).getD 0
          let wait := !pinned && (mt = 3 || Config.choice s.tick % 2 = 1)
          let (tcl, tdv, tsy) := match q.kind with
            | .atom _ _ true => (max t.tcl td, max t.tdv td, max t.tdv ts)
            | _ => (t.tcl, t.tdv, t.tdv)
          s.next.performed r ok bad tcl tdv tsy (if wait then some false else none)

/-- A request has its answer: each access takes it, and the times of the line go to the warp. -/
def State.answered (s : State) (r td ts : Nat) (f : Acc → Acc) : State :=
  s.modReq r (fun q => { q with st := .performed, tcl := td, tdv := td, tsy := ts, accs := q.accs.map f })

/-- `fld` arrives (R80, R275): answered from a full cell, held on an empty one, or turned away with a false predicate when
the buffer is full or the page is of type 2. -/
def State.arriveFld (s : State) (r : Nat) (q : Req) : State :=
  let p := q.who
  let x := s.homeOf q.ctx q.page
  let answer (s : State) (v : Option Nat) (td ts : Nat) : State :=
    s.answered r td ts (fun a => { a with result := some (BitVec.ofNat 128 (v.getD 0)), pred := v.isSome })
  match q.accs with
  | [] => s.dropReq r
  | a :: _ =>
    if s.windowRefuses q then s.failReq r q 0x07 (0x4000 + x)
    else
      match s.home p q.line q.page false q.hint with
      | (s, .retry) => s.modReq r (fun q => { q with st := .retry })
      | (s, .full) => s
      | (s, .fault reason) => s.faultReq r q reason
      | (s, .error e) => s.failReq r q e (0x4000 + x)
      | (s, .drop) => s.dropReq r
      | (s, .target f) =>
        if q.view ≠ 0 then s.modReq r (fun q => { q with st := .error 0x105 })
        else
          answer s (if s.targetRead (physOf f (a.addr + 8)) 8 % 2 = 1 then some (s.targetRead (physOf f a.addr) 8) else none) 0 0
      | (s, .ok mt) =>
        if q.view ≠ 0 ∧ 2 ≤ mt then s.modReq r (fun q => { q with st := .error 0x105 })
        else
          let h := s.copyAt p q.line q.page
          match s.homeRead p q.line q.page (a.at_ q.line + 8) 8, s.homeRead p q.line q.page (a.at_ q.line) 8 with
          | some st, some v =>
            if st % 2 = 1 then 
              answer (s.dropCopies [q.core] p.cluster q.line q.asid q.view) (some v) ((h.map (·.tldv)).getD 0) ((h.map (·.tlsy)).getD 0)
            else if (s.slice x).poste.length < 256 then
              (s.modSlice x (fun sl => { sl with poste := sl.poste ++ [r] })).modReq r (fun q => { q with st := .held })
            else answer s none 0 0
          | _, _ => s.failReq r q 0x05 (0x4000 + x)

/-- `waiton` arrives, or one that was not registered, because the table was full, reads its word again (R276, R277). -/
def State.arriveWait (s : State) (r : Nat) (q : Req) (c : Cond) (t : Ty) (first : Bool := true) : State :=
  let p := q.who
  let x := s.homeOf q.ctx q.page
  let now := s.sliceTime p q.page
  let answer (s : State) (v td ts : Nat) : State :=
    s.answered r td ts (fun a => { a with result := some (BitVec.ofNat 128 v) })
  let poll (s : State) : State := s.modReq r (fun q => { q with st := .held, due := now + 1024 })
  match q.accs with
  | [] => s.dropReq r
  | a :: _ =>
    let holds (v : Nat) : Bool := cmpInt c (intVal t v) (intVal t a.data.toNat)
    if s.windowRefuses q then s.failReq r q 0x07 (0x4000 + x)
    else
      match s.home p q.line q.page false q.hint with
      | (s, .retry) => s.modReq r (fun q => { q with st := .retry })
      | (s, .full) => s
      | (s, .fault reason) => s.faultReq r q reason
      | (s, .error e) => s.failReq r q e (0x4000 + x)
      | (s, .drop) => s.dropReq r
      | (s, .target f) =>
        if q.view ≠ 0 then s.modReq r (fun q => { q with st := .error 0x105 })
        else
          let v := s.targetRead (physOf f a.addr) a.bytes
          if holds v then answer s v 0 0 else poll s
      | (s, .ok mt) =>
        if q.view ≠ 0 ∧ 2 ≤ mt then s.modReq r (fun q => { q with st := .error 0x105 })
        else
          let h := s.copyAt p q.line q.page
          let s := s.dropCopies [q.core] p.cluster q.line q.asid q.view
          match s.homeRead p q.line q.page (a.at_ q.line) a.bytes with
          | none => s.failReq r q 0x05 (0x4000 + x)
          | some v =>
            if holds v then answer s v ((h.map (·.tldv)).getD 0) ((h.map (·.tlsy)).getD 0)
            else if first && (s.slice x).waits.length < 1024 then
              (s.modSlice x (fun sl => { sl with waits := sl.waits ++ [r] })).modReq r (fun q => { q with st := .held })
            else poll s

end Sys2Proof.Machine
end

