-- ==== Sys2Proof/Machine/Records.lean ====
section
/-! DEFINITION. Physical accesses of command firmware, and the event rings: records, batches of interrupts, held records
(R345 to R349). -/

namespace Sys2Proof.Machine

/-! ### Physical accesses -/

/-- The byte of a base line of a home slice that stands for a physical address, when the line covers it. -/
def HLine.physIndex (h : HLine) (pa : Nat) : Option Nat :=
  if h.view ≠ 0 then none
  else
    (h.tags.find? (fun t => t.2.frame = pa / 4096 && t.2.mtype ≠ 2 && (t.1 * 4096 + pa % 4096) / 192 = h.line)).map
      (fun t => t.1 * 4096 + pa % 4096 - h.line * 192)

/-- A byte of memory as a physical access reads it: from the home slice that holds it, else from the frame. -/
def State.physByte (s : State) (pa : Nat) : BitVec 8 :=
  (s.slices.findSome? (fun e => e.2.lines.findSome? (fun h =>
    (h.physIndex pa).bind (fun i => if h.valid.getLsbD (i / 16) then some (lineByte h.data i) else none)))).getD
    (readMem s.mem pa)

/-- Bytes of memory at a physical address. -/
def State.physBytes (s : State) (pa n : Nat) : List (BitVec 8) := (upTo n).map (fun i => s.physByte (pa + i))

/-- Write a byte at a physical address: in its frame, and in every base line that holds it. -/
def State.physPut (s : State) (pa : Nat) (b : BitVec 8) : State :=
  { s with
    mem := writeMem s.mem pa b
    slices := s.slices.map (fun e => (e.1, { e.2 with lines := e.2.lines.map (fun h =>
      match h.physIndex pa with
      | some i => { h with data := lineSet h.data i 1 b.toNat }
      | none => h) })) }

/-- Write consecutive bytes at a physical address. -/
def State.physWrite (s : State) (pa : Nat) : List (BitVec 8) → State
  | [] => s
  | b :: bs => (s.physPut pa b).physWrite (pa + 1) bs

/-! ### Event rings (Table 18.5, R346 to R349) -/

def State.ringOn (s : State) (r : Nat) : Bool := (s.reg (offRing r 0x28)).getLsbD 0
def State.ringSize (s : State) (r : Nat) : Nat := 48 * 2 ^ ((s.reg (offRing r 0x08)).toNat % 32)
def State.etail (s : State) (r : Nat) : Nat := (s.reg (offRing r 0x10)).toNat
def State.ehead (s : State) (r : Nat) : Nat := (s.reg (offRing r 0x18)).toNat
/-- Advancing ETAIL would make it equal EHEAD (R347). -/
def State.ringFull (s : State) (r : Nat) : Bool := (s.etail r + 48) % s.ringSize r = s.ehead r
/-- A record may be written, or is discarded, now: nothing waits before it. -/
def State.ringRoom (s : State) (r : Nat) : Bool := !s.ringOn r || (!s.ringFull r && (s.ring r).held.isEmpty)

/-- The 48 bytes of a record (Table 18.13). -/
def Record.bytes (r : Record) (phase : Bool) : List (BitVec 8) :=
  natBytes 8 r.postmark ++ natBytes 4 r.seq ++ natBytes 2 r.queue ++ natBytes 2 r.engine ++ natBytes 1 r.status ++ natBytes 1 r.reason ++
    natBytes 2 r.cause.toNat ++ natBytes 1 (if phase then 1 else 0) ++ natBytes 1 r.kind ++ natBytes 2 0 ++ natBytes 8 r.faddr ++
    natBytes 8 r.user.toNat ++ natBytes 8 r.result

/-- The ring raises its MSI-X vector; its batch ends (R348). -/
def State.raiseMsix (s : State) (r : Nat) : State :=
  { s with msix := s.msix ++ [((s.reg (offRing r 0x28)).toNat / 2) % 2048] }.modRing r (fun k => { k with batch := 0 })

/-- A record has been written: the batch grows, and ends when it is due (R348). -/
def State.countRecord (s : State) (r kind : Nat) : State :=
  let now := s.gtimeAt 0
  let s := s.modRing r (fun k => { k with batch := k.batch + 1, batchFirst := if k.batch = 0 then now else k.batchFirst })
  let coal := (s.reg (offRing r 0x20)).toNat
  let n := coal % 65536
  let t := coal / 65536 % 65536
  if (n = 0 ∧ t = 0) ∨ (1 ≤ n ∧ n ≤ (s.ring r).batch) ∨ (kind = 1 ∧ (s.reg (offRing r 0x28)).getLsbD 12) then s.raiseMsix r else s

/-- Write a record whole at ETAIL and advance ETAIL; the phase bit flips on every wrap (R347). -/
def State.writeRecord (s : State) (r : Nat) (x : Record) : State :=
  let t := s.etail r
  let t' := (t + 48) % s.ringSize r
  let s := s.physWrite ((s.reg (offRing r 0)).toNat + t) ({ x with postmark := s.gtimeAt 0 }.bytes (s.ring r).phase)
  let s := (s.setReg (offRing r 0x10) (BitVec.ofNat 64 t')).modRing r (fun k => if t' = 0 then { k with phase := !k.phase } else k)
  s.countRecord r x.kind

/-- A record goes to a ring: discarded where the ring is disabled, held while the ring is full (R346, R347). -/
def State.post (s : State) (r : Nat) (x : Record) : State :=
  if !s.ringOn r then s
  else if s.ringRoom r then s.writeRecord r x
  else s.modRing r (fun k => { k with held := k.held ++ [x] })

/-- Held records are written while the ring has room (R347); `n` bounds their number. -/
def State.releaseHeld (s : State) (r : Nat) : Nat → State
  | 0 => s
  | n + 1 =>
    match (s.ring r).held with
    | [] => s
    | x :: rest =>
      if s.ringFull r then s
      else ((s.modRing r (fun k => { k with held := rest })).writeRecord r x).releaseHeld r n

/-- A record with nothing in it but whom it concerns. -/
def Record.blank (queue seq engine : Nat) (user : DWord) : Record :=
  { postmark := 0, seq := seq, queue := queue, engine := engine, status := 0, reason := 0, cause := 0, kind := 0, faddr := 0,
    user := user, result := 0 }

/-- Engine identity of the command core that acts for a queue: kind 0 with a free index (log entry 40). -/
def commandEngine (q : Nat) : Nat := (Config.commandCore q).val

/-! ### Final records of packets (R336, R346, R354) -/

/-- The final record of a packet may be written now, or none is due. -/
def State.canFinish (s : State) (h : PktHdr) (status : Nat) : Bool := (h.nocpl && status = 0) || s.ringRoom h.ring

/-- A packet of a queue completes: its final record is written, but for an OK one under NOCPL, and it leaves the queue. -/
def State.finish (s : State) (q n : Nat) (h : PktHdr) (x : Record) : State :=
  (if h.nocpl && x.status = 0 then s else s.post h.ring x).modQueue q (fun k => k.dropCmd n)

/-- A command in progress on a queue. -/
def State.cmd? (s : State) (q n : Nat) : Option Cmd := (s.queue q).cmds.find? (fun c => c.seq = n)
def State.modCmd (s : State) (q n : Nat) (f : Cmd → Cmd) : State :=
  s.modQueue q (fun k => k.modCmd n f)

/-- A packet completes with a status and a reason, when its record may be written. -/
def State.finishWith (s : State) (q n : Nat) (h : PktHdr) (status reason result : Nat) : State :=
  if s.canFinish h status then
    s.finish q n h { Record.blank q n (commandEngine q) h.user with status := status, reason := reason, result := result }
  else s

/-- `EHEAD_WRITE`: accepted for a multiple of 48 below the ring size on the way from EHEAD to ETAIL; then held records are
written (R347, R349). -/
def execEheadWrite (r : Nat) (v : DWord) (s : State) : Out :=
  .next (
    let size := s.ringSize r
    let h := s.ehead r
    if v.toNat % 48 ≠ 0 ∨ size ≤ v.toNat ∨ (s.etail r + size - h) % size < (v.toNat + size - h) % size then s
    else (s.setReg (offRing r 0x18) v).releaseHeld r (s.ring r).held.length)

/-- `RING_ENABLE`: ECTL.EN changes from 0 to 1: ETAIL and EHEAD become 0, and the next record carries PHASE 1 (R349). -/
def execRingEnable (r : Nat) (ctl : DWord) (s : State) : Out :=
  .next ((((s.setReg (offRing r 0x28) (ctl &&& 0x1FFF)).setReg (offRing r 0x10) 0).setReg (offRing r 0x18) 0).modRing r (fun _ => Ring.reset))

/-- `RING_DISABLE`: later records are discarded; records already written stay (R346, R349). -/
def execRingDisable (r : Nat) (ctl : DWord) (s : State) : Out :=
  .next ((s.setReg (offRing r 0x28) (ctl &&& 0x1FFF)).modRing r (fun k => { k with held := [], batch := 0 }))

/-- `INTERRUPT_COALESCE_TIMEOUT`: T µs after the first record of a batch the ring raises its vector (R348). -/
def execInterruptCoalesceTimeout (r : Nat) (s : State) : Out :=
  .next (
    let t := (s.reg (offRing r 0x20)).toNat / 65536 % 65536
    if 1 ≤ t ∧ (s.ring r).batch ≠ 0 ∧ (s.ring r).batchFirst + 1000 * t ≤ s.gtimeAt 0 then s.raiseMsix r else s)

end Sys2Proof.Machine
end

