-- ==== Sys2Proof/Machine/Shift.lean ====
section
/-! DEFINITION. Shifts, bit counts and bit fields (Table 9.5, R212 to R214). -/

namespace Sys2Proof.Machine

/-- `shl`: 0 for an amount of the width or more (R213). -/
def shlBits (n b sh : Nat) : Nat := if n ≤ sh then 0 else b * 2 ^ sh % 2 ^ n

/-- `shl` (R213). -/
def execShl (h : Hdr) (t : Ty) (a : Dst) (b c : Opd) (s : State) : Out :=
  .next (alu1 h a t.bits (max (b.top t.bits) (c.top 32)) (fun r => shlBits t.bits (r.src t b) (r.src32 c)) s)

/-- `shr`: arithmetic for a signed type, logical otherwise (R213). -/
def shrBits (t : Ty) (b sh : Nat) : Nat :=
  if t.signed then wrapTo t (intVal t b / (2 ^ min sh (t.bits - 1) : Nat))
  else if t.bits ≤ sh then 0 else b / 2 ^ sh

/-- `shr` (R213). -/
def execShr (h : Hdr) (t : Ty) (a : Dst) (b c : Opd) (s : State) : Out :=
  .next (alu1 h a t.bits (max (b.top t.bits) (c.top 32)) (fun r => shrBits t (r.src t b) (r.src32 c)) s)

/-- `fsh`: a funnel shift right by the amount modulo 2n (R213). -/
def fshBits (n hi lo sh : Nat) : Nat := (hi * 2 ^ n + lo) / 2 ^ (sh % (2 * n)) % 2 ^ n

/-- `fsh` (R213). -/
def execFsh (h : Hdr) (t : Ty) (a : Dst) (hi lo sh : Opd) (s : State) : Out :=
  .next (alu1 h a t.bits (max (max (hi.top t.bits) (lo.top t.bits)) (sh.top 32))
    (fun r => fshBits t.bits (r.src t hi) (r.src t lo) (r.src32 sh)) s)

/-- The number of ones among the low `n` bits. -/
def popcount (n b : Nat) : Nat := ((upTo n).filter (fun i => b.testBit i)).length

/-- `popc` (R213). -/
def execPopc (h : Hdr) (t : Ty) (a : Dst) (b : Opd) (s : State) : Out :=
  .next (alu1 h a 32 (b.top t.bits) (fun r => popcount t.bits (r.src t b)) s)

/-- The zeros above the highest one; n for 0. -/
def leadingZeros (n b : Nat) : Nat := if b = 0 then n else n - 1 - Nat.log2 b

/-- `clz` (R213). -/
def execClz (h : Hdr) (t : Ty) (a : Dst) (b : Opd) (s : State) : Out :=
  .next (alu1 h a 32 (b.top t.bits) (fun r => leadingZeros t.bits (r.src t b)) s)

/-- The low `n` bits in reverse order. -/
def reverseBits (n b : Nat) : Nat := ((upTo n).map (fun i => if b.testBit i then 2 ^ (n - 1 - i) else 0)).sum

/-- `brev` (R213). -/
def execBrev (h : Hdr) (t : Ty) (a : Dst) (b : Opd) (s : State) : Out :=
  .next (alu1 h a t.bits (b.top t.bits) (fun r => reverseBits t.bits (r.src t b)) s)

/-- The effective width of a bit field (R213). -/
def fieldWidth (n pos len : Nat) : Nat := if n ≤ pos then 0 else min len (n - pos)

/-- `bfx`: a field, its sign filling the result for a signed type (R213). -/
def bfxBits (t : Ty) (b pos len : Nat) : Nat :=
  let w := fieldWidth t.bits pos len
  if w = 0 then 0
  else
    let f := b / 2 ^ pos % 2 ^ w
    wrapTo t (if t.signed ∧ f.testBit (w - 1) then (f : Int) - (2 ^ w : Nat) else f)

/-- `bfx` (R213). -/
def execBfx (h : Hdr) (t : Ty) (a : Dst) (b pos len : Opd) (s : State) : Out :=
  .next (alu1 h a t.bits (max (b.top t.bits) (max (pos.top 32) (len.top 32)))
    (fun r => bfxBits t (r.src t b) (r.src32 pos) (r.src32 len)) s)

/-- `bfi`: b with the field replaced by the low bits of f (R213). -/
def bfiBits (n b f pos len : Nat) : Nat :=
  let w := fieldWidth n pos len
  if w = 0 then b
  else
    let hiPart := b / 2 ^ (pos + w)
    hiPart * 2 ^ (pos + w) + f % 2 ^ w * 2 ^ pos + b % 2 ^ pos

/-- `bfi` (R213). -/
def execBfi (h : Hdr) (t : Ty) (a : Dst) (b f pos len : Opd) (s : State) : Out :=
  .next (alu1 h a t.bits (max (max (b.top t.bits) (f.top t.bits)) (max (pos.top 32) (len.top 32)))
    (fun r => bfiBits t.bits (r.src t b) (r.src t f) (r.src32 pos) (r.src32 len)) s)

/-- `adrs`: base + Ext(idx) · 2^sh modulo 2^64 (R213). -/
def adrsBits (t : Ty) (base idx sh : Nat) : Nat :=
  (((base : Int) + intVal t idx * (2 ^ sh : Nat)) % (2 ^ 64 : Nat)).toNat

/-- `adrs` (R213). -/
def execAdrs (h : Hdr) (t : Ty) (a : Dst) (base idx : Opd) (sh : BitVec 5) (s : State) : Out :=
  .next (alu1 h a 64 (max (base.top 64) (idx.top 32))
    (fun r => adrsBits t (r.src64 base) (r.src32 idx) sh.toNat) s)

/-- One byte of `permb`, for the selector nibble `hsel` (R213). -/
def permByte (b c hsel : Nat) : Nat :=
  let k := hsel % 8
  let y := (b + 2 ^ 32 * c) / 2 ^ (8 * k) % 256
  if hsel / 8 % 2 = 1 then (if 128 ≤ y then 0xFF else 0) else y

/-- `permb` (R213). -/
def execPermb (h : Hdr) (a : Dst) (b c sel : Opd) (s : State) : Out :=
  .next (alu1 h a 32 (max (max (b.top 32) (c.top 32)) (sel.top 32))
    (fun r => ((upTo 4).map (fun i =>
      permByte (r.src32 b) (r.src32 c) (r.src32 sel / 2 ^ (4 * i) % 16) * 2 ^ (8 * i))).sum) s)

end Sys2Proof.Machine
end

