-- ==== Sys2Proof/Machine/MemReply.lean ====
section
/-! DEFINITION. The events of the memory path: a request leaves its core, arrives and is performed; its response returns,
values are written, counters and horizons move; faulted accesses become replay records; FIFO ports and polls (R31 to R33,
R47, R61, R62, R68, R88, R93, R94, R96, R103, R232, R276, R277). -/

namespace Sys2Proof.Machine

/-! ### The instruction as a whole -/

/-- Lanes whose accesses a request holds. -/
def Req.lanes (q : Req) : Mask := if q.uni = 0 then lanesMask (q.accs.map (·.lane)) else q.uni

/-- Requests and replay records of an instruction of a warp that are not done. -/
def State.outstanding (s : State) (w group : Nat) : Bool :=
  s.reqs.any (fun e => e.2.warp = some w && e.2.group = group) ||
    (s.warp? w).any (fun wp => wp.replays.any (fun e => e.2.req.group = group))

/-- Loads of some lanes of a warp that have not returned, by instruction number (R97, R98). -/
def State.openLoads (s : State) (w : Nat) (lanes : Mask) : List Nat :=
  (s.reqs.filterMap (fun e =>
    if e.2.warp = some w && e.2.kind.returns && e.2.lanes &&& lanes ≠ 0 then some e.2.group else none)) ++
  ((s.warp? w).map (fun wp => wp.replays.filterMap (fun e =>
    if e.2.req.kind.returns && e.2.lanes &&& lanes ≠ 0 then some e.2.req.group else none))).getD []

/-- Writes of some lanes that are not acknowledged, and copies that still wait for their own release (R97, step 2). -/
def State.openWrites (s : State) (w : Nat) (lanes : Mask) : List Nat :=
  (s.reqs.filterMap (fun e =>
    if e.2.warp = some w && !e.2.kind.returns && e.2.lanes &&& lanes ≠ 0 then some e.2.group else none)) ++
  (s.copies.filterMap (fun e =>
    if e.2.warp = some w && e.2.rel.isSome && lanes.getLsbD e.2.lane then some e.2.group else none)) ++
  ((s.warp? w).map (fun wp => wp.replays.filterMap (fun e =>
    if !e.2.req.kind.returns && e.2.lanes &&& lanes ≠ 0 then some e.2.req.group else none))).getD []

/-- An acquire for lanes of a warp: their younger memory instructions wait for the loads now open (R98). -/
def State.acquire (s : State) (w : Nat) (lanes : Mask) : State :=
  s.modWarp w (fun wp => { wp with acquire := wp.acquire ++ (s.openLoads w lanes).map (fun g => (lanes, g)) })

/-- The counter that an instruction of a kind counts in goes up or down by one (Table 9.13). -/
def Warp.count (wp : Warp) (k : AccKindM) (up : Bool) : Warp :=
  let f (n : Nat) : Nat := if up then n + 1 else n - 1
  match k with
  | .prefetch | .ifetch | .gath _ => wp
  | _ => if k.returns then { wp with ctrLd := f wp.ctrLd } else { wp with ctrSt := f wp.ctrSt }

/-- Registers that wait for an instruction no longer do so for some lanes (R46). -/
def Warp.clearPend (wp : Warp) (group : Nat) (lanes : Mask) : Warp :=
  { wp with pend := (wp.pend.map (fun p => if p.req = some group then { p with lanes := p.lanes &&& ~~~lanes } else p)).filter
              (fun p => p.lanes ≠ 0) }

/-- Some lanes of an instruction are done; when the last of them is, its counter goes down and acquires stop waiting for
it (R98, R232). -/
def State.lanesDone (s : State) (w group : Nat) (k : AccKindM) (lanes : Mask) : State :=
  let s := s.modWarp w (fun wp => wp.clearPend group lanes)
  if s.outstanding w group then s
  else s.modWarp w (fun wp => { wp.count k false with acquire := wp.acquire.filter (fun e => e.2 ≠ group) })

/-! ### Delivering values (R82, R86, R266, R272, R276) -/

/-- The first load of each aligned 8-byte word records its value (R82); a 17th word aborts with cause 0x03 (R83). -/
def Lane.recordReads (la : Lane) (lo n raw : Nat) : Lane :=
  match la.tx with
  | none => la
  | some tx =>
    let reads := (upTo (n / 8)).foldl (fun m i =>
      if (mapGet? m (lo + 8 * i)).isSome then m else mapSet m (lo + 8 * i) (BitVec.ofNat 64 (raw / 2 ^ (64 * i)))) tx.reads
    if 16 < reads.length then la.abort 0x03 0 else { la with tx := some { tx with reads := reads } }

/-- The bytes of the write set laid over the words read (R82). -/
def Tx.overlay (tx : Tx) (lo n raw : Nat) : Nat :=
  bytesNat ((upTo n).map (fun i =>
    let w := (lo + i) / 8 * 8
    match mapGet? tx.writes w with
    | some (v, m) => if m.getLsbD ((lo + i) % 8) then v.extractLsb' (8 * ((lo + i) % 8)) 8 else BitVec.ofNat 8 (raw / 2 ^ (8 * i))
    | none => BitVec.ofNat 8 (raw / 2 ^ (8 * i))))

/-- The write set covers every byte of an access. -/
def Tx.covers (tx : Tx) (a bytes : Nat) : Bool :=
  (upTo bytes).all (fun i => (mapGet? tx.writes ((a + i) / 8 * 8)).any (fun e => e.2.getLsbD ((a + i) % 8)))

/-- Write a load's register: of the lane, or of the warp for a uniform destination. -/
def State.writeDst (s : State) (w l : Nat) (d : Dst) (bits x : Nat) : State :=
  (s.modLane w l (fun la => la.put (.reg d bits x))).modWarp w (fun wp => wp.putUni (.reg d bits x))

/-- A lane that waited in an instruction goes on after it. -/
def Lane.wake (la : Lane) (group : Nat) : Lane :=
  if la.st = .memWait group then { la with st := .runnable, pc := la.pc + 16 } else la

/-- The register that an older load delivers past a speculative fence is kept in what a rollback would restore (R101). -/
def FenceOp.keep (f : FenceOp) (q : Req) (l : Nat) (la : Lane) : FenceOp :=
  match q.dst with
  | .v n =>
    { f with saved := mapModify f.saved l (fun sv =>
        (upTo (max 1 (q.bits / 32))).foldl (fun sv i => sv.setReg (n.toNat + i) (la.reg (n.toNat + i))) sv) }
  | _ => f

/-- Note the delivery of an access for the speculative fences of its lane: an older load changes what a rollback restores,
a load ahead depends on its copy until the fence completes (R101). -/
def State.noteSpec (s : State) (w : Nat) (q : Req) (expiry : Nat) : State :=
  if s.fences.all (fun e => !(e.2.spec && e.2.warp = w)) then s
  else
    { s with fences := s.fences.map (fun e =>
        if e.2.spec && e.2.warp = w then
          (e.1, q.accs.foldl (fun f a =>
            match mapGet? f.saved a.lane, s.lane? w a.lane with
            | some _, some la =>
              if q.group ∈ f.loads then f.keep q a.lane la else { f with specLines := f.specLines ++ [(q.line, expiry)] }
            | _, _ => f) e.2)
        else e) }

/-- One access of a request that returns a value delivers it to its lane. -/
def State.deliver (s : State) (w : Nat) (q : Req) (a : Acc) : State :=
  let raw := (a.result.getD 0).toNat
  match q.kind with
  | .load f =>
    let (lo, n) := s.span q a
    let tx := if q.inTx then (s.lane? w a.lane).bind (·.tx) else none
    let bytes := match tx with
      | some t => t.overlay lo n raw
      | none => raw
    let v := match s.win32 q.ctx a.addr f with
      | some sc => windowRead sc bytes
      | none => bytes / 2 ^ (8 * (a.addr - lo)) % 2 ^ (8 * a.bytes)
    let s := if q.inTx then
        s.modLanes w (if q.uni = 0 then [a.lane] else maskLanes q.uni) (fun la =>
          if la.tx.any (fun t => t.covers a.addr a.bytes) then la else la.recordReads lo n raw)
      else s
    if q.uni = 0 then s.writeDst w a.lane q.dst q.bits v
    else s.modWarp w (fun wp => wp.putUni (.reg q.dst q.bits v))
  | .atom _ _ _ => s.writeDst w a.lane q.dst q.bits (raw % 2 ^ (8 * a.bytes))
  | .fld =>
    let s := s.modLane w a.lane (fun la => ((la.put (.reg q.dst 64 raw)).setPred q.pd.toNat a.pred).wake q.group)
    if a.pred then s.acquire w (lanesMask [a.lane]) else s
  | .waiton _ _ =>
    ((s.writeDst w a.lane q.dst q.bits raw).modLane w a.lane (fun la => la.wake q.group)).acquire w (lanesMask [a.lane])
  | .gath g =>
    { s with gathers := mapModify s.gathers g (fun ga =>
        { ga with arrived := ga.arrived ||| lanesMask [a.lane], vals := mapSet ga.vals a.lane (BitVec.ofNat 64 raw) }) }
  | .fset => s.modLane w a.lane (fun la => la.setPred q.pd.toNat a.pred)
  | _ => s

/-! ### Leaving the core (R61, R62, R96) -/

/-- Two requests of one core name the same piece of a line in one view. -/
def Req.samePiece (q p : Req) : Bool := p.core = q.core && p.line = q.line && p.page = q.page && p.view = q.view && p.kind ≠ .ifetch

/-- It has not left its core, or comes back to where it was before. -/
def Req.unsent (q : Req) : Bool :=
  match q.st with
  | .waiting | .retry | .fenced _ => true
  | _ => false

/-- An older request of the same core to the same line has to leave first (R96): before a load an older write, before anything else
every older one, those that a fill in flight is to answer among them. -/
def State.olderOnLine (s : State) (r : Nat) (q : Req) : Bool :=
  s.reqs.any (fun e => e.1 < r && q.samePiece e.2 &&
    (if q.kind.fills && q.hint ≠ 3 then e.2.unsent && e.2.kind.writes
    else e.2.unsent || (match e.2.st with | .joined _ => true | _ => false)))

/-- An older request of one of its lanes has not left: the memory operations of each lane leave in program order (R47). What
waits for a release does not hold back younger loads (R97). -/
def State.olderOfLane (s : State) (r : Nat) (q : Req) : Bool :=
  q.warp.isSome && s.reqs.any (fun e => e.1 < r && e.2.warp = q.warp && e.2.st = .waiting && e.2.lanes &&& q.lanes ≠ 0)

/-- A request slot is free for a request: 64 a core, 48 to one channel; the pieces of one line that an instruction touches share one
(R61, R62). -/
def State.slotFree (s : State) (q : Req) : Bool :=
  let mine := s.reqs.filter (fun e => e.2.core = q.core && e.2.slot.isSome && ¬(e.2.group = q.group && e.2.line = q.line))
  let lines := (mine.map (fun e => (e.2.group, e.2.line))).eraseDups
  lines.length < 64 && (mine.filter (fun e => s.homeOf e.2.ctx e.2.page = s.homeOf q.ctx q.page)).length < 48

/-- The request leaves the core, with a slot where it takes one. -/
def State.sendReq (s : State) (r : Nat) (slot : Bool) : State :=
  (s.modReq r (fun q => { q with st := .sent, sentNo := s.tick, slot := if slot then some (s.clock q.core) else none })).next

/-- The pending fill that a load miss could join: same core, line, tags and page (R62). -/
def State.pendingFill (s : State) (r : Nat) (q : Req) : Option (Nat × Req) :=
  s.reqs.find? (fun e => e.1 ≠ r && e.2.core = q.core && e.2.line = q.line && e.2.page = q.page && e.2.view = q.view &&
    e.2.asid = q.asid && e.2.kind.fills && e.2.kind ≠ .ifetch && e.2.hint ≠ 3 && e.2.keep && e.2.slot.isSome)

/-- The L1 copy that supplies every chunk of a request. -/
def State.l1Copy (s : State) (q : Req) : Option DLine :=
  (s.core q.core).l1d.find? (fun d => q.chunks.all (fun ch =>
    d.supplies q.line q.asid q.view q.page ch (s.gtimeAt (placeCore q.core)) false))

/-- The use of an L1 copy is noted. -/
def State.touchL1 (s : State) (k : Nat) (d : DLine) : State :=
  (s.modCore k (fun c => { c with l1d := c.l1d.map (fun e => if e.same d then { e with lastUse := s.tick } else e) })).next

/-- A load that hits in the L1 is performed: its data arrives 6 clocks after the lookup (R60, R95, R325). -/
def State.hitL1 (s : State) (r : Nat) (q : Req) (d : DLine) : State :=
  let (accs, bad) := s.readAccs q (fun i n => some (lineGet d.data i n))
  ((s.touchL1 q.core d).modReq r (fun q => { q with hitAt := some (s.clock q.core + 6) })).loaded r accs bad none d.tldv d.tlsy
    |>.modReq r (fun q => { q with exp := d.expiry })

/-- A write of a core to a line makes the fills on their way to its L1 and to its cluster's cache unfit to keep (R96). -/
def State.markStale (s : State) (k line asid view : Nat) : State :=
  s.spoilFills [k] (clusterOf k) line asid view (fun q => q.core = k && q.kind.fills && q.kind ≠ .ifetch)

/-- A write reaches its L1 lookup: a plain store updates the copy in place (R60); any other write drops it, so that the
core's own later loads do not meet the old value (R96). -/
def State.touchLine (s : State) (q : Req) : State :=
  (s.markStale q.core q.line q.asid q.view).modCore q.core (fun c =>
    { c with l1d :=
        if q.kind = .store then
          q.accs.foldl (fun ls a => patchCopies ls q.line q.asid q.view q.page (a.at_ q.line) a.bytes a.data.toNat) c.l1d
        else c.l1d.filter (fun d => !d.hits q.line q.asid q.view) })

/-- A write leaves the core after its L1 lookup. -/
def State.sendWrite (s : State) (r : Nat) (q : Req) : State := (if q.kind.writes then s.touchLine q else s).sendReq r q.kind.slotted

/-- `REQUEST_SEND`: a request reaches its L1 lookup, or one held there goes on: a load hits, joins a pending fill or is sent; a write
updates the L1 copy and is sent; what needs a slot waits until one is free (R47, R60 to R62). A prefetch without a slot is
dropped (R282). -/
def execRequestSend (r : Nat) (s : State) : Out :=
  .next (match s.req? r with
  | none => s
  | some q =>
    if q.st ≠ .waiting ∨ s.clock q.core < q.lookAt ∨ s.olderOnLine r q ∨ s.olderOfLane r q then s
    else if (s.apertureOff q.ctx (q.line * 192)).isSome then s.sendReq r false
    else if q.kind.fills && q.hint ≠ 3 then
      match s.l1Copy q with
      | some d => if q.kind = .prefetch then s.dropReq r else s.hitL1 r q d
      | none =>
        match s.pendingFill r q with
        | some (j, p) =>
          if q.kind = .prefetch then s.dropReq r
          else if s.clock q.core < p.slot.getD 0 + 32 then (s.modReq r (fun q => { q with st := .joined j, sentNo := s.tick })).next
          else s
        | none => if s.slotFree q then s.sendReq r true else if q.kind = .prefetch then s.dropReq r else s
    else if !q.kind.slotted || s.slotFree q then s.sendWrite r q
    else if q.kind = .prefetch then s.dropReq r
    else s)

/-! ### Cluster memory (R66 to R68) -/

/-- After a write to a scratchpad bank, the waits on it are looked at (R276). -/
def State.bankWaits (s : State) (cl b : Nat) : State :=
  ((s.cluster cl).bank b).waiting.foldl (fun s r =>
    match s.req? r with
    | none => s
    | some q =>
      match q.kind, q.accs with
      | .waiton c t, a :: _ =>
        let v := ((s.cluster cl).bank b).get (((s.apertureOff q.ctx a.addr).getD 0) % 262144) a.bytes
        if cmpInt c (intVal t v) (intVal t a.data.toNat) then
          (s.answered r 0 0 (fun a => { a with result := some (BitVec.ofNat 128 v) })).modBank cl b (fun k =>
            { k with waiting := k.waiting.filter (· ≠ r) })
        else s
      | _, _ => s) s

/-- The cell of a bank: after every write the waits on the bank are looked at (R276). -/
def bankCell (cl b : Nat) (t : Nat) (off : Nat → Nat) : Cell :=
  { rd := fun s a n => ((s.cluster cl).bank b).get? (off a) n
    wr := fun s a n v => ((s.modBank cl b (fun k => k.put (off a) (natBytes n v))).bankWaits cl b, { tcl := t, tdv := t }) }

/-- The instruction and width that a FIFO port takes (R68). -/
def Req.fifoOk (q : Req) : Bool :=
  (q.kind = .store || q.kind = .load false) && !q.inTx && q.accs.all (fun a => a.bytes = 16)

/-- The accesses of a request that its bank refuses, with their reasons; futures, transactions and window reductions are refused
on scratch; a `gath` loads there as `ld` would (R66, R275, R281). -/
def State.bankBad (s : State) (q : Req) : List (Nat × Acc) :=
  q.accs.filterMap (fun a =>
    match s.bankAt q.ctx (clusterOf q.core) q.block ((s.apertureOff q.ctx a.addr).getD 0) a.bytes with
    | .error e => some (e, a)
    | .fifo _ => if q.fifoOk then none else some (0x04, a)
    | .scratch _ _ =>
      match q.kind with
      | .fld | .fset | .fclr => some (0x04, a)
      | .atom _ _ _ | .red _ _ => if q.inTx || (s.windowOf q.ctx a.addr).isSome then some (0x04, a) else none
      | _ => if q.inTx then some (0x04, a) else none)

/-- A request arrives at the bank that holds its bytes. -/
def State.arriveBank (s : State) (r : Nat) (q : Req) : State :=
  let cl := clusterOf q.core
  let bad := s.bankBad q
  let s := s.splitErrors r bad
  match s.req? r with
  | none => s
  | some q =>
    match q.accs with
    | [] => s.dropReq r
    | a0 :: _ =>
      let off (a : Nat) : Nat := ((s.apertureOff q.ctx a).getD 0) % 262144
      let t := s.gtimeAt (placeCluster cl)
      match s.bankAt q.ctx cl q.block ((s.apertureOff q.ctx a0.addr).getD 0) a0.bytes with
      | .error _ => s
      | .fifo b => (s.modBank cl b (fun k => { k with waiting := k.waiting ++ [r] })).modReq r (fun q => { q with st := .held })
      | .scratch b _ =>
        match q.kind with
        | .load _ | .gath _ =>
          let (accs, bad) := s.readAccs q (fun i n => ((s.cluster cl).bank b).get? (off (q.line * 192 + i)) n)
          s.loaded r accs bad none 0 0
        | .waiton c ty =>
          let v := ((s.cluster cl).bank b).get (off a0.addr) a0.bytes
          if (((s.cluster cl).bank b).get? (off a0.addr) a0.bytes).isNone then s.splitErrors r [(0x05, a0)]
          else if cmpInt c (intVal ty v) (intVal ty a0.data.toNat) then
            s.answered r 0 0 (fun a => { a with result := some (BitVec.ofNat 128 v) })
          else (s.modBank cl b (fun k => { k with waiting := k.waiting ++ [r] })).modReq r (fun q => { q with st := .held })
        | _ =>
          let (s, ok, bad, _) := performAccs q (bankCell cl b t off) s q.accs
          s.performed r ok bad t t t none

/-- An access of a FIFO request that has not been served. -/
def Acc.served (a : Acc) : Bool := a.pred
/-- The lanes of a FIFO request served as far as the queue allows, in ascending lane order (R68): pushes while it is not
full, pops while it is not empty. -/
def serveFifo (store : Bool) : List (BitVec 128) → List Acc → List (BitVec 128) × List Acc
  | f, [] => (f, [])
  | f, a :: rest =>
    if a.served then
      let (f, rest) := serveFifo store f rest
      (f, a :: rest)
    else if store then
      (if f.length < 16384 then
        let (f, rest) := serveFifo store (f ++ [a.data]) rest
        (f, { a with pred := true } :: rest)
      else (f, a :: rest))
    else
      match f with
      | [] => ([], a :: rest)
      | x :: f =>
        let (f, rest) := serveFifo store f rest
        (f, { a with pred := true, result := some x } :: rest)

/-- `FIFO_SERVE`: a bank in FIFO mode serves the first waiting request that it can (R68). -/
def execFifoServe (cluster bank : Nat) (s : State) : Out :=
  .next (
    let b := (s.cluster cluster).bank bank
    let can (r : Nat) : Bool := (s.req? r).any (fun q =>
      q.accs.any (fun a => !a.served) && (if q.kind = .store then b.fifo.length < 16384 else b.fifo ≠ []))
    match b.mode, b.waiting.find? can with
    | .fifo _ _, some r =>
      match s.req? r with
      | none => s
      | some q =>
        let (f, accs) := serveFifo (q.kind = .store) b.fifo q.accs
        let done := accs.all (·.served)
        let t := s.gtimeAt (placeCluster cluster)
        (s.modBank cluster bank (fun k =>
          { k with fifo := f, waiting := if done then k.waiting.filter (· ≠ r) else k.waiting })).modReq r (fun q =>
            { q with accs := accs, st := if done then .performed else .held, tcl := t, tdv := t, tsy := t })
    | _, _ => s)

/-! ### The range of a shootdown (R368) -/

/-- What an INVAL names: pages `lo` to `hi` of an ASID, and of ASID 0 unless it names the whole ASID. -/
structure Range where
  ctx : Nat
  asid : Nat
  lo : Nat
  hi : Nat
  whole : Bool
  deriving DecidableEq, Repr

def Range.asidIn (r : Range) (asid : Nat) : Bool := asid = r.asid || (asid = 0 && !r.whole)
/-- Some named page lies among the bytes from `a` to `b`. -/
def Range.meets (r : Range) (a b : Nat) : Bool := a / 4096 ≤ r.hi && r.lo ≤ b / 4096
/-- A line of the range under one of its ASIDs. -/
def Range.line (r : Range) (line asid : Nat) : Bool := r.asidIn asid && r.meets (line * 192) (line * 192 + 191)

/-- Every page of the ASID of a context. -/
def State.wholeRange (s : State) (x : Nat) : Range :=
  { ctx := x, asid := ((s.ctx? x).map (·.body.asid)).getD 0, lo := 0, hi := 2 ^ 45 - 1, whole := true }
/-- The range of an INVAL of a context: its start rounded down and its end up to 4 KiB. -/
def State.rangeOf (s : State) (x start bytes : Nat) (whole : Bool) : Range :=
  if whole then s.wholeRange x
  else { s.wholeRange x with
    lo := start % 2 ^ 57 / 4096, hi := (start + bytes - 1) % 2 ^ 57 / 4096, whole := false }

/-- An INVAL has started and has not come to the end of its step 4. -/
def Cmd.shooting (s : State) (x : Nat) (c : Cmd) : Option Range :=
  match c.instr with
  | .inval _ _ _ start bytes whole => if c.started && !c.done && (bytes ≠ 0 || whole) then some (s.rangeOf x start bytes whole) else none
  | _ => none

/-- An INVAL names the page of a request for a line: a request that arrives at its slice is held there until step 4 has finished (R368). Not
held are the requests of a gather, for whose range-lock entry step 2 waits, and what stands before one on its line (DEDUCED, log entry 100). -/
def State.invalHolds (s : State) (r : Nat) (q : Req) : Bool :=
  let asids (rg : Range) : Bool := rg.asid = q.asid ||
    (!rg.whole && (s.slice (s.homeOf q.ctx q.page)).lines.any (fun h => h.line = q.line && h.asid = 0 && h.hasPage q.page))
  let gathers (p : Req) : Bool := match p.kind with | .gath _ => true | _ => false
  (s.apertureOff q.ctx (q.line * 192)).isNone && !gathers q &&
    s.queues.any (fun e => e.2.cmds.any (fun c => (c.shooting s (s.queueCtx e.1)).any (fun rg =>
      ctxPart rg.ctx = ctxPart q.ctx && rg.lo ≤ q.page && q.page ≤ rg.hi && asids rg))) &&
    !s.reqs.any (fun e => gathers e.2 && r < e.1 && e.2.core = q.core && e.2.line = q.line)

/-! ### Arrival (R93, R96) -/

/-- Requests of one core to one home slice arrive in the order in which they leave the core, and one that was told to
retry keeps its place on its line (R96, R103). A shootdown holds the requests for its range (R368). -/
def State.mayArrive (s : State) (r : Nat) (q : Req) : Bool :=
  !s.invalHolds r q && s.reqs.all (fun e => e.1 = r || e.2.core ≠ q.core || e.2.kind = .ifetch || s.invalHolds e.1 e.2 ||
    ((e.2.st ≠ .sent || q.sentNo ≤ e.2.sentNo || s.homeOf e.2.ctx e.2.page ≠ s.homeOf q.ctx q.page) &&
     (e.2.st ≠ .retry || r < e.1 || e.2.line ≠ q.line || e.2.page ≠ q.page || e.2.view ≠ q.view)))

/-- `HOME_SLICE_REQUEST`: a request arrives at the place that performs it: the bank, the cluster cache or the home slice,
the target (R55, R66, R93, R271). -/
def execHomeSliceRequest (r : Nat) (s : State) : Out :=
  .next (match s.req? r with
  | none => s
  | some q =>
    if q.st ≠ .sent ∨ !s.mayArrive r q then s
    else if (s.apertureOff q.ctx (((q.accs.head?).map (·.addr)).getD (q.line * 192))).isSome then s.arriveBank r q
    else
      match q.kind with
      | .load _ | .gath _ | .prefetch => s.arriveLoad r q
      | .store | .atom _ _ _ | .red _ _ | .fset | .fclr => s.arriveWrite r q
      | .fld => s.arriveFld r q
      | .waiton c t => s.arriveWait r q c t
      | .ifetch => s)

/-- The line of a request is pinned and its core is outside the holder (R103). -/
def State.pinnedOut (s : State) (q : Req) : Bool := s.pinnedAt q.who q.line q.page

/-- `ACCESS_RETRY`: the access is repeated, and counted where a pin holds its line (R103). -/
def execAccessRetry (r : Nat) (s : State) : Out :=
  .next (match s.req? r with
  | none => s
  | some q =>
    if q.st ≠ .retry then s
    else
      let part := ((q.warp.bind s.warp?).map (·.part)).getD 0
      ((if s.pinnedOut q then s.bump (offCounter q.core (0x100 * part + 0x68)) 1 else s).modReq r (fun q => { q with st := .sent, sentNo := s.tick })).next)

/-- `WAITON_POLL`: a wait that is not registered reads its word again, every 1,024 ticks (R277). -/
def execWaitonPoll (r : Nat) (s : State) : Out :=
  .next (match s.req? r with
  | none => s
  | some q =>
    match q.kind with
    | .waiton c t =>
      let x := s.homeOf q.ctx q.page
      if q.st = .held ∧ r ∉ (s.slice x).waits ∧ q.due ≤ s.sliceTime q.who q.page ∧ (s.apertureOff q.ctx (q.line * 192)).isNone then
        s.arriveWait r q c t false
      else s
    | _ => s)

/-! ### Responses (R31 to R33, R61, R88, R94) -/

/-- The 64-bit address of a 57-bit one. -/
def signAddr (a : Nat) : DWord := (BitVec.ofNat 57 a).signExtend 64

/-- A free replay record of a warp (R32). -/
def Warp.freeReplay (wp : Warp) : Option Nat := (upTo 8).find? (fun i => (mapGet? wp.replays i).isNone)

/-- Lanes of a request that have not exited. -/
def Warp.liveOf (wp : Warp) (m : Mask) : List Nat := (maskLanes m).filter (fun l => (wp.lane? l).any (fun la => la.st ≠ .exited))

/-- The lowest lane of a mask. -/
def lowLane (m : Mask) : Nat := (maskLanes m).headD 32

/-- A part of an access whose page has faulted (`reason` 0) or that has failed joins the access's replay record: its lanes,
addresses and data, and the page that it waits on or the reason of its lanes (R31, R33, R88). -/
def Replay.join (rp : Replay) (q : Req) (rest : List Nat) (reason : Nat) : Replay :=
  let accs := q.accs.filter (fun a => a.lane ∈ rest ∨ q.uni ≠ 0)
  let m := lanesMask rest
  { req := { rp.req with accs := rp.req.accs.filter (fun a => accs.all (fun b => b.lane ≠ a.lane)) ++ accs }
    lanes := rp.lanes ||| m
    waits := if reason = 0 then q.page :: rp.waits.filter (· ≠ q.page) else rp.waits
    fails := if reason = 0 then rp.fails else rest.foldl (fun f l => mapSet f l reason) rp.fails
    faddr := if rp.lanes = 0 || lowLane m < lowLane rp.lanes then signAddr ((accs.head?.map (·.addr)).getD 0) else rp.faddr }

/-- A record before any part of its access has joined it. -/
def Replay.empty (q : Req) : Replay :=
  { req := { q with accs := [], replay := none, slot := none, fill := none }, lanes := 0, waits := [], fails := [], faddr := 0 }

/-- The record of the access that a request is a part of: the one it replays, or that of its instruction. -/
def Warp.recordOf (wp : Warp) (q : Req) : Option Nat :=
  match q.replay with
  | some i => some i
  | none => (wp.replays.find? (fun e => e.2.req.group = q.group)).map (·.1)

/-- A response that is a fault or an error reaches the warp: lanes in a transaction abort (R83), the others are held by the
replay record of their access, at which they park (R31, R88). Lanes that have exited hold on only to a write, which still
completes (R229). A request that no record is free for stays until one is (R32). What a failed write has put into the L1 is
dropped (R88). -/
def State.toReplay (s : State) (r : Nat) (q : Req) (w : Nat) (reason : Nat) : State :=
  match s.warp? w with
  | none => s.dropReq r
  | some wp =>
    let live := if q.kind.writes && reason = 0 then maskLanes q.lanes else wp.liveOf q.lanes
    let inTx := if q.inTx then wp.inTx live else []
    let rest := live.filter (fun l => l ∉ inTx)
    let s0 := s
    let s := if q.kind.writes && reason ≠ 0 then s.dropCopies [q.core] (clusterOf q.core) q.line q.asid q.view else s
    let s := s.abortLanes w inTx (if reason = 0 then 0x06 else 0x08) 0
    let gone := q.lanes &&& ~~~(lanesMask rest)
    if rest = [] then (s.dropReq r).lanesDone w q.group q.kind q.lanes
    else
      match (wp.recordOf q).or wp.freeReplay with
      | none => s0
      | some i =>
        let rp := (mapGetD wp.replays i (Replay.empty q)).join q rest reason
        ((s.modWarp w (fun wp => { wp with replays := mapSet wp.replays i rp })).dropReq r).lanesDone w q.group q.kind gone

/-- A request is over: what joined it takes its values from the fill, or looks for its line anew (R62). A fill that was read before
a request joined it serves that request as an L1 hit would: while its lease runs (R95, R98; DEDUCED, log entry 117). -/
def State.endReq (s : State) (r : Nat) (fill : Option Fill) : State :=
  let joined := s.reqs.filter (fun e => e.2.st = .joined r)
  let readNo := ((s.req? r).map (·.readNo)).getD 0
  joined.foldl (fun s e =>
    match fill with
    | some f =>
      if e.2.chunks.all (fun c => f.valid.getLsbD c) && (e.2.sentNo < readNo || s.gtimeAt (placeCore e.2.core) < f.expL1) then
        let (accs, bad) := s.readAccs e.2 (fun i n => some (lineGet f.data i n))
        (s.loaded e.1 accs bad none f.tldv f.tlsy).modReq e.1 (fun q => { q with exp := f.expL1 })
      else s.modReq e.1 (fun q => { q with st := .waiting })
    | none => s.modReq e.1 (fun q => { q with st := .waiting })) (s.dropReq r)

/-- … where it has left the list of requests. -/
def State.endGone (s : State) (r : Nat) : State := if (s.req? r).isSome then s else s.endReq r none

/-- Release lanes of a gather: destinations written, lanes runnable at the next word on the next clock (R78, R325). -/
def State.gatherRelease (s : State) (n : Nat) (ga : Gather) (ls : Mask) : State :=
  let clock := ((s.warp? ga.warp).map (fun wp => s.clock wp.core)).getD 0
  let s := s.modLanes ga.warp (maskLanes ls) (fun la =>
    if la.st = .gath n then { la with st := .runnable, pc := ga.pc + 16, readyAt := clock + 1 } else la)
  let s := (maskLanes ls).foldl (fun s l =>
    s.writeDst ga.warp l (.v ga.dst) (32 * ga.regs) (mapGetD ga.vals l 0).toNat) s
  let left := ga.lanes &&& ~~~ls
  let s := s.modWarp ga.warp (fun wp => wp.clearPend ga.group ls)
  if left ≠ 0 then
    { s with gathers := mapSet s.gathers n { ga with lanes := left, released := ga.released + 1 } }
  else
    let s := match ga.lock with
      | some (c, i) => s.modCluster c (fun cl => { cl with locks := mapErase cl.locks i })
      | none => s
    let s := { s with gathers := mapErase s.gathers n }
    if s.outstanding ga.warp ga.group then s
    else s.modWarp ga.warp (fun wp =>
      { wp with ctrLd := wp.ctrLd - 1, acquire := wp.acquire.filter (fun e => e.2 ≠ ga.group) })

/-- Lanes of a gather that have left it otherwise, by a trap or an exit, are no longer waited for. -/
def State.gatherStill (s : State) (n : Nat) (ga : Gather) : Mask :=
  lanesMask ((maskLanes ga.lanes).filter (fun l => (s.lane? ga.warp l).any (fun la => la.st = .gath n)))

/-- When the last lane's data has arrived, every remaining lane is released (R78, R325). -/
def State.gatherFinal (s : State) (n : Nat) : State :=
  match mapGet? s.gathers n with
  | none => s
  | some ga =>
    let ga := { ga with lanes := s.gatherStill n ga }
    if ga.lanes &&& ~~~ga.arrived = 0 then s.gatherRelease n ga ga.lanes else s

/-- The values of a performed request reach their lanes, its times the horizons, and the request is over (R94, R232). -/
def State.complete (s : State) (r : Nat) (q : Req) (w : Nat) : State :=
  let s := q.accs.foldl (fun s a => s.deliver w q a) s
  let s := s.noteSpec w q q.exp
  let s := s.modWarp w (fun wp => wp.merge q.tcl q.tdv q.tsy)
  let s := s.endReq r q.fill
  match q.kind with
  | .gath g => s.gatherFinal g
  | _ =>
    let popped := (maskLanes q.lanes).filter (fun l => (s.lane? w l).any (fun la => la.st = .memWait q.group))
    let s := if popped = [] || !q.kind.returns then s else s.acquire w (lanesMask popped)
    let done := s.lanesDone w q.group q.kind q.lanes
    if done.outstanding w q.group then done
    else done.modWarp w (fun wp => { wp with lanes := wp.lanes.map (fun la => la.wake q.group) })

/-- Keep a fill in the caches that its hint names (R63): the cluster cache and the L1. `none`: every way of a set is excluded, and
the fill waits (R71). -/
def State.keepFill (s : State) (q : Req) : Option State :=
  match q.fill with
  | none => some s
  | some f =>
    ((if q.keepCc then s.fillCc (clusterOf q.core) (q.copy f f.expCc s.tick) else some s)).bind (fun s =>
      if q.keep then s.next.fillL1 q.core (q.copy f f.expL1 s.tick) else some s)

/-- `FILL_ARRIVE`: a fill or response arrives at the core, an L1 hit's data on its clock: loaded values return, or a fault or an error
holds the lanes (R31, R61, R88, R94, R325). -/
def execFillArrive (r : Nat) (s : State) : Out :=
  .next (match s.req? r with
  | none => s
  | some q =>
    if q.kind = .ifetch ∨ q.hitAt.any (fun c => s.clock q.core < c) then s
    else
      match q.st, q.warp with
      | .performed, some w => if q.kind.returns then ((s.keepFill q).map (fun s => s.complete r q w)).getD s else s
      | .performed, none => if q.kind.returns then ((s.keepFill q).map (fun s => s.endReq r q.fill)).getD s else s
      | .faulted _, some w => (s.toReplay r q w 0).endGone r
      | .error e, some w => (s.toReplay r q w e).endGone r
      | .faulted _, none | .error _, none => s.endReq r none
      | _, _ => s)

/-- `WRITE_ACK`: an acknowledgement arrives: its times merge into the warp's horizons (R94, R232). -/
def execWriteAck (r : Nat) (s : State) : Out :=
  .next (match s.req? r with
  | none => s
  | some q =>
    match q.st, q.warp with
    | .performed, some w => if q.kind.returns then s else s.complete r q w
    | .performed, none => if q.kind.returns then s else s.dropReq r
    | _, _ => s)

/-- `HOST_PEER_WRITE_ACK`: host copies are recalled, or the host or a peer acknowledges the write: tx, and so Tsy, is
known (R93); a type 2 write takes the time of its acknowledgement for all three. -/
def execHostPeerWriteAck (r : Nat) (s : State) : Out :=
  .next (match s.req? r with
  | none => s
  | some q =>
    let t := s.sliceTime q.who q.page
    match q.st with
    | .ackWait true => s.modReq r (fun q => { q with st := .performed, tcl := t, tdv := t, tsy := t })
    | .ackWait false =>
      (s.noteTsy q.who q.line q.page (max q.tdv t)).modReq r (fun q =>
        { q with st := .performed, tsy := max q.tsy (max q.tdv t) })
    | _ => s)

/-- Requests that waited for a release may start. -/
def State.startFenced (s : State) (n : Nat) : State :=
  { s with reqs := s.reqs.map (fun e => if e.2.st = .fenced n then (e.1, { e.2 with st := .waiting }) else e)
           fences := mapErase s.fences n }

/-- A request of a load that a group performed ahead of a speculative fence. -/
def FenceOp.aheadReq (f : FenceOp) (q : Req) : Bool :=
  q.warp = some f.warp && f.born ≤ q.group && q.kind.returns && q.lanes &&& f.lanes ≠ 0 && q.group ∉ f.loads

/-- The group rolls back: what the speculated instructions wrote is restored, their loads are dropped, and the lanes go on at
the fence's PC + 16 (R101). -/
def State.rollback (s : State) (f : FenceOp) : State :=
  let m := f.lanes
  let young := s.reqs.filter (fun e => f.aheadReq e.2)
  let s := young.foldl (fun s e =>
    let rest := e.2.accs.filter (fun a => !m.getLsbD a.lane)
    (if rest = [] then s.endReq e.1 none else s.modReq e.1 (fun q => { q with accs := rest })).lanesDone f.warp e.2.group e.2.kind m) s
  let s := f.saved.foldl (fun s e => s.modLane f.warp e.1 (fun la =>
    if la.st = .runnable then { la with regs := e.2.regs, preds := e.2.preds, pc := e.2.pc } else la)) s
  match s.warp? f.warp with
  | none => s
  | some wp => s.bump (offCounter wp.core (0x100 * wp.part + 0x60)) 1

/-- A speculative fence is undone: its group rolls back to the fence itself, which issues again (R101). -/
def State.undoFence (s : State) (n : Nat) : State :=
  match mapGet? s.fences n with
  | none => s
  | some f => ((s.startFenced n).rollback f).modLanes f.warp (f.saved.map (·.1)) (fun la =>
      if la.st = .runnable then { la with pc := f.pc } else la)

/-- Nothing of a record's access waits on a page, and no lane of it has failed. -/
def Replay.replaying (rp : Replay) : Bool := rp.waits = [] && rp.fails = []

/-- `REPLAY_COMPLETE`: the replayed access has completed: its record is freed and its lanes unpark at their park point
(R33). -/
def execReplayComplete (w i : Nat) (s : State) : Out :=
  .next (match (s.warp? w).bind (fun wp => mapGet? wp.replays i) with
  | none => s
  | some rec =>
    if !rec.replaying ∨ s.reqs.any (fun e => e.2.warp = some w && e.2.replay = some i) then s
    else
      (s.modWarp w (fun wp =>
        { wp with replays := mapErase wp.replays i,
                  lanes := wp.lanes.map (fun la => if la.st = .faultPark i then { la with st := .runnable } else la) })).lanesDone w
        rec.req.group rec.req.kind rec.lanes)

end Sys2Proof.Machine
end

