-- ==== Sys2Proof/Machine/CodeFetch.lean ====
section
/-! DEFINITION. Instruction fetch: the L1 instruction cache, demand requests and prefetches, fetch faults, `ipf`, `icinv` and
`ifence` (R35, R236 to R238, R319 to R323, R383). -/

namespace Sys2Proof.Machine

/-- A request for an instruction line of a core, for a party of a context, an ASID and a view. -/
def fetchReq (s : State) (k ctx asid view : Nat) (block : Option Nat) (addr : Nat) (demand : Bool) : Req :=
  { kind := .ifetch, st := .sent, ctx := ctx, asid := asid, view := view, core := k, warp := none, block := block,
    line := lineOf addr, page := pageOf addr,
    accs := [{ lane := 0, addr := addr, bytes := 16, data := 0, result := none, pred := false }], uni := 0, dst := .none,
    bits := 0, pd := 7, hint := 0, scope := .wp, pin := false, rel := false, inTx := false, demand := demand, keep := true, keepCc := true,
    lookAt := 0, hitAt := none, exp := 0, readNo := 0, slot := none,
    sentNo := s.tick, pc := BitVec.ofNat 57 addr, tcl := 0, tdv := 0, tsy := 0, fill := none, replay := none, group := s.tick,
    due := 0, word := 0 }

/-- Fetch requests pending on a core, and one for a line. -/
def State.fetches (s : State) (k : Nat) : List (Nat × Req) := s.reqs.filter (fun e => e.2.core = k && e.2.kind = .ifetch)
def State.fetchPending (s : State) (k line asid view : Nat) : Bool :=
  (s.fetches k).any (fun e => e.2.line = line && e.2.asid = asid && e.2.view = view)

/-- A 16-byte chunk is valid in the L1 instruction cache of a core. -/
def State.chunkFetched (s : State) (k asid view addr : Nat) : Bool := (s.icacheWord k asid view (BitVec.ofNat 57 addr)).isSome

/-- The parties of a core that wait for a line: lanes by warp, and sequencers, with the address each waits for. -/
structure FetchWaiter where
  warp : Option Nat
  lane : Nat
  tenant : Option Nat
  block : Nat
  addr : Nat
  deriving DecidableEq, Repr

/-- Every runnable lane and sequencer of a core whose word is not in the L1 instruction cache. -/
def State.fetchWaiters (s : State) (k : Nat) : List FetchWaiter :=
  (s.warps.flatMap (fun e =>
    if e.2.core ≠ k then [] else
      (upTo 32).filterMap (fun l =>
        match e.2.lane? l with
        | some la =>
          if la.st = .runnable && !s.chunkFetched k (s.asidOf e.2.block) (s.viewOf e.2.block) la.pc.toNat then
            some { warp := some e.1, lane := l, tenant := none, block := e.2.block, addr := la.pc.toNat }
          else none
        | none => none))) ++
  (s.tenants.filterMap (fun e =>
    if e.2.core = k && e.2.st = .running && !s.chunkFetched k (s.asidOf e.2.block) (s.viewOf e.2.block) e.2.pc.toNat then
      some { warp := none, lane := 0, tenant := some e.1, block := e.2.block, addr := e.2.pc.toNat }
    else none))

/-- The waiters of a core that a fetch request serves. -/
def State.waitersOf (s : State) (q : Req) : List FetchWaiter :=
  (s.fetchWaiters q.core).filter (fun v =>
    s.asidOf v.block = q.asid && s.viewOf v.block = q.view && lineOf v.addr = q.line && pageOf v.addr = q.page)

/-- Request a line as a prefetch, unless it is valid or pending or no fetch slot is free (R321). -/
def State.prefetchLine (s : State) (k ctx asid view : Nat) (block : Option Nat) (addr : Nat) : State :=
  if s.chunkFetched k asid view addr || s.fetchPending k (lineOf addr) asid view || 8 ≤ (s.fetches k).length then s
  else (s.addReqs [fetchReq s k ctx asid view block addr false]).next

/-- `IFETCH_REQUEST`: a demand request for a line of a core leaves it, and the next line is prefetched (R320, R321). -/
def execIfetchRequest (k line : Nat) (s : State) : Out :=
  .next (match (s.fetchWaiters k).find? (fun v =>
      lineOf v.addr = line && !s.fetchPending k line (s.asidOf v.block) (s.viewOf v.block)) with
  | none => s
  | some v =>
    if 8 ≤ (s.fetches k).length then s
    else
      let x := s.ctxIdOf v.block
      let a := s.asidOf v.block
      let u := s.viewOf v.block
      let s := (s.addReqs [fetchReq s k x a u (some v.block) v.addr true]).next
      s.prefetchLine k x a u (some v.block) ((line + 1) * 192))

/-- Keep a fill in the L1 instruction cache: 128 sets of 4 ways, least recently used, no lease (R319). -/
def State.fillL1i (s : State) (q : Req) (f : Fill) : State :=
  (s.modCore q.core (fun c =>
    { c with l1i := (putCopy c.l1i 128 0 (upTo 4) false (fun _ => false) { q.copy f 1 s.tick with hint := 0 }).getD c.l1i })).next

/-- A fetch reads a line of the L1 instruction cache: it is the most recently used of its set (R319). -/
def State.touchL1i (s : State) (k asid view : Nat) (pc : PC) : State :=
  (s.modCore k (fun c => { c with l1i := c.l1i.map (fun d =>
    if d.hits (lineOf pc.toNat) asid view then { d with lastUse := s.tick } else d) })).next

/-- Every lane or sequencer that a fetch request serves takes ACCESS at its own PC (R323, step 7). -/
def State.fetchError (s : State) (q : Req) (reason : Nat) : State :=
  (s.waitersOf q).foldl (fun s v =>
    let pc := BitVec.ofNat 57 v.addr
    match v.warp, v.tenant with
    | some w, _ => s.trapLane w v.lane (.access pc (pc.signExtend 64) reason)
    | none, some t => s.tenantFault t 0x03 reason pc (pc.signExtend 64)
    | none, none => s) s

/-- The chunks of a page of a line, read from a target of type 2. -/
def State.targetLine (s : State) (line page frame : Nat) : Line :=
  (upTo 12).foldl (fun d i =>
    if linePage line (16 * i) = page then lineSet d (16 * i) 16 (s.targetRead (physOf frame (line * 192 + 16 * i)) 16) else d) 0

/-- `IFETCH_FILL`: the fill of a fetch request arrives, from the cluster cache or the home slice: the chunks become valid
together; a prefetch that fails is dropped, a demand request that fails its walk is a fetch fault (R320 to R323). A shootdown holds it at
the slice (R368). -/
def execIfetchFill (r : Nat) (s : State) : Out :=
  .next (match s.req? r with
  | none => s
  | some q =>
    if q.kind ≠ .ifetch ∨ q.st ≠ .sent then s
    else
      let done (s : State) (f : Fill) : State :=
        let s := if q.keep && q.keepCc then (s.fillCc (clusterOf q.core) (q.copy f f.expCc s.tick)).getD s else s
        (if q.keep then s.fillL1i q f else s).dropReq r
      match s.ccCopy q with
      | some d =>
        done s { data := d.data, valid := d.valid, expCc := 0, expL1 := 0, tldv := d.tldv, tlsy := d.tlsy, leafs := d.leafs }
      | none =>
        if s.invalHolds r q then s
        else
          match s.home q.who q.line q.page false q.hint with
          | (s, .retry) => s
          | (s, .full) => s
          | (s, .drop) => s.dropReq r
          | (s, .fault reason) => if q.demand then s.faultReq r q reason else s.dropReq r
          | (s, .error e) =>
            if q.demand then ((s.logError q.ctx q.pc.toNat e (0x4000 + s.homeOf q.ctx q.page)).fetchError q e).dropReq r
            else s.dropReq r
          | (s, .target f) =>
            let leaf := ((s.slice (s.homeOf q.ctx q.page)).tlb? q.asid q.page).map (·.leaf)
            done s { data := s.targetLine q.line q.page f, valid := lineChunks q.line q.page, expCc := 0, expL1 := 0, tldv := 0,
                     tlsy := 0, leafs := [(q.page, leaf.getD 0)] }
          | (s, .ok mt) =>
            match s.homeRead q.who q.line q.page (q.pc.toNat - q.line * 192) 16 with
            | none =>
              if q.demand then ((s.logError q.ctx q.pc.toNat 0x05 (0x4000 + s.homeOf q.ctx q.page)).fetchError q 0x05).dropReq r
              else s.dropReq r
            | some _ =>
              match s.supply q.who q mt with
              | (s, some f) => done s f
              | (s, none) => s.dropReq r)

/-- `FETCH_FAULT`: the groups that wait for the word park at their PC, and a sequencer parks (R323, R148). -/
def execFetchFault (r : Nat) (s : State) : Out :=
  .next (match s.req? r with
  | none => s
  | some q =>
    match q.kind, q.st with
    | .ifetch, .faulted _ =>
      ((s.waitersOf q).foldl (fun s v =>
        match v.warp, v.tenant with
        | some w, _ => s.modLane w v.lane (fun la => { la with st := .fetchPark q.page })
        | none, some t => s.modTenant t (fun te => { te with st := .faultPark q.page })
        | none, none => s) s).dropReq r
    | _, _ => s)

/-- `ipf label, n` (R236): n lines from the one that holds the label. -/
def execIpf (h : Hdr) (n : BitVec 5) (off : Word) (s : State) : Out :=
  .next (onGroup h 0 s (fun g G s =>
    let t := (target g.pc off).toNat
    let b := g.wp.block
    ((upTo n.toNat).foldl (fun s i =>
      s.prefetchLine g.wp.core (s.ctxIdOf b) (s.asidOf b) (s.viewOf b) (some b) (lineOf t * 192 + 192 * i)) s).stepLanes g.w G))

/-- Whether the page of an address is global, as far as a translation with no effect tells it. -/
def State.peekGlobal (s : State) (p : Who) (page : Nat) : Option Bool :=
  match (s.translate { p with demand := false } page false).2 with
  | .ok _ _ leaf => some (pteG leaf)
  | _ => none

/-- Drop the lines of a core's L1 instruction cache that overlap [b, b + len) under an ASID or ASID 0, in any view; a fill
pending for such a line installs nothing (R237, R320). -/
def State.dropCode (s : State) (k asid b len : Nat) : State :=
  if len = 0 then s
  else
    let covers (line : Nat) : Bool := line * 192 < b + len && b < line * 192 + 192
    let s := s.modCore k (fun c => { c with l1i := c.l1i.filter (fun d => !((d.asid = asid || d.asid = 0) && covers d.line)) })
    { s with reqs := s.reqs.map (fun e =>
        if e.2.core = k && e.2.kind = .ifetch && covers e.2.line &&
            (e.2.asid = asid || s.peekGlobal e.2.who e.2.page ≠ some false) then (e.1, { e.2 with keep := false }) else e) }

/-- `icinv [b], len` (R237). -/
def execIcinv (h : Hdr) (b len : Opd) (s : State) : Out :=
  .next (onGroup h (max (b.top 64) (len.top 32)) s (fun g G s =>
    (G.foldl (fun s' l =>
      let r := s.laneRegs g l
      s'.dropCode g.wp.core (s.asidOf g.wp.block) (va57 (BitVec.ofNat 64 (r.src64 b))) (r.src32 len)) s).stepLanes g.w G))

/-- `ifence` (R238): every older `icinv` is complete; an acquire; the next fetches read the L1 instruction cache afresh. -/
def execIfence (h : Hdr) (s : State) : Out :=
  .next (onGroup h 0 s (fun g G s => (s.acquire g.w (lanesMask G)).stepLanes g.w G))

end Sys2Proof.Machine
end

