-- ==== Sys2Proof/Machine/Access.lean ====
section
/-! DEFINITION. What the memory instructions share at issue: the checks of a lane's address, the operations that a world
queues, the requests of a group by line and page, L1 hits, pending registers, releases and acquires (R60 to R62, R76, R82,
R83, R97 to R99, R106, R174, R262 to R265). -/

namespace Sys2Proof.Machine

/-! ### Checks of a lane's address (R263) -/

/-- A range-lock entry of a cluster that an access of `n` bytes at `a` conflicts with (R76): its number and the entry. Addresses of
two address spaces do not meet: an entry counts for its own ASID (DESIGN CHOICE, log entry 118). -/
def Cluster.lockHit (c : Cluster) (asid view a n : Nat) (writes : Bool) : Option (Nat × RangeLock) :=
  c.locks.find? (fun e =>
    e.2.view = view && e.2.asid = asid && e.2.lo / 16 ≤ (a + n - 1) / 16 && a / 16 ≤ e.2.hi / 16 && (e.2.dest || writes))

/-- `%tinfo` of a RANGE trap (R76). -/
def lockInfo (e : Nat × RangeLock) : DWord := BitVec.ofNat 64 (e.1 + 32 * e.2.kind + (if e.2.dest then 256 else 0))

/-- How an access of a world is treated (Table 7.5). -/
inductive Escape where
  | perform | queue | wesc
  deriving DecidableEq, Repr

/-- The memory type of the page of an address, as the access itself would find it: the tags of the home slice's copy, or a
translation that may set the accessed bit; nothing is changed (R174: WESC is taken before the access is performed). -/
def State.typeAt (s : State) (p : Who) (a : Nat) : Option Nat :=
  match (s.copyAt p (lineOf a) (pageOf a)).bind (fun h => mapGet? h.tags (pageOf a)) with
  | some t => some t.mtype
  | none =>
    match (s.translate { p with demand := true } (pageOf a) false).2 with
    | .ok _ mt _ => some mt
    | _ => none

/-- Table 7.5 for an access of a kind at an address. A gather and a load with acquire count as loads (DESIGN CHOICE, log entry 122). -/
def State.escapeOf (s : State) (p : Who) (k : AccKindM) (a : Nat) : Escape :=
  if p.view = 0 then .perform
  else
    match s.apertureOff p.ctx a with
    | some o =>
      match ((s.cluster p.cluster).bank (o / 262144)).mode with
      | .fifo w port =>
        if w = p.ctx ∧ port / 16 = o / 16 then (if k = .store then .queue else if k = .load false then .wesc else .perform)
        else .perform
      | _ => .perform
    | none =>
      if (match k with | .red _ _ | .atom _ _ false => true | _ => false) && (s.windowOf p.ctx a).isSome then .queue
      else
        match s.typeAt p a with
        | some 2 => if k.queues then .queue else .wesc
        | some 3 => if k.queues then .queue else (match k with | .load _ | .gath _ => .perform | _ => .wesc)
        | _ => .perform

/-- The outcome of the checks of a lane's address. -/
inductive LaneChk where
  | trap (t : Trap)
  | ok (a : Nat) (e : Escape)
  deriving DecidableEq, Repr

/-- A `red.add.f32` to an FP32 window, whose elements are 8 bytes (R86). -/
def State.wideRed (s : State) (p : Who) (k : AccKindM) (a : Nat) : Bool :=
  k = .red .add .f32 && (s.windowOf p.ctx a).any (fun e => e.2.fp32)

/-- Checks 1 to 4 of R263 for one lane: canonical, aligned, no range lock, no world escape. -/
def State.checkLane (s : State) (p : Who) (pc : PC) (k : AccKindM) (a : DWord) (bytes align : Nat) : LaneChk :=
  if !canonical a then .trap (.access pc a 0x06)
  else if a.toNat % (if s.wideRed p k (va57 a) then 8 else align) ≠ 0 then .trap (.misalign pc a)
  else
    match (s.cluster p.cluster).lockHit p.asid p.view (va57 a) bytes k.writes with
    | some e => .trap { cause := 0x04, pc := pc, addr := some a, info := lockInfo e, resume := pc }
    | none =>
      match s.escapeOf p k (va57 a) with
      | .wesc => .trap { cause := 0x05, pc := pc, addr := some a, info := 0, resume := pc }
      | e => .ok (va57 a) e

/-! ### Requests of a group -/

/-- What a memory instruction asks for: kind, width in bytes, alignment, destination with its width, predicate, hint,
scope, whether it pins, and whether a release comes first. -/
structure MemI where
  kind : AccKindM
  bytes : Nat
  align : Nat
  dst : Dst
  bits : Nat
  pd : BitVec 3
  hint : BitVec 2
  scope : Scope
  pin : Bool
  rel : Bool
  deriving DecidableEq, Repr

/-- For whom the lanes of a group access memory. -/
def State.whoOf (s : State) (g : Grp) : Who :=
  { ctx := s.ctxIdOf g.wp.block, asid := s.asidOf g.wp.block, view := s.viewOf g.wp.block, cluster := clusterOf g.wp.core,
    core := some g.wp.core, lockTx := none, lockView := none, demand := (s.specFence g.w (lanesMask g.lanes)).isNone,
    fetch := false }

/-- The request for some accesses that lie in one page of one line. -/
def mkReq (g : Grp) (p : Who) (i : MemI) (group : Nat) (uni : Mask) (inTx : Bool) (accs : List Acc) : Req :=
  let a := (accs.head?.map (·.addr)).getD 0
  { kind := i.kind, st := .waiting, ctx := p.ctx, asid := p.asid, view := p.view, core := g.wp.core, warp := some g.w,
    block := some g.wp.block, line := lineOf a, page := pageOf a, accs := accs, uni := uni, dst := i.dst, bits := i.bits,
    pd := i.pd, hint := i.hint, scope := i.scope, pin := i.pin, rel := i.rel, inTx := inTx, demand := p.demand, keep := true,
    keepCc := true, lookAt := g.wp.agu.lookAt, hitAt := none, exp := 0, readNo := 0, slot := none, sentNo := 0, pc := g.pc, tcl := 0, tdv := 0, tsy := 0, fill := none, replay := none, group := group, due := 0, word := 0 }

/-- Group accesses by line and page, in the order of their first lanes (R58, R62); a wait, a future load or a FIFO access
stands alone or keeps its group by line as well. -/
def groupAccs (alone : Bool) : List Acc → List (List Acc)
  | [] => []
  | a :: rest =>
    let gs := groupAccs alone rest
    if alone then [a] :: gs
    else
      let same (b : Acc) : Bool := lineOf b.addr = lineOf a.addr && pageOf b.addr = pageOf a.addr
      match gs.find? (fun l => l.head?.any same) with
      | some l => (a :: l) :: gs.filter (fun m => !(m.head?.any same))
      | none => [a] :: gs

/-- Each lane's request stands alone for waits and future loads (R276, R80). -/
def AccKindM.alone (k : AccKindM) : Bool :=
  match k with
  | .fld | .waiton _ _ => true
  | _ => false

/-- Registers from one on that a destination of a width names. -/
def regRange (n bits : Nat) : List Nat := (upTo (max 1 (bits / 32))).map (fun i => n + i)

/-- The registers of an access become pending until its instruction is done (R46): the promise of a producer steered thrifty is that of
its AGU operation (R50). -/
def Warp.addPend (wp : Warp) (lanes : Mask) (i : MemI) (group clock : Nat) (pc : PC) : Warp :=
  if lanes = 0 then wp
  else
    let p : Pend :=
      { lanes := lanes
        vregs := (match i.dst with | .v n => regRange n.toNat i.bits | _ => [])
        sregs := (match i.dst with | .s n => regRange n.toNat i.bits | _ => [])
        preds := (match i.kind with | .fld | .fset => [i.pd.toNat] | _ => [])
        done := none, unit := .agu, thrifty := wp.agu.thrifty, promise := wp.agu.promise, slk := wp.agu.slk, pc := pc, issued := clock,
        req := some group }
    { wp with pend := wp.pend ++ [p] }

/-- The FIFO ports of a context: an access at one waits for its turn (R68). -/
def State.atPort (s : State) (p : Who) (a : Nat) : Bool :=
  match s.apertureOff p.ctx a with
  | none => false
  | some o =>
    match ((s.cluster p.cluster).bank (o / 262144)).mode with
    | .fifo w port => w = p.ctx && port / 16 = o / 16
    | _ => false

/-- Lanes whose accesses of an instruction are still open. -/
def State.openLanes (s : State) (w group : Nat) : Mask :=
  s.reqs.foldl (fun m e => if e.2.warp = some w && e.2.group = group then m ||| e.2.lanes else m) 0

/-- Start an instruction's requests as loads: they are on their way to their L1 lookup, their registers pending, and the ld counter
counts the instruction (R46, R47, R232). -/
def State.startLoads (s : State) (g : Grp) (i : MemI) (group : Nat) (qs : List Req) : State :=
  let s := s.addReqs qs
  let op := s.openLanes g.w group
  if op = 0 then s
  else s.modWarp g.w (fun wp => (wp.addPend op i group (s.clock g.wp.core) g.pc).count i.kind true)

/-- Start an instruction's requests as writes, at once or once release `fence` has completed: pending registers and the
counter of the instruction (R46, R232). -/
def State.startWrites (s : State) (g : Grp) (i : MemI) (group : Nat) (fence : Option Nat) (qs : List Req) : State :=
  if qs = [] then s
  else
    let qs := qs.map (fun q => match fence with
      | some f => { q with st := .fenced f }
      | none => q)
    let s := s.addReqs qs
    s.modWarp g.w (fun wp => (wp.addPend (s.openLanes g.w group) i group (s.clock g.wp.core) g.pc).count i.kind true)

/-! ### Releases (R97, R99, R106) -/

/-- A release or fence of lanes begins (R97); `after` says what the lanes do when it completes; a speculative fence saves lanes
(R100). The answer is its number. -/
def State.beginFence (s : State) (g : Grp) (G : List Nat) (kind : Kind) (scope : Scope) (after : AfterRel) (spec : Bool := false)
    (saved : NatMap Lane := []) : State × Nat :=
  let m := lanesMask G
  let f : FenceOp :=
    { warp := g.w, lanes := m, kind := kind, scope := scope, spec := spec, pc := g.pc, after := after, step := 1,
      loads := s.openLoads g.w m, writes := s.openWrites g.w m, born := s.tick, issued := 0, saved := saved, specLines := [],
      back := false, until_ := 0 }
  let n := s.tick
  ({ s with fences := s.fences ++ [(n, f)] }.next, n)

/-- A release that holds no lane. -/
def State.beginRelease (s : State) (g : Grp) (G : List Nat) (scope : Scope) : State × Nat :=
  s.beginFence g G .rel scope .nothing

/-- A release that holds its lanes at their word until it completes. -/
def State.holdRelease (s : State) (g : Grp) (G : List Nat) (kind : Kind) (scope : Scope) (after : AfterRel) : State :=
  let (s, f) := s.beginFence g G kind scope after
  s.modLanes g.w G (fun la => { la with hold := .fence f })

/-- … where an ordering kind has a release half (R99). -/
def State.releaseFor (s : State) (g : Grp) (G : List Nat) (kind : Kind) (scope : Scope) : State × Option Nat :=
  match kind with
  | .rel | .ar =>
    let (s, f) := s.beginRelease g G scope
    (s, some f)
  | _ => (s, none)

/-- … and an acquire half: the lanes' younger memory instructions wait for the open loads and for the instruction itself
(R98, R99). -/
def State.acquireFor (s : State) (g : Grp) (G : List Nat) (kind : Kind) (group : Nat) : State :=
  match kind with
  | .acq | .ar =>
    let s := s.acquire g.w (lanesMask G)
    if s.outstanding g.w group then s.modWarp g.w (fun wp => { wp with acquire := wp.acquire ++ [(lanesMask G, group)] }) else s
  | _ => s

/-! ### The instruction at issue -/

/-- Lanes, addresses and what becomes of them after the checks of R263. -/
structure Checked where
  traps : List (Nat × Trap)
  perform : List (Nat × Nat)
  queue : List (Nat × Nat)
  deriving DecidableEq, Repr

/-- The checks of R263 for every lane of G. -/
def State.checkLanes (s : State) (g : Grp) (p : Who) (m : MAddr) (i : MemI) (G : List Nat) : Checked :=
  G.foldl (fun c l =>
    match s.checkLane p g.pc i.kind ((s.laneRegs g l).addr m) i.bytes i.align with
    | .trap t => { c with traps := c.traps ++ [(l, t)] }
    | .ok a .queue => { c with queue := c.queue ++ [(l, a)] }
    | .ok a _ => { c with perform := c.perform ++ [(l, a)] }) { traps := [], perform := [], queue := [] }

/-- The traps of an instruction's lanes. -/
def State.trapEach (s : State) (w : Nat) (ts : List (Nat × Trap)) : State := ts.foldl (fun s e => s.trapLane w e.1 e.2) s

/-- Accesses of lanes with their data. -/
def mkAccs (bytes : Nat) (data : Nat → Nat) (ls : List (Nat × Nat)) : List Acc :=
  ls.map (fun e => { lane := e.1, addr := e.2, bytes := bytes, data := BitVec.ofNat 128 (data e.1 % 2 ^ (8 * bytes)), result := none,
                     pred := false })

/-- The requests of an instruction for some lanes. -/
def mkReqs (g : Grp) (p : Who) (i : MemI) (group : Nat) (inTx : Bool) (data : Nat → Nat) (ls : List (Nat × Nat)) : List Req :=
  (groupAccs i.kind.alone (mkAccs i.bytes data ls)).map (mkReq g p i group 0 inTx)

/-- Queue the escaping accesses of a world's lanes in the outbox (R174): they complete at once. What a queued `fset` puts
in its predicate is not stated: a free value (log entry 7). -/
def State.queueLanes (s : State) (g : Grp) (p : Who) (i : MemI) (data : Nat → Nat) (ls : List (Nat × Nat)) : State :=
  let s := (mkReqs g p i s.tick false data ls).foldl (fun s q => s.queueOut p.view (.access q)) s
  match i.kind with
  | .fset => (ls.foldl (fun s e => s.modLane g.w e.1 (fun la => la.setPred i.pd.toNat (Config.freeBit (s.tick + e.1)))) s).next
  | _ => s

end Sys2Proof.Machine
end

