-- ==== Sys2Proof/Machine/Memory.lean ====
section
/-! DEFINITION. Loads, stores, atomics and reductions, prefetches and gathers (R78, R82, R83, R266 to R271, R281, R282,
R325). -/

namespace Sys2Proof.Machine

/-! ### Inside a transaction (R82, R83) -/

/-- The aligned words that an access touches. -/
def accWords (a bytes : Nat) : List Nat := if bytes = 16 then [a, a + 8] else [a / 8 * 8]

/-- Buffer a store in the write set (R82). -/
def Tx.buffer (tx : Tx) (a : Nat) : List (BitVec 8) → Tx
  | [] => tx
  | b :: bs =>
    let w := a / 8 * 8
    let k := a % 8
    let (v, m) := (mapGet? tx.writes w).getD (0, 0)
    let v' := (v &&& ~~~(0xFF#64 <<< (8 * k))) ||| (b.setWidth 64 <<< (8 * k))
    Tx.buffer { tx with writes := mapSet tx.writes w (v', m ||| BitVec.ofNat 8 (2 ^ k)) } (a + 1) bs

/-- The read set of a lane has no room for the words of a load that is not answered by its write set (R83). -/
def Tx.readsFull (tx : Tx) (a bytes : Nat) : Bool :=
  !tx.covers a bytes && 16 < tx.reads.length + ((accWords a bytes).filter (fun w => (mapGet? tx.reads w).isNone)).length

/-- Loads of lanes in transactions: a 17th read word aborts with cause 0x03, a write set that covers the bytes answers at once, and
the lanes that are left access memory, their values entering their read sets (R82, R83). -/
def State.txLoads (s : State) (g : Grp) (i : MemI) : List (Nat × Nat) → State × List (Nat × Nat)
  | [] => (s, [])
  | e :: rest =>
    match (s.lane? g.w e.1).bind (·.tx) with
    | none => s.txLoads g i rest
    | some tx =>
      if tx.readsFull e.2 i.bytes then (s.abortLanes g.w [e.1] 0x03 0).txLoads g i rest
      else if tx.covers e.2 i.bytes then (s.writeDst g.w e.1 i.dst i.bits (tx.overlay e.2 i.bytes 0)).txLoads g i rest
      else
        let (s, qs) := s.txLoads g i rest
        (s, e :: qs)

/-- A lane of a warp is in a transaction. -/
def State.laneTx (s : State) (w l : Nat) : Option Tx := (s.lane? w l).bind (·.tx)

/-- A load with a uniform destination: one access at the address of the lowest lane, which every lane shares; each lane in a
transaction records the word in its own read set, or aborts where that is full (R82, R83, R266, R278). -/
def State.uniLoad (s : State) (g : Grp) (p : Who) (i : MemI) (group : Nat) (ls : List (Nat × Nat)) : State × List Req :=
  match ls with
  | [] => (s, [])
  | e :: _ =>
    let full := (ls.map (·.1)).filter (fun l => (s.laneTx g.w l).any (fun t => t.readsFull e.2 i.bytes))
    let rest := (ls.map (·.1)).filter (fun l => l ∉ full)
    let s' := s.abortLanes g.w full 0x03 0
    match rest with
    | [] => (s', [])
    | l :: _ =>
      if rest.all (fun l => (s.laneTx g.w l).any (fun t => t.covers e.2 i.bytes)) then
        (s'.writeDst g.w l i.dst i.bits (((s.laneTx g.w l).map (fun t => t.overlay e.2 i.bytes 0)).getD 0), [])
      else (s', [mkReq g p i group (lanesMask rest) (rest.any (fun l => (s.laneTx g.w l).isSome)) (mkAccs i.bytes (fun _ => 0) [(l, e.2)])])

/-- A store of a lane in a transaction: buffered; a 9th write word aborts with cause 0x04, a page of I/O or host type with
0x05, the aperture with 0x08 (R66, R83). -/
def State.txStore (s : State) (g : Grp) (p : Who) (bytes : Nat) (la : Nat × Nat) (v : Nat) : State :=
  match (s.lane? g.w la.1).bind (·.tx) with
  | none => s
  | some tx =>
    if (s.apertureOff p.ctx la.2).isSome then
      (s.logError p.ctx la.2 0x04 (0x1000 + g.wp.core)).abortLanes g.w [la.1] 0x08 0
    else if (s.peekType p la.2).any (fun t => 2 ≤ t) then s.abortLanes g.w [la.1] 0x05 0
    else
      let tx' := tx.buffer la.2 (natBytes bytes v)
      if 8 < tx'.writes.length then s.abortLanes g.w [la.1] 0x04 0
      else s.modLane g.w la.1 (fun l => { l with tx := some tx' })

/-! ### Loads (R266) -/

/-- Lanes at a FIFO port wait at their word until they are served (R68). -/
def State.portWait (s : State) (w : Nat) (ls : List Nat) (group : Nat) : State :=
  s.modLanes w ls (fun la => { la with st := .memWait group })

/-- The loads of the lanes that passed the checks. A uniform destination takes one access, that of the lowest lane, for
all of them. -/
def State.loadLanes (s : State) (g : Grp) (p : Who) (i : MemI) (ls : List (Nat × Nat)) : State :=
  let group := s.tick
  let s := s.next
  let port := ls.filter (fun e => s.atPort p e.2)
  let s := (s.stepLanes g.w ((ls.filter (fun e => !s.atPort p e.2)).map (·.1))).portWait g.w (port.map (·.1)) group
  match i.dst with
  | .s _ =>
    let (s, qs) := s.uniLoad g p i group ls
    s.startLoads g i group qs
  | _ =>
    let out := ls.filter (fun e => (s.laneTx g.w e.1).isNone)
    let (s, tx) := s.txLoads g i (ls.filter (fun e => (s.laneTx g.w e.1).isSome))
    s.startLoads g i group (mkReqs g p i group true (fun _ => 0) tx ++ mkReqs g p i group false (fun _ => 0) out)

/-- What `ld` asks for. -/
def ldI (h : Hdr) (t : Ty) (scope : Scope) (a : Dst) : MemI :=
  { kind := .load (t = .f32), bytes := t.bits / 8, align := t.bits / 8, dst := a, bits := t.regBits, pd := 7, hint := h.hint,
    scope := scope, pin := false, rel := false }

/-- `ld` (R266): each lane's bytes, zero-extended, from the first valid copy in its view; `ld.acq` then acquires. Ahead of a
speculative fence a load that would trap or fault, that bypasses, or that names memory of another type than 0 waits at its word
(R100); one that conflicts with a range lock rolls its group back (R101). -/
def execLd (h : Hdr) (t : Ty) (kind : Kind) (scope : Scope) (a : Dst) (m : MAddr) (s : State) : Out :=
  .next (onGroup h (max (a.top t.regBits) m.top) s (fun g G s =>
    let f (G : List Nat) (s : State) : State :=
      let p := s.whoOf g
      let i := ldI h t scope a
      let c := s.checkLanes g p m i G
      if !p.demand && c.traps.any (fun e => e.2.cause = 0x04) then s.trapEach g.w (c.traps.filter (fun e => e.2.cause = 0x04))
      else if !p.demand && (c.traps ≠ [] || h.hint = 3 ||
          c.perform.any (fun e => (s.apertureOff p.ctx e.2).isSome || s.peekType p e.2 ≠ some 0)) then s
      else
        let s' := (s.trapEach g.w c.traps).loadLanes g p i c.perform
        s'.acquireFor g (c.perform.map (·.1)) kind s.tick
    if kind = .none then f G s else outsideTx g G s f))

/-! ### Stores (R267) -/

/-- What `st` asks for: `st.rel` at `.co` or `.cl` pins (R102). -/
def stI (h : Hdr) (t : Ty) (kind : Kind) (scope : Scope) : MemI :=
  { kind := .store, bytes := t.bits / 8, align := t.bits / 8, dst := .none, bits := 0, pd := 7, hint := h.hint, scope := scope,
    pin := kind = .rel && (scope = .co || scope = .cl), rel := kind = .rel }

/-- The stores of lanes outside transactions: a release first where `st.rel` asks for one. -/
def State.storeLanes (s : State) (g : Grp) (p : Who) (i : MemI) (kind : Kind) (data : Nat → Nat) (ls : List (Nat × Nat)) : State :=
  let group := s.tick
  let s := s.next
  let port := ls.filter (fun e => s.atPort p e.2)
  let s := (s.stepLanes g.w ((ls.filter (fun e => !s.atPort p e.2)).map (·.1))).portWait g.w (port.map (·.1)) group
  if ls = [] then s
  else
    let (s, f) := s.releaseFor g (ls.map (·.1)) kind i.scope
    s.startWrites g i group f (mkReqs g p i group false data ls)

/-- `st` (R267): each lane's low bytes to its address; `st.rel` releases first. A lane in a transaction keeps to R83 in a world too
(R178). -/
def execSt (h : Hdr) (t : Ty) (kind : Kind) (scope : Scope) (m : MAddr) (d : Opd) (s : State) : Out :=
  .next (onGroup h (max (d.top t.regBits) m.top) s (fun g G s =>
    let p := s.whoOf g
    let i := stI h t kind scope
    let data (l : Nat) : Nat := (s.laneRegs g l).src t d
    let f (G : List Nat) (s : State) : State :=
      let c := s.checkLanes g p m i G
      let tx := (c.perform ++ c.queue).filter (fun e => e.1 ∈ g.wp.inTx G)
      let out := c.perform.filter (fun e => e.1 ∉ g.wp.inTx G)
      let queue := c.queue.filter (fun e => e.1 ∉ g.wp.inTx G)
      let s := (s.trapEach g.w c.traps).stepLanes g.w ((tx ++ queue).map (·.1))
      let s := tx.foldl (fun s e => s.txStore g p i.bytes e (data e.1)) s
      (s.queueLanes g p i data queue).storeLanes g p i kind data out
    if kind = .none then f G s else outsideTx g G s f))

/-! ### Atomics and reductions (R268 to R271) -/

/-- A scope at which an atomic or reduction pins, unless it carries an acquire only (R271). -/
def pinScope (kind : Kind) (scope : Scope) : Bool := kind ≠ .acq && (scope = .wp || scope = .co || scope = .cl)

/-- What `atom` and `red` ask for. -/
def atomI (h : Hdr) (k : AccKindM) (t : Ty) (kind : Kind) (scope : Scope) (a : Dst) : MemI :=
  { kind := k, bytes := t.bits / 8, align := t.bits / 8, dst := a, bits := t.regBits, pd := 7, hint := h.hint,
    scope := scope, pin := pinScope kind scope, rel := kind = .rel || kind = .ar }

/-- The atomics or reductions of lanes: a release first, an acquire last, as the kind says (R99, R269). -/
def State.atomLanes (s : State) (g : Grp) (p : Who) (m : MAddr) (i : MemI) (kind : Kind) (data : Nat → Nat) (G : List Nat) : State :=
  let c := s.checkLanes g p m i G
  let s := (s.trapEach g.w c.traps).stepLanes g.w ((c.perform ++ c.queue).map (·.1))
  let s := s.queueLanes g p i data c.queue
  if c.perform = [] then s
  else
    let group := s.tick
    let ls := c.perform.map (·.1)
    let (s, f) := s.next.releaseFor g ls kind i.scope
    (s.startWrites g i group f (mkReqs g p i group false data c.perform)).acquireFor g ls kind group

/-- `atom` (R268, R269, R271). -/
def execAtom (h : Hdr) (op : Aop) (t : Ty) (kind : Kind) (scope : Scope) (a : Dst) (m : MAddr) (d : Opd) (s : State) : Out :=
  .next (onGroup h (max (max (a.top t.regBits) (d.top t.regBits)) m.top) s (fun g G s =>
    outsideTx g G s (fun G s =>
      s.atomLanes g (s.whoOf g) m (atomI h (.atom op t (a ≠ .none)) t kind scope a) kind (fun l => (s.laneRegs g l).src t d) G)))

/-- `red` (R268, R270, R271). -/
def execRed (h : Hdr) (op : Aop) (t : Ty) (kind : Kind) (scope : Scope) (m : MAddr) (d : Opd) (s : State) : Out :=
  .next (onGroup h (max (d.top t.regBits) m.top) s (fun g G s =>
    outsideTx g G s (fun G s =>
      s.atomLanes g (s.whoOf g) m (atomI h (.red op t) t kind scope .none) kind (fun l => (s.laneRegs g l).src t d) G)))

/-! ### Gather (R78, R281, R325) -/

/-- Free entries of the range-lock table of a cluster (R75). -/
def Cluster.freeLock (c : Cluster) : Option Nat := (upTo 32).find? (fun i => (mapGet? c.locks i).isNone)

/-- What `gath` asks for. -/
def gathI (h : Hdr) (t : Ty) (a : BitVec 8) (g : Nat) : MemI :=
  { kind := .gath g, bytes := t.bits / 8, align := t.bits / 8, dst := .v a, bits := t.regBits, pd := 7, hint := h.hint,
    scope := .wp, pin := false, rel := false }

/-- `GATHER_SUBGROUP_RELEASE`: on each 16th clock after issue, the lanes whose data has arrived form a sub-group; the
fourth takes every remaining lane. Once the data of every remaining lane has arrived they are released together (R78,
R325). -/
def execGatherSubgroupRelease (g : Nat) (s : State) : Out :=
  .next (match mapGet? s.gathers g with
  | none => s
  | some ga =>
    let clock := ((s.warp? ga.warp).map (fun wp => s.clock wp.core)).getD 0
    let ga := { ga with lanes := s.gatherStill g ga }
    let ready := ga.lanes &&& ga.arrived
    if clock ≤ ga.issued then s
    else if ready = ga.lanes then s.gatherRelease g ga ready
    else if ready = 0 ∨ (clock - ga.issued) % 16 ≠ 0 ∨ 3 ≤ ga.released then s
    else s.gatherRelease g ga ready)

/-- `gath.T a, [addr], jN` (R78, R281): the lanes are enrolled in jN and held until their sub-groups are released; one source
entry spans their accesses. With the table full it stalls at issue (R75). -/
def execGath (h : Hdr) (t : Ty) (a : BitVec 8) (m : MAddr) (n : BitVec 3) (s : State) : Out :=
  .next (onGroup h (max (Opd.top (.v a) t.bits) m.top) s (fun g G s =>
    outsideTx g G s (fun G s =>
      let p := s.whoOf g
      match (s.cluster p.cluster).freeLock with
      | none => s
      | some e =>
        let id := mapFresh s.gathers
        let i := gathI h t a id
        let c := s.checkLanes g p m i G
        let s := s.modWarp g.w (fun wp => wp.setMask n.toNat (wp.mask n.toNat ||| lanesMask G))
        let s := s.trapEach g.w c.traps
        if c.perform = [] then s
        else
          let group := s.tick
          let lo := (c.perform.map (·.2)).foldl min (2 ^ 57)
          let hi := listMax (c.perform.map (fun x => x.2 + i.bytes - 1))
          let lk : RangeLock :=
            { view := p.view, asid := p.asid, lo := lo / 16 * 16, hi := hi / 16 * 16 + 15, kind := 4, dest := false }
          let ga : Gather :=
            { warp := g.w, issued := s.clock g.wp.core, lanes := lanesMask (c.perform.map (·.1)), arrived := 0, released := 0,
              lock := some (p.cluster, e), dst := a, regs := t.regBits / 32, vals := [], pc := g.pc, group := group }
          let s := s.next.modCluster p.cluster (fun cl => { cl with locks := mapSet cl.locks e lk })
          let s := { s with gathers := s.gathers ++ [(id, ga)] }
          let s := s.modLanes g.w (c.perform.map (·.1)) (fun la => { la with st := .gath id })
          let s := s.addReqs (mkReqs g p i group false (fun _ => 0) c.perform)
          s.modWarp g.w (fun wp =>
            { wp.addPend (lanesMask (c.perform.map (·.1))) i group (s.clock g.wp.core) g.pc with ctrLd := wp.ctrLd + 1 }))))

/-! ### Prefetch (R282) -/

/-- What `dpf` asks for. -/
def dpfI (h : Hdr) : MemI :=
  { kind := .prefetch, bytes := 1, align := 1, dst := .none, bits := 0, pd := 7, hint := h.hint, scope := .wp, pin := false, rel := false }

/-- `dpf [addr]` (R282): one prefetch for each distinct line, on its way to its L1 lookup; dropped for a non-canonical address and in
the aperture; in a transaction it does nothing. -/
def execDpf (h : Hdr) (m : MAddr) (s : State) : Out :=
  .next (onGroup h m.top s (fun g G s =>
    let p := { s.whoOf g with demand := false }
    let ls := (g.wp.notTx G).filterMap (fun l =>
      let a := (s.laneRegs g l).addr m
      if canonical a && (s.apertureOff p.ctx (va57 a)).isNone then some (l, va57 a) else none)
    let qs := mkReqs g p (dpfI h) s.tick false (fun _ => 0) ls
    (s.addReqs (qs.map (fun q => { q with warp := none }))).next.stepLanes g.w G))

end Sys2Proof.Machine
end

