-- ==== Sys2Proof/Machine/Future.lean ====
section
/-! DEFINITION. Futures and waits on a word (R79 to R81, R272 to R277). -/

namespace Sys2Proof.Machine

/-- What a future instruction asks for: a cell of 16 aligned bytes (R79). -/
def cellI (h : Hdr) (k : AccKindM) (a : Dst) (pd : BitVec 3) (scope : Scope) : MemI :=
  { kind := k, bytes := 16, align := 16, dst := a, bits := 64, pd := pd, hint := h.hint, scope := scope, pin := false, rel := false }

/-- What `waiton` asks for. -/
def waitI (h : Hdr) (cond : Cond) (t : Ty) (a : Dst) : MemI :=
  { kind := .waiton cond t, bytes := t.bits / 8, align := t.bits / 8, dst := a, bits := t.regBits, pd := 7, hint := h.hint,
    scope := .wp, pin := false, rel := false }

/-- Lanes wait at their word, each in a request of its own, until they are answered (R272, R276). -/
def State.waitLanes (s : State) (g : Grp) (m : MAddr) (i : MemI) (data : Nat → Nat) (G : List Nat) : State :=
  let p := s.whoOf g
  let c := s.checkLanes g p m i G
  let s := s.trapEach g.w c.traps
  if c.perform = [] then s
  else
    let group := s.tick
    let ls := c.perform.map (·.1)
    let s := s.next.modLanes g.w ls (fun la => { la with st := .memWait group })
    (s.addReqs (mkReqs g p i group false data c.perform)).modWarp g.w (fun wp =>
      (wp.addPend (lanesMask ls) i group (s.clock g.wp.core) g.pc).count i.kind true)

/-- `fld a, pD, [addr]` (R80, R272). -/
def execFld (h : Hdr) (a : BitVec 8) (pd : BitVec 3) (m : MAddr) (s : State) : Out :=
  .next (onGroup h (max (Opd.top (.v a) 64) m.top) s (fun g G s =>
    outsideTx g G s (fun G s => s.waitLanes g m (cellI h .fld (.v a) pd .wp) (fun _ => 0) G)))

/-- `waiton.cond.T [a,] [addr], x` (R276, R277). -/
def execWaiton (h : Hdr) (cond : Cond) (t : Ty) (a : Dst) (m : MAddr) (d : Opd) (s : State) : Out :=
  .next (onGroup h (max (max (a.top t.regBits) (d.top t.regBits)) m.top) s (fun g G s =>
    outsideTx g G s (fun G s => s.waitLanes g m (waitI h cond t a) (fun l => (s.laneRegs g l).src t d) G)))

/-- `fset pD, [addr], x`: a release at `.dv`, then the fill of each lane's cell (R80, R273). -/
def execFset (h : Hdr) (pd : BitVec 3) (m : MAddr) (d : Opd) (s : State) : Out :=
  .next (onGroup h (max (d.top 64) m.top) s (fun g G s =>
    outsideTx g G s (fun G s =>
      s.atomLanes g (s.whoOf g) m (cellI h .fset .none pd .dv) .rel (fun l => (s.laneRegs g l).src64 d) G)))

/-- `fclr [addr]` (R80, R274). -/
def execFclr (h : Hdr) (m : MAddr) (s : State) : Out :=
  .next (onGroup h m.top s (fun g G s =>
    outsideTx g G s (fun G s => s.atomLanes g (s.whoOf g) m (cellI h .fclr .none 7 .dv) .none (fun _ => 0) G)))

end Sys2Proof.Machine
end

