-- ==== Sys2Proof/Machine/Tx.lean ====
section
/-! DEFINITION. Transactions: begin, abort and commit (R82 to R84, R109, R278, R279). -/

namespace Sys2Proof.Machine

/-- `txb label` (R278): each lane of G outside a transaction begins one; a lane inside takes reason 0x0B. -/
def execTxb (h : Hdr) (off : Word) (s : State) : Out :=
  .next (onGroup h 0 s (fun g G s =>
    let begin_ := g.wp.notTx G
    ((s.illopLanes g (g.wp.inTx G) 0x0B).stepLanes g.w begin_).modLanes g.w begin_ (fun la =>
      { la with tx := some { fallback := target g.pc off, reads := [], writes := [] } })))

/-- `txa code` (R279): cause 0x07 with the code; a lane outside a transaction takes reason 0x0B. -/
def execTxa (h : Hdr) (code : BitVec 8) (s : State) : Out :=
  .next (onGroup h 0 s (fun g G s =>
    (s.abortLanes g.w (g.wp.inTx G) 0x07 code.toNat).illopLanes g (g.wp.notTx G) 0x0B))

/-- `txe` (R279): the lanes of G in a transaction are held at it while their commit is decided; another takes reason 0x0B. -/
def execTxe (h : Hdr) (s : State) : Out :=
  .next (onGroup h 0 s (fun g G s =>
    let ls := g.wp.inTx G
    let s := s.illopLanes g (g.wp.notTx G) 0x0B
    if ls = [] then s
    else
      let c := mapFresh s.commits
      ({ s with commits := s.commits ++ [(c, ({ warp := g.w, lanes := ls, installed := false, until_ := 0 } : Commit))] }).modLanes g.w ls
        (fun la => { la with hold := .commit c })))

/-! ### The commit (R84, R109) -/

/-- The lanes of a commit that it still holds, with their transactions. -/
def State.committing (s : State) (c : Nat) (cm : Commit) : List (Nat × Tx) :=
  cm.lanes.filterMap (fun l => (s.lane? cm.warp l).bind (fun la => if la.hold = .commit c then la.tx.map (fun tx => (l, tx)) else none))

/-- A word that a transaction reads or writes. -/
def Tx.uses (tx : Tx) (w : Nat) : Bool := (mapGet? tx.reads w).isSome || (mapGet? tx.writes w).isSome

/-- Lanes that conflict with a lower lane of their group (R84, step 1). -/
def conflicts : List (Nat × Tx) → List (Nat × Tx) → List Nat
  | _, [] => []
  | lower, e :: rest =>
    (if lower.any (fun f => f.2.writes.any (fun w => e.2.uses w.1)) then [e.1] else []) ++ conflicts (lower ++ [e]) rest

/-- A line piece by its address order: the line, and its first or second page. -/
def pieceKey (a : Nat) : Nat := 2 * lineOf a + (pageOf a - linePage (lineOf a) 0)
def pieceLine (k : Nat) : Nat := k / 2
def piecePage (k : Nat) : Nat := linePage (k / 2) 0 + k % 2

/-- The line pieces of the words of some transactions, ascending, and whether they are written. -/
def commitPieces (ts : List (Nat × Tx)) : NatMap Bool :=
  ts.foldl (fun m e =>
    let m := e.2.reads.foldl (fun m w => mapSet m (pieceKey w.1) (mapGetD m (pieceKey w.1) false)) m
    e.2.writes.foldl (fun m w => mapSet m (pieceKey w.1) true) m) []

/-- A transaction uses a word of a piece. -/
def Tx.usesPiece (tx : Tx) (k : Nat) : Bool := tx.reads.any (fun w => pieceKey w.1 = k) || tx.writes.any (fun w => pieceKey w.1 = k)

/-- For whom a commit accesses memory. -/
def State.whoCommit (s : State) (c : Nat) (wp : Warp) : Who :=
  { ctx := s.ctxIdOf wp.block, asid := s.asidOf wp.block, view := s.viewOf wp.block, cluster := clusterOf wp.core,
    core := some wp.core, lockTx := some c, lockView := none, demand := true, fetch := false }

/-- The lines of some pieces that the commit's own core or cluster has pinned are widened as a `.dv` release would (R109, step
1). -/
def State.unpinPieces (s : State) (w k : Nat) (asid : Nat) (ps : NatMap Bool) : State :=
  let c := clusterOf k
  s.unpinAll (fun h => (h.pinCo = some k || h.pinCl = some c) && (h.asid = asid || h.asid = 0) &&
    ps.any (fun e => pieceLine e.1 = h.line)) c [w]

/-- The lanes of a commit that use a piece abort with a cause. -/
def State.abortPiece (s : State) (c : Nat) (cm : Commit) (k cause : Nat) : State :=
  s.abortLanes cm.warp (((s.committing c cm).filter (fun e => e.2.usesPiece k)).map (·.1)) cause 0

/-- The lowest word of a piece that a commit's lanes use: the address that a fault or error of it reports (R366). -/
def Commit.faultAddr (cm : Commit) (s : State) (c k : Nat) : Nat :=
  ((s.committing c cm).flatMap (fun e =>
    ((e.2.reads.map (·.1)) ++ (e.2.writes.map (·.1))).filter (fun a => pieceKey a = k))).foldl min (2 ^ 57)

/-- How the locking of a commit's lines stands: done, told to retry, or waiting for a way of a set. -/
inductive Locking where
  | done | retry | full
  deriving DecidableEq, Repr

/-- Lock the pieces in ascending order; the answer says how far it came. A piece whose page
faults, that gets an error response, or that is written on a page of type 2 or 3 aborts the lanes that use it (R83). -/
def lockPieces (c : Nat) (cm : Commit) (p : Who) (core : Nat) (block : Nat) : State → NatMap Bool → State × Locking
  | s, [] => (s, .done)
  | s, (k, w) :: rest =>
    if (s.committing c cm).all (fun e => !e.2.usesPiece k) then lockPieces c cm p core block s rest
    else
      let line := pieceLine k
      let page := piecePage k
      match s.home p line page w 0 with
      | (s, .retry) => (s, .retry)
      | (s, .full) => (s, .full)
      | (s, .drop) => (s, .full)
      | (s, .fault reason) =>
        let (qu, sq) := s.cmdOf (some block)
        lockPieces c cm p core block ((s.raiseFault
          { ctx := p.ctx, page := page, fetch := false, reason := reason, faddr := cm.faultAddr s c k, engine := 0x1000 + core, queue := qu,
            seq := sq, routed := false }).abortPiece c cm k 0x06) rest
      | (s, .error e) =>
        lockPieces c cm p core block ((s.logError p.ctx (cm.faultAddr s c k) e (0x4000 + s.homeOf p.ctx page)).abortPiece c cm k 0x08) rest
      | (s, .target _) => lockPieces c cm p core block (if w then s.abortPiece c cm k 0x05 else s) rest
      | (s, .ok mt) =>
        if w && 2 ≤ mt then lockPieces c cm p core block (s.abortPiece c cm k 0x05) rest
        else
          let (s, own) := if w then s.ownCopy p line page else (s, s.copyAt p line page)
          match own with
          | none => (s, .full)
          | some h =>
            lockPieces c cm p core block (s.modHLine (s.homeOf p.ctx page) h (fun h => { h with lockTx := some c })) rest

/-- The value that a commit reads of an aligned word now; `none` where it is poisoned. -/
def State.commitRead (s : State) (p : Who) (a : Nat) : Option Nat :=
  match s.home p (lineOf a) (pageOf a) false 0 with
  | (s, .target f) => some (s.targetRead (physOf f a) 8)
  | (s, _) => s.homeRead p (lineOf a) (pageOf a) (a - lineOf a * 192) 8

/-- How the recorded reads of a lane compare: 0, or the cause of its abort. -/
def State.validate (s : State) (p : Who) (tx : Tx) : Nat :=
  tx.reads.foldl (fun c r =>
    if c ≠ 0 then c
    else
      match s.commitRead p r.1 with
      | some v => if v = r.2.toNat then 0 else 0x02
      | none => 0x08) 0

/-- Install the bytes of a written word, in the home line and in the core's own L1 copies (R84); the copy in the cluster cache is dropped:
it could show a sibling core one word of the commit before the others. -/
def State.commitWord (s : State) (p : Who) (core : Nat) (a : Nat) (v : DWord) (m : BitVec 8) : State × Times :=
  let line := lineOf a
  let one (r : State × Times) (i : Nat) : State × Times :=
    if m.getLsbD i then
      let at_ := a + i - line * 192
      let b := (v.extractLsb' (8 * i) 8).toNat
      let (s, t) := r.1.install p line (pageOf a) at_ 1 b
      (s.modCore core (fun c => { c with l1d := patchCopies c.l1d line p.asid p.view (pageOf a) at_ 1 b }),
        { tcl := max r.2.tcl t.tcl, tdv := max r.2.tdv t.tdv })
    else r
  (upTo 8).foldl one ((s.dropCopies [] p.cluster line p.asid p.view).markStale core line p.asid p.view, { tcl := 0, tdv := 0 })

/-- The lanes of a commit that are decided: their writes stand, and they go on after their `txe`. -/
def State.commitLanes (s : State) (p : Who) (c : Nat) (cm : Commit) (core : Nat) (ts : List (Nat × Tx)) : State :=
  let (s, tm, tsy) := ts.foldl (fun (r : State × Times × Nat) e =>
    e.2.writes.foldl (fun (r : State × Times × Nat) w =>
      let (s, t) := r.1.commitWord p core w.1 w.2.1 w.2.2
      let (s, tsy) := s.recalled p (lineOf w.1) (pageOf w.1) t.tdv
      (s, { tcl := max r.2.1.tcl t.tcl, tdv := max r.2.1.tdv t.tdv }, max r.2.2 tsy)) r) (s, ({ tcl := 0, tdv := 0 } : Times), 0)
  let s := s.modWarp cm.warp (fun wp => wp.merge tm.tcl tm.tdv tsy)
  let s := s.modLanes cm.warp (ts.map (·.1)) (fun la => { la with tx := none, hold := .none, txstat := 0, pc := la.pc + 16 })
  { s with commits := mapModify s.commits c (fun cm => { cm with installed := true, until_ := tm.tdv }) }

/-- Loads of the lanes of a commit that have not returned. -/
def State.txOpen (s : State) (cm : Commit) : Bool :=
  s.reqs.any (fun e => e.2.warp = some cm.warp && e.2.inTx && e.2.accs.any (fun a => a.lane ∈ cm.lanes))

/-- A line of some pieces is pinned, and the party is outside its holder (R103, R109). -/
def State.commitPinned (s : State) (p : Who) (ps : NatMap Bool) : Bool :=
  ps.any (fun e => (s.copyAt p (pieceLine e.1) (piecePage e.1)).any (fun h => h.pinnedFrom p))

/-- `TX_COMMIT`: once the lanes' loads have returned: lanes that conflict abort, the lines are locked in ascending order,
the recorded reads are compared, and the lanes that match commit together (R84, R109). -/
def execTxCommit (c : Nat) (s : State) : Out :=
  .next (match mapGet? s.commits c with
  | none => s
  | some cm =>
    match s.warp? cm.warp with
    | none => { s with commits := mapErase s.commits c }
    | some wp =>
      if cm.installed || s.txOpen cm then s
      else
        let s := s.abortLanes cm.warp (conflicts [] (s.committing c cm)) 0x01 0
        let p := s.whoCommit c wp
        let ps := commitPieces (s.committing c cm)
        let s := s.unpinPieces cm.warp wp.core p.asid ps
        match lockPieces c cm p wp.core wp.block s ps with
        | (s, .retry) =>
          if s.commitPinned p ps then s.bump (offCounter wp.core (0x100 * wp.part + 0x68)) 1 else s
        | (s, .full) => s
        | (s, .done) =>
          let s := (s.committing c cm).foldl (fun s e =>
            let v := s.validate p e.2
            if v = 0 then s else s.abortLanes cm.warp [e.1] v 0) s
          s.commitLanes p c cm wp.core (s.committing c cm))

/-- `TX_UNLOCK`: the lines stay locked until gtime reaches the largest Tdv of the writes (R109, step 4); host copies are
recalled by then. -/
def execTxUnlock (c : Nat) (s : State) : Out :=
  .next (match mapGet? s.commits c with
  | none => s
  | some cm =>
    let core := ((s.warp? cm.warp).map (·.core)).getD 0
    if !cm.installed || s.gtimeAt (placeCore core) < cm.until_ then s
    else
      let locked := s.slices.flatMap (fun e => (e.2.lines.filter (fun h => h.lockTx = some c)).map (fun h => (e.1, h)))
      let s := { s with commits := mapErase s.commits c }
      let s := locked.foldl (fun s e => s.modHLine e.1 e.2 (fun h => { h with lockTx := none })) s
      locked.foldl (fun s e => s.afterWrite e.1 e.2.line) s)

end Sys2Proof.Machine
end

