-- ==== Sys2Proof/Machine/Fence.lean ====
section
/-! DEFINITION. Fences and the progress of releases (R97 to R101, R104, R280). -/

namespace Sys2Proof.Machine

/-- `fence.kind.S[.spec]` (R280): the group is held at it, or passes it and saves what a rollback restores (R99, R100). -/
def execFence (h : Hdr) (kind : Kind) (scope : Scope) (spec : Bool) (s : State) : Out :=
  .next (onGroup h 0 s (fun g G s =>
    outsideTx g G s (fun G s =>
      if spec then
        let saved := G.filterMap (fun l => (s.lane? g.w l).map (fun la => (l, la.step)))
        (s.beginFence g G kind scope .step true saved).1.stepLanes g.w G
      else s.holdRelease g G kind scope .step)))

/-- The horizon that a scope waits for (R97, step 4). -/
def Warp.horizon (wp : Warp) (scope : Scope) : Nat :=
  match scope with
  | .wp | .co => 0
  | .cl => wp.hcl
  | .dv => wp.hdv
  | .sy => wp.hsy

/-- The pins of a release are widened (R104), but not before gtime has reached the horizon of its warp as it stands (PN2 of Table 4.8);
the answer says whether they are. -/
def State.widenDue (s : State) (wp : Warp) (scope : Scope) (ws : List Nat) : State × Bool :=
  if (s.pinned (fun h => h.widens wp.core scope)) ≠ [] ∧ s.gtimeAt (placeCore wp.core) < wp.horizon scope then (s, false)
  else (s.widen wp.core scope ws, true)

/-- A release or fence goes as far through the steps of R97 as it can now; the answer says whether it is complete. Step 4 waits for
the horizon as it stands after step 3. -/
def State.fenceAdvance (s : State) (n : Nat) (f : FenceOp) (wp : Warp) : State × Bool :=
  let now := s.gtimeAt (placeCore wp.core)
  if (s.openLoads f.warp f.lanes).any (· ∈ f.loads) then (s, false)
  else if f.kind = .acq then (s, true)
  else if (s.openWrites f.warp f.lanes).any (· ∈ f.writes) then (s.modFence n (fun f => { f with step := max f.step 2 }), false)
  else if f.step = 4 then (s, f.until_ ≤ now)
  else
    match s.widenDue wp f.scope [f.warp] with
    | (s, false) => (s.modFence n (fun f => { f with step := 3 }), false)
    | (s, true) =>
      let h := ((s.warp? f.warp).map (fun wp => wp.horizon f.scope)).getD 0
      (s.modFence n (fun f => { f with step := 4, until_ := h }), h ≤ now)

/-- The lanes that a release holds. -/
def State.heldBy (s : State) (n : Nat) (f : FenceOp) : List Nat :=
  (maskLanes f.lanes).filter (fun l => (s.lane? f.warp l).any (fun la => la.hold = .fence n))

/-- `bara` after its release: |lanes| arrivals at barrier `nb` of the core of rank `rank` (R145). -/
def State.arriveNbar (s : State) (w : Nat) (ls : List Nat) (nb rank : Nat) : State :=
  match s.warp? w with
  | none => s
  | some wp =>
    ((s.modNbar wp.block rank nb (fun b =>
      { b with a := b.a + ls.length,
               arrived := b.arrived ++ (ls.map (partyLane wp.index)).filter (fun x => x ∉ b.arrived) })).stepLanes
      w ls).checkNbar wp.block rank nb

/-- Lanes arrive at `bar` and park; the acquire of R98 concerns the loads that are open now (R291). -/
def State.arriveBar (s : State) (w : Nat) (ls : List Nat) : State :=
  match s.warp? w with
  | none => s
  | some wp =>
    (((s.acquire w (lanesMask ls)).modLanes w ls (fun la => { la with st := .bar })).modBlock wp.block (fun bl =>
      { bl with barArrived := bl.barArrived ++ ls.map (fun l => (w, l)) })).tryBar wp.block

/-- The record of an `event` is written to the CRING of the grid, and st goes down (R314). -/
def State.postEvent (s : State) (w : Nat) (x : Word) : State :=
  match s.warp? w with
  | none => s
  | some wp =>
    match s.gridOfBlock wp.block with
    | none => s
    | some g =>
      (s.post g.lrec.cring { Record.blank g.queue g.seq (0x1000 + wp.core) (x.setWidth 64) with kind := 2 }).modWarp w
        (fun wp => { wp with ctrSt := wp.ctrSt - 1 })

/-- What follows a release has to wait for room in its ring (R314). -/
def State.afterBlocked (s : State) (f : FenceOp) : Bool :=
  match f.after with
  | .event _ => !((s.warp? f.warp).bind (fun wp => s.gridOfBlock wp.block)).all (fun g => s.ringRoom g.lrec.cring)
  | _ => false

/-- A release is complete: what waited for it goes on. Lanes that would arrive at a barrier of a block whose barriers have broken
meanwhile trap with TBROKEN (R149). -/
def State.finishRelease (s : State) (n : Nat) (f : FenceOp) : State :=
  let ls := s.heldBy n f
  let s := (s.startFenced n).modLanes f.warp ls (fun la => { la with hold := .none })
  let broken := (s.blockOfWarp f.warp).bind (fun bl => bl.tbroken f.pc)
  match f.after, broken with
  | .nothing, _ => s
  | .step, _ => s.stepLanes f.warp ls
  | .event x, some _ => s.postEvent f.warp x
  | _, some t => s.trapLanes f.warp ls t
  | .bara nb rank, none => s.arriveNbar f.warp ls nb rank
  | .bar, none => s.arriveBar f.warp ls
  | .event x, none => s.postEvent f.warp x

/-- `RELEASE_COMPLETE`: a release or a fence that is not speculative makes progress, and when its last step is done, what
waited for it goes on (R97). -/
def execReleaseComplete (n : Nat) (s : State) : Out :=
  .next (match mapGet? s.fences n with
  | none => s
  | some f =>
    if f.spec then s
    else
      match s.warp? f.warp with
      | none => s.startFenced n
      | some wp =>
        match s.fenceAdvance n f wp with
        | (s, true) => if s.afterBlocked f then s else s.finishRelease n f
        | (s, false) => s)

/-- Whether the copy that a load ahead of a fence used is still valid, and was so all the time (R101). -/
def State.copyStands (s : State) (wp : Warp) (e : Nat × Nat) : Bool :=
  let now := s.gtimeAt (placeCore wp.core)
  (s.core wp.core).l1d.any (fun d =>
    d.hits e.1 (s.asidOf wp.block) (s.viewOf wp.block) && now < d.expiry && d.expiry ≤ e.2)

/-- The loads ahead of a fence whose value has been read and is still on its way: the copy that each makes stands (R101). A load that
waits for such a fill is judged by it. -/
def State.flightStands (s : State) (f : FenceOp) (wp : Warp) : Bool :=
  let now := s.gtimeAt (placeCore wp.core)
  s.reqs.all (fun e => !(f.aheadReq e.2) ||
    (let q := match e.2.st with
      | .joined j => (s.req? j).getD e.2
      | _ => e.2
    q.st ≠ .performed || (q.hitAt.isSome && s.copyStands wp (q.line, q.exp)) || (q.hitAt.isNone && now < q.exp && q.keep)))

/-- `SPEC_FENCE_COMPLETE`: a speculative fence makes progress; when it completes, the loads performed ahead of it are
checked, and the group rolls back where a copy that one of them used has stopped being valid (R101). Where an instruction ahead of
it was about to trap, the group rolls back, and nothing more issues ahead of the fence. -/
def execSpecFenceComplete (n : Nat) (s : State) : Out :=
  .next (match mapGet? s.fences n with
  | none => s
  | some f =>
    if !f.spec then s
    else if f.back then (s.rollback f).modFence n (fun f => { f with back := false, issued := 16, specLines := [] })
    else
      match s.warp? f.warp with
      | none => s.startFenced n
      | some wp =>
        match s.fenceAdvance n f wp with
        | (s, false) => s
        | (s, true) =>
          match mapGet? s.fences n with
          | none => s
          | some f =>
            let s := s.startFenced n
            if f.specLines.all (s.copyStands wp) && s.flightStands f wp then s else s.rollback f)

end Sys2Proof.Machine
end

