-- ==== Sys2Proof/Machine/Barrier.lean ====
section
/-! DEFINITION. Numbered barriers and the block barrier (R143 to R146, R290, R291). -/

namespace Sys2Proof.Machine

/-- Cores, barriers and tags of the launch of a block. -/
def State.coresOf (s : State) (b : Nat) : Nat := ((s.block? b).map (·.cores.length)).getD 1
def State.nbarsOf (s : State) (b : Nat) : Nat := ((s.recOfBlock b).map (·.nbars)).getD 0
def State.tagsOf (s : State) (b : Nat) : Nat := ((s.recOfBlock b).map (·.tags)).getD 0

/-- What the lowest of some lanes reads as a 32-bit operand of its group. -/
def State.groupSrc (s : State) (g : Grp) (G : List Nat) (o : Opd) : Nat :=
  match G with
  | [] => 0
  | l :: _ => (s.laneRegs g l).src32 o
/-- … as a 64-bit one. -/
def State.groupSrc64 (s : State) (g : Grp) (G : List Nat) (o : Opd) : Nat :=
  match G with
  | [] => 0
  | l :: _ => (s.laneRegs g l).src64 o

/-- What a sequencer reads. -/
def State.seqRegs (s : State) (te : Tenant) : Regs := te.regs (s.widOf te.block) (s.seedOf te.block)

/-- A barrier instruction of lanes: one in a transaction aborts it (R83); broken barriers trap with TBROKEN (R149). -/
def barrierLanes (g : Grp) (G : List Nat) (s : State) (f : List Nat → State → State) : State :=
  outsideTx g G s (fun G s =>
    match (s.block? g.wp.block).bind (fun bl => bl.tbroken g.pc) with
    | some t => s.trapLanes g.w G t
    | none => f G s)

/-- A tile instruction in the stream: a false guard passes it; `f` acts otherwise (R142). -/
def onSeq (h : Hdr) (t : Nat) (s : State) (f : Tenant → State → State) : State :=
  match s.tenant? t with
  | none => s
  | some te => if guardOf h te.pred then f te s else s.stepSeq t

/-- `bari` sets a barrier (R145). -/
def NBar.init (n : Nat) (nx : Bool) (b : NBar) : NBar := { b with e := n, a := 0, x := !nx, arrived := [] }

/-- `bari[.nx] nbN, n` (R145). -/
def execBari (h : Hdr) (nx : Bool) (nb : BitVec 5) (n : Opd) (s : State) : Out :=
  .next (match s.seq with
  | some t => onSeq h t s (fun te s =>
    let v := (s.seqRegs te).src32 n
    if s.nbarsOf te.block ≤ nb.toNat ∨ v = 0 ∨ 16388 < v then s.illopSeq t 0x0B
    else (s.modNbar te.block te.rank nb.toNat (NBar.init v nx)).stepSeq t)
  | none => onGroup h 0 s (fun g G s =>
    barrierLanes g G s (fun G s =>
      let v := s.groupSrc g G n
      if s.nbarsOf g.wp.block ≤ nb.toNat ∨ v = 0 ∨ 16388 < v then s.illopLanes g G 0x0B
      else (s.modNbar g.wp.block g.wp.rank nb.toNat (NBar.init v nx)).stepLanes g.w G)))

/-- Tile instructions that write a tile or an accumulator. -/
def writesTile (i : Instr) : Bool :=
  match i with
  | .tld _ _ _ _ | .tzero _ _ _ | .mma _ _ _ _ | .mmas _ _ _ _ _ _ | .mmad _ _ _ _ | .tmov _ _ _ _ _ | .tepi _ _ _ _ _ _ _ _ =>
    true
  | _ => false

/-- A tenant has older tile instructions that write a tile or an accumulator and are not complete (R146). -/
def Tenant.writing (te : Tenant) : Bool := (te.queue ++ te.running).any (fun o => writesTile o.instr)

/-- `bara nbN [, rank]`: a release at `.co`, or `.cl` for another core, then |G| arrivals (R145, R146). -/
def execBara (h : Hdr) (nb : BitVec 5) (rank : Opd) (s : State) : Out :=
  .next (match s.seq with
  | some t => onSeq h t s (fun te s =>
    let r := if rank = .zero then te.rank else (s.seqRegs te).src32 rank
    if s.nbarsOf te.block ≤ nb.toNat ∨ s.coresOf te.block ≤ r then s.illopSeq t 0x0B
    else if te.writing then s
    else
      let me := partySeq te.rank
      ((s.modNbar te.block r nb.toNat (fun b =>
        { b with a := b.a + 1, arrived := if me ∈ b.arrived then b.arrived else b.arrived ++ [me] })).stepSeq t).checkNbar te.block r
        nb.toNat)
  | none => onGroup h 0 s (fun g G s =>
    barrierLanes g G s (fun G s =>
      let r := if rank = .zero then g.wp.rank else s.groupSrc g G rank
      if s.nbarsOf g.wp.block ≤ nb.toNat ∨ s.coresOf g.wp.block ≤ r then s.illopLanes g G 0x0B
      else s.holdRelease g G .rel (if r = g.wp.rank then .co else .cl) (.bara nb.toNat r))))

/-- `barw nbN, φ`: wait while the phase bit equals φ; an acquire (R145, R146). A sequencer stops at broken barriers (R149). -/
def execBarw (h : Hdr) (nb : BitVec 5) (phi : Opd) (s : State) : Out :=
  .next (match s.seq with
  | some t => onSeq h t s (fun te s =>
    let f : Bool := (s.seqRegs te).src32 phi % 2 = 1
    if s.nbarsOf te.block ≤ nb.toNat then s.illopSeq t 0x0B
    else if (s.block? te.block).any (fun bl => bl.broken.isSome) then s.stopSeq t
    else if (s.nbar te.block te.rank nb.toNat).p = f then s.modTenant t (fun te => { te with st := .barw nb.toNat f })
    else s.stepSeq t)
  | none => onGroup h 0 s (fun g G s =>
    barrierLanes g G s (fun G s =>
      let f : Bool := s.groupSrc g G phi % 2 = 1
      if s.nbarsOf g.wp.block ≤ nb.toNat then s.illopLanes g G 0x0B
      else
        let s := s.acquire g.w (lanesMask G)
        if (s.nbar g.wp.block g.wp.rank nb.toNat).p = f then s.modLanes g.w G (fun la => { la with st := .barw nb.toNat f })
        else s.stepLanes g.w G)))

/-- `bar`: each lane of G releases at `.co`, or at `.cl` for a block on several cores, and arrives (R291). -/
def execBar (h : Hdr) (s : State) : Out :=
  .next (onGroup h 0 s (fun g G s =>
    barrierLanes g G s (fun G s =>
      s.holdRelease g G .rel (if s.coresOf g.wp.block = 1 then .co else .cl) .bar)))

end Sys2Proof.Machine
end

