-- ==== Sys2Proof/Machine/Tags.lean ====
section
/-! DEFINITION. Copy tags (R72 to R74, R287 to R289). -/

namespace Sys2Proof.Machine

/-- A tag at the start of a phase. -/
def Tag.zero : Tag := { count := 0, ready := false, failed := none }

/-- A tag of the core of rank `r` of a block. -/
def State.tag (s : State) (b r n : Nat) : Tag := ((s.block? b).bind (fun bl => mapGet? bl.tags (tagKey r n))).getD Tag.zero
def State.setTag (s : State) (b r n : Nat) (t : Tag) : State :=
  s.modBlock b (fun bl => { bl with tags := mapPut Tag.zero bl.tags (tagKey r n) t })

/-- The tags of a mask, ascending. -/
def maskTags (m : DWord) : List Nat := (upTo 64).filter (fun n => m.getLsbD n)

/-- How a wait on a mask stands: it goes on, passes, or completes through a failed tag (R74, R287). -/
inductive TagWait where
  | waits
  | passes
  | fails (addr reason : Nat)
  deriving DecidableEq, Repr

/-- The wait on a mask, judged by the tags as they are. -/
def tagWaitOf (tag : Nat → Tag) (all : Bool) (m : DWord) : TagWait :=
  let ns := maskTags m
  let bad := (ns.filter (fun n => (tag n).ready)).findSome? (fun n => (tag n).failed)
  let fails := (bad.map (fun e => TagWait.fails e.1 e.2)).getD .passes
  if all then (if ns.all (fun n => (tag n).ready) then fails else .waits)
  else if ns.any (fun n => (tag n).ready && (tag n).failed.isNone) then .passes
  else if bad.isSome then fails
  else .waits

/-- The ACCESS trap of a lane that completes through a failed tag (R287). -/
def tagTrap (pc : PC) (addr reason : Nat) : Trap :=
  { cause := 0x03, pc := pc, addr := some (signAddr addr), info := BitVec.ofNat 64 (reason % 256 + 256), resume := pc }

/-- Lanes complete through the failed tags of a mask: the copies that failed them need not be told in the grid's record (R287). -/
def State.hear (s : State) (b r : Nat) (m : DWord) : State :=
  s.modBlock b (fun bl => { bl with unheard := bl.unheard.filter (fun e => !(e.1 / 64 = r && m.getLsbD (e.1 % 64))) })

/-- Lanes and the sequencer that wait on tags of the core of rank `r` go on where their wait is over. -/
def State.tagWake (s : State) (b r : Nat) : State :=
  match s.block? b with
  | none => s
  | some bl =>
    let s := bl.warps.foldl (fun s w =>
      match s.warp? w with
      | none => s
      | some wp =>
        if wp.rank ≠ r then s
        else (upTo 32).foldl (fun s l =>
          match s.lane? w l with
          | some la =>
            (match la.st with
            | .tagWait all m =>
              match tagWaitOf (s.tag b r) all m with
              | .waits => s
              | .passes => s.modLane w l (fun la => { la with st := .runnable, pc := la.pc + 16 })
              | .fails a e => (s.hear b r m).trapLane w l (tagTrap la.pc a e)
            | _ => s)
          | none => s) s) s
    bl.tenants.foldl (fun s t =>
      match s.tenant? t with
      | none => s
      | some te =>
        if te.rank ≠ r then s
        else
          match te.st with
          | .tagWait all m =>
            match tagWaitOf (s.tag b r) all m with
            | .waits => s
            | .passes => s.modTenant t (fun te => { te with st := .running, pc := te.pc + 16 })
            | .fails a e => s.tenantFault t 0x03 e te.pc (signAddr a)
          | _ => s) s

/-- The number of a tag operand. -/
def Regs.tagOf (r : Regs) (t : TagOpd) : Nat :=
  match t with
  | .tag n => n.toNat
  | .reg n => (r.sr n.toNat).toNat

/-- Tags named by a mask lie below the launch's count. -/
def maskBelow (m : DWord) (t : Nat) : Bool := (maskTags m).all (fun n => n < t)

/-- A tag instruction acts once for its group, or for a sequencer: `f` gives the block, the rank, the number of tags and
what the party reads. -/
def onTags (h : Hdr) (top : Nat) (s : State)
    (lanes : Grp → List Nat → Regs → State → State) (seq : Nat → Tenant → Regs → State → State) : State :=
  match s.seq with
  | some t => onSeq h t s (fun te s => seq t te (s.seqRegs te) s)
  | none => onGroup h top s (fun g G s =>
    match G with
    | [] => s
    | l :: _ => lanes g G (s.laneRegs g l) s)

/-- `tagarm` (R73, R288). -/
def State.armTag (s : State) (b r n count : Nat) : State :=
  (s.setTag b r n { count := count, ready := count = 0, failed := none }).tagWake b r

/-- `tagarm tag, count` (R288, R289). -/
def execTagarm (h : Hdr) (tag : TagOpd) (count : Opd) (s : State) : Out :=
  .next (onTags h 0 s
    (fun g G r s =>
      if s.tagsOf g.wp.block ≤ r.tagOf tag then s.illopLanes g G 0x0B
      else (s.armTag g.wp.block g.wp.rank (r.tagOf tag) (r.src32 count)).stepLanes g.w G)
    (fun t te r s =>
      if s.tagsOf te.block ≤ r.tagOf tag then s.illopSeq t 0x0B
      else (s.armTag te.block te.rank (r.tagOf tag) (r.src32 count)).stepSeq t))

/-- `tagwt.any mask`, `tagwt.all mask` (R74, R287, R289). -/
def execTagwt (h : Hdr) (all : Bool) (mask : Opd) (s : State) : Out :=
  .next (onTags h 0 s
    (fun g G r s =>
      let m := BitVec.ofNat 64 (r.src64 mask)
      let b := g.wp.block
      if !maskBelow m (s.tagsOf b) || (!all && m = 0) then s.illopLanes g G 0x0B
      else
        let s := s.acquire g.w (lanesMask G)
        match tagWaitOf (s.tag b g.wp.rank) all m with
        | .waits => s.modLanes g.w G (fun la => { la with st := .tagWait all m })
        | .passes => s.stepLanes g.w G
        | .fails a e => (s.hear b g.wp.rank m).trapLanes g.w G (tagTrap g.pc a e))
    (fun t te r s =>
      let m := BitVec.ofNat 64 (r.src64 mask)
      if !maskBelow m (s.tagsOf te.block) || (!all && m = 0) then s.illopSeq t 0x0B
      else
        match tagWaitOf (s.tag te.block te.rank) all m with
        | .waits => s.modTenant t (fun te => { te with st := .tagWait all m })
        | .passes => s.stepSeq t
        | .fails a e => s.tenantFault t 0x03 e te.pc (signAddr a)))

/-- The lowest set tag of a mask, or 64. -/
def lowestSet (tag : Nat → Tag) (m : DWord) : Nat := ((maskTags m).find? (fun n => (tag n).ready)).getD 64

/-- `tagff a, mask` (R74, R287, R289). -/
def execTagff (h : Hdr) (a : Dst) (mask : Opd) (s : State) : Out :=
  .next (onTags h (a.top 32) s
    (fun g G r s =>
      let m := BitVec.ofNat 64 (r.src64 mask)
      let tag := s.tag g.wp.block g.wp.rank
      let n := lowestSet tag m
      if !maskBelow m (s.tagsOf g.wp.block) then s.illopLanes g G 0x0B
      else
        match (if n < 64 then (tag n).failed else none) with
        | some e => (s.hear g.wp.block g.wp.rank (1#64 <<< n)).trapLanes g.w G (tagTrap g.pc e.1 e.2)
        | none =>
          let s := if n < 64 then s.acquire g.w (lanesMask G) else s
          ((s.modLanes g.w G (fun la => la.put (.reg a 32 n))).modWarp g.w (fun wp => wp.putUni (.reg a 32 n))).stepLanes g.w G)
    (fun t te r s =>
      let m := BitVec.ofNat 64 (r.src64 mask)
      let tag := s.tag te.block te.rank
      let n := lowestSet tag m
      if !maskBelow m (s.tagsOf te.block) then s.illopSeq t 0x0B
      else
        match (if n < 64 then (tag n).failed else none) with
        | some e => s.tenantFault t 0x03 e.2 te.pc (signAddr e.1)
        | none => (s.modTenant t (fun te => te.put (.reg a 32 n))).stepSeq t))

/-- `tagclr mask` (R73, R288, R289). -/
def execTagclr (h : Hdr) (mask : Opd) (s : State) : Out :=
  .next (onTags h 0 s
    (fun g G r s =>
      let m := BitVec.ofNat 64 (r.src64 mask)
      if !maskBelow m (s.tagsOf g.wp.block) then s.illopLanes g G 0x0B
      else ((maskTags m).foldl (fun s n => s.setTag g.wp.block g.wp.rank n Tag.zero) s).stepLanes g.w G)
    (fun t te r s =>
      let m := BitVec.ofNat 64 (r.src64 mask)
      if !maskBelow m (s.tagsOf te.block) then s.illopSeq t 0x0B
      else ((maskTags m).foldl (fun s n => s.setTag te.block te.rank n Tag.zero) s).stepSeq t))

end Sys2Proof.Machine
end

