-- ==== Sys2Proof/Machine/Lasts.lean ====
section
/-! DEFINITION. Lasts: descriptors of tensors in memory, their checks and the addresses of their elements (R151 to R153). -/

namespace Sys2Proof.Machine

/-- A last (Table 6.5). -/
structure Last where
  base : DWord
  rank : Nat
  slot : Nat
  trans : Bool
  sizes : List Nat
  strides : List Int
  deriving DecidableEq, Repr

/-- The fields of the 64 bytes of a last. -/
def Last.ofBits (x : BitVec 512) : Last :=
  { base := x.extractLsb' 0 64, rank := (x.extractLsb' 64 3).toNat, slot := (x.extractLsb' 72 3).toNat, trans := x.getLsbD 80,
    sizes := (upTo 5).map (fun n => (x.extractLsb' (128 + 32 * n) 32).toNat),
    strides := (upTo 5).map (fun n => (x.extractLsb' (288 + 32 * n) 32).toInt) }

/-- The reserved fields of a last are zero. -/
def lastReserved (x : BitVec 512) : Bool :=
  x.extractLsb' 67 5 = 0 && x.extractLsb' 75 5 = 0 && x.extractLsb' 81 47 = 0 && x.extractLsb' 448 64 = 0

/-- Size and stride of a dimension. -/
def Last.size (d : Last) (n : Nat) : Nat := d.sizes.getD n 0
def Last.stride (d : Last) (n : Nat) : Int := d.strides.getD n 0

/-- The element size of a format in bytes: 8 for DX, 1 for a 4-bit format (R152). -/
def elemBytes (fmt : Nat) : Nat := if (dxBits fmt).isSome then 8 else max 1 (fmtBits fmt / 8)

/-- Elements of a tile row (Table 6.2). -/
def fmtK (fmt : Nat) : Nat :=
  match fmt with
  | 0 => 24
  | 1 => 48
  | 2 | 3 => 96
  | 7 => 128
  | 4 | 5 | 10 => 192
  | 8 => 256
  | _ => 384

/-- The checks of R152 that are ILLOP, for a last read through a slot of format `fmt`, with origin c0. -/
def lastIllop (x : BitVec 512) (fmt : Nat) (c0 : Int) : Bool :=
  let d := Last.ofBits x
  !lastReserved x || d.rank = 0 || 5 < d.rank || (d.trans && (fmtBits fmt < 8)) || ((dxBits fmt).isSome && c0 % 32 ≠ 0)

/-- … and those that are MISALIGN: BASE and the strides are multiples of the element size. -/
def Last.misaligned (d : Last) (fmt : Nat) : Bool :=
  let e := elemBytes fmt
  d.base.toNat % e ≠ 0 || (upTo d.rank).any (fun n => d.stride n % (e : Int) ≠ 0)

/-- An element is clipped: a coordinate lies outside its extent (R153). -/
def Last.clipped (d : Last) (cs : List Int) : Bool :=
  (upTo d.rank).any (fun n => cs.getD n 0 < 0 || (d.size n : Int) ≤ cs.getD n 0)

/-- The address of an element, or of its block for DX, or of its byte for a 4-bit format (R153). -/
def Last.addr (d : Last) (fmt : Nat) (cs : List Int) : DWord :=
  let tail : Int := ((upTo d.rank).map (fun n => if n = 0 then 0 else cs.getD n 0 * d.stride n)).sum
  let d0 := cs.getD 0 0
  let first : Int :=
    match dxBits fmt with
    | some m => d0 / 32 * dxBytes m
    | none => if fmtBits fmt = 4 then d0 / 2 else d0 * d.stride 0
  BitVec.ofInt 64 (d.base.toNat + first + tail)

/-- The coordinates of tile element (ρ, κ) under origins (R153). -/
def Last.coords (d : Last) (org : List Int) (rho kappa : Nat) : List Int :=
  let c (n : Nat) : Int := org.getD n 0
  (if d.trans then [c 0 + rho, c 1 + kappa] else [c 0 + kappa, c 1 + rho]) ++ [c 2, c 3, c 4]

/-- All index vectors of a box, with a step in each dimension, the first dimension running fastest. -/
def box : List (Nat × Nat) → List (List Nat)
  | [] => [[]]
  | (n, step) :: rest => (box rest).flatMap (fun cs => (upTo ((n + step - 1) / step)).map (fun i => i * step :: cs))

end Sys2Proof.Machine
end

