-- ==== Sys2Proof/Machine/Engine.lean ====
section
/-! DEFINITION. Bulk copy engines: their accesses, the delivery of bytes, range entries, tags, errors and pauses (R73, R75 to
R77, R81, R84, R108, R284 to R287, R303, R304, R339). -/

namespace Sys2Proof.Machine

/-! ### Accesses of engines, sequencers and firmware -/

/-- How an access by an engine comes out. -/
inductive EngR (α : Type) where
  | ok (v : α)
  | retry
  /-- The set has no way to give: it waits (R71). -/
  | full
  | fault (reason : Nat)
  | error (reason : Nat)
  deriving DecidableEq, Repr

/-- The value of an access that succeeds. -/
def EngR.map {α β : Type} (f : α → β) (r : EngR α) : EngR β :=
  match r with
  | .ok v => .ok (f v)
  | .retry => .retry
  | .full => .full
  | .fault e => .fault e
  | .error e => .error e

/-- Accesses one after another, each at an address; the first that does not succeed ends them, and is the answer with its
address. -/
def engEach {α β : Type} (at_ : α → Nat) (f : State → α → β → State × EngR β) : State → List α → β → State × EngR β × Nat
  | s, [], b => (s, .ok b, 0)
  | s, x :: rest, b =>
    match f s x b with
    | (s, .ok b) => engEach at_ f s rest b
    | (s, r) => (s, r, at_ x)

/-- For whom an engine of a cluster accesses memory: it is outside every core's pin, and inside those of its cluster (R103,
Table 4.1). -/
def whoEngine (ctx asid view cluster : Nat) : Who :=
  { ctx := ctx, asid := asid, view := view, cluster := cluster, core := none, lockTx := none, lockView := none, demand := true,
    fetch := false }

/-- No cluster: what command firmware and the installs of a view access memory from. -/
def noCluster : Nat := 65

/-- Read `n` bytes within a chunk; `block` is the block whose scratch window counts (R67). -/
def State.engRead (s : State) (p : Who) (block : Option Nat) (a n : Nat) : State × EngR Nat :=
  match s.apertureOff p.ctx a with
  | some o =>
    match s.bankAt p.ctx p.cluster block o n with
    | .scratch b off =>
      (match ((s.cluster p.cluster).bank b).get? off n with
      | some v => (s, .ok v)
      | none => (s, .error 0x05))
    | .fifo _ => (s, .error 0x04)
    | .error e => (s, .error e)
  | none =>
    match s.home p (lineOf a) (pageOf a) false 0 with
    | (s, .retry) => (s, .retry)
    | (s, .full) | (s, .drop) => (s, .full)
    | (s, .fault r) => (s, .fault r)
    | (s, .error e) => (s, .error e)
    | (s, .target f) => (s, .ok (s.targetRead (physOf f a) n))
    | (s, .ok _) =>
      match s.homeRead p (lineOf a) (pageOf a) (a - lineOf a * 192) n with
      | some v => (s, .ok v)
      | none => (s, .error 0x05)

/-- What an `.add` drain adds to: the type of its elements, the PC of the drain and the output row (R126, R155). -/
structure AddOf where
  ty : Ty
  pc : PC
  row : Nat
  deriving DecidableEq, Repr

/-- Write `n` bytes at a cell, or add an element there as its reduction would be, windows included (R85, R86, R155): the completion
times of the write. `whole` says that the operation covers the whole sector, and so clears its poison (R405). -/
def State.cellWrite (s : State) (x : Nat) (c : Cell) (t a n v : Nat) (add : Option AddOf) (whole : Bool) : State × EngR Times :=
  let put (y : State × Times) : State × EngR Times := (y.1, .ok y.2)
  match add with
  | none => if whole || (c.rd s a n).isSome then put (c.wr s a n v) else (s, .error 0x05)
  | some d =>
    let sum (n : Nat) (new : Nat → Nat) : State × EngR Times :=
      match c.rd s a n with
      | none => (s, .error 0x05)
      | some old => put (c.wr s a n (new old))
    match s.windowOf x a with
    | some (i, w) =>
      if !w.accepts .add d.ty then (s, .error 0x07)
      else if w.fp32 && d.ty = .f32 then
        match windowAddend w.q v with
        | none => (s.bump (offCtx x (0x10 + 8 * i)) 1, .ok { tcl := t, tdv := t })
        | some y => sum 8 (fun old => wrapTo .i64 (intVal .i64 old + y))
      else sum n (fun old => atomNew .add d.ty d.pc d.row old v)
    | none => sum n (fun old => atomNew .add d.ty d.pc d.row old v)

/-- Write `n` bytes within a chunk, or add an element there (`add`); the completion times of the write with Tsy (R93). A reduction on
scratch that lies in a window is refused (R66). -/
def State.engWrite (s : State) (p : Who) (block : Option Nat) (a n v : Nat) (add : Option AddOf) (whole : Bool) :
    State × EngR (Times × Nat) :=
  let soon (y : State × EngR Times) : State × EngR (Times × Nat) := (y.1, y.2.map (fun t => (t, t.tdv)))
  match s.apertureOff p.ctx a with
  | some o =>
    match s.bankAt p.ctx p.cluster block o n with
    | .scratch b off =>
      if add.isSome && (s.windowOf p.ctx a).isSome then (s, .error 0x04)
      else
        let t := s.gtimeAt (placeCluster p.cluster)
        let s := if whole then s.modBank p.cluster b (fun k => { k with poison := k.poison.filter (· ≠ off / 48) }) else s
        soon (s.cellWrite p.ctx (bankCell p.cluster b t (fun x => off + x - a)) t a n v add whole)
    | .fifo _ => (s, .error 0x04)
    | .error e => (s, .error e)
  | none =>
    match s.home p (lineOf a) (pageOf a) true 0 with
    | (s, .retry) => (s, .retry)
    | (s, .full) | (s, .drop) => (s, .full)
    | (s, .fault r) => (s, .fault r)
    | (s, .error e) => (s, .error e)
    | (s, .target f) => soon (s.cellWrite p.ctx (targetCell f (s.sliceTime p (pageOf a))) (s.sliceTime p (pageOf a)) a n v add whole)
    | (s, .ok _) =>
      let t := s.sliceTime p (pageOf a)
      match s.ownCopy p (lineOf a) (pageOf a) with
      | (s, none) => (s, .full)
      | (s, some h) =>
        let pinned := h.pinCo.isSome || h.pinCl.isSome
        match (if pinned || add.isNone then none else s.peerFrame p a) with
        | some f =>
          let tm := s.times p (lineOf a) (pageOf a) false
          (match (s.yieldLine p (lineOf a) (pageOf a)).cellWrite p.ctx (targetCell f t) t a n v add whole with
          | (s, r) => (s.next, r.map (fun _ => (tm, max tm.tdv (t + Config.recallTicks s.tick)))))
        | none =>
          match s.cellWrite p.ctx (homeCell p (lineOf a) (pageOf a)) t a n v add whole with
          | (s, .ok tm) =>
            if pinned then (s, .ok (tm, tm.tdv))
            else
              let (s, tsy) := s.recalled p (lineOf a) (pageOf a) tm.tdv
              (s, .ok (tm, tsy))
          | (s, r) => (s, r.map (fun t => (t, t.tdv)))

/-- The completion time of a write at a scope (R108). -/
def Times.at_ (t : Times) (tsy : Nat) (scope : Scope) : Nat :=
  match scope with
  | .wp | .co | .cl => t.tcl
  | .dv => t.tdv
  | .sy => tsy

/-- What a unit of a core reads through the caches is asked for as a load would be: the bytes of one chunk. -/
def coreReq (p : Who) (core : Nat) (block : Option Nat) (hint : BitVec 2) (a n : Nat) : Req :=
  { kind := .load false, st := .performed, ctx := p.ctx, asid := p.asid, view := p.view, core := core, warp := none, block := block,
    line := lineOf a, page := pageOf a, accs := [{ lane := 0, addr := a, bytes := n, data := 0, result := none, pred := false }],
    uni := 0, dst := .none, bits := 0, pd := 7, hint := hint, scope := .wp, pin := false, rel := false, inTx := false, demand := true,
    keep := true, keepCc := true, lookAt := 0, hitAt := none, exp := 0, readNo := 0, slot := none, sentNo := 0, pc := 0, tcl := 0, tdv := 0,
    tsy := 0, fill := none, replay := none, group := 0, due := 0, word := 0 }

/-- Read `n` bytes within a chunk through a core's L1, then the cluster cache, then the home slice; a hint governs what is kept of
them as of a load (R63, R152, R154, R285, R297). A fill that no way can be had for waits (R71). -/
def State.coreRead (s : State) (p : Who) (core : Nat) (block : Option Nat) (hint : BitVec 2) (a n : Nat) : State × EngR Nat :=
  let q := coreReq p core block hint a n
  let p := { p with core := some core }
  let i := a - lineOf a * 192
  let keep (s : State) (f : Fill) (v : Nat) : State × EngR Nat :=
    match s.keepFill { q with fill := some f } with
    | some s => (s, .ok v)
    | none => (s, .full)
  if (s.apertureOff p.ctx a).isSome then s.engRead p block a n
  else
    match (if hint = 3 then none else s.l1Copy q), (if hint = 3 then none else s.ccCopy q) with
    | some d, _ => (s.touchL1 core d, .ok (lineGet d.data i n))
    | none, some d =>
      let (s, f) := s.ccFill q d
      keep s f (lineGet d.data i n)
    | none, none =>
      match s.home p q.line q.page false hint with
      | (s, .retry) => (s, .retry)
      | (s, .full) | (s, .drop) => (s, .full)
      | (s, .fault r) => (s, .fault r)
      | (s, .error e) => (s, .error e)
      | (s, .target f) => (s, .ok (s.targetRead (physOf f a) n))
      | (s, .ok mt) =>
        match s.homeRead p q.line q.page i n with
        | none => (s, .error 0x05)
        | some v =>
          if hint = 3 then (s.dropCopies [core] (clusterOf core) q.line q.asid q.view, .ok v)
          else
            match s.supply p q mt with
            | (s, some f) => if mt = 0 then keep s f v else (s, .ok v)
            | (s, none) => (s, .ok v)

/-- Read the 64 bytes of a last, as a load of a core (R152, R285). -/
def State.readLast (s : State) (p : Who) (core : Nat) (block : Option Nat) (a : Nat) : State × EngR Nat :=
  let (s, r, _) := engEach (fun i => a + 16 * i) (fun s i v =>
    let (s, r) := s.coreRead p core block 0 (a + 16 * i) 16
    (s, r.map (fun w => v + w * 2 ^ (128 * i)))) s (upTo 4) 0
  (s, r)

/-! ### Tags and range entries -/

/-- Count delivered bytes into a tag; more than it awaits leaves it at zero and set, and counts an overrun (R73). -/
def State.countTag (s : State) (b r n core bytes : Nat) : State :=
  if bytes = 0 then s
  else
    let t := s.tag b r n
    let s := if t.count < bytes then s.bump (offCounter core 0x800) 1 else s
    (s.setTag b r n { t with count := t.count - bytes, ready := t.count ≤ bytes }).tagWake b r

/-- The span of some pieces of bytes (R75): lowest and highest byte. -/
def spanOf (rs : List (Nat × Nat)) : Nat × Nat :=
  ((rs.map (·.1)).foldl min (2 ^ 57), listMax (rs.map (fun r => r.1 + r.2 - 1)))

/-- Enter a range in the table of a cluster, widened to chunks; the answer is its entry (R75). -/
def State.putLock (s : State) (cluster : Nat) (l : RangeLock) : State × List Nat :=
  match (s.cluster cluster).freeLock with
  | none => (s, [])
  | some e =>
    (s.modCluster cluster (fun c => { c with locks := mapSet c.locks e { l with lo := l.lo / 16 * 16, hi := l.hi / 16 * 16 + 15 } }), [e])
def State.dropLocks (s : State) (cluster : Nat) (ls : List Nat) : State :=
  s.modCluster cluster (fun c => { c with locks := c.locks.filter (fun e => e.1 ∉ ls) })
/-- Free entries of the table of a cluster. -/
def Cluster.locksFree (c : Cluster) : Nat := 32 - c.locks.length

/-- Operations in progress in the engine of a cluster: copies, drains, packets, and tile loads (R286). -/
def State.engineLoad (s : State) (cluster : Nat) : Nat :=
  (s.copies.filter (fun e => e.2.cluster = cluster && (e.2.st = .active || (e.2.st = .checks && e.2.tenant.isSome)))).length +
    (s.tenants.map (fun e => if clusterOf e.2.core = cluster then
      (e.2.running.filter (fun o => match o.instr with | .tld _ _ _ _ => true | _ => false)).length else 0)).sum

/-! ### Operations -/

/-- For whom an operation of an engine accesses memory. -/
def CopyOp.who (c : CopyOp) : Who := whoEngine c.ctx c.asid c.view c.cluster

/-- Operations of an instruction that have not delivered their last byte. -/
def State.copiesOpen (s : State) (w group : Nat) : Bool :=
  s.copies.any (fun e => e.2.warp = some w && e.2.group = group && e.2.st ≠ .closed)

/-- An operation has delivered its last byte: its entries go, and when its instruction has no other in progress, the
counter cp goes down (R75, R232). -/
def State.closeCopy (s : State) (c : Nat) (op : CopyOp) : State :=
  let s := (s.dropLocks op.cluster op.locks).modCopy c (fun op => { op with st := .closed, pieces := [], locks := [] })
  match op.warp with
  | none => s
  | some w => if s.copiesOpen w op.group then s else s.modWarp w (fun wp => { wp with ctrCp := wp.ctrCp - 1 })

/-- An operation of a lane ends at issue: it never starts, and the lane is no longer held. -/
def State.dropCopy (s : State) (c : Nat) (op : CopyOp) : State :=
  let s := s.closeCopy c op
  { s with copies := mapErase s.copies c }

/-- What the tenant of a drain is told of an error: it faults, and what is younger than the drain is discarded (R149, R304). -/
def State.drainError (s : State) (op : CopyOp) (addr reason : Nat) : State :=
  match op.tenant with
  | none => s
  | some t => (s.clearQueue t).tenantFault t 0x03 reason op.pc (signAddr addr)

/-- The lane of an operation that is still at issue goes on. -/
def State.copyLaneGoes (s : State) (op : CopyOp) : State :=
  match op.st, op.warp with
  | .active, _ | .closed, _ | .saved, _ | _, none => s
  | _, some w => s.modLane w op.lane (fun la => if la.hold = .engine && la.pc = op.pc then { la with hold := .none, pc := la.pc + 16 } else la)

/-- A command of a queue ends with FAULT, cause ACCESS (R339); its record is written when the command completes, after its writes
up to the tick `late`. -/
def State.failCmd (s : State) (cmd : Option (Nat × Nat)) (addr reason late : Nat) : State :=
  match cmd with
  | none => s
  | some (q, n) =>
    s.modQueue q (fun k => k.modCmd n (fun c =>
      if c.fail.isNone then
        { c with fail := some (1, reason, (signAddr addr).toNat), cause := c.cause ||| 8, due := max c.due late }
      else c))

/-- An error response, or a fault declared unresolvable, stops an operation: its tag is set with a count of zero and marked
failed, with the first address that failed it (R287); a lane that still holds at it goes on; a drain's tenant faults (R304), a packet
ends with FAULT (R339). -/
def State.failCopy (s : State) (c : Nat) (op : CopyOp) (addr reason : Nat) : State :=
  let s := ((s.copyLaneGoes op).closeCopy c op).modCopy c (fun op => { op with counting := [], paused := none })
  let s := match op.block, op.tag with
    | some b, some n =>
      ((s.setTag b op.rank n { count := 0, ready := true, failed := ((s.tag b op.rank n).failed).or (some (addr, reason)) }).modBlock b (fun bl =>
        { bl with unheard := bl.unheard ++ [(tagKey op.rank n, addr, reason, 0x2000 + op.cluster)] })).tagWake b op.rank
    | _, _ => s
  (s.drainError op addr reason).failCmd op.cmd addr reason (listMax (op.counting.map (·.2)))

/-- A fault of an engine's access pauses its operation until `RESUME` (R148, R286, R339). -/
def State.pauseCopy (s : State) (c : Nat) (op : CopyOp) (a reason : Nat) : State :=
  let (qu, sq) := op.cmd.getD (s.cmdOf op.block)
  (s.raiseFault { ctx := op.ctx, page := pageOf a, fetch := false, reason := reason, faddr := a, engine := 0x2000 + op.cluster,
                  queue := qu, seq := sq, routed := false }).modCopy c (fun op => { op with paused := some (pageOf a) })

/-- An error response to an engine's access is logged and stops the operation. -/
def State.errorCopy (s : State) (c : Nat) (op : CopyOp) (a reason : Nat) : State :=
  (s.logError op.ctx a reason (0x2000 + op.cluster)).failCopy c op a reason

/-- A retry of a pinned line is counted in the partition of the issuing warp; that of an access which no warp issued in partition 0 of
its core (R103; DESIGN CHOICE, log entry 119). -/
def State.countRetry (s : State) (w : Option Nat) (core : Nat) (p : Who) (a : Nat) : State :=
  if s.pinnedAt p (lineOf a) (pageOf a) then
    s.bump (offCounter core (0x100 * ((w.bind s.warp?).map (·.part)).getD 0 + 0x68)) 1
  else s

/-- An access of an operation has not succeeded: it waits, pauses or stops. -/
def State.stopCopy {α : Type} (s : State) (c : Nat) (op : CopyOp) (a : Nat) (r : EngR α) : State :=
  match r with
  | .ok _ | .full => s
  | .retry => s.countRetry op.warp op.core op.who a
  | .fault e => s.pauseCopy c op a e
  | .error e => s.errorCopy c op a e

/-! ### Sectors (R57, R77) -/

/-- The bytes of the 48-byte sector of an address: of its line, or in the aperture of its bank. -/
def State.sectorAt (s : State) (x a : Nat) : Nat × Nat :=
  match s.apertureOff x a with
  | some o =>
    let i := o % 262144
    (a - i % 48, a - i + min 262144 (i / 48 * 48 + 48))
  | none => (a / 48 * 48, a / 48 * 48 + 48)

/-- The part of a piece whose destination lies in a range of bytes. -/
def CopyPiece.part (p : CopyPiece) (lo hi : Nat) : Option CopyPiece :=
  let a := max p.dst lo
  let b := min (p.dst + p.len) hi
  if b ≤ a then none
  else some { p with dst := a, src := p.src.map (· + (a - p.dst)), len := b - a, data := p.data >>> (8 * (a - p.dst)) }

/-- The parts of a piece outside a range. -/
def CopyPiece.left (p : CopyPiece) (lo hi : Nat) : List CopyPiece :=
  (p.part 0 lo).toList ++ (p.part hi (p.dst + p.len)).toList

/-- The parts of a piece of one sector, by chunk of its destination. -/
def CopyPiece.units (p : CopyPiece) : List CopyPiece :=
  (upTo 4).filterMap (fun i => p.part (16 * (p.dst / 16 + i)) (16 * (p.dst / 16 + i) + 16))

/-- The lowest byte of a 16-byte chunk that some pieces read. -/
def firstRead (ps : List CopyPiece) (ch : Nat) : Option Nat :=
  (ps.filterMap (fun p => p.src.bind (fun a => if a < 16 * ch + 16 ∧ 16 * ch < a + p.len then some (max a (16 * ch)) else none))).min?

/-- The chunks that some parts need to be read: of each source sector that they touch, every chunk that a piece still to be delivered
reads, so that a sector is read as a whole (R77). -/
def State.chunksFor (s : State) (op : CopyOp) (due : List CopyPiece) : List Nat :=
  ((due.flatMap (fun p => match p.src with
    | none => []
    | some a => [s.sectorAt op.ctx a, s.sectorAt op.ctx (a + p.len - 1)])).eraseDups.flatMap (fun e =>
      (upTo ((e.2 - e.1) / 16)).map (fun i => e.1 / 16 + i))).filter (fun ch =>
        (firstRead op.pieces ch).isSome && (mapGet? op.ahead ch).isNone)

/-- The bytes that a part writes: what has been read of its source, its data, or for a `FILL` byte (a mod 8) of the pattern, its
captured operand, at address a. -/
def CopyOp.value (c : CopyOp) (ahead : NatMap (BitVec 128)) (p : CopyPiece) : Nat :=
  match p.src with
  | some a =>
    let v := bytesNat ((upTo p.len).map (fun i => (mapGetD ahead ((a + i) / 16) 0).extractLsb' (8 * ((a + i) % 16)) 8))
    (match p.keep with
    | some m => (BitVec.ofNat 8 v &&& m).toNat
    | none => v)
  | none =>
    if c.kind = .fillPkt then
      bytesNat ((upTo p.len).map (fun i => (c.args.getD 0 0).extractLsb' (8 * ((p.dst + i) % 8)) 8))
    else p.data.toNat % 2 ^ (8 * p.len)

/-- The largest Tsy of the writes of a grid is noted for its final record (R347). -/
def State.noteSy (s : State) (block : Option Nat) (t : Nat) : State :=
  match block.bind (fun b => s.block? b) with
  | none => s
  | some bl => s.modGrid bl.grid (fun g => { g with hsy := max g.hsy t })

/-- HINT of a drain: of a bypass nothing is kept (R303). -/
def CopyOp.hint (c : CopyOp) : BitVec 2 :=
  match c.instr with
  | some (.tdrain h _ _ _ _ _ _ _ _ _) => h.hint
  | _ => 3

/-- A drain has written the last of its bytes in a line: the cluster cache takes a copy of it, as of a line that a load with its hint
fills (R303). -/
def State.drainFill (s : State) (op : CopyOp) (a : Nat) : State :=
  let q := coreReq op.who op.core op.block op.hint a 1
  if op.hint = 3 || (s.apertureOff op.ctx a).isSome || (s.cluster op.cluster).ways = [] || (s.leases op.ctx 0).2 = 0 ||
      s.peekType op.who a ≠ some 0 then s
  else
    match s.supply op.who q 0 with
    | (s, some f) => (s.next.keepFill { q with keep := false, fill := some f }).getD s
    | (s, none) => s

/-- The sector of its destination that an operation writes next: it goes upward, or downward where that keeps what it has still to read
(R284). -/
def State.nextSector (s : State) (op : CopyOp) : Nat × Nat :=
  match op.pieces with
  | [] => (0, 0)
  | p :: _ => s.sectorAt op.ctx (if op.back then p.dst + p.len - 1 else p.dst)

/-- The source bytes that an operation needs for some parts are read, beside those read ahead; an access that does not succeed ends it,
and is the answer with its address. -/
def State.readParts (s : State) (op : CopyOp) (due : List CopyPiece) : State × EngR (NatMap (BitVec 128)) × Nat :=
  engEach (fun ch => (firstRead op.pieces ch).getD 0) (fun s ch m =>
    let (s, r) := s.engRead op.who op.block (16 * ch) 16
    (s, r.map (fun v => mapSet m ch (BitVec.ofNat 128 v)))) s (s.chunksFor op due) op.ahead

/-- Some parts are written from what has been read; the answer is of each write its length, its completion time at the scope of the
operation, and its Tsy. -/
def State.writeParts (s : State) (op : CopyOp) (ahead : NatMap (BitVec 128)) (due : List CopyPiece) (whole : Bool) :
    State × EngR (List (Nat × Nat × Nat)) × Nat :=
  engEach (fun p => p.dst) (fun s p m =>
    let (s, r) := s.engWrite op.who op.block p.dst p.len (op.value ahead p)
      (op.add.map (fun t => { ty := t, pc := op.pc, row := p.row })) whole
    (s, r.map (fun t => m ++ [(p.len, t.1.at_ t.2 op.scope, t.2)]))) s (due.flatMap CopyPiece.units) []

/-- What is left of an operation after the parts of a sector are written: they are noted to be counted into its tag at their completion
times. -/
def State.delivered (s : State) (c : Nat) (op : CopyOp) (ahead : NatMap (BitVec 128)) (left : List CopyPiece) (done : List (Nat × Nat × Nat)) :
    State :=
  (s.noteSy op.block (listMax (done.map (·.2.2)))).modCopy c (fun o =>
    { o with pieces := left, ahead := ahead.filter (fun e => (firstRead left e.1).isSome),
             counting := o.counting ++ done.map (fun e => (e.1, e.2.1)) })

/-- The engine delivers the next bytes of an operation: all that it writes of one sector of its destination, so that nobody reads part
of them, from source sectors read as a whole (R77, R284, R304). Where one of its accesses does not succeed, none of them is made. -/
def State.deliverPiece (s : State) (c : Nat) (op : CopyOp) : State :=
  if op.pieces = [] then s
  else
    let (lo, hi) := s.nextSector op
    let due := op.pieces.filterMap (fun p => p.part lo hi)
    let left := op.pieces.flatMap (fun p => p.left lo hi)
    let whole := op.add.isNone && (upTo (hi - lo)).all (fun i => due.any (fun p => p.dst ≤ lo + i && lo + i < p.dst + p.len))
    match s.readParts op due with
    | (s1, .ok ahead, _) =>
      (match s1.writeParts op ahead due whole with
      | (s2, .ok done, _) =>
        let s := s2.delivered c op ahead left done
        if left.any (fun p => lineOf p.dst ≤ lineOf lo && lineOf lo ≤ lineOf (p.dst + p.len - 1)) then s
        else s.drainFill op ((due.map (·.dst)).headD lo)
      | (_, r, a) => s.stopCopy c op a r)
    | (_, r, a) => s.stopCopy c op a r

/-- Delivered bytes whose completion time has come are counted into the tag (R108). -/
def State.countDelivered (s : State) (c : Nat) (op : CopyOp) : State :=
  let now := s.gtimeAt (placeCluster op.cluster)
  let due := (op.counting.filter (fun e => e.2 ≤ now)).map (·.1)
  let s := s.modCopy c (fun op => { op with counting := op.counting.filter (fun e => ¬ e.2 ≤ now) })
  match op.block, op.tag with
  | some b, some n => due.foldl (fun s k => s.countTag b op.rank n op.core k) s
  | _, _ => s

/-- The command of a packet has performed its last write, at every scope. -/
def State.copyOver (s : State) (c : Nat) (op : CopyOp) : State :=
  let s := { s with copies := mapErase s.copies c }
  match op.cmd with
  | none => s
  | some (q, n) => s.modQueue q (fun k => k.modCmd n (fun c => { c with done := true }))

end Sys2Proof.Machine
end

