-- ==== Sys2Proof/Machine/Copy.lean ====
section
/-! DEFINITION. Copies and tensor copies (R283 to R287). -/

namespace Sys2Proof.Machine

/-! ### Checks of a lane's ranges (R284) -/

/-- Whether `n` bytes from an address are canonical; the first address that is not (R54). -/
def badAddress (a : DWord) (n : Nat) : Option DWord :=
  if !canonical a then some a
  else if va57 a < 2 ^ 56 ∧ 2 ^ 56 < va57 a + n then some 0x0100000000000000
  else none

/-- The range trap of some bytes that an operation touches (R76): at the first conflicting address. -/
def State.rangeTrap (s : State) (cluster asid view : Nat) (pc : PC) (writes : Bool) (a n : Nat) : Option Trap :=
  if n = 0 then none
  else
    ((s.cluster cluster).lockHit asid view a n writes).map (fun e =>
      { cause := 0x04, pc := pc, addr := some (signAddr (max a e.2.lo)), info := lockInfo e, resume := pc })

/-- The checks of a `cpy` of a lane. -/
def State.checkCpy (s : State) (p : Who) (pc : PC) (to_ from_ : DWord) (len : Nat) : Option Trap :=
  match badAddress to_ len, badAddress from_ len with
  | some a, _ => some (.access pc a 0x06)
  | none, some a => some (.access pc a 0x06)
  | none, none =>
    (s.rangeTrap p.cluster p.asid p.view pc true (va57 to_) len).or (s.rangeTrap p.cluster p.asid p.view pc false (va57 from_) len)

/-! ### An operation at issue -/

/-- An operation of a lane before it starts. -/
def copyOf (g : Grp) (p : Who) (kind : CopyKind) (tag : Nat) (scope : Scope) (auto : Bool) (group l : Nat) : CopyOp :=
  { kind := kind, st := .queued, ctx := p.ctx, asid := p.asid, view := p.view, cluster := p.cluster, core := g.wp.core,
    block := some g.wp.block, rank := g.wp.rank, tag := some tag, scope := scope, warp := some g.w, lane := l, pc := g.pc, instr := none, args := [], snap := [],
    org := .zero, auto := auto, armed := false, pieces := [], back := false, add := none, total := 0, ahead := [], locks := [], counting := [], paused := none,
    tenant := none, cmd := none, rel := none, group := group }

/-- The spans of an operation: destination and source. -/
def CopyOp.dstSpan (c : CopyOp) : Nat × Nat := spanOf (c.pieces.map (fun p => (p.dst, p.len)))
def CopyOp.srcSpan (c : CopyOp) : Option (Nat × Nat) :=
  match c.pieces.filterMap (fun p => p.src.map (fun a => (a, p.len))) with
  | [] => none
  | rs => some (spanOf rs)

/-- The kind that a range entry of an operation names (R76). -/
def CopyKind.lockKind (k : CopyKind) : Nat :=
  match k with
  | .cpyt => 1
  | .drain => 2
  | _ => 0

/-- Enter the ranges of an operation (R75). -/
def State.lockCopy (s : State) (op : CopyOp) : State × List Nat :=
  let e (x : Nat × Nat) (dest : Bool) : RangeLock :=
    { view := op.view, asid := op.asid, lo := x.1, hi := x.2, kind := op.kind.lockKind, dest := dest }
  let (s, ls) := match op.srcSpan with
    | some x => s.putLock op.cluster (e x false)
    | none => (s, [])
  let (s, ld) := s.putLock op.cluster (e op.dstSpan true)
  (s, ls ++ ld)

/-- Range entries that an operation needs (R75): one for its destination, and one for its source where it reads one. -/
def CopyOp.entries (c : CopyOp) : Nat := if c.total = 0 then 0 else if c.srcSpan.isSome then 2 else 1

/-- The operations of the other lanes of its instruction. -/
def State.copyMates (s : State) (c : Nat) (op : CopyOp) : List (Nat × CopyOp) :=
  s.copies.filter (fun e => e.1 ≠ c && e.2.warp = op.warp && e.2.group = op.group)

/-- An operation that has not issued (R284). -/
def CopyOp.atIssue (c : CopyOp) : Bool :=
  match c.st with
  | .lasts | .checks | .queued => true
  | _ => false

/-- A lower lane of its instruction has still to issue: the lanes issue one at a time (R284). -/
def State.copyTurn (s : State) (c : Nat) (op : CopyOp) : Bool :=
  (s.copyMates c op).all (fun e => op.lane ≤ e.2.lane || !e.2.atIssue)

/-- The engine of the cluster has a slot and the table the entries for an operation; one that moves nothing needs neither (R75,
R286). -/
def State.copyRoom (s : State) (op : CopyOp) : Bool :=
  op.total = 0 || (s.engineLoad op.cluster < 256 && op.entries ≤ (s.cluster op.cluster).locksFree)

/-- An operation whose checks are passed issues: once a slot and its entries are free, the lane releases; once the release is over, the tag
is armed with the bytes of the whole instruction, the ranges are entered, and the lane goes on (R284, R73, R75). -/
def State.issueCopy (s : State) (c : Nat) (op : CopyOp) : State :=
  match op.warp.bind (fun w => (s.warp? w).map (fun wp => (w, wp))) with
  | none => s.dropCopy c op
  | some (w, wp) =>
    if !s.copyRoom op then s
    else
      match op.rel with
      | none =>
        let (s, f) := s.beginRelease { w := w, wp := wp, lanes := [op.lane], pc := op.pc } [op.lane] op.scope
        s.modCopy c (fun op => { op with rel := some f })
      | some f =>
        let mates := s.copyMates c op
        if (mapGet? s.fences f).isSome || (op.auto && mates.any (fun e => e.2.st = .lasts)) then s
        else
          let s := if op.auto then
              (mates.foldl (fun s e => s.modCopy e.1 (fun op => { op with armed := true })) s).armTag (op.block.getD 0) op.rank
                (op.tag.getD 0) (op.total + (mates.map (·.2.total)).sum)
            else s
          let s := s.copyLaneGoes op
          if op.total = 0 then s.dropCopy c op
          else
            let (s, ls) := s.lockCopy op
            s.modCopy c (fun op => { op with st := .active, locks := ls, rel := none })

/-- A lane's operation ends in a trap at issue. -/
def State.trapCopy (s : State) (c : Nat) (op : CopyOp) (t : Trap) : State :=
  let s := s.dropCopy c op
  match op.warp with
  | none => s
  | some w => s.trapLane w op.lane t

/-- In a world, each page of the destination is looked at: a page of type 2 or 3 is a world escape (Table 7.5). The answer
is the first page whose lookup does not say type 0 or 1; a lookup that does not succeed comes with its page. -/
def State.probePages (p : Who) : State → List Nat → State × EngR (Option Nat) × Nat
  | s, [] => (s, .ok none, 0)
  | s, page :: rest =>
    match s.translate p page true with
    | (s, .ok _ mt _) => if 2 ≤ mt then (s, .ok (some page), page) else State.probePages p s rest
    | (s, .fault r) => (s, .fault r, page)
    | (s, .error e) => (s, .error e, page)
    | (s, .drop) => (s, .full, page)

/-- The pages that the destination of an operation touches. -/
def CopyOp.dstPages (c : CopyOp) : List Nat :=
  (c.pieces.flatMap (fun p => (upTo (pageOf (p.dst + p.len - 1) - pageOf p.dst + 1)).map (fun i => pageOf p.dst + i))).eraseDups

/-- The first byte of a page that an operation writes. -/
def CopyOp.firstIn (c : CopyOp) (page : Nat) : Nat :=
  ((c.pieces.filterMap (fun p => (p.part (page * 4096) (page * 4096 + 4096)).map (·.dst))).min?).getD (page * 4096)

/-- The world check of an operation, with the first byte that it writes to the page that answers. -/
def State.probeDst (s : State) (op : CopyOp) : State × EngR (Option Nat) × Nat :=
  if op.view = 0 then (s, .ok none, 0)
  else
    let (s, r, page) := s.probePages op.who (op.dstPages.filter (fun pg => (s.apertureOff op.ctx (pg * 4096)).isNone))
    (s, r, op.firstIn page)

/-- The checks of a lane's operation, in its turn: its ranges, and in a world the pages of its destination (R284, Table 7.5). A page
fault or an error response there is one of the operation's own accesses. -/
def State.checkCopy (s : State) (c : Nat) (op : CopyOp) : State :=
  let trap : Option Trap :=
    match op.kind, op.args with
    | .cpy, a :: b :: n :: _ => s.checkCpy op.who op.pc a b n.toNat
    | _, _ => op.pieces.findSome? (fun p =>
        (s.rangeTrap op.cluster op.asid op.view op.pc true p.dst p.len).or (p.src.bind (fun a =>
          s.rangeTrap op.cluster op.asid op.view op.pc false a p.len)))
  match trap with
  | some t => s.trapCopy c op t
  | none =>
    match s.probeDst op with
    | (s, .ok none, _) => s.modCopy c (fun op => { op with st := .queued })
    | (s, .ok (some _), a) => s.trapCopy c op { cause := 0x05, pc := op.pc, addr := some (signAddr a), info := 0, resume := op.pc }
    | (s, r, a) => s.stopCopy c op a r

/-- A drain whose destination had a page fault at its world check is checked again (R304). -/
def State.checkDrain (s : State) (c : Nat) (op : CopyOp) (t : Nat) : State :=
  match s.probeDst op with
  | (s, .ok none, _) => s.modCopy c (fun op => { op with st := .active })
  | (s, .ok (some _), a) => ((s.dropCopy c op).clearQueue t).tenantFault t 0x05 0 op.pc (signAddr a)
  | (s, r, a) => s.stopCopy c op a r

/-! ### Tensor copies (R285) -/

/-- The pieces of a tensor copy: destination last, source last, origins, format. -/
def tensorPieces (d r : Last) (org : List Int) (fmt : Nat) : List CopyPiece :=
  let step := if (dxBits fmt).isSome then 32 else if fmtBits fmt = 4 then 2 else 1
  let dims := (upTo d.rank).map (fun n => (d.size n, if n = 0 then step else 1))
  (box dims).map (fun cs =>
    let dc := cs.map Int.ofNat
    let sc := (upTo d.rank).map (fun n => dc.getD n 0 + org.getD n 0)
    let next := sc.set 0 (sc.getD 0 0 + 1)
    let dst := va57 (d.addr fmt dc)
    let src := va57 (r.addr fmt sc)
    match dxBits fmt with
    | some m => { dst := dst, src := if r.clipped sc then none else some src, len := dxBytes m, keep := none, data := 0, row := 0 }
    | none =>
      if fmtBits fmt = 4 then
        let lo := !r.clipped sc
        let hi := !r.clipped next
        { dst := dst, src := if lo || hi then some src else none, len := 1,
          keep := some ((if lo then 0x0F else 0) ||| (if hi then 0xF0 else 0)), data := 0, row := 0 }
      else { dst := dst, src := if r.clipped sc then none else some src, len := fmtBits fmt / 8, keep := none, data := 0, row := 0 })

/-- Some address that the pieces of a tensor copy touch is not canonical. -/
def tensorBad (d r : Last) (org : List Int) (fmt : Nat) : Option DWord :=
  let step := if (dxBits fmt).isSome then 32 else if fmtBits fmt = 4 then 2 else 1
  let dims := (upTo d.rank).map (fun n => (d.size n, if n = 0 then step else 1))
  (box dims).findSome? (fun cs =>
    let dc := cs.map Int.ofNat
    let sc := (upTo d.rank).map (fun n => dc.getD n 0 + org.getD n 0)
    let a := d.addr fmt dc
    let b := r.addr fmt sc
    if !canonical a then some a else if !r.clipped sc && !canonical b then some b else none)

/-- The checks of the lasts of a tensor copy (R152, R285): ILLOP reason 0x0B, MISALIGN, ACCESS. -/
def tensorCheck (pc : PC) (top : Nat) (slots : List (BitVec 128)) (x y : BitVec 512) (o : Opd) (org : List Int) : Option Trap :=
  let d := Last.ofBits x
  let r := Last.ofBits y
  let f (l : Last) : Nat := slotFmt (slots.getD l.slot 0)
  let fmt := f d
  let odd : Bool := org.getD 0 0 % 2 ≠ 0 || d.size 0 % 2 ≠ 0
  let off : Bool := org.getD 0 0 % 32 ≠ 0 || d.size 0 % 32 ≠ 0
  let regs : Bool := match o with
    | .v n => top < n.toNat + d.rank
    | .s n => 128 < n.toNat + d.rank
    | _ => false
  if lastIllop x fmt 0 || lastIllop y (f r) 0 || d.rank ≠ r.rank || fmt ≠ f r || d.trans || r.trans || (fmtBits fmt = 4 && odd) ||
      ((dxBits fmt).isSome && off) || regs then some (.illop pc 0x0B)
  else if d.misaligned fmt then some (.misalign pc d.base)
  else if r.misaligned fmt then some (.misalign pc r.base)
  else (tensorBad d r org fmt).map (fun a => .access pc a 0x06)

/-- A page fault of a last parks the lane at its `cpyt` with a replay record; without a free one it waits (R31, R32, R285). The record
counts in no counter: the instruction has its own. -/
def State.parkLasts (s : State) (op : CopyOp) (w a reason : Nat) : State :=
  match (s.warp? w).bind Warp.freeReplay with
  | none => s
  | some i =>
    let q := coreReq op.who op.core op.block 0 a 16
    let accs := (upTo 4).map (fun j => { lane := op.lane, addr := a + 16 * j, bytes := 16, data := 0, result := none, pred := false : Acc })
    let rp : Replay :=
      { req := { q with kind := .gath s.tick, warp := some w, accs := accs, pc := op.pc, group := op.group }, lanes := lanesMask [op.lane],
        waits := [pageOf a], fails := [], faddr := signAddr a }
    let (qu, sq) := s.cmdOf op.block
    (((s.raiseFault { ctx := op.ctx, page := pageOf a, fetch := false, reason := reason, faddr := a, engine := 0x1000 + op.core, queue := qu,
                      seq := sq, routed := false }).modWarp w (fun wp => { wp with replays := mapSet wp.replays i rp })).modLane w op.lane
      (fun la => { la with st := .faultPark i })).next

/-- The lane's two lasts are read, as its loads; then the copy is checked and its pieces are known (R285). -/
def State.lastsCopy (s : State) (c : Nat) (op : CopyOp) : State :=
  let ta := va57 (op.args.getD 0 0)
  let fa := va57 (op.args.getD 1 0)
  let stop (s : State) (a : Nat) (r : EngR Nat) : State :=
    match r, op.warp with
    | .fault e, some w => s.parkLasts op w a e
    | .error e, _ => (s.logError op.ctx a e (0x1000 + op.core)).trapCopy c op (.access op.pc (signAddr a) e)
    | .retry, _ => s.countRetry op.warp op.core { op.who with core := some op.core } a
    | _, _ => s
  match (s.rangeTrap op.cluster op.asid op.view op.pc false ta 64).or (s.rangeTrap op.cluster op.asid op.view op.pc false fa 64) with
  | some t => s.trapCopy c op t
  | none =>
    match s.readLast op.who op.core op.block ta with
    | (s, .ok x) =>
      (match s.readLast op.who op.core op.block fa with
      | (s, .ok y) =>
        let lr := op.block.bind s.recOfBlock
        let slots := (lr.map (·.slots)).getD []
        let org := (op.args.drop 2).map (fun o => (o.setWidth 32 : Word).toInt)
        let x := BitVec.ofNat 512 x
        let y := BitVec.ofNat 512 y
        match tensorCheck op.pc ((lr.map (·.regs)).getD 256) slots x y op.org org with
        | some t => s.trapCopy c op t
        | none =>
          let d := Last.ofBits x
          let ps := tensorPieces d (Last.ofBits y) org (slotFmt (slots.getD d.slot 0))
          s.modCopy c (fun op => { op with st := .checks, pieces := ps, total := (ps.map (·.len)).sum })
      | (s, r) => stop s fa r)
    | (s, r) => stop s ta r

/-- The lane of an operation still stands at it; one that is parked there waits for its replay record. -/
def State.copyHeld (s : State) (op : CopyOp) : Bool × Bool :=
  match op.warp.bind (fun w => s.lane? w op.lane) with
  | some la => (la.hold = .engine && la.pc = op.pc, la.st = .runnable)
  | none => (false, false)

/-- An operation of a lane that is at issue goes as far as it can. -/
def State.pushCopy (s : State) (c : Nat) : State :=
  let step (s : State) (f : Nat → CopyOp → State → State) (want : CopySt) : State :=
    match mapGet? s.copies c with
    | some op =>
      if op.st ≠ want || op.paused.isSome then s
      else if !(s.copyHeld op).1 then s.dropCopy c op
      else if !(s.copyHeld op).2 then s
      else f c op s
    | none => s
  let turn (f : State → Nat → CopyOp → State) (c : Nat) (op : CopyOp) (s : State) : State := if s.copyTurn c op then f s c op else s
  step (step (step s (fun c op s => s.lastsCopy c op) .lasts) (turn State.checkCopy) .checks) (turn State.issueCopy) .queued

/-- Enter operations of the lanes of an instruction, held at it, and let them go as far as they can (R284). -/
def State.startCopies (s : State) (g : Grp) (ops : List CopyOp) : State :=
  if ops = [] then s
  else
    let s := s.modLanes g.w (ops.map (·.lane)) (fun la => { la with hold := .engine })
    let s := s.modWarp g.w (fun wp => { wp with ctrCp := wp.ctrCp + 1 })
    let n := mapFresh s.copies
    let keys := (upTo ops.length).map (fun i => n + i)
    let s := { s with copies := s.copies ++ keys.zip ops }
    keys.foldl State.pushCopy s

/-- `cpy.S[.auto] [to], [from], len, tag` (R284). -/
def execCpy (h : Hdr) (scope : Scope) (auto : Bool) (to_ from_ len : Opd) (tag : TagOpd) (s : State) : Out :=
  .next (onGroup h (max (max (to_.top 64) (from_.top 64)) (len.top 32)) s (fun g G s =>
    outsideTx g G s (fun G s =>
      let n := match G with
        | [] => 0
        | l :: _ => (s.laneRegs g l).tagOf tag
      if s.tagsOf g.wp.block ≤ n then s.illopLanes g G 0x0B
      else
        let p := s.whoOf g
        let group := s.tick
        let ops := G.map (fun l =>
          let rg := s.laneRegs g l
          let t := BitVec.ofNat 64 (rg.src64 to_)
          let f := BitVec.ofNat 64 (rg.src64 from_)
          let k := rg.src32 len
          let d := va57 t
          let a := va57 f
          { copyOf g p .cpy n scope (auto && G.head? = some l) group l with
            st := .checks
            instr := some (.cpy h scope auto to_ from_ len tag)
            args := [t, f, BitVec.ofNat 64 k]
            pieces := if k = 0 then [] else [{ dst := d, src := some a, len := k, keep := none, data := 0, row := 0 }]
            back := a < d && d < a + k
            total := k })
        s.next.startCopies g ops)))

/-- `cpyt.S[.auto] [tolast], [fromlast], org, tag` (R285). -/
def execCpyt (h : Hdr) (scope : Scope) (auto : Bool) (to_ from_ org : Opd) (tag : TagOpd) (s : State) : Out :=
  .next (onGroup h (max (max (to_.top 64) (from_.top 64)) (org.top 32)) s (fun g G s =>
    outsideTx g G s (fun G s =>
      let n := match G with
        | [] => 0
        | l :: _ => (s.laneRegs g l).tagOf tag
      if s.tagsOf g.wp.block ≤ n then s.illopLanes g G 0x0B
      else
        let p := s.whoOf g
        let group := s.tick
        let (s, ops) := G.foldl (fun (r : State × List CopyOp) l =>
          let rg := s.laneRegs g l
          let t := BitVec.ofNat 64 (rg.src64 to_)
          let f := BitVec.ofNat 64 (rg.src64 from_)
          let os := (upTo 5).map (fun i => match org with
            | .v m => (rg.vr (m.toNat + i)).setWidth 64
            | .s m => (rg.sr (m.toNat + i)).setWidth 64
            | _ => 0)
          if !canonical t then (r.1.trapLane g.w l (.access g.pc t 0x06), r.2)
          else if !canonical f then (r.1.trapLane g.w l (.access g.pc f 0x06), r.2)
          else if t.toNat % 64 ≠ 0 then (r.1.trapLane g.w l (.misalign g.pc t), r.2)
          else if f.toNat % 64 ≠ 0 then (r.1.trapLane g.w l (.misalign g.pc f), r.2)
          else (r.1, r.2 ++ [{ copyOf g p .cpyt n scope (auto && G.head? = some l) group l with
            st := .lasts, instr := some (.cpyt h scope auto to_ from_ org tag), args := [t, f] ++ os, org := org }])) (s, [])
        s.next.startCopies g ops)))

/-- `COPY_DELIVER`: an operation of an engine makes progress: at issue, it starts once it can; in progress, its next sector is
delivered, but for a block that PREEMPT saves (Table 20.3); delivered bytes whose time has come are counted; after the last, its
entries are released (R73, R75, R108, R284, R287). -/
def execCopyDeliver (c : Nat) (s : State) : Out :=
  .next (match mapGet? s.copies c with
  | none => s
  | some op =>
    let s := s.countDelivered c op
    match op.st with
    | .lasts | .checks | .queued =>
      (match op.tenant with
      | some t => if op.paused.isSome then s else s.checkDrain c op t
      | none => s.pushCopy c)
    | .active =>
      if op.paused.isSome || s.isSaving op.block then s
      else if op.armed && op.locks = [] then
        (if s.copyRoom op then
          let (s, ls) := s.lockCopy op
          s.modCopy c (fun op => { op with locks := ls })
        else s)
      else
        let s := s.deliverPiece c op
        match mapGet? s.copies c with
        | none => s
        | some op => if op.st = .active && op.pieces = [] then s.closeCopy c op else s
    | .closed =>
      (match mapGet? s.copies c with
      | none => s
      | some op => if op.counting = [] then s.copyOver c op else s)
    | .saved => s)

end Sys2Proof.Machine
end

