-- ==== Sys2Proof/Machine/Telemetry.lean ====
section
/-! DEFINITION. The histogram engine: samples, their buffer, the table in memory, and its enabling and draining (R395 to
R397). -/

namespace Sys2Proof.Machine

/-- Fields of HCTL (Table 21.5). -/
def State.histOn (s : State) : Bool := (s.reg offHctl).getLsbD 0
def State.histSource (s : State) : Nat := (s.reg offHctl).toNat / 2 % 4
def State.histPeriod (s : State) : Nat := 2 ^ ((s.reg offHctl).toNat / 16 % 16)
def State.histPart (s : State) : Nat := (s.reg offHctl).toNat / 256 % 8
def State.histCtx (s : State) : Option Nat :=
  if (s.reg offHctl).getLsbD 11 then some (64 * s.histPart + (s.reg offHctl).toNat / 4096 % 64) else none

/-- KEY of a sample (R396). -/
def histKey (code : Nat) (pc : PC) : DWord := BitVec.ofNat 64 (2 ^ 63 + code * 2 ^ 53 + pc.toNat / 16)

/-- log2 of the number of entries of the table. -/
def State.histLog (s : State) : Nat := (s.reg offHsize).toNat % 32

/-- The entry of the table that a key goes to: the first of its nine probes that holds it or is empty; entry 0 otherwise. -/
def State.histEntry (s : State) (key : DWord) : Nat :=
  let n := 2 ^ s.histLog
  let i := (hashH 0 key).toNat / 2 ^ (64 - s.histLog)
  let base := (s.reg offHbase).toNat
  let probes := ((upTo 9).map (fun j => (i + j) % n)).filter (· ≠ 0)
  (probes.find? (fun e =>
    let k := bytesNat (s.physBytes (base + 16 * e) 8)
    k = key.toNat || k = 0)).getD 0

/-- An entry's count is added to the table (R396). -/
def State.histWrite (s : State) (key : DWord) (n : Nat) : State :=
  let e := s.histEntry key
  let a := (s.reg offHbase).toNat + 16 * e
  let old := bytesNat (s.physBytes (a + 8) 8)
  (s.physWrite a (natBytes 8 (if e = 0 then 2 ^ 64 - 1 else key.toNat))).physWrite (a + 8) (natBytes 8 (old + n))

/-- A sample enters the buffer of 64 entries; a new key evicts the oldest entry when the buffer is full. -/
def State.histAdd (s : State) (key : DWord) : State :=
  if s.histBuf.any (fun e => e.1 = key) then
    { s with histBuf := s.histBuf.map (fun e => if e.1 = key then (e.1, e.2 + 1) else e) }
  else if s.histBuf.length < 64 then { s with histBuf := s.histBuf ++ [(key, 1)] }
  else
    match s.histBuf with
    | [] => s
    | e :: rest => { s.histWrite e.1 e.2 with histBuf := rest ++ [(key, 1)] }

def Part.reset : Part := { insts := [], batch := none, ctrlUsed := 0, histEvents := 0 }
/-- A scheduling partition. -/
def State.part (s : State) (k j : Nat) : Part := mapGetD (s.core k).parts j Part.reset
def State.modPart (s : State) (k j : Nat) (f : Part → Part) : State :=
  s.modCore k (fun c => { c with parts := mapSet c.parts j (f (mapGetD c.parts j Part.reset)) })

/-- An event of a source in a scheduling partition: every 2^P-th one is sampled (R396). -/
def State.histEvent (s : State) (k j source code : Nat) (pc : PC) (ctx : Option Nat) : State :=
  if s.histOn && s.histSource = source && s.clusterPart (clusterOf k) = s.histPart &&
      (s.histCtx.isNone || ctx.isNone || s.histCtx = ctx) then
    let n := (s.part k j).histEvents + 1
    let s := s.modPart k j (fun p => { p with histEvents := n })
    if n % s.histPeriod = 0 then s.histAdd (histKey code pc) else s
  else s

/-- `HIST_ENABLE`: a write that sets EN; ignored while BUSY, for SOURCE 3, for an HSIZE out of range and a PART that names no
hard partition (R395). -/
def execHistEnable (v : DWord) (s : State) : Out :=
  .next (
    let v' := v &&& 0x3FFF7
    if (s.reg offHctl).getLsbD 63 ∨ v.toNat / 2 % 4 = 3 ∨ s.histLog < 4 ∨ 20 < s.histLog ∨ s.nparts ≤ v.toNat / 256 % 8 then s
    else
      { s.setReg offHctl v' with
        histBuf := []
        cores := s.cores.map (fun e => (e.1, { e.2 with parts := e.2.parts.map (fun p => (p.1, { p.2 with histEvents := 0 })) })) })

/-- `HIST_DISABLE`: a write that clears EN sets BUSY; the buffer is still to be written out (R397). -/
def execHistDisable (v : DWord) (s : State) : Out := .next (s.setReg offHctl ((v &&& 0x3FFF6) ||| 0x8000000000000000))

/-- `HIST_DRAIN_DONE`: the buffer is written out and released, and BUSY clears (R397). -/
def execHistDrainDone (s : State) : Out :=
  .next (
    if (s.reg offHctl).getLsbD 63 then
      let s := s.histBuf.foldl (fun s e => s.histWrite e.1 e.2) s
      ({ s with histBuf := [] } : State).setReg offHctl (s.reg offHctl &&& 0x7FFFFFFFFFFFFFFF)
    else s)

end Sys2Proof.Machine
end

