-- ==== Sys2Proof/Machine/Special.lean ====
section
/-! DEFINITION. Special functions, correctly rounded (Table 10.5, R248 to R250): reciprocal and roots by exact integer
arithmetic, the others by enclosures of growing precision until both ends of an enclosure round alike. -/

namespace Sys2Proof.Machine

/-- An approximation `v / 2^P` with an error of at most `err / 2^P`. -/
structure Ball where
  v : Int
  err : Nat
  deriving DecidableEq, Repr

/-- The ends of a ball at precision `p`, scaled by 2^n. -/
def Ball.lo (b : Ball) (p : Nat) (n : Int) : Ex := { num := b.v - b.err, exp := n - p, den := 1 }
def Ball.hi (b : Ball) (p : Nat) (n : Int) : Ex := { num := b.v + b.err, exp := n - p, den := 1 }

/-- The largest integer whose square is at most `n`, tried bit by bit from bit `k - 1`. -/
def isqrt (n : Nat) : Nat → Nat → Nat
  | 0, r => r
  | k + 1, r => if (r + 2 ^ k) * (r + 2 ^ k) ≤ n then isqrt n k (r + 2 ^ k) else isqrt n k r

/-- A number that rounds as the square root of `num / den` does, when no rounding boundary lies strictly between two
neighbouring multiples of 2^−k: the root itself when it is such a multiple, else a point between its neighbours. -/
def sqrtEx (num den k : Nat) : Ex :=
  let n := num * 2 ^ (2 * k) / den
  let r := isqrt n (Nat.log2 n / 2 + 1) 0
  if r * r * den = num * 2 ^ (2 * k) then { num := r, exp := -(k : Int), den := 1 }
  else { num := 2 * r + 1, exp := -(k : Int) - 1, den := 1 }

/-- The square root of m · 2^e, or of its reciprocal, to 128 bits at least. -/
def sqrtOf (recip : Bool) (m : Nat) (e : Int) : Ex :=
  let m2 := if e % 2 = 0 then m else 2 * m
  let h := (e - e % 2) / 2
  if recip then (sqrtEx 1 m2 320).scale (-h) else (sqrtEx m2 1 128).scale h

/-- Taylor terms of an exponential or circular series: `t`, times `c / 2^p` twice or once, divided by the next factors.
`step` is 1 for e^c and 2 for sin and cos, whose signs alternate. -/
def taylor (p : Nat) (c : Int) (step : Nat) : Nat → Nat → Int → Int
  | 0, _, _ => 0
  | n + 1, k, t =>
    let u := t * c / (2 ^ p : Nat)
    let t' := if step = 1 then u / (k + 1 : Nat) else -(u * c / (2 ^ p : Nat)) / ((k + 1) * (k + 2) : Nat)
    t + taylor p c step n (k + step) t'

/-- e^(c / 2^p) for |c / 2^p| ≤ 1. -/
def expBall (p : Nat) (c : Ball) : Ball :=
  let n := p / 3 + 12
  { v := taylor p c.v 1 n 0 (2 ^ p : Nat), err := n * n + 4 + 3 * c.err }
def cosBall (p : Nat) (c : Ball) : Ball :=
  let n := p / 4 + 12
  { v := taylor p c.v 2 n 0 (2 ^ p : Nat), err := 5 * n + 4 + c.err }
def sinBall (p : Nat) (c : Ball) : Ball :=
  let n := p / 4 + 12
  { v := taylor p c.v 2 n 1 c.v, err := 5 * n + 4 + c.err }

/-- Σ z^(2k+1) / (2k+1), `w` being z^(2k+1). -/
def atanhGo (p : Nat) (z : Int) : Nat → Nat → Int → Int
  | 0, _, _ => 0
  | n + 1, k, w => w / (2 * k + 1 : Nat) + atanhGo p z n (k + 1) (w * z / (2 ^ p : Nat) * z / (2 ^ p : Nat))
/-- ln(a / b) for 1 ≤ a / b ≤ 2, as 2 atanh((a − b)/(a + b)). -/
def lnBall (p a b : Nat) : Ball :=
  let z : Int := ((a - b) * 2 ^ p / (a + b) : Nat)
  let n := p / 3 + 8
  { v := 2 * atanhGo p z n 0 z, err := 16 * n + 8 }

/-- Σ (−1)^k / ((2k+1) q^(2k+1)), `w` being 2^p / q^(2k+1). -/
def atanGo (q : Nat) : Nat → Nat → Nat → Int
  | 0, _, _ => 0
  | n + 1, k, w => (w / (2 * k + 1) : Nat) - atanGo q n (k + 1) (w / (q * q))
/-- π by Machin's formula. -/
def piBall (p : Nat) : Ball :=
  let n := p / 4 + 8
  { v := 16 * atanGo 5 n 0 (2 ^ p / 5) - 4 * atanGo 239 n 0 (2 ^ p / 239), err := 50 * n }

/-- The square of a ball. -/
def Ball.sq (p : Nat) (b : Ball) : Ball :=
  { v := b.v * b.v / (2 ^ p : Nat), err := (2 * b.v.natAbs * b.err + b.err * b.err) / 2 ^ p + 2 }
def Ball.sqs (p : Nat) : Nat → Ball → Ball
  | 0, b => b
  | n + 1, b => Ball.sqs p n (b.sq p)

/-- e^y for y = m · 2^e, 0 ≤ y < 256: the 512th part's exponential squared nine times. -/
def expOf (p m : Nat) (e : Int) : Ball :=
  let c : Int := if 0 ≤ e + p - 9 then (m * 2 ^ (e + p - 9).toNat : Nat) else (m / 2 ^ (9 - e - p).toNat : Nat)
  (expBall p { v := c, err := 1 }).sqs p 9

/-- An enclosure of a function's value. -/
abbrev Encl := Ex × Ex

/-- The functions that enclosures serve. -/
inductive SpecialFn where
  | exp2 | log2 | sin | cos | tanh | sigm
  deriving DecidableEq, Repr

/-- 2^(± m · 2^e), not an integer exponent. -/
def exp2Encl (p : Nat) (neg : Bool) (m : Nat) (e : Int) : Encl :=
  let b : Ex := (FV.fin neg m e).ex
  if (2048 : Int) ≤ b.round .rd then ({ num := 1, exp := 2000, den := 1 }, { num := 1, exp := 2001, den := 1 })
  else if b.round .rd < -2048 then ({ num := 1, exp := -2001, den := 1 }, { num := 1, exp := -2000, den := 1 })
  else
    let n := b.round .rd
    let f := (b.sub (Ex.ofInt n)).roundAt .rd (-(p : Int))
    let l2 := lnBall p 2 1
    let x := expBall p { v := f * l2.v / (2 ^ p : Nat), err := l2.err + 3 }
    (x.lo p n, x.hi p n)

/-- log2(m · 2^e), not a power of two. -/
def log2Encl (p : Nat) (m : Nat) (e : Int) : Encl :=
  let k := Nat.log2 m
  let lx := lnBall p m (2 ^ k)
  let l2 := lnBall p 2 1
  let q : Int := lx.v * (2 ^ p : Nat) / l2.v
  let b : Ball := { v := (e + k) * (2 ^ p : Nat) + q, err := 2 * (lx.err + l2.err) + 4 }
  (b.lo p 0, b.hi p 0)

/-- sin or cos of ± m · 2^e, reduced by multiples of π/2 at `p` + 192 bits. -/
def trigEncl (isCos : Bool) (p : Nat) (neg : Bool) (m : Nat) (e : Int) : Encl :=
  let q := p + 192
  let b : Nat := if 0 ≤ e + q then m * 2 ^ (e + q).toNat else m / 2 ^ (-(e + q)).toNat
  let pi := piBall q
  let k : Nat := 2 * b / pi.v.natAbs
  let r : Ball := { v := (2 * (b : Int) - k * pi.v) / 2, err := k * pi.err + 2 }
  let quad := (if isCos then k + 1 else k) % 4
  let x := if quad % 2 = 0 then sinBall q r else cosBall q r
  let flip := (quad / 2 = 1) != (neg && !isCos)
  let x : Ball := if flip then { x with v := -x.v } else x
  (x.lo q 0, x.hi q 0)

/-- b − b³/a and b − b³/a + b⁵·c/d, which enclose an odd function near zero. -/
def cubicEncl (b : Ex) (a : Nat) (c : Int) (d : Nat) : Encl :=
  let b3 := (b.mul b).mul b
  let lo := b.sub { b3 with den := b3.den * a }
  let b5 := (b3.mul b).mul b
  (lo, lo.add { b5 with num := b5.num * c, den := b5.den * d })

/-- An enclosure of F(± m · 2^e) at precision `p`; exact cases do not reach it. -/
def enclose (fn : SpecialFn) (p : Nat) (neg : Bool) (m : Nat) (e : Int) : Encl :=
  let b : Ex := (FV.fin neg m e).ex
  let lg := b.ilog2
  let one : Nat := 2 ^ p
  match fn with
  | .exp2 => exp2Encl p neg m e
  | .log2 => log2Encl p m e
  | .sin => if lg < -20 then cubicEncl b 6 1 120 else trigEncl false p neg m e
  | .cos => trigEncl true p neg m e
  | .tanh =>
    if lg < -20 then cubicEncl b 3 2 15
    else
      let r : Encl :=
        if 6 ≤ lg then ({ num := 2 ^ 90 - 1, exp := -90, den := 1 }, Ex.ofInt 1)
        else
          let x := expOf p m (e + 1)
          let at' (v : Int) : Ex := { num := v - one, exp := 0, den := (v + one).natAbs }
          (at' (x.v - x.err), at' (x.v + x.err))
      if neg then (r.2.neg, r.1.neg) else r
  | .sigm =>
    if neg then
      if 7 ≤ lg then ({ num := 1, exp := -400, den := 1 }, { num := 1, exp := -184, den := 1 })
      else
        let x := expOf p m e
        let at' (v : Int) : Ex := { num := one, exp := 0, den := (v + one).natAbs }
        (at' (x.v + x.err), at' (x.v - x.err))
    else if 6 ≤ lg then ({ num := 2 ^ 90 - 1, exp := -90, den := 1 }, Ex.ofInt 1)
    else
      let x := expOf p m e
      let at' (v : Int) : Ex := { num := v, exp := 0, den := (v + one).natAbs }
      (at' (x.v - x.err), at' (x.v + x.err))

/-- The rounding on which both ends of an enclosure agree, at the first of some precisions at which they do. -/
def roundEncl (f : FF) (r16 : Nat) (encl : Nat → Encl) : List Nat → Nat
  | [] => 0
  | p :: ps =>
    let x := encl p
    let lo := f.write .rn false r16 false x.1
    if lo = f.write .rn false r16 false x.2 then lo else roundEncl f r16 encl ps

/-- The precisions tried, in bits. -/
def precisions : List Nat := [96, 192, 400, 1000, 2600]

/-- Whether ± m · 2^e is an integer. -/
def isIntEx (m : Nat) (e : Int) : Bool := 0 ≤ e || m % 2 ^ (-e).toNat = 0

/-- The exact value of a function at the operands of Table 10.6 and at its other rational values; `none` for the rest.
The inner `none` is an invalid operation. -/
def specialExact (fn : SpecialFn) (v : FV) : Option (Option FV) :=
  let val (n : Int) (e : Int) : Option (Option FV) := some (some (FV.ofNum n e false))
  match fn, v with
  | .exp2, .inf n => if n then val 0 0 else some (some (.inf false))
  | .exp2, .fin n m e =>
    if isIntEx m e ∧ (m = 0 ∨ (FV.fin n m e).ex.ilog2 < 12) then val 1 ((FV.fin n m e).ex.round .rz) else none
  | .log2, .inf n => if n then some none else some (some (.inf false))
  | .log2, .fin n m e =>
    if m = 0 then some (some (.inf true))
    else if n then some none
    else if m = 2 ^ Nat.log2 m then val (e + Nat.log2 m) 0 else none
  | .sin, .inf _ => some none
  | .sin, .fin n m e => if m = 0 then some (some (.fin n 0 e)) else none
  | .cos, .inf _ => some none
  | .cos, .fin _ m _ => if m = 0 then val 1 0 else none
  | .tanh, .inf n => val (if n then -1 else 1) 0
  | .tanh, .fin n m e => if m = 0 then some (some (.fin n 0 e)) else none
  | .sigm, .inf n => val (if n then 0 else 1) 0
  | .sigm, .fin _ m _ => if m = 0 then val 1 (-1) else none
  | _, .nan n m => some (some (.nan n m))

/-- A special function of a pattern in a format (R249). -/
def specialBits (fn : SpecialFn) (f : FF) (r16 : Nat) (pc : PC) (l b : Nat) : Nat :=
  let v := f.read b
  match specialExact fn v with
  | some x => f.result .rn false r16 pc l [v] x
  | none =>
    match v with
    | .fin n m e => roundEncl f r16 (fun p => enclose fn p n m e) precisions
    | _ => 0

/-- `frcp` of a pattern (R249, Table 10.6). -/
def rcpBits (f : FF) (rnd : Rnd) (r16 b : Nat) : Nat :=
  match f.read b with
  | .nan n m => f.quieted n m
  | .inf n => f.zero n
  | .fin n m e =>
    if m = 0 then f.inf n else f.write rnd false r16 n ((Ex.ofInt 1).div (FV.fin n m e).ex)

/-- `fsqrt` or `frsq` of a pattern (R249, Table 10.6). -/
def rootBits (recip : Bool) (f : FF) (rnd : Rnd) (r16 : Nat) (pc : PC) (l b : Nat) : Nat :=
  match f.read b with
  | .nan n m => f.quieted n m
  | .inf n =>
    if n then f.nan false (nanPayload pc l) else if recip then f.zero false else f.inf false
  | .fin n m e =>
    if m = 0 then (if recip then f.inf n else f.zero n)
    else if n then f.nan false (nanPayload pc l)
    else f.write rnd false r16 false (sqrtOf recip m e)

/-- A function of one source, part by part (R249). -/
def specialOp (h : Hdr) (t : Ty) (a : Dst) (b : Opd) (f : FF → Nat → Regs → Nat → Nat) (s : State) : State :=
  alu1 h a t.bits (b.top t.bits)
    (fun r => joinParts t (fun p => f (Ty.ff t) (r.rand p) r (part t (r.src t b) p))) s

/-- `frcp` (R249). -/
def execFrcp (h : Hdr) (t : Ty) (rnd : Rnd) (a : Dst) (b : Opd) (s : State) : Out :=
  .next (specialOp h t a b (fun f r16 _ x => rcpBits f rnd r16 x) s)

/-- `frsq` (R249). -/
def execFrsq (h : Hdr) (t : Ty) (a : Dst) (b : Opd) (s : State) : Out :=
  .next (specialOp h t a b (fun f r16 r x => rootBits true f .rn r16 r.pc r.lane x) s)

/-- `fsqrt` (R249). -/
def execFsqrt (h : Hdr) (t : Ty) (rnd : Rnd) (a : Dst) (b : Opd) (s : State) : Out :=
  .next (specialOp h t a b (fun f r16 r x => rootBits false f rnd r16 r.pc r.lane x) s)

/-- `fexp2` (R249). -/
def execFexp2 (h : Hdr) (t : Ty) (a : Dst) (b : Opd) (s : State) : Out :=
  .next (specialOp h t a b (fun f r16 r x => specialBits .exp2 f r16 r.pc r.lane x) s)

/-- `flog2` (R249). -/
def execFlog2 (h : Hdr) (t : Ty) (a : Dst) (b : Opd) (s : State) : Out :=
  .next (specialOp h t a b (fun f r16 r x => specialBits .log2 f r16 r.pc r.lane x) s)

/-- `fsin` (R249). -/
def execFsin (h : Hdr) (t : Ty) (a : Dst) (b : Opd) (s : State) : Out :=
  .next (specialOp h t a b (fun f r16 r x => specialBits .sin f r16 r.pc r.lane x) s)

/-- `fcos` (R249). -/
def execFcos (h : Hdr) (t : Ty) (a : Dst) (b : Opd) (s : State) : Out :=
  .next (specialOp h t a b (fun f r16 r x => specialBits .cos f r16 r.pc r.lane x) s)

/-- `ftanh` (R249). -/
def execFtanh (h : Hdr) (t : Ty) (a : Dst) (b : Opd) (s : State) : Out :=
  .next (specialOp h t a b (fun f r16 r x => specialBits .tanh f r16 r.pc r.lane x) s)

/-- `fsigm` (R249). -/
def execFsigm (h : Hdr) (t : Ty) (a : Dst) (b : Opd) (s : State) : Out :=
  .next (specialOp h t a b (fun f r16 r x => specialBits .sigm f r16 r.pc r.lane x) s)

end Sys2Proof.Machine
end

