-- ==== Sys2Proof/Machine/TileMath.lean ====
section
/-! DEFINITION. Tiles as numbers: elements through their slots, grouped exact sums, sparse and decomposed products, the
decomposition, and values written into tiles (R131 to R133, R140 to R142, R156 to R159, R299 to R306). -/

namespace Sys2Proof.Machine

/-! ### Sums of values (R126, R127, R131) -/

/-- The first NaN of a list (R127). -/
def firstNaNX : List XV → Option XV
  | [] => none
  | .nan n m f :: _ => some (.nan n m f)
  | _ :: rest => firstNaNX rest

/-- The exact product of two values that are not NaN; `none` for 0 · ∞. -/
def XV.mul (x y : XV) : Option XV :=
  match x, y with
  | .inf a, .num b v => if v.isZero then none else some (.inf (a != b))
  | .num a v, .inf b => if v.isZero then none else some (.inf (a != b))
  | .inf a, .inf b => some (.inf (a != b))
  | .num a v, .num b w => some (.num (a != b) (v.mul w))
  | x, _ => some x

/-- The exact sum of values that are not NaN: `none` for ∞ − ∞; a sum of zeros is −0 only if every term is −0 (R131). -/
def sumX (xs : List XV) : Option XV :=
  let infs := xs.filter XV.isInf
  match infs with
  | x :: rest => if rest.all (fun y => y.neg = x.neg) then some x else none
  | [] =>
    let total := xs.foldl (fun a v => match v with | .num _ x => a.add x | _ => a) Ex.zero
    some (.num (xs.all (fun v => match v with | .num n x => n && x.isZero | _ => false)) total)

/-- A value in a format: the first NaN operand, the NaN of an invalid operation of origin `o`, or the exact value rounded
(R126 to R128). -/
def FF.resultX (f : FF) (pc : PC) (o : Nat) (ops : List XV) (v : Option XV) : Nat :=
  match firstNaNX ops with
  | some n => f.put .rn false 0 n
  | none =>
    match v with
    | none => f.nan false (nanPayload pc o)
    | some v => f.put .rn false 0 v

/-- All the products of a list of pairs; `none` where one is invalid. -/
def productsX : List (XV × XV) → Option (List XV)
  | [] => some []
  | (a, b) :: rest => (a.mul b).bind (fun p => (productsX rest).map (fun ps => p :: ps))

/-- How a product accumulates (R156). -/
inductive AccT where
  | f32 | f64 | i32
  deriving DecidableEq, Repr

/-- One group added into an accumulator (R131): the exact sum of its products and the accumulator, rounded once; INT32
wraps. -/
def accStep (k : AccT) (pc : PC) (o acc : Nat) (ts : List (XV × XV)) : Nat :=
  match k with
  | .i32 =>
    let s := ts.foldl (fun (n : Int) t => match t with
      | (.num _ x, .num _ y) => n + (x.mul y).round .rn
      | _ => n) 0
    wrapTo .i32 (intVal .i32 acc + s)
  | _ =>
    let f := if k = .f64 then FF.fp64 else FF.fp32
    let x := f.xv acc
    f.resultX pc o (x :: ts.flatMap (fun t => [t.1, t.2])) ((productsX ts).bind (fun ps => sumX (x :: ps)))

/-- The groups of 16 positions of a reduction of length `K` (R131): a group with no present position leaves the accumulator
alone. -/
def accGroups (k : AccT) (pc : PC) (o K : Nat) (present : Nat → Bool) (term : Nat → XV × XV) (acc : Nat) : Nat :=
  (upTo ((K + 15) / 16)).foldl (fun acc g =>
    match ((upTo 16).map (fun i => 16 * g + i)).filter (fun p => p < K && present p) with
    | [] => acc
    | ps => accStep k pc o acc (ps.map term)) acc

/-! ### Tiles (R140, R141) -/

/-- A tile as a product sees it: its slot, its rows and its ranges. -/
structure Tile where
  slot : BitVec 128
  row : Nat → Line
  rlo : Nat
  rhi : Nat
  clo : Nat
  chi : Nat

def Tile.fmt (t : Tile) : Nat := slotFmt t.slot
def Tile.K (t : Tile) : Nat := fmtK t.fmt
def Tile.hasRow (t : Tile) (i : Nat) : Bool := t.rlo ≤ i && i < t.rhi
def Tile.hasCol (t : Tile) (k : Nat) : Bool := t.clo ≤ k && k < t.chi
/-- An element is present (R140). -/
def Tile.has (t : Tile) (i k : Nat) : Bool := t.hasRow i && t.hasCol k

/-- Element (i, k) through the slot (R115 to R117, R121); an element of a block NaN carries the payload of the reading
instruction with origin `o`. -/
def Tile.elem (t : Tile) (pc : PC) (o i k : Nat) : XV :=
  match dxBits t.fmt with
  | some m =>
    match dxRead m (lineGet (t.row i) (k / 32 * dxBytes m) (dxBytes m)) (k % 32) with
    | some v => v
    | none => .nan false (FF.fp32.quiet + nanPayload pc o) .fp32
  | none => readSlot t.slot ((t.row i).toNat / 2 ^ (fmtBits t.fmt * k) % 2 ^ fmtBits t.fmt)

/-- An element counts as nonzero: its value is not ±0 (R158). -/
def XV.nonzero (v : XV) : Bool :=
  match v with
  | .num _ x => !x.isZero
  | _ => true

/-- A tile of a tenant under the slots of its launch. -/
def Tenant.tile (te : Tenant) (slots : List (BitVec 128)) (t : Nat) : Tile :=
  let r := mapGetD te.trows t 0
  let c := mapGetD te.tcols t 0
  { slot := slots.getD ((mapGetD te.tslot t 0).toNat) 0, row := fun i => mapGetD te.tiles (32 * t + i) 0,
    rlo := r.toNat % 65536, rhi := r.toNat / 65536, clo := c.toNat % 65536, chi := c.toNat / 65536 }

/-- The kind in which a product accumulates (R156). -/
def accKind (a b : BitVec 128) : AccT :=
  if slotFmt a = 0 then .f64
  else if (slotFmt a = 10 || slotFmt a = 11) && slotScale a ≠ 1 && slotScale b ≠ 1 then .i32
  else .f32

/-- Element (i, j) of an accumulator, or of a pair for FP64 (R142). -/
def Tenant.accGet (te : Tenant) (wide : Bool) (a i j : Nat) : Nat :=
  let lo := (mapGetD te.acc (1024 * a + 32 * i + j) 0).toNat
  if wide then lo + 2 ^ 32 * (mapGetD te.acc (1024 * (a + 1) + 32 * i + j) 0).toNat else lo
def Tenant.accSet (te : Tenant) (wide : Bool) (a i j x : Nat) : Tenant :=
  let te := { te with acc := mapPut 0 te.acc (1024 * a + 32 * i + j) (BitVec.ofNat 32 x) }
  if wide then { te with acc := mapPut 0 te.acc (1024 * (a + 1) + 32 * i + j) (BitVec.ofNat 32 (x / 2 ^ 32)) } else te

/-- Every element of an accumulator anew. -/
def Tenant.accMap (te : Tenant) (wide : Bool) (a : Nat) (f : Nat → Nat → Nat → Nat) : Tenant :=
  (upTo 32).foldl (fun te' i => (upTo 32).foldl (fun te' j => te'.accSet wide a i j (f i j (te.accGet wide a i j))) te') te

/-- One pass of a product over the positions that `sel` leaves in each row (R131 to R133, R156). -/
def passAcc (k : AccT) (pc : PC) (ta tb : Tile) (sel : Nat → Nat → Bool) (i j acc : Nat) : Nat :=
  accGroups k pc i ta.K (fun p => ta.has i p && tb.has j p && sel i p) (fun p => (ta.elem pc i i p, tb.elem pc i j p)) acc

/-! ### Sparse products (R157) -/

/-- N, M and the entry bits of a pattern (Table 12.3). -/
def patN (p : Pattern) : Nat :=
  match p with
  | .p24 => 2
  | .p14 => 1
  | .p28 => 2
  | .p48 => 4
def patM (p : Pattern) : Nat :=
  match p with
  | .p24 | .p14 => 4
  | .p28 | .p48 => 8
def patBits (p : Pattern) : Nat := if patM p = 4 then 2 else 3

/-- The positions that row `i` of a metadata tile names. -/
def metaNames (p : Pattern) (K : Nat) (row : Line) (k : Nat) : Bool :=
  let g := k / patM p
  g < K / patM p && (upTo (patN p)).any (fun n =>
    row.toNat / 2 ^ ((g * patN p + n) * patBits p) % 2 ^ patBits p = k % patM p)

/-! ### Decomposition (R158, R159) -/

/-- The present nonzero positions of a group of a row, ascending. -/
def groupNonzero (ta : Tile) (pc : PC) (M i g : Nat) : List Nat :=
  ((upTo M).map (fun n => g * M + n)).filter (fun k => k < ta.K && ta.has i k && (ta.elem pc i i k).nonzero)

/-- Position `k` of row `i` is held by term `t`. -/
def termHolds (ta : Tile) (pc : PC) (p : Pattern) (t i k : Nat) : Bool :=
  k ∈ ((groupNonzero ta pc (patM p) i (k / patM p)).drop (t * patN p)).take (patN p)

/-- The groups of the present rows, in order. -/
def rowGroups (ta : Tile) (M : Nat) : List (Nat × Nat) :=
  ((upTo 32).filter ta.hasRow).flatMap (fun i => (upTo (ta.K / M)).map (fun g => (i, g)))

/-- |x| rounded into FP32. -/
def abs32 (v : XV) : Nat :=
  FF.fp32.put .rn false 0 (match v with
    | .nan _ m f => .nan false m f
    | .inf _ => .inf false
    | .num _ x => .num false x.abs)

/-- `dcmp` (R158, R301): the decomposition of a tile under a loss bound, and the number of offcuts. -/
def decompose (ta : Tile) (pc : PC) (p : Pattern) (T : Nat) (l : Nat) : Decomp × Nat :=
  let M := patM p
  let N := patN p
  let gs := (rowGroups ta M).map (fun e => (e.1, groupNonzero ta pc M e.1 e.2))
  let tu := listMax (gs.map (fun e => min T ((e.2.length + N - 1) / N)))
  let off := gs.flatMap (fun e => (e.2.drop (T * N)).map (fun k => (e.1, k)))
  let s := off.foldl (fun s e =>
    let x := FF.fp32.read (abs32 (ta.elem pc e.1 e.1 e.2))
    let a := FF.fp32.read s
    FF.fp32.result .rn false 0 pc e.1 [a, x] (a.sum .rn x)) 0
  let lv := FF.fp32.read l
  let bound := if lv.isNaN || lv.neg then FV.fin false 0 0 else lv
  let sv := FF.fp32.read s
  let status := if 128 < off.length then 2
    else if off ≠ [] && cmpFlt .gt bound (.fin false 0 0) && cmpFlt .le sv bound then 1
    else 0
  ({ pat := p, terms := T, tu := tu, status := status, l := BitVec.ofNat 32 l, s := BitVec.ofNat 32 s, offcuts := off.take 128 },
    off.length)

/-- One element of `mmad` with status 0 or 1 (R133, R159): the terms, then the offcuts unless they are dropped. -/
def mmadAcc (k : AccT) (pc : PC) (ta tb : Tile) (d : Decomp) (i j acc : Nat) : Nat :=
  let acc := (upTo d.tu).foldl (fun acc t => passAcc k pc ta tb (termHolds ta pc d.pat t) i j acc) acc
  if d.status = 1 then acc
  else
    (d.offcuts.filter (fun e => e.1 = i && ta.has i e.2 && tb.has j e.2)).foldl (fun acc e =>
      accStep k pc i acc [(ta.elem pc i i e.2, tb.elem pc i j e.2)]) acc

/-! ### Accumulators into tiles (R305, R306) -/

/-- An accumulator element read as a kind (R303, R305). -/
def accValue (k : AccKind) (x : Nat) : XV :=
  match k with
  | .f32 => FF.fp32.xv x
  | .i32 => XV.ofInt (intVal .i32 x)
  | .f64 => FF.fp64.xv x

/-- Act (Table 12.5) on an FP32 pattern. -/
def tepiAct (op : TepiOp) (pc : PC) (o y : Nat) : Nat :=
  match op with
  | .none => y
  | .relu =>
    match FF.fp32.read y with
    | .nan _ _ => y
    | v => if cmpFlt .gt v (.fin false 0 0) then y else 0
  | .sigm => specialBits .sigm .fp32 0 pc o y
  | .tanh => specialBits .tanh .fp32 0 pc o y

/-- One value of `tepi` before it is written: Act(a · α + β) in FP32 (R305). -/
def tepiValue (op : TepiOp) (pc : PC) (i : Nat) (a alpha beta : XV) : XV :=
  let y := FF.fp32.resultX pc i [a, alpha, beta] ((a.mul alpha).bind (fun p => sumX [p, beta]))
  FF.fp32.xv (tepiAct op pc i y)

/-- Write values into columns c0, c0 + 1, … of a row through its slot, with the draws of R125 (R118, R305); other bytes stay. -/
def rowWrite (slot : BitVec 128) (row : Line) (c0 : Nat) (vs : List (XV × Nat)) : Line :=
  match dxBits (slotFmt slot) with
  | some m => lineSet row (c0 / 32 * dxBytes m) (dxBytes m) (dxWrite m (slotGap slot) (slotSat slot) vs)
  | none =>
    let w := fmtBits (slotFmt slot)
    ((upTo vs.length).zip vs).foldl (fun r e =>
      let at_ := w * (c0 + e.1)
      let x := writeSlot slot e.2.2 e.2.1 % 2 ^ w
      (r &&& ~~~(BitVec.ofNat 1536 ((2 ^ w - 1) * 2 ^ at_))) ||| BitVec.ofNat 1536 (x * 2 ^ at_)) row

end Sys2Proof.Machine
end

