-- ==== Sys2Proof/Machine/TileStream.lean ====
section
/-! DEFINITION. The tile stream: tile instructions enter their queue, start under the hazard rules and complete; tile loads
and drains (R134 to R142, R148, R149, R154 to R160, R292 to R306). -/

namespace Sys2Proof.Machine

/-! ### Entering the queue (R137, R292) -/

/-- A tile instruction of the running sequencer enters the queue with the values it captures; while the queue is full the
sequencer waits. -/
def enqueue (h : Hdr) (i : Instr) (vals : Regs → List DWord) (s : State) : Out :=
  .next (match s.seq with
  | none => s
  | some t => onSeq h t s (fun te s =>
    if 8 ≤ te.queue.length then s
    else
      let op : TileOp :=
        { instr := i, pc := te.pc, vals := vals (s.seqRegs te), doneClock := 0, last := 0, locks := [], paused := none }
      (s.modTenant t (fun te => { te with queue := te.queue ++ [op] })).stepSeq t))

/-- What a 32-bit source supplies, as a captured value. -/
def Regs.cap (r : Regs) (t : Ty) (o : Opd) : DWord := BitVec.ofNat 64 (r.src t o)
/-- A pair of q registers. -/
def Regs.capPair (r : Regs) (n : Nat) : DWord := BitVec.ofNat 64 (regGet r.sr n 64)
/-- Five origins from a q register on; a register beyond q31 is refused once the rank is known (R297). -/
def Regs.capOrg (r : Regs) (c : Option (BitVec 5)) : List DWord :=
  (upTo 5).map (fun n => match c with
    | some q => if q.toNat + n < 32 then (r.sr (q.toNat + n)).setWidth 64 else 0
    | none => 0)

/-- `tcfg tN.part, x` (R296). -/
def execTcfg (h : Hdr) (part : TilePart) (t : BitVec 3) (x : Opd) (s : State) : Out :=
  enqueue h (.tcfg h part t x) (fun r => [r.cap .b32 x]) s
/-- `tld tN, [qL], qC` (R154, R297). -/
def execTld (h : Hdr) (t : BitVec 3) (ql : BitVec 5) (qc : Option (BitVec 5)) (s : State) : Out :=
  enqueue h (.tld h t ql qc) (fun r => r.capPair ql.toNat :: r.capOrg qc) s
/-- `tzero aN` (R298). -/
def execTzero (h : Hdr) (f64 : Bool) (a : BitVec 2) (s : State) : Out := enqueue h (.tzero h f64 a) (fun _ => []) s
/-- `mma aD, tA, tB` (R299). -/
def execMma (h : Hdr) (a : BitVec 2) (ta tb : BitVec 3) (s : State) : Out := enqueue h (.mma h a ta tb) (fun _ => []) s
/-- `mmas.pNM aD, tA, tB, tM` (R300). -/
def execMmas (h : Hdr) (pat : Pattern) (a : BitVec 2) (ta tb tm : BitVec 3) (s : State) : Out :=
  enqueue h (.mmas h pat a ta tb tm) (fun _ => []) s
/-- `dcmp.pNM tA, qD, T, qL` (R301). -/
def execDcmp (h : Hdr) (pat : Pattern) (ta : BitVec 3) (qd : BitVec 5) (terms : BitVec 5) (l : Opd) (s : State) : Out :=
  enqueue h (.dcmp h pat ta qd terms l) (fun r => [r.cap .f32 l]) s
/-- `mmad aD, tA, tB` (R302). -/
def execMmad (h : Hdr) (a : BitVec 2) (ta tb : BitVec 3) (s : State) : Out := enqueue h (.mmad h a ta tb) (fun _ => []) s
/-- `tdrain` (R155, R303). -/
def execTdrain (h : Hdr) (add raw auto : Bool) (scope : Scope) (kind : AccKind) (a : BitVec 2) (ql : BitVec 5)
    (qc : Option (BitVec 5)) (tag : TagOpd) (s : State) : Out :=
  enqueue h (.tdrain h add raw auto scope kind a ql qc tag)
    (fun r => BitVec.ofNat 64 (r.tagOf tag) :: r.capPair ql.toNat :: r.capOrg qc) s
/-- `tmov tD, aS, blk` (R305). -/
def execTmov (h : Hdr) (kind : AccKind) (t : BitVec 3) (a : BitVec 2) (blk : Opd) (s : State) : Out :=
  enqueue h (.tmov h kind t a blk) (fun r => [r.cap .b32 blk]) s
/-- `tepi.op tD, aS, blk, α [, tB]` (R305). -/
def execTepi (h : Hdr) (op : TepiOp) (kind : AccKind) (t : BitVec 3) (a : BitVec 2) (blk alpha : Opd) (tb : Option (BitVec 3))
    (s : State) : Out :=
  enqueue h (.tepi h op kind t a blk alpha tb) (fun r => [r.cap .b32 blk, r.cap .f32 alpha]) s

/-- The sequencer is parked on a page fault: of the fetch of its next word, or of a `tld` or `tdrain` that reads memory (R148). -/
def Tenant.parked (te : Tenant) : Bool :=
  (match te.st with
  | .faultPark _ => true
  | _ => false) || (te.running ++ te.queue).any (fun o => o.paused.isSome)

/-! ### Hazards (R137) -/

/-- Accumulators named, with the partner of a pair: numbers 8 to 11. -/
def accNames (wide : Bool) (a : BitVec 2) : List Nat := if wide then [8 + a.toNat / 2 * 2, 9 + a.toNat / 2 * 2] else [8 + a.toNat]

/-- What a tile instruction reads and writes: tiles 0 to 7, accumulators 8 to 11. A `dcmp` writes its tile's decomposition
state. `wide t` says whether tile `t` holds FP64. -/
def tileUses (wide : BitVec 3 → Bool) (i : Instr) : List Nat × List Nat :=
  match i with
  | .tcfg _ _ t _ => ([], [t.toNat])
  | .tld _ t _ _ => ([], [t.toNat])
  | .tzero _ f a => ([], accNames f a)
  | .mma _ a ta tb | .mmad _ a ta tb => ([ta.toNat, tb.toNat] ++ accNames (wide ta) a, accNames (wide ta) a)
  | .mmas _ _ a ta tb tm => ([ta.toNat, tb.toNat, tm.toNat] ++ accNames (wide ta) a, accNames (wide ta) a)
  | .dcmp _ _ ta _ _ _ => ([ta.toNat], [ta.toNat])
  | .tdrain _ _ _ _ _ k a _ _ _ => (accNames (k = .f64) a, [])
  | .tmov _ k t a _ => (accNames (k = .f64) a, [t.toNat])
  | .tepi _ _ _ t a _ _ tb => (accNames false a ++ (tb.map (fun b => [b.toNat])).getD [], [t.toNat])
  | _ => ([], [])

/-- An instruction must wait for an older one that has not completed. -/
def tileHazard (wide : BitVec 3 → Bool) (older newer : Instr) : Bool :=
  let o := tileUses wide older
  let n := tileUses wide newer
  n.1.any (· ∈ o.2) || n.2.any (· ∈ o.2) || n.2.any (· ∈ o.1)

/-- It occupies the array: one at a time (R137). -/
def usesArray (i : Instr) : Bool :=
  match i with
  | .tzero _ _ _ | .mma _ _ _ _ | .mmas _ _ _ _ _ _ | .mmad _ _ _ _ | .dcmp _ _ _ _ _ _ | .tmov _ _ _ _ _ | .tepi _ _ _ _ _ _ _ _ =>
    true
  | _ => false

/-- The slots of a tenant's launch. -/
def State.slotsOf (s : State) (b : Nat) : List (BitVec 128) := ((s.recOfBlock b).map (·.slots)).getD []
/-- The format of a tile's slot. -/
def State.tileFmt (s : State) (te : Tenant) (t : Nat) : Nat :=
  slotFmt ((s.slotsOf te.block).getD ((mapGetD te.tslot t 0).toNat) 0)

/-- It runs in the operand loader, which loads one tile at a time. -/
def usesLoader (i : Instr) : Bool :=
  match i with
  | .tld _ _ _ _ => true
  | _ => false

/-- The head of the queue may start. -/
def State.headFree (s : State) (te : Tenant) (i : Instr) : Bool :=
  !(te.running.any (fun o => tileHazard (fun t => s.tileFmt te t.toNat = 0) o.instr i || (usesArray o.instr && usesArray i) ||
    (usesLoader o.instr && usesLoader i)))

/-! ### Times (R139, Table 6.2) -/

/-- Array clocks of a full tile with all rows held. -/
def mmaClocks (fmt : Nat) : Nat :=
  match fmt with
  | 0 => 384
  | 1 => 192
  | 7 => 128
  | 8 => 64
  | 9 => 48
  | _ => 96
/-- One `mmas` pass. -/
def passClocks (fmt : Nat) (p : Pattern) : Nat := (mmaClocks fmt * patN p + patM p - 1) / patM p
/-- Passes for a tenant with `r` rows. -/
def rowPasses (r : Nat) : Nat := (32 + r - 1) / max 1 r

/-! ### Checks at the start (R141, R295, R299) -/

/-- A product of two tiles breaks a check of R299: formats, the pair of an FP64 product, column ranges. -/
def productBad (a : Nat) (ta tb : Tile) : Bool :=
  ta.fmt ≠ tb.fmt || (ta.fmt = 0 && a % 2 = 1) || ta.K < ta.chi || tb.K < tb.chi

/-- A check at the start fails: the tenant faults at the instruction, and what is younger is discarded (R149, R295). -/
def State.startFault (s : State) (t : Nat) (op : TileOp) (cause reason : Nat) (addr : DWord) : State :=
  (s.clearQueue t).tenantFault t cause reason op.pc addr

/-- The counters of a tenant (Table 18.7): array-busy clocks, tile instructions, offcuts run, offcuts dropped. -/
def State.tileCount (s : State) (t core n amount : Nat) : State :=
  s.bump (offCounter core (0x900 + 0x40 * (t % 2) + 8 * n)) amount

/-- The head of the queue leaves it and runs until a clock; it is counted. -/
def State.startRun (s : State) (t : Nat) (op : TileOp) (clocks : Nat) : State :=
  let core := ((s.tenant? t).map (·.core)).getD 0
  let now := s.clock core
  (s.tileCount t core 1 1).modTenant t (fun te => { te with queue := te.queue.tail, running := te.running ++ [{ op with doneClock := now + clocks }] })

/-- A tile's decomposition state goes (R160). -/
def Tenant.written (te : Tenant) (t : Nat) : Tenant := { te with decomp := mapErase te.decomp t }

/-- For whom a sequencer accesses memory. -/
def State.whoSeq (s : State) (te : Tenant) : Who :=
  { whoEngine (s.ctxIdOf te.block) (s.asidOf te.block) (s.viewOf te.block) (clusterOf te.core) with core := some te.core }

/-- A page fault of a tile instruction parks the sequencer at it until `RESUME` (R148): at a running one, or at the head of the queue. -/
def State.parkSeq (s : State) (t : Nat) (te : Tenant) (n : Option Nat) (a reason : Nat) : State :=
  let pause (o : TileOp) : TileOp := { o with paused := some (pageOf a) }
  let (qu, sq) := s.cmdOf (some te.block)
  (s.raiseFault { ctx := s.ctxIdOf te.block, page := pageOf a, fetch := false, reason := reason, faddr := a,
                  engine := 0x3000 + 2 * te.core + t % 2, queue := qu, seq := sq, routed := false }).modTenant t (fun te =>
    match n with
    | some n => { te with running := listModify te.running n pause }
    | none => { te with queue := listModify te.queue 0 pause })

/-- Origins as signed numbers. -/
def orgOf (vs : List DWord) : List Int := vs.map (fun o => (o.setWidth 32 : Word).toInt)

/-- The last of a `tld` or `tdrain` is read and checked (R152, R297, R304); `f` goes on with it. One that breaks a rule of both kinds
is ILLOP and not MISALIGN (DESIGN CHOICE, log entry 128). -/
def State.withLast (s : State) (t : Nat) (te : Tenant) (op : TileOp) (a : DWord) (org : List DWord) (qc : Option (BitVec 5))
    (f : BitVec 512 → Last → BitVec 128 → State → State) : State :=
  if !canonical a then s.startFault t op 0x03 0x06 a
  else if a.toNat % 64 ≠ 0 then s.startFault t op 0x02 0 a
  else
    match s.readLast (s.whoSeq te) te.core (some te.block) (va57 a) with
    | (s, .retry) => s.countRetry none te.core (s.whoSeq te) (va57 a)
    | (s, .full) => s
    | (s, .fault r) => s.parkSeq t te none (va57 a) r
    | (s, .error e) => (s.logError (s.ctxIdOf te.block) (va57 a) e (0x3000 + 2 * te.core + t % 2)).startFault t op 0x03 e a
    | (s, .ok v) =>
      let x := BitVec.ofNat 512 v
      let d := Last.ofBits x
      let slot := (s.slotsOf te.block).getD d.slot 0
      if lastIllop x (slotFmt slot) ((orgOf org).getD 0 0) || qc.any (fun q => 32 < q.toNat + d.rank) then s.startFault t op 0x01 0x0B 0
      else if d.misaligned (slotFmt slot) then s.startFault t op 0x02 0 d.base
      else f x d slot s

/-! ### Tile loads (R154, R297) -/

/-- An element of a tile under a last: present, with its address. -/
def Last.at_ (d : Last) (fmt : Nat) (org : List Int) (rho k : Nat) : Option DWord :=
  let cs := d.coords org rho k
  if d.clipped cs then none else some (d.addr fmt cs)

/-- The reads of a tile load: row, bit position in it, address, bytes, and the nibble of a 4-bit element. -/
structure TileRead where
  row : Nat
  bit : Nat
  addr : DWord
  bytes : Nat
  nib : Option Nat
  deriving DecidableEq, Repr

/-- All the reads of a tile load: present elements, or the blocks that hold one, 8 bytes at a time. -/
def tileReads (d : Last) (fmt : Nat) (org : List Int) : List TileRead :=
  (upTo 32).flatMap (fun rho =>
    match dxBits fmt with
    | some m =>
      (upTo (fmtK fmt / 32)).flatMap (fun b =>
        match ((upTo 32).findSome? (fun i => d.at_ fmt org rho (32 * b + i))) with
        | none => []
        | some a => (upTo (dxBytes m / 8)).map (fun w =>
          { row := rho, bit := 8 * (b * dxBytes m + 8 * w), addr := a + BitVec.ofNat 64 (8 * w), bytes := 8, nib := none : TileRead }))
    | none =>
      (upTo (fmtK fmt)).filterMap (fun k => (d.at_ fmt org rho k).map (fun a =>
        { row := rho, bit := fmtBits fmt * k, addr := a, bytes := elemBytes fmt,
          nib := if fmtBits fmt = 4 then some ((((d.coords org rho k).getD 0 0) % 2).toNat) else none })))

/-- The smallest range of some numbers: one past the highest, and the lowest; 0 to 0 when there are none. -/
def rangeWord (ns : List Nat) : Word :=
  match ns with
  | [] => 0
  | n :: rest => BitVec.ofNat 32 (65536 * (listMax ns + 1) + rest.foldl min n)

/-- Present rows and columns of a tile load. -/
def presentRows (d : Last) (fmt : Nat) (org : List Int) : List Nat :=
  (upTo 32).filter (fun r => (upTo (fmtK fmt)).any (fun k => (d.at_ fmt org r k).isSome))
def presentCols (d : Last) (fmt : Nat) (org : List Int) : List Nat :=
  (upTo (fmtK fmt)).filter (fun k => (upTo 32).any (fun r => (d.at_ fmt org r k).isSome))

/-- How the reads of a tile load come out: the rows, or what stopped them at an address; they go through the core's L1 under the load's
hint (R154, R297). -/
def tileRows (te : Tenant) (hint : BitVec 2) (s : State) (xs : List TileRead) : State × EngR (NatMap Line) × Nat :=
  engEach (fun x => x.addr.toNat) (fun s x rows =>
    if !canonical x.addr then (s, .error 0x06)
    else
      let (s, r) := s.coreRead (s.whoSeq te) te.core (some te.block) hint (va57 x.addr) x.bytes
      (s, r.map (fun v =>
        let v := match x.nib with
          | some n => v / 2 ^ (4 * n) % 16
          | none => v
        mapPut 0 rows x.row (mapGetD rows x.row 0 ||| BitVec.ofNat 1536 (v * 2 ^ x.bit))))) s xs []

/-- A tile load reads its elements: all of them, or none when one is told to wait, faults or fails (R148, R149, R297). -/
def State.finishTld (s : State) (t n : Nat) (te : Tenant) (op : TileOp) (tile : BitVec 3) (hint : BitVec 2) : State :=
  let d := Last.ofBits op.last
  let slot := (s.slotsOf te.block).getD d.slot 0
  let fmt := slotFmt slot
  let org := orgOf (op.vals.drop 1)
  let ended (s : State) : State :=
    (s.dropLocks (clusterOf te.core) op.locks).modTenant t (fun te => { te with running := te.running.eraseIdx n })
  match tileRows te hint s (tileReads d fmt org) with
  | (s, .ok rows, _) =>
    ended (s.modTenant t (fun te =>
      { te.written tile.toNat with
        tiles := (upTo 32).foldl (fun m r => mapPut 0 m (32 * tile.toNat + r) (mapGetD rows r 0)) te.tiles
        tslot := mapPut 0 te.tslot tile.toNat (BitVec.ofNat 32 d.slot)
        trows := mapPut 0 te.trows tile.toNat (rangeWord (presentRows d fmt org))
        tcols := mapPut 0 te.tcols tile.toNat (rangeWord (presentCols d fmt org)) }))
  | (s, .fault r, a) => s.parkSeq t te (some n) (a % 2 ^ 57) r
  | (s, .error e, a) =>
    ended ((s.logError (s.ctxIdOf te.block) (a % 2 ^ 57) e (0x3000 + 2 * te.core + t % 2)).startFault t op 0x03 e (BitVec.ofNat 64 a))
  | (s, .retry, a) => s.countRetry none te.core (s.whoSeq te) (a % 2 ^ 57)
  | (s, .full, _) => s

/-! ### Drains (R155, R303, R304) -/

/-- A piece of a drain: the output row, and the address, width in bytes and data of an element, a byte or eight bytes of a block. -/
structure DrainPiece where
  row : Nat
  addr : DWord
  bytes : Nat
  data : Nat
  deriving DecidableEq, Repr

/-- The pieces of a drain: for each present element, block or byte, its address and data. -/
def drainPieces (te : Tenant) (d : Last) (slot : BitVec 128) (org : List Int) (kind : AccKind) (raw : Bool) (a : Nat)
    (draw : Nat → Nat) : List DrainPiece :=
  let fmt := slotFmt slot
  let acc (i j : Nat) : Nat := te.accGet (kind = .f64) a i j
  let val (i j : Nat) : XV := accValue kind (acc i j)
  (upTo 32).flatMap (fun i =>
    match dxBits fmt with
    | some m =>
      match (upTo 32).findSome? (fun j => d.at_ fmt org i j) with
      | none => []
      | some x =>
        let vs := (upTo 32).map (fun j =>
          if (d.at_ fmt org i j).isSome then (val i j, draw (32 * i + j)) else (XV.num false Ex.zero, draw (32 * i + j)))
        let block := dxWrite m (slotGap slot) (slotSat slot) vs
        (upTo (dxBytes m / 8)).map (fun w => ⟨i, x + BitVec.ofNat 64 (8 * w), 8, block / 2 ^ (64 * w) % 2 ^ 64⟩)
    | none =>
      if fmtBits fmt = 4 then
        (upTo 16).filterMap (fun b => (d.at_ fmt org i (2 * b)).map (fun x =>
          ⟨i, x, 1, writeSlot slot (draw (32 * i + 2 * b)) (val i (2 * b)) % 16 +
            16 * (writeSlot slot (draw (32 * i + 2 * b + 1)) (val i (2 * b + 1)) % 16)⟩))
      else
        (upTo 32).filterMap (fun j => (d.at_ fmt org i j).map (fun x =>
          ⟨i, x, if raw then 4 else fmtBits fmt / 8, if raw then acc i j % 2 ^ 32 else writeSlot slot (draw (32 * i + j)) (val i j)⟩)))

/-- The type of the elements that an `.add` drain adds; `none` where the combination is not allowed (R155). -/
def drainAdd (slot : BitVec 128) (kind : AccKind) (raw : Bool) : Option Ty :=
  if raw then (if kind = .f64 then none else some .n32)
  else
    match slotFmt slot, kind with
    | 1, .f32 => some .f32
    | 0, .f64 => some .f64
    | _, _ => none

/-- The engine operation of a drain. -/
def drainOp (s : State) (t : Nat) (te : Tenant) (op : TileOp) (acc : Nat) (scope : Scope) (tag : Nat) (add : Option Ty)
    (ps : List DrainPiece) : CopyOp :=
  { kind := .drain, st := .active, ctx := s.ctxIdOf te.block, asid := s.asidOf te.block, view := s.viewOf te.block,
    cluster := clusterOf te.core, core := te.core, block := some te.block, rank := te.rank, tag := some tag, scope := scope, warp := none,
    lane := 0, pc := op.pc, instr := some op.instr, args := op.vals,
    snap := (te.acc.filter (fun e => 1024 * acc ≤ e.1 && e.1 < 1024 * acc + 2048)).map (fun e => (e.1 - 1024 * acc, e.2)), org := .zero, auto := false, armed := false,
    pieces := ps.map (fun p => { dst := va57 p.addr, src := none, len := p.bytes, keep := none, data := BitVec.ofNat 128 p.data, row := p.row }),
    back := false, add := add, total := (ps.map (·.bytes)).sum, ahead := [], locks := [], counting := [], paused := none, tenant := some t,
    cmd := none, rel := none, group := s.tick }

/-- A drain starts: its last and its checks, then its accumulator is copied and handed to the engine (R155, R304). -/
def State.startDrain (s : State) (t : Nat) (te : Tenant) (op : TileOp) (add raw auto : Bool) (scope : Scope) (kind : AccKind)
    (a : BitVec 2) (qc : Option (BitVec 5)) : State :=
  let tag := (op.vals.getD 0 0).toNat
  let org := op.vals.drop 2
  if s.tagsOf te.block ≤ tag ∨ (raw ∧ kind = .f64) then s.startFault t op 0x01 0x0B 0
  else s.withLast t te op (op.vals.getD 1 0) org qc (fun _ d slot s =>
    let fmt := slotFmt slot
    let o := orgOf org
    let odd := fmtBits fmt = 4 && (o.getD 0 0 % 2 ≠ 0 || d.size 0 % 2 ≠ 0)
    let ragged := (dxBits fmt).isSome && d.size 0 % 32 ≠ 0
    if (raw && fmt ≠ 1) || (add && (drainAdd slot kind raw).isNone) || odd || ragged then s.startFault t op 0x01 0x0B 0
    else
      let draw (k : Nat) : Nat := rand16 (s.seedOf te.block) op.pc k (s.widOf te.block)
      let ps := drainPieces te d slot o kind raw a.toNat draw
      let wide (x : DWord) : Bool :=
        add && !raw && fmt = 1 && x.toNat % 8 ≠ 0 && (s.windowOf (s.ctxIdOf te.block) (va57 x)).any (fun w => w.2.fp32)
      match ps.find? (fun p => !canonical p.addr), ps.find? (fun p => wide p.addr) with
      | some p, _ => s.startFault t op 0x03 0x06 p.addr
      | none, some p => s.startFault t op 0x02 0 p.addr
      | none, none =>
        let cop := drainOp s t te op a.toNat scope tag (if add then drainAdd slot kind raw else none) ps
        if ps = [] then
          let s := if auto then s.armTag te.block te.rank tag 0 else s
          s.startRun t op 32
        else if !s.copyRoom cop then s
        else
          let key := mapFresh s.copies
          let go (s : State) (st : CopySt) : State :=
            let s := if auto then s.armTag te.block te.rank tag cop.total else s
            let (s, ls) := s.lockCopy cop
            ({ s with copies := s.copies ++ [(key, { cop with st := st, locks := ls })] }.next).startRun t op 32
          match s.probeDst cop with
          | (s, .ok none, _) => go s .active
          | (s, .ok (some _), x) => s.startFault t op 0x05 0 (signAddr x)
          | (s, .full, _) | (s, .retry, _) => s
          | (s, r, x) =>
            let s := go s .checks
            (match mapGet? s.copies key with
            | some cop => s.stopCopy key cop x r
            | none => s))

/-! ### Starting (R137, R295) -/

/-- Write a control register of a tile, or fault (R296). -/
def State.runTcfg (s : State) (t : Nat) (op : TileOp) (part : TilePart) (n : Nat) : State :=
  let x := (op.vals.getD 0 0).toNat
  let lo := x % 65536
  let hi := x / 65536
  let drop (s : State) : State :=
    (s.tileCount t (((s.tenant? t).map (·.core)).getD 0) 1 1).modTenant t (fun te => { te.written n with queue := te.queue.tail })
  match part with
  | .slot =>
    if 8 ≤ x then s.startFault t op 0x01 0x0B 0
    else drop (s.modTenant t (fun te => { te with tslot := mapPut 0 te.tslot n (BitVec.ofNat 32 x) }))
  | .rows =>
    if hi < lo ∨ 32 < hi then s.startFault t op 0x01 0x0B 0
    else drop (s.modTenant t (fun te => { te with trows := mapPut 0 te.trows n (BitVec.ofNat 32 x) }))
  | .cols =>
    if hi < lo then s.startFault t op 0x01 0x0B 0
    else drop (s.modTenant t (fun te => { te with tcols := mapPut 0 te.tcols n (BitVec.ofNat 32 x) }))

/-- A tile load starts: its last is read and checked, its source entry is registered; one that reads nothing registers none (R154, R75,
R326). -/
def State.startTld (s : State) (t : Nat) (te : Tenant) (op : TileOp) (qc : Option (BitVec 5)) : State :=
  let c := clusterOf te.core
  s.withLast t te op (op.vals.getD 0 0) (op.vals.drop 1) qc (fun x d slot s =>
    let rs := (tileReads d (slotFmt slot) (orgOf (op.vals.drop 1))).map (fun r => (va57 r.addr, r.bytes))
    if 256 ≤ s.engineLoad c ∨ (rs ≠ [] ∧ (s.cluster c).locksFree < 1) then s
    else
      let (s, ls) := if rs = [] then (s, []) else
        s.putLock c { view := s.viewOf te.block, asid := s.asidOf te.block, lo := (spanOf rs).1, hi := (spanOf rs).2, kind := 3, dest := false }
      s.startRun t { op with last := x, locks := ls } 0)

/-- `TILE_INSTR_START`: the head of a tenant's queue starts when its hazards clear, its unit is free and its checks pass
(R137, R295). -/
def execTileInstrStart (t : Nat) (s : State) : Out :=
  .next (match s.tenant? t with
  | none => s
  | some te =>
    match te.queue with
    | [] => s
    | op :: _ =>
      let slots := s.slotsOf te.block
      let tile (n : BitVec 3) : Tile := te.tile slots n.toNat
      let f := rowPasses te.rows
      if !s.headFree te op.instr ∨ te.parked ∨ s.isSaving (some te.block) then s
      else
        match op.instr with
        | .tcfg _ part n _ => s.runTcfg t op part n.toNat
        | .tld _ _ _ qc => s.startTld t te op qc
        | .tzero _ _ _ => s.startRun t op 32
        | .mma _ a ta tb =>
          if productBad a.toNat (tile ta) (tile tb) then s.startFault t op 0x01 0x0B 0
          else s.startRun t op (mmaClocks (tile ta).fmt * f)
        | .mmas _ p a ta tb _ =>
          if productBad a.toNat (tile ta) (tile tb) || (tile ta).K % patM p ≠ 0 then s.startFault t op 0x01 0x0B 0
          else s.startRun t op (passClocks (tile ta).fmt p * f)
        | .dcmp _ _ _ _ _ _ => s.startRun t op 64
        | .mmad _ a ta tb =>
          match mapGet? te.decomp ta.toNat with
          | none => s.startFault t op 0x01 0x0B 0
          | some d =>
            if productBad a.toNat (tile ta) (tile tb) then s.startFault t op 0x01 0x0B 0
            else
              let kept := if d.status = 0 then d.offcuts.length else 0
              s.startRun t op (if d.status = 2 then mmaClocks (tile ta).fmt * f
                else (d.tu * passClocks (tile ta).fmt d.pat + (kept + 3) / 4) * f)
        | .tdrain _ add raw auto scope kind a _ qc _ => s.startDrain t te op add raw auto scope kind a qc
        | .tmov _ _ n _ _ | .tepi _ _ _ n _ _ _ _ =>
          if (tile n).K ≤ 32 * (op.vals.getD 0 0).toNat then s.startFault t op 0x01 0x0B 0 else s.startRun t op 32
        | _ => s.modTenant t (fun te => { te with queue := te.queue.tail }))

/-! ### Completing -/

/-- Values of an accumulator block into a tile (R305). -/
def Tenant.moveAcc (te : Tenant) (slot : BitVec 128) (n blk : Nat) (draw : Nat → Nat) (f : Nat → Nat → XV) : Tenant :=
  let c0 := 32 * blk
  let w := min 32 (fmtK (slotFmt slot) - c0)
  let rows := (upTo 32).map (fun i => (i, (upTo w).map (fun j => (f i j, draw (32 * i + j)))))
  { te.written n with
    tiles := rows.foldl (fun m r =>
      mapPut 0 m (32 * n + r.1) (rowWrite slot (mapGetD te.tiles (32 * n + r.1) 0) c0 r.2)) te.tiles }

/-- What the completion of a tile instruction does to its tenant (R298 to R305). -/
def Tenant.complete (te : Tenant) (slots : List (BitVec 128)) (seed wid : DWord) (op : TileOp) : Tenant :=
  let tile (n : BitVec 3) : Tile := te.tile slots n.toNat
  let draw (k : Nat) : Nat := rand16 seed op.pc k wid
  let kind (ta tb : BitVec 3) : AccT := accKind (tile ta).slot (tile tb).slot
  let product (a : BitVec 2) (ta tb : BitVec 3) (sel : Nat → Nat → Bool) : Tenant :=
    te.accMap (kind ta tb = .f64) a.toNat (fun i j acc => passAcc (kind ta tb) op.pc (tile ta) (tile tb) sel i j acc)
  match op.instr with
  | .tzero _ wide a => te.accMap wide a.toNat (fun _ _ _ => 0)
  | .mma _ a ta tb => product a ta tb (fun _ _ => true)
  | .mmas _ p a ta tb tm => product a ta tb (fun i k => metaNames p (tile ta).K ((tile tm).row i) k)
  | .dcmp _ p ta qd terms _ =>
    let (d, n) := decompose (tile ta) op.pc p terms.toNat (op.vals.getD 0 0).toNat
    let te := { te with decomp := mapSet te.decomp ta.toNat d }
    let q := qd.toNat
    (((te.setQreg q (BitVec.ofNat 32 d.tu)).setQreg (q + 1) (BitVec.ofNat 32 (min n 65535))).setQreg (q + 2) d.s).setQreg (q + 3)
      (BitVec.ofNat 32 d.status)
  | .mmad _ a ta tb =>
    match mapGet? te.decomp ta.toNat with
    | none => te
    | some d =>
      if d.status = 2 then product a ta tb (fun _ _ => true)
      else te.accMap (kind ta tb = .f64) a.toNat (fun i j acc => mmadAcc (kind ta tb) op.pc (tile ta) (tile tb) d i j acc)
  | .tmov _ k n a _ =>
    te.moveAcc (tile n).slot n.toNat (op.vals.getD 0 0).toNat draw (fun i j => accValue k (te.accGet (k = .f64) a.toNat i j))
  | .tepi _ act k n a _ _ tb =>
    let c0 := 32 * (op.vals.getD 0 0).toNat
    let alpha := FF.fp32.xv (op.vals.getD 1 0).toNat
    te.moveAcc (tile n).slot n.toNat (op.vals.getD 0 0).toNat draw (fun i j =>
      let beta := match tb with
        | none => XV.num false Ex.zero
        | some b => if (tile b).has 0 (c0 + j) then (tile b).elem op.pc i 0 (c0 + j) else XV.num false Ex.zero
      tepiValue act op.pc i (accValue k (te.accGet false a.toNat i j)) alpha beta)
  | _ => te

/-- Offcuts that an `mmad` runs and drops. -/
def Tenant.offcutsOf (te : Tenant) (i : Instr) : Nat × Nat :=
  match i with
  | .mmad _ _ ta _ =>
    match mapGet? te.decomp ta.toNat with
    | some d => if d.status = 0 then (d.offcuts.length, 0) else if d.status = 1 then (0, d.offcuts.length) else (0, 0)
    | none => (0, 0)
  | _ => (0, 0)

/-- `TILE_INSTR_COMPLETE`: a running tile instruction completes: its results stand; a tile load reads its elements; the counters
of the tenant go up (R137 to R139). -/
def execTileInstrComplete (t n : Nat) (s : State) : Out :=
  .next (match s.tenant? t with
  | none => s
  | some te =>
    match te.running[n]? with
    | none => s
    | some op =>
      if s.clock te.core < op.doneClock then s
      else
        match op.instr with
        | .tld h tile _ _ =>
          if op.paused.isSome ∨ s.isSaving (some te.block) then s
          else s.finishTld t n te op tile h.hint
        | i =>
          let busy := if usesArray i then
              (match i with
              | .mma _ _ ta _ => mmaClocks (s.tileFmt te ta.toNat) * rowPasses te.rows
              | .mmas _ p _ ta _ _ => passClocks (s.tileFmt te ta.toNat) p * rowPasses te.rows
              | .mmad _ _ ta _ =>
                (match mapGet? te.decomp ta.toNat with
                | some d => if d.status = 2 then mmaClocks (s.tileFmt te ta.toNat) * rowPasses te.rows
                  else (d.tu * passClocks (s.tileFmt te ta.toNat) d.pat + ((if d.status = 0 then d.offcuts.length else 0) + 3) / 4) *
                    rowPasses te.rows
                | none => 0)
              | .dcmp _ _ _ _ _ _ => 64
              | _ => 32)
            else 0
          let off := te.offcutsOf i
          let s := ((s.tileCount t te.core 0 busy).tileCount t te.core 2 off.1).tileCount t te.core 3 off.2
          let slots := s.slotsOf te.block
          let seed := s.seedOf te.block
          let wid := s.widOf te.block
          s.modTenant t (fun te => { te.complete slots seed wid op with running := te.running.eraseIdx n }))

end Sys2Proof.Machine
end

