-- ==== Sys2Proof/Machine/TileMove.lean ====
section
/-! DEFINITION. Moves between a warp and the tiles of the tenant on its core (R147, R307, R308). -/

namespace Sys2Proof.Machine

/-- The tenant of a block on a core (R147). -/
def State.tenantOn (s : State) (b k : Nat) : Option Nat :=
  ((s.block? b).map (·.tenants)).getD [] |>.find? (fun t => (s.tenant? t).any (fun te => te.core = k))

/-- The offset of a move, in bytes: an integer or the literal. -/
def moveOff (off : Opd) : Nat :=
  match off with
  | .int n => n.toNat
  | .lit x => x.toNat
  | _ => 0

/-- A tile move counts in tl until `RESULT_WRITE` ends its mark: the mark that `ISSUE_SELECT` set when it steered the move, or
one with the fast latency (R39, R308). -/
def Warp.markMove (wp : Warp) (lanes : Mask) (vregs : List Nat) (pc : PC) (clock : Nat) : Warp :=
  let wp := { wp with ctrTl := wp.ctrTl + 1 }
  if wp.pend.any (fun p => p.pc = pc && p.issued = clock && p.unit = .agu && p.done.isSome) then wp
  else
    { wp with pend := wp.pend ++ [{ lanes := lanes, vregs := vregs, sregs := [], preds := [], done := some (clock + 2), unit := .agu,
                                    thrifty := false, promise := none, slk := 7, pc := pc, issued := clock, req := none }] }

/-- A tile move of the guard-true lanes, performed in the tile at issue: ILLOP reason 0x0B where the block has no tile stream
(R308). -/
def tileMove (h : Hdr) (top : Nat) (off : Opd) (vregs : List Nat) (s : State)
    (f : Grp → Nat → Nat → Nat → State → State) : State :=
  onGroup h top s (fun g G s =>
    match s.tenantOn g.wp.block g.wp.core with
    | none => s.illopLanes g G 0x0B
    | some t =>
      let s := G.foldl (fun s l => f g t (moveOff off) l s) s
      (s.modWarp g.w (fun wp => wp.markMove (lanesMask G) vregs g.pc (s.clock wp.core))).stepLanes g.w G)


/-- `tstv.bW tN, off, vS` (R147): lane l writes W bits of row l; the tile's decomposition state goes. -/
def execTstv (h : Hdr) (ty : Ty) (t : BitVec 3) (off : Opd) (vs : BitVec 8) (s : State) : Out :=
  .next (tileMove h (Opd.top (.v vs) ty.bits) off [] s (fun g tn o l s =>
    s.modTenant tn (fun te =>
      { te.written t.toNat with
        tiles := mapPut 0 te.tiles (32 * t.toNat + l)
          (lineSet (mapGetD te.tiles (32 * t.toNat + l) 0) o (ty.bits / 8) ((s.laneRegs g l).src ty (.v vs))) })))

/-- `tldv.bW vD, tN, off` (R147): lane l reads W bits of row l. -/
def execTldv (h : Hdr) (ty : Ty) (vd : BitVec 8) (t : BitVec 3) (off : Opd) (s : State) : Out :=
  .next (tileMove h (Opd.top (.v vd) ty.bits) off (regRange vd.toNat ty.bits) s (fun g tn o l s =>
    match s.tenant? tn with
    | none => s
    | some te =>
      s.modLane g.w l (fun la =>
        la.setRegs vd.toNat ty.bits (lineGet (mapGetD te.tiles (32 * t.toNat + l) 0) o (ty.bits / 8)))))

end Sys2Proof.Machine
end

