-- ==== Sys2Proof/Machine/World.lean ====
section
/-! DEFINITION. Device launch, the ends of phases, events, and the world instructions (R22, R23, R161 to R173, R309 to R316). -/

namespace Sys2Proof.Machine

/-! ### Views (R161, R162, R173) -/

/-- A view and its descendants. -/
def State.under (s : State) (v : Nat) : List Nat := (s.views.filter (fun e => v ∈ s.chain e.1)).map (·.1)

/-- Drop every copy tagged with a view in every structure; the view store's entries among them are freed (R173, R176). -/
def State.dropTagged (s : State) (v : Nat) : State :=
  let keep (d : DLine) : Bool := d.view ≠ v
  let s := s.freeLineEntries v
  { s with
    cores := s.cores.map (fun e => (e.1, { e.2 with l1d := e.2.l1d.filter keep, l1i := e.2.l1i.filter keep }))
    clusters := s.clusters.map (fun e => (e.1, { e.2 with cc := e.2.cc.filter keep }))
    slices := s.slices.map (fun e => (e.1, { e.2 with lines := e.2.lines.filter (fun h => h.view ≠ v) })) }

/-- A view is dropped: its copies go, its outbox performs nothing, and its ID returns once no lease of a copy can run any more
(R173). -/
def State.retireView (s : State) (v : Nat) : State :=
  (((s.view? v).elim s (s.freeOutEntries v)).dropTagged v).modView v (fun vw =>
    { vw with outbox := [], commit := none, pendingInstalls := [], performing := none,
              returnAt := some (if vw.latest = 0 then 0 else vw.latest + 4) })

/-- Discard a view with its descendants (R173). -/
def State.discardView (s : State) (v : Nat) : State := (s.under v).foldl State.retireView s

/-- A commit of a view begins: every line that holds a copy of it answers with a retry from now on (R172, step 1). `w` is the
warp that chose. -/
def State.beginCommit (s : State) (v : Nat) (w : Option Nat) : State :=
  let s : State := { s with slices := s.slices.map (fun e => (e.1, { e.2 with lines := e.2.lines.map (fun h =>
    if h.view = v then { h with lockView := some v } else h) })) }
  s.modView v (fun vw => { vw with commit := some (w, 0) })

/-- The group `g` has lanes in their handlers: ILLOP reason 0x0B there kills the block (R374); `f` acts otherwise. -/
def outsideHandler (g : Grp) (G : List Nat) (s : State) (f : State → State) : State :=
  match G.filter (fun l => (g.wp.lane? l).any (·.inHandler)) with
  | [] => f s
  | hs => s.illopLanes g hs 0x0B

/-! ### Phase boundaries (R22, R23, R311 to R313) -/

/-- Lanes arrive at a phase boundary and park (R23, R313); `label` is where the thread of a parent goes on. -/
def State.arriveBoundary (s : State) (w : Nat) (ls : List Nat) (kind : Boundary) (pc label : PC) : State :=
  match s.warp? w with
  | none => s
  | some wp =>
    ((s.modLanes w ls (fun la => { la with st := .boundary })).modBlock wp.block (fun bl =>
      { bl with arrivals := bl.arrivals ++ ls.map (fun l => { warp := w, lane := l, kind := kind, pc := pc, label := label }) })).checkArrivals
      wp.block

/-- What `pbar`, `gbar` and `forkw` share: lanes in a transaction abort; ILLOP reason 0x0B in a handler, in a launch without a
phase-record area, in a judging block and where `deny` says so; TBROKEN where the block's barriers are broken; else the
lanes arrive (R22, R83, R149, R171, R311, R374). -/
def boundary (h : Hdr) (s : State) (deny : Block → LaunchRec → Bool) (kind : State → Grp → List Nat → Boundary) (label : PC → PC) :
    State :=
  onGroup h 0 s (fun g G s => outsideTx g G s (fun G s => outsideHandler g G s (fun s =>
    match s.block? g.wp.block, s.recOfBlock g.wp.block with
    | some bl, some lr =>
      if lr.psize = 0 || bl.judging || deny bl lr then s.illopLanes g G 0x0B
      else
        match bl.tbroken g.pc with
        | some t => s.trapLanes g.w G t
        | none => s.arriveBoundary g.w G (kind s g G) g.pc (label g.pc)
    | _, _ => s)))

/-- Every drain of a tenant has delivered its bytes, and every tile instruction has completed (R311). -/
def State.streamIdle (s : State) (t : Nat) (te : Tenant) : Bool :=
  te.queue.isEmpty && te.running.isEmpty && !s.copies.any (fun e => e.2.tenant = some t && e.2.st ≠ .closed)

/-! ### What a warp owes (R229, R232) -/

/-- A launch of a warp is to be read, the record of an event to be written, or an outbox that it committed to be performed (R232, R314,
R329). -/
def State.owesOut (s : State) (w : Nat) : Bool :=
  s.devLaunches.any (fun e => e.2.warp = some w) ||
    s.fences.any (fun e => e.2.warp = w && (match e.2.after with | .event _ => true | _ => false)) ||
    s.views.any (fun e => e.2.performing = some (some w) || e.2.commit.any (fun c => c.1 = some w))

/-- Something that a counter of a warp counts is outstanding: an access or its replay, a gather, a copy, a launch whose record is to be
read, the record of an event, an operation of an outbox that it committed (Table 9.13). -/
def State.owes (s : State) (w : Nat) (wp : Warp) : Bool :=
  s.reqs.any (fun e => e.2.warp = some w && e.2.kind ≠ .ifetch && e.2.kind ≠ .prefetch) || !wp.replays.isEmpty ||
    s.gathers.any (fun e => e.2.warp = w) || s.copies.any (fun e => e.2.warp = some w && e.2.st ≠ .closed && e.2.st ≠ .saved) || s.owesOut w

/-- Every lane of a warp has exited and its counters are zero: it has freed its place (R229). -/
def State.hasLeft (s : State) (w : Nat) (wp : Warp) : Bool := wp.live = [] && !s.owes w wp

/-! ### Sequencers and groups at a boundary -/

/-- `pbar`: the lanes arrive; a sequencer waits for its tile instructions, then for its block; in a judging block it faults (R171,
R311). -/
def execPbar (h : Hdr) (s : State) : Out :=
  .next (match s.seq with
  | some t => onSeq h t s (fun te s =>
      if (s.recOfBlock te.block).all (fun lr => lr.psize = 0) || (s.block? te.block).any (·.judging) then s.illopSeq t 0x0B
      else if s.streamIdle t te then s.modTenant t (fun te => { te with st := .pbar })
      else s)
  | none => boundary h s (fun _ _ => false) (fun _ _ _ => .pbar) (fun pc => pc))

/-- `gbar`: as `pbar`; ILLOP reason 0x0B in a world (R312). -/
def execGbar (h : Hdr) (s : State) : Out :=
  .next (boundary h s (fun bl _ => bl.depth ≠ 0) (fun _ _ _ => .gbar) (fun pc => pc))

/-- `forkw n, label`: the lanes arrive with their n; ILLOP in a launch with a gang level (R165). What follows when every
thread has arrived is `PHASE_RECORD_WRITE`. -/
def execForkw (h : Hdr) (n : Opd) (off : Word) (s : State) : Out :=
  .next (boundary h s (fun _ lr => lr.gang ≠ 0) (fun s g G => .forkw (s.groupSrc g G n)) (fun pc => target pc off))

/-! ### Device launch (R30, R309) -/

/-- Launches of a context in its device-launch queue. -/
def State.launches (s : State) (x : Nat) : Nat := (s.devLaunches.filter (fun e => e.2.ctx = x)).length

/-- A lane's launch enters the queue behind a release at `.dv`, or the outbox in a world (R174). -/
def State.enterLaunch (s : State) (g : Grp) (group l : Nat) (a : DWord) : State :=
  let v := s.viewOf g.wp.block
  if v ≠ 0 then s.queueOut v (.launch (va57 a) g.wp.core g.w)
  else
    let gr := ((s.block? g.wp.block).map (·.grid)).getD 0
    let (s, f) := s.beginRelease g [l] .dv
    let d : DevLaunch :=
      { ctx := s.ctxIdOf g.wp.block, addr := va57 a, grid := gr, warp := some g.w, group := group, waiting := some f, view := none,
        paused := none, due := 0 }
    { s with devLaunches := s.devLaunches ++ [(s.tick, d)] }.next

/-- One lane's launch: ACCESS for an address that is not canonical, MISALIGN for one that is no multiple of 192 (R309). -/
def State.launchLane (s : State) (g : Grp) (group l : Nat) (a : DWord) : State :=
  if !canonical a then s.trapLane g.w l (.access g.pc a 0x06)
  else if a.toNat % 192 ≠ 0 then s.trapLane g.w l (.misalign g.pc a)
  else (s.enterLaunch g group l a).stepLanes g.w [l]

/-- The lanes' launches in ascending order, with a number of entries free; a lane that traps takes none, and where none is left this lane
and those after it stay at their word (R309). -/
def State.launchLanes (g : Grp) (group : Nat) (addr : Nat → DWord) : State → Nat → List Nat → State
  | s, _, [] => s
  | s, free, l :: rest =>
    let enters : Bool := canonical (addr l) && (addr l).toNat % 192 = 0
    if enters && free = 0 then s
    else State.launchLanes g group addr (s.launchLane g group l (addr l)) (if enters then free - 1 else free) rest

/-- `launch [a]` (R309): with a uniform B for the lowest lane of the group, else for every lane in ascending order. The launches of one
instruction count once in st, until the last of their records is read (R232). -/
def execLaunch (h : Hdr) (b : Opd) (s : State) : Out :=
  .next (onGroup h (b.top 64) s (fun g G s => outsideTx g G s (fun G s =>
    let ls := match b with
      | .v _ => G
      | _ => G.take 1
    let group := s.tick
    let free := if s.viewOf g.wp.block = 0 then 1024 - s.launches (s.ctxIdOf g.wp.block) else ls.length
    let s' := State.launchLanes g group (fun l => BitVec.ofNat 64 ((s.laneRegs g l).src64 b)) (s.stepLanes g.w (G.filter (fun l => l ∉ ls))).next
      free ls
    if s'.devLaunches.any (fun e => e.2.warp = some g.w && e.2.group = group) then
      s'.modWarp g.w (fun wp => { wp with ctrSt := wp.ctrSt + 1 })
    else s')))

/-! ### Events (R314) -/

/-- `event x`: a release at `.sy` for the lanes of G, then one record of the grid's ring; it counts in st until the record is
written. In a world it enters the outbox. -/
def execEvent (h : Hdr) (x : Opd) (s : State) : Out :=
  .next (onGroup h (x.top 32) s (fun g G s => outsideTx g G s (fun G s =>
    let val : Word := BitVec.ofNat 32 (s.groupSrc g G x)
    let v := s.viewOf g.wp.block
    if v ≠ 0 then (s.stepLanes g.w G).queueOut v (.event val g.wp.core)
    else
      let s := (s.beginFence g G .rel .sy (.event val)).1
      (s.stepLanes g.w G).modWarp g.w (fun wp => { wp with ctrSt := wp.ctrSt + 1 }))))

/-! ### Ending rivals and choosing (R168 to R171) -/

/-- What `yieldw`, `choose` and their forms share: lanes in a transaction abort; ILLOP reason 0x0B in a handler and where `ok` does
not hold; else `f` acts for the lanes left (R83, R315, R374). -/
def worldOp (h : Hdr) (top : Nat) (s : State) (ok : State → Grp → List Nat → Block → Bool) (f : Grp → List Nat → Block → State → State) :
    State :=
  onGroup h top s (fun g G s => outsideTx g G s (fun G s => outsideHandler g G s (fun s =>
    match s.block? g.wp.block with
    | none => s
    | some bl => if ok s g G bl then f g G bl s else s.illopLanes g G 0x0B)))

/-- `yieldw x`: the lanes of a rival exit; the first group to issue it gives the score (R168). -/
def execYieldw (h : Hdr) (x : Opd) (s : State) : Out :=
  .next (worldOp h (x.top 32) s (fun _ _ _ bl => bl.depth ≠ 0) (fun g G _ s =>
    let score : Word := BitVec.ofNat 32 (s.groupSrc g G x)
    ((s.modBlock g.wp.block (fun bl => { bl with yielded := some (bl.yielded.getD score) })).exitLanes g.w G).checkArrivals g.wp.block))

/-- Rival k of a judging block may be chosen. -/
def Block.mayChoose (bl : Block) (k : Nat) : Bool := k < 8 && (bl.rivals[k]?).any (fun r => r.status = 0)

/-- Discard the YIELDED rivals of a judging block that a test picks, and end its judging. -/
def State.judge (s : State) (b : Nat) (bl : Block) (drop : Nat → Bool) : State :=
  let vs := ((upTo 8).filterMap (fun i => if drop i then (bl.rivals[i]?).bind (fun r => if r.status = 0 then some r.view else none) else none))
  (vs.foldl State.discardView s).modBlock b (fun bl => { bl with judging := false })

/-- `choose k`: a judging block commits rival k and discards the other YIELDED rivals; the group is held until the commit has
completed (R171, R172). -/
def execChoose (h : Hdr) (k : Opd) (s : State) : Out :=
  .next (worldOp h 0 s (fun s g G bl => bl.judging && bl.mayChoose (s.groupSrc g G k)) (fun g G bl s =>
    let n := s.groupSrc g G k
    let v := ((bl.rivals[n]?).map (·.view)).getD 0
    let s := (s.judge g.wp.block bl (fun i => i ≠ n)).modBlock g.wp.block (fun bl =>
      { bl with rivals := listModify bl.rivals n (fun r => { r with chosen := true }) })
    (s.beginCommit v (some g.w)).modLanes g.w G (fun la => { la with hold := .choose v })))

/-- `choose.none`: a judging block discards every YIELDED rival (R171). -/
def execChooseNone (h : Hdr) (s : State) : Out :=
  .next (worldOp h 0 s (fun _ _ _ bl => bl.judging) (fun g G bl s => (s.judge g.wp.block bl (fun _ => true)).stepLanes g.w G))

/-- `choose.self`: the lanes of a rival exit, and the rival is marked to end as SELF (R168, R171). -/
def execChooseSelf (h : Hdr) (s : State) : Out :=
  .next (worldOp h 0 s (fun _ _ _ bl => bl.depth ≠ 0) (fun g G _ s =>
    ((s.modBlock g.wp.block (fun bl => { bl with selfMark := true })).exitLanes g.w G).checkArrivals g.wp.block))

end Sys2Proof.Machine
end

