-- ==== Sys2Proof/Machine/Views.lean ====
section
/-! DEFINITION. Views as they are committed, spilled and given back; the outbox; how a rival ends (R110, R168 to R178, R329, R409). -/

namespace Sys2Proof.Machine

/-! ### Killing a family of blocks (R169, R375) -/

/-- The rivals of a block, their rivals, and so on; worlds nest four deep. -/
def State.offspring (s : State) : Nat → Nat → List Nat
  | 0, _ => []
  | n + 1, b => (((s.block? b).map (·.children)).getD []).flatMap (fun c => c :: s.offspring n c)

/-- Kill a block and the rivals it waits for; `cause` 16 stands for no trap cause. -/
def State.killFamily (s : State) (b cause : Nat) : State :=
  (b :: s.offspring 5 b).foldl (fun s c => s.killBlock c cause 0 0) s

/-! ### Commits (R172, R409) -/

/-- For whom a commit of a view installs lines: in the parent view, outside every pin. -/
def State.whoInstall (s : State) (v : Nat) (vw : View) : Who :=
  { ctx := vw.ctx, asid := ((s.ctx? vw.ctx).map (·.body.asid)).getD 0, view := vw.parent, cluster := noCluster, core := none,
    lockTx := none, lockView := some v, demand := true, fetch := false }

/-- The copies tagged with a view, spilled ones among them, each with its slice. -/
def State.copiesOf (s : State) (v : Nat) : List (Nat × HLine) := s.pinned (fun h => h.view = v)

/-- The queue and number of the command that a view's grid belongs to. -/
def State.cmdOfGrid (s : State) (g : Nat) : Nat × Nat := ((s.grid? g).map (fun g => (g.queue, g.seq))).getD (0, 0)

/-- An install or an operation of an outbox that is lost: logged, and told in the final record unless that already carries another
status (R409). -/
def State.commitLoss (s : State) (vw : View) (a reason engine : Nat) : State :=
  (s.logError vw.ctx a reason engine).modGrid vw.grid (fun g =>
    if g.status = 0 then { g with status := 1, cause := g.cause ||| 8, reason := reason, faddr := (BitVec.ofNat 57 a).signExtend 64 |>.toNat }
    else g)

/-- A page fault of an install or an outbox operation is routed; it waits for `RESUME` (R409). -/
def State.commitFault (s : State) (v : Nat) (vw : View) (line a reason : Nat) : State :=
  let (qu, sq) := s.cmdOfGrid vw.grid
  (s.raiseFault { ctx := vw.ctx, page := pageOf a, fetch := false, reason := reason, faddr := a,
                  engine := 0x4000 + s.homeOf vw.ctx (pageOf a), queue := qu, seq := sq, routed := false }).modView v (fun vw =>
    { vw with pendingInstalls := vw.pendingInstalls ++ [(line, pageOf a)] })

/-- The written bytes of a copy that lie in a page. -/
def HLine.writtenIn (h : HLine) (page : Nat) : BitVec 192 := h.written &&& chunkBytes (lineChunks h.line page)
/-- The first byte of a mask. -/
def firstByte (m : BitVec 192) : Nat := ((upTo 192).find? (fun i => m.getLsbD i)).getD 0
/-- The chunks that hold a byte of a mask. -/
def maskChunks (m : BitVec 192) : BitVec 12 :=
  (upTo 12).foldl (fun c i => if m &&& byteMask (16 * i) 16 ≠ 0 then c ||| BitVec.ofNat 12 (2 ^ i) else c) 0
/-- The chunks of the sectors that a mask does not cover whole. -/
def partChunks (m : BitVec 192) : BitVec 12 :=
  (upTo 12).foldl (fun c i => if byteMask (i / 3 * 48) 48 &&& ~~~m ≠ 0 then c ||| BitVec.ofNat 12 (2 ^ i) else c) 0

/-- The written bytes of a page of a copy are installed in the copy `g` of the parent view (R172, step 3): poison goes with them
(Table 22.7). The answer is Tdv and Tsy. -/
def State.installMask (s : State) (p : Who) (h g : HLine) (page : Nat) : State × Nat × Nat :=
  let m := h.writtenIn page
  let tm := s.times p h.line page false
  let poison := maskChunks m &&& ~~~h.valid
  let s := s.modHLine (s.homeOf p.ctx page) g (fun k =>
    { k with data := lineMerge k.data h.data m, valid := (k.valid ||| maskChunks m) &&& ~~~poison, dirty := k.dirty ||| m,
             written := if k.view = 0 then k.written else k.written ||| m, tldv := max k.tldv tm.tdv, tlsy := max k.tlsy tm.tdv })
  let (s, tsy) := s.recalled p h.line page tm.tdv
  (s, tm.tdv, tsy)

/-- The written bytes of a page of a copy have been installed, or are lost. -/
def State.clearWritten (s : State) (x : Nat) (h : HLine) (page : Nat) : State :=
  s.modHLine x h (fun k => { k with written := k.written &&& ~~~(h.writtenIn page) })

/-- Install one page of a copy, as far as that is possible now. -/
def State.commitPage (s : State) (v : Nat) (x : Nat) (h : HLine) (page : Nat) : State :=
  match s.view? v with
  | none => s
  | some vw =>
    let p := s.whoInstall v vw
    let m := h.writtenIn page
    let a := h.line * 192 + firstByte m
    let engine := 0x4000 + x
    if m = 0 ∨ (h.line, page) ∈ vw.pendingInstalls then s
    else
      match s.home p h.line page true 0 with
      | (s, .retry) | (s, .full) | (s, .drop) => s
      | (s, .fault reason) => s.commitFault v vw h.line a reason
      | (s, .error e) => (s.commitLoss vw a e engine).clearWritten x h page
      | (s, .target f) =>
        let s := (upTo 192).foldl (fun s i =>
          if m.getLsbD i then s.targetWrite (physOf f (h.line * 192 + i)) 1 (lineGet h.data i 1) else s) s
        s.clearWritten x h page
      | (s, .ok _) =>
        match s.ownCopy p h.line page with
        | (s, none) => s
        | (s, some g) =>
          if maskChunks m &&& partChunks m &&& ~~~g.valid ≠ 0 then (s.commitLoss vw a 0x05 engine).clearWritten x h page
          else
            let (s, t, tsy) := s.installMask p h g page
            ((s.clearWritten x h page).modView v (fun vw => { vw with commit := vw.commit.map (fun c => (c.1, max c.2 t)) })).modGrid vw.grid
              (fun g => { g with hsy := max g.hsy tsy })

/-- `VIEW_COMMIT`: a commit in progress widens the pins of its copies and installs every page that it can (R172, steps 1 to 3). -/
def execViewCommit (v : Nat) (s : State) : Out :=
  .next (match (s.view? v).bind (·.commit) with
  | none => s
  | some _ =>
    let s := s.unpinAll (fun h => h.view = v && (h.pinCo.isSome || h.pinCl.isSome)) noCluster []
    (s.copiesOf v).foldl (fun s e => e.2.tags.foldl (fun s t => s.commitPage v e.1 e.2 t.1) s) s)

/-- What a parent finds when it goes on after a fork: its threads at the labels, scores in s112 to s119, statuses in s120, and whether
it judges (R170). -/
def Block.resumeFork (bl : Block) : Block :=
  let status (i : Nat) : Nat := ((bl.rivals[i]?).map (·.status)).getD 7
  let word : Nat := ((upTo 8).map (fun i => status i * 8 ^ i)).sum
  let put (m : NatMap Word) : NatMap Word :=
    mapPut 0 ((upTo 8).foldl (fun m i => mapPut 0 m (112 + i) (if status i ≤ 1 then ((bl.rivals[i]?).map (·.score)).getD 0 else 0)) m) 120
      (BitVec.ofNat 32 word)
  { bl with
    st := .queued
    judging := (upTo 8).any (fun i => status i = 0) && !(upTo 8).any (fun i => status i = 1)
    rec_ := bl.rec_.map (fun r => { r with warps := r.warps.map (fun w =>
      { w with sregs := put w.sregs, threads := w.threads.map (fun t => { t with pc := t.label }) }) }) }

/-- A parent whose rivals have all ended is queued; the parent of a SELF rival once that rival's commit is over, its outbox included
(R169, R172, R329). -/
def State.tryQueueParent (s : State) (b : Nat) : State :=
  match s.block? b with
  | none => s
  | some bl =>
    if bl.st = .forked ∧ bl.children = [] ∧ bl.killed.isNone ∧
        bl.rivals.all (fun r => r.status ≠ 1 || r.isOver) then
      s.modBlock b Block.resumeFork
    else s

/-- The parents that may wait for a view. -/
def State.parentsOf (s : State) (v : Nat) : List Nat :=
  (s.blocks.filter (fun e => e.2.st = .forked && e.2.rivals.any (fun r => r.view = v))).map (·.1)

/-- The rivals of a block that committed a view as SELF are over. -/
def Block.endSelf (v : Nat) (bl : Block) : Block :=
  { bl with rivals := bl.rivals.map (fun r => if r.view = v ∧ r.status = 1 then { r with isOver := true } else r) }

/-- A view is given up once its outbox is over; the parent that waits for it may be queued. -/
def State.dropView (s : State) (v : Nat) : State :=
  (s.parentsOf v).foldl (fun s b => (s.modBlock b (Block.endSelf v)).tryQueueParent b) (s.retireView v)

/-- The retry of a commit ends: its time enters Hdv, its copies are dropped, the waits on its lines are looked at, the lanes of
`choose` go on, and the outbox is to be performed, or passes to the parent view (R81, R110, R172, R175, R329). -/
def State.endRetry (s : State) (v : Nat) (vw : View) (w : Option Nat) (t : Nat) : State :=
  let lines := (s.copiesOf v).map (fun e => (e.1, e.2.line))
  let s : State := { s with blocks := s.blocks.map (fun e => (e.1, { e.2 with
    rivals := e.2.rivals.map (fun r => if r.view = v ∧ (r.chosen ∨ r.status = 1) then { r with time := t } else r) })) }
  let s := (s.dropTagged v).modView v (fun vw => { vw with commit := none })
  let s := lines.foldl (fun s e => s.afterWrite e.1 e.2) s
  let s := match w with
    | none => s
    | some w => s.modWarp w (fun wp =>
        { wp with hdv := max wp.hdv t
                  ctrSt := if vw.parent = 0 then wp.ctrSt + vw.outbox.length else wp.ctrSt
                  lanes := wp.lanes.map (fun (la : Lane) => if la.hold = Hold.choose v then { la with hold := .none, pc := la.pc + 16 } else la) })
  if vw.parent = 0 ∧ vw.outbox ≠ [] then s.modView v (fun vw => { vw with performing := some w })
  else (vw.outbox.foldl (fun (s : State) op => s.queueOut vw.parent op)
    ((s.freeOutEntries v vw).modView v (fun vw => { vw with outbox := [] }))).dropView v

/-- `COMMIT_RETRY_END`: once every install has been performed or lost and gtime has reached their largest Tdv (R172, step 4). -/
def execCommitRetryEnd (v : Nat) (s : State) : Out :=
  .next (match s.view? v with
  | none => s
  | some vw =>
    match vw.commit with
    | none => s
    | some (w, t) =>
      if vw.pendingInstalls = [] ∧ (s.copiesOf v).all (fun e => e.2.written = 0) ∧ t ≤ s.gtimeAt 0 then s.endRetry v vw w t else s)

/-! ### The outbox (R174, R175, R329, R409) -/

/-- The operation at the head of an outbox is over. -/
def State.outDone (s : State) (v : Nat) (w : Option Nat) (count : Bool) : State :=
  let s := match w with
    | some w => if count then s.modWarp w (fun wp => { wp with ctrSt := wp.ctrSt - 1 }) else s
    | none => s
  let s := ((s.view? v).elim s (fun vw => s.freeEntry v vw.outNo (outKey vw.outNo))).modView v (fun vw =>
    { vw with outbox := vw.outbox.tail, outNo := vw.outNo + 1 })
  if (s.view? v).any (fun vw => vw.outbox = []) then s.dropView v else s

/-- The accesses of an operation performed at a cell; those that meet poison are lost. `sy` gives Tsy from Tdv. -/
def State.outAccess (s : State) (vw : View) (w : Option Nat) (q : Req) (c : Cell) (sy : State → Nat → State × Nat) : State :=
  let (s, _, bad, t) := performAccs q c s q.accs
  let s := bad.foldl (fun s e => s.commitLoss vw e.2.addr e.1 (0x4000 + s.homeOf q.ctx q.page)) s
  let (s, tsy) := sy s t.tdv
  let s := s.modGrid vw.grid (fun g => { g with hsy := max g.hsy tsy })
  match w with
  | some w => s.modWarp w (fun wp => wp.merge t.tcl t.tdv tsy)
  | none => s

/-- A queued access as the committing warp issues it (R175); where no warp chose, as it stands. -/
def State.outReq (s : State) (w : Option Nat) (q : Req) : Req :=
  let q := { q with view := 0, demand := true, inTx := false }
  match w.bind s.warp? with
  | some wp => { q with core := wp.core, block := some wp.block }
  | none => q

/-- Perform a queued access now, if it can be; the answer says whether it is over. -/
def State.performOut (s : State) (v : Nat) (vw : View) (w : Option Nat) (q : Req) : State × Bool :=
  let q := s.outReq w q
  let p := q.who
  let a := (q.accs.head?.map (·.addr)).getD 0
  match s.apertureOff q.ctx a with
  | some o =>
    let cl := clusterOf q.core
    (match s.bankAt q.ctx cl q.block o 16 with
    | .fifo b =>
      if ((s.cluster cl).bank b).fifo.length + q.accs.length ≤ 16384 then
        (s.modBank cl b (fun k => { k with fifo := k.fifo ++ q.accs.map (·.data) }), true)
      else (s, false)
    | .scratch _ _ => (s.commitLoss vw a 0x04 (0x4000 + s.homeOf q.ctx q.page), true)
    | .error e => (s.commitLoss vw a e (0x4000 + s.homeOf q.ctx q.page), true))
  | none =>
    let engine := 0x4000 + s.homeOf q.ctx q.page
    if s.windowRefuses q then (s.commitLoss vw a 0x07 engine, true)
    else
      match s.home p q.line q.page true q.hint with
      | (s, .retry) | (s, .full) | (s, .drop) => (s, false)
      | (s, .fault reason) => (s.commitFault v vw q.line a reason, false)
      | (s, .error e) => (s.commitLoss vw a e engine, true)
      | (s, .target f) =>
        let t := s.sliceTime p q.page
        (s.outAccess vw w q (targetCell f t) (fun s x => (s, max x t)), true)
      | (s, .ok _) =>
        match s.ownCopy p q.line q.page with
        | (s, none) => (s, false)
        | (s, some _) => (s.outAccess vw w q (homeCell p q.line q.page) (fun s t => s.recalled p q.line q.page t), true)

/-- The committing warp's release at a scope is over: its writes are performed, pins are widened, and its horizon has passed (R97). -/
def State.outReleased (s : State) (w : Option Nat) (scope : Scope) : State × Bool :=
  match w.bind (fun w => (s.warp? w).map (fun wp => (w, wp))) with
  | none => (s, true)
  | some (w, wp) =>
    let (s, wide) := s.widenDue wp scope [w]
    (s, wide && (s.openWrites w (BitVec.allOnes 32)).isEmpty &&
      ((s.warp? w).map (fun wp => wp.horizon scope)).getD 0 ≤ s.gtimeAt (placeCore wp.core))

/-- A queued access comes with a release of its own where it has one (R175). -/
def State.outRelease (s : State) (w : Option Nat) (q : Req) : State × Bool :=
  if q.rel then s.outReleased w q.scope else (s, true)

/-- `OUTBOX_PERFORM`: the first operation of the outbox of a view that was committed into the base is performed, as by the warp
that chose (R175, R329, R409). A launch is performed when its record has been read. -/
def execOutboxPerform (v : Nat) (s : State) : Out :=
  .next (match s.view? v with
  | none => s
  | some vw =>
    match vw.performing, vw.outbox with
    | some w, .access q :: _ =>
      if vw.pendingInstalls ≠ [] then s
      else
        (match s.outRelease w q with
        | (s, false) => s
        | (s, true) =>
          match s.performOut v vw w q with
          | (s, true) => s.outDone v w true
          | (s, false) => s)
    | some w, .launch a _ _ :: _ =>
      if s.devLaunches.any (fun e => e.2.view = some v) then s
      else
        (match s.outReleased w .dv with
        | (s, false) => s
        | (s, true) =>
          if 1024 ≤ s.launches vw.ctx then s
          else
            let d : DevLaunch := { ctx := vw.ctx, addr := a, grid := vw.grid, warp := none, group := s.tick, waiting := none, view := some v,
                                   paused := none, due := 0 }
            { s with devLaunches := s.devLaunches ++ [(s.tick, d)] }.next)
    | some w, .event x k :: _ =>
      (match s.outReleased w .sy, s.grid? vw.grid with
      | (s, true), some g =>
        let core := ((w.bind s.warp?).map (·.core)).getD k
        if s.ringRoom g.lrec.cring then
          (s.post g.lrec.cring { Record.blank g.queue g.seq (0x1000 + core) (x.setWidth 64) with kind := 2 }).outDone v w true
        else s
      | (s, _), _ => s)
    | _, _ => s)

/-- `VIEW_ID_RETURN`: a dropped view's ID returns to the pool once no lease of its copies runs any more (R173, R328). -/
def execViewIdReturn (v : Nat) (s : State) : Out :=
  .next (match (s.view? v).bind (·.returnAt) with
  | none => s
  | some t => if t ≤ s.gtimeAt 0 then { s with views := mapErase s.views v } else s)

/-- `VIEW_SPILL`: a home slice writes a view copy of a line to its bucket of the view store (R176, R177). -/
def execViewSpill (v line : Nat) (s : State) : Out :=
  .next ((s.pinned (fun h => h.view = v && v ≠ 0 && h.line = line && !h.spilled && !h.fixed)).foldl (fun s e => s.spill e.1 e.2) s)

/-! ### The end of a block's work -/

/-- No thread of a block lives and every sequencer has exited or stopped (R150). -/
def State.blockOver (s : State) (bl : Block) : Bool :=
  s.liveThreads bl = 0 && bl.tenants.all (fun t => (s.tenant? t).all (fun te => te.st = .exited || te.st = .stopped))

/-- What a block has issued is complete: its requests and releases, its tile instructions, its copies (R23, R229, R375). -/
def State.blockQuiet (s : State) (b : Nat) (bl : Block) : Bool :=
  !s.reqs.any (fun e => e.2.block = some b && e.2.kind ≠ .ifetch) &&
    !s.fences.any (fun e => e.2.warp ∈ bl.warps) && !s.gathers.any (fun e => e.2.warp ∈ bl.warps) &&
    !s.commits.any (fun e => e.2.warp ∈ bl.warps) && !s.copies.any (fun e => e.2.block = some b && e.2.st ≠ .closed && e.2.st ≠ .saved) &&
    bl.warps.all (fun w => (s.warp? w).all (fun wp => !s.owes w wp)) &&
    bl.tenants.all (fun t => (s.tenant? t).all (fun te => te.queue.isEmpty && te.running.isEmpty))

/-- The `.dv` widening for every thread of a block; then whether every horizon at `.dv` has passed (R23, R104). -/
def State.blockReleased (s : State) (bl : Block) : State × Bool :=
  let s := bl.warps.foldl (fun s w => match s.warp? w with
    | some wp => (s.widenDue wp .dv [w]).1
    | none => s) s
  (s, bl.warps.all (fun w => (s.warp? w).all (fun wp => wp.hdv ≤ s.gtimeAt (placeCore wp.core))))

/-- A copy that failed and that no lane has waited for appears in the grid's final record, as an ACCESS of the engine (R287). -/
def State.tellUnheard (s : State) (bl : Block) : State :=
  match bl.unheard with
  | [] => s
  | (_, a, reason, engine) :: _ =>
    s.modGrid bl.grid (fun g =>
      let g := { g with cause := g.cause ||| 8 }
      if g.status = 0 then { g with status := 1, reason := reason, faddr := (signAddr a).toNat, engine := engine } else g)

/-- The cores of a block give up its warps, tenants, tags and barriers; the latest Tsy of its writes is kept for the final record. -/
def State.leaveCores (s : State) (b : Nat) (bl : Block) : State :=
  let hsy := listMax (bl.warps.map (fun w => ((s.warp? w).map (·.hsy)).getD 0))
  let s : State := { s with
    warps := s.warps.filter (fun e => e.1 ∉ bl.warps)
    tenants := s.tenants.filter (fun e => e.1 ∉ bl.tenants)
    cursor := s.cursor.filter (fun c => match c with | .group w _ => w ∉ bl.warps | .seq t => t ∉ bl.tenants) }
  (s.modGrid bl.grid (fun g => { g with hsy := max g.hsy hsy })).modBlock b (fun bl =>
    { bl with warps := [], tenants := [], tags := [], nbars := [], arrivals := [], barArrived := [], broken := none, cores := [] })

/-- A block that has ended is gone, with operations of engines that were saved with it. -/
def State.dropBlock (s : State) (b : Nat) : State :=
  { s with blocks := mapErase s.blocks b, copies := s.copies.filter (fun e => !(e.2.block = some b && e.2.st = .saved)) }

/-- The last thread of a judging block to exit acts as `choose.none` (R171). -/
def State.judgeLast (s : State) (b : Nat) (bl : Block) : State := if bl.judging then s.judge b bl (fun _ => true) else s

/-- The status of a rival that has ended (Table 7.4). -/
def Block.rivalStatus (bl : Block) : Nat :=
  if bl.exhausted then 2 else if bl.killed.isSome then 3 else if bl.selfMark then 1 else if bl.yielded.isSome then 0 else 4

/-- What follows from a rival's end: a SELF rival kills the siblings that still run, the others' views are discarded, and its own is
committed; a rival that yielded keeps its view; any other loses it (R169, R173). -/
def State.rivalEnded (s : State) (parent : Nat) (bl : Block) (status : Nat) : State :=
  match status, s.block? parent with
  | 0, _ => s
  | 1, some pa =>
    let s := pa.children.foldl (fun s c => s.killFamily c 16) s
    let s := pa.rivals.foldl (fun s r => if r.status = 0 then s.discardView r.view else s) s
    s.beginCommit bl.view none
  | _, _ => s.discardView bl.view

/-- `RIVAL_END`: a rival whose threads have exited and whose work is done ends with a status, told to its parent (R168, R169). -/
def execRivalEnd (b : Nat) (s : State) : Out :=
  .next (match s.block? b with
  | none => s
  | some bl =>
    match bl.parent with
    | none => s
    | some pa =>
      if !s.blockOver bl ∨ bl.children ≠ [] then s
      else
        let s := s.judgeLast b bl
        if !s.blockQuiet b bl then s
        else
          match s.blockReleased bl with
          | (s, false) => s
          | (s, true) =>
            let st := bl.rivalStatus
            let score : Word := if st ≤ 1 then bl.yielded.getD 0 else 0
            let s := (s.leaveCores b bl).tellUnheard bl
            let s := s.dropBlock b
            let s := s.modBlock pa (fun p => { p with
              children := p.children.filter (· ≠ b)
              rivals := listModify p.rivals bl.world (fun r => { r with status := st, score := score }) })
            (s.rivalEnded pa bl st).tryQueueParent pa)

end Sys2Proof.Machine
end

