-- ==== Sys2Proof/Machine/Launch.lean ====
section
/-! DEFINITION. Launch records: reading and checking one, the grid that it starts, and what a block needs of a core (R14, R18 to R21,
R25, R67, R72, R120, R138, R144, R176, R340 to R342). -/

namespace Sys2Proof.Machine

/-! ### Reading -/

/-- Read `n` times 16 bytes from an address on; a failure comes with its address. -/
def State.engReadList (p : Who) : State → Nat → Nat → State × EngR (List (BitVec 8)) × Nat
  | s, a, 0 => (s, .ok [], a)
  | s, a, n + 1 =>
    match s.engRead p none a 16 with
    | (s, .ok v) =>
      (match State.engReadList p s (a + 16) n with
      | (s, .ok bs, b) => (s, .ok (natBytes 16 v ++ bs), b)
      | r => r)
    | (s, .retry) => (s, .retry, a)
    | (s, .full) => (s, .full, a)
    | (s, .fault r) => (s, .fault r, a)
    | (s, .error e) => (s, .error e, a)

/-- For whom command firmware reads the memory of a context. -/
def State.whoFirmware (s : State) (x : Nat) : Who := whoEngine x (((s.ctx? x).map (·.body.asid)).getD 0) 0 noCluster

/-- `n` bytes of a record from offset `o`, as a number. -/
def field (bs : List (BitVec 8)) (o n : Nat) : Nat := bytesNat ((bs.drop o).take n)
/-- Every byte of a range of offsets is zero. -/
def zeros (bs : List (BitVec 8)) (o n : Nat) : Bool := field bs o n = 0

/-- The fields of a launch record (Table 18.12). -/
def LaunchRec.ofBytes (bs : List (BitVec 8)) : LaunchRec :=
  { w := (upTo 6).map (fun i => field bs (8 + i) 1)
    e := [field bs 0x10 1, field bs 0x12 2] ++ (upTo 4).map (fun i => field bs (0x18 + 8 * i) 8)
    gang := field bs 0x0E 1
    curve := (upTo 64).map (fun i => field bs (0x38 + i) 1)
    slots := (upTo 8).map (fun i => BitVec.ofNat 128 (field bs (0x78 + 16 * i) 16))
    code := field bs 0xF8 8, stream := field bs 0x100 8, seed := BitVec.ofNat 64 (field bs 0x108 8), args := field bs 0x110 8
    parea := field bs 0x118 8, vstore := field bs 0x120 8, handler := field bs 0x128 8, psize := field bs 0x130 4
    vsb := field bs 0x134 4, scratch := field bs 0x138 4, cscratch := field bs 0x13C 4, vsq := field bs 0x140 2
    regs := 8 * field bs 0x142 1, trows := field bs 0x143 1, tags := field bs 0x144 1, nbars := field bs 0x145 1
    banks := field bs 0x146 1, sbias := (BitVec.ofNat 8 (field bs 0x147 1)).toInt, steer := field bs 0x148 1
    class_ := field bs 0x149 1, prio := field bs 0x14A 1, cring := field bs 0x14C 2
    carryv := BitVec.ofNat 256 (field bs 0x150 32), carrys := BitVec.ofNat 128 (field bs 0x170 16) }

/-! ### Geometry (R14, R15, R20, R21) -/

/-- The width of a field of the work identifier. -/
def LaunchRec.width (r : LaunchRec) (i : Nat) : Nat := r.w.getD i 0
/-- The lowest bit of a field. -/
def LaunchRec.origin (r : LaunchRec) (i : Nat) : Nat := (r.w.take i).sum
/-- The number of curve bits m. -/
def LaunchRec.curveBits (r : LaunchRec) : Nat := r.width 2 + r.width 3 + r.width 4 + r.width 5
/-- Blocks of the grid, and of a gang. -/
def LaunchRec.blocks (r : LaunchRec) : Nat := r.extent 2 * r.extent 3 * r.extent 4 * r.extent 5
def LaunchRec.gangSize (r : LaunchRec) : Nat := if r.gang = 0 then 1 else ((upTo (r.gang - 1)).map (fun i => r.extent (i + 2))).foldl (· * ·) 1

/-- The constraints of R14. -/
def LaunchRec.geometryOk (r : LaunchRec) : Bool :=
  r.width 0 = 5 && 1 ≤ r.extent 0 && r.extent 0 ≤ 32 && r.width 1 ≤ 9 &&
    (upTo 6).all (fun i => 1 ≤ r.extent i && r.extent i ≤ 2 ^ r.width i) && r.w.sum ≤ 64

/-- The constraints of R20. -/
def LaunchRec.curveOk (r : LaunchRec) : Bool :=
  let m := r.curveBits
  let used := r.curve.take m
  m ≤ 64 && (r.curve.drop m).all (· = 0xFF) &&
    (upTo m).all (fun i => (used.filter (· = r.origin 2 + i)).length = 1)

/-- `%wid` at a curve index (R21). -/
def LaunchRec.widAt (r : LaunchRec) (x : Nat) : Nat :=
  ((upTo r.curveBits).map (fun i => if x / 2 ^ i % 2 = 1 then 2 ^ (r.curve.getD i 0) else 0)).sum
/-- The value of a field in a work identifier. -/
def LaunchRec.fieldOf (r : LaunchRec) (wid i : Nat) : Nat := wid / 2 ^ r.origin i % 2 ^ r.width i
/-- A curve index that names a block: every field lies below its extent. -/
def LaunchRec.offers (r : LaunchRec) (x : Nat) : Bool :=
  (upTo 4).all (fun i => r.fieldOf (r.widAt x) (i + 2) < r.extent (i + 2))
/-- The curve index of a work identifier. -/
def LaunchRec.curveIndex (r : LaunchRec) (wid : Nat) : Nat :=
  ((upTo r.curveBits).map (fun i => if wid / 2 ^ (r.curve.getD i 0) % 2 = 1 then 2 ^ i else 0)).sum
/-- The blocks of the gang of a block: every value of the fields up to the gang level (R18). -/
def LaunchRec.gangOf (r : LaunchRec) (wid : Nat) : List Nat :=
  (upTo (r.gang - 1)).foldl (fun ws i =>
    let f := i + 2
    ws.flatMap (fun w => (upTo (r.extent f)).map (fun v => w - r.fieldOf w f * 2 ^ r.origin f + v * 2 ^ r.origin f))) [wid]
/-- The first curve index from `x` on that names a block, among the next `fuel`. -/
def LaunchRec.nextOffer (r : LaunchRec) : Nat → Nat → Option Nat
  | 0, _ => none
  | fuel + 1, x => if 2 ^ r.curveBits ≤ x then none else if r.offers x then some x else r.nextOffer fuel (x + 1)

/-! ### What a block needs of a core (R19, R72, R138, R144) -/

/-- Warps of a block that one core can hold, H. -/
def LaunchRec.coreWarps (r : LaunchRec) : Nat := 8 * min 16 (512 / max 1 r.regs)
/-- The cores c of a block; 0 where four do not suffice. -/
def LaunchRec.ncores (r : LaunchRec) : Nat :=
  if r.extent 1 ≤ r.coreWarps then 1 else if r.extent 1 ≤ 2 * r.coreWarps then 2 else if r.extent 1 ≤ 4 * r.coreWarps then 4 else 0
/-- The warps of a rank. -/
def LaunchRec.rankWarps (r : LaunchRec) (rank : Nat) : List Nat :=
  let b := (r.extent 1 + r.ncores - 1) / max 1 r.ncores
  (upTo (r.extent 1)).filter (fun w => w / max 1 b = rank)

/-- What the blocks on a core hold: warps and registers of each partition, tags, barriers, and the rows of tenants 0 and 1. -/
structure CoreUse where
  warps : List Nat
  regs : List Nat
  tags : Nat
  nbars : Nat
  rows : List (Nat × Nat)
  deriving DecidableEq, Repr

def CoreUse.empty : CoreUse := { warps := List.replicate 8 0, regs := List.replicate 8 0, tags := 0, nbars := 0, rows := [] }

/-- Add a rank of a block to what a core holds, where it fits. -/
def CoreUse.add (u : CoreUse) (r : LaunchRec) (rank : Nat) : Option CoreUse :=
  let n (j : Nat) : Nat := ((r.rankWarps rank).filter (fun w => w % 8 = j)).length
  let warps := (upTo 8).map (fun j => u.warps.getD j 0 + n j)
  let regs := (upTo 8).map (fun j => u.regs.getD j 0 + n j * r.regs)
  let slot := if u.rows.any (fun e => e.1 = 0) then 1 else 0
  let held := (u.rows.map (·.2)).sum
  if warps.any (16 < ·) || regs.any (512 < ·) || 64 < u.tags + r.tags || 32 < u.nbars + r.nbars ||
      (r.stream ≠ 0 && (2 ≤ u.rows.length || 32 < held + r.trows)) then none
  else
    some { warps := warps, regs := regs, tags := u.tags + r.tags, nbars := u.nbars + r.nbars,
           rows := if r.stream ≠ 0 then u.rows ++ [(slot, r.trows)] else u.rows }

/-- Place the ranks of one block on distinct cores of a cluster, looking from core `start` on: the cores by rank. -/
def fitRanks (r : LaunchRec) (start : Nat) : List Nat → List CoreUse → List Nat → Option (List CoreUse × List Nat)
  | [], us, done => some (us, done)
  | rank :: rest, us, done =>
    let k := ((upTo 8).map (fun i => (start + i) % 8)).find? (fun k =>
      k ∉ done && ((us.getD k CoreUse.empty).add r rank).isSome)
    match k with
    | none => none
    | some k => fitRanks r start rest (listModify us k (fun u => (u.add r rank).getD u)) (done ++ [k])

/-- Place `n` blocks in a cluster: the cores of each. -/
def fitBlocks (r : LaunchRec) (start : Nat) : Nat → List CoreUse → Option (List CoreUse × List (List Nat))
  | 0, us => some (us, [])
  | n + 1, us =>
    match fitRanks r start (upTo r.ncores) us [] with
    | none => none
    | some (us, ks) => (fitBlocks r start n us).map (fun e => (e.1, ks :: e.2))

/-- An empty cluster can hold the blocks of a gang at once under R19 (R18). -/
def LaunchRec.gangFits (r : LaunchRec) : Bool :=
  r.gangSize ≤ 1024 &&
    (fitBlocks { r with tags := 0, nbars := 0, stream := 0 } 0 r.gangSize (List.replicate 8 CoreUse.empty)).isSome

/-! ### Checks (Table 18.13a) -/

/-- Ranges, alignments and reserved bytes of Table 18.12 that no rule names (reason 0x02, R341). -/
def LaunchRec.formOk (r : LaunchRec) (bs : List (BitVec 8)) (rings : Nat → Bool) : Bool :=
  field bs 0 4 = 0x4C4E4C31 && field bs 4 1 = 1 && zeros bs 5 3 && zeros bs 0x0F 1 && zeros bs 0x11 1 && zeros bs 0x14 4 &&
    zeros bs 0x14B 1 && zeros bs 0x14E 2 && r.code % 16 = 0 && r.args % 16 = 0 &&
    r.parea % 192 = 0 && r.tags ≤ 64 && r.nbars ≤ 32 && r.banks ≤ 16 && -2 ≤ r.sbias && r.sbias ≤ 3 && r.steer ≤ 2 && r.class_ ≤ 3 &&
    r.prio ≤ 15 && rings r.cring

/-- A bank of a cluster is a scratchpad bank of a context. -/
def Cluster.scratchOf (c : Cluster) (x b : Nat) : Bool := b < 16 && (c.bank b).mode = .scratchpad x
/-- The clusters of a partition, and the scratchpad banks of a context in one. -/
def State.partClusters (s : State) (p : Nat) : List Nat := (upTo s.clustersPer).map (fun i => p * s.clustersPer + i)
def State.banksOf (s : State) (x cl : Nat) : Nat := ((upTo 16).filter (fun b => (s.cluster cl).scratchOf x b)).length

/-- The first check that a record of a context fails, by its reason (Table 18.13a). -/
def State.recordReason (s : State) (x : Nat) (bs : List (BitVec 8)) : Option Nat :=
  let r := LaunchRec.ofBytes bs
  if !r.formOk bs (fun k => k < 64 && s.ringPart k = ctxPart x) then some 0x02
  else if !r.geometryOk then some 0x03
  else if r.gang = 1 ∨ 5 < r.gang then some 0x04
  else if r.regs < 8 ∨ 256 < r.regs ∨ r.ncores = 0 then some 0x05
  else if !r.gangFits then some 0x04
  else if !r.curveOk then some 0x06
  else if r.psize ≠ 0 ∧ 192 * r.psize < r.phaseBytes * r.blocks then some 0x07
  else if !r.slots.all slotOk then some 0x08
  else if r.trows ∉ [8, 16, 24, 32] then some 0x09
  else if r.vstore ≠ 0 ∧ r.vsb = 0 then some 0x0A
  else if (r.scratch ≠ 0 ∧ r.banks = 0) ∨ 262144 * r.banks < r.scratch ∨
      (r.banks ≠ 0 ∧ !(s.partClusters (ctxPart x)).any (fun c => r.banks ≤ s.banksOf x c)) then some 0x0D
  else none

/-! ### A new grid -/

/-- A grid that a record starts. -/
def Grid.fresh (x q n : Nat) (h : PktHdr) (src : GridSrc) (r : LaunchRec) (addr class_ limit : Nat) : Grid :=
  { ctx := x, queue := q, seq := n, hdr := h, src := src, lrec := r, recAddr := addr, class_ := class_, next := 0, limit := limit,
    firstIssue := none, status := 0, reason := 0, cause := 0, faddr := 0, engine := 0, hsy := 0, retried := false,
    noPlace := false }

/-- A grid enters the machine. -/
def State.addGrid (s : State) (g : Grid) : State := { s with grids := s.grids ++ [(s.tick, g)] }.next

/-- The traffic class of a launch (R342). -/
def gridClass (r : LaunchRec) (other : Nat) : Nat := max r.class_ other

/-- A context that packets and launches may act in: it exists and no destroy of it has started (R341, R352). -/
def State.ctxOpen (s : State) (x : Nat) : Bool := (s.ctx? x).any (fun c => !c.destroying)

end Sys2Proof.Machine
end

