-- ==== Sys2Proof/Machine/Phases.lean ====
section
/-! DEFINITION. Blocks on their way: placing, the start and the end of a phase, the grid barrier, the end of blocks and grids, time
limits, and launches from the device (R16, R18 to R27, R30, R42, R53, R135, R138, R144, R150, R165, R166, R170, R309, R310, R343,
R344, R347, R387, R388, R393). -/

namespace Sys2Proof.Machine

/-! ### Clusters: patterns and wake-ups (R387, R388, R393) -/

/-- The evenly spread pattern of `n` passed slots (R387). -/
def evenPattern (n : Nat) : BitVec 16 :=
  (upTo 16).foldl (fun m i => if i * n / 16 < (i + 1) * n / 16 then m ||| BitVec.ofNat 16 (2 ^ i) else m) 0

/-- The pattern cap of two rails (Table 21.1); `none` outside it. -/
def railCap (fast thrifty : Nat) : Option Nat :=
  if fast < 700 ∨ 900 < fast ∨ thrifty < 500 ∨ 650 < thrifty then none
  else if fast < 750 ∨ thrifty < 550 then some 12
  else if fast < 800 then some 14
  else some 16

/-- The cap in force: that of the rails, and of those that they move to, lowered by module cooling (R388, R408). -/
def State.cap (s : State) : Nat :=
  min (min s.thermalCap ((railCap (s.reg offRailf).toNat (s.reg offRailt).toNat).getD 16))
    ((s.railMove.bind (fun m => railCap m.fast m.thrifty)).getD 16)

/-- Put a cluster under another pattern from the next master pulse on; one whose pulses have been stopped stays stopped (R408). -/
def State.setPattern (s : State) (cl : Nat) (pat : BitVec 16) : State :=
  if (s.cluster cl).pattern = 0 then s
  else s.modCluster cl (fun c => { c with clkBase := c.clock s.pulses, pulseBase := s.pulses, pattern := pat })

/-- Blocks that stand on a cluster. -/
def State.onCluster (s : State) (cl : Nat) : List (Nat × Block) := s.blocks.filter (fun e => e.2.st = .resident && e.2.cluster = cl)

/-- The pattern of a graph node's cluster is given up when no block stands on it any more. -/
def State.settleCluster (s : State) (cl : Nat) : State :=
  if (s.cluster cl).graph && (s.onCluster cl).isEmpty then
    (s.setPattern cl (evenPattern (min (s.cluster cl).slots s.cap))).modCluster cl (fun c => { c with graph := false })
  else s

/-- A block can be seated at once: the cluster runs, and a block stands on it or its wake-up has started (R393). -/
def State.awake (s : State) (cl : Nat) : Bool :=
  (s.cluster cl).power = .running && ((s.cluster cl).woken || !(s.onCluster cl).isEmpty)

/-- Wake-ups left in the window of gtime (R393). -/
def State.wakeLeft (s : State) : Nat :=
  let win := s.gtimeAt 0 / max 1 (s.reg offSlewwin).toNat
  (s.reg offSlewk).toNat - (if s.wakes.1 = win then s.wakes.2 else 0)

/-- The wake-up order of a waiting cluster: class 0 first, then the lowest curve index, then the number. -/
def wakeKey (e : Nat × Nat × Nat) : Nat := (if e.2.1 = 0 then 0 else 2 ^ 66) + e.2.2 * 64 + e.1

/-- A cluster is to be woken for a block of a class and curve index. -/
def State.askWake (s : State) (cl class_ curve : Nat) : State :=
  let key (e : Nat × Nat) : Nat := wakeKey (cl, e.1, e.2)
  s.modCluster cl (fun c => { c with wakeReq := some (match c.wakeReq with
    | some e => if key e ≤ key (class_, curve) then e else (class_, curve)
    | none => (class_, curve)) })

/-! ### Where blocks fit (R19, R66, R67, R72, R138, R144) -/

/-- The blocks on a core of a cluster, as what they hold; a warp that has left has freed its place (R229). -/
def State.coreUse (s : State) (k : Nat) : CoreUse :=
  let ws := s.warps.filter (fun e => e.2.core = k && !s.hasLeft e.1 e.2)
  let bs := s.blocks.filter (fun e => e.2.st = .resident && k ∈ e.2.cores)
  let lr (b : Nat) : LaunchRec := (s.recOfBlock b).getD (LaunchRec.ofBytes [])
  { warps := (upTo 8).map (fun j => (ws.filter (fun e => e.2.part = j)).length)
    regs := (upTo 8).map (fun j => ((ws.filter (fun e => e.2.part = j)).map (fun e => (lr e.2.block).regs)).sum)
    tags := (bs.map (fun e => (lr e.1).tags)).sum
    nbars := (bs.map (fun e => (lr e.1).nbars)).sum
    rows := (s.tenants.filter (fun e => e.2.core = k)).map (fun e => (e.1 % 2, e.2.rows)) }

/-- A free range of `size` aperture offsets in scratchpad banks (R67). -/
def freeWindow (bank : Nat → Bool) (used : List (Nat × Nat)) (size : Nat) : Option Nat :=
  if size = 0 then some 0
  else
    (((upTo 16).map (· * 262144)) ++ used.map (fun (u : Nat × Nat) => u.1 + u.2)).find? (fun o =>
      (upTo ((o + size - 1) / 262144 - o / 262144 + 1)).all (fun i => bank (o / 262144 + i)) &&
        used.all (fun u => o + size ≤ u.1 || u.1 + u.2 ≤ o))

/-- Windows for `n` blocks. -/
def freeWindows (bank : Nat → Bool) (size : Nat) : Nat → List (Nat × Nat) → Option (List Nat)
  | 0, _ => some []
  | n + 1, used => (freeWindow bank used size).bind (fun o => (freeWindows bank size n ((o, size) :: used)).map (o :: ·))

/-- Scratch windows of a context on a cluster. -/
def State.windowsOn (s : State) (x cl : Nat) : List (Nat × Nat) :=
  ((s.onCluster cl).filter (fun e => s.ctxIdOf e.1 = x)).filterMap (fun e =>
    let w := s.scratchOf e.1
    if w.2 = 0 then none else some w)

/-- The passed slots under which a node of a graph runs: the full pattern where it has no slack (R343). A node of cost 0 with slack
runs at one passed slot, where the formula gives none (DESIGN CHOICE, log entry 123). -/
def State.nodeSlots (s : State) (g : Grid) : Option Nat :=
  match g.src with
  | .node gr n =>
    (mapGet? s.graphs gr).map (fun gr =>
      let c := gr.cost.getD n 0
      let d := gr.slack.getD n 0
      if d = 0 then s.cap else max 1 (min s.cap ((16 * c + (c + d) - 1) / max 1 (c + d))))
  | _ => none

/-- A cluster's pattern suits a grid: an empty one does, since a node sets its pattern there; a node also runs beside others under
its own pattern, or where `full` says so under the full one; other work runs on clusters that no node has set (R343). -/
def State.suits (s : State) (g : Grid) (full : Bool) (cl : Nat) : Bool :=
  let c := s.cluster cl
  (s.onCluster cl).isEmpty ||
    (match s.nodeSlots g with
    | some k => c.pattern = evenPattern k || (full && c.pattern = evenPattern s.cap)
    | none => !c.graph)

/-- Where `n` blocks of a grid fit together on a cluster: the cores of each, and its window. -/
def State.fitOn (s : State) (g : Grid) (n cl start : Nat) : Option (List (List Nat) × List Nat) :=
  let r := g.lrec
  if s.banksOf g.ctx cl < r.banks then none
  else
    match fitBlocks r start n ((upTo 8).map (fun i => s.coreUse (8 * cl + i))),
        freeWindows ((s.cluster cl).scratchOf g.ctx) (windowSize r.scratch) n (s.windowsOn g.ctx cl) with
    | some (_, ks), some ws => some (ks.map (fun l => l.map (8 * cl + ·)), ws)
    | _, _ => none

/-- The clusters of its partition on which `n` blocks of a grid fit, and whose pattern suits it. -/
def State.fits (s : State) (g : Grid) (n : Nat) (full : Bool) : List Nat :=
  (s.partClusters (ctxPart g.ctx)).filter (fun cl => s.suits g full cl && (s.fitOn g n cl (Config.choice s.tick % 8)).isSome)

/-- The cluster that command firmware takes: any that fits, one that is awake before others (log entry 5); a node of a graph goes
under the full pattern only where no other cluster is free for it (R343). -/
def State.pickCluster (s : State) (g : Grid) (n : Nat) : Option Nat :=
  let fits := if s.fits g n false = [] then s.fits g n true else s.fits g n false
  let aw := fits.filter s.awake
  let cs := if aw = [] then fits else aw
  cs[Config.choice (s.tick + 1) % max 1 cs.length]?

/-! ### Seating a block -/

/-- What a block brings to its cores: warps, whose places are still to be set, tenants by rank, tags, barriers and window bytes. -/
structure BlockData where
  warps : List Warp
  tenants : List Tenant
  tags : NatMap Tag
  nbars : NatMap NBar
  scratch : NatMap (BitVec 8)
  deriving DecidableEq, Repr

/-- A lane at launch (R4, R8, R16): its registers read zero (log entry 50). -/
def Lane.start (live : Bool) (pc : PC) : Lane :=
  { st := if live then .runnable else .exited, hold := .none, pc := pc, regs := [], preds := 0, pass := 0, readyAt := 0,
    yieldUntil := none, inHandler := false, resume := 0, tcause := 0, tpc := 0, taddr := 0, tinfo := 0, txstat := 0, tx := none }

/-- A warp of a block before it has a place. -/
def Warp.start (index rank : Nat) (lanes : List Lane) (sbias : Int) : Warp :=
  { block := 0, index := index, core := 0, part := index % 8, rank := rank, age := 0, lanes := lanes, sregs := [], masks := [],
    sbias := sbias, tenable := 0, ctrLd := 0, ctrSt := 0, ctrCp := 0, ctrTl := 0, hcl := 0, hdv := 0, hsy := 0, replays := [], pend := [],
    stalls := [], eligibleSince := none, schYield := none, schBatch := none, acquire := [], agu := AguOp.start }

/-- A tenant before it has a place (R134, R135, R24). -/
def Tenant.start (r : LaunchRec) (rank : Nat) (pc : PC) (qp : BitVec 4) (live : Bool) : Tenant :=
  { block := 0, rank := rank, core := 0, rows := r.trows, pc := pc, q := [], qp := qp, st := if live then .running else .exited,
    pend := [], argsLeft := live && r.args ≠ 0, queue := [], running := [], tiles := [], acc := [], tslot := [], trows := [],
    tcols := [], decomp := [], fault := none }

/-- The rank of a warp. -/
def LaunchRec.rankOf (r : LaunchRec) (w : Nat) : Nat := w / max 1 ((r.extent 1 + r.ncores - 1) / max 1 r.ncores)

/-- The barriers at the start of a phase of so many live threads (R144). -/
def startNbars (r : LaunchRec) (live : Nat) : NatMap NBar :=
  (upTo r.ncores).flatMap (fun k => (upTo r.nbars).map (fun n => (nbarKey k n, NBar.start live)))

/-- A block at its first phase. -/
def BlockData.first (r : LaunchRec) : BlockData :=
  { warps := (upTo (r.extent 1)).map (fun w =>
      Warp.start w (r.rankOf w) ((upTo 32).map (fun l => Lane.start (l < r.extent 0) (BitVec.ofNat 57 r.code))) r.sbias)
    tenants := if r.stream = 0 then [] else (upTo r.ncores).map (fun k => Tenant.start r k (BitVec.ofNat 57 r.stream) 0 true)
    tags := [], nbars := startNbars r (r.extent 0 * r.extent 1), scratch := [] }

/-- A thread at the start of a later phase. -/
def ThreadRec.lane (t : ThreadRec) : Lane := { Lane.start t.live t.pc with preds := t.preds, regs := t.regs }

/-- A block at the start of a later phase (R24, R26). -/
def BlockData.next (r : LaunchRec) (p : PhaseRec) : BlockData :=
  { warps := ((upTo p.warps.length).zip p.warps).map (fun e =>
      { Warp.start e.1 (r.rankOf e.1) (e.2.threads.map ThreadRec.lane) e.2.sbias with
        sregs := e.2.sregs, masks := e.2.masks, tenable := e.2.tenable })
    tenants := ((upTo p.seqs.length).zip p.seqs).map (fun e => match e.2 with
      | some (pc, qp) => Tenant.start r e.1 pc qp true
      | none => Tenant.start r e.1 0 0 false)
    tags := [], nbars := startNbars r ((p.warps.map (fun w => (w.threads.filter (·.live)).length)).sum), scratch := p.scratch }

/-- The bytes of a scratch window: `f` gives the byte at each offset. -/
def State.fillWindow (s : State) (cl off size : Nat) (f : Nat → BitVec 8) : State :=
  (upTo size).foldl (fun s i => s.modBank cl ((off + i) / 262144) (fun b => b.put ((off + i) % 262144) [f i])) s
/-- A byte of a scratch window. -/
def State.windowByte (s : State) (cl off i : Nat) : BitVec 8 :=
  BitVec.ofNat 8 (((s.cluster cl).bank ((off + i) / 262144)).get ((off + i) % 262144) 1)

/-- Seat the warps of a block: their numbers. -/
def seatWarps (b : Nat) (cores : List Nat) : State → List Warp → State × List Nat
  | s, [] => (s, [])
  | s, wp :: rest =>
    let wp := { wp with block := b, core := cores.getD wp.rank 0, age := s.tick }
    let (s', ns) := seatWarps b cores ({ s with warps := s.warps ++ [(s.tick, wp)] }.next) rest
    (s', s.tick :: ns)

/-- Seat the tenants of a block: their numbers, of which bit 0 is the tenant's index on its core, 0 where both are free (DESIGN CHOICE,
log entry 73). -/
def seatTenants (b : Nat) (cores : List Nat) : State → List Tenant → State × List Nat
  | s, [] => (s, [])
  | s, te :: rest =>
    let k := cores.getD te.rank 0
    let slot := if s.tenants.any (fun e => e.2.core = k && e.1 % 2 = 0) then 1 else 0
    let (s', ns) := seatTenants b cores ({ s with tenants := s.tenants ++ [(2 * s.tick + slot, { te with block := b, core := k })] }.next) rest
    (s', (2 * s.tick + slot) :: ns)

/-- Lanes of warps that wait at a place. -/
def State.lanesAt (s : State) (ws : List Nat) (f : LaneSt → Bool) : List (Nat × Nat) :=
  ws.flatMap (fun w => ((upTo 32).filter (fun l => (s.lane? w l).any (fun la => f la.st))).map (fun l => (w, l)))

/-- Seat a block on cores with a scratch window: it is resident (R19, R66). -/
def State.seat (s : State) (b cl : Nat) (cores : List Nat) (win : Nat) (d : BlockData) : State :=
  let (s, ws) := seatWarps b cores s d.warps
  let (s, ts) := seatTenants b cores s d.tenants
  let bars := s.lanesAt ws (· = .bar)
  let gbars := s.lanesAt ws (· = .boundary)
  let pcOf (e : Nat × Nat) : PC := ((s.lane? e.1 e.2).map (·.pc)).getD 0
  let size := windowSize (((s.recOfBlock b).map (·.scratch)).getD 0)
  (s.modBlock b (fun bl =>
    { bl with
      st := .resident, turn := none, cluster := cl, cores := cores, warps := ws, tenants := ts, scratchOff := win, tags := d.tags, nbars := d.nbars
      barArrived := bars, rec_ := none
      arrivals := gbars.map (fun e => { warp := e.1, lane := e.2, kind := .gbar, pc := pcOf e, label := pcOf e + 16 }) })).fillWindow
    cl win size (fun i => mapGetD d.scratch i 0)

/-- Seat blocks together, on clusters as `pickCluster` takes them; a cluster that has to be woken is asked to wake instead. The
answer says whether they are seated. -/
def State.seatAll (s : State) (g : Grid) (bs : List (Nat × BlockData)) (curve : Nat) : State × Bool :=
  match s.pickCluster g bs.length with
  | none => (s, false)
  | some cl =>
    if !s.awake cl then (s.askWake cl g.class_ curve, false)
    else
      match s.fitOn g bs.length cl (Config.choice s.tick % 8) with
      | none => (s, false)
      | some (ks, ws) =>
        let s := match s.nodeSlots g with
          | some k => (if (s.onCluster cl).isEmpty then s.setPattern cl (evenPattern k) else s).modCluster cl (fun c => { c with graph := true })
          | none => s
        let s := s.modCluster cl (fun c => { c with woken := false, idleSince := none })
        (((bs.zip ks).zip ws).foldl (fun s e => s.seat e.1.1.1 cl e.1.2 e.2 e.1.1.2) s.next.next, true)

/-! ### The first phase (R21, R344) -/

/-- A block of a grid before it is seated. -/
def Block.start (g curve wid : Nat) : Block :=
  { grid := g, curve := curve, wid := BitVec.ofNat 64 wid, st := .queued, cluster := 0, cores := [], warps := [], tenants := [],
    scratchOff := 0, tags := [], nbars := [], view := 0, depth := 0, world := 0, parent := none, rec_ := none, arrivals := [],
    barArrived := [], broken := none, rivals := [], judging := false, children := [], yielded := none, selfMark := false, killed := none,
    exhausted := false, saving := false, turn := none, unread := [], saveAt := none, kept := none, unheard := [] }

/-- Time limits count from the first block that is issued (R344). -/
def State.noteFirst (s : State) (g : Nat) : State :=
  let t := s.gtimeAt 0
  let s := s.modGrid g (fun g => { g with firstIssue := some (g.firstIssue.getD t) })
  match s.grid? g with
  | some { src := .node gr _, .. } => { s with graphs := mapModify s.graphs gr (fun x => { x with firstStart := some (x.firstStart.getD t) }) }
  | _ => s

/-- Every curve index of a grid has been offered. -/
def Grid.offered (g : Grid) : Bool := 2 ^ g.lrec.curveBits ≤ g.next

/-- The blocks of a grid that start a phase with a block: its gang, or itself. -/
def State.phaseMates (s : State) (b : Nat) (bl : Block) (r : LaunchRec) : List (Nat × Block) :=
  if r.gang = 0 ∨ bl.parent.isSome then [(b, bl)]
  else
    let wids := r.gangOf bl.wid.toNat
    s.blocks.filter (fun e => e.2.grid = bl.grid && e.2.killed.isNone && e.2.st ≠ .ended && e.2.wid.toNat ∈ wids)

/-! ### The order of service (R350) -/

/-- The place of a grid in the order in which firmware serves them: by class, then by PRIO, 15 first. -/
def Grid.order (g : Grid) : Nat := g.class_ % 4 * 16 + (15 - g.lrec.prio % 16)

/-- Work of a partition that waits for cores, of grids that a test picks: grids with a block to offer and blocks whose next phase may
start, each with the number of blocks that stand together. -/
def State.waiting (s : State) (p : Nat) (f : Grid → Bool) : List (Grid × Nat) :=
  (s.grids.filter (fun e => f e.2 && !e.2.noPlace && !e.2.offered && ctxPart e.2.ctx = p)).map (fun e => (e.2, e.2.lrec.gangSize)) ++
    s.blocks.filterMap (fun e => (s.grid? e.2.grid).bind (fun g =>
      let mates := s.phaseMates e.1 e.2 g.lrec
      if e.2.st = .queued ∧ e.2.killed = none ∧ f g ∧ g.noPlace = false ∧ ctxPart g.ctx = p ∧ mates.all (fun m => m.2.st = .queued) then
        some (g, mates.length) else none))

/-- Class 0 work of a partition that waits for cores. -/
def State.class0Waits (s : State) (p : Nat) : List (Grid × Nat) := s.waiting p (fun g => g.class_ = 0)

/-- Work that comes before a grid in the order of service waits, and could be seated now: it is placed first (R350). -/
def State.outranked (s : State) (g : Grid) : Bool :=
  (s.waiting (ctxPart g.ctx) (fun h => h.order < g.order)).any (fun e => (s.pickCluster e.1 e.2).any s.awake)

/-- `BLOCK_PLACE`: the work distributor offers the next block of a grid, with its whole gang (R16, R18, R21). -/
def execBlockPlace (n : Nat) (s : State) : Out :=
  .next (match s.grid? n with
  | none => s
  | some g =>
    if g.noPlace ∨ g.offered ∨ s.outranked g then s
    else
      match g.lrec.nextOffer 4096 g.next with
      | none => s.modGrid n (fun g => { g with next := g.next + 4096 })
      | some x =>
        let wids := g.lrec.gangOf (g.lrec.widAt x)
        let curves := wids.map g.lrec.curveIndex
        if curves.any (· < x) then s.modGrid n (fun g => { g with next := x + 1 })
        else
          let ids := (upTo wids.length).map (fun i => s.tick + i)
          let s' : State := { s with
            blocks := s.blocks ++ (ids.zip wids).map (fun e => (e.1, Block.start n (g.lrec.curveIndex e.2) e.2)), tick := s.tick + wids.length }
          match s'.seatAll g (ids.map (fun i => (i, BlockData.first g.lrec))) x with
          | (s', true) => (s'.modGrid n (fun g => { g with next := x + 1 })).noteFirst n
          | (s', false) => { s' with blocks := s'.blocks.filter (fun e => e.1 ∉ ids) })

/-! ### The end of a phase (R23 to R27, R165, R166) -/

/-- Registers of a map that a carry set names. -/
def carried (m : NatMap Word) (f : Nat → Bool) : NatMap Word := m.filter (fun e => f e.1)

/-- The record of a warp at the end of a phase. -/
def Warp.phaseRec (wp : Warp) (w : Nat) (r : LaunchRec) (as : List Arrival) : WarpRec :=
  { threads := (upTo 32).map (fun l =>
      match wp.lane? l, as.find? (fun a => a.warp = w && a.lane = l) with
      | some la, some a =>
        { pc := a.pc + 16, label := a.label, live := true, preds := la.preds, regs := carried la.regs (fun i => r.carryv.getLsbD i) }
      | _, _ => { pc := 0, label := 0, live := false, preds := 0, regs := [] })
    masks := wp.masks, sbias := wp.sbias, tenable := wp.tenable, sregs := carried wp.sregs (fun i => r.carrys.getLsbD i) }

/-- The phase record of a block (R24). -/
def State.phaseRec (s : State) (bl : Block) (r : LaunchRec) : PhaseRec :=
  { warps := bl.warps.filterMap (fun w => (s.warp? w).map (fun wp => wp.phaseRec w r bl.arrivals))
    scratch := (upTo (min r.cscratch (windowSize r.scratch))).foldl (fun m i => mapPut 0 m i (s.windowByte bl.cluster bl.scratchOff i)) []
    seqs := bl.tenants.filterMap (fun t => (s.tenant? t).map (fun te =>
      if te.st = .exited then none else some (te.pc + 16, te.qp))) }

/-- The rules of `forkw` that hold no rival back (R165, R166): ILLOP for a bad n, the lowest cause of Table 7.2, or nothing. -/
def State.forkDenied (s : State) (bl : Block) (r : LaunchRec) (n : Nat) : Option Nat :=
  let x := ((s.grid? bl.grid).map (·.ctx)).getD 0
  let live (f : View → Bool) : Nat := (s.views.filter (fun e => e.2.returnAt.isNone && f e.2)).length
  if 255 < s.views.length + n then some 1
  else if ((s.ctx? x).map (·.body.vquota)).getD 0 < live (fun v => v.ctx = x) + n then some 2
  else if bl.depth = 4 then some 3
  else if r.vsq < live (fun v => v.grid = bl.grid) + n then some 4
  else none

/-- A `forkw` that may not start: its lanes trap with VIEWX and would go on after it; sequencers at their `pbar` go on (R166, R327). -/
def State.forkTrap (s : State) (bl : Block) (code : Nat) : State :=
  let s := bl.arrivals.foldl (fun s a =>
    s.trapLane a.warp a.lane { cause := 6, pc := a.pc, addr := some 0, info := BitVec.ofNat 64 code, resume := a.pc + 16 }) s
  bl.tenants.foldl (fun s t => s.modTenant t (fun te => if te.st = .pbar then { te with st := .running, pc := te.pc + 16 } else te)) s

/-- The sequencers of a block have reached their `pbar`, or exited (R23, step 4). -/
def State.seqsArrived (s : State) (bl : Block) : Bool :=
  bl.tenants.all (fun t => (s.tenant? t).all (fun te => te.st = .pbar || te.st = .exited))

/-- Steps 1 to 4 of R23 are over. -/
def State.phaseReady (s : State) (b : Nat) (bl : Block) : State × Bool :=
  if !s.blockQuiet b bl || !s.seqsArrived bl then (s, false) else s.blockReleased bl

/-- The rival-record slots of a grid that no live view of it holds, lowest first (R165, R176). -/
def State.freeSlots (s : State) (grid : Nat) : List Nat :=
  (upTo (((s.grid? grid).map (·.lrec.vsq)).getD 0)).filter (fun i =>
    !s.views.any (fun e => e.2.grid = grid && e.2.returnAt.isNone && e.2.slot = i))

/-- Where the phase record of a block stands: in the phase-record area, by its curve index, or in the slot of a rival (R25, R176). -/
def State.recordAt (s : State) (bl : Block) (r : LaunchRec) : Nat :=
  if bl.parent.isNone then r.parea + r.phaseBytes * bl.curve
  else r.vstore + r.phaseBytes * ((s.view? bl.view).map (·.slot)).getD 0

/-- Start the rivals of a fork: their views, lowest free IDs and slots first, each with its record in its slot,
and their blocks (R165, R176, R328). -/
def State.forkRivals (s : State) (b : Nat) (bl : Block) (r : LaunchRec) (p : PhaseRec) (n : Nat) : State :=
  let ids := (((upTo 256).drop 1).filter (fun v => (s.view? v).isNone)).take n
  let x := ((s.grid? bl.grid).map (·.ctx)).getD 0
  let kids := (upTo n).map (fun i => s.tick + i)
  let slots := s.freeSlots bl.grid
  let view (i : Nat) : View :=
    { parent := bl.view, ctx := x, grid := bl.grid, slot := slots.getD i 0, outbox := [], outNo := 0, latest := 0, returnAt := none,
      commit := none, pendingInstalls := [], performing := none }
  let s : State := { s with
    views := (ids.zip (upTo n)).foldl (fun m e => mapSet m e.1 (view e.2)) s.views
    blocks := s.blocks ++ ((upTo n).zip (kids.zip ids)).map (fun e => (e.2.1,
      { Block.start bl.grid bl.curve 0 with
        wid := bl.wid, view := e.2.2, depth := bl.depth + 1, world := e.1, parent := some b, rec_ := some p }))
    tick := s.tick + n }
  let s := (slots.take n).foldl (fun s i => s.putRecord x (r.vstore + r.phaseBytes * i) r.phaseBytes) s
  s.modBlock b (fun bl => { bl with
    st := .forked, children := kids
    rivals := ids.map (fun v => { status := 7, score := 0, view := v, chosen := false, time := 0, isOver := false }) })

/-- The block leaves its cores with its phase record written (R24, R26, R311). -/
def State.endPhase (s : State) (b : Nat) (bl : Block) (r : LaunchRec) (kind : Boundary) : State :=
  let p := s.phaseRec bl r
  let s := s.putRecord (s.ctxIdOf b) (s.recordAt bl r) r.phaseBytes
  let s := ((s.leaveCores b bl).settleCluster bl.cluster).modBlock b (fun bl => { bl with rec_ := some p })
  match kind with
  | .pbar => s.modBlock b (fun bl => { bl with st := .queued })
  | .gbar => s.modBlock b (fun bl => { bl with st := .gbar })
  | .forkw n => s.forkRivals b bl r p n

/-- `PHASE_RECORD_WRITE`: every live thread of a block has arrived at a boundary of one kind: after the checks of a `forkw` and steps
1 to 4 of R23, the phase record is written, and the next phase is queued (R23, R24, R26, R27, R165, R166). -/
def execPhaseRecordWrite (b : Nat) (s : State) : Out :=
  .next (match s.block? b, s.recOfBlock b with
  | some bl, some r =>
    if bl.st ≠ .resident ∨ bl.arrivals = [] ∨ bl.arrivals.length ≠ s.liveThreads bl ∨ !sameKind bl.arrivals then s
    else
      match (bl.arrivals.head?).map (·.kind) with
      | none => s
      | some kind =>
        let bad := match kind with | .forkw n => n < 2 || 8 < n | _ => false
        let code := match kind with | .forkw n => s.forkDenied bl r n | _ => none
        if bad then bl.arrivals.foldl (fun s a => s.trapLane a.warp a.lane (.illop a.pc 0x0B)) s
        else
          match code with
          | some c => s.forkTrap bl c
          | none =>
            match s.phaseReady b bl with
            | (s, false) => s
            | (s, true) => s.endPhase b bl r kind
  | _, _ => s)

/-! ### The start of a later phase (R26, R135, R170) -/

/-- Load q0 to q31 of a sequencer from ARGS, in its block's view (R135). -/
def State.loadArgs (s : State) (t : Nat) (te : Tenant) (r : LaunchRec) : State :=
  let p := whoEngine (s.ctxIdOf te.block) (s.asidOf te.block) (s.viewOf te.block) (clusterOf te.core)
  let res := (upTo 8).foldl (fun (x : State × EngR (List (BitVec 8)) × Nat) i =>
    match x.2.1 with
    | .ok bs =>
      let a := r.args + 16 * i
      (match x.1.engRead p (some te.block) (a % 2 ^ 57) 16 with
      | (s, .ok v) => (s, .ok (bs ++ natBytes 16 v), a)
      | (s, .retry) => (s, .retry, a)
      | (s, .full) => (s, .full, a)
      | (s, .fault e) => (s, .fault e, a)
      | (s, .error e) => (s, .error e, a))
    | _ => x) (s, .ok [], r.args)
  let a := res.2.2 % 2 ^ 57
  if !canonical (BitVec.ofNat 64 r.args) then
    (s.modTenant t (fun te => { te with argsLeft := false })).tenantFault t 0x03 0x06 te.pc (BitVec.ofNat 64 r.args)
  else
    match res with
    | (s, .ok bs, _) => s.modTenant t (fun te => { te with
        argsLeft := false, q := (upTo 32).foldl (fun m n => mapPut 0 m n (BitVec.ofNat 32 (field bs (4 * n) 4))) [] })
    | (s, .fault e, _) =>
      let (qu, sq) := s.cmdOf (some te.block)
      (s.raiseFault { ctx := p.ctx, page := pageOf a, fetch := false, reason := e, faddr := a, engine := 0x3000 + 2 * te.core + t % 2,
                      queue := qu, seq := sq, routed := false }).modTenant t (fun te => { te with st := .faultPark (pageOf a) })
    | (s, .error e, _) =>
      ((s.logError p.ctx a e (0x3000 + 2 * te.core + t % 2)).modTenant t (fun te => { te with argsLeft := false })).tenantFault t 0x03 e te.pc
        (signAddr a)
    | (s, _, _) => s

/-- A block of the grid with a lower curve index came through the same grid barrier and has still to start: it was queued first
(R27). -/
def State.afterTurn (s : State) (bl : Block) : Bool :=
  bl.turn.isSome && s.blocks.any (fun e => e.2.grid = bl.grid && e.2.turn = bl.turn && e.2.st = .queued && e.2.killed.isNone && e.2.curve < bl.curve)

/-- `PHASE_START`: a queued phase is placed, with those of its gang once each of them is queued, and reloads its record; a
sequencer's q registers are read before its first word (R26, R135, R170). -/
def execPhaseStart (b : Nat) (s : State) : Out :=
  .next (match s.block? b, s.gridOfBlock b with
  | some bl, some g =>
    match bl.st with
    | .resident =>
      bl.tenants.foldl (fun s t => match s.tenant? t with
        | some te => if te.argsLeft && te.st = .running then s.loadArgs t te g.lrec else s
        | none => s) s
    | .queued =>
      let mates := s.phaseMates b bl g.lrec
      if g.noPlace ∨ bl.killed.isSome ∨ mates.any (fun e => e.2.st ≠ .queued) ∨ mates.all (fun e => s.afterTurn e.2) ∨ s.outranked g then s
      else
        let data (e : Nat × Block) : Nat × BlockData :=
          (e.1, match e.2.rec_ with | some p => BlockData.next g.lrec p | none => BlockData.first g.lrec)
        (match s.seatAll g (mates.map data) bl.curve with
        | (s, true) =>
          let t := listMax (bl.rivals.map (fun r => if r.status = 1 then r.time else 0))
          (((s.block? b).map (·.warps)).getD []).foldl (fun s w => s.modWarp w (fun wp => { wp with hdv := max wp.hdv t })) s
        | (s, false) => s)
    | _ => s
  | _, _ => s)

/-- `GBAR_OPEN`: every block of a grid has arrived at `gbar` or exited: the next phases are queued, and start in ascending curve index
(R27). -/
def execGbarOpen (n : Nat) (s : State) : Out :=
  .next (match s.grid? n with
  | none => s
  | some g =>
    let bs := s.blocks.filter (fun e => e.2.grid = n && e.2.parent.isNone && e.2.killed.isNone)
    if g.offered ∧ bs ≠ [] ∧ bs.all (fun e => e.2.st = .gbar) then
      bs.foldl (fun s e => s.modBlock e.1 (fun bl => { bl with st := .queued, turn := some s.tick })) s.next
    else s)

/-! ### The end of blocks and grids -/

/-- `BLOCK_END`: a block whose threads have exited and whose work is done gives up its cores (R104, R150, R375). -/
def execBlockEnd (b : Nat) (s : State) : Out :=
  .next (match s.block? b with
  | none => s
  | some bl =>
    if bl.parent.isSome ∨ (bl.st ≠ .resident ∧ bl.killed.isNone) ∨ !s.blockOver bl ∨ bl.children ≠ [] then s
    else
      let s := s.judgeLast b bl
      if !s.blockQuiet b bl then s
      else
        match s.blockReleased bl with
        | (s, false) => s
        | (s, true) =>
          (((s.leaveCores b bl).tellUnheard bl).dropBlock b).settleCluster bl.cluster)

/-- Nothing of a grid is left: every block has been offered, or may be offered no more, and has ended; its outboxes are performed and
its launches read (R329). -/
def State.gridOver (s : State) (n : Nat) (g : Grid) : Bool :=
  (g.offered || g.noPlace && 4 ≤ g.status) && !s.blocks.any (fun e => e.2.grid = n) &&
    s.views.all (fun e => e.2.grid ≠ n || e.2.returnAt.isSome) && !s.devLaunches.any (fun e => e.2.grid = n) &&
    g.hsy ≤ s.gtimeAt 0

/-- The final record of a grid (R345, R375, R376). -/
def Grid.finalRecord (g : Grid) : Record :=
  { Record.blank g.queue g.seq (if g.engine = 0 then commandEngine g.queue else g.engine) g.hdr.user with
    status := g.status, reason := g.reason, cause := g.cause, faddr := g.faddr }

/-- A node of a graph has ended (R343). -/
def Graph.nodeOver (gr : Graph) (g : Grid) (node : Nat) : Graph :=
  let gr := { gr with st := gr.st.set node (if g.status = 0 then 2 else 3) }
  if g.status ≠ 0 ∧ gr.status = 0 then
    { gr with status := g.status, reason := g.reason, cause := g.cause, faddr := g.faddr, engine := g.engine, failing := node }
  else gr

/-- A grid lost to retention starts once more where its command carries IDEM (R392). -/
def Grid.again (g : Grid) : Grid :=
  { g with next := 0, firstIssue := none, status := 0, reason := 0, cause := 0, faddr := 0, engine := 0, retried := true, noPlace := false }

/-- `GRID_COMPLETE`: a grid whose blocks have all ended writes its final record after a release at `.sy`, or tells its graph
(R343, R346, R347). -/
def execGridComplete (n : Nat) (s : State) : Out :=
  .next (match s.grid? n with
  | none => s
  | some g =>
    if !s.gridOver n g then s
    else if g.status = 4 ∧ g.hdr.idem ∧ !g.retried then s.modGrid n Grid.again
    else
      match g.src with
      | .node gr node =>
        { s with grids := mapErase s.grids n, graphs := mapModify s.graphs gr (fun x => x.nodeOver g node) }
      | .packet =>
        if s.canFinish g.hdr g.status then { s.finish g.queue g.seq g.hdr g.finalRecord with grids := mapErase s.grids n } else s
      | .device _ =>
        if s.canFinish g.hdr g.status then { s.post g.hdr.ring g.finalRecord with grids := mapErase s.grids n } else s)

/-- No further block of a grid is placed, and each of its blocks is killed; its record carries a status (R344, R392). -/
def State.stopGrid (s : State) (n status : Nat) : State :=
  let s := s.modGrid n (fun g => { g with status := status, noPlace := true })
  (s.blocks.filter (fun e => e.2.grid = n && e.2.parent.isNone)).foldl (fun s e => s.killFamily e.1 16) s

/-- A time limit in µs has run out since a tick. -/
def expired (limit : Nat) (since : Option Nat) (now : Nat) : Bool := limit ≠ 0 && since.any (fun t => t + 1000 * limit ≤ now)

/-- A graph whose time limit has run out is stopped: its running nodes are killed, no further node starts, and RESULT is to hold the
lowest node that has not completed (R344). -/
def State.limitGraph (s : State) (k : Nat) : State :=
  match mapGet? s.graphs k with
  | none => s
  | some gr =>
    if expired gr.limit gr.firstStart (s.gtimeAt 0) ∧ gr.status ≠ 6 then
      let low := ((upTo gr.st.length).find? (fun i => gr.st.getD i 0 ≠ 2)).getD 0
      let s := { s with graphs := mapModify s.graphs k (fun gr => { gr with status := 6, failing := low }) }
      (s.grids.filter (fun e => match e.2.src with | .node k' _ => k' = k | _ => false)).foldl (fun s e => s.stopGrid e.1 6) s
    else s

/-- `GRID_TIME_LIMIT`: the limit of a grid has run out, or that of the graph of a node: TIMEOUT (R344). -/
def execGridTimeLimit (n : Nat) (s : State) : Out :=
  .next (match s.grid? n with
  | none => s
  | some g =>
    match g.src with
    | .node k _ => s.limitGraph k
    | _ => if expired g.limit g.firstIssue (s.gtimeAt 0) ∧ g.status ≠ 6 then s.stopGrid n 6 else s)

/-! ### Launches from the device (R309, R310, R342, R344) -/

/-- The launch is read, or refused: it leaves the queue of its context. With the last launch of its instruction st of its warp goes
down (R232); the operation of an outbox that it was is over (R329). -/
def State.dropLaunch (s : State) (n : Nat) (d : DevLaunch) : State :=
  let s : State := { s with devLaunches := mapErase s.devLaunches n }
  match d.warp, d.view with
  | some w, _ =>
    if s.devLaunches.any (fun e => e.2.warp = some w && e.2.group = d.group) then s
    else s.modWarp w (fun wp => { wp with ctrSt := wp.ctrSt - 1 })
  | none, some v => s.outDone v ((s.view? v).bind (·.performing)).join true
  | none, none => s

/-- The read of a launch waits for a `RESUME` of a page. -/
def State.modLaunch (s : State) (n page : Nat) : State :=
  { s with devLaunches := mapModify s.devLaunches n (fun d => { d with paused := some page }) }

/-- A refused launch is reported to a ring (R310, Table 18.14). -/
def State.refuseLaunch (s : State) (g : Grid) (ring reason faddr : Nat) : State :=
  s.post ring { Record.blank g.queue g.seq (commandEngine g.queue) g.hdr.user with status := 7, reason := reason, kind := 3, faddr := faddr }

/-- `DEVICE_LAUNCH_READ`: command firmware reads the launch record of a `launch` whose release is over, checks it and starts the
child, or reports why not (R30, R309, R310). -/
def execDeviceLaunchRead (n : Nat) (s : State) : Out :=
  .next (match mapGet? s.devLaunches n with
  | none => s
  | some d =>
    match s.grid? d.grid with
    | none => s.dropLaunch n d
    | some g =>
      if d.paused.isSome ∨ d.waiting.any (fun f => (mapGet? s.fences f).isSome) then s
      else
        let full := signAddr d.addr
        match State.engReadList (s.whoFirmware d.ctx) s d.addr 24 with
        | (s, .ok bs, _) =>
          let r := LaunchRec.ofBytes bs
          (match (if s.ctxOpen d.ctx then s.recordReason d.ctx bs else some 0x0B) with
          | some reason => (s.dropLaunch n d).refuseLaunch g r.cring reason 0
          | none =>
            let h : PktHdr := { idem := false, nocpl := false, fence := false, ring := g.lrec.cring, user := 0 }
            let limit := match g.src with
              | .node k _ => ((mapGet? s.graphs k).map (·.limit)).getD 0
              | _ => g.limit
            (s.dropLaunch n d).addGrid (Grid.fresh d.ctx g.queue g.seq h (.device d.grid) r d.addr (gridClass r g.class_) limit))
        | (s, .fault e, a) =>
          (s.raiseFault { ctx := d.ctx, page := pageOf a, fetch := false, reason := e, faddr := a, engine := commandEngine g.queue,
                          queue := g.queue, seq := g.seq, routed := false }).modLaunch n (pageOf a)
        | (s, .error e, a) =>
          ((s.logError d.ctx a e (commandEngine g.queue)).dropLaunch n d).refuseLaunch g g.lrec.cring 0x01 full.toNat
        | (s, _, _) => s)

end Sys2Proof.Machine
end

