-- ==== Sys2Proof/Machine/External.lean ====
section
/-! DEFINITION. What comes from outside, and errors: host writes, reductions and link changes of Yunavin Link, memory errors, the routing
of page faults (R85, R330, R331, R353, R366, R405 to R407). -/

namespace Sys2Proof.Machine

/-- Bytes written from outside at one address: in the frame and in the base lines that hold them; a poisoned byte stays (R405). -/
def State.outsidePut (s : State) (pa : Nat) (b : BitVec 8) : State :=
  if pa / 16 ∈ s.poison then s else s.physPut pa b

/-- The base lines that hold a physical address, each with its slice. -/
def State.linesAt (s : State) (pa : Nat) : List (Nat × HLine) := s.pinned (fun h => (h.physIndex pa).isSome)

/-- A write from outside to a line that a home slice holds is a write under R93: its completion times enter the line, and the waits on it
are looked at. The answer is the latest Tdv. -/
def State.outsideWrite (s : State) (pa : Nat) (bs : List (BitVec 8)) : State × Nat :=
  let lines := ((upTo bs.length).flatMap (fun i => s.linesAt (pa + i))).eraseDups
  let s := (upTo bs.length).foldl (fun s i => s.outsidePut (pa + i) (bs.getD i 0)) s
  lines.foldl (fun (r : State × Nat) e =>
    let s := r.1
    let t := after4 (s.gtimeAt (placeSlice e.1)) (listMax ((s.slice e.1).lines.map (fun g =>
      if g.line = e.2.line && (g.asid = e.2.asid || g.asid = 0) then listMax (g.exp.map (·.2)) else 0)))
    ((s.modHLine e.1 e.2 (fun h => { h with tldv := max h.tldv t, tlsy := max h.tlsy t })).afterWrite e.1 e.2.line, max r.2 t))
    (s, s.gtimeAt 0)

/-- A write of `n` bytes from outside meets a line that a core or cluster has pinned: it gets a retry response (R103). -/
def State.pinnedOutside (s : State) (pa n : Nat) : Bool :=
  (upTo n).any (fun i => (s.linesAt (pa + i)).any (fun e => e.2.pinCo.isSome || e.2.pinCl.isSome))

/-- A write or reduction from outside is performed, or made again later while a line of it is pinned (R103). -/
def State.fromOutside (s : State) (pa n : Nat) (i : Instr) (f : State → State) : State :=
  if s.pinnedOutside pa n then { s with outside := s.outside ++ [i] } else f s

/-- `HOST_MEM_WRITE`: the host writes device memory through CXL.mem, or its own memory: installed at the home slice as a write, whose
Tdv command firmware waits for (R330, R331). -/
def execHostMemWrite (pa : Nat) (bytes : List (BitVec 8)) (s : State) : Out :=
  .next (match s.range pa with
  | .local_ | .host =>
    s.fromOutside pa bytes.length (.hostMemWrite pa bytes) (fun s =>
      let (s, t) := s.outsideWrite pa bytes
      { s with hostTdv := max s.hostTdv t })
  | _ => s)

/-- `YL_REDUCTION_ARRIVE`: a reduction that the switch has merged arrives at the device and is performed at its address (R85, R353). -/
def execYlReductionArrive (pa : Nat) (op : Aop) (t : Ty) (x : DWord) (s : State) : Out :=
  .next (
    let n := t.bits / 8
    if s.range pa = .local_ then
      s.fromOutside pa n (.ylReductionArrive pa op t x) (fun s =>
        let old := bytesNat (s.physBytes pa n)
        (s.outsideWrite pa (natBytes n (atomNew op t 0 0 old (x.toNat % 2 ^ t.bits)))).1)
    else s)

/-- `YL_LINK_STATE`: a port comes up or goes down; YSTAT shows it and the chip at the far end (R353, Table 18.8). -/
def execYlLinkState (y : Nat) (up : Bool) (chip : Nat) (s : State) : Out :=
  .next (if y < 12 then
    s.setReg (offPort y 8) (if up && (s.reg (offPort y 0)).getLsbD 0 then BitVec.ofNat 64 (1 + 16 * (chip % 1024)) else 0)
  else s)

/-- `YUNAVIN_FLIT_RETRY`: a flit is retried after a CRC failure and counted (Table 18.8). -/
def execYunavinFlitRetry (y : Nat) (s : State) : Out :=
  .next (if y < 12 then s.bump (offPort y 0x10) 1 else s)

/-! ### Memory errors (R405 to R407) -/

/-- The physical chunks of the 48-byte sector of an address: those of its line's sector that lie in its frame (R57, R58). -/
def sectorChunks (pa va : Nat) : List Nat :=
  (upTo 3).filterMap (fun i =>
    let v := va / 48 * 48 + 16 * i
    if v / 4096 = va / 4096 then some ((pa / 4096 * 4096 + v % 4096) / 16) else none)

/-- A frame is reported once (R406). -/
def State.reportFrame (s : State) (pa index : Nat) : State :=
  if pa / 4096 ∈ s.reported then s
  else ({ s with reported := s.reported ++ [pa / 4096] }).deviceError 0x08 0 index (pa / 4096 * 4096)

/-- A corrected error is recorded once per structure in 1,000,000 ticks (R405). -/
def State.corrRecord (s : State) (kind unit index pa : Nat) : State :=
  let key := 4096 * unit + index
  let now := s.gtimeAt 0
  if (mapGet? s.lastCorr key).any (fun t => now < t + 1000000) then s
  else ({ s with lastCorr := mapSet s.lastCorr key now }).deviceError kind unit index pa

/-- The sector of an address is poisoned: in memory, and where `held` says so in the lines of home slices (R405). -/
def State.poisonSector (s : State) (pa va : Nat) (held : Bool) : State :=
  let cs := sectorChunks pa va
  let s : State := { s with poison := (s.poison ++ cs).eraseDups }
  if held then
    { s with slices := s.slices.map (fun e => (e.1, { e.2 with lines := e.2.lines.map (fun h =>
      cs.foldl (fun h c => match h.physIndex (16 * c) with
        | some i => { h with valid := h.valid &&& ~~~(BitVec.ofNat 12 (2 ^ (i / 16))) }
        | none => h) h) })) }
  else s

/-- An uncorrectable error: a device record, and an entry in the error log of the context concerned (R405, R407). -/
def State.uncorrectable (s : State) (kind unit index pa va : Nat) (x : Option Nat) : State :=
  let s := s.deviceError kind unit index pa
  match x with
  | some x => s.logError x va 0x05 (0x4000 + index)
  | none => s

/-- `MEMORY_ERROR`: an error at a structure (`unit` as Table 22.5 numbers it, with its index): corrected, or its sector is poisoned; a
frame with an uncorrectable error or its 16th corrected one is reported (R405, R406). In cluster memory the address is that of the
bank's bytes in the cluster. A parity failure in an L1 of a core (`unit` 0 for data, 1 for code) drops its copies of the line,
and records nothing (R60, R319). -/
def execMemoryError (kind : EccKind) (unit index pa va : Nat) (x : Option Nat) (s : State) : Out :=
  .next (match kind with
  | .corrSram => s.corrRecord 0x01 unit index pa
  | .corrDram =>
    let n := mapGetD s.corrected (pa / 4096) 0 + 1
    let s := ({ s with corrected := mapSet s.corrected (pa / 4096) n }).corrRecord 0x03 0 index pa
    if 16 ≤ n then s.reportFrame pa index else s
  | .uncorrSram =>
    let s := s.uncorrectable 0x02 unit index pa va x
    if unit = 1 then s.poisonSector pa va true
    else if unit = 2 then
      (s.modCluster index (fun c => { c with cc := c.cc.filter (fun d => d.line ≠ va / 192) })).modBank index (pa / 262144) (fun b =>
        if b.mode = .cacheWay then b else { b with poison := (pa % 262144 / 48 :: b.poison).eraseDups })
    else s
  | .uncorrDram => ((s.poisonSector pa va false).uncorrectable 0x04 0 index pa va x).reportFrame pa index
  | .linkFail => s.deviceError 0x05 unit index pa
  | .l1Parity => s.modCore index (fun c =>
      if unit = 0 then { c with l1d := c.l1d.filter (fun d => d.line ≠ va / 192) }
      else { c with l1i := c.l1i.filter (fun d => d.line ≠ va / 192) }))

/-! ### Page faults (R366) -/

/-- The record of a page fault (R366, Table 14.1). -/
def PFault.record (f : PFault) : Record :=
  { Record.blank f.queue f.seq f.engine 0 with
    status := 1, kind := 1, reason := f.reason, cause := if f.fetch then 0x2000 else 0x1000, faddr := (signAddr f.faddr).toNat }

/-- USER of the packet that a command number of a queue belongs to (R336, R345). -/
def State.userOf (s : State) (q n : Nat) : DWord :=
  match s.grids.find? (fun g => g.2.queue = q && g.2.seq = n) with
  | some g => g.2.hdr.user
  | none => ((s.cmd? q n).map (·.hdr.user)).getD 0

/-- `PAGE_FAULT_ROUTE`: the fault pending on a page of a context is reported once, to the context's FRING (R33, R323, R366). -/
def execPageFaultRoute (x page : Nat) (s : State) : Out :=
  .next (match s.pfaults.find? (fun f => f.ctx = x && f.page = page && !f.routed) with
  | none => s
  | some f =>
    let s : State := { s with pfaults := s.pfaults.map (fun g => if g.ctx = x && g.page = page then { g with routed := true } else g) }
    match s.ctx? x with
    | some c => s.post c.body.fring { f.record with user := s.userOf f.queue f.seq }
    | none => s)

end Sys2Proof.Machine
end

