-- ==== Sys2Proof/Machine/Power.lean ====
section
/-! DEFINITION. Patterns and rails, retention, wake-ups and module cooling (R386 to R393, R408). -/

namespace Sys2Proof.Machine

/-! ### Patterns and rails (R388, R408) -/

/-- Every cluster runs within the cap in force: other work at its own slot count, a node at its own where that lies below the cap. -/
def State.applyCap (s : State) : State :=
  (upTo 64).foldl (fun s cl =>
    let c := s.cluster cl
    let have_ := ((upTo 16).filter (fun i => c.pattern.getLsbD i)).length
    let want := if c.graph then min have_ s.cap else min c.slots s.cap
    if have_ = want then s else s.setPattern cl (evenPattern want)) s

/-- The slot count that an OPPOINT sets for clusters without a graph node. -/
def State.setSlots (s : State) (cs : List Nat) (n : Nat) : State :=
  (cs.foldl (fun s cl => s.modCluster cl (fun c => { c with slots := n })) s).applyCap

/-- Start what an OPPOINT asks for (R388): with a lowered cap, patterns first and then the rail; with a raised one the other way
round. `cs` are its clusters. -/
def State.startOppoint (s : State) (q n : Nat) (cs : List Nat) (slots railf railt : Nat) : State :=
  let f0 := (s.reg offRailf).toNat
  let t0 := (s.reg offRailt).toNat
  let f := if railf = 0 then f0 else railf
  let t := if railt = 0 then t0 else railt
  let dist (a b : Nat) : Nat := max a b - min a b
  if f = f0 ∧ t = t0 then (s.setSlots cs slots).modCmd q n (fun c => { c with done := true })
  else
    let old := (railCap f0 t0).getD 16
    let new := (railCap f t).getD 16
    let move : RailMove :=
      { fast := f, thrifty := t, due := s.gtimeAt 0 + 100 * max (dist f f0) (dist t t0), clusters := if new ≤ old then [] else cs,
        slots := slots, queue := q, seq := n }
    if new ≤ old then
      let s := cs.foldl (fun (s : State) cl => s.modCluster cl (fun c => { c with slots := slots })) s
      let lowered := (upTo 64).foldl (fun (s : State) cl =>
        let c := s.cluster cl
        let have_ := ((upTo 16).filter (fun i => c.pattern.getLsbD i)).length
        let want := min new (if c.graph then min have_ s.cap else min c.slots s.cap)
        if have_ = want then s else s.setPattern cl (evenPattern want)) s
      { lowered with railMove := some move }
    else { s with railMove := some move }

/-- `RAIL_SLEW_DONE`: a rail has moved, at 10 mV per µs; patterns that waited for a raised cap are applied, and the command is done
(R388). -/
def execRailSlewDone (s : State) : Out :=
  .next (match s.railMove with
  | none => s
  | some m =>
    if s.gtimeAt 0 < m.due then s
    else
      let s := ((s.setReg offRailf (BitVec.ofNat 64 m.fast)).setReg offRailt (BitVec.ofNat 64 m.thrifty))
      let s := ({ s with railMove := none }).setSlots m.clusters m.slots
      s.modCmd m.queue m.seq (fun c => { c with done := true }))

/-- `THERMAL_SAMPLE`: the hottest sensor is read: at 95 °C the cap falls by 2 slots, down to 8; at 105 °C every pulse stops and every
running block is lost (R408). -/
def execThermalSample (celsius : Nat) (s : State) : Out :=
  .next (
    let s : State := { s with coolSince := if celsius < 90 then some (s.coolSince.getD (s.gtimeAt 0)) else none }
    if 105 ≤ celsius then
      let s := ((upTo 64).foldl (fun s cl => s.setPattern cl 0) s).deviceError 0x02 5 0 0
      let gs := (s.grids.filter (fun e => s.blocks.any (fun b => b.2.grid = e.1 && b.2.st = .resident))).map (·.1)
      gs.foldl (fun s g => s.stopGrid g 4) s
    else if 95 ≤ celsius then ({ s with thermalCap := max 8 (s.cap - 2) }).applyCap
    else s)

/-- `THERMAL_RECOVER`: the sensor has read below 90 °C for 10 ms: the cap rises by 2 slots (R408). -/
def execThermalRecover (s : State) : Out :=
  .next (if s.thermalCap < 16 ∧ s.coolSince.any (fun t => t + 10000000 ≤ s.gtimeAt 0) then
    ({ s with thermalCap := min 16 (s.thermalCap + 2), coolSince := some (s.gtimeAt 0) }).applyCap
  else s)

/-! ### Retention (R391, R392) -/

/-- A lane that may run, or is about to. -/
def Lane.stirs (la : Lane) : Bool :=
  match la.st with
  | .runnable | .entry _ | .gath _ | .faultPark _ | .fetchPark _ => true
  | _ => false

/-- The conditions under which a cluster is on its way to retention (R391). -/
def State.clusterIdle (s : State) (cl : Nat) : Bool :=
  let mine (k : Nat) : Bool := clusterOf k = cl
  !s.warps.any (fun e => mine e.2.core && !s.hasLeft e.1 e.2 && (e.2.lanes.any Lane.stirs || e.2.live = [])) &&
    !s.tenants.any (fun e => mine e.2.core && (e.2.st = .running || !e.2.queue.isEmpty || !e.2.running.isEmpty)) &&
    !s.copies.any (fun e => e.2.cluster = cl && e.2.st ≠ .closed && e.2.st ≠ .saved) &&
    !s.reqs.any (fun e => mine e.2.core && e.2.st ≠ .held) &&
    !s.fences.any (fun e => (s.warp? e.2.warp).any (fun wp => mine wp.core)) &&
    !s.commits.any (fun e => (s.warp? e.2.warp).any (fun wp => mine wp.core)) &&
    !s.views.any (fun e => e.2.commit.isSome && s.blocks.any (fun b => b.2.cluster = cl && b.2.grid = e.2.grid))

/-- The warps on a cluster. -/
def State.warpsOn (s : State) (cl : Nat) : List (Nat × Warp) := s.warps.filter (fun e => clusterOf e.2.core = cl)

/-- `RETENTION_ENTER`: after 1,024 idle ticks the pins of a cluster are widened. The write-backs enter the horizons of its warps, whose
writes they are (DEDUCED, log entry 131). Once they are acknowledged its L1 and cluster-cache lines are dropped, and it sleeps (R391,
R104). -/
def execRetentionEnter (cluster : Nat) (s : State) : Out :=
  .next (
    let c := s.cluster cluster
    let mine (h : HLine) : Bool := h.pinCl = some cluster || h.pinCo.any (fun k => clusterOf k = cluster)
    if c.power = .running ∧ c.idleSince.any (fun t => t + 1024 ≤ s.gtimeAt 0) ∧ s.clusterIdle cluster ∧ !c.woken then
      if s.pinned mine ≠ [] then s.unpinAll mine cluster ((s.warpsOn cluster).map (·.1))
      else if (s.warpsOn cluster).any (fun e => s.gtimeAt (placeCore e.2.core) < e.2.hsy) then s
      else
        ((clusterCores cluster).foldl (fun s k => s.modCore k (fun c => { c with l1d := [], l1i := [] })) s).modCluster cluster (fun c =>
          { c with cc := [], power := .retention, idleSince := none })
    else s)

/-- A cluster waits for a wake-up: asked for, or asleep with something to run (R29, R392); its class and lowest curve index. -/
def State.wantsWake (s : State) (cl : Nat) : Option (Nat × Nat) :=
  let c := s.cluster cl
  match c.wakeReq, c.power with
  | some e, _ => some e
  | none, .retention =>
    if s.clusterIdle cl then none
    else
      let bs := s.onCluster cl
      some ((bs.map (fun e => ((s.gridOfBlock e.1).map (·.class_)).getD 3)).foldl min 3, (bs.map (fun e => e.2.curve)).foldl min (2 ^ 59))
  | none, _ => none

/-- The clusters that wait for a wake-up, with their keys in the order of R393. -/
def State.wakers (s : State) : List (Nat × Nat) :=
  (upTo 64).filterMap (fun cl => (s.wantsWake cl).map (fun e => (cl, wakeKey (cl, e.1, e.2))))

/-- `WAKE_START`: the first of the waiting wake-ups starts, within the limit of the window: a retained cluster takes 400 ticks to wake
(R392, R393). -/
def execWakeStart (cluster : Nat) (s : State) : Out :=
  .next (
    let ws := s.wakers
    match ws.find? (fun e => e.1 = cluster) with
    | none => s
    | some e =>
      if ws.any (fun f => f.2 < e.2) ∨ s.wakeLeft = 0 then s
      else
        let win := s.gtimeAt 0 / max 1 (s.reg offSlewwin).toNat
        let s : State := { s with wakes := (win, (if s.wakes.1 = win then s.wakes.2 else 0) + 1) }
        s.modCluster cluster (fun c =>
          { c with wakeReq := none, woken := true
                   power := if c.power = .retention then .waking (s.gtimeAt 0 + 400) else c.power }))

/-- `RETENTION_EXIT`: a cluster has woken; a parity error resets it: its banks are zeroed, and the grids of its blocks fail with
RETLOSS (R392). -/
def execRetentionExit (cluster : Nat) (parityError : Bool) (s : State) : Out :=
  .next (match (s.cluster cluster).power with
  | .waking t =>
    if s.gtimeAt 0 < t then s
    else
      let s := s.modCluster cluster (fun c => { c with power := .running, idleSince := none })
      if parityError then
        let gs := ((s.onCluster cluster).map (fun e => e.2.grid)).eraseDups
        let s := (s.modCluster cluster (fun c => { c with banks := c.banks.map (fun b =>
          (b.1, { b.2 with bytes := [], poison := [], fifo := [] })) })).deviceError 0x06 5 cluster 0
        gs.foldl (fun s g => s.stopGrid g 4) s
      else s
  | _ => s)

end Sys2Proof.Machine
end

