-- ==== Sys2Proof/Machine/Packets.lean ====
section
/-! DEFINITION. Packets: their bytes read and checked, the queues and what halts them, when a packet may start and how it ends
(R335 to R339, R349, R351, R354, R388, Tables 18.9 to 18.11). -/

namespace Sys2Proof

/-- A packet that every later packet of its queue waits for (R338): a WAIT, or one that acts as if FENCE were set. -/
def Instr.guards (i : Instr) : Bool :=
  match i with
  | .ctxcreate .. | .ctxdestroy .. | .cmcfgCacheWay .. | .cmcfgScratchpad .. | .cmcfgFifo .. | .oppoint .. => true
  | _ => false
def Instr.holdsLater (i : Instr) : Bool :=
  match i with
  | .wait .. => true
  | i => i.guards
/-- A packet that starts only after every earlier packet has completed, FENCE or not. -/
def Instr.startsAlone (i : Instr) : Bool :=
  match i with
  | .signalWrite .. | .signalAdd .. => true
  | i => i.guards

/-- The header of a packet. -/
def Instr.pktHdr (i : Instr) : PktHdr :=
  match i with
  | .launchPkt _ _ h _ _ | .graph _ _ h _ _ _ | .copy _ _ h _ _ _ | .fill _ _ h _ _ _ | .signalWrite _ _ h _ _ | .signalAdd _ _ h _ _
  | .wait _ _ h _ _ _ _ | .inval _ _ h _ _ _ | .resume _ _ h _ _ _ _ | .preemptSaveQueue _ _ h _ _ _ | .preemptSaveContext _ _ h _ _
  | .preemptRestore _ _ h _ _ | .stop _ _ h _ | .stopContinue _ _ h _ | .ctxcreate _ _ h _ | .ctxdestroy _ _ h _
  | .cmcfgCacheWay _ _ h _ _ | .cmcfgScratchpad _ _ h _ _ _ | .cmcfgFifo _ _ h _ _ _ _ | .oppoint _ _ h _ _ _ _ => h
  | _ => { idem := false, nocpl := false, fence := false, ring := 0, user := 0 }

end Sys2Proof

namespace Sys2Proof.Machine

/-! ### The bytes of a packet (Tables 18.9, 18.10, 18.11) -/

/-- The fixed length of a packet type, in 48-byte units; a PAD has any but 0. -/
def pktLen (ty : Nat) : Option Nat :=
  if ty = 0x0B then some 3 else if 1 ≤ ty ∧ ty ≤ 0x0E then some 1 else none

/-- Header fields of a packet. -/
def PktHdr.ofBytes (bs : List (BitVec 8)) : PktHdr :=
  let flags := field bs 2 1
  { idem := flags % 2 = 1, nocpl := flags / 2 % 2 = 1, fence := flags / 4 % 2 = 1, ring := field bs 4 2,
    user := BitVec.ofNat 64 (field bs 8 8) }

/-- Reserved bits and bytes of a header are zero. -/
def hdrClean (bs : List (BitVec 8)) : Bool := field bs 2 1 < 8 && zeros bs 3 1 && zeros bs 6 2

/-- A comparison of WAIT. -/
def condOf (c : Nat) : Option Cond :=
  match c with
  | 0 => some .eq | 1 => some .ne | 2 => some .lt | 3 => some .le | 4 => some .gt | 5 => some .ge
  | _ => none

/-- A window of CTXCREATE. -/
def windowOfBytes (bs : List (BitVec 8)) (i : Nat) : Window :=
  { base := field bs (64 + 16 * i) 8, len := field bs (72 + 16 * i) 5, fp32 := field bs (77 + 16 * i) 1 = 1,
    q := (BitVec.ofNat 8 (field bs (78 + 16 * i) 1)).toInt }

/-- The ranges of a window's fields. -/
def windowClean (bs : List (BitVec 8)) (i : Nat) : Bool :=
  let w := windowOfBytes bs i
  w.base % 4096 = 0 && w.len % 4096 = 0 && w.len ≤ 2 ^ 36 && field bs (77 + 16 * i) 1 ≤ 1 && zeros bs (79 + 16 * i) 1 &&
    (!w.fp32 || (-126 ≤ w.q && w.q ≤ 127))

/-- Two windows share a byte. -/
def windowsMeet (a b : Window) : Bool := a.len ≠ 0 && b.len ≠ 0 && a.base < b.base + b.len && b.base < a.base + a.len

/-- The body of CTXCREATE. -/
def CtxBody.ofBytes (bs : List (BitVec 8)) : CtxBody :=
  { ctx := field bs 16 2, asid := field bs 18 2, vquota := field bs 20 1, fgroup := field bs 21 1, root := field bs 24 8,
    aperture := field bs 32 8, l1lease := field bs 40 2, cllease := field bs 42 2, cllimit := field bs 44 4, hslimit := field bs 48 4,
    fring := field bs 52 2, wins := (upTo 4).map (windowOfBytes bs) }

/-- The ranges of the fields of CTXCREATE; `ring` tells rings of the partition. -/
def ctxClean (bs : List (BitVec 8)) (ring : Nat → Bool) : Bool :=
  let b := CtxBody.ofBytes bs
  b.ctx < 64 && b.asid ≠ 0 && b.vquota ≠ 0 && zeros bs 22 2 && b.root % 4096 = 0 && b.aperture % 0x400000 = 0 && b.l1lease ≤ 4095 &&
    b.cllease ≤ 16383 && ring b.fring && zeros bs 54 10 && (upTo 4).all (windowClean bs) && zeros bs 128 16 &&
    (upTo 4).all (fun i => (upTo i).all (fun j => !windowsMeet (windowOfBytes bs i) (windowOfBytes bs j)))

/-- The range of an INVAL ends at a canonical address (R368). -/
def rangeClean (start bytes : Nat) : Bool :=
  canonical (BitVec.ofNat 64 start) &&
    (bytes = 0 || (start + bytes - 1 < 2 ^ 64 && canonical (BitVec.ofNat 64 (start + bytes - 1))))

/-- The cap of the rails that an OPPOINT leaves in force; `none` where it is BADPKT for its rails (R388). -/
def State.oppointCap (s : State) (railf railt : Nat) : Option Nat :=
  if (railf ≠ 0 ∨ railt ≠ 0) ∧ s.nparts ≠ 1 then none
  else railCap (if railf = 0 then (s.reg offRailf).toNat else railf) (if railt = 0 then (s.reg offRailt).toNat else railt)

/-- What the checks of a packet read of the device: rings, queues and clusters of its queue's partition, and whether the queue is
privileged (R337, R351). -/
def State.ringOf (s : State) (q r : Nat) : Bool := r < 64 && s.ringPart r = s.queuePart q
def State.peerQueue (s : State) (q t : Nat) : Bool := t < 256 && s.queuePart t = s.queuePart q
def State.privileged (s : State) (q : Nat) : Bool := (s.reg (offQueue q 0x20)).getLsbD 1

/-- The body of a packet of a queue, checked: the packet as a step with its sequence number, or nothing for BADPKT. -/
def State.decodeBody (s : State) (q n : Nat) (h : PktHdr) (bs : List (BitVec 8)) : Option Instr :=
  let f (o k : Nat) : Nat := field bs o k
  let z (o : Nat) : Bool := zeros bs o (48 - o)
  let when_ (c : Bool) (i : Instr) : Option Instr := if c then some i else none
  match f 0 1 with
  | 0x01 => when_ (f 16 8 % 192 = 0 && z 28) (.launchPkt q n h (f 16 8) (f 24 4))
  | 0x02 => when_ (f 16 8 % 48 = 0 && 1 ≤ f 24 4 && f 24 4 ≤ 65535 && z 32) (.graph q n h (f 16 8) (f 24 4) (f 28 4))
  | 0x03 => when_ (z 40) (.copy q n h (f 16 8) (f 24 8) (f 32 8))
  | 0x04 => when_ (z 40) (.fill q n h (f 16 8) (f 24 8) (BitVec.ofNat 64 (f 32 8)))
  | 0x05 =>
    when_ (f 16 8 % 8 = 0 && f 32 1 ≤ 1 && z 33)
      (if f 32 1 = 0 then .signalWrite q n h (f 16 8) (BitVec.ofNat 64 (f 24 8)) else .signalAdd q n h (f 16 8) (BitVec.ofNat 64 (f 24 8)))
  | 0x06 =>
    (condOf (f 32 1)).bind (fun c =>
      when_ (f 16 8 % 8 = 0 && zeros bs 33 3 && z 40) (.wait q n h (f 16 8) (BitVec.ofNat 64 (f 24 8)) c (f 36 4)))
  | 0x07 =>
    when_ (f 32 1 ≤ 1 && z 33 && (f 32 1 = 1 || rangeClean (f 16 8) (f 24 8))) (.inval q n h (f 16 8) (f 24 8) (f 32 1 = 1))
  | 0x08 =>
    when_ (s.peerQueue q (f 16 2) && zeros bs 18 2 && f 32 1 ≤ 1 && z 33) (.resume q n h (f 16 2) (f 20 4) (f 24 8) (f 32 1 = 1))
  | 0x09 =>
    let ok := zeros bs 17 3 && zeros bs 22 2 && f 24 8 % 192 = 0 && z 40
    (match f 16 1 with
    | 0 => when_ (ok && s.peerQueue q (f 20 2)) (.preemptSaveQueue q n h (f 20 2) (f 24 8) (f 32 8))
    | 1 => when_ ok (.preemptSaveContext q n h (f 24 8) (f 32 8))
    | 2 => when_ ok (.preemptRestore q n h (f 24 8) (f 32 8))
    | _ => none)
  | 0x0A =>
    when_ (f 16 1 ≤ 1 && zeros bs 17 3 && s.peerQueue q (f 20 2) && z 22)
      (if f 16 1 = 0 then .stop q n h (f 20 2) else .stopContinue q n h (f 20 2))
  | 0x0B => when_ (s.privileged q && ctxClean bs (s.ringOf q)) (.ctxcreate q n h (CtxBody.ofBytes bs))
  | 0x0C => when_ (s.privileged q && z 18) (.ctxdestroy q n h (f 16 2))
  | 0x0D =>
    let m := BitVec.ofNat 16 (f 18 2)
    let ok := s.privileged q && f 16 1 < s.clustersPer && zeros bs 17 1 && zeros bs 22 2 && z 32
    let owned := ok && f 21 1 < 64 && (s.ctx? (64 * s.queuePart q + f 21 1)).isSome
    (match f 20 1 with
    | 0 => when_ ok (.cmcfgCacheWay q n h (f 16 1) m)
    | 1 => when_ owned (.cmcfgScratchpad q n h (f 16 1) m (f 21 1))
    | 2 =>
      when_ (owned && f 24 8 % 16 = 0 &&
          (match s.apertureOff (64 * s.queuePart q + f 21 1) (f 24 8 % 2 ^ 57) with
          | some o => canonical (BitVec.ofNat 64 (f 24 8)) && m = BitVec.ofNat 16 (2 ^ (o / 262144))
          | none => false))
        (.cmcfgFifo q n h (f 16 1) m (f 21 1) (f 24 8))
    | _ => none)
  | 0x0E =>
    let inside := (upTo 64).all (fun c => !(BitVec.ofNat 64 (f 16 8)).getLsbD c || s.clusterPart c = s.queuePart q)
    when_ (s.privileged q && z 30 && inside && f 24 2 ≠ 0 && (s.oppointCap (f 26 2) (f 28 2)).any (fun k => f 24 2 ≤ k))
      (.oppoint q n h (BitVec.ofNat 64 (f 16 8)) (f 24 2) (f 26 2) (f 28 2))
  | _ => none

/-- The checks of a header; a PAD names no ring (R337). -/
def State.headerOk (s : State) (q : Nat) (bs : List (BitVec 8)) : Bool :=
  hdrClean bs &&
    (if field bs 0 1 = 0 then field bs 1 1 ≠ 0
    else pktLen (field bs 0 1) = some (field bs 1 1) && s.ringOf q (PktHdr.ofBytes bs).ring)

/-- A packet read whole, checked: PAD, a numbered packet, or nothing for BADPKT (R337). -/
def State.decodePacket (s : State) (q n : Nat) (bs : List (BitVec 8)) : Option Instr :=
  if !s.headerOk q bs then none
  else if field bs 0 1 = 0 then some (.pad q (field bs 1 1))
  else s.decodeBody q n (PktHdr.ofBytes bs) bs

/-! ### Queues (Table 18.4, R337, R338, R349) -/

def State.queueOn (s : State) (q : Nat) : Bool := (s.reg (offQueue q 0x20)).getLsbD 0
def State.qstat (s : State) (q : Nat) : Nat := (s.reg (offQueue q 0x28)).toNat
def State.queueHalted (s : State) (q : Nat) : Bool := (s.reg (offQueue q 0x28)).getLsbD 8
/-- The next command sequence number. -/
def State.nextSeq (s : State) (q : Nat) : Nat := s.qstat q / 2 ^ 32
def State.queueSize (s : State) (q : Nat) : Nat := 48 * 2 ^ ((s.reg (offQueue q 0x08)).toNat % 32)
def State.qhead (s : State) (q : Nat) : Nat := (s.reg (offQueue q 0x18)).toNat
/-- Set HALT, the status code and the next number of a queue. -/
def State.setQstat (s : State) (q status : Nat) (halt : Bool) (seq : Nat) : State :=
  s.setReg (offQueue q 0x28) (BitVec.ofNat 64 (status + (if halt then 256 else 0) + 2 ^ 32 * (seq % 2 ^ 32)))

/-- A queue halts on an error: HALT and the status, QERR, and a final record to ring ERING, with the USER of the packet (R337, R345). -/
def State.haltQueue (s : State) (q status off : Nat) (user : DWord) : State :=
  let n := s.nextSeq q
  let s := (s.setQstat q status true n).setReg (offQueue q 0x30) (BitVec.ofNat 64 off)
  s.post (s.qctl q / 2 ^ 16 % 64) { Record.blank q n (commandEngine q) user with status := status, faddr := off }

/-- A command as it is read (R331: it starts once gtime has passed the host writes received before). -/
def Cmd.fresh (n : Nat) (i : Instr) (due : Nat) : Cmd :=
  { seq := n, instr := i, hdr := i.pktHdr, started := false, done := false, fail := none, paused := none, cause := 0, result := 0, due := due }

/-- The packet at QHEAD, read whole: the error that it halts the queue with, or the packet and its length in bytes. -/
inductive Peek where
  | nothing
  | halts (status : Nat)
  | packet (i : Instr) (bytes : Nat)
  deriving DecidableEq, Repr

/-- GSTAT.READY: command firmware runs (R398). -/
def State.ready (s : State) : Bool := (s.reg offGstat).getLsbD 0

/-- What stands at QHEAD (R335, R337); firmware reads nothing of a queue that is disabled, halted or holds a packet that must complete
first. -/
def State.peek (s : State) (q : Nat) : Peek :=
  let head := s.qhead q
  let size := s.queueSize q
  let avail := ((s.queue q).doorbell + size - head) % size
  if !s.ready || !s.queueOn q || s.queueHalted q || avail = 0 || (s.queue q).cmds.any (fun c => c.instr.guards) then .nothing
  else
    let at_ := (s.reg (offQueue q 0)).toNat + head
    let hdr := s.physBytes at_ 16
    let len := field hdr 1 1
    if size < head + 48 * len then .halts 3
    else if !s.headerOk q hdr then .halts 2
    else if avail < 48 * len then .nothing
    else
      match s.decodePacket q (s.nextSeq q) (s.physBytes at_ (48 * len)) with
      | none => .halts 2
      | some i => .packet i (48 * len)

/-- USER of the packet at QHEAD (Table 18.9). -/
def State.headUser (s : State) (q : Nat) : DWord :=
  BitVec.ofNat 64 (field (s.physBytes ((s.reg (offQueue q 0)).toNat + s.qhead q) 16) 8 8)

/-- QHEAD passes a packet. -/
def State.passPacket (s : State) (q bytes : Nat) : State :=
  s.setReg (offQueue q 0x18) (BitVec.ofNat 64 ((s.qhead q + bytes) % s.queueSize q))

/-- Read packets from QHEAD up to the last doorbell (R335, R338); a PAD is a step of its own. `n` bounds their number. -/
def State.readPackets (q : Nat) : Nat → State → State
  | 0, s => s
  | n + 1, s =>
    match s.peek q with
    | .nothing => s
    | .halts status => s.haltQueue q status (s.qhead q) (s.headUser q)
    | .packet (.pad q' len) _ => s.pushEvent (.pad q' len)
    | .packet i bytes =>
      let k := s.nextSeq q
      State.readPackets q n (((s.passPacket q bytes).setQstat q (s.qstat q % 256) false (k + 1)).modQueue q (fun u =>
        { u with cmds := u.cmds ++ [Cmd.fresh k i s.hostTdv] }))

/-- Read on, as far as the ring reaches. -/
def State.readOn (s : State) (q : Nat) : State := s.readPackets q (s.queueSize q / 48)

/-- `PAD`: the packet at QHEAD is padding: it is passed over, and takes no number and no record (R339). -/
def execPad (q len : Nat) (s : State) : Out :=
  .next (match s.peek q with
  | .packet (.pad _ l) bytes => if l = len then (s.passPacket q bytes).readOn q else s
  | _ => s)

/-! ### Starting and ending (R338, R344 to R347, R354, R382) -/

/-- A packet may start: it is read and not started, its queue is not stopped, the host writes received are performed, every earlier
packet of its queue has started and none holds it, and all have completed where it starts alone (R331, R338, R382). -/
def State.mayStart (s : State) (q n : Nat) : Bool :=
  match s.cmd? q n with
  | none => false
  | some c =>
    let earlier := (s.queue q).cmds.takeWhile (fun e => e.seq ≠ n)
    !c.started && c.paused.isNone && !(s.queue q).stopped && !(s.queue q).asleep && c.due ≤ s.gtimeAt 0 &&
      s.outside.isEmpty && s.hostTdv ≤ s.gtimeAt 0 &&
      earlier.all (fun e => e.started && !e.instr.holdsLater) && (!(c.hdr.fence || c.instr.startsAlone) || earlier.isEmpty)

/-- A packet is in progress: started, not done, and not waiting for a `RESUME`. -/
def State.underWay (s : State) (q n : Nat) : Bool := (s.cmd? q n).any (fun c => c.started && !c.done && c.paused.isNone)

/-- A packet starts. -/
def State.startCmd (s : State) (q n : Nat) : State := s.modCmd q n (fun c => { c with started := true, due := s.gtimeAt 0 })
/-- A packet has performed everything, up to a tick at which its last write is performed. -/
def State.doneCmd (s : State) (q n result late : Nat) : State :=
  s.modCmd q n (fun c => { c with started := true, done := true, result := result, due := late })
/-- A packet ends with a status, a reason and an address. -/
def State.endCmd (s : State) (q n status reason faddr : Nat) : State :=
  s.modCmd q n (fun c =>
    { c with started := true, done := true, due := 0, fail := some (status, reason, faddr),
             cause := if status = 1 then c.cause ||| 8 else c.cause })

/-- A packet that is done writes its final record once its writes are performed and its ring takes it; then the queue is read on
(R345, R347). -/
def State.closeCmd (s : State) (q n : Nat) : State :=
  match s.cmd? q n with
  | none => s
  | some c =>
    let (status, reason, faddr) := c.fail.getD (0, 0, 0)
    if c.done && c.due ≤ s.gtimeAt 0 && s.canFinish c.hdr status then
      (s.finish q n c.hdr { Record.blank q n (commandEngine q) c.hdr.user with
        status := status, reason := reason, cause := c.cause, faddr := faddr, result := c.result }).readOn q
    else s

/-- A page fault of firmware's access for a packet: it waits for a `RESUME` (R339, R366). -/
def State.pauseCmd (s : State) (q n x a reason : Nat) : State :=
  (s.raiseFault { ctx := x, page := pageOf a, fetch := false, reason := reason, faddr := a, engine := commandEngine q, queue := q,
                  seq := n, routed := false }).modCmd q n (fun c => { c with paused := some (pageOf a) })

/-- An error response to firmware's access for a packet ends it with FAULT (R339). -/
def State.errorCmd (s : State) (q n x a reason : Nat) : State :=
  (s.logError x a reason (commandEngine q)).endCmd q n 1 reason (signAddr a).toNat

/-- The frame of the step of packet `i`, number `n` of queue `q`: it starts under `start` when it may, goes on under `goOn` while it
is under way, and is closed once it is done. A packet that acts in its queue's context performs nothing where that context does not
live (R339). -/
def State.packet (s : State) (i : Instr) (q n : Nat) (inCtx : Bool) (start goOn : State → State) : State :=
  if (s.cmd? q n).any (fun c => c.instr = i) then
    (if s.mayStart q n then
      (if inCtx && !s.ctxOpen (s.queueCtx q) then s.endCmd q n 7 0x0B 0 else start s)
    else if s.underWay q n then
      (if inCtx && (s.ctx? (s.queueCtx q)).isNone then s.endCmd q n 7 0x0B 0 else goOn s)
    else s).closeCmd q n
  else s

end Sys2Proof.Machine
end

