-- ==== Sys2Proof/Machine/Commands.lean ====
section
/-! DEFINITION. What packets do: launches and graphs, copies and fills, signals and waits, stops, contexts made, banks and operating
points set (R69, R338, R339, R341, R343, R344, R352, R354, R382, R388). -/

namespace Sys2Proof.Machine

/-! ### LAUNCH (R340 to R342) -/

/-- Firmware reads `count` times 16 bytes that a packet names; a read that fails ends it with LAUNCHERR reason 0x01 (R310, R341). -/
def State.cmdRead (s : State) (q n x addr count : Nat) (k : List (BitVec 8) → State → State) : State :=
  if !canonical (BitVec.ofNat 64 addr) then s.endCmd q n 7 0x01 addr
  else
    match State.engReadList (s.whoFirmware x) s (addr % 2 ^ 57) count with
    | (s, .ok bs, _) => k bs s
    | (s, .fault reason, a) => s.pauseCmd q n x a reason
    | (s, .error e, a) => (s.logError x a e (commandEngine q)).endCmd q n 7 0x01 (signAddr a).toNat
    | (s, _, _) => s

/-- `LAUNCH`: the record is read and checked, and its grid starts (R339, R341, R342). -/
def execLaunchPkt (q n : Nat) (h : PktHdr) (record limit : Nat) (s : State) : Out :=
  .next (s.packet (.launchPkt q n h record limit) q n true
    (fun s =>
      let x := s.queueCtx q
      s.cmdRead q n x record 24 (fun bs s =>
        match s.recordReason x bs with
        | some reason => s.endCmd q n 7 reason 0
        | none =>
          let r := LaunchRec.ofBytes bs
          (s.startCmd q n).addGrid
            (Grid.fresh x q n h .packet r (record % 2 ^ 57) (gridClass r (s.queueClass q)) limit)))
    (fun s => s))

/-! ### GRAPH (R343, R344) -/

/-- Fields of entry `i` of a node table. -/
def nodeRec (bs : List (BitVec 8)) (i : Nat) : Nat := field bs (48 * i) 8
def nodeCost (bs : List (BitVec 8)) (i : Nat) : Nat := field bs (48 * i + 8) 4
def nodePreds (bs : List (BitVec 8)) (i : Nat) : List Nat := (upTo (field bs (48 * i + 12) 2)).map (fun j => field bs (48 * i + 16 + 2 * j) 2)
/-- The checks of an entry: its predecessors come before it, at most eight, and reserved bytes are zero. -/
def nodeOk (bs : List (BitVec 8)) (i : Nat) : Bool :=
  field bs (48 * i + 12) 2 ≤ 8 && zeros bs (48 * i + 14) 2 && zeros bs (48 * i + 32) 16 && (nodePreds bs i).all (· < i)

/-- Earliest finishes, ascending. -/
def earliest (cost : List Nat) (preds : List (List Nat)) : List Nat :=
  (cost.zip preds).foldl (fun ef e => ef ++ [listMax (e.2.map (fun u => ef.getD u 0)) + e.1]) []
/-- Latest starts of the nodes from `i` on, descending; `i` nodes are still to be done. -/
def latest (cost : List Nat) (preds : List (List Nat)) (f : Nat) : Nat → NatMap Nat → NatMap Nat
  | 0, m => m
  | i + 1, m =>
    let lf := (m.filter (fun e => i ∈ preds.getD e.1 [])).foldl (fun t e => min t e.2) f
    latest cost preds f i (mapSet m i (lf - cost.getD i 0))
/-- The slack of every node (R343). -/
def slackOf (cost : List Nat) (preds : List (List Nat)) : List Nat :=
  let ef := earliest cost preds
  let ls := latest cost preds (listMax ef) cost.length []
  (upTo cost.length).map (fun v => mapGetD ls v 0 - (ef.getD v 0 - cost.getD v 0))

/-- A node may start: its predecessors have completed, and the graph has neither run out of time nor been killed (R343, R344). -/
def Graph.ready (g : Graph) (i : Nat) : Bool :=
  g.st.getD i 3 = 0 && g.status ≠ 5 && g.status ≠ 6 && (g.preds.getD i []).all (fun u => g.st.getD u 0 = 2)
/-- No node runs, and none will start any more. -/
def Graph.over (g : Graph) : Bool := (upTo g.st.length).all (fun i => g.st.getD i 0 ≠ 1 && !g.ready i)

/-- The graph of a packet. -/
def State.graphOf (s : State) (q n : Nat) : Option (Nat × Graph) := s.graphs.find? (fun e => e.2.queue = q && e.2.seq = n)

/-- A graph whose nodes are over writes its final record, which carries the failing node's status and index (R343). -/
def State.tryGraph (s : State) (q n : Nat) : State :=
  match s.graphOf q n with
  | none => s
  | some (k, g) =>
    if g.over && s.canFinish g.hdr g.status then
      ({ s with graphs := mapErase s.graphs k }).finish q n g.hdr
        { Record.blank q n (if g.engine = 0 then commandEngine q else g.engine) g.hdr.user with
          status := g.status, reason := g.reason, cause := g.cause, faddr := g.faddr, result := if g.status = 0 then 0 else g.failing }
    else s

/-- The time limit of the graph of a packet counts between its nodes too (R344). -/
def State.limitOf (s : State) (q n : Nat) : State := ((s.graphOf q n).map (fun e => s.limitGraph e.1)).getD s

/-- `GRAPH`: the node table is read and checked, the schedule is computed, and the graph is over when its nodes are (R343). -/
def execGraph (q n : Nat) (h : PktHdr) (table count limit : Nat) (s : State) : Out :=
  .next (s.packet (.graph q n h table count limit) q n true
    (fun s =>
      let x := s.queueCtx q
      s.cmdRead q n x table (3 * count) (fun bs s =>
        if !(upTo count).all (nodeOk bs) then s.endCmd q n 7 0x0C 0
        else
          let cost := (upTo count).map (nodeCost bs)
          let preds := (upTo count).map (nodePreds bs)
          let g : Graph :=
            { ctx := x, queue := q, seq := n, hdr := h, limit := limit, firstStart := none, recs := (upTo count).map (nodeRec bs),
              cost := cost, preds := preds, slack := slackOf cost preds, st := (upTo count).map (fun _ => 0), status := 0, reason := 0,
              cause := 0, faddr := 0, engine := 0, failing := 0, paused := [] }
          ({ s.startCmd q n with graphs := s.graphs ++ [(s.tick, g)] } : State).next))
    (fun s => (s.limitOf q n).tryGraph q n))

/-- A node fails without having run. -/
def Graph.fails (g : Graph) (node status reason faddr : Nat) : Graph :=
  let g := { g with st := g.st.set node 3 }
  if g.status = 0 then { g with status := status, reason := reason, faddr := faddr, failing := node } else g
def State.modGraph (s : State) (k : Nat) (f : Graph → Graph) : State := { s with graphs := mapModify s.graphs k f }

/-- `GRAPH_NODE_START`: unless the time of the graph is over, the record of a node that is ready is read and checked, and its grid starts (R341, R343). -/
def execGraphNodeStart (gr node : Nat) (s : State) : Out :=
  .next (match mapGet? s.graphs gr with
  | none => s
  | some g =>
    let a := g.recs.getD node 0
    if expired g.limit g.firstStart (s.gtimeAt 0) then s.limitGraph gr
    else if !g.ready node || g.paused.any (fun e => e.1 = node) then s
    else if !canonical (BitVec.ofNat 64 a) then s.modGraph gr (fun g => g.fails node 7 0x01 a)
    else if a % 192 ≠ 0 then s.modGraph gr (fun g => g.fails node 7 0x02 0)
    else
      match State.engReadList (s.whoFirmware g.ctx) s (a % 2 ^ 57) 24 with
      | (s, .ok bs, _) =>
        (match s.recordReason g.ctx bs with
        | some reason => s.modGraph gr (fun g => g.fails node 7 reason 0)
        | none =>
          let r := LaunchRec.ofBytes bs
          (s.modGraph gr (fun g => { g with st := g.st.set node 1 })).addGrid
            (Grid.fresh g.ctx g.queue g.seq g.hdr (.node gr node) r (a % 2 ^ 57) (gridClass r (s.queueClass g.queue)) 0))
      | (s, .fault reason, b) =>
        (s.raiseFault { ctx := g.ctx, page := pageOf b, fetch := false, reason := reason, faddr := b, engine := commandEngine g.queue,
                        queue := g.queue, seq := g.seq, routed := false }).modGraph gr (fun g => { g with paused := g.paused ++ [(node, pageOf b)] })
      | (s, .error e, b) =>
        (s.logError g.ctx b e (commandEngine g.queue)).modGraph gr (fun g => g.fails node 7 0x01 (signAddr b).toNat)
      | (s, _, _) => s)

/-! ### COPY and FILL (R284, R339) -/

/-- A cluster of the queue's partition whose engine has room, of firmware's own choosing (log entry 5). -/
def State.pickEngine (s : State) (p : Nat) : Option Nat :=
  let cs := (s.partClusters p).filter (fun c => s.engineLoad c < 256)
  cs[Config.choice s.tick % max 1 cs.length]?

/-- The operation of a packet. -/
def pktOp (s : State) (q n cluster : Nat) (kind : CopyKind) (args : List DWord) (dst : Nat) (src : Option Nat) (bytes : Nat) : CopyOp :=
  let x := s.queueCtx q
  { kind := kind, st := .active, ctx := x, asid := ((s.ctx? x).map (·.body.asid)).getD 0, view := 0, cluster := cluster, core := 8 * cluster,
    block := none, rank := 0, tag := none, scope := .sy, warp := none, lane := 0, pc := 0, instr := none, args := args, snap := [],
    org := .zero, auto := false, armed := false, pieces := [{ dst := dst, src := src, len := bytes, keep := none, data := 0, row := 0 }],
    back := src.any (fun a => a < dst && dst < a + bytes), add := none, total := bytes, ahead := [], locks := [], counting := [], paused := none,
    tenant := none, cmd := some (q, n), rel := none, group := s.tick }

/-- A copy or fill of a packet starts: checked, and handed to an engine; no bytes at all are delivered at once. -/
def State.startPktCopy (s : State) (q n : Nat) (kind : CopyKind) (args : List DWord) (dst : Nat) (src : Option Nat) (bytes : Nat) : State :=
  let bad := (badAddress (BitVec.ofNat 64 dst) bytes).or (src.bind (fun a => badAddress (BitVec.ofNat 64 a) bytes))
  match bad, s.pickEngine (s.queuePart q) with
  | some a, _ => s.endCmd q n 1 0x06 a.toNat
  | none, none => s
  | none, some c =>
    if bytes = 0 then s.doneCmd q n 0 0
    else
      let op := pktOp s q n c kind args (dst % 2 ^ 57) (src.map (· % 2 ^ 57)) bytes
      ({ s.startCmd q n with copies := s.copies ++ [(mapFresh s.copies, op)] } : State).next

/-- `COPY`: the bulk copy engine of a cluster copies a range, as `cpy` does, at `.sy` (R339). -/
def execCopy (q n : Nat) (h : PktHdr) (src dst bytes : Nat) (s : State) : Out :=
  .next (s.packet (.copy q n h src dst bytes) q n true (fun s => s.startPktCopy q n .copyPkt [] dst (some src) bytes) (fun s => s))

/-- `FILL`: … fills a range with a pattern, byte (a mod 8) at address a (R339). -/
def execFill (q n : Nat) (h : PktHdr) (dst bytes : Nat) (pattern : DWord) (s : State) : Out :=
  .next (s.packet (.fill q n h dst bytes pattern) q n true (fun s => s.startPktCopy q n .fillPkt [pattern] dst none bytes) (fun s => s))

/-! ### SIGNAL and WAIT (R338, R339) -/

/-- The write of a SIGNAL; every earlier packet of its queue has completed, its writes at `.sy` included. -/
def State.signal (s : State) (q n addr : Nat) (v : DWord) (add : Option Ty) : State :=
  let add := add.map (fun ty => ({ ty := ty, pc := 0, row := 0 } : AddOf))
  let x := s.queueCtx q
  let a := addr % 2 ^ 57
  if !canonical (BitVec.ofNat 64 addr) then s.endCmd q n 1 0x06 addr
  else
    match s.engWrite (s.whoFirmware x) none a 8 v.toNat add false with
    | (s, .ok (t, tsy)) => s.doneCmd q n 0 (max t.tdv tsy)
    | (s, .fault reason) => s.pauseCmd q n x a reason
    | (s, .error e) => s.errorCmd q n x a e
    | (s, _) => s

/-- `SIGNAL`, operation 0: an 8-byte word is written (R339). -/
def execSignalWrite (q n : Nat) (h : PktHdr) (addr : Nat) (v : DWord) (s : State) : Out :=
  .next (s.packet (.signalWrite q n h addr v) q n true (fun s => s.signal q n addr v none) (fun s => s))

/-- `SIGNAL`, operation 1: a value is added to it (R339). -/
def execSignalAdd (q n : Nat) (h : PktHdr) (addr : Nat) (v : DWord) (s : State) : Out :=
  .next (s.packet (.signalAdd q n h addr v) q n true (fun s => s.signal q n addr v (some .n64)) (fun s => s))

/-- A WAIT that has started reads its word; it is done once the comparison holds. -/
def State.pollWait (s : State) (q n addr : Nat) (v : DWord) (cond : Cond) : State :=
  let x := s.queueCtx q
  let a := addr % 2 ^ 57
  if !canonical (BitVec.ofNat 64 addr) then s.endCmd q n 1 0x06 addr
  else
    match s.engRead (s.whoFirmware x) none a 8 with
    | (s, .ok w) => if cmpInt cond w v.toNat then s.doneCmd q n 0 0 else s
    | (s, .fault reason) => s.pauseCmd q n x a reason
    | (s, .error e) => s.errorCmd q n x a e
    | (s, _) => s

/-- `WAIT`: the queue's later packets wait until an unsigned comparison of a word holds (R338, R339). -/
def execWait (q n : Nat) (h : PktHdr) (addr : Nat) (v : DWord) (cond : Cond) (timeout : Nat) (s : State) : Out :=
  .next (s.packet (.wait q n h addr v cond timeout) q n true
    (fun s => (s.startCmd q n).pollWait q n addr v cond) (fun s => s.pollWait q n addr v cond))

/-- `WAIT_TIMEOUT`: the timeout of a WAIT runs out: it completes with TIMEOUT (R339). -/
def execWaitTimeout (q n : Nat) (s : State) : Out :=
  .next (match s.cmd? q n with
  | none => s
  | some c =>
    match c.instr with
    | .wait _ _ _ _ _ _ timeout =>
      if c.started && !c.done && expired timeout (some c.due) (s.gtimeAt 0) then (s.endCmd q n 6 0 0).closeCmd q n else s
    | _ => s)

/-! ### STOP (R382) -/

/-- A queue runs nothing that has started but a given packet. -/
def State.queueIdle (s : State) (target q n : Nat) : Bool :=
  (s.queue target).cmds.all (fun c => !c.started || (target = q && c.seq = n))

/-- A STOP is done once its queue is idle. -/
def State.tryStop (s : State) (q n target : Nat) : State := if s.queueIdle target q n then s.doneCmd q n 0 0 else s

/-- `STOP`, mode 0: no later packet of the queue starts; done once those that have started are complete (R382). -/
def execStop (q n : Nat) (h : PktHdr) (target : Nat) (s : State) : Out :=
  .next (s.packet (.stop q n h target) q n false
    (fun s => ((s.startCmd q n).modQueue target (fun k => { k with stopped := true })).tryStop q n target)
    (fun s => s.tryStop q n target))

/-- `STOP`, mode 1: the queue goes on from its next packet (R382). -/
def execStopContinue (q n : Nat) (h : PktHdr) (target : Nat) (s : State) : Out :=
  .next (s.packet (.stopContinue q n h target) q n false
    (fun s => (s.modQueue target (fun k => { k with stopped := false })).doneCmd q n 0 0) (fun s => s))

/-! ### CTXCREATE (R352) -/

/-- `CTXCREATE`: a context becomes live; refused where its number is in use (R352, Table 18.13a). -/
def execCtxcreate (q n : Nat) (h : PktHdr) (body : CtxBody) (s : State) : Out :=
  .next (s.packet (.ctxcreate q n h body) q n false
    (fun s =>
      let x := 64 * s.queuePart q + body.ctx
      if (s.ctx? x).isSome then s.endCmd q n 7 0x0D 0
      else
        let s := (upTo 4).foldl (fun s i => s.setReg (offCtx x (0x10 + 8 * i)) 0) s
        ({ s with ctxs := mapSet s.ctxs x { body := body, destroying := false, standing := none } }).doneCmd q n 0 0)
    (fun s => s))

/-! ### CMCFG (R64, R67 to R69) -/

/-- A resident block of the owner of a bank uses it: its window reaches into the bank, or the bank is a FIFO (R69). -/
def State.bankUsed (s : State) (cl b : Nat) : Bool :=
  let mine (x : Nat) : List (Nat × Block) := (s.onCluster cl).filter (fun e => s.ctxIdOf e.1 = x)
  match ((s.cluster cl).bank b).mode with
  | .cacheWay => false
  | .scratchpad x => (s.windowsOn x cl).any (fun w => w.1 < 262144 * (b + 1) && 262144 * b < w.1 + w.2)
  | .fifo x _ => mine x ≠ []

/-- A bank enters a mode: nothing changes where it has it; a new port keeps the entries; a new mode or owner reads as zero, and
the lines of the cluster cache that stand in the bank are dropped; a fill takes its way when it arrives (R69). -/
def State.setBank (s : State) (cl b : Nat) (m : BankMode) : State :=
  let k := (s.cluster cl).bank b
  let s := s.modBank cl b (fun k =>
    match k.mode, m with
    | .fifo x _, .fifo y _ => if x = y then { k with mode := m } else { Bank.reset with mode := m }
    | _, _ => { Bank.reset with mode := m })
  if k.mode = .cacheWay then s.modCluster cl (fun c => { c with cc := c.cc.filter (fun d => d.way ≠ b) }) else s

/-- The banks of a mask that are not yet in a mode. -/
def State.banksLeft (s : State) (cl : Nat) (mask : BitVec 16) (m : BankMode) : List Nat :=
  (upTo 16).filter (fun b => mask.getLsbD b && ((s.cluster cl).bank b).mode ≠ m)

/-- Change the banks that can be changed now; done once each is in its mode (R69). -/
def State.configure (s : State) (q n cluster : Nat) (mask : BitVec 16) (m : BankMode) : State :=
  let cl := s.queuePart q * s.clustersPer + cluster
  let s := (s.banksLeft cl mask m).foldl (fun s b => if s.bankUsed cl b then s else s.setBank cl b m) s
  if s.banksLeft cl mask m = [] then s.doneCmd q n 0 0 else s

/-- `CMCFG`, mode 0: banks become ways of the cluster cache (R64, R69). -/
def execCmcfgCacheWay (q n : Nat) (h : PktHdr) (cluster : Nat) (mask : BitVec 16) (s : State) : Out :=
  .next (s.packet (.cmcfgCacheWay q n h cluster mask) q n false
    (fun s => (s.startCmd q n).configure q n cluster mask .cacheWay) (fun s => s.configure q n cluster mask .cacheWay))

/-- `CMCFG`, mode 1: banks become scratchpad banks of a context (R64, R69). -/
def execCmcfgScratchpad (q n : Nat) (h : PktHdr) (cluster : Nat) (mask : BitVec 16) (owner : Nat) (s : State) : Out :=
  .next (
    let go (s : State) : State := s.configure q n cluster mask (.scratchpad (64 * s.queuePart q + owner))
    s.packet (.cmcfgScratchpad q n h cluster mask owner) q n false (fun s => go (s.startCmd q n)) go)

/-- `CMCFG`, mode 2: a bank becomes a FIFO of a context, with its port (R67 to R69). -/
def execCmcfgFifo (q n : Nat) (h : PktHdr) (cluster : Nat) (mask : BitVec 16) (owner port : Nat) (s : State) : Out :=
  .next (
    let go (s : State) : State :=
      let x := 64 * s.queuePart q + owner
      s.configure q n cluster mask (.fifo x ((s.apertureOff x (port % 2 ^ 57)).getD 0))
    s.packet (.cmcfgFifo q n h cluster mask owner port) q n false (fun s => go (s.startCmd q n)) go)

/-! ### OPPOINT (R388) -/

/-- `OPPOINT`: a slot count for clusters, and rails (R388); one change of the rails at a time. -/
def execOppoint (q n : Nat) (h : PktHdr) (mask : DWord) (slots railf railt : Nat) (s : State) : Out :=
  .next (s.packet (.oppoint q n h mask slots railf railt) q n false
    (fun s =>
      if s.railMove.isSome then s
      else (s.startCmd q n).startOppoint q n ((upTo 64).filter (fun c => mask.getLsbD c)) slots railf railt)
    (fun s => s))

end Sys2Proof.Machine
end

