-- ==== Sys2Proof/Machine/Shootdown.lean ====
section
/-! DEFINITION. Shootdowns and the promotion engine, resumes, and the destruction of contexts (R33, R148, R286, R323, R352, R365,
R367 to R371, R404, R409). -/

namespace Sys2Proof.Machine

/-! ### The steps of a shootdown (R368) -/

/-- The home slices of the partition of a context. -/
def State.partSlices (s : State) (x : Nat) : List Nat := (upTo s.chansPer).map (fun i => s.chansPer * ctxPart x + i)

/-- Step 1: TLB entries that cover a named page go, and walk-cache entries whose range overlaps one. -/
def State.dropTranslations (s : State) (r : Range) : State :=
  (s.partSlices r.ctx).foldl (fun s x => s.modSlice x (fun sl =>
    { sl with
      tlb := sl.tlb.filter (fun e => !(r.asidIn e.asid && e.page ≤ r.hi && r.lo < e.page + e.pages))
      walkCache := sl.walkCache.filter (fun e =>
        !(r.asidIn e.asid && e.key * 2 ^ (9 * e.level) ≤ r.hi && r.lo < (e.key + 1) * 2 ^ (9 * e.level))) })) s

/-- Step 2 is over: no range-lock entry overlaps the range, and no line of it is locked by a transaction; nor by a view's commit, for
which step 4 waits (Table 19.4). -/
def State.rangeFree (s : State) (r : Range) : Bool :=
  (s.partClusters (ctxPart r.ctx)).all (fun c => (s.cluster c).locks.all (fun e =>
    !(r.asidIn e.2.asid && r.meets e.2.lo e.2.hi))) &&
  (s.partSlices r.ctx).all (fun x => (s.slice x).lines.all (fun h =>
    !(r.line h.line h.asid && (h.lockTx.isSome || h.lockView.isSome))))

/-- Step 4: a line of the range at its home slice: written back and dropped, or a view copy written to the view store; what the slice
knew of its translation goes. -/
def State.purgeLine (s : State) (r : Range) (x : Nat) (h : HLine) : State :=
  if h.view = 0 then (s.writeBack h).modSlice x (fun sl => sl.dropLine h.line h.asid h.view)
  else
    let s := s.modHLine x h (fun h => { h with
      tags := h.tags.map (fun t => if r.lo ≤ t.1 ∧ t.1 ≤ r.hi then (t.1, { t.2 with leaf := 0 }) else t) })
    if h.spilled then s else s.spill x h

/-- Step 4 as a whole: copies in caches are dropped, lines at home slices purged, and fills in flight, those of lines under ASID 0 for other contexts
among them, requested again. -/
def State.purge (s : State) (r : Range) : State :=
  let keep (d : DLine) : Bool := !r.line d.line d.asid
  let cs := s.partClusters (ctxPart r.ctx)
  let s := cs.foldl (fun s c => s.modCluster c (fun c => { c with cc := c.cc.filter keep })) s
  let s := (cs.flatMap clusterCores).foldl (fun s k => s.modCore k (fun c => { c with l1d := c.l1d.filter keep, l1i := c.l1i.filter keep })) s
  let s := (s.partSlices r.ctx).foldl (fun s x =>
    ((s.slice x).lines.filter (fun h => r.line h.line h.asid)).foldl (fun s h => s.purgeLine r x h) s) s
  { s with reqs := s.reqs.map (fun e =>
      if ctxPart e.2.ctx = ctxPart r.ctx && e.2.st = .performed && e.2.fill.any (fun f => r.line e.2.line (e.2.copy f 0 0).asid) then
        (e.1, { e.2 with st := .sent, fill := none, sentNo := s.tick + e.1 })
      else e) }

/-! ### The promotion engine (R370, R371) -/

/-- The table entry of a page at a level: its address, when every level above points to a table. -/
def State.entryAt (s : State) (root page lvl : Nat) : Option Nat :=
  (([4, 3, 2, 1].filter (fun l => lvl < l)).foldl (fun (a : Option Nat) l => a.bind (fun a =>
    match pteCheck s.range (s.readPte (a + 8 * vpn page l)) l page false false with
    | .pointer b => some b
    | _ => none)) (some root)).map (fun a => a + 8 * vpn page lvl)

/-- What a promotion works on: the entries of the pages of a block with their addresses, the frame of its first page, and the
address of the level-1 entry of a 2 MiB block. -/
structure Merge where
  pages : List (Nat × Nat × DWord)
  f0 : Nat
  big : Option Nat
  deriving DecidableEq, Repr

/-- A level-0 entry is a valid leaf, whatever its permissions: no check of R357 but that of the permissions fails. -/
def validLeaf (rangeOf : Nat → PRange) (e : DWord) (page : Nat) : Bool :=
  match pteCheck rangeOf e 0 page false false with
  | .leaf | .fault 1 => true
  | _ => false

/-- The conditions of R370 on a range that is one aligned block of `n` pages. -/
def State.mergeOf (s : State) (r : Range) : Option Merge :=
  let n := r.hi + 1 - r.lo
  let root := s.rootOf r.ctx
  let c := s.chansPer
  if r.whole ∨ (n ≠ 16 ∧ n ≠ 512) ∨ r.lo % n ≠ 0 then none
  else
    match s.entryAt root r.lo 0 with
    | none => none
    | some e0 =>
      let first := s.readPte e0
      let pages := (upTo n).map (fun i => (r.lo + i, e0 + 8 * i, s.readPte (e0 + 8 * i)))
      let f0 := leafFrame first 0 r.lo
      let big := if n = 512 then s.entryAt root r.lo 1 else none
      let ok (p : Nat × Nat × DWord) : Bool :=
        let e := p.2.2
        let f := leafFrame e 0 p.1
        validLeaf s.range e p.1 && (n = 512 || !pteN e) &&
          e &&& 0x600000000000033F = first &&& 0x600000000000033F && ptePbmt e ≤ 1 && s.range (f * 4096) = .local_ &&
          s.owner f = ownerOf r.ctx && s.framePart f = ctxPart r.ctx && chanHash f % c = chanHash p.1 % c
      if f0 % n = 0 ∧ pages.all ok ∧
          pages.all (fun p => s.owner (f0 + (p.1 - r.lo)) = 0 || leafFrame p.2.2 0 p.1 = f0 + (p.1 - r.lo)) then
        some { pages := pages, f0 := f0, big := big }
      else none

/-- A page moves to its target frame, on its channel (R371, step 2). -/
def State.moveFrame (s : State) (x from_ to_ : Nat) : State :=
  if from_ = to_ then s
  else
    let bytes := readMemBytes s.mem (from_ * 4096) 4096
    let bad := (s.poison.filter (fun q => q / 256 = from_)).map (fun q => to_ * 256 + q % 256)
    let s := (s.claim to_ (ownerOf x)).writePhys (to_ * 4096) bytes
    { s with poison := s.poison ++ bad }

/-- The new entries (R371, step 3): the bits of page 0's entry, A and D over every merged one. -/
def State.writeMerged (s : State) (m : Merge) : State :=
  match m.pages with
  | [] => s
  | (_, _, e0) :: _ =>
    let ad := m.pages.foldl (fun (a : DWord) p => a ||| (p.2.2 &&& 0xC0)) 0
    let base : DWord := (e0 &&& 0x7FC00000000003FF) ||| ad
    match m.big with
    | some a => s.writePhys a (natBytes 8 (base ||| BitVec.ofNat 64 (m.f0 * 1024)).toNat)
    | none =>
      let e : DWord := base ||| 0x8000000000000000 ||| BitVec.ofNat 64 ((m.f0 + 8) * 1024)
      m.pages.foldl (fun s p => s.writePhys p.2.1 (natBytes 8 e.toNat)) s

/-- A promotion: frames copied, entries written, vacated frames returned (R371). -/
def State.promote (s : State) (r : Range) (m : Merge) : State :=
  let moves := m.pages.map (fun p => (leafFrame p.2.2 0 p.1, m.f0 + (p.1 - r.lo)))
  let s := moves.foldl (fun s e => s.moveFrame r.ctx e.1 e.2) s
  let s := s.writeMerged m
  (moves.filter (fun e => e.1 ≠ e.2 && (moves.all (fun g => g.2 ≠ e.1)))).foldl (fun s e => s.claim e.1 0) s

/-! ### INVAL (R368, R369) -/

/-- Steps 3 to 5 of an INVAL, once step 2 is over. -/
def State.shoot (s : State) (q n : Nat) (r : Range) : State :=
  if !s.rangeFree r then s
  else
    let s := s.unpinAll (fun h => r.line h.line h.asid && h.ctx = r.ctx && (h.pinCo.isSome || h.pinCl.isSome)) noCluster []
    let m := s.mergeOf r
    let s := (s.purge r).dropTranslations r
    let s := match m with
      | some m => s.promote r m
      | none => s
    s.doneCmd q n (s.gtimeAt 0 + 4) 0

/-- `INVAL`: a shootdown of a range of the queue's context, or of its whole ASID; it may promote (R368 to R371). -/
def execInval (q n : Nat) (h : PktHdr) (start bytes : Nat) (whole : Bool) (s : State) : Out :=
  .next (
    let r (s : State) : Range := s.rangeOf (s.queueCtx q) start bytes whole
    s.packet (.inval q n h start bytes whole) q n true
      (fun s =>
        if bytes = 0 ∧ !whole then s.doneCmd q n (s.gtimeAt 0) 0
        else ((s.startCmd q n).dropTranslations (r s)).shoot q n (r s))
      (fun s => s.shoot q n (r s)))

/-! ### RESUME (R33, R148, R286, R310, R323, R367, R409) -/

/-- A sequencer is parked on a page: itself, or a tile instruction of it (R148). -/
def Tenant.waitsOn (te : Tenant) (page : Nat) : Bool :=
  te.st = .faultPark page || (te.running ++ te.queue).any (fun o => o.paused = some page)

/-- The waiting parties that a RESUME counts (R367). -/
def State.waitersOn (s : State) (x page : Nat) : Nat :=
  let ofCtx (b : Nat) : Bool := s.ctxIdOf b = x
  let recs := s.warps.map (fun e => if ofCtx e.2.block then
    (e.2.replays.filter (fun r => page ∈ r.2.waits)).length else 0)
  let seqs := s.tenants.filter (fun e => ofCtx e.2.block && e.2.waitsOn page)
  let cops := s.copies.filter (fun e => e.2.ctx = x && e.2.paused = some page)
  let pkts := s.queues.map (fun e => if s.queueCtx e.1 = x then (e.2.cmds.filter (fun c => c.paused = some page)).length else 0)
  let wps := s.warps.filter (fun e => ofCtx e.2.block && e.2.lanes.any (fun la => la.st = .fetchPark page))
  recs.sum + seqs.length + cops.length + pkts.sum + wps.length

/-- The parts of a record's access that lie in a page, made anew (R33, R322). -/
def Replay.again (rp : Replay) (i page clock : Nat) : List Req :=
  (groupAccs rp.req.kind.alone (rp.req.accs.filter (fun a => pageOf a.addr = page && (mapGet? rp.fails a.lane).isNone))).map (fun as =>
    { rp.req with
      st := .waiting, replay := some i, accs := as, line := lineOf ((as.head?.map (·.addr)).getD 0), page := page, lookAt := clock
      hitAt := none, fill := none, slot := none, uni := if rp.req.uni = 0 then 0 else rp.lanes })

/-- The replay records of a warp that wait on a page are performed again. -/
def State.replayWarp (s : State) (w page : Nat) : State :=
  match s.warp? w with
  | none => s
  | some wp =>
    wp.replays.foldl (fun s e =>
      if page ∈ e.2.waits then
        (s.modWarp w (fun wp => { wp with replays := mapModify wp.replays e.1 (fun r => { r with waits := r.waits.filter (· ≠ page) }) })).addReqs
          (e.2.again e.1 page (s.clock wp.core))
      else s) s

/-- A sequencer parked on a page goes on (R148). -/
def Tenant.resume (te : Tenant) (page : Nat) : Tenant :=
  let go (o : TileOp) : TileOp := if o.paused = some page then { o with paused := none } else o
  { te with st := if te.st = .faultPark page then .running else te.st, running := te.running.map go, queue := te.queue.map go }

/-- Outcome retry: what waits on the page goes on (R367). -/
def State.resumeRetry (s : State) (x page : Nat) : State :=
  let ofCtx (b : Nat) : Bool := s.ctxIdOf b = x
  let s := (s.warps.filter (fun e => ofCtx e.2.block)).foldl (fun s e => s.replayWarp e.1 page) s
  { s with
    warps := s.warps.map (fun e => if s.ctxIdOf e.2.block = x then
      (e.1, { e.2 with lanes := e.2.lanes.map (fun (la : Lane) => if la.st = LaneSt.fetchPark page then { la with st := .runnable } else la) }) else e)
    tenants := s.tenants.map (fun e => if s.ctxIdOf e.2.block = x then (e.1, e.2.resume page) else e)
    copies := s.copies.map (fun e => if e.2.ctx = x ∧ e.2.paused = some page then (e.1, { e.2 with paused := none }) else e)
    reqs := s.reqs.map (fun e => match e.2.st with
      | .faulted _ => if e.2.ctx = x ∧ e.2.page = page then (e.1, { e.2 with st := if e.2.kind = .ifetch then .sent else .waiting }) else e
      | _ => e)
    queues := s.queues.map (fun e => if s.queueCtx e.1 = x then
      (e.1, { e.2 with cmds := e.2.cmds.map (fun (c : Cmd) => if c.paused = some page then { c with paused := none } else c) }) else e)
    devLaunches := s.devLaunches.map (fun e => if e.2.ctx = x ∧ e.2.paused = some page then (e.1, { e.2 with paused := none }) else e)
    graphs := s.graphs.map (fun e => if e.2.ctx = x then (e.1, { e.2 with paused := e.2.paused.filter (fun p => p.2 ≠ page) }) else e)
    views := s.views.map (fun e => if e.2.ctx = x then
      (e.1, { e.2 with pendingInstalls := e.2.pendingInstalls.filter (fun p => p.2 ≠ page) }) else e) }

/-- An install or an operation of an outbox that waits on a page is lost, with its own address (R409). -/
def State.loseInstalls (s : State) (v page : Nat) : State :=
  match s.view? v with
  | none => s
  | some vw =>
    if vw.pendingInstalls.all (fun p => p.2 ≠ page) then s
    else
      let engine := 0x4000 + s.homeOf vw.ctx page
      let s := s.modView v (fun vw => { vw with pendingInstalls := vw.pendingInstalls.filter (fun p => p.2 ≠ page) })
      match vw.performing, vw.outbox with
      | some w, .access q :: _ =>
        let a := ((q.accs.find? (fun a => pageOf a.addr = page)).map (·.addr)).getD (page * 4096)
        (s.commitLoss vw a 0x01 engine).outDone v w true
      | _, _ =>
        (s.copiesOf v).foldl (fun s e =>
          if e.2.writtenIn page = 0 then s
          else (s.commitLoss vw (e.2.line * 192 + firstByte (e.2.writtenIn page)) 0x01 engine).clearWritten e.1 e.2 page) s

/-- A record that waits on a page: the lanes of its accesses there have failed with reason 0x01. -/
def Replay.fail (rp : Replay) (page : Nat) : Replay :=
  if page ∈ rp.waits then
    let ls := if rp.req.uni = 0 then (rp.req.accs.filter (fun a => pageOf a.addr = page)).map (·.lane) else maskLanes rp.lanes
    { rp with waits := rp.waits.filter (· ≠ page), fails := ls.foldl (fun f l => mapSet f l 1) rp.fails }
  else rp

/-- A sequencer parked on a page faults (R149): at its PC, or at the tile instruction that waits, whose younger ones are discarded. -/
def State.failSeq (s : State) (t : Nat) (te : Tenant) (page a : Nat) : State :=
  let ls := te.running.filter (fun o => o.paused = some page)
  let s := ls.foldl (fun s o => s.dropLocks (clusterOf te.core) o.locks) s
  let s := s.modTenant t (fun te => { te with running := te.running.filter (fun o => o.paused ≠ some page) })
  match ls ++ te.queue.filter (fun o => o.paused = some page) with
  | o :: _ => s.startFault t o 0x03 0x01 (signAddr a)
  | [] => if te.st = .faultPark page then (s.modTenant t (fun te => { te with argsLeft := false })).tenantFault t 0x03 0x01 te.pc (signAddr a) else s

/-- Outcome unresolvable: what waits on the page fails with ACCESS, reason 0x01 (R367). -/
def State.resumeFail (s : State) (x page a : Nat) : State :=
  let ofCtx (b : Nat) : Bool := s.ctxIdOf b = x
  let ws := s.warps.filter (fun e => ofCtx e.2.block)
  let s := ws.foldl (fun s e => s.modWarp e.1 (fun wp => { wp with replays := wp.replays.map (fun r => (r.1, r.2.fail page)) })) s
  let s := (s.reqs.filter (fun e => e.2.kind = .ifetch && e.2.ctx = x && e.2.page = page && (match e.2.st with | .faulted _ => true | _ => false))).foldl
    (fun s e => (s.fetchError e.2 0x01).dropReq e.1) s
  let s : State := { s with reqs := s.reqs.map (fun e => match e.2.st with
    | .faulted _ => if e.2.ctx = x ∧ e.2.page = page then (e.1, { e.2 with st := .error 1 }) else e
    | _ => e) }
  let s := ws.foldl (fun s e => (upTo 32).foldl (fun s l =>
    match s.lane? e.1 l with
    | some la => if la.st = .fetchPark page then s.trapLane e.1 l (.access la.pc (la.pc.signExtend 64) 0x01) else s
    | none => s) s) s
  let s := (s.tenants.filter (fun e => ofCtx e.2.block && e.2.waitsOn page)).foldl (fun s e => s.failSeq e.1 e.2 page a) s
  let s := (s.copies.filter (fun e => e.2.ctx = x && e.2.paused = some page)).foldl (fun s e => s.failCopy e.1 e.2 a 0x01) s
  let s := (s.queues.filter (fun e => s.queueCtx e.1 = x)).foldl (fun s e =>
    (e.2.cmds.filter (fun c => c.paused = some page)).foldl (fun s c =>
      let s := s.modCmd e.1 c.seq (fun c => { c with paused := none })
      match c.instr with
      | .launchPkt .. | .graph .. => s.endCmd e.1 c.seq 7 0x01 (signAddr a).toNat
      | _ => s.endCmd e.1 c.seq 1 0x01 (signAddr a).toNat) s) s
  let s := (s.devLaunches.filter (fun e => e.2.ctx = x && e.2.paused = some page)).foldl (fun s e =>
    match s.grid? e.2.grid with
    | some g => (s.dropLaunch e.1 e.2).refuseLaunch g g.lrec.cring 0x01 (signAddr e.2.addr).toNat
    | none => s.dropLaunch e.1 e.2) s
  let s := (s.graphs.filter (fun e => e.2.ctx = x)).foldl (fun s e =>
    (e.2.paused.filter (fun p => p.2 = page)).foldl (fun s p =>
      s.modGraph e.1 (fun g => ({ g with paused := g.paused.filter (fun r => r ≠ p) }).fails p.1 7 0x01 (signAddr a).toNat)) s) s
  (s.views.filter (fun e => e.2.ctx = x)).foldl (fun s e => s.loseInstalls e.1 page) s

/-- `RESUME`: a pending fault of the queue's context is answered; RESULT counts the parties that waited (R339, R367). -/
def execResume (q n : Nat) (h : PktHdr) (fq seq addr : Nat) (unres : Bool) (s : State) : Out :=
  .next (s.packet (.resume q n h fq seq addr unres) q n true
    (fun s =>
      let x := s.queueCtx q
      let page := pageOf (addr % 2 ^ 57)
      match (if canonical (BitVec.ofNat 64 addr) then s.pfaults.find? (fun f => f.ctx = x && f.page = page) else none) with
      | none => s.doneCmd q n 0 0
      | some f =>
        let k := s.waitersOn x page
        let s : State := { s with pfaults := s.pfaults.filter (fun g => !(g.ctx = x && g.page = page)) }
        (if unres then s.resumeFail x page f.faddr else s.resumeRetry x page).doneCmd q n k 0)
    (fun s => s))

/-! ### CTXDESTROY (R352, R365, R404) -/

/-- Grids of a context that have placed no block end with KILLED, and so do the nodes of graphs that have not started. -/
def State.killUnstarted (s : State) (x : Nat) : State :=
  { s with
    grids := s.grids.map (fun e =>
      if e.2.ctx = x ∧ e.2.firstIssue.isNone then
        (e.1, { e.2 with noPlace := true, status := if e.2.status = 0 then 5 else e.2.status })
      else e)
    graphs := s.graphs.map (fun e =>
      if e.2.ctx = x ∧ (upTo e.2.st.length).any (fun i => e.2.st.getD i 0 = 0) then
        (e.1, { e.2 with
          st := e.2.st.map (fun n => if n = 0 then 3 else n), status := if e.2.status = 0 then 5 else e.2.status
          failing := if e.2.status = 0 then ((upTo e.2.st.length).find? (fun i => e.2.st.getD i 0 = 0)).getD 0 else e.2.failing })
      else e) }

/-- Nothing of a context runs any more. -/
def State.ctxIdle (s : State) (x : Nat) : Bool :=
  !s.grids.any (fun e => e.2.ctx = x) && !s.graphs.any (fun e => e.2.ctx = x) && !s.devLaunches.any (fun e => e.2.ctx = x) &&
    !s.copies.any (fun e => e.2.ctx = x && e.2.st ≠ .closed)

/-- What a context held is given back: lines, frames, banks, views (R352, R365, R404). -/
def State.freeCtx (s : State) (x : Nat) : State :=
  let r := s.wholeRange x
  let s := s.unpinAll (fun h => h.ctx = x && (h.pinCo.isSome || h.pinCl.isSome)) noCluster []
  let s := (s.purge r).dropTranslations r
  let s := (s.owners.filter (fun e => e.2 = ownerOf x)).foldl (fun s e => s.claim e.1 0) s
  let mine (m : BankMode) : Bool := match m with
    | .scratchpad y | .fifo y _ => y = x
    | .cacheWay => false
  let s := (s.partClusters (ctxPart x)).foldl (fun s c => s.modCluster c (fun c =>
    { c with banks := c.banks.filter (fun b => !mine b.2.mode) })) s
  let s := (s.views.filter (fun e => e.2.ctx = x)).foldl (fun s e => s.dropTagged e.1) s
  { s with
    views := s.views.filter (fun e => e.2.ctx ≠ x)
    reqs := s.reqs.filter (fun e => e.2.ctx ≠ x)
    copies := s.copies.filter (fun e => e.2.ctx ≠ x)
    pfaults := s.pfaults.filter (fun f => f.ctx ≠ x)
    ctxs := mapErase s.ctxs x }

/-- `CTXDESTROY`: once every grid of the context has ended, its frames, banks, view IDs and ASID are freed; a context that does not
exist, or whose destroy has started, is refused (R352). -/
def execCtxdestroy (q n : Nat) (h : PktHdr) (ctx : Nat) (s : State) : Out :=
  .next (
    let x := 64 * s.queuePart q + ctx
    let go (s : State) : State := if s.ctxIdle x then (s.freeCtx x).doneCmd q n 0 0 else s.killUnstarted x
    s.packet (.ctxdestroy q n h ctx) q n false
      (fun s =>
        if 64 ≤ ctx ∨ !s.ctxOpen x then s.endCmd q n 7 0x0B 0
        else go ((s.startCmd q n).modCtx x (fun c => { c with destroying := true })))
      go)

end Sys2Proof.Machine
end

