-- ==== Sys2Proof/Machine/Registers.lean ====
section
/-! DEFINITION. Writes to registers: doorbells and queue control, counter resets, partitions, and registers without behaviour of their
own (R333 to R337, R349, R351, R352, R364, R389, R395, R397, R402, R407). -/

namespace Sys2Proof.Machine

/-! ### Queues (R335, R337, R349) -/

/-- `QTAIL_DOORBELL`: new packets are handed to command firmware; ignored by a disabled or halted queue; a value that is no packet
offset of the ring halts the queue with BADPKT (R335, R337). -/
def execQtailDoorbell (q : Nat) (v : DWord) (s : State) : Out :=
  .next (
    if 256 ≤ q ∨ !s.queueOn q ∨ s.queueHalted q then s
    else if v.toNat % 48 ≠ 0 ∨ s.queueSize q ≤ v.toNat then s.haltQueue q 2 v.toNat 0
    else (s.modQueue q (fun k => { k with doorbell := v.toNat, asleep := false })).readOn q)

/-- The bits of QCTL that are kept. -/
def qctlBits (ctl : DWord) : DWord := ctl &&& 0x3F03FF

/-- QCTL.RESET: HALT and the status clear, and QHEAD takes the last doorbell value (R337). -/
def State.resetQueue (s : State) (q : Nat) : State :=
  (s.setQstat q 0 false (s.nextSeq q)).setReg (offQueue q 0x18) (BitVec.ofNat 64 (s.queue q).doorbell)

/-- `QCTL_RESET`: a write of QCTL.RESET (R337). -/
def execQctlReset (q : Nat) (ctl : DWord) (s : State) : Out :=
  .next ((s.setReg (offQueue q 0x20) (qctlBits ctl)).resetQueue q)

/-- `QUEUE_ENABLE`: QCTL.EN changes from 0 to 1: QHEAD and the last doorbell become 0, HALT and the status clear, and numbers count
from 0 (R338, R349). -/
def execQueueEnable (q : Nat) (ctl : DWord) (s : State) : Out :=
  .next ((((s.setReg (offQueue q 0x20) (qctlBits ctl)).setReg (offQueue q 0x18) 0).setQstat q 0 false 0).modQueue q (fun k =>
    { k with doorbell := 0 }))

/-- `QUEUE_DISABLE`: no further packet is read; those that have been go on (R349). -/
def execQueueDisable (q : Nat) (ctl : DWord) (s : State) : Out :=
  .next (
    let s := s.setReg (offQueue q 0x20) (qctlBits ctl)
    if ctl.getLsbD 31 then s.resetQueue q else s)

/-! ### Counters and partitions (R351, R352, R364, R397) -/

/-- `CRESET`: every counter of Table 18.7 in the partition of a context slot becomes zero (Table 18.6). -/
def execCreset (x : Nat) (s : State) : Out :=
  .next (
    let p := ctxPart x
    if p < s.nparts then
      { s with bar0 := s.bar0.filter (fun e =>
          !(0x1000000 ≤ e.1 && e.1 < 0x1200000 && s.clusterPart (clusterOf ((e.1 - 0x1000000) / 0x1000)) = p)) }
    else s)

/-- `PARTCFG_WRITE`: refused while a context exists; else every frame of local DRAM is zeroed with owner 0, every bank is in cache-way
mode, the caches and translators are empty, the histogram engine is off, and the new number of partitions holds (R64, R351, R364,
R397). -/
def execPartcfgWrite (v : DWord) (s : State) : Out :=
  .next (
    if s.ctxs ≠ [] then s.setReg offGstat (s.reg offGstat ||| 2)
    else
      let d := s.dramSize
      let s : State := { s with
        mem := s.mem.filter (fun c => d ≤ c.1)
        owners := []
        poison := s.poison.filter (fun q => d ≤ 16 * q)
        clusters := s.clusters.map (fun e => (e.1, { e.2 with banks := [], cc := [] }))
        cores := s.cores.map (fun e => (e.1, { e.2 with l1d := [], l1i := [] }))
        slices := []
        histBuf := [] }
      (s.setReg offHctl (s.reg offHctl &&& 0x3FFF6)).setReg offPartcfg (v &&& 3))

/-! ### Other registers (R333) -/

/-- Half a register may be written: the value of the whole (R333). -/
def halfWrite (old : DWord) (off size : Nat) (v : DWord) : DWord :=
  if size = 8 then v
  else if off % 8 = 0 then (old &&& 0xFFFFFFFF00000000) ||| (v.setWidth 32).setWidth 64
  else (old &&& 0xFFFFFFFF) ||| ((v.setWidth 32).setWidth 64 <<< 32)

/-- Queue and ring registers are written only while their EN is 0; sizes from 4 to 20 (R349). -/
def State.ringWrite (s : State) (on isSize : Bool) (o : Nat) (v : DWord) : State :=
  if on then s
  else if isSize then (if 4 ≤ v.toNat % 32 ∧ v.toNat % 32 ≤ 20 then s.setReg o (v &&& 31) else s)
  else s.setReg o v

/-- A write of a whole register. -/
def State.writeReg (s : State) (o : Nat) (v : DWord) : State :=
  let low : DWord := v &&& 0xFFFFFFFF
  if o = offYlid then s.setReg o (v &&& 0x3FF)
  else if o = offGstat then (if v.getLsbD 1 then s.setReg o (s.reg o &&& ~~~2) else s)
  else if 0x10000 ≤ o ∧ o < 0x14000 then
    let q := (o - 0x10000) / 0x40
    (match o % 0x40 with
    | 0x00 => s.ringWrite (s.queueOn q) false o v
    | 0x08 => s.ringWrite (s.queueOn q) true o v
    | 0x20 => s.setReg o (qctlBits v)
    | _ => s)
  else if 0x20000 ≤ o ∧ o < 0x21000 then
    let r := (o - 0x20000) / 0x40
    (match o % 0x40 with
    | 0x00 => s.ringWrite (s.ringOn r) false o v
    | 0x08 => s.ringWrite (s.ringOn r) true o v
    | 0x20 => s.setReg o low
    | 0x28 => s.setReg o (v &&& 0x1FFF)
    | _ => s)
  else if 0x40000 ≤ o ∧ o < 0x80000 then (if o % 0x200 = 0x38 then s.setReg o low else s)
  else if 0x80000 ≤ o ∧ o < 0x80C00 then
    (if o % 0x100 = 0 then (if v.getLsbD 0 then s.setReg o 1 else (s.setReg o 0).setReg (o + 8) 0) else s)
  else if o = offSlewk then (if 1 ≤ v.toNat % 128 ∧ v.toNat % 128 ≤ 64 then s.setReg o (v &&& 0x7F) else s)
  else if o = offSlewwin then (if 64 ≤ v.toNat % 65536 then s.setReg o (v &&& 0xFFFF) else s)
  else if o = offHctl then
    (if v.getLsbD 0 && (v.toNat / 2 % 4 = 3 || s.nparts ≤ v.toNat / 256 % 8 || s.histLog < 4 || 20 < s.histLog) then s
    else s.setReg o ((v &&& 0x3FFF7) ||| (s.reg o &&& 0x8000000000000000)))
  else if o = offHbase then s.setReg o v
  else if o = offHsize then s.setReg o (v &&& 31)
  else if 0xC0008 ≤ o ∧ o < 0xC0028 then s.setReg o v
  else if o = offErrdrd then s.setReg o low
  else s

/-- `REGISTER_WRITE`: a write of 8 or 4 bytes to a register without behaviour of its own; other sizes and alignments, read-only and
reserved offsets ignore it (R333). -/
def execRegisterWrite (off size : Nat) (v : DWord) (s : State) : Out :=
  .next (
    let o := off / 8 * 8
    if (size = 8 ∧ off % 8 = 0) ∨ (size = 4 ∧ off % 4 = 0) then
      s.writeReg o (halfWrite (if o = offGstat then 0 else s.reg o) off size v)
    else s)

end Sys2Proof.Machine
end

