-- ==== Sys2Proof/Machine/Firmware.lean ====
section
/-! DEFINITION. Firmware and security: device reset and start-up, replacement images, owner keys, the security mailbox, attestation
(R398 to R403). -/

namespace Sys2Proof.Machine

/-! ### Reset and start-up (R398) -/

/-- `DEVICE_RESET`: the device as right after reset: images are discarded, fuses stay; memory outside local DRAM is not the device's
(R386, R398, R400). -/
def execDeviceReset (s : State) : Out :=
  .next { State.reset with
    code := s.code, mem := s.mem.filter (fun c => s.dramSize ≤ c.1), agenda := s.agenda,
    security := { Security.reset with keys := s.security.keys, minSvn := s.security.minSvn }, tick := s.tick }

/-- The cores have started: GSTAT.READY sets, and command firmware reads what the queues hold (R398). -/
def State.boot (s : State) : State :=
  (upTo 256).foldl (fun s q => s.readOn q) (s.setReg offGstat (s.reg offGstat ||| 1))

/-! ### The security mailbox (R402) -/

/-- A command of the mailbox is over, with a status; BUSY is clear. -/
def State.mbDone (s : State) (status : Nat) : State := s.setReg offMbstat (BitVec.ofNat 64 (256 * status))

/-- A command of the mailbox: BADCMD where MBARG2 or MBARG3 is not zero. -/
def State.mailbox (s : State) (f : State → State) : State :=
  if s.reg (offMbarg 2) ≠ 0 ∨ s.reg (offMbarg 3) ≠ 0 then s.mbDone 7 else f s

/-- The measurement log takes an entry (R403). -/
def State.logMeasure (s : State) (kind : Nat) (digest : BitVec 384) : State :=
  { s.setReg offMeascnt (s.reg offMeascnt + 1) with security := { s.security with log := s.security.log ++ [(kind, digest)] } }

/-- `MAILBOX_BADCMD`: an unknown command does nothing (Table 22.3). -/
def execMailboxBadcmd (s : State) : Out := .next (s.mbDone 7)

/-! ### Images (R399, R400) -/

/-- A 384-bit number of a record. -/
def field384 (bs : List (BitVec 8)) (o : Nat) : BitVec 384 := BitVec.ofNat 384 (field bs o 48)

/-- The header's fixed fields and ranges, and MBARG0 and MBARG1 (Tables 22.1 and 22.2). -/
def imageHeaderOk (hd : List (BitVec 8)) (addr bytes : Nat) : Bool :=
  field hd 0 4 = 0x4B394657 && field hd 4 1 ≤ 1 && field hd 5 1 ≤ 1 && zeros hd 6 2 && 1 ≤ field hd 12 4 && field hd 12 4 ≤ 0x400000 &&
    field hd 16 1 ≤ 4 && zeros hd 17 47 && zeros hd 208 48 && addr % 64 = 0 && bytes = 256 + field hd 12 4

/-- The key of a slot that may sign: 0 the Stolzesko key, else a written slot that is not revoked. -/
def Security.key (x : Security) (slot : Nat) : Option (BitVec 384 × BitVec 384) :=
  if slot = 0 then some Config.vendorKey
  else (mapGet? x.keys slot).bind (fun k => if k.written && !k.revoked then some (k.x, k.y) else none)

/-- The status with which an image is answered: the first check of R400 that fails, or 0. -/
def State.imageStatus (s : State) (hd body : List (BitVec 8)) (addr bytes : Nat) : Nat :=
  if !imageHeaderOk hd addr bytes then 2
  else
    match s.security.key (field hd 16 1) with
    | none => 6
    | some (x, y) =>
      if !(Config.ecdsaVerify x y (Config.sha384 (hd.take 112)) (field384 hd 112) (field384 hd 160) && Config.sha384 body = field384 hd 64) then 1
      else if field hd 8 4 < mapGetD s.security.minSvn (field hd 4 1) 0 then 3
      else if s.ctxs ≠ [] then 4
      else 0

/-- An engine runs other firmware, with no state carried over: queues are idle until their next doorbell (R400). -/
def State.restartEngine (s : State) (engine : Nat) : State :=
  if engine = 0 then
    { s with queues := s.queues.map (fun e => (e.1, { e.2 with cmds := [], stopped := false, asleep := true }))
             grids := [], graphs := [], devLaunches := [] }
  else s

/-- GSTAT.ALTFW follows the images that run. -/
def State.setAltfw (s : State) : State :=
  s.setReg offGstat (if s.security.image = [] then s.reg offGstat &&& ~~~4 else s.reg offGstat ||| 4)

/-- An accepted image runs; RAISE is honoured for KEYSLOT 0 only. -/
def State.runImage (s : State) (hd : List (BitVec 8)) : State :=
  let engine := field hd 4 1
  let digest := field384 hd 64
  let x := s.security
  let svn := if field hd 5 1 = 1 ∧ field hd 16 1 = 0 then mapSet x.minSvn engine (field hd 8 4) else x.minSvn
  let s : State := { s with security := { x with image := mapSet x.image engine (digest, field hd 16 1), minSvn := svn } }
  ((s.restartEngine engine).setAltfw).logMeasure 1 digest

/-- `LOADIMG`: an image is read from physical memory and checked; accepted, it replaces the firmware of its engine (R399, R400). -/
def execLoadimg (s : State) : Out :=
  .next (s.mailbox (fun s =>
    let addr := (s.reg (offMbarg 0)).toNat
    let bytes := (s.reg (offMbarg 1)).toNat
    let hd := s.physBytes addr 256
    let status := s.imageStatus hd (s.physBytes (addr + 256) (bytes - 256)) addr bytes
    (if status = 0 then s.runImage hd else s).mbDone status))

/-- `ROMBOOT`: an engine returns to its ROM image, unless a context exists (Table 22.3). -/
def execRomboot (s : State) : Out :=
  .next (s.mailbox (fun s =>
    let engine := (s.reg (offMbarg 0)).toNat % 2
    if s.ctxs ≠ [] then s.mbDone 4
    else
      let s : State := { s with security := { s.security with image := mapErase s.security.image engine } }
      ((s.restartEngine engine).setAltfw).mbDone 0))

/-! ### Owner keys (R401) -/

/-- The fixed bytes of a record of ENROL or REVOKE, with slots in range; without a signature its bytes are zero. -/
def keyRecordOk (bs : List (BitVec 8)) (addr bytes : Nat) : Bool :=
  1 ≤ field bs 96 1 && field bs 96 1 ≤ 4 && field bs 97 1 ≤ 4 && zeros bs 98 30 && zeros bs 224 32 && addr % 64 = 0 && bytes = 256 &&
    (field bs 97 1 ≠ 0 || zeros bs 128 96)

/-- How a record is authorised: 0, or the status; slot 0 authorises while no slot has ever been written. -/
def State.authStatus (s : State) (bs : List (BitVec 8)) : Nat :=
  let auth := field bs 97 1
  if auth = 0 then (if s.security.keys.any (fun k => k.2.written) then 6 else 0)
  else
    match s.security.key auth with
    | none => 6
    | some (x, y) => if Config.ecdsaVerify x y (Config.sha384 (bs.take 128)) (field384 bs 128) (field384 bs 176) then 0 else 1

/-- The key store as it is measured. -/
def Security.keyBytes (x : Security) : List (BitVec 8) :=
  [1, 2, 3, 4].flatMap (fun i =>
    let k : KeySlot := mapGetD x.keys i { x := 0, y := 0, written := false, revoked := false }
    natBytes 48 k.x.toNat ++ natBytes 48 k.y.toNat ++ natBytes 1 (if k.revoked then 1 else 0))

/-- `ENROL`: an owner key slot is written, once (R401). -/
def execEnrolKey (s : State) : Out :=
  .next (s.mailbox (fun s =>
    let addr := (s.reg (offMbarg 0)).toNat
    let bs := s.physBytes addr 256
    let slot := field bs 96 1
    if !keyRecordOk bs addr (s.reg (offMbarg 1)).toNat then s.mbDone 2
    else
      match s.authStatus bs with
      | 0 =>
        if (mapGet? s.security.keys slot).any (fun k => k.written) then s.mbDone 5
        else
          let k : KeySlot := { x := field384 bs 0, y := field384 bs 48, written := true, revoked := false }
          let x := { s.security with keys := mapSet s.security.keys slot k }
          (({ s with security := x } : State).logMeasure 2 (Config.sha384 x.keyBytes)).mbDone 0
      | e => s.mbDone e))

/-- `REVOKE`: a written slot is revoked, once; the key that signs may be the one (R401). -/
def execRevoke (s : State) : Out :=
  .next (s.mailbox (fun s =>
    let addr := (s.reg (offMbarg 0)).toNat
    let bs := s.physBytes addr 256
    let slot := field bs 96 1
    if !keyRecordOk bs addr (s.reg (offMbarg 1)).toNat || !zeros bs 0 96 then s.mbDone 2
    else
      match s.authStatus bs with
      | 0 =>
        (match mapGet? s.security.keys slot with
        | some k =>
          if !k.written || k.revoked then s.mbDone 6
          else
            let x := { s.security with keys := mapSet s.security.keys slot { k with revoked := true } }
            (({ s with security := x } : State).logMeasure 3 (Config.sha384 x.keyBytes)).mbDone 0
        | none => s.mbDone 6)
      | e => s.mbDone e))

/-! ### Attestation (R403, Table 22.4) -/

/-- The digest of a ROM, and of the firmware that an engine runs with its KEYSLOT. -/
def romDigest (n : Nat) : List (BitVec 8) := natBytes 48 (Config.sha384 (Config.romImage n)).toNat
def State.running (s : State) (engine : Nat) : List (BitVec 8) :=
  match mapGet? s.security.image engine with
  | some (d, slot) => natBytes 48 d.toNat ++ natBytes 1 slot
  | none => romDigest (engine + 1) ++ natBytes 1 0xFF

/-- The measurements, in order of their index. -/
def State.measurements (s : State) : List (BitVec 8) :=
  romDigest 0 ++ romDigest 1 ++ romDigest 2 ++ s.running 0 ++ s.running 1 ++ natBytes 48 (Config.sha384 s.security.keyBytes).toNat ++
    natBytes 4 (mapGetD s.security.minSvn 0 0) ++ natBytes 4 (mapGetD s.security.minSvn 1 0) ++ natBytes 8 (s.reg offPartcfg).toNat ++
    natBytes 1 ((s.reg offGstat).toNat / 4 % 2) ++ s.security.log.flatMap (fun e => natBytes 1 e.1 ++ natBytes 48 e.2.toNat)

/-- The security core answers message `n` of R403: the body of the answer is that of DMTF SPDM 1.3 (log entry 6). -/
def State.spdm (s : State) (n : Nat) (req : List (BitVec 8)) : State :=
  ({ s with security := { s.security with
      responses := s.security.responses ++ [(n, Config.spdmBody s.tick n req s.measurements)] } } : State).next
/-- The state of the secured session. -/
def State.setSession (s : State) (n : Nat) : State := { s with security := { s.security with session := n } }

/-- `GET_VERSION` (R403). -/
def execGetVersion (req : List (BitVec 8)) (s : State) : Out := .next (s.spdm 0 req)
/-- `GET_CAPABILITIES` (R403). -/
def execGetCapabilities (req : List (BitVec 8)) (s : State) : Out := .next (s.spdm 1 req)
/-- `NEGOTIATE_ALGORITHMS` (R403). -/
def execNegotiateAlgorithms (req : List (BitVec 8)) (s : State) : Out := .next (s.spdm 2 req)
/-- `GET_DIGESTS` (R403). -/
def execGetDigests (req : List (BitVec 8)) (s : State) : Out := .next (s.spdm 3 req)
/-- `GET_CERTIFICATE` (R403). -/
def execGetCertificate (req : List (BitVec 8)) (s : State) : Out := .next (s.spdm 4 req)
/-- `CHALLENGE` (R403). -/
def execChallenge (req : List (BitVec 8)) (s : State) : Out := .next (s.spdm 5 req)
/-- `GET_MEASUREMENTS`: a signed response over the measurements (R403). -/
def execGetMeasurements (req : List (BitVec 8)) (s : State) : Out := .next (s.spdm 6 req)
/-- `KEY_EXCHANGE`: a secured session begins (R403). -/
def execKeyExchange (req : List (BitVec 8)) (s : State) : Out := .next ((s.spdm 7 req).setSession 1)
/-- `FINISH`: a secured session whose keys are exchanged is established (R403). -/
def execFinish (req : List (BitVec 8)) (s : State) : Out :=
  .next ((s.spdm 8 req).setSession (if s.security.session = 1 then 2 else s.security.session))

end Sys2Proof.Machine
end

