-- ==== Sys2Proof/Machine/Uses.lean ====
section
/-! DEFINITION. What the issue logic reads of an instruction: the registers it names, the unit that runs it with its latencies, and
the kind of its memory, fence or barrier work (R7, R31, R38, R39, R46, R97, R98, R100, R411). -/

namespace Sys2Proof

/-! ### Registers (R46) -/

/-- Registers by number: v0 to v255 at 0, s0 to s127 or q0 to q31 at 256, p0 to p6 at 384. -/
abbrev RegSet := List Nat

/-- `n` consecutive registers, one for each 32 bits of a width. -/
def regRun (first bits : Nat) : RegSet := (upTo (max 1 (bits / 32))).map (fun i => first + i)
def vRun (n : BitVec 8) (bits : Nat) : RegSet := regRun n.toNat bits
def qRun (n : Nat) (bits : Nat) : RegSet := regRun (256 + n) bits

def Opd.rd (o : Opd) (bits : Nat) : RegSet :=
  match o with
  | .v n => vRun n bits
  | .s n => qRun n.toNat bits
  | _ => []
def Dst.wr (d : Dst) (bits : Nat) : RegSet :=
  match d with
  | .v n => vRun n bits
  | .s n => qRun n.toNat bits
  | .none => []
def TagOpd.rd (t : TagOpd) : RegSet :=
  match t with
  | .reg n => [256 + n.toNat]
  | .tag _ => []
/-- A predicate; p7 is constant. -/
def prd (p : BitVec 3) : RegSet := if p = 7 then [] else [384 + p.toNat]
def MAddr.rd (m : MAddr) : RegSet := m.base.rd 64 ++ m.index.rd 32
/-- The predicates of a guard. -/
def Hdr.rd (h : Hdr) : RegSet := prd (h.g1.setWidth 3) ++ prd (h.g2.setWidth 3)

/-- Header, sources and destinations of an instruction of the two streams; events have none. -/
def Instr.uses (i : Instr) : Option (Hdr × RegSet × RegSet) :=
  match i with
  | .iadd h t _ a b c | .isub h t _ a b c | .imul h t _ a b c | .imulh h t a b c | .imin h t a b c | .imax h t a b c
  | .and h t a b c | .or h t a b c | .xor h t a b c | .andn h t a b c =>
    some (h, b.rd t.regBits ++ c.rd t.regBits, a.wr t.regBits)
  | .imad h t _ a b c e => some (h, b.rd t.regBits ++ c.rd t.regBits ++ e.rd t.regBits, a.wr t.regBits)
  | .idiv h t _ a m b c => some (h, b.rd t.regBits ++ c.rd t.regBits, a.wr t.regBits ++ m.wr t.regBits)
  | .iabs h t _ a b => some (h, b.rd t.regBits, a.wr t.regBits)
  | .bfn3 h t a b c e _ => some (h, b.rd t.regBits ++ c.rd t.regBits ++ e.rd t.regBits, a.wr t.regBits)
  | .shl h t a b c | .shr h t a b c => some (h, b.rd t.regBits ++ c.rd 32, a.wr t.regBits)
  | .fsh h t a x y z => some (h, x.rd t.regBits ++ y.rd t.regBits ++ z.rd 32, a.wr t.regBits)
  | .popc h t a b | .clz h t a b => some (h, b.rd t.regBits, a.wr 32)
  | .brev h t a b => some (h, b.rd t.regBits, a.wr t.regBits)
  | .bfx h t a b p n => some (h, b.rd t.regBits ++ p.rd 32 ++ n.rd 32, a.wr t.regBits)
  | .bfi h t a b f p n => some (h, b.rd t.regBits ++ f.rd t.regBits ++ p.rd 32 ++ n.rd 32, a.wr t.regBits)
  | .adrs h _ a b x _ => some (h, b.rd 64 ++ x.rd 32, a.wr 64)
  | .permb h a b c x => some (h, b.rd 32 ++ c.rd 32 ++ x.rd 32, a.wr 32)
  | .sel h t a b c p => some (h, b.rd t.regBits ++ c.rd t.regBits ++ prd p, a.wr t.regBits)
  | .mov h t a b => some (h, b.rd t.regBits, a.wr t.regBits)
  | .movs h w a _ => some (h, [], a.wr (if w then 64 else 32))
  | .movc h _ b => some (h, b.rd 32, [])
  | .icmp h _ t p b c | .fcmp h _ t p b c => some (h, b.rd t.regBits ++ c.rd t.regBits, prd p)
  | .plop h p a b c _ => some (h, prd a ++ prd b ++ prd c, prd p)
  | .shfl h _ t p a b c _ => some (h, vRun b t.regBits ++ c.rd 32, vRun a t.regBits ++ prd p)
  | .vote h _ p a q => some (h, prd q, a.wr 32 ++ prd p)
  | .ballot h a q => some (h, prd q, a.wr 32)
  | .redux h _ t a b => some (h, vRun b t.regBits, a.wr t.regBits)
  | .scan h _ _ seg t a b => some (h, vRun b t.regBits ++ (seg.map prd).getD [], vRun a t.regBits)
  | .matchLanes h _ t p a b => some (h, vRun b t.regBits, a.wr 32 ++ prd p)
  | .elect h p a => some (h, [], a.wr 32 ++ prd p)
  | .fadd h t _ _ a b c | .fsub h t _ _ a b c | .fmul h t _ _ a b c | .fmin h t a b c | .fmax h t a b c =>
    some (h, b.rd t.regBits ++ c.rd t.regBits, a.wr t.regBits)
  | .ffma h t _ _ a b c e => some (h, b.rd t.regBits ++ c.rd t.regBits ++ e.rd t.regBits, a.wr t.regBits)
  | .fclass h t p b m => some (h, b.rd t.regBits ++ m.rd 32, prd p)
  | .frnd h t _ a b | .frcp h t _ a b | .fsqrt h t _ a b => some (h, b.rd t.regBits, a.wr t.regBits)
  | .fscale h t _ a b n => some (h, b.rd t.regBits ++ n.rd 32, a.wr t.regBits)
  | .fgexp h t a b => some (h, b.rd t.regBits, a.wr 32)
  | .fdot2 h _ _ a b c e => some (h, b.rd 32 ++ c.rd 32 ++ e.rd 32, a.wr 32)
  | .frsq h t a b | .fexp2 h t a b | .flog2 h t a b | .fsin h t a b | .fcos h t a b | .ftanh h t a b | .fsigm h t a b =>
    some (h, b.rd t.regBits, a.wr t.regBits)
  | .cvt h d ty _ _ a b c => some (h, b.rd ty.regBits ++ (c.map (fun o => o.rd ty.regBits)).getD [], a.wr d.regBits)
  | .cvtsEncode h _ a b c m _ => some (h, b.rd 32 ++ c.rd 32 ++ m.rd 32, a.wr 32)
  | .cvtsDecode h _ a b _ => some (h, b.rd 32, a.wr 32)
  | .qblk h _ a b => some (h, b.rd 32, vRun a 32)
  | .dqblk h _ a b => some (h, vRun b 32, vRun a 32)
  | .dropm h w p b c => some (h, b.rd (if w then 64 else 32) ++ c.rd 32, prd p)
  | .rng h t a b => some (h, b.rd 64, a.wr t.regBits)
  | .bra h _ | .exit h | .yield h | .nop h | .waitc h _ _ _ _ | .enrol h _ | .rejoin h _ | .strike h _ | .trap h _ | .rte h
  | .ipf h _ _ | .ifence h | .txb h _ | .txe h | .txa h _ | .fence h _ _ _ | .bar h | .pbar h | .gbar h | .chooseNone h
  | .chooseSelf h => some (h, [], [])
  | .brx h b | .launch h b => some (h, b.rd 64, [])
  | .call h a _ => some (h, [], vRun a 64)
  | .ret h b => some (h, vRun b 64, [])
  | .icinv h b n => some (h, b.rd 64 ++ n.rd 32, [])
  | .ld h t _ _ a m => some (h, m.rd, a.wr t.regBits)
  | .st h t _ _ m d | .red h _ t _ _ m d => some (h, m.rd ++ d.rd t.regBits, [])
  | .atom h _ t _ _ a m d => some (h, m.rd ++ d.rd t.regBits, a.wr t.regBits)
  | .fld h a p m => some (h, m.rd, vRun a 64 ++ prd p)
  | .fset h p m d => some (h, m.rd ++ d.rd 64, prd p)
  | .fclr h m | .dpf h m => some (h, m.rd, [])
  | .waiton h _ t a m d => some (h, m.rd ++ d.rd t.regBits, a.wr t.regBits)
  | .gath h t a m _ => some (h, m.rd, vRun a t.regBits)
  | .cpy h _ _ a b n t => some (h, a.rd 64 ++ b.rd 64 ++ n.rd 32 ++ t.rd, [])
  | .cpyt h _ _ a b o t => some (h, a.rd 64 ++ b.rd 64 ++ o.rd 160 ++ t.rd, [])
  | .tagarm h t c => some (h, t.rd ++ c.rd 64, [])
  | .tagwt h _ m | .tagclr h m => some (h, m.rd 64, [])
  | .tagff h a m => some (h, m.rd 64, a.wr 32)
  | .bari h _ _ n => some (h, n.rd 32, [])
  | .bara h _ r => some (h, r.rd 32, [])
  | .barw h _ p => some (h, p.rd 32, [])
  | .tcfg h _ _ x => some (h, x.rd 32, [])
  | .tld h _ l c => some (h, qRun l.toNat 64 ++ (c.map (fun q => qRun q.toNat 160)).getD [], [])
  | .tzero h _ _ | .mma h _ _ _ | .mmas h _ _ _ _ _ | .mmad h _ _ _ => some (h, [], [])
  | .dcmp h _ _ d _ l => some (h, l.rd 32, qRun d.toNat 128)
  | .tdrain h _ _ _ _ _ _ l c t => some (h, qRun l.toNat 64 ++ (c.map (fun q => qRun q.toNat 160)).getD [] ++ t.rd, [])
  | .tmov h _ _ _ b => some (h, b.rd 32, [])
  | .tepi h _ _ _ _ b x _ => some (h, b.rd 32 ++ x.rd 32, [])
  | .tstv h ty _ _ v => some (h, vRun v ty.bits, [])
  | .tldv h ty v _ _ => some (h, [], vRun v ty.bits)
  | .event h x | .yieldw h x => some (h, x.rd 32, [])
  | .forkw h n _ => some (h, n.rd 32, [])
  | .choose h k => some (h, k.rd 32, [])
  | _ => none

/-! ### Units and latencies (Table 2.2, R39, R411) -/

/-- Whether a type is FP64. -/
def Ty.is64f (t : Ty) : Bool := t = .f64

/-- The vector-path resource of an instruction of Table 2.2, its latencies, and whether it names a predicate apart from its
guard. -/
def Instr.vecUnit (i : Instr) : Option (UnitKind × Nat × Nat × Bool) :=
  let fp (t : Ty) (p : Bool) : Option (UnitKind × Nat × Nat × Bool) :=
    some (if t.is64f then (.vec64, 12, 30, p) else (.vec, 5, 14, p))
  match i with
  | .iadd .. | .isub .. | .imin .. | .imax .. | .iabs .. | .and .. | .or .. | .xor .. | .andn .. | .bfn3 .. | .shl .. | .shr .. | .fsh ..
  | .popc .. | .clz .. | .brev .. | .bfx .. | .bfi .. | .adrs .. | .permb .. | .mov .. => some (.vec, 3, 9, false)
  | .sel .. | .icmp .. | .plop .. => some (.vec, 3, 9, true)
  | .imul .. | .imulh .. | .imad .. => some (.vec, 5, 13, false)
  | .fadd _ t .. | .fsub _ t .. | .fmul _ t .. | .ffma _ t .. | .fmin _ t .. | .fmax _ t .. | .frnd _ t .. | .fscale _ t .. | .fgexp _ t ..
  | .fdot2 _ t .. => fp t false
  | .fcmp _ _ t .. | .fclass _ t .. => fp t true
  | .frcp .. | .frsq .. | .fsqrt .. | .fexp2 .. | .flog2 .. | .fsin .. | .fcos .. | .ftanh .. | .fsigm .. | .idiv .. =>
    some (.sfu, 14, 36, false)
  | .shfl .. | .vote .. | .ballot .. | .matchLanes .. | .elect .. => some (.xl, 6, 12, true)
  | .redux .. => some (.xl, 6, 12, false)
  | .scan _ _ _ seg .. => some (.xl, 6, 12, seg.isSome)
  | .cvt _ d ty .. => some (if d.is64f || ty.is64f then .vec64 else .vec, 5, 12, false)
  | .cvtsEncode .. | .cvtsDecode .. | .qblk .. | .dqblk .. | .rng .. => some (.vec, 5, 12, false)
  | .dropm .. => some (.vec, 5, 12, true)
  | .ld .. | .st .. | .atom .. | .red .. | .fclr .. | .waiton .. | .gath .. | .dpf .. | .cpy .. | .cpyt .. | .tstv .. | .tldv .. =>
    some (.agu, 2, 6, false)
  | .fld .. | .fset .. => some (.agu, 2, 6, true)
  | _ => none

/-- Every destination is a uniform register, and every source a uniform register or a constant. -/
def allUniform (rd wr : RegSet) : Bool := wr ≠ [] && (rd ++ wr).all (fun r => 256 ≤ r && r < 384)

/-- Where an instruction runs: a vector-path resource with its latencies, or (`none`) the uniform and branch unit with its latency
(R39). -/
def Instr.runsOn (i : Instr) : Option (UnitKind × Nat × Nat) × Nat :=
  match i.vecUnit, i.uses with
  | some (u, f, t, p), some (_, rd, wr) => if !p && allUniform rd wr then (none, f) else (some (u, f, t), f)
  | _, _ => (none, 3)

/-- Unit classes (R10): VEC, SFU, XL, MEM, CTRL. -/
def UnitKind.cls (u : UnitKind) : Nat :=
  match u with
  | .vec | .vec64 => 0
  | .sfu => 1
  | .xl => 2
  | .agu => 3
def ctrlClass : Nat := 4

/-- Lanes per clock of the unit's own clock (Table 2.1). -/
def Inst.width (u : Inst) : Nat :=
  match u.kind with
  | .vec | .xl | .agu => if u.thrifty then 16 else 8
  | .vec64 | .sfu => if u.thrifty then 4 else 2

/-- Clocks for which `n` lanes occupy it (R37). -/
def Inst.occupancy (u : Inst) (n : Nat) : Nat := (n + u.width - 1) / u.width * (if u.thrifty then 2 else 1)
/-! ### Kinds of work -/

/-- A memory instruction: those of Table 11.1 and the copies (R32, R98, R262, Table 1.7). -/
def Instr.isMem (i : Instr) : Bool :=
  match i with
  | .txb .. | .txe .. | .txa .. | .fence .. | .ld .. | .st .. | .atom .. | .red .. | .fld .. | .fset .. | .fclr .. | .waiton .. | .gath .. | .dpf .. | .cpy .. | .cpyt .. => true
  | _ => false
/-- An instruction that an acquire holds: memory instructions, engine issues and tile moves (R98, R146). -/
def Instr.afterAcquire (i : Instr) : Bool :=
  match i with
  | .tstv .. | .tldv .. => true
  | _ => i.isMem
/-- It writes memory or issues an engine operation (R97). -/
def Instr.afterRelease (i : Instr) : Bool :=
  match i with
  | .st .. | .atom .. | .red .. | .fset .. | .fclr .. | .cpy .. | .cpyt .. | .txe .. => true
  | _ => false
/-- A fence or a block, numbered or phase barrier (Table 1.7). -/
def Instr.isFenceOrBarrier (i : Instr) : Bool :=
  match i with
  | .fence .. | .bar .. | .bari .. | .bara .. | .barw .. | .pbar .. | .gbar .. | .forkw .. => true
  | _ => false
/-- A store, atomic or copy (Table 1.7, first row). -/
def Instr.isWrite (i : Instr) : Bool :=
  match i with
  | .st .. | .atom .. | .red .. | .fset .. | .fclr .. | .cpy .. | .cpyt .. => true
  | _ => false
/-- The counter of an instruction's kind: 0 ld, 1 st, 2 cp, 3 tl (Table 9.13). -/
def Instr.counter (i : Instr) : Option Nat :=
  match i with
  | .ld .. | .fld .. | .gath .. | .waiton .. => some 0
  | .atom _ _ _ _ _ a _ _ => some (if a = .none then 1 else 0)
  | .st .. | .red .. | .fset .. | .fclr .. | .launch .. | .event .. => some 1
  | .cpy .. | .cpyt .. => some 2
  | .tstv .. | .tldv .. => some 3
  | _ => none

/-- It may issue ahead of a speculative fence (R100): it writes only vector registers and predicates of the lanes, it branches, or it
is a plain load without the bypass hint. -/
def Instr.mayPass (i : Instr) : Bool :=
  match i with
  | .bra .. | .brx .. | .ret .. | .call .. | .nop .. => true
  | .ld h _ k _ a _ => k = .none && h.hint ≠ 3 && (match a with | .v _ => true | _ => false)
  | .movs _ _ a _ => (a.wr 32).all (fun r => r < 256) && a ≠ .none
  | _ =>
    match i.vecUnit, i.uses with
    | some (u, _, _, _), some (_, _, wr) => u ≠ .agu && wr ≠ [] && wr.all (fun r => r < 256 || 384 ≤ r)
    | _, _ => false

/-- After it, the lanes of its group are next eligible 3 clocks later (R318). -/
def Instr.isFlow (i : Instr) : Bool :=
  match i with
  | .bra .. | .brx .. | .call .. | .ret .. | .rte .. => true
  | _ => false

end Sys2Proof
end

