-- ==== Sys2Proof/Machine/Issue.lean ====
section
/-! DEFINITION. Issue: the groups of a warp, when one is eligible, park points, the choice among warps, steering, dispatch queues,
pending registers, slack violations, counters and stall charges (R5 to R10, R31, R32, R36 to R52, R189, R318, R390, R394). -/

namespace Sys2Proof.Machine

/-! ### Units (R36, R37, R43, R44, R390, R411) -/

def InstSt.fresh (u : Inst) : InstSt := { inst := u, queue := [], busyUntil := 0, gated := false, wakeAt := none }
def Part.inst (p : Part) (u : Inst) : InstSt := (p.insts.find? (fun x => x.inst = u)).getD (InstSt.fresh u)
def Part.setInst (p : Part) (x : InstSt) : Part := { p with insts := p.insts.filter (fun y => y.inst ≠ x.inst) ++ [x] }

/-- It holds no work and its queue is empty. -/
def InstSt.idle (x : InstSt) (t : Nat) : Bool := x.queue.isEmpty && x.busyUntil ≤ t
/-- It is gated, or has been idle for 32 clocks (R390). -/
def InstSt.asleep (x : InstSt) (t : Nat) : Bool := x.wakeAt.isNone && x.queue.isEmpty && (x.gated || x.busyUntil + 32 ≤ t)
/-- Its queue of two has a free entry (R37). -/
def InstSt.accepts (x : InstSt) (t : Nat) : Bool := (x.queue.filter (fun e => t < e.1)).length < 2
/-- The clock on which it would start an instruction that it accepts at `t` (R37, R317, R390). -/
def InstSt.startAt (x : InstSt) (t : Nat) : Nat :=
  let free := match x.queue.getLast? with
    | some e => e.1 + e.2
    | none => x.busyUntil
  let st := if x.asleep t then t + 8 else max t (max free (x.wakeAt.getD 0))
  if x.inst.thrifty then (st + 1) / 2 * 2 else st
/-- It accepts an instruction of `n` lanes. -/
def InstSt.accept (x : InstSt) (t n : Nat) : InstSt :=
  { x with queue := x.queue ++ [(x.startAt t, x.inst.occupancy n)]
           gated := x.gated || x.asleep t
           wakeAt := if x.asleep t then some (t + 8) else x.wakeAt }

/-- Clocks of a slack code (Table 2.3); `none` is unbounded. -/
def slackClocks (code : Nat) : Option Nat :=
  match code with
  | 0 => some 0
  | 1 => some 2
  | 2 => some 4
  | 3 => some 8
  | 4 => some 12
  | 5 => some 20
  | 6 => some 40
  | _ => none

/-- The form that an instruction is steered to, `true` for thrifty; `none` where no allowed form can accept it (R43, R44). -/
def steer (mode slk : Nat) (sbias : Int) (t : Nat) (fast thrifty : InstSt) (latF latT : Nat) : Option Bool :=
  let f := fast.accepts t && mode ≠ 2
  let h := thrifty.accepts t && mode ≠ 1
  if !f && !h then none
  else if f && !h then some false
  else if h && !f then some true
  else
    let e := (max 0 (min 7 ((slk : Int) + sbias))).toNat
    match slackClocks e with
    | none => some true
    | some x => some (thrifty.startAt t + latT ≤ fast.startAt t + latF + x)

/-! ### Groups (R5, R6, R8) -/

/-- A group of a warp: its lanes, word, and either its instruction (`none`: an illegal word) or the code of Table 21.4 for which it
does not issue; code 99 stands for a reason with no row. -/
structure ICand where
  w : Nat
  wp : Warp
  lanes : List Nat
  pc : PC
  instr : Option Instr
  why : Option Nat
  deriving DecidableEq, Repr

/-- Lanes that may issue at a clock. -/
def Lane.free (la : Lane) (t : Nat) : Bool := la.st = .runnable && la.hold = .none && la.readyAt ≤ t && la.yieldUntil.isNone

/-- Lanes that a test picks, by PC in ascending order. -/
def Warp.groups (wp : Warp) (f : Lane → Bool) : List (PC × List Nat) :=
  let ls := (upTo 32).filterMap (fun l => (wp.lane? l).bind (fun la => if f la then some (la.pc, l) else none))
  let pcs := ls.foldl (fun m e => mapSet m e.1.toNat ()) ([] : NatMap Unit)
  pcs.map (fun e => (BitVec.ofNat 57 e.1, (ls.filter (fun x => x.1.toNat = e.1)).map (·.2)))

/-- The largest pass counter of some lanes. -/
def Warp.passOf (wp : Warp) (ls : List Nat) : Nat := listMax (ls.map (fun l => ((wp.lane? l).map (·.pass)).getD 0))

/-- R8: the aged group with the largest counter, else the one with the lowest PC; the list is in ascending order of PC. -/
def pickGroup {α : Type} (ctr : α → Nat) (gs : List α) : Option α :=
  match gs.filter (fun g => 64 ≤ ctr g) with
  | [] => gs.head?
  | g :: rest => some (rest.foldl (fun b g => if ctr b < ctr g then g else b) g)

/-- Registers still pending for some lanes (R46). -/
def Pend.holds (p : Pend) (lanes : Mask) (rs : RegSet) : Bool :=
  p.lanes &&& lanes ≠ 0 &&
    rs.any (fun r => if r < 256 then r ∈ p.vregs else if r < 384 then r - 256 ∈ p.sregs else r - 384 ∈ p.preds)

/-- FENCE or LEASE, by the step that a release has reached (Table 21.4). -/
def FenceOp.why (f : FenceOp) : Nat := if f.step < 4 then 8 else 9
/-- … or SLOT, where the release of an `event` is complete and the ring has no room (R314). -/
def State.fenceWhy (s : State) (f : FenceOp) : Nat :=
  if f.step = 4 && (s.warp? f.warp).all (fun wp => f.until_ ≤ s.gtimeAt (placeCore wp.core)) && s.afterBlocked f then 15 else f.why

/-- Why the fences in progress hold an instruction of some lanes (R97, R100). -/
def State.fenceHolds (s : State) (w : Nat) (m : Mask) (i : Instr) : Option Nat :=
  (s.fences.find? (fun e => e.2.warp = w && e.2.lanes &&& m ≠ 0 &&
    (if e.2.spec then !i.mayPass || 16 ≤ e.2.issued else i.afterRelease && e.2.kind ≠ .acq))).map (fun e => s.fenceWhy e.2)

/-- The launch's steering mode (R44). -/
def State.steerOf (s : State) (b : Nat) : Nat := ((s.recOfBlock b).map (·.steer)).getD 0

/-- The form in which the units of a partition take an instruction now; `none` where they cannot. The uniform unit answers
`some none` (R37, R39, R411). -/
def State.takes (s : State) (k j t : Nat) (wp : Warp) (i : Instr) (slk : BitVec 3) : Option (Option Inst) :=
  match i.runsOn with
  | (none, _) => if (s.part k j).ctrlUsed = t + 1 then none else some none
  | (some (u, f, th), _) =>
    (steer (s.steerOf wp.block) slk.toNat wp.sbias t ((s.part k j).inst { kind := u, thrifty := false })
      ((s.part k j).inst { kind := u, thrifty := true }) f th).map (fun x => some { kind := u, thrifty := x })

/-- An instruction that needs an entry which is not free: a range-lock entry (R75), or one of its context's device-launch queue
(R309). -/
def State.entryWaits (s : State) (k b : Nat) (i : Instr) : Bool :=
  match i with
  | .gath .. => (s.cluster (clusterOf k)).freeLock.isNone
  | .launch _ _ => s.viewOf b = 0 && 1024 ≤ s.launches (s.ctxIdOf b)
  | _ => false

/-- The conditions of R7 on a group, in the order of Table 21.4; the registers are looked at with `thriftyToo`, or leaving out those
of thrifty producers. -/
def State.check (s : State) (k j t w : Nat) (wp : Warp) (lanes : List Nat) (pc : PC) (thriftyToo : Bool) : Option Instr × Option Nat :=
  let m := lanesMask lanes
  match s.icacheWord k (s.asidOf wp.block) (s.viewOf wp.block) pc with
  | none => (none, some 0)
  | some x =>
    match decodeWord .vector x with
    | .error _ => (none, if (s.specFence w m).isSome then some 8 else none)
    | .ok i =>
      match i.uses with
      | none => (some i, none)
      | some (h, rd, wr) =>
        let any := lanes.any (fun l => (wp.lane? l).any (fun la => guardOf h la.pred))
        let full := match i.counter with
          | some 0 => 255 ≤ wp.ctrLd
          | some 1 => 255 ≤ wp.ctrSt
          | some 2 => 255 ≤ wp.ctrCp
          | some 3 => 255 ≤ wp.ctrTl
          | _ => false
        let waits := match i with
          | .waitc _ ld st cp tl => any && !wp.countersOk ld st cp tl
          | _ => false
        let why : Option Nat :=
          if wp.pend.any (fun p => (thriftyToo || !p.thrifty) && p.holds m (rd ++ wr ++ h.rd)) then some 1
          else if (s.takes k j t wp i h.slk).isNone then some (if s.steerOf wp.block = 2 then 3 else 2)
          else if waits || full then some 4
          else
            match s.fenceHolds w m i with
            | some x => some x
            | none =>
              if i.isMem && 8 ≤ wp.replays.length then some 11
              else if any && s.entryWaits k wp.block i then some 15
              else if i.afterAcquire && wp.acquire.any (fun e => e.1 &&& m ≠ 0) then some 99
              else none
        (some i, why)

/-- Every group of a warp that may issue but for R7. -/
def State.candsOf (s : State) (k j t w : Nat) (wp : Warp) : List ICand :=
  (wp.groups (fun la => la.free t)).map (fun e =>
    let (i, why) := s.check k j t w wp e.2 e.1 true
    { w := w, wp := wp, lanes := e.2, pc := e.1, instr := i, why := why })

/-- Warps resident on a partition, oldest first: one that has exited and owes nothing has freed its place (R229); those of a block that
is being saved issue nothing (R377). -/
def State.partWarps (s : State) (k j : Nat) : List (Nat × Warp) :=
  let ws := s.warps.filter (fun e => e.2.core = k && e.2.part = j && !s.isSaving (some e.2.block) && !s.hasLeft e.1 e.2)
  (ws.map (fun e => (e.2.age, e))).foldl (fun l e =>
    (l.filter (fun x => x.1 ≤ e.1)) ++ [e] ++ (l.filter (fun x => e.1 < x.1))) [] |>.map (·.2)

/-! ### Park points (R31, R33, R88; Table 1.7) -/

/-- The registers that an access writes. -/
def Req.dests (q : Req) : RegSet := q.dst.wr q.bits ++ (match q.kind with | .fld | .fset => prd q.pd | _ => [])

/-- Bytes that a lane's access of a record covers. -/
def Req.laneSpan (q : Req) (l : Nat) : Option (Nat × Nat) :=
  (q.accs.find? (fun a => a.lane = l || q.uni ≠ 0)).map (fun a => (a.addr, a.bytes))

/-- The address operand and width in bytes of an instruction that loads. -/
def loadSpan (i : Instr) : Option (MAddr × Nat) :=
  match i with
  | .ld _ t _ _ _ m | .waiton _ _ t _ m _ | .gath _ t _ m _ => some (m, t.bits / 8)
  | .fld _ _ _ m => some (m, 16)
  | _ => none

/-- The instruction is a park point of a faulted access for a lane whose guard is true (Table 1.7). Whether a load overlaps the access
is not known, and the load cannot issue, while a register of its address is `pending`. -/
def parkPoint (q : Req) (l : Nat) (i : Instr) (rd wr : RegSet) (r : Regs) (pending : RegSet → Bool) : Bool :=
  if q.kind.returns then
    (rd ++ wr).any (· ∈ q.dests) || i.isWrite || i.isFenceOrBarrier ||
      (loadSpan i).any (fun x => !pending x.1.rd &&
        (q.laneSpan l).any (fun e => va57 (r.addr x.1) < e.1 + e.2 && e.1 < va57 (r.addr x.1) + x.2))
  else i.isMem || i.isFenceOrBarrier

/-- Whether a lane stands at its park point: its word is fetched, its guard predicates are not pending, its guard is true. -/
def State.atParkPoint (s : State) (w : Nat) (wp : Warp) (l : Nat) (q : Req) : Bool :=
  match wp.lane? l with
  | none => false
  | some la =>
    match s.icacheWord wp.core (s.asidOf wp.block) (s.viewOf wp.block) la.pc with
    | none => false
    | some x =>
      match decodeWord .vector x with
      | .error _ => false
      | .ok i =>
        match i.uses with
        | none => false
        | some (h, rd, wr) =>
          let m := lanesMask [l]
          let g : Grp := { w := w, wp := wp, lanes := [l], pc := la.pc }
          !wp.pend.any (fun p => p.holds m h.rd) && guardOf h la.pred && parkPoint q l i (rd ++ h.rd) wr (s.laneRegs g l) (fun rs => wp.pend.any (fun p => p.holds m rs))

/-- The trap of a lane whose access has failed for a reason (R33, R88, Table 9.14): WESC for an operation that a world may not
perform, else ACCESS; `%taddr` is the first faulting address of the access. -/
def Replay.trap (rp : Replay) (reason : Nat) (resume : PC) : Trap :=
  if 256 ≤ reason then { cause := 0x05, pc := rp.req.pc, addr := some rp.faddr, info := 0, resume := resume }
  else { cause := 0x03, pc := rp.req.pc, addr := some rp.faddr, info := BitVec.ofNat 64 reason, resume := resume }

/-- A record without a lane: its other lanes and their accesses are left. -/
def Replay.without (rp : Replay) (l : Nat) : Replay :=
  let accs := rp.req.accs.filter (fun a => rp.req.uni ≠ 0 || a.lane ≠ l)
  { rp with
    req := { rp.req with accs := accs }
    lanes := rp.lanes &&& ~~~(lanesMask [l])
    waits := rp.waits.filter (fun p => accs.any (fun a => pageOf a.addr = p))
    fails := mapErase rp.fails l }

/-- A lane leaves a record: it has trapped or exited; the record goes with its last lane (R232). -/
def State.leaveReplay (s : State) (w i l : Nat) (rp : Replay) : State :=
  let m := lanesMask [l]
  let cut (x : NatMap Replay) : NatMap Replay :=
    if rp.lanes &&& ~~~m = 0 then mapErase x i else mapModify x i (fun r => r.without l)
  (s.modWarp w (fun wp => { wp with replays := cut wp.replays })).lanesDone w rp.req.group rp.req.kind m

/-- A lane that a record holds: it parks at its park point, or traps there when its access has failed. A lane that waits in its
instruction is there already. A lane that has exited leaves, but for a write, which still completes (R229). A fence that the lane has
passed speculatively is a park point behind it: the fence is undone first. -/
def State.parkLane (s : State) (w i l : Nat) : State :=
  match s.warp? w with
  | none => s
  | some wp =>
    match mapGet? wp.replays i, wp.lane? l with
    | some rp, some la =>
      let inside : Bool := match la.st with
        | .memWait g => g = rp.req.group
        | .gath _ => (match rp.req.kind with | .gath _ => true | _ => false)
        | _ => false
      let parked := la.st = .faultPark i
      let here := la.st = .runnable && la.hold = .none && s.atParkPoint w wp l rp.req
      if la.st = .exited then (if rp.req.kind.writes && (mapGet? rp.fails l).isNone then s else s.leaveReplay w i l rp)
      else
        match s.aheadOf w l with
        | some n => s.undoFence n
        | none =>
          match mapGet? rp.fails l with
          | some e =>
            if inside then (s.leaveReplay w i l rp).trapLane w l (rp.trap e (la.pc + 16))
            else if parked || here then (s.leaveReplay w i l rp).trapLane w l (rp.trap e la.pc)
            else s
          | none => if here then s.modLane w l (fun la => { la with st := .faultPark i }) else s
    | _, _ => s

/-- The park points of a warp, and lanes whose entry sequence is over (R318). -/
def State.parkWarp (s : State) (t w : Nat) : State :=
  let s := s.modWarp w (fun wp => { wp with lanes := wp.lanes.map (fun la =>
    match la.st with
    | .entry c => if c ≤ t then { la with st := .runnable } else la
    | _ => la) })
  match s.warp? w with
  | none => s
  | some wp => wp.replays.foldl (fun s e => (maskLanes e.2.lanes).foldl (fun s l => s.parkLane w e.1 l) s) s

/-! ### Slack violations (R50 to R52) -/

/-- The thrifty producers that meet the condition at `t`: they hold the consumer and have promised more (R50). -/
def meeting (ps : List Pend) (t : Nat) : List Pend := ps.filter (fun p => p.promise.any (fun x => t < x))

/-- A pending mark of an instruction, looked at later: it has not been cleared for any of some lanes. -/
def Pend.lasts (p : Pend) (ps : List Pend) (m : Mask) : Bool :=
  ps.any (fun q => q.issued = p.issued && q.pc = p.pc && q.lanes &&& m ≠ 0)

/-- Of the producers of a stall, those that complete last: one that is over while another still holds the consumer is not charged
(R50). -/
def Stall.later (x : Stall) (ps : List Pend) : Stall :=
  match x.producers.filter (fun p => p.lasts ps x.lanes) with
  | [] => x
  | rest => { x with producers := rest }

/-- The producer charged for a stall: of those that complete last, the earliest issued (R50). -/
def Stall.charged (x : Stall) : Option Pend :=
  x.producers.foldl (fun b p => match b with
    | none => some p
    | some c => if p.issued < c.issued then some p else some c) none

/-- Note the first clock on which a group is otherwise ready and stalls on a thrifty register. -/
def State.noteStalls (s : State) (k j t w : Nat) : State :=
  match s.warp? w with
  | none => s
  | some wp =>
    let wp' := (wp.groups (fun la => la.free t)).foldl (fun (wp' : Warp) e =>
      let m := lanesMask e.2
      if wp'.stalls.any (fun x => x.pc = e.1 && x.lanes &&& m ≠ 0) then wp'
      else
        match s.check k j t w wp e.2 e.1 false with
        | (some i, none) =>
          match i.uses with
          | none => wp'
          | some (h, rd, wr) =>
            match wp.pend.filter (fun p => p.thrifty && p.holds m (rd ++ wr ++ h.rd)) with
            | [] => wp'
            | ps => { wp' with stalls := wp'.stalls ++ [{ lanes := m, pc := e.1, producers := meeting ps t }] }
        | _ => wp') { wp with stalls := wp.stalls.map (fun x => x.later wp.pend) }
    s.modWarp w (fun w0 => { w0 with stalls := wp'.stalls })

/-- The group of a stall, once no register holds it any more. -/
def State.stallOver (s : State) (t : Nat) (wp : Warp) (x : Stall) : Option (List Nat) :=
  match (wp.groups (fun la => la.free t)).find? (fun e => e.1 = x.pc && lanesMask e.2 &&& x.lanes ≠ 0) with
  | none => none
  | some e =>
    match s.icacheWord wp.core (s.asidOf wp.block) (s.viewOf wp.block) x.pc with
    | none => none
    | some v =>
      match decodeWord .vector v with
      | .error _ => none
      | .ok i =>
        match i.uses with
        | none => none
        | some (h, rd, wr) =>
          if wp.pend.any (fun p => p.holds (lanesMask e.2) (rd ++ wr ++ h.rd)) then none else some e.2

/-- The SLKV trap (R52). -/
def slkvTrap (pc : PC) (p : Pend) : Trap :=
  { cause := 0x07, pc := pc, addr := none,
    info := BitVec.ofNat 64 (p.pc.toNat + p.slk.toNat * 2 ^ 57 + p.unit.cls * 2 ^ 60), resume := pc }

/-- `SLACK_VIOLATION`: the last register of a consumer that stalled is ready: the violation is counted against its producer's class,
and traps the consumer's group while SLKV is enabled, lanes in a handler apart (R51, R52, R374). Ahead of a speculative fence a trap
rolls the group back instead; the violation is counted, and traps, when the consumer is about to issue again (R101). -/
def execSlackViolation (w : Nat) (s : State) : Out :=
  .next (match s.warp? w with
  | none => s
  | some wp =>
    let t := s.clock wp.core
    match wp.stalls.find? (fun x => x.producers ≠ [] && (s.stallOver t wp x).isSome) with
    | none => s
    | some x =>
      match x.charged, s.stallOver t wp x with
      | some p, some ls =>
        let hit := if wp.tenable.getLsbD 7 then ls.filter (fun l => (wp.lane? l).any (fun la => !la.inHandler)) else []
        match hit.findSome? (s.aheadOf w) with
        | some n => s.breakSpec n
        | none =>
          let s := s.bump (offCounter wp.core (0x100 * wp.part + 0x40 + 8 * p.unit.cls)) 1
          let s := s.modWarp w (fun wp => { wp with stalls := wp.stalls.map (fun y => if y = x then { y with producers := [] } else y) })
          s.trapLanes w hit (slkvTrap x.pc p)
      | _, _ => s)

/-! ### Issuing one instruction -/

/-- The AGU operation that a memory instruction is: the clock of its L1 lookup, no earlier than that of an older one of the warp (R38,
R47), and what a thrifty one promises (R50). -/
def Warp.generate (wp : Warp) (t : Nat) (i : Instr) (slk : BitVec 3) (u : Option Inst) (start : Nat) : Warp :=
  match i.runsOn, u with
  | (some (.agu, f, th), _), some x =>
    { wp with agu :=
        { lookAt := max wp.agu.lookAt (start + (if x.thrifty then th else f)), thrifty := x.thrifty,
          promise := if x.thrifty then (slackClocks slk.toNat).map (fun n => t + f + n) else none, slk := slk } }
  | (none, f), none => { wp with agu := { lookAt := max wp.agu.lookAt (t + f), thrifty := false, promise := none, slk := slk } }
  | _, _ => wp

/-- The registers of an issued instruction become pending for its guard-true lanes (R46); memory instructions generate their addresses,
and mark theirs when they start their requests. -/
def Warp.markIssue (wp : Warp) (t : Nat) (lanes : List Nat) (pc : PC) (i : Instr) (u : Option Inst) (start : Nat) : Warp :=
  match i.uses with
  | none => wp
  | some (h, _, wr) =>
    let m := lanesMask (lanes.filter (fun l => (wp.lane? l).any (fun la => guardOf h la.pred)))
    let move := i.counter = some 3
    if i.isMem then wp.generate t i h.slk u start
    else if m = 0 || (wr = [] && !move) then wp
    else
      let (lat, thrifty, kind) : Nat × Bool × UnitKind := match i.runsOn, u with
        | (some (k, f, th), _), some x => (if x.thrifty then th else f, x.thrifty, k)
        | (_, f), _ => (f, false, .vec)
      let fast := i.runsOn.2
      { wp with pend := wp.pend ++ [
          { lanes := m, vregs := wr.filter (· < 256), sregs := (wr.filter (fun r => 256 ≤ r && r < 384)).map (· - 256),
            preds := (wr.filter (384 ≤ ·)).map (· - 384), done := some (start + lat), unit := kind, thrifty := thrifty,
            promise := if thrifty then (slackClocks h.slk.toNat).map (fun x => t + fast + x) else none,
            slk := h.slk, pc := pc, issued := t, req := none }] }

/-- The pass counters on an issue opportunity (R8), and lanes that a `yield` of the warp holds (R230). -/
def Warp.passed' (wp : Warp) (issued : List Nat) (eligible : List Nat) : Warp :=
  { wp with lanes := (upTo wp.lanes.length).filterMap (fun l => (wp.lane? l).map (fun la =>
      if l ∈ issued then { la with pass := 0 }
      else
        let la := { la with yieldUntil := none }
        if l ∈ eligible then { la with pass := min 127 (la.pass + 1) } else la)) }

/-- No yield of a SCH field holds the warp back (R189). -/
def Warp.offers (wp : Warp) (t : Nat) : Bool := !wp.schYield.any (fun y => t < y.1)

/-- The header of a candidate's instruction. -/
def ICand.hdr? (c : ICand) : Option Hdr := (c.instr.bind Instr.uses).map (·.1)

/-- A unit accepts a candidate, which occupies it and is counted, and its registers become pending; the class that it issues in. -/
def State.acceptCand (s : State) (k j t : Nat) (c : ICand) : State × Nat :=
  match c.instr.bind (fun i => (s.takes k j t c.wp i ((c.hdr?.map (·.slk)).getD 0)).map (fun u => (i, u))) with
  | none => (s, ctrlClass)
  | some (i, none) =>
    ((s.modPart k j (fun p => { p with ctrlUsed := t + 1 })).modWarp c.w (fun wp => wp.markIssue t c.lanes c.pc i none t), ctrlClass)
  | some (i, some u) =>
    let x := (s.part k j).inst u
    let s := s.modPart k j (fun p => p.setInst (x.accept t c.lanes.length))
    let s := s.bump (offCounter k (0x100 * j + (if u.thrifty then 0x20 else 0) + 8 * u.kind.cls)) 1
    (s.modWarp c.w (fun wp => wp.markIssue t c.lanes c.pc i (some u) (x.startAt t)), u.kind.cls)

/-- What the issue of a candidate leaves in the warps: its pass counters, its stalls and what its SCH field asks for; the other warps of
the partition have seen one more of those they yield to issue (R8, R189). -/
def State.issuedWarps (s : State) (k j t : Nat) (c : ICand) (all : List ICand) (cls : Nat) : State :=
  let mask := lanesMask c.lanes
  let elig := (all.filter (fun d => d.w = c.w && d.why.isNone)).flatMap (·.lanes)
  let others := (all.filter (fun d => d.w ≠ c.w && d.why.isNone && d.wp.offers t)).map (·.w)
  let flow := c.instr.any Instr.isFlow
  let sch := (c.hdr?.map (·.sch)).getD 0#2
  let yields := sch = 1 || c.instr.any (fun i => match i with | .yield _ => true | _ => false)
  let s := s.modWarp c.w (fun wp =>
    let wp := wp.passed' c.lanes elig
    let wp := if flow then wp.modLanes c.lanes (fun la => { la with readyAt := t + 3 }) else wp
    { wp with
      eligibleSince := none
      stalls := wp.stalls.filter (fun x => ¬(x.pc = c.pc ∧ x.lanes &&& mask ≠ 0))
      schYield := if yields && others ≠ [] then some (t + 16, others) else none
      schBatch := if sch = 2 then some (t + 1, cls) else none })
  { s with
    warps := s.warps.map (fun e => if e.2.core = k && e.2.part = j && e.1 ≠ c.w then
      (e.1, { e.2 with schYield := e.2.schYield.bind (fun y =>
        match y.2.filter (· ≠ c.w) with
        | [] => none
        | ws => some (y.1, ws)) }) else e) }

/-- Issue a candidate: its unit accepts it, its registers become pending, counters and histogram move, and its group runs next. -/
def State.issue (s : State) (k j t : Nat) (c : ICand) (all : List ICand) : State :=
  let mask := lanesMask c.lanes
  let x := s.ctxIdOf c.wp.block
  let (s, cls) := s.acceptCand k j t c
  let s := s.issuedWarps k j t c all cls
  let s : State := { s with
    fences := s.fences.map (fun e => if e.2.spec && e.2.warp = c.w && e.2.lanes &&& mask ≠ 0 then
      (e.1, { e.2 with issued := e.2.issued + 1 }) else e)
    cursor := s.cursor ++ [.group c.w mask] }
  let s := s.modPart k j (fun p => if p.batch.isNone then { p with batch := some (cls, t + 16) } else p)
  let s := s.touchL1i k (s.asidOf c.wp.block) (s.viewOf c.wp.block) c.pc
  s.histEvent k j 2 0 c.pc (some x)

/-! ### The choice (R8, R10, R189) -/

/-- Each warp's candidate (R8): none while a yield holds the warp (R189). -/
def State.candidates (t : Nat) (all : List ICand) (ws : List (Nat × Warp)) : List ICand :=
  ws.filterMap (fun e =>
    if !e.2.offers t then none
    else pickGroup (fun c : ICand => c.wp.passOf c.lanes) (all.filter (fun c => c.w = e.1 && c.why.isNone)))

/-- The class of a candidate. -/
def ICand.cls (c : ICand) : Nat :=
  match c.instr.map Instr.runsOn with
  | some (some (u, _, _), _) => u.cls
  | _ => ctrlClass

/-- Precedence of a candidate: starvation, a SCH batch, the class batch, the others (R10, R189). -/
def ICand.rank (c : ICand) (t : Nat) (batch : Option (Nat × Nat)) : Nat :=
  if c.wp.eligibleSince.any (fun e => e + 256 ≤ t) then 0
  else if c.wp.schBatch = some (t, c.cls) then 1
  else if batch.any (fun b => b.1 = c.cls) then 2
  else 3

/-- The first of the lowest rank; the list is in order of age. -/
def pickCand (t : Nat) (batch : Option (Nat × Nat)) (cs : List ICand) : Option ICand :=
  cs.foldl (fun b c => match b with
    | none => some c
    | some d => if c.rank t batch < d.rank t batch then some c else some d) none

/-- The candidates of some warps of a partition. -/
def State.allCands (s : State) (k j t : Nat) (ws : List (Nat × Warp)) : List ICand :=
  ws.flatMap (fun e => ((s.warp? e.1).map (fun wp => s.candsOf k j t e.1 wp)).getD [])

/-- One issue slot of a clock: the warp that issued. -/
def State.issueSlot (s : State) (k j t : Nat) (ws : List (Nat × Warp)) : State × Option Nat :=
  let ws := ws.filterMap (fun e => (s.warp? e.1).map (fun wp => (e.1, wp)))
  let all := s.allCands k j t ws
  match pickCand t (s.part k j).batch (State.candidates t all ws) with
  | none => (s, none)
  | some c => (s.issue k j t c all, some c.w)

/-! ### Charges (R394) -/

/-- A request has reached its L1 lookup and waits for a request slot (R61). -/
def State.slotWaits (s : State) (r : Nat) (q : Req) : Bool :=
  q.st = .waiting && q.lookAt ≤ s.clock q.core && q.kind.slotted && !s.olderOnLine r q && !s.olderOfLane r q &&
    (s.apertureOff q.ctx (q.line * 192)).isNone && !(q.kind.fills && q.hint ≠ 3 && ((s.l1Copy q).isSome || (s.pendingFill r q).isSome)) &&
    !s.slotFree q

/-- What keeps the memory operations of some lanes of a warp: a retry, by what holds the line, PIN, WORLD or TXC; or SLOT (R61, R84,
R103, R110). A group that waits for such an operation is charged with this before SCORE or WAITON (log entry 120). -/
def State.memWhy (s : State) (w : Nat) (m : Mask) : Option Nat :=
  let mine := s.reqs.filter (fun e => e.2.warp = some w && e.2.lanes &&& m ≠ 0)
  let told := mine.filter (fun e => e.2.st = .retry)
  let held (f : Who → HLine → Bool) : Bool := told.any (fun e =>
    (s.slice (s.homeOf e.2.ctx e.2.page)).lines.any (fun h => h.line = e.2.line && f e.2.who h))
  if held (fun p h => h.pinnedFrom p) then some 10
  else if held (fun _ h => h.lockView.isSome) then some 13
  else if told ≠ [] then some 14
  else if mine.any (fun e => s.slotWaits e.1 e.2) then some 15
  else none

/-- A line that a commit is to lock is pinned outside it (R103, R109). -/
def State.commitOnPin (s : State) (c : Nat) : Bool :=
  (mapGet? s.commits c).any (fun cm => (s.warp? cm.warp).any (fun wp =>
    !cm.installed && s.commitPinned (s.whoCommit c wp) (commitPieces (s.committing c cm))))

/-- Why a lane is held at `cpy` or `cpyt`: its lasts, its release, or an entry or a slot (R284, R285). -/
def State.copyWhy (s : State) (w l : Nat) : Nat :=
  match s.copies.find? (fun e => e.2.warp = some w && e.2.lane = l && e.2.atIssue) with
  | some (_, op) =>
    if op.st = .lasts then 1
    else (op.rel.bind (fun f => (mapGet? s.fences f).map s.fenceWhy)).getD 15
  | none => 15

/-- The row of Table 21.4 of a lane that is not runnable, or is held. -/
def State.laneWhy (s : State) (w l : Nat) (la : Lane) : Nat :=
  match la.st, la.hold with
  | .tagWait _ _, _ => 5
  | .bar, _ | .boundary, _ | .barw _ _, _ => 6
  | .rejoin _, _ => 7
  | .faultPark _, _ | .fetchPark _, _ | .entry _, _ => 11
  | .memWait _, _ => (s.memWhy w (lanesMask [l])).getD 12
  | .gath _, _ => (s.memWhy w (lanesMask [l])).getD 1
  | .exited, _ => 16
  | .runnable, .fence f => ((mapGet? s.fences f).map s.fenceWhy).getD 8
  | .runnable, .choose _ => 13
  | .runnable, .commit c => if s.commitOnPin c then 10 else 14
  | .runnable, .engine => s.copyWhy w l
  | .runnable, .none => 99

/-- The stall reason of a warp and the PC that it is charged to (R394): that of the runnable group that R8 would choose, else of the
first lane that has not exited, else that of its draining. -/
def State.stallOf (s : State) (k j t w : Nat) (wp : Warp) : Nat × PC :=
  match pickGroup (fun e : PC × List Nat => wp.passOf e.2) (wp.groups (fun la => la.st = .runnable)) with
  | some (pc, ls) =>
    match ls.find? (fun l => (wp.lane? l).any (fun la => la.hold ≠ .none)) with
    | some l => (((wp.lane? l).map (s.laneWhy w l)).getD 99, pc)
    | none =>
      match (s.check k j t w wp ls pc true).2 with
      | some 1 => ((s.memWhy w (lanesMask ls)).getD 1, pc)
      | some 99 => ((s.memWhy w (lanesMask ls)).getD 99, pc)
      | some x => (x, pc)
      | none => (99, pc)
  | none =>
    match wp.live with
    | l :: _ => (((wp.lane? l).map (s.laneWhy w l)).getD 99, ((wp.lane? l).map (·.pc)).getD 0)
    | [] => (16, ((wp.lanes.head?).map (·.pc)).getD 0)

/-- Charge a clock of a partition (R394, R396). -/
def State.charge (s : State) (k j t : Nat) (ws : List (Nat × Warp)) (elig : List ICand) : State :=
  let mine := elig.filter (fun c => s.histCtx.isNone || s.histCtx = some (s.ctxIdOf c.wp.block))
  let s := s.histEvent k j 1 mine.length 0 none
  match ws with
  | [] => s
  | (w, wp) :: _ =>
    if 2 ≤ elig.length then s.bump (offCounter k (0x100 * j + 0x70)) 1
    else if elig ≠ [] then s
    else
      let (why, pc) := s.stallOf k j t w wp
      if why = 99 then s
      else (s.bump (offCounter k (0x100 * j + 0x78 + 8 * why)) 1).histEvent k j 0 why pc (some (s.ctxIdOf wp.block))

/-- Warps note since when their candidates are eligible (R10). -/
def State.noteEligible (s : State) (t : Nat) (ws : List (Nat × Warp)) (elig : List ICand) : State :=
  ws.foldl (fun s e => s.modWarp e.1 (fun wp =>
    { wp with eligibleSince := if elig.any (fun c => c.w = e.1) then some (wp.eligibleSince.getD t) else none })) s

/-- `ISSUE_SELECT`: on each clock of its core a partition parks the lanes that stand at their park points, notes stalls, charges the
clock and issues up to two instructions from two warps (R5 to R10). -/
def execIssueSelect (k j : Nat) (s : State) : Out :=
  .next (
    let t := s.clock k
    let s := (s.partWarps k j).foldl (fun s e => (s.parkWarp t e.1).noteStalls k j t e.1) s
    let ws := s.partWarps k j
    let all := s.allCands k j t ws
    let elig := State.candidates t all ws
    let s := s.charge k j t ws elig
    let s := s.modPart k j (fun p =>
      { p with batch := p.batch.bind (fun b => if t < b.2 && elig.any (fun c => c.cls = b.1) then some b else none) })
    let s := s.noteEligible t ws elig
    match s.issueSlot k j t ws with
    | (s, none) => s
    | (s, some w) => (s.issueSlot k j t (ws.filter (fun e => e.1 ≠ w))).1)

/-- `CLASS_BATCH_CLOSE`: a class batch closes after its 16 clocks (R10). -/
def execClassBatchClose (k j : Nat) (s : State) : Out :=
  .next (s.modPart k j (fun p => { p with batch := p.batch.bind (fun b => if b.2 ≤ s.clock k then none else some b) }))

/-- `YIELD_EXPIRY`: lanes that yielded are eligible again after 16 clocks (R230). -/
def execYieldExpiry (w : Nat) (s : State) : Out :=
  .next (s.modWarp w (fun wp => { wp with lanes := wp.lanes.map (fun la =>
    if la.yieldUntil.any (fun c => c ≤ s.clock wp.core) then { la with yieldUntil := none } else la) }))

/-- `INSTANCE_START`: a queued instruction starts on its fast or thrifty unit (R37). -/
def execInstanceStart (k j : Nat) (u : Inst) (s : State) : Out :=
  .next (s.modPart k j (fun p =>
    let x := p.inst u
    match x.queue with
    | [] => p
    | e :: rest => if e.1 ≤ s.clock k then p.setInst { x with queue := rest, busyUntil := e.1 + e.2 } else p))

/-- `UNIT_GATE`: a unit idle for 32 clocks is gated (R390). -/
def execUnitGate (k j : Nat) (u : Inst) (s : State) : Out :=
  .next (s.modPart k j (fun p =>
    let x := p.inst u
    if x.asleep (s.clock k) then p.setInst { x with gated := true } else p))

/-- `UNIT_WAKE`: a gated unit finishes its wake of 8 clocks (R390). -/
def execUnitWake (k j : Nat) (u : Inst) (s : State) : Out :=
  .next (s.modPart k j (fun p =>
    let x := p.inst u
    if x.wakeAt.any (fun c => c ≤ s.clock k) then p.setInst { x with gated := false, wakeAt := none } else p))

/-- A register that is pending no longer at a clock. -/
def Pend.over (p : Pend) (t : Nat) : Bool := p.done.any (fun c => c ≤ t)

/-- `RESULT_WRITE`: results whose time has come clear their marks; a tile move leaves the counter tl (R38, R46, R308). -/
def execResultWrite (w : Nat) (s : State) : Out :=
  .next (s.modWarp w (fun wp =>
    let t := s.clock wp.core
    let moves := (wp.pend.filter (fun p => p.over t && p.unit = .agu)).length
    { wp with pend := wp.pend.filter (fun p => !p.over t), ctrTl := wp.ctrTl - moves }))

end Sys2Proof.Machine
end

