-- ==== Sys2Proof/Machine/SaveArea.lean ====
section
/-! DEFINITION. The save area: its header, block records, warp records, sequencer records and copy records as bytes (R380, Tables
20.4 to 20.7). -/

namespace Sys2Proof.Machine

/-- Bytes followed by zeros up to a length. -/
def padTo (n : Nat) (bs : List (BitVec 8)) : List (BitVec 8) := bs ++ List.replicate (n - bs.length) 0

/-! ### Tags, barriers, lanes (Tables 20.5 and 20.6) -/

/-- A tag as saved: count, ready, failed. -/
def Tag.word (t : Tag) : Nat := t.count % 2 ^ 40 + (if t.ready then 2 ^ 40 else 0) + (if t.failed.isSome then 2 ^ 41 else 0)
/-- A numbered barrier as saved: E, A, P, X, broken. -/
def NBar.word (b : NBar) : Nat :=
  b.e % 2 ^ 15 + b.a % 2 ^ 15 * 2 ^ 15 + (if b.p then 2 ^ 30 else 0) + (if b.x then 2 ^ 31 else 0) + (if b.broken then 2 ^ 32 else 0)

/-- State and detail of a lane as saved; `bar` takes detail 32, and a lane at `pbar` or `forkw` is saved runnable at its word. -/
def Lane.saved (la : Lane) (gbar : Bool) : Nat × Nat :=
  match la.st with
  | .exited => (1, 0)
  | .rejoin n => (2, n)
  | .faultPark i => (3, i)
  | .fetchPark _ => (4, 0)
  | .bar => (5, 32)
  | .barw n _ => (5, n)
  | .tagWait _ _ => (6, 0)
  | .boundary => if gbar then (7, 0) else (0, 0)
  | .runnable | .memWait _ | .gath _ | .entry _ => (0, 0)

/-- A lane as saved, 64 bytes. -/
def Lane.bytes (la : Lane) (clock : Nat) (gbar : Bool) : List (BitVec 8) :=
  let (st, detail) := la.saved gbar
  natBytes 8 la.pc.toNat ++ natBytes 8 la.resume.toNat ++ natBytes 8 la.tpc.toNat ++ natBytes 8 la.taddr.toNat ++ natBytes 8 la.tinfo.toNat ++
    natBytes 4 la.tcause.toNat ++ natBytes 4 la.txstat.toNat ++ natBytes 4 (min 16 ((la.yieldUntil.getD 0) - clock)) ++ natBytes 1 st ++
    natBytes 1 detail ++ natBytes 1 la.pass ++ natBytes 1 la.preds.toNat ++ natBytes 1 (if la.inHandler then 1 else 0) ++ natBytes 7 0

/-- The kind of a saved access: load, without return, with return. -/
def AccKindM.saved (k : AccKindM) : Nat :=
  match k with
  | .load _ | .gath _ => 0
  | .atom _ _ true | .fset => 2
  | _ => 1

/-- A replay record as saved, 960 bytes. -/
def Replay.bytes (r : Replay) : List (BitVec 8) :=
  let acc (l : Nat) : Option Acc := r.req.accs.find? (fun a => a.lane = l || r.req.uni.getLsbD l)
  padTo 960 (padTo 64 (natBytes 16 r.req.word.toNat ++ natBytes 8 r.req.pc.toNat ++ natBytes 4 r.lanes.toNat ++ natBytes 1 r.req.kind.saved) ++
    (upTo 32).flatMap (fun l => natBytes 8 (((acc l).map (fun a => (BitVec.ofNat 57 a.addr).signExtend 64)).getD 0 : DWord).toNat) ++
    (upTo 32).flatMap (fun l => natBytes 16 (((acc l).map (fun (a : Acc) => a.data)).getD 0).toNat))

/-! ### Warps (Table 20.6) -/

/-- Bytes of the registers of a warp of `n` registers a lane. -/
def regBytes (n : Nat) : Nat := 192 * ((2 * n + 2) / 3)

/-- A warp as saved. `lanesAt nb` are its lanes that have arrived at a numbered barrier of its core, `gbars` those at `gbar`. -/
def Warp.bytes (wp : Warp) (n clock : Nat) (lanesAt : Nat → Mask) (gbars : Mask) : List (BitVec 8) :=
  let lane (l : Nat) : Lane := (wp.lane? l).getD (Lane.start false 0)
  (upTo 8).flatMap (fun i => natBytes 4 (wp.mask i).toNat) ++ natBytes 4 (BitVec.ofInt 32 wp.sbias).toNat ++ natBytes 4 wp.tenable.toNat ++
    natBytes 1 ((upTo 8).map (fun i => if (mapGet? wp.replays i).isSome then 2 ^ i else 0)).sum ++ natBytes 1 wp.ctrLd ++
    natBytes 1 wp.ctrSt ++ natBytes 1 wp.ctrCp ++ natBytes 1 wp.ctrTl ++ natBytes 3 0 ++ natBytes 4 (lanesMask wp.live).toNat ++ natBytes 12 0 ++
    (upTo 32).flatMap (fun b => natBytes 4 (lanesAt b).toNat) ++
    (upTo 32).flatMap (fun l => (lane l).bytes clock (gbars.getLsbD l)) ++ natBytes 64 0 ++
    (upTo 8).flatMap (fun i => ((mapGet? wp.replays i).map Replay.bytes).getD (natBytes 960 0)) ++
    padTo 576 ((upTo 128).flatMap (fun i => natBytes 4 (wp.sreg i).toNat)) ++
    padTo (regBytes n) ((upTo n).flatMap (fun r => (upTo 32).flatMap (fun l => natBytes 4 ((lane l).reg r).toNat)))

/-! ### Sequencers (Table 20.7) -/

/-- The captured values of a queued tile instruction, as q registers: a pair is two of them. -/
def TileOp.words (o : TileOp) : List Nat :=
  match o.instr, o.vals with
  | .tld _ _ _ _, a :: rest => a.toNat % 2 ^ 32 :: a.toNat / 2 ^ 32 :: rest.map (·.toNat)
  | .tdrain _ _ _ _ _ _ _ _ _ _, tag :: a :: rest => tag.toNat :: a.toNat % 2 ^ 32 :: a.toNat / 2 ^ 32 :: rest.map (·.toNat)
  | _, vs => vs.map (·.toNat)
/-- The captured values again. -/
def wordVals (i : Instr) (ws : List Nat) : List DWord :=
  let w (n : Nat) : DWord := BitVec.ofNat 64 (ws.getD n 0)
  let pair (n : Nat) : DWord := BitVec.ofNat 64 (ws.getD n 0 + 2 ^ 32 * ws.getD (n + 1) 0)
  match i with
  | .tld _ _ _ _ => pair 0 :: (upTo 5).map (fun n => w (n + 2))
  | .tdrain _ _ _ _ _ _ _ _ _ _ => w 0 :: pair 1 :: (upTo 5).map (fun n => w (n + 3))
  | _ => (upTo 8).map w

/-- A queue entry as saved, 48 bytes. -/
def TileOp.bytes (o : TileOp) : List (BitVec 8) :=
  padTo 48 (natBytes 16 ((encode o.instr).getD 0).toNat ++ (o.words.take 8).flatMap (natBytes 4 ·))

/-- State of a sequencer as saved; one at `pbar` is saved running at its word. -/
def SeqSt.saved (x : SeqSt) : Nat :=
  match x with
  | .running | .pbar => 0
  | .faultPark _ => 1
  | .barw _ _ => 2
  | .tagWait _ _ => 3
  | .stopped => 4
  | .exited => 5

/-- … of a sequencer: one whose tile instruction waits for a page is saved as parked on a fault. -/
def Tenant.saved (te : Tenant) : Nat := if te.st = .running && te.parked then 1 else te.st.saved

/-- A tenant fault record (Table 20.2). -/
def TFault.bytes (f : TFault) : List (BitVec 8) :=
  natBytes 1 f.cause ++ natBytes 1 f.reason ++ natBytes 1 f.rank ++ natBytes 5 0 ++ natBytes 8 f.spc.toNat ++ natBytes 8 f.addr.toNat ++
    natBytes 8 f.postmark
def TFault.ofBytes (bs : List (BitVec 8)) : TFault :=
  { cause := field bs 0 1, reason := field bs 1 1, rank := field bs 2 1, spc := BitVec.ofNat 64 (field bs 8 8),
    addr := BitVec.ofNat 64 (field bs 16 8), postmark := field bs 24 8 }

/-- Control registers and decomposition state of a tile as saved, 32 bytes. -/
def Tenant.tileBytes (te : Tenant) (t : Nat) : List (BitVec 8) :=
  natBytes 4 (mapGetD te.tslot t 0).toNat ++ natBytes 4 (mapGetD te.trows t 0).toNat ++ natBytes 4 (mapGetD te.tcols t 0).toNat ++
    padTo 20 (match mapGet? te.decomp t with
      | none => []
      | some d => natBytes 1 1 ++ natBytes 1 d.pat.code.toNat ++ natBytes 1 d.terms ++ natBytes 1 d.tu ++ natBytes 1 d.status ++
          natBytes 2 (min 65535 d.offcuts.length) ++ natBytes 4 d.l.toNat ++ natBytes 4 d.s.toNat)

/-- A sequencer as saved, 66,624 bytes. `arrived` are the numbered barriers of its core that it has arrived at. An instruction that
was abandoned in the operand loader stands in front of a full queue: the ninth entry is kept in the last 48 bytes of the first line. -/
def Tenant.bytes (te : Tenant) (t : Nat) (arrived : Word) : List (BitVec 8) :=
  padTo 192 (padTo 144 (padTo 32 (natBytes 8 te.pc.toNat ++ natBytes 1 te.qp.toNat ++ natBytes 1 te.saved ++ natBytes 1 te.queue.length ++
      natBytes 4 arrived.toNat ++ natBytes 1 0 ++ natBytes 2 (0x3000 + 2 * te.core + t % 2)) ++
      ((te.fault.map TFault.bytes).getD (natBytes 32 0))) ++ ((te.queue[8]?).map TileOp.bytes).getD []) ++
    padTo 192 ((upTo 32).flatMap (fun i => natBytes 4 (te.qreg i).toNat)) ++
    padTo 384 ((te.queue.take 8).flatMap TileOp.bytes) ++
    (upTo 256).flatMap (fun i => natBytes 192 (mapGetD te.tiles i 0).toNat) ++
    (upTo 4096).flatMap (fun i => natBytes 4 (mapGetD te.acc i 0).toNat) ++
    (upTo 8).flatMap te.tileBytes ++ natBytes 64 0

/-! ### Copies and blocks (Table 20.5) -/

/-- Bytes of an operation that are delivered. -/
def CopyOp.doneBytes (c : CopyOp) : Nat := c.total - (c.pieces.map (·.len)).sum

/-- The captured operands of a drain. -/
def drainWords (i : Instr) (vs : List DWord) : List (BitVec 8) :=
  ({ instr := i, pc := 0, vals := vs, doneClock := 0, last := 0, locks := [], paused := none : TileOp }).words.flatMap (natBytes 4 ·)

/-- The captured operands of an operation, up to 32 bytes. -/
def CopyOp.argBytes (c : CopyOp) : List (BitVec 8) :=
  let wide : Nat := match c.kind with
    | .drain => 0
    | _ => 2
  let bs : List (BitVec 8) := match c.kind with
    | .drain => (c.instr.map (fun i => drainWords i c.args)).getD []
    | _ => ((upTo c.args.length).zip c.args).flatMap (fun e => natBytes (if e.1 < wide then 8 else 4) e.2.toNat)
  padTo 32 (bs.take 32)

/-- A copy record: 192 bytes, 8,448 for a drain. -/
def CopyOp.bytes (c : CopyOp) : List (BitVec 8) :=
  let kind := match c.kind with
    | .cpyt => 1
    | .drain => 2
    | _ => 0
  let head := padTo 192 (padTo 16 (natBytes 1 kind ++ natBytes 1 c.rank ++ natBytes 1 (c.tag.getD 0) ++ natBytes 1 c.scope.code.toNat ++
      natBytes 1 (if c.warp.isSome then c.lane else 0xFF)) ++
    natBytes 16 ((c.instr.bind encode).getD 0).toNat ++ c.argBytes ++ natBytes 8 c.doneBytes ++ natBytes 8 c.total)
  if kind = 2 then padTo 8448 (head ++ (upTo 2048).flatMap (fun i => natBytes 4 (mapGetD c.snap i 0).toNat)) else head

/-- The fixed part of a block record, 192 bytes; a block that stands on no cores has nothing else. -/
def blockHeader (size addr : Nat) (wid : DWord) (queue seq cores warps flags view depth world ncopy scratch : Nat) : List (BitVec 8) :=
  padTo 192 (natBytes 4 size ++ natBytes 8 (((BitVec.ofNat 57 addr).signExtend 64 : DWord)).toNat ++ natBytes 8 wid.toNat ++ natBytes 2 queue ++
    natBytes 4 seq ++ natBytes 1 cores ++ natBytes 2 warps ++ natBytes 1 flags ++ natBytes 1 view ++ natBytes 1 depth ++ natBytes 1 world ++
    natBytes 2 ncopy ++ natBytes 4 scratch)

/-- FLAGS of a block record. -/
def Block.flags (bl : Block) (stream : Nat) : Nat :=
  (if stream ≠ 0 then 1 else 0) + (if bl.parent.isSome then 2 else 0) + (if bl.judging then 4 else 0) +
    (if bl.st = .forked then 8 else 0) + (if bl.broken.isSome then 16 else 0)

/-- Operations of the engines that belong to a block and have not delivered their last byte. -/
def State.blockCopies (s : State) (b : Nat) : List (Nat × CopyOp) :=
  s.copies.filter (fun e => e.2.block = some b && e.2.st ≠ .closed)

/-- What a block record holds after its header. -/
def State.blockBody (s : State) (b : Nat) (bl : Block) (r : LaunchRec) : List (BitVec 8) :=
  let arrivedAt (rank nb : Nat) (party : Nat) : Bool := (mapGet? bl.nbars (nbarKey rank nb)).any (fun x => party ∈ x.arrived)
  let gbar (w l : Nat) : Bool := bl.arrivals.any (fun a => a.warp = w && a.lane = l && a.kind = .gbar)
  (upTo r.ncores).flatMap (fun k =>
    (upTo 64).flatMap (fun n => natBytes 8 ((mapGet? bl.tags (tagKey k n)).getD Tag.zero).word) ++
      (upTo 32).flatMap (fun n => natBytes 8 (((mapGet? bl.nbars (nbarKey k n)).map NBar.word).getD 0))) ++
    bl.warps.flatMap (fun w => match s.warp? w with
      | none => []
      | some wp => wp.bytes r.regs (s.clock wp.core)
          (fun nb => lanesMask ((upTo 32).filter (fun l => arrivedAt wp.rank nb (partyLane wp.index l))))
          (lanesMask ((upTo 32).filter (gbar w)))) ++
    bl.tenants.flatMap (fun t => match s.tenant? t with
      | none => []
      | some te => te.bytes t (lanesMask ((upTo 32).filter (fun nb => arrivedAt te.rank nb (partySeq te.rank))))) ++
    (s.blockCopies b).flatMap (fun e => e.2.bytes) ++
    (upTo (windowSize r.scratch)).map (fun i => s.windowByte bl.cluster bl.scratchOff i)

/-- A block record: of a block on cores the whole of it, of one that firmware has pre-empted the record it keeps, of another its header
(R350, R380). -/
def State.blockRecord (s : State) (b : Nat) (bl : Block) (g : Grid) : List (BitVec 8) :=
  let r := g.lrec
  let flags := bl.flags r.stream
  if bl.st = .resident then
    let body := s.blockBody b bl r
    blockHeader (192 + body.length) g.recAddr bl.wid g.queue g.seq r.ncores bl.warps.length flags bl.view bl.depth bl.world
      (s.blockCopies b).length (windowSize r.scratch) ++ body
  else if bl.kept.isSome then bl.kept.getD []
  else blockHeader 192 g.recAddr bl.wid g.queue g.seq 0 0 flags bl.view bl.depth bl.world 0 0

/-- Blocks of a grid that have not been placed, by `%wid`, in curve order; `n` bounds how many curve indices are looked at. -/
def Grid.unplaced (g : Grid) : Nat → Nat → List Nat
  | 0, _ => []
  | n + 1, x =>
    match g.lrec.nextOffer (n + 1) x with
    | none => []
    | some y =>
      let wids := g.lrec.gangOf (g.lrec.widAt y)
      (if (wids.map g.lrec.curveIndex).any (· < y) then [] else wids) ++ g.unplaced n (y + 1)

/-- Headers of the blocks of a grid that have not been placed. -/
def Grid.unplacedRecords (g : Grid) : List (List (BitVec 8)) :=
  (g.unplaced (2 ^ g.lrec.curveBits) g.next).map (fun w =>
    blockHeader 192 g.recAddr (BitVec.ofNat 64 w) g.queue g.seq 0 0 (if g.lrec.stream ≠ 0 then 1 else 0) 0 0 0 0 0)

/-- The header of a save area (Table 20.4). -/
def areaHeader (mode ctx nblk used needed postmark : Nat) : List (BitVec 8) :=
  padTo 192 (natBytes 4 0x4B395356 ++ natBytes 1 1 ++ natBytes 1 mode ++ natBytes 2 ctx ++ natBytes 4 nblk ++ natBytes 8 used ++
    natBytes 8 needed ++ natBytes 8 postmark)

end Sys2Proof.Machine
end

