-- ==== Sys2Proof/Machine/Preempt.lean ====
section
/-! DEFINITION. Pre-emption: bringing a block to a state that can be saved, saving and restoring, and blocks that are descheduled
while they wait (R29, R34, R81, R83, R101, R323, R350, R377 to R381, Table 20.3). -/

namespace Sys2Proof.Machine

/-! ### Bringing a block to a state that can be saved (R377, steps 1 and 2; Table 20.3) -/

/-- A wait, a held future or a FIFO operation is withdrawn: lanes that a FIFO has served go on after the instruction, the others stand
at it and issue it again. -/
def State.withdrawReq (s : State) (w r : Nat) (q : Req) : State :=
  let served := q.accs.filter (fun a => a.pred && (match q.kind with | .load _ | .store => true | _ => false))
  let s := if q.kind.returns then served.foldl (fun s a => s.deliver w q a) s else s
  let after := lanesMask (served.map (·.lane)) ||| (if served = [] then 0 else q.uni)
  let s := s.modLanes w (maskLanes q.lanes) (fun la =>
    if la.st = .memWait q.group then { la with st := .runnable } else la)
  let s := s.modLanes w (maskLanes after) Lane.step
  (s.dropHeld [r]).lanesDone w q.group q.kind q.lanes

/-- Lanes of a request wait inside its instruction. -/
def State.waitsIn (s : State) (w : Nat) (q : Req) : Bool :=
  (maskLanes q.lanes).any (fun l => (s.lane? w l).any (fun la => la.st = .memWait q.group))

/-- The waits of a warp that have not been answered are withdrawn, those that have faulted among them. -/
def State.withdrawWaits (s : State) (w : Nat) : State :=
  let s := (s.reqs.filter (fun e => e.2.warp = some w &&
      (match e.2.st with | .waiting | .sent | .held | .retry => true | _ => false) && s.waitsIn w e.2)).foldl
    (fun s e => s.withdrawReq w e.1 e.2) s
  (((s.warp? w).map (·.replays)).getD []).foldl (fun s e =>
    if !e.2.replaying && s.waitsIn w e.2.req then
      ((s.modLanes w (maskLanes e.2.lanes) (fun la => if la.st = .memWait e.2.req.group then { la with st := .runnable } else la)).modWarp w
        (fun wp => { wp with replays := mapErase wp.replays e.1 })).lanesDone w e.2.req.group e.2.req.kind e.2.lanes
    else s) s

/-- Gathers of a warp whose accesses have all returned: lanes whose data is there are released; one whose access has faulted goes on
after the instruction and parks at its record, now a load. -/
def State.endGathers (s : State) (w : Nat) : State :=
  (s.gathers.filter (fun e => e.2.warp = w && !s.reqs.any (fun r => r.2.warp = some w && r.2.group = e.2.group))).foldl (fun s e =>
    let ga := { e.2 with lanes := s.gatherStill e.1 e.2 }
    let s := s.gatherRelease e.1 ga (ga.lanes &&& ga.arrived)
    match mapGet? s.gathers e.1 with
    | none => s
    | some _ =>
      let s := match ga.lock with
        | some (c, i) => s.modCluster c (fun cl => { cl with locks := mapErase cl.locks i })
        | none => s
      let s : State := { s with gathers := mapErase s.gathers e.1 }
      s.modWarp w (fun wp =>
        let wp := { wp with replays := wp.replays.map (fun (r : Nat × Replay) =>
          if r.2.req.group = ga.group then (r.1, { r.2 with req := { r.2.req with kind := .load false } }) else r) }
        wp.replays.foldl (fun (wp : Warp) (r : Nat × Replay) =>
          if r.2.req.group = ga.group then
            wp.modLanes (maskLanes r.2.lanes) (fun la =>
              if la.st = .gath e.1 then { la with st := .faultPark r.1, pc := la.pc + 16 } else la)
          else wp) wp)) s

/-- A fence or barrier whose lanes are held: they stand at it, and it is issued again. -/
def FenceOp.reissued (f : FenceOp) : Bool :=
  match f.after with
  | .step | .bara _ _ | .bar => !f.spec
  | _ => false

/-- The fences of a warp: speculative ones roll back (R101), those that hold lanes are given up. -/
def State.endFences (s : State) (w : Nat) : State :=
  (s.fences.filter (fun e => e.2.warp = w)).foldl (fun s e =>
    if e.2.spec then
      (match mapGet? s.fences e.1 with
      | some f => (s.startFenced e.1).rollback f
      | none => s)
    else if e.2.reissued then
      ({ s with fences := mapErase s.fences e.1 } : State).modLanes w (s.heldBy e.1 e.2) (fun la => { la with hold := .none })
    else s) s

/-- The lanes of a warp: trap entries are completed, transactions abort with cause 0x09 (R83). -/
def State.endLanes (s : State) (w : Nat) : State :=
  let t := ((s.warp? w).map (fun wp => s.clock wp.core)).getD 0
  let s := s.modWarp w (fun wp => { wp with lanes := wp.lanes.map (fun la =>
    match la.st with
    | .entry c => if c ≤ t then { la with st := .runnable } else la
    | _ => la) })
  s.abortLanes w (upTo 32) 0x09 0

/-- The lane of a copy at issue, at its instruction again; a replay record of its lasts goes. -/
def State.backToCopy (s : State) (op : CopyOp) (w : Nat) : State :=
  (s.modWarp w (fun wp => { wp with replays := wp.replays.filter (fun e => e.2.req.group ≠ op.group) })).modLane w op.lane (fun la =>
    if la.hold = .engine then
      { la with hold := .none, st := (match la.st with | .faultPark _ => .runnable | st => st) }
    else la)

/-- Copies at issue: one whose instruction has armed the tag is in progress, with no byte delivered; the others are given up, and
their lanes stand at the instruction. -/
def State.endIssue (s : State) (b : Nat) : State :=
  (s.copies.filter (fun e => e.2.block = some b && e.2.atIssue)).foldl (fun s e =>
    match e.2.warp with
    | none => s
    | some w =>
      if e.2.armed then
        (if e.2.st = .checks && e.2.paused.isNone then s
        else if e.2.total = 0 then (s.copyLaneGoes e.2).dropCopy e.1 e.2
        else (s.copyLaneGoes e.2).modCopy e.1 (fun op => { op with st := .active, rel := none }))
      else (s.dropCopy e.1 e.2).backToCopy e.2 w) s

/-- A tile load in progress goes back to the head of its queue. -/
def State.endLoads (s : State) (t : Nat) : State :=
  match s.tenant? t with
  | none => s
  | some te =>
    let ls := te.running.filter (fun o => usesLoader o.instr)
    (ls.foldl (fun s o => s.dropLocks (clusterOf te.core) o.locks) s).modTenant t (fun te =>
      { te with queue := ls.map (fun o => { o with locks := [], paused := none }) ++ te.queue, running := te.running.filter (fun o => !usesLoader o.instr) })

/-- A block is brought as near to a state that can be saved as it comes now. -/
def State.quiesce (s : State) (b : Nat) : State :=
  match s.block? b with
  | none => s
  | some bl =>
    let s := bl.warps.foldl (fun s w => ((((s.endFences w).endLanes w).withdrawWaits w).endGathers w)) s
    bl.tenants.foldl (fun s t => s.endLoads t) (s.endIssue b)

/-- A warp can be saved: nothing of it is in flight, and every lane is in a state of Table 20.6. -/
def Warp.savable (wp : Warp) : Bool :=
  wp.lanes.all (fun la => la.hold = .none && (match la.st with | .entry _ | .memWait _ | .gath _ => false | _ => true)) &&
    wp.replays.all (fun r => !r.2.replaying) &&
    wp.pend.all (fun p => p.req.any (fun g => wp.replays.any (fun r => r.2.req.group = g)))

/-- A sequencer can be saved: the array is free, and its q registers are loaded. -/
def Tenant.savable (te : Tenant) : Bool := te.running.isEmpty && !(te.argsLeft && te.st = .running)

/-- A block can be saved: its lanes and sequencers can, its operations of engines are paused, and nothing else of it is in flight. -/
def State.savable (s : State) (b : Nat) (bl : Block) : Bool :=
  !s.reqs.any (fun e => e.2.block = some b && e.2.kind ≠ .ifetch) && !s.fences.any (fun e => e.2.warp ∈ bl.warps) &&
    !s.gathers.any (fun e => e.2.warp ∈ bl.warps) && !s.commits.any (fun e => e.2.warp ∈ bl.warps) &&
    s.copies.all (fun e => e.2.block ≠ some b ||
      ((e.2.st = .active || (e.2.st = .checks && e.2.tenant.isSome && e.2.paused.isSome)) && e.2.counting.isEmpty && e.2.rel.isNone)) &&
    bl.warps.all (fun w => (s.warp? w).all Warp.savable && !s.owesOut w) && bl.tenants.all (fun t => (s.tenant? t).all Tenant.savable)

/-- Step 4 as well is over: the `.dv` release of every warp (R104). -/
def State.saveReady (s : State) (b : Nat) : State × Bool :=
  match s.block? b with
  | none => (s, true)
  | some bl => if bl.st ≠ .resident then (s, true) else if s.savable b bl then s.blockReleased bl else (s, false)

/-! ### Writing (R379, R380) -/

/-- Write bytes from an address on, 16 at a time: the tick at which they are performed at `.sy`, or what stopped them, with its address. -/
def State.engWriteList (p : Who) : State → Nat → List (List (BitVec 8)) → State × EngR Nat × Nat
  | s, a, [] => (s, .ok 0, a)
  | s, a, x :: rest =>
    match s.engWrite p none a 16 (bytesNat x) none true with
    | (s, .ok (t, tsy)) =>
      (match State.engWriteList p s (a + 16) rest with
      | (s, .ok n, b) => (s, .ok (max n (max t.tdv tsy)), b)
      | r => r)
    | (s, .retry) => (s, .retry, a)
    | (s, .full) => (s, .full, a)
    | (s, .fault r) => (s, .fault r, a)
    | (s, .error e) => (s, .error e, a)

/-- Bytes in pieces of 16; `n` bounds their number. -/
def chunks16 : Nat → List (BitVec 8) → List (List (BitVec 8))
  | 0, _ => []
  | n + 1, bs => bs.take 16 :: chunks16 n (bs.drop 16)

/-- Command firmware writes bytes into the memory of a context. -/
def State.saveBytes (s : State) (x a : Nat) (bs : List (BitVec 8)) : State × EngR Nat × Nat :=
  State.engWriteList (s.whoFirmware x) s (a % 2 ^ 57) (chunks16 (bs.length / 16) bs)

/-- A block that has been saved gives up its cores; what its record does not hold stays with it: the operations of engines, by the
place of their warp or tenant in the block, and the details of tags and barriers. -/
def State.saveBlock (s : State) (b : Nat) (st : BlockSt) : State :=
  match s.block? b with
  | none => s
  | some bl =>
    if bl.st ≠ .resident then
      s.modBlock b (fun bl => if bl.kept.isSome then { bl with st := st, saving := false, kept := none } else { bl with saving := false })
    else
      let unread := (bl.tenants.filterMap s.tenant?).filterMap (fun te => if te.argsLeft && te.st ≠ .exited then some te.rank else none)
      let s := (s.blockCopies b).foldl (fun s e => s.dropLocks e.2.cluster e.2.locks) s
      let s : State := { s with copies := s.copies.map (fun e =>
        if e.2.block = some b ∧ (e.2.st = .active ∨ e.2.st = .checks) then
          (e.1, { e.2 with st := .saved, locks := [], paused := none, warp := e.2.warp.map (fun w => bl.warps.findIdx (· = w)),
                           tenant := e.2.tenant.map (fun t => bl.tenants.findIdx (· = t)) })
        else e) }
      ((s.leaveCores b bl).modBlock b (fun k =>
        { k with st := st, saving := false, unread := unread, tags := bl.tags, nbars := bl.nbars, broken := bl.broken })).settleCluster bl.cluster

/-! ### PREEMPT: saving (R377, R379) -/

/-- The grids that a save covers: those of a queue, or all, of a context. -/
def State.gridsFor (s : State) (x : Nat) (target : Option Nat) : List (Nat × Grid) :=
  s.grids.filter (fun e => e.2.ctx = x && target.all (fun q => e.2.queue = q))
def State.blocksFor (s : State) (gs : List (Nat × Grid)) : List (Nat × Block) :=
  s.blocks.filter (fun e => gs.any (fun g => g.1 = e.2.grid))

/-- A save begins: no block of its grids is placed any more, and those on cores issue nothing more. -/
def State.beginSave (s : State) (x : Nat) (target : Option Nat) : State :=
  let gs := s.gridsFor x target
  let s := gs.foldl (fun s g => s.modGrid g.1 (fun g => { g with noPlace := true })) s
  (s.blocksFor gs).foldl (fun s e => s.modBlock e.1 (fun bl =>
    if bl.st = .resident then { bl with saving := true, saveAt := none, kept := none } else bl)) s

/-- A save is given up: the grids run on. -/
def State.undoSave (s : State) (gs : List (Nat × Grid)) : State :=
  let s := gs.foldl (fun s g => s.modGrid g.1 (fun g => { g with noPlace := 4 ≤ g.status })) s
  (s.blocksFor gs).foldl (fun s e => s.modBlock e.1 (fun bl => { bl with saving := false })) s

/-- Everything can be saved: the records are written, or the area is too small for them (R379). -/
def State.writeSave (s : State) (q n mode x : Nat) (gs : List (Nat × Grid)) (area size : Nat) : State :=
  let recs := (s.blocksFor gs).filterMap (fun e => (s.grid? e.2.grid).map (fun g => s.blockRecord e.1 e.2 g)) ++
    gs.flatMap (fun g => if 4 ≤ g.2.status then [] else g.2.unplacedRecords)
  let needed := 192 + (recs.map (·.length)).sum
  let stop (s : State) (a : Nat) (r : EngR Nat) : State :=
    match r with
    | .fault e => s.pauseCmd q n x a e
    | .error e => (s.undoSave gs).errorCmd q n x a e
    | _ => s
  if size < needed then
    if size < 192 then (s.undoSave gs).endCmd q n 7 0x0D 0
    else
      match s.saveBytes x area (areaHeader mode x 0 0 needed (s.gtimeAt 0)) with
      | (s, .ok _, _) => (s.undoSave gs).endCmd q n 7 0x0D 0
      | (s, r, a) => stop s a r
  else
    match s.saveBytes x area (areaHeader mode x recs.length needed needed (s.gtimeAt 0) ++ recs.flatten) with
    | (s, .ok t, _) =>
      (((s.blocksFor gs).foldl (fun s e => s.saveBlock e.1 .preempted) s).modCtx x (fun c =>
        { c with standing := some (area % 2 ^ 57, size, needed) })).doneCmd q n 0 t
    | (s, r, a) => stop s a r

/-- A save goes on: grids that have started meanwhile are covered as well; blocks are brought to rest, and once all are, it is
written. -/
def State.goSave (s : State) (q n mode : Nat) (target : Option Nat) (area size : Nat) : State :=
  let x := s.queueCtx q
  let s := s.beginSave x target
  let gs := s.gridsFor x target
  let bs := (s.blocksFor gs).filter (fun e => e.2.saving)
  let s := bs.foldl (fun s e => s.quiesce e.1) s
  let (s, ready) := bs.foldl (fun (r : State × Bool) e =>
    let (s, ok) := r.1.saveReady e.1
    (s, r.2 && ok)) (s, true)
  if ready then s.writeSave q n mode x (s.gridsFor x target) area size else s

/-- The save of a packet: an area at a non-canonical address faults. -/
def State.save (s : State) (q n mode : Nat) (target : Option Nat) (area size : Nat) : State :=
  match badAddress (BitVec.ofNat 64 area) size with
  | some a => s.endCmd q n 1 0x06 a.toNat
  | none => ((s.startCmd q n).beginSave (s.queueCtx q) target).goSave q n mode target area size

/-- `PREEMPT`, mode 0: the grids of one queue are saved (R377, R379, R381). -/
def execPreemptSaveQueue (q n : Nat) (h : PktHdr) (target area size : Nat) (s : State) : Out :=
  .next (s.packet (.preemptSaveQueue q n h target area size) q n true
    (fun s => s.save q n 0 (some target) area size) (fun s => s.goSave q n 0 (some target) area size))

/-- `PREEMPT`, mode 1: every grid of the queue's context is saved (R377, R379, R381). -/
def execPreemptSaveContext (q n : Nat) (h : PktHdr) (area size : Nat) (s : State) : Out :=
  .next (s.packet (.preemptSaveContext q n h area size) q n true
    (fun s => s.save q n 1 none area size) (fun s => s.goSave q n 1 none area size))

/-! ### Reading a save area (R378, Tables 20.4 to 20.7) -/

/-- The access that a memory instruction makes, as its replay makes it. -/
def memOf (i : Instr) : Option MemI :=
  match i with
  | .ld h t _ sc a _ => some (ldI h t sc a)
  | .st h t k sc _ _ => some (stI h t k sc)
  | .atom h op t k sc a _ _ => some (atomI h (.atom op t (a ≠ .none)) t k sc a)
  | .red h op t k sc _ _ => some (atomI h (.red op t) t k sc .none)
  | .gath h t a _ _ => some { gathI h t a 0 with kind := .load false }
  | .fset h pd _ _ => some (cellI h .fset .none pd .dv)
  | .fclr h _ => some (cellI h .fclr .none 7 .dv)
  | _ => none

/-- A saved replay record: its word, PC, lanes, addresses and data. -/
structure SavedAcc where
  i : MemI
  word : IWord
  pc : PC
  lanes : Mask
  accs : List Acc
  deriving DecidableEq, Repr

/-- A saved replay record, when its fields are in range. -/
def SavedAcc.ofBytes (bs : List (BitVec 8)) : Option SavedAcc :=
  let w : IWord := BitVec.ofNat 128 (field bs 0 16)
  let m : Mask := BitVec.ofNat 32 (field bs 24 4)
  match decodeWord .vector w with
  | .error _ => none
  | .ok i =>
    (memOf i).bind (fun mi =>
      let one (l : Nat) : Acc :=
        { lane := l, addr := va57 (BitVec.ofNat 64 (field bs (64 + 8 * l) 8)), bytes := mi.bytes, data := BitVec.ofNat 128 (field bs (320 + 16 * l) 16),
          result := none, pred := false }
      let ls := maskLanes m
      if m ≠ 0 && field bs 28 1 = mi.kind.saved && field bs 16 8 < 2 ^ 57 && field bs 16 8 % 16 = 0 &&
          ls.all (fun l => canonical (BitVec.ofNat 64 (field bs (64 + 8 * l) 8))) then
        some { i := mi, word := w, pc := BitVec.ofNat 57 (field bs 16 8), lanes := m,
               accs := (match mi.dst with | .s _ => ls.take 1 | _ => ls).map one }
      else none)

/-- A lane of a warp record, when its fields are in range; `recs` tells which replay records are valid. -/
def Lane.ofBytes (bs : List (BitVec 8)) (clock n : Nat) (regs : NatMap Word) (recs : Nat → Bool) (phase : Nat → Bool) : Option Lane :=
  let f (o k : Nat) : Nat := field bs o k
  let d := f 53 1
  let st : Option LaneSt := match f 52 1 with
    | 0 | 4 | 6 => some .runnable
    | 1 => some .exited
    | 2 => if d < 8 then some (.rejoin d) else none
    | 3 => if recs d then some (.faultPark d) else none
    | 5 => if d < n then some (.barw d (phase d)) else if d = 32 then some .bar else none
    | 7 => some .boundary
    | _ => none
  st.bind (fun st =>
    if f 0 8 < 2 ^ 57 && f 0 8 % 16 = 0 && f 8 8 < 2 ^ 57 && f 8 8 % 16 = 0 && f 48 1 ≤ 16 && zeros bs 49 3 && f 54 1 < 128 && f 55 1 < 128 &&
        f 56 1 < 2 && zeros bs 57 7 then
      some { Lane.start true 0 with
        st := st, pc := BitVec.ofNat 57 (f 0 8), resume := BitVec.ofNat 57 (f 8 8), tpc := BitVec.ofNat 64 (f 16 8),
        taddr := BitVec.ofNat 64 (f 24 8), tinfo := BitVec.ofNat 64 (f 32 8), tcause := BitVec.ofNat 32 (f 40 4),
        txstat := BitVec.ofNat 32 (f 44 4), yieldUntil := if f 48 1 = 0 then none else some (clock + f 48 1), pass := f 54 1,
        preds := BitVec.ofNat 7 (f 55 1), inHandler := f 56 1 = 1, regs := regs }
    else none)

/-- A list of options as an option of a list. -/
def allSome {α : Type} : List (Option α) → Option (List α)
  | [] => some []
  | x :: xs => x.bind (fun a => (allSome xs).map (a :: ·))

/-- Bytes of a warp record. -/
def warpBytes (n : Nat) : Nat := 10560 + regBytes n

/-- A warp as read from its record, with its replay records and the lanes that have arrived at the barriers of its core. -/
structure SavedWarp where
  wp : Warp
  replays : NatMap SavedAcc
  arrived : List Mask
  deriving DecidableEq, Repr

/-- A warp record, when its fields are in range; `phase` gives the phase bit of each barrier of its core. -/
def SavedWarp.ofBytes (r : LaunchRec) (index clock : Nat) (phase : Nat → Bool) (bs : List (BitVec 8)) : Option SavedWarp :=
  let f (o k : Nat) : Nat := field bs o k
  let valid (i : Nat) : Bool := i < 8 && (BitVec.ofNat 8 (f 40 1)).getLsbD i
  let reps := (upTo 8).map (fun i => if valid i then (SavedAcc.ofBytes ((bs.drop (0x900 + 960 * i)).take 960)).map (fun a => [(i, a)]) else some [])
  let regs (l : Nat) : NatMap Word := (upTo r.regs).foldl (fun m i => mapPut 0 m i (BitVec.ofNat 32 (f (0x2940 + 128 * i + 4 * l) 4))) []
  let lanes := (upTo 32).map (fun l => Lane.ofBytes ((bs.drop (0xC0 + 64 * l)).take 64) clock r.nbars (regs l) valid phase)
  let bias := (BitVec.ofNat 32 (f 32 4)).toInt
  match allSome reps, allSome lanes with
  | some reps, some lanes =>
    if -2 ≤ bias && bias ≤ 3 && zeros bs 45 3 && zeros bs 52 12 && zeros bs 0x8C0 64 && zeros bs (0x2700 + 512) 64 then
      let wp := Warp.start index (r.rankOf index) lanes bias
      some { wp := { wp with
               tenable := BitVec.ofNat 32 (f 36 4), ctrLd := f 41 1, ctrSt := f 42 1, ctrCp := f 43 1, ctrTl := f 44 1
               masks := (upTo 8).foldl (fun m i => mapPut 0 m i (BitVec.ofNat 32 (f (4 * i) 4))) []
               sregs := (upTo 128).foldl (fun m i => mapPut 0 m i (BitVec.ofNat 32 (f (0x2700 + 4 * i) 4))) [] }
             replays := reps.flatten
             arrived := (upTo 32).map (fun b => BitVec.ofNat 32 (f (64 + 4 * b) 4)) }
    else none
  | _, _ => none

/-- A queue entry of a sequencer record. -/
def TileOp.ofBytes (bs : List (BitVec 8)) (pc : PC) : Option TileOp :=
  match decodeWord .tile (BitVec.ofNat 128 (field bs 0 16)) with
  | .error _ => none
  | .ok i =>
    some { instr := i, pc := pc, vals := wordVals i ((upTo 8).map (fun n => field bs (16 + 4 * n) 4)), doneClock := 0, last := 0, locks := [], paused := none }

/-- Bytes of a sequencer record. -/
def seqBytes : Nat := 66624

/-- The decomposition state of a tile in a sequencer record is in range (R158). -/
def decompOk (bs : List (BitVec 8)) : Bool :=
  let f (o : Nat) : Nat := field bs o 1
  f 12 = 0 || (f 12 = 1 && f 13 < 4 && 1 ≤ f 14 && f 14 ≤ 4 && f 15 ≤ f 14 && f 16 ≤ 2)

/-- A sequencer record, when its fields are in range; the arrived bits of the barriers of its core come with it. -/
def Tenant.ofBytes (r : LaunchRec) (rank : Nat) (bs : List (BitVec 8)) : Option (Tenant × Word) :=
  let f (o k : Nat) : Nat := field bs o k
  let st : Option SeqSt := match f 9 1 with
    | 0 | 1 | 2 | 3 => some .running
    | 4 => some .stopped
    | 5 => some .exited
    | _ => none
  let pc : PC := BitVec.ofNat 57 (f 0 8)
  let entry (i : Nat) : Option TileOp := TileOp.ofBytes ((bs.drop (if i < 8 then 0x180 + 48 * i else 144)).take 48) pc
  match st, allSome ((upTo (f 10 1)).map entry) with
  | some st, some queue =>
    if f 0 8 < 2 ^ 57 && f 0 8 % 16 = 0 && f 8 1 < 16 && queue.length ≤ 9 && zeros bs 15 1 && zeros bs 0x140 64 &&
        zeros bs 0x10400 64 && (upTo 8).all (fun i => decompOk ((bs.drop (0x10300 + 32 * i)).take 32)) then
      let te := Tenant.start r rank pc (BitVec.ofNat 4 (f 8 1)) true
      let flt := TFault.ofBytes ((bs.drop 32).take 32)
      let te : Tenant := { te with
        st := st, argsLeft := false, queue := queue, fault := if flt.cause = 0 then none else some flt
        q := (upTo 32).foldl (fun m i => mapPut 0 m i (BitVec.ofNat 32 (f (0xC0 + 4 * i) 4))) []
        tiles := (upTo 256).foldl (fun m i => mapPut 0 m i (BitVec.ofNat 1536 (f (0x300 + 192 * i) 192))) []
        acc := (upTo 4096).foldl (fun m i => mapPut 0 m i (BitVec.ofNat 32 (f (0xC300 + 4 * i) 4))) []
        tslot := (upTo 8).foldl (fun m i => mapPut 0 m i (BitVec.ofNat 32 (f (0x10300 + 32 * i) 4))) []
        trows := (upTo 8).foldl (fun m i => mapPut 0 m i (BitVec.ofNat 32 (f (0x10304 + 32 * i) 4))) []
        tcols := (upTo 8).foldl (fun m i => mapPut 0 m i (BitVec.ofNat 32 (f (0x10308 + 32 * i) 4))) [] }
      let dec (i : Nat) : NatMap Decomp :=
        let o := 0x10300 + 32 * i
        if f (o + 12) 1 = 1 then
          let d := (decompose (te.tile r.slots i) pc (patOf (BitVec.ofNat 4 (f (o + 13) 1))) (f (o + 14) 1) (f (o + 19) 4)).1
          [(i, { d with tu := f (o + 15) 1, status := f (o + 16) 1, s := BitVec.ofNat 32 (f (o + 23) 4) })]
        else []
      some ({ te with decomp := (upTo 8).flatMap dec }, BitVec.ofNat 32 (f 11 4))
    else none
  | _, _ => none

/-- A tag and a numbered barrier of a core section, when in range. -/
def Tag.ofWord (old : Tag) (x : Nat) : Option Tag :=
  if x < 2 ^ 42 then
    some { count := x % 2 ^ 40, ready := x / 2 ^ 40 % 2 = 1, failed := if x / 2 ^ 41 = 1 then some (old.failed.getD (0, 0)) else none }
  else none
def NBar.ofWord (x : Nat) : Option NBar :=
  if x < 2 ^ 33 then
    some { e := x % 2 ^ 15, a := x / 2 ^ 15 % 2 ^ 15, p := x / 2 ^ 30 % 2 = 1, x := x / 2 ^ 31 % 2 = 1, broken := x / 2 ^ 32 = 1, arrived := [] }
  else none

/-- The parts of a block record after its header. -/
structure SavedBlock where
  tags : NatMap Tag
  nbars : NatMap NBar
  warps : List SavedWarp
  seqs : List (Tenant × Word)
  scratch : NatMap (BitVec 8)
  deriving DecidableEq, Repr

/-- The copy records of a block are in range, and belong to its operations. -/
def copiesOk (r : LaunchRec) : List CopyOp → List (BitVec 8) → Bool
  | [], _ => true
  | c :: rest, bs =>
    let kind := match c.kind with
      | .cpyt => 1
      | .drain => 2
      | _ => 0
    field bs 0 1 = kind && field bs 1 1 < r.ncores && field bs 2 1 < 64 && field bs 3 1 ≤ 4 && (field bs 4 1 < 32 || field bs 4 1 = 0xFF) &&
      field bs 64 8 = c.doneBytes && field bs 72 8 = c.total && copiesOk r rest (bs.drop (if kind = 2 then 8448 else 192))

/-- The body of a block record, when every field is in range. -/
def State.bodyOf (s : State) (b : Nat) (bl : Block) (r : LaunchRec) (bs : List (BitVec 8)) : Option SavedBlock :=
  let c := r.ncores
  let e1 := r.extent 1
  let word (o : Nat) : Nat := field bs o 8
  let tags := allSome ((upTo c).flatMap (fun k => (upTo 64).map (fun n =>
    (Tag.ofWord ((mapGet? bl.tags (tagKey k n)).getD Tag.zero) (word (768 * k + 8 * n))).map (fun t => (tagKey k n, t)))))
  let nbars := allSome ((upTo c).flatMap (fun k => (upTo r.nbars).map (fun n =>
    (NBar.ofWord (word (768 * k + 512 + 8 * n))).map (fun x => (nbarKey k n, x)))))
  let wbase := 768 * c
  let sbase := wbase + e1 * warpBytes r.regs
  let nseq := if r.stream = 0 then 0 else c
  let cbase := sbase + nseq * seqBytes
  let cps := (s.blockCopies b).map (·.2)
  let clen := (cps.map (fun c => if c.kind = .drain then 8448 else 192)).sum
  let phase (k n : Nat) : Bool := (BitVec.ofNat 64 (word (768 * k + 512 + 8 * n))).getLsbD 30
  let warps := allSome ((upTo e1).map (fun i => SavedWarp.ofBytes r i 0 (phase (r.rankOf i)) ((bs.drop (wbase + i * warpBytes r.regs)).take (warpBytes r.regs))))
  let seqs := allSome ((upTo nseq).map (fun k => Tenant.ofBytes r k ((bs.drop (sbase + k * seqBytes)).take seqBytes)))
  match tags, nbars, warps, seqs with
  | some tags, some nbars, some warps, some seqs =>
    if copiesOk r cps (bs.drop cbase) then
      some { tags := tags.foldl (fun m t => mapPut Tag.zero m t.1 t.2) [], nbars := nbars, warps := warps, seqs := seqs
             scratch := (upTo (windowSize r.scratch)).foldl (fun m i => mapPut 0 m i ((bs.drop (cbase + clen)).getD i 0)) [] }
    else none
  | _, _, _, _ => none

/-- The grid that a block record names. -/
def State.gridOfRecord (s : State) (x : Nat) (bs : List (BitVec 8)) : Option (Nat × Grid) :=
  s.grids.find? (fun g => g.2.ctx = x && g.2.queue = field bs 20 2 && g.2.seq = field bs 22 4 &&
    ((BitVec.ofNat 57 g.2.recAddr).signExtend 64 : DWord).toNat = field bs 4 8)

/-- The block that a record stands for, saved or never placed: its grid, and its number where it exists. -/
def State.savedBlock (s : State) (x : Nat) (bs : List (BitVec 8)) (st : BlockSt) : Option (Nat × Grid × Option (Nat × Block)) :=
  let f (o k : Nat) : Nat := field bs o k
  (s.gridOfRecord x bs).bind (fun g =>
    let bl := s.blocks.find? (fun e => e.2.grid = g.1 && e.2.wid.toNat = f 12 8 && e.2.view = f 30 1 && e.2.depth = f 31 1 && e.2.world = f 32 1)
    if f 26 1 = 0 then
      (match bl with
      | some e => if e.2.st = .resident ∨ e.2.st = st then none else some (g.1, g.2, some e)
      | none => if g.2.next ≤ g.2.lrec.curveIndex (f 12 8) then some (g.1, g.2, none) else none)
    else
      bl.bind (fun e => if e.2.st = st then some (g.1, g.2, some e) else none))

/-- The header of a block record is in range for its block. -/
def blockHeaderOk (bs : List (BitVec 8)) (g : Grid) (bl : Option Block) (ncopy : Nat) : Bool :=
  let f (o k : Nat) : Nat := field bs o k
  let r := g.lrec
  let full := f 26 1 ≠ 0
  f 29 1 < 32 && f 29 1 % 2 = (if r.stream = 0 then 0 else 1) && zeros bs 39 153 && 192 ≤ f 0 4 && f 0 4 % 192 = 0 &&
    bl.all (fun bl => (f 29 1 / 2 % 2 = 1) = bl.parent.isSome) &&
    (if full then f 26 1 = r.ncores && f 27 2 = r.extent 1 && f 33 2 = ncopy && f 35 4 = windowSize r.scratch
    else f 0 4 = 192 && f 27 2 = 0 && f 33 2 = 0 && f 35 4 = 0)

/-- A record that has been read and checked: its grid, and the block that it restores, if that stood on cores and is still saved, with
its parts. -/
structure Restored where
  grid : Option Nat
  block : Option (Nat × SavedBlock)
  deriving DecidableEq, Repr

/-- The block records of an area, when every one is in range. Once placing has begun (`first` false) a record whose block is saved no
longer is passed over. -/
def State.readRecords (s : State) (x : Nat) (first : Bool) : Nat → List (BitVec 8) → Option (List Restored)
  | 0, _ => some []
  | n + 1, bs =>
    let size := field bs 0 4
    match s.savedBlock x bs .preempted with
    | none =>
      if first then none
      else (s.readRecords x first n (bs.drop size)).map ({ grid := (s.gridOfRecord x bs).map (·.1), block := none } :: ·)
    | some (gn, g, bl) =>
      let ncopy := ((bl.map (fun e => s.blockCopies e.1)).getD []).length
      if !blockHeaderOk bs g (bl.map (·.2)) ncopy || bs.length < size then none
      else
        let this : Option Restored :=
          if field bs 26 1 = 0 then some { grid := some gn, block := none }
          else bl.bind (fun e => (s.bodyOf e.1 e.2 g.lrec ((bs.drop 192).take (size - 192))).map (fun v =>
            { grid := some gn, block := some (e.1, v) }))
        this.bind (fun r => (s.readRecords x first n (bs.drop size)).map (r :: ·))

/-- The header of a save area is in range. -/
def areaOk (bs : List (BitVec 8)) (x size : Nat) : Bool :=
  let f (o k : Nat) : Nat := field bs o k
  f 0 4 = 0x4B395356 && f 4 1 = 1 && f 5 1 ≤ 1 && f 6 2 = x && 192 ≤ f 12 8 && f 12 8 ≤ size && f 12 8 % 192 = 0 && zeros bs 36 156

/-! ### Placing what was saved (R378) -/

/-- A block as it is seated again: barriers take the arrivals of their parties. -/
def SavedBlock.data (v : SavedBlock) (bl : Block) (clock : Nat) : BlockData :=
  let arrivedAt (rank nb : Nat) : List Nat :=
    v.warps.flatMap (fun w => if w.wp.rank = rank then (maskLanes (w.arrived.getD nb 0)).map (partyLane w.wp.index) else []) ++
      v.seqs.flatMap (fun t => if t.1.rank = rank ∧ t.2.getLsbD nb then [partySeq rank] else []) ++
      (((mapGet? bl.nbars (nbarKey rank nb)).map (·.arrived)).getD []).filter (fun p =>
        if p < 65536 then (v.warps[p / 32]?).all (fun w => w.wp.rank ≠ rank) else p ≠ partySeq rank)
  { warps := v.warps.map (fun w => { w.wp with lanes := w.wp.lanes.map (fun la => { la with yieldUntil := la.yieldUntil.map (· + clock) }) })
    tenants := v.seqs.map (fun t => { t.1 with argsLeft := t.1.rank ∈ bl.unread })
    tags := v.tags
    nbars := v.nbars.map (fun e => (e.1, { e.2 with arrived := arrivedAt (e.1 / 32) (e.1 % 32) }))
    scratch := v.scratch }

/-- The replay records of a warp are performed at once, walking afresh; their destinations are pending (R34, R46). -/
def State.replaySaved (s : State) (w : Nat) (v : SavedWarp) : State :=
  v.replays.foldl (fun s e =>
    match s.warp? w with
    | none => s
    | some wp =>
      let a := e.2
      let g : Grp := { w := w, wp := wp, lanes := maskLanes a.lanes, pc := a.pc }
      let uni : Mask := match a.i.dst with
        | .s _ => a.lanes
        | _ => 0
      let one (as : List Acc) : Req :=
        { mkReq g (s.whoOf g) a.i s.tick uni false as with demand := true, word := a.word, lookAt := s.clock wp.core }
      let rp : Replay := { req := one a.accs, lanes := a.lanes, waits := [], fails := [], faddr := signAddr (((a.accs.head?).map (·.addr)).getD 0) }
      ((s.modWarp w (fun wp => { wp.addPend a.lanes a.i s.tick (s.clock wp.core) a.pc with
        replays := mapSet wp.replays e.1 rp })).addReqs ((groupAccs a.i.kind.alone a.accs).map (fun as => { one as with replay := some e.1 }))).next) s

/-- The operations of engines of a block go on on its new cluster, their ranges entered again. -/
def State.resumeCopies (s : State) (b : Nat) : State :=
  match s.block? b with
  | none => s
  | some bl =>
    (s.blockCopies b).foldl (fun s e =>
      let op : CopyOp := { e.2 with
        st := if e.2.kind = .drain ∧ e.2.doneBytes = 0 then .checks else .active, cluster := bl.cluster, core := bl.cores.getD e.2.rank 0, warp := e.2.warp.bind (fun i => bl.warps[i]?),
        tenant := e.2.tenant.bind (fun i => bl.tenants[i]?) }
      let (s, ls) := s.lockCopy op
      s.modCopy e.1 (fun _ => { op with locks := ls })) s

/-- What follows the seating of a block: counters of tiles' moves in flight are settled, its replays and copies go on. -/
def State.wakeSaved (s : State) (b : Nat) (v : SavedBlock) (old : Block) : State :=
  let s := s.modBlock b (fun bl => { bl with broken := old.broken, saveAt := none, kept := none, unread := [] })
  let s := s.resumeCopies b
  ((((s.block? b).map (·.warps)).getD []).zip v.warps).foldl (fun s e => s.replaySaved e.1 e.2) s

/-- Place blocks that were saved, those of a gang together; the answer says whether they are on cores. -/
def State.placeSaved (s : State) (g : Grid) (vs : List (Nat × Block × SavedBlock)) : State × Bool :=
  let ncopy := (vs.map (fun e => (s.blockCopies e.1).length)).sum
  let entries := (vs.map (fun e => ((s.blockCopies e.1).map (·.2.entries)).sum)).sum
  match s.pickCluster g vs.length with
  | none => (s, false)
  | some cl =>
    if (s.cluster cl).locksFree < entries ∨ 256 < s.engineLoad cl + ncopy then (s, false)
    else
      let t := s.clock (8 * cl)
      match s.seatAll g (vs.map (fun e => (e.1, e.2.2.data e.2.1 t))) (((vs.head?).map (fun e => e.2.1.curve)).getD 0) with
      | (s, true) => (vs.foldl (fun s e => s.wakeSaved e.1 e.2.2 e.2.1) s, true)
      | (s, false) => (s, false)

/-- Restore the blocks of an area that still stand saved. -/
def State.placeAll (s : State) (rs : List Restored) : State :=
  rs.foldl (fun s r =>
    match r.block, r.grid.bind s.grid? with
    | some (b, _), some g =>
      (match s.block? b with
      | some bl =>
        if bl.st ≠ .preempted then s
        else
          let mates := (s.phaseMates b bl g.lrec).map (·.1)
          let vs := rs.filterMap (fun r => r.block.bind (fun e => if e.1 ∈ mates then (s.block? e.1).map (fun bl => (e.1, bl, e.2)) else none))
          if vs.all (fun e => e.2.1.st = .preempted) then (s.placeSaved g vs).1 else s
      | none => s)
    | _, _ => s) s

/-- The area of a restore is read and checked, and its blocks are placed; once all of them are, their grids go on. `first` says that
nothing has been placed yet: a failed check then ends the packet. -/
def State.restore (s : State) (q n area size : Nat) (first : Bool) : State :=
  let x := s.queueCtx q
  let a := area % 2 ^ 57
  let stop (s : State) (b : Nat) (r : EngR (List (BitVec 8))) : State :=
    match r with
    | .fault e => s.pauseCmd q n x b e
    | .error e => s.errorCmd q n x b e
    | _ => s
  if size < 192 then s.endCmd q n 7 0x02 0
  else
    match State.engReadList (s.whoFirmware x) s a 12 with
    | (s, .ok hd, _) =>
      if first && !areaOk hd x size then s.endCmd q n 7 0x02 0
      else
        (match State.engReadList (s.whoFirmware x) s (a + 192) (field hd 12 8 / 16 - 12) with
        | (s, .ok body, _) =>
          (match s.readRecords x first (field hd 8 4) body with
          | none => if first then s.endCmd q n 7 0x02 0 else s
          | some rs =>
            let s := (s.startCmd q n).placeAll rs
            if rs.all (fun r => r.block.all (fun e => (s.block? e.1).all (fun bl => bl.st ≠ .preempted))) then
              (rs.foldl (fun s r => match r.grid with
                | some g => s.modGrid g (fun g => { g with noPlace := 4 ≤ g.status })
                | none => s) s).doneCmd q n 0 0
            else s)
        | (s, r, b) => stop s b r)
    | (s, r, b) => stop s b r

/-- `PREEMPT`, mode 2: every block recorded in a save area is restored; where a field is out of range, nothing is (R378). -/
def execPreemptRestore (q n : Nat) (h : PktHdr) (area size : Nat) (s : State) : Out :=
  .next (s.packet (.preemptRestore q n h area size) q n true
    (fun s =>
      match badAddress (BitVec.ofNat 64 area) size with
      | some a => s.endCmd q n 1 0x06 a.toNat
      | none => s.restore q n area size true)
    (fun s => s.restore q n area size false))

/-! ### Descheduling (R29, R381) -/

/-- Every live lane of a warp is in a scheduler-visible wait (Table 1.5), or parked at a `rejoin` or at a block or numbered barrier
(R29). -/
def State.warpWaits (s : State) (w : Nat) : Bool :=
  let atGbar (b l : Nat) : Bool := (s.block? b).any (fun bl => bl.arrivals.any (fun a => a.warp = w && a.lane = l && a.kind = .gbar))
  (s.warp? w).all (fun wp => ((upTo 32).zip wp.lanes).all (fun e =>
    match e.2.st with
    | .exited | .rejoin _ | .bar | .barw _ _ | .tagWait _ _ => true
    | .boundary => atGbar wp.block e.1
    | .memWait g => s.reqs.any (fun e => e.2.warp = some w && e.2.group = g && e.2.st = .held)
    | _ => false))

/-- Other work of the device waits for placement. -/
def State.workWaits (s : State) : Bool :=
  s.grids.any (fun e => !e.2.noPlace && !e.2.offered) || s.blocks.any (fun e => e.2.st = .queued)

/-- The bytes that the record of a block takes. -/
def State.recordBytes (s : State) (b : Nat) : Nat :=
  match s.block? b, s.gridOfBlock b with
  | some bl, some g => (s.blockRecord b bl g).length
  | _, _ => 0

/-- A block may be descheduled: its warps all wait, other work waits, and its record fits the standing area of its context (R29, R381). -/
def State.mayDeschedule (s : State) (b : Nat) (bl : Block) (g : Grid) : Bool :=
  ((s.ctx? g.ctx).bind (·.standing)).any (fun a =>
    bl.warps.all s.warpWaits && s.workWaits && decide (a.2.2 + s.recordBytes b ≤ a.2.1))

/-- The device without the work of lower classes than 0 on a cluster. -/
def State.withoutLower (s : State) (cl : Nat) : State :=
  let low (b : Nat) : Bool := (s.block? b).any (fun bl => bl.cluster = cl) && (s.gridOfBlock b).any (fun g => g.class_ ≠ 0)
  { s with blocks := s.blocks.filter (fun e => !low e.1), warps := s.warps.filter (fun e => !low e.2.block)
           tenants := s.tenants.filter (fun e => !low e.2.block) }

/-- Command firmware pre-empts a block of a lower class: class 0 work waits that fits nowhere, and would fit on the cluster of the
block without its work of lower classes (R350). -/
def State.yieldsToClass0 (s : State) (bl : Block) (g : Grid) : Bool :=
  g.class_ ≠ 0 && (s.class0Waits (ctxPart g.ctx)).any (fun e =>
    (s.pickCluster e.1 e.2).isNone && ((s.withoutLower bl.cluster).fitOn e.1 e.2 bl.cluster 0).isSome)

/-- Command firmware brings a block to a state that can be saved, and then keeps its record itself (R350). -/
def State.evict (s : State) (b : Nat) (g : Grid) : State :=
  let s := (s.modBlock b (fun bl => { bl with saving := true, kept := some [] })).quiesce b
  match s.saveReady b with
  | (s, false) => s
  | (s, true) =>
    match s.block? b with
    | none => s
    | some bl => (s.saveBlock b .descheduled).modBlock b (fun k => { k with kept := some (s.blockRecord b bl g) })

/-- A block is saved to the standing area of its context, after the records it holds (R29, R381). -/
def State.deschedule (s : State) (b : Nat) : State :=
  match s.block? b, s.gridOfBlock b with
  | some bl, some g =>
    match (s.ctx? g.ctx).bind (·.standing) with
    | none => s
    | some (area, size, used) =>
      if bl.st ≠ .resident ∨ bl.killed.isSome ∨ (bl.saving ∧ bl.saveAt.isNone) ∨ (g.lrec.gang ≠ 0 ∧ bl.parent.isNone) then s
      else if !bl.saving && !(bl.warps.all s.warpWaits && s.workWaits && used + s.recordBytes b ≤ size) then s
      else
        let s := (s.modBlock b (fun bl => { bl with saving := true, saveAt := some used })).quiesce b
        match s.saveReady b with
        | (s, false) => s
        | (s, true) =>
          let give (s : State) : State := s.modBlock b (fun bl => { bl with saving := false, saveAt := none })
          match s.block? b with
          | none => s
          | some bl =>
            let bs := s.blockRecord b bl g
            if size < used + bs.length then give s
            else
              match s.saveBytes g.ctx (area + used) bs with
              | (s, .ok _, _) =>
                ((s.saveBlock b .descheduled).modBlock b (fun bl => { bl with saveAt := some (area + used) })).modCtx g.ctx (fun c =>
                  { c with standing := some (area, size, used + bs.length) })
              | (s, .retry, _) | (s, .full, _) => s
              | (s, _, _) => give s
  | _, _ => s

/-- The blocks that command firmware pre-empts together: a block, or the blocks of its gang that stand on cores. -/
def State.evictMates (s : State) (b : Nat) (bl : Block) (g : Grid) : State :=
  ((s.phaseMates b bl g.lrec).filter (fun e => e.2.st = .resident)).foldl (fun s e => s.evict e.1 g) s

/-- `BLOCK_DESCHEDULE`: a block whose warps all wait is saved to the standing area of its context, where other work waits for its
cores (R29, R81, R381). A block of a lower class that class 0 work needs the cores of is pre-empted instead, with its gang, whether it
waits or not, and command firmware keeps its record (R350). -/
def execBlockDeschedule (b : Nat) (s : State) : Out :=
  .next (match s.block? b, s.gridOfBlock b with
  | some bl, some g =>
    let alone := g.lrec.gang = 0 || bl.parent.isSome
    if bl.st = .resident && bl.killed.isNone && bl.saving && bl.kept.isSome then s.evict b g
    else if bl.st = .resident && bl.killed.isNone && !bl.saving && !(alone && s.mayDeschedule b bl g) && s.yieldsToClass0 bl g then
      s.evictMates b bl g
    else s.deschedule b
  | _, _ => s)

/-- `BLOCK_REQUEUE`: a condition that a descheduled block awaits has changed, or the class 0 work that a block was pre-empted for has
gone: it is placed again from its record, and issues its waits again (R29, R81, R350). -/
def execBlockRequeue (b : Nat) (s : State) : Out :=
  .next (match s.block? b, s.gridOfBlock b with
  | some bl, some g =>
    match bl.st, bl.saveAt, bl.kept with
    | .descheduled, none, some _ =>
      let mates := (s.phaseMates b bl g.lrec).filter (fun e => e.2.kept.isSome)
      if g.noPlace || s.outranked g || !(s.class0Waits (ctxPart g.ctx)).isEmpty || mates.any (fun e => e.2.st ≠ .descheduled) then s
      else
        (match allSome (mates.map (fun e => (s.bodyOf e.1 e.2 g.lrec ((e.2.kept.getD []).drop 192)).map (fun v => (e.1, e.2, v)))) with
        | some vs => (s.placeSaved g vs).1
        | none => s)
    | .descheduled, some at_, _ =>
      if g.noPlace || s.outranked g then s
      else
        (match State.engReadList (s.whoFirmware g.ctx) s at_ 12 with
        | (s, .ok hd, _) =>
          (match State.engReadList (s.whoFirmware g.ctx) s (at_ + 192) (field hd 0 4 / 16 - 12) with
          | (s, .ok body, _) =>
            (match s.bodyOf b bl g.lrec body with
            | some v => (s.placeSaved g [(b, bl, v)]).1
            | none => s)
          | (s, _, _) => s)
        | (s, _, _) => s)
    | _, _, _ => s
  | _, _ => s)

end Sys2Proof.Machine
end

