-- ==== Sys2Proof/Machine/Clock.lean ====
section
/-! DEFINITION. Time: what a master pulse brings. Events whose clock or tick the manual fixes happen when it comes; of those whose time
it does not fix, a free choice says at each pulse which happen (R36, R37, R317, R386, R410). -/

namespace Sys2Proof.Machine

/-- Of events that may happen at this pulse, those that do (log entry 3). -/
def State.free (s : State) (evs : List Instr) : List Instr :=
  ((upTo evs.length).zip evs).filterMap (fun e => if Config.happens s.pulses e.1 then some e.2 else none)

/-- An event, if it is due. -/
def when_ (c : Bool) (i : Instr) : List Instr := if c then [i] else []

/-! ### Cores and clusters (R36, R317, R391) -/

/-- A cluster runs, and its pattern passes the pulse just counted (R386). -/
def State.passes (s : State) (cl : Nat) : Bool :=
  let c := s.cluster cl
  c.power = .running && c.pattern.getLsbD ((s.pulses - 1) % 16)

/-- Cores with something on them, each once. -/
def State.busyCores (s : State) : List Nat :=
  let ks := s.warps.foldl (fun m e => mapSet m e.2.core ()) ([] : NatMap Unit)
  (s.tenants.foldl (fun m e => mapSet m e.2.core ()) ks).map (·.1)

/-- The histogram engine samples every clock of the partitions of a core (R396, SOURCE 1). -/
def State.sampled (s : State) (k : Nat) : Bool := s.histOn && s.histSource = 1 && s.clusterPart (clusterOf k) = s.histPart
/-- Cores whose clocks bring something: those with something on them, and those that the histogram engine samples. -/
def State.liveCores (s : State) : List Nat :=
  s.busyCores ++ ((upTo 512).filter s.sampled).filter (· ∉ s.busyCores)

/-- What a clock of a core brings to a scheduling partition: units, batches, the choice of groups (R10, R37, R390). -/
def State.partEvents (s : State) (k j : Nat) : List Instr :=
  let t := s.clock k
  let p := s.part k j
  p.insts.flatMap (fun x =>
    when_ (x.wakeAt.any (fun c => c ≤ t)) (.unitWake k j x.inst) ++
      when_ (x.queue.head?.any (fun e => e.1 ≤ t)) (.instanceStart k j x.inst) ++ when_ (x.asleep t && !x.gated) (.unitGate k j x.inst)) ++
    when_ (p.batch.any (fun b => b.2 ≤ t)) (.classBatchClose k j) ++
    when_ (s.warps.any (fun e => e.2.core = k && e.2.part = j) || s.sampled k) (.issueSelect k j)

/-- What a clock of its core brings to a warp before its partition chooses. -/
def State.warpEvents (s : State) (w : Nat) (wp : Warp) : List Instr :=
  let t := s.clock wp.core
  when_ (wp.lanes.any (fun la => la.yieldUntil.any (fun c => c ≤ t))) (.yieldExpiry w) ++
    when_ (wp.pend.any (fun p => p.over t)) (.resultWrite w) ++
    (wp.stalls.filter (fun x => x.producers ≠ [])).map (fun _ => Instr.slackViolation w)

/-- What a clock of its core brings to a tenant: tile instructions complete and start; the reads of a tile load take free time. -/
def State.tileEvents (s : State) (t : Nat) (te : Tenant) : List Instr :=
  let now := s.clock te.core
  let n := te.running.length
  ((upTo n).map (fun i => n - 1 - i)).flatMap (fun i => match te.running[i]? with
    | some o => when_ (o.doneClock ≤ now && !usesLoader o.instr) (.tileInstrComplete t i)
    | none => []) ++
    when_ (!te.queue.isEmpty) (.tileInstrStart t)

/-- What a clock of its core brings to a request: its lookup in the L1, on the clock that the AGU gives, and the data of an L1 hit
(Table 2.2, R325). -/
def State.l1Events (s : State) (k : Nat) : List Instr :=
  let t := s.clock k
  (s.reqs.filter (fun e => e.2.core = k)).flatMap (fun e =>
    when_ (e.2.st = .waiting && e.2.lookAt ≤ t) (.requestSend e.1) ++
      when_ (e.2.st = .performed && e.2.hitAt.any (fun c => c ≤ t)) (.fillArrive e.1))

/-- What the clock of a core brings, gathers included (R78). -/
def State.coreEvents (s : State) (k : Nat) : List Instr :=
  let ws := s.warps.filter (fun e => e.2.core = k)
  s.l1Events k ++ ws.flatMap (fun e => s.warpEvents e.1 e.2) ++
    (s.gathers.filter (fun g => ws.any (fun e => e.1 = g.2.warp))).map (fun g => Instr.gatherSubgroupRelease g.1) ++
    (s.tenants.filter (fun e => e.2.core = k)).flatMap (fun e => s.tileEvents e.1 e.2) ++
    (upTo 8).flatMap (s.partEvents k)

/-! ### Sequencers (R137, R292) -/

/-- An instruction that enters the stream queue. -/
def isTileOp (i : Instr) : Bool :=
  match i with
  | .tcfg _ _ _ _ | .tld _ _ _ _ | .tdrain _ _ _ _ _ _ _ _ _ _ => true
  | i => usesArray i

/-- The q registers that a `dcmp` still in the queue or running will write. -/
def Tenant.owed (te : Tenant) : List Nat :=
  (te.queue ++ te.running).flatMap (fun o => match o.instr with
    | .dcmp _ _ _ qd _ _ => (upTo 4).map (fun i => qd.toNat + i)
    | _ => [])

/-- A sequencer issues on a clock of its core when its word is fetched and no register or predicate that the word names is pending; the
results of scalar instructions are pending for 3 clocks. -/
def State.seqIssue (s : State) (t : Nat) (te : Tenant) : State :=
  let now := s.clock te.core
  let te := { te with pend := te.pend.filter (fun e => now < e.2) }
  let s := s.modTenant t (fun _ => te)
  if te.st ≠ .running ∨ te.parked ∨ te.argsLeft ∨ s.isSaving (some te.block) then s
  else
    match s.icacheWord te.core (s.asidOf te.block) (s.viewOf te.block) te.pc with
    | none => s
    | some w =>
      let run (s : State) : State :=
        let s := s.touchL1i te.core (s.asidOf te.block) (s.viewOf te.block) te.pc
        { s with cursor := s.cursor ++ [.seq t] }
      match decodeWord .tile w with
      | .error _ => run s
      | .ok i =>
        match i.uses with
        | none => run s
        | some (h, rd, wr) =>
          let named := rd ++ wr ++ h.rd
          let busy (n : Nat) : Bool := te.pend.any (fun e => e.1 = n) || (n < 32 && n ∈ te.owed)
          let key (r : Nat) : Nat := if r < 384 then r - 256 else 32 + (r - 384)
          if named.any (fun r => 256 ≤ r && busy (key r)) then s
          else run (if isTileOp i then s else s.modTenant t (fun te =>
            { te with pend := te.pend ++ (wr.filter (256 ≤ ·)).map (fun r => (key r, now + 3)) }))

/-! ### The memory path -/

/-- What may happen to a request next. -/
def State.reqEvents (s : State) (r : Nat) (q : Req) : List Instr :=
  match q.st with
  | .sent => [if q.kind = .ifetch then .ifetchFill r else .homeSliceRequest r]
  | .retry => [.accessRetry r]
  | .faulted _ => [if q.kind = .ifetch then .fetchFault r else .fillArrive r]
  | .error _ => [.fillArrive r]
  | .ackWait _ => [.hostPeerWriteAck r]
  | .performed => when_ q.hitAt.isNone (if q.kind.returns then .fillArrive r else .writeAck r)
  | .held => (match q.kind with
    | .waiton _ _ => when_ (r ∉ (s.slice (s.homeOf q.ctx q.page)).waits && q.due ≤ s.sliceTime q.who q.page) (.waitonPoll r)
    | _ => [])
  | .waiting | .fenced _ | .joined _ => []

/-- The lines that parties of a core wait for. -/
def State.fetchEvents (s : State) (k : Nat) : List Instr :=
  (((s.fetchWaiters k).map (fun v => lineOf v.addr)).eraseDups).map (fun l => Instr.ifetchRequest k l)

/-- A request of class 0 work: home slices serve it ahead of the others (R350). -/
def State.reqFirst (s : State) (q : Req) : Bool := q.block.any (fun b => (s.gridOfBlock b).any (fun g => g.class_ = 0))

/-- What may happen in the memory path, in releases, copies and commits, and to tile loads. -/
def State.pathEvents (s : State) : List Instr :=
  (s.reqs.filter (fun e => s.reqFirst e.2) ++ s.reqs.filter (fun e => !s.reqFirst e.2)).flatMap (fun e => s.reqEvents e.1 e.2) ++ s.busyCores.flatMap s.fetchEvents ++
    s.fences.map (fun e => if e.2.spec then Instr.specFenceComplete e.1 else Instr.releaseComplete e.1) ++
    s.commits.map (fun e => if e.2.installed then Instr.txUnlock e.1 else Instr.txCommit e.1) ++
    s.copies.map (fun e => Instr.copyDeliver e.1) ++
    s.clusters.flatMap (fun e => e.2.banks.flatMap (fun b => when_ (!b.2.waiting.isEmpty) (.fifoServe e.1 b.1))) ++
    (s.pfaults.filter (fun f => !f.routed)).map (fun f => Instr.pageFaultRoute f.ctx f.page) ++
    s.warps.flatMap (fun e => (e.2.replays.filter (fun r => r.2.replaying)).map (fun r => Instr.replayComplete e.1 r.1)) ++
    s.tenants.flatMap (fun e => ((upTo e.2.running.length).filter (fun i => (e.2.running[i]?).any (fun o => usesLoader o.instr))).map (fun i =>
      Instr.tileInstrComplete e.1 i))

/-! ### Blocks, grids, packets -/

/-- Grids in the order in which firmware serves them (R350). -/
def State.gridOrder (s : State) : List (Nat × Grid) := (upTo 64).flatMap (fun r => s.grids.filter (fun e => e.2.order = r))

/-- What may happen to a block. -/
def State.blockEvents (s : State) (b : Nat) (bl : Block) : List Instr :=
  when_ (bl.st = .resident && !bl.arrivals.isEmpty) (.phaseRecordWrite b) ++
    when_ (bl.st = .queued || (bl.st = .resident && bl.tenants.any (fun t => (s.tenant? t).any (·.argsLeft)))) (.phaseStart b) ++
    when_ (bl.st = .descheduled) (.blockRequeue b) ++
    when_ (bl.st = .resident && (bl.saving || bl.warps.all s.warpWaits || (s.gridOfBlock b).any (s.yieldsToClass0 bl))) (.blockDeschedule b) ++
    (if bl.parent.isSome then [.rivalEnd b] else [.blockEnd b])

/-- What may happen in blocks, grids, views and device launches, in the order of service. -/
def State.workEvents (s : State) : List Instr :=
  s.gridOrder.flatMap (fun e =>
    (s.blocks.filter (fun b => b.2.grid = e.1)).flatMap (fun b => s.blockEvents b.1 b.2) ++
      [.gbarOpen e.1, .gridTimeLimit e.1, .blockPlace e.1, .gridComplete e.1]) ++
    s.devLaunches.map (fun e => Instr.deviceLaunchRead e.1) ++
    s.views.flatMap (fun e =>
      when_ e.2.commit.isSome (.viewCommit e.1) ++ when_ e.2.performing.isSome (.outboxPerform e.1))

/-- What may happen to packets that are read, and to graphs. -/
def State.packetEvents (s : State) : List Instr :=
  s.queues.flatMap (fun e => e.2.cmds.flatMap (fun c => c.instr :: (match c.instr with
    | .wait _ _ _ _ _ _ _ => [.waitTimeout e.1 c.seq]
    | _ => []))) ++
    s.graphs.flatMap (fun e => ((upTo e.2.st.length).filter e.2.ready).map (fun n => Instr.graphNodeStart e.1 n))

/-! ### Power, telemetry, rings -/

/-- What is due by gtime. -/
def State.timeEvents (s : State) : List Instr :=
  let t := s.gtimeAt 0
  s.rings.flatMap (fun e => when_ (e.2.batch ≠ 0 && 1 ≤ (s.reg (offRing e.1 0x20)).toNat / 65536 % 65536) (.interruptCoalesceTimeout e.1)) ++
    when_ (s.railMove.any (fun m => m.due ≤ t)) .railSlewDone ++
    when_ (s.coolSince.any (fun c => c + 10000000 ≤ t)) .thermalRecover ++
    s.views.flatMap (fun e => when_ (e.2.commit.any (fun c => c.2 ≤ t)) (.commitRetryEnd e.1) ++
      when_ (e.2.returnAt.any (fun c => c ≤ t)) (.viewIdReturn e.1)) ++
    s.clusters.flatMap (fun e =>
      when_ (e.2.idleSince.any (fun c => c + 1024 ≤ t)) (.retentionEnter e.1) ++
        when_ (s.wantsWake e.1).isSome (.wakeStart e.1) ++
        (match e.2.power with
        | .waking d => when_ (d ≤ t) (.retentionExit e.1 (Config.freeBit s.pulses))
        | _ => []))

/-- Note since when each cluster has met the conditions of R391. -/
def State.noteIdle (s : State) : State :=
  let t := s.gtimeAt 0
  (upTo 64).foldl (fun s cl =>
    let idle := (s.cluster cl).power = .running && s.clusterIdle cl
    s.modCluster cl (fun c => { c with idleSince := if idle then some (c.idleSince.getD t) else none })) s

/-! ### The pulse -/

/-- Some master pulses pass. -/
def State.advance (s : State) (n : Nat) : State := { s with pulses := s.pulses + n }

/-- One master pulse: sequencers issue, clocks and ticks bring what is due, and free choices say what else happens. Until command
firmware has started, that is all that is awaited (R398). -/
def State.pulse (s : State) : State :=
  let s := s.advance 1
  if !s.ready then (if Config.happens s.pulses 0 then s.boot else s)
  else
    let s := s.noteIdle
    let ks := s.liveCores.filter (fun k => s.passes (clusterOf k))
    let s := s.tenants.foldl (fun s e => if e.2.core ∈ ks then s.seqIssue e.1 e.2 else s) s
    let evs := ks.flatMap s.coreEvents ++ s.timeEvents ++ s.outside ++
      s.free (s.pathEvents ++ s.workEvents ++ s.packetEvents ++ when_ ((s.reg offHctl).getLsbD 63) .histDrainDone)
    { s with outside := [], agenda := evs.map (fun i => { pulses := 0, ev := i }) }

end Sys2Proof.Machine
end

