-- ==== Sys2Proof/Machine/Convert.lean ====
section
/-! DEFINITION. Conversions (R251 to R258) and random draws (R259 to R261). -/

namespace Sys2Proof.Machine

/-- A value of a register type, or of one half of a pair type. -/
def typeXV (t : Ty) (b : Nat) : XV := if t.isFloat then (Ty.ff t).xv b else XV.ofInt (intVal t b)

/-- One value converted into an element of the destination type (R252). -/
def cvtValue (d st : Ty) (sat : Bool) (rnd : Rnd) (r16 b : Nat) : Nat :=
  if d.isFloat then (Ty.ff d).put rnd sat r16 (typeXV st b)
  else if st.isFloat then wrapTo d (putInt rnd (tyMin d) (tyMax d) (typeXV st b))
  else intResult d sat (intVal st b)

/-- The shapes of `cvt` (Table 10.8). -/
def cvtBits (d st : Ty) (sat : Bool) (rnd : Rnd) (b : Opd) (c : Option Opd) (r : Regs) : Nat :=
  let x := r.src st b
  if d.isPair then
    joinParts d (fun p =>
      let y := if st.isPair then part st x p else if p = 0 then x else r.src st (c.getD .zero)
      cvtValue d st sat rnd (r.rand p) y)
  else if st.isPair then cvtValue d st sat rnd (r.rand 0) (part st x (r.src32 (c.getD .zero)))
  else cvtValue d st sat rnd (r.rand 0) x

/-- `cvt` (R251, R252). -/
def execCvt (h : Hdr) (d st : Ty) (sat : Bool) (rnd : Rnd) (a : Dst) (b : Opd) (c : Option Opd) (s : State) : Out :=
  .next (alu1 h a d.bits (max (b.top st.bits) ((c.map (fun o => o.top st.bits)).getD 0))
    (fun r => cvtBits d st sat rnd b c r) s)

/-- Whether the format of a slot serves `cvts`: BF16 to E2M1, INT8 or INT4 (R254). -/
def cvtsFmt (slot : BitVec 128) : Bool := (2 ≤ slotFmt slot && slotFmt slot ≤ 6) || slotFmt slot = 10 || slotFmt slot = 11

/-- Replace element `i` of width `w` of a word. -/
def setElem (w word i x : Nat) : Nat :=
  word - word / 2 ^ (w * i) % 2 ^ w * 2 ^ (w * i) + x % 2 ^ w * 2 ^ (w * i)

/-- `cvts`, encoding two values (R254, R255). -/
def execCvtsEncode (h : Hdr) (slot : BitVec 3) (a : Dst) (b c m : Opd) (pos : BitVec 5) (s : State) : Out :=
  let sl := s.slotOf slot.toNat
  let w := fmtBits (slotFmt sl)
  .next (aluCk h (max (a.top 32) (max (max (b.top 32) (c.top 32)) (m.top 32)))
    (cvtsFmt sl && pos.toNat + 1 < 32 / w)
    (fun _ r =>
      let e (p : Nat) (o : Opd) : Nat := writeSlot sl (r.rand p) (FF.fp32.xv (r.src .f32 o))
      [.reg a 32 (setElem w (setElem w (r.src32 m) pos.toNat (e 0 b)) (pos.toNat + 1) (e 1 c))]) s)

/-- An element decoded into FP32 (R254). -/
def decodeElem (slot : BitVec 128) (b : Nat) : Nat := FF.fp32.put .rn false 0 (readSlot slot b)

/-- `cvts`, decoding one element (R254, R255). -/
def execCvtsDecode (h : Hdr) (slot : BitVec 3) (a : Dst) (b : Opd) (idx : BitVec 5) (s : State) : Out :=
  let sl := s.slotOf slot.toNat
  let w := fmtBits (slotFmt sl)
  .next (aluCk h (max (a.top 32) (b.top 32)) (cvtsFmt sl && idx.toNat < 32 / w)
    (fun _ r => [.reg a 32 (decodeElem sl (r.src32 b / 2 ^ (w * idx.toNat) % 2 ^ w))]) s)

/-- `qblk`: one DX block from the lanes of the warp (R256). -/
def execQblk (h : Hdr) (slot : BitVec 3) (a : BitVec 8) (b : Opd) (s : State) : Out :=
  let sl := s.slotOf slot.toNat
  let m := (dxBits (slotFmt sl)).getD 1
  .next (aluCk h (max (Opd.top (.v a) 32) (b.top 32)) (dxBits (slotFmt sl)).isSome
    (fun G r =>
      let vs := (upTo 32).map (fun i =>
        match G.find? (fun x => x.lane = i) with
        | some x => (FF.fp32.xv (x.src .f32 b), rand16 x.seed x.pc i x.wid)
        | none => (XV.num false Ex.zero, 0))
      let block := dxWrite m (slotGap sl) (slotSat sl) vs
      [.reg (.v a) 32 (block / 2 ^ (32 * (r.lane % (dxBytes m / 4))))]) s)

/-- `dqblk`: the elements of one block held by the lanes of the warp (R257). -/
def execDqblk (h : Hdr) (slot : BitVec 3) (a b : BitVec 8) (s : State) : Out :=
  let sl := s.slotOf slot.toNat
  let m := (dxBits (slotFmt sl)).getD 1
  .next (aluCk h (max (Opd.top (.v a) 32) (Opd.top (.v b) 32)) (dxBits (slotFmt sl)).isSome
    (fun G r =>
      let block := ((upTo (dxBytes m / 4)).map (fun j =>
        ((G.find? (fun x => x.lane = j)).map (fun x => x.src32 (.v b))).getD 0 * 2 ^ (32 * j))).sum
      [.reg (.v a) 32
        (match dxRead m block r.lane with
        | none => FF.fp32.nan false (nanPayload r.pc r.lane)
        | some v => FF.fp32.put .rn false 0 v)]) s)

/-- `dropm`: the keep predicate (R259). -/
def execDropm (h : Hdr) (wide : Bool) (pd : BitVec 3) (b c : Opd) (s : State) : Out :=
  .next (alu h (max (b.top (if wide then 64 else 32)) (c.top 32))
    (fun _ r =>
      let k := if wide then r.src64 b else r.src32 b
      let p := r.src32 c % 2 ^ 16
      [.pred pd (p = 0 || ((hashH r.seed (BitVec.ofNat 64 k)) >>> 48).toNat < p)]) s)

/-- The draw of `rng` at a result type (R260). -/
def rngBits (t : Ty) (z : DWord) : Nat :=
  match t with
  | .b64 => z.toNat
  | .f32 => FF.fp32.write .rn false 0 false { num := ((z >>> 40).toNat : Int), exp := -24, den := 1 }
  | _ => (z >>> 32).toNat

/-- `rng` (R260). -/
def execRng (h : Hdr) (t : Ty) (a : Dst) (b : Opd) (s : State) : Out :=
  .next (alu1 h a t.bits (b.top 64) (fun r => rngBits t (hashH r.seed (BitVec.ofNat 64 (r.src64 b)))) s)

end Sys2Proof.Machine
end

