-- ==== Sys2Proof/Machine/Cross.lean ====
section
/-! DEFINITION. Cross-lane instructions (Table 9.9, R220 to R225). -/

namespace Sys2Proof.Machine

/-- The source lane of `shfl` for lane `l`, segments of 2^w lanes and value `c` (R222). -/
def shflSource (mode : ShflMode) (w l c : Nat) : Option Nat :=
  let n := 2 ^ w
  let lo := l - l % n
  let r := l % n
  match mode with
  | .pick => some (lo + c % n)
  | .shift =>
    let x : Int := r + intVal .i32 c
    if 0 ≤ x ∧ x < n then some (lo + x.toNat) else none
  | .rot => some (lo + (r + c) % n)
  | .xor => some (lo + ((r ^^^ (c % n))))

/-- `shfl` (R222). -/
def execShfl (h : Hdr) (mode : ShflMode) (t : Ty) (pd : BitVec 3) (a b : BitVec 8) (c : Opd) (w : BitVec 3) (s : State) :
    Out :=
  .next (alu h (max (max (Opd.top (.v a) t.bits) (Opd.top (.v b) t.bits)) (c.top 32))
    (fun G r =>
      let from? := (shflSource mode w.toNat r.lane (r.src32 c)).bind (fun k => G.find? (fun x => x.lane = k))
      [.reg (.v a) t.bits ((from?.getD r).src t (.v b)), .pred pd from?.isSome]) s)

/-- The value that `vote` forms from the predicates of G, as a number and as a predicate (R223). -/
def voteValue (mode : VoteMode) (ps : List Bool) : Nat × Bool :=
  match mode with
  | .every => ((ps.all id).toNat, ps.all id)
  | .some => ((ps.any id).toNat, ps.any id)
  | .same => let v := ps.all id || ps.all (fun p => !p); (v.toNat, v)
  | .count => let n := (ps.filter id).length; (n, n % 2 = 1)

/-- `vote` (R223). -/
def execVote (h : Hdr) (mode : VoteMode) (pd : BitVec 3) (a : Dst) (p : BitVec 3) (s : State) : Out :=
  .next (alu h (a.top 32)
    (fun G _ =>
      let v := voteValue mode (G.map (fun r => r.pr p.toNat))
      [.reg a 32 v.1, .pred pd v.2]) s)

/-- `ballot` (R223). -/
def execBallot (h : Hdr) (a : Dst) (p : BitVec 3) (s : State) : Out :=
  .next (alu h (a.top 32)
    (fun G _ => [.reg a 32 (lanesMask ((G.filter (fun r => r.pr p.toNat)).map (·.lane))).toNat]) s)

/-- Op of Table 9.10, `x` being the value of lane `l` combined into `a`. -/
def crossOp (op : Aop) (t : Ty) (pc : PC) (l a x : Nat) : Nat :=
  if t = .f32 then
    let u := FF.fp32.read a
    let v := FF.fp32.read x
    match op with
    | .min => FF.fp32.minmax false a x
    | .max => FF.fp32.minmax true a x
    | _ => FF.fp32.result .rn false 0 pc l [u, v] (u.sum .rn v)
  else
    match op with
    | .add => wrapTo t (intVal t a + intVal t x)
    | .min => if intVal t x < intVal t a then x else a
    | .max => if intVal t a < intVal t x then x else a
    | .and => a &&& x
    | .or => a ||| x
    | .xor => a ^^^ x
    | .exch => x

/-- Id of Table 9.10. -/
def crossId (op : Aop) (t : Ty) : Nat :=
  match op with
  | .min => if t = .f32 then 0x7F800000 else wrapTo t (tyMax t)
  | .max => if t = .f32 then 0xFF800000 else wrapTo t (tyMin t)
  | .and => 2 ^ t.bits - 1
  | _ => 0

/-- The reduction of the values of G in ascending lane order (R224). -/
def reduce (op : Aop) (t : Ty) (pc : PC) (xs : List (Nat × Nat)) : Nat :=
  match xs with
  | [] => 0
  | (_, x0) :: rest => rest.foldl (fun a lx => crossOp op t pc lx.1 a lx.2) x0

/-- `redux` (R224). -/
def execRedux (h : Hdr) (op : Aop) (t : Ty) (a : Dst) (b : BitVec 8) (s : State) : Out :=
  .next (alu h (max (a.top t.bits) (Opd.top (.v b) t.bits))
    (fun G r => [.reg a t.bits (reduce op t r.pc (G.map (fun x => (x.lane, x.src t (.v b)))))]) s)

/-- `scan`: the running value `a` (none before the lowest lane) and the results of the lanes, in order (R224). -/
def scanGo (op : Aop) (t : Ty) (pc : PC) (excl : Bool) (a : Option Nat) : List (Nat × Nat × Bool) → List (Nat × Nat)
  | [] => []
  | (l, x, seg) :: rest =>
    match a with
    | none => (l, if excl then crossId op t else x) :: scanGo op t pc excl (some x) rest
    | some acc =>
      if seg then (l, if excl then crossId op t else x) :: scanGo op t pc excl (some x) rest
      else
        let acc' := crossOp op t pc l acc x
        (l, if excl then acc else acc') :: scanGo op t pc excl (some acc') rest

/-- `scan` (R224). -/
def execScan (h : Hdr) (op : Aop) (excl : Bool) (seg : Option (BitVec 3)) (t : Ty) (a b : BitVec 8) (s : State) : Out :=
  .next (alu h (max (Opd.top (.v a) t.bits) (Opd.top (.v b) t.bits))
    (fun G r =>
      let xs := G.map (fun x => (x.lane, x.src t (.v b), (seg.map (fun p => x.pr p.toNat)).getD false))
      [.reg (.v a) t.bits (mapGetD (scanGo op t r.pc excl none xs) r.lane 0)]) s)

/-- `match`: equal bit patterns in G (R223). -/
def execMatchLanes (h : Hdr) (whole : Bool) (t : Ty) (pd : BitVec 3) (a : Dst) (b : BitVec 8) (s : State) : Out :=
  .next (alu h (max (a.top 32) (Opd.top (.v b) t.bits))
    (fun G r =>
      let x := r.src t (.v b)
      if whole then
        let v := G.all (fun k => G.all (fun j => k.src t (.v b) = j.src t (.v b)))
        [.reg a 32 (if v then (lanesMask (G.map (·.lane))).toNat else 0), .pred pd v]
      else [.reg a 32 (lanesMask ((G.filter (fun k => k.src t (.v b) = x)).map (·.lane))).toNat]) s)

/-- `elect`: the lowest lane of G (R223). -/
def execElect (h : Hdr) (pd : BitVec 3) (a : Dst) (s : State) : Out :=
  .next (alu h (a.top 32)
    (fun G r =>
      let f := ((G.map (·.lane)).head?).getD 0
      [.reg a 32 f, .pred pd (r.lane = f)]) s)

end Sys2Proof.Machine
end

