-- ==== Sys2Proof/Machine/FloatArith.lean ====
section
/-! DEFINITION. Floating-point arithmetic, compare and classify (Tables 10.1 and 10.3, R239 to R247). -/

namespace Sys2Proof.Machine

/-- A floating-point instruction: each part of the result from that part of each source (R240). -/
def floatOp (h : Hdr) (t : Ty) (sat : Bool) (rnd : Rnd) (a : Dst) (ops : List Opd) (f : List FV → Option FV) (s : State) :
    State :=
  alu1 h a t.bits (listMax (ops.map (fun o => o.top t.bits)))
    (fun r => joinParts t (fun p =>
      let vs := ops.map (fun o => (Ty.ff t).read (part t (r.src t o) p))
      (Ty.ff t).result rnd sat (r.rand p) r.pc r.lane vs (f vs))) s

/-- `fadd` (R240). -/
def execFadd (h : Hdr) (t : Ty) (sat : Bool) (rnd : Rnd) (a : Dst) (b c : Opd) (s : State) : Out :=
  .next (floatOp h t sat rnd a [b, c] (fun vs => match vs with | [x, y] => x.sum rnd y | _ => none) s)

/-- `fsub` (R240). -/
def execFsub (h : Hdr) (t : Ty) (sat : Bool) (rnd : Rnd) (a : Dst) (b c : Opd) (s : State) : Out :=
  .next (floatOp h t sat rnd a [b, c] (fun vs => match vs with | [x, y] => x.sum rnd y.negate | _ => none) s)

/-- `fmul` (R240). -/
def execFmul (h : Hdr) (t : Ty) (sat : Bool) (rnd : Rnd) (a : Dst) (b c : Opd) (s : State) : Out :=
  .next (floatOp h t sat rnd a [b, c] (fun vs => match vs with | [x, y] => x.mul y | _ => none) s)

/-- `ffma`: one rounding (R240). -/
def execFfma (h : Hdr) (t : Ty) (sat : Bool) (rnd : Rnd) (a : Dst) (b c e : Opd) (s : State) : Out :=
  .next (floatOp h t sat rnd a [b, c, e]
    (fun vs => match vs with | [x, y, z] => (x.mul y).bind (fun p => p.sum rnd z) | _ => none) s)

/-- Minimum or maximum in each part (R242). -/
def floatMinMax (h : Hdr) (isMax : Bool) (t : Ty) (a : Dst) (b c : Opd) (s : State) : State :=
  alu1 h a t.bits (max (b.top t.bits) (c.top t.bits))
    (fun r => joinParts t (fun p => (Ty.ff t).minmax isMax (part t (r.src t b) p) (part t (r.src t c) p))) s

/-- `fmin` (R242). -/
def execFmin (h : Hdr) (t : Ty) (a : Dst) (b c : Opd) (s : State) : Out := .next (floatMinMax h false t a b c s)

/-- `fmax` (R242). -/
def execFmax (h : Hdr) (t : Ty) (a : Dst) (b c : Opd) (s : State) : Out := .next (floatMinMax h true t a b c s)

/-- `fcmp` (R246). -/
def execFcmp (h : Hdr) (cond : Cond) (t : Ty) (pd : BitVec 3) (b c : Opd) (s : State) : Out :=
  .next (alu h (max (b.top t.bits) (c.top t.bits))
    (fun _ r => [.pred pd (cmpFlt cond ((Ty.ff t).read (r.src t b)) ((Ty.ff t).read (r.src t c)))]) s)

/-- `fclass` (R246). -/
def execFclass (h : Hdr) (t : Ty) (pd : BitVec 3) (b m : Opd) (s : State) : Out :=
  .next (alu h (max (b.top t.bits) (m.top 32))
    (fun _ r => [.pred pd ((r.src32 m).testBit (fClass (Ty.ff t) (r.src t b)))]) s)

/-- `frnd`: round to an integer, keeping the sign of a zero (R244). -/
def roundInt (f : FF) (rnd : Rnd) (b : Nat) : Nat :=
  match f.read b with
  | .nan n m => f.quieted n m
  | .inf _ => b
  | .fin n m e =>
    if m = 0 then b else f.write rnd false 0 n (Ex.ofInt ((FV.fin n m e).ex.round rnd))

/-- `frnd` (R244). -/
def execFrnd (h : Hdr) (t : Ty) (rnd : Rnd) (a : Dst) (b : Opd) (s : State) : Out :=
  .next (alu1 h a t.bits (b.top t.bits) (fun r => roundInt (Ty.ff t) rnd (r.src t b)) s)

/-- `fscale`: b · 2^n rounded once (R244). -/
def scaleFloat (f : FF) (rnd : Rnd) (b : Nat) (n : Int) : Nat :=
  match f.read b with
  | .nan g m => f.quieted g m
  | .inf _ => b
  | .fin g m e => if m = 0 then b else f.write rnd false 0 g ((FV.fin g m e).ex.scale n)

/-- `fscale` (R244). -/
def execFscale (h : Hdr) (t : Ty) (rnd : Rnd) (a : Dst) (b n : Opd) (s : State) : Out :=
  .next (alu1 h a t.bits (max (b.top t.bits) (n.top 32))
    (fun r => scaleFloat (Ty.ff t) rnd (r.src t b) (intVal .i32 (r.src32 n))) s)

/-- `fgexp` (R244). -/
def getExp (f : FF) (b : Nat) : Nat :=
  match f.read b with
  | .nan _ _ => 0x7FFFFFFF
  | .inf _ => 0x7FFFFFFE
  | .fin n m e => if m = 0 then 0x80000000 else wrapTo .i32 ((FV.fin n m e).ex.ilog2)

/-- `fgexp` (R244). -/
def execFgexp (h : Hdr) (t : Ty) (a : Dst) (b : Opd) (s : State) : Out :=
  .next (alu1 h a 32 (b.top t.bits) (fun r => getExp (Ty.ff t) (r.src t b)) s)

/-- `fdot2`: both products and the addend summed exactly, one rounding (R243). -/
def dot2 (t : Ty) (rnd : Rnd) (pc : PC) (l b c e : Nat) : Nat :=
  let f := Ty.ff t
  let b0 := f.read (part t b 0)
  let b1 := f.read (part t b 1)
  let c0 := f.read (part t c 0)
  let c1 := f.read (part t c 1)
  let z := FF.fp32.read e
  match firstNaN [b0, b1, c0, c1] with
  | some (n, m) => FF.fp32.nanFrom f n m
  | none =>
    let v := (b0.mul c0).bind (fun p => (b1.mul c1).bind (fun q => (p.sum rnd q).bind (fun x => x.sum rnd z)))
    FF.fp32.result rnd false 0 pc l [z] v

/-- `fdot2` (R243). -/
def execFdot2 (h : Hdr) (t : Ty) (rnd : Rnd) (a : Dst) (b c e : Opd) (s : State) : Out :=
  .next (alu1 h a 32 (max (max (b.top 32) (c.top 32)) (e.top 32))
    (fun r => dot2 t rnd r.pc r.lane (r.src t b) (r.src t c) (r.src .f32 e)) s)

end Sys2Proof.Machine
end

