-- ==== Sys2Proof/Machine/IntArith.lean ====
section
/-! DEFINITION. Integer arithmetic (Table 9.2, R208 to R210). -/

namespace Sys2Proof.Machine

/-- An integer instruction of two sources: the exact result `f b c`, saturated or wrapped (R209). -/
def intOp2 (h : Hdr) (t : Ty) (sat : Bool) (a : Dst) (b c : Opd) (f : Int → Int → Int) (s : State) : State :=
  alu1 h a t.bits (max (b.top t.bits) (c.top t.bits))
    (fun r => intResult t sat (f (intVal t (r.src t b)) (intVal t (r.src t c)))) s

/-- `iadd`: b + c (R209). -/
def execIadd (h : Hdr) (t : Ty) (sat : Bool) (a : Dst) (b c : Opd) (s : State) : Out :=
  .next (intOp2 h t sat a b c (fun x y => x + y) s)

/-- `isub`: b − c (R209). -/
def execIsub (h : Hdr) (t : Ty) (sat : Bool) (a : Dst) (b c : Opd) (s : State) : Out :=
  .next (intOp2 h t sat a b c (fun x y => x - y) s)

/-- `imul`: b · c (R209). -/
def execImul (h : Hdr) (t : Ty) (sat : Bool) (a : Dst) (b c : Opd) (s : State) : Out :=
  .next (intOp2 h t sat a b c (fun x y => x * y) s)

/-- `imulh`: the upper half of the exact product (R209). -/
def execImulh (h : Hdr) (t : Ty) (a : Dst) (b c : Opd) (s : State) : Out :=
  .next (intOp2 h t false a b c (fun x y => (x * y) / (2 ^ t.bits : Nat)) s)

/-- `imad`: b · c + e (R209). -/
def execImad (h : Hdr) (t : Ty) (sat : Bool) (a : Dst) (b c e : Opd) (s : State) : Out :=
  .next (alu1 h a t.bits (max (max (b.top t.bits) (c.top t.bits)) (e.top t.bits))
    (fun r => intResult t sat
      (intVal t (r.src t b) * intVal t (r.src t c) + intVal t (r.src t e))) s)

/-- The quotient of `idiv` before it is wrapped (R209, R130). -/
def quotient (t : Ty) (sat : Bool) (b c : Int) : Int :=
  if c = 0 then (if t.signed then -1 else tyMax t)
  else if t.signed ∧ b = tyMin t ∧ c = -1 then (if sat then tyMax t else tyMin t)
  else b.tdiv c

/-- The remainder of `idiv` (R209, R130). -/
def remainder (t : Ty) (b c : Int) : Int :=
  if c = 0 then b
  else if t.signed ∧ b = tyMin t ∧ c = -1 then 0
  else b - b.tdiv c * c

/-- `idiv`: quotient to A and remainder to E, unless E discards it (R209). -/
def execIdiv (h : Hdr) (t : Ty) (sat : Bool) (a m : Dst) (b c : Opd) (s : State) : Out :=
  .next (alu h (max (max (a.top t.bits) (m.top t.bits)) (max (b.top t.bits) (c.top t.bits)))
    (fun _ r =>
      let x := intVal t (r.src t b)
      let y := intVal t (r.src t c)
      [.reg m t.bits (wrapTo t (remainder t x y)), .reg a t.bits (wrapTo t (quotient t sat x y))]) s)

/-- `imin` (R209). -/
def execImin (h : Hdr) (t : Ty) (a : Dst) (b c : Opd) (s : State) : Out :=
  .next (intOp2 h t false a b c (fun x y => min x y) s)

/-- `imax` (R209). -/
def execImax (h : Hdr) (t : Ty) (a : Dst) (b c : Opd) (s : State) : Out :=
  .next (intOp2 h t false a b c (fun x y => max x y) s)

/-- `iabs`: |b| (R209). -/
def execIabs (h : Hdr) (t : Ty) (sat : Bool) (a : Dst) (b : Opd) (s : State) : Out :=
  .next (alu1 h a t.bits (b.top t.bits) (fun r => intResult t sat (intVal t (r.src t b)).natAbs) s)

end Sys2Proof.Machine
end

