-- ==== Sys2Proof/Machine/Logic.lean ====
section
/-! DEFINITION. Logic (Table 9.4, R211). -/

namespace Sys2Proof.Machine

/-- A logic instruction of two sources, on bits whatever the type (R211). -/
def logicOp (h : Hdr) (t : Ty) (a : Dst) (b c : Opd) (f : DWord → DWord → DWord) (s : State) : State :=
  alu1 h a t.bits (max (b.top t.bits) (c.top t.bits))
    (fun r => (f (BitVec.ofNat 64 (r.src t b)) (BitVec.ofNat 64 (r.src t c))).toNat) s

/-- `and` (R211). -/
def execAnd (h : Hdr) (t : Ty) (a : Dst) (b c : Opd) (s : State) : Out := .next (logicOp h t a b c (fun x y => x &&& y) s)

/-- `or` (R211). -/
def execOr (h : Hdr) (t : Ty) (a : Dst) (b c : Opd) (s : State) : Out := .next (logicOp h t a b c (fun x y => x ||| y) s)

/-- `xor` (R211). -/
def execXor (h : Hdr) (t : Ty) (a : Dst) (b c : Opd) (s : State) : Out := .next (logicOp h t a b c (fun x y => x ^^^ y) s)

/-- `andn`: b AND NOT c (R211). -/
def execAndn (h : Hdr) (t : Ty) (a : Dst) (b c : Opd) (s : State) : Out :=
  .next (logicOp h t a b c (fun x y => x &&& ~~~y) s)

/-- The bits selected by a truth table over three words (R211): the union of its true rows. -/
def bfn3 (tt : BitVec 8) (b c e : DWord) : DWord :=
  let row (i : Nat) : DWord :=
    if tt.getLsbD i then
      (if i % 2 = 1 then b else ~~~b) &&& (if i / 2 % 2 = 1 then c else ~~~c) &&& (if i / 4 = 1 then e else ~~~e)
    else 0
  row 0 ||| row 1 ||| row 2 ||| row 3 ||| row 4 ||| row 5 ||| row 6 ||| row 7

/-- `bfn3` (R211). -/
def execBfn3 (h : Hdr) (t : Ty) (a : Dst) (b c e : Opd) (tt : BitVec 8) (s : State) : Out :=
  .next (alu1 h a t.bits (max (max (b.top t.bits) (c.top t.bits)) (e.top t.bits))
    (fun r => (bfn3 tt (BitVec.ofNat 64 (r.src t b)) (BitVec.ofNat 64 (r.src t c)) (BitVec.ofNat 64 (r.src t e))).toNat) s)

end Sys2Proof.Machine
end

