-- ==== Sys2Proof/Machine/Select.lean ====
section
/-! DEFINITION. Select, move, compare and predicate logic (R215 to R217); special and control registers (R218, R219). -/

namespace Sys2Proof.Machine

/-- The predicate number of an operand. -/
def Regs.pred (r : Regs) (p : BitVec 3) : Bool := r.pr p.toNat

/-- `sel`: b where the predicate is true, else c (R216). -/
def execSel (h : Hdr) (t : Ty) (a : Dst) (b c : Opd) (p : BitVec 3) (s : State) : Out :=
  .next (alu1 h a t.bits (max (b.top t.bits) (c.top t.bits))
    (fun r => if r.pred p then r.src t b else r.src t c) s)

/-- `mov` (R216). -/
def execMov (h : Hdr) (t : Ty) (a : Dst) (b : Opd) (s : State) : Out :=
  .next (alu1 h a t.bits (b.top t.bits) (fun r => r.src t b) s)

/-- `icmp` (R216). -/
def execIcmp (h : Hdr) (cond : Cond) (t : Ty) (pd : BitVec 3) (b c : Opd) (s : State) : Out :=
  .next (alu h (max (b.top t.bits) (c.top t.bits))
    (fun _ r => [.pred pd (cmpInt cond (intVal t (r.src t b)) (intVal t (r.src t c)))]) s)

/-- `plop` (R216). -/
def execPlop (h : Hdr) (pd pa pb pc : BitVec 3) (tt : BitVec 8) (s : State) : Out :=
  .next (alu h 0 (fun _ r => [.pred pd (ttBit tt (r.pred pa) (r.pred pb) (r.pred pc))]) s)

/-- The offset of field wfN in `%wid` (R14). -/
def fieldOff (w : List Nat) (n : Nat) : Nat := (w.take n).sum
/-- The value of field wfN of an identifier (R14, R17). -/
def fieldOf (w : List Nat) (wid : DWord) (n : Nat) : Nat := wid.toNat / 2 ^ fieldOff w n % 2 ^ w.getD n 0

/-- The ready bits of a block's tags on the core of a rank, in bits [t − 1:0] (R72). -/
def readyBits (bl : Block) (rank t : Nat) : DWord :=
  (upTo t).foldl (fun x i =>
    if (mapGet? bl.tags (tagKey rank i)).any (·.ready) then x ||| BitVec.ofNat 64 (2 ^ i) else x) 0

/-- A special register that the block and its launch hold, as either stream reads it (Table 9.8). -/
def State.blockSpecial (s : State) (b core rank : Nat) (wid : DWord) (x : Nat) : Nat :=
  let lr := s.recOfBlock b
  let bl := s.block? b
  if 0x06 ≤ x ∧ x ≤ 0x0B then (lr.map (fun lr => fieldOf lr.w wid (x - 0x06))).getD 0
  else if 0x0C ≤ x ∧ x ≤ 0x11 then (lr.map (fun lr => lr.e.getD (x - 0x0C) 1)).getD 0
  else
    match x with
    | 0x02 => core
    | 0x03 => clusterOf core
    | 0x04 => rank
    | 0x05 => wid.toNat
    | 0x14 => (bl.map (fun bl => (readyBits bl rank ((lr.map (·.tags)).getD 0)).toNat)).getD 0
    | 0x15 => s.clock core
    | 0x16 => s.gtimeAt (placeCore core)
    | 0x17 => (bl.map (·.world)).getD 0
    | 0x18 => (bl.map (·.depth)).getD 0
    | 0x19 => (bl.map (·.view)).getD 0
    | 0x1A => (bl.bind (fun bl => (s.gridOfBlock b).bind (fun g => (s.ctx? g.ctx).map (fun c =>
        c.body.aperture + bl.scratchOff)))).getD 0
    | 0x1B => (s.seedOf b).toNat
    | _ => 0

/-- A special register that a lane, its group or its warp holds, or else its block (Table 9.8, R218). -/
def State.laneSpecial (s : State) (g : Grp) (r : Regs) (x : Nat) : Nat :=
  let la := g.wp.lane? r.lane
  match x with
  | 0x00 => r.lane
  | 0x01 => g.wp.index
  | 0x12 => (lanesMask g.lanes).toNat
  | 0x13 => (lanesMask g.wp.live).toNat
  | 0x1C => (la.map (·.tcause.toNat)).getD 0
  | 0x1D => (la.map (·.tpc.toNat)).getD 0
  | 0x1E => (la.map (·.taddr.toNat)).getD 0
  | 0x1F => (la.map (·.tinfo.toNat)).getD 0
  | 0x20 => (la.map (·.txstat.toNat)).getD 0
  | 0x21 => (BitVec.ofInt 32 g.wp.sbias).toNat
  | 0x22 => g.wp.tenable.toNat
  | _ => s.blockSpecial g.wp.block g.wp.core g.wp.rank r.wid x

/-- The value `movs` reads in the running party (R218). -/
def State.special (s : State) (r : Regs) (x : Nat) : Nat :=
  match s.grp with
  | some g => s.laneSpecial g r x
  | none =>
    match s.seq.bind s.tenant? with
    | some te => s.blockSpecial te.block te.core te.rank r.wid x
    | none => 0

/-- `movs`: 32 bits read the low half of a wider register (R17, R218). -/
def execMovs (h : Hdr) (wide : Bool) (a : Dst) (x : BitVec 6) (s : State) : Out :=
  .next (alu1 h a (if wide then 64 else 32) 0 (fun r => s.special r x.toNat) s)

/-- `movc`: write `%sbias`, clamped, or `%tenable`, of which only bit 7 may be set (R42, R219). -/
def execMovc (h : Hdr) (x : CtlReg) (b : Opd) (s : State) : Out :=
  .next (match s.grp with
  | none => s
  | some g =>
    match s.views' g h with
    | [] => s.stepLanes g.w g.lanes
    | r :: _ =>
      let v := BitVec.ofNat 32 (r.src32 b)
      match x with
      | .sbias =>
        (s.modWarp g.w (fun wp => { wp with sbias := max (-2) (min 3 v.toInt) })).stepLanes g.w g.lanes
      | .tenable =>
        if v &&& 0xFFFFFF7F#32 ≠ 0 then
          (s.stepLanes g.w (g.lanes.filter (fun l => l ∉ g.trues h))).illopLanes g (g.trues h) 0x0B
        else (s.modWarp g.w (fun wp => { wp with tenable := v })).stepLanes g.w g.lanes)

end Sys2Proof.Machine
end

