-- ==== Sys2Proof/Machine/Dispatch.lean ====
section
/-! DEFINITION. The meaning of every step of the table of operations, one arm per constructor. -/

namespace Sys2Proof.Machine

def exec (i : Instr) (s : State) : Host.Outcome State Fault Refusal :=
  match i with
  | .iadd h t sat a b c => Sys2Proof.Machine.execIadd h t sat a b c s
  | .isub h t sat a b c => Sys2Proof.Machine.execIsub h t sat a b c s
  | .imul h t sat a b c => Sys2Proof.Machine.execImul h t sat a b c s
  | .imulh h t a b c => Sys2Proof.Machine.execImulh h t a b c s
  | .imad h t sat a b c e => Sys2Proof.Machine.execImad h t sat a b c e s
  | .idiv h t sat a m b c => Sys2Proof.Machine.execIdiv h t sat a m b c s
  | .imin h t a b c => Sys2Proof.Machine.execImin h t a b c s
  | .imax h t a b c => Sys2Proof.Machine.execImax h t a b c s
  | .iabs h t sat a b => Sys2Proof.Machine.execIabs h t sat a b s
  | .and h t a b c => Sys2Proof.Machine.execAnd h t a b c s
  | .or h t a b c => Sys2Proof.Machine.execOr h t a b c s
  | .xor h t a b c => Sys2Proof.Machine.execXor h t a b c s
  | .andn h t a b c => Sys2Proof.Machine.execAndn h t a b c s
  | .bfn3 h t a b c e tt => Sys2Proof.Machine.execBfn3 h t a b c e tt s
  | .shl h t a b c => Sys2Proof.Machine.execShl h t a b c s
  | .shr h t a b c => Sys2Proof.Machine.execShr h t a b c s
  | .fsh h t a hi lo sh => Sys2Proof.Machine.execFsh h t a hi lo sh s
  | .popc h t a b => Sys2Proof.Machine.execPopc h t a b s
  | .clz h t a b => Sys2Proof.Machine.execClz h t a b s
  | .brev h t a b => Sys2Proof.Machine.execBrev h t a b s
  | .bfx h t a b pos len => Sys2Proof.Machine.execBfx h t a b pos len s
  | .bfi h t a b f pos len => Sys2Proof.Machine.execBfi h t a b f pos len s
  | .adrs h t a base idx sh => Sys2Proof.Machine.execAdrs h t a base idx sh s
  | .permb h a b c sel => Sys2Proof.Machine.execPermb h a b c sel s
  | .sel h t a b c p => Sys2Proof.Machine.execSel h t a b c p s
  | .mov h t a b => Sys2Proof.Machine.execMov h t a b s
  | .movs h wide a x => Sys2Proof.Machine.execMovs h wide a x s
  | .movc h x b => Sys2Proof.Machine.execMovc h x b s
  | .icmp h cond t pd b c => Sys2Proof.Machine.execIcmp h cond t pd b c s
  | .plop h pd pa pb pc tt => Sys2Proof.Machine.execPlop h pd pa pb pc tt s
  | .shfl h mode t pd a b c w => Sys2Proof.Machine.execShfl h mode t pd a b c w s
  | .vote h mode pd a p => Sys2Proof.Machine.execVote h mode pd a p s
  | .ballot h a p => Sys2Proof.Machine.execBallot h a p s
  | .redux h op t a b => Sys2Proof.Machine.execRedux h op t a b s
  | .scan h op excl seg t a b => Sys2Proof.Machine.execScan h op excl seg t a b s
  | .matchLanes h whole t pd a b => Sys2Proof.Machine.execMatchLanes h whole t pd a b s
  | .elect h pd a => Sys2Proof.Machine.execElect h pd a s
  | .fadd h t sat rnd a b c => Sys2Proof.Machine.execFadd h t sat rnd a b c s
  | .fsub h t sat rnd a b c => Sys2Proof.Machine.execFsub h t sat rnd a b c s
  | .fmul h t sat rnd a b c => Sys2Proof.Machine.execFmul h t sat rnd a b c s
  | .ffma h t sat rnd a b c e => Sys2Proof.Machine.execFfma h t sat rnd a b c e s
  | .fmin h t a b c => Sys2Proof.Machine.execFmin h t a b c s
  | .fmax h t a b c => Sys2Proof.Machine.execFmax h t a b c s
  | .fcmp h cond t pd b c => Sys2Proof.Machine.execFcmp h cond t pd b c s
  | .fclass h t pd b m => Sys2Proof.Machine.execFclass h t pd b m s
  | .frnd h t rnd a b => Sys2Proof.Machine.execFrnd h t rnd a b s
  | .fscale h t rnd a b n => Sys2Proof.Machine.execFscale h t rnd a b n s
  | .fgexp h t a b => Sys2Proof.Machine.execFgexp h t a b s
  | .fdot2 h t rnd a b c e => Sys2Proof.Machine.execFdot2 h t rnd a b c e s
  | .frcp h t rnd a b => Sys2Proof.Machine.execFrcp h t rnd a b s
  | .frsq h t a b => Sys2Proof.Machine.execFrsq h t a b s
  | .fsqrt h t rnd a b => Sys2Proof.Machine.execFsqrt h t rnd a b s
  | .fexp2 h t a b => Sys2Proof.Machine.execFexp2 h t a b s
  | .flog2 h t a b => Sys2Proof.Machine.execFlog2 h t a b s
  | .fsin h t a b => Sys2Proof.Machine.execFsin h t a b s
  | .fcos h t a b => Sys2Proof.Machine.execFcos h t a b s
  | .ftanh h t a b => Sys2Proof.Machine.execFtanh h t a b s
  | .fsigm h t a b => Sys2Proof.Machine.execFsigm h t a b s
  | .cvt h d st sat rnd a b c => Sys2Proof.Machine.execCvt h d st sat rnd a b c s
  | .cvtsEncode h slot a b c m pos => Sys2Proof.Machine.execCvtsEncode h slot a b c m pos s
  | .cvtsDecode h slot a b idx => Sys2Proof.Machine.execCvtsDecode h slot a b idx s
  | .qblk h slot a b => Sys2Proof.Machine.execQblk h slot a b s
  | .dqblk h slot a b => Sys2Proof.Machine.execDqblk h slot a b s
  | .dropm h wide pd b c => Sys2Proof.Machine.execDropm h wide pd b c s
  | .rng h t a b => Sys2Proof.Machine.execRng h t a b s
  | .bra h off => Sys2Proof.Machine.execBra h off s
  | .brx h b => Sys2Proof.Machine.execBrx h b s
  | .call h a off => Sys2Proof.Machine.execCall h a off s
  | .ret h b => Sys2Proof.Machine.execRet h b s
  | .exit h => Sys2Proof.Machine.execExit h s
  | .yield h => Sys2Proof.Machine.execYield h s
  | .nop h => Sys2Proof.Machine.execNop h s
  | .waitc h ld st cp tl => Sys2Proof.Machine.execWaitc h ld st cp tl s
  | .enrol h n => Sys2Proof.Machine.execEnrol h n s
  | .rejoin h n => Sys2Proof.Machine.execRejoin h n s
  | .strike h n => Sys2Proof.Machine.execStrike h n s
  | .trap h code => Sys2Proof.Machine.execTrap h code s
  | .rte h => Sys2Proof.Machine.execRte h s
  | .ipf h n off => Sys2Proof.Machine.execIpf h n off s
  | .icinv h b len => Sys2Proof.Machine.execIcinv h b len s
  | .ifence h => Sys2Proof.Machine.execIfence h s
  | .ld h t kind scope a m => Sys2Proof.Machine.execLd h t kind scope a m s
  | .st h t kind scope m d => Sys2Proof.Machine.execSt h t kind scope m d s
  | .atom h op t kind scope a m d => Sys2Proof.Machine.execAtom h op t kind scope a m d s
  | .red h op t kind scope m d => Sys2Proof.Machine.execRed h op t kind scope m d s
  | .fld h a pd m => Sys2Proof.Machine.execFld h a pd m s
  | .fset h pd m d => Sys2Proof.Machine.execFset h pd m d s
  | .fclr h m => Sys2Proof.Machine.execFclr h m s
  | .waiton h cond t a m d => Sys2Proof.Machine.execWaiton h cond t a m d s
  | .txb h off => Sys2Proof.Machine.execTxb h off s
  | .txe h => Sys2Proof.Machine.execTxe h s
  | .txa h code => Sys2Proof.Machine.execTxa h code s
  | .fence h kind scope spec => Sys2Proof.Machine.execFence h kind scope spec s
  | .gath h t a m n => Sys2Proof.Machine.execGath h t a m n s
  | .dpf h m => Sys2Proof.Machine.execDpf h m s
  | .cpy h scope auto dst src len tag => Sys2Proof.Machine.execCpy h scope auto dst src len tag s
  | .cpyt h scope auto dst src org tag => Sys2Proof.Machine.execCpyt h scope auto dst src org tag s
  | .tagarm h tag count => Sys2Proof.Machine.execTagarm h tag count s
  | .tagwt h all mask => Sys2Proof.Machine.execTagwt h all mask s
  | .tagff h a mask => Sys2Proof.Machine.execTagff h a mask s
  | .tagclr h mask => Sys2Proof.Machine.execTagclr h mask s
  | .bari h nx nb n => Sys2Proof.Machine.execBari h nx nb n s
  | .bara h nb rank => Sys2Proof.Machine.execBara h nb rank s
  | .barw h nb phi => Sys2Proof.Machine.execBarw h nb phi s
  | .bar h => Sys2Proof.Machine.execBar h s
  | .tcfg h part t x => Sys2Proof.Machine.execTcfg h part t x s
  | .tld h t ql qc => Sys2Proof.Machine.execTld h t ql qc s
  | .tzero h f64 a => Sys2Proof.Machine.execTzero h f64 a s
  | .mma h a ta tb => Sys2Proof.Machine.execMma h a ta tb s
  | .mmas h pat a ta tb tm => Sys2Proof.Machine.execMmas h pat a ta tb tm s
  | .dcmp h pat ta qd terms l => Sys2Proof.Machine.execDcmp h pat ta qd terms l s
  | .mmad h a ta tb => Sys2Proof.Machine.execMmad h a ta tb s
  | .tdrain h add raw auto scope kind a ql qc tag => Sys2Proof.Machine.execTdrain h add raw auto scope kind a ql qc tag s
  | .tmov h kind t a blk => Sys2Proof.Machine.execTmov h kind t a blk s
  | .tepi h op kind t a blk alpha tb => Sys2Proof.Machine.execTepi h op kind t a blk alpha tb s
  | .tstv h ty t off vs => Sys2Proof.Machine.execTstv h ty t off vs s
  | .tldv h ty vd t off => Sys2Proof.Machine.execTldv h ty vd t off s
  | .launch h b => Sys2Proof.Machine.execLaunch h b s
  | .pbar h => Sys2Proof.Machine.execPbar h s
  | .gbar h => Sys2Proof.Machine.execGbar h s
  | .event h x => Sys2Proof.Machine.execEvent h x s
  | .forkw h n off => Sys2Proof.Machine.execForkw h n off s
  | .yieldw h x => Sys2Proof.Machine.execYieldw h x s
  | .choose h k => Sys2Proof.Machine.execChoose h k s
  | .chooseNone h => Sys2Proof.Machine.execChooseNone h s
  | .chooseSelf h => Sys2Proof.Machine.execChooseSelf h s
  | .issueSelect k j => Sys2Proof.Machine.execIssueSelect k j s
  | .classBatchClose k j => Sys2Proof.Machine.execClassBatchClose k j s
  | .yieldExpiry w => Sys2Proof.Machine.execYieldExpiry w s
  | .instanceStart k j u => Sys2Proof.Machine.execInstanceStart k j u s
  | .resultWrite w => Sys2Proof.Machine.execResultWrite w s
  | .slackViolation w => Sys2Proof.Machine.execSlackViolation w s
  | .unitGate k j u => Sys2Proof.Machine.execUnitGate k j u s
  | .unitWake k j u => Sys2Proof.Machine.execUnitWake k j u s
  | .requestSend r => Sys2Proof.Machine.execRequestSend r s
  | .homeSliceRequest r => Sys2Proof.Machine.execHomeSliceRequest r s
  | .fillArrive r => Sys2Proof.Machine.execFillArrive r s
  | .writeAck r => Sys2Proof.Machine.execWriteAck r s
  | .accessRetry r => Sys2Proof.Machine.execAccessRetry r s
  | .releaseComplete f => Sys2Proof.Machine.execReleaseComplete f s
  | .specFenceComplete f => Sys2Proof.Machine.execSpecFenceComplete f s
  | .waitonPoll r => Sys2Proof.Machine.execWaitonPoll r s
  | .fifoServe cluster bank => Sys2Proof.Machine.execFifoServe cluster bank s
  | .gatherSubgroupRelease g => Sys2Proof.Machine.execGatherSubgroupRelease g s
  | .txCommit c => Sys2Proof.Machine.execTxCommit c s
  | .txUnlock c => Sys2Proof.Machine.execTxUnlock c s
  | .copyDeliver c => Sys2Proof.Machine.execCopyDeliver c s
  | .pageFaultRoute x page => Sys2Proof.Machine.execPageFaultRoute x page s
  | .replayComplete w n => Sys2Proof.Machine.execReplayComplete w n s
  | .ifetchRequest k line => Sys2Proof.Machine.execIfetchRequest k line s
  | .ifetchFill r => Sys2Proof.Machine.execIfetchFill r s
  | .fetchFault r => Sys2Proof.Machine.execFetchFault r s
  | .tileInstrStart t => Sys2Proof.Machine.execTileInstrStart t s
  | .tileInstrComplete t n => Sys2Proof.Machine.execTileInstrComplete t n s
  | .phaseRecordWrite b => Sys2Proof.Machine.execPhaseRecordWrite b s
  | .phaseStart b => Sys2Proof.Machine.execPhaseStart b s
  | .gbarOpen g => Sys2Proof.Machine.execGbarOpen g s
  | .blockPlace g => Sys2Proof.Machine.execBlockPlace g s
  | .blockDeschedule b => Sys2Proof.Machine.execBlockDeschedule b s
  | .blockRequeue b => Sys2Proof.Machine.execBlockRequeue b s
  | .blockEnd b => Sys2Proof.Machine.execBlockEnd b s
  | .gridComplete g => Sys2Proof.Machine.execGridComplete g s
  | .gridTimeLimit g => Sys2Proof.Machine.execGridTimeLimit g s
  | .deviceLaunchRead d => Sys2Proof.Machine.execDeviceLaunchRead d s
  | .rivalEnd b => Sys2Proof.Machine.execRivalEnd b s
  | .viewCommit v => Sys2Proof.Machine.execViewCommit v s
  | .commitRetryEnd v => Sys2Proof.Machine.execCommitRetryEnd v s
  | .outboxPerform v => Sys2Proof.Machine.execOutboxPerform v s
  | .viewIdReturn v => Sys2Proof.Machine.execViewIdReturn v s
  | .viewSpill v line => Sys2Proof.Machine.execViewSpill v line s
  | .hostMemWrite pa bytes => Sys2Proof.Machine.execHostMemWrite pa bytes s
  | .ylReductionArrive pa op t x => Sys2Proof.Machine.execYlReductionArrive pa op t x s
  | .ylLinkState y up chip => Sys2Proof.Machine.execYlLinkState y up chip s
  | .memoryError kind unit index pa va x => Sys2Proof.Machine.execMemoryError kind unit index pa va x s
  | .qtailDoorbell q v => Sys2Proof.Machine.execQtailDoorbell q v s
  | .qctlReset q ctl => Sys2Proof.Machine.execQctlReset q ctl s
  | .queueEnable q ctl => Sys2Proof.Machine.execQueueEnable q ctl s
  | .queueDisable q ctl => Sys2Proof.Machine.execQueueDisable q ctl s
  | .ringEnable r ctl => Sys2Proof.Machine.execRingEnable r ctl s
  | .ringDisable r ctl => Sys2Proof.Machine.execRingDisable r ctl s
  | .eheadWrite r v => Sys2Proof.Machine.execEheadWrite r v s
  | .interruptCoalesceTimeout r => Sys2Proof.Machine.execInterruptCoalesceTimeout r s
  | .creset x => Sys2Proof.Machine.execCreset x s
  | .partcfgWrite v => Sys2Proof.Machine.execPartcfgWrite v s
  | .registerWrite off size v => Sys2Proof.Machine.execRegisterWrite off size v s
  | .pad q len => Sys2Proof.Machine.execPad q len s
  | .launchPkt q n h record limit => Sys2Proof.Machine.execLaunchPkt q n h record limit s
  | .graph q n h table count limit => Sys2Proof.Machine.execGraph q n h table count limit s
  | .graphNodeStart gr node => Sys2Proof.Machine.execGraphNodeStart gr node s
  | .copy q n h src dst bytes => Sys2Proof.Machine.execCopy q n h src dst bytes s
  | .fill q n h dst bytes pattern => Sys2Proof.Machine.execFill q n h dst bytes pattern s
  | .signalWrite q n h addr v => Sys2Proof.Machine.execSignalWrite q n h addr v s
  | .signalAdd q n h addr v => Sys2Proof.Machine.execSignalAdd q n h addr v s
  | .wait q n h addr v cond timeout => Sys2Proof.Machine.execWait q n h addr v cond timeout s
  | .waitTimeout q n => Sys2Proof.Machine.execWaitTimeout q n s
  | .inval q n h start bytes whole => Sys2Proof.Machine.execInval q n h start bytes whole s
  | .resume q n h fq seq addr unres => Sys2Proof.Machine.execResume q n h fq seq addr unres s
  | .preemptSaveQueue q n h target area size => Sys2Proof.Machine.execPreemptSaveQueue q n h target area size s
  | .preemptSaveContext q n h area size => Sys2Proof.Machine.execPreemptSaveContext q n h area size s
  | .preemptRestore q n h area size => Sys2Proof.Machine.execPreemptRestore q n h area size s
  | .stop q n h target => Sys2Proof.Machine.execStop q n h target s
  | .stopContinue q n h target => Sys2Proof.Machine.execStopContinue q n h target s
  | .ctxcreate q n h body => Sys2Proof.Machine.execCtxcreate q n h body s
  | .ctxdestroy q n h ctx => Sys2Proof.Machine.execCtxdestroy q n h ctx s
  | .cmcfgCacheWay q n h cluster mask => Sys2Proof.Machine.execCmcfgCacheWay q n h cluster mask s
  | .cmcfgScratchpad q n h cluster mask owner => Sys2Proof.Machine.execCmcfgScratchpad q n h cluster mask owner s
  | .cmcfgFifo q n h cluster mask owner port => Sys2Proof.Machine.execCmcfgFifo q n h cluster mask owner port s
  | .oppoint q n h mask slots railf railt => Sys2Proof.Machine.execOppoint q n h mask slots railf railt s
  | .railSlewDone => Sys2Proof.Machine.execRailSlewDone s
  | .retentionEnter cluster => Sys2Proof.Machine.execRetentionEnter cluster s
  | .wakeStart cluster => Sys2Proof.Machine.execWakeStart cluster s
  | .retentionExit cluster parityError => Sys2Proof.Machine.execRetentionExit cluster parityError s
  | .histEnable v => Sys2Proof.Machine.execHistEnable v s
  | .histDisable v => Sys2Proof.Machine.execHistDisable v s
  | .histDrainDone => Sys2Proof.Machine.execHistDrainDone s
  | .thermalSample celsius => Sys2Proof.Machine.execThermalSample celsius s
  | .thermalRecover => Sys2Proof.Machine.execThermalRecover s
  | .deviceReset => Sys2Proof.Machine.execDeviceReset s
  | .loadimg => Sys2Proof.Machine.execLoadimg s
  | .enrolKey => Sys2Proof.Machine.execEnrolKey s
  | .revoke => Sys2Proof.Machine.execRevoke s
  | .romboot => Sys2Proof.Machine.execRomboot s
  | .mailboxBadcmd => Sys2Proof.Machine.execMailboxBadcmd s
  | .getVersion req => Sys2Proof.Machine.execGetVersion req s
  | .getCapabilities req => Sys2Proof.Machine.execGetCapabilities req s
  | .negotiateAlgorithms req => Sys2Proof.Machine.execNegotiateAlgorithms req s
  | .getDigests req => Sys2Proof.Machine.execGetDigests req s
  | .getCertificate req => Sys2Proof.Machine.execGetCertificate req s
  | .challenge req => Sys2Proof.Machine.execChallenge req s
  | .getMeasurements req => Sys2Proof.Machine.execGetMeasurements req s
  | .keyExchange req => Sys2Proof.Machine.execKeyExchange req s
  | .finish req => Sys2Proof.Machine.execFinish req s
  | .hostPeerWriteAck r => Sys2Proof.Machine.execHostPeerWriteAck r s
  | .yunavinFlitRetry y => Sys2Proof.Machine.execYunavinFlitRetry y s

end Sys2Proof.Machine
end

