-- ==== Sys2Proof/Machine/Run.lean ====
section
/-! DEFINITION. One step of the device: the selected party runs its word, or the next event happens, or time goes on; and the state in
which a given word is the next to run. -/

namespace Sys2Proof.Machine

/-- The party that ran has had its turn. -/
def popOutcome (o : Out) : Out :=
  match o with
  | .next s => .next s.popCursor
  | .fault f => .fault f
  | .refused r => .refused r

/-- Run the word of the selected party: its meaning, or the outcome of an illegal word (R195). -/
def runWord (st : Stream) (w : IWord) (s : State) : Out :=
  match decodeWord st w with
  | .ok i => popOutcome (exec i s)
  | .error reason => .next (illegalWord reason s).popCursor

/-- One step: the first selected party runs; when there is none, the first event of the agenda happens; when there is
none, time goes on by one master pulse. -/
def runStep (s : State) : Out :=
  match s.cursor with
  | _ :: _ =>
    match s.fetch with
    | some (st, w) => runWord st w s
    | none => .next s.popCursor
  | [] =>
    match s.agenda with
    | e :: rest => exec e.ev ({ s with agenda := rest }.advance e.pulses)
    | [] => .next s.pulse

/-! ### The state in which a word is the next to run (log entry 8) -/

/-- A word stands at a PC in the L1 instruction cache of a core. -/
def State.putWord (s : State) (k ctx asid view : Nat) (pc : PC) (w : IWord) : State :=
  let a := pc.toNat
  let old := (s.core k).l1i.find? (fun l => l.hits (a / 192) asid view)
  let d : DLine :=
    { line := a / 192, asid := asid, view := view, ctx := ctx, data := lineSet ((old.map (fun (l : DLine) => l.data)).getD 0) (a % 192) 16 w.toNat
      valid := ((old.map (fun (l : DLine) => l.valid)).getD 0) ||| BitVec.ofNat 12 (2 ^ (a % 192 / 16)), expiry := 0, tldv := 0, tlsy := 0, hint := 0,
      lastUse := 0, way := 0, leafs := [] }
  s.modCore k (fun c => { c with l1i := d :: c.l1i.filter (fun l => !l.hits (a / 192) asid view) })

/-- A launch that asks for every register, tag and barrier of a core, for one warp and its sequencer. -/
def seedRec : LaunchRec :=
  { LaunchRec.ofBytes [] with e := [32, 1, 1, 1, 1, 1], regs := 256, trows := 32, tags := 64, nbars := 32, handler := 192 }

/-- A grid with one block of one warp and one tenant on core 0, where no party of a stream is there to run. -/
def State.seed (s : State) : State :=
  let g := mapFresh s.grids
  let b := mapFresh s.blocks
  let w := mapFresh s.warps
  let t := mapFresh s.tenants
  let h : PktHdr := { idem := false, nocpl := false, fence := false, ring := 0, user := 0 }
  let wp := { Warp.start 0 0 ((upTo 32).map (fun _ => Lane.start true 0)) 0 with block := b }
  let te := { Tenant.start seedRec 0 0 0 true with block := b }
  { s with
    grids := s.grids ++ [(g, { Grid.fresh 0 0 0 h .packet seedRec 0 0 0 with next := 1 })]
    blocks := s.blocks ++ [(b, { Block.start g 0 0 with
      st := .resident, cores := [0], warps := [w], tenants := [t], nbars := startNbars seedRec 32 })]
    warps := s.warps ++ [(w, wp)]
    tenants := s.tenants ++ [(t, te)] }

/-- A party of a stream that can run: a group of the lowest runnable lane of a warp, or a running sequencer. -/
def State.candidate (s : State) (st : Stream) : Option Cursor :=
  match st with
  | .vector => s.warps.findSome? (fun e => (groupOf e.2 e.1 (BitVec.allOnes 32)).map (fun g => Cursor.group e.1 (lanesMask g.lanes)))
  | .tile => (s.tenants.find? (fun e => e.2.st = .running)).map (fun e => Cursor.seq e.1)

/-- A party of a stream is the next to run. -/
def State.select (s : State) (st : Stream) : State :=
  if (s.cursor.head?.bind s.party).any (fun p => p.1 = st) then s
  else
    let s := if (s.candidate st).isSome then s else s.seed
    match s.candidate st with
    | some c => { s with cursor := c :: s.cursor }
    | none => s

/-- A word is the next to run: its line is in the L1 instruction cache of the party that is selected. -/
def State.withWord (s : State) (w : IWord) : State :=
  let s := s.select (streamOf w)
  match s.cursor.head?.bind s.party with
  | some (_, k, b, pc) => s.putWord k (s.ctxIdOf b) (s.asidOf b) (s.viewOf b) pc w
  | none => s

end Sys2Proof.Machine
end

