-- ==== Sys2Proof/Machine/Step.lean ====
section
/-! DEFINITION. The step of the machine, and the state in which a word is the next to run. -/

namespace Sys2Proof.Machine

/-- One step of the machine. -/
def step (s : State) : Host.Outcome State Fault Refusal := runStep s

/-- The word given by its bits (an instruction is one 128-bit word, R180) stands where the next step fetches: in the instruction line
of the selected party; the reset state, which has no party, is given one (log entry 8). -/
def State.withFetchWord (s : State) (nbits w : Nat) : State := s.withWord (BitVec.ofNat 128 (w % 2 ^ nbits))

end Sys2Proof.Machine
end

