-- ==== Sys2Proof/Safety.lean ====
section
/-! DEFINITION. What counts as a safe run, and the words in which statements about steps are put: what an instruction leaves in
the warp or tenant that ran it, and what it leaves alone. -/

namespace Sys2Proof.Machine

/-- A step that goes on: neither a fault nor a refusal. The manual describes no state from which the part cannot go on (a failed
access is an error response, a page fault parks its party, a trap without a handler kills its block). -/
def Out.GoesOn (o : Out) : Prop := ∃ t, o = .next t

/-- A safe state: memory in its canonical form. -/
def State.Safe (s : State) : Prop := Memory.wf s.mem = true

/-! ### Frames -/

/-- Nothing differs but what one warp holds. -/
def OnlyWarp (s t : State) (w : Nat) : Prop := t = { s with warps := t.warps } ∧ ∀ v, v ≠ w → t.warp? v = s.warp? v

/-- Nothing differs but what one tenant holds. -/
def OnlyTenant (s t : State) (n : Nat) : Prop := t = { s with tenants := t.tenants } ∧ ∀ v, v ≠ n → t.tenant? v = s.tenant? v

/-- A lane of a group after an instruction whose guard-true lanes keep the results `ws` of lane `l`: every lane of the group
advances one word (R6, R204). -/
def laneAfter (g : Grp) (G : List Nat) (f : Nat → List Wr) (l : Nat) (la : Lane) : Lane :=
  let la' := if l ∈ G then la.puts (f l) else la
  if l ∈ g.lanes then la'.step else la'

/-- The warp of a group with the uniform registers that an instruction leaves: those of its lowest guard-true lane (R205). -/
def uniAfter (wp : Warp) (G : List Nat) (f : Nat → List Wr) : Warp :=
  match G with
  | [] => wp
  | l :: _ => wp.putsUni (f l)

/-- What an instruction that computes on registers leaves: each guard-true lane has its own results, the uniform registers those of
the lowest guard-true lane (R205), every lane of the group has advanced, and nothing else has changed. -/
structure GroupResult (s t : State) (g : Grp) (G : List Nat) (f : Nat → List Wr) : Prop where
  frame : OnlyWarp s t g.w
  lanes : ∀ l, t.lane? g.w l = (s.lane? g.w l).map (laneAfter g G f l)
  warp : (t.warp? g.w).map (fun wp => { wp with lanes := g.wp.lanes }) =
    some (uniAfter g.wp G f)

/-- An instruction changes the lanes of the warp that ran it, lane `l` by `f l`, and nothing else. -/
structure LanesResult (s t : State) (g : Grp) (f : Nat → Lane → Lane) : Prop where
  frame : OnlyWarp s t g.w
  lanes : ∀ l, t.lane? g.w l = (s.lane? g.w l).map (f l)
  warp : (t.warp? g.w).map (fun wp => { wp with lanes := g.wp.lanes }) = some g.wp

/-- … and makes `r` of what the warp holds besides its lanes. -/
structure WarpResult (s t : State) (g : Grp) (f : Nat → Lane → Lane) (r : Warp) : Prop where
  frame : OnlyWarp s t g.w
  lanes : ∀ l, t.lane? g.w l = (s.lane? g.w l).map (f l)
  warp : (t.warp? g.w).map (fun wp => { wp with lanes := g.wp.lanes }) = some { r with lanes := g.wp.lanes }

/-- The guard-false lanes of a group have passed their word (R6). -/
def State.passFalse (s : State) (g : Grp) (h : Hdr) : State := s.stepLanes g.w (g.lanes.filter (fun l => l ∉ g.trues h))

/-- What an instruction that only changes the lanes of its group makes of lane `l`: `f` for a guard-true lane, one word on for the
others (R6). -/
def groupLane (g : Grp) (h : Hdr) (f : Nat → Lane → Lane) (l : Nat) (la : Lane) : Lane :=
  if l ∈ g.trues h then f l la else if l ∈ g.lanes then la.step else la

/-- The group of a warp runs, with `G` its guard-true lanes, and every vector register named lies below the launch's count (R206). -/
structure Runs (s : State) (g : Grp) (top : Nat) : Prop where
  grp : s.grp = some g
  regs : top ≤ s.regsOf g.wp.block

/-- A sequencer runs. -/
structure SeqRuns (s : State) (n : Nat) (te : Tenant) : Prop where
  seq : s.seq = some n
  tenant : s.tenant? n = some te

/-- An outcome of an instruction that computes on registers only, with one more than the highest vector register it names and its
results for the lane that reads `r`, `rs` being what every guard-true lane reads. In the vector stream it completes with
`GroupResult`, or traps each guard-true lane with ILLOP reason 0x0B where a register lies beyond the launch's count (R206); in the
tile stream it writes q registers and predicates of its tenant and advances it, when its guard is true (R293). -/
structure Computes (h : Hdr) (top : Nat) (f : List Regs → Regs → List Wr) (s : State) (o : Out) : Prop where
  vector : ∀ g, Runs s g top → ∃ t, o = .next t ∧
    GroupResult s t g (g.trues h) (fun l => f ((g.trues h).map (s.laneRegs g)) (s.laneRegs g l))
  beyond : ∀ g, s.grp = some g → s.regsOf g.wp.block < top →
    o = .next ((s.stepLanes g.w (g.lanes.filter (fun l => l ∉ g.trues h))).illopLanes g (g.trues h) 0x0B)
  tile : ∀ n te, SeqRuns s n te → ∃ t, o = .next t ∧ OnlyTenant s t n ∧
    t.tenant? n = some { (if guardOf h te.pred then
        te.puts (f [te.regs (s.widOf te.block) (s.seedOf te.block)] (te.regs (s.widOf te.block) (s.seedOf te.block))) else te)
      with pc := te.pc + 16 }

/-! ### Memory instructions at issue -/

/-- What a memory instruction needs to ask for each lane of `G`: no open transaction, an address that passes the checks of R263 and is
to be performed, and no FIFO port, where lanes wait their turn (R68). `s` is the state that the guard-false lanes have left. -/
structure Clear (s : State) (g : Grp) (G : List Nat) (m : MAddr) (i : MemI) : Prop where
  tx : ∀ l ∈ G, ∀ la, g.wp.lane? l = some la → la.tx = none
  pass : ∀ l ∈ G, s.checkLane (s.whoOf g) g.pc i.kind ((s.laneRegs g l).addr m) i.bytes i.align =
    .ok (va57 ((s.laneRegs g l).addr m)) .perform
  port : ∀ l ∈ G, s.atPort (s.whoOf g) (va57 ((s.laneRegs g l).addr m)) = false

/-- The access of a lane: its address, its width, and the low bytes of its data. -/
def accOf (s : State) (g : Grp) (m : MAddr) (i : MemI) (data : Nat → Nat) (l : Nat) : Acc :=
  { lane := l, addr := va57 ((s.laneRegs g l).addr m), bytes := i.bytes, data := BitVec.ofNat 128 (data l % 2 ^ (8 * i.bytes)),
    result := none, pred := false }

/-- The requests that an instruction adds: together they make each of its accesses once; each lies in one page of one line, is made
for the group's warp, and stands in the state `st`; a wait or a future load stands alone, and of the others there is one request for
each line and page (R58, R62). Older requests stay as they are. -/
structure Asks (s t : State) (g : Grp) (i : MemI) (st : ReqSt) (accs : List Acc) : Prop where
  older : t.reqs.take s.reqs.length = s.reqs
  all : ((t.reqs.drop s.reqs.length).flatMap (fun e => e.2.accs)).Perm accs
  each : ∀ e ∈ t.reqs.drop s.reqs.length, e.2.kind = i.kind ∧ e.2.st = st ∧ e.2.warp = some g.w ∧ e.2.core = g.wp.core ∧
    e.2.block = some g.wp.block ∧ e.2.view = s.viewOf g.wp.block ∧ e.2.asid = s.asidOf g.wp.block ∧ e.2.pc = g.pc ∧
    e.2.accs ≠ [] ∧ ∀ a ∈ e.2.accs, lineOf a.addr = e.2.line ∧ pageOf a.addr = e.2.page
  alone : i.kind.alone = true → ∀ e ∈ t.reqs.drop s.reqs.length, e.2.accs.length = 1
  lines : i.kind.alone = false → ((t.reqs.drop s.reqs.length).map (fun e => (e.2.line, e.2.page))).Nodup

/-- A memory instruction has issued: its guard-true lanes have become `f`, its requests are made, one counter of the warp is up by one
(`k`), and its destination registers are pending for its lanes; besides, only an acquire of its lanes and the fence of a release may
have changed. -/
structure Issues (s t : State) (g : Grp) (h : Hdr) (i : MemI) (f : Lane → Lane) (k : Warp → Warp) (st : ReqSt) (accs : List Acc) :
    Prop where
  frame : t = { s with warps := t.warps, reqs := t.reqs, fences := t.fences, tick := t.tick }
  others : ∀ v, v ≠ g.w → t.warp? v = s.warp? v
  lanes : ∀ l, t.lane? g.w l = (s.lane? g.w l).map (groupLane g h (fun _ => f) l)
  warp : ∃ wp, t.warp? g.w = some wp ∧
    { wp with lanes := g.wp.lanes, pend := g.wp.pend, acquire := g.wp.acquire } = k g.wp ∧
    ∃ p ∈ wp.pend, (∀ l ∈ g.trues h, p.lanes.getLsbD l = true) ∧
      p.vregs = (match i.dst with
        | .v n => (List.range (max 1 (i.bits / 32))).map (fun j => n.toNat + j)
        | _ => []) ∧
      p.sregs = (match i.dst with
        | .s n => (List.range (max 1 (i.bits / 32))).map (fun j => n.toNat + j)
        | _ => [])
  asks : Asks s t g i st accs

/-! ### Packets -/

/-- A packet of a queue starts now: it is the command of its number, it may start (R338), and, where it acts in its context, that is
open (R341, R352). -/
structure Starts (s : State) (i : Instr) (q n : Nat) (inCtx : Bool) : Prop where
  cmd : ∃ c, s.cmd? q n = some c ∧ c.instr = i
  may : s.mayStart q n = true
  open_ : inCtx = true → s.ctxOpen (s.queueCtx q) = true

end Sys2Proof.Machine
end

