-- ==== Sys2Proof/Certificates/Slice0/Obligations.lean ====
section
/-! DEFINITION. The statements about the model that are to be proved. -/

open Sys2Proof
open Sys2Proof.Machine

/-- For iadd, isub, imul, imulh, imad, imin, imax, iabs and idiv, at every type, operand, saturation and guard: in the vector stream
the instruction answers a next state in which each guard-true lane has its result (exact, clamped under SAT, else wrapped), a
uniform destination has the result of the lowest guard-true lane, every lane of the group has advanced and nothing else has
changed; a vector register at or above the launch count gives ILLOP reason 0x0B in the guard-true lanes; in the tile stream the q
registers of the tenant are written when the guard is true. (R204, R205, R206, R209, R130) -/
def Obligations.IntegerArithmeticResults : Prop :=
  ∀ (h : Hdr) (t : Ty) (sat : Bool) (a m : Dst) (b c e : Opd) (s : State),
    let w (r : Regs) (o : Opd) : Int := intVal t (r.src t o)
    let two (i : Instr) (st : Bool) (f : Int → Int → Int) : Prop :=
      Computes h (max (a.top t.bits) (max (b.top t.bits) (c.top t.bits)))
        (fun _ r => [.reg a t.bits (wrapTo t (if st then clampTo t (f (w r b) (w r c)) else f (w r b) (w r c)))]) s (exec i s)
    two (.iadd h t sat a b c) sat (fun x y => x + y) ∧
    two (.isub h t sat a b c) sat (fun x y => x - y) ∧
    two (.imul h t sat a b c) sat (fun x y => x * y) ∧
    two (.imulh h t a b c) false (fun x y => (x * y) / (2 ^ t.bits : Nat)) ∧
    two (.imin h t a b c) false (fun x y => if x ≤ y then x else y) ∧
    two (.imax h t a b c) false (fun x y => if x ≤ y then y else x) ∧
    Computes h (max (a.top t.bits) (max (max (b.top t.bits) (c.top t.bits)) (e.top t.bits)))
      (fun _ r => [.reg a t.bits (wrapTo t (if sat then clampTo t (w r b * w r c + w r e) else w r b * w r c + w r e))]) s
      (exec (.imad h t sat a b c e) s) ∧
    Computes h (max (a.top t.bits) (b.top t.bits))
      (fun _ r => [.reg a t.bits (wrapTo t (if sat then clampTo t (w r b).natAbs else (w r b).natAbs))]) s
      (exec (.iabs h t sat a b) s) ∧
    Computes h (max (max (a.top t.bits) (m.top t.bits)) (max (b.top t.bits) (c.top t.bits)))
      (fun _ r =>
        let x := w r b
        let y := w r c
        let qr : Int × Int :=
          if y = 0 then (if t.signed then -1 else (2 ^ t.bits : Nat) - 1, x)
          else if t.signed = true ∧ x = tyMin t ∧ y = -1 then (if sat then tyMax t else tyMin t, 0)
          else (x.tdiv y, x - x.tdiv y * y)
        [.reg m t.bits (wrapTo t qr.2), .reg a t.bits (wrapTo t qr.1)]) s
      (exec (.idiv h t sat a m b c) s)

/-- For and, or, xor, andn and bfn3 at every type, operand and guard: the instruction completes (with the frame of Computes), and bit
j of a result is the conjunction, disjunction, exclusive or, conjunction with the negation, or the truth-table bit (first source
least significant in the index) of bits j of the sources, for every bit below the width of the type. (R204, R205, R206, R211) -/
def Obligations.LogicResults : Prop :=
  ∀ (h : Hdr) (t : Ty) (a : Dst) (b c e : Opd) (tt : BitVec 8) (s : State),
    let bit (r : Regs) (o : Opd) (j : Nat) : Bool := (r.src t o).testBit j
    let does (i : Instr) (top : Nat) (f : Regs → Nat → Bool) : Prop :=
      ∃ v : Regs → Nat, (∀ r j, j < t.bits → j < 64 → (v r).testBit j = f r j) ∧
        Computes h (max (a.top t.bits) top) (fun _ r => [.reg a t.bits (v r)]) s (exec i s)
    does (.and h t a b c) (max (b.top t.bits) (c.top t.bits)) (fun r j => bit r b j && bit r c j) ∧
    does (.or h t a b c) (max (b.top t.bits) (c.top t.bits)) (fun r j => bit r b j || bit r c j) ∧
    does (.xor h t a b c) (max (b.top t.bits) (c.top t.bits)) (fun r j => bit r b j != bit r c j) ∧
    does (.andn h t a b c) (max (b.top t.bits) (c.top t.bits)) (fun r j => bit r b j && !bit r c j) ∧
    does (.bfn3 h t a b c e tt) (max (max (b.top t.bits) (c.top t.bits)) (e.top t.bits))
      (fun r j => tt.getLsbD ((bit r b j).toNat + 2 * (bit r c j).toNat + 4 * (bit r e j).toNat))

/-- shl, shr, fsh, popc, clz, brev, bfx, bfi, adrs and permb complete with the frame of Computes. shl gives 0 for an amount of the
width or more, else b times 2^s modulo 2^n; shr is a floor division, by 2^min(s, n-1) for a signed type; fsh shifts hi:lo right by
the amount modulo 2n; popc counts the ones of b; clz is n for 0 and else the zeros above the highest one; bit j of brev is bit
n-1-j of b; bfx and bfi use the effective field width; adrs extends the index; permb picks pool bytes by nibble. (R204, R205,
R206, R212, R213) -/
def Obligations.ShiftAndFieldResults : Prop :=
  ∀ (h : Hdr) (t : Ty) (a : Dst) (b c d e : Opd) (k : BitVec 5) (s : State),
    let n := t.bits
    let does (i : Instr) (bits top : Nat) (f : Regs → Nat) : Prop :=
      Computes h (max (a.top bits) top) (fun _ r => [.reg a bits (f r)]) s (exec i s)
    let fw (pos len : Nat) : Nat := if n ≤ pos then 0 else min len (n - pos)
    does (.shl h t a b c) n (max (b.top n) (c.top 32))
      (fun r => if n ≤ r.src32 c then 0 else r.src t b * 2 ^ r.src32 c % 2 ^ n) ∧
    does (.shr h t a b c) n (max (b.top n) (c.top 32))
      (fun r => if t.signed then wrapTo t (intVal t (r.src t b) / (2 ^ min (r.src32 c) (n - 1) : Nat))
        else if n ≤ r.src32 c then 0 else r.src t b / 2 ^ r.src32 c) ∧
    does (.fsh h t a b c d) n (max (max (b.top n) (c.top n)) (d.top 32))
      (fun r => (r.src t b * 2 ^ n + r.src t c) / 2 ^ (r.src32 d % (2 * n)) % 2 ^ n) ∧
    does (.popc h t a b) 32 (b.top n) (fun r => (List.range n).countP (fun j => (r.src t b).testBit j)) ∧
    (∃ f : Nat → Nat, does (.clz h t a b) 32 (b.top n) (fun r => f (r.src t b)) ∧ f 0 = n ∧
      ∀ x, 0 < x → x < 2 ^ n → f x < n ∧ x.testBit (n - 1 - f x) = true ∧ ∀ j, n - 1 - f x < j → x.testBit j = false) ∧
    (∃ f : Nat → Nat, does (.brev h t a b) n (b.top n) (fun r => f (r.src t b)) ∧
      ∀ x j, j < n → (f x).testBit j = x.testBit (n - 1 - j)) ∧
    does (.bfx h t a b c d) n (max (b.top n) (max (c.top 32) (d.top 32)))
      (fun r =>
        let w := fw (r.src32 c) (r.src32 d)
        let f := r.src t b / 2 ^ r.src32 c % 2 ^ w
        if w = 0 then 0 else wrapTo t (if t.signed = true ∧ f.testBit (w - 1) = true then (f : Int) - (2 ^ w : Nat) else f)) ∧
    (∃ f : Nat → Nat → Nat → Nat → Nat,
      does (.bfi h t a b c d e) n (max (max (b.top n) (c.top n)) (max (d.top 32) (e.top 32)))
        (fun r => f (r.src t b) (r.src t c) (r.src32 d) (r.src32 e)) ∧
      ∀ x y pos len j, j < n → (f x y pos len).testBit j =
        if pos ≤ j ∧ j < pos + fw pos len then y.testBit (j - pos) else x.testBit j) ∧
    does (.adrs h t a b c k) 64 (max (b.top 64) (c.top 32))
      (fun r => (((r.src64 b : Int) + intVal t (r.src32 c) * (2 ^ k.toNat : Nat)) % (2 ^ 64 : Nat)).toNat) ∧
    does (.permb h a b c d) 32 (max (max (b.top 32) (c.top 32)) (d.top 32))
      (fun r => ((List.range 4).map (fun i =>
        let sel := r.src32 d / 2 ^ (4 * i) % 16
        let pool := (r.src32 b + 2 ^ 32 * r.src32 c) / 2 ^ (8 * (sel % 8)) % 256
        (if 8 ≤ sel then (if 128 ≤ pool then 0xFF else 0) else pool) * 2 ^ (8 * i))).sum)

/-- sel writes its second source where the predicate is true and its third where it is not; mov writes its source; icmp writes the
comparison of its sources, signed or unsigned by type, to PD; plop writes the truth-table bit of its three predicates to PD. All
complete with the frame of Computes, at every operand form and guard. (R204, R205, R206, R211, R216) -/
def Obligations.SelectMoveCompareResults : Prop :=
  ∀ (h : Hdr) (t : Ty) (a : Dst) (b c : Opd) (p pd pa pb pc : BitVec 3) (tt : BitVec 8) (s : State),
    Computes h (max (a.top t.bits) (max (b.top t.bits) (c.top t.bits)))
      (fun _ r => [.reg a t.bits (if r.pr p.toNat then r.src t b else r.src t c)]) s (exec (.sel h t a b c p) s) ∧
    Computes h (max (a.top t.bits) (b.top t.bits)) (fun _ r => [.reg a t.bits (r.src t b)]) s (exec (.mov h t a b) s) ∧
    (∀ cond : Cond, cond.isInt = true →
      Computes h (max (b.top t.bits) (c.top t.bits))
        (fun _ r =>
          let x := intVal t (r.src t b)
          let y := intVal t (r.src t c)
          [.pred pd (match cond with
            | .eq => x = y
            | .ne => x ≠ y
            | .lt => x < y
            | .le => x ≤ y
            | .gt => y < x
            | _ => y ≤ x)]) s (exec (.icmp h cond t pd b c) s)) ∧
    Computes h 0
      (fun _ r => [.pred pd (tt.getLsbD ((r.pr pa.toNat).toNat + 2 * (r.pr pb.toNat).toNat + 4 * (r.pr pc.toNat).toNat))]) s
      (exec (.plop h pd pa pb pc tt) s)

/-- shfl takes the value of the source lane of its segment when that lane is in G, else keeps its own with a false predicate; vote
forms every, some, same or the count over the predicates of G; ballot and match give masks of lanes of G; elect names the lowest
lane of G; redux and scan fold the operation in ascending lane order, the scan from the identity and restarting at segment starts.
All complete with the frame of Computes, so lanes outside G supply and receive nothing. Where the manual leaves a point open, it
rests on the choice of the model in log entries 22, 23. (R205, R206, R220, R222, R223, R224) -/
def Obligations.CrossLaneResults : Prop :=
  ∀ (h : Hdr) (t : Ty) (pd p : BitVec 3) (d : Dst) (a b : BitVec 8) (c : Opd) (w : BitVec 3) (op : Aop) (s : State),
    let maskOf (rs : List Regs) : Nat := (lanesMask (rs.map (fun r => r.lane))).toNat
    (∀ mode, Computes h (max (max (Opd.top (.v a) t.bits) (Opd.top (.v b) t.bits)) (c.top 32))
      (fun G r =>
        let n := 2 ^ w.toNat
        let lo := r.lane - r.lane % n
        let k : Option Nat := match mode with
          | .pick => some (lo + r.src32 c % n)
          | .shift =>
            let x : Int := (r.lane % n : Nat) + intVal .i32 (r.src32 c)
            if 0 ≤ x ∧ x < n then some (lo + x.toNat) else none
          | .rot => some (lo + (r.lane % n + r.src32 c) % n)
          | .xor => some (lo + (r.lane % n ^^^ r.src32 c % n))
        match k.bind (fun k => G.find? (fun x => x.lane = k)) with
        | some x => [.reg (.v a) t.bits (x.src t (.v b)), .pred pd true]
        | none => [.reg (.v a) t.bits (r.src t (.v b)), .pred pd false]) s
      (exec (.shfl h mode t pd a b c w) s)) ∧
    (∀ mode, Computes h (d.top 32)
      (fun G _ =>
        let ps := G.map (fun r => r.pr p.toNat)
        let n := ps.countP (fun x => x)
        let v : Bool := match mode with
          | .every => n = ps.length
          | .some => 0 < n
          | .same => n = ps.length ∨ n = 0
          | .count => n % 2 = 1
        [.reg d 32 (if mode = .count then n else v.toNat), .pred pd v]) s (exec (.vote h mode pd d p) s)) ∧
    Computes h (d.top 32) (fun G _ => [.reg d 32 (maskOf (G.filter (fun r => r.pr p.toNat)))]) s (exec (.ballot h d p) s) ∧
    Computes h (max (d.top 32) (Opd.top (.v b) t.bits))
      (fun G r => [.reg d 32 (maskOf (G.filter (fun k => k.src t (.v b) = r.src t (.v b))))]) s
      (exec (.matchLanes h false t pd d b) s) ∧
    Computes h (max (d.top 32) (Opd.top (.v b) t.bits))
      (fun G _ =>
        let v : Bool := decide (∀ k ∈ G, ∀ j ∈ G, k.src t (.v b) = j.src t (.v b))
        [.reg d 32 (if v then maskOf G else 0), .pred pd v]) s (exec (.matchLanes h true t pd d b) s) ∧
    Computes h (d.top 32)
      (fun G r =>
        let f := ((G.map (fun x => x.lane)).head?).getD 0
        [.reg d 32 f, .pred pd (r.lane = f)]) s (exec (.elect h pd d) s) ∧
    Computes h (max (d.top t.bits) (Opd.top (.v b) t.bits))
      (fun G r => [.reg d t.bits (match G with
        | [] => 0
        | x :: rest => rest.foldl (fun acc y => crossOp op t r.pc y.lane acc (y.src t (.v b))) (x.src t (.v b)))]) s
      (exec (.redux h op t d b) s) ∧
    (∀ excl seg, ∃ f : PC → List (Nat × Nat × Bool) → List (Nat × Nat),
      Computes h (max (Opd.top (.v a) t.bits) (Opd.top (.v b) t.bits))
        (fun G r => [.reg (.v a) t.bits (mapGetD (f r.pc (G.map (fun x =>
          (x.lane, x.src t (.v b), match seg with | some q => x.pr q.toNat | none => false)))) r.lane 0)]) s
        (exec (.scan h op excl seg t a b) s) ∧
      ∀ pc (before : List (Nat × Nat × Bool)) (first : Nat × Nat × Bool) (run : List (Nat × Nat × Bool)) after,
        (before = [] ∨ first.2.2 = true) → (∀ y ∈ run, y.2.2 = false) →
        let total (ys : List (Nat × Nat × Bool)) : Nat := ys.foldl (fun acc y => crossOp op t pc y.1 acc y.2.1) first.2.1
        (f pc (before ++ first :: run ++ after))[before.length + run.length]? =
          some (((first :: run).getLastD first).1,
            if excl then (if run = [] then crossId op t else total run.dropLast) else total run))

/-- fadd, fsub, fmul and ffma give, in each part of the type, the first NaN operand quieted, else the NaN of an invalid operation,
else the exact sum, difference, product or fused sum rounded once; fmin and fmax order -0 below +0; fcmp writes the comparison and
fclass the mask bit of the class to PD; frnd, fscale and fgexp read one value; fdot2 sums both products and the addend exactly
before one rounding. For each of the twelve, exec answers a next state for every group that runs with its registers below the
launch count, on all operands, with the result in its guard-true lanes and nothing else changed (and with the rest of Computes:
ILLOP beyond the count, q registers in the tile stream). Where the manual leaves a point open, it rests on the choice of the model
in log entries 126, 127. (R126, R127, R205, R206, R240, R242, R243, R244, R246) -/
def Obligations.FloatArithmeticResults : Prop :=
  ∀ (h : Hdr) (t : Ty) (sat : Bool) (rnd : Rnd) (a : Dst) (b c e : Opd) (pd : BitVec 3) (cond : Cond) (s : State),
    let n := t.bits
    let F := Ty.ff t
    let v (r : Regs) (o : Opd) (p : Nat) : FV := F.read (if t.isPair then r.src t o / 2 ^ (16 * p) % 2 ^ 16 else r.src t o)
    let pairs (f : Nat → Nat) : Nat := if t.isPair then f 0 + 2 ^ 16 * f 1 else f 0
    let rounds (r : Regs) (p : Nat) (ops : List FV) (x : Option FV) : Nat :=
      match firstNaN ops, x with
      | some q, _ => F.quieted q.1 q.2
      | none, none => F.nan false (nanPayload r.pc r.lane)
      | none, some x => F.writeFV rnd sat (r.rand p) x
    let answers (i : Instr) (top : Nat) (f : List Regs → Regs → List Wr) : Prop :=
      (∀ g, Runs s g top → ∃ t, exec i s = .next t ∧
        GroupResult s t g (g.trues h) (fun l => f ((g.trues h).map (s.laneRegs g)) (s.laneRegs g l))) ∧ Computes h top f s (exec i s)
    let does (i : Instr) (bits top : Nat) (f : Regs → Nat) : Prop :=
      answers i (max (a.top bits) top) (fun _ r => [.reg a bits (f r)])
    let top2 := max (b.top n) (c.top n)
    does (.fadd h t sat rnd a b c) n top2 (fun r => pairs (fun p => rounds r p [v r b p, v r c p] ((v r b p).sum rnd (v r c p)))) ∧
    does (.fsub h t sat rnd a b c) n top2
      (fun r => pairs (fun p => rounds r p [v r b p, v r c p] ((v r b p).sum rnd (v r c p).negate))) ∧
    does (.fmul h t sat rnd a b c) n top2 (fun r => pairs (fun p => rounds r p [v r b p, v r c p] ((v r b p).mul (v r c p)))) ∧
    does (.ffma h t sat rnd a b c e) n (max (b.top n) (max (c.top n) (e.top n)))
      (fun r => pairs (fun p => rounds r p [v r b p, v r c p, v r e p]
        (((v r b p).mul (v r c p)).bind (fun q => q.sum rnd (v r e p))))) ∧
    does (.fmin h t a b c) n top2 (fun r => pairs (fun p => F.minmax false (part t (r.src t b) p) (part t (r.src t c) p))) ∧
    does (.fmax h t a b c) n top2 (fun r => pairs (fun p => F.minmax true (part t (r.src t b) p) (part t (r.src t c) p))) ∧
    answers (.fcmp h cond t pd b c) top2 (fun _ r => [.pred pd (cmpFlt cond (F.read (r.src t b)) (F.read (r.src t c)))]) ∧
    answers (.fclass h t pd b c) (max (b.top n) (c.top 32)) (fun _ r => [.pred pd ((r.src32 c).testBit (fClass F (r.src t b)))]) ∧
    does (.frnd h t rnd a b) n (b.top n) (fun r => roundInt F rnd (r.src t b)) ∧
    does (.fscale h t rnd a b c) n (max (b.top n) (c.top 32)) (fun r => scaleFloat F rnd (r.src t b) (intVal .i32 (r.src32 c))) ∧
    does (.fgexp h t a b) 32 (b.top n) (fun r => match F.read (r.src t b) with
      | .nan _ _ => 0x7FFFFFFF
      | .inf _ => 0x7FFFFFFE
      | .fin q m x => if m = 0 then 0x80000000 else wrapTo .i32 ((FV.fin q m x).ex.ilog2)) ∧
    does (.fdot2 h t rnd a b c e) 32 (max (max (b.top 32) (c.top 32)) (e.top 32))
      (fun r => dot2 t rnd r.pc r.lane (r.src t b) (r.src t c) (r.src .f32 e))

/-- frcp, frsq, fsqrt, fexp2, flog2, fsin, fcos, ftanh and fsigm act on each part of the type: for each of the nine, exec answers a
next state for every group that runs with its registers below the launch count, on all operands, with the result in its guard-true
lanes and nothing else changed (and with the rest of Computes). For the part function of each: a NaN operand is returned quieted;
every row of Table 10.6 gives the listed zero, infinity, one, half or the NaN of R126 with o = l; and frcp of a nonzero finite
value is the exact reciprocal rounded once. (R126, R127, R205, R206, R249) -/
def Obligations.SpecialFunctionResults : Prop :=
  ∀ (h : Hdr) (t : Ty) (rnd : Rnd) (a : Dst) (b : Opd) (s : State),
    (t = .f32 ∨ t = .f64 ∨ t = .f16x2 ∨ t = .bf16x2) →
    let F := Ty.ff t
    let one (neg : Bool) : Nat := F.pack neg (F.bias * 2 ^ F.mbits)
    let answers (i : Instr) (top : Nat) (f : List Regs → Regs → List Wr) : Prop :=
      (∀ g, Runs s g top → ∃ t, exec i s = .next t ∧
        GroupResult s t g (g.trues h) (fun l => f ((g.trues h).map (s.laneRegs g)) (s.laneRegs g l))) ∧ Computes h top f s (exec i s)
    let does (i : Instr) (f : Nat → PC → Nat → Nat → Nat) : Prop :=
      answers i (max (a.top t.bits) (b.top t.bits))
        (fun _ r => [.reg a t.bits
          (if t.isPair then f (r.rand 0) r.pc r.lane (r.src t b % 2 ^ 16) + 2 ^ 16 * f (r.rand 1) r.pc r.lane (r.src t b / 2 ^ 16 % 2 ^ 16)
          else f (r.rand 0) r.pc r.lane (r.src t b))])
    let table (f : Nat → PC → Nat → Nat → Nat) (zero inf : Bool → Option Nat) (negative : Bool) : Prop :=
      ∀ r16 pc l x, match F.read x with
        | .nan n m => f r16 pc l x = F.quieted n m
        | .inf n => f r16 pc l x = (inf n).getD (F.nan false (nanPayload pc l))
        | .fin n m _ => (m = 0 → f r16 pc l x = (zero n).getD 0) ∧
          (m ≠ 0 → n = true → negative = true → f r16 pc l x = F.nan false (nanPayload pc l))
    let sign (f : Bool → Nat) (n : Bool) : Option Nat := some (f n)
    let only (neg : Bool) (f : Nat) (n : Bool) : Option Nat := if n = neg then some f else none
    (∃ f, does (.frcp h t rnd a b) f ∧ table f (sign F.inf) (sign F.zero) false ∧
      ∀ r16 pc l x n m e, F.read x = .fin n m e → m ≠ 0 →
        f r16 pc l x = F.write rnd false r16 n ((Ex.ofInt 1).div (FV.fin n m e).ex)) ∧
    (∃ f, does (.frsq h t a b) f ∧ table f (sign F.inf) (only false (F.zero false)) true) ∧
    (∃ f, does (.fsqrt h t rnd a b) f ∧ table f (sign F.zero) (only false (F.inf false)) true) ∧
    (∃ f, does (.fexp2 h t a b) f ∧
      table f (fun _ => some (one false)) (fun n => some (if n then F.zero false else F.inf false)) false) ∧
    (∃ f, does (.flog2 h t a b) f ∧ table f (fun _ => some (F.inf true)) (only false (F.inf false)) true) ∧
    (∃ f, does (.fsin h t a b) f ∧ table f (sign F.zero) (fun _ => none) false) ∧
    (∃ f, does (.fcos h t a b) f ∧ table f (fun _ => some (one false)) (fun _ => none) false) ∧
    (∃ f, does (.ftanh h t a b) f ∧ table f (sign F.zero) (sign one) false) ∧
    (∃ f, does (.fsigm h t a b) f ∧
      table f (fun _ => some (F.pack false ((F.bias - 1) * 2 ^ F.mbits))) (fun n => some (if n then F.zero false else one false)) false)

/-- cvt converts one value, or each half of a pair: float to float through Write with a NaN kept, float to integer rounded and clamped
with 0 for a NaN, integer to float through Write, integer to integer clamped under SAT or wrapped. cvts encodes two values into
adjacent elements of a merge word, or decodes one element; qblk and dqblk form and read one DX block over the lanes of G. Where
the slot format or the element index does not serve, the guard-true lanes take ILLOP reason 0x0B and guard-false lanes proceed.
dropm and rng draw from H(seed, counter). For each of the seven, exec answers a next state, with the result in the guard-true
lanes and nothing else changed, for every group that runs with its registers below the launch count (cvts, qblk and dqblk: and
whose slot serves), on all operands. Where the manual leaves a point open, it rests on the choice of the model in log entries 24,
126, 127. (R123, R205, R206, R252, R254, R255, R256, R257, R259, R260) -/
def Obligations.ConversionAndDrawResults : Prop :=
  ∀ (h : Hdr) (d t : Ty) (sat : Bool) (rnd : Rnd) (a : Dst) (b c m : Opd) (pos : BitVec 5) (slot : BitVec 3) (wide : Bool)
    (va vb : BitVec 8) (pd : BitVec 3) (s : State),
    let sl := s.slotOf slot.toNat
    let w := fmtBits (slotFmt sl)
    let fits : Bool := (2 ≤ slotFmt sl ∧ slotFmt sl ≤ 6) ∨ slotFmt sl = 10 ∨ slotFmt sl = 11
    let dx : Bool := slotFmt sl = 7 ∨ slotFmt sl = 8 ∨ slotFmt sl = 9
    let mb := (dxBits (slotFmt sl)).getD 1
    let answers (i : Instr) (top : Nat) (f : List Regs → Regs → List Wr) : Prop :=
      (∀ g, Runs s g top → ∃ t, exec i s = .next t ∧
        GroupResult s t g (g.trues h) (fun l => f ((g.trues h).map (s.laneRegs g)) (s.laneRegs g l))) ∧ Computes h top f s (exec i s)
    let checked (i : Instr) (ok : Bool) (top : Nat) (f : List Regs → Regs → List Wr) : Prop :=
      (ok = true → answers i top f) ∧
      (ok = false → ∀ g, s.grp = some g →
        exec i s = .next ((s.stepLanes g.w (g.lanes.filter (fun l => l ∉ g.trues h))).illopLanes g (g.trues h) 0x0B))
    let one (r16 x : Nat) : Nat :=
      if d.isFloat then (match typeXV t x with
        | .nan n p g => (Ty.ff d).nanFrom g n p
        | .inf n => (Ty.ff d).writeFV rnd sat r16 (.inf n)
        | .num n y => (Ty.ff d).write rnd sat r16 n y)
      else if t.isFloat then wrapTo d (match typeXV t x with
        | .nan _ _ _ => 0
        | .inf n => if n then tyMin d else tyMax d
        | .num _ y => clampTo d (y.round rnd))
      else wrapTo d (if sat then clampTo d (intVal t x) else intVal t x)
    (∀ third : Option Opd, answers (.cvt h d t sat rnd a b third) (max (a.top d.bits) (max (b.top t.bits) ((third.map (fun o => o.top t.bits)).getD 0)))
      (fun _ r =>
        let x := r.src t b
        let y := r.src t (third.getD .zero)
        [.reg a d.bits (
          if d.isPair = true ∧ t.isPair = true then one (r.rand 0) (x % 2 ^ 16) + 2 ^ 16 * one (r.rand 1) (x / 2 ^ 16 % 2 ^ 16)
          else if d.isPair = true then one (r.rand 0) x + 2 ^ 16 * one (r.rand 1) y
          else if t.isPair = true then one (r.rand 0) (x / 2 ^ (16 * r.src32 (third.getD .zero)) % 2 ^ 16)
          else one (r.rand 0) x)])) ∧
    checked (.cvtsEncode h slot a b c m pos) (fits && pos.toNat + 1 < 32 / w) (max (a.top 32) (max (max (b.top 32) (c.top 32)) (m.top 32)))
      (fun _ r => [.reg a 32 (setElem w (setElem w (r.src32 m) pos.toNat (writeSlot sl (r.rand 0) (FF.fp32.xv (r.src .f32 b))))
        (pos.toNat + 1) (writeSlot sl (r.rand 1) (FF.fp32.xv (r.src .f32 c))))]) ∧
    checked (.cvtsDecode h slot a b pos) (fits && pos.toNat < 32 / w) (max (a.top 32) (b.top 32))
      (fun _ r => [.reg a 32 (FF.fp32.put .rn false 0 (readSlot sl (r.src32 b / 2 ^ (w * pos.toNat) % 2 ^ w)))]) ∧
    checked (.qblk h slot va b) dx (max (Opd.top (.v va) 32) (b.top 32))
      (fun G r =>
        let block := dxWrite mb (slotGap sl) (slotSat sl) ((List.range 32).map (fun i =>
          match G.find? (fun x => x.lane = i) with
          | some x => (FF.fp32.xv (x.src .f32 b), rand16 x.seed x.pc i x.wid)
          | none => (XV.num false Ex.zero, 0)))
        [.reg (.v va) 32 (block / 2 ^ (32 * (r.lane % (dxBytes mb / 4))))]) ∧
    checked (.dqblk h slot va vb) dx (max (Opd.top (.v va) 32) (Opd.top (.v vb) 32))
      (fun G r =>
        let block := ((List.range (dxBytes mb / 4)).map (fun j =>
          (match G.find? (fun x => x.lane = j) with
            | some x => x.src32 (.v vb)
            | none => 0) * 2 ^ (32 * j))).sum
        [.reg (.v va) 32 (match dxRead mb block r.lane with
          | none => FF.fp32.nan false (nanPayload r.pc r.lane)
          | some v => FF.fp32.put .rn false 0 v)]) ∧
    answers (.dropm h wide pd b c) (max (b.top (if wide then 64 else 32)) (c.top 32))
      (fun _ r =>
        let p := r.src32 c % 2 ^ 16
        [.pred pd (p = 0 ∨ ((hashH r.seed (BitVec.ofNat 64 (if wide then r.src64 b else r.src32 b))) >>> 48).toNat < p)]) ∧
    answers (.rng h d a b) (max (a.top d.bits) (b.top 64))
      (fun _ r =>
        let z := hashH r.seed (BitVec.ofNat 64 (r.src64 b))
        [.reg a d.bits (match d with
          | .b64 => z.toNat
          | .f32 => FF.fp32.write .rn false 0 false { num := ((z >>> 40).toNat : Int), exp := -24, den := 1 }
          | _ => (z >>> 32).toNat)])

/-- movs completes with the frame of Computes and reads the value of the table, among them the lane, the warp index, the executing
group and live masks, the trap registers of the lane, the slack bias sign-extended and the trap enables; its clauses name these.
movc writes the bias clamped to -2..3 once for the warp when some lane of the group is guard-true; it writes the trap enables when
only bit 7 may be set in the value, else the guard-true lanes take ILLOP 0x0B and the register keeps its value. Where the manual
leaves a point open, it rests on the choice of the model in log entry 4. (R5, R17, R42, R205, R218, R219) -/
def Obligations.SpecialRegisterReadsAndControlWrites : Prop :=
  ∀ (h : Hdr) (wide : Bool) (a : Dst) (b : Opd) (s : State),
    (∀ x : BitVec 6, Computes h (a.top (if wide then 64 else 32)) (fun _ r => [.reg a (if wide then 64 else 32) (s.special r x.toNat)]) s
      (exec (.movs h wide a x) s)) ∧
    (∀ g, s.grp = some g → ∀ l ∈ g.lanes, ∀ la, g.wp.lane? l = some la →
      let r := s.laneRegs g l
      s.special r 0x00 = l ∧ s.special r 0x01 = g.wp.index ∧ s.special r 0x02 = g.wp.core ∧
      s.special r 0x03 = g.wp.core / 8 ∧ s.special r 0x04 = g.wp.rank ∧
      (∀ k, k < 32 → (s.special r 0x12).testBit k = decide (k ∈ g.lanes)) ∧
      s.special r 0x15 = s.clock g.wp.core ∧
      s.special r 0x1C = la.tcause.toNat ∧ s.special r 0x1D = la.tpc.toNat ∧ s.special r 0x1E = la.taddr.toNat ∧
      s.special r 0x1F = la.tinfo.toNat ∧ s.special r 0x20 = la.txstat.toNat ∧
      s.special r 0x21 = (BitVec.ofInt 32 g.wp.sbias).toNat ∧ s.special r 0x22 = g.wp.tenable.toNat) ∧
    (∀ g, s.grp = some g → ∀ l rest, g.trues h = l :: rest →
      let v := BitVec.ofNat 32 ((s.laneRegs g l).src32 b)
      (∃ t, exec (.movc h .sbias b) s = .next t ∧ OnlyWarp s t g.w ∧
        (∀ k, t.lane? g.w k = (s.lane? g.w k).map (fun la => if k ∈ g.lanes then la.step else la)) ∧
        (t.warp? g.w).map (fun wp => { wp with lanes := g.wp.lanes }) =
          some { g.wp with sbias := if v.toInt < -2 then -2 else if 3 < v.toInt then 3 else v.toInt }) ∧
      ((∀ k, k < 32 → k ≠ 7 → v.getLsbD k = false) →
        ∃ t, exec (.movc h .tenable b) s = .next t ∧ OnlyWarp s t g.w ∧
          (∀ k, t.lane? g.w k = (s.lane? g.w k).map (fun la => if k ∈ g.lanes then la.step else la)) ∧
          (t.warp? g.w).map (fun wp => { wp with lanes := g.wp.lanes }) = some { g.wp with tenable := v }) ∧
      ((∃ k, k < 32 ∧ k ≠ 7 ∧ v.getLsbD k = true) →
        exec (.movc h .tenable b) s =
          .next ((s.stepLanes g.w (g.lanes.filter (fun k => k ∉ g.trues h))).illopLanes g (g.trues h) 0x0B)))

/-- bra adds the sign-extended offset to the PC of the word for each guard-true lane, and for a sequencer whose guard is true; call
also writes PC + 16, sign-extended, to its register pair; brx and ret go to the register value when it is canonical and a multiple
of 16 in every guard-true lane. Guard-false lanes go on to the next word, and nothing else changes. A lane whose target is not
canonical takes ACCESS with reason 0x06 and the target as address, one whose target is not a multiple of 16 takes MISALIGN. (R6,
R206, R228, R293) -/
def Obligations.BranchResults : Prop :=
  ∀ (h : Hdr) (off : Word) (a : BitVec 8) (b : Opd) (s : State),
    let goes (i : Instr) (g : Grp) (f : Nat → Lane → Lane) : Prop :=
      ∃ t, exec i s = .next t ∧ LanesResult s t g (groupLane g h f)
    let value (g : Grp) (o : Opd) (l : Nat) : DWord := BitVec.ofNat 64 ((s.laneRegs g l).src64 o)
    let jumps (i : Instr) (o : Opd) : Prop :=
      (∀ g, Runs s g (o.top 64) →
        (∀ l ∈ g.trues h, canonical (value g o l) = true ∧ (value g o l).toNat % 16 = 0) →
        goes i g (fun l la => { la with pc := (value g o l).setWidth 57 })) ∧
      (∀ g l, Runs s g (o.top 64) → g.trues h = [l] →
        (canonical (value g o l) = false → exec i s = .next ((s.passFalse g h).trapLane g.w l
          { cause := 0x03, pc := g.pc, addr := some (value g o l), info := 0x06, resume := g.pc })) ∧
        (canonical (value g o l) = true → (value g o l).toNat % 16 ≠ 0 → exec i s = .next ((s.passFalse g h).trapLane g.w l
          { cause := 0x02, pc := g.pc, addr := some (value g o l), info := 0, resume := g.pc })))
    (∀ g, s.grp = some g → goes (.bra h off) g (fun _ la => { la with pc := g.pc + off.signExtend 57 })) ∧
    (∀ n te, SeqRuns s n te → ∃ t, exec (.bra h off) s = .next t ∧ OnlyTenant s t n ∧
      t.tenant? n = some { te with pc := if guardOf h te.pred then te.pc + off.signExtend 57 else te.pc + 16 }) ∧
    (∀ g, Runs s g (a.toNat + 2) → goes (.call h a off) g (fun _ la =>
      { (la.setReg a.toNat (BitVec.ofNat 32 ((g.pc + 16).signExtend 64).toNat)).setReg (a.toNat + 1)
          (BitVec.ofNat 32 (((g.pc + 16).signExtend 64).toNat / 2 ^ 32))
        with pc := g.pc + off.signExtend 57 })) ∧
    jumps (.brx h b) b ∧ jumps (.ret h a) (.v a)

/-- nop advances every lane of the group, or the sequencer, whatever its guard, and changes nothing else. yield advances the group,
notes for each guard-true lane that it waits for another group until clock + 16, and changes nothing else. waitc advances the
group when each counter of the warp is at or below its limit, st read as 255 where it is larger; else its guard-true lanes stay at
the word, and nothing else changes. Where the manual leaves a point open, it rests on the choice of the model in log entries 25,
121. (R6, R189, R230, R231, R233) -/
def Obligations.NopYieldAndWaitcResults : Prop :=
  ∀ (h : Hdr) (ld st cp tl : BitVec 8) (s : State),
    (∀ g, s.grp = some g → ∃ t, exec (.nop h) s = .next t ∧ LanesResult s t g (fun l la => if l ∈ g.lanes then la.step else la)) ∧
    (∀ n te, SeqRuns s n te → ∃ t, exec (.nop h) s = .next t ∧ OnlyTenant s t n ∧ t.tenant? n = some { te with pc := te.pc + 16 }) ∧
    (∀ g, s.grp = some g →
      let until_ := s.clock g.wp.core + 16
      ∃ t, exec (.yield h) s = .next t ∧ LanesResult s t g (groupLane g h (fun _ la => { la.step with yieldUntil := some until_ }))) ∧
    (∀ g, s.grp = some g →
      ∃ t, exec (.waitc h ld st cp tl) s = .next t ∧ LanesResult s t g (groupLane g h (fun _ la =>
        if g.wp.ctrLd ≤ ld.toNat ∧ min 255 g.wp.ctrSt ≤ st.toNat ∧ g.wp.ctrCp ≤ cp.toNat ∧ g.wp.ctrTl ≤ tl.toNat then la.step else la)))

/-- enrol adds the guard-true lanes to the mask and advances them. rejoin parks them at it; strike takes them out of the mask and
advances them. After rejoin and strike, when some lane is parked at the mask and every enrolled lane is parked there, each parked
lane goes on to the word after its own rejoin and the mask becomes zero; else parked lanes stay. Guard-false lanes advance, other
lanes, the other state of the warp and the other warps keep what they have. A group with no true guard only advances. Where the
manual leaves a point open, it rests on the choice of the model in log entry 27. (R6, R12) -/
def Obligations.RejoinMaskResults : Prop :=
  ∀ (h : Hdr) (n : BitVec 3) (s : State) (g : Grp), s.grp = some g →
    let G := g.trues h
    let k := n.toNat
    let free (la : Lane) : Lane := { la with pc := la.pc + 16, st := .runnable, readyAt := s.clock g.wp.core + 1 }
    (G = [] → ∀ i ∈ [Instr.enrol h n, .rejoin h n, .strike h n],
      ∃ t, exec i s = .next t ∧ LanesResult s t g (fun l la => if l ∈ g.lanes then la.step else la)) ∧
    (G ≠ [] →
      (∃ t, exec (.enrol h n) s = .next t ∧
        WarpResult s t g (fun l la => if l ∈ g.lanes then la.step else la) (g.wp.setMask k (g.wp.mask k ||| lanesMask G))) ∧
      (let W := (List.range 32).filter (fun l => (s.lane? g.w l).any (fun la => l ∈ G || decide (la.st = .rejoin k)))
       let all : Bool := W ≠ [] ∧ g.wp.mask k &&& ~~~(lanesMask W) = 0
       ∃ t, exec (.rejoin h n) s = .next t ∧
        WarpResult s t g (fun l la =>
          if all = true ∧ l ∈ W then free la
          else if l ∈ G then { la with st := .rejoin k }
          else if l ∈ g.lanes then la.step else la) (if all then g.wp.setMask k 0 else g.wp)) ∧
      (let W := (List.range 32).filter (fun l => (s.lane? g.w l).any (fun la => la.st = .rejoin k))
       let wp' := g.wp.setMask k (g.wp.mask k &&& ~~~(lanesMask G))
       let all : Bool := W ≠ [] ∧ wp'.mask k &&& ~~~(lanesMask W) = 0
       ∃ t, exec (.strike h n) s = .next t ∧
        WarpResult s t g (fun l la => if all = true ∧ l ∈ W then free la else if l ∈ g.lanes then la.step else la)
          (if all then wp'.setMask k 0 else wp')))

/-- Where the launch names a handler and no guard-true lane is in one or ahead of a speculative fence: trap gives each guard-true lane
cause 0x08, its PC, the code as information, the old trap address, and a resume PC one word on (the fallback label of an open
transaction, which is aborted with cause 0x05); the lane enters the handler 4 clocks later, in the handler state, and leaves the
arrivals of its block; guard-false lanes advance; all else stays. rte, where every guard-true lane is in a handler, returns each
to its resume PC, out of the handler state, eligible 3 clocks later. rte of lanes in no handler takes ILLOP reason 0x0B. (R6, R83,
R234, R235, R318, R373, R374) -/
def Obligations.TrapAndReturnResults : Prop :=
  ∀ (h : Hdr) (code : BitVec 8) (s : State) (g : Grp), s.grp = some g →
    let G := g.trues h
    (∀ lr : LaunchRec, s.recOfBlock g.wp.block = some lr → lr.handler ≠ 0 →
      (∀ l ∈ G, ∀ la, s.lane? g.w l = some la → la.inHandler = false) → (∀ l ∈ G, s.aheadOf g.w l = none) →
      ∃ t, exec (.trap h code) s = .next t ∧ t = { s with warps := t.warps, blocks := t.blocks } ∧
        (∀ v, v ≠ g.w → t.warp? v = s.warp? v) ∧
        (t.warp? g.w).map (fun wp => { wp with lanes := g.wp.lanes }) = some g.wp ∧
        (∀ l, t.lane? g.w l = (s.lane? g.w l).map (groupLane g h (fun _ la =>
          { la with
            tcause := 0x08
            tpc := g.pc.setWidth 64
            tinfo := code.setWidth 64
            resume := match la.tx with
              | some tx => tx.fallback
              | none => g.pc + 16
            txstat := if la.tx.isSome then 0x05 else la.txstat
            tx := none
            pc := BitVec.ofNat 57 lr.handler
            st := .entry (s.clock g.wp.core + 4)
            hold := .none
            readyAt := s.clock g.wp.core + 4
            inHandler := true }) l)) ∧
        ∀ b, t.block? b = (s.block? b).map (fun bl =>
          if b = g.wp.block then
            { bl with
              arrivals := bl.arrivals.filter (fun a => ¬(a.warp = g.w ∧ a.lane ∈ G))
              barArrived := bl.barArrived.filter (fun a => ¬(a.1 = g.w ∧ a.2 ∈ G)) }
          else bl)) ∧
    ((∀ l ∈ G, ∀ la, s.lane? g.w l = some la → la.inHandler = true) →
      ∃ t, exec (.rte h) s = .next t ∧ LanesResult s t g (groupLane g h (fun _ la =>
        { la with pc := la.resume, inHandler := false, readyAt := s.clock g.wp.core + 3 }))) ∧
    (G ≠ [] → (∀ l ∈ G, ∀ la, s.lane? g.w l = some la → la.inHandler = false) →
      exec (.rte h) s = .next ((s.passFalse g h).illopLanes g G 0x0B))

/-- When a guard-true lane executes trap and its launch names no handler, or the lane is in its handler, and it is ahead of no
speculative fence, the block is killed with the cause SWTRAP: the block keeps cause 0x08, every sequencer of it that has not
exited stops, while what stands in its queue stays to complete, and the final record of its grid, when the block is no rival, has
the bit of cause 0x08 set in CAUSE, and names the cause as reason where the grid had no failure before. (R373, R375) -/
def Obligations.TrapWithoutHandlerKillsTheBlock : Prop :=
  ∀ (h : Hdr) (code : BitVec 8) (s : State) (g : Grp) (lr : LaunchRec) (bl : Block) (l : Nat) (la : Lane), s.grp = some g →
    s.recOfBlock g.wp.block = some lr → s.block? g.wp.block = some bl → bl.killed = none →
    g.trues h = [l] → s.lane? g.w l = some la → s.aheadOf g.w l = none → (lr.handler = 0 ∨ la.inHandler = true) →
    ∃ t, exec (.trap h code) s = .next t ∧
      (t.block? g.wp.block).map (fun bl => bl.killed) = some (some 0x08) ∧
      (∀ n ∈ bl.tenants, ∀ te, s.tenant? n = some te → ∃ te', t.tenant? n = some te' ∧ te'.queue = te.queue ∧
        (te'.st = .stopped ∨ te'.st = .exited)) ∧
      (∀ gr, bl.parent = none → s.grid? bl.grid = some gr → ∃ gr', t.grid? bl.grid = some gr' ∧
        gr'.cause = gr.cause ||| 0x100#16 ∧ gr'.status = (if gr.status = 0 then 1 else gr.status) ∧
        gr'.reason = (if gr.status = 0 then 0x08 else gr.reason))

/-- For a group whose guard-true lanes stand in no block-barrier arrival list and whose block has no phase-boundary arrivals: exit
answers a next state in which each guard-true lane has exited, with no open transaction, no hold and out of its handler, and no
guard-false lane of the group has exited. In the tile stream, exit ends the sequencer when its guard is true and advances it when
not; no other tenant and no other state changes. (R12, R83, R145, R229) -/
def Obligations.ExitEndsLanes : Prop :=
  ∀ (h : Hdr) (s : State),
    (∀ g, s.grp = some g →
      (∀ e ∈ s.blocks, ∀ a ∈ e.2.barArrived, a.1 = g.w → a.2 ∉ g.lanes) →
      (∀ bl, s.block? g.wp.block = some bl → bl.arrivals = []) →
      ∃ t, exec (.exit h) s = .next t ∧
        (∀ l ∈ g.trues h, ∃ la, t.lane? g.w l = some la ∧ la.st = .exited ∧ la.tx = none ∧ la.hold = .none ∧ la.inHandler = false) ∧
        (∀ l ∈ g.lanes, l ∉ g.trues h → t.lane? g.w l = (s.lane? g.w l).map Lane.step)) ∧
    (∀ n te, SeqRuns s n te → ∃ t, exec (.exit h) s = .next t ∧ OnlyTenant s t n ∧
      t.tenant? n = some (if guardOf h te.pred then { te with st := .exited } else { te with pc := te.pc + 16 }))

/-- Where every guard-true lane is in no transaction, its address passes the checks and is at no FIFO port: st, atom, red, fset and
fclr complete. Every lane of the group advances; one access for each guard-true lane is made, at base + scaled index + offset with
the low bytes of its data, grouped by line and page; the counter of the kind goes up by one (ld for an atom that returns, else
st); the destination is pending. A kind with a release half, and fset at .dv, first begins a release at the scope and its requests
wait for it; else they may be sent. Memory and everything else stays as it is. Where the manual leaves a point open, it rests on
the choice of the model in log entries 32, 34. (R46, R54, R58, R62, R97, R99, R232, R263, R267, R269, R273, R274) -/
def Obligations.MemoryWritesAreAsked : Prop :=
  ∀ (h : Hdr) (op : Aop) (t : Ty) (kind : Kind) (scope : Scope) (a : Dst) (m : MAddr) (d : Opd) (pd : BitVec 3) (s : State),
    let asks (i : Instr) (top : Nat) (q : MemI) (kind : Kind) (data : Grp → Nat → Nat) (k : Warp → Warp) : Prop :=
      ∀ g, Runs s g top → g.trues h ≠ [] → Clear (s.passFalse g h) g (g.trues h) m q →
        let accs := (g.trues h).map (accOf s g m q (data g))
        ∃ u, exec i s = .next u ∧
          (if kind = .rel ∨ kind = .ar then
            ∃ n f, u.fences = s.fences ++ [(n, f)] ∧ f.warp = g.w ∧ f.lanes = lanesMask (g.trues h) ∧ f.kind = .rel ∧
              f.scope = q.scope ∧ f.spec = false ∧ f.after = .nothing ∧ Issues s u g h q Lane.step k (.fenced n) accs
          else u.fences = s.fences ∧ Issues s u g h q Lane.step k .waiting accs)
    let src (ty : Ty) (g : Grp) (l : Nat) : Nat := (s.laneRegs g l).src ty d
    let upSt (wp : Warp) : Warp := { wp with ctrSt := wp.ctrSt + 1 }
    let upLd (wp : Warp) : Warp := { wp with ctrLd := wp.ctrLd + 1 }
    asks (.st h t kind scope m d) (max (d.top t.regBits) m.top)
      { kind := .store, bytes := t.bits / 8, align := t.bits / 8, dst := .none, bits := 0, pd := 7, hint := h.hint, scope := scope,
        pin := kind = .rel && (scope = .co || scope = .cl), rel := kind = .rel } kind (src t) upSt ∧
    asks (.atom h op t kind scope a m d) (max (max (a.top t.regBits) (d.top t.regBits)) m.top)
      { kind := .atom op t (a ≠ .none), bytes := t.bits / 8, align := t.bits / 8, dst := a, bits := t.regBits, pd := 7, hint := h.hint,
        scope := scope, pin := kind ≠ .acq && (scope = .wp || scope = .co || scope = .cl),
        rel := kind = .rel || kind = .ar } kind (src t)
      (if a ≠ .none then upLd else upSt) ∧
    asks (.red h op t kind scope m d) (max (d.top t.regBits) m.top)
      { kind := .red op t, bytes := t.bits / 8, align := t.bits / 8, dst := .none, bits := t.regBits, pd := 7, hint := h.hint,
        scope := scope, pin := kind ≠ .acq && (scope = .wp || scope = .co || scope = .cl),
        rel := kind = .rel || kind = .ar } kind (src t) upSt ∧
    asks (.fset h pd m d) (max (d.top 64) m.top)
      { kind := .fset, bytes := 16, align := 16, dst := .none, bits := 64, pd := pd, hint := h.hint, scope := .dv, pin := false, rel := false }
      .rel (src .b64) upSt ∧
    asks (.fclr h m) m.top
      { kind := .fclr, bytes := 16, align := 16, dst := .none, bits := 64, pd := 7, hint := h.hint, scope := .dv, pin := false, rel := false }
      .none (fun _ _ => 0) upSt

/-- Where every guard-true lane is in no transaction, its address passes the checks and is at no FIFO port: a vector ld ahead of no
speculative fence makes one access per guard-true lane, grouped by line and page, and the group advances; a uniform ld makes one
access, that of the lowest guard-true lane, for all of them; fld and waiton make a request of its own for each guard-true lane,
which waits at its word until it is answered, while guard-false lanes advance. The ld counter goes up by one, the destination is
pending, and everything else stays as it is. Where the manual leaves a point open, it rests on the choice of the model in log
entries 31, 32, 34, 122. (R46, R54, R58, R60, R62, R80, R100, R232, R263, R266, R272, R276) -/
def Obligations.MemoryReadsAreAsked : Prop :=
  ∀ (h : Hdr) (t : Ty) (kind : Kind) (scope : Scope) (cond : Cond) (v : BitVec 8) (x : BitVec 7) (a : Dst) (m : MAddr) (d : Opd)
    (pd : BitVec 3) (s : State),
    let upLd (wp : Warp) : Warp := { wp with ctrLd := wp.ctrLd + 1 }
    let ldOf (z : Dst) : MemI :=
      { kind := .load (t = .f32), bytes := t.bits / 8, align := t.bits / 8, dst := z, bits := t.regBits, pd := 7, hint := h.hint,
        scope := scope, pin := false, rel := false }
    let calm (g : Grp) : Prop :=
      s.specFence g.w (lanesMask g.lanes) = none
    let waits (i : Instr) (top : Nat) (q : MemI) (data : Grp → Nat → Nat) : Prop :=
      ∀ g, Runs s g top → g.trues h ≠ [] → Clear (s.passFalse g h) g (g.trues h) m q →
        ∃ u n, exec i s = .next u ∧
          Issues s u g h q (fun la => { la with st := .memWait n }) upLd .waiting ((g.trues h).map (accOf s g m q (data g))) ∧
          u.fences = s.fences
    (∀ g, Runs s g (max (Opd.top (.v v) t.regBits) m.top) → g.trues h ≠ [] → calm g →
      Clear (s.passFalse g h) g (g.trues h) m (ldOf (.v v)) →
      ∃ u, exec (.ld h t kind scope (.v v) m) s = .next u ∧ u.fences = s.fences ∧
        Issues s u g h (ldOf (.v v)) Lane.step upLd .waiting ((g.trues h).map (accOf s g m (ldOf (.v v)) (fun _ => 0)))) ∧
    (∀ g l rest, Runs s g m.top → g.trues h = l :: rest → calm g →
      Clear (s.passFalse g h) g (g.trues h) m (ldOf (.s x)) →
      ∃ u, exec (.ld h t kind scope (.s x) m) s = .next u ∧ u.fences = s.fences ∧
        Issues s u g h (ldOf (.s x)) Lane.step upLd .waiting [accOf s g m (ldOf (.s x)) (fun _ => 0) l] ∧
        ∀ e ∈ u.reqs.drop s.reqs.length, e.2.uni = lanesMask (g.trues h)) ∧
    waits (.fld h v pd m) (max (Opd.top (.v v) 64) m.top)
      { kind := .fld, bytes := 16, align := 16, dst := .v v, bits := 64, pd := pd, hint := h.hint, scope := .wp, pin := false, rel := false }
      (fun _ _ => 0) ∧
    waits (.waiton h cond t a m d) (max (max (a.top t.regBits) (d.top t.regBits)) m.top)
      { kind := .waiton cond t, bytes := t.bits / 8, align := t.bits / 8, dst := a, bits := t.regBits, pd := 7, hint := h.hint,
        scope := .wp, pin := false, rel := false } (fun g l => (s.laneRegs g l).src t d)

/-- For a group that runs: ipf of n lines adds at most n requests, each a prefetch of an instruction line from the one that holds the
label on, for the core, address space and view of the group. icinv drops from the L1 instruction cache of the core exactly the
lines that a guard-true lane names by address and length, under its address space or 0, and no other core changes. ifence makes
younger memory instructions of its lanes wait for their open loads. dpf adds prefetch requests, each for a canonical address of a
guard-true lane. Each completes: every lane of the group advances one word and nothing else changes. (R6, R98, R236, R237, R238,
R282, R319, R321) -/
def Obligations.PrefetchAndCodeResults : Prop :=
  ∀ (h : Hdr) (n : BitVec 5) (off : Word) (b len : Opd) (m : MAddr) (s : State) (g : Grp),
    let steps := groupLane g h (fun _ => Lane.step)
    (Runs s g 0 → ∃ t new, exec (.ipf h n off) s = .next t ∧
      LanesResult { s with reqs := t.reqs, tick := t.tick } t g steps ∧ t.reqs = s.reqs ++ new ∧ new.length ≤ n.toNat ∧
      ∀ e ∈ new, e.2.kind = .ifetch ∧ e.2.demand = false ∧ e.2.st = .sent ∧ e.2.core = g.wp.core ∧
        e.2.asid = s.asidOf g.wp.block ∧ e.2.view = s.viewOf g.wp.block ∧
        ∃ i < n.toNat, e.2.line = lineOf (target g.pc off).toNat + i) ∧
    (Runs s g (max (b.top 64) (len.top 32)) → ∃ t, exec (.icinv h b len) s = .next t ∧
      LanesResult { s with cores := t.cores, reqs := t.reqs } t g steps ∧
      t.reqs.map (fun e => (e.1, { e.2 with keep := false })) = s.reqs.map (fun e => (e.1, { e.2 with keep := false })) ∧
      (∀ j, j ≠ g.wp.core → t.core j = s.core j) ∧
      t.core g.wp.core = { s.core g.wp.core with l1i := (t.core g.wp.core).l1i } ∧
      ∀ d, d ∈ (t.core g.wp.core).l1i ↔ d ∈ (s.core g.wp.core).l1i ∧ ∀ l ∈ g.trues h,
        let a := va57 (BitVec.ofNat 64 ((s.laneRegs g l).src64 b))
        let k := (s.laneRegs g l).src32 len
        ¬ (0 < k ∧ (d.asid = s.asidOf g.wp.block ∨ d.asid = 0) ∧ d.line * 192 < a + k ∧ a < d.line * 192 + 192)) ∧
    (Runs s g 0 → g.trues h ≠ [] → ∃ t, exec (.ifence h) s = .next t ∧
      WarpResult s t g steps { g.wp with acquire := g.wp.acquire ++
        (s.openLoads g.w (lanesMask (g.trues h))).map (fun x => (lanesMask (g.trues h), x)) }) ∧
    (Runs s g m.top → ∃ t new, exec (.dpf h m) s = .next t ∧
      LanesResult { s with reqs := t.reqs, tick := t.tick } t g steps ∧ t.reqs = s.reqs ++ new ∧
      ∀ e ∈ new, e.2.kind = .prefetch ∧ e.2.demand = false ∧ e.2.st = .waiting ∧ e.2.core = g.wp.core ∧
        e.2.asid = s.asidOf g.wp.block ∧ e.2.view = s.viewOf g.wp.block ∧
        ∃ l ∈ g.trues h, canonical ((s.laneRegs g l).addr m) = true ∧
          e.2.line = lineOf (va57 ((s.laneRegs g l).addr m)) ∧ e.2.page = pageOf (va57 ((s.laneRegs g l).addr m)))

/-- For a group with a free range entry in its cluster, whose guard-true lanes pass the checks: gath completes its issue. The guard-
true lanes are enrolled in the rejoin mask named and held by a new gather with no data yet; one source entry spans every byte they
read; one access for each is made, by line and page; the ld counter is up by one and the destination is pending. Guard-false lanes
advance, and nothing else changes. Where the manual leaves a point open, it rests on the choice of the model in log entries 42,
122. (R12, R46, R75, R78, R232, R281, R325) -/
def Obligations.GatherIssues : Prop :=
  ∀ (h : Hdr) (t : Ty) (a : BitVec 8) (m : MAddr) (n : BitVec 3) (s : State) (g : Grp) (e : Nat),
    let G := g.trues h
    let id := mapFresh s.gathers
    let cl := clusterOf g.wp.core
    let q : MemI := { kind := .gath id, bytes := t.bits / 8, align := t.bits / 8, dst := .v a, bits := t.regBits, pd := 7,
                      hint := h.hint, scope := .wp, pin := false, rel := false }
    Runs s g (max (Opd.top (.v a) t.bits) m.top) → G ≠ [] → (s.cluster cl).freeLock = some e →
    Clear (s.passFalse g h) g G m q →
    ∃ u ga lk, exec (.gath h t a m n) s = .next u ∧
      u = { s with warps := u.warps, reqs := u.reqs, clusters := u.clusters, gathers := u.gathers, tick := u.tick } ∧
      Asks s u g q .waiting (G.map (accOf s g m q (fun _ => 0))) ∧
      (∀ l, u.lane? g.w l = (s.lane? g.w l).map (groupLane g h (fun _ la => { la with st := .gath id }) l)) ∧
      (∀ v, v ≠ g.w → u.warp? v = s.warp? v) ∧
      (∃ wp, u.warp? g.w = some wp ∧ { wp with lanes := g.wp.lanes, pend := g.wp.pend } =
          { g.wp.setMask n.toNat (g.wp.mask n.toNat ||| lanesMask G) with ctrLd := g.wp.ctrLd + 1 } ∧
        ∃ p ∈ wp.pend, p.lanes = lanesMask G ∧
          p.vregs = (List.range (max 1 (t.regBits / 32))).map (fun j => a.toNat + j)) ∧
      u.gathers = s.gathers ++ [(id, ga)] ∧ ga.warp = g.w ∧ ga.lanes = lanesMask G ∧ ga.arrived = 0 ∧ ga.released = 0 ∧
        ga.dst = a ∧ ga.issued = s.clock g.wp.core ∧ ga.lock = some (cl, e) ∧
      u.cluster cl = { s.cluster cl with locks := mapSet (s.cluster cl).locks e lk } ∧ (∀ j, j ≠ cl → u.cluster j = s.cluster j) ∧
        lk.dest = false ∧ lk.view = s.viewOf g.wp.block ∧ lk.asid = s.asidOf g.wp.block ∧
        ∀ l ∈ G, lk.lo ≤ va57 ((s.laneRegs g l).addr m) ∧ va57 ((s.laneRegs g l).addr m) + (t.bits / 8 - 1) ≤ lk.hi

/-- txb with no guard-true lane in a transaction: each begins one with the fallback named and empty read and write sets, and the group
advances. txa with every guard-true lane in one: each leaves it, continues at its fallback, and %txstat is 0x07 with the code
above it. txe with every guard-true lane in one: a new commit of these lanes begins and holds them at the word. The other way
round each guard-true lane takes ILLOP with reason 0x0B. Nothing else changes. Where the manual leaves a point open, it rests on
the choice of the model in log entry 45. (R82, R83, R84, R278, R279) -/
def Obligations.TransactionResults : Prop :=
  ∀ (h : Hdr) (off : Word) (code : BitVec 8) (s : State) (g : Grp), Runs s g 0 → g.trues h ≠ [] →
    let G := g.trues h
    let trapped : State := (s.passFalse g h).illopLanes g G 0x0B
    ((∀ l ∈ G, ∀ la, s.lane? g.w l = some la → la.tx = none) →
      (∃ t, exec (.txb h off) s = .next t ∧ LanesResult s t g (groupLane g h (fun _ la =>
        { la.step with tx := some { fallback := target g.pc off, reads := [], writes := [] } }))) ∧
      exec (.txa h code) s = .next trapped ∧ exec (.txe h) s = .next trapped) ∧
    ((∀ l ∈ G, ∀ la, s.lane? g.w l = some la → la.tx ≠ none) →
      (∃ t, exec (.txa h code) s = .next t ∧ LanesResult s t g (groupLane g h (fun _ la =>
        match la.tx with
        | none => la
        | some tx => { la with tx := none, hold := .none, pc := tx.fallback, txstat := BitVec.ofNat 32 (0x07 + 256 * code.toNat) }))) ∧
      (∃ t, exec (.txe h) s = .next t ∧
        t.commits = s.commits ++ [(mapFresh s.commits, { warp := g.w, lanes := G, installed := false, until_ := 0 })] ∧
        LanesResult { s with commits := t.commits } t g (groupLane g h (fun _ la =>
          { la with hold := .commit (mapFresh s.commits) }))) ∧
      exec (.txb h off) s = .next trapped)

/-- fence of lanes in no transaction begins a release of its kind and scope that waits for the open loads and unacknowledged writes of
its lanes. Plain, it holds them at the word; with .spec the group advances and the lanes as they then stand are saved. A release
whose older loads have returned, whose older writes are acknowledged and widened and whose horizon, as it stood once its lines
were widened, gtime has reached completes at RELEASE_COMPLETE: requests that waited for it may start, and the lanes that it holds
advance. A speculative fence that is due ends at SPEC_FENCE_COMPLETE when every copy used ahead of it still stands, those of
values still on their way among them, and else rolls its lanes back; where an instruction ahead of it was about to trap, its lanes
roll back at once, the fence stays, and nothing more issues ahead of it. (.acq waits for loads alone.) Where the manual leaves a
point open, it rests on the choice of the model in log entry 47. (R97, R98, R99, R100, R101, R280) -/
def Obligations.FenceAndReleaseResults : Prop :=
  ∀ (h : Hdr) (kind : Kind) (scope : Scope) (s : State),
    (∀ g spec, Runs s g 0 → g.trues h ≠ [] → (∀ l ∈ g.trues h, ∀ la, s.lane? g.w l = some la → la.tx = none) →
      ∃ t f, exec (.fence h kind scope spec) s = .next t ∧ t.fences = s.fences ++ [(s.tick, f)] ∧
        LanesResult { s with fences := t.fences, tick := s.tick + 1 } t g (groupLane g h (fun _ la =>
          if spec then la.step else { la with hold := .fence s.tick })) ∧
        f.warp = g.w ∧ f.lanes = lanesMask (g.trues h) ∧ f.kind = kind ∧ f.scope = scope ∧ f.spec = spec ∧ f.after = .step ∧
        f.pc = g.pc ∧ f.loads = s.openLoads g.w (lanesMask (g.trues h)) ∧ f.writes = s.openWrites g.w (lanesMask (g.trues h)) ∧
        f.saved = (if spec then (g.trues h).filterMap (fun l => (s.lane? g.w l).map (fun la => (l, la.step))) else [])) ∧
    ∀ n f wp, mapGet? s.fences n = some f → s.warp? f.warp = some wp →
      (∀ x ∈ f.loads, x ∉ s.openLoads f.warp f.lanes) →
      (f.kind = .acq ∨ ((∀ x ∈ f.writes, x ∉ s.openWrites f.warp f.lanes) ∧ f.step = 4 ∧
        f.until_ ≤ s.gtimeAt (placeCore wp.core))) →
      let started : State :=
        { s with reqs := s.reqs.map (fun e => if e.2.st = .fenced n then (e.1, { e.2 with st := .waiting }) else e)
                 fences := mapErase s.fences n }
      (f.spec = false → f.after = .step → ∃ t, exec (.releaseComplete n) s = .next t ∧ OnlyWarp started t f.warp ∧
        ∀ l, t.lane? f.warp l = (s.lane? f.warp l).map (fun la =>
          if la.hold = .fence n ∧ l < 32 ∧ f.lanes.getLsbD l = true then { la with hold := .none, pc := la.pc + 16 } else la)) ∧
      (f.spec = true → f.back = true → exec (.specFenceComplete n) s = .next
        ((s.rollback f).modFence n (fun f => { f with back := false, issued := 16, specLines := [] }))) ∧
      (f.spec = true → f.back = false → exec (.specFenceComplete n) s = .next
        (if (∀ e ∈ f.specLines, ∃ d ∈ (s.core wp.core).l1d, d.hits e.1 (s.asidOf wp.block) (s.viewOf wp.block) = true ∧
            s.gtimeAt (placeCore wp.core) < d.expiry ∧ d.expiry ≤ e.2) ∧ started.flightStands f wp = true
          then started else started.rollback f))

/-- For a group that runs, its operands those of its lowest guard-true lane, with tags below the count of the launch: tagarm gives its
tag the count, ready exactly when that is zero and not failed, lets waits that are over go on, and the group advances; tagclr
returns each tag of its mask to the start state. tagwt begins an acquire; all passes when every tag of the mask is ready and none
failed, any when one is ready and did not fail; they wait when one, or all, are not ready; else the lanes take ACCESS with the
address and reason of a failed tag of the mask, whose failures the record of the grid need then not tell. tagff writes the lowest
ready tag of the mask, or 64, to its destination in each guard-true lane, with an acquire when there is one that is not failed. A
tag at or beyond the count is ILLOP 0x0B. Where the manual leaves a point open, it rests on the choice of the model in log entries
55, 57. (R72, R73, R74, R98, R287, R288, R289) -/
def Obligations.TagInstructionResults : Prop :=
  ∀ (h : Hdr) (tag : TagOpd) (count mask : Opd) (all : Bool) (v : BitVec 8) (x : BitVec 7) (s : State) (g : Grp) (l : Nat)
    (rest : List Nat), s.grp = some g → g.trues h = l :: rest →
    let G := g.trues h
    let b := g.wp.block
    let r := g.wp.rank
    let m : DWord := BitVec.ofNat 64 ((s.laneRegs g l).src64 mask)
    let k := (s.laneRegs g l).tagOf tag
    let c := (s.laneRegs g l).src32 count
    let inMask (n : Nat) : Prop := n < 64 ∧ m.getLsbD n = true
    let ready (n : Nat) : Prop := (s.tag b r n).ready = true
    let clean (n : Nat) : Prop := (s.tag b r n).failed = none
    let acquired (wp : Warp) : Warp := { wp with acquire := wp.acquire ++ (s.openLoads g.w (lanesMask G)).map (fun y => (lanesMask G, y)) }
    let bad : State := (s.passFalse g h).illopLanes g G 0x0B
    let below : Prop := ∀ n, inMask n → n < s.tagsOf b
    exec (.tagarm h tag count) s = .next (if k < s.tagsOf b then
      ((((s.passFalse g h).setTag b r k { count := c, ready := c = 0, failed := none }).tagWake b r).stepLanes g.w G) else bad) ∧
    (below → exec (.tagclr h mask) s = .next ((((List.range 64).filter (fun n => m.getLsbD n)).foldl
      (fun s n => s.setTag b r n { count := 0, ready := false, failed := none }) (s.passFalse g h)).stepLanes g.w G)) ∧
    (¬ below → exec (.tagclr h mask) s = .next bad ∧ exec (.tagwt h all mask) s = .next bad) ∧
    (m = 0 → exec (.tagwt h false mask) s = .next bad) ∧
    (below → (all = false → m ≠ 0) →
      ((if all then ∀ n, inMask n → ready n ∧ clean n else ∃ n, inMask n ∧ ready n ∧ clean n) →
        ∃ t, exec (.tagwt h all mask) s = .next t ∧
          WarpResult s t g (groupLane g h (fun _ => Lane.step)) (acquired g.wp)) ∧
      ((if all then ∃ n, inMask n ∧ ¬ ready n else ∀ n, inMask n → ¬ ready n) →
        ∃ t, exec (.tagwt h all mask) s = .next t ∧
          WarpResult s t g (groupLane g h (fun _ la => { la with st := .tagWait all m })) (acquired g.wp)) ∧
      ((if all then (∀ n, inMask n → ready n) ∧ ∃ n, inMask n ∧ ¬ clean n
          else (∃ n, inMask n ∧ ready n) ∧ ∀ n, inMask n → ready n → ¬ clean n) →
        ∃ n a e, inMask n ∧ ready n ∧ (s.tag b r n).failed = some (a, e) ∧
          exec (.tagwt h all mask) s = .next ((((s.passFalse g h).acquire g.w (lanesMask G)).hear b r m).trapLanes g.w G
            { cause := 0x03, pc := g.pc, addr := some (signAddr a), info := BitVec.ofNat 64 (e % 256 + 256), resume := g.pc }))) ∧
    (below → (∀ n, inMask n → ready n → clean n) → ∀ n,
      ((inMask n ∧ ready n ∧ ∀ j, inMask j → ready j → n ≤ j) ∨ (n = 64 ∧ ∀ j, inMask j → ¬ ready j)) →
      (v.toNat + 1 ≤ s.regsOf b → ∃ t, exec (.tagff h (.v v) mask) s = .next t ∧
        WarpResult s t g (groupLane g h (fun _ la => (la.setReg v.toNat (BitVec.ofNat 32 n)).step))
          (if n < 64 then acquired g.wp else g.wp)) ∧
      ∃ t, exec (.tagff h (.s x) mask) s = .next t ∧
        WarpResult s t g (groupLane g h (fun _ => Lane.step))
          ((if n < 64 then acquired g.wp else g.wp).setSreg x.toNat (BitVec.ofNat 32 n)))

/-- For a group in no transaction, in a block whose barriers are not broken, operands those of its lowest guard-true lane: bari gives
its barrier the count, no arrivals and the x bit, and advances. bara and bar begin a release that holds the lanes at the word, at
.co for the own core (bar: a block of one core), else at .cl, after which they arrive. barw begins an acquire and waits while the
phase bit equals its operand, else advances. A barrier at or beyond the count, an arrival count outside 1 to 16,388 and a rank
outside the block are ILLOP 0x0B. In a block whose barriers are broken each traps its lanes with TBROKEN and the record of the
tenant fault. Where the manual leaves a point open, it rests on the choice of the model in log entry 57. (R83, R98, R106, R143,
R144, R145, R146, R149, R290, R291) -/
def Obligations.BarrierInstructionResults : Prop :=
  ∀ (h : Hdr) (nx : Bool) (nb : BitVec 5) (n rank phi : Opd) (s : State) (g : Grp) (l : Nat) (rest : List Nat),
    s.grp = some g → g.trues h = l :: rest → (∀ k ∈ g.trues h, ∀ la, s.lane? g.w k = some la → la.tx = none) →
    let G := g.trues h
    let b := g.wp.block
    let v := (s.laneRegs g l).src32 n
    let r := if rank = .zero then g.wp.rank else (s.laneRegs g l).src32 rank
    let f : Bool := (s.laneRegs g l).src32 phi % 2 = 1
    let bad : State := (s.passFalse g h).illopLanes g G 0x0B
    let acquired : Warp := { g.wp with acquire := g.wp.acquire ++ (s.openLoads g.w (lanesMask G)).map (fun y => (lanesMask G, y)) }
    let holds (i : Instr) (scope : Scope) (after : AfterRel) : Prop :=
      ∃ t x, exec i s = .next t ∧ t.fences = s.fences ++ [(s.tick, x)] ∧
        LanesResult { s with fences := t.fences, tick := s.tick + 1 } t g (groupLane g h (fun _ la => { la with hold := .fence s.tick })) ∧
        x.warp = g.w ∧ x.lanes = lanesMask G ∧ x.kind = .rel ∧ x.scope = scope ∧ x.spec = false ∧ x.after = after ∧ x.pc = g.pc ∧
        x.loads = s.openLoads g.w (lanesMask G) ∧ x.writes = s.openWrites g.w (lanesMask G)
    ((s.block? b).bind (·.broken) = none →
      (nb.toNat < s.nbarsOf b → 0 < v → v ≤ 16388 → ∃ t, exec (.bari h nx nb n) s = .next t ∧
        LanesResult { s with blocks := t.blocks } t g (groupLane g h (fun _ => Lane.step)) ∧
        (∀ k, k ≠ b → t.block? k = s.block? k) ∧
        (t.block? b).map (fun bl => { bl with nbars := [] }) = (s.block? b).map (fun bl => { bl with nbars := [] }) ∧
        ∀ key, (t.block? b).bind (fun bl => mapGet? bl.nbars key) = ((s.block? b).bind (fun bl => mapGet? bl.nbars key)).map (fun y =>
          if key = nbarKey g.wp.rank nb.toNat then { y with e := v, a := 0, x := !nx, arrived := [] } else y)) ∧
      (nb.toNat < s.nbarsOf b → r < s.coresOf b → holds (.bara h nb rank) (if r = g.wp.rank then .co else .cl) (.bara nb.toNat r)) ∧
      holds (.bar h) (if s.coresOf b = 1 then .co else .cl) .bar ∧
      (nb.toNat < s.nbarsOf b → ∃ t, exec (.barw h nb phi) s = .next t ∧
        WarpResult s t g (groupLane g h (fun _ la =>
          if (s.nbar b g.wp.rank nb.toNat).p = f then { la with st := .barw nb.toNat f } else la.step)) acquired) ∧
      (s.nbarsOf b ≤ nb.toNat ∨ v = 0 ∨ 16388 < v → exec (.bari h nx nb n) s = .next bad) ∧
      (s.nbarsOf b ≤ nb.toNat ∨ s.coresOf b ≤ r → exec (.bara h nb rank) s = .next bad) ∧
      (s.nbarsOf b ≤ nb.toNat → exec (.barw h nb phi) s = .next bad)) ∧
    (∀ c k a, (s.block? b).bind (·.broken) = some (c, k, a) →
      ∀ i ∈ [Instr.bari h nx nb n, .bara h nb rank, .barw h nb phi, .bar h], exec i s = .next ((s.passFalse g h).trapLanes g.w G
        { cause := 0x0B, pc := g.pc, addr := some (BitVec.ofNat 64 a), info := BitVec.ofNat 64 (c + 256 * k), resume := g.pc }))

/-- For a sequencer whose guard is true, with tags and barriers below the counts of the launch and operands from its q registers: bari
sets its barrier and advances; bara makes one arrival, without a second mark for a party that has arrived, advances and checks the
count, and waits at the word while an older tile instruction of the tenant that writes a tile or an accumulator is not complete;
barw waits while the phase bit equals its operand, advances when it does not, and stops the sequencer when the barriers of its
block are broken; tagarm and tagclr set their tags and advance; tagwt waits or passes; tagff writes the lowest ready tag, or 64,
to its register. Where the manual leaves a point open, it rests on the choice of the model in log entry 56. (R73, R74, R143, R145,
R146, R149, R287, R289, R292, R293) -/
def Obligations.SequencerTagAndBarrierResults : Prop :=
  ∀ (h : Hdr) (nx : Bool) (nb : BitVec 5) (n rank phi count mask : Opd) (tag : TagOpd) (all : Bool) (q : BitVec 7) (s : State)
    (i : Nat) (te : Tenant), SeqRuns s i te → guardOf h te.pred = true →
    let b := te.block
    let R := te.regs (s.widOf b) (s.seedOf b)
    let v := R.src32 n
    let r := if rank = .zero then te.rank else R.src32 rank
    let f : Bool := R.src32 phi % 2 = 1
    let m : DWord := BitVec.ofNat 64 (R.src64 mask)
    let k := R.tagOf tag
    let inMask (j : Nat) : Prop := j < 64 ∧ m.getLsbD j = true
    let ready (j : Nat) : Prop := (s.tag b te.rank j).ready = true
    let clean (j : Nat) : Prop := (s.tag b te.rank j).failed = none
    let becomes (x : Instr) (te' : Tenant) : Prop := ∃ t, exec x s = .next t ∧ OnlyTenant s t i ∧ t.tenant? i = some te'
    let on : Tenant := { te with pc := te.pc + 16 }
    (nb.toNat < s.nbarsOf b →
      (0 < v → v ≤ 16388 → exec (.bari h nx nb n) s = .next ((s.modNbar b te.rank nb.toNat (fun y =>
        { y with e := v, a := 0, x := !nx, arrived := [] })).stepSeq i)) ∧
      (r < s.coresOf b → (te.writing = true → exec (.bara h nb rank) s = .next s) ∧
        (te.writing = false → exec (.bara h nb rank) s = .next (((s.modNbar b r nb.toNat (fun y =>
          { y with a := y.a + 1, arrived := if partySeq te.rank ∈ y.arrived then y.arrived else y.arrived ++ [partySeq te.rank] })).stepSeq i).checkNbar
            b r nb.toNat))) ∧
      (∀ bl, s.block? b = some bl → bl.broken = none →
        becomes (.barw h nb phi) (if (s.nbar b te.rank nb.toNat).p = f then { te with st := .barw nb.toNat f } else on)) ∧
      (∀ bl x, s.block? b = some bl → bl.broken = some x → te.st ≠ .exited →
        becomes (.barw h nb phi) { te with st := .stopped })) ∧
    (k < s.tagsOf b → exec (.tagarm h tag count) s = .next (((s.setTag b te.rank k
      { count := R.src32 count, ready := R.src32 count = 0, failed := none }).tagWake b te.rank).stepSeq i)) ∧
    ((∀ j, inMask j → j < s.tagsOf b) →
      exec (.tagclr h mask) s = .next ((((List.range 64).filter (fun j => m.getLsbD j)).foldl
        (fun s j => s.setTag b te.rank j { count := 0, ready := false, failed := none }) s).stepSeq i) ∧
      ((all = false → m ≠ 0) →
        ((if all then ∀ j, inMask j → ready j ∧ clean j else ∃ j, inMask j ∧ ready j ∧ clean j) → becomes (.tagwt h all mask) on) ∧
        ((if all then ∃ j, inMask j ∧ ¬ ready j else ∀ j, inMask j → ¬ ready j) →
          becomes (.tagwt h all mask) { te with st := .tagWait all m })) ∧
      ((∀ j, inMask j → ready j → clean j) → ∀ c,
        ((inMask c ∧ ready c ∧ ∀ j, inMask j → ready j → c ≤ j) ∨ (c = 64 ∧ ∀ j, inMask j → ¬ ready j)) →
        becomes (.tagff h (.s q) mask) { te.setQreg q.toNat (BitVec.ofNat 32 c) with pc := te.pc + 16 }))

/-- For a sequencer whose guard is true and whose stream queue holds fewer than eight: tcfg, tld, tzero, mma, mmas, dcmp, mmad,
tdrain, tmov and tepi each join the queue at its end, at their own word, with what their scalar operands hold: the value of tcfg,
the address pair and five origins of tld and tdrain (for these an origin register past q31 counts as zero until the rank is
known), the tag of tdrain first, the loss bound of dcmp, the block of tmov, the block and α of tepi. The sequencer advances one
word, and nothing else changes. While the queue holds eight, and the guard is true, nothing changes at all. (R137, R292, R293,
R295, R297) -/
def Obligations.TileInstructionsEnterTheirQueue : Prop :=
  ∀ (h : Hdr) (part : TilePart) (t ta tb tm : BitVec 3) (x blk alpha l : Opd) (ql qd terms : BitVec 5) (qc : Option (BitVec 5))
    (f64 add raw auto : Bool) (a : BitVec 2) (pat : Pattern) (scope : Scope) (kind : AccKind) (tag : TagOpd) (op : TepiOp)
    (ob : Option (BitVec 3)) (s : State) (n : Nat) (te : Tenant), SeqRuns s n te → guardOf h te.pred = true →
    let R := te.regs (s.widOf te.block) (s.seedOf te.block)
    let val (ty : Ty) (o : Opd) : DWord := BitVec.ofNat 64 (R.src ty o)
    let pair : DWord := BitVec.ofNat 64 ((R.sr ql.toNat).toNat + 2 ^ 32 * (R.sr (ql.toNat + 1)).toNat)
    let orgs : List DWord := (List.range 5).map (fun k => match qc with
      | some q => if q.toNat + k < 32 then (R.sr (q.toNat + k)).setWidth 64 else 0
      | none => 0)
    let enters (i : Instr) (vals : List DWord) : Prop :=
      (te.queue.length < 8 → ∃ u, exec i s = .next u ∧ OnlyTenant s u n ∧ u.tenant? n = some { te with
        pc := te.pc + 16
        queue := te.queue ++ [{ instr := i, pc := te.pc, vals := vals, doneClock := 0, last := 0, locks := [], paused := none }] }) ∧
      (8 ≤ te.queue.length → exec i s = .next s)
    enters (.tcfg h part t x) [val .b32 x] ∧ enters (.tld h t ql qc) (pair :: orgs) ∧ enters (.tzero h f64 a) [] ∧
    enters (.mma h a ta tb) [] ∧ enters (.mmas h pat a ta tb tm) [] ∧ enters (.dcmp h pat ta qd terms l) [val .f32 l] ∧
    enters (.mmad h a ta tb) [] ∧
    enters (.tdrain h add raw auto scope kind a ql qc tag) (BitVec.ofNat 64 (R.tagOf tag) :: pair :: orgs) ∧
    enters (.tmov h kind t a blk) [val .b32 blk] ∧ enters (.tepi h op kind t a blk alpha ob) [val .b32 blk, val .f32 alpha]

/-- When the head of the queue of a tenant has no hazard with what runs, its sequencer is not parked and its block is not being saved,
TILE_INSTR_START lets it leave the queue and run: tzero 32 clocks, dcmp 64, mma and mmas those of their format and rows when the
product is legal, tmov and tepi 32 when their block lies in the tile; a tcfg with a legal value sets its control register at once
and ends what dcmp knew of the tile. A legal mmad runs for the time of its decomposition; a tld whose last passes its checks
enters one source range, none when it reads nothing, and runs; a tdrain whose checks pass hands its accumulator to the copy engine
and runs 32 clocks. When the time of a running instruction has come, TILE_INSTR_COMPLETE takes it out and lets its result stand:
tzero zeroes its accumulators, mma, mmas and mmad add their products, dcmp keeps its decomposition and writes four q registers,
tmov and tepi write their block of the tile, and a tld whose reads succeed writes rows, slot and ranges of its tile. So each of
the ten tile words completes. Where the manual leaves a point open, it rests on the choice of the model in log entries 59, 60, 61,
62. (R137, R138, R139, R141, R158, R160, R296, R298, R299, R300, R301, R305) -/
def Obligations.TileInstructionsStartAndComplete : Prop :=
  ∀ (s : State) (n : Nat) (te : Tenant), s.tenant? n = some te →
    let slots := s.slotsOf te.block
    let tile (x : BitVec 3) : Tile := te.tile slots x.toNat
    let makes (i : Instr) (te' : Tenant) : Prop :=
      ∃ u, exec i s = .next u ∧ u = { s with tenants := u.tenants, bar0 := u.bar0 } ∧ u.tenant? n = some te' ∧
        ∀ v, v ≠ n → u.tenant? v = s.tenant? v
    let lastOf (v : Nat) : Last := Last.ofBits (BitVec.ofNat 512 v)
    let slotFor (s1 : State) (v : Nat) : BitVec 128 := (s1.slotsOf te.block).getD (lastOf v).slot 0
    let lastOk (at_ : DWord) (org : List DWord) (qc : Option (BitVec 5)) (v : Nat) (s1 : State) : Prop :=
      canonical at_ = true ∧ at_.toNat % 64 = 0 ∧
      s.readLast (s.whoSeq te) te.core (some te.block) (va57 at_) = (s1, .ok v) ∧
      lastIllop (BitVec.ofNat 512 v) (slotFmt (slotFor s1 v)) ((orgOf org).getD 0 0) = false ∧
      (∀ q, qc = some q → q.toNat + (lastOf v).rank ≤ 32) ∧ (lastOf v).misaligned (slotFmt (slotFor s1 v)) = false
    (∀ op rest, te.queue = op :: rest → s.headFree te op.instr = true → te.parked = false → s.isSaving (some te.block) = false →
      let runs (clocks : Nat) : Prop := makes (.tileInstrStart n)
        { te with queue := rest, running := te.running ++ [{ op with doneClock := s.clock te.core + clocks }] }
      let word := op.vals.getD 0 0
      (∀ h f a, op.instr = .tzero h f a → runs 32) ∧
      (∀ h p ta qd terms l, op.instr = .dcmp h p ta qd terms l → runs 64) ∧
      (∀ h a ta tb, op.instr = .mma h a ta tb → productBad a.toNat (tile ta) (tile tb) = false →
        runs (mmaClocks (tile ta).fmt * rowPasses te.rows)) ∧
      (∀ h p a ta tb tm, op.instr = .mmas h p a ta tb tm → productBad a.toNat (tile ta) (tile tb) = false →
        (tile ta).K % patM p = 0 → runs (passClocks (tile ta).fmt p * rowPasses te.rows)) ∧
      (∀ h k x a b, op.instr = .tmov h k x a b → 32 * word.toNat < (tile x).K → runs 32) ∧
      (∀ h e k x a b al y, op.instr = .tepi h e k x a b al y → 32 * word.toNat < (tile x).K → runs 32) ∧
      (∀ h x o, op.instr = .tcfg h .slot x o → word.toNat < 8 → makes (.tileInstrStart n)
        { te with tslot := mapPut 0 te.tslot x.toNat (word.setWidth 32), decomp := mapErase te.decomp x.toNat, queue := rest }) ∧
      (∀ h x o, op.instr = .tcfg h .rows x o → word.toNat % 65536 ≤ word.toNat / 65536 → word.toNat / 65536 ≤ 32 → makes (.tileInstrStart n)
        { te with trows := mapPut 0 te.trows x.toNat (word.setWidth 32), decomp := mapErase te.decomp x.toNat, queue := rest }) ∧
      (∀ h x o, op.instr = .tcfg h .cols x o → word.toNat % 65536 ≤ word.toNat / 65536 → makes (.tileInstrStart n)
        { te with tcols := mapPut 0 te.tcols x.toNat (word.setWidth 32), decomp := mapErase te.decomp x.toNat, queue := rest }) ∧
      (∀ h a ta tb d, op.instr = .mmad h a ta tb → mapGet? te.decomp ta.toNat = some d → productBad a.toNat (tile ta) (tile tb) = false →
        runs ((if d.status = 2 then mmaClocks (tile ta).fmt * rowPasses te.rows
          else (d.tu * passClocks (tile ta).fmt d.pat + ((if d.status = 0 then d.offcuts.length else 0) + 3) / 4) * rowPasses te.rows))) ∧
      (∀ h x ql qc v s1, op.instr = .tld h x ql qc → lastOk word (op.vals.drop 1) qc v s1 → s1.engineLoad (clusterOf te.core) < 256 →
        let rs := (tileReads (lastOf v) (slotFmt (slotFor s1 v)) (orgOf (op.vals.drop 1))).map (fun r => (va57 r.addr, r.bytes))
        (rs = [] → exec (.tileInstrStart n) s = .next (s1.startRun n { op with last := BitVec.ofNat 512 v, locks := [] } 0)) ∧
        (rs ≠ [] → 1 ≤ (s1.cluster (clusterOf te.core)).locksFree → exec (.tileInstrStart n) s = .next
          (let r := s1.putLock (clusterOf te.core)
             { view := s1.viewOf te.block, asid := s1.asidOf te.block, lo := (spanOf rs).1, hi := (spanOf rs).2, kind := 3, dest := false }
           r.1.startRun n { op with last := BitVec.ofNat 512 v, locks := r.2 } 0))) ∧
      (∀ h add raw auto scope kind a ql qc to_ v s1, op.instr = .tdrain h add raw auto scope kind a ql qc to_ →
        let org := op.vals.drop 2
        let fmt := slotFmt (slotFor s1 v)
        let size := (lastOf v).size 0
        let ty := if add then drainAdd (slotFor s1 v) kind raw else none
        let ps := drainPieces te (lastOf v) (slotFor s1 v) (orgOf org) kind raw a.toNat (fun k => rand16 (s1.seedOf te.block) op.pc k (s1.widOf te.block))
        let cop := drainOp s1 n te op a.toNat scope word.toNat ty ps
        word.toNat < s.tagsOf te.block → (raw = true → kind ≠ .f64 ∧ fmt = 1) → lastOk (op.vals.getD 1 0) org qc v s1 →
        (add = true → ty.isSome = true) → (fmtBits fmt = 4 → (orgOf org).getD 0 0 % 2 = 0 ∧ size % 2 = 0) →
        ((dxBits fmt).isSome = true → size % 32 = 0) → (∀ p ∈ ps, canonical p.addr = true) →
        (∀ p ∈ ps, add = true → raw = false → fmt = 1 → p.addr.toNat % 8 ≠ 0 → (s1.windowOf (s1.ctxIdOf te.block) (va57 p.addr)).any (fun w => w.2.fp32) = false) →
        (ps = [] → exec (.tileInstrStart n) s = .next ((if auto then s1.armTag te.block te.rank word.toNat 0 else s1).startRun n op 32)) ∧
        (∀ s2 y, ps ≠ [] → s1.copyRoom cop = true → s1.probeDst cop = (s2, .ok none, y) → exec (.tileInstrStart n) s = .next
          (let r := (if auto then s2.armTag te.block te.rank word.toNat cop.total else s2).lockCopy cop
           ({ r.1 with copies := r.1.copies ++ [(mapFresh s1.copies, { cop with st := .active, locks := r.2 })] }.next).startRun n op 32)))) ∧
    (∀ k op, te.running[k]? = some op → op.doneClock ≤ s.clock te.core → 
      let kind (ta tb : BitVec 3) : AccT := accKind (tile ta).slot (tile tb).slot
      let draw (k : Nat) : Nat := rand16 (s.seedOf te.block) op.pc k (s.widOf te.block)
      let product (a : BitVec 2) (ta tb : BitVec 3) (f : Nat → Nat → Nat → Nat) : Tenant := te.accMap (kind ta tb = .f64) a.toNat f
      let ends (te' : Tenant) : Prop := makes (.tileInstrComplete n k) { te' with running := te.running.eraseIdx k }
      ((∀ h x ql qc, op.instr ≠ .tld h x ql qc) → ends (te.complete slots (s.seedOf te.block) (s.widOf te.block) op)) ∧
      (∀ h wide a, op.instr = .tzero h wide a → ends (te.accMap wide a.toNat (fun _ _ _ => 0))) ∧
      (∀ h a ta tb, op.instr = .mma h a ta tb →
        ends (product a ta tb (fun i j acc => passAcc (kind ta tb) op.pc (tile ta) (tile tb) (fun _ _ => true) i j acc))) ∧
      (∀ h p a ta tb tm, op.instr = .mmas h p a ta tb tm →
        ends (product a ta tb (fun i j acc => passAcc (kind ta tb) op.pc (tile ta) (tile tb)
          (fun i k => metaNames p (tile ta).K ((tile tm).row i) k) i j acc))) ∧
      (∀ h p ta qd terms l, op.instr = .dcmp h p ta qd terms l →
        let r := decompose (tile ta) op.pc p terms.toNat (op.vals.getD 0 0).toNat
        ends ((((({ te with decomp := mapSet te.decomp ta.toNat r.1 }).setQreg qd.toNat (BitVec.ofNat 32 r.1.tu)).setQreg (qd.toNat + 1)
          (BitVec.ofNat 32 (min r.2 65535))).setQreg (qd.toNat + 2) r.1.s).setQreg (qd.toNat + 3) (BitVec.ofNat 32 r.1.status))) ∧
      (∀ h a ta tb d, op.instr = .mmad h a ta tb → mapGet? te.decomp ta.toNat = some d →
        ends (if d.status = 2 then product a ta tb (fun i j acc => passAcc (kind ta tb) op.pc (tile ta) (tile tb) (fun _ _ => true) i j acc)
          else product a ta tb (fun i j acc => mmadAcc (kind ta tb) op.pc (tile ta) (tile tb) d i j acc))) ∧
      (∀ h k' x a b, op.instr = .tmov h k' x a b → ends (te.moveAcc (tile x).slot x.toNat (op.vals.getD 0 0).toNat draw
        (fun i j => accValue k' (te.accGet (k' = .f64) a.toNat i j)))) ∧
      (∀ h e k' x a b al y, op.instr = .tepi h e k' x a b al y → ends (te.moveAcc (tile x).slot x.toNat (op.vals.getD 0 0).toNat draw
        (fun i j => tepiValue e op.pc i (accValue k' (te.accGet false a.toNat i j)) (FF.fp32.xv (op.vals.getD 1 0).toNat)
          (match y with
            | none => XV.num false Ex.zero
            | some c => let col := 32 * (op.vals.getD 0 0).toNat + j
              if (tile c).has 0 col then (tile c).elem op.pc i 0 col else XV.num false Ex.zero)))) ∧
      (∀ h x ql qc s1 rows y, op.instr = .tld h x ql qc → op.paused = none → s.isSaving (some te.block) = false →
        let d := Last.ofBits op.last
        let fmt := slotFmt (slots.getD d.slot 0)
        let org := orgOf (op.vals.drop 1)
        tileRows te h.hint s (tileReads d fmt org) = (s1, .ok rows, y) → exec (.tileInstrComplete n k) s = .next
          (((s1.modTenant n (fun te => { te.written x.toNat with
            tiles := (upTo 32).foldl (fun m r => mapPut 0 m (32 * x.toNat + r) (mapGetD rows r 0)) te.tiles
            tslot := mapPut 0 te.tslot x.toNat (BitVec.ofNat 32 d.slot)
            trows := mapPut 0 te.trows x.toNat (rangeWord (presentRows d fmt org))
            tcols := mapPut 0 te.tcols x.toNat (rangeWord (presentCols d fmt org)) })).dropLocks (clusterOf te.core) op.locks).modTenant n
              (fun te => { te with running := te.running.eraseIdx k }))))

/-- For a group that runs on a core with a tenant of its block: lane l of tstv writes the low bits of its register into row l of the
tile at the offset, for each guard-true lane, and the decomposition state of the tile goes; lane l of tldv reads them from row l,
zero-extended. The tl counter of the warp goes up by one, the group advances, and nothing else but a pending mark changes. Without
a tenant on the core the guard-true lanes take ILLOP 0x0B. Where the manual leaves a point open, it rests on the choice of the
model in log entry 60. (R46, R147, R160, R232, R307, R308) -/
def Obligations.TileMoveResults : Prop :=
  ∀ (h : Hdr) (ty : Ty) (t : BitVec 3) (o : Opd) (v : BitVec 8) (s : State) (g : Grp), Runs s g (Opd.top (.v v) ty.bits) →
    g.trues h ≠ [] →
    let at_ := match o with
      | .int k => k.toNat
      | .lit k => k.toNat
      | _ => 0
    let moved (u : State) (f : Nat → Lane → Lane) : Prop :=
      ∃ r, WarpResult { s with tenants := u.tenants } u g (groupLane g h (fun l la => (f l la).step)) r ∧
        { r with pend := g.wp.pend } = { g.wp with ctrTl := g.wp.ctrTl + 1 }
    (∀ n te, s.tenantOn g.wp.block g.wp.core = some n → s.tenant? n = some te →
      (∃ u, exec (.tstv h ty t o v) s = .next u ∧ moved u (fun _ la => la) ∧ (∀ k, k ≠ n → u.tenant? k = s.tenant? k) ∧
        u.tenant? n = some ((g.trues h).foldl (fun te l => { te with
          decomp := mapErase te.decomp t.toNat
          tiles := mapPut 0 te.tiles (32 * t.toNat + l)
            (lineSet (mapGetD te.tiles (32 * t.toNat + l) 0) at_ (ty.bits / 8) ((s.laneRegs g l).src ty (.v v))) }) te)) ∧
      (∃ u, exec (.tldv h ty v t o) s = .next u ∧ u.tenants = s.tenants ∧ moved u (fun l la =>
        la.setRegs v.toNat ty.bits (lineGet (mapGetD te.tiles (32 * t.toNat + l) 0) at_ (ty.bits / 8))))) ∧
    (s.tenantOn g.wp.block g.wp.core = none → ∀ i ∈ [Instr.tstv h ty t o v, .tldv h ty v t o],
      exec i s = .next ((s.passFalse g h).illopLanes g (g.trues h) 0x0B))

/-- For a group in no transaction, in the base view, with a tag below the count of the launch, its ranges legal and free of conflicts
and no length zero. cpy completes for every such group: the operation of each guard-true lane enters, in lane order. With one
guard-true lane, no operation of the warp before it at issue, room in the engine and two free range entries: a cpy enters its
operation with its one piece, queued and holding the lane at the word, and the release of the lane at the scope begins, after
which the ranges are entered and the lane goes on; the cp counter goes up by one. While the engine of the cluster is full, the
operation of each guard-true lane is entered and holds its lane at the word with no release begun, and cp is up by one. Nothing
else changes. Where the manual leaves a point open, it rests on the choice of the model in log entries 29, 52. (R73, R75, R97,
R232, R283, R284) -/
def Obligations.CopyIssues : Prop :=
  ∀ (h : Hdr) (scope : Scope) (auto : Bool) (x y len : Opd) (tag : TagOpd) (s : State) (g : Grp) (l : Nat) (rest : List Nat),
    Runs s g (max (max (x.top 64) (y.top 64)) (len.top 32)) → g.trues h = l :: rest →
    (∀ k ∈ g.trues h, ∀ la, s.lane? g.w k = some la → la.tx = none) →
    let b := g.wp.block
    let cl := clusterOf g.wp.core
    let n := (s.laneRegs g l).tagOf tag
    let to_ (k : Nat) : DWord := BitVec.ofNat 64 ((s.laneRegs g k).src64 x)
    let from_ (k : Nat) : DWord := BitVec.ofNat 64 ((s.laneRegs g k).src64 y)
    let size (k : Nat) : Nat := (s.laneRegs g k).src32 len
    let op (k : Nat) (c : CopyOp) : Prop :=
      c.kind = .cpy ∧ c.ctx = s.ctxIdOf b ∧ c.asid = s.asidOf b ∧ c.view = 0 ∧ c.cluster = cl ∧ c.core = g.wp.core ∧ c.block = some b ∧
      c.rank = g.wp.rank ∧ c.tag = some n ∧ c.scope = scope ∧ c.warp = some g.w ∧ c.lane = k ∧ c.pc = g.pc ∧ c.total = size k ∧
      c.pieces = [{ dst := va57 (to_ k), src := some (va57 (from_ k)), len := size k, keep := none, data := 0, row := 0 }] ∧
      (c.back = true ↔ va57 (from_ k) < va57 (to_ k) ∧ va57 (to_ k) < va57 (from_ k) + size k)
    n < s.tagsOf b → s.viewOf b = 0 →
    (∀ k ∈ g.trues h, size k ≠ 0 ∧ (s.passFalse g h).checkCpy (s.whoOf g) g.pc (to_ k) (from_ k) (size k) = none) →
    (∃ ops, exec (.cpy h scope auto x y len tag) s = .next ((s.passFalse g h).next.startCopies g ops) ∧ ops.map (·.lane) = g.trues h ∧
      ∀ c ∈ ops, op c.lane c ∧ c.st = .checks ∧ c.auto = (auto && decide (c.lane = l))) ∧
    (rest = [] → s.engineLoad cl < 256 → 2 ≤ (s.cluster cl).locksFree →
      (∀ e ∈ s.copies, e.2.warp = some g.w → e.2.atIssue = false) →
      ∃ u f c, exec (.cpy h scope auto x y len tag) s = .next u ∧
        WarpResult { s with copies := u.copies, fences := u.fences, tick := u.tick } u g
          (groupLane g h (fun _ la => { la with hold := .engine })) { g.wp with ctrCp := g.wp.ctrCp + 1 } ∧
        u.fences = s.fences ++ [(s.tick + 1, f)] ∧ f.warp = g.w ∧ f.lanes = lanesMask [l] ∧ f.kind = .rel ∧ f.scope = scope ∧ f.after = .nothing ∧
        u.copies = s.copies ++ [(mapFresh s.copies, c)] ∧ op l c ∧ c.auto = auto ∧ c.st = .queued ∧ c.rel = some (s.tick + 1)) ∧
    (256 ≤ s.engineLoad cl → ∃ u cs, exec (.cpy h scope auto x y len tag) s = .next u ∧
      WarpResult { s with copies := u.copies, tick := s.tick + 1 } u g (groupLane g h (fun _ la => { la with hold := .engine }))
        { g.wp with ctrCp := g.wp.ctrCp + 1 } ∧
      u.copies = s.copies ++ cs ∧ cs.map (fun e => e.2.lane) = g.trues h ∧
      ∀ e ∈ cs, mapFresh s.copies ≤ e.1 ∧ (e.2.st = .checks ∨ e.2.st = .queued) ∧ e.2.rel = none ∧
        e.2.auto = (auto && decide (e.2.lane = l)) ∧ op e.2.lane e.2)

/-- For a group in no transaction, with a tag below the count and canonical addresses of lasts at multiples of 64, cpyt enters for
each guard-true lane an operation that first reads its two lasts, with the operands captured, and lets them go as far as they can.
COPY_DELIVER of a queued operation in its turn whose release is complete enters its ranges and lets the lane go on; in progress,
it reads what the next sector of its destination needs and writes all that it has to write of that sector in one step, notes those
bytes to be counted into the tag at their completion times, and ends the operation when no byte is left; where a read does not
succeed, nothing is written. One whose last byte is delivered and counted is over. Where the manual leaves a point open, it rests
on the choice of the model in log entries 52, 53, 54. (R73, R108, R151, R284, R285, R286) -/
def Obligations.TensorCopyAndDeliveryResults : Prop :=
  (∀ (h : Hdr) (scope : Scope) (auto : Bool) (x y org : Opd) (tag : TagOpd) (s : State) (g : Grp) (l : Nat) (rest : List Nat),
    Runs s g (max (max (x.top 64) (y.top 64)) (org.top 32)) → g.trues h = l :: rest →
    (∀ k ∈ g.trues h, ∀ la, s.lane? g.w k = some la → la.tx = none) →
    let to_ (k : Nat) : DWord := BitVec.ofNat 64 ((s.laneRegs g k).src64 x)
    let from_ (k : Nat) : DWord := BitVec.ofNat 64 ((s.laneRegs g k).src64 y)
    (s.laneRegs g l).tagOf tag < s.tagsOf g.wp.block →
    (∀ k ∈ g.trues h, canonical (to_ k) = true ∧ canonical (from_ k) = true ∧ (to_ k).toNat % 64 = 0 ∧ (from_ k).toNat % 64 = 0) →
    ∃ ops, exec (.cpyt h scope auto x y org tag) s = .next ((s.passFalse g h).next.startCopies g ops) ∧ ops.map (·.lane) = g.trues h ∧
      ∀ c ∈ ops, c.kind = .cpyt ∧ c.st = .lasts ∧ c.tag = some ((s.laneRegs g l).tagOf tag) ∧ c.scope = scope ∧
        c.auto = (auto && decide (c.lane = l)) ∧
        c.pc = g.pc ∧ c.org = org ∧ c.args.take 2 = [to_ c.lane, from_ c.lane]) ∧
  ∀ (s : State) (n : Nat) (c : CopyOp), mapGet? s.copies n = some c →
    let d := s.countDelivered n c
    (∀ w wp f, c.st = .queued → c.tenant = none → c.paused = none → c.counting = [] → c.auto = false → c.total ≠ 0 → c.warp = some w →
      d.warp? w = some wp → d.copyHeld c = (true, true) → d.copyTurn n c = true → d.copyRoom c = true → c.rel = some f →
      mapGet? d.fences f = none → exec (.copyDeliver n) s = .next
        (let r := (d.copyLaneGoes c).lockCopy c
         r.1.modCopy n (fun o => { o with st := .active, locks := r.2, rel := none }))) ∧
    (c.st = .active → c.paused = none → d.isSaving c.block = false → (c.armed = true → c.locks ≠ []) → c.pieces ≠ [] →
      let e := d.nextSector c
      let due := c.pieces.filterMap (fun p => p.part e.1 e.2)
      let left := c.pieces.flatMap (fun p => p.left e.1 e.2)
      let whole := c.add.isNone && (List.range (e.2 - e.1)).all (fun i => due.any (fun p => p.dst ≤ e.1 + i && e.1 + i < p.dst + p.len))
      (∀ s1 ahead x s2 done y, d.readParts c due = (s1, .ok ahead, x) → s1.writeParts c ahead due whole = (s2, .ok done, y) →
        let s3 := s2.delivered n c ahead left done
        let s4 := if ∃ p ∈ left, lineOf p.dst ≤ lineOf e.1 ∧ lineOf e.1 ≤ lineOf (p.dst + p.len - 1) then s3
          else s3.drainFill c ((due.map (·.dst)).headD e.1)
        ∀ c', mapGet? s4.copies n = some c' →
          exec (.copyDeliver n) s = .next (if c'.st = .active ∧ c'.pieces = [] then s4.closeCopy n c' else s4)) ∧
      (∀ s1 r x, d.readParts c due = (s1, r, x) → (∀ v, r ≠ .ok v) → mapGet? (d.stopCopy n c x r).copies n = none ∨
          (∀ c', mapGet? (d.stopCopy n c x r).copies n = some c' → c'.pieces ≠ []) →
        exec (.copyDeliver n) s = .next (d.stopCopy n c x r))) ∧
    (c.st = .closed → ∀ c', mapGet? d.copies n = some c' → c'.counting = [] →
      exec (.copyDeliver n) s = .next (d.copyOver n c'))

/-- For a group in no transaction and no handler, of a block that has a phase-record area, judges nothing and has no broken barrier:
pbar, gbar outside a world, and forkw in a launch without a gang level make the guard-true lanes arrive. They park, and the block
notes one arrival for each, in ascending lane order, with the kind of boundary, its word and (for forkw) the label and the count
of the lowest lane; where the arrivals are not all of one kind once every live thread has arrived, each arrived lane takes ILLOP
reason 0x0B instead (checkArrivals), and nothing happens besides where they agree. gbar in a world and forkw in a gang trap with
reason 0x0B, and so does each of the three in a launch without a phase-record area. A sequencer whose tile instructions and drains
are over parks at pbar; without a phase-record area or in a judging block it faults with reason 0x0B. Where the manual leaves a
point open, it rests on the choice of the model in log entries 64, 66. (R22, R23, R165, R171, R311, R312, R313, R316) -/
def Obligations.PhaseBoundaryResults : Prop :=
  (∀ (h : Hdr) (n : Opd) (off : Word) (s : State) (g : Grp) (bl : Block) (lr : LaunchRec),
    s.grp = some g → g.trues h ≠ [] → (∀ k ∈ g.trues h, ∀ la, s.lane? g.w k = some la → la.tx = none ∧ la.inHandler = false) →
    s.block? g.wp.block = some bl → s.recOfBlock g.wp.block = some lr →
    let come (kind : Boundary) (label : PC) : List Arrival := (g.trues h).map (fun l => { warp := g.w, lane := l, kind := kind, pc := g.pc, label := label })
    let parked (kind : Boundary) (label : PC) : State :=
      ((s.passFalse g h).modLanes g.w (g.trues h) (fun la => { la with st := .boundary })).modBlock g.wp.block (fun b =>
        { b with arrivals := b.arrivals ++ come kind label })
    let illegal : Out := .next ((s.passFalse g h).illopLanes g (g.trues h) 0x0B)
    let c := (s.passFalse g h).groupSrc g (g.trues h) n
    (lr.psize ≠ 0 → bl.judging = false → bl.broken = none →
      exec (.pbar h) s = .next ((parked .pbar g.pc).checkArrivals g.wp.block) ∧
      (bl.depth = 0 → exec (.gbar h) s = .next ((parked .gbar g.pc).checkArrivals g.wp.block)) ∧
      (lr.gang = 0 → exec (.forkw h n off) s = .next ((parked (.forkw c) (target g.pc off)).checkArrivals g.wp.block)) ∧
      ∀ kind label, sameKind (bl.arrivals ++ come kind label) = true →
        (parked kind label).checkArrivals g.wp.block = parked kind label) ∧
    (lr.psize = 0 ∨ bl.judging = true → exec (.pbar h) s = illegal) ∧
    (lr.psize = 0 ∨ bl.judging = true ∨ bl.depth ≠ 0 → exec (.gbar h) s = illegal) ∧
    (lr.psize = 0 ∨ bl.judging = true ∨ lr.gang ≠ 0 → exec (.forkw h n off) s = illegal)) ∧
  ∀ (h : Hdr) (s : State) (t : Nat) (te : Tenant) (lr : LaunchRec), SeqRuns s t te → guardOf h te.pred = true →
    s.recOfBlock te.block = some lr → ∀ bl, s.block? te.block = some bl →
    (lr.psize ≠ 0 → bl.judging = false → te.queue = [] → te.running = [] → (∀ c ∈ s.copies, c.2.tenant = some t → c.2.st = .closed) →
      exec (.pbar h) s = .next (s.modTenant t (fun te => { te with st := .pbar }))) ∧
    (lr.psize = 0 ∨ bl.judging = true → exec (.pbar h) s = .next (s.illopSeq t 0x0B))

/-- For a group in no transaction whose queue of device launches has room (in a world there is no queue): launch acts for each guard-
true lane in ascending order where B is a vector, else for the lowest one only, and the others pass. A lane with a canonical
address that is a multiple of 192 begins, in the base view, a release of itself at .dv, its launch enters the queue of its context
behind that release and the lane advances; in a world it enters the outbox of the view. Another address traps it with ACCESS
reason 0x06 or MISALIGN. St goes up by one where some lane has entered the queue. Where the queue has no free entry for a lane,
that lane and those after it stay at their word. event advances the guard-true lanes; in the base view a release of them at .sy
begins that is to write the record, and st goes up by one; in a world it enters the outbox. Where the manual leaves a point open,
it rests on the choice of the model in log entries 29, 63. (R30, R97, R174, R309, R314) -/
def Obligations.LaunchAndEventResults : Prop :=
  (∀ (h : Hdr) (b x : Opd) (s : State) (g : Grp), Runs s g (max (b.top 64) (x.top 32)) → g.trues h ≠ [] →
    (∀ k ∈ g.trues h, ∀ la, s.lane? g.w k = some la → la.tx = none) →
    let ls := match b with | .v _ => g.trues h | _ => (g.trues h).take 1
    let start := (s.passFalse g h).stepLanes g.w ((g.trues h).filter (fun l => l ∉ ls))
    let u := s.passFalse g h
    let val : Word := BitVec.ofNat 32 (u.groupSrc g (g.trues h) x)
    (s.viewOf g.wp.block ≠ 0 ∨ s.launches (s.ctxIdOf g.wp.block) + ls.length ≤ 1024 →
      exec (.launch h b) s = .next (let u := ls.foldl (fun u l => u.launchLane g s.tick l (BitVec.ofNat 64 ((s.laneRegs g l).src64 b))) start.next
        if u.devLaunches.any (fun e => e.2.warp = some g.w && e.2.group = s.tick) then u.modWarp g.w (fun wp => { wp with ctrSt := wp.ctrSt + 1 }) else u)) ∧
    (∀ l rest, ls = l :: rest → canonical (BitVec.ofNat 64 ((s.laneRegs g l).src64 b)) = true → (s.laneRegs g l).src64 b % 192 = 0 →
      s.viewOf g.wp.block = 0 → 1024 ≤ s.launches (s.ctxIdOf g.wp.block) →
      (∀ e ∈ s.devLaunches, e.2.warp = some g.w → e.2.group ≠ s.tick) →
      exec (.launch h b) s = .next start.next) ∧
    (s.viewOf g.wp.block ≠ 0 →
      exec (.event h x) s = .next ((u.stepLanes g.w (g.trues h)).queueOut (s.viewOf g.wp.block) (.event val g.wp.core))) ∧
    (s.viewOf g.wp.block = 0 → ∃ t f, exec (.event h x) s = .next t ∧
      WarpResult { s with fences := t.fences, tick := s.tick + 1 } t g (groupLane g h (fun _ la => la.step))
        { g.wp with ctrSt := g.wp.ctrSt + 1 } ∧
      t.fences = s.fences ++ [(s.tick, f)] ∧ f.warp = g.w ∧ f.lanes = lanesMask (g.trues h) ∧ f.kind = .rel ∧ f.scope = .sy ∧
      f.after = .event val)) ∧
  ∀ (s : State) (g : Grp) (k l : Nat) (a : DWord),
    (canonical a = false → s.launchLane g k l a = s.trapLane g.w l (.access g.pc a 0x06)) ∧
    (canonical a = true → a.toNat % 192 ≠ 0 → s.launchLane g k l a = s.trapLane g.w l (.misalign g.pc a)) ∧
    (canonical a = true → a.toNat % 192 = 0 → s.viewOf g.wp.block ≠ 0 →
      s.launchLane g k l a = (s.queueOut (s.viewOf g.wp.block) (.launch (va57 a) g.wp.core g.w)).stepLanes g.w [l]) ∧
    (canonical a = true → a.toNat % 192 = 0 → s.viewOf g.wp.block = 0 → ∀ bl, s.block? g.wp.block = some bl → ∃ f d,
      s.launchLane g k l a = ({ s with
        fences := s.fences ++ [(s.tick, f)], devLaunches := s.devLaunches ++ [(s.tick + 1, d)], tick := s.tick + 2 } : State).stepLanes g.w [l] ∧
      f.warp = g.w ∧ f.lanes = lanesMask [l] ∧ f.kind = .rel ∧ f.scope = .dv ∧ f.after = .nothing ∧
      d = { ctx := s.ctxIdOf g.wp.block, addr := va57 a, grid := bl.grid, warp := some g.w, group := k,
            waiting := some s.tick, view := none, paused := none, due := 0 })

/-- For a group in no transaction and no handler: in a rival, yieldw notes the value of the lowest guard-true lane as the score where
none is noted yet, and choose.self marks the rival; then the guard-true lanes of either exit. In a judging block, choose of a
YIELDED rival below 8 discards every other YIELDED rival, ends the judging, marks the rival chosen, begins the commit of its view
and holds its lanes at the word for that commit; choose.none discards every YIELDED rival, ends the judging and the lanes advance.
Elsewhere each of the four traps with ILLOP reason 0x0B. Where the manual leaves a point open, it rests on the choice of the model
in log entry 44. (R168, R170, R171, R172, R173, R315) -/
def Obligations.WorldInstructionResults : Prop :=
  ∀ (h : Hdr) (x k : Opd) (s : State) (g : Grp) (bl : Block),
    Runs s g (x.top 32) → g.trues h ≠ [] → (∀ k ∈ g.trues h, ∀ la, s.lane? g.w k = some la → la.tx = none ∧ la.inHandler = false) →
    s.block? g.wp.block = some bl →
    let u := s.passFalse g h
    let b := g.wp.block
    let n := u.groupSrc g (g.trues h) k
    let score : Word := BitVec.ofNat 32 (u.groupSrc g (g.trues h) x)
    let done_ (t : State) : Out := .next ((t.exitLanes g.w (g.trues h)).checkArrivals b)
    let illegal : Out := .next (u.illopLanes g (g.trues h) 0x0B)
    let yielded (i : Nat) : Option Nat := (bl.rivals[i]?).bind (fun r => if r.status = 0 then some r.view else none)
    (bl.depth ≠ 0 →
      exec (.yieldw h x) s = done_ (u.modBlock b (fun bl => { bl with yielded := some (bl.yielded.getD score) })) ∧
      exec (.chooseSelf h) s = done_ (u.modBlock b (fun bl => { bl with selfMark := true }))) ∧
    (bl.depth = 0 → exec (.yieldw h x) s = illegal ∧ exec (.chooseSelf h) s = illegal) ∧
    (bl.judging = true →
      exec (.chooseNone h) s = .next (((((upTo 8).filterMap yielded).foldl State.discardView u).modBlock b (fun bl =>
        { bl with judging := false })).stepLanes g.w (g.trues h)) ∧
      (∀ r, n < 8 → bl.rivals[n]? = some r → r.status = 0 →
        let t := ((upTo 8).filterMap (fun i => if i ≠ n then yielded i else none)).foldl State.discardView u
        let t := (t.modBlock b (fun bl => { bl with judging := false })).modBlock b (fun bl =>
          { bl with rivals := listModify bl.rivals n (fun r => { r with chosen := true }) })
        exec (.choose h k) s = .next ((t.beginCommit r.view (some g.w)).modLanes g.w (g.trues h) (fun la =>
          { la with hold := .choose r.view }))) ∧
      (8 ≤ n ∨ (∀ r, bl.rivals[n]? = some r → r.status ≠ 0) → exec (.choose h k) s = illegal)) ∧
    (bl.judging = false → exec (.chooseNone h) s = illegal ∧ exec (.choose h k) s = illegal)

/-- ISSUE_SELECT of a partition parks lanes at their park points, notes stalls, charges the clock, closes a batch that is over, and
then issues from one slot and, for the other warps, from a second. A slot with no eligible candidate issues nothing; else it
issues the candidate of the lowest rank, and this group runs after those issued before, and the histogram engine sees it. The
group of a warp with the largest pass counter of at least 64 is its candidate, else the one with the lowest PC. On a partition
with no warp its class batch closes, and the histogram engine sees a clock without candidate. (The order in which the parts of a
clock happen is the reading of the model.) Where the manual leaves a point open, it rests on the choice of the model in log
entries 13, 93. (R5, R8, R10, R37, R46, R189, R390, R396) -/
def Obligations.IssueChoiceResults : Prop :=
  (∀ (k j : Nat) (s : State),
    let t := s.clock k
    let parked := (s.partWarps k j).foldl (fun s e => (s.parkWarp t e.1).noteStalls k j t e.1) s
    let ws := parked.partWarps k j
    let elig := State.candidates t (parked.allCands k j t ws) ws
    let ready := ((parked.charge k j t ws elig).modPart k j (fun p =>
      { p with batch := p.batch.bind (fun b => if t < b.2 && elig.any (fun c => c.cls = b.1) then some b else none) })).noteEligible t ws elig
    exec (.issueSelect k j) s = .next (match ready.issueSlot k j t ws with
      | (u, none) => u
      | (u, some w) => (u.issueSlot k j t (ws.filter (fun e => e.1 ≠ w))).1) ∧
    (s.partWarps k j = [] → exec (.issueSelect k j) s = .next ((s.histEvent k j 1 0 0 none).modPart k j (fun p => { p with batch := none })))) ∧
  (∀ (s : State) (k j t : Nat) (ws : List (Nat × Warp)),
    let live := ws.filterMap (fun e => (s.warp? e.1).map (fun wp => (e.1, wp)))
    let all := s.allCands k j t live
    let cs := State.candidates t all live
    (cs = [] → s.issueSlot k j t ws = (s, none)) ∧
    (cs ≠ [] → ∃ c ∈ cs, s.issueSlot k j t ws = (s.issue k j t c all, some c.w) ∧
      (∃ u : State, s.issue k j t c all = u.histEvent k j 2 0 c.pc (some (s.ctxIdOf c.wp.block)) ∧
        u.cursor = s.cursor ++ [.group c.w (lanesMask c.lanes)]) ∧
      ∀ d ∈ cs, c.rank t (s.part k j).batch ≤ d.rank t (s.part k j).batch)) ∧
  ∀ (ctr : ICand → Nat) (gs : List ICand) (g : ICand), pickGroup ctr gs = some g →
    g ∈ gs ∧ ((∀ d ∈ gs, ctr d < 64) → gs.head? = some g) ∧ ∀ d ∈ gs, 64 ≤ ctr d → ctr d ≤ ctr g

/-- At their clocks: CLASS_BATCH_CLOSE closes a batch whose end has come; INSTANCE_START takes the first instruction from the queue of
a unit and keeps the unit busy for its occupancy; UNIT_GATE gates a unit that has slept for 32 clocks; UNIT_WAKE ends the wake of
a unit; none changes another unit or partition. YIELD_EXPIRY makes the lanes whose 16 clocks are over eligible again; RESULT_WRITE
frees the registers whose completion clock has come, and each tile move leaves the counter tl. SLACK_VIOLATION of a stalled
consumer that no register holds any more counts against the class of its producer and, while SLKV is enabled, traps the lanes of
the group that are in no handler; where such a lane is ahead of a speculative fence, its group rolls back instead. Where the
manual leaves a point open, it rests on the choice of the model in log entry 11. (R10, R37, R38, R46, R50, R51, R52, R230, R308,
R390) -/
def Obligations.ClockEventResults : Prop :=
  (∀ (k j : Nat) (u : Inst) (s : State),
    let p := s.part k j
    let x := p.inst u
    let only (q : Part) : Out := .next (s.modPart k j (fun _ => q))
    (∀ c e, p.batch = some (c, e) → e ≤ s.clock k → exec (.classBatchClose k j) s = only { p with batch := none }) ∧
    (∀ e rest, x.queue = e :: rest → e.1 ≤ s.clock k →
      exec (.instanceStart k j u) s = only (p.setInst { x with queue := rest, busyUntil := e.1 + e.2 })) ∧
    (x.queue = [] → x.wakeAt = none → x.busyUntil + 32 ≤ s.clock k →
      exec (.unitGate k j u) s = only (p.setInst { x with gated := true })) ∧
    (∀ c, x.wakeAt = some c → c ≤ s.clock k →
      exec (.unitWake k j u) s = only (p.setInst { x with gated := false, wakeAt := none })) ∧
    ∀ q, (s.modPart k j (fun _ => q)).part k j = q ∧
      ∀ k' j', (k' ≠ k ∨ j' ≠ j) → (s.modPart k j (fun _ => q)).part k' j' = s.part k' j') ∧
  ∀ (w : Nat) (s : State) (wp : Warp), s.warp? w = some wp →
    let t := s.clock wp.core
    (∃ u, exec (.yieldExpiry w) s = .next u ∧ OnlyWarp s u w ∧ u.warp? w = some { wp with lanes := wp.lanes.map (fun la =>
      if la.yieldUntil.any (fun c => c ≤ t) then { la with yieldUntil := none } else la) }) ∧
    (∃ u, exec (.resultWrite w) s = .next u ∧ OnlyWarp s u w ∧ u.warp? w = some { wp with
      pend := wp.pend.filter (fun p => !p.over t)
      ctrTl := wp.ctrTl - (wp.pend.filter (fun p => p.over t && p.unit = .agu)).length }) ∧
    ∀ x p ls, wp.stalls.find? (fun x => decide (x.producers ≠ []) && (s.stallOver t wp x).isSome) = some x → x.charged = some p →
      s.stallOver t wp x = some ls →
      let hit := if wp.tenable.getLsbD 7 then ls.filter (fun l => (wp.lane? l).any (fun la => !la.inHandler)) else []
      let u := (s.bump (offCounter wp.core (0x100 * wp.part + 0x40 + 8 * p.unit.cls)) 1).modWarp w (fun wp =>
        { wp with stalls := wp.stalls.map (fun y => if y = x then { y with producers := [] } else y) })
      ((∀ l ∈ hit, s.aheadOf w l = none) → exec (.slackViolation w) s = .next (u.trapLanes w hit (slkvTrap x.pc p))) ∧
      (∀ l n, l ∈ hit → s.aheadOf w l = some n → ∃ m, hit.findSome? (s.aheadOf w) = some m ∧
        exec (.slackViolation w) s = .next (s.breakSpec m))

/-- REQUEST_SEND does nothing before the clock of the L1 lookup. After it, of a waiting request with no older one of its core to its
line or of its lanes before it: a load hits in the L1 where a copy supplies it, or joins a pending fill within its 32 clocks, or
is sent with a slot where one is free; any other request is sent once it has the slot that it needs. HOME_SLICE_REQUEST does
nothing while a shootdown holds the request; one that may arrive it performs at the bank that its address names, or by its kind at
the home slice; a load that the cluster cache holds is performed with the bytes of the copy. ACCESS_RETRY sends the access again,
and counts it where a pin holds its line. WAITON_POLL of a wait that is not registered and is due reads again. HOST_PEER_WRITE_ACK
gives a type 2 write the time of its acknowledgement for all three times, another write its Tsy. Named operations carry the
results. Where the manual leaves a point open, it rests on the choice of the model in log entries 32, 35, 36, 100, 116, 117, 119.
(R55, R61, R62, R66, R68, R93, R96, R103, R271, R277, R368) -/
def Obligations.RequestPathResults : Prop :=
  ∀ (r : Nat) (s : State) (q : Req), s.req? r = some q →
    let arrive := exec (.homeSliceRequest r) s
    let bank := s.apertureOff q.ctx (((q.accs.head?).map (·.addr)).getD (q.line * 192))
    let now := s.sliceTime q.who q.page
    (q.st = .waiting → s.clock q.core < q.lookAt → exec (.requestSend r) s = .next s) ∧
    (q.st = .waiting → q.lookAt ≤ s.clock q.core → s.olderOnLine r q = false → s.olderOfLane r q = false →
      s.apertureOff q.ctx (q.line * 192) = none →
      (q.kind.fills = true → q.kind ≠ .prefetch → q.hint ≠ 3 →
        (∀ d, s.l1Copy q = some d → exec (.requestSend r) s = .next (s.hitL1 r q d)) ∧
        (s.l1Copy q = none → ∀ j p, s.pendingFill r q = some (j, p) → s.clock q.core < p.slot.getD 0 + 32 →
          exec (.requestSend r) s = .next
            (s.modReq r (fun q => { q with st := .joined j, sentNo := s.tick })).next) ∧
        (s.l1Copy q = none → s.pendingFill r q = none → s.slotFree q = true → exec (.requestSend r) s = .next (s.sendReq r true))) ∧
      (q.kind.fills = false ∨ q.hint = 3 →
        (q.kind.slotted = false → exec (.requestSend r) s = .next (s.sendWrite r q)) ∧
        (q.kind.slotted = true → s.slotFree q = true → exec (.requestSend r) s = .next (s.sendWrite r q)))) ∧
    (s.invalHolds r q = true → arrive = .next s) ∧
    (q.st = .sent → s.mayArrive r q = true →
      (bank.isSome = true → arrive = .next (s.arriveBank r q)) ∧
      (bank = none →
        (∀ f, q.kind = .load f → arrive = .next (s.arriveLoad r q)) ∧ (∀ g, q.kind = .gath g → arrive = .next (s.arriveLoad r q)) ∧
        (q.kind = .prefetch → arrive = .next (s.arriveLoad r q)) ∧
        (q.kind = .store ∨ q.kind = .fset ∨ q.kind = .fclr → arrive = .next (s.arriveWrite r q)) ∧
        (∀ op t ret, q.kind = .atom op t ret → arrive = .next (s.arriveWrite r q)) ∧
        (∀ op t, q.kind = .red op t → arrive = .next (s.arriveWrite r q)) ∧
        (q.kind = .fld → arrive = .next (s.arriveFld r q)) ∧
        (∀ c t, q.kind = .waiton c t → arrive = .next (s.arriveWait r q c t)))) ∧
    (∀ d, q.hint ≠ 3 → q.kind ≠ .prefetch → s.ccCopy q = some d → ∃ (u : State) (f : Fill), s.arriveLoad r q =
        u.loaded r (s.readAccs q (fun i n => some (lineGet d.data i n))).1 (s.readAccs q (fun i n => some (lineGet d.data i n))).2
          (some f) d.tldv d.tlsy ∧ f.data = d.data ∧ f.valid = d.valid ∧ u.reqs = s.reqs) ∧
    (q.st = .retry → exec (.accessRetry r) s = .next
      (((if s.pinnedAt q.who q.line q.page then
          s.bump (offCounter q.core (0x100 * ((q.warp.bind s.warp?).map (·.part)).getD 0 + 0x68)) 1 else s).modReq r (fun q =>
        { q with st := .sent, sentNo := s.tick })).next)) ∧
    (∀ c t, q.kind = .waiton c t → q.st = .held → r ∉ (s.slice (s.homeOf q.ctx q.page)).waits → q.due ≤ now →
      s.apertureOff q.ctx (q.line * 192) = none → exec (.waitonPoll r) s = .next (s.arriveWait r q c t false)) ∧
    (q.st = .ackWait true → exec (.hostPeerWriteAck r) s = .next (s.modReq r (fun q =>
      { q with st := .performed, tcl := now, tdv := now, tsy := now }))) ∧
    (q.st = .ackWait false → exec (.hostPeerWriteAck r) s = .next ((s.noteTsy q.who q.line q.page (max q.tdv now)).modReq r (fun q =>
      { q with st := .performed, tsy := max q.tsy (max q.tdv now) })))

/-- FILL_ARRIVE of a performed request of a warp that returns values keeps its fill, where a way of the set may take it, and completes
it, an L1 hit on the clock of its data; of a faulted or failed one it makes a replay record or aborts transactions. WRITE_ACK
completes a performed write: a store leaves the list of requests, and each horizon of its warp becomes the later of itself and the
time that the acknowledgement carries. FIFO_SERVE of the first waiting request pushes the 16 bytes of a store behind the queue, or
gives a load the oldest entry, which leaves the queue. REPLAY_COMPLETE of a record whose replay has no request left frees it and
unparks the lanes that it holds. Where the manual leaves a point open, it rests on the choice of the model in log entries 39, 41.
(R31, R32, R33, R61, R68, R88, R94, R232) -/
def Obligations.ResponseResults : Prop :=
  (∀ (r : Nat) (s : State) (q : Req) (w : Nat), s.req? r = some q → q.warp = some w → q.kind ≠ .ifetch →
    (q.st = .performed → q.kind.returns = true → (∀ c, q.hitAt = some c → c ≤ s.clock q.core) →
      exec (.fillArrive r) s = .next (match s.keepFill q with
        | some u => u.complete r q w
        | none => s)) ∧
    (∀ c, q.hitAt = some c → s.clock q.core < c → exec (.fillArrive r) s = .next s) ∧
    (∀ e, q.st = .faulted e → q.hitAt = none → exec (.fillArrive r) s = .next ((s.toReplay r q w 0).endGone r)) ∧
    (∀ e, q.st = .error e → q.hitAt = none → exec (.fillArrive r) s = .next ((s.toReplay r q w e).endGone r)) ∧
    (q.st = .performed → q.kind.returns = false → exec (.writeAck r) s = .next (s.complete r q w)) ∧
    (∀ wp, q.st = .performed → q.kind = .store → s.warp? w = some wp → (∀ e ∈ s.reqs, e.2.st ≠ .joined r) →
      ∃ (t : State) (wp' : Warp), exec (.writeAck r) s = .next t ∧
      t.req? r = none ∧ t.warp? w = some wp' ∧
      wp'.hcl = max wp.hcl q.tcl ∧ wp'.hdv = max wp.hdv q.tdv ∧ wp'.hsy = max wp.hsy q.tsy)) ∧
  (∀ (cl b o p r : Nat) (rest : List Nat) (s : State) (q : Req) (a : Acc),
    let k := (s.cluster cl).bank b
    let t := s.gtimeAt (placeCluster cl)
    let served (f : List (BitVec 128)) (a : Acc) : Out := .next ((s.modBank cl b (fun k =>
      { k with fifo := f, waiting := k.waiting.filter (· ≠ r) })).modReq r (fun q =>
        { q with accs := [a], st := .performed, tcl := t, tdv := t, tsy := t }))
    k.mode = .fifo o p → k.waiting = r :: rest → s.req? r = some q → q.accs = [a] → a.pred = false →
    (q.kind = .store → k.fifo.length < 16384 → exec (.fifoServe cl b) s = served (k.fifo ++ [a.data]) { a with pred := true }) ∧
    (∀ x f, q.kind = .load false → k.fifo = x :: f →
      exec (.fifoServe cl b) s = served f { a with pred := true, result := some x })) ∧
  ∀ (w i : Nat) (s : State) (wp : Warp) (rec : Replay), s.warp? w = some wp → mapGet? wp.replays i = some rec → rec.replaying = true →
    (∀ e ∈ s.reqs, e.2.warp = some w → e.2.replay ≠ some i) →
    exec (.replayComplete w i) s = .next ((s.modWarp w (fun wp =>
      { wp with
        replays := mapErase wp.replays i
        lanes := wp.lanes.map (fun la => if la.st = .faultPark i then { la with st := .runnable } else la) })).lanesDone w
          rec.req.group rec.req.kind rec.lanes)

/-- TX_COMMIT of a commit whose loads have returned aborts the lanes that conflict with cause 0x01 and locks the lines: where a pin
makes that retry it is counted, and once every line is locked the lanes whose recorded reads no longer hold abort and the others
commit together. TX_UNLOCK, once gtime has reached the largest Tdv of the writes, ends the commit and unlocks its lines.
GATHER_SUBGROUP_RELEASE releases every lane of a gather once all their data has arrived, and on each 16th clock after issue, up to
three times, those whose data has. PAGE_FAULT_ROUTE reports a pending fault once, to the ring of its context, with the USER of its
packet. Where the manual leaves a point open, it rests on the choice of the model in log entries 48, 114. (R33, R78, R84, R109,
R325, R366) -/
def Obligations.CommitGatherAndFaultEventResults : Prop :=
  (∀ (c : Nat) (s : State) (cm : Commit) (wp : Warp), mapGet? s.commits c = some cm → s.warp? cm.warp = some wp →
    let u := s.abortLanes cm.warp (conflicts [] (s.committing c cm)) 0x01 0
    let p := u.whoCommit c wp
    let ps := commitPieces (u.committing c cm)
    let locked := lockPieces c cm p wp.core wp.block (u.unpinPieces cm.warp wp.core p.asid ps) ps
    (cm.installed = false → s.txOpen cm = false → ∀ v,
      (locked = (v, .done) →
        let x := (v.committing c cm).foldl (fun s e => if s.validate p e.2 = 0 then s else s.abortLanes cm.warp [e.1] (s.validate p e.2) 0) v
        exec (.txCommit c) s = .next (x.commitLanes p c cm wp.core (x.committing c cm))) ∧
      (locked = (v, .retry) → exec (.txCommit c) s = .next
        (if v.commitPinned p ps then v.bump (offCounter wp.core (0x100 * wp.part + 0x68)) 1 else v))) ∧
    (cm.installed = true → cm.until_ ≤ s.gtimeAt (placeCore wp.core) →
      let lines := s.slices.flatMap (fun e => (e.2.lines.filter (fun h => h.lockTx = some c)).map (fun h => (e.1, h)))
      let over_ : State := { s with commits := mapErase s.commits c }
      exec (.txUnlock c) s = .next (lines.foldl (fun s e => s.afterWrite e.1 e.2.line)
        (lines.foldl (fun s e => s.modHLine e.1 e.2 (fun h => { h with lockTx := none })) over_)))) ∧
  (∀ (n : Nat) (s : State) (ga : Gather) (wp : Warp), mapGet? s.gathers n = some ga → s.warp? ga.warp = some wp →
    let t := s.clock wp.core
    let live := { ga with lanes := s.gatherStill n ga }
    let ready := live.lanes &&& live.arrived
    ga.issued < t →
    (ready = live.lanes → exec (.gatherSubgroupRelease n) s = .next (s.gatherRelease n live ready)) ∧
    (ready ≠ 0 → (t - ga.issued) % 16 = 0 → ga.released < 3 →
      exec (.gatherSubgroupRelease n) s = .next (s.gatherRelease n live ready))) ∧
  ∀ (x page : Nat) (s : State) (f : PFault) (c : Ctx),
    s.pfaults.find? (fun f => f.ctx = x && f.page = page && !f.routed) = some f → s.ctx? x = some c →
    exec (.pageFaultRoute x page) s = .next (State.post
      { s with pfaults := s.pfaults.map (fun g => if g.ctx = x && g.page = page then { g with routed := true } else g) }
      c.body.fring { f.record with user := s.userOf f.queue f.seq })

/-- IFETCH_REQUEST of a line that a party of the core waits for, with fewer than 8 fetches of the core open, adds one request for it
and a prefetch of the next line. IFETCH_FILL of a sent fetch request takes the bytes of the cluster cache, where a copy supplies
them: the fill is kept in the L1 instruction cache and in the cluster cache, where no younger icinv or store forbids it and a way
of the set may take it, and the request is over; a demand fetch whose walk faults becomes a faulted request, and a prefetch that
faults is dropped; while a shootdown holds the request at its slice, nothing happens. FETCH_FAULT of a faulted demand fetch parks
every party that waits for the word on the page, and the request is over. Where the manual leaves a point open, it rests on the
choice of the model in log entries 97, 100. (R35, R148, R320, R321, R322, R323) -/
def Obligations.CodeFetchResults : Prop :=
  (∀ (k line : Nat) (s : State),
    (∀ v, (s.fetchWaiters k).find? (fun v => lineOf v.addr = line && !s.fetchPending k line (s.asidOf v.block) (s.viewOf v.block)) = some v →
      (s.fetches k).length < 8 →
      let x := s.ctxIdOf v.block
      let a := s.asidOf v.block
      let u := s.viewOf v.block
      exec (.ifetchRequest k line) s = .next ((s.addReqs [fetchReq s k x a u (some v.block) v.addr true]).next.prefetchLine k x a u
        (some v.block) ((line + 1) * 192)))) ∧
  ∀ (r : Nat) (s : State) (q : Req), s.req? r = some q → q.kind = .ifetch →
    (q.st = .sent →
      (∀ d, s.ccCopy q = some d → ∃ f : Fill, f.data = d.data ∧ f.valid = d.valid ∧
        exec (.ifetchFill r) s = .next (
          let u := if q.keep = true ∧ q.keepCc = true then (s.fillCc (clusterOf q.core) (q.copy f f.expCc s.tick)).getD s else s
          (if q.keep then u.fillL1i q f else u).dropReq r)) ∧
      (∀ u e, s.ccCopy q = none → s.invalHolds r q = false → s.home q.who q.line q.page false q.hint = (u, .fault e) →
        exec (.ifetchFill r) s = .next (if q.demand then u.faultReq r q e else u.dropReq r)) ∧
      (s.ccCopy q = none → s.invalHolds r q = true → exec (.ifetchFill r) s = .next s)) ∧
    (∀ e, q.st = .faulted e → exec (.fetchFault r) s = .next (((s.waitersOf q).foldl (fun s v =>
      match v.warp, v.tenant with
      | some w, _ => s.modLane w v.lane (fun la => { la with st := .fetchPark q.page })
      | none, some t => s.modTenant t (fun te => { te with st := .faultPark q.page })
      | none, none => s) s).dropReq r))

/-- PHASE_RECORD_WRITE of a resident block whose live threads have all arrived at one kind of boundary, with steps 1 to 4 of R23 over,
writes the phase record and the block leaves its cores; before a forkw of a count outside 2 to 8 it traps each arrived lane with
ILLOP reason 0x0B, and a forkw that the limits of Table 7.2 deny traps with VIEWX. A thread that arrived starts the next phase
runnable at the word after its boundary, with its predicates, with each register of its carry set as it was and every other
register 0, out of any handler; a thread that had exited stays exited. Of its warp the rejoin masks, %sbias, %tenable and the
carried uniform registers are kept, every other uniform register, every counter and every horizon is 0. Where the manual leaves a
point open, it rests on the choice of the model in log entries 66, 94. (R23, R24, R165, R166, R170) -/
def Obligations.PhaseRecordKeepsCarriedState : Prop :=
  (∀ (b : Nat) (s : State) (bl : Block) (r : LaunchRec) (a : Arrival) (rest : List Arrival), s.block? b = some bl → s.recOfBlock b = some r →
    bl.st = .resident → bl.arrivals = a :: rest → bl.arrivals.length = s.liveThreads bl → sameKind bl.arrivals = true →
    (∀ u, a.kind = .pbar ∨ a.kind = .gbar → s.phaseReady b bl = (u, true) →
      exec (.phaseRecordWrite b) s = .next (u.endPhase b bl r a.kind)) ∧
    (∀ n, a.kind = .forkw n →
      (n < 2 ∨ 8 < n → exec (.phaseRecordWrite b) s =
        .next (bl.arrivals.foldl (fun s a => s.trapLane a.warp a.lane (.illop a.pc 0x0B)) s)) ∧
      (2 ≤ n → n ≤ 8 → ∀ c, s.forkDenied bl r n = some c → exec (.phaseRecordWrite b) s = .next (s.forkTrap bl c)) ∧
      (2 ≤ n → n ≤ 8 → s.forkDenied bl r n = none → ∀ u, s.phaseReady b bl = (u, true) →
        exec (.phaseRecordWrite b) s = .next (u.endPhase b bl r a.kind)))) ∧
  ∀ (wp : Warp) (w : Nat) (r : LaunchRec) (as : List Arrival) (p : PhaseRec), p.warps = [wp.phaseRec w r as] →
    ∃ np : Warp, (BlockData.next r p).warps = [np] ∧ np.masks = wp.masks ∧ np.sbias = wp.sbias ∧ np.tenable = wp.tenable ∧
      (∀ i, np.sreg i = if r.carrys.getLsbD i then wp.sreg i else 0) ∧
      np.ctrLd = 0 ∧ np.ctrSt = 0 ∧ np.ctrCp = 0 ∧ np.ctrTl = 0 ∧ np.hcl = 0 ∧ np.hdv = 0 ∧ np.hsy = 0 ∧
      ∀ l, l < 32 → ∃ x, np.lane? l = some x ∧ x.inHandler = false ∧ x.tx = none ∧
        (∀ la a, wp.lane? l = some la → as.find? (fun a => a.warp = w && a.lane = l) = some a →
          x.st = .runnable ∧ x.pc = a.pc + 16 ∧ x.preds = la.preds ∧ ∀ i, x.reg i = if r.carryv.getLsbD i then la.reg i else 0) ∧
        (as.find? (fun a => a.warp = w && a.lane = l) = none → x.st = .exited)

/-- BLOCK_PLACE of a grid that may still place, and that no work before it in the order of service outranks, takes the next curve
index x whose fields all lie within their extents: where x begins a gang its blocks enter the machine at their first phase, and
where they can be seated together, the next offer starts at x + 1 and the time limits count; where not, nothing stays of them.
PHASE_START of a queued block that nothing outranks seats it, with its gang once each of them is queued and unless a block of a
lower curve index came through the same grid barrier and still waits, from its phase record, and horizons take the time of a
commit that it chose. GBAR_OPEN of a grid that has offered every block, all of them held at gbar, queues their next phases
together. DEVICE_LAUNCH_READ of a device launch whose release is over reads the 384 bytes of its record. Where the record is good
and its context is open, the launch leaves the queue and a grid enters, with the command number of its parent and the parent
completion ring, its class taken from the record and that of the parent, and the time limit of the parent. A bad record is refused
with its reason; an access error leaves with reason 0x01 and is logged; a page fault is raised and the launch waits on that page.
Where the manual leaves a point open, it rests on the choice of the model in log entries 72, 73. (R16, R18, R21, R26, R27, R135,
R170, R30, R309, R310, R342, R344) -/
def Obligations.PlacementResults : Prop :=
  ((∀ (n : Nat) (s : State) (g : Grid) (x : Nat), s.grid? n = some g → g.noPlace = false → g.offered = false →
     (s.outranked g = true → exec (.blockPlace n) s = .next s) ∧ (s.outranked g = false →
     g.lrec.nextOffer 4096 g.next = some x →
     let wids := g.lrec.gangOf (g.lrec.widAt x)
     let ids := (upTo wids.length).map (fun i => s.tick + i)
     let u : State := { s with
       blocks := s.blocks ++ (ids.zip wids).map (fun e => (e.1, Block.start n (g.lrec.curveIndex e.2) e.2)), tick := s.tick + wids.length }
     (∀ k ∈ wids, x ≤ g.lrec.curveIndex k) →
     (∀ v, u.seatAll g (ids.map (fun i => (i, BlockData.first g.lrec))) x = (v, true) →
       exec (.blockPlace n) s = .next ((v.modGrid n (fun g => { g with next := x + 1 })).noteFirst n)) ∧
     (∀ v, u.seatAll g (ids.map (fun i => (i, BlockData.first g.lrec))) x = (v, false) →
       exec (.blockPlace n) s = .next { v with blocks := v.blocks.filter (fun e => e.1 ∉ ids) }))) ∧
   (∀ (b : Nat) (s : State) (bl : Block) (g : Grid) (v : State), s.block? b = some bl → s.gridOfBlock b = some g → bl.st = .queued →
     g.noPlace = false → bl.killed = none → (∀ e ∈ s.phaseMates b bl g.lrec, e.2.st = .queued) → s.outranked g = false →
     ((∀ e ∈ s.phaseMates b bl g.lrec, s.afterTurn e.2 = true) → exec (.phaseStart b) s = .next s) ∧
     ((∃ e ∈ s.phaseMates b bl g.lrec, s.afterTurn e.2 = false) →
     s.seatAll g ((s.phaseMates b bl g.lrec).map (fun e =>
       (e.1, match e.2.rec_ with | some p => BlockData.next g.lrec p | none => BlockData.first g.lrec))) bl.curve = (v, true) →
     let t := listMax (bl.rivals.map (fun r => if r.status = 1 then r.time else 0))
     exec (.phaseStart b) s = .next ((((v.block? b).map (·.warps)).getD []).foldl (fun s w =>
       s.modWarp w (fun wp => { wp with hdv := max wp.hdv t })) v))) ∧
   ∀ (n : Nat) (s : State) (g : Grid), s.grid? n = some g → g.offered = true →
     let bs := s.blocks.filter (fun e => e.2.grid = n && e.2.parent.isNone && e.2.killed.isNone)
     bs ≠ [] → (∀ e ∈ bs, e.2.st = .gbar) →
     exec (.gbarOpen n) s = .next (bs.foldl (fun s e => s.modBlock e.1 (fun bl => { bl with st := .queued, turn := some s.tick })) s.next)) ∧
  (∀ (n : Nat) (s : State) (d : DevLaunch) (g : Grid), mapGet? s.devLaunches n = some d → s.grid? d.grid = some g → d.paused = none →
     (∀ f, d.waiting = some f → mapGet? s.fences f = none) →
     let read := State.engReadList (s.whoFirmware d.ctx) s d.addr 24
     (∀ u bs a, read = (u, .ok bs, a) →
       let r := LaunchRec.ofBytes bs
       (∀ reason, (if u.ctxOpen d.ctx then u.recordReason d.ctx bs else some 0x0B) = some reason →
         exec (.deviceLaunchRead n) s = .next ((u.dropLaunch n d).refuseLaunch g r.cring reason 0)) ∧
       ((if u.ctxOpen d.ctx then u.recordReason d.ctx bs else some 0x0B) = none →
         exec (.deviceLaunchRead n) s = .next ((u.dropLaunch n d).addGrid (Grid.fresh d.ctx g.queue g.seq
           { idem := false, nocpl := false, fence := false, ring := g.lrec.cring, user := 0 } (.device d.grid) r d.addr
           (gridClass r g.class_) (match g.src with
             | .node k _ => ((mapGet? u.graphs k).map (·.limit)).getD 0
             | _ => g.limit))))) ∧
     (∀ u e a, read = (u, .fault e, a) → exec (.deviceLaunchRead n) s = .next ((u.raiseFault
       { ctx := d.ctx, page := pageOf a, fetch := false, reason := e, faddr := a, engine := commandEngine g.queue, queue := g.queue,
         seq := g.seq, routed := false }).modLaunch n (pageOf a))) ∧
     (∀ u e a, read = (u, .error e, a) → exec (.deviceLaunchRead n) s =
       .next (((u.logError d.ctx a e (commandEngine g.queue)).dropLaunch n d).refuseLaunch g g.lrec.cring 0x01 (signAddr d.addr).toNat)))

/-- A block whose threads have exited and sequencers ended, with no child left and its work and releases over, leaves its cores at
BLOCK_END and is gone; a copy that failed and that nothing waited for enters the record of its grid. A rival tells its parent at
RIVAL_END its status and, when it yielded or was marked SELF, its score. GRID_COMPLETE of a grid that is over starts it once more
when it is lost and carries IDEM, else tells its graph, or, once its ring has room, ends its command with its final record (a
device launch posts it). GRID_TIME_LIMIT of a grid whose limit has run out stops it with TIMEOUT; for a node of a graph it stops
every grid of the graph. Where the manual leaves a point open, it rests on the choice of the model in log entries 55, 68, 70, 76,
102. (R104, R150, R168, R169, R287, R343, R344, R345, R346, R347, R375, R392) -/
def Obligations.BlockAndGridEndResults : Prop :=
  (∀ (b : Nat) (s : State) (bl : Block), s.block? b = some bl → s.blockOver bl = true → bl.children = [] →
    let j := s.judgeLast b bl
    j.blockQuiet b bl = true → ∀ u, j.blockReleased bl = (u, true) →
    (bl.parent = none → bl.st = .resident ∨ bl.killed.isSome = true →
      exec (.blockEnd b) s = .next ((((u.leaveCores b bl).tellUnheard bl).dropBlock b).settleCluster bl.cluster)) ∧
    (∀ pa, bl.parent = some pa →
      let st := bl.rivalStatus
      exec (.rivalEnd b) s = .next ((((((u.leaveCores b bl).tellUnheard bl).dropBlock b).modBlock pa (fun p =>
        { p with
          children := p.children.filter (· ≠ b)
          rivals := listModify p.rivals bl.world (fun r => { r with status := st, score := if st ≤ 1 then bl.yielded.getD 0 else 0 }) })).rivalEnded
            pa bl st).tryQueueParent pa))) ∧
  ∀ (n : Nat) (s : State) (g : Grid), s.grid? n = some g →
    (s.gridOver n g = true →
      (g.status = 4 → g.hdr.idem = true → g.retried = false → exec (.gridComplete n) s = .next (s.modGrid n Grid.again)) ∧
      (g.status ≠ 4 ∨ g.hdr.idem = false ∨ g.retried = true →
        (∀ gr node, g.src = .node gr node → exec (.gridComplete n) s = .next
          { s with grids := mapErase s.grids n, graphs := mapModify s.graphs gr (fun x => x.nodeOver g node) }) ∧
        (s.canFinish g.hdr g.status = true →
          (g.src = .packet → exec (.gridComplete n) s = .next
            { s.finish g.queue g.seq g.hdr g.finalRecord with grids := mapErase s.grids n }) ∧
          (∀ k, g.src = .device k → exec (.gridComplete n) s = .next
            { s.post g.hdr.ring g.finalRecord with grids := mapErase s.grids n })))) ∧
    (g.status ≠ 6 → expired g.limit g.firstIssue (s.gtimeAt 0) = true → (∀ k i, g.src ≠ .node k i) →
      exec (.gridTimeLimit n) s = .next (s.stopGrid n 6)) ∧
    (∀ k i gr, g.src = .node k i → mapGet? s.graphs k = some gr → gr.status ≠ 6 → expired gr.limit gr.firstStart (s.gtimeAt 0) = true →
      let low := ((upTo gr.st.length).find? (fun i => gr.st.getD i 0 ≠ 2)).getD 0
      exec (.gridTimeLimit n) s = .next ((s.grids.filter (fun e => match e.2.src with | .node k' _ => k' = k | _ => false)).foldl
        (fun s e => s.stopGrid e.1 6) { s with graphs := mapModify s.graphs k (fun gr => { gr with status := 6, failing := low }) }))

/-- VIEW_COMMIT of a view that is being committed widens the pins of its copies and installs each page of each written copy.
COMMIT_RETRY_END, once nothing is left to install and gtime has reached the largest time of the installs, ends the retry.
OUTBOX_PERFORM performs the first operation of a committed outbox: an access that can be performed leaves it, one with a release
half once the warp that chose is released at its scope; a launch enters the queue of its context once that warp is released at .dv
and there is room, and stays first until its record is read; an event writes its record, as of the core of that warp, once it is
released at .sy and its ring has room. VIEW_ID_RETURN frees a dropped view once no lease can run. VIEW_SPILL writes the copies of
a line that are not held to their bucket. Where the manual leaves a point open, it rests on the choice of the model in log entries
74, 75, 94. (R172, R173, R174, R175, R176, R177, R328, R329, R409) -/
def Obligations.ViewEventResults : Prop :=
  (∀ (v line : Nat) (s : State), exec (.viewSpill v line) s = .next
    ((s.pinned (fun h => h.view = v && v ≠ 0 && h.line = line && !h.spilled && !h.fixed)).foldl (fun s e => s.spill e.1 e.2) s)) ∧
  ∀ (v : Nat) (s : State) (vw : View), s.view? v = some vw →
    (vw.commit.isSome = true →
      let u := s.unpinAll (fun h => h.view = v && (h.pinCo.isSome || h.pinCl.isSome)) noCluster []
      exec (.viewCommit v) s = .next ((u.copiesOf v).foldl (fun s e => e.2.tags.foldl (fun s t => s.commitPage v e.1 e.2 t.1) s) u)) ∧
    (∀ w t, vw.commit = some (w, t) → vw.pendingInstalls = [] → (∀ e ∈ s.copiesOf v, e.2.written = 0) → t ≤ s.gtimeAt 0 →
      exec (.commitRetryEnd v) s = .next (s.endRetry v vw w t)) ∧
    (∀ t, vw.returnAt = some t → t ≤ s.gtimeAt 0 →
      exec (.viewIdReturn v) s = .next { s with views := mapErase s.views v } ∧ (State.view? { s with views := mapErase s.views v } v) = none) ∧
    ∀ w, vw.performing = some w →
      (∀ q rest u t, vw.outbox = .access q :: rest → vw.pendingInstalls = [] → s.outRelease w q = (u, true) →
        u.performOut v vw w q = (t, true) → exec (.outboxPerform v) s = .next (t.outDone v w true)) ∧
      (∀ a k x rest u, vw.outbox = .launch a k x :: rest → (∀ e ∈ s.devLaunches, e.2.view ≠ some v) →
        s.outReleased w .dv = (u, true) → u.launches vw.ctx < 1024 →
        exec (.outboxPerform v) s = .next ({ u with devLaunches := u.devLaunches ++ [(u.tick,
          { ctx := vw.ctx, addr := a, grid := vw.grid, warp := none, group := u.tick, waiting := none, view := some v, paused := none,
            due := 0 })] } : State).next) ∧
      (∀ x k rest u g, vw.outbox = .event x k :: rest → s.outReleased w .sy = (u, true) → s.grid? vw.grid = some g →
        u.ringRoom g.lrec.cring = true → exec (.outboxPerform v) s = .next ((u.post g.lrec.cring
          { Record.blank g.queue g.seq (0x1000 + ((w.bind u.warp?).map (·.core)).getD k) (x.setWidth 64) with kind := 2 }).outDone v w true))

/-- PAD at QHEAD is passed over. A packet that starts (first of its queue, or with every earlier one started and none holding it):
LAUNCH reads its record and, where it is good, a grid enters with it; a bad record ends the packet with LAUNCHERR and its reason.
GRAPH reads its node table and, where its nodes are good, a graph enters with the costs, predecessors and slacks of its nodes,
none started; a bad node ends it with reason 0x0C. COPY and FILL of canonical ranges with an engine to take them enter one
operation of that engine; of no bytes they are done at once; of a range that is not canonical they end with FAULT.
GRAPH_NODE_START of a ready node whose record is good starts its grid and marks it running, unless the time limit of the graph has
run out, which then stops the graph. Then a packet that is done is closed. Where the manual leaves a point open, it rests on the
choice of the model in log entries 72, 81. (R284, R335, R338, R339, R341, R342, R343, R344) -/
def Obligations.WorkPacketsStart : Prop :=
  (∀ (q len bytes : Nat) (s : State), s.peek q = .packet (.pad q len) bytes → exec (.pad q len) s = .next ((s.passPacket q bytes).readOn q)) ∧
  (∀ (q n : Nat) (h : PktHdr) (s : State),
    let x := s.queueCtx q
    let close (t : State) : Out := .next (t.closeCmd q n)
    (∀ record limit, Starts s (.launchPkt q n h record limit) q n true → canonical (BitVec.ofNat 64 record) = true →
      ∀ u bs a, State.engReadList (s.whoFirmware x) s (record % 2 ^ 57) 24 = (u, .ok bs, a) →
      let r := LaunchRec.ofBytes bs
      (u.recordReason x bs = none → exec (.launchPkt q n h record limit) s = close ((u.startCmd q n).addGrid
        (Grid.fresh x q n h .packet r (record % 2 ^ 57) (gridClass r (u.queueClass q)) limit))) ∧
      (∀ e, u.recordReason x bs = some e → exec (.launchPkt q n h record limit) s = close (u.endCmd q n 7 e 0))) ∧
    (∀ table count limit, Starts s (.graph q n h table count limit) q n true → canonical (BitVec.ofNat 64 table) = true →
      ∀ u bs a, State.engReadList (s.whoFirmware x) s (table % 2 ^ 57) (3 * count) = (u, .ok bs, a) →
      ((upTo count).all (nodeOk bs) = true → ∃ g, exec (.graph q n h table count limit) s =
          close ({ u.startCmd q n with graphs := u.graphs ++ [(u.tick, g)] } : State).next ∧
        g.ctx = x ∧ g.queue = q ∧ g.seq = n ∧ g.limit = limit ∧ g.recs = (upTo count).map (nodeRec bs) ∧
        g.preds = (upTo count).map (nodePreds bs) ∧ g.cost = (upTo count).map (nodeCost bs) ∧ g.slack = slackOf g.cost g.preds ∧
        g.status = 0 ∧ ∀ i, g.st.getD i 0 = 0) ∧
      ((upTo count).all (nodeOk bs) = false → exec (.graph q n h table count limit) s = close (u.endCmd q n 7 0x0C 0))) ∧
    (∀ src dst bytes, Starts s (.copy q n h src dst bytes) q n true → ∀ c, s.pickEngine (s.queuePart q) = some c →
      badAddress (BitVec.ofNat 64 dst) bytes = none → badAddress (BitVec.ofNat 64 src) bytes = none →
      (bytes ≠ 0 → exec (.copy q n h src dst bytes) s = close ({ s.startCmd q n with copies := s.copies ++
        [(mapFresh s.copies, pktOp s q n c .copyPkt [] (dst % 2 ^ 57) (some (src % 2 ^ 57)) bytes)] } : State).next) ∧
      (bytes = 0 → exec (.copy q n h src dst bytes) s = close (s.doneCmd q n 0 0))) ∧
    (∀ dst bytes v, Starts s (.fill q n h dst bytes v) q n true → ∀ c, s.pickEngine (s.queuePart q) = some c →
      (∀ a, badAddress (BitVec.ofNat 64 dst) bytes = some a → exec (.fill q n h dst bytes v) s = close (s.endCmd q n 1 0x06 a.toNat)) ∧
      (badAddress (BitVec.ofNat 64 dst) bytes = none →
        (bytes ≠ 0 → exec (.fill q n h dst bytes v) s = close ({ s.startCmd q n with copies := s.copies ++
          [(mapFresh s.copies, pktOp s q n c .fillPkt [v] (dst % 2 ^ 57) none bytes)] } : State).next) ∧
        (bytes = 0 → exec (.fill q n h dst bytes v) s = close (s.doneCmd q n 0 0))))) ∧
  ∀ (gr node : Nat) (s : State) (g : Graph), mapGet? s.graphs gr = some g → g.ready node = true → (∀ e ∈ g.paused, e.1 ≠ node) →
    (expired g.limit g.firstStart (s.gtimeAt 0) = true → exec (.graphNodeStart gr node) s = .next (s.limitGraph gr)) ∧
    (expired g.limit g.firstStart (s.gtimeAt 0) = false →
    let a := g.recs.getD node 0
    canonical (BitVec.ofNat 64 a) = true → a % 192 = 0 →
    ∀ u bs b, State.engReadList (s.whoFirmware g.ctx) s (a % 2 ^ 57) 24 = (u, .ok bs, b) →
    let r := LaunchRec.ofBytes bs
    (u.recordReason g.ctx bs = none → exec (.graphNodeStart gr node) s = .next ((u.modGraph gr (fun g => { g with st := g.st.set node 1 })).addGrid
      (Grid.fresh g.ctx g.queue g.seq g.hdr (.node gr node) r (a % 2 ^ 57) (gridClass r (u.queueClass g.queue)) 0))) ∧
    (∀ e, u.recordReason g.ctx bs = some e → exec (.graphNodeStart gr node) s = .next (u.modGraph gr (fun g => g.fails node 7 e 0))))

/-- A packet that starts: SIGNAL at a canonical address writes its 8-byte word, or adds to it, and is done once the write is
performed; WAIT is done once the comparison of the word it reads holds, and stays in progress until then; its timeout ends it with
TIMEOUT. STOP of a queue keeps later packets of it from starting, and is done once those that have started are complete; STOP that
continues lets them start. INVAL of no bytes is done at once, else it drops the translations of its range and shoots down. RESUME
of a pending page of its context answers it once: retried, or failed, with the number of waiting parties as its result; of no
pending page it is done with 0. Where the manual leaves a point open, it rests on the choice of the model in log entries 79, 82,
101. (R33, R338, R339, R367, R368, R382) -/
def Obligations.ControlPacketsStart : Prop :=
  ∀ (q n : Nat) (h : PktHdr) (s : State),
    let x := s.queueCtx q
    let close (t : State) : Out := .next (t.closeCmd q n)
    (∀ addr v, canonical (BitVec.ofNat 64 addr) = true →
      (Starts s (.signalWrite q n h addr v) q n true → ∀ u t tsy,
        s.engWrite (s.whoFirmware x) none (addr % 2 ^ 57) 8 v.toNat none false = (u, .ok (t, tsy)) →
        exec (.signalWrite q n h addr v) s = close (u.doneCmd q n 0 (max t.tdv tsy))) ∧
      (Starts s (.signalAdd q n h addr v) q n true → ∀ u t tsy,
        s.engWrite (s.whoFirmware x) none (addr % 2 ^ 57) 8 v.toNat (some { ty := .n64, pc := 0, row := 0 }) false = (u, .ok (t, tsy)) →
        exec (.signalAdd q n h addr v) s = close (u.doneCmd q n 0 (max t.tdv tsy)))) ∧
    (∀ addr v cond timeout, canonical (BitVec.ofNat 64 addr) = true → Starts s (.wait q n h addr v cond timeout) q n true → ∀ u w,
      (s.startCmd q n).engRead (s.whoFirmware x) none (addr % 2 ^ 57) 8 = (u, .ok w) →
      exec (.wait q n h addr v cond timeout) s = close (if cmpInt cond w v.toNat then u.doneCmd q n 0 0 else u)) ∧
    (∀ c h' addr v cond timeout, s.cmd? q n = some c → c.instr = .wait q n h' addr v cond timeout → c.started = true → c.done = false →
      expired timeout (some c.due) (s.gtimeAt 0) = true → exec (.waitTimeout q n) s = close (s.endCmd q n 6 0 0)) ∧
    (∀ target, Starts s (.stop q n h target) q n false → exec (.stop q n h target) s =
      close (((s.startCmd q n).modQueue target (fun k => { k with stopped := true })).tryStop q n target)) ∧
    (∀ target, Starts s (.stopContinue q n h target) q n false → exec (.stopContinue q n h target) s =
      close ((s.modQueue target (fun k => { k with stopped := false })).doneCmd q n 0 0)) ∧
    (∀ start bytes whole, Starts s (.inval q n h start bytes whole) q n true →
      let r := s.rangeOf x start bytes whole
      (bytes = 0 → whole = false → exec (.inval q n h start bytes whole) s = close (s.doneCmd q n (s.gtimeAt 0) 0)) ∧
      (bytes ≠ 0 ∨ whole = true → exec (.inval q n h start bytes whole) s = close (((s.startCmd q n).dropTranslations r).shoot q n r))) ∧
    (∀ fq seq addr unres, Starts s (.resume q n h fq seq addr unres) q n true → canonical (BitVec.ofNat 64 addr) = true →
      let page := pageOf (addr % 2 ^ 57)
      (s.pfaults.find? (fun f => f.ctx = x && f.page = page) = none → exec (.resume q n h fq seq addr unres) s = close (s.doneCmd q n 0 0)) ∧
      (∀ f, s.pfaults.find? (fun f => f.ctx = x && f.page = page) = some f →
        let t : State := { s with pfaults := s.pfaults.filter (fun g => !(g.ctx = x && g.page = page)) }
        exec (.resume q n h fq seq addr unres) s =
          close ((if unres then t.resumeFail x page f.faddr else t.resumeRetry x page).doneCmd q n (s.waitersOn x page) 0)))

/-- A packet that starts: CTXCREATE of a free number makes the context live with the body of the packet, its four counters of BAR0
zero, and is done; of a number in use it ends with reason 0x0D. CTXDESTROY of an open context marks it; it is freed at once where
nothing of it is left, else its unstarted grids are refused first; of another it ends with reason 0x0B. CMCFG changes each bank of
its mask that is not in use to the mode that it names, with its owner and port, and is done once all are. OPPOINT, while no rail
moves, applies its slot count and rails. A later packet of the queue waits for them. Where the manual leaves a point open, it
rests on the choice of the model in log entries 77, 79, 83. (R64, R67, R68, R69, R352, R388, R393) -/
def Obligations.ContextAndPowerPacketsStart : Prop :=
  ∀ (q n : Nat) (h : PktHdr) (s : State),
    let close (t : State) : Out := .next (t.closeCmd q n)
    let num (k : Nat) : Nat := 64 * s.queuePart q + k
    let u := s.startCmd q n
    (∀ body, Starts s (.ctxcreate q n h body) q n false →
      ((s.ctx? (num body.ctx)).isSome = true → exec (.ctxcreate q n h body) s = close (s.endCmd q n 7 0x0D 0)) ∧
      (s.ctx? (num body.ctx) = none →
        let t := (upTo 4).foldl (fun s i => s.setReg (offCtx (num body.ctx) (0x10 + 8 * i)) 0) s
        exec (.ctxcreate q n h body) s = close (State.doneCmd
          { t with ctxs := mapSet t.ctxs (num body.ctx) { body := body, destroying := false, standing := none } } q n 0 0))) ∧
    (∀ k, Starts s (.ctxdestroy q n h k) q n false →
      (64 ≤ k ∨ s.ctxOpen (num k) = false → exec (.ctxdestroy q n h k) s = close (s.endCmd q n 7 0x0B 0)) ∧
      (k < 64 → s.ctxOpen (num k) = true →
        let t := u.modCtx (num k) (fun c => { c with destroying := true })
        exec (.ctxdestroy q n h k) s = close (if t.ctxIdle (num k) then (t.freeCtx (num k)).doneCmd q n 0 0 else t.killUnstarted (num k)))) ∧
    (∀ cluster mask, Starts s (.cmcfgCacheWay q n h cluster mask) q n false →
      exec (.cmcfgCacheWay q n h cluster mask) s = close (u.configure q n cluster mask .cacheWay)) ∧
    (∀ cluster mask owner, Starts s (.cmcfgScratchpad q n h cluster mask owner) q n false →
      exec (.cmcfgScratchpad q n h cluster mask owner) s = close (u.configure q n cluster mask (.scratchpad (num owner)))) ∧
    (∀ cluster mask owner port, Starts s (.cmcfgFifo q n h cluster mask owner port) q n false →
      exec (.cmcfgFifo q n h cluster mask owner port) s = close (u.configure q n cluster mask
        (.fifo (num owner) ((u.apertureOff (num owner) (port % 2 ^ 57)).getD 0)))) ∧
    (∀ mask slots f t, Starts s (.oppoint q n h mask slots f t) q n false → s.railMove = none →
      exec (.oppoint q n h mask slots f t) s = close (u.startOppoint q n ((upTo 64).filter (fun c => mask.getLsbD c)) slots f t))

/-- A PREEMPT that starts on a canonical area marks the blocks of the grids of its queue (mode 0) or context (mode 1) as being saved
and goes on saving: each is brought to a state that can be saved, and once all are, the area is written. Mode 2 reads the area and
places its blocks again; an area below 192 bytes ends it with reason 0x02. A range that is not canonical ends it with FAULT.
BLOCK_DESCHEDULE of a resident block whose warps all wait, while other work waits and its record fits the standing area of its
context, quiets it, writes its record and gives its cores up, once it can be saved. A resident block of a lower class that class 0
work needs the cores of, and that may not be so descheduled, is pre-empted instead, with the resident blocks of its gang: quieted,
and once it can be saved firmware keeps its record (that firmware keeps it itself is the choice of the model, log entry 87).
BLOCK_REQUEUE of a descheduled block reads its record and places it again, of a kept one, with its gang, once no class 0 work of
the partition waits; neither while work before it in the order of service could be seated. Where the manual leaves a point open,
it rests on the choice of the model in log entries 84, 85, 86, 87, 129. (R29, R350, R377, R378, R379, R381) -/
def Obligations.PreemptionResults : Prop :=
  (∀ (q n area size : Nat) (h : PktHdr) (s : State),
    let close (t : State) : Out := .next (t.closeCmd q n)
    let x := s.queueCtx q
    (∀ target, Starts s (.preemptSaveQueue q n h target area size) q n true →
      (badAddress (BitVec.ofNat 64 area) size = none → exec (.preemptSaveQueue q n h target area size) s =
        close (((s.startCmd q n).beginSave x (some target)).goSave q n 0 (some target) area size)) ∧
      (∀ a, badAddress (BitVec.ofNat 64 area) size = some a →
        exec (.preemptSaveQueue q n h target area size) s = close (s.endCmd q n 1 0x06 a.toNat))) ∧
    (Starts s (.preemptSaveContext q n h area size) q n true → badAddress (BitVec.ofNat 64 area) size = none →
      exec (.preemptSaveContext q n h area size) s = close (((s.startCmd q n).beginSave x none).goSave q n 1 none area size)) ∧
    (Starts s (.preemptRestore q n h area size) q n true → badAddress (BitVec.ofNat 64 area) size = none →
      exec (.preemptRestore q n h area size) s = close (s.restore q n area size true) ∧
      (size < 192 → exec (.preemptRestore q n h area size) s = close (s.endCmd q n 7 0x02 0)))) ∧
  ∀ (b : Nat) (s : State) (bl : Block) (g : Grid), s.block? b = some bl → s.gridOfBlock b = some g →
    (∀ area size used c, s.ctx? g.ctx = some c → c.standing = some (area, size, used) → bl.st = .resident → bl.killed = none →
      bl.saving = false → (g.lrec.gang = 0 ∨ bl.parent.isSome = true) → (∀ w ∈ bl.warps, s.warpWaits w = true) → s.workWaits = true →
      used + s.recordBytes b ≤ size →
      let t := (s.modBlock b (fun bl => { bl with saving := true, saveAt := some used })).quiesce b
      (∀ u, t.saveReady b = (u, false) → exec (.blockDeschedule b) s = .next u) ∧
      (∀ u bl' v ok a, t.saveReady b = (u, true) → u.block? b = some bl' →
        let bs := u.blockRecord b bl' g
        used + bs.length ≤ size → u.saveBytes g.ctx (area + used) bs = (v, .ok ok, a) →
        exec (.blockDeschedule b) s = .next (((v.saveBlock b .descheduled).modBlock b (fun bl =>
          { bl with saveAt := some (area + used) })).modCtx g.ctx (fun c => { c with standing := some (area, size, used + bs.length) })))) ∧
    (bl.st = .resident → bl.killed = none → bl.saving = false →
      ((g.lrec.gang = 0 ∨ bl.parent.isSome = true) → s.mayDeschedule b bl g = false) → s.yieldsToClass0 bl g = true →
      exec (.blockDeschedule b) s =
        .next (((s.phaseMates b bl g.lrec).filter (fun e => e.2.st = .resident)).foldl (fun s e => s.evict e.1 g) s)) ∧
    (bl.st = .resident → bl.killed = none → bl.saving = true → bl.kept.isSome = true → exec (.blockDeschedule b) s = .next (s.evict b g)) ∧
    (let t := (s.modBlock b (fun bl => { bl with saving := true, kept := some [] })).quiesce b
     (∀ u, t.saveReady b = (u, false) → s.evict b g = u) ∧
      (∀ u bl', t.saveReady b = (u, true) → u.block? b = some bl' → s.evict b g =
        ((u.saveBlock b .descheduled).modBlock b (fun k => { k with kept := some (u.blockRecord b bl' g) })))) ∧
    (∀ bs vs, bl.st = .descheduled → bl.saveAt = none → bl.kept = some bs → g.noPlace = false → s.outranked g = false →
      s.class0Waits (ctxPart g.ctx) = [] →
      let mates := (s.phaseMates b bl g.lrec).filter (fun e => e.2.kept.isSome)
      (∀ e ∈ mates, e.2.st = .descheduled) →
      mates.map (fun e => (s.bodyOf e.1 e.2 g.lrec ((e.2.kept.getD []).drop 192)).map (fun v => (e.1, e.2, v))) = vs.map some →
      exec (.blockRequeue b) s = .next (s.placeSaved g vs).1) ∧
    (∀ at_ u hd x v body y sv, bl.st = .descheduled → bl.saveAt = some at_ → g.noPlace = false → s.outranked g = false →
      State.engReadList (s.whoFirmware g.ctx) s at_ 12 = (u, .ok hd, x) →
      State.engReadList (u.whoFirmware g.ctx) u (at_ + 192) (field hd 0 4 / 16 - 12) = (v, .ok body, y) →
      v.bodyOf b bl g.lrec body = some sv → exec (.blockRequeue b) s = .next (v.placeSaved g [(b, bl, sv)]).1)

/-- While the registers of BAR0 are listed in rising order: a doorbell of an enabled, unhalted queue with a packet offset below its
size is taken and packets are read on, another value halts the queue with status 2, and a queue that is disabled or halted ignores
it. QUEUE_ENABLE leaves QHEAD, the last doorbell and QSTAT at 0 and QCTL at what is written; RING_ENABLE leaves EHEAD and ETAIL 0
and the ring as at reset, so that its next record carries phase 1; RING_DISABLE discards the records that are held. QCTL.RESET
resets the queue. An EHEAD that is no record offset between EHEAD and ETAIL is ignored, else EHEAD takes it and held records are
written. A coalescing timeout of a batch raises the vector. A register write changes no other register. Where the manual leaves a
point open, it rests on the choice of the model in log entry 103. (R335, R337, R338, R346, R347, R348, R349) -/
def Obligations.QueueAndRingRegisterWrites : Prop :=
  ∀ (s : State) (v : DWord), (s.bar0.map (·.1)).Pairwise (· < ·) →
    (∀ o o', (s.setReg o v).reg o = v ∧ (o' ≠ o → (s.setReg o v).reg o' = s.reg o')) ∧
    (∀ q,
      (256 ≤ q ∨ s.queueOn q = false ∨ s.queueHalted q = true → exec (.qtailDoorbell q v) s = .next s) ∧
      (q < 256 → s.queueOn q = true → s.queueHalted q = false →
        (v.toNat % 48 ≠ 0 ∨ s.queueSize q ≤ v.toNat → exec (.qtailDoorbell q v) s = .next (s.haltQueue q 2 v.toNat 0)) ∧
        (v.toNat % 48 = 0 → v.toNat < s.queueSize q → exec (.qtailDoorbell q v) s =
          .next ((s.modQueue q (fun k => { k with doorbell := v.toNat, asleep := false })).readOn q))) ∧
      exec (.qctlReset q v) s = .next ((s.setReg (offQueue q 0x20) (qctlBits v)).resetQueue q) ∧
      (∃ t, exec (.queueEnable q v) s = .next t ∧ t = { s with bar0 := t.bar0, queues := t.queues } ∧ t.reg (offQueue q 0x20) = qctlBits v ∧
        t.reg (offQueue q 0x18) = 0 ∧ t.reg (offQueue q 0x28) = 0 ∧ t.queue q = { s.queue q with doorbell := 0 } ∧
        ∀ o, o ≠ offQueue q 0x18 → o ≠ offQueue q 0x20 → o ≠ offQueue q 0x28 → t.reg o = s.reg o) ∧
      (v.getLsbD 31 = false → exec (.queueDisable q v) s = .next (s.setReg (offQueue q 0x20) (qctlBits v))) ∧
      (v.getLsbD 31 = true → exec (.queueDisable q v) s = .next ((s.setReg (offQueue q 0x20) (qctlBits v)).resetQueue q))) ∧
    ∀ r,
      (∃ t, exec (.ringEnable r v) s = .next t ∧ t = { s with bar0 := t.bar0, rings := t.rings } ∧ t.ehead r = 0 ∧ t.etail r = 0 ∧
        t.reg (offRing r 0x28) = v &&& 0x1FFF ∧ t.ring r = Ring.reset ∧ (t.ring r).phase = true) ∧
      (∃ t, exec (.ringDisable r v) s = .next t ∧ t = { s with bar0 := t.bar0, rings := t.rings } ∧ t.reg (offRing r 0x28) = v &&& 0x1FFF ∧
        t.ring r = { s.ring r with held := [], batch := 0 }) ∧
      (v.toNat % 48 ≠ 0 ∨ s.ringSize r ≤ v.toNat ∨
          (s.etail r + s.ringSize r - s.ehead r) % s.ringSize r < (v.toNat + s.ringSize r - s.ehead r) % s.ringSize r →
        exec (.eheadWrite r v) s = .next s) ∧
      (v.toNat % 48 = 0 → v.toNat < s.ringSize r →
        (v.toNat + s.ringSize r - s.ehead r) % s.ringSize r ≤ (s.etail r + s.ringSize r - s.ehead r) % s.ringSize r →
        exec (.eheadWrite r v) s = .next ((s.setReg (offRing r 0x18) v).releaseHeld r (s.ring r).held.length)) ∧
      (∀ t, t = (s.reg (offRing r 0x20)).toNat / 65536 % 65536 → 1 ≤ t → (s.ring r).batch ≠ 0 →
        (s.ring r).batchFirst + 1000 * t ≤ s.gtimeAt 0 → exec (.interruptCoalesceTimeout r) s = .next (s.raiseMsix r))

/-- CRESET of a context slot whose partition exists empties the counters of that partition. PARTCFG with a context alive sets GSTAT
bit 1 only; with none, every byte of local DRAM reads 0 with owner 0, no bank has a mode of its own, caches, translators and the
histogram buffer are empty, histograms are off, and the partition count is that of the low two bits. A write of 8 or 4 bytes at
its own alignment to another register writes it as its offset allows; any other size or alignment changes nothing. An accepted
HIST_ENABLE writes HCTL and empties the buffer and the event counts; HIST_DISABLE clears EN and sets BUSY; HIST_DRAIN_DONE writes
the buffer out and clears BUSY. Where the manual leaves a point open, it rests on the choice of the model in log entries 78, 93.
(R64, R333, R351, R352, R364, R395, R396, R397) -/
def Obligations.DeviceRegisterWrites : Prop :=
  ∀ (s : State) (v : DWord),
    (∀ x, ctxPart x < s.nparts → exec (.creset x) s = .next { s with bar0 := s.bar0.filter (fun e =>
      !(0x1000000 ≤ e.1 && e.1 < 0x1200000 && s.clusterPart (clusterOf ((e.1 - 0x1000000) / 0x1000)) = ctxPart x)) }) ∧
    (s.ctxs ≠ [] → exec (.partcfgWrite v) s = .next (s.setReg offGstat (s.reg offGstat ||| 2))) ∧
    (s.ctxs = [] → ∃ t, exec (.partcfgWrite v) s = .next t ∧ t.owners = [] ∧ t.slices = [] ∧ t.histBuf = [] ∧
      t.warps = s.warps ∧ t.blocks = s.blocks ∧ t.security = s.security ∧
      (∀ a, a < s.dramSize → readMem t.mem a = 0) ∧ (∀ a, s.dramSize ≤ a → readMem t.mem a = readMem s.mem a) ∧
      (∀ e ∈ t.clusters, e.2.banks = [] ∧ e.2.cc = []) ∧ (∀ e ∈ t.cores, e.2.l1d = [] ∧ e.2.l1i = []) ∧
      ∃ u, t = State.setReg (State.setReg u offHctl (u.reg offHctl &&& 0x3FFF6)) offPartcfg (v &&& 3)) ∧
    (∀ off size, ((size = 8 ∧ off % 8 = 0) ∨ (size = 4 ∧ off % 4 = 0) → exec (.registerWrite off size v) s = .next
        (s.writeReg (off / 8 * 8) (halfWrite (if off / 8 * 8 = offGstat then 0 else s.reg (off / 8 * 8)) off size v))) ∧
      (¬((size = 8 ∧ off % 8 = 0) ∨ (size = 4 ∧ off % 4 = 0)) → exec (.registerWrite off size v) s = .next s)) ∧
    ((s.reg offHctl).getLsbD 63 = false → v.toNat / 2 % 4 ≠ 3 → 4 ≤ s.histLog → s.histLog ≤ 20 → v.toNat / 256 % 8 < s.nparts →
      exec (.histEnable v) s = .next { s.setReg offHctl (v &&& 0x3FFF7) with
        histBuf := []
        cores := s.cores.map (fun e => (e.1, { e.2 with parts := e.2.parts.map (fun p => (p.1, { p.2 with histEvents := 0 })) })) }) ∧
    exec (.histDisable v) s = .next (s.setReg offHctl ((v &&& 0x3FFF6) ||| 0x8000000000000000)) ∧
    ((s.reg offHctl).getLsbD 63 = true →
      let u := s.histBuf.foldl (fun s e => s.histWrite e.1 e.2) s
      exec .histDrainDone s = .next (({ u with histBuf := [] } : State).setReg offHctl (u.reg offHctl &&& 0x7FFFFFFFFFFFFFFF)))

/-- A host write to device or host memory is installed as a write, and the latest time of the host writes takes its Tdv; elsewhere it
does nothing. A reduction from the switch on local DRAM writes the result of its operation on the bytes that stand there. Either
that meets a pinned line is kept to be made again. A port below 12 that comes up while enabled shows UP and its chip, and shows 0
when it goes down; a flit retry of it is counted. A corrected error of DRAM is counted for its frame and recorded, and the 16th
reports the frame; an uncorrectable one of DRAM poisons its sector, is recorded, and reports the frame; of the line store likewise
without the report; of cluster memory it drops the line of the cluster cache and poisons a sector of a bank that is no cache way;
a failed link is recorded; a parity error of an L1 data or instruction cache drops its copies of the line. Where the manual leaves
a point open, it rests on the choice of the model in log entries 71, 78, 99, 124. (R85, R330, R331, R353, R405, R406, R407) -/
def Obligations.OutsideEventResults : Prop :=
  ∀ (s : State) (pa : Nat),
    (∀ bytes, (s.range pa = .local_ ∨ s.range pa = .host →
        (s.pinnedOutside pa bytes.length = false → exec (.hostMemWrite pa bytes) s = .next
          { (s.outsideWrite pa bytes).1 with hostTdv := max (s.outsideWrite pa bytes).1.hostTdv (s.outsideWrite pa bytes).2 }) ∧
        (s.pinnedOutside pa bytes.length = true → exec (.hostMemWrite pa bytes) s = .next
          { s with outside := s.outside ++ [.hostMemWrite pa bytes] })) ∧
      (s.range pa ≠ .local_ → s.range pa ≠ .host → exec (.hostMemWrite pa bytes) s = .next s)) ∧
    (∀ op t x, s.range pa = .local_ →
      (s.pinnedOutside pa (t.bits / 8) = false → exec (.ylReductionArrive pa op t x) s = .next (s.outsideWrite pa (natBytes (t.bits / 8)
        (atomNew op t 0 0 (bytesNat (s.physBytes pa (t.bits / 8))) (x.toNat % 2 ^ t.bits)))).1) ∧
      (s.pinnedOutside pa (t.bits / 8) = true → exec (.ylReductionArrive pa op t x) s = .next
        { s with outside := s.outside ++ [.ylReductionArrive pa op t x] })) ∧
    (∀ y up chip, y < 12 →
      (up = true → (s.reg (offPort y 0)).getLsbD 0 = true →
        exec (.ylLinkState y up chip) s = .next (s.setReg (offPort y 8) (BitVec.ofNat 64 (1 + 16 * (chip % 1024))))) ∧
      (up = false → exec (.ylLinkState y up chip) s = .next (s.setReg (offPort y 8) 0)) ∧
      exec (.yunavinFlitRetry y) s = .next (s.bump (offPort y 0x10) 1)) ∧
    ∀ unit index va x,
      exec (.memoryError .corrSram unit index pa va x) s = .next (s.corrRecord 0x01 unit index pa) ∧
      (let n := mapGetD s.corrected (pa / 4096) 0 + 1
       let t := ({ s with corrected := mapSet s.corrected (pa / 4096) n } : State).corrRecord 0x03 0 index pa
       exec (.memoryError .corrDram unit index pa va x) s = .next (if 16 ≤ n then t.reportFrame pa index else t)) ∧
      exec (.memoryError .uncorrDram unit index pa va x) s =
        .next (((s.poisonSector pa va false).uncorrectable 0x04 0 index pa va x).reportFrame pa index) ∧
      (let t := s.uncorrectable 0x02 unit index pa va x
       (unit = 1 → exec (.memoryError .uncorrSram unit index pa va x) s = .next (t.poisonSector pa va true)) ∧
       (unit = 2 → exec (.memoryError .uncorrSram unit index pa va x) s = .next
         ((t.modCluster index (fun c => { c with cc := c.cc.filter (fun d => d.line ≠ va / 192) })).modBank index (pa / 262144) (fun b =>
           if b.mode = .cacheWay then b else { b with poison := (pa % 262144 / 48 :: b.poison).eraseDups }))) ∧
       (unit ≠ 1 → unit ≠ 2 → exec (.memoryError .uncorrSram unit index pa va x) s = .next t)) ∧
      exec (.memoryError .linkFail unit index pa va x) s = .next (s.deviceError 0x05 unit index pa) ∧
      (∃ t, exec (.memoryError .l1Parity unit index pa va x) s = .next t ∧ t = { s with cores := t.cores } ∧
        (∀ j, j ≠ index → t.core j = s.core j) ∧ t.core index = (let c := s.core index
          if unit = 0 then { c with l1d := c.l1d.filter (fun d => d.line ≠ va / 192) }
          else { c with l1i := c.l1i.filter (fun d => d.line ≠ va / 192) }))

/-- RAIL_SLEW_DONE at its time writes both rails, ends the move, applies the waiting slots and its command is done. RETENTION_ENTER of
a running cluster idle for 1,024 ticks widens its pins; with none left and every horizon of its warps past, it drops its L1,
instruction and cluster-cache lines and it sleeps. WAKE_START of the first waiting wake-up, with room in the window, counts in the
window and a sleeping cluster wakes 400 ticks later. RETENTION_EXIT at that time makes it run; a parity error zeroes its banks, is
recorded, and stops the grids of its blocks with RETLOSS. A sample of 95 °C or more lowers the cap by 2, to no less than 8; of 105
°C it stops every pulse and loses the grids of every resident block; below 95 °C only the note of the last cool time changes.
THERMAL_RECOVER after 10 ms below 90 °C raises the cap by 2, to no more than 16. Where the manual leaves a point open, it rests on
the choice of the model in log entries 77, 131. (R388, R391, R392, R393, R408) -/
def Obligations.PowerEventResults : Prop :=
  ∀ (s : State) (k : Nat),
    (∀ m, s.railMove = some m → m.due ≤ s.gtimeAt 0 →
      let u : State := { (s.setReg offRailf (BitVec.ofNat 64 m.fast)).setReg offRailt (BitVec.ofNat 64 m.thrifty) with railMove := none }
      exec .railSlewDone s = .next ((u.setSlots m.clusters m.slots).modCmd m.queue m.seq (fun c => { c with done := true }))) ∧
    (∀ t, (s.cluster k).power = .running → (s.cluster k).idleSince = some t → t + 1024 ≤ s.gtimeAt 0 → s.clusterIdle k = true →
      (s.cluster k).woken = false →
      let mine (h : HLine) : Bool := h.pinCl = some k || h.pinCo.any (fun j => clusterOf j = k)
      (s.pinned mine ≠ [] → exec (.retentionEnter k) s = .next (s.unpinAll mine k ((s.warpsOn k).map (·.1)))) ∧
      (s.pinned mine = [] → (∀ e ∈ s.warpsOn k, e.2.hsy ≤ s.gtimeAt (placeCore e.2.core)) → exec (.retentionEnter k) s = .next
        (((clusterCores k).foldl (fun s j => s.modCore j (fun c => { c with l1d := [], l1i := [] })) s).modCluster k (fun c =>
          { c with cc := [], power := .retention, idleSince := none })))) ∧
    (∀ e, s.wakers.find? (fun e => e.1 = k) = some e → (∀ f ∈ s.wakers, e.2 ≤ f.2) → s.wakeLeft ≠ 0 →
      ∃ t : State, exec (.wakeStart k) s = .next t ∧ (t.cluster k).woken = true ∧ (t.cluster k).wakeReq = none ∧
        ((s.cluster k).power = .retention → (t.cluster k).power = .waking (s.gtimeAt 0 + 400)) ∧
        ((s.cluster k).power ≠ .retention → (t.cluster k).power = (s.cluster k).power) ∧
        (∀ j, j ≠ k → t.cluster j = s.cluster j) ∧ t = { s with wakes := t.wakes, clusters := t.clusters }) ∧
    (∀ t bad, (s.cluster k).power = .waking t → t ≤ s.gtimeAt 0 →
      let u := s.modCluster k (fun c => { c with power := .running, idleSince := none })
      (bad = false → exec (.retentionExit k bad) s = .next u) ∧
      (bad = true → exec (.retentionExit k bad) s = .next ((((u.onCluster k).map (fun e => e.2.grid)).eraseDups).foldl
        (fun s g => s.stopGrid g 4) ((u.modCluster k (fun c => { c with banks := c.banks.map (fun b =>
          (b.1, { b.2 with bytes := [], poison := [], fifo := [] })) })).deviceError 0x06 5 k 0)))) ∧
    (∀ c,
      let u : State := { s with coolSince := if c < 90 then some (s.coolSince.getD (s.gtimeAt 0)) else none }
      (c < 95 → exec (.thermalSample c) s = .next u) ∧
      (95 ≤ c → c < 105 → exec (.thermalSample c) s = .next (State.applyCap { u with thermalCap := max 8 (u.cap - 2) })) ∧
      (105 ≤ c →
        let lose (w : State) : State := ((w.grids.filter (fun e =>
          w.blocks.any (fun b => b.2.grid = e.1 && b.2.st = .resident))).map (·.1)).foldl (fun s g => s.stopGrid g 4) w
        exec (.thermalSample c) s = .next (lose (((upTo 64).foldl (fun s j => s.setPattern j 0) u).deviceError 0x02 5 0 0)))) ∧
    (∀ t, s.thermalCap < 16 → s.coolSince = some t → t + 10000000 ≤ s.gtimeAt 0 → exec .thermalRecover s = .next
      (State.applyCap { s with thermalCap := min 16 (s.thermalCap + 2), coolSince := some (s.gtimeAt 0) }))

/-- DEVICE_RESET leaves the device as right after reset but for the fuses (owner keys and minimum SVNs), the ordering code and memory
outside local DRAM: no grid, block, warp, context, image or register value survives, and local DRAM reads 0. A mailbox command
with MBARG2 or MBARG3 not zero, and an unknown one, answers BADCMD and does nothing else. Else LOADIMG answers the status of its
image and runs it where that is 0; ROMBOOT answers 4 while a context exists, else the engine has no image and it answers 0; ENROL
of a good, authorised record writes its slot, once, measures the key store and answers 0; REVOKE of one revokes a written slot,
once, measures it and answers 0; a record of the wrong form answers 2, and one that is not authorised the reason. Each of the nine
messages adds one response of its kind, whose body is one for the request and the measurements as they stand, and changes nothing
else but that KEY_EXCHANGE sets the session to exchanged and FINISH after it to established. The body of a response is a free
value of the model (log entry 6): nothing is stated of it. That an exchange without a FINISH leaves the session at 1 is how the
model names the state of a session. Where the manual leaves a point open, it rests on the choice of the model in log entries 6,
88, 89, 90, 107. (R386, R398, R399, R400, R401, R402, R403) -/
def Obligations.ResetAndMailboxResults : Prop :=
  ((∀ s : State, ∃ t, exec .deviceReset s = .next t ∧
     t = { State.reset with code := s.code, mem := t.mem, agenda := s.agenda, tick := s.tick, security := t.security } ∧
     t.security = { Security.reset with keys := s.security.keys, minSvn := s.security.minSvn } ∧
     (∀ a, a < s.dramSize → readMem t.mem a = 0) ∧ ∀ a, s.dramSize ≤ a → readMem t.mem a = readMem s.mem a) ∧
   (∀ s : State, exec .mailboxBadcmd s = .next (s.mbDone 7) ∧
     (s.reg (offMbarg 2) ≠ 0 ∨ s.reg (offMbarg 3) ≠ 0 → exec .loadimg s = .next (s.mbDone 7) ∧ exec .romboot s = .next (s.mbDone 7) ∧
       exec .enrolKey s = .next (s.mbDone 7) ∧ exec .revoke s = .next (s.mbDone 7))) ∧
   ∀ s : State, s.reg (offMbarg 2) = 0 → s.reg (offMbarg 3) = 0 →
     let addr := (s.reg (offMbarg 0)).toNat
     let size := (s.reg (offMbarg 1)).toNat
     let bs := s.physBytes addr 256
     let slot := field bs 96 1
     (∀ status, s.imageStatus bs (s.physBytes (addr + 256) (size - 256)) addr size = status →
       exec .loadimg s = .next ((if status = 0 then s.runImage bs else s).mbDone status)) ∧
     (s.ctxs ≠ [] → exec .romboot s = .next (s.mbDone 4)) ∧
     (s.ctxs = [] →
       let x := { s.security with image := mapErase s.security.image (addr % 2) }
       exec .romboot s = .next ((((({ s with security := x } : State).restartEngine (addr % 2)).setAltfw)).mbDone 0) ∧
       mapGet? x.image (addr % 2) = none) ∧
     (keyRecordOk bs addr size = false → exec .enrolKey s = .next (s.mbDone 2) ∧ exec .revoke s = .next (s.mbDone 2)) ∧
     (keyRecordOk bs addr size = true →
       (∀ e, s.authStatus bs = e → e ≠ 0 → exec .enrolKey s = .next (s.mbDone e) ∧ (zeros bs 0 96 = true → exec .revoke s = .next (s.mbDone e))) ∧
       (s.authStatus bs = 0 →
         ((∀ k, mapGet? s.security.keys slot = some k → k.written = false) →
           let k := { x := field384 bs 0, y := field384 bs 48, written := true, revoked := false : KeySlot }
           let x := { s.security with keys := mapSet s.security.keys slot k }
           exec .enrolKey s = .next ((({ s with security := x } : State).logMeasure 2 (Config.sha384 x.keyBytes)).mbDone 0)) ∧
         (∀ k, mapGet? s.security.keys slot = some k →
           (k.written = true → exec .enrolKey s = .next (s.mbDone 5)) ∧
           (zeros bs 0 96 = true →
             (k.written = true → k.revoked = false →
               let x := { s.security with keys := mapSet s.security.keys slot { k with revoked := true } }
               exec .revoke s = .next ((({ s with security := x } : State).logMeasure 3 (Config.sha384 x.keyBytes)).mbDone 0)) ∧
             (k.written = false ∨ k.revoked = true → exec .revoke s = .next (s.mbDone 6))))))) ∧
  (∀ (req : List (BitVec 8)) (s : State),
     let answer (n : Nat) (session : Nat) (o : Out) : Prop := ∃ body, o = .next { s with
       tick := s.tick + 1
       security := { s.security with responses := s.security.responses ++ [(n, body)], session := session } }
     let same := s.security.session
     answer 0 same (exec (.getVersion req) s) ∧ answer 1 same (exec (.getCapabilities req) s) ∧
     answer 2 same (exec (.negotiateAlgorithms req) s) ∧ answer 3 same (exec (.getDigests req) s) ∧
     answer 4 same (exec (.getCertificate req) s) ∧ answer 5 same (exec (.challenge req) s) ∧
     answer 6 same (exec (.getMeasurements req) s) ∧ answer 7 1 (exec (.keyExchange req) s) ∧
     answer 8 (if same = 1 then 2 else same) (exec (.finish req) s))

/-- For every instruction of the vector or the tile stream that is well formed, with every operand at every value the encoding admits,
decoding the word that the encoder gives it answers that same instruction; and whatever the decoder answers, the encoder gives it
a word. (R180, R181, R182, R185, R186, R187, R189, R192, R195) -/
def Obligations.InstructionWordsRoundTrip : Prop :=
  (∀ (st : Stream) (i : Instr) (w : IWord), WellFormed st i = true → encode i = some w → decodeWord st w = .ok i) ∧
  ∀ (st : Stream) (i : Instr) (w : IWord), decodeWord st w = .ok i → ∃ w', encode i = some w'

/-- When a party is selected and the word at its PC decodes to an instruction, the step is that instruction at this state, after which
the party has had its turn; when the word is illegal, each lane of the group takes ILLOP with the reason, or the tenant faults;
without a word nothing happens. With no party selected, the first event of the agenda happens at its time; with none, one master
pulse passes. No state makes a step fault or refuse: the manual describes none. Where the manual leaves a point open, it rests on
the choice of the model in log entry 13. (R195, R196, R292) -/
def Obligations.StepRunsTheDecodedWord : Prop :=
  ∀ s : State,
    (∀ st w i t, s.cursor ≠ [] → s.fetch = some (st, w) → decodeWord st w = .ok i → exec i s = .next t →
      step s = .next { t with cursor := t.cursor.tail }) ∧
    (∀ st w reason, s.cursor ≠ [] → s.fetch = some (st, w) → decodeWord st w = .error reason →
      (∀ g, s.grp = some g → step s = .next (s.illopLanes g g.lanes reason).popCursor) ∧
      (∀ n, s.seq = some n → step s = .next (s.illopSeq n reason).popCursor)) ∧
    (s.cursor ≠ [] → s.fetch = none → step s = .next { s with cursor := s.cursor.tail }) ∧
    (∀ e rest, s.cursor = [] → s.agenda = e :: rest → step s = exec e.ev ({ s with agenda := rest }.advance e.pulses)) ∧
    (s.cursor = [] → s.agenda = [] → step s = .next s.pulse) ∧
    ∃ t, step s = .next t

/-- Nine words that the manual writes out decode as it says: a guarded addition of a literal with slack, a scaled load, a multiply-
add, a reduction to a uniform register, a call, a waitc, a conversion with rounding toward zero, a releasing store with an offset,
and the phase barrier in either stream. An unassigned opcode is refused with reason 0x01, a vector word in the tile stream with
0x02, a reserved type with 0x03, a reserved operand value with 0x04, a nonzero unused field with 0x05, a literal that no field
names with 0x06 and a reserved scheduling code with 0x08. (R180, R181, R187, R190, R198, R311) -/
def Obligations.WordsDecode : Prop :=
  let h : Hdr := { g1 := 7, g2 := 7, gc := false, sch := 0, slk := 0, hint := 0 }
  decodeWord .vector 0x00001234000002C3880001FF01010001 =
    .ok (.iadd { h with g1 := 1, slk := 3 } .i32 false (.v 4) (.v 2) (.lit 0x1234)) ∧
  decodeWord .vector 0x0000001006000003B800000181019D00 = .ok (.ld h .b64 .none .wp (.v 6) { base := .s 2, index := .v 1, isc := 3, off := 16 }) ∧
  decodeWord .vector 0x0000000000000103B8000C050200EC63 = .ok (.ffma { h with slk := 4 } .f32 false .rn (.v 3) (.v 4) (.v 5) (.v 6)) ∧
  decodeWord .vector 0x0000000000000003B800000001410043 = .ok (.redux h .add .i32 (.s 4) 2) ∧
  decodeWord .vector 0x0000004000000003B8000000000780C2 = .ok (.call h 30 0x40) ∧
  decodeWord .vector 0x0000000400000003B8000000000000C7 = .ok (.waitc h 4 0 0 0) ∧
  decodeWord .vector 0x000000000001B003B800000000808080 = .ok (.cvt h .i32 .f32 false .rz (.v 2) (.v 1) none) ∧
  decodeWord .vector 0x0000000400023003B80005FE81001901 = .ok (.st h .b32 .rel .dv { base := .s 2, index := .zero, isc := 0, off := 4 } (.v 2)) ∧
  decodeWord .vector 0x0000000000000003B8000000000001C1 = .ok (.pbar h) ∧
  decodeWord .tile 0x0000000000000003B8000000000001C1 = .ok (.pbar h) ∧
  decodeWord .vector 0x0000000000000003B8000000000000FF = .error 0x01 ∧
  decodeWord .tile 0x0000004000000003B8000000000780C2 = .error 0x02 ∧
  decodeWord .vector 0x0000000000000003B800000000003C01 = .error 0x03 ∧
  decodeWord .vector 0x0000000000000003B8000000D8000001 = .error 0x04 ∧
  decodeWord .vector 0x0000000100000003B8000000000001C1 = .error 0x05 ∧
  decodeWord .vector 0x0000000000000203B8000000000001C1 = .error 0x06 ∧
  decodeWord .vector 0x0000000000000C03B8000000000001C1 = .error 0x08

/-- A write of any bytes to physical memory in canonical form keeps that form; every byte written then reads as written, every other
byte as before, and writing the value that an unlisted byte reads as leaves no entry. A write of a register keeps the list of
written registers in rising order, reads back, and changes no other register. Right after reset memory lists nothing, no grid,
block, warp, context, view or request exists, and the registers of BAR0 read their reset values: DEVID 0x4B390001, RAILF 800 mV,
RAILT 550 mV, SLEWK 4, SLEWWIN 256, YLID 0x3FF, size codes 4, GSTAT 0. That an unlisted byte reads 0 is the choice of the model
(log entry 2). Where the manual leaves a point open, it rests on the choice of the model in log entry 2. (R398, R333) -/
def Obligations.MemoryKeepsItsForm : Prop :=
  (∀ (s : State) (a : Nat) (bs : List (BitVec 8)), s.Safe →
    (s.writePhys a bs).Safe ∧ s.writePhys a bs = { s with mem := (s.writePhys a bs).mem } ∧
    ∀ c, readMem (s.writePhys a bs).mem c = if a ≤ c ∧ c < a + bs.length then bs.getD (c - a) 0 else readMem s.mem c) ∧
  (∀ (m : List Host.Cell) (a : Nat), Memory.wf m = true → ∀ e ∈ writeMem m a 0, e.1 ≠ a) ∧
  (∀ (s : State) (o : Nat) (v : DWord), (s.bar0.map (·.1)).Pairwise (· < ·) → ((s.setReg o v).bar0.map (·.1)).Pairwise (· < ·) ∧
    (s.setReg o v).reg o = v ∧ ∀ o', o' ≠ o → (s.setReg o v).reg o' = s.reg o') ∧
  (State.reset.bar0.map (·.1)).Pairwise (· < ·) ∧ State.reset.Safe ∧ (∀ a, readMem State.reset.mem a = 0) ∧
  State.reset.grids = [] ∧ State.reset.blocks = [] ∧ State.reset.warps = [] ∧ State.reset.ctxs = [] ∧ State.reset.reqs = [] ∧
  State.reset.views = [] ∧ State.reset.cursor = [] ∧ State.reset.gtime = 0 ∧
  State.reset.reg 0x00 = 0x4B390001 ∧ State.reset.reg offRailf = 800 ∧ State.reset.reg offRailt = 550 ∧
  State.reset.reg offSlewk = 4 ∧ State.reset.reg offSlewwin = 256 ∧ State.reset.reg offYlid = 0x3FF ∧ State.reset.reg offGstat = 0 ∧
  State.reset.reg offPartcfg = 0 ∧ (∀ q, q < 256 → State.reset.reg (offQueue q 0x08) = 4 ∧ State.reset.reg (offQueue q 0x20) = 0) ∧
  ∀ r, r < 64 → State.reset.reg (offRing r 0x08) = 4 ∧ State.reset.reg (offRing r 0x28) = 0

/-- The checks of a lane are, in order: bits 63 to 57 equal bit 56, else ACCESS with reason 0x06; alignment to the width, else
MISALIGN; no range-lock conflict, else RANGE with the entry; no escape from a world, else WESC; each with the address. For ld, st,
atom, red, fld, fset, fclr, waiton and gath, when no guard-true lane is in a transaction or a handler and each fails a check, the
instruction completes with each of them in the handler of its launch with its cause, PC, address and information, every other lane
of the group one word on and every other lane of the warp as it was; no request is made and memory is unchanged. ld is stated
where no speculative fence of the lanes is open, gath where the range-lock table has a free entry: else they wait. Where the
manual leaves a point open, it rests on the choice of the model in log entries 118, 122. (R54, R76, R79, R86, R87, R174, R263,
R373) -/
def Obligations.AddressCheckTraps : Prop :=
  (∀ a : DWord, canonical a = true ↔ ∀ k, 57 ≤ k → k < 64 → a.getLsbD k = a.getLsbD 56) ∧
  (∀ (s : State) (p : Who) (pc : PC) (k : AccKindM) (a : DWord) (bytes align : Nat),
    let lock := (s.cluster p.cluster).lockHit p.asid p.view (va57 a) bytes k.writes
    let al := if s.wideRed p k (va57 a) then 8 else align
    let check := s.checkLane p pc k a bytes align
    (canonical a = false → check = .trap { cause := 0x03, pc := pc, addr := some a, info := 0x06, resume := pc }) ∧
    (canonical a = true → a.toNat % al ≠ 0 → check = .trap { cause := 0x02, pc := pc, addr := some a, info := 0, resume := pc }) ∧
    (canonical a = true → a.toNat % al = 0 →
      (∀ n e, lock = some (n, e) → check = .trap
        { cause := 0x04, pc := pc, addr := some a, info := BitVec.ofNat 64 (n + 32 * e.kind + (if e.dest then 256 else 0)), resume := pc }) ∧
      (lock = none →
        (s.escapeOf p k (va57 a) = .wesc → check = .trap { cause := 0x05, pc := pc, addr := some a, info := 0, resume := pc }) ∧
        (s.escapeOf p k (va57 a) ≠ .wesc → check = .ok (va57 a) (s.escapeOf p k (va57 a)))))) ∧
  ∀ (h : Hdr) (op : Aop) (t : Ty) (kind : Kind) (scope : Scope) (a : Dst) (v : BitVec 8) (m : MAddr) (d : Opd) (pd n : BitVec 3)
    (cond : Cond) (s : State),
    let traps (i : Instr) (top : Nat) (q : MemI) (may : Grp → Prop) : Prop :=
      ∀ (g : Grp) (lr : LaunchRec) (τ : Nat → Trap), Runs s g top → s.recOfBlock g.wp.block = some lr → lr.handler ≠ 0 →
        g.trues h ≠ [] → may g → (∀ l ∈ g.trues h, s.aheadOf g.w l = none) → (∀ l ∈ g.trues h, ∀ la, s.lane? g.w l = some la → la.tx = none ∧ la.inHandler = false) →
        (∀ l ∈ g.trues h, (s.passFalse g h).checkLane ((s.passFalse g h).whoOf g) g.pc q.kind ((s.laneRegs g l).addr m) q.bytes q.align =
          .trap (τ l)) →
        ∃ u, exec i s = .next u ∧ u.mem = s.mem ∧ u.reqs = s.reqs ∧ (∀ v, v ≠ g.w → u.warp? v = s.warp? v) ∧
          ∀ l, u.lane? g.w l = (s.lane? g.w l).map (groupLane g h (fun l la =>
            { la with
              tcause := BitVec.ofNat 32 (τ l).cause
              tpc := (τ l).pc.setWidth 64
              taddr := (τ l).addr.getD la.taddr
              tinfo := (τ l).info
              resume := (τ l).resume
              pc := BitVec.ofNat 57 lr.handler
              st := .entry (s.clock g.wp.core + 4)
              hold := .none
              readyAt := s.clock g.wp.core + 4
              inHandler := true }) l)
    let any : Grp → Prop := fun _ => True
    traps (.ld h t kind scope a m) (max (a.top t.regBits) m.top) (ldI h t scope a) (fun g => s.specFence g.w (lanesMask g.lanes) = none) ∧
    traps (.st h t kind scope m d) (max (d.top t.regBits) m.top) (stI h t kind scope) any ∧
    traps (.atom h op t kind scope a m d) (max (max (a.top t.regBits) (d.top t.regBits)) m.top)
      (atomI h (.atom op t (a ≠ .none)) t kind scope a) any ∧
    traps (.red h op t kind scope m d) (max (d.top t.regBits) m.top) (atomI h (.red op t) t kind scope .none) any ∧
    traps (.fld h v pd m) (max (Opd.top (.v v) 64) m.top) (cellI h .fld (.v v) pd .wp) any ∧
    traps (.fset h pd m d) (max (d.top 64) m.top) (cellI h .fset .none pd .dv) any ∧
    traps (.fclr h m) m.top (cellI h .fclr .none 7 .dv) any ∧
    traps (.waiton h cond t a m d) (max (max (a.top t.regBits) (d.top t.regBits)) m.top) (waitI h cond t a) any ∧
    traps (.gath h t v m n) (max (Opd.top (.v v) t.bits) m.top) (gathI h t v (mapFresh s.gathers))
      (fun g => ∃ e, (s.cluster ((s.passFalse g h).whoOf g).cluster).freeLock = some e)

/-- A guard is Pred(G1) AND Pred(G2) where GC = 0, else Pred(G1) OR Pred(G2), where Pred(g) is predicate g[2:0] XOR g[3]; p7 reads as
true in either stream, a write to it changes nothing, and a written predicate reads back. For every well-formed instruction of the
vector stream: where no lane of the group is guard-true, it advances every lane of the group by one word and changes nothing else.
For every one of the tile stream: where the guard of the sequencer is false, it advances the sequencer by one word and changes
nothing else. (R4, R6, R187, R204, R292) -/
def Obligations.GuardFalseEverywhereOnlyAdvances : Prop :=
  (∀ (h : Hdr) (p : Nat → Bool),
    let pred (g : BitVec 4) : Bool := xor (p (g.extractLsb' 0 3).toNat) (g.getLsbD 3)
    guardOf h p = if h.gc = false then pred h.g1 && pred h.g2 else pred h.g1 || pred h.g2) ∧
  (∀ (la : Lane) (x : Bool), la.pred 7 = true ∧ la.setPred 7 x = la ∧
    ∀ n k, n < 7 → (la.setPred n x).pred k = if k = n then x else la.pred k) ∧
  (∀ (te : Tenant) (x : Bool), te.pred 7 = true ∧ te.setPred 7 x = te ∧
    ∀ n k, n < 4 → (te.setPred n x).pred k = if k = n then x else te.pred k) ∧
  ∀ (i : Instr) (h : Hdr) (s : State), i.uses.map (·.1) = some h →
    (WellFormed .vector i = true → ∀ g, s.grp = some g → g.trues h = [] → exec i s = .next (s.stepLanes g.w g.lanes)) ∧
    (WellFormed .tile i = true → ∀ n te, SeqRuns s n te → guardOf h te.pred = false →
      ∃ t, exec i s = .next t ∧ OnlyTenant s t n ∧ t.tenant? n = some { te with pc := te.pc + 16 })

/-- A write to PARTCFG is accepted where no context exists (R351). (The list of written registers is in rising order, which every
write of a register keeps.) Then every byte of local DRAM reads 0 afterwards, every frame has owner 0, whatever owned it before,
and the register holds the new value; bytes outside local DRAM keep their values. Where a context exists it is not accepted:
memory, owners and PARTCFG stay as they are. (R364) -/
def Obligations.PartcfgZeroesDram : Prop :=
  ∀ (s : State) (v : DWord), (s.bar0.map (·.1)).Pairwise (· < ·) →
    (s.ctxs = [] → ∃ t, exec (.partcfgWrite v) s = .next t ∧ (∀ a, a < s.dramSize → readMem t.mem a = 0) ∧
      (∀ f, mapGetD t.owners f 0 = 0) ∧ t.reg offPartcfg = v &&& 3 ∧ ∀ a, s.dramSize ≤ a → readMem t.mem a = readMem s.mem a) ∧
    (s.ctxs ≠ [] → ∃ t, exec (.partcfgWrite v) s = .next t ∧ t.mem = s.mem ∧ t.owners = s.owners ∧
      t.reg offPartcfg = s.reg offPartcfg)

/-- Each warp of a block at its first phase has the bias of the launch record, a value from -2 to 3 in a launch that is accepted. movc
%sbias with any guard-true lane writes the source of the lowest of them, read as a signed 32-bit integer and clamped to -2 to 3,
to the bias of its warp only; it stands in the state before any later instruction issues, whatever was written before. movs of
%sbias returns the bias sign-extended to 32 bits. (R42) -/
def Obligations.SlackBiasOfAWarp : Prop :=
  (∀ lr : LaunchRec, ∀ wp ∈ (BlockData.first lr).warps, wp.sbias = lr.sbias) ∧
  (∀ (s : State) (ctx : Nat) (bs : List (BitVec 8)), s.recordReason ctx bs = none →
    -2 ≤ (LaunchRec.ofBytes bs).sbias ∧ (LaunchRec.ofBytes bs).sbias ≤ 3) ∧
  ∀ (h : Hdr) (b : Opd) (a : Dst) (s : State) (g : Grp), s.grp = some g →
    (∀ l rest, g.trues h = l :: rest →
      let x := (BitVec.ofNat 32 ((s.laneRegs g l).src32 b)).toInt
      ∃ t, exec (.movc h .sbias b) s = .next t ∧ OnlyWarp s t g.w ∧
        (t.warp? g.w).map (·.sbias) = some (max (-2) (min 3 x))) ∧
    (∀ top, Runs s g top → a.top 32 ≤ top → ∃ t, exec (.movs h false a 0x21) s = .next t ∧
      GroupResult s t g (g.trues h) (fun _ => [.reg a 32 (BitVec.ofInt 32 g.wp.sbias).toNat]))

/-- For every state whose physical memory is in canonical form (addresses strictly rising, no entry equal to what an unlisted byte
reads as), whatever runs next (an instruction word, an illegal word, a trap, an event of the memory path, of command firmware or
of the device, or a master pulse), the state that the step answers has its memory in canonical form too. That an unlisted byte
reads as zero is the choice of the model (log entry 2). (R332, R365) -/
def Obligations.EveryStepKeepsMemoryForm : Prop :=
  ∀ s t : State, s.Safe → step s = .next t → t.Safe
end

