-- ==== Sys2Proof/Laws/Maps.lean ====
section
/-! SUPPORT. Laws of the finite maps, of lists changed at one place, and of physical memory: what reads after a write
give, and that every memory operation keeps the canonical form. -/

namespace Sys2Proof

@[simp] theorem mapGet?_nil {α : Type} (k : Nat) : mapGet? ([] : NatMap α) k = none := rfl

theorem mapGet?_mapModify {α : Type} (m : NatMap α) (k j : Nat) (f : α → α) :
    mapGet? (mapModify m k f) j = if j = k then (mapGet? m j).map f else mapGet? m j := by
  induction m with
  | nil => simp [mapModify]
  | cons e rest ih =>
    simp only [mapModify, List.map_cons] at ih ⊢
    by_cases h : e.1 = k
    · subst h
      by_cases hj : j = e.1
      · simp [mapGet?, hj]
      · simp only [if_true, mapGet?, hj, if_false] at ih ⊢
        simpa using ih
    · by_cases hj : j = e.1
      · have : ¬ j = k := fun h' => h (hj ▸ h')
        simp [mapGet?, hj, h]
      · simp only [h, if_false, mapGet?, hj]
        exact ih

@[simp] theorem mapGet?_mapModify_self {α : Type} (m : NatMap α) (k : Nat) (f : α → α) :
    mapGet? (mapModify m k f) k = (mapGet? m k).map f := by simp [mapGet?_mapModify]

theorem mapGet?_mapModify_ne {α : Type} (m : NatMap α) {k j : Nat} (f : α → α) (h : j ≠ k) :
    mapGet? (mapModify m k f) j = mapGet? m j := by simp [mapGet?_mapModify, h]

theorem mapModify_mapModify {α : Type} (m : NatMap α) (k : Nat) (f g : α → α) :
    mapModify (mapModify m k f) k g = mapModify m k (fun x => g (f x)) := by
  simp only [mapModify, List.map_map]
  apply List.map_congr_left
  intro e _
  by_cases h : e.1 = k <;> simp [h]

theorem mapModify_id {α : Type} (m : NatMap α) (k : Nat) : mapModify m k (fun x => x) = m := by
  simp [mapModify]

/-- Changing a listed value into the same value changes nothing. -/
theorem mapGet?_mapSet {α : Type} (m : NatMap α) (k j : Nat) (v : α) :
    mapGet? (mapSet m k v) j = if j = k then some v else mapGet? m j := by
  induction m with
  | nil => simp [mapSet, mapGet?]
  | cons e rest ih =>
    obtain ⟨a, b⟩ := e
    simp only [mapSet]
    split
    · simp [mapGet?]
    · split
      · rename_i h
        by_cases hj : j = k
        · simp [mapGet?, hj]
        · have : ¬ j = a := fun h' => hj (h ▸ h')
          simp [mapGet?, hj, this]
      · rename_i h1 h2
        by_cases hj : j = a
        · have : ¬ j = k := fun h' => h2 (by omega)
          have h3 : ¬ a = k := fun h' => h2 h'.symm
          simp [mapGet?, hj, h3]
        · simp only [mapGet?, hj, if_false]
          exact ih

@[simp] theorem mapGetD_mapSet_self {α : Type} (m : NatMap α) (k : Nat) (v d : α) : mapGetD (mapSet m k v) k d = v := by
  simp [mapGetD, mapGet?_mapSet]

theorem mapGetD_mapSet_ne {α : Type} (m : NatMap α) {k j : Nat} (v d : α) (h : j ≠ k) :
    mapGetD (mapSet m k v) j d = mapGetD m j d := by
  simp [mapGetD, mapGet?_mapSet, h]

/-! ### Canonical maps -/

/-- The keys of a map rise strictly, and no entry holds the value that an unlisted key reads as. -/
def mapWf {α : Type} [DecidableEq α] (d : α) : NatMap α → Bool
  | [] => true
  | [e] => e.2 ≠ d
  | e :: f :: rest => e.2 ≠ d && e.1 < f.1 && mapWf d (f :: rest)

theorem mapWf_tail {α : Type} [DecidableEq α] {d : α} {e : Nat × α} {m : NatMap α} (h : mapWf d (e :: m) = true) :
    mapWf d m = true := by
  cases m with
  | nil => rfl
  | cons f rest => simp only [mapWf, Bool.and_eq_true] at h; exact h.2

/-- Every key of a canonical map lies above its head. -/
theorem mapGet?_of_lt {α : Type} [DecidableEq α] {d : α} (m : NatMap α) (e : Nat × α) (h : mapWf d (e :: m) = true) (j : Nat)
    (hj : j ≤ e.1) : mapGet? m j = none := by
  induction m generalizing e with
  | nil => rfl
  | cons f rest ih =>
    simp only [mapWf, Bool.and_eq_true, decide_eq_true_eq] at h
    have h1 : ¬ j = f.1 := by omega
    simp only [mapGet?, h1, if_false]
    exact ih f h.2 (by omega)

theorem mapGetD_mapPut {α : Type} [DecidableEq α] (d : α) (m : NatMap α) (h : mapWf d m = true) (k j : Nat) (v : α) :
    mapGetD (mapPut d m k v) j d = if j = k then v else mapGetD m j d := by
  induction m with
  | nil =>
    by_cases hv : v = d <;> by_cases hj : j = k <;> simp [mapPut, mapGetD, mapGet?, hv, hj]
  | cons e rest ih =>
    obtain ⟨a, b⟩ := e
    have ih := ih (mapWf_tail h)
    simp only [mapPut]
    split
    · rename_i hlt
      by_cases hj : j = k
      · subst hj
        have hn := mapGet?_of_lt rest (a, b) h j (by simp; omega)
        have h1 : ¬ j = a := by omega
        by_cases hv : v = d <;> simp [mapGetD, mapGet?, hv, h1, hn]
      · by_cases hv : v = d <;> simp [mapGetD, mapGet?, hv, hj]
    · split
      · rename_i hk
        subst hk
        by_cases hj : j = k
        · subst hj
          have hn := mapGet?_of_lt rest (j, b) h j (by simp)
          by_cases hv : v = d <;> simp [mapGetD, mapGet?, hv, hn]
        · by_cases hv : v = d <;> simp [mapGetD, mapGet?, hv, hj]
      · rename_i h1 h2
        by_cases hj : j = a
        · have : ¬ j = k := by omega
          simp [mapGetD, mapGet?, hj, show ¬ a = k from by omega]
        · simp only [mapGetD, mapGet?, hj, if_false] at ih ⊢
          exact ih

theorem mapPut_head {α : Type} [DecidableEq α] (d : α) (e : Nat × α) (rest : NatMap α) (k : Nat) (v : α) (hk : e.1 < k)
    (h : mapWf d (e :: rest) = true) (hr : mapWf d (mapPut d rest k v) = true) : mapWf d (e :: mapPut d rest k v) = true := by
  have he : (decide (e.2 ≠ d)) = true := by
    cases rest with
    | nil => simpa [mapWf] using h
    | cons f r => simp only [mapWf, Bool.and_eq_true] at h; exact h.1.1
  cases hp : mapPut d rest k v with
  | nil => simpa [mapWf] using he
  | cons f r =>
    rw [hp] at hr
    simp only [mapWf, Bool.and_eq_true, hr, and_true, he, true_and, decide_eq_true_eq]
    cases rest with
    | nil =>
      simp only [mapPut] at hp
      split at hp
      · cases hp
      · cases hp; exact hk
    | cons f' r' =>
      obtain ⟨a, b⟩ := f'
      simp only [mapWf, Bool.and_eq_true, decide_eq_true_eq] at h
      simp only [mapPut] at hp
      split at hp
      · split at hp <;> cases hp <;> first | exact h.1.2 | exact hk
      · split at hp
        · split at hp
          · subst hp
            rename_i hka _
            have h2 := h.2
            simp only [mapWf, Bool.and_eq_true, decide_eq_true_eq] at h2
            have := h2.1.2
            have := h.1.2
            simp at *
            omega
          · cases hp; exact hk
        · cases hp; exact h.1.2

theorem mapWf_mapPut {α : Type} [DecidableEq α] (d : α) (m : NatMap α) (k : Nat) (v : α) (h : mapWf d m = true) :
    mapWf d (mapPut d m k v) = true := by
  induction m with
  | nil => by_cases hv : v = d <;> simp [mapPut, mapWf, hv]
  | cons e rest ih =>
    have ih := ih (mapWf_tail h)
    by_cases h1 : k < e.1
    · by_cases hv : v = d
      · simpa [mapPut, h1, hv] using h
      · simp only [mapPut, h1, hv, if_true, if_false, mapWf, Bool.and_eq_true, decide_eq_true_eq]
        exact ⟨⟨by simpa using hv, trivial⟩, h⟩
    · by_cases h2 : k = e.1
      · by_cases hv : v = d
        · simpa [mapPut, h2, hv] using mapWf_tail h
        · cases rest with
          | nil => simp [mapPut, h2, hv, mapWf]
          | cons f r =>
            simp only [mapWf, Bool.and_eq_true, decide_eq_true_eq] at h
            simp only [mapPut, h2, hv, if_true, if_false, lt_irrefl, mapWf, Bool.and_eq_true, decide_eq_true_eq]
            exact ⟨⟨by simpa using hv, h.1.2⟩, h.2⟩
      · have := mapPut_head d e rest k v (by omega) h ih
        simpa [mapPut, h1, h2] using this

/-! ### Lists changed at one place -/

theorem listModify_getElem? {α : Type} (l : List α) (n m : Nat) (f : α → α) :
    (listModify l n f)[m]? = if m = n then l[m]?.map f else l[m]? := by
  induction l generalizing n m with
  | nil => simp [listModify]
  | cons a rest ih =>
    cases n with
    | zero => cases m <;> simp [listModify]
    | succ n =>
      cases m with
      | zero => simp [listModify]
      | succ m => simpa [listModify] using ih n m

@[simp] theorem listModify_length {α : Type} (l : List α) (n : Nat) (f : α → α) : (listModify l n f).length = l.length := by
  induction l generalizing n with
  | nil => rfl
  | cons a rest ih => cases n <;> simp [listModify, ih]

theorem mem_upTo (n k : Nat) : k ∈ upTo n ↔ k < n := by
  induction n with
  | zero => simp [upTo]
  | succ n ih => simp [upTo, ih]; omega

theorem nodup_upTo (n : Nat) : (upTo n).Nodup := by
  induction n with
  | zero => simp [upTo]
  | succ n ih => simp [upTo, List.nodup_append, ih, mem_upTo]; omega

@[simp] theorem length_upTo (n : Nat) : (upTo n).length = n := by
  induction n with
  | zero => rfl
  | succ n ih => simp [upTo, ih]

end Sys2Proof

namespace Sys2Proof.Machine

/-! ### Physical memory -/

theorem Memory.wf_eq (m : List Host.Cell) : Memory.wf m = mapWf 0 m := by
  induction m with
  | nil => rfl
  | cons e rest ih =>
    cases rest with
    | nil => rfl
    | cons f r => simp only [Memory.wf, mapWf, ih]

/-- A byte read after a byte is written. -/
theorem readMem_writeMem (m : List Host.Cell) (h : Memory.wf m = true) (a c : Nat) (b : BitVec 8) :
    readMem (writeMem m a b) c = if c = a then b else readMem m c := by
  rw [Memory.wf_eq] at h
  exact mapGetD_mapPut 0 m h a c b

theorem wf_writeMem (m : List Host.Cell) (h : Memory.wf m = true) (a : Nat) (b : BitVec 8) : Memory.wf (writeMem m a b) = true := by
  rw [Memory.wf_eq] at h ⊢
  exact mapWf_mapPut 0 m a b h

theorem wf_writeMemBytes (bs : List (BitVec 8)) (m : List Host.Cell) (h : Memory.wf m = true) (a : Nat) :
    Memory.wf (writeMemBytes m a bs) = true := by
  induction bs generalizing m a with
  | nil => exact h
  | cons b bs ih => exact ih _ (wf_writeMem m h a b) (a + 1)

/-- A byte read after consecutive bytes are written. -/
theorem readMem_writeMemBytes (bs : List (BitVec 8)) (m : List Host.Cell) (h : Memory.wf m = true) (a c : Nat) :
    readMem (writeMemBytes m a bs) c = if a ≤ c ∧ c < a + bs.length then bs[c - a]?.getD 0 else readMem m c := by
  induction bs generalizing m a with
  | nil =>
    have : ¬ (a ≤ c ∧ c < a + 0) := by omega
    simp only [writeMemBytes, List.length_nil, this, if_false]
  | cons b bs ih =>
    simp only [writeMemBytes, ih _ (wf_writeMem m h a b), readMem_writeMem m h, List.length_cons]
    by_cases h1 : c = a
    · subst h1
      have h2 : ¬ (c + 1 ≤ c ∧ c < c + 1 + bs.length) := by omega
      simp
    · by_cases h2 : a + 1 ≤ c ∧ c < a + 1 + bs.length
      · have h3 : a ≤ c ∧ c < a + (bs.length + 1) := by omega
        have h4 : c - a = (c - (a + 1)) + 1 := by omega
        rw [if_pos h2, if_pos h3, h4, List.getElem?_cons_succ]
      · have h3 : ¬ (a ≤ c ∧ c < a + (bs.length + 1)) := by omega
        rw [if_neg h2, if_neg h3, if_neg h1]

/-- Writing physical memory keeps its canonical form. -/
theorem State.wf_writePhys (s : State) (h : Memory.wf s.mem = true) (a : Nat) (bs : List (BitVec 8)) :
    Memory.wf (s.writePhys a bs).mem = true := wf_writeMemBytes bs s.mem h a

/-- Memory at reset has the canonical form. -/
theorem reset_mem_wf : Memory.wf State.reset.mem = true := rfl

/-- A fresh key lies above every key of a map. -/
theorem mapFresh_gt {α : Type} (m : NatMap α) : ∀ e ∈ m, e.1 < mapFresh m := by
  have key : ∀ (m : NatMap α) (n : Nat), n ≤ m.foldl (fun n e => if n ≤ e.1 then e.1 + 1 else n) n ∧
      ∀ e ∈ m, e.1 < m.foldl (fun n e => if n ≤ e.1 then e.1 + 1 else n) n := by
    intro m
    induction m with
    | nil => intro n; exact ⟨Nat.le_refl _, by simp⟩
    | cons x m ih =>
      intro n
      rw [List.foldl_cons]
      obtain ⟨h1, h2⟩ := ih (if n ≤ x.1 then x.1 + 1 else n)
      have hx : x.1 < (if n ≤ x.1 then x.1 + 1 else n) ∧ n ≤ (if n ≤ x.1 then x.1 + 1 else n) := by split <;> omega
      refine ⟨hx.2.trans h1, fun e he => ?_⟩
      rcases List.mem_cons.mp he with rfl | he
      · exact Nat.lt_of_lt_of_le hx.1 h1
      · exact h2 e he
  exact (key m 0).2

theorem mapGet?_append_fresh {α : Type} (m : NatMap α) (k : Nat) (h : ∀ e ∈ m, e.1 ≠ k) (rest : NatMap α) :
    mapGet? (m ++ rest) k = mapGet? rest k := by
  induction m with
  | nil => rfl
  | cons e m ih =>
    obtain ⟨k', v⟩ := e
    show (if k = k' then _ else _) = _
    rw [if_neg (fun hx => h (k', v) (by simp) hx.symm)]
    exact ih (fun e he => h e (by simp [he]))

theorem mapModify_append_fresh {α : Type} (m : NatMap α) (k : Nat) (h : ∀ e ∈ m, e.1 ≠ k) (rest : NatMap α) (f : α → α) :
    mapModify (m ++ rest) k f = m ++ mapModify rest k f := by
  unfold mapModify
  rw [List.map_append]
  congr 1
  refine (List.map_congr_left (fun e he => ?_)).trans (List.map_id m)
  rw [if_neg (h e he)]; rfl

end Sys2Proof.Machine
end

