-- ==== Sys2Proof/Laws/Alu.lean ====
section
/-! SUPPORT. Laws of lanes, groups and results: what changing a warp, some lanes or a group gives, and the one law of every
instruction that computes on registers. -/

namespace Sys2Proof.Machine

/-! ### Warps and lanes -/

@[simp] theorem State.warp?_modWarp (s : State) (w v : Nat) (f : Warp → Warp) :
    (s.modWarp w f).warp? v = if v = w then (s.warp? v).map f else s.warp? v := mapGet?_mapModify _ _ _ _

@[simp] theorem State.tenant?_modTenant (s : State) (w v : Nat) (f : Tenant → Tenant) :
    (s.modTenant w f).tenant? v = if v = w then (s.tenant? v).map f else s.tenant? v := mapGet?_mapModify _ _ _ _

@[simp] theorem State.block?_modBlock (s : State) (w v : Nat) (f : Block → Block) :
    (s.modBlock w f).block? v = if v = w then (s.block? v).map f else s.block? v := mapGet?_mapModify _ _ _ _

@[simp] theorem State.grid?_modGrid (s : State) (w v : Nat) (f : Grid → Grid) :
    (s.modGrid w f).grid? v = if v = w then (s.grid? v).map f else s.grid? v := mapGet?_mapModify _ _ _ _

@[simp] theorem State.ctx?_modCtx (s : State) (w v : Nat) (f : Ctx → Ctx) :
    (s.modCtx w f).ctx? v = if v = w then (s.ctx? v).map f else s.ctx? v := mapGet?_mapModify _ _ _ _

@[simp] theorem State.view?_modView (s : State) (w v : Nat) (f : View → View) :
    (s.modView w f).view? v = if v = w then (s.view? v).map f else s.view? v := mapGet?_mapModify _ _ _ _

@[simp] theorem State.req?_modReq (s : State) (w v : Nat) (f : Req → Req) :
    (s.modReq w f).req? v = if v = w then (s.req? v).map f else s.req? v := mapGet?_mapModify _ _ _ _

theorem State.core_modCore (s : State) (k j : Nat) (f : Core → Core) :
    (s.modCore k f).core j = if j = k then f (s.core j) else s.core j := by
  by_cases h : j = k
  · subst h; simp [State.core, State.modCore]
  · simp [State.core, State.modCore, h, mapGetD_mapSet_ne]

theorem State.cluster_modCluster (s : State) (k j : Nat) (f : Cluster → Cluster) :
    (s.modCluster k f).cluster j = if j = k then f (s.cluster j) else s.cluster j := by
  by_cases h : j = k
  · subst h; simp [State.cluster, State.modCluster]
  · simp [State.cluster, State.modCluster, h, mapGetD_mapSet_ne]

theorem State.queue_modQueue (s : State) (k j : Nat) (f : Queue → Queue) :
    (s.modQueue k f).queue j = if j = k then f (s.queue j) else s.queue j := by
  by_cases h : j = k
  · subst h; simp [State.queue, State.modQueue]
  · simp [State.queue, State.modQueue, h, mapGetD_mapSet_ne]

theorem State.ring_modRing (s : State) (k j : Nat) (f : Ring → Ring) :
    (s.modRing k f).ring j = if j = k then f (s.ring j) else s.ring j := by
  by_cases h : j = k
  · subst h; simp [State.ring, State.modRing]
  · simp [State.ring, State.modRing, h, mapGetD_mapSet_ne]

theorem State.modWarp_modWarp (s : State) (w : Nat) (f f' : Warp → Warp) :
    (s.modWarp w f).modWarp w f' = s.modWarp w (fun wp => f' (f wp)) := by
  simp [State.modWarp, mapModify_mapModify]

theorem Warp.lane?_modLane (wp : Warp) (l m : Nat) (f : Lane → Lane) :
    (wp.modLane l f).lane? m = if m = l then (wp.lane? m).map f else wp.lane? m := listModify_getElem? _ _ _ _

/-- Changing several lanes, each of them once. -/
theorem Warp.lane?_modLanes (ls : List Nat) (hn : ls.Nodup) (wp : Warp) (m : Nat) (f : Lane → Lane) :
    (wp.modLanes ls f).lane? m = if m ∈ ls then (wp.lane? m).map f else wp.lane? m := by
  induction ls generalizing wp with
  | nil => simp [Warp.modLanes]
  | cons l ls ih =>
    have hn' := List.nodup_cons.mp hn
    have := ih hn'.2 (wp.modLane l f)
    simp only [Warp.modLanes, List.foldl_cons] at this ⊢
    rw [this, Warp.lane?_modLane]
    by_cases h : m = l
    · subst h; simp [hn'.1]
    · simp [h]

theorem Warp.modLanes_eq (ls : List Nat) (wp : Warp) (f : Lane → Lane) :
    wp.modLanes ls f = { wp with lanes := (wp.modLanes ls f).lanes } := by
  induction ls generalizing wp with
  | nil => rfl
  | cons l ls ih =>
    have := ih (wp.modLane l f)
    simp only [Warp.modLanes, List.foldl_cons] at this ⊢
    rw [this]; rfl

/-- Changing several lanes of a warp of the state. -/
theorem State.lane?_modLanes (s : State) (w : Nat) (ls : List Nat) (hn : ls.Nodup) (f : Lane → Lane) (l : Nat) :
    (s.modLanes w ls f).lane? w l = if l ∈ ls then (s.lane? w l).map f else s.lane? w l := by
  unfold State.modLanes State.lane?
  rw [State.warp?_modWarp, if_pos rfl]
  cases s.warp? w with
  | none => simp
  | some wp => simp [Warp.lane?_modLanes ls hn]

theorem State.warp?_modLanes (s : State) (w v : Nat) (ls : List Nat) (f : Lane → Lane) :
    (s.modLanes w ls f).warp? v = if v = w then (s.warp? v).map (fun wp => wp.modLanes ls f) else s.warp? v := by
  simp [State.modLanes]

theorem onlyWarp_modWarp (s : State) (w : Nat) (f : Warp → Warp) : OnlyWarp s (s.modWarp w f) w :=
  ⟨rfl, fun v hv => by simp [hv]⟩

theorem onlyWarp_modLanes (s : State) (w : Nat) (ls : List Nat) (f : Lane → Lane) : OnlyWarp s (s.modLanes w ls f) w :=
  onlyWarp_modWarp _ _ _

theorem OnlyWarp.trans {s t u : State} {w : Nat} (h : OnlyWarp s t w) (h' : OnlyWarp t u w) : OnlyWarp s u w := by
  obtain ⟨h1, h2⟩ := h
  obtain ⟨h3, h4⟩ := h'
  refine ⟨?_, fun v hv => (h4 v hv).trans (h2 v hv)⟩
  rw [h3, h1]

theorem onlyTenant_modTenant (s : State) (w : Nat) (f : Tenant → Tenant) : OnlyTenant s (s.modTenant w f) w :=
  ⟨rfl, fun v hv => by simp [hv]⟩

/-! ### Groups -/

theorem maskLanes_nodup (m : Mask) : (maskLanes m).Nodup := (nodup_upTo 32).filter _

/-- A group holds each of its lanes once. -/
theorem groupOf_spec {wp : Warp} {w : Nat} {m : Mask} {g : Grp} (h : groupOf wp w m = some g) :
    g.w = w ∧ g.wp = wp ∧ g.lanes.Nodup ∧ g.lanes ≠ [] ∧
      ∀ l ∈ g.lanes, l < 32 ∧ ∃ la, wp.lane? l = some la ∧ la.st = .runnable ∧ la.pc = g.pc := by
  unfold groupOf at h
  dsimp only at h
  split at h
  · cases h
  · rename_i l0 ls hrun
    split at h
    · cases h
    · rename_i la0 hla
      cases h
      have hnd : (l0 :: ls).Nodup := by rw [← hrun]; exact (maskLanes_nodup m).filter _
      have hmem : ∀ l ∈ l0 :: ls, l < 32 ∧ (wp.lane? l).any (fun la => la.st = .runnable) = true := by
        intro l hl
        rw [← hrun, List.mem_filter, maskLanes, List.mem_filter, mem_upTo] at hl
        exact ⟨hl.1.1, hl.2⟩
      refine ⟨rfl, rfl, by rw [hrun]; exact hnd.filter (fun l => Option.any (fun la => decide (la.pc = la0.pc)) (wp.lane? l)), ?_, ?_⟩
      · rw [hrun]
        simp [hla]
      · intro l hl
        rw [hrun, List.mem_filter] at hl
        obtain ⟨h1, h2⟩ := hmem l hl.1
        refine ⟨h1, ?_⟩
        cases hl' : wp.lane? l with
        | none => simp [hl'] at h2
        | some la =>
          have h3 := hl.2
          simp only [hl', Option.any_some, decide_eq_true_eq] at h2 h3
          exact ⟨la, rfl, h2, h3⟩

theorem State.grp_spec {s : State} {g : Grp} (h : s.grp = some g) :
    s.warp? g.w = some g.wp ∧ g.lanes.Nodup ∧ g.lanes ≠ [] ∧
      ∀ l ∈ g.lanes, l < 32 ∧ ∃ la, s.lane? g.w l = some la ∧ la.st = .runnable ∧ la.pc = g.pc := by
  unfold State.grp at h
  split at h
  · rename_i w m rest hc
    cases hw : s.warp? w with
    | none => simp [hw] at h
    | some wp =>
      simp only [hw, Option.bind_some] at h
      obtain ⟨h1, h2, h3, h4, h5⟩ := groupOf_spec h
      subst h1 h2
      refine ⟨hw, h3, h4, fun l hl => ?_⟩
      obtain ⟨h6, la, h7, h8⟩ := h5 l hl
      exact ⟨h6, la, by simp [State.lane?, hw, h7], h8⟩
  · cases h

theorem Grp.trues_nodup {g : Grp} (h : g.lanes.Nodup) (hd : Hdr) : (g.trues hd).Nodup := h.filter _

theorem Grp.mem_trues {g : Grp} {hd : Hdr} {l : Nat} (h : l ∈ g.trues hd) : l ∈ g.lanes := (List.mem_filter.mp h).1

theorem State.seq_of_grp {s : State} {g : Grp} (h : s.grp = some g) : s.seq = none := by
  unfold State.grp at h
  unfold State.seq
  split at h
  · rename_i hc; simp [hc]
  · cases h

theorem State.grp_of_seq {s : State} {t : Nat} (h : s.seq = some t) : s.grp = none := by
  unfold State.seq at h
  unfold State.grp
  split at h
  · rename_i hc; simp [hc]
  · cases h

/-! ### Results -/

theorem Warp.putUni_eq (wp : Warp) (w : Wr) : wp.putUni w = { wp with sregs := (wp.putUni w).sregs } := by
  unfold Warp.putUni
  split
  · unfold Warp.setSregs; split <;> rfl
  · rfl

theorem Warp.putUni_lanes (wp : Warp) (w : Wr) (ls : List Lane) :
    Warp.putUni { wp with lanes := ls } w = { wp.putUni w with lanes := ls } := by
  unfold Warp.putUni
  split
  · unfold Warp.setSregs Warp.setSreg; split <;> rfl
  · rfl

theorem Warp.putsUni_lanes (ws : List Wr) (wp : Warp) (ls : List Lane) :
    Warp.putsUni { wp with lanes := ls } ws = { wp.putsUni ws with lanes := ls } := by
  induction ws generalizing wp with
  | nil => rfl
  | cons w ws ih =>
    simp only [Warp.putsUni, List.foldl_cons, Warp.putUni_lanes] at ih ⊢
    exact ih _

theorem Warp.putsUni_eq (ws : List Wr) (wp : Warp) : (wp.putsUni ws).lanes = wp.lanes := by
  have := Warp.putsUni_lanes ws wp wp.lanes
  calc (wp.putsUni ws).lanes = (Warp.putsUni { wp with lanes := wp.lanes } ws).lanes := rfl
    _ = wp.lanes := by rw [this]

theorem Warp.writes_fold_lanes (rs : List Regs) (f : Regs → List Wr) (wp : Warp) :
    rs.foldl (fun wp r => wp.modLane r.lane (fun la => la.puts (f r))) wp =
      { wp with lanes := (rs.foldl (fun wp r => wp.modLane r.lane (fun la => la.puts (f r))) wp).lanes } := by
  induction rs generalizing wp with
  | nil => rfl
  | cons r rs ih =>
    simp only [List.foldl_cons]
    rw [ih]; rfl

theorem Warp.lane?_writes_fold (view : Nat → Regs) (hv : ∀ l, (view l).lane = l) (f : Regs → List Wr) (G : List Nat) (hn : G.Nodup)
    (wp : Warp) (m : Nat) :
    ((G.map view).foldl (fun wp r => wp.modLane r.lane (fun la => la.puts (f r))) wp).lane? m =
      if m ∈ G then (wp.lane? m).map (fun la => la.puts (f (view m))) else wp.lane? m := by
  induction G generalizing wp with
  | nil => simp
  | cons l G ih =>
    have hn' := List.nodup_cons.mp hn
    simp only [List.map_cons, List.foldl_cons]
    rw [ih hn'.2, hv, Warp.lane?_modLane]
    by_cases h : m = l
    · subst h; simp [hn'.1]
    · simp [h]

/-- What the lanes hold after an instruction writes its results. -/
theorem Warp.lane?_writes (view : Nat → Regs) (hv : ∀ l, (view l).lane = l) (f : Regs → List Wr) (G : List Nat) (hn : G.Nodup)
    (wp : Warp) (m : Nat) :
    (wp.writes (G.map view) f).lane? m = if m ∈ G then (wp.lane? m).map (fun la => la.puts (f (view m))) else wp.lane? m := by
  cases G with
  | nil => simp [Warp.writes]
  | cons l G =>
    have := Warp.lane?_writes_fold view hv f (l :: G) hn wp m
    simp only [Warp.writes, List.map_cons] at this ⊢
    unfold Warp.lane?
    rw [Warp.putsUni_eq]
    exact this

/-- What the warp holds besides its lanes. -/
theorem Warp.writes_rest (view : Nat → Regs) (f : Regs → List Wr) (G : List Nat) (wp : Warp) (ls : List Lane) :
    { wp.writes (G.map view) f with lanes := ls } =
      { uniAfter wp G (fun l => f (view l)) with lanes := ls } := by
  cases G with
  | nil => rfl
  | cons l G =>
    simp only [Warp.writes, List.map_cons, uniAfter]
    rw [Warp.writes_fold_lanes, Warp.putsUni_lanes]

theorem Warp.with_lanes (wp : Warp) (ls : List Lane) (h : wp.lanes = ls) : { wp with lanes := ls } = wp := by
  subst h; rfl

theorem uniAfter_lanes (wp : Warp) (G : List Nat) (f : Nat → List Wr) : (uniAfter wp G f).lanes = wp.lanes := by
  cases G with
  | nil => rfl
  | cons l G => exact Warp.putsUni_eq _ _

/-- The law of `aluCk`: what it answers in each stream. -/
theorem aluCk_computes (h : Hdr) (top : Nat) (f : List Regs → Regs → List Wr) (s : State) :
    Computes h top f s (.next (aluCk h top true f s)) := by
  refine ⟨fun g hg => ?_, fun g hg hr => ?_, fun n te ht => ?_⟩
  · refine ⟨_, rfl, ?_⟩
    obtain ⟨hw, hnd, -, -⟩ := State.grp_spec hg.grp
    have hlt : ¬ (s.regsOf g.wp.block < top ∨ (!true) = true) := by
      have := hg.regs; simp; omega
    have hviews : s.views' g h = (g.trues h).map (s.laneRegs g) := rfl
    simp only [aluCk, hg.grp, if_neg hlt, hviews]
    have hv : ∀ l, (s.laneRegs g l).lane = l := fun _ => rfl
    refine ⟨(onlyWarp_modWarp _ _ _).trans (onlyWarp_modLanes _ _ _ _), fun l => ?_, ?_⟩
    · rw [State.stepLanes, State.lane?_modLanes _ _ _ hnd]
      simp only [State.lane?, State.warp?_modWarp, if_true, hw, Option.map_some, Option.bind_some]
      rw [Warp.lane?_writes (s.laneRegs g) hv _ _ (Grp.trues_nodup hnd h)]
      cases hl : g.wp.lane? l with
      | none => simp
      | some la => by_cases h1 : l ∈ g.trues h <;> by_cases h2 : l ∈ g.lanes <;> simp [laneAfter, h1, h2]
    · show Option.map _ (State.warp? (State.modLanes _ g.w g.lanes Lane.step) g.w) = _
      rw [State.warp?_modLanes]
      simp only [State.warp?_modWarp, if_true, hw, Option.map_some]
      rw [Warp.modLanes_eq]
      have := Warp.writes_rest (s.laneRegs g) (f ((g.trues h).map (s.laneRegs g))) (g.trues h) g.wp g.wp.lanes
      simp only at this ⊢
      rw [this]
      congr 1
      exact Warp.with_lanes _ _ (uniAfter_lanes _ _ _)
  · simp only [aluCk, hg, if_pos (Or.inl hr : s.regsOf g.wp.block < top ∨ (!true) = true)]
  · have hg := State.grp_of_seq ht.seq
    refine ⟨_, rfl, ?_⟩
    simp only [aluCk, hg, ht.seq, ht.tenant]
    refine ⟨⟨rfl, fun v hv => by simp [State.stepSeq, hv]⟩, ?_⟩
    simp only [State.stepSeq, State.tenant?_modTenant, if_true, ht.tenant, Option.map_some]
    have hp : ∀ (ws : List Wr) (te : Tenant), (te.puts ws).pc = te.pc := by
      intro ws
      induction ws with
      | nil => intro te; rfl
      | cons w ws ih =>
        intro te
        have : (te.put w).pc = te.pc := by
          unfold Tenant.put
          split
          · unfold Tenant.setQregs; split <;> rfl
          · rfl
          · unfold Tenant.setPred; split <;> rfl
        simp only [Tenant.puts, List.foldl_cons] at ih ⊢
        rw [ih, this]
    by_cases hgd : guardOf h te.pred = true
    · simp [hgd, hp]
    · simp [hgd]

theorem alu_computes (h : Hdr) (top : Nat) (f : List Regs → Regs → List Wr) (s : State) :
    Computes h top f s (.next (alu h top f s)) := aluCk_computes h top f s

/-- The same for one destination. -/
theorem alu1_computes {h : Hdr} {a : Dst} {bits top : Nat} {f f' : Regs → Nat} {s : State} (hf : ∀ r, f r = f' r) :
    Computes h (max (a.top bits) top) (fun _ r => [.reg a bits (f' r)]) s (.next (alu1 h a bits top f s)) := by
  have : f = f' := funext hf
  subst this
  exact alu_computes _ _ _ _

/-- An outcome that is that of `alu`, with its results said in other words. -/
theorem computes_of {h : Hdr} {top : Nat} {f f' : List Regs → Regs → List Wr} {s : State} {o : Out} (ho : o = .next (alu h top f s))
    (hf : ∀ G r, f G r = f' G r) : Computes h top f' s o := by
  have : f = f' := funext fun G => funext fun r => hf G r
  subst ho this
  exact alu_computes h top f s

/-- An instruction that computes completes: for every group that runs it answers a next state with its results. -/
theorem Computes.completes {h : Hdr} {top : Nat} {f : List Regs → Regs → List Wr} {s : State} {o : Out} (c : Computes h top f s o) :
    Computes h top f s o ∧ ∀ g, Runs s g top → ∃ t, o = .next t ∧
      GroupResult s t g (g.trues h) (fun l => f ((g.trues h).map (s.laneRegs g)) (s.laneRegs g l)) :=
  ⟨c, c.vector⟩

end Sys2Proof.Machine
end

