-- ==== Sys2Proof/Laws/Group.lean ====
section
/-! SUPPORT. Laws of instructions that act for a group: what `onGroup` gives, and what changing its lanes one after the other gives. -/

namespace Sys2Proof.Machine

/-- A group of which some guard is true, with every register within the launch's count, acts. -/
theorem onGroup_runs {s : State} {g : Grp} {h : Hdr} {top : Nat} (hg : Runs s g top) (hG : g.trues h ≠ [])
    (f : Grp → List Nat → State → State) : onGroup h top s f = f g (g.trues h) (s.passFalse g h) := by
  have hlt : ¬ s.regsOf g.wp.block < top := Nat.not_lt.mpr hg.regs
  have hlt' : ¬ (s.passFalse g h).regsOf g.wp.block < top := hlt
  simp only [onGroup, hg.grp, if_neg hG]
  exact if_neg hlt'

/-- A group with no true guard only passes. -/
theorem onGroup_none {s : State} {g : Grp} {h : Hdr} {top : Nat} (hg : s.grp = some g) (hG : g.trues h = [])
    (f : Grp → List Nat → State → State) : onGroup h top s f = s.passFalse g h := by
  simp only [onGroup, hg, if_pos hG]
  rfl

/-- A register beyond the launch's count traps the guard-true lanes (R206). -/
theorem onGroup_beyond {s : State} {g : Grp} {h : Hdr} {top : Nat} (hg : s.grp = some g) (ht : s.regsOf g.wp.block < top)
    (f : Grp → List Nat → State → State) : onGroup h top s f = (s.passFalse g h).illopLanes g (g.trues h) 0x0B := by
  have ht' : (s.passFalse g h).regsOf g.wp.block < top := ht
  simp only [onGroup, hg]
  split
  · rename_i hG
    simp [hG, State.illopLanes, State.trapLanes, State.passFalse]
  · rfl

theorem State.warp?_of_grp {s : State} {g : Grp} (hg : s.grp = some g) : s.warp? g.w = some g.wp := (State.grp_spec hg).1

/-- Lanes changed one after the other. -/
theorem lane?_foldl_modLanes (w : Nat) (f : Nat → Lane → Lane) (G : List Nat) (hn : G.Nodup) (s : State) (l : Nat) :
    (G.foldl (fun s k => s.modLanes w [k] (f k)) s).lane? w l = if l ∈ G then (s.lane? w l).map (f l) else s.lane? w l := by
  induction G generalizing s with
  | nil => simp
  | cons k G ih =>
    obtain ⟨h1, h2⟩ := List.nodup_cons.mp hn
    rw [List.foldl_cons, ih h2, State.lane?_modLanes _ _ _ (List.nodup_singleton _)]
    by_cases h : l = k
    · subst h; simp [h1]
    · simp [h]

theorem onlyWarp_foldl_modLanes (w : Nat) (f : Nat → Lane → Lane) (G : List Nat) (s : State) :
    OnlyWarp s (G.foldl (fun s k => s.modLanes w [k] (f k)) s) w := by
  induction G generalizing s with
  | nil => exact ⟨rfl, fun _ _ => rfl⟩
  | cons k G ih => exact (onlyWarp_modLanes _ _ _ _).trans (ih _)

theorem Warp.modLanes_rest (ls : List Nat) (wp : Warp) (f : Lane → Lane) (x : List Lane) :
    { wp.modLanes ls f with lanes := x } = { wp with lanes := x } := by
  rw [Warp.modLanes_eq]

theorem rest_modLanes (s : State) (w : Nat) (ls : List Nat) (f : Lane → Lane) (x : List Lane) :
    ((s.modLanes w ls f).warp? w).map (fun wp => { wp with lanes := x }) = (s.warp? w).map (fun wp => { wp with lanes := x }) := by
  rw [State.warp?_modLanes, if_pos rfl]
  cases s.warp? w with
  | none => rfl
  | some wp =>
    simp only [Option.map_some]
    rw [Warp.modLanes_eq]

theorem rest_foldl_modLanes (w : Nat) (f : Nat → Lane → Lane) (G : List Nat) (s : State) (x : List Lane) :
    ((G.foldl (fun s k => s.modLanes w [k] (f k)) s).warp? w).map (fun wp => { wp with lanes := x }) =
      (s.warp? w).map (fun wp => { wp with lanes := x }) := by
  induction G generalizing s with
  | nil => rfl
  | cons k G ih => rw [List.foldl_cons, ih, rest_modLanes]

/-- The law of an instruction that changes only the lanes of its group: guard-false lanes pass, guard-true lanes change one after the
other. -/
theorem lanesResult_foldl {s : State} {g : Grp} (h : Hdr) (hg : s.grp = some g) (f : Nat → Lane → Lane) :
    LanesResult s ((g.trues h).foldl (fun s k => s.modLanes g.w [k] (f k)) (s.passFalse g h)) g (groupLane g h f) := by
  obtain ⟨hw, hnd, -, -⟩ := State.grp_spec hg
  refine ⟨(onlyWarp_modLanes _ _ _ _).trans (onlyWarp_foldl_modLanes _ _ _ _), fun l => ?_, ?_⟩
  · rw [lane?_foldl_modLanes _ _ _ (Grp.trues_nodup hnd h)]
    unfold State.passFalse State.stepLanes
    rw [State.lane?_modLanes _ _ _ (hnd.filter _)]
    unfold groupLane
    cases s.lane? g.w l with
    | none => simp
    | some la => by_cases h1 : l ∈ g.trues h <;> by_cases h2 : l ∈ g.lanes <;> simp [h1, h2]
  · rw [rest_foldl_modLanes]
    unfold State.passFalse State.stepLanes
    rw [rest_modLanes, hw]
    rfl

/-- … where they all change by one function, as one operation. -/
theorem lanesResult_modLanes {s : State} {g : Grp} (h : Hdr) (hg : s.grp = some g) (f : Lane → Lane) :
    LanesResult s ((s.passFalse g h).modLanes g.w (g.trues h) f) g (groupLane g h (fun _ => f)) := by
  obtain ⟨hw, hnd, -, -⟩ := State.grp_spec hg
  refine ⟨(onlyWarp_modLanes _ _ _ _).trans (onlyWarp_modLanes _ _ _ _), fun l => ?_, ?_⟩
  · rw [State.lane?_modLanes _ _ _ (Grp.trues_nodup hnd h)]
    unfold State.passFalse State.stepLanes
    rw [State.lane?_modLanes _ _ _ (hnd.filter _)]
    unfold groupLane
    cases s.lane? g.w l with
    | none => simp
    | some la => by_cases h1 : l ∈ g.trues h <;> by_cases h2 : l ∈ g.lanes <;> simp [h1, h2]
  · rw [rest_modLanes]
    unfold State.passFalse State.stepLanes
    rw [rest_modLanes, hw]
    rfl

/-- A group with no true guard: every lane of it passes. -/
theorem lanesResult_none {s : State} {g : Grp} {h : Hdr} (hg : s.grp = some g) (hG : g.trues h = []) (f : Nat → Lane → Lane) :
    LanesResult s (s.passFalse g h) g (groupLane g h f) := by
  have := lanesResult_foldl h hg f
  rwa [hG] at this

theorem LanesResult.congr {s t : State} {g : Grp} {f f' : Nat → Lane → Lane} (hr : LanesResult s t g f)
    (h : ∀ l la, s.lane? g.w l = some la → f l la = f' l la) : LanesResult s t g f' := by
  refine ⟨hr.frame, fun l => ?_, hr.warp⟩
  rw [hr.lanes]
  cases e : s.lane? g.w l with
  | none => rfl
  | some la => simp [h l la e]

/-- Changing the lanes of a warp by nothing. -/
theorem State.modLanes_same (s : State) (w : Nat) (ls : List Nat) : s.modLanes w ls (fun la => la) = s := by
  have h1 : ∀ (xs : List Lane) (n : Nat), listModify xs n (fun la => la) = xs := by
    intro xs
    induction xs with
    | nil => intro n; cases n <;> rfl
    | cons x xs ih => intro n; cases n <;> simp [listModify, ih]
  have h2 : ∀ wp : Warp, wp.modLanes ls (fun la => la) = wp := by
    induction ls with
    | nil => intro wp; rfl
    | cons l ls ih =>
      intro wp
      have : wp.modLane l (fun la => la) = wp := by unfold Warp.modLane; rw [h1]
      simp only [Warp.modLanes, List.foldl_cons, this] at ih ⊢
      exact ih wp
  unfold State.modLanes State.modWarp
  have : (fun wp : Warp => wp.modLanes ls (fun la => la)) = fun wp => wp := funext h2
  rw [this, mapModify_id]

/-- After the lanes of a group, what the warp holds besides them changes. -/
theorem LanesResult.thenWarp {s t : State} {g : Grp} {f : Nat → Lane → Lane} (hr : LanesResult s t g f) (k : Warp → Warp)
    (hk : ∀ wp x, k { wp with lanes := x } = { k wp with lanes := x }) : WarpResult s (t.modWarp g.w k) g f (k g.wp) := by
  have hl : ∀ wp, (k wp).lanes = wp.lanes := fun wp => by
    have := congrArg Warp.lanes (hk wp wp.lanes)
    exact this
  refine ⟨hr.frame.trans (onlyWarp_modWarp _ _ _), fun l => ?_, ?_⟩
  · rw [← hr.lanes]
    unfold State.lane?
    rw [State.warp?_modWarp, if_pos rfl]
    cases t.warp? g.w with
    | none => rfl
    | some wp => simp [Warp.lane?, hl]
  · have h2 := hr.warp
    rw [State.warp?_modWarp, if_pos rfl]
    cases e : t.warp? g.w with
    | none => rw [e] at h2; cases h2
    | some wp =>
      rw [e] at h2
      have h3 : { wp with lanes := g.wp.lanes } = g.wp := Option.some.inj h2
      simp only [Option.map_some]
      rw [← hk wp, h3, ← hl g.wp]

/-- Changing lanes twice. -/
theorem State.modLanes_modLanes (s : State) (w : Nat) (ls : List Nat) (hn : ls.Nodup) (f f' : Lane → Lane) :
    ((s.modLanes w ls f).modLanes w ls f') = s.modLanes w ls (fun la => f' (f la)) := by
  unfold State.modLanes
  rw [State.modWarp_modWarp]
  congr 1
  funext wp
  have : ∀ (wp wp' : Warp), { wp with lanes := [] } = { wp' with lanes := [] } → wp.lanes = wp'.lanes → wp = wp' := by
    intro a b h1 h2
    cases a; cases b; simp_all
  apply this
  · rw [Warp.modLanes_rest, Warp.modLanes_rest, Warp.modLanes_rest]
  · apply List.ext_getElem?
    intro m
    have e1 := Warp.lane?_modLanes ls hn (wp.modLanes ls f) m f'
    have e2 := Warp.lane?_modLanes ls hn wp m f
    have e3 := Warp.lane?_modLanes ls hn wp m (fun la => f' (f la))
    unfold Warp.lane? at e1 e2 e3
    rw [e1, e3, e2]
    by_cases hm : m ∈ ls
    · simp only [hm, if_true, Option.map_map]; rfl
    · simp [hm]

/-- A frame about lanes carries over to states that differ elsewhere alike. -/
theorem LanesResult.besides {s t : State} {g : Grp} {f : Nat → Lane → Lane} (hr : LanesResult s t g f) (k : State → State)
    (hk : ∀ s ws, k { s with warps := ws } = { k s with warps := ws }) : LanesResult (k s) (k t) g f := by
  have hw : ∀ u : State, (k u).warps = u.warps := fun u => by
    have := congrArg State.warps (hk u u.warps); exact this
  have hwp : ∀ (u : State) v, (k u).warp? v = u.warp? v := fun u v => by unfold State.warp?; rw [hw]
  have hl : ∀ (u : State) v l, (k u).lane? v l = u.lane? v l := fun u v l => by unfold State.lane?; rw [hwp]
  refine ⟨⟨?_, fun v hv => ?_⟩, fun l => ?_, ?_⟩
  · rw [hw, ← hk, ← hr.frame.1]
  · rw [hwp, hwp]; exact hr.frame.2 v hv
  · rw [hl, hl]; exact hr.lanes l
  · rw [hwp]; exact hr.warp

/-- Requests that satisfy `P` have been added. -/
structure Adds (P : Req → Prop) (s t : State) (n : Nat) : Prop where
  frame : t = { s with reqs := t.reqs, tick := t.tick }
  reqs : ∃ new, t.reqs = s.reqs ++ new ∧ new.length ≤ n ∧ ∀ e ∈ new, P e.2

theorem Adds.refl (P) (s : State) : Adds P s s 0 := ⟨rfl, [], by simp, by simp, by simp⟩
theorem Adds.trans {P} {s t u : State} {n k : Nat} (h : Adds P s t n) (h' : Adds P t u k) : Adds P s u (n + k) := by
  obtain ⟨x, h1, h2, h3⟩ := h.reqs
  obtain ⟨y, k1, k2, k3⟩ := h'.reqs
  refine ⟨?_, x ++ y, by rw [k1, h1, List.append_assoc], by simp; omega, ?_⟩
  · rw [h'.frame, h.frame]
  · intro e he; rcases List.mem_append.mp he with he | he
    · exact h3 e he
    · exact k3 e he
theorem Adds.mono {P} {s t : State} {n k : Nat} (h : Adds P s t n) (hk : n ≤ k) : Adds P s t k := by
  obtain ⟨x, h1, h2, h3⟩ := h.reqs
  exact ⟨h.frame, x, h1, by omega, h3⟩

theorem adds_one (P : Req → Prop) (s : State) (q : Req) (hq : ∀ w, P { q with word := w }) : Adds P s (s.addReqs [q]).next 1 :=
  ⟨rfl, [_], rfl, by simp, by simp; exact hq _⟩

theorem adds_fold {α : Type} (P : Req → Prop) (f : State → α → State) (xs : List α) (s0 : State)
    (hf : ∀ s : State, s = { s0 with reqs := s.reqs, tick := s.tick } → ∀ x ∈ xs, Adds P s (f s x) 1) (s : State)
    (hs : s = { s0 with reqs := s.reqs, tick := s.tick }) : Adds P s (xs.foldl f s) xs.length := by
  induction xs generalizing s with
  | nil => exact .refl _ _
  | cons x xs ih =>
    rw [List.foldl_cons]
    have h1 := hf s hs x (by simp)
    have h2 : f s x = { s0 with reqs := (f s x).reqs, tick := (f s x).tick } :=
      h1.frame.trans (congrArg (fun u : State => { u with reqs := (f s x).reqs, tick := (f s x).tick }) hs)
    exact (h1.trans (ih (fun s hs x hx => hf s hs x (by simp [hx])) (f s x) h2)).mono (by simp; omega)

theorem prefetchLine_adds (P : Req → Prop) (s : State) (k ctx asid view : Nat) (block : Option Nat) (addr : Nat)
    (hP : ∀ (s : State) w, P { fetchReq s k ctx asid view block addr false with word := w }) :
    Adds P s (s.prefetchLine k ctx asid view block addr) 1 := by
  unfold State.prefetchLine
  split
  · exact (Adds.refl _ _).mono (by omega)
  · exact adds_one _ _ _ (fun w => hP s w)

theorem adds_lanes {s : State} {g : Grp} {h : Hdr} (hg : s.grp = some g) (P : Req → Prop) {u : State} {n : Nat} (ha : Adds P (s.passFalse g h) u n) :
    let t := u.stepLanes g.w (g.trues h)
    LanesResult { s with reqs := t.reqs, tick := t.tick } t g (groupLane g h (fun _ => Lane.step)) ∧
    ∃ new, t.reqs = s.reqs ++ new ∧ new.length ≤ n ∧ ∀ e ∈ new, P e.2 := by
  intro t
  refine ⟨?_, ha.reqs⟩
  have h1 := (lanesResult_modLanes h hg Lane.step).besides (fun s => { s with reqs := u.reqs, tick := u.tick }) (fun _ _ => rfl)
  have : t = { (s.passFalse g h).modLanes g.w (g.trues h) Lane.step with reqs := u.reqs, tick := u.tick } := by
    show u.stepLanes _ _ = _
    rw [ha.frame]; rfl
  rw [this]; exact h1

/-- … where an instruction with no guard-true lane does nothing more. -/
theorem onGroup_any {s : State} {g : Grp} {h : Hdr} {top : Nat} (hg : Runs s g top) (f : Grp → List Nat → State → State)
    (hf : g.trues h = [] → f g [] (s.passFalse g h) = s.passFalse g h) : onGroup h top s f = f g (g.trues h) (s.passFalse g h) := by
  by_cases hG : g.trues h = []
  · rw [onGroup_none hg.grp hG, hG, hf hG]
  · exact onGroup_runs hg hG f

theorem stepLanes_nil (s : State) (w : Nat) : s.stepLanes w [] = s := by
  show s.modWarp w (fun wp => wp) = s
  unfold State.modWarp; rw [mapModify_id]

theorem passFalse_openLoads (s : State) (g : Grp) (h : Hdr) (w : Nat) (m : Mask) : (s.passFalse g h).openLoads w m = s.openLoads w m := by
  unfold State.openLoads State.passFalse State.stepLanes State.modLanes
  rw [State.warp?_modWarp]
  have hr : ∀ (ls) (wp : Warp), (wp.modLanes ls Lane.step).replays = wp.replays := by
    intro ls wp; rw [Warp.modLanes_eq]
  congr 1
  by_cases e : w = g.w
  · rw [if_pos e]; cases s.warp? w <;> simp [hr]
  · rw [if_neg e]

/-- Changing what a warp holds besides its lanes commutes with changing lanes. -/
theorem modWarp_modLanes (s : State) (w : Nat) (ls : List Nat) (f : Lane → Lane) (k : Warp → Warp)
    (hk : ∀ wp x, k { wp with lanes := x } = { k wp with lanes := x }) :
    (s.modWarp w k).modLanes w ls f = (s.modLanes w ls f).modWarp w k := by
  have hl : ∀ wp, (k wp).lanes = wp.lanes := fun wp => by
    have := congrArg Warp.lanes (hk wp wp.lanes); exact this
  unfold State.modLanes
  rw [State.modWarp_modWarp, State.modWarp_modWarp]
  congr 1
  funext wp
  show (k wp).modLanes ls f = k (wp.modLanes ls f)
  have h2 : ∀ (ls : List Nat) (a b : Warp), a.lanes = b.lanes → (a.modLanes ls f).lanes = (b.modLanes ls f).lanes := by
    intro ls
    induction ls with
    | nil => intro a b h; exact h
    | cons l ls ih => intro a b h; exact ih _ _ (by show listModify a.lanes _ _ = listModify b.lanes _ _; rw [h])
  have h3 : k (wp.modLanes ls f) = { k wp with lanes := (wp.modLanes ls f).lanes } :=
    (congrArg k (Warp.modLanes_eq ls wp f)).trans (hk _ _)
  have h4 : (k wp).modLanes ls f = { k wp with lanes := ((k wp).modLanes ls f).lanes } := Warp.modLanes_eq ls (k wp) f
  rw [h3]
  exact h4.trans (by rw [h2 ls (k wp) wp (hl wp)])

/-- Lanes change once more. -/
theorem WarpResult.thenLanes {s t : State} {g : Grp} {f : Nat → Lane → Lane} {r : Warp} (hr : WarpResult s t g f r) (G : List Nat)
    (hn : G.Nodup) (f' : Lane → Lane) :
    WarpResult s (t.modLanes g.w G f') g (fun l la => if l ∈ G then f' (f l la) else f l la) r := by
  refine ⟨hr.frame.trans (onlyWarp_modLanes _ _ _ _), fun l => ?_, ?_⟩
  · rw [State.lane?_modLanes _ _ _ hn, hr.lanes]
    cases s.lane? g.w l with
    | none => simp
    | some la => by_cases h : l ∈ G <;> simp [h]
  · rw [rest_modLanes]; exact hr.warp

/-- What the warp holds besides its lanes changes once more. -/
theorem WarpResult.thenWarp {s t : State} {g : Grp} {f : Nat → Lane → Lane} {r : Warp} (hr : WarpResult s t g f r) (k : Warp → Warp)
    (hk : ∀ wp x, k { wp with lanes := x } = { k wp with lanes := x }) : WarpResult s (t.modWarp g.w k) g f (k r) := by
  have hl : ∀ wp, (k wp).lanes = wp.lanes := fun wp => by
    have := congrArg Warp.lanes (hk wp wp.lanes); exact this
  refine ⟨hr.frame.trans (onlyWarp_modWarp _ _ _), fun l => ?_, ?_⟩
  · rw [← hr.lanes]
    unfold State.lane?
    rw [State.warp?_modWarp, if_pos rfl]
    cases t.warp? g.w with
    | none => rfl
    | some wp => simp [Warp.lane?, hl]
  · have h2 := hr.warp
    rw [State.warp?_modWarp, if_pos rfl]
    cases e : t.warp? g.w with
    | none => rw [e] at h2; cases h2
    | some wp =>
      rw [e] at h2
      exact congrArg some ((hk wp g.wp.lanes).symm.trans ((congrArg k (Option.some.inj h2)).trans (hk r g.wp.lanes)))

theorem WarpResult.congr {s t : State} {g : Grp} {f f' : Nat → Lane → Lane} {r : Warp} (hr : WarpResult s t g f r)
    (h : ∀ l la, s.lane? g.w l = some la → f l la = f' l la) : WarpResult s t g f' r := by
  refine ⟨hr.frame, fun l => ?_, hr.warp⟩
  rw [hr.lanes]
  cases e : s.lane? g.w l with
  | none => rfl
  | some la => simp [h l la e]

theorem LanesResult.warpResult {s t : State} {g : Grp} {f : Nat → Lane → Lane} (hr : LanesResult s t g f) : WarpResult s t g f g.wp := by
  refine ⟨hr.frame, hr.lanes, hr.warp.trans ?_⟩
  cases g.wp; rfl

/-- A frame about a warp carries over to states that differ elsewhere alike. -/
theorem WarpResult.besides {s t : State} {g : Grp} {f : Nat → Lane → Lane} {r : Warp} (hr : WarpResult s t g f r) (k : State → State)
    (hk : ∀ s ws, k { s with warps := ws } = { k s with warps := ws }) : WarpResult (k s) (k t) g f r := by
  have hw : ∀ u : State, (k u).warps = u.warps := fun u => by
    have := congrArg State.warps (hk u u.warps); exact this
  have hwp : ∀ (u : State) v, (k u).warp? v = u.warp? v := fun u v => by unfold State.warp?; rw [hw]
  have hl : ∀ (u : State) v l, (k u).lane? v l = u.lane? v l := fun u v l => by unfold State.lane?; rw [hwp]
  refine ⟨⟨?_, fun v hv => ?_⟩, fun l => ?_, ?_⟩
  · rw [hw, ← hk, ← hr.frame.1]
  · rw [hwp, hwp]; exact hr.frame.2 v hv
  · rw [hl, hl]; exact hr.lanes l
  · rw [hwp]; exact hr.warp

end Sys2Proof.Machine
end

