-- ==== Sys2Proof/Laws/Code.lean ====
section
/-! SUPPORT. What dropping copies of code leaves (R237). -/

set_option linter.unusedSimpArgs false
set_option linter.unusedVariables false

namespace Sys2Proof.Machine

/-- What dropping code lines leaves. -/
structure DropsCode (s t : State) (k : Nat) (bad : DLine → Prop) : Prop where
  frame : t = { s with cores := t.cores, reqs := t.reqs }
  reqs : t.reqs.map (fun e => (e.1, { e.2 with keep := false })) = s.reqs.map (fun e => (e.1, { e.2 with keep := false }))
  others : ∀ j, j ≠ k → t.core j = s.core j
  core : t.core k = { s.core k with l1i := (t.core k).l1i }
  lines : ∀ d, d ∈ (t.core k).l1i ↔ d ∈ (s.core k).l1i ∧ ¬ bad d

/-- The copies of code of one core are dropped … -/
theorem dropCode_spec (s : State) (k asid b len : Nat) : DropsCode s (s.dropCode k asid b len) k
    (fun d => 0 < len ∧ (d.asid = asid ∨ d.asid = 0) ∧ d.line * 192 < b + len ∧ b < d.line * 192 + 192) := by
  unfold State.dropCode
  by_cases h : len = 0
  · rw [if_pos h]; refine ⟨rfl, rfl, fun _ _ => rfl, rfl, fun d => by simp [h]⟩
  · rw [if_neg h]
    have hk : (s.dropCode k asid b len).core k = { s.core k with l1i := (s.core k).l1i.filter (fun d => !((d.asid = asid || d.asid = 0) && (decide (d.line * 192 < b + len) && decide (b < d.line * 192 + 192)))) } := by
      unfold State.dropCode
      rw [if_neg h]
      exact mapGetD_mapSet_self _ _ _ _
    have hj : ∀ j, j ≠ k → (s.dropCode k asid b len).core j = s.core j := by
      intro j hj
      unfold State.dropCode
      rw [if_neg h]
      exact mapGetD_mapSet_ne _ _ _ hj
    unfold State.dropCode at hk hj
    rw [if_neg h] at hk
    simp only [if_neg h] at hj
    refine ⟨rfl, ?_, hj, hk.trans (by rw [hk]), fun d => ?_⟩
    · dsimp only
      rw [List.map_map]
      apply List.map_congr_left
      intro e he
      simp only [Function.comp]
      split <;> rfl
    · rw [hk]
      have : 0 < len := by omega
      simp only [List.mem_filter, this, true_and, Bool.not_eq_true', Bool.and_eq_false_iff, Bool.or_eq_false_iff, decide_eq_false_iff_not]
      tauto

/-- … for one core after the other … -/
theorem DropsCode.trans {s t u : State} {k : Nat} {p q : DLine → Prop} (h : DropsCode s t k p) (h' : DropsCode t u k q) :
    DropsCode s u k (fun d => p d ∨ q d) := by
  refine ⟨?_, h'.reqs.trans h.reqs, fun j hj => (h'.others j hj).trans (h.others j hj), ?_, fun d => ?_⟩
  · have h1 := h'.frame
    rw [h.frame] at h1
    exact h1
  · rw [h'.core]; rw [h.core]
  · rw [h'.lines, h.lines]; tauto

/-- … and for all cores. -/
theorem dropCodes_spec (k : Nat) (f : State → Nat → State) (bad : Nat → DLine → Prop) (G : List Nat) (hf : ∀ s l, DropsCode s (f s l) k (bad l)) (s : State) :
    DropsCode s (G.foldl f s) k (fun d => ∃ l ∈ G, bad l d) := by
  induction G generalizing s with
  | nil => exact ⟨rfl, rfl, fun _ _ => rfl, rfl, fun d => by simp⟩
  | cons l G ih =>
    have := (hf s l).trans (ih (f s l))
    rw [List.foldl_cons]
    convert this using 2
    simp

end Sys2Proof.Machine
end

