-- ==== Sys2Proof/Laws/Requests.lean ====
section
/-! SUPPORT. Laws of the requests of memory instructions: how accesses are grouped, what adding requests gives, and what the checks
of a group of lanes give when every lane passes. -/

namespace Sys2Proof.Machine

theorem upTo_eq (n : Nat) : upTo n = List.range n := by
  induction n with
  | zero => rfl
  | succ n ih => rw [upTo, ih, List.range_succ]

/-- The line and page of an access. -/
def Acc.key (a : Acc) : Nat × Nat := (lineOf a.addr, pageOf a.addr)

theorem groupAccs_alone (as : List Acc) : groupAccs true as = as.map (fun a => [a]) := by
  induction as with
  | nil => rfl
  | cons a as ih => simp [groupAccs, ih]

/-- Grouping keeps every access once, gives groups of one line and page, and one group for each line and page. -/
theorem groupAccs_spec (as : List Acc) :
    (groupAccs false as).flatten.Perm as ∧ (∀ l ∈ groupAccs false as, ∃ a rest, l = a :: rest ∧ ∀ b ∈ l, b.key = a.key) ∧
      ((groupAccs false as).map (fun l => (l.head?.map Acc.key))).Nodup := by
  induction as with
  | nil => exact ⟨.refl _, by simp [groupAccs], List.nodup_nil⟩
  | cons a as ih =>
    obtain ⟨h1, h2, h3⟩ := ih
    simp only [groupAccs, Bool.false_eq_true, if_false]
    generalize groupAccs false as = gs at h1 h2 h3
    have same_iff : ∀ b : Acc, (decide (lineOf b.addr = lineOf a.addr) && decide (pageOf b.addr = pageOf a.addr)) = true ↔ b.key = a.key := by
      intro b; simp [Acc.key]
    have hk : ∀ l ∈ gs, (l.head?.any (fun b => decide (lineOf b.addr = lineOf a.addr) && decide (pageOf b.addr = pageOf a.addr))) = true ↔ l.head?.map Acc.key = some a.key := by
      intro l hl
      obtain ⟨b, rest, rfl, -⟩ := h2 l hl
      simp only [List.head?_cons, Option.any_some, Option.map_some, Option.some.injEq]
      exact same_iff b
    split
    · rename_i l hf
      have hl := List.mem_of_find?_eq_some hf
      have hl' := List.find?_some hf
      obtain ⟨b, rest, hlb, hall⟩ := h2 l hl
      have hkey := (hk l hl).mp hl'
      have hfil : gs.filter (fun m => !(m.head?.any (fun b => decide (lineOf b.addr = lineOf a.addr) && decide (pageOf b.addr = pageOf a.addr)))) = gs.erase l := by
        have hnd : gs.Nodup := List.Nodup.of_map _ h3
        rw [hnd.erase_eq_filter]
        apply List.filter_congr
        intro m hm
        by_cases e : m = l
        · subst e; simp [hl']
        · have : ¬ (m.head?.any (fun b => decide (lineOf b.addr = lineOf a.addr) && decide (pageOf b.addr = pageOf a.addr))) = true := by
            intro h
            have h4 := (hk m hm).mp h
            exact e (List.inj_on_of_nodup_map h3 hm hl (h4.trans hkey.symm))
          rw [Bool.not_eq_true] at this
          rw [this]
          simp [e]
      rw [hfil]
      have hp : (l :: gs.erase l).Perm gs := (List.perm_cons_erase hl).symm
      refine ⟨?_, ?_, ?_⟩
      · have : ((l :: gs.erase l).flatten).Perm gs.flatten := hp.flatten
        simp only [List.flatten_cons, List.cons_append]
        refine List.Perm.cons _ ?_
        simp only [List.flatten_cons] at this
        exact this.trans h1
      · intro m hm
        rcases List.mem_cons.mp hm with rfl | hm
        · refine ⟨a, l, rfl, fun c hc => ?_⟩
          rcases List.mem_cons.mp hc with rfl | hc
          · rfl
          · rw [hall c hc]
            rw [hlb] at hkey
            simpa using hkey
        · exact h2 m (List.mem_of_mem_erase hm)
      · have hnd2 : ((l :: gs.erase l).map (fun l => l.head?.map Acc.key)).Nodup := (hp.map _).nodup_iff.mpr h3
        simp only [List.map_cons, List.head?_cons, Option.map_some] at hnd2 ⊢
        rw [hkey] at hnd2
        exact hnd2
    · rename_i hf
      refine ⟨?_, ?_, ?_⟩
      · simp only [List.flatten_cons, List.singleton_append]
        exact h1.cons _
      · intro m hm
        rcases List.mem_cons.mp hm with rfl | hm
        · exact ⟨a, [], rfl, fun c hc => by simp at hc; subst hc; rfl⟩
        · exact h2 m hm
      · simp only [List.map_cons, List.head?_cons, Option.map_some]
        refine List.nodup_cons.mpr ⟨fun h => ?_, h3⟩
        obtain ⟨m, hm, e⟩ := List.mem_map.mp h
        have := List.find?_eq_none.mp hf m hm
        exact this ((hk m hm).mpr e)

/-- The requests that `addReqs` appends, under their numbers. -/
theorem addReqs_spec (s : State) (qs : List Req) :
    ∃ xs : NatMap Req, s.addReqs qs = { s with reqs := s.reqs ++ xs } ∧
      xs.map (·.2) = qs.map (fun q => { q with word := (s.fetch.map (·.2)).getD q.word }) := by
  unfold State.addReqs
  dsimp only
  generalize s.fetch.map (·.2) = w
  induction qs generalizing s with
  | nil => exact ⟨[], by simp, rfl⟩
  | cons q qs ih =>
    obtain ⟨xs, h1, h2⟩ := ih { s with reqs := s.reqs ++ [(mapFresh s.reqs, { q with word := w.getD q.word })] }
    refine ⟨(mapFresh s.reqs, { q with word := w.getD q.word }) :: xs, ?_, by simp [h2]⟩
    rw [List.foldl_cons, h1]; simp

/-- The accesses of an instruction, one for each of some lanes. -/
theorem mkAccs_map (bytes : Nat) (data addr : Nat → Nat) (G : List Nat) :
    mkAccs bytes data (G.map (fun l => (l, addr l))) =
      G.map (fun l => { lane := l, addr := addr l, bytes := bytes, data := BitVec.ofNat 128 (data l % 2 ^ (8 * bytes)), result := none,
                        pred := false }) := by
  unfold mkAccs
  rw [List.map_map]
  rfl

/-- What `mkReqs` makes: the accesses once each, by line and page or alone. -/
theorem mkReqs_spec (g : Grp) (p : Who) (i : MemI) (group : Nat) (inTx : Bool) (data addr : Nat → Nat) (G : List Nat) :
    let qs := mkReqs g p i group inTx data (G.map (fun l => (l, addr l)))
    (qs.flatMap (fun q => q.accs)).Perm (mkAccs i.bytes data (G.map (fun l => (l, addr l)))) ∧
    (∀ q ∈ qs, ∃ accs, q = mkReq g p i group 0 inTx accs ∧ accs ≠ [] ∧ ∀ a ∈ accs, lineOf a.addr = q.line ∧ pageOf a.addr = q.page) ∧
    (i.kind.alone = true → ∀ q ∈ qs, q.accs.length = 1) ∧
    (i.kind.alone = false → (qs.map (fun q => (q.line, q.page))).Nodup) := by
  unfold mkReqs
  generalize mkAccs i.bytes data (G.map (fun l => (l, addr l))) = as
  dsimp only
  have hflat : ∀ gs : List (List Acc), (gs.map (mkReq g p i group 0 inTx)).flatMap (fun q => q.accs) = gs.flatten := by
    intro gs
    induction gs with
    | nil => rfl
    | cons x xs ih => simp only [List.map_cons, List.flatMap_cons, ih, List.flatten_cons]; rfl
  rw [hflat]
  cases hal : i.kind.alone with
  | true =>
    rw [groupAccs_alone]
    refine ⟨?_, ?_, ?_, fun h => by cases h⟩
    · have : (as.map (fun a => [a])).flatten = as := by
        induction as with
        | nil => rfl
        | cons a as ih => simp [ih]
      rw [this]
    · intro q hq
      simp only [List.map_map, List.mem_map, Function.comp_apply] at hq
      obtain ⟨a, ha, rfl⟩ := hq
      refine ⟨[a], rfl, by simp, fun b hb => ?_⟩
      simp only [List.mem_singleton] at hb
      subst hb
      exact ⟨rfl, rfl⟩
    · intro _ q hq
      simp only [List.map_map, List.mem_map, Function.comp_apply] at hq
      obtain ⟨a, ha, rfl⟩ := hq
      rfl
  | false =>
    obtain ⟨h1, h2, h3⟩ := groupAccs_spec as
    refine ⟨h1, ?_, (fun h => by cases h), fun _ => ?_⟩
    · intro q hq
      obtain ⟨l, hl, rfl⟩ := List.mem_map.mp hq
      obtain ⟨a, rest, rfl, hall⟩ := h2 l hl
      refine ⟨_, rfl, by simp, fun b hb => ?_⟩
      have := hall b hb
      exact ⟨congrArg Prod.fst this, congrArg Prod.snd this⟩
    · have e : (groupAccs false as).map (fun l => l.head?.map Acc.key) =
          ((groupAccs false as).map (mkReq g p i group 0 inTx)).map (fun q => some (q.line, q.page)) := by
        rw [List.map_map]
        apply List.map_congr_left
        intro l hl
        obtain ⟨a, rest, rfl, -⟩ := h2 l hl
        rfl
      rw [e] at h3
      have h4 : (((groupAccs false as).map (mkReq g p i group 0 inTx)).map (fun q => some (q.line, q.page))) =
          (((groupAccs false as).map (mkReq g p i group 0 inTx)).map (fun q => (q.line, q.page))).map some := by
        simp only [List.map_map]; rfl
      rw [h4] at h3
      exact List.Nodup.of_map _ h3

/-- The checks of R263 when every lane passes them. -/
theorem checkLanes_pass (s : State) (g : Grp) (p : Who) (m : MAddr) (i : MemI) (G : List Nat)
    (hp : ∀ l ∈ G, s.checkLane p g.pc i.kind ((s.laneRegs g l).addr m) i.bytes i.align = .ok (va57 ((s.laneRegs g l).addr m)) .perform) :
    s.checkLanes g p m i G = { traps := [], perform := G.map (fun l => (l, va57 ((s.laneRegs g l).addr m))), queue := [] } := by
  unfold State.checkLanes
  suffices h : ∀ (ls done : List Nat), (∀ l ∈ ls, l ∈ G) → ls.foldl _ ({ traps := [], perform := done.map (fun l => (l, va57 ((s.laneRegs g l).addr m))), queue := [] } : Checked) =
      { traps := [], perform := (done ++ ls).map (fun l => (l, va57 ((s.laneRegs g l).addr m))), queue := [] } from h G [] (fun _ h => h)
  intro ls
  induction ls with
  | nil => intro done _; simp
  | cons l ls ih =>
    intro done h
    rw [List.foldl_cons, hp l (h l (by simp))]
    have := ih (done ++ [l]) (fun k hk => h k (by simp [hk]))
    simpa using this

/-- No guard-true lane is in a transaction. -/
theorem outsideTx_none (g : Grp) (G : List Nat) (s : State) (f : List Nat → State → State)
    (h : ∀ l ∈ G, ∀ la, g.wp.lane? l = some la → la.tx = none) (hsome : ∀ l ∈ G, ∃ la, g.wp.lane? l = some la) (hG : G ≠ []) :
    outsideTx g G s f = f G s := by
  have h1 : g.wp.inTx G = [] := by
    unfold Warp.inTx
    rw [List.filter_eq_nil_iff]
    intro l hl
    obtain ⟨la, e⟩ := hsome l hl
    simp [e, h l hl la e]
  have h2 : g.wp.notTx G = G := by
    unfold Warp.notTx
    rw [List.filter_eq_self]
    intro l hl
    obtain ⟨la, e⟩ := hsome l hl
    simp [e, h l hl la e]
  unfold outsideTx State.abortLanes
  have h3 : ∀ f, s.modLanes g.w [] f = s := fun f => State.modLanes_same s g.w []
  simp only [h1, h2, h3]

end Sys2Proof.Machine
end

