-- ==== Sys2Proof/Laws/MemIssue.lean ====
section
/-! SUPPORT. Laws of memory instructions at issue: what starting an instruction's requests leaves. -/

namespace Sys2Proof.Machine

theorem lanesMask_foldl_bit (ls : List Nat) (m : Mask) (k : Nat) (hk : k < 32) :
    (ls.foldl (fun m l => m ||| BitVec.ofNat 32 (2 ^ l)) m).getLsbD k = (m.getLsbD k || decide (k ∈ ls)) := by
  induction ls generalizing m with
  | nil => simp
  | cons l ls ih =>
    have h2 : (BitVec.ofNat 32 (2 ^ l)).getLsbD k = decide (k = l) := by
      rw [BitVec.getLsbD_ofNat, Nat.testBit_two_pow]; simp [hk, eq_comm]
    rw [List.foldl_cons, ih, BitVec.getLsbD_or, h2]
    simp [Bool.or_assoc]

/-- The bits of a mask of lanes. -/
theorem lanesMask_bit (ls : List Nat) (k : Nat) (hk : k < 32) : (lanesMask ls).getLsbD k = decide (k ∈ ls) := by
  rw [lanesMask, lanesMask_foldl_bit _ _ _ hk]; simp

/-- The state of an instruction before its requests start: only lanes of its warp have changed, and a fence may have been added. -/
structure Ready (s t : State) (g : Grp) (h : Hdr) (f : Lane → Lane) : Prop where
  frame : t = { s with warps := t.warps, fences := t.fences, tick := t.tick }
  others : ∀ v, v ≠ g.w → t.warp? v = s.warp? v
  lanes : ∀ l, t.lane? g.w l = (s.lane? g.w l).map (groupLane g h (fun _ => f) l)
  warp : ∃ wp, t.warp? g.w = some wp ∧ { wp with lanes := g.wp.lanes } = g.wp

theorem LanesResult.ready {s t : State} {g : Grp} {h : Hdr} {f : Lane → Lane} (hr : LanesResult s t g (groupLane g h (fun _ => f))) :
    Ready s t g h f := by
  refine ⟨?_, hr.frame.2, hr.lanes, ?_⟩
  · have := hr.frame.1
    rw [this]
  · have := hr.warp
    cases e : t.warp? g.w with
    | none => rw [e] at this; cases this
    | some wp => rw [e] at this; exact ⟨wp, rfl, Option.some.inj this⟩

/-- The warp's counter that an access kind counts in. -/
theorem Warp.count_with (wp : Warp) (k : AccKindM) (x : List Lane) (y : List Pend) (z : List (Mask × Nat)) (up : Bool) :
    { wp.count k up with lanes := x, pend := y, acquire := z } = ({ wp with lanes := x, pend := y, acquire := z } : Warp).count k up := by
  unfold Warp.count
  dsimp only
  split <;> try rfl
  split <;> rfl

theorem Warp.count_pend (wp : Warp) (k : AccKindM) (up : Bool) : (wp.count k up).pend = wp.pend := by
  unfold Warp.count
  dsimp only
  split <;> try rfl
  split <;> rfl

theorem Warp.count_lanes (wp : Warp) (k : AccKindM) (up : Bool) : (wp.count k up).lanes = wp.lanes := by
  unfold Warp.count
  dsimp only
  split <;> try rfl
  split <;> rfl

/-- The mark of registers that an instruction leaves (R46). -/
def pendOf (wp : Warp) (lanes : Mask) (i : MemI) (group clock : Nat) (pc : PC) : Pend :=
  { lanes := lanes
    vregs := (match i.dst with | .v n => regRange n.toNat i.bits | _ => [])
    sregs := (match i.dst with | .s n => regRange n.toNat i.bits | _ => [])
    preds := (match i.kind with | .fld | .fset => [i.pd.toNat] | _ => [])
    done := none, unit := .agu, thrifty := wp.agu.thrifty, promise := wp.agu.promise, slk := wp.agu.slk,
    pc := pc, issued := clock, req := some group }

theorem Warp.addPend_pos (wp : Warp) (lanes : Mask) (i : MemI) (group clock : Nat) (pc : PC) (h : lanes ≠ 0) :
    wp.addPend lanes i group clock pc = { wp with pend := wp.pend ++ [pendOf wp lanes i group clock pc] } := by
  unfold Warp.addPend
  rw [if_neg h]
  rfl

/-- An instruction's requests, appended for a group, make it issue. -/
theorem issues_of_reqs {s s1 t : State} {g : Grp} {h : Hdr} {f : Lane → Lane} {i : MemI} {st : ReqSt} {accs : List Acc} {k : Warp → Warp}
    {group clock : Nat} {xs : NatMap Req} {op : Mask}
    (hr : Ready s s1 g h f)
    (hall : (xs.flatMap (fun e => e.2.accs)).Perm accs)
    (heach : ∀ e ∈ xs, e.2.kind = i.kind ∧ e.2.st = st ∧ e.2.warp = some g.w ∧ e.2.core = g.wp.core ∧
      e.2.block = some g.wp.block ∧ e.2.view = s.viewOf g.wp.block ∧ e.2.asid = s.asidOf g.wp.block ∧ e.2.pc = g.pc ∧
      e.2.accs ≠ [] ∧ ∀ a ∈ e.2.accs, lineOf a.addr = e.2.line ∧ pageOf a.addr = e.2.page)
    (halone : i.kind.alone = true → ∀ e ∈ xs, e.2.accs.length = 1)
    (hlines : i.kind.alone = false → (xs.map (fun e => (e.2.line, e.2.page))).Nodup)
    (hop : ∀ l ∈ g.trues h, op.getLsbD l = true) (hop0 : op ≠ 0)
    (ht : t = ({ s1 with reqs := s1.reqs ++ xs } : State).modWarp g.w (fun wp => (wp.addPend op i group clock g.pc).count i.kind true))
    (hk : ∀ wp, k wp = wp.count i.kind true) : Issues s t g h i f k st accs := by
  obtain ⟨wp, hwp, hrest⟩ := hr.warp
  have hreqs : s1.reqs = s.reqs := by rw [hr.frame]
  have hdrop : t.reqs.drop s.reqs.length = xs := by
    subst ht
    show (s1.reqs ++ xs).drop _ = xs
    rw [← hreqs, List.drop_left]
  have hwt : t.warp? g.w = some ((wp.addPend op i group clock g.pc).count i.kind true) := by
    subst ht
    rw [State.warp?_modWarp, if_pos rfl]
    have : State.warp? { s1 with reqs := s1.reqs ++ xs } g.w = some wp := hwp
    rw [this]
    rfl
  refine ⟨?_, fun v hv => ?_, fun l => ?_, ⟨_, hwt, ?_, ?_⟩, ⟨?_, ?_, ?_, ?_, ?_⟩⟩
  · subst ht
    show ({ s1 with reqs := s1.reqs ++ xs } : State).modWarp _ _ = _
    unfold State.modWarp
    rw [hr.frame]
  · subst ht
    rw [State.warp?_modWarp, if_neg hv]
    exact hr.others v hv
  · have h3 := hr.lanes l
    unfold State.lane? at h3 ⊢
    rw [hwt]
    rw [hwp] at h3
    rw [← h3]
    simp only [Option.bind_some]
    unfold Warp.lane?
    rw [Warp.count_lanes, Warp.addPend_pos _ _ _ _ _ _ hop0]
  · rw [Warp.count_with, hk, Warp.addPend_pos _ _ _ _ _ _ hop0]
    congr 1
    rw [← hrest]
  · refine ⟨pendOf wp op i group clock g.pc, ?_, hop, ?_, ?_⟩
    · rw [Warp.count_pend, Warp.addPend_pos _ _ _ _ _ _ hop0]
      simp
    · unfold pendOf regRange
      simp only [upTo_eq] <;> cases i.dst <;> rfl
    · unfold pendOf regRange
      simp only [upTo_eq] <;> cases i.dst <;> rfl
  · subst ht
    show (s1.reqs ++ xs).take _ = _
    rw [← hreqs, List.take_left]
  · rw [hdrop]; exact hall
  · rw [hdrop]; exact heach
  · rw [hdrop]; exact halone
  · rw [hdrop]; exact hlines

/-- An acquire of lanes of the warp afterwards. -/
theorem Issues.acquire {s t : State} {g : Grp} {h : Hdr} {f : Lane → Lane} {i : MemI} {st : ReqSt} {accs : List Acc} {k : Warp → Warp}
    (hi : Issues s t g h i f k st accs) (a : Warp → List (Mask × Nat)) :
    Issues s (t.modWarp g.w (fun wp => { wp with acquire := a wp })) g h i f k st accs := by
  obtain ⟨wp, hwp, hw2, hp⟩ := hi.warp
  have hwt : (t.modWarp g.w (fun wp => { wp with acquire := a wp })).warp? g.w = some { wp with acquire := a wp } := by
    rw [State.warp?_modWarp, if_pos rfl, hwp]; rfl
  refine ⟨?_, fun v hv => ?_, fun l => ?_, ⟨_, hwt, hw2, hp⟩, ⟨hi.asks.older, hi.asks.all, hi.asks.each, hi.asks.alone, hi.asks.lines⟩⟩
  · have := hi.frame
    unfold State.modWarp
    rw [this]
  · rw [State.warp?_modWarp, if_neg hv]; exact hi.others v hv
  · have h3 := hi.lanes l
    unfold State.lane? at h3 ⊢
    rw [hwt]
    rw [hwp] at h3
    exact h3

theorem Issues.acquireFor {s t : State} {g : Grp} {h : Hdr} {f : Lane → Lane} {i : MemI} {st : ReqSt} {accs : List Acc} {k : Warp → Warp}
    (hi : Issues s t g h i f k st accs) (G : List Nat) (kind : Kind) (group : Nat) :
    Issues s (t.acquireFor g G kind group) g h i f k st accs ∧ (t.acquireFor g G kind group).fences = t.fences := by
  unfold State.acquireFor
  have h1 := hi.acquire (fun wp => wp.acquire ++ (t.openLoads g.w (lanesMask G)).map (fun n => (lanesMask G, n)))
  have key : Issues s (if (t.acquire g.w (lanesMask G)).outstanding g.w group then
      (t.acquire g.w (lanesMask G)).modWarp g.w (fun wp => { wp with acquire := wp.acquire ++ [(lanesMask G, group)] })
      else t.acquire g.w (lanesMask G)) g h i f k st accs ∧
      (if (t.acquire g.w (lanesMask G)).outstanding g.w group then
      (t.acquire g.w (lanesMask G)).modWarp g.w (fun wp => { wp with acquire := wp.acquire ++ [(lanesMask G, group)] })
      else t.acquire g.w (lanesMask G)).fences = t.fences := by
    split
    · exact ⟨h1.acquire _, rfl⟩
    · exact ⟨h1, rfl⟩
  cases kind with
  | acq => exact key
  | ar => exact key
  | none => exact ⟨hi, rfl⟩
  | rel => exact ⟨hi, rfl⟩

/-- Lanes of a request that stands in memory's way. -/
theorem openLanes_bit (s : State) (w group l : Nat) (_hl : l < 32) (n : Nat) (q : Req) (hq : (n, q) ∈ s.reqs) (hw : q.warp = some w)
    (hg : q.group = group) (hb : q.lanes.getLsbD l = true) : (s.openLanes w group).getLsbD l = true := by
  unfold State.openLanes
  generalize s.reqs = m at hq
  have grow : ∀ (m : NatMap Req) (x : Mask), x.getLsbD l = true →
      (m.foldl (fun m e => if e.2.warp = some w && e.2.group = group then m ||| e.2.lanes else m) x).getLsbD l = true := by
    intro m
    induction m with
    | nil => intro x h; exact h
    | cons e m ih =>
      intro x h
      rw [List.foldl_cons]
      refine ih _ ?_
      split
      · rw [BitVec.getLsbD_or, h]; rfl
      · exact h
  have : ∀ (m : NatMap Req) (x : Mask), (n, q) ∈ m →
      (m.foldl (fun m e => if e.2.warp = some w && e.2.group = group then m ||| e.2.lanes else m) x).getLsbD l = true := by
    intro m
    induction m with
    | nil => intro x h; cases h
    | cons e m ih =>
      intro x h
      rw [List.foldl_cons]
      rcases List.mem_cons.mp h with rfl | h
      · apply grow
        rw [if_pos (by simp [hw, hg]), BitVec.getLsbD_or, hb]
        simp
      · exact ih _ h
  exact this m 0 hq

theorem startWrites_eq (s : State) (g : Grp) (i : MemI) (group : Nat) (fence : Option Nat) (qs : List Req) (h : qs ≠ []) :
    s.startWrites g i group fence qs =
      (let qs' := qs.map (fun q => { q with st := (fence.map ReqSt.fenced).getD q.st })
       let s := s.addReqs qs'
       s.modWarp g.w (fun wp => (wp.addPend (s.openLanes g.w group) i group (s.clock g.wp.core) g.pc).count i.kind true)) := by
  unfold State.startWrites
  rw [if_neg h]
  cases fence <;> rfl

/-- Starting the requests of a group's writes (R46, R232, R267). -/
theorem issues_startWrites {s s1 : State} {g : Grp} {h : Hdr} {f : Lane → Lane} {k : Warp → Warp} (hg : s.grp = some g)
    (hG : g.trues h ≠ []) (hr : Ready s s1 g h f) (i : MemI) (p : Who) (hp : p.view = s.viewOf g.wp.block ∧ p.asid = s.asidOf g.wp.block)
    (group : Nat) (fence : Option Nat) (data addr : Nat → Nat) (hk : ∀ wp, k wp = wp.count i.kind true) :
    Issues s (s1.startWrites g i group fence (mkReqs g p i group false data ((g.trues h).map (fun l => (l, addr l))))) g h i f k
      ((fence.map ReqSt.fenced).getD .waiting) (mkAccs i.bytes data ((g.trues h).map (fun l => (l, addr l)))) ∧
    (s1.startWrites g i group fence (mkReqs g p i group false data ((g.trues h).map (fun l => (l, addr l))))).fences = s1.fences := by
  obtain ⟨-, -, -, hmem⟩ := State.grp_spec hg
  obtain ⟨h1, h2, h3, h4⟩ := mkReqs_spec g p i group false data addr (g.trues h)
  generalize hqs : mkReqs g p i group false data ((g.trues h).map (fun l => (l, addr l))) = qs at h1 h2 h3 h4 ⊢
  generalize has : mkAccs i.bytes data ((g.trues h).map (fun l => (l, addr l))) = as at h1 ⊢
  have hlanes : as.map (fun a => a.lane) = g.trues h := by
    rw [← has, mkAccs_map, List.map_map]
    exact List.map_id _
  have hne : qs ≠ [] := by
    rintro rfl
    have h5 := (List.Perm.length_eq h1).symm
    rw [List.flatMap_nil, List.length_nil] at h5
    have h6 := congrArg List.length hlanes
    rw [List.length_map, h5] at h6
    exact hG (List.length_eq_zero_iff.mp h6.symm)
  rw [startWrites_eq _ _ _ _ _ _ hne]
  dsimp only
  set st : ReqSt := (fence.map ReqSt.fenced).getD .waiting with hst
  have hmap : (qs.map (fun q => { q with st := (fence.map ReqSt.fenced).getD q.st })) = qs.map (fun q => { q with st := st }) := by
    apply List.map_congr_left
    intro q hq
    obtain ⟨accs, rfl, -, -⟩ := h2 q hq
    cases fence <;> rfl
  rw [hmap]
  obtain ⟨xs, hx1, hx2⟩ := addReqs_spec s1 (qs.map (fun q => { q with st := st }))
  rw [hx1]
  generalize (s1.fetch.map (·.2)) = word at hx2
  rw [List.map_map] at hx2
  have hmemx : ∀ e ∈ xs, ∃ accs, ∃ w, e.2 = { mkReq g p i group 0 false accs with st := st, word := w } ∧ accs ≠ [] ∧
      (mkReq g p i group 0 false accs) ∈ qs ∧ ∀ a ∈ accs, lineOf a.addr = e.2.line ∧ pageOf a.addr = e.2.page := by
    intro e he
    have : e.2 ∈ xs.map (·.2) := List.mem_map_of_mem he
    rw [hx2] at this
    obtain ⟨q, hq, e2⟩ := List.mem_map.mp this
    obtain ⟨accs, rfl, h5, h6⟩ := h2 q hq
    refine ⟨accs, _, e2.symm, h5, hq, ?_⟩
    rw [← e2]
    exact h6
  have hflat : xs.flatMap (fun e => e.2.accs) = qs.flatMap (fun q => q.accs) := by
    have : xs.flatMap (fun e => e.2.accs) = (xs.map (·.2)).flatMap (fun q => q.accs) := by rw [List.flatMap_map]
    rw [this, hx2, List.flatMap_map]
    rfl
  have hop : ∀ l ∈ g.trues h, (State.openLanes { s1 with reqs := s1.reqs ++ xs } g.w group).getLsbD l = true := by
    intro l hl
    have hl32 := (hmem l (Grp.mem_trues hl)).1
    have : l ∈ (xs.flatMap (fun e => e.2.accs)).map (fun a => a.lane) := by
      rw [hflat, (h1.map _).mem_iff, hlanes]; exact hl
    obtain ⟨a, ha, hal⟩ := List.mem_map.mp this
    obtain ⟨e, he, hae⟩ := List.mem_flatMap.mp ha
    obtain ⟨accs, w, h5, -, -, -⟩ := hmemx e he
    refine openLanes_bit _ g.w group l hl32 e.1 e.2 (List.mem_append_right _ he) (by rw [h5]; rfl) (by rw [h5]; rfl) ?_
    unfold Req.lanes
    rw [if_pos (by rw [h5]; rfl), lanesMask_bit _ _ hl32]
    exact decide_eq_true (List.mem_map.mpr ⟨a, hae, hal⟩)
  refine ⟨issues_of_reqs (xs := xs) hr ?_ ?_ ?_ ?_ hop ?_ rfl hk, rfl⟩
  · rw [hflat]; exact h1
  · intro e he
    obtain ⟨accs, w, h5, h6, -, h8⟩ := hmemx e he
    rw [h5] at h8 ⊢
    exact ⟨rfl, rfl, rfl, rfl, rfl, hp.1, hp.2, rfl, h6, h8⟩
  · intro hal e he
    obtain ⟨accs, w, h5, h6, h7, -⟩ := hmemx e he
    have := h3 hal _ h7
    rw [h5]
    exact this
  · intro hal
    have := h4 hal
    have e2 : xs.map (fun e => (e.2.line, e.2.page)) = qs.map (fun q => (q.line, q.page)) := by
      have : xs.map (fun e => (e.2.line, e.2.page)) = (xs.map (·.2)).map (fun q => (q.line, q.page)) := by rw [List.map_map]; rfl
      rw [this, hx2, List.map_map]
      rfl
    rw [e2]; exact this
  · intro h0
    obtain ⟨l, hl⟩ := List.exists_mem_of_ne_nil _ hG
    have := hop l hl
    rw [h0] at this
    simp at this

/-- The state before an instruction's requests, once its lanes have become `f` and its number is drawn. -/
theorem Ready.of_modLanes {s : State} {g : Grp} {h : Hdr} (hg : s.grp = some g) (f : Lane → Lane) :
    Ready s ((s.passFalse g h).modLanes g.w (g.trues h) f) g h f := (lanesResult_modLanes h hg f).ready

theorem Ready.tick {s t : State} {g : Grp} {h : Hdr} {f : Lane → Lane} (hr : Ready s t g h f) (n : Nat) (fs : NatMap FenceOp) :
    Ready s { t with tick := n, fences := fs } g h f := by
  refine ⟨?_, hr.others, hr.lanes, hr.warp⟩
  have := hr.frame
  rw [this]

theorem pass_lane {s : State} {g : Grp} (hg : s.grp = some g) (h : Hdr) : ∀ l ∈ g.trues h, ∃ la, g.wp.lane? l = some la := by
  obtain ⟨hw, -, -, hmem⟩ := State.grp_spec hg
  intro l hl
  obtain ⟨-, la, h3, -⟩ := hmem l (Grp.mem_trues hl)
  exact ⟨la, by simpa [State.lane?, hw] using h3⟩

theorem accOf_eq (s : State) (g : Grp) (m : MAddr) (i : MemI) (data : Nat → Nat) (G : List Nat) :
    mkAccs i.bytes data (G.map (fun l => (l, va57 ((s.laneRegs g l).addr m)))) = G.map (accOf s g m i data) := by
  rw [mkAccs_map]; rfl

/-- Requests that are appended after the lanes of a group have become `f` make the instruction issue. -/
theorem issues_addReqs {s s1 : State} {g : Grp} {h : Hdr} {f : Lane → Lane} {i : MemI} {st : ReqSt} {accs : List Acc} {k : Warp → Warp}
    {group clock : Nat} {op : Mask} (hr : Ready s s1 g h f) (qs : List Req)
    (hall : (qs.flatMap (fun q => q.accs)).Perm accs)
    (heach : ∀ q ∈ qs, q.kind = i.kind ∧ q.st = st ∧ q.warp = some g.w ∧ q.core = g.wp.core ∧
      q.block = some g.wp.block ∧ q.view = s.viewOf g.wp.block ∧ q.asid = s.asidOf g.wp.block ∧ q.pc = g.pc ∧
      q.accs ≠ [] ∧ ∀ a ∈ q.accs, lineOf a.addr = q.line ∧ pageOf a.addr = q.page)
    (halone : i.kind.alone = true → ∀ q ∈ qs, q.accs.length = 1)
    (hlines : i.kind.alone = false → (qs.map (fun q => (q.line, q.page))).Nodup)
    (hop : ∀ l ∈ g.trues h, op.getLsbD l = true) (hop0 : op ≠ 0) (hk : ∀ wp, k wp = wp.count i.kind true) :
    Issues s ((s1.addReqs qs).modWarp g.w (fun wp => (wp.addPend op i group clock g.pc).count i.kind true)) g h i f k st accs := by
  obtain ⟨xs, hx1, hx2⟩ := addReqs_spec s1 qs
  rw [hx1]
  have hm : ∀ e ∈ xs, ∃ q ∈ qs, ∃ w, e.2 = { q with word := w } := by
    intro e he
    have : e.2 ∈ xs.map (·.2) := List.mem_map_of_mem he
    rw [hx2] at this
    obtain ⟨q, hq, e2⟩ := List.mem_map.mp this
    exact ⟨q, hq, _, e2.symm⟩
  refine issues_of_reqs (xs := xs) hr ?_ ?_ ?_ ?_ hop hop0 rfl hk
  · have : xs.flatMap (fun e => e.2.accs) = (xs.map (·.2)).flatMap (fun q => q.accs) := by rw [List.flatMap_map]
    rw [this, hx2, List.flatMap_map]
    exact hall
  · intro e he
    obtain ⟨q, hq, w, e2⟩ := hm e he
    rw [e2]
    exact heach q hq
  · intro hal e he
    obtain ⟨q, hq, w, e2⟩ := hm e he
    rw [e2]
    exact halone hal q hq
  · intro hal
    have : xs.map (fun e => (e.2.line, e.2.page)) = (xs.map (·.2)).map (fun q => (q.line, q.page)) := by rw [List.map_map]; rfl
    rw [this, hx2, List.map_map]
    exact hlines hal

theorem mask_ne_zero {ls : List Nat} {m : Mask} (h : ls ≠ []) (hb : ∀ l ∈ ls, m.getLsbD l = true) : m ≠ 0 := by
  rintro rfl
  obtain ⟨l, hl⟩ := List.exists_mem_of_ne_nil _ h
  have := hb l hl
  simp at this

/-- The requests of `mkReqs`, as `issues_addReqs` wants them. -/
theorem mkReqs_each {s : State} {g : Grp} {i : MemI} {p : Who} (hp : p.view = s.viewOf g.wp.block ∧ p.asid = s.asidOf g.wp.block)
    (group : Nat) (data addr : Nat → Nat) (G : List Nat) :
    ∀ q ∈ mkReqs g p i group false data (G.map (fun l => (l, addr l))), q.kind = i.kind ∧ q.st = .waiting ∧ q.warp = some g.w ∧ q.core = g.wp.core ∧
      q.block = some g.wp.block ∧ q.view = s.viewOf g.wp.block ∧ q.asid = s.asidOf g.wp.block ∧ q.pc = g.pc ∧
      q.accs ≠ [] ∧ ∀ a ∈ q.accs, lineOf a.addr = q.line ∧ pageOf a.addr = q.page := by
  intro q hq
  obtain ⟨-, h2, -, -⟩ := mkReqs_spec g p i group false data addr G
  obtain ⟨accs, rfl, h5, h6⟩ := h2 q hq
  exact ⟨rfl, rfl, rfl, rfl, rfl, hp.1, hp.2, rfl, h5, h6⟩

theorem waits_issue {s : State} {g : Grp} {h : Hdr} {k : Warp → Warp} (hg : s.grp = some g) (hG : g.trues h ≠ []) (m : MAddr) (i : MemI)
    (data : Nat → Nat) (hc : Clear (s.passFalse g h) g (g.trues h) m i) (hk : ∀ wp, k wp = wp.count i.kind true) :
    ∃ n, Issues s ((s.passFalse g h).waitLanes g m i data (g.trues h)) g h i (fun la => { la with st := .memWait n }) k .waiting ((g.trues h).map (accOf s g m i data)) ∧
      ((s.passFalse g h).waitLanes g m i data (g.trues h)).fences = s.fences := by
  obtain ⟨-, -, -, hmem⟩ := State.grp_spec hg
  have hck := checkLanes_pass (s.passFalse g h) g _ m i (g.trues h) hc.pass
  unfold State.waitLanes
  dsimp only
  rw [hck]
  have hne : (g.trues h).map (fun l => (l, va57 (((s.passFalse g h).laneRegs g l).addr m))) ≠ [] := by simpa using hG
  dsimp only
  rw [if_neg hne]
  have e2 : ∀ s : State, s.trapEach g.w [] = s := fun _ => rfl
  rw [e2]
  have e1' : List.map (fun x => x.1) ((g.trues h).map (fun l => (l, va57 (((s.passFalse g h).laneRegs g l).addr m)))) = g.trues h := by
    rw [List.map_map]; exact List.map_id _
  rw [e1']
  have hr := (Ready.of_modLanes hg (h := h) (fun la => { la with st := .memWait (s.passFalse g h).tick })).tick ((s.passFalse g h).tick + 1) (s.passFalse g h).fences
  obtain ⟨h1, -, h3, h4⟩ := mkReqs_spec g ((s.passFalse g h).whoOf g) i (s.passFalse g h).tick false data (fun l => va57 (((s.passFalse g h).laneRegs g l).addr m)) (g.trues h)
  have hop : ∀ l ∈ g.trues h, (lanesMask (g.trues h)).getLsbD l = true := by
    intro l hl
    rw [lanesMask_bit _ _ (hmem l (Grp.mem_trues hl)).1]
    exact decide_eq_true hl
  refine ⟨(s.passFalse g h).tick, issues_addReqs hr _ ?_ (mkReqs_each ⟨rfl, rfl⟩ _ _ _ _) h3 h4 hop (mask_ne_zero hG hop) hk, ?_⟩
  · have := accOf_eq s g m i data (g.trues h)
    exact h1.trans (by rw [← this]; exact .refl _)
  · obtain ⟨xs, hx1, hx2⟩ := addReqs_spec (({ s.passFalse g h with tick := (s.passFalse g h).tick + 1 } : State).modLanes g.w (g.trues h) (fun la => { la with st := .memWait (s.passFalse g h).tick })) (mkReqs g ((s.passFalse g h).whoOf g) i (s.passFalse g h).tick false data ((g.trues h).map (fun l => (l, va57 (((s.passFalse g h).laneRegs g l).addr m)))))
    show (State.addReqs _ _).fences = _
    have : ∀ (s : State) qs, (s.addReqs qs).fences = s.fences := by
      intro s qs
      obtain ⟨xs, hx1, -⟩ := addReqs_spec s qs
      rw [hx1]
    rw [this]
    rfl

/-! ### Loads -/

theorem addReqs_fences (s : State) (qs : List Req) : (s.addReqs qs).fences = s.fences := by
  obtain ⟨xs, hx1, -⟩ := addReqs_spec s qs
  rw [hx1]

theorem loads_issue {s s1 : State} {g : Grp} {h : Hdr} {f : Lane → Lane} {k : Warp → Warp} (hG : g.trues h ≠ []) (hr : Ready s s1 g h f)
    (i : MemI) (group : Nat) (qs : List Req) {accs : List Acc}
    (hall : (qs.flatMap (fun q => q.accs)).Perm accs)
    (heach : ∀ q ∈ qs, q.kind = i.kind ∧ q.st = .waiting ∧ q.warp = some g.w ∧ q.core = g.wp.core ∧
      q.block = some g.wp.block ∧ q.view = s.viewOf g.wp.block ∧ q.asid = s.asidOf g.wp.block ∧ q.pc = g.pc ∧
      q.accs ≠ [] ∧ ∀ a ∈ q.accs, lineOf a.addr = q.line ∧ pageOf a.addr = q.page)
    (halone : i.kind.alone = true → ∀ q ∈ qs, q.accs.length = 1)
    (hlines : i.kind.alone = false → (qs.map (fun q => (q.line, q.page))).Nodup)
    (hgroup : ∀ q ∈ qs, q.group = group) (hop : ∀ l ∈ g.trues h, l < 32 ∧ ∃ q ∈ qs, q.lanes.getLsbD l = true)
    (hk : ∀ wp, k wp = wp.count i.kind true) :
    Issues s (s1.startLoads g i group qs) g h i f k .waiting accs ∧ (s1.startLoads g i group qs).fences = s1.fences ∧
      (s1.startLoads g i group qs).reqs = (s1.addReqs qs).reqs := by
  unfold State.startLoads
  have hb : ∀ l ∈ g.trues h, ((s1.addReqs qs).openLanes g.w group).getLsbD l = true := by
    intro l hl
    obtain ⟨hl32, q, hq, hbit⟩ := hop l hl
    obtain ⟨xs, hx1, hx2⟩ := addReqs_spec s1 qs
    have : ({ q with word := (s1.fetch.map (·.2)).getD q.word } : Req) ∈ xs.map (·.2) := by rw [hx2]; exact List.mem_map.mpr ⟨q, hq, rfl⟩
    obtain ⟨e, he, e2⟩ := List.mem_map.mp this
    refine openLanes_bit _ g.w group l hl32 e.1 e.2 (by rw [hx1]; exact List.mem_append_right _ he) (by rw [e2]; exact (heach q hq).2.2.1) (by rw [e2]; exact hgroup q hq) ?_
    rw [e2]
    exact hbit
  have h0 := mask_ne_zero hG hb
  dsimp only
  rw [if_neg h0]
  exact ⟨issues_addReqs hr qs hall heach halone hlines hb h0 hk, addReqs_fences _ _, rfl⟩

end Sys2Proof.Machine
end

