-- ==== Sys2Proof/Laws/Waits.lean ====
section
/-! SUPPORT. Laws of instructions that wait: transactions, releases that are due, waits on tags. -/

namespace Sys2Proof.Machine

theorem inTx_all {s : State} {g : Grp} {h : Hdr} (hg : s.grp = some g) (hx : ∀ l ∈ g.trues h, ∀ la, s.lane? g.w l = some la → la.tx ≠ none) :
    g.wp.inTx (g.trues h) = g.trues h ∧ g.wp.notTx (g.trues h) = [] := by
  have hw := State.warp?_of_grp hg
  have hp := pass_lane hg h
  unfold Warp.inTx Warp.notTx
  constructor
  · rw [List.filter_eq_self]
    intro l hl
    obtain ⟨la, e⟩ := hp l hl
    have := hx l hl la (by simpa [State.lane?, hw] using e)
    rw [e]
    cases ht : la.tx <;> simp_all
  · rw [List.filter_eq_nil_iff]
    intro l hl
    obtain ⟨la, e⟩ := hp l hl
    have := hx l hl la (by simpa [State.lane?, hw] using e)
    rw [e]
    cases ht : la.tx <;> simp_all

theorem notTx_all {s : State} {g : Grp} {h : Hdr} (hg : s.grp = some g) (hx : ∀ l ∈ g.trues h, ∀ la, s.lane? g.w l = some la → la.tx = none) :
    g.wp.notTx (g.trues h) = g.trues h ∧ g.wp.inTx (g.trues h) = [] := by
  have hw := State.warp?_of_grp hg
  have hp := pass_lane hg h
  unfold Warp.inTx Warp.notTx
  constructor
  · rw [List.filter_eq_self]
    intro l hl
    obtain ⟨la, e⟩ := hp l hl
    have := hx l hl la (by simpa [State.lane?, hw] using e)
    rw [e]; simp [this]
  · rw [List.filter_eq_nil_iff]
    intro l hl
    obtain ⟨la, e⟩ := hp l hl
    have := hx l hl la (by simpa [State.lane?, hw] using e)
    rw [e]; simp [this]

theorem illop_nil (s : State) (g : Grp) (r : Nat) : s.illopLanes g [] r = s := rfl
theorem abort_nil (s : State) (w c d : Nat) : s.abortLanes w [] c d = s := by
  unfold State.abortLanes
  show s.modWarp w (fun wp => wp) = s
  unfold State.modWarp; rw [mapModify_id]
theorem modLanes_nil (s : State) (w : Nat) (f : Lane → Lane) : s.modLanes w [] f = s := by
  show s.modWarp w (fun wp => wp) = s
  unfold State.modWarp; rw [mapModify_id]

theorem passFalse_openWrites (s : State) (g : Grp) (h : Hdr) (w : Nat) (m : Mask) : (s.passFalse g h).openWrites w m = s.openWrites w m := by
  unfold State.openWrites State.passFalse State.stepLanes State.modLanes
  rw [State.warp?_modWarp]
  have hr : ∀ (ls) (wp : Warp), (wp.modLanes ls Lane.step).replays = wp.replays := by
    intro ls wp; rw [Warp.modLanes_eq]
  congr 1
  by_cases e : w = g.w
  · rw [if_pos e]; cases s.warp? w <;> simp [hr]
  · rw [if_neg e]

/-- Instructions that end transactions run as they are where no lane is in one (R83). -/
theorem outsideTx_clear {s : State} {g : Grp} {h : Hdr} (hg : s.grp = some g) (hG : g.trues h ≠ [])
    (hx : ∀ l ∈ g.trues h, ∀ la, s.lane? g.w l = some la → la.tx = none) (u : State) (f : List Nat → State → State) :
    outsideTx g (g.trues h) u f = f (g.trues h) u := by
  obtain ⟨h1, h2⟩ := notTx_all hg hx
  unfold outsideTx
  rw [h1, h2, abort_nil]
  cases e : g.trues h with
  | nil => exact absurd e hG
  | cons => rfl

/-- A release that holds its lanes (R97, R106). -/
theorem holdRelease_spec {s : State} {g : Grp} {h : Hdr} (hg : s.grp = some g) (kind : Kind) (scope : Scope) (after : AfterRel) :
    let t := (s.passFalse g h).holdRelease g (g.trues h) kind scope after
    ∃ x, t.fences = s.fences ++ [(s.tick, x)] ∧
      LanesResult { s with fences := t.fences, tick := s.tick + 1 } t g (groupLane g h (fun _ la => { la with hold := .fence s.tick })) ∧
      x.warp = g.w ∧ x.lanes = lanesMask (g.trues h) ∧ x.kind = kind ∧ x.scope = scope ∧ x.spec = false ∧ x.after = after ∧ x.pc = g.pc ∧
      x.loads = s.openLoads g.w (lanesMask (g.trues h)) ∧ x.writes = s.openWrites g.w (lanesMask (g.trues h)) ∧ x.saved = [] := by
  intro t
  refine ⟨_, rfl, ?_, rfl, rfl, rfl, rfl, rfl, rfl, rfl, passFalse_openLoads _ _ _ _ _, passFalse_openWrites _ _ _ _ _, rfl⟩
  exact (lanesResult_modLanes h hg (fun la => { la with hold := .fence s.tick })).besides
    (fun u => { u with fences := t.fences, tick := s.tick + 1 }) (fun _ _ => rfl)

theorem mem_maskLanes (m : Mask) (l : Nat) : l ∈ maskLanes m ↔ l < 32 ∧ m.getLsbD l = true := by
  unfold maskLanes; rw [List.mem_filter, mem_upTo]

theorem fenceAdvance_due {s : State} {n : Nat} {f : FenceOp} {wp : Warp} (_hw : s.warp? f.warp = some wp)
    (hl : ∀ x ∈ f.loads, x ∉ s.openLoads f.warp f.lanes)
    (hr : f.kind = .acq ∨ ((∀ x ∈ f.writes, x ∉ s.openWrites f.warp f.lanes) ∧ f.step = 4 ∧
        f.until_ ≤ s.gtimeAt (placeCore wp.core))) : s.fenceAdvance n f wp = (s, true) := by
  unfold State.fenceAdvance
  have h1 : (s.openLoads f.warp f.lanes).any (· ∈ f.loads) = false := by
    rw [List.any_eq_false]; intro x hx; simp only [decide_eq_true_eq]; intro hm; exact hl x hm hx
  rw [h1]
  simp only [Bool.false_eq_true, if_false]
  by_cases hk : f.kind = .acq
  · rw [if_pos hk]
  · rw [if_neg hk]
    rcases hr with hr | ⟨h2, h3, h4⟩
    · exact absurd hr hk
    · have h5 : (s.openWrites f.warp f.lanes).any (· ∈ f.writes) = false := by
        rw [List.any_eq_false]; intro x hx; simp only [decide_eq_true_eq]; intro hm; exact h2 x hm hx
      rw [h5]
      simp only [Bool.false_eq_true, if_false, h3]
      simpa using h4

theorem acq_then {s : State} {g : Grp} {h : Hdr} (hg : s.grp = some g) (f : Lane → Lane) :
    WarpResult s (((s.passFalse g h).acquire g.w (lanesMask (g.trues h))).modLanes g.w (g.trues h) f) g (groupLane g h (fun _ => f))
      { g.wp with acquire := g.wp.acquire ++ (s.openLoads g.w (lanesMask (g.trues h))).map (fun y => (lanesMask (g.trues h), y)) } := by
  have := (lanesResult_modLanes h hg f).thenWarp (fun wp => { wp with acquire := wp.acquire ++ (s.openLoads g.w (lanesMask (g.trues h))).map (fun x => (lanesMask (g.trues h), x)) }) (fun _ _ => rfl)
  unfold State.acquire
  rw [passFalse_openLoads, modWarp_modLanes]
  · exact this
  · intro _ _; rfl

theorem mem_maskTags (m : DWord) (n : Nat) : n ∈ maskTags m ↔ n < 64 ∧ m.getLsbD n = true := by
  unfold maskTags; rw [List.mem_filter, mem_upTo]

theorem maskBelow_iff (m : DWord) (t : Nat) : maskBelow m t = true ↔ ∀ n, n < 64 ∧ m.getLsbD n = true → n < t := by
  unfold maskBelow
  simp only [List.all_eq_true, mem_maskTags, decide_eq_true_eq]

theorem bad_spec (tag : Nat → Tag) (m : DWord) :
    (((maskTags m).filter (fun n => (tag n).ready)).findSome? (fun n => (tag n).failed) = none ∧
        ∀ n, n < 64 ∧ m.getLsbD n = true → (tag n).ready = true → (tag n).failed = none) ∨
    ∃ n a e, (n < 64 ∧ m.getLsbD n = true) ∧ (tag n).ready = true ∧ (tag n).failed = some (a, e) ∧
      ((maskTags m).filter (fun n => (tag n).ready)).findSome? (fun n => (tag n).failed) = some (a, e) := by
  cases hb : ((maskTags m).filter (fun n => (tag n).ready)).findSome? (fun n => (tag n).failed) with
  | none =>
    left
    refine ⟨rfl, fun n hn hr => ?_⟩
    rw [List.findSome?_eq_none_iff] at hb
    exact hb n (List.mem_filter.mpr ⟨(mem_maskTags m n).mpr hn, hr⟩)
  | some x =>
    right
    obtain ⟨n, hn, hx⟩ := List.exists_of_findSome?_eq_some hb
    obtain ⟨h1, h2⟩ := List.mem_filter.mp hn
    exact ⟨n, x.1, x.2, (mem_maskTags m n).mp h1, h2, hx, rfl⟩

theorem tagWaitOf_all (tag : Nat → Tag) (m : DWord) :
    ((∀ n, n < 64 ∧ m.getLsbD n = true → (tag n).ready = true ∧ (tag n).failed = none) → tagWaitOf tag true m = .passes) ∧
    ((∃ n, (n < 64 ∧ m.getLsbD n = true) ∧ ¬ (tag n).ready = true) → tagWaitOf tag true m = .waits) ∧
    (((∀ n, n < 64 ∧ m.getLsbD n = true → (tag n).ready = true) ∧ ∃ n, (n < 64 ∧ m.getLsbD n = true) ∧ ¬ (tag n).failed = none) →
      ∃ n a e, (n < 64 ∧ m.getLsbD n = true) ∧ (tag n).ready = true ∧ (tag n).failed = some (a, e) ∧ tagWaitOf tag true m = .fails a e) := by
  have hall : (maskTags m).all (fun n => (tag n).ready) = true ↔ ∀ n, n < 64 ∧ m.getLsbD n = true → (tag n).ready = true := by
    simp only [List.all_eq_true, mem_maskTags]
  unfold tagWaitOf
  dsimp only
  simp only [if_true]
  refine ⟨fun h => ?_, fun ⟨n, hn, hr⟩ => ?_, fun ⟨h, n, hn, hf⟩ => ?_⟩
  · rw [if_pos (hall.mpr (fun n hn => (h n hn).1))]
    rcases bad_spec tag m with ⟨h1, -⟩ | ⟨n, a, e, h1, h2, h3, -⟩
    · rw [h1]; rfl
    · rw [(h n h1).2] at h3; cases h3
  · rw [if_neg (fun hx => hr (hall.mp hx n hn))]
  · rw [if_pos (hall.mpr h)]
    rcases bad_spec tag m with ⟨-, h2⟩ | ⟨n, a, e, h1, h2, h3, h4⟩
    · exact absurd (h2 n hn (h n hn)) hf
    · exact ⟨n, a, e, h1, h2, h3, by rw [h4]; rfl⟩

theorem tagWaitOf_any (tag : Nat → Tag) (m : DWord) :
    ((∃ n, (n < 64 ∧ m.getLsbD n = true) ∧ (tag n).ready = true ∧ (tag n).failed = none) → tagWaitOf tag false m = .passes) ∧
    ((∀ n, n < 64 ∧ m.getLsbD n = true → ¬ (tag n).ready = true) → tagWaitOf tag false m = .waits) ∧
    (((∃ n, (n < 64 ∧ m.getLsbD n = true) ∧ (tag n).ready = true) ∧ ∀ n, n < 64 ∧ m.getLsbD n = true → (tag n).ready = true → ¬ (tag n).failed = none) →
      ∃ n a e, (n < 64 ∧ m.getLsbD n = true) ∧ (tag n).ready = true ∧ (tag n).failed = some (a, e) ∧ tagWaitOf tag false m = .fails a e) := by
  have hany : (maskTags m).any (fun n => (tag n).ready && (tag n).failed.isNone) = true ↔ ∃ n, (n < 64 ∧ m.getLsbD n = true) ∧ (tag n).ready = true ∧ (tag n).failed = none := by
    simp only [List.any_eq_true, mem_maskTags, Bool.and_eq_true, Option.isNone_iff_eq_none]
  unfold tagWaitOf
  dsimp only
  simp only [Bool.false_eq_true, if_false]
  refine ⟨fun h => ?_, fun h => ?_, fun ⟨⟨n, hn, hr⟩, h⟩ => ?_⟩
  · rw [if_pos (hany.mpr h)]
  · rw [if_neg (fun hx => by obtain ⟨n, h1, h2, -⟩ := hany.mp hx; exact h n h1 h2)]
    rcases bad_spec tag m with ⟨h1, -⟩ | ⟨n, a, e, h1, h2, -, -⟩
    · rw [h1]; rfl
    · exact absurd h2 (h n h1)
  · rw [if_neg (fun hx => by obtain ⟨n, h1, h2, h3⟩ := hany.mp hx; exact h n h1 h2 h3)]
    rcases bad_spec tag m with ⟨-, h2⟩ | ⟨n, a, e, h1, h2, h3, h4⟩
    · exact absurd (h2 n hn hr) (h n hn hr)
    · exact ⟨n, a, e, h1, h2, h3, by rw [h4]; rfl⟩

theorem lowestSet_spec (tag : Nat → Tag) (m : DWord) (n : Nat)
    (h : ((n < 64 ∧ m.getLsbD n = true) ∧ (tag n).ready = true ∧ ∀ j, j < 64 ∧ m.getLsbD j = true → (tag j).ready = true → n ≤ j) ∨
      (n = 64 ∧ ∀ j, j < 64 ∧ m.getLsbD j = true → ¬ (tag j).ready = true)) : lowestSet tag m = n := by
  unfold lowestSet maskTags
  rw [List.find?_filter, upTo_eq]
  rcases h with ⟨h1, h2, h3⟩ | ⟨rfl, h2⟩
  · have : (List.range 64).find? (fun a => m.getLsbD a && (tag a).ready) = some n := by
      rw [List.find?_range_eq_some]
      refine ⟨by simp [h1.2, h2], List.mem_range.mpr h1.1, fun j hj => ?_⟩
      by_contra hc
      simp only [Bool.not_eq_true', Bool.not_eq_false, Bool.and_eq_true] at hc
      have := h3 j ⟨by omega, hc.1⟩ hc.2
      omega
    simp only [Bool.decide_and, Bool.decide_eq_true]
    rw [this]; rfl
  · have : (List.range 64).find? (fun a => m.getLsbD a && (tag a).ready) = none := by
      rw [List.find?_eq_none]
      intro j hj
      rw [List.mem_range] at hj
      simp only [Bool.and_eq_true, not_and]
      exact fun hm => h2 j ⟨hj, hm⟩
    simp only [Bool.decide_and, Bool.decide_eq_true]
    rw [this]; rfl

end Sys2Proof.Machine
end

