-- ==== Sys2Proof/Laws/Copies.lean ====
section
/-! SUPPORT. What entering an operation of a copy, and its ranges, leaves (R73, R75, R284). -/

set_option linter.unusedSimpArgs false
set_option linter.unusedVariables false

namespace Sys2Proof.Machine

/-- Appending one item for each lane. -/
theorem foldl_append {α β : Type} (f : α → β) (F : State × List β → α → State × List β) (G : List α) (s : State)
    (hF : ∀ x ∈ G, ∀ xs, F (s, xs) x = (s, xs ++ [f x])) (xs : List β) : G.foldl F (s, xs) = (s, xs ++ G.map f) := by
  induction G generalizing xs with
  | nil => simp
  | cons x G ih =>
    rw [List.foldl_cons, hF x (by simp), ih (fun y hy => hF y (by simp [hy]))]
    simp

/-- A table with a free entry has a lowest one. -/
theorem freeLock_some (m : NatMap RangeLock) (c : Cluster) (hc : c.locks = m) (e : Nat) (h : e < 32) (hn : mapGet? m e = none) : ∃ x, c.freeLock = some x := by
  unfold Cluster.freeLock
  cases hf : (upTo 32).find? (fun i => (mapGet? c.locks i).isNone) with
  | some x => exact ⟨x, rfl⟩
  | none =>
    rw [List.find?_eq_none] at hf
    have := hf e ((mem_upTo _ _).mpr h)
    rw [hc, hn] at this
    simp at this

/-- Entering a range takes the lowest free entry. -/
theorem putLock_spec (s : State) (cl : Nat) (lk : RangeLock) {x : Nat} (h : (s.cluster cl).freeLock = some x) :
    ∃ lk', s.putLock cl lk = (s.modCluster cl (fun c => { c with locks := mapSet c.locks x lk' }), [x]) := by
  unfold State.putLock
  rw [h]
  exact ⟨_, rfl⟩

/-- The two ranges of a copy take two free entries of its cluster. -/
theorem lockCopy_spec (s : State) (op : CopyOp) (sp : Nat × Nat) (hs : op.srcSpan = some sp) (e e' : Nat) (h1 : e < 32) (h2 : e' < 32) (hne : e' ≠ e)
    (hn : mapGet? (s.cluster op.cluster).locks e = none) (hn' : mapGet? (s.cluster op.cluster).locks e' = none) :
    ∃ cs a b, s.lockCopy op = ({ s with clusters := cs }, [a, b]) ∧ ∀ k, k ≠ op.cluster → mapGetD cs k Cluster.reset = s.cluster k := by
  obtain ⟨x, hx⟩ := freeLock_some _ (s.cluster op.cluster) rfl e h1 hn
  unfold State.lockCopy
  rw [hs]
  dsimp only
  obtain ⟨lk, hlk⟩ := putLock_spec s op.cluster { view := op.view, asid := op.asid, lo := sp.1, hi := sp.2, kind := op.kind.lockKind, dest := false } hx
  rw [hlk]
  dsimp only
  have hc1 : (s.modCluster op.cluster (fun c => { c with locks := mapSet c.locks x lk })).cluster op.cluster = { s.cluster op.cluster with locks := mapSet (s.cluster op.cluster).locks x lk } :=
    mapGetD_mapSet_self _ _ _ _
  have : ∃ y, ((s.modCluster op.cluster (fun c => { c with locks := mapSet c.locks x lk })).cluster op.cluster).freeLock = some y := by
    rw [hc1]
    by_cases hxe : x = e
    · exact freeLock_some _ _ rfl e' h2 (by rw [mapGet?_mapSet, if_neg (by rw [hxe]; exact hne), hn'])
    · exact freeLock_some _ _ rfl e h1 (by rw [mapGet?_mapSet, if_neg (fun h => hxe h.symm), hn])
  obtain ⟨y, hy⟩ := this
  obtain ⟨lk2, hlk2⟩ := putLock_spec _ op.cluster { view := op.view, asid := op.asid, lo := op.dstSpan.1, hi := op.dstSpan.2, kind := op.kind.lockKind, dest := true } hy
  rw [hlk2]
  refine ⟨_, x, y, rfl, fun k hk => ?_⟩
  show mapGetD (mapSet _ op.cluster _) k _ = _
  rw [mapGetD_mapSet_ne _ _ _ hk]
  exact mapGetD_mapSet_ne _ _ _ hk

/-- A queued operation of a lane that stands at it, and that waits for no page, issues in its turn. -/
theorem pushCopy_queued (s : State) (k : Nat) (o : CopyOp) (e : mapGet? s.copies k = some o) (h1 : o.st = .queued)
    (h3 : o.paused = none) (hh : s.copyHeld o = (true, true)) :
    s.pushCopy k = if s.copyTurn k o then s.issueCopy k o else s := by
  unfold State.pushCopy
  simp [e, h1, h3, hh]

/-- An operation of a lane that stands at it is checked in its turn, and issues where its checks pass. -/
theorem pushCopy_checks {s t : State} {k : Nat} {o o' : CopyOp} (e : mapGet? s.copies k = some o) (h1 : o.st = .checks)
    (h3 : o.paused = none) (hh : s.copyHeld o = (true, true)) (ht : s.checkCopy k o = t) (e' : mapGet? t.copies k = some o')
    (h1' : o'.st = .queued) (h3' : o'.paused = none) (hh' : t.copyHeld o' = (true, true)) :
    s.pushCopy k = if s.copyTurn k o then (if t.copyTurn k o' then t.issueCopy k o' else t) else s := by
  unfold State.pushCopy
  by_cases hc : s.copyTurn k o = true
  · simp [e, h1, h3, hh, hc, ht, e', h1', h3', hh']
  · simp [e, h1, h3, hh, hc]

/-- The second of a pair is of the second list. -/
theorem mem_zip_right {α β : Type} {xs : List α} {ys : List β} {e : α × β} (h : e ∈ xs.zip ys) : e.2 ∈ ys := (List.of_mem_zip h).2

/-- The first of a pair is of the first list. -/
theorem mem_zip_left {α β : Type} {xs : List α} {ys : List β} {e : α × β} (h : e ∈ xs.zip ys) : e.1 ∈ xs := (List.of_mem_zip h).1

end Sys2Proof.Machine
end

