-- ==== Sys2Proof/Laws/Exit.lean ====
section
/-! SUPPORT. What lanes that exit leave: they are exited, and others change only where they wait for them (R12, R145, R229). -/

set_option linter.unusedSimpArgs false
set_option linter.unusedVariables false

namespace Sys2Proof.Machine

/-- No lane of a list stands in a block-barrier arrival list. -/
def NoBar (s : State) (w : Nat) (L : List Nat) : Prop := ∀ e ∈ s.blocks, ∀ a ∈ e.2.barArrived, a.1 = w → a.2 ∉ L

/-- What does not end a lane of another warp, nor park one. -/
structure Calm (w : Nat) (L : List Nat) (s t : State) : Prop where
  bar : NoBar s w L → NoBar t w L
  lanes : NoBar s w L → ∀ l ∈ L, ∀ la, s.lane? w l = some la → (la.st = .runnable ∨ la.st = .exited) → t.lane? w l = some la
  some_ : ∀ l, (s.lane? w l).isSome → (t.lane? w l).isSome
  arr : ∀ b, (∀ bl, s.block? b = some bl → bl.arrivals = []) → ∀ bl, t.block? b = some bl → bl.arrivals = []

/-- Nothing changed. -/
theorem Calm.refl (w : Nat) (L : List Nat) (s : State) : Calm w L s s := ⟨id, fun _ _ _ _ h _ => h, fun _ => id, fun _ => id⟩

/-- One after the other. -/
theorem Calm.trans {w : Nat} {L : List Nat} {s t u : State} (h : Calm w L s t) (h' : Calm w L t u) : Calm w L s u :=
  ⟨fun hb => h'.bar (h.bar hb), fun hb l hl la e hs => h'.lanes (h.bar hb) l hl la (h.lanes hb l hl la e hs) hs, fun l hl => h'.some_ l (h.some_ l hl),
    fun b hb => h'.arr b (h.arr b hb)⟩

/-- Changes in turn. -/
theorem calm_foldl {w : Nat} {L : List Nat} {α : Type} (f : State → α → State) (hf : ∀ s a, Calm w L s (f s a)) (xs : List α) (s : State) :
    Calm w L s (xs.foldl f s) := by
  induction xs generalizing s with
  | nil => exact .refl _ _ s
  | cons x xs ih => exact (hf s x).trans (ih _)

/-- From what is read of warps and blocks. -/
theorem calm_parts {w : Nat} {L : List Nat} {s t : State} (h1 : t.blocks = s.blocks) (h2 : t.warps = s.warps) : Calm w L s t := by
  have : ∀ l, t.lane? w l = s.lane? w l := by intro l; unfold State.lane? State.warp?; rw [h2]
  refine ⟨fun h => by unfold NoBar; rw [h1]; exact h, fun _ l _ la e _ => by rw [this]; exact e, fun l hl => by rw [this]; exact hl, fun b hb bl e => hb bl ?_⟩
  unfold State.block? at e ⊢
  rw [← h1]; exact e

/-- What a changed map holds. -/
theorem mem_mapModify {α : Type} {m : NatMap α} {k : Nat} {f : α → α} {e : Nat × α} (h : e ∈ mapModify m k f) :
    ∃ e' ∈ m, e = e' ∨ e = (e'.1, f e'.2) := by
  unfold mapModify at h
  obtain ⟨e', h1, h2⟩ := List.mem_map.mp h
  refine ⟨e', h1, ?_⟩
  split at h2
  · exact Or.inr h2.symm
  · exact Or.inl h2.symm

/-- A change of a block that adds no arrival. -/
theorem calm_modBlock {w : Nat} {L : List Nat} (s : State) (b : Nat) (f : Block → Block)
    (h1 : ∀ bl, ∀ a ∈ (f bl).barArrived, a ∈ bl.barArrived) (h2 : ∀ bl, bl.arrivals = [] → (f bl).arrivals = []) : Calm w L s (s.modBlock b f) := by
  refine ⟨fun h e he a ha hw => ?_, fun _ _ _ _ e _ => e, fun _ h => h, fun c hc bl e => ?_⟩
  · obtain ⟨e', h3, rfl | rfl⟩ := mem_mapModify he
    · exact h _ h3 a ha hw
    · exact h e' h3 a (h1 _ a ha) hw
  · rw [State.block?_modBlock] at e
    split at e
    · cases h3 : s.block? c with
      | none => rw [h3] at e; cases e
      | some bl' =>
        rw [h3] at e
        cases e
        exact h2 _ (hc _ h3)
    · exact hc bl e

/-- Lanes that a change of a warp keeps. -/
theorem calm_modWarp {w : Nat} {L : List Nat} (s : State) (v : Nat) (f : Warp → Warp)
    (hf : ∀ wp l la, v = w → l ∈ L → wp.lane? l = some la → (la.st = .runnable ∨ la.st = .exited) → (f wp).lane? l = some la)
    (hs : ∀ wp l, (wp.lane? l).isSome → ((f wp).lane? l).isSome) : Calm w L s (s.modWarp v f) := by
  refine ⟨id, fun _ l hl la e hst => ?_, fun l hl => ?_, fun b hb => hb⟩
  · unfold State.lane? at e ⊢
    rw [State.warp?_modWarp]
    split
    · rename_i h
      cases h2 : s.warp? w with
      | none => rw [h2] at e; cases e
      | some wp => rw [h2] at e; exact hf wp l la h.symm hl e hst
    · exact e
  · unfold State.lane? at hl ⊢
    rw [State.warp?_modWarp]
    split
    · cases h2 : s.warp? w with
      | none => rw [h2] at hl; cases hl
      | some wp => rw [h2] at hl; exact hs wp l hl
    · exact hl

/-- A change of a sequencer. -/
theorem calm_modTenant {w : Nat} {L : List Nat} (s : State) (t : Nat) (f : Tenant → Tenant) : Calm w L s (s.modTenant t f) := calm_parts rfl rfl

/-- A change of lanes keeps which lanes there are. -/
theorem Warp.isSome_modLanes (ls : List Nat) (wp : Warp) (f : Lane → Lane) (l : Nat) (h : (wp.lane? l).isSome) : ((wp.modLanes ls f).lane? l).isSome := by
  induction ls generalizing wp with
  | nil => exact h
  | cons k ls ih =>
    refine ih (wp.modLane k f) ?_
    rw [Warp.lane?_modLane]
    split
    · cases e : wp.lane? l <;> simp_all
    · exact h

/-- The lanes that wait at a mask are listed once. -/
theorem Warp.waiting_nodup (wp : Warp) (n : Nat) : (wp.waiting n).Nodup := (nodup_upTo 32).filter _

/-- A lane that does not wait at the mask is kept by a release (R12). -/
theorem Warp.tryRelease_keeps (wp : Warp) (n c l : Nat) (la : Lane) (h : wp.lane? l = some la) (hst : la.st = .runnable ∨ la.st = .exited) :
    (wp.tryRelease n c).lane? l = some la := by
  unfold Warp.tryRelease
  dsimp only
  split
  · show (Warp.modLanes _ _ _).lane? l = _
    rw [Warp.lane?_modLanes _ (Warp.waiting_nodup _ _), if_neg, h]
    intro hm
    unfold Warp.waiting at hm
    rw [List.mem_filter, h] at hm
    rcases hst with h | h <;> simp [h] at hm
  · exact h

/-- A release keeps which lanes there are. -/
theorem Warp.tryRelease_some (wp : Warp) (n c l : Nat) (h : (wp.lane? l).isSome) : ((wp.tryRelease n c).lane? l).isSome := by
  unfold Warp.tryRelease
  dsimp only
  split
  · exact Warp.isSome_modLanes _ _ _ _ h
  · exact h

/-- A lane that waits at no mask is kept when others leave the masks. -/
theorem Warp.leaveMasks_keeps (wp : Warp) (ls : List Nat) (c l : Nat) (la : Lane) (h : wp.lane? l = some la) (hst : la.st = .runnable ∨ la.st = .exited) :
    (wp.leaveMasks ls c).lane? l = some la := by
  unfold Warp.leaveMasks
  generalize upTo 8 = ns
  induction ns generalizing wp with
  | nil => exact h
  | cons n ns ih => exact ih _ (Warp.tryRelease_keeps _ _ _ _ _ h hst)

/-- Leaving the masks keeps which lanes there are. -/
theorem Warp.leaveMasks_some (wp : Warp) (ls : List Nat) (c l : Nat) (h : (wp.lane? l).isSome) : ((wp.leaveMasks ls c).lane? l).isSome := by
  unfold Warp.leaveMasks
  generalize upTo 8 = ns
  induction ns generalizing wp with
  | nil => exact h
  | cons n ns ih => exact ih _ (Warp.tryRelease_some _ _ _ _ h)

/-- Leaving every rejoin mask (R12). -/
theorem calm_leaveMasks {w : Nat} {L : List Nat} (s : State) (v : Nat) (ls : List Nat) : Calm w L s (s.modWarp v (fun wp => wp.leaveMasks ls (s.clock wp.core))) :=
  calm_modWarp _ _ _ (fun wp l la _ _ h hst => Warp.leaveMasks_keeps _ _ _ _ _ h hst) (fun wp l h => Warp.leaveMasks_some _ _ _ _ h)

/-- A lane that does not wait in `barw` is kept by its release. -/
theorem Warp.releaseBarw_lane (wp : Warp) (n l : Nat) : (wp.releaseBarw n).lane? l = (wp.lane? l).map (fun la =>
      match la.st with
      | .barw n' _ => if n' = n then { la with st := .runnable, pc := la.pc + 16 } else la
      | _ => la) := by
  unfold Warp.releaseBarw Warp.lane?
  exact List.getElem?_map ..

/-- The release of a barrier's waiters (R145). -/
theorem calm_releaseBarw {w : Nat} {L : List Nat} (s : State) (b r n : Nat) : Calm w L s (s.releaseBarw b r n) := by
  unfold State.releaseBarw
  split
  · exact .refl _ _ _
  · dsimp only
    refine Calm.trans ?_ (calm_foldl _ (by intro s t; exact calm_modTenant _ _ _) _ _)
    refine calm_foldl _ (by
      intro s v
      refine calm_modWarp _ _ _ (fun wp l la _ _ h hst => ?_) (fun wp l h => ?_)
      · split
        · rw [Warp.releaseBarw_lane, h]
          rcases hst with h | h <;> simp [h]
        · exact h
      · split
        · rw [Warp.releaseBarw_lane]; cases e : wp.lane? l <;> simp_all
        · exact h) _ _

/-- A change of a barrier. -/
theorem calm_modNbar {w : Nat} {L : List Nat} (s : State) (b r n : Nat) (f : NBar → NBar) : Calm w L s (s.modNbar b r n f) :=
  calm_modBlock _ _ _ (by intro bl a h; exact h) (by intro bl h; exact h)

/-- Leaving the numbered barriers (R145). -/
theorem calm_leaveNbars {w : Nat} {L : List Nat} (s : State) (b p : Nat) : Calm w L s (s.leaveNbars b p) := by
  unfold State.leaveNbars
  split
  · exact .refl _ _ s
  · refine calm_foldl _ (fun s e => ?_) _ _
    dsimp only
    split
    · refine (calm_modNbar s b (e.1 / 32) (e.1 % 32) (fun nb => { nb with e := nb.e - 1 })).trans ?_
      unfold State.checkNbar
      dsimp only
      split
      · exact (calm_modNbar _ _ _ _ (fun nb => { nb with a := 0, p := !nb.p, arrived := [] })).trans (calm_releaseBarw _ _ _ _)
      · exact .refl _ _ _
    · exact .refl _ _ _

/-- What a map gives for a key, it holds. -/
theorem mem_of_mapGet? {α : Type} {m : NatMap α} {k : Nat} {v : α} (h : mapGet? m k = some v) : (k, v) ∈ m := by
  induction m with
  | nil => cases h
  | cons e m ih =>
    obtain ⟨k', v'⟩ := e
    simp only [mapGet?] at h
    split at h
    · rename_i hk; cases h; subst hk; simp
    · exact List.mem_cons_of_mem _ (ih h)

/-- Looking whether the block barrier completes (R291). -/
theorem calm_tryBar {w : Nat} {L : List Nat} (s : State) (b : Nat) : Calm w L s (s.tryBar b) := by
  unfold State.tryBar
  split
  · exact .refl _ _ s
  · rename_i bl hbl
    dsimp only
    split
    · have hm : Calm w L s (s.mergeHorizons bl) := by
        unfold State.mergeHorizons
        exact calm_foldl _ (by intro s v; exact calm_modWarp _ _ _ (fun wp l la _ _ h _ => h) (fun wp l h => h)) _ _
      have hb2 : (s.mergeHorizons bl).blocks = s.blocks := by
        unfold State.mergeHorizons
        generalize bl.warps = ws
        have : ∀ (ws : List Nat) (s : State) f, (ws.foldl (fun s w => s.modWarp w f) s).blocks = s.blocks := by
          intro ws
          induction ws with
          | nil => intros; rfl
          | cons v ws ih => intro s f; exact ih _ _
        exact this _ _ _
      refine ⟨fun h => ?_, fun h l hl la e hst => ?_, fun l hl => ?_, fun c hc => ?_⟩
      · have key : ∀ (xs : List (Nat × Nat)) (u : State), NoBar u w L → NoBar (xs.foldl (fun s wl => s.modLane wl.1 wl.2 (fun la => { la with st := .runnable, pc := la.pc + 16 })) u) w L := by
          intro xs
          induction xs with
          | nil => intro u h; exact h
          | cons x xs ih => intro u h; exact ih _ h
        have h1 := key bl.barArrived _ (hm.bar h)
        exact (calm_modBlock (w := w) (L := L) _ b (fun bl => { bl with barArrived := [] }) (by intro bl a ha; cases ha) (by intro bl h; exact h)).bar h1
      · have hno : ∀ x ∈ bl.barArrived, x.1 = w → x.2 ≠ l := by
          intro x hx hxw e
          exact h _ (mem_of_mapGet? hbl) x hx hxw (e ▸ hl)
        have key : ∀ (xs : List (Nat × Nat)) (u : State), (∀ x ∈ xs, x.1 = w → x.2 ≠ l) → u.lane? w l = some la →
            (xs.foldl (fun s wl => s.modLane wl.1 wl.2 (fun la => { la with st := .runnable, pc := la.pc + 16 })) u).lane? w l = some la := by
          intro xs
          induction xs with
          | nil => intro u _ h; exact h
          | cons x xs ih =>
            intro u hx hu
            refine ih _ (fun y hy => hx y (by simp [hy])) ?_
            have := State.lane?_modLanes u x.1 [x.2] (List.nodup_singleton _) (fun la => { la with st := .runnable, pc := la.pc + 16 }) l
            unfold State.modLane
            unfold State.lane? at hu ⊢
            rw [State.warp?_modWarp]
            split
            · rename_i hw
              cases h2 : u.warp? w with
              | none => rw [h2] at hu; cases hu
              | some wp =>
                rw [h2] at hu
                show (wp.modLane x.2 _).lane? l = _
                rw [Warp.lane?_modLane, if_neg (fun e => hx x (by simp) hw.symm e.symm)]
                exact hu
            · exact hu
        exact key _ _ hno (hm.lanes h l hl la e hst)
      · have key : ∀ (xs : List (Nat × Nat)) (u : State), (u.lane? w l).isSome →
            ((xs.foldl (fun s wl => s.modLane wl.1 wl.2 (fun la => { la with st := .runnable, pc := la.pc + 16 })) u).lane? w l).isSome := by
          intro xs
          induction xs with
          | nil => intro u h; exact h
          | cons x xs ih =>
            intro u hu
            refine ih _ ?_
            exact (calm_modWarp (L := []) u x.1 (fun wp => wp.modLane x.2 (fun la => { la with st := .runnable, pc := la.pc + 16 })) (fun wp l la _ hl => by cases hl) (fun wp k hk => Warp.isSome_modLanes [x.2] _ _ _ hk)).some_ l hu
        exact key _ _ (hm.some_ l hl)
      · intro bl' e
        have key : ∀ (xs : List (Nat × Nat)) (u : State), (xs.foldl (fun s wl => s.modLane wl.1 wl.2 (fun la => { la with st := .runnable, pc := la.pc + 16 })) u).blocks = u.blocks := by
          intro xs
          induction xs with
          | nil => intro u; rfl
          | cons x xs ih => intro u; exact ih _
        rw [State.block?_modBlock] at e
        have e2 : ∀ c, (bl.barArrived.foldl (fun s wl => s.modLane wl.1 wl.2 (fun la => { la with st := .runnable, pc := la.pc + 16 })) (s.mergeHorizons bl)).block? c = s.block? c := by
          intro c; unfold State.block?; rw [key, hb2]
        rw [e2] at e
        split at e
        · cases h3 : s.block? c with
          | none => rw [h3] at e; cases e
          | some b2 =>
            rw [h3] at e; cases e
            exact hc b2 h3
        · exact hc _ e
    · exact .refl _ _ s

/-- What a lane holds once it has exited. -/
def Lane.ended (la : Lane) : Lane := { la with st := .exited, hold := .none, tx := none, inHandler := false }

/-- One lane exits: it is exited, and no other lane that waits for nothing changes (R229). -/
theorem exitLane_spec (s : State) (w m : Nat) (L : List Nat) (hm : m ∉ L) : Calm w L s (s.exitLane w m) ∧
    (NoBar s w [m] → NoBar (s.exitLane w m) w [m]) ∧
    (NoBar s w [m] → (∃ la, s.lane? w m = some la ∧ la.st ≠ .exited) →
      ∃ la, (s.exitLane w m).lane? w m = some la ∧ la.st = .exited ∧ la.tx = none ∧ la.hold = .none ∧ la.inHandler = false) := by
  unfold State.exitLane
  split
  · rename_i hno
    exact ⟨.refl _ _ s, id, fun _ ⟨la, h1, _⟩ => by simp [State.lane?, hno] at h1⟩
  · rename_i wp hwp
    split
    · rename_i hno
      exact ⟨.refl _ _ s, id, fun _ ⟨la, h1, _⟩ => by simp [State.lane?, hwp, hno] at h1⟩
    · rename_i la0 hla0
      split
      · rename_i hex
        exact ⟨.refl _ _ s, id, fun _ ⟨la, h1, h2⟩ => by
          simp [State.lane?, hwp, hla0] at h1
          subst h1
          exact absurd hex h2⟩
      · dsimp only
        set s1 := s.modWarp w (fun wp => wp.leaveMasks [m] (s.clock wp.core)) with hs1
        set s2 := s1.leaveNbars wp.block (partyLane wp.index m) with hs2
        set s3 := s2.withdraw w m with hs3
        have c12 : ∀ L, Calm w L s s3 := fun L => ((calm_leaveMasks s w [m]).trans (calm_leaveNbars s1 _ _)).trans (calm_parts rfl rfl)
        have c4 : Calm w L s3 (s3.modLane w m (fun la => { la with st := .exited, hold := .none, tx := none, inHandler := false })) := by
          refine calm_modWarp _ _ _ (fun wp l la _ hl h _ => ?_) (fun wp l h => Warp.isSome_modLanes [m] wp _ l h)
          have hne : l ≠ m := fun e => hm (by rw [← e]; exact hl)
          rw [Warp.lane?_modLane, if_neg hne]
          exact h
        have c5 : ∀ L (u : State), Calm w L u ((u.modBlock wp.block (fun bl => bl.forget w m)).tryBar wp.block) := by
          intro L u
          refine Calm.trans ?_ (calm_tryBar _ _)
          refine calm_modBlock u wp.block (fun bl => bl.forget w m) (by
            intro bl a ha
            exact (List.mem_filter.mp ha).1) (by
            intro bl h
            simp [Block.forget, h])
        refine ⟨((c12 L).trans c4).trans (c5 L _), fun hb => (c5 [m] _).bar ((c12 [m]).bar hb), fun hb ⟨la, h1, h2⟩ => ?_⟩
        have h3 := (c12 [m]).some_ m (by rw [h1]; rfl)
        obtain ⟨la3, h4⟩ := Option.isSome_iff_exists.mp h3
        have h5 : (s3.modLane w m (fun la => { la with st := .exited, hold := .none, tx := none, inHandler := false })).lane? w m =
            some { la3 with st := .exited, hold := .none, tx := none, inHandler := false } := by
          have := State.lane?_modLanes s3 w [m] (List.nodup_singleton _) (fun la => { la with st := .exited, hold := .none, tx := none, inHandler := false }) m
          rw [if_pos (by simp), h4] at this
          exact this
        exact ⟨_, (c5 [m] (s3.modLane w m (fun la => { la with st := .exited, hold := .none, tx := none, inHandler := false }))).lanes ((c12 [m]).bar hb) m (by simp) _ h5 (Or.inr rfl), rfl, rfl, rfl, rfl⟩

/-- Several lanes exit. -/
theorem exitLanes_spec (w : Nat) (G : List Nat) (hn : G.Nodup) (s : State) (L : List Nat) (hd : ∀ m ∈ G, m ∉ L) (hb : NoBar s w (L ++ G))
    (hr : ∀ m ∈ G, ∃ la, s.lane? w m = some la ∧ la.st = .runnable) :
    Calm w L s (s.exitLanes w G) ∧
      ∀ m ∈ G, ∃ la, (s.exitLanes w G).lane? w m = some la ∧ la.st = .exited ∧ la.tx = none ∧ la.hold = .none ∧ la.inHandler = false := by
  induction G generalizing s L with
  | nil => exact ⟨.refl _ _ s, fun m hm => by cases hm⟩
  | cons m G ih =>
    obtain ⟨h1, h2⟩ := List.nodup_cons.mp hn
    have sub : ∀ L', (∀ x ∈ L', x ∈ L ++ m :: G) → NoBar s w L' := fun L' h e he a ha hw hx => hb e he a ha hw (h _ hx)
    have hmL : m ∉ L := hd m (by simp)
    obtain ⟨c1, -, -⟩ := exitLane_spec s w m (L ++ G) (by simp [hmL, h1])
    obtain ⟨cL, n1, e1⟩ := exitLane_spec s w m L hmL
    obtain ⟨c0, -, -⟩ := exitLane_spec s w m G h1
    obtain ⟨la0, hla0, hst0⟩ := hr m (by simp)
    obtain ⟨la1, hla1, hx⟩ := e1 (sub [m] (by simp)) ⟨la0, hla0, by rw [hst0]; simp⟩
    have hbar : NoBar (s.exitLane w m) w ((m :: L) ++ G) := by
      have h3 := c1.bar (sub (L ++ G) (by intro x hx; simp at hx ⊢; tauto))
      -- lane m: forgotten or never there
      intro e he a ha hw hmem
      simp only [List.cons_append, List.mem_cons] at hmem
      rcases hmem with h4 | h4
      · exact n1 (sub [m] (by simp)) e he a ha hw (by simp [h4])
      · exact h3 e he a ha hw h4
    have hrun : ∀ k ∈ G, ∃ la, (s.exitLane w m).lane? w k = some la ∧ la.st = .runnable := by
      intro k hk
      obtain ⟨la, h3, h4⟩ := hr k (by simp [hk])
      exact ⟨la, c0.lanes (sub G (by intro x hx; simp [hx])) k hk la h3 (Or.inl h4), h4⟩
    obtain ⟨c2, e2⟩ := ih h2 (s.exitLane w m) (m :: L) (by
      intro k hk; simp only [List.mem_cons, not_or]; exact ⟨fun e => h1 (e ▸ hk), hd k (by simp [hk])⟩) hbar hrun
    have e : s.exitLanes w (m :: G) = (s.exitLane w m).exitLanes w G := rfl
    rw [e]
    have c2L : Calm w L (s.exitLane w m) ((s.exitLane w m).exitLanes w G) := by
      have := ih h2 (s.exitLane w m) L (fun k hk => hd k (by simp [hk])) (fun e he a ha hw hx => hbar e he a ha hw (by simp at hx ⊢; tauto)) hrun
      exact this.1
    refine ⟨cL.trans c2L, fun k hk => ?_⟩
    rcases List.mem_cons.mp hk with rfl | hk
    · exact ⟨la1, c2.lanes (fun e he a ha hw hx => hbar e he a ha hw (by simp at hx ⊢; tauto)) k (by simp) la1 hla1 (Or.inr hx.1), hx⟩
    · exact e2 k hk

end Sys2Proof.Machine
end

