-- ==== Sys2Proof/Laws/Guard.lean ====
section
/-! SUPPORT. What an instruction whose guard is false for its group, or for its sequencer, leaves (R6, R292). -/

set_option linter.unusedSimpArgs false
set_option linter.unusedVariables false

namespace Sys2Proof.Machine

/-- Where a group runs no sequencer does … -/
theorem seq_of_grp {s : State} {g : Grp} (h : s.grp = some g) : s.seq = none := by
  unfold State.grp at h
  unfold State.seq
  split at h <;> first | contradiction | skip
  rename_i hc
  rw [hc]

/-- … and where a sequencer runs no group does. -/
theorem grp_of_seq {s : State} {n : Nat} (h : s.seq = some n) : s.grp = none := by
  unfold State.seq at h
  unfold State.grp
  split at h <;> first | contradiction | skip
  rename_i hc
  rw [hc]

/-- A group with no guard-true lane passes as a whole. -/
theorem passFalse_none {s : State} {g : Grp} {h : Hdr} (hG : g.trues h = []) : s.passFalse g h = s.stepLanes g.w g.lanes := by
  unfold State.passFalse; rw [hG]; simp

/-- An instruction of groups with no guard-true lane only advances the group. -/
theorem onGroup_passes {s : State} {g : Grp} {h : Hdr} {top : Nat} (hg : s.grp = some g) (hG : g.trues h = [])
    (f : Grp → List Nat → State → State) : Host.Outcome.next (onGroup h top s f) = (Host.Outcome.next (s.stepLanes g.w g.lanes) : Out) := by
  rw [onGroup_none hg hG, passFalse_none hG]

/-- Changing a warp into itself changes nothing. -/
theorem modWarp_id (s : State) (w : Nat) : s.modWarp w (fun wp => wp) = s := by
  unfold State.modWarp
  rw [mapModify_id]

/-- An instruction that computes on registers, with no guard-true lane, only advances the group. -/
theorem aluCk_passes {s : State} {g : Grp} {h : Hdr} {top : Nat} (hg : s.grp = some g) (hG : g.trues h = []) (ok : Bool)
    (f : List Regs → Regs → List Wr) : Host.Outcome.next (aluCk h top ok f s) = (Host.Outcome.next (s.stepLanes g.w g.lanes) : Out) := by
  unfold aluCk
  simp only [hg]
  split
  · rw [hG]; simp [State.illopLanes, State.trapLanes]
  · simp only [State.views', hG, List.map_nil]
    have : (fun wp : Warp => wp.writes [] (f [])) = fun wp => wp := by
      funext wp; rfl
    rw [this, modWarp_id]

/-- The sequencer has gone on by one word, and nothing else has changed. -/
def SeqSteps (s : State) (n : Nat) (te : Tenant) (o : Out) : Prop := ∃ t, o = .next t ∧ OnlyTenant s t n ∧ t.tenant? n = some { te with pc := te.pc + 16 }

/-- A change of a tenant changes nothing else. -/
theorem onlyTenant_mod (s : State) (n : Nat) (f : Tenant → Tenant) : OnlyTenant s (s.modTenant n f) n := by
  refine ⟨rfl, fun v hv => ?_⟩
  exact mapGet?_mapModify_ne _ _ hv

/-- A sequencer that goes on by one word. -/
theorem seqSteps_modTenant {s : State} {n : Nat} {te : Tenant} {f : Tenant → Tenant} (hs : SeqRuns s n te) (hf : f te = { te with pc := te.pc + 16 }) :
    SeqSteps s n te (.next (s.modTenant n f)) := by
  refine ⟨_, rfl, onlyTenant_mod _ _ _, ?_⟩
  have := hs.tenant
  unfold State.tenant? at this ⊢
  unfold State.modTenant
  rw [mapGet?_mapModify_self, this, Option.map_some, hf]

/-- An instruction of sequencers whose guard is false only advances the sequencer. -/
theorem onSeq_passes {s : State} {n : Nat} {te : Tenant} {h : Hdr} (hs : SeqRuns s n te) (hf : guardOf h te.pred = false)
    (f : Tenant → State → State) : SeqSteps s n te (Host.Outcome.next (onSeq h n s f)) := by
  unfold onSeq
  simp only [hs.tenant]
  rw [if_neg (by simp [hf])]
  exact seqSteps_modTenant hs rfl

/-- An instruction that computes on registers, with a false guard, only advances the sequencer. -/
theorem aluCk_steps {s : State} {n : Nat} {te : Tenant} {h : Hdr} {top : Nat} (hs : SeqRuns s n te) (hf : guardOf h te.pred = false) (ok : Bool)
    (f : List Regs → Regs → List Wr) : SeqSteps s n te (Host.Outcome.next (aluCk h top ok f s)) := by
  unfold aluCk
  simp only [hs.seq, hs.tenant, grp_of_seq hs.seq]
  unfold State.stepSeq State.modTenant
  rw [mapModify_mapModify]
  exact seqSteps_modTenant (f := fun x => _) hs (by simp [hf])

end Sys2Proof.Machine
end

