-- ==== Sys2Proof/Laws/Issue.lean ====
section
/-! SUPPORT. What issuing a candidate, and looking for one, leaves (R7, R8). -/

set_option linter.unusedSimpArgs false
set_option linter.unusedVariables false

namespace Sys2Proof.Machine

/-- What does not read the cursor does not change it. -/
theorem setReg_cursor (s : State) (o : Nat) (v : DWord) : (s.setReg o v).cursor = s.cursor := by
  rfl

/-- A partition of a core as it was changed … -/
theorem modPart_part (s : State) (k j : Nat) (f : Part → Part) : (s.modPart k j f).part k j = f (s.part k j) := by
  unfold State.modPart State.part State.modCore State.core
  simp

/-- … and the others as they were. -/
theorem modPart_other (s : State) (k j k' j' : Nat) (f : Part → Part) (h : k' ≠ k ∨ j' ≠ j) : (s.modPart k j f).part k' j' = s.part k' j' := by
  unfold State.modPart State.part State.modCore State.core
  by_cases hk : k' = k
  · subst hk
    have hj : j' ≠ j := by rcases h with h | h; exact absurd rfl h; exact h
    simp [mapGetD_mapSet_ne _ _ _ hj]
  · simp [mapGetD_mapSet_ne _ _ _ hk]

/-- Equal changes of a partition. -/
theorem modPart_congr (s : State) (k j : Nat) (f : Part → Part) : s.modPart k j f = s.modPart k j (fun _ => f (s.part k j)) := rfl

/-- A change of a partition keeps the cursor. -/
theorem modPart_cursor (s : State) (k j : Nat) (f : Part → Part) : (s.modPart k j f).cursor = s.cursor := rfl

/-- A change of a warp keeps the cursor. -/
theorem modWarp_cursor (s : State) (w : Nat) (f : Warp → Warp) : (s.modWarp w f).cursor = s.cursor := rfl

/-- Counting keeps the cursor. -/
theorem bump_cursor (s : State) (a b : Nat) : (s.bump a b).cursor = s.cursor := rfl

/-- A change of a partition keeps the context of a block. -/
theorem modPart_ctx (s : State) (k j : Nat) (f : Part → Part) (b : Nat) : (s.modPart k j f).ctxIdOf b = s.ctxIdOf b := rfl

/-- A change of a warp keeps the context of a block. -/
theorem modWarp_ctx (s : State) (k : Nat) (f : Warp → Warp) (b : Nat) : (s.modWarp k f).ctxIdOf b = s.ctxIdOf b := rfl

/-- Counting keeps the context of a block. -/
theorem bump_ctx (s : State) (k j : Nat) (b : Nat) : (s.bump k j).ctxIdOf b = s.ctxIdOf b := rfl

/-- Accepting a candidate keeps the cursor. -/
theorem acceptCand_cursor (s : State) (k j t : Nat) (c : ICand) : (s.acceptCand k j t c).1.cursor = s.cursor := by
  unfold State.acceptCand
  split <;> rfl

/-- What an issue leaves in the warps keeps the cursor. -/
theorem issuedWarps_cursor (s : State) (k j t : Nat) (c : ICand) (all : List ICand) (cls : Nat) :
    (s.issuedWarps k j t c all cls).cursor = s.cursor := rfl

/-- An issued candidate is what the next step runs. -/
theorem issue_spec (s : State) (k j t : Nat) (c : ICand) (all : List ICand) :
    ∃ u : State, s.issue k j t c all = u.histEvent k j 2 0 c.pc (some (s.ctxIdOf c.wp.block)) ∧
        u.cursor = s.cursor ++ [.group c.w (lanesMask c.lanes)] := by
  unfold State.issue
  refine ⟨_, rfl, ?_⟩
  show ((s.acceptCand k j t c).1.issuedWarps k j t c all (s.acceptCand k j t c).2).cursor ++ _ = _
  rw [issuedWarps_cursor, acceptCand_cursor]

/-- The candidate that a partition takes is one of its candidates. -/
theorem pickCand_spec (t : Nat) (batch : Option (Nat × Nat)) (cs : List ICand) (c : ICand) :
    ∃ r, cs.foldl (fun b c => match b with
    | none => some c
    | some d => if c.rank t batch < d.rank t batch then some c else some d) (some c) = some r ∧ (r = c ∨ r ∈ cs) ∧ r.rank t batch ≤ c.rank t batch ∧
      ∀ d ∈ cs, r.rank t batch ≤ d.rank t batch := by
  induction cs generalizing c with
  | nil => exact ⟨c, rfl, .inl rfl, le_refl _, by simp⟩
  | cons d cs ih =>
    rw [List.foldl_cons]
    dsimp only
    by_cases h : d.rank t batch < c.rank t batch
    · rw [if_pos h]
      obtain ⟨r, e, hm, hl, ha⟩ := ih d
      refine ⟨r, e, ?_, by omega, ?_⟩
      · rcases hm with hm | hm <;> simp [hm]
      · intro x hx; rcases List.mem_cons.1 hx with rfl | hx; exact hl; exact ha x hx
    · rw [if_neg h]
      obtain ⟨r, e, hm, hl, ha⟩ := ih c
      refine ⟨r, e, ?_, hl, ?_⟩
      · rcases hm with hm | hm <;> simp [hm]
      · intro x hx; rcases List.mem_cons.1 hx with rfl | hx; omega; exact ha x hx

/-- A candidate that has waited longest. -/
theorem pickAged (ctr : ICand → Nat) (gs : List ICand) (g : ICand) :
    let r := gs.foldl (fun b g => if ctr b < ctr g then g else b) g
    (r = g ∨ r ∈ gs) ∧ ctr g ≤ ctr r ∧ ∀ d ∈ gs, ctr d ≤ ctr r := by
  induction gs generalizing g with
  | nil => exact ⟨.inl rfl, le_refl _, by simp⟩
  | cons d gs ih =>
    intro r
    have hr : r = gs.foldl (fun b g => if ctr b < ctr g then g else b) (if ctr g < ctr d then d else g) := rfl
    obtain ⟨h1, h2, h3⟩ := ih (if ctr g < ctr d then d else g)
    rw [← hr] at h1 h2 h3
    split at h1 <;> rename_i hc
    · rw [if_pos hc] at h2
      refine ⟨by rcases h1 with h | h <;> simp [h], by omega, ?_⟩
      intro x hx; rcases List.mem_cons.1 hx with rfl | hx; exact h2; exact h3 x hx
    · rw [if_neg hc] at h2
      refine ⟨by rcases h1 with h | h <;> simp [h], by omega, ?_⟩
      intro x hx; rcases List.mem_cons.1 hx with rfl | hx; omega; exact h3 x hx

end Sys2Proof.Machine
end

