-- ==== Sys2Proof/Laws/Kill.lean ====
section
/-! SUPPORT. What the exit of lanes and of sequencers keeps of the marks of killed blocks. -/

set_option linter.unusedSimpArgs false
set_option linter.unusedVariables false

namespace Sys2Proof.Machine

/-- What an exit of lanes leaves alone: grids, why blocks were killed, which tenants there are, and what stands in
their queues. -/
structure KeepsKills (s t : State) : Prop where
  grids : t.grids = s.grids
  killed : ∀ b, (t.block? b).map (fun bl => bl.killed) = (s.block? b).map (fun bl => bl.killed)
  tenants : ∀ n, (t.tenant? n).map (fun te => te.queue) = (s.tenant? n).map (fun te => te.queue)

/-- Nothing changed. -/
theorem KeepsKills.refl (s : State) : KeepsKills s s := ⟨rfl, fun _ => rfl, fun _ => rfl⟩

/-- One after the other. -/
theorem KeepsKills.trans {s t u : State} (h : KeepsKills s t) (h' : KeepsKills t u) : KeepsKills s u :=
  ⟨h'.grids.trans h.grids, fun b => (h'.killed b).trans (h.killed b), fun n => (h'.tenants n).trans (h.tenants n)⟩

/-- From what is read of blocks and grids. -/
theorem KeepsKills.of_parts {s t : State} (h1 : t.grids = s.grids) (h2 : t.blocks = s.blocks) (h3 : t.tenants = s.tenants) : KeepsKills s t :=
  ⟨h1, fun b => by unfold State.block?; rw [h2], fun n => by unfold State.tenant?; rw [h3]⟩

/-- A change of a block that keeps its mark. -/
theorem keepsKills_modBlock (s : State) (b : Nat) (f : Block → Block) (hf : ∀ bl, (f bl).killed = bl.killed) : KeepsKills s (s.modBlock b f) := by
  refine ⟨rfl, fun c => ?_, fun _ => rfl⟩
  rw [State.block?_modBlock]
  split
  · cases s.block? c <;> simp [hf]
  · rfl

/-- A change of a barrier. -/
theorem keepsKills_modNbar (s : State) (b r n : Nat) (f : NBar → NBar) : KeepsKills s (s.modNbar b r n f) :=
  keepsKills_modBlock _ _ _ (by intro bl; rfl)

/-- A change of a sequencer that keeps its queue. -/
theorem keepsKills_modTenant (s : State) (b : Nat) (f : Tenant → Tenant) (hf : ∀ te, (f te).queue = te.queue) : KeepsKills s (s.modTenant b f) := by
  refine ⟨rfl, fun c => rfl, fun n => ?_⟩
  rw [State.tenant?_modTenant]
  split
  · cases s.tenant? n <;> simp [hf]
  · rfl

/-- Changes in turn. -/
theorem keepsKills_foldl {α : Type} (f : State → α → State) (hf : ∀ s a, KeepsKills s (f s a)) (xs : List α) (s : State) : KeepsKills s (xs.foldl f s) := by
  induction xs generalizing s with
  | nil => exact .refl s
  | cons x xs ih => exact (hf s x).trans (ih _)

/-- A change of a warp. -/
theorem keepsKills_modWarp (s : State) (w : Nat) (f : Warp → Warp) : KeepsKills s (s.modWarp w f) := .of_parts rfl rfl rfl

/-- Looking whether a barrier completes (R145). -/
theorem keepsKills_checkNbar (s : State) (b r n : Nat) : KeepsKills s (s.checkNbar b r n) := by
  unfold State.checkNbar
  dsimp only
  split
  · refine (keepsKills_modNbar s b r n (fun nb => { nb with a := 0, p := !nb.p, arrived := [] })).trans ?_
    unfold State.releaseBarw
    split
    · exact .refl _
    · dsimp only
      refine KeepsKills.trans ?_ (keepsKills_foldl _ (by intro s w; exact keepsKills_modTenant _ _ _ (fun te => by split <;> [(split <;> rfl); rfl])) _ _)
      exact keepsKills_foldl _ (by intro s w; exact keepsKills_modWarp _ _ _) _ _
  · exact .refl s

/-- Leaving the numbered barriers (R145). -/
theorem keepsKills_leaveNbars (s : State) (b p : Nat) : KeepsKills s (s.leaveNbars b p) := by
  unfold State.leaveNbars
  split
  · exact .refl s
  · refine keepsKills_foldl _ (fun s e => ?_) _ _
    dsimp only
    split
    · exact (keepsKills_modNbar _ _ _ _ _).trans (keepsKills_checkNbar _ _ _ _)
    · exact .refl s

/-- Looking whether the block barrier completes (R291). -/
theorem keepsKills_tryBar (s : State) (b : Nat) : KeepsKills s (s.tryBar b) := by
  unfold State.tryBar
  split
  · exact .refl s
  · dsimp only
    split
    · refine KeepsKills.trans ?_ (keepsKills_modBlock _ _ _ (by intro bl; rfl))
      refine KeepsKills.trans ?_ (keepsKills_foldl _ (by intro s w; exact keepsKills_modWarp _ _ _) _ _)
      unfold State.mergeHorizons
      exact keepsKills_foldl _ (by intro s w; exact keepsKills_modWarp _ _ _) _ _
    · exact .refl s

/-- The exit of a lane (R229). -/
theorem keepsKills_exitLane (s : State) (w l : Nat) : KeepsKills s (s.exitLane w l) := by
  unfold State.exitLane
  split
  · exact .refl s
  · split
    · exact .refl s
    · split
      · exact .refl s
      · dsimp only
        refine KeepsKills.trans ?_ (keepsKills_tryBar _ _)
        refine KeepsKills.trans ?_ (keepsKills_modBlock _ _ _ (by intro bl; rfl))
        refine KeepsKills.trans ?_ (keepsKills_modWarp _ _ _)
        refine KeepsKills.trans (t := ((s.modWarp w _).leaveNbars _ _)) ?_ (KeepsKills.of_parts rfl rfl rfl)
        exact (keepsKills_modWarp _ _ _).trans (keepsKills_leaveNbars _ _ _)

/-- The end of a sequencer keeps its queue. -/
theorem stopSeq_queue (s : State) (n : Nat) : KeepsKills s (s.stopSeq n) :=
  keepsKills_modTenant _ _ _ (fun te => by split <;> rfl)

/-- Every sequencer of a killed block has ended, and its queue stands (R375, step 1 of R149). -/
theorem stopAll (ns : List Nat) (s : State) :
    let t := ns.foldl (fun s n => s.stopSeq n) s
    t.grids = s.grids ∧ t.blocks = s.blocks ∧
    (∀ n te, s.tenant? n = some te → ∃ te', t.tenant? n = some te' ∧ te'.queue = te.queue ∧
      ((te.st = .stopped ∨ te.st = .exited) → (te'.st = .stopped ∨ te'.st = .exited))) ∧
    ∀ n ∈ ns, ∀ te, s.tenant? n = some te → ∃ te', t.tenant? n = some te' ∧ te'.queue = te.queue ∧ (te'.st = .stopped ∨ te'.st = .exited) := by
  induction ns generalizing s with
  | nil => exact ⟨rfl, rfl, fun n te h => ⟨te, h, rfl, fun h => h⟩, fun n hn => by simp at hn⟩
  | cons n ns ih =>
    have key : ∀ m te, s.tenant? m = some te → ∃ te', (s.stopSeq n).tenant? m = some te' ∧ te'.queue = te.queue ∧
       ((m = n ∨ te.st = .stopped ∨ te.st = .exited) → te'.st = .stopped ∨ te'.st = .exited) := by
      intro m te hte
      unfold State.stopSeq
      rw [State.tenant?_modTenant, hte]
      by_cases hm : m = n
      · simp only [hm, if_true, Option.map_some]
        refine ⟨_, rfl, ?_, fun _ => ?_⟩ <;> split <;> simp_all
      · simp only [if_neg hm]
        exact ⟨te, rfl, rfl, fun h => h.resolve_left hm⟩
    obtain ⟨h1, h2, h3, h4⟩ := ih (s.stopSeq n)
    dsimp only
    rw [List.foldl_cons]
    refine ⟨h1, h2, fun m te hm => ?_, fun m hm te hte => ?_⟩
    · obtain ⟨te', h5, h6, h7⟩ := key m te hm
      obtain ⟨u, h8, h9, h10⟩ := h3 m te' h5
      exact ⟨u, h8, h9.trans h6, fun h => h10 (h7 (.inr h))⟩
    · obtain ⟨te', h5, h6, h7⟩ := key m te hte
      rcases List.mem_cons.mp hm with rfl | hm
      · obtain ⟨u, h8, h9, h10⟩ := h3 _ te' h5
        exact ⟨u, h8, h9.trans h6, h10 (h7 (.inl rfl))⟩
      · obtain ⟨u, h8, h9, h10⟩ := h4 m hm te' h5
        exact ⟨u, h8, h9.trans h6, h10⟩

end Sys2Proof.Machine
end

