-- ==== Sys2Proof/Laws/Registers.lean ====
section
/-! SUPPORT. Reading and writing the registers of BAR0, and the maps with rising keys that hold them. -/

namespace Sys2Proof.Machine

/-- Writing a key of a map with rising keys: it reads as written, with its own default. -/
theorem get_mapPut_self {α : Type} [DecidableEq α] (d : α) (m : NatMap α) (h : (m.map (·.1)).Pairwise (· < ·)) (k : Nat) (v : α) :
    mapGetD (mapPut d m k v) k d = v := by
  unfold mapGetD
  induction m with
  | nil => unfold mapPut; split <;> simp_all [mapGet?]
  | cons e m ih =>
    obtain ⟨a, x⟩ := e
    rw [List.map_cons, List.pairwise_cons] at h
    have hnone : ∀ (m : NatMap α), (∀ b ∈ m.map (·.1), k < b) → mapGet? m k = none := by
      intro m
      induction m with
      | nil => intro _; rfl
      | cons e m ih =>
        intro hb
        obtain ⟨b, y⟩ := e
        unfold mapGet?
        rw [if_neg (by have := hb b (by simp); omega)]
        exact ih (fun c hc => hb c (by simp at hc ⊢; exact .inr hc))
    unfold mapPut
    split
    · rename_i hk
      split
      · rename_i hv
        have : mapGet? ((a, x) :: m) k = none := hnone _ (by
          intro b hb; simp only [List.map_cons, List.mem_cons] at hb
          rcases hb with rfl | hb
          · exact hk
          · have := h.1 b hb; simp only at this; omega)
        rw [this, hv]; rfl
      · simp [mapGet?]
    · split
      · rename_i hk
        split
        · rename_i hv
          have : mapGet? m k = none := hnone _ (fun b hb => by have := h.1 b hb; simp only at this; omega)
          rw [this, hv]; rfl
        · simp [mapGet?]
      · rename_i hk
        unfold mapGet?
        rw [if_neg hk]
        exact ih h.2

/-- … and no other key changes. -/
theorem get_mapPut_ne {α : Type} [DecidableEq α] (d : α) (m : NatMap α) (k j : Nat) (hj : j ≠ k) (v : α) :
    mapGet? (mapPut d m k v) j = mapGet? m j := by
  induction m with
  | nil => unfold mapPut; split <;> simp [mapGet?, hj]
  | cons e m ih =>
    obtain ⟨a, x⟩ := e
    unfold mapPut
    split
    · split
      · rfl
      · show (if j = k then some v else mapGet? ((a, x) :: m) j) = _
        rw [if_neg hj]
    · split
      · rename_i hk
        subst hk
        split
        · show mapGet? m j = if j = k then some x else mapGet? m j
          rw [if_neg hj]
        · show (if j = k then some v else mapGet? m j) = if j = k then some x else mapGet? m j
          rw [if_neg hj, if_neg hj]
      · show (if j = a then some x else mapGet? (mapPut d m k v) j) = if j = a then some x else mapGet? m j
        rw [ih]

/-- Writing keeps rising keys, and adds at most the key written. -/
theorem keys_mapPut {α : Type} [DecidableEq α] (d : α) (m : NatMap α) (h : (m.map (·.1)).Pairwise (· < ·)) (k : Nat) (v : α) :
    ((mapPut d m k v).map (·.1)).Pairwise (· < ·) ∧ ∀ b ∈ (mapPut d m k v).map (·.1), b = k ∨ b ∈ m.map (·.1) := by
  induction m with
  | nil => unfold mapPut; split <;> simp
  | cons e m ih =>
    obtain ⟨a, x⟩ := e
    have h0 := h
    rw [List.map_cons, List.pairwise_cons] at h
    obtain ⟨ih1, ih2⟩ := ih h.2
    unfold mapPut
    split
    · rename_i hk
      split
      · exact ⟨h0, fun b hb => .inr hb⟩
      · refine ⟨?_, ?_⟩
        · rw [List.map_cons, List.pairwise_cons]
          refine ⟨?_, h0⟩
          intro b hb
          simp only [List.map_cons, List.mem_cons] at hb
          rcases hb with rfl | hb
          · exact hk
          · have := h.1 b hb; simp only at this ⊢; omega
        · intro b hb
          rw [List.map_cons, List.mem_cons] at hb
          exact hb
    · split
      · rename_i hk
        split
        · exact ⟨h.2, fun b hb => .inr (by simp at hb ⊢; exact .inr hb)⟩
        · refine ⟨?_, ?_⟩
          · rw [List.map_cons, List.pairwise_cons]
            exact ⟨fun b hb => by have := h.1 b hb; simp only at this ⊢; omega, h.2⟩
          · intro b hb
            rw [List.map_cons, List.mem_cons] at hb
            rcases hb with hb | hb
            · exact .inl hb
            · exact .inr (by rw [List.map_cons, List.mem_cons]; exact .inr hb)
      · rename_i hk1 hk2
        refine ⟨?_, ?_⟩
        · rw [List.map_cons, List.pairwise_cons]
          refine ⟨fun b hb => ?_, ih1⟩
          rcases ih2 b hb with rfl | hb
          · simp only; omega
          · exact h.1 b hb
        · intro b hb
          rw [List.map_cons, List.mem_cons] at hb
          rcases hb with hb | hb
          · exact .inr (by rw [List.map_cons, List.mem_cons]; exact .inl hb)
          · rcases ih2 b hb with hb | hb
            · exact .inl hb
            · exact .inr (by rw [List.map_cons, List.mem_cons]; exact .inr hb)

/-- Reading a map of which only some keys were kept. -/
theorem get_filter {α : Type} (m : NatMap α) (p : Nat → Bool) (a : Nat) : mapGet? (m.filter (fun e => p e.1)) a = if p a then mapGet? m a else none := by
  induction m with
  | nil => simp [mapGet?]
  | cons e m ih =>
    obtain ⟨k, x⟩ := e
    by_cases hk : a = k
    · subst hk
      by_cases hp : p a
      · simp [hp, mapGet?]
      · simp only [List.filter_cons, hp]; rw [if_neg (by simp), ih]; simp [hp]
    · by_cases hp : p k
      · simp only [List.filter_cons, hp, if_true]
        unfold mapGet?; rw [if_neg hk, if_neg hk]; exact ih
      · simp only [List.filter_cons, hp]; rw [if_neg (by simp)]
        rw [ih]; simp [mapGet?, hk]

/-- A key that was removed reads as nothing. -/
theorem mapGet?_erase {α : Type} (m : NatMap α) (k : Nat) : mapGet? (mapErase m k) k = none := by
  unfold mapErase
  have := get_filter m (fun x => x ≠ k) k
  rw [this]; simp

/-- The other keys read as before. -/
theorem mapGet?_erase_ne {α : Type} (m : NatMap α) (k j : Nat) (h : j ≠ k) : mapGet? (mapErase m k) j = mapGet? m j := by
  unfold mapErase
  have := get_filter m (fun x => x ≠ k) j
  rw [this]; simp [h]

/-- A register reads as it was written … -/
theorem reg_setReg_self (s : State) (h : (s.bar0.map (·.1)).Pairwise (· < ·)) (o : Nat) (v : DWord) : (s.setReg o v).reg o = v :=
  get_mapPut_self _ _ h _ _
/-- … and no other register changes. -/
theorem reg_setReg_ne (s : State) (o o' : Nat) (h : o' ≠ o) (v : DWord) : (s.setReg o v).reg o' = s.reg o' := by
  unfold State.reg State.setReg mapGetD
  rw [get_mapPut_ne _ _ _ _ h]
/-- A write keeps the list of written registers in rising order. -/
theorem setReg_sorted (s : State) (h : (s.bar0.map (·.1)).Pairwise (· < ·)) (o : Nat) (v : DWord) : ((s.setReg o v).bar0.map (·.1)).Pairwise (· < ·) :=
  (keys_mapPut _ _ h _ _).1

/-- A change of a queue changes no register. -/
theorem modQueue_reg (s : State) (q : Nat) (f : Queue → Queue) (o : Nat) : (s.modQueue q f).reg o = s.reg o := rfl
/-- A queue is as it was changed. -/
theorem modQueue_self (s : State) (q : Nat) (f : Queue → Queue) : (s.modQueue q f).queue q = f (s.queue q) := by
  unfold State.modQueue State.queue; simp
/-- A ring is as it was changed. -/
theorem modRing_self (s : State) (q : Nat) (f : Ring → Ring) : (s.modRing q f).ring q = f (s.ring q) := by
  unfold State.modRing State.ring; simp

end Sys2Proof.Machine
end

