-- ==== Sys2Proof/Laws/Packets.lean ====
section
/-! SUPPORT. How a packet of a queue starts (R338). -/

set_option linter.unusedSimpArgs false
set_option linter.unusedVariables false

namespace Sys2Proof.Machine

/-- A packet that may start is started by its command. -/
theorem packet_start {s : State} {i : Instr} {q n : Nat} {inCtx : Bool} (h : Starts s i q n inCtx) (start goOn : State → State) :
    s.packet i q n inCtx start goOn = (start s).closeCmd q n := by
  obtain ⟨c, hc, hi⟩ := h.cmd
  unfold State.packet
  rw [hc, if_pos (by simp [hi]), if_pos h.may]
  cases inCtx with
  | false => simp
  | true => simp [h.open_ rfl]

/-- A state change of commands keeps which commands there are. -/
theorem mem_st (n i : Nat) : ((upTo n).map (fun _ => 0)).getD i 0 = 0 := by
  by_cases h : i < ((upTo n).map (fun _ => 0)).length
  · rw [List.getD_eq_getElem _ _ h]; simp
  · rw [List.getD_eq_default _ _ (by omega)]

end Sys2Proof.Machine
end

