-- ==== Sys2Proof/Laws/RoundTrip.lean ====
section
/-! SUPPORT. Reading back the fields of an encoded word: every field codec is undone by its decoder, and a word whose
fields meet the conditions of its entry passes the checks. -/

namespace Sys2Proof

theorem extract_append_lo {m n : Nat} (x : BitVec m) (y : BitVec n) : (x ++ y).extractLsb' 0 n = y := by
  apply BitVec.eq_of_getLsbD_eq
  intro i h
  rw [BitVec.getLsbD_extractLsb', Nat.zero_add, BitVec.getLsbD_append, if_pos h]
  simp [h]

theorem extract_append_hi {m n : Nat} (x : BitVec m) (y : BitVec n) (p l : Nat) (h : n ≤ p) :
    (x ++ y).extractLsb' p l = x.extractLsb' (p - n) l := by
  ext i hi
  simp only [BitVec.getElem_extractLsb', BitVec.getLsbD_append]
  rw [if_neg (by omega)]
  congr 1; omega

theorem getLsbD_append_hi {m n : Nat} (x : BitVec m) (y : BitVec n) (p : Nat) (h : n ≤ p) :
    (x ++ y).getLsbD p = x.getLsbD (p - n) := by
  rw [BitVec.getLsbD_append, if_neg (by omega)]

theorem getLsbD_ofBool_lo {m : Nat} (x : BitVec m) (b : Bool) : (x ++ BitVec.ofBool b).getLsbD 0 = b := by
  rw [BitVec.getLsbD_append, if_pos (by decide)]
  cases b <;> rfl

theorem extract_all {n : Nat} (x : BitVec n) : x.extractLsb' 0 n = x := by simp

theorem Raw.ofWord_toWord (r : Raw) : Raw.ofWord r.toWord = r := by
  cases r
  simp only [Raw.ofWord, Raw.toWord, Raw.mk.injEq]
  refine ⟨?_, ?_, ?_, ?_, ?_, ?_, ?_, ?_, ?_, ?_, ?_, ?_, ?_, ?_, ?_, ?_⟩
  · exact extract_append_lo (m := 118) (n := 10) _ _
  · refine (extract_append_hi (m := 118) (n := 10) _ _ _ _ (by decide)).trans ?_
    exact extract_append_lo (m := 114) (n := 4) _ _
  · refine (extract_append_hi (m := 118) (n := 10) _ _ _ _ (by decide)).trans ?_
    refine (extract_append_hi (m := 114) (n := 4) _ _ _ _ (by decide)).trans ?_
    exact extract_append_lo (m := 105) (n := 9) _ _
  · refine (extract_append_hi (m := 118) (n := 10) _ _ _ _ (by decide)).trans ?_
    refine (extract_append_hi (m := 114) (n := 4) _ _ _ _ (by decide)).trans ?_
    refine (extract_append_hi (m := 105) (n := 9) _ _ _ _ (by decide)).trans ?_
    exact extract_append_lo (m := 96) (n := 9) _ _
  · refine (extract_append_hi (m := 118) (n := 10) _ _ _ _ (by decide)).trans ?_
    refine (extract_append_hi (m := 114) (n := 4) _ _ _ _ (by decide)).trans ?_
    refine (extract_append_hi (m := 105) (n := 9) _ _ _ _ (by decide)).trans ?_
    refine (extract_append_hi (m := 96) (n := 9) _ _ _ _ (by decide)).trans ?_
    exact extract_append_lo (m := 87) (n := 9) _ _
  · refine (extract_append_hi (m := 118) (n := 10) _ _ _ _ (by decide)).trans ?_
    refine (extract_append_hi (m := 114) (n := 4) _ _ _ _ (by decide)).trans ?_
    refine (extract_append_hi (m := 105) (n := 9) _ _ _ _ (by decide)).trans ?_
    refine (extract_append_hi (m := 96) (n := 9) _ _ _ _ (by decide)).trans ?_
    refine (extract_append_hi (m := 87) (n := 9) _ _ _ _ (by decide)).trans ?_
    exact extract_append_lo (m := 78) (n := 9) _ _
  · refine (extract_append_hi (m := 118) (n := 10) _ _ _ _ (by decide)).trans ?_
    refine (extract_append_hi (m := 114) (n := 4) _ _ _ _ (by decide)).trans ?_
    refine (extract_append_hi (m := 105) (n := 9) _ _ _ _ (by decide)).trans ?_
    refine (extract_append_hi (m := 96) (n := 9) _ _ _ _ (by decide)).trans ?_
    refine (extract_append_hi (m := 87) (n := 9) _ _ _ _ (by decide)).trans ?_
    refine (extract_append_hi (m := 78) (n := 9) _ _ _ _ (by decide)).trans ?_
    exact extract_append_lo (m := 69) (n := 9) _ _
  · refine (extract_append_hi (m := 118) (n := 10) _ _ _ _ (by decide)).trans ?_
    refine (extract_append_hi (m := 114) (n := 4) _ _ _ _ (by decide)).trans ?_
    refine (extract_append_hi (m := 105) (n := 9) _ _ _ _ (by decide)).trans ?_
    refine (extract_append_hi (m := 96) (n := 9) _ _ _ _ (by decide)).trans ?_
    refine (extract_append_hi (m := 87) (n := 9) _ _ _ _ (by decide)).trans ?_
    refine (extract_append_hi (m := 78) (n := 9) _ _ _ _ (by decide)).trans ?_
    refine (extract_append_hi (m := 69) (n := 9) _ _ _ _ (by decide)).trans ?_
    exact extract_append_lo (m := 65) (n := 4) _ _
  · refine (extract_append_hi (m := 118) (n := 10) _ _ _ _ (by decide)).trans ?_
    refine (extract_append_hi (m := 114) (n := 4) _ _ _ _ (by decide)).trans ?_
    refine (extract_append_hi (m := 105) (n := 9) _ _ _ _ (by decide)).trans ?_
    refine (extract_append_hi (m := 96) (n := 9) _ _ _ _ (by decide)).trans ?_
    refine (extract_append_hi (m := 87) (n := 9) _ _ _ _ (by decide)).trans ?_
    refine (extract_append_hi (m := 78) (n := 9) _ _ _ _ (by decide)).trans ?_
    refine (extract_append_hi (m := 69) (n := 9) _ _ _ _ (by decide)).trans ?_
    refine (extract_append_hi (m := 65) (n := 4) _ _ _ _ (by decide)).trans ?_
    exact extract_append_lo (m := 61) (n := 4) _ _
  · refine (getLsbD_append_hi (m := 118) (n := 10) _ _ _ (by decide)).trans ?_
    refine (getLsbD_append_hi (m := 114) (n := 4) _ _ _ (by decide)).trans ?_
    refine (getLsbD_append_hi (m := 105) (n := 9) _ _ _ (by decide)).trans ?_
    refine (getLsbD_append_hi (m := 96) (n := 9) _ _ _ (by decide)).trans ?_
    refine (getLsbD_append_hi (m := 87) (n := 9) _ _ _ (by decide)).trans ?_
    refine (getLsbD_append_hi (m := 78) (n := 9) _ _ _ (by decide)).trans ?_
    refine (getLsbD_append_hi (m := 69) (n := 9) _ _ _ (by decide)).trans ?_
    refine (getLsbD_append_hi (m := 65) (n := 4) _ _ _ (by decide)).trans ?_
    refine (getLsbD_append_hi (m := 61) (n := 4) _ _ _ (by decide)).trans ?_
    exact getLsbD_ofBool_lo _ _
  · refine (extract_append_hi (m := 118) (n := 10) _ _ _ _ (by decide)).trans ?_
    refine (extract_append_hi (m := 114) (n := 4) _ _ _ _ (by decide)).trans ?_
    refine (extract_append_hi (m := 105) (n := 9) _ _ _ _ (by decide)).trans ?_
    refine (extract_append_hi (m := 96) (n := 9) _ _ _ _ (by decide)).trans ?_
    refine (extract_append_hi (m := 87) (n := 9) _ _ _ _ (by decide)).trans ?_
    refine (extract_append_hi (m := 78) (n := 9) _ _ _ _ (by decide)).trans ?_
    refine (extract_append_hi (m := 69) (n := 9) _ _ _ _ (by decide)).trans ?_
    refine (extract_append_hi (m := 65) (n := 4) _ _ _ _ (by decide)).trans ?_
    refine (extract_append_hi (m := 61) (n := 4) _ _ _ _ (by decide)).trans ?_
    refine (extract_append_hi (m := 60) (n := 1) _ _ _ _ (by decide)).trans ?_
    exact extract_append_lo (m := 58) (n := 2) _ _
  · refine (extract_append_hi (m := 118) (n := 10) _ _ _ _ (by decide)).trans ?_
    refine (extract_append_hi (m := 114) (n := 4) _ _ _ _ (by decide)).trans ?_
    refine (extract_append_hi (m := 105) (n := 9) _ _ _ _ (by decide)).trans ?_
    refine (extract_append_hi (m := 96) (n := 9) _ _ _ _ (by decide)).trans ?_
    refine (extract_append_hi (m := 87) (n := 9) _ _ _ _ (by decide)).trans ?_
    refine (extract_append_hi (m := 78) (n := 9) _ _ _ _ (by decide)).trans ?_
    refine (extract_append_hi (m := 69) (n := 9) _ _ _ _ (by decide)).trans ?_
    refine (extract_append_hi (m := 65) (n := 4) _ _ _ _ (by decide)).trans ?_
    refine (extract_append_hi (m := 61) (n := 4) _ _ _ _ (by decide)).trans ?_
    refine (extract_append_hi (m := 60) (n := 1) _ _ _ _ (by decide)).trans ?_
    refine (extract_append_hi (m := 58) (n := 2) _ _ _ _ (by decide)).trans ?_
    exact extract_append_lo (m := 55) (n := 3) _ _
  · refine (getLsbD_append_hi (m := 118) (n := 10) _ _ _ (by decide)).trans ?_
    refine (getLsbD_append_hi (m := 114) (n := 4) _ _ _ (by decide)).trans ?_
    refine (getLsbD_append_hi (m := 105) (n := 9) _ _ _ (by decide)).trans ?_
    refine (getLsbD_append_hi (m := 96) (n := 9) _ _ _ (by decide)).trans ?_
    refine (getLsbD_append_hi (m := 87) (n := 9) _ _ _ (by decide)).trans ?_
    refine (getLsbD_append_hi (m := 78) (n := 9) _ _ _ (by decide)).trans ?_
    refine (getLsbD_append_hi (m := 69) (n := 9) _ _ _ (by decide)).trans ?_
    refine (getLsbD_append_hi (m := 65) (n := 4) _ _ _ (by decide)).trans ?_
    refine (getLsbD_append_hi (m := 61) (n := 4) _ _ _ (by decide)).trans ?_
    refine (getLsbD_append_hi (m := 60) (n := 1) _ _ _ (by decide)).trans ?_
    refine (getLsbD_append_hi (m := 58) (n := 2) _ _ _ (by decide)).trans ?_
    refine (getLsbD_append_hi (m := 55) (n := 3) _ _ _ (by decide)).trans ?_
    exact getLsbD_ofBool_lo _ _
  · refine (extract_append_hi (m := 118) (n := 10) _ _ _ _ (by decide)).trans ?_
    refine (extract_append_hi (m := 114) (n := 4) _ _ _ _ (by decide)).trans ?_
    refine (extract_append_hi (m := 105) (n := 9) _ _ _ _ (by decide)).trans ?_
    refine (extract_append_hi (m := 96) (n := 9) _ _ _ _ (by decide)).trans ?_
    refine (extract_append_hi (m := 87) (n := 9) _ _ _ _ (by decide)).trans ?_
    refine (extract_append_hi (m := 78) (n := 9) _ _ _ _ (by decide)).trans ?_
    refine (extract_append_hi (m := 69) (n := 9) _ _ _ _ (by decide)).trans ?_
    refine (extract_append_hi (m := 65) (n := 4) _ _ _ _ (by decide)).trans ?_
    refine (extract_append_hi (m := 61) (n := 4) _ _ _ _ (by decide)).trans ?_
    refine (extract_append_hi (m := 60) (n := 1) _ _ _ _ (by decide)).trans ?_
    refine (extract_append_hi (m := 58) (n := 2) _ _ _ _ (by decide)).trans ?_
    refine (extract_append_hi (m := 55) (n := 3) _ _ _ _ (by decide)).trans ?_
    refine (extract_append_hi (m := 54) (n := 1) _ _ _ _ (by decide)).trans ?_
    exact extract_append_lo (m := 52) (n := 2) _ _
  · refine (extract_append_hi (m := 118) (n := 10) _ _ _ _ (by decide)).trans ?_
    refine (extract_append_hi (m := 114) (n := 4) _ _ _ _ (by decide)).trans ?_
    refine (extract_append_hi (m := 105) (n := 9) _ _ _ _ (by decide)).trans ?_
    refine (extract_append_hi (m := 96) (n := 9) _ _ _ _ (by decide)).trans ?_
    refine (extract_append_hi (m := 87) (n := 9) _ _ _ _ (by decide)).trans ?_
    refine (extract_append_hi (m := 78) (n := 9) _ _ _ _ (by decide)).trans ?_
    refine (extract_append_hi (m := 69) (n := 9) _ _ _ _ (by decide)).trans ?_
    refine (extract_append_hi (m := 65) (n := 4) _ _ _ _ (by decide)).trans ?_
    refine (extract_append_hi (m := 61) (n := 4) _ _ _ _ (by decide)).trans ?_
    refine (extract_append_hi (m := 60) (n := 1) _ _ _ _ (by decide)).trans ?_
    refine (extract_append_hi (m := 58) (n := 2) _ _ _ _ (by decide)).trans ?_
    refine (extract_append_hi (m := 55) (n := 3) _ _ _ _ (by decide)).trans ?_
    refine (extract_append_hi (m := 54) (n := 1) _ _ _ _ (by decide)).trans ?_
    refine (extract_append_hi (m := 52) (n := 2) _ _ _ _ (by decide)).trans ?_
    exact extract_append_lo (m := 32) (n := 20) _ _
  · refine (extract_append_hi (m := 118) (n := 10) _ _ _ _ (by decide)).trans ?_
    refine (extract_append_hi (m := 114) (n := 4) _ _ _ _ (by decide)).trans ?_
    refine (extract_append_hi (m := 105) (n := 9) _ _ _ _ (by decide)).trans ?_
    refine (extract_append_hi (m := 96) (n := 9) _ _ _ _ (by decide)).trans ?_
    refine (extract_append_hi (m := 87) (n := 9) _ _ _ _ (by decide)).trans ?_
    refine (extract_append_hi (m := 78) (n := 9) _ _ _ _ (by decide)).trans ?_
    refine (extract_append_hi (m := 69) (n := 9) _ _ _ _ (by decide)).trans ?_
    refine (extract_append_hi (m := 65) (n := 4) _ _ _ _ (by decide)).trans ?_
    refine (extract_append_hi (m := 61) (n := 4) _ _ _ _ (by decide)).trans ?_
    refine (extract_append_hi (m := 60) (n := 1) _ _ _ _ (by decide)).trans ?_
    refine (extract_append_hi (m := 58) (n := 2) _ _ _ _ (by decide)).trans ?_
    refine (extract_append_hi (m := 55) (n := 3) _ _ _ _ (by decide)).trans ?_
    refine (extract_append_hi (m := 54) (n := 1) _ _ _ _ (by decide)).trans ?_
    refine (extract_append_hi (m := 52) (n := 2) _ _ _ _ (by decide)).trans ?_
    refine (extract_append_hi (m := 32) (n := 20) _ _ _ _ (by decide)).trans ?_
    exact extract_all _

theorem decode_toWord (st : Stream) (r : Raw) : decodeWord st r.toWord = decodeRaw st r := by
  rw [decodeWord, Raw.ofWord_toWord]

theorem Op.ofCode_code (o : Op) : Op.ofCode o.code = some o := by cases o <;> rfl

@[simp] theorem tyOf?_code (t : Ty) : tyOf? t.code = some t := by cases t <;> rfl
@[simp] theorem tyOf_code (t : Ty) : tyOf t.code = t := by cases t <;> rfl
@[simp] theorem condOf_code (c : Cond) : condOf c.code = c := by cases c <;> rfl
@[simp] theorem condOf?_code (c : Cond) : condOf? c.code = some c := by cases c <;> rfl
@[simp] theorem aopOf_code (c : Aop) : aopOf c.code = c := by cases c <;> rfl
@[simp] theorem aopOf?_code (c : Aop) : aopOf? c.code = some c := by cases c <;> rfl
@[simp] theorem rndOf_code (c : Rnd) : rndOf c.code = c := by cases c <;> rfl
@[simp] theorem kindOf_code (c : Kind) : kindOf c.code = c := by cases c <;> rfl
@[simp] theorem scopeOf_code (c : Scope) : scopeOf c.code = c := by cases c <;> rfl
@[simp] theorem patOf_code (c : Pattern) : patOf c.code = c := by cases c <;> rfl
@[simp] theorem accKindOf_code (c : AccKind) : accKindOf c.code = c := by cases c <;> rfl
@[simp] theorem tepiOf_code (c : TepiOp) : tepiOf c.code = c := by cases c <;> rfl
@[simp] theorem shflOf_code (c : ShflMode) : shflOf c.code = c := by cases c <;> rfl
@[simp] theorem voteOf_code (c : VoteMode) : voteOf c.code = c := by cases c <;> rfl
@[simp] theorem partOf_code (c : TilePart) : partOf c.code = c := by cases c <;> rfl

/-- The value of each operand field. -/
theorem Opd.toField_v (n : BitVec 8) : (Opd.v n).toField.toNat = n.toNat := by
  have := n.isLt
  simp only [Opd.toField, BitVec.toNat_append]
  rw [← Nat.shiftLeft_add_eq_or_of_lt this]; simp
theorem Opd.toField_s (n : BitVec 7) : (Opd.s n).toField.toNat = 0x100 + n.toNat := by
  have := n.isLt
  simp only [Opd.toField, BitVec.toNat_append]
  rw [← Nat.shiftLeft_add_eq_or_of_lt this]; rfl
theorem Opd.toField_int (n : BitVec 5) : (Opd.int n).toField.toNat = 0x180 + n.toNat := by
  have := n.isLt
  simp only [Opd.toField, BitVec.toNat_append]
  rw [← Nat.shiftLeft_add_eq_or_of_lt this]; rfl
theorem Opd.toField_const (n : BitVec 4) : (Opd.const n).toField.toNat = 0x1A0 + n.toNat := by
  have := n.isLt
  simp only [Opd.toField, BitVec.toNat_append]
  rw [← Nat.shiftLeft_add_eq_or_of_lt this]; rfl
theorem Opd.toField_zero : Opd.zero.toField.toNat = 0x1FE := rfl
theorem Opd.toField_lit (x : Word) : (Opd.lit x).toField.toNat = 0x1FF := rfl

theorem Dst.toField_v (n : BitVec 8) : (Dst.v n).toField.toNat = n.toNat := Opd.toField_v n
theorem Dst.toField_s (n : BitVec 7) : (Dst.s n).toField.toNat = 0x100 + n.toNat := Opd.toField_s n
theorem Dst.toField_none : Dst.none.toField.toNat = 0x1FE := rfl

/-- The literal of the word serves the operand. -/
def Opd.fits (o : Opd) (ext : Word) : Prop := ∀ x, o = .lit x → x = ext

theorem setWidth_toField_v (n : BitVec 8) : ((Opd.v n).toField).setWidth 8 = n := by
  apply BitVec.eq_of_toNat_eq
  have := n.isLt
  rw [BitVec.toNat_setWidth, Opd.toField_v]; omega

theorem Opd.ofField_toField (o : Opd) (ext : Word) (h : o.fits ext) : Opd.ofField o.toField ext = o := by
  cases o with
  | v n =>
    have := n.isLt
    rw [Opd.ofField, if_pos (by rw [Opd.toField_v]; omega), setWidth_toField_v]
  | s n =>
    have := n.isLt
    rw [Opd.ofField, if_neg (by rw [Opd.toField_s]; omega), if_pos (by rw [Opd.toField_s]; omega)]
    congr 1
    apply BitVec.eq_of_toNat_eq
    rw [BitVec.toNat_setWidth, Opd.toField_s]; omega
  | int n =>
    have := n.isLt
    rw [Opd.ofField, if_neg (by rw [Opd.toField_int]; omega), if_neg (by rw [Opd.toField_int]; omega),
      if_pos (by rw [Opd.toField_int]; omega)]
    congr 1
    apply BitVec.eq_of_toNat_eq
    rw [BitVec.toNat_setWidth, Opd.toField_int]; omega
  | const n =>
    have := n.isLt
    rw [Opd.ofField, if_neg (by rw [Opd.toField_const]; omega), if_neg (by rw [Opd.toField_const]; omega),
      if_neg (by rw [Opd.toField_const]; omega), if_pos (by rw [Opd.toField_const]; omega)]
    congr 1
    apply BitVec.eq_of_toNat_eq
    rw [BitVec.toNat_setWidth, Opd.toField_const]; omega
  | zero => rfl
  | lit x => rw [h x rfl]; rfl

@[simp] theorem Dst.ofField_toField (o : Dst) : Dst.ofField o.toField = o := by
  cases o with
  | v n =>
    have := n.isLt
    rw [Dst.ofField, if_pos (by rw [Dst.toField_v]; omega)]
    congr 1; exact setWidth_toField_v n
  | s n =>
    have := n.isLt
    rw [Dst.ofField, if_neg (by rw [Dst.toField_s]; omega), if_pos (by rw [Dst.toField_s]; omega)]
    congr 1
    apply BitVec.eq_of_toNat_eq
    rw [BitVec.toNat_setWidth, Dst.toField_s]; omega
  | none => rfl

theorem Opd.toField_eq_lit (o : Opd) : o.toField = 0x1FF#9 ↔ o.isLit = true := by
  rw [← BitVec.toNat_inj]
  cases o with
  | v n => have := n.isLt; rw [Opd.toField_v]; simp [Opd.isLit]; omega
  | s n => have := n.isLt; rw [Opd.toField_s]; simp [Opd.isLit]; omega
  | int n => have := n.isLt; rw [Opd.toField_int]; simp [Opd.isLit]; omega
  | const n => have := n.isLt; rw [Opd.toField_const]; simp [Opd.isLit]; omega
  | zero => simp [Opd.isLit, Opd.toField]
  | lit x => simp [Opd.isLit, Opd.toField]

theorem Dst.toField_ne_lit (o : Dst) : o.toField ≠ 0x1FF#9 := by
  rw [Ne, ← BitVec.toNat_inj]
  cases o with
  | v n => have := n.isLt; rw [Dst.toField_v]; simp; omega
  | s n => have := n.isLt; rw [Dst.toField_s]; simp; omega
  | none => simp [Dst.toField]

/-- How many literals a source counts for. -/
def Opd.litN (o : Opd) : Nat := if o.isLit then 1 else 0

/-- A field holds a value that its kind accepts, in every check of R195 that looks at one field; `n` is how many
literals it holds. -/
structure FieldOk (st : Stream) (k : Kd) (v : BitVec 9) (ext : Word) (n : Nat) : Prop where
  general : okField st k v = true
  unused : okUnused k v = true
  ok : k.ok st v ext = true
  range : k.inRange v ext = true
  dst : (k.isDst && v = 0x1FF) = false
  lits : (if (k ≠ .none && v = 0x1FF) = true then 1 else 0) = n

theorem FieldOk.none (st : Stream) (ext : Word) : FieldOk st .none 0 ext 0 := ⟨rfl, rfl, rfl, rfl, rfl, rfl⟩

theorem okField_of (st : Stream) (k : Kd) (v : BitVec 9) (h : v.toNat < 0x1B0 ∨ v.toNat = 0x1FE ∨ v.toNat = 0x1FF)
    (ht : st = .tile → (0x100 ≤ v.toNat ∧ v.toNat ≤ 0x11F) ∨ 0x180 ≤ v.toNat) : okField st k v = true := by
  unfold okField
  simp only [Bool.or_eq_true, Bool.and_eq_true, inRange, Bool.not_eq_true', decide_eq_true_eq, decide_eq_false_iff_not,
    Bool.and_eq_false_iff]
  right
  refine ⟨by omega, ?_⟩
  cases st with
  | vector => exact .inl rfl
  | tile => exact .inr (ht rfl)

theorem okField_src (st : Stream) (k : Kd) (o : Opd) (w : Nat) (f : Bool) (h : o.okSrc st w f = true) :
    okField st k o.toField = true := by
  cases o with
  | v n =>
    have := n.isLt
    simp only [Opd.okSrc, okV, Bool.and_eq_true, decide_eq_true_eq] at h
    exact okField_of st k _ (by rw [Opd.toField_v]; omega) (fun e => absurd (h.1.symm.trans e) (by decide))
  | s n =>
    have := n.isLt
    simp only [Opd.okSrc, okS, Bool.and_eq_true, Bool.or_eq_true, decide_eq_true_eq] at h
    refine okField_of st k _ (by rw [Opd.toField_s]; omega) (fun e => ?_)
    rw [Opd.toField_s]
    rcases h.1.1 with h | h
    · exact absurd (h.symm.trans e) (by decide)
    · left; omega
  | int n => have := n.isLt; exact okField_of st k _ (by rw [Opd.toField_int]; omega) (by rw [Opd.toField_int]; omega)
  | const n => have := n.isLt; exact okField_of st k _ (by rw [Opd.toField_const]; omega) (by rw [Opd.toField_const]; omega)
  | zero => exact okField_of st k _ (.inr (.inl rfl)) (fun _ => .inr (by decide))
  | lit x => exact okField_of st k _ (.inr (.inr rfl)) (fun _ => .inr (by rw [Opd.toField_lit]; decide))

theorem lits_src (k : Kd) (o : Opd) (hk : k ≠ .none) : (if (k ≠ .none && o.toField = 0x1FF) = true then 1 else 0) = o.litN := by
  unfold Opd.litN
  by_cases h : o.isLit = true
  · rw [if_pos h, if_pos (by simp [hk, Opd.toField_eq_lit, h])]
  · rw [if_neg h, if_neg]
    have := (Opd.toField_eq_lit o).not.mpr h
    simp [this]

theorem lits_other (k : Kd) (v : BitVec 9) (hv : v.toNat ≠ 0x1FF) : (if (k ≠ .none && v = 0x1FF) = true then 1 else 0) = 0 := by
  rw [if_neg]
  intro h
  simp only [Bool.and_eq_true, decide_eq_true_eq] at h
  exact hv (by rw [h.2]; rfl)

theorem FieldOk.src {st : Stream} {k : Kd} {w : Nat} {f : Bool} {o : Opd} {ext : Word} (hk : k ≠ .none) (hd : k.isDst = false)
    (h : o.okSrc st w f = true) (ho : k.ok st o.toField ext = true) (hr : k.inRange o.toField ext = true) :
    FieldOk st k o.toField ext o.litN :=
  ⟨okField_src st _ o w f h, by simp [okUnused, hk], ho, hr, by simp [hd], lits_src _ _ hk⟩

theorem FieldOk.s {st : Stream} {w : Nat} {f : Bool} {o : Opd} {ext : Word} (h : o.okSrc st w f = true) (hf : o.fits ext) :
    FieldOk st (.s w f) o.toField ext o.litN :=
  .src (by simp) rfl h (by rw [Kd.ok, Opd.ofField_toField o ext hf, h]) rfl


theorem Dst.field_range (o : Dst) : (o.toField.toNat < 0x180 || o.toField = 0x1FE) = true := by
  cases o with
  | v n => have := n.isLt; rw [Dst.toField_v]; simp; omega
  | s n => have := n.isLt; rw [Dst.toField_s]; simp; omega
  | none => rfl

theorem Dst.toField_lt (o : Dst) : o.toField.toNat ≤ 0x1FE := by
  cases o with
  | v n => have := n.isLt; rw [Dst.toField_v]; omega
  | s n => have := n.isLt; rw [Dst.toField_s]; omega
  | none => decide

theorem Dst.okField {st : Stream} {k : Kd} {o : Dst} (h : st = .tile → (∀ n, o ≠ .v n) ∧ ∀ n, o = .s n → n.toNat < 32) :
    okField st k o.toField = true := by
  cases o with
  | v n =>
    have := n.isLt
    exact okField_of st k _ (by rw [Dst.toField_v]; omega) (fun e => absurd rfl ((h e).1 n))
  | s n =>
    have := n.isLt
    refine okField_of st k _ (by rw [Dst.toField_s]; omega) (fun e => ?_)
    rw [Dst.toField_s]
    have := (h e).2 n rfl
    left; omega
  | none => exact okField_of st k _ (.inr (.inl rfl)) (fun _ => .inr (by decide))

theorem FieldOk.dest {st : Stream} {k : Kd} {o : Dst} {ext : Word} (hk : k ≠ .none)
    (h : st = .tile → (∀ n, o ≠ .v n) ∧ ∀ n, o = .s n → n.toNat < 32) (ho : k.ok st o.toField ext = true)
    (hr : k.inRange o.toField ext = true) : FieldOk st k o.toField ext 0 :=
  ⟨Dst.okField h, by simp [okUnused, hk], ho, hr, by simp [Dst.toField_ne_lit],
    lits_other _ _ (by have := o.toField_lt; omega)⟩

theorem FieldOk.d {st : Stream} {w : Nat} {z : Bool} {o : Dst} {ext : Word} (h : o.ok st w z = true) :
    FieldOk st (.d w z) o.toField ext 0 := by
  refine .dest (by simp) (fun e => ?_) (by rw [Kd.ok, Dst.field_range, Dst.ofField_toField, h]; rfl) rfl
  subst e
  constructor
  · rintro n rfl; simp [Dst.ok, okV] at h
  · rintro n rfl; simp [Dst.ok, okS] at h; omega

theorem FieldOk.dv {w : Nat} {z : Bool} {o : Dst} {ext : Word} (h : o.okVec w z = true) :
    FieldOk .vector (.dv w z) o.toField ext 0 :=
  .dest (by simp) (fun e => by cases e) (by rw [Kd.ok, Dst.field_range, Dst.ofField_toField, h]; rfl) rfl

theorem FieldOk.dvV {w : Nat} {z : Bool} {n : BitVec 8} {ext : Word} (h : okV .vector w n = true) :
    FieldOk .vector (.dv w z) (Opd.v n).toField ext 0 := by
  have := FieldOk.dv (w := w) (z := z) (o := .v n) (ext := ext) (by simpa [okV, Dst.okVec] using h)
  exact this

theorem FieldOk.v {st : Stream} {w : Nat} {n : BitVec 8} {ext : Word} (h : okV st w n = true) :
    FieldOk st (.v w) (Opd.v n).toField ext 0 := by
  have := n.isLt
  refine .src (o := .v n) (w := w) (f := false) (by simp) rfl h ?_ rfl
  rw [Kd.ok, setWidth_toField_v, h, Opd.toField_v]
  simp; omega

theorem FieldOk.one {st : Stream} {w : Nat} {l z c : Bool} {o : Opd} {ext : Word} (h : o.okOne st w l z c = true)
    (hf : o.fits ext) : FieldOk st (.one w l z c) o.toField ext o.litN := by
  refine .src (w := w) (f := true) (by simp) rfl ?_ (by rw [Kd.ok, Opd.ofField_toField o ext hf, h]) rfl
  cases o <;> simp_all [Opd.okOne, Opd.okSrc]

theorem fits_of_not_lit {o : Opd} {ext : Word} (h : o.isLit = false) : o.fits ext := by
  rintro x rfl; simp [Opd.isLit] at h

theorem okBase_lit {o : Opd} {z : Bool} (h : o.okBase z = true) : o.isLit = false := by
  cases o <;> simp_all [Opd.okBase, Opd.isLit]
theorem okIndex_lit {o : Opd} (h : o.okIndex = true) : o.isLit = false := by
  cases o <;> simp_all [Opd.okIndex, Opd.isLit]
theorem okPair_lit {o : Opd} (h : o.okPair = true) : o.isLit = false := by
  cases o <;> simp_all [Opd.okPair, Opd.isLit]
theorem okData_lit {st : Stream} {w : Nat} {f : Bool} {o : Opd} (h : o.okData st w f = true) : o.isLit = false := by
  cases o <;> simp_all [Opd.okData, Opd.isLit]
theorem litN_zero {o : Opd} (h : o.isLit = false) : o.litN = 0 := by simp [Opd.litN, h]

/-- A field of the vector stream that holds a register, an integer or zero. -/
theorem FieldOk.vec {k : Kd} {o : Opd} {ext : Word} (hk : k ≠ .none) (hd : k.isDst = false) (hl : o.isLit = false)
    (ho : k.ok .vector o.toField ext = true) (hr : k.inRange o.toField ext = true) : FieldOk .vector k o.toField ext 0 := by
  refine ⟨?_, by simp [okUnused, hk], ho, hr, by simp [hd], by rw [lits_src k o hk, litN_zero hl]⟩
  refine okField_of .vector k _ ?_ (fun e => by cases e)
  cases o with
  | v n => have := n.isLt; rw [Opd.toField_v]; omega
  | s n => have := n.isLt; rw [Opd.toField_s]; omega
  | int n => have := n.isLt; rw [Opd.toField_int]; omega
  | const n => have := n.isLt; rw [Opd.toField_const]; omega
  | zero => exact .inr (.inl rfl)
  | lit x => simp [Opd.isLit] at hl

theorem FieldOk.base {z : Bool} {o : Opd} {ext : Word} (h : o.okBase z = true) :
    FieldOk .vector (.base z) o.toField ext 0 :=
  .vec (by simp) rfl (okBase_lit h) (by rw [Kd.ok, Opd.ofField_toField o ext (fits_of_not_lit (okBase_lit h)), h]) rfl

theorem FieldOk.index {o : Opd} {ext : Word} (h : o.okIndex = true) : FieldOk .vector .index o.toField ext 0 :=
  .vec (by simp) rfl (okIndex_lit h) (by rw [Kd.ok, Opd.ofField_toField o ext (fits_of_not_lit (okIndex_lit h)), h]) rfl

theorem FieldOk.pair {o : Opd} {ext : Word} (h : o.okPair = true) : FieldOk .vector .pair o.toField ext 0 :=
  .vec (by simp) rfl (okPair_lit h) (by rw [Kd.ok, Opd.ofField_toField o ext (fits_of_not_lit (okPair_lit h)), h]) rfl

theorem FieldOk.data {w : Nat} {f : Bool} {o : Opd} {ext : Word} (h : o.okData .vector w f = true) :
    FieldOk .vector (.s w f) o.toField ext 0 := by
  have hs : o.okSrc .vector w f = true := by cases o <;> simp_all [Opd.okData]
  have := FieldOk.s hs (fits_of_not_lit (ext := ext) (okData_lit h))
  rwa [litN_zero (okData_lit h)] at this

theorem FieldOk.org {o : Opd} {ext : Word} (h : (match o with | .v _ | .s _ => true | _ => false) = true) :
    FieldOk .vector .org o.toField ext 0 := by
  cases o with
  | v n => have := n.isLt; exact .vec (by simp) rfl rfl (by rw [Kd.ok, Opd.toField_v]; simp; omega) rfl
  | s n => have := n.isLt; exact .vec (by simp) rfl rfl (by rw [Kd.ok, Opd.toField_s]; simp; omega) rfl
  | _ => simp at h

theorem FieldOk.mask {st : Stream} {o : Opd} {ext : Word} (h : okMask st o = true) (hf : o.fits ext) :
    FieldOk st .mask o.toField ext o.litN := by
  refine .src (w := 64) (f := false) (by simp) rfl ?_ (by rw [Kd.ok, Opd.ofField_toField o ext hf, h]) rfl
  cases o <;> simp_all [okMask, Opd.okOne, Opd.okSrc]

theorem FieldOk.rank {st : Stream} {z : Bool} {o : Opd} {ext : Word} (h : okRank st z o = true) (hf : o.fits ext) :
    FieldOk st (.rank z) o.toField ext o.litN := by
  refine .src (w := 32) (f := false) (by simp) rfl ?_ (by rw [Kd.ok, Opd.ofField_toField o ext hf, h]) rfl
  cases o <;> simp_all [okRank, Opd.okOne, Opd.okSrc]

theorem FieldOk.count {st : Stream} {o : Opd} {ext : Word} (h : okBariCount st o = true) (hf : o.fits ext) :
    FieldOk st .count o.toField ext o.litN := by
  refine .src (w := 32) (f := false) (by simp) rfl ?_ ?_ ?_
  · cases o <;> simp_all [okBariCount, Opd.okSrc]
  · rw [Kd.ok, Opd.ofField_toField o ext hf]; cases o <;> simp_all [okBariCount, Opd.okOne]
  · rw [Kd.inRange, Opd.ofField_toField o ext hf]; cases o <;> simp_all [okBariCount]

/-- Special operands. -/
theorem special_toNat {k : Nat} (n : BitVec k) (hk : k ≤ 7) : (special n).toNat = 0x180 + n.toNat := by
  have h : n.toNat < 2 ^ 7 := lt_of_lt_of_le n.isLt (Nat.pow_le_pow_right (by decide) hk)
  unfold special
  rw [BitVec.toNat_or, BitVec.toNat_setWidth, Nat.mod_eq_of_lt (lt_trans h (by decide))]
  have := Nat.shiftLeft_add_eq_or_of_lt h 3
  exact this.symm

theorem low_special {k : Nat} (n : BitVec k) (hk : k ≤ 7) : (special n).setWidth k = n := by
  apply BitVec.eq_of_toNat_eq
  rw [BitVec.toNat_setWidth, special_toNat n hk]
  have hd : 2 ^ k ∣ 0x180 := dvd_trans (pow_dvd_pow 2 hk) (by decide)
  obtain ⟨c, hc⟩ := hd
  rw [hc, Nat.mul_add_mod, Nat.mod_eq_of_lt n.isLt]

@[simp] theorem low3_special (n : BitVec 3) : low3 (special n) = n := low_special n (by decide)
@[simp] theorem low5_special (n : BitVec 5) : low5 (special n) = n := low_special n (by decide)
@[simp] theorem low2_special (n : BitVec 2) : low2 (special n) = n := low_special n (by decide)
@[simp] theorem low6_special (n : BitVec 6) : (special n).setWidth 6 = n := low_special n (by decide)

theorem FieldOk.special {st : Stream} {k : Kd} {j : Nat} {n : BitVec j} {ext : Word} (hk : k ≠ .none) (hj : j ≤ 6)
    (ho : k.ok st (special n) ext = true) (hr : k.inRange (Sys2Proof.special n) ext = true)
    (hg : k.general = false ∨ j ≤ 5) :
    FieldOk st k (Sys2Proof.special n) ext 0 := by
  have hn : n.toNat < 2 ^ 6 := lt_of_lt_of_le n.isLt (Nat.pow_le_pow_right (by decide) hj)
  have hs := special_toNat n (by omega)
  refine ⟨?_, by simp [okUnused, hk], ho, hr, ?_, lits_other _ _ (by omega)⟩
  · rcases hg with hg | hg
    · simp [okField, hg]
    · have hn : n.toNat < 2 ^ 5 := lt_of_lt_of_le n.isLt (Nat.pow_le_pow_right (by decide) hg)
      exact okField_of st k _ (by omega) (fun _ => .inr (by omega))
  · have : Sys2Proof.special n ≠ 0x1FF := by
      intro h; rw [h] at hs; have : (0x1FF : BitVec 9).toNat = 0x1FF := rfl; omega
    rw [Bool.and_eq_false_iff, decide_eq_false_iff_not]
    exact .inr this

theorem inRange_special {j : Nat} (n : BitVec j) (hj : j ≤ 7) (lo hi : Nat) (h : lo ≤ 0x180 + n.toNat ∧ 0x180 + n.toNat ≤ hi) :
    inRange (special n) lo hi = true := by
  simp [inRange, special_toNat n hj, h.1, h.2]

theorem FieldOk.pred {st : Stream} {p : BitVec 3} {ext : Word} (h : okPred st p = true) :
    FieldOk st .pred (Sys2Proof.special p) ext 0 := by
  have := p.isLt
  refine .special (by simp) (by decide) ?_ rfl (.inl rfl)
  rw [Kd.ok, inRange_special p (by decide) _ _ (by omega), low_special p (by decide), h]; rfl

theorem FieldOk.int {st : Stream} {n : BitVec 5} {ext : Word} : FieldOk st .int (Sys2Proof.special n) ext 0 := by
  have := n.isLt
  exact .special (by simp) (by decide) (inRange_special n (by decide) _ _ (by omega)) rfl (.inr (by decide))

theorem FieldOk.terms {st : Stream} {n : BitVec 5} {ext : Word} (h1 : 1 ≤ n.toNat) (h4 : n.toNat ≤ 4) :
    FieldOk st .terms (Sys2Proof.special n) ext 0 :=
  .special (by simp) (by decide) rfl (inRange_special n (by decide) _ _ (by omega)) (.inl rfl)

theorem FieldOk.int3 {st : Stream} {n : BitVec 3} {ext : Word} : FieldOk st .int (Sys2Proof.special n) ext 0 := by
  have := n.isLt
  exact .special (by simp) (by decide) (inRange_special n (by decide) _ _ (by omega)) rfl (.inr (by decide))

theorem FieldOk.sreg {st : Stream} {n : BitVec 6} {ext : Word} : FieldOk st .sreg (Sys2Proof.special n) ext 0 := by
  have := n.isLt
  exact .special (by simp) (by decide) (inRange_special n (by decide) _ _ (by omega)) rfl (.inl rfl)

theorem FieldOk.tile {st : Stream} {z : Bool} {n : BitVec 3} {ext : Word} :
    FieldOk st (.tile z) (Sys2Proof.special n) ext 0 := by
  have := n.isLt
  refine .special (by simp) (by decide) ?_ rfl (.inl rfl)
  rw [Kd.ok, inRange_special n (by decide) _ _ (by omega)]; rfl

theorem FieldOk.acc {st : Stream} {n : BitVec 2} {ext : Word} : FieldOk st .acc (Sys2Proof.special n) ext 0 := by
  have := n.isLt
  exact .special (by simp) (by decide) (inRange_special n (by decide) _ _ (by omega)) rfl (.inl rfl)

theorem FieldOk.bar {st : Stream} {n : BitVec 5} {ext : Word} : FieldOk st .bar (Sys2Proof.special n) ext 0 := by
  have := n.isLt
  exact .special (by simp) (by decide) (inRange_special n (by decide) _ _ (by omega)) rfl (.inl rfl)

theorem FieldOk.tileNone {st : Stream} {ext : Word} : FieldOk st (.tile true) 0x1FE#9 ext 0 :=
  ⟨rfl, rfl, rfl, rfl, rfl, rfl⟩

theorem FieldOk.zeroOnly {ext : Word} : FieldOk .vector .zeroOnly 0x1FE#9 ext 0 := ⟨rfl, rfl, rfl, rfl, rfl, rfl⟩

theorem qField_toNat (n : BitVec 5) : (qField n).toNat = 0x100 + n.toNat := by
  have := n.isLt
  simp only [qField, BitVec.toNat_append]
  rw [← Nat.shiftLeft_add_eq_or_of_lt this]; rfl

@[simp] theorem low5_qField (n : BitVec 5) : low5 (qField n) = n := by
  apply BitVec.eq_of_toNat_eq
  have := n.isLt
  rw [low5, BitVec.toNat_setWidth, qField_toNat]; omega

theorem qField_ne (n : BitVec 5) (x : BitVec 9) (h : 0x180 ≤ x.toNat) : qField n ≠ x := by
  intro e
  have := n.isLt
  have := qField_toNat n
  rw [e] at this; omega

@[simp] theorem optQ_optQField (q : Option (BitVec 5)) : optQ (optQField q) = q := by
  cases q with
  | none => rfl
  | some n => rw [optQField, optQ, if_neg (qField_ne n _ (by decide)), low5_qField]

theorem FieldOk.q {st : Stream} {z ev : Bool} {n : BitVec 5} {ext : Word} (h : ev = true → n.toNat % 2 = 0) :
    FieldOk st (.q z ev) (qField n) ext 0 := by
  have hn := n.isLt
  have hq := qField_toNat n
  have hne := qField_ne n 0x1FF (by decide)
  refine ⟨okField_of st _ _ (by omega) (fun _ => .inl (by omega)), rfl, ?_, rfl, by simp [Kd.isDst], lits_other _ _ (by omega)⟩
  rw [Kd.ok]
  simp only [inRange, hq, Bool.or_eq_true, Bool.and_eq_true, decide_eq_true_eq, Bool.not_eq_true']
  left
  refine ⟨by omega, ?_⟩
  cases ev with
  | false => exact .inl rfl
  | true => have := h rfl; right; omega

theorem FieldOk.optQ {st : Stream} {q : Option (BitVec 5)} {ext : Word} : FieldOk st (.q true false) (optQField q) ext 0 := by
  cases q with
  | none => exact ⟨by cases st <;> rfl, rfl, by simp [Kd.ok, optQField], rfl, rfl, rfl⟩
  | some n => exact .q (by simp)

theorem TagOpd.toField_tag (n : BitVec 6) : (TagOpd.tag n).toField.toNat = 0x180 + n.toNat := by
  have := n.isLt
  simp only [TagOpd.toField, BitVec.toNat_append]
  rw [← Nat.shiftLeft_add_eq_or_of_lt this]; rfl
theorem TagOpd.toField_reg (n : BitVec 7) : (TagOpd.reg n).toField.toNat = 0x100 + n.toNat := Opd.toField_s n

@[simp] theorem TagOpd.ofField_toField (t : TagOpd) : TagOpd.ofField t.toField = t := by
  cases t with
  | tag n =>
    have := n.isLt
    rw [TagOpd.ofField, if_neg (by rw [TagOpd.toField_tag]; omega)]
    congr 1
    apply BitVec.eq_of_toNat_eq
    rw [BitVec.toNat_setWidth, TagOpd.toField_tag]; omega
  | reg n =>
    have := n.isLt
    rw [TagOpd.ofField, if_pos (by rw [TagOpd.toField_reg]; omega)]
    congr 1
    apply BitVec.eq_of_toNat_eq
    rw [BitVec.toNat_setWidth, TagOpd.toField_reg]; omega

theorem FieldOk.tag {st : Stream} {t : TagOpd} {ext : Word} (h : t.ok st = true) : FieldOk st .tag t.toField ext 0 := by
  cases t with
  | tag n =>
    have := n.isLt
    have hn := TagOpd.toField_tag n
    refine ⟨rfl, rfl, ?_, rfl, by simp [Kd.isDst], lits_other _ _ (by omega)⟩
    simp [Kd.ok, inRange, hn]; omega
  | reg n =>
    have := n.isLt
    have hn := TagOpd.toField_reg n
    refine ⟨rfl, rfl, ?_, rfl, by simp [Kd.isDst], lits_other _ _ (by omega)⟩
    simp [TagOpd.ok] at h
    simp only [Kd.ok, inRange, hn, Bool.or_eq_true, Bool.and_eq_true, decide_eq_true_eq]
    right
    refine ⟨by omega, h.imp id (fun h => by omega)⟩

theorem FieldOk.ctl {st : Stream} {x : CtlReg} {ext : Word} :
    FieldOk st .ctl (match x with | .sbias => 0x1A1#9 | .tenable => 0x1A2#9) ext 0 := by
  cases x <;> exact ⟨rfl, rfl, rfl, rfl, rfl, rfl⟩

theorem FieldOk.tileOff {t : Ty} {o : Opd} {ext : Word} (h : okTileOff t o = true) (hf : o.fits ext) :
    FieldOk .vector (.tileOff t) o.toField ext o.litN := by
  refine .src (w := 32) (f := false) (by simp) rfl ?_ ?_ ?_
  · cases o <;> simp_all [okTileOff, Opd.okSrc]
  · cases o with
    | int n => have := n.isLt; simp [Kd.ok, inRange, Opd.toField_int]; omega
    | lit x => simp [Kd.ok, Opd.toField]
    | _ => simp [okTileOff] at h
  · rw [Kd.inRange, Opd.ofField_toField o ext hf, h]

theorem FieldOk.forkN {o : Opd} {ext : Word}
    (h : (match o with | .s _ => true | .int n => 2 ≤ n.toNat && n.toNat ≤ 8 | _ => false : Bool) = true) :
    FieldOk .vector .forkN o.toField ext 0 := by
  cases o with
  | s n =>
    have := n.isLt
    exact .vec (by simp) rfl rfl (by simp [Kd.ok, inRange, Opd.toField_s]; omega)
      (by simp [Kd.inRange, Opd.toField_s]; omega)
  | int n =>
    have := n.isLt
    simp only [Bool.and_eq_true, decide_eq_true_eq] at h
    exact .vec (by simp) rfl rfl (by simp [Kd.ok, inRange, Opd.toField_int]; omega)
      (by simp [Kd.inRange, inRange, Opd.toField_int]; omega)
  | _ => simp at h

theorem FieldOk.score {o : Opd} {ext : Word}
    (h : (match o with | .v _ | .s _ | .int _ | .lit _ => true | _ => false : Bool) = true) :
    FieldOk .vector .score o.toField ext o.litN := by
  refine .src (w := 32) (f := false) (by simp) rfl ?_ ?_ rfl
  · cases o <;> simp_all [Opd.okSrc, okV, okS, alignedReg]
  · cases o with
    | v n => have := n.isLt; simp [Kd.ok, Opd.toField_v]; omega
    | s n => have := n.isLt; simp [Kd.ok, Opd.toField_s]; omega
    | int n => have := n.isLt; simp [Kd.ok, Opd.toField_int]; omega
    | lit x => simp [Kd.ok, Opd.toField]
    | _ => simp at h

theorem FieldOk.pickK {o : Opd} {ext : Word}
    (h : (match o with | .s _ | .lit _ => true | .int n => n.toNat ≤ 7 | _ => false : Bool) = true) :
    FieldOk .vector .pickK o.toField ext o.litN := by
  refine .src (w := 32) (f := false) (by simp) rfl ?_ ?_ ?_
  · cases o <;> simp_all [Opd.okSrc, okS, alignedReg]
  · cases o with
    | s n => have := n.isLt; simp [Kd.ok, inRange, Opd.toField_s]; omega
    | int n => have := n.isLt; simp [Kd.ok, inRange, Opd.toField_int]; omega
    | lit x => simp [Kd.ok, Opd.toField]
    | _ => simp at h
  · cases o with
    | s n => have := n.isLt; simp [Kd.inRange, Opd.toField_s]; omega
    | int n => have := n.isLt; simp at h; simp [Kd.inRange, Opd.toField_int]; omega
    | lit x => simp [Kd.inRange, Opd.toField]
    | _ => simp at h

theorem FieldOk.cvtPack {d s : Ty} {o : Opd} {ext : Word} (hd : d.isPair = true) (h : o.okSrc .vector s.bits s.isFloat = true)
    (hf : o.fits ext) : FieldOk .vector (.cvtC d s) o.toField ext o.litN :=
  .src (by simp) rfl h (by rw [Kd.ok, if_pos hd, Opd.ofField_toField o ext hf, h]) rfl

theorem FieldOk.cvtHalf {d s : Ty} {o : Opd} {ext : Word} (hd : d.isPair = false)
    (h : o = .int 0 ∨ o = .int 1 ∨ o = .zero) : FieldOk .vector (.cvtC d s) o.toField ext 0 := by
  rcases h with rfl | rfl | rfl <;>
    exact ⟨by simp [okField, inRange, Opd.toField], rfl, by simp [Kd.ok, hd, Opd.toField], rfl, rfl, by simp [Opd.toField]⟩

/-- At most one source holds the literal: every source reads the word's literal. -/
theorem fits_of {srcs : List Opd} {o : Opd} (h : okLits srcs = true) (hm : o ∈ srcs) : o.fits ((litOf srcs).getD 0) := by
  rintro x rfl
  simp only [okLits, decide_eq_true_eq] at h
  induction srcs with
  | nil => simp at hm
  | cons a l ih =>
    cases e : a.isLit with
    | true =>
      rw [List.filter_cons, if_pos e, List.length_cons] at h
      have hl : l.filter Opd.isLit = [] := List.length_eq_zero_iff.mp (by omega)
      rcases List.mem_cons.mp hm with hm | hm
      · subst hm; rfl
      · have : Opd.lit x ∈ l.filter Opd.isLit := List.mem_filter.mpr ⟨hm, rfl⟩
        rw [hl] at this; cases this
    | false =>
      rw [List.filter_cons, if_neg (by simp [e])] at h
      rcases List.mem_cons.mp hm with hm | hm
      · subst hm; simp [Opd.isLit] at e
      · have hn : litOf (a :: l) = litOf l := by
          cases a <;> simp_all [litOf, Opd.isLit]
        rw [hn]; exact ih hm h

theorem litOf_isSome (srcs : List Opd) : (litOf srcs).isSome = srcs.any Opd.isLit := by
  induction srcs with
  | nil => rfl
  | cons a l ih => cases a <;> simp_all [litOf, Opd.isLit]

theorem litN_sum (srcs : List Opd) : (srcs.map Opd.litN).sum = (srcs.filter Opd.isLit).length := by
  induction srcs with
  | nil => rfl
  | cons a l ih =>
    rw [List.map_cons, List.sum_cons, ih, List.filter_cons]
    unfold Opd.litN
    by_cases h : a.isLit = true
    · rw [if_pos h, if_pos h, List.length_cons]; omega
    · rw [if_neg h, if_neg h]; omega

/-- The word passes every check: the conditions on its fields, extension, literal, header and entry. -/
theorem reason_none {st : Stream} {r : Raw} {e : Entry} (srcs : List Opd) {na nb nc nd ne : Nat}
    (hv : st = .vector → e.vec = true) (ht : st = .tile → e.tile = true) (hsub : e.sub = true)
    (ha : FieldOk st e.a r.a r.ext na) (hb : FieldOk st e.b r.b r.ext nb) (hc : FieldOk st e.c r.c r.ext nc)
    (hd : FieldOk st e.d r.d r.ext nd) (he : FieldOk st e.e r.e r.ext ne)
    (hxf : r.xf &&& ~~~e.xf = 0) (hl : r.lit = (litOf srcs).isSome) (hls : okLits srcs = true)
    (hn : na + nb + nc + nd + ne = (srcs.map Opd.litN).sum)
    (hext : (e.ext = .none ∧ r.ext = (litOf srcs).getD 0) ∨
      (srcs = [] ∧ okExt e.ext false r.ext = true ∧ (e.ext = .target → okOff r.ext = true)))
    (hh : r.hdr.ok st e.ctrl e.hint = true) (hu : okDst e r = true)
    (h5 : e.ok5 = true) (h8 : e.ok8 = true) (h9 : e.ok9 = true) (hA : e.okA = true) : e.reason st r = none := by
  simp only [Hdr.ok, Bool.and_eq_true, Raw.hdr] at hh
  obtain ⟨⟨⟨hg1, hg2⟩, hhint⟩, hsch⟩ := hh
  have hS : okSched st e r = true := by unfold okSched; cases st <;> exact hsch
  have hh' : (e.hint || decide (r.hint = 0)) = true := hhint
  have hE : okExt e.ext r.lit r.ext = true := by
    rcases hext with ⟨h1, h2⟩ | ⟨h1, h2, -⟩
    · rw [h1, hl, h2, okExt]
      cases litOf srcs <;> rfl
    · subst h1; rw [hl]; exact h2
  have hO : (decide (e.ext ≠ .target) || okOff r.ext) = true := by
    rcases hext with ⟨h1, h2⟩ | ⟨h1, -, h2⟩
    · rw [h1]; rfl
    · by_cases h : e.ext = .target
      · rw [h2 h, Bool.or_true]
      · simp [h]
  have hL : okLit e r = true := by
    have hlen : ([(e.a, r.a), (e.b, r.b), (e.c, r.c), (e.d, r.d), (e.e, r.e)].filter
        (fun f => f.1 ≠ .none && f.2 = 0x1FF)).length = (srcs.filter Opd.isLit).length := by
      rw [← litN_sum, ← hn, ← ha.lits, ← hb.lits, ← hc.lits, ← hd.lits, ← he.lits]
      rw [← List.countP_eq_length_filter]
      simp only [List.countP_cons, List.countP_nil, Nat.zero_add]
      omega
    have hle : (srcs.filter Opd.isLit).length ≤ 1 := of_decide_eq_true hls
    unfold okLit
    dsimp only
    rw [hlen, Bool.and_eq_true]
    constructor
    · rw [hl, litOf_isSome]
      cases hany : srcs.any Opd.isLit with
      | true =>
        have hpos : 0 < (srcs.filter Opd.isLit).length := by
          obtain ⟨o, ho, h⟩ := List.any_eq_true.mp hany
          exact List.length_pos_of_mem (List.mem_filter.mpr ⟨ho, h⟩)
        rw [if_pos rfl]
        rcases hext with ⟨h1, -⟩ | ⟨h1, -⟩
        · rw [h1]; simp; omega
        · subst h1; simp at hany
      | false =>
        rw [if_neg (by decide)]
        rw [List.any_eq_false] at hany
        have : srcs.filter Opd.isLit = [] := List.filter_eq_nil_iff.mpr hany
        rw [this]; rfl
    · have h1 := ha.dst; have h2 := hb.dst; have h3 := hc.dst; have h4 := hd.dst; have h5 := he.dst
      simp only [List.all_cons, List.all_nil, h1, h2, h3, h4, h5]; rfl
  unfold Entry.reason
  rw [if_neg (by
    cases st with
    | vector => rw [Bool.not_eq_true', Bool.not_eq_false]; exact hv rfl
    | tile => rw [Bool.not_eq_true', Bool.not_eq_false]; exact ht rfl)]
  simp only [hsub, ha.general, hb.general, hc.general, hd.general, he.general, ha.unused, hb.unused, hc.unused,
    hd.unused, he.unused, ha.ok, hb.ok, hc.ok, hd.ok, he.ok, ha.range, hb.range, hc.range, hd.range, he.range,
    hxf, hE, h5, hL, hg1, hg2, hS, h8, h9, hu, hO, hA, Bool.and_true, Bool.not_true, decide_true, if_false, Bool.false_eq_true]
  rw [if_neg]
  rw [Bool.true_and, hh']; decide

/-- What is left to show of an instruction's word: its entry's checks, and that its fields build it. -/
theorem decode_encode {st : Stream} {r : Raw} {o : Op} {i : Instr} {w : IWord} (hw : some r.toWord = some w)
    (ho : r.opc = o.code) (hr : (entry st r o).reason st r = none) (hb : build r o = i) : decodeWord st w = .ok i := by
  injection hw with hw
  subst hw
  rw [decode_toWord, decodeRaw, ho, Op.ofCode_code]
  dsimp only
  rw [hr]
  dsimp only
  rw [hb]

/-- Fields of XF. -/
theorem or_clear {x y m : BitVec 20} (hx : x &&& m = 0) (hy : y &&& m = 0) : (x ||| y) &&& m = 0 := by
  apply BitVec.eq_of_getLsbD_eq
  intro i _
  have h1 := congrArg (fun v : BitVec 20 => v.getLsbD i) hx
  have h2 := congrArg (fun v : BitVec 20 => v.getLsbD i) hy
  simp only [BitVec.getLsbD_and] at h1 h2
  rw [BitVec.getLsbD_and, BitVec.getLsbD_or, Bool.and_or_distrib_right, h1, h2]
  simp

@[simp] theorem place_getLsbD {k : Nat} (v : BitVec k) (p i : Nat) : (place v p).getLsbD i = (decide (i < 20) && (!decide (i < p) && v.getLsbD (i - p))) := by
  unfold place
  by_cases h : i < 20
  · simp [h]
  · simp [h]

theorem place_clear {k : Nat} (v : BitVec k) (p : Nat) (m : BitVec 20) (h : place (BitVec.allOnes k) p &&& m = 0) :
    place v p &&& m = 0 := by
  ext i hi
  have h1 := congrArg (fun x : BitVec 20 => x.getLsbD i) h
  simp only [BitVec.getLsbD_and, place_getLsbD, BitVec.getLsbD_allOnes] at h1
  rw [← BitVec.getLsbD_eq_getElem, ← BitVec.getLsbD_eq_getElem]
  simp only [BitVec.getLsbD_and, place_getLsbD]
  by_cases hk : i - p < k
  · simp only [hk, decide_true, Bool.and_true] at h1
    cases hv : v.getLsbD (i - p)
    · simp
    · simpa [hv] using h1
  · rw [BitVec.getLsbD_of_ge v _ (by omega)]; simp

@[simp] theorem extract_or {w : Nat} (x y : BitVec w) (p k : Nat) : (x ||| y).extractLsb' p k = x.extractLsb' p k ||| y.extractLsb' p k := by
  ext i h; simp

@[simp] theorem extract_place {k : Nat} (v : BitVec k) (p : Nat) (h : p + k ≤ 20) : (place v p).extractLsb' p k = v := by
  apply BitVec.eq_of_getLsbD_eq
  intro i hi
  rw [BitVec.getLsbD_extractLsb', place_getLsbD]
  have h1 : p + i < 20 := by omega
  have h2 : ¬ p + i < p := by omega
  have h3 : p + i - p = i := by omega
  simp [h1, h2, h3, hi]

@[simp] theorem extract_place_off {k : Nat} (v : BitVec k) (p q l : Nat) (h : q + l ≤ p ∨ p + k ≤ q) : (place v p).extractLsb' q l = 0 := by
  apply BitVec.eq_of_getLsbD_eq
  intro i hi
  rw [BitVec.getLsbD_extractLsb', place_getLsbD]
  rcases h with h | h
  · have : q + i < p := by omega
    simp [this]
  · rw [BitVec.getLsbD_of_ge v _ (by omega)]; simp

@[simp] theorem place_getElem {k : Nat} (v : BitVec k) (p i : Nat) (h : i < 20) :
    (place v p)[i] = (!decide (i < p) && v.getLsbD (i - p)) := by
  rw [← BitVec.getLsbD_eq_getElem, place_getLsbD]
  simp [h]

@[simp] theorem ofField_v (n : BitVec 8) (ext : Word) : Opd.ofField (Opd.v n).toField ext = .v n :=
  Opd.ofField_toField _ _ (by rintro x h; cases h)

theorem special_eq_int (n : BitVec 5) : special n = (Opd.int n).toField := by
  apply BitVec.eq_of_toNat_eq
  rw [special_toNat n (by decide), Opd.toField_int]

@[simp] theorem ofField_special5 (n : BitVec 5) (ext : Word) : Opd.ofField (special n) ext = .int n := by
  rw [special_eq_int]; exact Opd.ofField_toField _ _ (by rintro x h; cases h)

@[simp] theorem ofField_special3 (n : BitVec 3) (ext : Word) : Opd.ofField (special n) ext = .int (n.setWidth 5) := by
  have : special n = special (n.setWidth 5) := by
    apply BitVec.eq_of_toNat_eq
    have := n.isLt
    rw [special_toNat n (by decide), special_toNat _ (by decide), BitVec.toNat_setWidth]; omega
  rw [this, ofField_special5]

@[simp] theorem vreg_toField (n : BitVec 8) : vreg (Opd.v n).toField = n := setWidth_toField_v n
@[simp] theorem dst_toField_v (n : BitVec 8) : Dst.ofField (Opd.v n).toField = .v n := Dst.ofField_toField (.v n)
theorem ofField_eq {o : Opd} {ext : Word} (h : o.fits ext) : Opd.ofField o.toField ext = o := Opd.ofField_toField o ext h
@[simp] theorem ofBool_zero (b : Bool) : (BitVec.ofBool b).getLsbD 0 = b := by cases b <;> rfl
@[simp] theorem ofBool_elem (b : Bool) : (BitVec.ofBool b)[0] = b := by cases b <;> rfl
@[simp] theorem code8_setWidth (t : BitVec 8) : (t.setWidth 32).setWidth 8 = t := by
  apply BitVec.eq_of_toNat_eq
  have := t.isLt
  rw [BitVec.toNat_setWidth, BitVec.toNat_setWidth]; omega
theorem code8_lt (t : BitVec 8) : (t.setWidth 32).toNat < 256 := by
  have := t.isLt
  rw [BitVec.toNat_setWidth]; omega
theorem okExt_code (t : BitVec 8) : okExt .code false (t.setWidth 32) = true := by
  simp only [okExt, Bool.false_or, decide_eq_true_eq]; exact code8_lt t

theorem okFp_parts {t : Ty} {sat : Bool} {rnd : Rnd} (h : okFp t sat rnd = true) : t.isFloat = true ∧ (sat = false ∨ t.isPair = true) ∧ (rnd.code = 0#2 ∨ t.isReal = true) := by
  simp only [okFp, Bool.and_eq_true, Bool.or_eq_true, Bool.not_eq_true', decide_eq_true_eq, and_assoc] at h
  exact ⟨h.1, h.2.1, h.2.2.imp (by rintro rfl; rfl) id⟩
theorem Dst.toField_ne_none {a : Dst} (h : ¬ a = .none) : ¬ a.toField = 510#9 := by
  intro e
  have := congrArg Dst.ofField e
  rw [Dst.ofField_toField] at this
  exact h this
theorem okAop_types {op : Aop} {t : Ty} (h : okAop op t = true) : (t.isInt = true ∨ t.isBits = true) ∨ t.isReal = true := by
  cases op <;> simp only [okAop, Bool.or_eq_true] at h <;> tauto
theorem waitc_parts (a b c d : BitVec 8) : (d ++ c ++ b ++ a).extractLsb' 0 8 = a ∧ (d ++ c ++ b ++ a).extractLsb' 8 8 = b ∧
    (d ++ c ++ b ++ a).extractLsb' 16 8 = c ∧ (d ++ c ++ b ++ a).extractLsb' 24 8 = d := by
  refine ⟨extract_append_lo (m := 24) _ _, ?_, ?_, ?_⟩
  · exact (extract_append_hi (m := 24) (n := 8) _ _ _ _ (by decide)).trans (extract_append_lo (m := 16) _ _)
  · exact ((extract_append_hi (m := 24) (n := 8) _ _ _ _ (by decide)).trans (extract_append_hi (m := 16) (n := 8) _ _ _ _ (by decide))).trans (extract_append_lo (m := 8) _ _)
  · exact ((extract_append_hi (m := 24) (n := 8) _ _ _ _ (by decide)).trans (extract_append_hi (m := 16) (n := 8) _ _ _ _ (by decide))).trans ((extract_append_hi (m := 8) (n := 8) _ _ _ _ (by decide)).trans (extract_all _))
theorem k1 {st : Stream} {k k' : Kd} {v : BitVec 9} {ext : Word} {n : Nat} (h : k = k') (f : FieldOk st k' v ext n) :
    FieldOk st k v ext n := h ▸ f
theorem tepiField {st : Stream} {ext : Word} (tb : Option (BitVec 3)) :
    FieldOk st (.tile true) (match tb with | some n => special n | none => 0x1FE#9) ext 0 := by
  cases tb with
  | none => exact .tileNone
  | some n => exact .tile
theorem tepiTb (tb : Option (BitVec 3)) : (if (match tb with | some n => special n | none => 0x1FE#9) = 510#9 then none else
    some (low3 (match tb with | some n => special n | none => 0x1FE#9))) = tb := by
  cases tb with
  | none => rfl
  | some n =>
    have hs := special_toNat n (by decide)
    have hn := n.isLt
    dsimp only
    rw [if_neg (by intro e; rw [e] at hs; have : (510#9).toNat = 510 := rfl; omega), low3_special]
@[simp] theorem okUni_v (n : BitVec 8) (l : List Opd) : okUni (.v n) l = true := rfl
theorem Scope.code_le (s : Scope) : s.code.toNat ≤ 4 := by cases s <;> decide
theorem Scope.code_wide {s : Scope} (h : s.wide = true) : 2 ≤ s.code.toNat := by cases s <;> first | decide | cases h
theorem Pattern.code_le (p : Pattern) : p.code.toNat ≤ 3 := by cases p <;> decide

/-- The readings of a word's fields, as rewriting rules. -/
theorem raw_fields (r : Raw) :
    r.hdr = { g1 := r.g1, g2 := r.g2, gc := r.gc, sch := r.sch, slk := r.slk, hint := r.hint } ∧ r.dst = Dst.ofField r.a ∧
    r.srcA = Opd.ofField r.a r.ext ∧ r.srcB = Opd.ofField r.b r.ext ∧ r.srcC = Opd.ofField r.c r.ext ∧
    r.srcD = Opd.ofField r.d r.ext ∧ r.srcE = Opd.ofField r.e r.ext ∧ r.sat = r.xf.getLsbD 6 ∧
    r.rnd = r.xf.extractLsb' 4 2 ∧ r.pdV = r.xf.extractLsb' 7 3 ∧ r.condV = r.xf.extractLsb' 10 4 ∧
    r.slot = r.xf.extractLsb' 14 3 ∧ r.stype = r.xf.extractLsb' 0 4 ∧ r.scope = r.xf.extractLsb' 0 3 ∧
    r.kind = r.xf.extractLsb' 4 2 ∧ r.aop = r.xf.extractLsb' 6 4 ∧ r.isc = r.xf.extractLsb' 13 3 ∧
    r.pdM = r.xf.extractLsb' 10 3 ∧ r.spec = r.xf.getLsbD 3 ∧ r.excl = r.xf.getLsbD 4 ∧ r.seg = r.xf.getLsbD 5 ∧
    r.mem = { base := Opd.ofField r.b r.ext, index := Opd.ofField r.c r.ext, isc := r.xf.extractLsb' 13 3, off := r.ext } ∧
    r.code8 = r.ext.setWidth 8 :=
  ⟨rfl, rfl, rfl, rfl, rfl, rfl, rfl, rfl, rfl, rfl, rfl, rfl, rfl, rfl, rfl, rfl, rfl, rfl, rfl, rfl, rfl, rfl, rfl⟩

end Sys2Proof
end

