-- ==== Sys2Proof/Laws/PerInstr.lean ====
section
/-! SUPPORT. Reading an instruction's word gives the instruction back: one lemma per constructor. -/

namespace Sys2Proof

/-- The word that the encoder gives a well-formed instruction decodes to that instruction. -/
def Laws.RoundTrip.Statement (i : Instr) : Prop :=
  ∀ (st : Stream) (w : IWord), WellFormed st i = true → encode i = some w → decodeWord st w = .ok i

-- One proof at a time: together they need more threads than the memory limit allows.
set_option Elab.async false
set_option linter.unusedSimpArgs false

theorem Laws.RoundTrip.iadd (h t sat a b c) : Laws.RoundTrip.Statement (.iadd h t sat a b c) := by
  intro st w hwf hw
  simp only [WellFormed, MAddr.ok, MAddr.uniFor, okArith, List.all_cons, List.all_nil, Bool.and_eq_true,
      Bool.or_eq_true, Bool.and_true, decide_eq_true_eq, and_assoc] at hwf
  obtain ⟨hh, ht, ha, hb, hc, hl, hu⟩ := hwf
  have fb := fits_of hl (o := b) (by simp)
  have fc := fits_of hl (o := c) (by simp)
  have eb : Opd.ofField b.toField ((litOf [b, c]).getD 0#32) = b := ofField_eq fb
  have ec : Opd.ofField c.toField ((litOf [b, c]).getD 0#32) = c := ofField_eq fc
  refine decode_encode (o := .iadd) hw rfl (reason_none [b, c] ?_ ?_ ?_ (.d ?_) (.s ?_ fb) (.s ?_ fc) (.none _ _)
      (.none _ _) (place_clear (BitVec.ofBool sat) 6 (~~~(mSAT)) (by decide)) rfl hl ?_ (.inl ⟨rfl, rfl⟩) hh ?_ ?_ ?_ ?_
      ?_) ?_
  all_goals simp [entry, entryArith, entryMem, subTy, rawOf, okDst, generalSrcs, Kd.general, Kd.isDst, build,
      raw_fields, litN_zero, Nat.add_assoc, ht, ha, hb, hc, hu, eb, ec]

theorem Laws.RoundTrip.isub (h t sat a b c) : Laws.RoundTrip.Statement (.isub h t sat a b c) := by
  intro st w hwf hw
  simp only [WellFormed, MAddr.ok, MAddr.uniFor, okArith, List.all_cons, List.all_nil, Bool.and_eq_true,
      Bool.or_eq_true, Bool.and_true, decide_eq_true_eq, and_assoc] at hwf
  obtain ⟨hh, ht, ha, hb, hc, hl, hu⟩ := hwf
  have fb := fits_of hl (o := b) (by simp)
  have fc := fits_of hl (o := c) (by simp)
  have eb : Opd.ofField b.toField ((litOf [b, c]).getD 0#32) = b := ofField_eq fb
  have ec : Opd.ofField c.toField ((litOf [b, c]).getD 0#32) = c := ofField_eq fc
  refine decode_encode (o := .isub) hw rfl (reason_none [b, c] ?_ ?_ ?_ (.d ?_) (.s ?_ fb) (.s ?_ fc) (.none _ _)
      (.none _ _) (place_clear (BitVec.ofBool sat) 6 (~~~(mSAT)) (by decide)) rfl hl ?_ (.inl ⟨rfl, rfl⟩) hh ?_ ?_ ?_ ?_
      ?_) ?_
  all_goals simp [entry, entryArith, entryMem, subTy, rawOf, okDst, generalSrcs, Kd.general, Kd.isDst, build,
      raw_fields, litN_zero, Nat.add_assoc, ht, ha, hb, hc, hu, eb, ec]

theorem Laws.RoundTrip.imul (h t sat a b c) : Laws.RoundTrip.Statement (.imul h t sat a b c) := by
  intro st w hwf hw
  simp only [WellFormed, MAddr.ok, MAddr.uniFor, okArith, List.all_cons, List.all_nil, Bool.and_eq_true,
      Bool.or_eq_true, Bool.and_true, decide_eq_true_eq, and_assoc] at hwf
  obtain ⟨hh, ht, ha, hb, hc, hl, hu⟩ := hwf
  have fb := fits_of hl (o := b) (by simp)
  have fc := fits_of hl (o := c) (by simp)
  have eb : Opd.ofField b.toField ((litOf [b, c]).getD 0#32) = b := ofField_eq fb
  have ec : Opd.ofField c.toField ((litOf [b, c]).getD 0#32) = c := ofField_eq fc
  refine decode_encode (o := .imul) hw rfl (reason_none [b, c] ?_ ?_ ?_ (.d ?_) (.s ?_ fb) (.s ?_ fc) (.none _ _)
      (.none _ _) (place_clear (BitVec.ofBool sat) 6 (~~~(mSAT)) (by decide)) rfl hl ?_ (.inl ⟨rfl, rfl⟩) hh ?_ ?_ ?_ ?_
      ?_) ?_
  all_goals simp [entry, entryArith, entryMem, subTy, rawOf, okDst, generalSrcs, Kd.general, Kd.isDst, build,
      raw_fields, litN_zero, Nat.add_assoc, ht, ha, hb, hc, hu, eb, ec]

theorem Laws.RoundTrip.imulh (h t a b c) : Laws.RoundTrip.Statement (.imulh h t a b c) := by
  intro st w hwf hw
  simp only [WellFormed, MAddr.ok, MAddr.uniFor, okArith, List.all_cons, List.all_nil, Bool.and_eq_true,
      Bool.or_eq_true, Bool.and_true, decide_eq_true_eq, and_assoc] at hwf
  obtain ⟨rfl, hh, ht, ha, hb, hc, hl, hu⟩ := hwf
  have fb := fits_of hl (o := b) (by simp)
  have fc := fits_of hl (o := c) (by simp)
  have eb : Opd.ofField b.toField ((litOf [b, c]).getD 0#32) = b := ofField_eq fb
  have ec : Opd.ofField c.toField ((litOf [b, c]).getD 0#32) = c := ofField_eq fc
  refine decode_encode (o := .imulh) hw rfl (reason_none [b, c] ?_ ?_ ?_ (.d ?_) (.s ?_ fb) (.s ?_ fc) (.none _ _)
      (.none _ _) (by simp [rawOf]) rfl hl ?_ (.inl ⟨rfl, rfl⟩) hh ?_ ?_ ?_ ?_ ?_) ?_
  all_goals simp [entry, entryArith, entryMem, subTy, rawOf, okDst, generalSrcs, Kd.general, Kd.isDst, build,
      raw_fields, litN_zero, Nat.add_assoc, ht, ha, hb, hc, hu, eb, ec]

theorem Laws.RoundTrip.imad (h t sat a b c e) : Laws.RoundTrip.Statement (.imad h t sat a b c e) := by
  intro st w hwf hw
  simp only [WellFormed, MAddr.ok, MAddr.uniFor, okArith, List.all_cons, List.all_nil, Bool.and_eq_true,
      Bool.or_eq_true, Bool.and_true, decide_eq_true_eq, and_assoc] at hwf
  obtain ⟨hh, ht, ha, hb, hc, he, hl, hu⟩ := hwf
  have fb := fits_of hl (o := b) (by simp)
  have fc := fits_of hl (o := c) (by simp)
  have fe := fits_of hl (o := e) (by simp)
  have eb : Opd.ofField b.toField ((litOf [b, c, e]).getD 0#32) = b := ofField_eq fb
  have ec : Opd.ofField c.toField ((litOf [b, c, e]).getD 0#32) = c := ofField_eq fc
  have ee : Opd.ofField e.toField ((litOf [b, c, e]).getD 0#32) = e := ofField_eq fe
  refine decode_encode (o := .imad) hw rfl (reason_none [b, c, e] ?_ ?_ ?_ (.d ?_) (.s ?_ fb) (.s ?_ fc) (.s ?_ fe)
      (.none _ _) (place_clear (BitVec.ofBool sat) 6 (~~~(mSAT)) (by decide)) rfl hl ?_ (.inl ⟨rfl, rfl⟩) hh ?_ ?_ ?_ ?_
      ?_) ?_
  all_goals simp [entry, entryArith, entryMem, subTy, rawOf, okDst, generalSrcs, Kd.general, Kd.isDst, build,
      raw_fields, litN_zero, Nat.add_assoc, ht, ha, hb, hc, he, hu, eb, ec, ee]

theorem Laws.RoundTrip.idiv (h t sat a m b c) : Laws.RoundTrip.Statement (.idiv h t sat a m b c) := by
  intro st w hwf hw
  simp only [WellFormed, MAddr.ok, MAddr.uniFor, okArith, List.all_cons, List.all_nil, Bool.and_eq_true,
      Bool.or_eq_true, Bool.and_true, decide_eq_true_eq, and_assoc] at hwf
  obtain ⟨rfl, hh, ht, ha, hb, hc, hl, hu, hm, hv, hq⟩ := hwf
  have fb := fits_of hl (o := b) (by simp)
  have fc := fits_of hl (o := c) (by simp)
  have eb : Opd.ofField b.toField ((litOf [b, c]).getD 0#32) = b := ofField_eq fb
  have ec : Opd.ofField c.toField ((litOf [b, c]).getD 0#32) = c := ofField_eq fc
  refine decode_encode (o := .idiv) hw rfl (reason_none [b, c] ?_ ?_ ?_ (.d ?_) (.s ?_ fb) (.s ?_ fc) (.none _ _)
      (.d ?_) (place_clear (BitVec.ofBool sat) 6 (~~~(mSAT)) (by decide)) rfl hl ?_ (.inl ⟨rfl, rfl⟩) hh ?_ ?_ ?_ ?_ ?_)
      ?_
  all_goals simp [entry, entryArith, entryMem, subTy, rawOf, okDst, generalSrcs, Kd.general, Kd.isDst, build,
      raw_fields, litN_zero, Nat.add_assoc, ht, ha, hb, hc, hu, hm, hv, hq, eb, ec]

theorem Laws.RoundTrip.imin (h t a b c) : Laws.RoundTrip.Statement (.imin h t a b c) := by
  intro st w hwf hw
  simp only [WellFormed, MAddr.ok, MAddr.uniFor, okArith, List.all_cons, List.all_nil, Bool.and_eq_true,
      Bool.or_eq_true, Bool.and_true, decide_eq_true_eq, and_assoc] at hwf
  obtain ⟨hh, ht, ha, hb, hc, hl, hu⟩ := hwf
  have fb := fits_of hl (o := b) (by simp)
  have fc := fits_of hl (o := c) (by simp)
  have eb : Opd.ofField b.toField ((litOf [b, c]).getD 0#32) = b := ofField_eq fb
  have ec : Opd.ofField c.toField ((litOf [b, c]).getD 0#32) = c := ofField_eq fc
  refine decode_encode (o := .imin) hw rfl (reason_none [b, c] ?_ ?_ ?_ (.d ?_) (.s ?_ fb) (.s ?_ fc) (.none _ _)
      (.none _ _) (by simp [rawOf]) rfl hl ?_ (.inl ⟨rfl, rfl⟩) hh ?_ ?_ ?_ ?_ ?_) ?_
  all_goals simp [entry, entryArith, entryMem, subTy, rawOf, okDst, generalSrcs, Kd.general, Kd.isDst, build,
      raw_fields, litN_zero, Nat.add_assoc, ht, ha, hb, hc, hu, eb, ec]

theorem Laws.RoundTrip.imax (h t a b c) : Laws.RoundTrip.Statement (.imax h t a b c) := by
  intro st w hwf hw
  simp only [WellFormed, MAddr.ok, MAddr.uniFor, okArith, List.all_cons, List.all_nil, Bool.and_eq_true,
      Bool.or_eq_true, Bool.and_true, decide_eq_true_eq, and_assoc] at hwf
  obtain ⟨hh, ht, ha, hb, hc, hl, hu⟩ := hwf
  have fb := fits_of hl (o := b) (by simp)
  have fc := fits_of hl (o := c) (by simp)
  have eb : Opd.ofField b.toField ((litOf [b, c]).getD 0#32) = b := ofField_eq fb
  have ec : Opd.ofField c.toField ((litOf [b, c]).getD 0#32) = c := ofField_eq fc
  refine decode_encode (o := .imax) hw rfl (reason_none [b, c] ?_ ?_ ?_ (.d ?_) (.s ?_ fb) (.s ?_ fc) (.none _ _)
      (.none _ _) (by simp [rawOf]) rfl hl ?_ (.inl ⟨rfl, rfl⟩) hh ?_ ?_ ?_ ?_ ?_) ?_
  all_goals simp [entry, entryArith, entryMem, subTy, rawOf, okDst, generalSrcs, Kd.general, Kd.isDst, build,
      raw_fields, litN_zero, Nat.add_assoc, ht, ha, hb, hc, hu, eb, ec]

theorem Laws.RoundTrip.iabs (h t sat a b) : Laws.RoundTrip.Statement (.iabs h t sat a b) := by
  intro st w hwf hw
  simp only [WellFormed, MAddr.ok, MAddr.uniFor, okArith, List.all_cons, List.all_nil, Bool.and_eq_true,
      Bool.or_eq_true, Bool.and_true, decide_eq_true_eq, and_assoc] at hwf
  obtain ⟨rfl, hh, ht, ha, hb, hl, hu⟩ := hwf
  have fb := fits_of hl (o := b) (by simp)
  have eb : Opd.ofField b.toField ((litOf [b]).getD 0#32) = b := ofField_eq fb
  refine decode_encode (o := .iabs) hw rfl (reason_none [b] ?_ ?_ ?_ (.d ?_) (.s ?_ fb) (.none _ _) (.none _ _)
      (.none _ _) (place_clear (BitVec.ofBool sat) 6 (~~~(mSAT)) (by decide)) rfl hl ?_ (.inl ⟨rfl, rfl⟩) hh ?_ ?_ ?_ ?_
      ?_) ?_
  all_goals simp [entry, entryArith, entryMem, subTy, rawOf, okDst, generalSrcs, Kd.general, Kd.isDst, build,
      raw_fields, litN_zero, Nat.add_assoc, ht, ha, hb, hu, eb]

theorem Laws.RoundTrip.and (h t a b c) : Laws.RoundTrip.Statement (.and h t a b c) := by
  intro st w hwf hw
  simp only [WellFormed, MAddr.ok, MAddr.uniFor, okArith, List.all_cons, List.all_nil, Bool.and_eq_true,
      Bool.or_eq_true, Bool.and_true, decide_eq_true_eq, and_assoc] at hwf
  obtain ⟨hh, ht, ha, hb, hc, hl, hu⟩ := hwf
  have fb := fits_of hl (o := b) (by simp)
  have fc := fits_of hl (o := c) (by simp)
  have eb : Opd.ofField b.toField ((litOf [b, c]).getD 0#32) = b := ofField_eq fb
  have ec : Opd.ofField c.toField ((litOf [b, c]).getD 0#32) = c := ofField_eq fc
  refine decode_encode (o := .and) hw rfl (reason_none [b, c] ?_ ?_ ?_ (.d ?_) (.s ?_ fb) (.s ?_ fc) (.none _ _)
      (.none _ _) (by simp [rawOf]) rfl hl ?_ (.inl ⟨rfl, rfl⟩) hh ?_ ?_ ?_ ?_ ?_) ?_
  all_goals simp [entry, entryArith, entryMem, subTy, rawOf, okDst, generalSrcs, Kd.general, Kd.isDst, build,
      raw_fields, litN_zero, Nat.add_assoc, ht, ha, hb, hc, hu, eb, ec]

theorem Laws.RoundTrip.or (h t a b c) : Laws.RoundTrip.Statement (.or h t a b c) := by
  intro st w hwf hw
  simp only [WellFormed, MAddr.ok, MAddr.uniFor, okArith, List.all_cons, List.all_nil, Bool.and_eq_true,
      Bool.or_eq_true, Bool.and_true, decide_eq_true_eq, and_assoc] at hwf
  obtain ⟨hh, ht, ha, hb, hc, hl, hu⟩ := hwf
  have fb := fits_of hl (o := b) (by simp)
  have fc := fits_of hl (o := c) (by simp)
  have eb : Opd.ofField b.toField ((litOf [b, c]).getD 0#32) = b := ofField_eq fb
  have ec : Opd.ofField c.toField ((litOf [b, c]).getD 0#32) = c := ofField_eq fc
  refine decode_encode (o := .or) hw rfl (reason_none [b, c] ?_ ?_ ?_ (.d ?_) (.s ?_ fb) (.s ?_ fc) (.none _ _)
      (.none _ _) (by simp [rawOf]) rfl hl ?_ (.inl ⟨rfl, rfl⟩) hh ?_ ?_ ?_ ?_ ?_) ?_
  all_goals simp [entry, entryArith, entryMem, subTy, rawOf, okDst, generalSrcs, Kd.general, Kd.isDst, build,
      raw_fields, litN_zero, Nat.add_assoc, ht, ha, hb, hc, hu, eb, ec]

theorem Laws.RoundTrip.xor (h t a b c) : Laws.RoundTrip.Statement (.xor h t a b c) := by
  intro st w hwf hw
  simp only [WellFormed, MAddr.ok, MAddr.uniFor, okArith, List.all_cons, List.all_nil, Bool.and_eq_true,
      Bool.or_eq_true, Bool.and_true, decide_eq_true_eq, and_assoc] at hwf
  obtain ⟨hh, ht, ha, hb, hc, hl, hu⟩ := hwf
  have fb := fits_of hl (o := b) (by simp)
  have fc := fits_of hl (o := c) (by simp)
  have eb : Opd.ofField b.toField ((litOf [b, c]).getD 0#32) = b := ofField_eq fb
  have ec : Opd.ofField c.toField ((litOf [b, c]).getD 0#32) = c := ofField_eq fc
  refine decode_encode (o := .xor) hw rfl (reason_none [b, c] ?_ ?_ ?_ (.d ?_) (.s ?_ fb) (.s ?_ fc) (.none _ _)
      (.none _ _) (by simp [rawOf]) rfl hl ?_ (.inl ⟨rfl, rfl⟩) hh ?_ ?_ ?_ ?_ ?_) ?_
  all_goals simp [entry, entryArith, entryMem, subTy, rawOf, okDst, generalSrcs, Kd.general, Kd.isDst, build,
      raw_fields, litN_zero, Nat.add_assoc, ht, ha, hb, hc, hu, eb, ec]

theorem Laws.RoundTrip.andn (h t a b c) : Laws.RoundTrip.Statement (.andn h t a b c) := by
  intro st w hwf hw
  simp only [WellFormed, MAddr.ok, MAddr.uniFor, okArith, List.all_cons, List.all_nil, Bool.and_eq_true,
      Bool.or_eq_true, Bool.and_true, decide_eq_true_eq, and_assoc] at hwf
  obtain ⟨rfl, hh, ht, ha, hb, hc, hl, hu⟩ := hwf
  have fb := fits_of hl (o := b) (by simp)
  have fc := fits_of hl (o := c) (by simp)
  have eb : Opd.ofField b.toField ((litOf [b, c]).getD 0#32) = b := ofField_eq fb
  have ec : Opd.ofField c.toField ((litOf [b, c]).getD 0#32) = c := ofField_eq fc
  refine decode_encode (o := .andn) hw rfl (reason_none [b, c] ?_ ?_ ?_ (.d ?_) (.s ?_ fb) (.s ?_ fc) (.none _ _)
      (.none _ _) (by simp [rawOf]) rfl hl ?_ (.inl ⟨rfl, rfl⟩) hh ?_ ?_ ?_ ?_ ?_) ?_
  all_goals simp [entry, entryArith, entryMem, subTy, rawOf, okDst, generalSrcs, Kd.general, Kd.isDst, build,
      raw_fields, litN_zero, Nat.add_assoc, ht, ha, hb, hc, hu, eb, ec]

theorem Laws.RoundTrip.bfn3 (h t a b c e tt) : Laws.RoundTrip.Statement (.bfn3 h t a b c e tt) := by
  intro st w hwf hw
  simp only [WellFormed, MAddr.ok, MAddr.uniFor, okArith, List.all_cons, List.all_nil, Bool.and_eq_true,
      Bool.or_eq_true, Bool.and_true, decide_eq_true_eq, and_assoc] at hwf
  obtain ⟨rfl, hh, ht, ha, hb, hc, he, hl2, hu, hlb, hlc, hle⟩ := hwf
  have hl : okLits [] = true := rfl
  have bL : b.isLit = false := by simpa using hlb
  have fb := fits_of_not_lit (ext := tt.setWidth 32) bL
  have eb : Opd.ofField b.toField (tt.setWidth 32) = b := ofField_eq fb
  have bN := litN_zero bL
  have cL : c.isLit = false := by simpa using hlc
  have fc := fits_of_not_lit (ext := tt.setWidth 32) cL
  have ec : Opd.ofField c.toField (tt.setWidth 32) = c := ofField_eq fc
  have cN := litN_zero cL
  have eL : e.isLit = false := by simpa using hle
  have fe := fits_of_not_lit (ext := tt.setWidth 32) eL
  have ee : Opd.ofField e.toField (tt.setWidth 32) = e := ofField_eq fe
  have eN := litN_zero eL
  refine decode_encode (o := .bfn3) hw rfl (reason_none [] ?_ ?_ ?_ (.d ?_) (.s ?_ fb) (.s ?_ fc) (.s ?_ fe) (.none
      _ _) (by simp [rawOf]) rfl hl ?_ (.inr ⟨rfl, okExt_code tt, by intro hx; cases hx⟩) hh ?_ ?_ ?_ ?_ ?_) ?_
  all_goals simp [entry, entryArith, entryMem, subTy, rawOf, okDst, generalSrcs, Kd.general, Kd.isDst, build,
      raw_fields, litN_zero, Nat.add_assoc, ht, ha, hb, hc, he, hl2, hu, hlb, hlc, hle, eb, ec, ee, bN, cN, eN]

theorem Laws.RoundTrip.shl (h t a b c) : Laws.RoundTrip.Statement (.shl h t a b c) := by
  intro st w hwf hw
  simp only [WellFormed, MAddr.ok, MAddr.uniFor, okArith, List.all_cons, List.all_nil, Bool.and_eq_true,
      Bool.or_eq_true, Bool.and_true, decide_eq_true_eq, and_assoc] at hwf
  obtain ⟨hh, ht, ha, hb, hc, hl, hu⟩ := hwf
  have fb := fits_of hl (o := b) (by simp)
  have fc := fits_of hl (o := c) (by simp)
  have eb : Opd.ofField b.toField ((litOf [b, c]).getD 0#32) = b := ofField_eq fb
  have ec : Opd.ofField c.toField ((litOf [b, c]).getD 0#32) = c := ofField_eq fc
  refine decode_encode (o := .shl) hw rfl (reason_none [b, c] ?_ ?_ ?_ (.d ?_) (.s ?_ fb) (.s ?_ fc) (.none _ _)
      (.none _ _) (by simp [rawOf]) rfl hl ?_ (.inl ⟨rfl, rfl⟩) hh ?_ ?_ ?_ ?_ ?_) ?_
  all_goals simp [entry, entryArith, entryMem, subTy, rawOf, okDst, generalSrcs, Kd.general, Kd.isDst, build,
      raw_fields, litN_zero, Nat.add_assoc, ht, ha, hb, hc, hu, eb, ec]

theorem Laws.RoundTrip.shr (h t a b c) : Laws.RoundTrip.Statement (.shr h t a b c) := by
  intro st w hwf hw
  simp only [WellFormed, MAddr.ok, MAddr.uniFor, okArith, List.all_cons, List.all_nil, Bool.and_eq_true,
      Bool.or_eq_true, Bool.and_true, decide_eq_true_eq, and_assoc] at hwf
  obtain ⟨hh, ht, ha, hb, hc, hl, hu⟩ := hwf
  have fb := fits_of hl (o := b) (by simp)
  have fc := fits_of hl (o := c) (by simp)
  have eb : Opd.ofField b.toField ((litOf [b, c]).getD 0#32) = b := ofField_eq fb
  have ec : Opd.ofField c.toField ((litOf [b, c]).getD 0#32) = c := ofField_eq fc
  refine decode_encode (o := .shr) hw rfl (reason_none [b, c] ?_ ?_ ?_ (.d ?_) (.s ?_ fb) (.s ?_ fc) (.none _ _)
      (.none _ _) (by simp [rawOf]) rfl hl ?_ (.inl ⟨rfl, rfl⟩) hh ?_ ?_ ?_ ?_ ?_) ?_
  all_goals simp [entry, entryArith, entryMem, subTy, rawOf, okDst, generalSrcs, Kd.general, Kd.isDst, build,
      raw_fields, litN_zero, Nat.add_assoc, ht, ha, hb, hc, hu, eb, ec]

theorem Laws.RoundTrip.fsh (h t a b c e) : Laws.RoundTrip.Statement (.fsh h t a b c e) := by
  intro st w hwf hw
  simp only [WellFormed, MAddr.ok, MAddr.uniFor, okArith, List.all_cons, List.all_nil, Bool.and_eq_true,
      Bool.or_eq_true, Bool.and_true, decide_eq_true_eq, and_assoc] at hwf
  obtain ⟨rfl, hh, ht, ha, hb, hc, he, hl, hu⟩ := hwf
  have fb := fits_of hl (o := b) (by simp)
  have fc := fits_of hl (o := c) (by simp)
  have fe := fits_of hl (o := e) (by simp)
  have eb : Opd.ofField b.toField ((litOf [b, c, e]).getD 0#32) = b := ofField_eq fb
  have ec : Opd.ofField c.toField ((litOf [b, c, e]).getD 0#32) = c := ofField_eq fc
  have ee : Opd.ofField e.toField ((litOf [b, c, e]).getD 0#32) = e := ofField_eq fe
  refine decode_encode (o := .fsh) hw rfl (reason_none [b, c, e] ?_ ?_ ?_ (.d ?_) (.s ?_ fb) (.s ?_ fc) (.s ?_ fe)
      (.none _ _) (by simp [rawOf]) rfl hl ?_ (.inl ⟨rfl, rfl⟩) hh ?_ ?_ ?_ ?_ ?_) ?_
  all_goals simp [entry, entryArith, entryMem, subTy, rawOf, okDst, generalSrcs, Kd.general, Kd.isDst, build,
      raw_fields, litN_zero, Nat.add_assoc, ht, ha, hb, hc, he, hu, eb, ec, ee]

theorem Laws.RoundTrip.popc (h t a b) : Laws.RoundTrip.Statement (.popc h t a b) := by
  intro st w hwf hw
  simp only [WellFormed, MAddr.ok, MAddr.uniFor, okArith, List.all_cons, List.all_nil, Bool.and_eq_true,
      Bool.or_eq_true, Bool.and_true, decide_eq_true_eq, and_assoc] at hwf
  obtain ⟨rfl, hh, ht, ha, hb, hu⟩ := hwf
  have hl : okLits [b] = true := by simp only [okLits, List.filter]; cases b <;> rfl
  have fb := fits_of hl (o := b) (by simp)
  have eb : Opd.ofField b.toField ((litOf [b]).getD 0#32) = b := ofField_eq fb
  refine decode_encode (o := .popc) hw rfl (reason_none [b] ?_ ?_ ?_ (.d ?_) (.s ?_ fb) (.none _ _) (.none _ _)
      (.none _ _) (by simp [rawOf]) rfl hl ?_ (.inl ⟨rfl, rfl⟩) hh ?_ ?_ ?_ ?_ ?_) ?_
  all_goals simp [entry, entryArith, entryMem, subTy, rawOf, okDst, generalSrcs, Kd.general, Kd.isDst, build,
      raw_fields, litN_zero, Nat.add_assoc, ht, ha, hb, hu, eb]

theorem Laws.RoundTrip.clz (h t a b) : Laws.RoundTrip.Statement (.clz h t a b) := by
  intro st w hwf hw
  simp only [WellFormed, MAddr.ok, MAddr.uniFor, okArith, List.all_cons, List.all_nil, Bool.and_eq_true,
      Bool.or_eq_true, Bool.and_true, decide_eq_true_eq, and_assoc] at hwf
  obtain ⟨rfl, hh, ht, ha, hb, hu⟩ := hwf
  have hl : okLits [b] = true := by simp only [okLits, List.filter]; cases b <;> rfl
  have fb := fits_of hl (o := b) (by simp)
  have eb : Opd.ofField b.toField ((litOf [b]).getD 0#32) = b := ofField_eq fb
  refine decode_encode (o := .clz) hw rfl (reason_none [b] ?_ ?_ ?_ (.d ?_) (.s ?_ fb) (.none _ _) (.none _ _)
      (.none _ _) (by simp [rawOf]) rfl hl ?_ (.inl ⟨rfl, rfl⟩) hh ?_ ?_ ?_ ?_ ?_) ?_
  all_goals simp [entry, entryArith, entryMem, subTy, rawOf, okDst, generalSrcs, Kd.general, Kd.isDst, build,
      raw_fields, litN_zero, Nat.add_assoc, ht, ha, hb, hu, eb]

theorem Laws.RoundTrip.brev (h t a b) : Laws.RoundTrip.Statement (.brev h t a b) := by
  intro st w hwf hw
  simp only [WellFormed, MAddr.ok, MAddr.uniFor, okArith, List.all_cons, List.all_nil, Bool.and_eq_true,
      Bool.or_eq_true, Bool.and_true, decide_eq_true_eq, and_assoc] at hwf
  obtain ⟨rfl, hh, ht, ha, hb, hl, hu⟩ := hwf
  have fb := fits_of hl (o := b) (by simp)
  have eb : Opd.ofField b.toField ((litOf [b]).getD 0#32) = b := ofField_eq fb
  refine decode_encode (o := .brev) hw rfl (reason_none [b] ?_ ?_ ?_ (.d ?_) (.s ?_ fb) (.none _ _) (.none _ _)
      (.none _ _) (by simp [rawOf]) rfl hl ?_ (.inl ⟨rfl, rfl⟩) hh ?_ ?_ ?_ ?_ ?_) ?_
  all_goals simp [entry, entryArith, entryMem, subTy, rawOf, okDst, generalSrcs, Kd.general, Kd.isDst, build,
      raw_fields, litN_zero, Nat.add_assoc, ht, ha, hb, hu, eb]

theorem Laws.RoundTrip.bfx (h t a b p l) : Laws.RoundTrip.Statement (.bfx h t a b p l) := by
  intro st w hwf hw
  simp only [WellFormed, MAddr.ok, MAddr.uniFor, okArith, List.all_cons, List.all_nil, Bool.and_eq_true,
      Bool.or_eq_true, Bool.and_true, decide_eq_true_eq, and_assoc] at hwf
  obtain ⟨rfl, hh, ht, ha, hb, hp, hL, hl, hu⟩ := hwf
  have fb := fits_of hl (o := b) (by simp)
  have fp := fits_of hl (o := p) (by simp)
  have fl := fits_of hl (o := l) (by simp)
  have eb : Opd.ofField b.toField ((litOf [b, p, l]).getD 0#32) = b := ofField_eq fb
  have ep : Opd.ofField p.toField ((litOf [b, p, l]).getD 0#32) = p := ofField_eq fp
  have el : Opd.ofField l.toField ((litOf [b, p, l]).getD 0#32) = l := ofField_eq fl
  refine decode_encode (o := .bfx) hw rfl (reason_none [b, p, l] ?_ ?_ ?_ (.d ?_) (.s ?_ fb) (.s ?_ fp) (.s ?_ fl)
      (.none _ _) (by simp [rawOf]) rfl hl ?_ (.inl ⟨rfl, rfl⟩) hh ?_ ?_ ?_ ?_ ?_) ?_
  all_goals simp [entry, entryArith, entryMem, subTy, rawOf, okDst, generalSrcs, Kd.general, Kd.isDst, build,
      raw_fields, litN_zero, Nat.add_assoc, ht, ha, hb, hp, hL, hu, eb, ep, el]

theorem Laws.RoundTrip.bfi (h t a b f p l) : Laws.RoundTrip.Statement (.bfi h t a b f p l) := by
  intro st w hwf hw
  simp only [WellFormed, MAddr.ok, MAddr.uniFor, okArith, List.all_cons, List.all_nil, Bool.and_eq_true,
      Bool.or_eq_true, Bool.and_true, decide_eq_true_eq, and_assoc] at hwf
  obtain ⟨rfl, hh, ht, ha, hb, hf, hp, hL, hl, hu⟩ := hwf
  have fb := fits_of hl (o := b) (by simp)
  have ff := fits_of hl (o := f) (by simp)
  have fp := fits_of hl (o := p) (by simp)
  have fl := fits_of hl (o := l) (by simp)
  have eb : Opd.ofField b.toField ((litOf [b, f, p, l]).getD 0#32) = b := ofField_eq fb
  have ef : Opd.ofField f.toField ((litOf [b, f, p, l]).getD 0#32) = f := ofField_eq ff
  have ep : Opd.ofField p.toField ((litOf [b, f, p, l]).getD 0#32) = p := ofField_eq fp
  have el : Opd.ofField l.toField ((litOf [b, f, p, l]).getD 0#32) = l := ofField_eq fl
  refine decode_encode (o := .bfi) hw rfl (reason_none [b, f, p, l] ?_ ?_ ?_ (.d ?_) (.s ?_ fb) (.s ?_ ff) (.s ?_
      fp) (.s ?_ fl) (by simp [rawOf]) rfl hl ?_ (.inl ⟨rfl, rfl⟩) hh ?_ ?_ ?_ ?_ ?_) ?_
  all_goals simp [entry, entryArith, entryMem, subTy, rawOf, okDst, generalSrcs, Kd.general, Kd.isDst, build,
      raw_fields, litN_zero, Nat.add_assoc, ht, ha, hb, hf, hp, hL, hu, eb, ef, ep, el]

theorem Laws.RoundTrip.adrs (h t a b x n) : Laws.RoundTrip.Statement (.adrs h t a b x n) := by
  intro st w hwf hw
  simp only [WellFormed, MAddr.ok, MAddr.uniFor, okArith, List.all_cons, List.all_nil, Bool.and_eq_true,
      Bool.or_eq_true, Bool.and_true, decide_eq_true_eq, and_assoc] at hwf
  obtain ⟨rfl, hh, ht, ha, hb, hx, hl, hu⟩ := hwf
  have fb := fits_of hl (o := b) (by simp)
  have fx := fits_of hl (o := x) (by simp)
  have eb : Opd.ofField b.toField ((litOf [b, x]).getD 0#32) = b := ofField_eq fb
  have ex : Opd.ofField x.toField ((litOf [b, x]).getD 0#32) = x := ofField_eq fx
  have hu2 : okUni a [b, x, .int n] = true := by simpa [okUni, Opd.isVec] using hu
  refine decode_encode (o := .adrs) hw rfl (reason_none [b, x] ?_ ?_ ?_ (.d ?_) (.s ?_ fb) (.s ?_ fx) .int (.none _
      _) (by simp [rawOf]) rfl hl ?_ (.inl ⟨rfl, rfl⟩) hh ?_ ?_ ?_ ?_ ?_) ?_
  all_goals simp [entry, entryArith, entryMem, subTy, rawOf, okDst, generalSrcs, Kd.general, Kd.isDst, build,
      raw_fields, litN_zero, Nat.add_assoc, ht, ha, hb, hx, hu, eb, ex, hu2]

theorem Laws.RoundTrip.permb (h a b c e) : Laws.RoundTrip.Statement (.permb h a b c e) := by
  intro st w hwf hw
  simp only [WellFormed, MAddr.ok, MAddr.uniFor, okArith, List.all_cons, List.all_nil, Bool.and_eq_true,
      Bool.or_eq_true, Bool.and_true, decide_eq_true_eq, and_assoc] at hwf
  obtain ⟨rfl, hh, ha, hb, hc, he, hl, hu⟩ := hwf
  have fb := fits_of hl (o := b) (by simp)
  have fc := fits_of hl (o := c) (by simp)
  have fe := fits_of hl (o := e) (by simp)
  have eb : Opd.ofField b.toField ((litOf [b, c, e]).getD 0#32) = b := ofField_eq fb
  have ec : Opd.ofField c.toField ((litOf [b, c, e]).getD 0#32) = c := ofField_eq fc
  have ee : Opd.ofField e.toField ((litOf [b, c, e]).getD 0#32) = e := ofField_eq fe
  refine decode_encode (o := .permb) hw rfl (reason_none [b, c, e] ?_ ?_ ?_ (.d ?_) (.s ?_ fb) (.s ?_ fc) (.s ?_ fe)
      (.none _ _) (by simp [rawOf]) rfl hl ?_ (.inl ⟨rfl, rfl⟩) hh ?_ ?_ ?_ ?_ ?_) ?_
  all_goals simp [entry, entryArith, entryMem, subTy, rawOf, okDst, generalSrcs, Kd.general, Kd.isDst, build,
      raw_fields, litN_zero, Nat.add_assoc, ha, hb, hc, he, hu, eb, ec, ee, Ty.bits]

theorem Laws.RoundTrip.sel (h t a b c p) : Laws.RoundTrip.Statement (.sel h t a b c p) := by
  intro st w hwf hw
  simp only [WellFormed, MAddr.ok, MAddr.uniFor, okArith, List.all_cons, List.all_nil, Bool.and_eq_true,
      Bool.or_eq_true, Bool.and_true, decide_eq_true_eq, and_assoc] at hwf
  obtain ⟨hh, ht, ha, hb, hc, hl, hu, hp⟩ := hwf
  have fb := fits_of hl (o := b) (by simp)
  have fc := fits_of hl (o := c) (by simp)
  have eb : Opd.ofField b.toField ((litOf [b, c]).getD 0#32) = b := ofField_eq fb
  have ec : Opd.ofField c.toField ((litOf [b, c]).getD 0#32) = c := ofField_eq fc
  refine decode_encode (o := .sel) hw rfl (reason_none [b, c] ?_ ?_ ?_ (.d ?_) (.s ?_ fb) (.s ?_ fc) (.pred ?_)
      (.none _ _) (by simp [rawOf]) rfl hl ?_ (.inl ⟨rfl, rfl⟩) hh ?_ ?_ ?_ ?_ ?_) ?_
  all_goals simp [entry, entryArith, entryMem, subTy, rawOf, okDst, generalSrcs, Kd.general, Kd.isDst, build,
      raw_fields, litN_zero, Nat.add_assoc, ht, ha, hb, hc, hu, hp, eb, ec]

theorem Laws.RoundTrip.mov (h t a b) : Laws.RoundTrip.Statement (.mov h t a b) := by
  intro st w hwf hw
  simp only [WellFormed, Bool.and_eq_true] at hwf
  obtain ⟨hh, hwf⟩ := hwf
  by_cases ht : t = .b128
  · subst ht
    simp only [if_pos, Bool.and_eq_true, decide_eq_true_eq, and_assoc] at hwf
    obtain ⟨rfl, ha, hv, hb⟩ := hwf
    cases b with
    | v n =>
      have en := ofField_v n 0#32
      refine decode_encode (o := .mov) hw rfl (reason_none [] ?_ ?_ ?_ (.dv (w := 128) (z := false) ha) (.v (w :=
          128) hb) (.none _ _) (.none _ _) (.none _ _) (by simp [rawOf]) rfl rfl ?_ (.inl ⟨rfl, rfl⟩) hh ?_ ?_ ?_ ?_ ?_)
          ?_
      all_goals simp [entry, entryArith, entryMem, subTy, rawOf, okDst, generalSrcs, Kd.general, Kd.isDst, build,
          raw_fields, litN_zero, Nat.add_assoc, en]
      cases a <;> first | rfl | simp [Dst.okVec] at ha
    | _ => simp [Opd.isVec] at hv
  · rw [if_neg ht] at hwf
    simp only [okArith, List.all_cons, List.all_nil, Bool.and_eq_true, Bool.and_true, and_assoc] at hwf
    obtain ⟨ht2, ha, hb, hl, hu⟩ := hwf
    have hne : ¬ (t.code = Ty.b128.code) := fun e => ht (by rw [← tyOf_code t, e]; rfl)
    have hne2 : ¬ (Ty.b128.code = t.code) := fun e => hne e.symm
    have fb := fits_of hl (o := b) (by simp)
    have eb : Opd.ofField b.toField ((litOf [b]).getD 0#32) = b := ofField_eq fb
    have hentry : ∀ r : Raw, r.sub = t.code → entry st r .mov = entryArith r true (tyOf r.sub).isFloat (Ty.okSel st)
        1 0 := by
      intro r hr; simp only [entry, hr]; rw [if_neg hne]
    refine decode_encode (o := .mov) hw rfl (?_ : Entry.reason st _ (entry st _ .mov) = none) ?_
    · rw [hentry _ rfl]
      refine reason_none [b] ?_ ?_ ?_ (.d ?_) (.s ?_ fb) (.none _ _) (.none _ _) (.none _ _) (by simp [rawOf]) rfl
          hl ?_ (.inl ⟨rfl, rfl⟩) hh ?_ ?_ ?_ ?_ ?_
      all_goals simp [entry, entryArith, entryMem, subTy, rawOf, okDst, generalSrcs, Kd.general, Kd.isDst, build,
          raw_fields, litN_zero, Nat.add_assoc, ht2, ha, hb, hu, eb]
    · simp [entry, entryArith, entryMem, subTy, rawOf, okDst, generalSrcs, Kd.general, Kd.isDst, build, raw_fields,
        litN_zero, Nat.add_assoc, eb]

theorem Laws.RoundTrip.movs (h wide a x) : Laws.RoundTrip.Statement (.movs h wide a x) := by
  intro st w hwf hw
  simp only [WellFormed, okSpecial, Bool.and_eq_true, Bool.or_eq_true, decide_eq_true_eq, and_assoc] at hwf
  obtain ⟨hh, ha, hx, hst⟩ := hwf
  have hs := special_toNat x (by decide)
  have hlt := x.isLt
  have hr : inRange (special x) 0x180 0x1BF = true := inRange_special x (by decide) _ _ (by omega)
  have hn : (special x).toNat - 384 = x.toNat := by omega
  refine decode_encode (o := .movs) hw rfl (reason_none [] ?_ ?_ ?_ (.d ?_) .sreg (.none _ _) (.none _ _) (.none _
      _) (by simp [rawOf]) rfl rfl ?_ (.inl ⟨rfl, rfl⟩) hh ?_ ?_ ?_ ?_ ?_) ?_
  all_goals simp [entry, entryArith, entryMem, subTy, rawOf, okDst, generalSrcs, Kd.general, Kd.isDst, build,
      raw_fields, litN_zero, Nat.add_assoc, hr, hn, hst]
  · cases wide <;> simp [Ty.code] <;> (revert hx; cases specialWidth x.toNat with | none => simp | some k => split
      <;> simp_all)
  · cases wide <;> simpa [Ty.code] using ha
  · revert hx; cases specialWidth x.toNat with
    | none => intro h; simp at h
    | some k => intro _; rfl
  · cases wide <;> decide

theorem Laws.RoundTrip.movc (h x b) : Laws.RoundTrip.Statement (.movc h x b) := by
  intro st w hwf hw
  simp only [WellFormed, MAddr.ok, MAddr.uniFor, okArith, List.all_cons, List.all_nil, Bool.and_eq_true,
      Bool.or_eq_true, Bool.and_true, decide_eq_true_eq, and_assoc] at hwf
  obtain ⟨rfl, hh, hb⟩ := hwf
  have hl : okLits [b] = true := by simp only [okLits, List.filter]; cases b <;> rfl
  have fb := fits_of hl (o := b) (by simp)
  have eb : Opd.ofField b.toField ((litOf [b]).getD 0#32) = b := ofField_eq fb
  refine decode_encode (o := .movc) hw rfl (reason_none [b] ?_ ?_ ?_ .ctl (.one ?_ fb) (.none _ _) (.none _ _)
      (.none _ _) (by simp [rawOf]) rfl hl ?_ (.inl ⟨rfl, rfl⟩) hh ?_ ?_ ?_ ?_ ?_) ?_
  all_goals simp [entry, entryArith, entryMem, subTy, rawOf, okDst, generalSrcs, Kd.general, Kd.isDst, build,
      raw_fields, litN_zero, Nat.add_assoc, hb, eb]
  · cases x <;> rfl
  · cases x <;> rfl

theorem Laws.RoundTrip.icmp (h cond t pd b c) : Laws.RoundTrip.Statement (.icmp h cond t pd b c) := by
  intro st w hwf hw
  simp only [WellFormed, MAddr.ok, MAddr.uniFor, okArith, List.all_cons, List.all_nil, Bool.and_eq_true,
      Bool.or_eq_true, Bool.and_true, decide_eq_true_eq, and_assoc] at hwf
  obtain ⟨hh, ht, hk, hpd, hb, hc, hl⟩ := hwf
  have fb := fits_of hl (o := b) (by simp)
  have fc := fits_of hl (o := c) (by simp)
  have eb : Opd.ofField b.toField ((litOf [b, c]).getD 0#32) = b := ofField_eq fb
  have ec : Opd.ofField c.toField ((litOf [b, c]).getD 0#32) = c := ofField_eq fc
  have hk5 : cond.code.toNat ≤ 5 := by cases cond <;> simp_all [Cond.isInt, Cond.code]
  refine decode_encode (o := .icmp) hw rfl (reason_none [b, c] ?_ ?_ ?_ (.none _ _) (.s ?_ fb) (.s ?_ fc) (.none _
      _) (.none _ _) (or_clear (place_clear cond.code 10 (~~~(mCOND ||| mPD)) (by decide)) (place_clear pd 7 (~~~(mCOND
      ||| mPD)) (by decide))) rfl hl ?_ (.inl ⟨rfl, rfl⟩) hh ?_ ?_ ?_ ?_ ?_) ?_
  all_goals simp [entry, entryArith, entryMem, subTy, rawOf, okDst, generalSrcs, Kd.general, Kd.isDst, build,
      raw_fields, litN_zero, Nat.add_assoc, ht, hk, hpd, hb, hc, eb, ec, hk5]

theorem Laws.RoundTrip.plop (h pd p q r tt) : Laws.RoundTrip.Statement (.plop h pd p q r tt) := by
  intro st w hwf hw
  simp only [WellFormed, MAddr.ok, MAddr.uniFor, okArith, List.all_cons, List.all_nil, Bool.and_eq_true,
      Bool.or_eq_true, Bool.and_true, decide_eq_true_eq, and_assoc] at hwf
  obtain ⟨rfl, hh⟩ := hwf
  have hl : okLits [] = true := rfl
  refine decode_encode (o := .plop) hw rfl (reason_none [] ?_ ?_ ?_ (.none _ _) (.pred (by rfl)) (.pred (by rfl))
      (.pred (by rfl)) (.none _ _) (place_clear pd 7 (~~~(mPD)) (by decide)) rfl hl ?_ (.inr ⟨rfl, okExt_code tt, by
      intro hx; cases hx⟩) hh ?_ ?_ ?_ ?_ ?_) ?_
  all_goals simp [entry, entryArith, entryMem, subTy, rawOf, okDst, generalSrcs, Kd.general, Kd.isDst, build,
      raw_fields, litN_zero, Nat.add_assoc]

theorem Laws.RoundTrip.shfl (h mode t pd a b c wd) : Laws.RoundTrip.Statement (.shfl h mode t pd a b c wd) := by
  intro st w hwf hw
  simp only [WellFormed, MAddr.ok, MAddr.uniFor, okArith, List.all_cons, List.all_nil, Bool.and_eq_true,
      Bool.or_eq_true, Bool.and_true, decide_eq_true_eq, and_assoc] at hwf
  obtain ⟨rfl, hh, ht, ha, hb, hc, hW⟩ := hwf
  have hl : okLits [c] = true := by simp only [okLits, List.filter]; cases c <;> rfl
  have fc := fits_of hl (o := c) (by simp)
  have ec : Opd.ofField c.toField ((litOf [c]).getD 0#32) = c := ofField_eq fc
  refine decode_encode (o := .shfl) hw rfl (reason_none [c] ?_ ?_ ?_ (.dvV ?_) (.v ?_) (.s ?_ fc) .int3 (.none _ _)
      (or_clear (place_clear pd 7 (~~~(mPD ||| mSTYPE)) (by decide)) (place_clear mode.code 0 (~~~(mPD ||| mSTYPE)) (by
      decide))) rfl hl ?_ (.inl ⟨rfl, rfl⟩) hh ?_ ?_ ?_ ?_ ?_) ?_
  all_goals simp [entry, entryArith, entryMem, subTy, rawOf, okDst, generalSrcs, Kd.general, Kd.isDst, build,
      raw_fields, litN_zero, Nat.add_assoc, ht, ha, hb, hc, hW, ec]
  exact ⟨by cases mode <;> decide, by rw [special_toNat wd (by decide)]; omega⟩

theorem Laws.RoundTrip.vote (h mode pd a p) : Laws.RoundTrip.Statement (.vote h mode pd a p) := by
  intro st w hwf hw
  simp only [WellFormed, MAddr.ok, MAddr.uniFor, okArith, List.all_cons, List.all_nil, Bool.and_eq_true,
      Bool.or_eq_true, Bool.and_true, decide_eq_true_eq, and_assoc] at hwf
  obtain ⟨rfl, hh, ha, hne⟩ := hwf
  have hl : okLits [] = true := rfl
  refine decode_encode (o := .vote) hw rfl (reason_none [] ?_ ?_ ?_ (.d ?_) (.pred (by rfl)) (.none _ _) (.none _ _)
      (.none _ _) (or_clear (place_clear pd 7 (~~~(mPD ||| mSTYPE)) (by decide)) (place_clear mode.code 0 (~~~(mPD |||
      mSTYPE)) (by decide))) rfl hl ?_ (.inl ⟨rfl, rfl⟩) hh ?_ ?_ ?_ ?_ ?_) ?_
  all_goals simp [entry, entryArith, entryMem, subTy, rawOf, okDst, generalSrcs, Kd.general, Kd.isDst, build,
      raw_fields, litN_zero, Nat.add_assoc, ha, hne]
  · rcases hne with h | h
    · right; simpa using h
    · left; exact Dst.toField_ne_none h
  · cases mode <;> decide

theorem Laws.RoundTrip.ballot (h a p) : Laws.RoundTrip.Statement (.ballot h a p) := by
  intro st w hwf hw
  simp only [WellFormed, MAddr.ok, MAddr.uniFor, okArith, List.all_cons, List.all_nil, Bool.and_eq_true,
      Bool.or_eq_true, Bool.and_true, decide_eq_true_eq, and_assoc] at hwf
  obtain ⟨rfl, hh, ha⟩ := hwf
  have hl : okLits [] = true := rfl
  refine decode_encode (o := .ballot) hw rfl (reason_none [] ?_ ?_ ?_ (.d ?_) (.pred (by rfl)) (.none _ _) (.none _
      _) (.none _ _) (by simp [rawOf]) rfl hl ?_ (.inl ⟨rfl, rfl⟩) hh ?_ ?_ ?_ ?_ ?_) ?_
  all_goals simp [entry, entryArith, entryMem, subTy, rawOf, okDst, generalSrcs, Kd.general, Kd.isDst, build,
      raw_fields, litN_zero, Nat.add_assoc, ha]

theorem Laws.RoundTrip.redux (h op t a b) : Laws.RoundTrip.Statement (.redux h op t a b) := by
  intro st w hwf hw
  simp only [WellFormed, MAddr.ok, MAddr.uniFor, okArith, List.all_cons, List.all_nil, Bool.and_eq_true,
      Bool.or_eq_true, Bool.and_true, decide_eq_true_eq, and_assoc] at hwf
  obtain ⟨rfl, hh, hop, ha, hb⟩ := hwf
  have hl : okLits [] = true := rfl
  refine decode_encode (o := .redux) hw rfl (reason_none [] ?_ ?_ ?_ (.d ?_) (.v ?_) (.none _ _) (.none _ _) (.none
      _ _) (place_clear op.code 0 (~~~(mSTYPE)) (by decide)) rfl hl ?_ (.inl ⟨rfl, rfl⟩) hh ?_ ?_ ?_ ?_ ?_) ?_
  all_goals simp [entry, entryArith, entryMem, subTy, rawOf, okDst, generalSrcs, Kd.general, Kd.isDst, build,
      raw_fields, litN_zero, Nat.add_assoc, hop, ha, hb]
  · cases op <;> cases t <;> simp_all [okRedux, Ty.isInt, Ty.isBits, Aop.code]
  · cases op <;> cases t <;> simp_all [okRedux, Ty.isInt, Ty.isBits, Aop.code, Ty.code]

theorem Laws.RoundTrip.scan (h op excl seg t a b) : Laws.RoundTrip.Statement (.scan h op excl seg t a b) := by
  intro st w hwf hw
  simp only [WellFormed, Bool.and_eq_true, decide_eq_true_eq, and_assoc] at hwf
  obtain ⟨rfl, hh, hop, ha, hb⟩ := hwf
  have h1 : Option.any (fun t => (t.isInt || t.isBits || decide (t = .f32)) && (decide (2 < op.code.toNat) ||
      !t.isBits)) (some t) = true := by
    revert hop; cases op <;> cases t <;> decide
  have h2 : op.code.toNat ≤ 5 ∧ ((decide ¬ t.code = Ty.f32.code) = true ∨ op.code.toNat ≤ 2) := by
    revert hop; cases op <;> cases t <;> decide
  cases seg with
  | none =>
    refine decode_encode (o := .scan) hw rfl (reason_none [] ?_ ?_ ?_ (.dvV ?_) (.v ?_) (.none _ _) (k1 (k' :=
        .none) ?_ (.none _ _)) (.none _ _) (or_clear (or_clear (place_clear op.code 0 (~~~(mSTYPE ||| mRND)) (by
        decide)) (place_clear (BitVec.ofBool excl) 4 (~~~(mSTYPE ||| mRND)) (by decide))) (place_clear (BitVec.ofBool _)
        5 (~~~(mSTYPE ||| mRND)) (by decide))) rfl rfl ?_ (.inl ⟨rfl, rfl⟩) hh ?_ ?_ ?_ ?_ ?_) ?_
    all_goals simp [entry, entryArith, entryMem, subTy, rawOf, okDst, generalSrcs, Kd.general, Kd.isDst, build,
        raw_fields, litN_zero, Nat.add_assoc, ha, hb]
    · simpa using h1
    · exact h2
  | some p =>
    refine decode_encode (o := .scan) hw rfl (reason_none [] ?_ ?_ ?_ (.dvV ?_) (.v ?_) (.none _ _) (k1 (k' :=
        .pred) ?_ (.pred (by rfl))) (.none _ _) (or_clear (or_clear (place_clear op.code 0 (~~~(mSTYPE ||| mRND)) (by
        decide)) (place_clear (BitVec.ofBool excl) 4 (~~~(mSTYPE ||| mRND)) (by decide))) (place_clear (BitVec.ofBool _)
        5 (~~~(mSTYPE ||| mRND)) (by decide))) rfl rfl ?_ (.inl ⟨rfl, rfl⟩) hh ?_ ?_ ?_ ?_ ?_) ?_
    all_goals simp [entry, entryArith, entryMem, subTy, rawOf, okDst, generalSrcs, Kd.general, Kd.isDst, build,
        raw_fields, litN_zero, Nat.add_assoc, ha, hb]
    · simpa using h1
    · exact h2

theorem Laws.RoundTrip.matchLanes (h whole t pd a b) : Laws.RoundTrip.Statement (.matchLanes h whole t pd a b) := by
  intro st w hwf hw
  simp only [WellFormed, Bool.and_eq_true, decide_eq_true_eq, and_assoc] at hwf
  obtain ⟨rfl, hh, ht, hb, hwf⟩ := hwf
  cases whole with
  | true =>
    simp only [if_true, Bool.and_eq_true, Bool.or_eq_true, decide_eq_true_eq] at hwf
    obtain ⟨ha, hne⟩ := hwf
    have hp : BitVec.extractLsb' 0 4 (place (1#1) 0) = 1#4 := by decide
    have hq : (place (1#1) 0).toNat % 16 ≤ 1 := by decide
    refine decode_encode (o := .matchLanes) hw rfl (reason_none [] ?_ ?_ ?_ (k1 (k' := .d 32 true) ?_ (.d ha)) (.v
        ?_) (.none _ _) (.none _ _) (.none _ _) ?_ rfl rfl ?_ (.inl ⟨rfl, rfl⟩) hh ?_ ?_ ?_ ?_ ?_) ?_
    all_goals simp [entry, entryArith, entryMem, subTy, rawOf, okDst, generalSrcs, Kd.general, Kd.isDst, build,
        raw_fields, litN_zero, Nat.add_assoc, ht, hb, ha, hp, hq]
    · exact or_clear (place_clear pd 7 _ (by decide)) (by decide)
    · rcases hne with h | h
      · right; simpa using h
      · left; exact Dst.toField_ne_none h
  | false =>
    simp only [Bool.false_eq_true, if_false, Bool.and_eq_true, decide_eq_true_eq] at hwf
    obtain ⟨ha, rfl⟩ := hwf
    have hp : BitVec.extractLsb' 0 4 (place (0#1) 0) = 0#4 := by decide
    have hq : (place (0#1) 0).toNat % 16 ≤ 1 := by decide
    refine decode_encode (o := .matchLanes) hw rfl (reason_none [] ?_ ?_ ?_ (.dv (w := 32) (z := false) ha) (.v ?_)
        (.none _ _) (.none _ _) (.none _ _) ?_ rfl rfl ?_ (.inl ⟨rfl, rfl⟩) hh ?_ ?_ ?_ ?_ ?_) ?_
    all_goals simp [entry, entryArith, entryMem, subTy, rawOf, okDst, generalSrcs, Kd.general, Kd.isDst, build,
        raw_fields, litN_zero, Nat.add_assoc, ht, hb, hp, hq]
    decide

theorem Laws.RoundTrip.elect (h pd a) : Laws.RoundTrip.Statement (.elect h pd a) := by
  intro st w hwf hw
  simp only [WellFormed, MAddr.ok, MAddr.uniFor, okArith, List.all_cons, List.all_nil, Bool.and_eq_true,
      Bool.or_eq_true, Bool.and_true, decide_eq_true_eq, and_assoc] at hwf
  obtain ⟨rfl, hh, ha, hne⟩ := hwf
  have hl : okLits [] = true := rfl
  refine decode_encode (o := .elect) hw rfl (reason_none [] ?_ ?_ ?_ (.d ?_) (.none _ _) (.none _ _) (.none _ _)
      (.none _ _) (place_clear pd 7 (~~~(mPD ||| mSTYPE)) (by decide)) rfl hl ?_ (.inl ⟨rfl, rfl⟩) hh ?_ ?_ ?_ ?_ ?_) ?_
  all_goals simp [entry, entryArith, entryMem, subTy, rawOf, okDst, generalSrcs, Kd.general, Kd.isDst, build,
      raw_fields, litN_zero, Nat.add_assoc, ha, hne]
  rcases hne with h | h
  · right; simpa using h
  · left; exact Dst.toField_ne_none h

theorem Laws.RoundTrip.fadd (h t sat rnd a b c) : Laws.RoundTrip.Statement (.fadd h t sat rnd a b c) := by
  intro st w hwf hw
  simp only [WellFormed, MAddr.ok, MAddr.uniFor, okArith, List.all_cons, List.all_nil, Bool.and_eq_true,
      Bool.or_eq_true, Bool.and_true, decide_eq_true_eq, and_assoc] at hwf
  obtain ⟨rfl, hh, hfp, ha, hb, hc, hl, hu⟩ := hwf
  have fb := fits_of hl (o := b) (by simp)
  have fc := fits_of hl (o := c) (by simp)
  have eb : Opd.ofField b.toField ((litOf [b, c]).getD 0#32) = b := ofField_eq fb
  have ec : Opd.ofField c.toField ((litOf [b, c]).getD 0#32) = c := ofField_eq fc
  obtain ⟨hf1, hf2, hf3⟩ := okFp_parts hfp
  refine decode_encode (o := .fadd) hw rfl (reason_none [b, c] ?_ ?_ ?_ (.d ?_) (.s ?_ fb) (.s ?_ fc) (.none _ _)
      (.none _ _) (or_clear (place_clear (BitVec.ofBool sat) 6 (~~~(mSAT ||| mRND)) (by decide)) (place_clear rnd.code 4
      (~~~(mSAT ||| mRND)) (by decide))) rfl hl ?_ (.inl ⟨rfl, rfl⟩) hh ?_ ?_ ?_ ?_ ?_) ?_
  all_goals simp [entry, entryArith, entryMem, subTy, rawOf, okDst, generalSrcs, Kd.general, Kd.isDst, build,
      raw_fields, litN_zero, Nat.add_assoc, hfp, ha, hb, hc, hu, eb, ec, hf1, hf2, hf3]

theorem Laws.RoundTrip.fsub (h t sat rnd a b c) : Laws.RoundTrip.Statement (.fsub h t sat rnd a b c) := by
  intro st w hwf hw
  simp only [WellFormed, MAddr.ok, MAddr.uniFor, okArith, List.all_cons, List.all_nil, Bool.and_eq_true,
      Bool.or_eq_true, Bool.and_true, decide_eq_true_eq, and_assoc] at hwf
  obtain ⟨rfl, hh, hfp, ha, hb, hc, hl, hu⟩ := hwf
  have fb := fits_of hl (o := b) (by simp)
  have fc := fits_of hl (o := c) (by simp)
  have eb : Opd.ofField b.toField ((litOf [b, c]).getD 0#32) = b := ofField_eq fb
  have ec : Opd.ofField c.toField ((litOf [b, c]).getD 0#32) = c := ofField_eq fc
  obtain ⟨hf1, hf2, hf3⟩ := okFp_parts hfp
  refine decode_encode (o := .fsub) hw rfl (reason_none [b, c] ?_ ?_ ?_ (.d ?_) (.s ?_ fb) (.s ?_ fc) (.none _ _)
      (.none _ _) (or_clear (place_clear (BitVec.ofBool sat) 6 (~~~(mSAT ||| mRND)) (by decide)) (place_clear rnd.code 4
      (~~~(mSAT ||| mRND)) (by decide))) rfl hl ?_ (.inl ⟨rfl, rfl⟩) hh ?_ ?_ ?_ ?_ ?_) ?_
  all_goals simp [entry, entryArith, entryMem, subTy, rawOf, okDst, generalSrcs, Kd.general, Kd.isDst, build,
      raw_fields, litN_zero, Nat.add_assoc, hfp, ha, hb, hc, hu, eb, ec, hf1, hf2, hf3]

theorem Laws.RoundTrip.fmul (h t sat rnd a b c) : Laws.RoundTrip.Statement (.fmul h t sat rnd a b c) := by
  intro st w hwf hw
  simp only [WellFormed, MAddr.ok, MAddr.uniFor, okArith, List.all_cons, List.all_nil, Bool.and_eq_true,
      Bool.or_eq_true, Bool.and_true, decide_eq_true_eq, and_assoc] at hwf
  obtain ⟨rfl, hh, hfp, ha, hb, hc, hl, hu⟩ := hwf
  have fb := fits_of hl (o := b) (by simp)
  have fc := fits_of hl (o := c) (by simp)
  have eb : Opd.ofField b.toField ((litOf [b, c]).getD 0#32) = b := ofField_eq fb
  have ec : Opd.ofField c.toField ((litOf [b, c]).getD 0#32) = c := ofField_eq fc
  obtain ⟨hf1, hf2, hf3⟩ := okFp_parts hfp
  refine decode_encode (o := .fmul) hw rfl (reason_none [b, c] ?_ ?_ ?_ (.d ?_) (.s ?_ fb) (.s ?_ fc) (.none _ _)
      (.none _ _) (or_clear (place_clear (BitVec.ofBool sat) 6 (~~~(mSAT ||| mRND)) (by decide)) (place_clear rnd.code 4
      (~~~(mSAT ||| mRND)) (by decide))) rfl hl ?_ (.inl ⟨rfl, rfl⟩) hh ?_ ?_ ?_ ?_ ?_) ?_
  all_goals simp [entry, entryArith, entryMem, subTy, rawOf, okDst, generalSrcs, Kd.general, Kd.isDst, build,
      raw_fields, litN_zero, Nat.add_assoc, hfp, ha, hb, hc, hu, eb, ec, hf1, hf2, hf3]

theorem Laws.RoundTrip.ffma (h t sat rnd a b c e) : Laws.RoundTrip.Statement (.ffma h t sat rnd a b c e) := by
  intro st w hwf hw
  simp only [WellFormed, MAddr.ok, MAddr.uniFor, okArith, List.all_cons, List.all_nil, Bool.and_eq_true,
      Bool.or_eq_true, Bool.and_true, decide_eq_true_eq, and_assoc] at hwf
  obtain ⟨rfl, hh, hfp, ha, hb, hc, he, hl, hu⟩ := hwf
  have fb := fits_of hl (o := b) (by simp)
  have fc := fits_of hl (o := c) (by simp)
  have fe := fits_of hl (o := e) (by simp)
  have eb : Opd.ofField b.toField ((litOf [b, c, e]).getD 0#32) = b := ofField_eq fb
  have ec : Opd.ofField c.toField ((litOf [b, c, e]).getD 0#32) = c := ofField_eq fc
  have ee : Opd.ofField e.toField ((litOf [b, c, e]).getD 0#32) = e := ofField_eq fe
  obtain ⟨hf1, hf2, hf3⟩ := okFp_parts hfp
  refine decode_encode (o := .ffma) hw rfl (reason_none [b, c, e] ?_ ?_ ?_ (.d ?_) (.s ?_ fb) (.s ?_ fc) (.s ?_ fe)
      (.none _ _) (or_clear (place_clear (BitVec.ofBool sat) 6 (~~~(mSAT ||| mRND)) (by decide)) (place_clear rnd.code 4
      (~~~(mSAT ||| mRND)) (by decide))) rfl hl ?_ (.inl ⟨rfl, rfl⟩) hh ?_ ?_ ?_ ?_ ?_) ?_
  all_goals simp [entry, entryArith, entryMem, subTy, rawOf, okDst, generalSrcs, Kd.general, Kd.isDst, build,
      raw_fields, litN_zero, Nat.add_assoc, hfp, ha, hb, hc, he, hu, eb, ec, ee, hf1, hf2, hf3]

theorem Laws.RoundTrip.fmin (h t a b c) : Laws.RoundTrip.Statement (.fmin h t a b c) := by
  intro st w hwf hw
  simp only [WellFormed, MAddr.ok, MAddr.uniFor, okArith, List.all_cons, List.all_nil, Bool.and_eq_true,
      Bool.or_eq_true, Bool.and_true, decide_eq_true_eq, and_assoc] at hwf
  obtain ⟨rfl, hh, ht, ha, hb, hc, hl, hu⟩ := hwf
  have fb := fits_of hl (o := b) (by simp)
  have fc := fits_of hl (o := c) (by simp)
  have eb : Opd.ofField b.toField ((litOf [b, c]).getD 0#32) = b := ofField_eq fb
  have ec : Opd.ofField c.toField ((litOf [b, c]).getD 0#32) = c := ofField_eq fc
  refine decode_encode (o := .fmin) hw rfl (reason_none [b, c] ?_ ?_ ?_ (.d ?_) (.s ?_ fb) (.s ?_ fc) (.none _ _)
      (.none _ _) (by simp [rawOf]) rfl hl ?_ (.inl ⟨rfl, rfl⟩) hh ?_ ?_ ?_ ?_ ?_) ?_
  all_goals simp [entry, entryArith, entryMem, subTy, rawOf, okDst, generalSrcs, Kd.general, Kd.isDst, build,
      raw_fields, litN_zero, Nat.add_assoc, ht, ha, hb, hc, hu, eb, ec]

theorem Laws.RoundTrip.fmax (h t a b c) : Laws.RoundTrip.Statement (.fmax h t a b c) := by
  intro st w hwf hw
  simp only [WellFormed, MAddr.ok, MAddr.uniFor, okArith, List.all_cons, List.all_nil, Bool.and_eq_true,
      Bool.or_eq_true, Bool.and_true, decide_eq_true_eq, and_assoc] at hwf
  obtain ⟨rfl, hh, ht, ha, hb, hc, hl, hu⟩ := hwf
  have fb := fits_of hl (o := b) (by simp)
  have fc := fits_of hl (o := c) (by simp)
  have eb : Opd.ofField b.toField ((litOf [b, c]).getD 0#32) = b := ofField_eq fb
  have ec : Opd.ofField c.toField ((litOf [b, c]).getD 0#32) = c := ofField_eq fc
  refine decode_encode (o := .fmax) hw rfl (reason_none [b, c] ?_ ?_ ?_ (.d ?_) (.s ?_ fb) (.s ?_ fc) (.none _ _)
      (.none _ _) (by simp [rawOf]) rfl hl ?_ (.inl ⟨rfl, rfl⟩) hh ?_ ?_ ?_ ?_ ?_) ?_
  all_goals simp [entry, entryArith, entryMem, subTy, rawOf, okDst, generalSrcs, Kd.general, Kd.isDst, build,
      raw_fields, litN_zero, Nat.add_assoc, ht, ha, hb, hc, hu, eb, ec]

theorem Laws.RoundTrip.fcmp (h cond t pd b c) : Laws.RoundTrip.Statement (.fcmp h cond t pd b c) := by
  intro st w hwf hw
  simp only [WellFormed, MAddr.ok, MAddr.uniFor, okArith, List.all_cons, List.all_nil, Bool.and_eq_true,
      Bool.or_eq_true, Bool.and_true, decide_eq_true_eq, and_assoc] at hwf
  obtain ⟨rfl, hh, ht, hb, hc, hl⟩ := hwf
  have fb := fits_of hl (o := b) (by simp)
  have fc := fits_of hl (o := c) (by simp)
  have eb : Opd.ofField b.toField ((litOf [b, c]).getD 0#32) = b := ofField_eq fb
  have ec : Opd.ofField c.toField ((litOf [b, c]).getD 0#32) = c := ofField_eq fc
  refine decode_encode (o := .fcmp) hw rfl (reason_none [b, c] ?_ ?_ ?_ (.none _ _) (.s ?_ fb) (.s ?_ fc) (.none _
      _) (.none _ _) (or_clear (place_clear cond.code 10 (~~~(mCOND ||| mPD)) (by decide)) (place_clear pd 7 (~~~(mCOND
      ||| mPD)) (by decide))) rfl hl ?_ (.inl ⟨rfl, rfl⟩) hh ?_ ?_ ?_ ?_ ?_) ?_
  all_goals simp [entry, entryArith, entryMem, subTy, rawOf, okDst, generalSrcs, Kd.general, Kd.isDst, build,
      raw_fields, litN_zero, Nat.add_assoc, ht, hb, hc, eb, ec]

theorem Laws.RoundTrip.fclass (h t pd b m) : Laws.RoundTrip.Statement (.fclass h t pd b m) := by
  intro st w hwf hw
  simp only [WellFormed, MAddr.ok, MAddr.uniFor, okArith, List.all_cons, List.all_nil, Bool.and_eq_true,
      Bool.or_eq_true, Bool.and_true, decide_eq_true_eq, and_assoc] at hwf
  obtain ⟨rfl, hh, ht, hb, hm, hl⟩ := hwf
  have fb := fits_of hl (o := b) (by simp)
  have fm := fits_of hl (o := m) (by simp)
  have eb : Opd.ofField b.toField ((litOf [b, m]).getD 0#32) = b := ofField_eq fb
  have em : Opd.ofField m.toField ((litOf [b, m]).getD 0#32) = m := ofField_eq fm
  refine decode_encode (o := .fclass) hw rfl (reason_none [b, m] ?_ ?_ ?_ (.none _ _) (.s ?_ fb) (.s ?_ fm) (.none _
      _) (.none _ _) (place_clear pd 7 (~~~(mPD)) (by decide)) rfl hl ?_ (.inl ⟨rfl, rfl⟩) hh ?_ ?_ ?_ ?_ ?_) ?_
  all_goals simp [entry, entryArith, entryMem, subTy, rawOf, okDst, generalSrcs, Kd.general, Kd.isDst, build,
      raw_fields, litN_zero, Nat.add_assoc, ht, hb, hm, eb, em]

theorem Laws.RoundTrip.frnd (h t rnd a b) : Laws.RoundTrip.Statement (.frnd h t rnd a b) := by
  intro st w hwf hw
  simp only [WellFormed, MAddr.ok, MAddr.uniFor, okArith, List.all_cons, List.all_nil, Bool.and_eq_true,
      Bool.or_eq_true, Bool.and_true, decide_eq_true_eq, and_assoc] at hwf
  obtain ⟨rfl, hh, ht, ha, hb, hl, hu⟩ := hwf
  have fb := fits_of hl (o := b) (by simp)
  have eb : Opd.ofField b.toField ((litOf [b]).getD 0#32) = b := ofField_eq fb
  refine decode_encode (o := .frnd) hw rfl (reason_none [b] ?_ ?_ ?_ (.d ?_) (.s ?_ fb) (.none _ _) (.none _ _)
      (.none _ _) (place_clear rnd.code 4 (~~~(mRND)) (by decide)) rfl hl ?_ (.inl ⟨rfl, rfl⟩) hh ?_ ?_ ?_ ?_ ?_) ?_
  all_goals simp [entry, entryArith, entryMem, subTy, rawOf, okDst, generalSrcs, Kd.general, Kd.isDst, build,
      raw_fields, litN_zero, Nat.add_assoc, ht, ha, hb, hu, eb]

theorem Laws.RoundTrip.fscale (h t rnd a b n) : Laws.RoundTrip.Statement (.fscale h t rnd a b n) := by
  intro st w hwf hw
  simp only [WellFormed, MAddr.ok, MAddr.uniFor, okArith, List.all_cons, List.all_nil, Bool.and_eq_true,
      Bool.or_eq_true, Bool.and_true, decide_eq_true_eq, and_assoc] at hwf
  obtain ⟨rfl, hh, ht, ha, hb, hn, hl, hu⟩ := hwf
  have fb := fits_of hl (o := b) (by simp)
  have fn := fits_of hl (o := n) (by simp)
  have eb : Opd.ofField b.toField ((litOf [b, n]).getD 0#32) = b := ofField_eq fb
  have en : Opd.ofField n.toField ((litOf [b, n]).getD 0#32) = n := ofField_eq fn
  refine decode_encode (o := .fscale) hw rfl (reason_none [b, n] ?_ ?_ ?_ (.d ?_) (.s ?_ fb) (.s ?_ fn) (.none _ _)
      (.none _ _) (place_clear rnd.code 4 (~~~(mRND)) (by decide)) rfl hl ?_ (.inl ⟨rfl, rfl⟩) hh ?_ ?_ ?_ ?_ ?_) ?_
  all_goals simp [entry, entryArith, entryMem, subTy, rawOf, okDst, generalSrcs, Kd.general, Kd.isDst, build,
      raw_fields, litN_zero, Nat.add_assoc, ht, ha, hb, hn, hu, eb, en]

theorem Laws.RoundTrip.fgexp (h t a b) : Laws.RoundTrip.Statement (.fgexp h t a b) := by
  intro st w hwf hw
  simp only [WellFormed, MAddr.ok, MAddr.uniFor, okArith, List.all_cons, List.all_nil, Bool.and_eq_true,
      Bool.or_eq_true, Bool.and_true, decide_eq_true_eq, and_assoc] at hwf
  obtain ⟨rfl, hh, ht, ha, hb, hu⟩ := hwf
  have hl : okLits [b] = true := by simp only [okLits, List.filter]; cases b <;> rfl
  have fb := fits_of hl (o := b) (by simp)
  have eb : Opd.ofField b.toField ((litOf [b]).getD 0#32) = b := ofField_eq fb
  refine decode_encode (o := .fgexp) hw rfl (reason_none [b] ?_ ?_ ?_ (.d ?_) (.s ?_ fb) (.none _ _) (.none _ _)
      (.none _ _) (by simp [rawOf]) rfl hl ?_ (.inl ⟨rfl, rfl⟩) hh ?_ ?_ ?_ ?_ ?_) ?_
  all_goals simp [entry, entryArith, entryMem, subTy, rawOf, okDst, generalSrcs, Kd.general, Kd.isDst, build,
      raw_fields, litN_zero, Nat.add_assoc, ht, ha, hb, hu, eb]

theorem Laws.RoundTrip.fdot2 (h t rnd a b c e) : Laws.RoundTrip.Statement (.fdot2 h t rnd a b c e) := by
  intro st w hwf hw
  simp only [WellFormed, MAddr.ok, MAddr.uniFor, okArith, List.all_cons, List.all_nil, Bool.and_eq_true,
      Bool.or_eq_true, Bool.and_true, decide_eq_true_eq, and_assoc] at hwf
  obtain ⟨rfl, hh, ht, ha, hb, hc, he, hl, hu⟩ := hwf
  have fb := fits_of hl (o := b) (by simp)
  have fc := fits_of hl (o := c) (by simp)
  have fe := fits_of hl (o := e) (by simp)
  have eb : Opd.ofField b.toField ((litOf [b, c, e]).getD 0#32) = b := ofField_eq fb
  have ec : Opd.ofField c.toField ((litOf [b, c, e]).getD 0#32) = c := ofField_eq fc
  have ee : Opd.ofField e.toField ((litOf [b, c, e]).getD 0#32) = e := ofField_eq fe
  refine decode_encode (o := .fdot2) hw rfl (reason_none [b, c, e] ?_ ?_ ?_ (.d ?_) (.s ?_ fb) (.s ?_ fc) (.s ?_ fe)
      (.none _ _) (place_clear rnd.code 4 (~~~(mRND)) (by decide)) rfl hl ?_ (.inl ⟨rfl, rfl⟩) hh ?_ ?_ ?_ ?_ ?_) ?_
  all_goals simp [entry, entryArith, entryMem, subTy, rawOf, okDst, generalSrcs, Kd.general, Kd.isDst, build,
      raw_fields, litN_zero, Nat.add_assoc, ht, ha, hb, hc, he, hu, eb, ec, ee]

theorem Laws.RoundTrip.frcp (h t rnd a b) : Laws.RoundTrip.Statement (.frcp h t rnd a b) := by
  intro st w hwf hw
  simp only [WellFormed, MAddr.ok, MAddr.uniFor, okArith, List.all_cons, List.all_nil, Bool.and_eq_true,
      Bool.or_eq_true, Bool.and_true, decide_eq_true_eq, and_assoc] at hwf
  obtain ⟨rfl, hh, hfp, ha, hb, hl, hu⟩ := hwf
  have fb := fits_of hl (o := b) (by simp)
  have eb : Opd.ofField b.toField ((litOf [b]).getD 0#32) = b := ofField_eq fb
  obtain ⟨hf1, hf2, hf3⟩ := okFp_parts hfp
  refine decode_encode (o := .frcp) hw rfl (reason_none [b] ?_ ?_ ?_ (.d ?_) (.s ?_ fb) (.none _ _) (.none _ _)
      (.none _ _) (place_clear rnd.code 4 (~~~(mRND)) (by decide)) rfl hl ?_ (.inl ⟨rfl, rfl⟩) hh ?_ ?_ ?_ ?_ ?_) ?_
  all_goals simp [entry, entryArith, entryMem, subTy, rawOf, okDst, generalSrcs, Kd.general, Kd.isDst, build,
      raw_fields, litN_zero, Nat.add_assoc, hfp, ha, hb, hu, eb, hf1, hf2, hf3]

theorem Laws.RoundTrip.frsq (h t a b) : Laws.RoundTrip.Statement (.frsq h t a b) := by
  intro st w hwf hw
  simp only [WellFormed, MAddr.ok, MAddr.uniFor, okArith, List.all_cons, List.all_nil, Bool.and_eq_true,
      Bool.or_eq_true, Bool.and_true, decide_eq_true_eq, and_assoc] at hwf
  obtain ⟨rfl, hh, ht, ha, hb, hl, hu⟩ := hwf
  have fb := fits_of hl (o := b) (by simp)
  have eb : Opd.ofField b.toField ((litOf [b]).getD 0#32) = b := ofField_eq fb
  refine decode_encode (o := .frsq) hw rfl (reason_none [b] ?_ ?_ ?_ (.d ?_) (.s ?_ fb) (.none _ _) (.none _ _)
      (.none _ _) (by simp [rawOf]) rfl hl ?_ (.inl ⟨rfl, rfl⟩) hh ?_ ?_ ?_ ?_ ?_) ?_
  all_goals simp [entry, entryArith, entryMem, subTy, rawOf, okDst, generalSrcs, Kd.general, Kd.isDst, build,
      raw_fields, litN_zero, Nat.add_assoc, ht, ha, hb, hu, eb]

theorem Laws.RoundTrip.fsqrt (h t rnd a b) : Laws.RoundTrip.Statement (.fsqrt h t rnd a b) := by
  intro st w hwf hw
  simp only [WellFormed, MAddr.ok, MAddr.uniFor, okArith, List.all_cons, List.all_nil, Bool.and_eq_true,
      Bool.or_eq_true, Bool.and_true, decide_eq_true_eq, and_assoc] at hwf
  obtain ⟨rfl, hh, hfp, ha, hb, hl, hu⟩ := hwf
  have fb := fits_of hl (o := b) (by simp)
  have eb : Opd.ofField b.toField ((litOf [b]).getD 0#32) = b := ofField_eq fb
  obtain ⟨hf1, hf2, hf3⟩ := okFp_parts hfp
  refine decode_encode (o := .fsqrt) hw rfl (reason_none [b] ?_ ?_ ?_ (.d ?_) (.s ?_ fb) (.none _ _) (.none _ _)
      (.none _ _) (place_clear rnd.code 4 (~~~(mRND)) (by decide)) rfl hl ?_ (.inl ⟨rfl, rfl⟩) hh ?_ ?_ ?_ ?_ ?_) ?_
  all_goals simp [entry, entryArith, entryMem, subTy, rawOf, okDst, generalSrcs, Kd.general, Kd.isDst, build,
      raw_fields, litN_zero, Nat.add_assoc, hfp, ha, hb, hu, eb, hf1, hf2, hf3]

theorem Laws.RoundTrip.fexp2 (h t a b) : Laws.RoundTrip.Statement (.fexp2 h t a b) := by
  intro st w hwf hw
  simp only [WellFormed, MAddr.ok, MAddr.uniFor, okArith, List.all_cons, List.all_nil, Bool.and_eq_true,
      Bool.or_eq_true, Bool.and_true, decide_eq_true_eq, and_assoc] at hwf
  obtain ⟨rfl, hh, ht, ha, hb, hl, hu⟩ := hwf
  have fb := fits_of hl (o := b) (by simp)
  have eb : Opd.ofField b.toField ((litOf [b]).getD 0#32) = b := ofField_eq fb
  refine decode_encode (o := .fexp2) hw rfl (reason_none [b] ?_ ?_ ?_ (.d ?_) (.s ?_ fb) (.none _ _) (.none _ _)
      (.none _ _) (by simp [rawOf]) rfl hl ?_ (.inl ⟨rfl, rfl⟩) hh ?_ ?_ ?_ ?_ ?_) ?_
  all_goals simp [entry, entryArith, entryMem, subTy, rawOf, okDst, generalSrcs, Kd.general, Kd.isDst, build,
      raw_fields, litN_zero, Nat.add_assoc, ht, ha, hb, hu, eb]

theorem Laws.RoundTrip.flog2 (h t a b) : Laws.RoundTrip.Statement (.flog2 h t a b) := by
  intro st w hwf hw
  simp only [WellFormed, MAddr.ok, MAddr.uniFor, okArith, List.all_cons, List.all_nil, Bool.and_eq_true,
      Bool.or_eq_true, Bool.and_true, decide_eq_true_eq, and_assoc] at hwf
  obtain ⟨rfl, hh, ht, ha, hb, hl, hu⟩ := hwf
  have fb := fits_of hl (o := b) (by simp)
  have eb : Opd.ofField b.toField ((litOf [b]).getD 0#32) = b := ofField_eq fb
  refine decode_encode (o := .flog2) hw rfl (reason_none [b] ?_ ?_ ?_ (.d ?_) (.s ?_ fb) (.none _ _) (.none _ _)
      (.none _ _) (by simp [rawOf]) rfl hl ?_ (.inl ⟨rfl, rfl⟩) hh ?_ ?_ ?_ ?_ ?_) ?_
  all_goals simp [entry, entryArith, entryMem, subTy, rawOf, okDst, generalSrcs, Kd.general, Kd.isDst, build,
      raw_fields, litN_zero, Nat.add_assoc, ht, ha, hb, hu, eb]

theorem Laws.RoundTrip.fsin (h t a b) : Laws.RoundTrip.Statement (.fsin h t a b) := by
  intro st w hwf hw
  simp only [WellFormed, MAddr.ok, MAddr.uniFor, okArith, List.all_cons, List.all_nil, Bool.and_eq_true,
      Bool.or_eq_true, Bool.and_true, decide_eq_true_eq, and_assoc] at hwf
  obtain ⟨rfl, hh, ht, ha, hb, hl, hu⟩ := hwf
  have fb := fits_of hl (o := b) (by simp)
  have eb : Opd.ofField b.toField ((litOf [b]).getD 0#32) = b := ofField_eq fb
  refine decode_encode (o := .fsin) hw rfl (reason_none [b] ?_ ?_ ?_ (.d ?_) (.s ?_ fb) (.none _ _) (.none _ _)
      (.none _ _) (by simp [rawOf]) rfl hl ?_ (.inl ⟨rfl, rfl⟩) hh ?_ ?_ ?_ ?_ ?_) ?_
  all_goals simp [entry, entryArith, entryMem, subTy, rawOf, okDst, generalSrcs, Kd.general, Kd.isDst, build,
      raw_fields, litN_zero, Nat.add_assoc, ht, ha, hb, hu, eb]

theorem Laws.RoundTrip.fcos (h t a b) : Laws.RoundTrip.Statement (.fcos h t a b) := by
  intro st w hwf hw
  simp only [WellFormed, MAddr.ok, MAddr.uniFor, okArith, List.all_cons, List.all_nil, Bool.and_eq_true,
      Bool.or_eq_true, Bool.and_true, decide_eq_true_eq, and_assoc] at hwf
  obtain ⟨rfl, hh, ht, ha, hb, hl, hu⟩ := hwf
  have fb := fits_of hl (o := b) (by simp)
  have eb : Opd.ofField b.toField ((litOf [b]).getD 0#32) = b := ofField_eq fb
  refine decode_encode (o := .fcos) hw rfl (reason_none [b] ?_ ?_ ?_ (.d ?_) (.s ?_ fb) (.none _ _) (.none _ _)
      (.none _ _) (by simp [rawOf]) rfl hl ?_ (.inl ⟨rfl, rfl⟩) hh ?_ ?_ ?_ ?_ ?_) ?_
  all_goals simp [entry, entryArith, entryMem, subTy, rawOf, okDst, generalSrcs, Kd.general, Kd.isDst, build,
      raw_fields, litN_zero, Nat.add_assoc, ht, ha, hb, hu, eb]

theorem Laws.RoundTrip.ftanh (h t a b) : Laws.RoundTrip.Statement (.ftanh h t a b) := by
  intro st w hwf hw
  simp only [WellFormed, MAddr.ok, MAddr.uniFor, okArith, List.all_cons, List.all_nil, Bool.and_eq_true,
      Bool.or_eq_true, Bool.and_true, decide_eq_true_eq, and_assoc] at hwf
  obtain ⟨rfl, hh, ht, ha, hb, hl, hu⟩ := hwf
  have fb := fits_of hl (o := b) (by simp)
  have eb : Opd.ofField b.toField ((litOf [b]).getD 0#32) = b := ofField_eq fb
  refine decode_encode (o := .ftanh) hw rfl (reason_none [b] ?_ ?_ ?_ (.d ?_) (.s ?_ fb) (.none _ _) (.none _ _)
      (.none _ _) (by simp [rawOf]) rfl hl ?_ (.inl ⟨rfl, rfl⟩) hh ?_ ?_ ?_ ?_ ?_) ?_
  all_goals simp [entry, entryArith, entryMem, subTy, rawOf, okDst, generalSrcs, Kd.general, Kd.isDst, build,
      raw_fields, litN_zero, Nat.add_assoc, ht, ha, hb, hu, eb]

theorem Laws.RoundTrip.fsigm (h t a b) : Laws.RoundTrip.Statement (.fsigm h t a b) := by
  intro st w hwf hw
  simp only [WellFormed, MAddr.ok, MAddr.uniFor, okArith, List.all_cons, List.all_nil, Bool.and_eq_true,
      Bool.or_eq_true, Bool.and_true, decide_eq_true_eq, and_assoc] at hwf
  obtain ⟨rfl, hh, ht, ha, hb, hl, hu⟩ := hwf
  have fb := fits_of hl (o := b) (by simp)
  have eb : Opd.ofField b.toField ((litOf [b]).getD 0#32) = b := ofField_eq fb
  refine decode_encode (o := .fsigm) hw rfl (reason_none [b] ?_ ?_ ?_ (.d ?_) (.s ?_ fb) (.none _ _) (.none _ _)
      (.none _ _) (by simp [rawOf]) rfl hl ?_ (.inl ⟨rfl, rfl⟩) hh ?_ ?_ ?_ ?_ ?_) ?_
  all_goals simp [entry, entryArith, entryMem, subTy, rawOf, okDst, generalSrcs, Kd.general, Kd.isDst, build,
      raw_fields, litN_zero, Nat.add_assoc, ht, ha, hb, hu, eb]

theorem Laws.RoundTrip.cvt (h d s sat rnd a b c) : Laws.RoundTrip.Statement (.cvt h d s sat rnd a b c) := by
  intro st w hwf hw
  simp only [WellFormed, Bool.and_eq_true, Bool.or_eq_true, Bool.not_eq_true', decide_eq_true_eq, and_assoc] at hwf
  obtain ⟨rfl, hh, hd, hs, hne, ha, hb, hC, hl, hu, hsat, hrnd⟩ := hwf
  have hcode : ¬ (d.code = s.code) := fun e => hne (by rw [← tyOf_code d, e, tyOf_code])
  have hrnd2 := hrnd.imp (fun e : rnd = .rn => (by rw [e]; rfl : rnd.code = 0#2)) (fun e => e)
  cases hdp : d.isPair <;> cases hsp : s.isPair <;> cases c <;> simp only [okCvtC, hdp, hsp, Bool.false_eq_true] at hC
  · simp only [Option.toList] at hl hu
    have fb := fits_of hl (o := b) (by simp)
    have eb : Opd.ofField b.toField ((litOf [b]).getD 0#32) = b := ofField_eq fb
    refine decode_encode (o := .cvt) hw rfl (reason_none [b] ?_ ?_ ?_ (.d ?_) (.s ?_ fb) (k1 (k' := .none) ?_ (.none
        _ _)) (.none _ _) (.none _ _) (or_clear (or_clear (place_clear (BitVec.ofBool sat) 6 (~~~(mSAT ||| mRND |||
        mSTYPE)) (by decide)) (place_clear rnd.code 4 (~~~(mSAT ||| mRND ||| mSTYPE)) (by decide))) (place_clear s.code
        0 (~~~(mSAT ||| mRND ||| mSTYPE)) (by decide))) rfl hl ?_ (.inl ⟨rfl, rfl⟩) hh ?_ ?_ ?_ ?_ ?_) ?_
    all_goals simp [entry, entryArith, entryMem, subTy, rawOf, okDst, generalSrcs, Kd.general, Kd.isDst, build,
        raw_fields, litN_zero, Nat.add_assoc, hd, hs, hne, hcode, ha, hb, hu, hdp, hsp, hsat, hrnd2, eb]
    · simpa [hdp] using hsat
    · rcases hrnd2 with h | h
      · exact .inl h
      · rw [hdp, Bool.false_or, Bool.and_eq_false_iff] at h; exact .inr h
  · rename_i o
    simp only [Bool.or_eq_true, decide_eq_true_eq, or_assoc] at hC
    simp only [Option.toList] at hl hu
    have oL : o.isLit = false := by rcases hC with rfl | rfl | rfl <;> rfl
    have hlo : litOf [b, o] = litOf [b] := by cases b <;> rcases hC with rfl | rfl | rfl <;> rfl
    have hl : okLits [b] = true := by cases b <;> rfl
    have fb := fits_of hl (o := b) (by simp)
    have eb : Opd.ofField b.toField ((litOf [b]).getD 0#32) = b := ofField_eq fb
    have fo := fits_of_not_lit (ext := (litOf [b]).getD 0) oL
    have eo : Opd.ofField o.toField ((litOf [b]).getD 0#32) = o := ofField_eq fo
    have hu2 := hu
    simp only [encode, encodeRaw, Option.toList, hlo] at hw
    refine decode_encode (o := .cvt) hw rfl (reason_none [b] ?_ ?_ ?_ (.d ?_) (.s ?_ fb) (k1 (k' := .cvtC d s) ?_
        (.cvtHalf hdp hC)) (.none _ _) (.none _ _) (or_clear (or_clear (place_clear (BitVec.ofBool sat) 6 (~~~(mSAT |||
        mRND ||| mSTYPE)) (by decide)) (place_clear rnd.code 4 (~~~(mSAT ||| mRND ||| mSTYPE)) (by decide)))
        (place_clear s.code 0 (~~~(mSAT ||| mRND ||| mSTYPE)) (by decide))) rfl hl ?_ (.inl ⟨rfl, rfl⟩) hh ?_ ?_ ?_ ?_
        ?_) ?_
    all_goals simp [entry, entryArith, entryMem, subTy, rawOf, okDst, generalSrcs, Kd.general, Kd.isDst, build,
        raw_fields, litN_zero, Nat.add_assoc, hd, hs, hne, hcode, ha, hb, hu, hdp, hsp, hsat, hrnd2, eb, eo, hu2]
    · simpa [hdp] using hsat
    · rcases hrnd2 with h | h
      · exact .inl h
      · rw [hdp, Bool.false_or, Bool.and_eq_false_iff] at h; exact .inr h
  · rename_i o
    simp only [Option.toList] at hl hu
    have fb := fits_of hl (o := b) (by simp)
    have eb : Opd.ofField b.toField ((litOf [b, o]).getD 0#32) = b := ofField_eq fb
    have fo := fits_of hl (o := o) (by simp)
    have eo : Opd.ofField o.toField ((litOf [b, o]).getD 0#32) = o := ofField_eq fo
    refine decode_encode (o := .cvt) hw rfl (reason_none [b, o] ?_ ?_ ?_ (.d ?_) (.s ?_ fb) (k1 (k' := .cvtC d s) ?_
        (.cvtPack hdp hC fo)) (.none _ _) (.none _ _) (or_clear (or_clear (place_clear (BitVec.ofBool sat) 6 (~~~(mSAT
        ||| mRND ||| mSTYPE)) (by decide)) (place_clear rnd.code 4 (~~~(mSAT ||| mRND ||| mSTYPE)) (by decide)))
        (place_clear s.code 0 (~~~(mSAT ||| mRND ||| mSTYPE)) (by decide))) rfl hl ?_ (.inl ⟨rfl, rfl⟩) hh ?_ ?_ ?_ ?_
        ?_) ?_
    all_goals simp [entry, entryArith, entryMem, subTy, rawOf, okDst, generalSrcs, Kd.general, Kd.isDst, build,
        raw_fields, litN_zero, Nat.add_assoc, hd, hs, hne, hcode, ha, hb, hu, hdp, hsp, hsat, hrnd2, eb, eo]
    simpa [hdp] using hrnd2
  · simp only [Option.toList] at hl hu
    have fb := fits_of hl (o := b) (by simp)
    have eb : Opd.ofField b.toField ((litOf [b]).getD 0#32) = b := ofField_eq fb
    refine decode_encode (o := .cvt) hw rfl (reason_none [b] ?_ ?_ ?_ (.d ?_) (.s ?_ fb) (k1 (k' := .none) ?_ (.none
        _ _)) (.none _ _) (.none _ _) (or_clear (or_clear (place_clear (BitVec.ofBool sat) 6 (~~~(mSAT ||| mRND |||
        mSTYPE)) (by decide)) (place_clear rnd.code 4 (~~~(mSAT ||| mRND ||| mSTYPE)) (by decide))) (place_clear s.code
        0 (~~~(mSAT ||| mRND ||| mSTYPE)) (by decide))) rfl hl ?_ (.inl ⟨rfl, rfl⟩) hh ?_ ?_ ?_ ?_ ?_) ?_
    all_goals simp [entry, entryArith, entryMem, subTy, rawOf, okDst, generalSrcs, Kd.general, Kd.isDst, build,
        raw_fields, litN_zero, Nat.add_assoc, hd, hs, hne, hcode, ha, hb, hu, hdp, hsp, hsat, hrnd2, eb]
    simpa [hdp] using hrnd2

theorem Laws.RoundTrip.cvtsEncode (h slot a b c m pos) : Laws.RoundTrip.Statement (.cvtsEncode h slot a b c m pos)
    := by
  intro st w hwf hw
  simp only [WellFormed, MAddr.ok, MAddr.uniFor, okArith, List.all_cons, List.all_nil, Bool.and_eq_true,
      Bool.or_eq_true, Bool.and_true, decide_eq_true_eq, and_assoc] at hwf
  obtain ⟨rfl, hh, ha, hb, hc, hm, hl, hu, hp1, hp2⟩ := hwf
  have fb := fits_of hl (o := b) (by simp)
  have fc := fits_of hl (o := c) (by simp)
  have fm := fits_of hl (o := m) (by simp)
  have eb : Opd.ofField b.toField ((litOf [b, c, m]).getD 0#32) = b := ofField_eq fb
  have ec : Opd.ofField c.toField ((litOf [b, c, m]).getD 0#32) = c := ofField_eq fc
  have em : Opd.ofField m.toField ((litOf [b, c, m]).getD 0#32) = m := ofField_eq fm
  have hne : ¬ (Ty.b32.code = Ty.f32.code) := by decide
  have hs := special_toNat pos (by decide)
  have hu2 : okUni a [b, c, m, .int pos] = true := by simpa [okUni, Opd.isVec] using hu
  refine decode_encode (o := .cvts) hw rfl (reason_none [b, c, m] ?_ ?_ ?_ (.d ?_) (.s ?_ fb) (.s ?_ fc) (.s ?_ fm)
      .int (or_clear (place_clear slot 14 (~~~(mSLOT ||| mRND ||| mSTYPE)) (by decide)) (place_clear (Ty.code .f32) 0
      (~~~(mSLOT ||| mRND ||| mSTYPE)) (by decide))) rfl hl ?_ (.inl ⟨rfl, rfl⟩) hh ?_ ?_ ?_ ?_ ?_) ?_
  all_goals simp [entry, entryArith, entryMem, subTy, rawOf, okDst, generalSrcs, Kd.general, Kd.isDst, build,
      raw_fields, litN_zero, Nat.add_assoc, ha, hb, hc, hm, hu, hp1, hp2, eb, ec, em, hne, hs, hu2]
  omega

theorem Laws.RoundTrip.cvtsDecode (h slot a b idx) : Laws.RoundTrip.Statement (.cvtsDecode h slot a b idx) := by
  intro st w hwf hw
  simp only [WellFormed, MAddr.ok, MAddr.uniFor, okArith, List.all_cons, List.all_nil, Bool.and_eq_true,
      Bool.or_eq_true, Bool.and_true, decide_eq_true_eq, and_assoc] at hwf
  obtain ⟨rfl, hh, ha, hb, hu, hi⟩ := hwf
  have hl : okLits [b] = true := by simp only [okLits, List.filter]; cases b <;> rfl
  have fb := fits_of hl (o := b) (by simp)
  have eb : Opd.ofField b.toField ((litOf [b]).getD 0#32) = b := ofField_eq fb
  have hs := special_toNat idx (by decide)
  have hu2 : okUni a [b, .int idx] = true := by simpa [okUni, Opd.isVec] using hu
  refine decode_encode (o := .cvts) hw rfl (reason_none [b] ?_ ?_ ?_ (.d ?_) (.s ?_ fb) .int (.none _ _) (.none _ _)
      (or_clear (place_clear slot 14 (~~~(mSLOT ||| mRND ||| mSTYPE)) (by decide)) (place_clear (Ty.code .b32) 0
      (~~~(mSLOT ||| mRND ||| mSTYPE)) (by decide))) rfl hl ?_ (.inl ⟨rfl, rfl⟩) hh ?_ ?_ ?_ ?_ ?_) ?_
  all_goals simp [entry, entryArith, entryMem, subTy, rawOf, okDst, generalSrcs, Kd.general, Kd.isDst, build,
      raw_fields, litN_zero, Nat.add_assoc, ha, hb, hu, hi, eb, hs, hu2]
  omega

theorem Laws.RoundTrip.qblk (h slot a b) : Laws.RoundTrip.Statement (.qblk h slot a b) := by
  intro st w hwf hw
  simp only [WellFormed, MAddr.ok, MAddr.uniFor, okArith, List.all_cons, List.all_nil, Bool.and_eq_true,
      Bool.or_eq_true, Bool.and_true, decide_eq_true_eq, and_assoc] at hwf
  obtain ⟨rfl, hh, hb⟩ := hwf
  have hl : okLits [b] = true := by simp only [okLits, List.filter]; cases b <;> rfl
  have fb := fits_of hl (o := b) (by simp)
  have eb : Opd.ofField b.toField ((litOf [b]).getD 0#32) = b := ofField_eq fb
  refine decode_encode (o := .qblk) hw rfl (reason_none [b] ?_ ?_ ?_ (.dvV (by rfl)) (.s ?_ fb) (.none _ _) (.none _
      _) (.none _ _) (or_clear (place_clear slot 14 (~~~(mSLOT ||| mRND ||| mSTYPE)) (by decide)) (place_clear (Ty.code
      .f32) 0 (~~~(mSLOT ||| mRND ||| mSTYPE)) (by decide))) rfl hl ?_ (.inl ⟨rfl, rfl⟩) hh ?_ ?_ ?_ ?_ ?_) ?_
  all_goals simp [entry, entryArith, entryMem, subTy, rawOf, okDst, generalSrcs, Kd.general, Kd.isDst, build,
      raw_fields, litN_zero, Nat.add_assoc, hb, eb]

theorem Laws.RoundTrip.dqblk (h slot a b) : Laws.RoundTrip.Statement (.dqblk h slot a b) := by
  intro st w hwf hw
  simp only [WellFormed, MAddr.ok, MAddr.uniFor, okArith, List.all_cons, List.all_nil, Bool.and_eq_true,
      Bool.or_eq_true, Bool.and_true, decide_eq_true_eq, and_assoc] at hwf
  obtain ⟨rfl, hh⟩ := hwf
  have hl : okLits [] = true := rfl
  refine decode_encode (o := .dqblk) hw rfl (reason_none [] ?_ ?_ ?_ (.dvV (by rfl)) (.v (by rfl)) (.none _ _)
      (.none _ _) (.none _ _) (or_clear (place_clear slot 14 (~~~(mSLOT ||| mRND ||| mSTYPE)) (by decide)) (place_clear
      (Ty.code .b32) 0 (~~~(mSLOT ||| mRND ||| mSTYPE)) (by decide))) rfl hl ?_ (.inl ⟨rfl, rfl⟩) hh ?_ ?_ ?_ ?_ ?_) ?_
  all_goals simp [entry, entryArith, entryMem, subTy, rawOf, okDst, generalSrcs, Kd.general, Kd.isDst, build,
      raw_fields, litN_zero, Nat.add_assoc]

theorem Laws.RoundTrip.dropm (h wide pd b c) : Laws.RoundTrip.Statement (.dropm h wide pd b c) := by
  intro st w hwf hw
  simp only [WellFormed, MAddr.ok, MAddr.uniFor, okArith, List.all_cons, List.all_nil, Bool.and_eq_true,
      Bool.or_eq_true, Bool.and_true, decide_eq_true_eq, and_assoc] at hwf
  obtain ⟨rfl, hh, hpd, hb, hc, hl⟩ := hwf
  have fb := fits_of hl (o := b) (by simp)
  have fc := fits_of hl (o := c) (by simp)
  have eb : Opd.ofField b.toField ((litOf [b, c]).getD 0#32) = b := ofField_eq fb
  have ec : Opd.ofField c.toField ((litOf [b, c]).getD 0#32) = c := ofField_eq fc
  have h1 : ¬ (Ty.b32.code = Ty.b64.code) := by decide
  refine decode_encode (o := .dropm) hw rfl (reason_none [b, c] ?_ ?_ ?_ (.none _ _) (.s ?_ fb) (.s ?_ fc) (.none _
      _) (.none _ _) (place_clear pd 7 (~~~(mPD)) (by decide)) rfl hl ?_ (.inl ⟨rfl, rfl⟩) hh ?_ ?_ ?_ ?_ ?_) ?_
  all_goals simp [entry, entryArith, entryMem, subTy, rawOf, okDst, generalSrcs, Kd.general, Kd.isDst, build,
      raw_fields, litN_zero, Nat.add_assoc, hpd, hb, hc, eb, ec, h1]
  · cases wide <;> rfl
  · cases wide <;> exact hb
  · simpa using hpd

theorem Laws.RoundTrip.rng (h t a b) : Laws.RoundTrip.Statement (.rng h t a b) := by
  intro st w hwf hw
  simp only [WellFormed, MAddr.ok, MAddr.uniFor, okArith, List.all_cons, List.all_nil, Bool.and_eq_true,
      Bool.or_eq_true, Bool.and_true, decide_eq_true_eq, and_assoc] at hwf
  obtain ⟨rfl, hh, ht, ha, hb, hu⟩ := hwf
  have hl : okLits [b] = true := by simp only [okLits, List.filter]; cases b <;> rfl
  have fb := fits_of hl (o := b) (by simp)
  have eb : Opd.ofField b.toField ((litOf [b]).getD 0#32) = b := ofField_eq fb
  refine decode_encode (o := .rng) hw rfl (reason_none [b] ?_ ?_ ?_ (.d ?_) (.s ?_ fb) (.none _ _) (.none _ _)
      (.none _ _) (by simp [rawOf]) rfl hl ?_ (.inl ⟨rfl, rfl⟩) hh ?_ ?_ ?_ ?_ ?_) ?_
  all_goals simp [entry, entryArith, entryMem, subTy, rawOf, okDst, generalSrcs, Kd.general, Kd.isDst, build,
      raw_fields, litN_zero, Nat.add_assoc, ht, ha, hb, hu, eb]

theorem Laws.RoundTrip.bra (h off) : Laws.RoundTrip.Statement (.bra h off) := by
  intro st w hwf hw
  simp only [WellFormed, MAddr.ok, MAddr.uniFor, okArith, List.all_cons, List.all_nil, Bool.and_eq_true,
      Bool.or_eq_true, Bool.and_true, decide_eq_true_eq, and_assoc] at hwf
  obtain ⟨hh, ho⟩ := hwf
  have hl : okLits [] = true := rfl
  refine decode_encode (o := .bra) hw rfl (reason_none [] ?_ ?_ ?_ (.none _ _) (.none _ _) (.none _ _) (.none _ _)
      (.none _ _) (by simp [rawOf]) rfl hl ?_ (.inr ⟨rfl, rfl, fun _ => ho⟩) hh ?_ ?_ ?_ ?_ ?_) ?_
  all_goals simp [entry, entryArith, entryMem, subTy, rawOf, okDst, generalSrcs, Kd.general, Kd.isDst, build,
      raw_fields, litN_zero, Nat.add_assoc, ho]

theorem Laws.RoundTrip.brx (h b) : Laws.RoundTrip.Statement (.brx h b) := by
  intro st w hwf hw
  simp only [WellFormed, MAddr.ok, MAddr.uniFor, okArith, List.all_cons, List.all_nil, Bool.and_eq_true,
      Bool.or_eq_true, Bool.and_true, decide_eq_true_eq, and_assoc] at hwf
  obtain ⟨rfl, hh, hb⟩ := hwf
  have hl : okLits [] = true := rfl
  have fb := fits_of_not_lit (ext := 0) (okPair_lit hb)
  have e_fb : Opd.ofField b.toField (0#32) = b := ofField_eq fb
  refine decode_encode (o := .brx) hw rfl (reason_none [] ?_ ?_ ?_ (.none _ _) (.pair ?_) (.none _ _) (.none _ _)
      (.none _ _) (by simp [rawOf]) rfl hl ?_ (.inl ⟨rfl, rfl⟩) hh ?_ ?_ ?_ ?_ ?_) ?_
  all_goals simp [entry, entryArith, entryMem, subTy, rawOf, okDst, generalSrcs, Kd.general, Kd.isDst, build,
      raw_fields, litN_zero, Nat.add_assoc, hb, e_fb]

theorem Laws.RoundTrip.call (h a off) : Laws.RoundTrip.Statement (.call h a off) := by
  intro st w hwf hw
  simp only [WellFormed, MAddr.ok, MAddr.uniFor, okArith, List.all_cons, List.all_nil, Bool.and_eq_true,
      Bool.or_eq_true, Bool.and_true, decide_eq_true_eq, and_assoc] at hwf
  obtain ⟨rfl, hh, ha, ho⟩ := hwf
  have hl : okLits [] = true := rfl
  refine decode_encode (o := .call) hw rfl (reason_none [] ?_ ?_ ?_ (.dvV ?_) (.none _ _) (.none _ _) (.none _ _)
      (.none _ _) (by simp [rawOf]) rfl hl ?_ (.inr ⟨rfl, rfl, fun _ => ho⟩) hh ?_ ?_ ?_ ?_ ?_) ?_
  all_goals simp [entry, entryArith, entryMem, subTy, rawOf, okDst, generalSrcs, Kd.general, Kd.isDst, build,
      raw_fields, litN_zero, Nat.add_assoc, ha, ho]

theorem Laws.RoundTrip.ret (h b) : Laws.RoundTrip.Statement (.ret h b) := by
  intro st w hwf hw
  simp only [WellFormed, MAddr.ok, MAddr.uniFor, okArith, List.all_cons, List.all_nil, Bool.and_eq_true,
      Bool.or_eq_true, Bool.and_true, decide_eq_true_eq, and_assoc] at hwf
  obtain ⟨rfl, hh, hb⟩ := hwf
  have hl : okLits [] = true := rfl
  refine decode_encode (o := .ret) hw rfl (reason_none [] ?_ ?_ ?_ (.none _ _) (.v ?_) (.none _ _) (.none _ _)
      (.none _ _) (by simp [rawOf]) rfl hl ?_ (.inl ⟨rfl, rfl⟩) hh ?_ ?_ ?_ ?_ ?_) ?_
  all_goals simp [entry, entryArith, entryMem, subTy, rawOf, okDst, generalSrcs, Kd.general, Kd.isDst, build,
      raw_fields, litN_zero, Nat.add_assoc, hb]

theorem Laws.RoundTrip.exit (h) : Laws.RoundTrip.Statement (.exit h) := by
  intro st w hwf hw
  simp only [WellFormed, MAddr.ok, MAddr.uniFor, okArith, List.all_cons, List.all_nil, Bool.and_eq_true,
      Bool.or_eq_true, Bool.and_true, decide_eq_true_eq, and_assoc] at hwf
  have hh := hwf
  have hl : okLits [] = true := rfl
  refine decode_encode (o := .exit) hw rfl (reason_none [] ?_ ?_ ?_ (.none _ _) (.none _ _) (.none _ _) (.none _ _)
      (.none _ _) (by simp [rawOf]) rfl hl ?_ (.inl ⟨rfl, rfl⟩) hh ?_ ?_ ?_ ?_ ?_) ?_
  all_goals simp [entry, entryArith, entryMem, subTy, rawOf, okDst, generalSrcs, Kd.general, Kd.isDst, build,
      raw_fields, litN_zero, Nat.add_assoc]

theorem Laws.RoundTrip.yield (h) : Laws.RoundTrip.Statement (.yield h) := by
  intro st w hwf hw
  simp only [WellFormed, MAddr.ok, MAddr.uniFor, okArith, List.all_cons, List.all_nil, Bool.and_eq_true,
      Bool.or_eq_true, Bool.and_true, decide_eq_true_eq, and_assoc] at hwf
  obtain ⟨rfl, hh, hs⟩ := hwf
  have hl : okLits [] = true := rfl
  refine decode_encode (o := .yield) hw rfl (reason_none [] ?_ ?_ ?_ (.none _ _) (.none _ _) (.none _ _) (.none _ _)
      (.none _ _) (by simp [rawOf]) rfl hl ?_ (.inl ⟨rfl, rfl⟩) hh ?_ ?_ ?_ ?_ ?_) ?_
  all_goals simp [entry, entryArith, entryMem, subTy, rawOf, okDst, generalSrcs, Kd.general, Kd.isDst, build,
      raw_fields, litN_zero, Nat.add_assoc, hs]
  cases h; simp_all

theorem Laws.RoundTrip.nop (h) : Laws.RoundTrip.Statement (.nop h) := by
  intro st w hwf hw
  simp only [WellFormed, MAddr.ok, MAddr.uniFor, okArith, List.all_cons, List.all_nil, Bool.and_eq_true,
      Bool.or_eq_true, Bool.and_true, decide_eq_true_eq, and_assoc] at hwf
  have hh := hwf
  have hl : okLits [] = true := rfl
  refine decode_encode (o := .nop) hw rfl (reason_none [] ?_ ?_ ?_ (.none _ _) (.none _ _) (.none _ _) (.none _ _)
      (.none _ _) (by simp [rawOf]) rfl hl ?_ (.inl ⟨rfl, rfl⟩) hh ?_ ?_ ?_ ?_ ?_) ?_
  all_goals simp [entry, entryArith, entryMem, subTy, rawOf, okDst, generalSrcs, Kd.general, Kd.isDst, build,
      raw_fields, litN_zero, Nat.add_assoc]

theorem Laws.RoundTrip.waitc (h ld sx cp tl) : Laws.RoundTrip.Statement (.waitc h ld sx cp tl) := by
  intro st w hwf hw
  simp only [WellFormed, MAddr.ok, MAddr.uniFor, okArith, List.all_cons, List.all_nil, Bool.and_eq_true,
      Bool.or_eq_true, Bool.and_true, decide_eq_true_eq, and_assoc] at hwf
  obtain ⟨rfl, hh⟩ := hwf
  have hl : okLits [] = true := rfl
  refine decode_encode (o := .waitc) hw rfl (reason_none [] ?_ ?_ ?_ (.none _ _) (.none _ _) (.none _ _) (.none _ _)
      (.none _ _) (by simp [rawOf]) rfl hl ?_ (.inr ⟨rfl, rfl, by intro hx; cases hx⟩) hh ?_ ?_ ?_ ?_ ?_) ?_
  all_goals simp [entry, entryArith, entryMem, subTy, rawOf, okDst, generalSrcs, Kd.general, Kd.isDst, build,
      raw_fields, litN_zero, Nat.add_assoc]
  exact waitc_parts ld sx cp tl

theorem Laws.RoundTrip.enrol (h n) : Laws.RoundTrip.Statement (.enrol h n) := by
  intro st w hwf hw
  simp only [WellFormed, MAddr.ok, MAddr.uniFor, okArith, List.all_cons, List.all_nil, Bool.and_eq_true,
      Bool.or_eq_true, Bool.and_true, decide_eq_true_eq, and_assoc] at hwf
  obtain ⟨rfl, hh⟩ := hwf
  have hl : okLits [] = true := rfl
  refine decode_encode (o := .enrol) hw rfl (reason_none [] ?_ ?_ ?_ (.none _ _) (.none _ _) (.none _ _) (.none _ _)
      (.none _ _) (place_clear n 0 (~~~(mSCOPE)) (by decide)) rfl hl ?_ (.inl ⟨rfl, rfl⟩) hh ?_ ?_ ?_ ?_ ?_) ?_
  all_goals simp [entry, entryArith, entryMem, subTy, rawOf, okDst, generalSrcs, Kd.general, Kd.isDst, build,
      raw_fields, litN_zero, Nat.add_assoc]

theorem Laws.RoundTrip.rejoin (h n) : Laws.RoundTrip.Statement (.rejoin h n) := by
  intro st w hwf hw
  simp only [WellFormed, MAddr.ok, MAddr.uniFor, okArith, List.all_cons, List.all_nil, Bool.and_eq_true,
      Bool.or_eq_true, Bool.and_true, decide_eq_true_eq, and_assoc] at hwf
  obtain ⟨rfl, hh⟩ := hwf
  have hl : okLits [] = true := rfl
  refine decode_encode (o := .rejoin) hw rfl (reason_none [] ?_ ?_ ?_ (.none _ _) (.none _ _) (.none _ _) (.none _
      _) (.none _ _) (place_clear n 0 (~~~(mSCOPE)) (by decide)) rfl hl ?_ (.inl ⟨rfl, rfl⟩) hh ?_ ?_ ?_ ?_ ?_) ?_
  all_goals simp [entry, entryArith, entryMem, subTy, rawOf, okDst, generalSrcs, Kd.general, Kd.isDst, build,
      raw_fields, litN_zero, Nat.add_assoc]

theorem Laws.RoundTrip.strike (h n) : Laws.RoundTrip.Statement (.strike h n) := by
  intro st w hwf hw
  simp only [WellFormed, MAddr.ok, MAddr.uniFor, okArith, List.all_cons, List.all_nil, Bool.and_eq_true,
      Bool.or_eq_true, Bool.and_true, decide_eq_true_eq, and_assoc] at hwf
  obtain ⟨rfl, hh⟩ := hwf
  have hl : okLits [] = true := rfl
  refine decode_encode (o := .strike) hw rfl (reason_none [] ?_ ?_ ?_ (.none _ _) (.none _ _) (.none _ _) (.none _
      _) (.none _ _) (place_clear n 0 (~~~(mSCOPE)) (by decide)) rfl hl ?_ (.inl ⟨rfl, rfl⟩) hh ?_ ?_ ?_ ?_ ?_) ?_
  all_goals simp [entry, entryArith, entryMem, subTy, rawOf, okDst, generalSrcs, Kd.general, Kd.isDst, build,
      raw_fields, litN_zero, Nat.add_assoc]

theorem Laws.RoundTrip.trap (h code) : Laws.RoundTrip.Statement (.trap h code) := by
  intro st w hwf hw
  simp only [WellFormed, MAddr.ok, MAddr.uniFor, okArith, List.all_cons, List.all_nil, Bool.and_eq_true,
      Bool.or_eq_true, Bool.and_true, decide_eq_true_eq, and_assoc] at hwf
  obtain ⟨rfl, hh⟩ := hwf
  have hl : okLits [] = true := rfl
  refine decode_encode (o := .trap) hw rfl (reason_none [] ?_ ?_ ?_ (.none _ _) (.none _ _) (.none _ _) (.none _ _)
      (.none _ _) (by simp [rawOf]) rfl hl ?_ (.inr ⟨rfl, okExt_code code, by intro hx; cases hx⟩) hh ?_ ?_ ?_ ?_ ?_) ?_
  all_goals simp [entry, entryArith, entryMem, subTy, rawOf, okDst, generalSrcs, Kd.general, Kd.isDst, build,
      raw_fields, litN_zero, Nat.add_assoc]

theorem Laws.RoundTrip.rte (h) : Laws.RoundTrip.Statement (.rte h) := by
  intro st w hwf hw
  simp only [WellFormed, MAddr.ok, MAddr.uniFor, okArith, List.all_cons, List.all_nil, Bool.and_eq_true,
      Bool.or_eq_true, Bool.and_true, decide_eq_true_eq, and_assoc] at hwf
  obtain ⟨rfl, hh⟩ := hwf
  have hl : okLits [] = true := rfl
  refine decode_encode (o := .rte) hw rfl (reason_none [] ?_ ?_ ?_ (.none _ _) (.none _ _) (.none _ _) (.none _ _)
      (.none _ _) (by simp [rawOf]) rfl hl ?_ (.inl ⟨rfl, rfl⟩) hh ?_ ?_ ?_ ?_ ?_) ?_
  all_goals simp [entry, entryArith, entryMem, subTy, rawOf, okDst, generalSrcs, Kd.general, Kd.isDst, build,
      raw_fields, litN_zero, Nat.add_assoc]

theorem Laws.RoundTrip.ipf (h n off) : Laws.RoundTrip.Statement (.ipf h n off) := by
  intro st w hwf hw
  simp only [WellFormed, MAddr.ok, MAddr.uniFor, okArith, List.all_cons, List.all_nil, Bool.and_eq_true,
      Bool.or_eq_true, Bool.and_true, decide_eq_true_eq, and_assoc] at hwf
  obtain ⟨rfl, hh, h1, h8, ho⟩ := hwf
  have hl : okLits [] = true := rfl
  have hs := special_toNat n (by decide)
  refine decode_encode (o := .ipf) hw rfl (reason_none [] ?_ ?_ ?_ (.none _ _) .int (.none _ _) (.none _ _) (.none _
      _) (by simp [rawOf]) rfl hl ?_ (.inr ⟨rfl, rfl, fun _ => ho⟩) hh ?_ ?_ ?_ ?_ ?_) ?_
  all_goals simp [entry, entryArith, entryMem, subTy, rawOf, okDst, generalSrcs, Kd.general, Kd.isDst, build,
      raw_fields, litN_zero, Nat.add_assoc, h1, h8, ho, hs, inRange]
  omega

theorem Laws.RoundTrip.icinv (h b len) : Laws.RoundTrip.Statement (.icinv h b len) := by
  intro st w hwf hw
  simp only [WellFormed, MAddr.ok, MAddr.uniFor, okArith, List.all_cons, List.all_nil, Bool.and_eq_true,
      Bool.or_eq_true, Bool.and_true, decide_eq_true_eq, and_assoc] at hwf
  obtain ⟨rfl, hh, hb, hc⟩ := hwf
  have hl : okLits [len] = true := by simp only [okLits, List.filter]; cases len <;> rfl
  have flen := fits_of hl (o := len) (by simp)
  have elen : Opd.ofField len.toField ((litOf [len]).getD 0#32) = len := ofField_eq flen
  have fb := fits_of_not_lit (ext := (litOf [len]).getD 0) (okPair_lit hb)
  have e_fb : Opd.ofField b.toField ((litOf [len]).getD 0#32) = b := ofField_eq fb
  refine decode_encode (o := .icinv) hw rfl (reason_none [len] ?_ ?_ ?_ (.none _ _) (.pair ?_) (.s ?_ flen) (.none _
      _) (.none _ _) (by simp [rawOf]) rfl hl ?_ (.inl ⟨rfl, rfl⟩) hh ?_ ?_ ?_ ?_ ?_) ?_
  all_goals simp [entry, entryArith, entryMem, subTy, rawOf, okDst, generalSrcs, Kd.general, Kd.isDst, build,
      raw_fields, litN_zero, Nat.add_assoc, hb, hc, elen, e_fb]

theorem Laws.RoundTrip.ifence (h) : Laws.RoundTrip.Statement (.ifence h) := by
  intro st w hwf hw
  simp only [WellFormed, MAddr.ok, MAddr.uniFor, okArith, List.all_cons, List.all_nil, Bool.and_eq_true,
      Bool.or_eq_true, Bool.and_true, decide_eq_true_eq, and_assoc] at hwf
  obtain ⟨rfl, hh⟩ := hwf
  have hl : okLits [] = true := rfl
  refine decode_encode (o := .ifence) hw rfl (reason_none [] ?_ ?_ ?_ (.none _ _) (.none _ _) (.none _ _) (.none _
      _) (.none _ _) (by simp [rawOf]) rfl hl ?_ (.inl ⟨rfl, rfl⟩) hh ?_ ?_ ?_ ?_ ?_) ?_
  all_goals simp [entry, entryArith, entryMem, subTy, rawOf, okDst, generalSrcs, Kd.general, Kd.isDst, build,
      raw_fields, litN_zero, Nat.add_assoc]

theorem Laws.RoundTrip.ld (h t kind scope a m) : Laws.RoundTrip.Statement (.ld h t kind scope a m) := by
  intro st w hwf hw
  simp only [WellFormed, MAddr.ok, MAddr.uniFor, okArith, List.all_cons, List.all_nil, Bool.and_eq_true,
      Bool.or_eq_true, Bool.and_true, decide_eq_true_eq, and_assoc] at hwf
  obtain ⟨rfl, hh, hks, hmb, hmi, hms, ha, hu⟩ := hwf
  have hl : okLits [] = true := rfl
  have fb := fits_of_not_lit (ext := m.off) (okBase_lit hmb)
  have fi := fits_of_not_lit (ext := m.off) (okIndex_lit hmi)
  have e_fb : Opd.ofField m.base.toField (m.off) = m.base := ofField_eq fb
  have e_fi : Opd.ofField m.index.toField (m.off) = m.index := ofField_eq fi
  refine decode_encode (o := .ld) hw rfl (reason_none [] ?_ ?_ ?_ (.d ?_) (.base ?_) (.index ?_) (.none _ _) (.none
      _ _) (or_clear (or_clear (place_clear m.isc 13 (~~~((mKIND ||| mSCOPE) ||| mISC)) (by decide)) (place_clear
      kind.code 4 (~~~((mKIND ||| mSCOPE) ||| mISC)) (by decide))) (place_clear scope.code 0 (~~~((mKIND ||| mSCOPE) |||
      mISC)) (by decide))) rfl hl ?_ (.inr ⟨rfl, rfl, by intro hx; cases hx⟩) hh ?_ ?_ ?_ ?_ ?_) ?_
  all_goals simp [entry, entryArith, entryMem, subTy, rawOf, okDst, generalSrcs, Kd.general, Kd.isDst, build,
      raw_fields, litN_zero, Nat.add_assoc, hks, hmb, hmi, hms, ha, hu, e_fb, e_fi]
  refine ⟨Scope.code_le _, ?_⟩
  rcases hks with ⟨rfl, rfl⟩ | rfl <;> simp [Kind.code, Scope.code]

theorem Laws.RoundTrip.st (h t kind scope m x) : Laws.RoundTrip.Statement (.st h t kind scope m x) := by
  intro st w hwf hw
  simp only [WellFormed, MAddr.ok, MAddr.uniFor, okArith, List.all_cons, List.all_nil, Bool.and_eq_true,
      Bool.or_eq_true, Bool.and_true, decide_eq_true_eq, and_assoc] at hwf
  obtain ⟨rfl, hh, hks, hmb, hmi, hms, hd⟩ := hwf
  have hl : okLits [] = true := rfl
  have fb := fits_of_not_lit (ext := m.off) (okBase_lit hmb)
  have fi := fits_of_not_lit (ext := m.off) (okIndex_lit hmi)
  have fd := fits_of_not_lit (ext := m.off) (okData_lit hd)
  have e_fb : Opd.ofField m.base.toField (m.off) = m.base := ofField_eq fb
  have e_fi : Opd.ofField m.index.toField (m.off) = m.index := ofField_eq fi
  have e_fd : Opd.ofField x.toField (m.off) = x := ofField_eq fd
  refine decode_encode (o := .st) hw rfl (reason_none [] ?_ ?_ ?_ (.none _ _) (.base ?_) (.index ?_) (.data ?_)
      (.none _ _) (or_clear (or_clear (place_clear m.isc 13 (~~~((mKIND ||| mSCOPE) ||| mISC)) (by decide)) (place_clear
      kind.code 4 (~~~((mKIND ||| mSCOPE) ||| mISC)) (by decide))) (place_clear scope.code 0 (~~~((mKIND ||| mSCOPE) |||
      mISC)) (by decide))) rfl hl ?_ (.inr ⟨rfl, rfl, by intro hx; cases hx⟩) hh ?_ ?_ ?_ ?_ ?_) ?_
  all_goals simp [entry, entryArith, entryMem, subTy, rawOf, okDst, generalSrcs, Kd.general, Kd.isDst, build,
      raw_fields, litN_zero, Nat.add_assoc, hks, hmb, hmi, hms, hd, e_fb, e_fi, e_fd]
  refine ⟨Scope.code_le _, ?_⟩
  rcases hks with ⟨rfl, rfl⟩ | rfl <;> simp [Kind.code, Scope.code]

theorem Laws.RoundTrip.atom (h op t kind scope a m x) : Laws.RoundTrip.Statement (.atom h op t kind scope a m x) := by
  intro st w hwf hw
  simp only [WellFormed, MAddr.ok, MAddr.uniFor, okArith, List.all_cons, List.all_nil, Bool.and_eq_true,
      Bool.or_eq_true, Bool.and_true, decide_eq_true_eq, and_assoc] at hwf
  obtain ⟨rfl, hh, hop, hmb, hmi, hms, ha, hd⟩ := hwf
  have hl : okLits [] = true := rfl
  have fb := fits_of_not_lit (ext := m.off) (okBase_lit hmb)
  have fi := fits_of_not_lit (ext := m.off) (okIndex_lit hmi)
  have fd := fits_of_not_lit (ext := m.off) (okData_lit hd)
  have e_fb : Opd.ofField m.base.toField (m.off) = m.base := ofField_eq fb
  have e_fi : Opd.ofField m.index.toField (m.off) = m.index := ofField_eq fi
  have e_fd : Opd.ofField x.toField (m.off) = x := ofField_eq fd
  refine decode_encode (o := .atom) hw rfl (reason_none [] ?_ ?_ ?_ (.dv ?_) (.base ?_) (.index ?_) (.data ?_)
      (.none _ _) (or_clear (or_clear (or_clear (place_clear m.isc 13 (~~~((mAOP ||| mKIND ||| mSCOPE) ||| mISC)) (by
      decide)) (place_clear op.code 6 (~~~((mAOP ||| mKIND ||| mSCOPE) ||| mISC)) (by decide))) (place_clear kind.code 4
      (~~~((mAOP ||| mKIND ||| mSCOPE) ||| mISC)) (by decide))) (place_clear scope.code 0 (~~~((mAOP ||| mKIND |||
      mSCOPE) ||| mISC)) (by decide))) rfl hl ?_ (.inr ⟨rfl, rfl, by intro hx; cases hx⟩) hh ?_ ?_ ?_ ?_ ?_) ?_
  all_goals simp [entry, entryArith, entryMem, subTy, rawOf, okDst, generalSrcs, Kd.general, Kd.isDst, build,
      raw_fields, litN_zero, Nat.add_assoc, hop, hmb, hmi, hms, ha, hd, e_fb, e_fi, e_fd]
  · exact okAop_types hop
  · cases a <;> first | rfl | simp [Dst.okVec] at ha
  · exact ⟨Scope.code_le _, by cases op <;> decide⟩

theorem Laws.RoundTrip.red (h op t kind scope m x) : Laws.RoundTrip.Statement (.red h op t kind scope m x) := by
  intro st w hwf hw
  simp only [WellFormed, MAddr.ok, MAddr.uniFor, okArith, List.all_cons, List.all_nil, Bool.and_eq_true,
      Bool.or_eq_true, Bool.and_true, decide_eq_true_eq, and_assoc] at hwf
  obtain ⟨rfl, hh, hop, hne, hk, hmb, hmi, hms, hd⟩ := hwf
  have hl : okLits [] = true := rfl
  have fb := fits_of_not_lit (ext := m.off) (okBase_lit hmb)
  have fi := fits_of_not_lit (ext := m.off) (okIndex_lit hmi)
  have fd := fits_of_not_lit (ext := m.off) (okData_lit hd)
  have e_fb : Opd.ofField m.base.toField (m.off) = m.base := ofField_eq fb
  have e_fi : Opd.ofField m.index.toField (m.off) = m.index := ofField_eq fi
  have e_fd : Opd.ofField x.toField (m.off) = x := ofField_eq fd
  refine decode_encode (o := .red) hw rfl (reason_none [] ?_ ?_ ?_ (.none _ _) (.base ?_) (.index ?_) (.data ?_)
      (.none _ _) (or_clear (or_clear (or_clear (place_clear m.isc 13 (~~~((mAOP ||| mKIND ||| mSCOPE) ||| mISC)) (by
      decide)) (place_clear op.code 6 (~~~((mAOP ||| mKIND ||| mSCOPE) ||| mISC)) (by decide))) (place_clear kind.code 4
      (~~~((mAOP ||| mKIND ||| mSCOPE) ||| mISC)) (by decide))) (place_clear scope.code 0 (~~~((mAOP ||| mKIND |||
      mSCOPE) ||| mISC)) (by decide))) rfl hl ?_ (.inr ⟨rfl, rfl, by intro hx; cases hx⟩) hh ?_ ?_ ?_ ?_ ?_) ?_
  all_goals simp [entry, entryArith, entryMem, subTy, rawOf, okDst, generalSrcs, Kd.general, Kd.isDst, build,
      raw_fields, litN_zero, Nat.add_assoc, hop, hne, hk, hmb, hmi, hms, hd, e_fb, e_fi, e_fd]
  · exact okAop_types hop
  · refine ⟨⟨Scope.code_le _, by cases op <;> first | decide | exact absurd rfl hne⟩, ?_⟩
    rcases hk with rfl | rfl <;> simp [Kind.code]

theorem Laws.RoundTrip.fld (h a pd m) : Laws.RoundTrip.Statement (.fld h a pd m) := by
  intro st w hwf hw
  simp only [WellFormed, MAddr.ok, MAddr.uniFor, okArith, List.all_cons, List.all_nil, Bool.and_eq_true,
      Bool.or_eq_true, Bool.and_true, decide_eq_true_eq, and_assoc] at hwf
  obtain ⟨rfl, hh, ha, hpd, hmb, hmi, hms⟩ := hwf
  have hl : okLits [] = true := rfl
  have fb := fits_of_not_lit (ext := m.off) (okBase_lit hmb)
  have fi := fits_of_not_lit (ext := m.off) (okIndex_lit hmi)
  have e_fb : Opd.ofField m.base.toField (m.off) = m.base := ofField_eq fb
  have e_fi : Opd.ofField m.index.toField (m.off) = m.index := ofField_eq fi
  refine decode_encode (o := .fld) hw rfl (reason_none [] ?_ ?_ ?_ (.dvV ?_) (.base ?_) (.index ?_) (.none _ _)
      (.none _ _) (or_clear (place_clear m.isc 13 (~~~(mPDM ||| mISC)) (by decide)) (place_clear pd 10 (~~~(mPDM |||
      mISC)) (by decide))) rfl hl ?_ (.inr ⟨rfl, rfl, by intro hx; cases hx⟩) hh ?_ ?_ ?_ ?_ ?_) ?_
  all_goals simp [entry, entryArith, entryMem, subTy, rawOf, okDst, generalSrcs, Kd.general, Kd.isDst, build,
      raw_fields, litN_zero, Nat.add_assoc, ha, hpd, hmb, hmi, hms, e_fb, e_fi]
  simpa using hpd

theorem Laws.RoundTrip.fset (h pd m x) : Laws.RoundTrip.Statement (.fset h pd m x) := by
  intro st w hwf hw
  simp only [WellFormed, MAddr.ok, MAddr.uniFor, okArith, List.all_cons, List.all_nil, Bool.and_eq_true,
      Bool.or_eq_true, Bool.and_true, decide_eq_true_eq, and_assoc] at hwf
  obtain ⟨rfl, hh, hmb, hmi, hms, hd⟩ := hwf
  have hl : okLits [] = true := rfl
  have fb := fits_of_not_lit (ext := m.off) (okBase_lit hmb)
  have fi := fits_of_not_lit (ext := m.off) (okIndex_lit hmi)
  have fd := fits_of_not_lit (ext := m.off) (okData_lit hd)
  have e_fb : Opd.ofField m.base.toField (m.off) = m.base := ofField_eq fb
  have e_fi : Opd.ofField m.index.toField (m.off) = m.index := ofField_eq fi
  have e_fd : Opd.ofField x.toField (m.off) = x := ofField_eq fd
  refine decode_encode (o := .fset) hw rfl (reason_none [] ?_ ?_ ?_ (.none _ _) (.base ?_) (.index ?_) (.data ?_)
      (.none _ _) (or_clear (place_clear m.isc 13 (~~~(mPDM ||| mISC)) (by decide)) (place_clear pd 10 (~~~(mPDM |||
      mISC)) (by decide))) rfl hl ?_ (.inr ⟨rfl, rfl, by intro hx; cases hx⟩) hh ?_ ?_ ?_ ?_ ?_) ?_
  all_goals simp [entry, entryArith, entryMem, subTy, rawOf, okDst, generalSrcs, Kd.general, Kd.isDst, build,
      raw_fields, litN_zero, Nat.add_assoc, hmb, hmi, hms, hd, e_fb, e_fi, e_fd]

theorem Laws.RoundTrip.fclr (h m) : Laws.RoundTrip.Statement (.fclr h m) := by
  intro st w hwf hw
  simp only [WellFormed, MAddr.ok, MAddr.uniFor, okArith, List.all_cons, List.all_nil, Bool.and_eq_true,
      Bool.or_eq_true, Bool.and_true, decide_eq_true_eq, and_assoc] at hwf
  obtain ⟨rfl, hh, hmb, hmi, hms⟩ := hwf
  have hl : okLits [] = true := rfl
  have fb := fits_of_not_lit (ext := m.off) (okBase_lit hmb)
  have fi := fits_of_not_lit (ext := m.off) (okIndex_lit hmi)
  have e_fb : Opd.ofField m.base.toField (m.off) = m.base := ofField_eq fb
  have e_fi : Opd.ofField m.index.toField (m.off) = m.index := ofField_eq fi
  refine decode_encode (o := .fclr) hw rfl (reason_none [] ?_ ?_ ?_ (.none _ _) (.base ?_) (.index ?_) (.none _ _)
      (.none _ _) (place_clear m.isc 13 (~~~(0 ||| mISC)) (by decide)) rfl hl ?_ (.inr ⟨rfl, rfl, by intro hx; cases
      hx⟩) hh ?_ ?_ ?_ ?_ ?_) ?_
  all_goals simp [entry, entryArith, entryMem, subTy, rawOf, okDst, generalSrcs, Kd.general, Kd.isDst, build,
      raw_fields, litN_zero, Nat.add_assoc, hmb, hmi, hms, e_fb, e_fi]

theorem Laws.RoundTrip.waiton (h cond t a m x) : Laws.RoundTrip.Statement (.waiton h cond t a m x) := by
  intro st w hwf hw
  simp only [WellFormed, MAddr.ok, MAddr.uniFor, okArith, List.all_cons, List.all_nil, Bool.and_eq_true,
      Bool.or_eq_true, Bool.and_true, decide_eq_true_eq, and_assoc] at hwf
  obtain ⟨rfl, hh, hk, ht, ha, hmb, hmi, hms, hd, hu⟩ := hwf
  have hl : okLits [] = true := rfl
  have fb := fits_of_not_lit (ext := m.off) (okBase_lit hmb)
  have fi := fits_of_not_lit (ext := m.off) (okIndex_lit hmi)
  have fd := fits_of_not_lit (ext := m.off) (okData_lit hd)
  have hk5 : cond.code.toNat ≤ 5 := by cases cond <;> simp_all [Cond.isInt, Cond.code]
  have e_fb : Opd.ofField m.base.toField (m.off) = m.base := ofField_eq fb
  have e_fi : Opd.ofField m.index.toField (m.off) = m.index := ofField_eq fi
  have e_fd : Opd.ofField x.toField (m.off) = x := ofField_eq fd
  refine decode_encode (o := .waiton) hw rfl (reason_none [] ?_ ?_ ?_ (.d ?_) (.base ?_) (.index ?_) (.data ?_)
      (.none _ _) (or_clear (place_clear m.isc 13 (~~~(mAOP ||| mISC)) (by decide)) (place_clear cond.code 6 (~~~(mAOP
      ||| mISC)) (by decide))) rfl hl ?_ (.inr ⟨rfl, rfl, by intro hx; cases hx⟩) hh ?_ ?_ ?_ ?_ ?_) ?_
  all_goals simp [entry, entryArith, entryMem, subTy, rawOf, okDst, generalSrcs, Kd.general, Kd.isDst, build,
      raw_fields, litN_zero, Nat.add_assoc, hk, ht, ha, hmb, hmi, hms, hd, hu, e_fb, e_fi, e_fd, hk5]

theorem Laws.RoundTrip.txb (h off) : Laws.RoundTrip.Statement (.txb h off) := by
  intro st w hwf hw
  simp only [WellFormed, MAddr.ok, MAddr.uniFor, okArith, List.all_cons, List.all_nil, Bool.and_eq_true,
      Bool.or_eq_true, Bool.and_true, decide_eq_true_eq, and_assoc] at hwf
  obtain ⟨rfl, hh, ho⟩ := hwf
  have hl : okLits [] = true := rfl
  refine decode_encode (o := .txb) hw rfl (reason_none [] ?_ ?_ ?_ (.none _ _) (.none _ _) (.none _ _) (.none _ _)
      (.none _ _) (by simp [rawOf]) rfl hl ?_ (.inr ⟨rfl, rfl, fun _ => ho⟩) hh ?_ ?_ ?_ ?_ ?_) ?_
  all_goals simp [entry, entryArith, entryMem, subTy, rawOf, okDst, generalSrcs, Kd.general, Kd.isDst, build,
      raw_fields, litN_zero, Nat.add_assoc, ho]

theorem Laws.RoundTrip.txe (h) : Laws.RoundTrip.Statement (.txe h) := by
  intro st w hwf hw
  simp only [WellFormed, MAddr.ok, MAddr.uniFor, okArith, List.all_cons, List.all_nil, Bool.and_eq_true,
      Bool.or_eq_true, Bool.and_true, decide_eq_true_eq, and_assoc] at hwf
  obtain ⟨rfl, hh⟩ := hwf
  have hl : okLits [] = true := rfl
  refine decode_encode (o := .txe) hw rfl (reason_none [] ?_ ?_ ?_ (.none _ _) (.none _ _) (.none _ _) (.none _ _)
      (.none _ _) (by simp [rawOf]) rfl hl ?_ (.inr ⟨rfl, rfl, by intro hx; cases hx⟩) hh ?_ ?_ ?_ ?_ ?_) ?_
  all_goals simp [entry, entryArith, entryMem, subTy, rawOf, okDst, generalSrcs, Kd.general, Kd.isDst, build,
      raw_fields, litN_zero, Nat.add_assoc]

theorem Laws.RoundTrip.txa (h code) : Laws.RoundTrip.Statement (.txa h code) := by
  intro st w hwf hw
  simp only [WellFormed, MAddr.ok, MAddr.uniFor, okArith, List.all_cons, List.all_nil, Bool.and_eq_true,
      Bool.or_eq_true, Bool.and_true, decide_eq_true_eq, and_assoc] at hwf
  obtain ⟨rfl, hh⟩ := hwf
  have hl : okLits [] = true := rfl
  refine decode_encode (o := .txa) hw rfl (reason_none [] ?_ ?_ ?_ (.none _ _) (.none _ _) (.none _ _) (.none _ _)
      (.none _ _) (by simp [rawOf]) rfl hl ?_ (.inr ⟨rfl, okExt_code code, by intro hx; cases hx⟩) hh ?_ ?_ ?_ ?_ ?_) ?_
  all_goals simp [entry, entryArith, entryMem, subTy, rawOf, okDst, generalSrcs, Kd.general, Kd.isDst, build,
      raw_fields, litN_zero, Nat.add_assoc]

theorem Laws.RoundTrip.fence (h kind scope spec) : Laws.RoundTrip.Statement (.fence h kind scope spec) := by
  intro st w hwf hw
  simp only [WellFormed, MAddr.ok, MAddr.uniFor, okArith, List.all_cons, List.all_nil, Bool.and_eq_true,
      Bool.or_eq_true, Bool.and_true, decide_eq_true_eq, and_assoc] at hwf
  obtain ⟨rfl, hh, hk, hs⟩ := hwf
  have hl : okLits [] = true := rfl
  refine decode_encode (o := .fence) hw rfl (reason_none [] ?_ ?_ ?_ (.none _ _) (.none _ _) (.none _ _) (.none _ _)
      (.none _ _) (or_clear (or_clear (place_clear kind.code 4 (~~~(mKIND ||| mSPEC ||| mSCOPE)) (by decide))
      (place_clear scope.code 0 (~~~(mKIND ||| mSPEC ||| mSCOPE)) (by decide))) (place_clear (BitVec.ofBool spec) 3
      (~~~(mKIND ||| mSPEC ||| mSCOPE)) (by decide))) rfl hl ?_ (.inr ⟨rfl, rfl, by intro hx; cases hx⟩) hh ?_ ?_ ?_ ?_
      ?_) ?_
  all_goals simp [entry, entryArith, entryMem, subTy, rawOf, okDst, generalSrcs, Kd.general, Kd.isDst, build,
      raw_fields, litN_zero, Nat.add_assoc, hk, hs]
  refine ⟨⟨Scope.code_le _, by cases kind <;> simp_all [Kind.code]⟩, ?_⟩
  cases kind <;> simp_all [Kind.code]

theorem Laws.RoundTrip.gath (h t a m n) : Laws.RoundTrip.Statement (.gath h t a m n) := by
  intro st w hwf hw
  simp only [WellFormed, MAddr.ok, MAddr.uniFor, okArith, List.all_cons, List.all_nil, Bool.and_eq_true,
      Bool.or_eq_true, Bool.and_true, decide_eq_true_eq, and_assoc] at hwf
  obtain ⟨rfl, hh, ht, ha, hmb, hmi, hms⟩ := hwf
  have hl : okLits [] = true := rfl
  have fb := fits_of_not_lit (ext := m.off) (okBase_lit hmb)
  have fi := fits_of_not_lit (ext := m.off) (okIndex_lit hmi)
  have e_fb : Opd.ofField m.base.toField (m.off) = m.base := ofField_eq fb
  have e_fi : Opd.ofField m.index.toField (m.off) = m.index := ofField_eq fi
  refine decode_encode (o := .gath) hw rfl (reason_none [] ?_ ?_ ?_ (.dvV ?_) (.base ?_) (.index ?_) (.none _ _)
      (.none _ _) (or_clear (place_clear m.isc 13 (~~~(mPDM ||| mISC)) (by decide)) (place_clear n 10 (~~~(mPDM |||
      mISC)) (by decide))) rfl hl ?_ (.inr ⟨rfl, rfl, by intro hx; cases hx⟩) hh ?_ ?_ ?_ ?_ ?_) ?_
  all_goals simp [entry, entryArith, entryMem, subTy, rawOf, okDst, generalSrcs, Kd.general, Kd.isDst, build,
      raw_fields, litN_zero, Nat.add_assoc, ht, ha, hmb, hmi, hms, e_fb, e_fi]

theorem Laws.RoundTrip.dpf (h m) : Laws.RoundTrip.Statement (.dpf h m) := by
  intro st w hwf hw
  simp only [WellFormed, MAddr.ok, MAddr.uniFor, okArith, List.all_cons, List.all_nil, Bool.and_eq_true,
      Bool.or_eq_true, Bool.and_true, decide_eq_true_eq, and_assoc] at hwf
  obtain ⟨rfl, hh, hmb, hmi, hms⟩ := hwf
  have hl : okLits [] = true := rfl
  have fb := fits_of_not_lit (ext := m.off) (okBase_lit hmb)
  have fi := fits_of_not_lit (ext := m.off) (okIndex_lit hmi)
  have e_fb : Opd.ofField m.base.toField (m.off) = m.base := ofField_eq fb
  have e_fi : Opd.ofField m.index.toField (m.off) = m.index := ofField_eq fi
  refine decode_encode (o := .dpf) hw rfl (reason_none [] ?_ ?_ ?_ (.none _ _) (.base ?_) (.index ?_) (.none _ _)
      (.none _ _) (place_clear m.isc 13 (~~~(0 ||| mISC)) (by decide)) rfl hl ?_ (.inr ⟨rfl, rfl, by intro hx; cases
      hx⟩) hh ?_ ?_ ?_ ?_ ?_) ?_
  all_goals simp [entry, entryArith, entryMem, subTy, rawOf, okDst, generalSrcs, Kd.general, Kd.isDst, build,
      raw_fields, litN_zero, Nat.add_assoc, hmb, hmi, hms, e_fb, e_fi]

theorem Laws.RoundTrip.cpy (h scope auto x y z tag) : Laws.RoundTrip.Statement (.cpy h scope auto x y z tag) := by
  intro st w hwf hw
  simp only [WellFormed, MAddr.ok, MAddr.uniFor, okArith, List.all_cons, List.all_nil, Bool.and_eq_true,
      Bool.or_eq_true, Bool.and_true, decide_eq_true_eq, and_assoc] at hwf
  obtain ⟨rfl, hh, hs, hx, hy, hz, htag⟩ := hwf
  have hl : okLits [z] = true := by simp only [okLits, List.filter]; cases z <;> rfl
  have fz := fits_of hl (o := z) (by simp)
  have ez : Opd.ofField z.toField ((litOf [z]).getD 0#32) = z := ofField_eq fz
  have fx := fits_of_not_lit (ext := (litOf [z]).getD 0) (okBase_lit hx)
  have fy := fits_of_not_lit (ext := (litOf [z]).getD 0) (okBase_lit hy)
  have e_fx : Opd.ofField x.toField ((litOf [z]).getD 0#32) = x := ofField_eq fx
  have e_fy : Opd.ofField y.toField ((litOf [z]).getD 0#32) = y := ofField_eq fy
  refine decode_encode (o := .cpy) hw rfl (reason_none [z] ?_ ?_ ?_ (.base ?_) (.base ?_) (.s ?_ fz) (.tag ?_)
      (.none _ _) (or_clear (place_clear (BitVec.ofBool auto) 6 (~~~(mSAT ||| mSCOPE)) (by decide)) (place_clear
      scope.code 0 (~~~(mSAT ||| mSCOPE)) (by decide))) rfl hl ?_ (.inl ⟨rfl, rfl⟩) hh ?_ ?_ ?_ ?_ ?_) ?_
  all_goals simp [entry, entryArith, entryMem, subTy, rawOf, okDst, generalSrcs, Kd.general, Kd.isDst, build,
      raw_fields, litN_zero, Nat.add_assoc, hs, hx, hy, hz, htag, ez, e_fx, e_fy]
  exact ⟨Scope.code_le _, Scope.code_wide hs⟩

theorem Laws.RoundTrip.cpyt (h scope auto x y z tag) : Laws.RoundTrip.Statement (.cpyt h scope auto x y z tag) := by
  intro st w hwf hw
  simp only [WellFormed, MAddr.ok, MAddr.uniFor, okArith, List.all_cons, List.all_nil, Bool.and_eq_true,
      Bool.or_eq_true, Bool.and_true, decide_eq_true_eq, and_assoc] at hwf
  obtain ⟨rfl, hh, hs, hx, hy, hz, htag⟩ := hwf
  have hl : okLits [z] = true := by simp only [okLits, List.filter]; cases z <;> rfl
  have fz := fits_of hl (o := z) (by simp)
  have ez : Opd.ofField z.toField ((litOf [z]).getD 0#32) = z := ofField_eq fz
  have fx := fits_of_not_lit (ext := (litOf [z]).getD 0) (okBase_lit hx)
  have fy := fits_of_not_lit (ext := (litOf [z]).getD 0) (okBase_lit hy)
  have zL : z.isLit = false := by cases z <;> simp_all [Opd.isLit]
  have zN := litN_zero zL
  have e_fx : Opd.ofField x.toField ((litOf [z]).getD 0#32) = x := ofField_eq fx
  have e_fy : Opd.ofField y.toField ((litOf [z]).getD 0#32) = y := ofField_eq fy
  refine decode_encode (o := .cpyt) hw rfl (reason_none [z] ?_ ?_ ?_ (.base ?_) (.base ?_) (.org ?_) (.tag ?_)
      (.none _ _) (or_clear (place_clear (BitVec.ofBool auto) 6 (~~~(mSAT ||| mSCOPE)) (by decide)) (place_clear
      scope.code 0 (~~~(mSAT ||| mSCOPE)) (by decide))) rfl hl ?_ (.inl ⟨rfl, rfl⟩) hh ?_ ?_ ?_ ?_ ?_) ?_
  all_goals first | (cases z <;> simp_all; done) | simp [entry, entryArith, entryMem, subTy, rawOf, okDst,
      generalSrcs, Kd.general, Kd.isDst, build, raw_fields, litN_zero, Nat.add_assoc, hs, hx, hy, hz, htag, ez, zN,
      e_fx, e_fy]
  exact ⟨Scope.code_le _, Scope.code_wide hs⟩

theorem Laws.RoundTrip.tagarm (h tag count) : Laws.RoundTrip.Statement (.tagarm h tag count) := by
  intro st w hwf hw
  simp only [WellFormed, MAddr.ok, MAddr.uniFor, okArith, List.all_cons, List.all_nil, Bool.and_eq_true,
      Bool.or_eq_true, Bool.and_true, decide_eq_true_eq, and_assoc] at hwf
  obtain ⟨hh, htag, hc⟩ := hwf
  have hl : okLits [count] = true := by simp only [okLits, List.filter]; cases count <;> rfl
  have fcount := fits_of hl (o := count) (by simp)
  have ecount : Opd.ofField count.toField ((litOf [count]).getD 0#32) = count := ofField_eq fcount
  refine decode_encode (o := .tagarm) hw rfl (reason_none [count] ?_ ?_ ?_ (.none _ _) (.tag ?_) (.s ?_ fcount)
      (.none _ _) (.none _ _) (by simp [rawOf]) rfl hl ?_ (.inl ⟨rfl, rfl⟩) hh ?_ ?_ ?_ ?_ ?_) ?_
  all_goals simp [entry, entryArith, entryMem, subTy, rawOf, okDst, generalSrcs, Kd.general, Kd.isDst, build,
      raw_fields, litN_zero, Nat.add_assoc, htag, hc, ecount]

theorem Laws.RoundTrip.tagwt (h all mask) : Laws.RoundTrip.Statement (.tagwt h all mask) := by
  intro st w hwf hw
  simp only [WellFormed, MAddr.ok, MAddr.uniFor, okArith, List.all_cons, List.all_nil, Bool.and_eq_true,
      Bool.or_eq_true, Bool.and_true, decide_eq_true_eq, and_assoc] at hwf
  obtain ⟨hh, hm⟩ := hwf
  have hl : okLits [mask] = true := by simp only [okLits, List.filter]; cases mask <;> rfl
  have fmask := fits_of hl (o := mask) (by simp)
  have emask : Opd.ofField mask.toField ((litOf [mask]).getD 0#32) = mask := ofField_eq fmask
  refine decode_encode (o := .tagwt) hw rfl (reason_none [mask] ?_ ?_ ?_ (.none _ _) (.mask ?_ fmask) (.none _ _)
      (.none _ _) (.none _ _) (by simp [rawOf]) rfl hl ?_ (.inl ⟨rfl, rfl⟩) hh ?_ ?_ ?_ ?_ ?_) ?_
  all_goals simp [entry, entryArith, entryMem, subTy, rawOf, okDst, generalSrcs, Kd.general, Kd.isDst, build,
      raw_fields, litN_zero, Nat.add_assoc, hm, emask]
  · cases all <;> decide
  · cases all <;> rfl

theorem Laws.RoundTrip.tagff (h a mask) : Laws.RoundTrip.Statement (.tagff h a mask) := by
  intro st w hwf hw
  simp only [WellFormed, MAddr.ok, MAddr.uniFor, okArith, List.all_cons, List.all_nil, Bool.and_eq_true,
      Bool.or_eq_true, Bool.and_true, decide_eq_true_eq, and_assoc] at hwf
  obtain ⟨hh, ha, hm⟩ := hwf
  have hl : okLits [mask] = true := by simp only [okLits, List.filter]; cases mask <;> rfl
  have fmask := fits_of hl (o := mask) (by simp)
  have emask : Opd.ofField mask.toField ((litOf [mask]).getD 0#32) = mask := ofField_eq fmask
  refine decode_encode (o := .tagff) hw rfl (reason_none [mask] ?_ ?_ ?_ (.d ?_) (.mask ?_ fmask) (.none _ _) (.none
      _ _) (.none _ _) (by simp [rawOf]) rfl hl ?_ (.inl ⟨rfl, rfl⟩) hh ?_ ?_ ?_ ?_ ?_) ?_
  all_goals simp [entry, entryArith, entryMem, subTy, rawOf, okDst, generalSrcs, Kd.general, Kd.isDst, build,
      raw_fields, litN_zero, Nat.add_assoc, ha, hm, emask]
  cases mask <;> simp_all [okMask, Opd.okOne, okUni, Opd.isVec]

theorem Laws.RoundTrip.tagclr (h mask) : Laws.RoundTrip.Statement (.tagclr h mask) := by
  intro st w hwf hw
  simp only [WellFormed, MAddr.ok, MAddr.uniFor, okArith, List.all_cons, List.all_nil, Bool.and_eq_true,
      Bool.or_eq_true, Bool.and_true, decide_eq_true_eq, and_assoc] at hwf
  obtain ⟨hh, hm⟩ := hwf
  have hl : okLits [mask] = true := by simp only [okLits, List.filter]; cases mask <;> rfl
  have fmask := fits_of hl (o := mask) (by simp)
  have emask : Opd.ofField mask.toField ((litOf [mask]).getD 0#32) = mask := ofField_eq fmask
  refine decode_encode (o := .tagclr) hw rfl (reason_none [mask] ?_ ?_ ?_ (.none _ _) (.mask ?_ fmask) (.none _ _)
      (.none _ _) (.none _ _) (by simp [rawOf]) rfl hl ?_ (.inl ⟨rfl, rfl⟩) hh ?_ ?_ ?_ ?_ ?_) ?_
  all_goals simp [entry, entryArith, entryMem, subTy, rawOf, okDst, generalSrcs, Kd.general, Kd.isDst, build,
      raw_fields, litN_zero, Nat.add_assoc, hm, emask]

theorem Laws.RoundTrip.bari (h nx nb n) : Laws.RoundTrip.Statement (.bari h nx nb n) := by
  intro st w hwf hw
  simp only [WellFormed, MAddr.ok, MAddr.uniFor, okArith, List.all_cons, List.all_nil, Bool.and_eq_true,
      Bool.or_eq_true, Bool.and_true, decide_eq_true_eq, and_assoc] at hwf
  obtain ⟨hh, hn⟩ := hwf
  have hl : okLits [n] = true := by simp only [okLits, List.filter]; cases n <;> rfl
  have fn := fits_of hl (o := n) (by simp)
  have en : Opd.ofField n.toField ((litOf [n]).getD 0#32) = n := ofField_eq fn
  refine decode_encode (o := .bari) hw rfl (reason_none [n] ?_ ?_ ?_ (.none _ _) .bar (.count ?_ fn) (.none _ _)
      (.none _ _) (place_clear (BitVec.ofBool nx) 6 (~~~(mSAT)) (by decide)) rfl hl ?_ (.inl ⟨rfl, rfl⟩) hh ?_ ?_ ?_ ?_
      ?_) ?_
  all_goals simp [entry, entryArith, entryMem, subTy, rawOf, okDst, generalSrcs, Kd.general, Kd.isDst, build,
      raw_fields, litN_zero, Nat.add_assoc, hn, en]

theorem Laws.RoundTrip.bara (h nb r) : Laws.RoundTrip.Statement (.bara h nb r) := by
  intro st w hwf hw
  simp only [WellFormed, MAddr.ok, MAddr.uniFor, okArith, List.all_cons, List.all_nil, Bool.and_eq_true,
      Bool.or_eq_true, Bool.and_true, decide_eq_true_eq, and_assoc] at hwf
  obtain ⟨hh, hn⟩ := hwf
  have hl : okLits [r] = true := by simp only [okLits, List.filter]; cases r <;> rfl
  have fr := fits_of hl (o := r) (by simp)
  have er : Opd.ofField r.toField ((litOf [r]).getD 0#32) = r := ofField_eq fr
  refine decode_encode (o := .bara) hw rfl (reason_none [r] ?_ ?_ ?_ (.none _ _) .bar (.rank ?_ fr) (.none _ _)
      (.none _ _) (by simp [rawOf]) rfl hl ?_ (.inl ⟨rfl, rfl⟩) hh ?_ ?_ ?_ ?_ ?_) ?_
  all_goals simp [entry, entryArith, entryMem, subTy, rawOf, okDst, generalSrcs, Kd.general, Kd.isDst, build,
      raw_fields, litN_zero, Nat.add_assoc, hn, er]

theorem Laws.RoundTrip.barw (h nb p) : Laws.RoundTrip.Statement (.barw h nb p) := by
  intro st w hwf hw
  simp only [WellFormed, MAddr.ok, MAddr.uniFor, okArith, List.all_cons, List.all_nil, Bool.and_eq_true,
      Bool.or_eq_true, Bool.and_true, decide_eq_true_eq, and_assoc] at hwf
  obtain ⟨hh, hn⟩ := hwf
  have hl : okLits [p] = true := by simp only [okLits, List.filter]; cases p <;> rfl
  have fp := fits_of hl (o := p) (by simp)
  have ep : Opd.ofField p.toField ((litOf [p]).getD 0#32) = p := ofField_eq fp
  refine decode_encode (o := .barw) hw rfl (reason_none [p] ?_ ?_ ?_ (.none _ _) .bar (.rank ?_ fp) (.none _ _)
      (.none _ _) (by simp [rawOf]) rfl hl ?_ (.inl ⟨rfl, rfl⟩) hh ?_ ?_ ?_ ?_ ?_) ?_
  all_goals simp [entry, entryArith, entryMem, subTy, rawOf, okDst, generalSrcs, Kd.general, Kd.isDst, build,
      raw_fields, litN_zero, Nat.add_assoc, hn, ep]

theorem Laws.RoundTrip.bar (h) : Laws.RoundTrip.Statement (.bar h) := by
  intro st w hwf hw
  simp only [WellFormed, MAddr.ok, MAddr.uniFor, okArith, List.all_cons, List.all_nil, Bool.and_eq_true,
      Bool.or_eq_true, Bool.and_true, decide_eq_true_eq, and_assoc] at hwf
  obtain ⟨rfl, hh⟩ := hwf
  have hl : okLits [] = true := rfl
  refine decode_encode (o := .bar) hw rfl (reason_none [] ?_ ?_ ?_ (.none _ _) (.none _ _) (.none _ _) (.none _ _)
      (.none _ _) (by simp [rawOf]) rfl hl ?_ (.inl ⟨rfl, rfl⟩) hh ?_ ?_ ?_ ?_ ?_) ?_
  all_goals simp [entry, entryArith, entryMem, subTy, rawOf, okDst, generalSrcs, Kd.general, Kd.isDst, build,
      raw_fields, litN_zero, Nat.add_assoc]

theorem Laws.RoundTrip.tcfg (h part t x) : Laws.RoundTrip.Statement (.tcfg h part t x) := by
  intro st w hwf hw
  simp only [WellFormed, MAddr.ok, MAddr.uniFor, okArith, List.all_cons, List.all_nil, Bool.and_eq_true,
      Bool.or_eq_true, Bool.and_true, decide_eq_true_eq, and_assoc] at hwf
  obtain ⟨rfl, hh, hx⟩ := hwf
  have hl : okLits [x] = true := by simp only [okLits, List.filter]; cases x <;> rfl
  have fx := fits_of hl (o := x) (by simp)
  have ex : Opd.ofField x.toField ((litOf [x]).getD 0#32) = x := ofField_eq fx
  refine decode_encode (o := .tcfg) hw rfl (reason_none [x] ?_ ?_ ?_ .tile (.one ?_ fx) (.none _ _) (.none _ _)
      (.none _ _) (by simp [rawOf]) rfl hl ?_ (.inl ⟨rfl, rfl⟩) hh ?_ ?_ ?_ ?_ ?_) ?_
  all_goals simp [entry, entryArith, entryMem, subTy, rawOf, okDst, generalSrcs, Kd.general, Kd.isDst, build,
      raw_fields, litN_zero, Nat.add_assoc, hx, ex]
  cases part <;> rfl

theorem Laws.RoundTrip.tld (h t ql qc) : Laws.RoundTrip.Statement (.tld h t ql qc) := by
  intro st w hwf hw
  simp only [WellFormed, MAddr.ok, MAddr.uniFor, okArith, List.all_cons, List.all_nil, Bool.and_eq_true,
      Bool.or_eq_true, Bool.and_true, decide_eq_true_eq, and_assoc] at hwf
  obtain ⟨rfl, hh, hq⟩ := hwf
  have hl : okLits [] = true := rfl
  refine decode_encode (o := .tld) hw rfl (reason_none [] ?_ ?_ ?_ .tile (.q (fun _ => hq)) .optQ (.none _ _) (.none
      _ _) (by simp [rawOf]) rfl hl ?_ (.inl ⟨rfl, rfl⟩) hh ?_ ?_ ?_ ?_ ?_) ?_
  all_goals simp [entry, entryArith, entryMem, subTy, rawOf, okDst, generalSrcs, Kd.general, Kd.isDst, build,
      raw_fields, litN_zero, Nat.add_assoc, hq]

theorem Laws.RoundTrip.tzero (h f64 a) : Laws.RoundTrip.Statement (.tzero h f64 a) := by
  intro st w hwf hw
  simp only [WellFormed, MAddr.ok, MAddr.uniFor, okArith, List.all_cons, List.all_nil, Bool.and_eq_true,
      Bool.or_eq_true, Bool.and_true, decide_eq_true_eq, and_assoc] at hwf
  obtain ⟨rfl, hh, hq⟩ := hwf
  have hl : okLits [] = true := rfl
  have hs := special_toNat a (by decide)
  refine decode_encode (o := .tzero) hw rfl (reason_none [] ?_ ?_ ?_ .acc (.none _ _) (.none _ _) (.none _ _) (.none
      _ _) (by simp [rawOf]) rfl hl ?_ (.inl ⟨rfl, rfl⟩) hh ?_ ?_ ?_ ?_ ?_) ?_
  all_goals simp [entry, entryArith, entryMem, subTy, rawOf, okDst, generalSrcs, Kd.general, Kd.isDst, build,
      raw_fields, litN_zero, Nat.add_assoc, hq, hs]
  · cases f64 <;> decide
  · cases f64
    · left; rfl
    · right; simp at hq; omega
  · cases f64 <;> rfl

theorem Laws.RoundTrip.mma (h a ta tb) : Laws.RoundTrip.Statement (.mma h a ta tb) := by
  intro st w hwf hw
  simp only [WellFormed, MAddr.ok, MAddr.uniFor, okArith, List.all_cons, List.all_nil, Bool.and_eq_true,
      Bool.or_eq_true, Bool.and_true, decide_eq_true_eq, and_assoc] at hwf
  obtain ⟨rfl, hh⟩ := hwf
  have hl : okLits [] = true := rfl
  refine decode_encode (o := .mma) hw rfl (reason_none [] ?_ ?_ ?_ .acc .tile .tile (.none _ _) (.none _ _) (by simp
      [rawOf]) rfl hl ?_ (.inl ⟨rfl, rfl⟩) hh ?_ ?_ ?_ ?_ ?_) ?_
  all_goals simp [entry, entryArith, entryMem, subTy, rawOf, okDst, generalSrcs, Kd.general, Kd.isDst, build,
      raw_fields, litN_zero, Nat.add_assoc]

theorem Laws.RoundTrip.mmas (h pat a ta tb tm) : Laws.RoundTrip.Statement (.mmas h pat a ta tb tm) := by
  intro st w hwf hw
  simp only [WellFormed, MAddr.ok, MAddr.uniFor, okArith, List.all_cons, List.all_nil, Bool.and_eq_true,
      Bool.or_eq_true, Bool.and_true, decide_eq_true_eq, and_assoc] at hwf
  obtain ⟨rfl, hh⟩ := hwf
  have hl : okLits [] = true := rfl
  refine decode_encode (o := .mmas) hw rfl (reason_none [] ?_ ?_ ?_ .acc .tile .tile .tile (.none _ _) (by simp
      [rawOf]) rfl hl ?_ (.inl ⟨rfl, rfl⟩) hh ?_ ?_ ?_ ?_ ?_) ?_
  all_goals simp [entry, entryArith, entryMem, subTy, rawOf, okDst, generalSrcs, Kd.general, Kd.isDst, build,
      raw_fields, litN_zero, Nat.add_assoc, Pattern.code_le]

theorem Laws.RoundTrip.dcmp (h pat ta qd terms l) : Laws.RoundTrip.Statement (.dcmp h pat ta qd terms l) := by
  intro st w hwf hw
  simp only [WellFormed, MAddr.ok, MAddr.uniFor, okArith, List.all_cons, List.all_nil, Bool.and_eq_true,
      Bool.or_eq_true, Bool.and_true, decide_eq_true_eq, and_assoc] at hwf
  obtain ⟨rfl, hh, hq, h1, h4, hx⟩ := hwf
  have hl : okLits [l] = true := by simp only [okLits, List.filter]; cases l <;> rfl
  have fl := fits_of hl (o := l) (by simp)
  have el : Opd.ofField l.toField ((litOf [l]).getD 0#32) = l := ofField_eq fl
  have hs := special_toNat terms (by decide)
  have hqf := qField_toNat qd
  refine decode_encode (o := .dcmp) hw rfl (reason_none [l] ?_ ?_ ?_ .tile (.q (by intro hx; cases hx)) (.terms h1 h4)
      (.one ?_ fl) (.none _ _) (by simp [rawOf]) rfl hl ?_ (.inl ⟨rfl, rfl⟩) hh ?_ ?_ ?_ ?_ ?_) ?_
  all_goals simp [entry, entryArith, entryMem, subTy, rawOf, okDst, generalSrcs, Kd.general, Kd.isDst, build,
      raw_fields, litN_zero, Nat.add_assoc, hq, h1, h4, hx, el, hs, hqf, inRange, Pattern.code_le]
  omega

theorem Laws.RoundTrip.mmad (h a ta tb) : Laws.RoundTrip.Statement (.mmad h a ta tb) := by
  intro st w hwf hw
  simp only [WellFormed, MAddr.ok, MAddr.uniFor, okArith, List.all_cons, List.all_nil, Bool.and_eq_true,
      Bool.or_eq_true, Bool.and_true, decide_eq_true_eq, and_assoc] at hwf
  obtain ⟨rfl, hh⟩ := hwf
  have hl : okLits [] = true := rfl
  refine decode_encode (o := .mmad) hw rfl (reason_none [] ?_ ?_ ?_ .acc .tile .tile (.none _ _) (.none _ _) (by
      simp [rawOf]) rfl hl ?_ (.inl ⟨rfl, rfl⟩) hh ?_ ?_ ?_ ?_ ?_) ?_
  all_goals simp [entry, entryArith, entryMem, subTy, rawOf, okDst, generalSrcs, Kd.general, Kd.isDst, build,
      raw_fields, litN_zero, Nat.add_assoc]

theorem Laws.RoundTrip.tdrain (h add raw auto scope kind a ql qc tag) : Laws.RoundTrip.Statement (.tdrain h add raw
    auto scope kind a ql qc tag) := by
  intro st w hwf hw
  simp only [WellFormed, MAddr.ok, MAddr.uniFor, okArith, List.all_cons, List.all_nil, Bool.and_eq_true,
      Bool.or_eq_true, Bool.and_true, decide_eq_true_eq, and_assoc] at hwf
  obtain ⟨rfl, hh, hs, hk, hq, htag⟩ := hwf
  have hl : okLits [] = true := rfl
  have hs2 := special_toNat a (by decide)
  refine decode_encode (o := .tdrain) hw rfl (reason_none [] ?_ ?_ ?_ .acc (.q (fun _ => hq)) .optQ (.tag ?_) (.none
      _ _) (or_clear (or_clear (or_clear (place_clear (BitVec.ofBool add) 6 (~~~(mSAT ||| mRND ||| mSCOPE)) (by decide))
      (place_clear (BitVec.ofBool raw) 5 (~~~(mSAT ||| mRND ||| mSCOPE)) (by decide))) (place_clear (BitVec.ofBool auto)
      4 (~~~(mSAT ||| mRND ||| mSCOPE)) (by decide))) (place_clear scope.code 0 (~~~(mSAT ||| mRND ||| mSCOPE)) (by
      decide))) rfl hl ?_ (.inl ⟨rfl, rfl⟩) hh ?_ ?_ ?_ ?_ ?_) ?_
  all_goals simp [entry, entryArith, entryMem, subTy, rawOf, okDst, generalSrcs, Kd.general, Kd.isDst, build,
      raw_fields, litN_zero, Nat.add_assoc, hs, hk, hq, htag, hs2]
  · cases kind <;> decide
  · cases kind <;> first | (left; decide) | (right; simp at hk; omega)
  · exact ⟨Scope.code_le _, Scope.code_wide hs⟩

theorem Laws.RoundTrip.tmov (h kind t a blk) : Laws.RoundTrip.Statement (.tmov h kind t a blk) := by
  intro st w hwf hw
  simp only [WellFormed, MAddr.ok, MAddr.uniFor, okArith, List.all_cons, List.all_nil, Bool.and_eq_true,
      Bool.or_eq_true, Bool.and_true, decide_eq_true_eq, and_assoc] at hwf
  obtain ⟨rfl, hh, hk, hb⟩ := hwf
  have hl : okLits [] = true := rfl
  have hB : blk.isLit = false := by cases blk <;> simp_all [Opd.okOne, Opd.isLit]
  have fblk := fits_of_not_lit (ext := 0) hB
  have eblk : Opd.ofField blk.toField (0#32) = blk := ofField_eq fblk
  have hN := litN_zero hB
  refine decode_encode (o := .tmov) hw rfl (reason_none [] ?_ ?_ ?_ .tile .acc (.one ?_ fblk) (.none _ _) (.none _
      _) (by simp [rawOf]) rfl hl ?_ (.inl ⟨rfl, rfl⟩) hh ?_ ?_ ?_ ?_ ?_) ?_
  all_goals simp [entry, entryArith, entryMem, subTy, rawOf, okDst, generalSrcs, Kd.general, Kd.isDst, build,
      raw_fields, litN_zero, Nat.add_assoc, hk, hb, eblk, hN]
  · cases kind <;> simp [AccKind.code]
  · cases kind <;> simp [AccKind.code]
  · have hs2 := special_toNat a (by decide)
    rcases hk with hk | hk
    · cases kind <;> simp_all [AccKind.code]
    · right; omega
  · cases kind <;> rfl

theorem Laws.RoundTrip.tepi (h op kind t a blk alpha tb) : Laws.RoundTrip.Statement (.tepi h op kind t a blk alpha
    tb) := by
  intro st w hwf hw
  simp only [WellFormed, MAddr.ok, MAddr.uniFor, okArith, List.all_cons, List.all_nil, Bool.and_eq_true,
      Bool.or_eq_true, Bool.and_true, decide_eq_true_eq, and_assoc] at hwf
  obtain ⟨rfl, hh, hk, hb, hal⟩ := hwf
  have hl : okLits [alpha] = true := by simp only [okLits, List.filter]; cases alpha <;> rfl
  have falpha := fits_of hl (o := alpha) (by simp)
  have ealpha : Opd.ofField alpha.toField ((litOf [alpha]).getD 0#32) = alpha := ofField_eq falpha
  have hB : blk.isLit = false := by cases blk <;> simp_all [Opd.okOne, Opd.isLit]
  have fblk := fits_of_not_lit (ext := (litOf [alpha]).getD 0) hB
  have eblk : Opd.ofField blk.toField ((litOf [alpha]).getD 0#32) = blk := ofField_eq fblk
  have hN := litN_zero hB
  refine decode_encode (o := .tepi) hw rfl (reason_none [alpha] ?_ ?_ ?_ .tile .acc (.one ?_ fblk) (.one ?_ falpha)
      (tepiField tb) (by simp [rawOf]) rfl hl ?_ (.inl ⟨rfl, rfl⟩) hh ?_ ?_ ?_ ?_ ?_) ?_
  all_goals simp [entry, entryArith, entryMem, subTy, rawOf, okDst, generalSrcs, Kd.general, Kd.isDst, build,
      raw_fields, litN_zero, Nat.add_assoc, hk, hb, hal, ealpha, eblk, hN]
  · cases kind <;> cases op <;> simp_all [AccKind.code, TepiOp.code]
  · exact ⟨by cases op <;> cases kind <;> rfl, by cases op <;> cases kind <;> rfl, tepiTb tb⟩

theorem Laws.RoundTrip.tstv (h ty t off vs) : Laws.RoundTrip.Statement (.tstv h ty t off vs) := by
  intro st w hwf hw
  simp only [WellFormed, MAddr.ok, MAddr.uniFor, okArith, List.all_cons, List.all_nil, Bool.and_eq_true,
      Bool.or_eq_true, Bool.and_true, decide_eq_true_eq, and_assoc] at hwf
  obtain ⟨rfl, hh, ht, ho, hv⟩ := hwf
  have hl : okLits [off] = true := by simp only [okLits, List.filter]; cases off <;> rfl
  have foff := fits_of hl (o := off) (by simp)
  have eoff : Opd.ofField off.toField ((litOf [off]).getD 0#32) = off := ofField_eq foff
  refine decode_encode (o := .tstv) hw rfl (reason_none [off] ?_ ?_ ?_ .tile (.tileOff ?_ foff) (.v ?_) (.none _ _)
      (.none _ _) (by simp [rawOf]) rfl hl ?_ (.inl ⟨rfl, rfl⟩) hh ?_ ?_ ?_ ?_ ?_) ?_
  all_goals simp [entry, entryArith, entryMem, subTy, rawOf, okDst, generalSrcs, Kd.general, Kd.isDst, build,
      raw_fields, litN_zero, Nat.add_assoc, ht, ho, hv, eoff]

theorem Laws.RoundTrip.tldv (h ty vd t off) : Laws.RoundTrip.Statement (.tldv h ty vd t off) := by
  intro st w hwf hw
  simp only [WellFormed, MAddr.ok, MAddr.uniFor, okArith, List.all_cons, List.all_nil, Bool.and_eq_true,
      Bool.or_eq_true, Bool.and_true, decide_eq_true_eq, and_assoc] at hwf
  obtain ⟨rfl, hh, ht, ho, hv⟩ := hwf
  have hl : okLits [off] = true := by simp only [okLits, List.filter]; cases off <;> rfl
  have foff := fits_of hl (o := off) (by simp)
  have eoff : Opd.ofField off.toField ((litOf [off]).getD 0#32) = off := ofField_eq foff
  refine decode_encode (o := .tldv) hw rfl (reason_none [off] ?_ ?_ ?_ (.dvV ?_) .tile (.tileOff ?_ foff) (.none _
      _) (.none _ _) (by simp [rawOf]) rfl hl ?_ (.inl ⟨rfl, rfl⟩) hh ?_ ?_ ?_ ?_ ?_) ?_
  all_goals simp [entry, entryArith, entryMem, subTy, rawOf, okDst, generalSrcs, Kd.general, Kd.isDst, build,
      raw_fields, litN_zero, Nat.add_assoc, ht, ho, hv, eoff]

theorem Laws.RoundTrip.launch (h b) : Laws.RoundTrip.Statement (.launch h b) := by
  intro st w hwf hw
  simp only [WellFormed, MAddr.ok, MAddr.uniFor, okArith, List.all_cons, List.all_nil, Bool.and_eq_true,
      Bool.or_eq_true, Bool.and_true, decide_eq_true_eq, and_assoc] at hwf
  obtain ⟨rfl, hh, hb⟩ := hwf
  have hl : okLits [] = true := rfl
  have fb := fits_of_not_lit (ext := 0) (okPair_lit hb)
  have e_fb : Opd.ofField b.toField (0#32) = b := ofField_eq fb
  refine decode_encode (o := .launch) hw rfl (reason_none [] ?_ ?_ ?_ (.none _ _) (.pair ?_) (.none _ _) (.none _ _)
      (.none _ _) (by simp [rawOf]) rfl hl ?_ (.inl ⟨rfl, rfl⟩) hh ?_ ?_ ?_ ?_ ?_) ?_
  all_goals simp [entry, entryArith, entryMem, subTy, rawOf, okDst, generalSrcs, Kd.general, Kd.isDst, build,
      raw_fields, litN_zero, Nat.add_assoc, hb, e_fb]

theorem Laws.RoundTrip.pbar (h) : Laws.RoundTrip.Statement (.pbar h) := by
  intro st w hwf hw
  simp only [WellFormed, MAddr.ok, MAddr.uniFor, okArith, List.all_cons, List.all_nil, Bool.and_eq_true,
      Bool.or_eq_true, Bool.and_true, decide_eq_true_eq, and_assoc] at hwf
  have hh := hwf
  have hl : okLits [] = true := rfl
  refine decode_encode (o := .pbar) hw rfl (reason_none [] ?_ ?_ ?_ (.none _ _) (.none _ _) (.none _ _) (.none _ _)
      (.none _ _) (by simp [rawOf]) rfl hl ?_ (.inl ⟨rfl, rfl⟩) hh ?_ ?_ ?_ ?_ ?_) ?_
  all_goals simp [entry, entryArith, entryMem, subTy, rawOf, okDst, generalSrcs, Kd.general, Kd.isDst, build,
      raw_fields, litN_zero, Nat.add_assoc]

theorem Laws.RoundTrip.gbar (h) : Laws.RoundTrip.Statement (.gbar h) := by
  intro st w hwf hw
  simp only [WellFormed, MAddr.ok, MAddr.uniFor, okArith, List.all_cons, List.all_nil, Bool.and_eq_true,
      Bool.or_eq_true, Bool.and_true, decide_eq_true_eq, and_assoc] at hwf
  obtain ⟨rfl, hh⟩ := hwf
  have hl : okLits [] = true := rfl
  refine decode_encode (o := .gbar) hw rfl (reason_none [] ?_ ?_ ?_ (.none _ _) (.none _ _) (.none _ _) (.none _ _)
      (.none _ _) (by simp [rawOf]) rfl hl ?_ (.inl ⟨rfl, rfl⟩) hh ?_ ?_ ?_ ?_ ?_) ?_
  all_goals simp [entry, entryArith, entryMem, subTy, rawOf, okDst, generalSrcs, Kd.general, Kd.isDst, build,
      raw_fields, litN_zero, Nat.add_assoc]

theorem Laws.RoundTrip.event (h x) : Laws.RoundTrip.Statement (.event h x) := by
  intro st w hwf hw
  simp only [WellFormed, MAddr.ok, MAddr.uniFor, okArith, List.all_cons, List.all_nil, Bool.and_eq_true,
      Bool.or_eq_true, Bool.and_true, decide_eq_true_eq, and_assoc] at hwf
  obtain ⟨rfl, hh, hx⟩ := hwf
  have hl : okLits [x] = true := by simp only [okLits, List.filter]; cases x <;> rfl
  have fx := fits_of hl (o := x) (by simp)
  have ex : Opd.ofField x.toField ((litOf [x]).getD 0#32) = x := ofField_eq fx
  refine decode_encode (o := .event) hw rfl (reason_none [x] ?_ ?_ ?_ (.none _ _) (.s ?_ fx) (.none _ _) (.none _ _)
      (.none _ _) (by simp [rawOf]) rfl hl ?_ (.inl ⟨rfl, rfl⟩) hh ?_ ?_ ?_ ?_ ?_) ?_
  all_goals simp [entry, entryArith, entryMem, subTy, rawOf, okDst, generalSrcs, Kd.general, Kd.isDst, build,
      raw_fields, litN_zero, Nat.add_assoc, hx, ex]

theorem Laws.RoundTrip.forkw (h n off) : Laws.RoundTrip.Statement (.forkw h n off) := by
  intro st w hwf hw
  simp only [WellFormed, MAddr.ok, MAddr.uniFor, okArith, List.all_cons, List.all_nil, Bool.and_eq_true,
      Bool.or_eq_true, Bool.and_true, decide_eq_true_eq, and_assoc] at hwf
  obtain ⟨rfl, hh, ho, hn⟩ := hwf
  have hl : okLits [] = true := rfl
  have hB : n.isLit = false := by cases n <;> simp_all [Opd.isLit]
  have fn := fits_of_not_lit (ext := off) hB
  have en : Opd.ofField n.toField off = n := ofField_eq fn
  refine decode_encode (o := .forkw) hw rfl (reason_none [] ?_ ?_ ?_ (.none _ _) (.forkN ?_) (.none _ _) (.none _ _)
      (.none _ _) (by simp [rawOf]) rfl hl ?_ (.inr ⟨rfl, rfl, fun _ => ho⟩) hh ?_ ?_ ?_ ?_ ?_) ?_
  all_goals first | (cases n <;> simp_all; done) | simp [entry, entryArith, entryMem, subTy, rawOf, okDst,
      generalSrcs, Kd.general, Kd.isDst, build, raw_fields, litN_zero, Nat.add_assoc, ho, hn, en]

theorem Laws.RoundTrip.yieldw (h x) : Laws.RoundTrip.Statement (.yieldw h x) := by
  intro st w hwf hw
  simp only [WellFormed, MAddr.ok, MAddr.uniFor, okArith, List.all_cons, List.all_nil, Bool.and_eq_true,
      Bool.or_eq_true, Bool.and_true, decide_eq_true_eq, and_assoc] at hwf
  obtain ⟨rfl, hh, hx⟩ := hwf
  have hl : okLits [x] = true := by simp only [okLits, List.filter]; cases x <;> rfl
  have fx := fits_of hl (o := x) (by simp)
  have ex : Opd.ofField x.toField ((litOf [x]).getD 0#32) = x := ofField_eq fx
  refine decode_encode (o := .yieldw) hw rfl (reason_none [x] ?_ ?_ ?_ (.none _ _) (.score ?_) (.none _ _) (.none _
      _) (.none _ _) (by simp [rawOf]) rfl hl ?_ (.inl ⟨rfl, rfl⟩) hh ?_ ?_ ?_ ?_ ?_) ?_
  all_goals first | (cases x <;> simp_all; done) | simp [entry, entryArith, entryMem, subTy, rawOf, okDst,
      generalSrcs, Kd.general, Kd.isDst, build, raw_fields, litN_zero, Nat.add_assoc, hx, ex]

theorem Laws.RoundTrip.choose (h k) : Laws.RoundTrip.Statement (.choose h k) := by
  intro st w hwf hw
  simp only [WellFormed, MAddr.ok, MAddr.uniFor, okArith, List.all_cons, List.all_nil, Bool.and_eq_true,
      Bool.or_eq_true, Bool.and_true, decide_eq_true_eq, and_assoc] at hwf
  obtain ⟨rfl, hh, hx⟩ := hwf
  have hl : okLits [k] = true := by simp only [okLits, List.filter]; cases k <;> rfl
  have fk := fits_of hl (o := k) (by simp)
  have ek : Opd.ofField k.toField ((litOf [k]).getD 0#32) = k := ofField_eq fk
  refine decode_encode (o := .choose) hw rfl (reason_none [k] ?_ ?_ ?_ (.none _ _) (.pickK ?_) (.none _ _) (.none _
      _) (.none _ _) (by simp [rawOf]) rfl hl ?_ (.inl ⟨rfl, rfl⟩) hh ?_ ?_ ?_ ?_ ?_) ?_
  all_goals first | (cases k <;> simp_all; done) | simp [entry, entryArith, entryMem, subTy, rawOf, okDst,
      generalSrcs, Kd.general, Kd.isDst, build, raw_fields, litN_zero, Nat.add_assoc, hx, ek]

theorem Laws.RoundTrip.chooseNone (h) : Laws.RoundTrip.Statement (.chooseNone h) := by
  intro st w hwf hw
  simp only [WellFormed, MAddr.ok, MAddr.uniFor, okArith, List.all_cons, List.all_nil, Bool.and_eq_true,
      Bool.or_eq_true, Bool.and_true, decide_eq_true_eq, and_assoc] at hwf
  obtain ⟨rfl, hh⟩ := hwf
  have hl : okLits [] = true := rfl
  refine decode_encode (o := .choose) hw rfl (reason_none [] ?_ ?_ ?_ (.none _ _) .zeroOnly (.none _ _) (.none _ _)
      (.none _ _) (by simp [rawOf]) rfl hl ?_ (.inl ⟨rfl, rfl⟩) hh ?_ ?_ ?_ ?_ ?_) ?_
  all_goals simp [entry, entryArith, entryMem, subTy, rawOf, okDst, generalSrcs, Kd.general, Kd.isDst, build,
      raw_fields, litN_zero, Nat.add_assoc]

theorem Laws.RoundTrip.chooseSelf (h) : Laws.RoundTrip.Statement (.chooseSelf h) := by
  intro st w hwf hw
  simp only [WellFormed, MAddr.ok, MAddr.uniFor, okArith, List.all_cons, List.all_nil, Bool.and_eq_true,
      Bool.or_eq_true, Bool.and_true, decide_eq_true_eq, and_assoc] at hwf
  obtain ⟨rfl, hh⟩ := hwf
  have hl : okLits [] = true := rfl
  refine decode_encode (o := .choose) hw rfl (reason_none [] ?_ ?_ ?_ (.none _ _) .zeroOnly (.none _ _) (.none _ _)
      (.none _ _) (by simp [rawOf]) rfl hl ?_ (.inl ⟨rfl, rfl⟩) hh ?_ ?_ ?_ ?_ ?_) ?_
  all_goals simp [entry, entryArith, entryMem, subTy, rawOf, okDst, generalSrcs, Kd.general, Kd.isDst, build,
      raw_fields, litN_zero, Nat.add_assoc]

theorem Laws.RoundTrip.issueSelect (k j) : Laws.RoundTrip.Statement (.issueSelect k j) := by
  intro st w _ hw; cases hw

theorem Laws.RoundTrip.classBatchClose (k j) : Laws.RoundTrip.Statement (.classBatchClose k j) := by
  intro st w _ hw; cases hw

theorem Laws.RoundTrip.yieldExpiry (w) : Laws.RoundTrip.Statement (.yieldExpiry w) := by
  intro st w _ hw; cases hw

theorem Laws.RoundTrip.instanceStart (k j u) : Laws.RoundTrip.Statement (.instanceStart k j u) := by
  intro st w _ hw; cases hw

theorem Laws.RoundTrip.resultWrite (w) : Laws.RoundTrip.Statement (.resultWrite w) := by
  intro st w _ hw; cases hw

theorem Laws.RoundTrip.slackViolation (w) : Laws.RoundTrip.Statement (.slackViolation w) := by
  intro st w _ hw; cases hw

theorem Laws.RoundTrip.unitGate (k j u) : Laws.RoundTrip.Statement (.unitGate k j u) := by
  intro st w _ hw; cases hw

theorem Laws.RoundTrip.unitWake (k j u) : Laws.RoundTrip.Statement (.unitWake k j u) := by
  intro st w _ hw; cases hw

theorem Laws.RoundTrip.requestSend (r) : Laws.RoundTrip.Statement (.requestSend r) := by
  intro st w _ hw; cases hw

theorem Laws.RoundTrip.homeSliceRequest (r) : Laws.RoundTrip.Statement (.homeSliceRequest r) := by
  intro st w _ hw; cases hw

theorem Laws.RoundTrip.fillArrive (r) : Laws.RoundTrip.Statement (.fillArrive r) := by
  intro st w _ hw; cases hw

theorem Laws.RoundTrip.writeAck (r) : Laws.RoundTrip.Statement (.writeAck r) := by
  intro st w _ hw; cases hw

theorem Laws.RoundTrip.accessRetry (r) : Laws.RoundTrip.Statement (.accessRetry r) := by
  intro st w _ hw; cases hw

theorem Laws.RoundTrip.releaseComplete (f) : Laws.RoundTrip.Statement (.releaseComplete f) := by
  intro st w _ hw; cases hw

theorem Laws.RoundTrip.specFenceComplete (f) : Laws.RoundTrip.Statement (.specFenceComplete f) := by
  intro st w _ hw; cases hw

theorem Laws.RoundTrip.waitonPoll (r) : Laws.RoundTrip.Statement (.waitonPoll r) := by
  intro st w _ hw; cases hw

theorem Laws.RoundTrip.fifoServe (cluster bank) : Laws.RoundTrip.Statement (.fifoServe cluster bank) := by
  intro st w _ hw; cases hw

theorem Laws.RoundTrip.gatherSubgroupRelease (g) : Laws.RoundTrip.Statement (.gatherSubgroupRelease g) := by
  intro st w _ hw; cases hw

theorem Laws.RoundTrip.txCommit (c) : Laws.RoundTrip.Statement (.txCommit c) := by
  intro st w _ hw; cases hw

theorem Laws.RoundTrip.txUnlock (c) : Laws.RoundTrip.Statement (.txUnlock c) := by
  intro st w _ hw; cases hw

theorem Laws.RoundTrip.copyDeliver (c) : Laws.RoundTrip.Statement (.copyDeliver c) := by
  intro st w _ hw; cases hw

theorem Laws.RoundTrip.pageFaultRoute (x page) : Laws.RoundTrip.Statement (.pageFaultRoute x page) := by
  intro st w _ hw; cases hw

theorem Laws.RoundTrip.replayComplete (w i) : Laws.RoundTrip.Statement (.replayComplete w i) := by
  intro st w _ hw; cases hw

theorem Laws.RoundTrip.ifetchRequest (k line) : Laws.RoundTrip.Statement (.ifetchRequest k line) := by
  intro st w _ hw; cases hw

theorem Laws.RoundTrip.ifetchFill (r) : Laws.RoundTrip.Statement (.ifetchFill r) := by
  intro st w _ hw; cases hw

theorem Laws.RoundTrip.fetchFault (r) : Laws.RoundTrip.Statement (.fetchFault r) := by
  intro st w _ hw; cases hw

theorem Laws.RoundTrip.tileInstrStart (t) : Laws.RoundTrip.Statement (.tileInstrStart t) := by
  intro st w _ hw; cases hw

theorem Laws.RoundTrip.tileInstrComplete (t n) : Laws.RoundTrip.Statement (.tileInstrComplete t n) := by
  intro st w _ hw; cases hw

theorem Laws.RoundTrip.phaseRecordWrite (b) : Laws.RoundTrip.Statement (.phaseRecordWrite b) := by
  intro st w _ hw; cases hw

theorem Laws.RoundTrip.phaseStart (b) : Laws.RoundTrip.Statement (.phaseStart b) := by
  intro st w _ hw; cases hw

theorem Laws.RoundTrip.gbarOpen (g) : Laws.RoundTrip.Statement (.gbarOpen g) := by
  intro st w _ hw; cases hw

theorem Laws.RoundTrip.blockPlace (g) : Laws.RoundTrip.Statement (.blockPlace g) := by
  intro st w _ hw; cases hw

theorem Laws.RoundTrip.blockDeschedule (b) : Laws.RoundTrip.Statement (.blockDeschedule b) := by
  intro st w _ hw; cases hw

theorem Laws.RoundTrip.blockRequeue (b) : Laws.RoundTrip.Statement (.blockRequeue b) := by
  intro st w _ hw; cases hw

theorem Laws.RoundTrip.blockEnd (b) : Laws.RoundTrip.Statement (.blockEnd b) := by
  intro st w _ hw; cases hw

theorem Laws.RoundTrip.gridComplete (g) : Laws.RoundTrip.Statement (.gridComplete g) := by
  intro st w _ hw; cases hw

theorem Laws.RoundTrip.gridTimeLimit (g) : Laws.RoundTrip.Statement (.gridTimeLimit g) := by
  intro st w _ hw; cases hw

theorem Laws.RoundTrip.deviceLaunchRead (d) : Laws.RoundTrip.Statement (.deviceLaunchRead d) := by
  intro st w _ hw; cases hw

theorem Laws.RoundTrip.rivalEnd (b) : Laws.RoundTrip.Statement (.rivalEnd b) := by
  intro st w _ hw; cases hw

theorem Laws.RoundTrip.viewCommit (v) : Laws.RoundTrip.Statement (.viewCommit v) := by
  intro st w _ hw; cases hw

theorem Laws.RoundTrip.commitRetryEnd (v) : Laws.RoundTrip.Statement (.commitRetryEnd v) := by
  intro st w _ hw; cases hw

theorem Laws.RoundTrip.outboxPerform (v) : Laws.RoundTrip.Statement (.outboxPerform v) := by
  intro st w _ hw; cases hw

theorem Laws.RoundTrip.viewIdReturn (v) : Laws.RoundTrip.Statement (.viewIdReturn v) := by
  intro st w _ hw; cases hw

theorem Laws.RoundTrip.viewSpill (v line) : Laws.RoundTrip.Statement (.viewSpill v line) := by
  intro st w _ hw; cases hw

theorem Laws.RoundTrip.hostMemWrite (pa bytes) : Laws.RoundTrip.Statement (.hostMemWrite pa bytes) := by
  intro st w _ hw; cases hw

theorem Laws.RoundTrip.ylReductionArrive (pa op t x) : Laws.RoundTrip.Statement (.ylReductionArrive pa op t x) := by
  intro st w _ hw; cases hw

theorem Laws.RoundTrip.ylLinkState (y up chip) : Laws.RoundTrip.Statement (.ylLinkState y up chip) := by
  intro st w _ hw; cases hw

theorem Laws.RoundTrip.memoryError (kind unit index pa va x) : Laws.RoundTrip.Statement (.memoryError kind unit index pa va x) := by
  intro st w _ hw; cases hw

theorem Laws.RoundTrip.qtailDoorbell (q v) : Laws.RoundTrip.Statement (.qtailDoorbell q v) := by
  intro st w _ hw; cases hw

theorem Laws.RoundTrip.qctlReset (q ctl) : Laws.RoundTrip.Statement (.qctlReset q ctl) := by
  intro st w _ hw; cases hw

theorem Laws.RoundTrip.queueEnable (q ctl) : Laws.RoundTrip.Statement (.queueEnable q ctl) := by
  intro st w _ hw; cases hw

theorem Laws.RoundTrip.queueDisable (q ctl) : Laws.RoundTrip.Statement (.queueDisable q ctl) := by
  intro st w _ hw; cases hw

theorem Laws.RoundTrip.ringEnable (r ctl) : Laws.RoundTrip.Statement (.ringEnable r ctl) := by
  intro st w _ hw; cases hw

theorem Laws.RoundTrip.ringDisable (r ctl) : Laws.RoundTrip.Statement (.ringDisable r ctl) := by
  intro st w _ hw; cases hw

theorem Laws.RoundTrip.eheadWrite (r v) : Laws.RoundTrip.Statement (.eheadWrite r v) := by
  intro st w _ hw; cases hw

theorem Laws.RoundTrip.interruptCoalesceTimeout (r) : Laws.RoundTrip.Statement (.interruptCoalesceTimeout r) := by
  intro st w _ hw; cases hw

theorem Laws.RoundTrip.creset (x) : Laws.RoundTrip.Statement (.creset x) := by
  intro st w _ hw; cases hw

theorem Laws.RoundTrip.partcfgWrite (v) : Laws.RoundTrip.Statement (.partcfgWrite v) := by
  intro st w _ hw; cases hw

theorem Laws.RoundTrip.registerWrite (off size v) : Laws.RoundTrip.Statement (.registerWrite off size v) := by
  intro st w _ hw; cases hw

theorem Laws.RoundTrip.pad (q len) : Laws.RoundTrip.Statement (.pad q len) := by
  intro st w _ hw; cases hw

theorem Laws.RoundTrip.launchPkt (q n h record limit) : Laws.RoundTrip.Statement (.launchPkt q n h record limit) := by
  intro st w _ hw; cases hw

theorem Laws.RoundTrip.graph (q n h table count limit) : Laws.RoundTrip.Statement (.graph q n h table count limit) := by
  intro st w _ hw; cases hw

theorem Laws.RoundTrip.graphNodeStart (gr node) : Laws.RoundTrip.Statement (.graphNodeStart gr node) := by
  intro st w _ hw; cases hw

theorem Laws.RoundTrip.copy (q n h src dst bytes) : Laws.RoundTrip.Statement (.copy q n h src dst bytes) := by
  intro st w _ hw; cases hw

theorem Laws.RoundTrip.fill (q n h dst bytes pattern) : Laws.RoundTrip.Statement (.fill q n h dst bytes pattern) := by
  intro st w _ hw; cases hw

theorem Laws.RoundTrip.signalWrite (q n h addr v) : Laws.RoundTrip.Statement (.signalWrite q n h addr v) := by
  intro st w _ hw; cases hw

theorem Laws.RoundTrip.signalAdd (q n h addr v) : Laws.RoundTrip.Statement (.signalAdd q n h addr v) := by
  intro st w _ hw; cases hw

theorem Laws.RoundTrip.wait (q n h addr v cond timeout) : Laws.RoundTrip.Statement (.wait q n h addr v cond timeout) := by
  intro st w _ hw; cases hw

theorem Laws.RoundTrip.waitTimeout (q n) : Laws.RoundTrip.Statement (.waitTimeout q n) := by
  intro st w _ hw; cases hw

theorem Laws.RoundTrip.inval (q n h start bytes whole) : Laws.RoundTrip.Statement (.inval q n h start bytes whole) := by
  intro st w _ hw; cases hw

theorem Laws.RoundTrip.resume (q n h fq seq addr unres) : Laws.RoundTrip.Statement (.resume q n h fq seq addr unres) := by
  intro st w _ hw; cases hw

theorem Laws.RoundTrip.preemptSaveQueue (q n h target area size) : Laws.RoundTrip.Statement (.preemptSaveQueue q n h target area size) := by
  intro st w _ hw; cases hw

theorem Laws.RoundTrip.preemptSaveContext (q n h area size) : Laws.RoundTrip.Statement (.preemptSaveContext q n h area size) := by
  intro st w _ hw; cases hw

theorem Laws.RoundTrip.preemptRestore (q n h area size) : Laws.RoundTrip.Statement (.preemptRestore q n h area size) := by
  intro st w _ hw; cases hw

theorem Laws.RoundTrip.stop (q n h target) : Laws.RoundTrip.Statement (.stop q n h target) := by
  intro st w _ hw; cases hw

theorem Laws.RoundTrip.stopContinue (q n h target) : Laws.RoundTrip.Statement (.stopContinue q n h target) := by
  intro st w _ hw; cases hw

theorem Laws.RoundTrip.ctxcreate (q n h body) : Laws.RoundTrip.Statement (.ctxcreate q n h body) := by
  intro st w _ hw; cases hw

theorem Laws.RoundTrip.ctxdestroy (q n h ctx) : Laws.RoundTrip.Statement (.ctxdestroy q n h ctx) := by
  intro st w _ hw; cases hw

theorem Laws.RoundTrip.cmcfgCacheWay (q n h cluster mask) : Laws.RoundTrip.Statement (.cmcfgCacheWay q n h cluster mask) := by
  intro st w _ hw; cases hw

theorem Laws.RoundTrip.cmcfgScratchpad (q n h cluster mask owner) : Laws.RoundTrip.Statement (.cmcfgScratchpad q n h cluster mask owner) := by
  intro st w _ hw; cases hw

theorem Laws.RoundTrip.cmcfgFifo (q n h cluster mask owner port) : Laws.RoundTrip.Statement (.cmcfgFifo q n h cluster mask owner port) := by
  intro st w _ hw; cases hw

theorem Laws.RoundTrip.oppoint (q n h mask slots railf railt) : Laws.RoundTrip.Statement (.oppoint q n h mask slots railf railt) := by
  intro st w _ hw; cases hw

theorem Laws.RoundTrip.railSlewDone : Laws.RoundTrip.Statement (.railSlewDone) := by
  intro st w _ hw; cases hw

theorem Laws.RoundTrip.retentionEnter (cluster) : Laws.RoundTrip.Statement (.retentionEnter cluster) := by
  intro st w _ hw; cases hw

theorem Laws.RoundTrip.wakeStart (cluster) : Laws.RoundTrip.Statement (.wakeStart cluster) := by
  intro st w _ hw; cases hw

theorem Laws.RoundTrip.retentionExit (cluster parityError) : Laws.RoundTrip.Statement (.retentionExit cluster parityError) := by
  intro st w _ hw; cases hw

theorem Laws.RoundTrip.histEnable (v) : Laws.RoundTrip.Statement (.histEnable v) := by
  intro st w _ hw; cases hw

theorem Laws.RoundTrip.histDisable (v) : Laws.RoundTrip.Statement (.histDisable v) := by
  intro st w _ hw; cases hw

theorem Laws.RoundTrip.histDrainDone : Laws.RoundTrip.Statement (.histDrainDone) := by
  intro st w _ hw; cases hw

theorem Laws.RoundTrip.thermalSample (celsius) : Laws.RoundTrip.Statement (.thermalSample celsius) := by
  intro st w _ hw; cases hw

theorem Laws.RoundTrip.thermalRecover : Laws.RoundTrip.Statement (.thermalRecover) := by
  intro st w _ hw; cases hw

theorem Laws.RoundTrip.deviceReset : Laws.RoundTrip.Statement (.deviceReset) := by
  intro st w _ hw; cases hw

theorem Laws.RoundTrip.loadimg : Laws.RoundTrip.Statement (.loadimg) := by
  intro st w _ hw; cases hw

theorem Laws.RoundTrip.enrolKey : Laws.RoundTrip.Statement (.enrolKey) := by
  intro st w _ hw; cases hw

theorem Laws.RoundTrip.revoke : Laws.RoundTrip.Statement (.revoke) := by
  intro st w _ hw; cases hw

theorem Laws.RoundTrip.romboot : Laws.RoundTrip.Statement (.romboot) := by
  intro st w _ hw; cases hw

theorem Laws.RoundTrip.mailboxBadcmd : Laws.RoundTrip.Statement (.mailboxBadcmd) := by
  intro st w _ hw; cases hw

theorem Laws.RoundTrip.getVersion (req) : Laws.RoundTrip.Statement (.getVersion req) := by
  intro st w _ hw; cases hw

theorem Laws.RoundTrip.getCapabilities (req) : Laws.RoundTrip.Statement (.getCapabilities req) := by
  intro st w _ hw; cases hw

theorem Laws.RoundTrip.negotiateAlgorithms (req) : Laws.RoundTrip.Statement (.negotiateAlgorithms req) := by
  intro st w _ hw; cases hw

theorem Laws.RoundTrip.getDigests (req) : Laws.RoundTrip.Statement (.getDigests req) := by
  intro st w _ hw; cases hw

theorem Laws.RoundTrip.getCertificate (req) : Laws.RoundTrip.Statement (.getCertificate req) := by
  intro st w _ hw; cases hw

theorem Laws.RoundTrip.challenge (req) : Laws.RoundTrip.Statement (.challenge req) := by
  intro st w _ hw; cases hw

theorem Laws.RoundTrip.getMeasurements (req) : Laws.RoundTrip.Statement (.getMeasurements req) := by
  intro st w _ hw; cases hw

theorem Laws.RoundTrip.keyExchange (req) : Laws.RoundTrip.Statement (.keyExchange req) := by
  intro st w _ hw; cases hw

theorem Laws.RoundTrip.finish (req) : Laws.RoundTrip.Statement (.finish req) := by
  intro st w _ hw; cases hw

theorem Laws.RoundTrip.hostPeerWriteAck (r) : Laws.RoundTrip.Statement (.hostPeerWriteAck r) := by
  intro st w _ hw; cases hw

theorem Laws.RoundTrip.yunavinFlitRetry (y) : Laws.RoundTrip.Statement (.yunavinFlitRetry y) := by
  intro st w _ hw; cases hw

end Sys2Proof
end

