-- ==== Sys2Proof/Laws/Phases.lean ====
section
/-! SUPPORT. What a phase record keeps of a register file (R24), and seating blocks. -/

set_option linter.unusedSimpArgs false
set_option linter.unusedVariables false

namespace Sys2Proof.Machine

/-- A register of the carry set is kept, any other is zero (R24). -/
theorem carried_get (m : NatMap Word) (f : Nat → Bool) (i : Nat) : mapGetD (carried m f) i 0 = if f i then mapGetD m i 0 else 0 := by
  unfold mapGetD carried
  induction m with
  | nil => simp [mapGet?]
  | cons e m ih =>
    obtain ⟨k, v⟩ := e
    by_cases hk : i = k
    · subst hk
      by_cases hf : f i
      · simp [List.filter_cons, hf, mapGet?]
      · simp only [List.filter_cons, hf]
        rw [if_neg (by simp), ih, if_neg hf]; simp [hf]
    · by_cases hf : f k
      · simp only [List.filter_cons, hf, if_true]
        unfold mapGet?
        rw [if_neg hk, if_neg hk]
        exact ih
      · simp only [List.filter_cons, hf]
        rw [if_neg (by simp)]
        show _ = if f i then (mapGet? ((k, v) :: m) i).getD 0 else 0
        rw [ih]; simp [mapGet?, hk]

/-- A block that is seated has its place. -/
theorem seat_true (v : State) (F : State → State) : ∀ (x : State × Bool), x = (v, true) →
    (match x with | (s, true) => F s | (s, false) => s) = F v := by
  rintro _ rfl; rfl

end Sys2Proof.Machine
end

