-- ==== Sys2Proof/Laws/Rejoin.lean ====
section
/-! SUPPORT. What the lanes of a warp hold after an instruction of the rejoin masks (R12). -/

set_option linter.unusedSimpArgs false
set_option linter.unusedVariables false

namespace Sys2Proof.Machine

/-- A lane that a release of its mask lets go on. -/
def freed (c : Nat) (la : Lane) : Lane := { la with pc := la.pc + 16, st := .runnable, readyAt := c + 1 }

/-- After a change of lanes, trying to release a mask frees its waiting lanes when every enrolled lane waits (R12). -/
theorem LanesResult.thenTry {s t : State} {g : Grp} {f : Nat → Lane → Lane} (hr : LanesResult s t g f) (q : Warp → Warp)
    (hq : ∀ wp x, q { wp with lanes := x } = { q wp with lanes := x }) (n : Nat) (c : Warp → Nat) (hc : ∀ wp x, c { wp with lanes := x } = c wp) (W : List Nat)
    (hW : W = (upTo 32).filter (fun l => (s.lane? g.w l).any (fun la => (f l la).st = .rejoin n)))
    (rel : Bool) (hrel : rel = decide (W ≠ [] ∧ (q g.wp).mask n &&& ~~~(lanesMask W) = 0)) :
    WarpResult s (t.modWarp g.w (fun wp => (q wp).tryRelease n (c wp))) g
      (fun l la => if rel = true ∧ l ∈ W then freed (c g.wp) (f l la) else f l la)
      (if rel then (q g.wp).setMask n 0 else q g.wp) := by
  have hl : ∀ wp, (q wp).lanes = wp.lanes := fun wp => by
    have := congrArg Warp.lanes (hq wp wp.lanes)
    exact this
  have h2 := hr.warp
  cases e : t.warp? g.w with
  | none => rw [e] at h2; cases h2
  | some wp =>
    rw [e] at h2
    have h3 : { wp with lanes := g.wp.lanes } = g.wp := Option.some.inj h2
    have hlane : ∀ l, (q wp).lane? l = (s.lane? g.w l).map (f l) := by
      intro l
      rw [← hr.lanes]; unfold State.lane?; rw [e]; simp [Warp.lane?, hl]
    have hwait : (q wp).waiting n = W := by
      rw [hW]; unfold Warp.waiting
      apply List.filter_congr
      intro l _
      rw [hlane]; cases s.lane? g.w l <;> rfl
    have hmask : (q wp).mask n = (q g.wp).mask n := by
      have : q g.wp = { q wp with lanes := g.wp.lanes } := by rw [← hq, h3]
      rw [this]; rfl
    have hWn : W.Nodup := by rw [hW]; exact (nodup_upTo 32).filter _
    have htry : (q wp).tryRelease n (c wp) = if rel then ((q wp).modLanes W (freed (c g.wp))).setMask n 0 else q wp := by
      have hcw : c wp = c g.wp := by rw [← h3]; exact (hc wp g.wp.lanes).symm
      unfold Warp.tryRelease
      simp only [hwait, hmask, hcw]
      by_cases hcc : W ≠ [] ∧ (q g.wp).mask n &&& ~~~(lanesMask W) = 0
      · rw [if_pos hcc, hrel, if_pos (by simpa using hcc)]; rfl
      · rw [if_neg hcc, hrel, if_neg (by simpa using hcc)]
    refine ⟨hr.frame.trans (onlyWarp_modWarp _ _ _), fun l => ?_, ?_⟩
    · have : (t.modWarp g.w (fun wp => (q wp).tryRelease n (c wp))).lane? g.w l = ((q wp).tryRelease n (c wp)).lane? l := by
        unfold State.lane?; rw [State.warp?_modWarp, if_pos rfl, e]; rfl
      rw [this, htry]
      cases rel with
      | false => rw [if_neg (by simp), hlane]; simp
      | true =>
        rw [if_pos rfl]
        show ((q wp).modLanes W (freed (c g.wp))).lane? l = _
        rw [Warp.lane?_modLanes _ hWn, hlane]
        cases s.lane? g.w l with
        | none => simp
        | some la => by_cases hm : l ∈ W <;> simp [hm]
    · rw [State.warp?_modWarp, if_pos rfl, e]
      simp only [Option.map_some]
      rw [htry]
      have hqq : q g.wp = { q wp with lanes := g.wp.lanes } := by rw [← hq, h3]
      cases rel with
      | false => simp [hqq]
      | true =>
        simp only [if_true]
        have := Warp.modLanes_rest W (q wp) (freed (c g.wp)) g.wp.lanes
        show some { Warp.setMask _ n 0 with lanes := g.wp.lanes } = some { Warp.setMask _ n 0 with lanes := g.wp.lanes }
        unfold Warp.setMask
        rw [hqq, Warp.modLanes_eq]

end Sys2Proof.Machine
end

