-- ==== Sys2Proof/Laws/Replies.lean ====
section
/-! SUPPORT. What the responses of a memory instruction leave (R31, R61, R94). -/

set_option linter.unusedSimpArgs false
set_option linter.unusedVariables false

namespace Sys2Proof.Machine

/-- A change of a request keeps its warp. -/
theorem modReq_warp (s : State) (r w : Nat) (f : Req → Req) : (s.modReq r f).warp? w = s.warp? w := rfl

/-- Noting a line for a speculative fence changes fences only. -/
theorem noteSpec_only (s : State) (w : Nat) (q : Req) (e : Nat) : ∃ fs, s.noteSpec w q e = { s with fences := fs } := by
  unfold State.noteSpec
  split
  · exact ⟨_, rfl⟩
  · exact ⟨_, rfl⟩

/-- The times of a warp. -/
def Warp.times (wp : Warp) : Nat × Nat × Nat := (wp.hcl, wp.hdv, wp.hsy)

/-- The horizons of a warp whose lanes have been answered. -/
theorem times_clear (wp : Warp) (g : Nat) (m : Mask) : (wp.clearPend g m).times = wp.times := rfl

/-- Counting keeps the horizons. -/
theorem times_count (wp : Warp) (k : AccKindM) (b : Bool) : (wp.count k b).times = wp.times := by
  unfold Warp.count; dsimp only; split <;> first | rfl | (split <;> rfl)

/-- The horizons of a warp of the state. -/
def timesOf (s : State) (w : Nat) : Option (Nat × Nat × Nat) := (s.warp? w).map Warp.times

/-- A change of a warp that keeps its horizons. -/
theorem timesOf_modWarp (s : State) (w : Nat) (f : Warp → Warp) (h : ∀ wp, (f wp).times = wp.times) : timesOf (s.modWarp w f) w = timesOf s w := by
  unfold timesOf
  rw [State.warp?_modWarp, if_pos rfl]
  cases s.warp? w <;> simp [h]

/-- Lanes that have been answered keep the horizons. -/
theorem timesOf_lanesDone (s : State) (w g : Nat) (k : AccKindM) (m : Mask) : timesOf (s.lanesDone w g k m) w = timesOf s w := by
  unfold State.lanesDone
  dsimp only
  split
  · exact timesOf_modWarp _ _ _ (fun _ => rfl)
  · refine (timesOf_modWarp _ _ _ (fun wp => ?_)).trans ?_
    · exact times_count wp k false
    exact timesOf_modWarp _ _ _ (fun wp => times_clear wp g m)

/-- … and the requests. -/
theorem reqs_lanesDone (s : State) (w g : Nat) (k : AccKindM) (m : Mask) : (s.lanesDone w g k m).reqs = s.reqs := by
  unfold State.lanesDone
  dsimp only
  split <;> rfl

/-- A store delivers nothing to a register. -/
theorem foldl_deliver_store (w : Nat) (q : Req) (h : q.kind = .store) (as : List Acc) (s : State) :
    as.foldl (fun s a => s.deliver w q a) s = s := by
  induction as generalizing s with
  | nil => rfl
  | cons a as ih =>
    rw [List.foldl_cons]
    have : s.deliver w q a = s := by unfold State.deliver; rw [h]
    rw [this, ih]

/-- The last answer of a store completes it (R94). -/
theorem complete_store (s : State) (r : Nat) (q : Req) (w : Nat) (h : q.kind = .store) (hj : ∀ e ∈ s.reqs, e.2.st ≠ .joined r) :
    timesOf (s.complete r q w) w = timesOf (s.modWarp w (fun wp => wp.merge q.tcl q.tdv q.tsy)) w ∧
    (s.complete r q w).reqs = s.reqs.filter (fun e => e.1 ≠ r) := by
  unfold State.complete
  rw [foldl_deliver_store w q h]
  dsimp only
  obtain ⟨fs, hs⟩ := noteSpec_only s w q q.exp
  rw [hs]
  have he : State.endReq (State.modWarp { s with fences := fs } w (fun wp => wp.merge q.tcl q.tdv q.tsy)) r q.fill =
      (State.modWarp { s with fences := fs } w (fun wp => wp.merge q.tcl q.tdv q.tsy)).dropReq r := by
    unfold State.endReq
    have : (State.modWarp { s with fences := fs } w (fun wp => wp.merge q.tcl q.tdv q.tsy)).reqs.filter (fun e => decide (e.2.st = .joined r)) = [] := by
      rw [List.filter_eq_nil_iff]
      intro e he
      simpa using hj e he
    rw [this]; rfl
  rw [he]
  generalize hu : (State.modWarp { s with fences := fs } w (fun wp => wp.merge q.tcl q.tdv q.tsy)).dropReq r = u
  have h1 : timesOf u w = timesOf (s.modWarp w (fun wp => wp.merge q.tcl q.tdv q.tsy)) w := by rw [← hu]; rfl
  have h2 : u.reqs = s.reqs.filter (fun e => e.1 ≠ r) := by rw [← hu]; rfl
  rw [h]
  dsimp only
  have hr : AccKindM.store.returns = false := rfl
  simp only [hr, Bool.not_false, Bool.or_true, if_true]
  split
  · exact ⟨by rw [timesOf_lanesDone, h1], by rw [reqs_lanesDone, h2]⟩
  · refine ⟨?_, ?_⟩
    · refine (timesOf_modWarp _ _ _ (fun wp => ?_)).trans ?_
      · rfl
      · rw [timesOf_lanesDone, h1]
    · show (u.lanesDone _ _ _ _).reqs = _
      rw [reqs_lanesDone, h2]

/-- A key that was filtered out reads as nothing. -/
theorem mapGet?_filter_ne {α : Type} (m : NatMap α) (k : Nat) : mapGet? (m.filter (fun e => e.1 ≠ k)) k = none := by
  induction m with
  | nil => rfl
  | cons e m ih =>
    by_cases h : e.1 = k
    · simp only [List.filter_cons]; rw [if_neg (by simp [h])]; exact ih
    · simp only [List.filter_cons]; rw [if_pos (by simp [h])]
      obtain ⟨a, x⟩ := e
      unfold mapGet?
      rw [if_neg (fun hh => h hh.symm)]; exact ih

end Sys2Proof.Machine
end

