-- ==== Sys2Proof/Laws/Safe.lean ====
section
/-! SUPPORT. Memory keeps its canonical form: the few operations that write memory, and folds over states. Every other operation
leaves memory alone or is made of these, so what a step does follows from them, operation by operation in the order of calls. -/

namespace Sys2Proof.Machine

/-- Two states with the same memory are safe together. -/
theorem State.safe_of_mem {s t : State} (h : s.Safe) (e : t.mem = s.mem) : t.Safe := by
  unfold State.Safe; rw [e]; exact h

/-- A fold of an operation that keeps a state safe keeps it safe. -/
theorem foldl_safe {α : Type} (l : List α) (f : State → α → State) (hf : ∀ t a, State.Safe t → (f t a).Safe) :
    ∀ s : State, s.Safe → (l.foldl f s).Safe := by
  induction l with
  | nil => intro s h; exact h
  | cons a l ih => intro s h; exact ih _ (hf _ _ h)

/-- The same where the fold carries something beside the state. -/
theorem foldl_fst_safe {α β : Type} (l : List α) (f : State × β → α → State × β) (hf : ∀ r a, State.Safe r.1 → (f r a).1.Safe) :
    ∀ r : State × β, r.1.Safe → (l.foldl f r).1.Safe := by
  induction l with
  | nil => intro r h; exact h
  | cons a l ih => intro r h; exact ih _ (hf _ _ h)

/-- Taking cells out of a memory in canonical form leaves it in that form. -/
theorem wf_filter (m : List Host.Cell) (p : Host.Cell → Bool) (h : Memory.wf m = true) : Memory.wf (m.filter p) = true := by
  have key : ∀ m : List Host.Cell, Memory.wf m = true ↔ (∀ e ∈ m, e.2 ≠ 0) ∧ (m.map (·.1)).Pairwise (· < ·) := by
    intro m
    induction m with
    | nil => simp [Memory.wf]
    | cons e m ih =>
      cases m with
      | nil => simp [Memory.wf]
      | cons f m =>
        simp only [Memory.wf, Bool.and_eq_true, decide_eq_true_eq, ih, List.map_cons, List.pairwise_cons, List.mem_cons]
        constructor
        · rintro ⟨⟨h1, h2⟩, h3, h4, h5⟩
          refine ⟨?_, ?_, h4, h5⟩
          · rintro x (rfl | hx)
            · exact h1
            · exact h3 x hx
          · rintro x (rfl | hx)
            · exact h2
            · exact Nat.lt_trans h2 (h4 x hx)
        · rintro ⟨h1, h2, h4, h5⟩
          exact ⟨⟨h1 e (.inl rfl), h2 _ (.inl rfl)⟩, fun x hx => h1 x (.inr hx), h4, h5⟩
  rw [key] at h ⊢
  exact ⟨fun e he => h.1 e (List.mem_filter.mp he).1, h.2.sublist (List.filter_sublist.map _)⟩

/-! ### The operations that write memory -/

theorem State.safe_writePhys {s : State} (h : s.Safe) (a : Nat) (bs : List (BitVec 8)) : (s.writePhys a bs).Safe := State.wf_writePhys s h a bs

theorem State.safe_physPut {s : State} (h : s.Safe) (a : Nat) (b : BitVec 8) : (s.physPut a b).Safe := wf_writeMem s.mem h a b

theorem State.safe_physWrite (bs : List (BitVec 8)) : ∀ (s : State) (_ : s.Safe) (a : Nat), (s.physWrite a bs).Safe := by
  induction bs with
  | nil => intro s h a; exact h
  | cons b bs ih => intro s h a; exact ih _ (State.safe_physPut h a b) _

theorem State.safe_claim {s : State} (h : s.Safe) (f owner : Nat) : (s.claim f owner).Safe := wf_filter s.mem _ h

theorem wf_writePiece (m : List Host.Cell) (h : Memory.wf m = true) (frame line page : Nat) (data : Line) (mask : BitVec 192) :
    Memory.wf (writePiece m frame line page data mask) = true := by
  have : ∀ (l : List Nat) (m : List Host.Cell), Memory.wf m = true → Memory.wf (l.foldl (fun m i =>
      if mask.getLsbD i && linePage line i = page then writeMem m (frame * 4096 + (line * 192 + i) % 4096) (lineByte data i) else m) m) = true := by
    intro l
    induction l with
    | nil => intro m h; exact h
    | cons i l ih =>
      intro m h
      refine ih _ ?_
      dsimp only
      split
      · exact wf_writeMem m h _ _
      · exact h
  exact this _ m h

theorem State.safe_writeBack {s : State} (hs : s.Safe) (h : HLine) : (s.writeBack h).Safe := by
  have : ∀ (l : List (Nat × PTag)) (m : List Host.Cell), Memory.wf m = true →
      Memory.wf (l.foldl (fun m t => writePiece m t.2.frame h.line t.1 h.data h.backMask) m) = true := by
    intro l
    induction l with
    | nil => intro m k; exact k
    | cons t l ih =>
      intro m k
      rw [List.foldl_cons]
      exact ih _ (wf_writePiece m k t.2.frame h.line t.1 h.data h.backMask)
  unfold State.writeBack
  split
  · exact hs
  · unfold State.Safe
    dsimp only
    exact this h.tags s.mem hs

theorem execDeviceReset_safe {s t : State} (h : s.Safe) (e : execDeviceReset s = .next t) : t.Safe := by
  cases e
  exact wf_filter s.mem _ h

end Sys2Proof.Machine
end

