-- ==== Sys2Proof/Laws/State.lean ====
section
/-! SUPPORT. What each update of the state leaves in each of its fields. -/

namespace Sys2Proof.Machine

/-! ### `State.modCore` -/

@[simp] theorem State.modCore_code (s : State) (k : Nat) (f : Core → Core) : (s.modCore k f).code = s.code := rfl
@[simp] theorem State.modCore_pulses (s : State) (k : Nat) (f : Core → Core) : (s.modCore k f).pulses = s.pulses := rfl
@[simp] theorem State.modCore_cursor (s : State) (k : Nat) (f : Core → Core) : (s.modCore k f).cursor = s.cursor := rfl
@[simp] theorem State.modCore_agenda (s : State) (k : Nat) (f : Core → Core) : (s.modCore k f).agenda = s.agenda := rfl
@[simp] theorem State.modCore_mem (s : State) (k : Nat) (f : Core → Core) : (s.modCore k f).mem = s.mem := rfl
@[simp] theorem State.modCore_owners (s : State) (k : Nat) (f : Core → Core) : (s.modCore k f).owners = s.owners := rfl
@[simp] theorem State.modCore_poison (s : State) (k : Nat) (f : Core → Core) : (s.modCore k f).poison = s.poison := rfl
@[simp] theorem State.modCore_reported (s : State) (k : Nat) (f : Core → Core) : (s.modCore k f).reported = s.reported := rfl
@[simp] theorem State.modCore_corrected (s : State) (k : Nat) (f : Core → Core) : (s.modCore k f).corrected = s.corrected := rfl
@[simp] theorem State.modCore_lastCorr (s : State) (k : Nat) (f : Core → Core) : (s.modCore k f).lastCorr = s.lastCorr := rfl
@[simp] theorem State.modCore_bar0 (s : State) (k : Nat) (f : Core → Core) : (s.modCore k f).bar0 = s.bar0 := rfl
@[simp] theorem State.modCore_queues (s : State) (k : Nat) (f : Core → Core) : (s.modCore k f).queues = s.queues := rfl
@[simp] theorem State.modCore_rings (s : State) (k : Nat) (f : Core → Core) : (s.modCore k f).rings = s.rings := rfl
@[simp] theorem State.modCore_msix (s : State) (k : Nat) (f : Core → Core) : (s.modCore k f).msix = s.msix := rfl
@[simp] theorem State.modCore_ctxs (s : State) (k : Nat) (f : Core → Core) : (s.modCore k f).ctxs = s.ctxs := rfl
@[simp] theorem State.modCore_grids (s : State) (k : Nat) (f : Core → Core) : (s.modCore k f).grids = s.grids := rfl
@[simp] theorem State.modCore_graphs (s : State) (k : Nat) (f : Core → Core) : (s.modCore k f).graphs = s.graphs := rfl
@[simp] theorem State.modCore_blocks (s : State) (k : Nat) (f : Core → Core) : (s.modCore k f).blocks = s.blocks := rfl
@[simp] theorem State.modCore_warps (s : State) (k : Nat) (f : Core → Core) : (s.modCore k f).warps = s.warps := rfl
@[simp] theorem State.modCore_cores (s : State) (k : Nat) (f : Core → Core) :
    (s.modCore k f).cores = mapSet s.cores k (f (s.core k)) := rfl
@[simp] theorem State.modCore_clusters (s : State) (k : Nat) (f : Core → Core) : (s.modCore k f).clusters = s.clusters := rfl
@[simp] theorem State.modCore_slices (s : State) (k : Nat) (f : Core → Core) : (s.modCore k f).slices = s.slices := rfl
@[simp] theorem State.modCore_tenants (s : State) (k : Nat) (f : Core → Core) : (s.modCore k f).tenants = s.tenants := rfl
@[simp] theorem State.modCore_views (s : State) (k : Nat) (f : Core → Core) : (s.modCore k f).views = s.views := rfl
@[simp] theorem State.modCore_reqs (s : State) (k : Nat) (f : Core → Core) : (s.modCore k f).reqs = s.reqs := rfl
@[simp] theorem State.modCore_fences (s : State) (k : Nat) (f : Core → Core) : (s.modCore k f).fences = s.fences := rfl
@[simp] theorem State.modCore_copies (s : State) (k : Nat) (f : Core → Core) : (s.modCore k f).copies = s.copies := rfl
@[simp] theorem State.modCore_commits (s : State) (k : Nat) (f : Core → Core) : (s.modCore k f).commits = s.commits := rfl
@[simp] theorem State.modCore_gathers (s : State) (k : Nat) (f : Core → Core) : (s.modCore k f).gathers = s.gathers := rfl
@[simp] theorem State.modCore_pfaults (s : State) (k : Nat) (f : Core → Core) : (s.modCore k f).pfaults = s.pfaults := rfl
@[simp] theorem State.modCore_devLaunches (s : State) (k : Nat) (f : Core → Core) :
    (s.modCore k f).devLaunches = s.devLaunches := rfl
@[simp] theorem State.modCore_hostTdv (s : State) (k : Nat) (f : Core → Core) : (s.modCore k f).hostTdv = s.hostTdv := rfl
@[simp] theorem State.modCore_outside (s : State) (k : Nat) (f : Core → Core) : (s.modCore k f).outside = s.outside := rfl
@[simp] theorem State.modCore_railMove (s : State) (k : Nat) (f : Core → Core) : (s.modCore k f).railMove = s.railMove := rfl
@[simp] theorem State.modCore_thermalCap (s : State) (k : Nat) (f : Core → Core) :
    (s.modCore k f).thermalCap = s.thermalCap := rfl
@[simp] theorem State.modCore_coolSince (s : State) (k : Nat) (f : Core → Core) : (s.modCore k f).coolSince = s.coolSince := rfl
@[simp] theorem State.modCore_wakes (s : State) (k : Nat) (f : Core → Core) : (s.modCore k f).wakes = s.wakes := rfl
@[simp] theorem State.modCore_histBuf (s : State) (k : Nat) (f : Core → Core) : (s.modCore k f).histBuf = s.histBuf := rfl
@[simp] theorem State.modCore_security (s : State) (k : Nat) (f : Core → Core) : (s.modCore k f).security = s.security := rfl
@[simp] theorem State.modCore_tick (s : State) (k : Nat) (f : Core → Core) : (s.modCore k f).tick = s.tick := rfl

/-! ### `State.modCluster` -/

@[simp] theorem State.modCluster_code (s : State) (k : Nat) (f : Cluster → Cluster) : (s.modCluster k f).code = s.code := rfl
@[simp] theorem State.modCluster_pulses (s : State) (k : Nat) (f : Cluster → Cluster) :
    (s.modCluster k f).pulses = s.pulses := rfl
@[simp] theorem State.modCluster_cursor (s : State) (k : Nat) (f : Cluster → Cluster) :
    (s.modCluster k f).cursor = s.cursor := rfl
@[simp] theorem State.modCluster_agenda (s : State) (k : Nat) (f : Cluster → Cluster) :
    (s.modCluster k f).agenda = s.agenda := rfl
@[simp] theorem State.modCluster_mem (s : State) (k : Nat) (f : Cluster → Cluster) : (s.modCluster k f).mem = s.mem := rfl
@[simp] theorem State.modCluster_owners (s : State) (k : Nat) (f : Cluster → Cluster) :
    (s.modCluster k f).owners = s.owners := rfl
@[simp] theorem State.modCluster_poison (s : State) (k : Nat) (f : Cluster → Cluster) :
    (s.modCluster k f).poison = s.poison := rfl
@[simp] theorem State.modCluster_reported (s : State) (k : Nat) (f : Cluster → Cluster) :
    (s.modCluster k f).reported = s.reported := rfl
@[simp] theorem State.modCluster_corrected (s : State) (k : Nat) (f : Cluster → Cluster) :
    (s.modCluster k f).corrected = s.corrected := rfl
@[simp] theorem State.modCluster_lastCorr (s : State) (k : Nat) (f : Cluster → Cluster) :
    (s.modCluster k f).lastCorr = s.lastCorr := rfl
@[simp] theorem State.modCluster_bar0 (s : State) (k : Nat) (f : Cluster → Cluster) : (s.modCluster k f).bar0 = s.bar0 := rfl
@[simp] theorem State.modCluster_queues (s : State) (k : Nat) (f : Cluster → Cluster) :
    (s.modCluster k f).queues = s.queues := rfl
@[simp] theorem State.modCluster_rings (s : State) (k : Nat) (f : Cluster → Cluster) : (s.modCluster k f).rings = s.rings := rfl
@[simp] theorem State.modCluster_msix (s : State) (k : Nat) (f : Cluster → Cluster) : (s.modCluster k f).msix = s.msix := rfl
@[simp] theorem State.modCluster_ctxs (s : State) (k : Nat) (f : Cluster → Cluster) : (s.modCluster k f).ctxs = s.ctxs := rfl
@[simp] theorem State.modCluster_grids (s : State) (k : Nat) (f : Cluster → Cluster) : (s.modCluster k f).grids = s.grids := rfl
@[simp] theorem State.modCluster_graphs (s : State) (k : Nat) (f : Cluster → Cluster) :
    (s.modCluster k f).graphs = s.graphs := rfl
@[simp] theorem State.modCluster_blocks (s : State) (k : Nat) (f : Cluster → Cluster) :
    (s.modCluster k f).blocks = s.blocks := rfl
@[simp] theorem State.modCluster_warps (s : State) (k : Nat) (f : Cluster → Cluster) : (s.modCluster k f).warps = s.warps := rfl
@[simp] theorem State.modCluster_cores (s : State) (k : Nat) (f : Cluster → Cluster) : (s.modCluster k f).cores = s.cores := rfl
@[simp] theorem State.modCluster_clusters (s : State) (k : Nat) (f : Cluster → Cluster) :
    (s.modCluster k f).clusters = mapSet s.clusters k (f (s.cluster k)) := rfl
@[simp] theorem State.modCluster_slices (s : State) (k : Nat) (f : Cluster → Cluster) :
    (s.modCluster k f).slices = s.slices := rfl
@[simp] theorem State.modCluster_tenants (s : State) (k : Nat) (f : Cluster → Cluster) :
    (s.modCluster k f).tenants = s.tenants := rfl
@[simp] theorem State.modCluster_views (s : State) (k : Nat) (f : Cluster → Cluster) : (s.modCluster k f).views = s.views := rfl
@[simp] theorem State.modCluster_reqs (s : State) (k : Nat) (f : Cluster → Cluster) : (s.modCluster k f).reqs = s.reqs := rfl
@[simp] theorem State.modCluster_fences (s : State) (k : Nat) (f : Cluster → Cluster) :
    (s.modCluster k f).fences = s.fences := rfl
@[simp] theorem State.modCluster_copies (s : State) (k : Nat) (f : Cluster → Cluster) :
    (s.modCluster k f).copies = s.copies := rfl
@[simp] theorem State.modCluster_commits (s : State) (k : Nat) (f : Cluster → Cluster) :
    (s.modCluster k f).commits = s.commits := rfl
@[simp] theorem State.modCluster_gathers (s : State) (k : Nat) (f : Cluster → Cluster) :
    (s.modCluster k f).gathers = s.gathers := rfl
@[simp] theorem State.modCluster_pfaults (s : State) (k : Nat) (f : Cluster → Cluster) :
    (s.modCluster k f).pfaults = s.pfaults := rfl
@[simp] theorem State.modCluster_devLaunches (s : State) (k : Nat) (f : Cluster → Cluster) :
    (s.modCluster k f).devLaunches = s.devLaunches := rfl
@[simp] theorem State.modCluster_hostTdv (s : State) (k : Nat) (f : Cluster → Cluster) :
    (s.modCluster k f).hostTdv = s.hostTdv := rfl
@[simp] theorem State.modCluster_outside (s : State) (k : Nat) (f : Cluster → Cluster) :
    (s.modCluster k f).outside = s.outside := rfl
@[simp] theorem State.modCluster_railMove (s : State) (k : Nat) (f : Cluster → Cluster) :
    (s.modCluster k f).railMove = s.railMove := rfl
@[simp] theorem State.modCluster_thermalCap (s : State) (k : Nat) (f : Cluster → Cluster) :
    (s.modCluster k f).thermalCap = s.thermalCap := rfl
@[simp] theorem State.modCluster_coolSince (s : State) (k : Nat) (f : Cluster → Cluster) :
    (s.modCluster k f).coolSince = s.coolSince := rfl
@[simp] theorem State.modCluster_wakes (s : State) (k : Nat) (f : Cluster → Cluster) : (s.modCluster k f).wakes = s.wakes := rfl
@[simp] theorem State.modCluster_histBuf (s : State) (k : Nat) (f : Cluster → Cluster) :
    (s.modCluster k f).histBuf = s.histBuf := rfl
@[simp] theorem State.modCluster_security (s : State) (k : Nat) (f : Cluster → Cluster) :
    (s.modCluster k f).security = s.security := rfl
@[simp] theorem State.modCluster_tick (s : State) (k : Nat) (f : Cluster → Cluster) : (s.modCluster k f).tick = s.tick := rfl

/-! ### `State.modSlice` -/

@[simp] theorem State.modSlice_code (s : State) (k : Nat) (f : Slice → Slice) : (s.modSlice k f).code = s.code := rfl
@[simp] theorem State.modSlice_pulses (s : State) (k : Nat) (f : Slice → Slice) : (s.modSlice k f).pulses = s.pulses := rfl
@[simp] theorem State.modSlice_cursor (s : State) (k : Nat) (f : Slice → Slice) : (s.modSlice k f).cursor = s.cursor := rfl
@[simp] theorem State.modSlice_agenda (s : State) (k : Nat) (f : Slice → Slice) : (s.modSlice k f).agenda = s.agenda := rfl
@[simp] theorem State.modSlice_mem (s : State) (k : Nat) (f : Slice → Slice) : (s.modSlice k f).mem = s.mem := rfl
@[simp] theorem State.modSlice_owners (s : State) (k : Nat) (f : Slice → Slice) : (s.modSlice k f).owners = s.owners := rfl
@[simp] theorem State.modSlice_poison (s : State) (k : Nat) (f : Slice → Slice) : (s.modSlice k f).poison = s.poison := rfl
@[simp] theorem State.modSlice_reported (s : State) (k : Nat) (f : Slice → Slice) : (s.modSlice k f).reported = s.reported := rfl
@[simp] theorem State.modSlice_corrected (s : State) (k : Nat) (f : Slice → Slice) :
    (s.modSlice k f).corrected = s.corrected := rfl
@[simp] theorem State.modSlice_lastCorr (s : State) (k : Nat) (f : Slice → Slice) : (s.modSlice k f).lastCorr = s.lastCorr := rfl
@[simp] theorem State.modSlice_bar0 (s : State) (k : Nat) (f : Slice → Slice) : (s.modSlice k f).bar0 = s.bar0 := rfl
@[simp] theorem State.modSlice_queues (s : State) (k : Nat) (f : Slice → Slice) : (s.modSlice k f).queues = s.queues := rfl
@[simp] theorem State.modSlice_rings (s : State) (k : Nat) (f : Slice → Slice) : (s.modSlice k f).rings = s.rings := rfl
@[simp] theorem State.modSlice_msix (s : State) (k : Nat) (f : Slice → Slice) : (s.modSlice k f).msix = s.msix := rfl
@[simp] theorem State.modSlice_ctxs (s : State) (k : Nat) (f : Slice → Slice) : (s.modSlice k f).ctxs = s.ctxs := rfl
@[simp] theorem State.modSlice_grids (s : State) (k : Nat) (f : Slice → Slice) : (s.modSlice k f).grids = s.grids := rfl
@[simp] theorem State.modSlice_graphs (s : State) (k : Nat) (f : Slice → Slice) : (s.modSlice k f).graphs = s.graphs := rfl
@[simp] theorem State.modSlice_blocks (s : State) (k : Nat) (f : Slice → Slice) : (s.modSlice k f).blocks = s.blocks := rfl
@[simp] theorem State.modSlice_warps (s : State) (k : Nat) (f : Slice → Slice) : (s.modSlice k f).warps = s.warps := rfl
@[simp] theorem State.modSlice_cores (s : State) (k : Nat) (f : Slice → Slice) : (s.modSlice k f).cores = s.cores := rfl
@[simp] theorem State.modSlice_clusters (s : State) (k : Nat) (f : Slice → Slice) : (s.modSlice k f).clusters = s.clusters := rfl
@[simp] theorem State.modSlice_slices (s : State) (k : Nat) (f : Slice → Slice) :
    (s.modSlice k f).slices = mapSet s.slices k (f (s.slice k)) := rfl
@[simp] theorem State.modSlice_tenants (s : State) (k : Nat) (f : Slice → Slice) : (s.modSlice k f).tenants = s.tenants := rfl
@[simp] theorem State.modSlice_views (s : State) (k : Nat) (f : Slice → Slice) : (s.modSlice k f).views = s.views := rfl
@[simp] theorem State.modSlice_reqs (s : State) (k : Nat) (f : Slice → Slice) : (s.modSlice k f).reqs = s.reqs := rfl
@[simp] theorem State.modSlice_fences (s : State) (k : Nat) (f : Slice → Slice) : (s.modSlice k f).fences = s.fences := rfl
@[simp] theorem State.modSlice_copies (s : State) (k : Nat) (f : Slice → Slice) : (s.modSlice k f).copies = s.copies := rfl
@[simp] theorem State.modSlice_commits (s : State) (k : Nat) (f : Slice → Slice) : (s.modSlice k f).commits = s.commits := rfl
@[simp] theorem State.modSlice_gathers (s : State) (k : Nat) (f : Slice → Slice) : (s.modSlice k f).gathers = s.gathers := rfl
@[simp] theorem State.modSlice_pfaults (s : State) (k : Nat) (f : Slice → Slice) : (s.modSlice k f).pfaults = s.pfaults := rfl
@[simp] theorem State.modSlice_devLaunches (s : State) (k : Nat) (f : Slice → Slice) :
    (s.modSlice k f).devLaunches = s.devLaunches := rfl
@[simp] theorem State.modSlice_hostTdv (s : State) (k : Nat) (f : Slice → Slice) : (s.modSlice k f).hostTdv = s.hostTdv := rfl
@[simp] theorem State.modSlice_outside (s : State) (k : Nat) (f : Slice → Slice) : (s.modSlice k f).outside = s.outside := rfl
@[simp] theorem State.modSlice_railMove (s : State) (k : Nat) (f : Slice → Slice) : (s.modSlice k f).railMove = s.railMove := rfl
@[simp] theorem State.modSlice_thermalCap (s : State) (k : Nat) (f : Slice → Slice) :
    (s.modSlice k f).thermalCap = s.thermalCap := rfl
@[simp] theorem State.modSlice_coolSince (s : State) (k : Nat) (f : Slice → Slice) :
    (s.modSlice k f).coolSince = s.coolSince := rfl
@[simp] theorem State.modSlice_wakes (s : State) (k : Nat) (f : Slice → Slice) : (s.modSlice k f).wakes = s.wakes := rfl
@[simp] theorem State.modSlice_histBuf (s : State) (k : Nat) (f : Slice → Slice) : (s.modSlice k f).histBuf = s.histBuf := rfl
@[simp] theorem State.modSlice_security (s : State) (k : Nat) (f : Slice → Slice) : (s.modSlice k f).security = s.security := rfl
@[simp] theorem State.modSlice_tick (s : State) (k : Nat) (f : Slice → Slice) : (s.modSlice k f).tick = s.tick := rfl

/-! ### `State.modQueue` -/

@[simp] theorem State.modQueue_code (s : State) (k : Nat) (f : Queue → Queue) : (s.modQueue k f).code = s.code := rfl
@[simp] theorem State.modQueue_pulses (s : State) (k : Nat) (f : Queue → Queue) : (s.modQueue k f).pulses = s.pulses := rfl
@[simp] theorem State.modQueue_cursor (s : State) (k : Nat) (f : Queue → Queue) : (s.modQueue k f).cursor = s.cursor := rfl
@[simp] theorem State.modQueue_agenda (s : State) (k : Nat) (f : Queue → Queue) : (s.modQueue k f).agenda = s.agenda := rfl
@[simp] theorem State.modQueue_mem (s : State) (k : Nat) (f : Queue → Queue) : (s.modQueue k f).mem = s.mem := rfl
@[simp] theorem State.modQueue_owners (s : State) (k : Nat) (f : Queue → Queue) : (s.modQueue k f).owners = s.owners := rfl
@[simp] theorem State.modQueue_poison (s : State) (k : Nat) (f : Queue → Queue) : (s.modQueue k f).poison = s.poison := rfl
@[simp] theorem State.modQueue_reported (s : State) (k : Nat) (f : Queue → Queue) : (s.modQueue k f).reported = s.reported := rfl
@[simp] theorem State.modQueue_corrected (s : State) (k : Nat) (f : Queue → Queue) :
    (s.modQueue k f).corrected = s.corrected := rfl
@[simp] theorem State.modQueue_lastCorr (s : State) (k : Nat) (f : Queue → Queue) : (s.modQueue k f).lastCorr = s.lastCorr := rfl
@[simp] theorem State.modQueue_bar0 (s : State) (k : Nat) (f : Queue → Queue) : (s.modQueue k f).bar0 = s.bar0 := rfl
@[simp] theorem State.modQueue_queues (s : State) (k : Nat) (f : Queue → Queue) :
    (s.modQueue k f).queues = mapSet s.queues k (f (s.queue k)) := rfl
@[simp] theorem State.modQueue_rings (s : State) (k : Nat) (f : Queue → Queue) : (s.modQueue k f).rings = s.rings := rfl
@[simp] theorem State.modQueue_msix (s : State) (k : Nat) (f : Queue → Queue) : (s.modQueue k f).msix = s.msix := rfl
@[simp] theorem State.modQueue_ctxs (s : State) (k : Nat) (f : Queue → Queue) : (s.modQueue k f).ctxs = s.ctxs := rfl
@[simp] theorem State.modQueue_grids (s : State) (k : Nat) (f : Queue → Queue) : (s.modQueue k f).grids = s.grids := rfl
@[simp] theorem State.modQueue_graphs (s : State) (k : Nat) (f : Queue → Queue) : (s.modQueue k f).graphs = s.graphs := rfl
@[simp] theorem State.modQueue_blocks (s : State) (k : Nat) (f : Queue → Queue) : (s.modQueue k f).blocks = s.blocks := rfl
@[simp] theorem State.modQueue_warps (s : State) (k : Nat) (f : Queue → Queue) : (s.modQueue k f).warps = s.warps := rfl
@[simp] theorem State.modQueue_cores (s : State) (k : Nat) (f : Queue → Queue) : (s.modQueue k f).cores = s.cores := rfl
@[simp] theorem State.modQueue_clusters (s : State) (k : Nat) (f : Queue → Queue) : (s.modQueue k f).clusters = s.clusters := rfl
@[simp] theorem State.modQueue_slices (s : State) (k : Nat) (f : Queue → Queue) : (s.modQueue k f).slices = s.slices := rfl
@[simp] theorem State.modQueue_tenants (s : State) (k : Nat) (f : Queue → Queue) : (s.modQueue k f).tenants = s.tenants := rfl
@[simp] theorem State.modQueue_views (s : State) (k : Nat) (f : Queue → Queue) : (s.modQueue k f).views = s.views := rfl
@[simp] theorem State.modQueue_reqs (s : State) (k : Nat) (f : Queue → Queue) : (s.modQueue k f).reqs = s.reqs := rfl
@[simp] theorem State.modQueue_fences (s : State) (k : Nat) (f : Queue → Queue) : (s.modQueue k f).fences = s.fences := rfl
@[simp] theorem State.modQueue_copies (s : State) (k : Nat) (f : Queue → Queue) : (s.modQueue k f).copies = s.copies := rfl
@[simp] theorem State.modQueue_commits (s : State) (k : Nat) (f : Queue → Queue) : (s.modQueue k f).commits = s.commits := rfl
@[simp] theorem State.modQueue_gathers (s : State) (k : Nat) (f : Queue → Queue) : (s.modQueue k f).gathers = s.gathers := rfl
@[simp] theorem State.modQueue_pfaults (s : State) (k : Nat) (f : Queue → Queue) : (s.modQueue k f).pfaults = s.pfaults := rfl
@[simp] theorem State.modQueue_devLaunches (s : State) (k : Nat) (f : Queue → Queue) :
    (s.modQueue k f).devLaunches = s.devLaunches := rfl
@[simp] theorem State.modQueue_hostTdv (s : State) (k : Nat) (f : Queue → Queue) : (s.modQueue k f).hostTdv = s.hostTdv := rfl
@[simp] theorem State.modQueue_outside (s : State) (k : Nat) (f : Queue → Queue) : (s.modQueue k f).outside = s.outside := rfl
@[simp] theorem State.modQueue_railMove (s : State) (k : Nat) (f : Queue → Queue) : (s.modQueue k f).railMove = s.railMove := rfl
@[simp] theorem State.modQueue_thermalCap (s : State) (k : Nat) (f : Queue → Queue) :
    (s.modQueue k f).thermalCap = s.thermalCap := rfl
@[simp] theorem State.modQueue_coolSince (s : State) (k : Nat) (f : Queue → Queue) :
    (s.modQueue k f).coolSince = s.coolSince := rfl
@[simp] theorem State.modQueue_wakes (s : State) (k : Nat) (f : Queue → Queue) : (s.modQueue k f).wakes = s.wakes := rfl
@[simp] theorem State.modQueue_histBuf (s : State) (k : Nat) (f : Queue → Queue) : (s.modQueue k f).histBuf = s.histBuf := rfl
@[simp] theorem State.modQueue_security (s : State) (k : Nat) (f : Queue → Queue) : (s.modQueue k f).security = s.security := rfl
@[simp] theorem State.modQueue_tick (s : State) (k : Nat) (f : Queue → Queue) : (s.modQueue k f).tick = s.tick := rfl

/-! ### `State.modRing` -/

@[simp] theorem State.modRing_code (s : State) (k : Nat) (f : Ring → Ring) : (s.modRing k f).code = s.code := rfl
@[simp] theorem State.modRing_pulses (s : State) (k : Nat) (f : Ring → Ring) : (s.modRing k f).pulses = s.pulses := rfl
@[simp] theorem State.modRing_cursor (s : State) (k : Nat) (f : Ring → Ring) : (s.modRing k f).cursor = s.cursor := rfl
@[simp] theorem State.modRing_agenda (s : State) (k : Nat) (f : Ring → Ring) : (s.modRing k f).agenda = s.agenda := rfl
@[simp] theorem State.modRing_mem (s : State) (k : Nat) (f : Ring → Ring) : (s.modRing k f).mem = s.mem := rfl
@[simp] theorem State.modRing_owners (s : State) (k : Nat) (f : Ring → Ring) : (s.modRing k f).owners = s.owners := rfl
@[simp] theorem State.modRing_poison (s : State) (k : Nat) (f : Ring → Ring) : (s.modRing k f).poison = s.poison := rfl
@[simp] theorem State.modRing_reported (s : State) (k : Nat) (f : Ring → Ring) : (s.modRing k f).reported = s.reported := rfl
@[simp] theorem State.modRing_corrected (s : State) (k : Nat) (f : Ring → Ring) : (s.modRing k f).corrected = s.corrected := rfl
@[simp] theorem State.modRing_lastCorr (s : State) (k : Nat) (f : Ring → Ring) : (s.modRing k f).lastCorr = s.lastCorr := rfl
@[simp] theorem State.modRing_bar0 (s : State) (k : Nat) (f : Ring → Ring) : (s.modRing k f).bar0 = s.bar0 := rfl
@[simp] theorem State.modRing_queues (s : State) (k : Nat) (f : Ring → Ring) : (s.modRing k f).queues = s.queues := rfl
@[simp] theorem State.modRing_rings (s : State) (k : Nat) (f : Ring → Ring) :
    (s.modRing k f).rings = mapSet s.rings k (f (s.ring k)) := rfl
@[simp] theorem State.modRing_msix (s : State) (k : Nat) (f : Ring → Ring) : (s.modRing k f).msix = s.msix := rfl
@[simp] theorem State.modRing_ctxs (s : State) (k : Nat) (f : Ring → Ring) : (s.modRing k f).ctxs = s.ctxs := rfl
@[simp] theorem State.modRing_grids (s : State) (k : Nat) (f : Ring → Ring) : (s.modRing k f).grids = s.grids := rfl
@[simp] theorem State.modRing_graphs (s : State) (k : Nat) (f : Ring → Ring) : (s.modRing k f).graphs = s.graphs := rfl
@[simp] theorem State.modRing_blocks (s : State) (k : Nat) (f : Ring → Ring) : (s.modRing k f).blocks = s.blocks := rfl
@[simp] theorem State.modRing_warps (s : State) (k : Nat) (f : Ring → Ring) : (s.modRing k f).warps = s.warps := rfl
@[simp] theorem State.modRing_cores (s : State) (k : Nat) (f : Ring → Ring) : (s.modRing k f).cores = s.cores := rfl
@[simp] theorem State.modRing_clusters (s : State) (k : Nat) (f : Ring → Ring) : (s.modRing k f).clusters = s.clusters := rfl
@[simp] theorem State.modRing_slices (s : State) (k : Nat) (f : Ring → Ring) : (s.modRing k f).slices = s.slices := rfl
@[simp] theorem State.modRing_tenants (s : State) (k : Nat) (f : Ring → Ring) : (s.modRing k f).tenants = s.tenants := rfl
@[simp] theorem State.modRing_views (s : State) (k : Nat) (f : Ring → Ring) : (s.modRing k f).views = s.views := rfl
@[simp] theorem State.modRing_reqs (s : State) (k : Nat) (f : Ring → Ring) : (s.modRing k f).reqs = s.reqs := rfl
@[simp] theorem State.modRing_fences (s : State) (k : Nat) (f : Ring → Ring) : (s.modRing k f).fences = s.fences := rfl
@[simp] theorem State.modRing_copies (s : State) (k : Nat) (f : Ring → Ring) : (s.modRing k f).copies = s.copies := rfl
@[simp] theorem State.modRing_commits (s : State) (k : Nat) (f : Ring → Ring) : (s.modRing k f).commits = s.commits := rfl
@[simp] theorem State.modRing_gathers (s : State) (k : Nat) (f : Ring → Ring) : (s.modRing k f).gathers = s.gathers := rfl
@[simp] theorem State.modRing_pfaults (s : State) (k : Nat) (f : Ring → Ring) : (s.modRing k f).pfaults = s.pfaults := rfl
@[simp] theorem State.modRing_devLaunches (s : State) (k : Nat) (f : Ring → Ring) :
    (s.modRing k f).devLaunches = s.devLaunches := rfl
@[simp] theorem State.modRing_hostTdv (s : State) (k : Nat) (f : Ring → Ring) : (s.modRing k f).hostTdv = s.hostTdv := rfl
@[simp] theorem State.modRing_outside (s : State) (k : Nat) (f : Ring → Ring) : (s.modRing k f).outside = s.outside := rfl
@[simp] theorem State.modRing_railMove (s : State) (k : Nat) (f : Ring → Ring) : (s.modRing k f).railMove = s.railMove := rfl
@[simp] theorem State.modRing_thermalCap (s : State) (k : Nat) (f : Ring → Ring) :
    (s.modRing k f).thermalCap = s.thermalCap := rfl
@[simp] theorem State.modRing_coolSince (s : State) (k : Nat) (f : Ring → Ring) : (s.modRing k f).coolSince = s.coolSince := rfl
@[simp] theorem State.modRing_wakes (s : State) (k : Nat) (f : Ring → Ring) : (s.modRing k f).wakes = s.wakes := rfl
@[simp] theorem State.modRing_histBuf (s : State) (k : Nat) (f : Ring → Ring) : (s.modRing k f).histBuf = s.histBuf := rfl
@[simp] theorem State.modRing_security (s : State) (k : Nat) (f : Ring → Ring) : (s.modRing k f).security = s.security := rfl
@[simp] theorem State.modRing_tick (s : State) (k : Nat) (f : Ring → Ring) : (s.modRing k f).tick = s.tick := rfl

/-! ### `State.modWarp` -/

@[simp] theorem State.modWarp_code (s : State) (k : Nat) (f : Warp → Warp) : (s.modWarp k f).code = s.code := rfl
@[simp] theorem State.modWarp_pulses (s : State) (k : Nat) (f : Warp → Warp) : (s.modWarp k f).pulses = s.pulses := rfl
@[simp] theorem State.modWarp_cursor (s : State) (k : Nat) (f : Warp → Warp) : (s.modWarp k f).cursor = s.cursor := rfl
@[simp] theorem State.modWarp_agenda (s : State) (k : Nat) (f : Warp → Warp) : (s.modWarp k f).agenda = s.agenda := rfl
@[simp] theorem State.modWarp_mem (s : State) (k : Nat) (f : Warp → Warp) : (s.modWarp k f).mem = s.mem := rfl
@[simp] theorem State.modWarp_owners (s : State) (k : Nat) (f : Warp → Warp) : (s.modWarp k f).owners = s.owners := rfl
@[simp] theorem State.modWarp_poison (s : State) (k : Nat) (f : Warp → Warp) : (s.modWarp k f).poison = s.poison := rfl
@[simp] theorem State.modWarp_reported (s : State) (k : Nat) (f : Warp → Warp) : (s.modWarp k f).reported = s.reported := rfl
@[simp] theorem State.modWarp_corrected (s : State) (k : Nat) (f : Warp → Warp) : (s.modWarp k f).corrected = s.corrected := rfl
@[simp] theorem State.modWarp_lastCorr (s : State) (k : Nat) (f : Warp → Warp) : (s.modWarp k f).lastCorr = s.lastCorr := rfl
@[simp] theorem State.modWarp_bar0 (s : State) (k : Nat) (f : Warp → Warp) : (s.modWarp k f).bar0 = s.bar0 := rfl
@[simp] theorem State.modWarp_queues (s : State) (k : Nat) (f : Warp → Warp) : (s.modWarp k f).queues = s.queues := rfl
@[simp] theorem State.modWarp_rings (s : State) (k : Nat) (f : Warp → Warp) : (s.modWarp k f).rings = s.rings := rfl
@[simp] theorem State.modWarp_msix (s : State) (k : Nat) (f : Warp → Warp) : (s.modWarp k f).msix = s.msix := rfl
@[simp] theorem State.modWarp_ctxs (s : State) (k : Nat) (f : Warp → Warp) : (s.modWarp k f).ctxs = s.ctxs := rfl
@[simp] theorem State.modWarp_grids (s : State) (k : Nat) (f : Warp → Warp) : (s.modWarp k f).grids = s.grids := rfl
@[simp] theorem State.modWarp_graphs (s : State) (k : Nat) (f : Warp → Warp) : (s.modWarp k f).graphs = s.graphs := rfl
@[simp] theorem State.modWarp_blocks (s : State) (k : Nat) (f : Warp → Warp) : (s.modWarp k f).blocks = s.blocks := rfl
@[simp] theorem State.modWarp_warps (s : State) (k : Nat) (f : Warp → Warp) : (s.modWarp k f).warps = mapModify s.warps k f := rfl
@[simp] theorem State.modWarp_cores (s : State) (k : Nat) (f : Warp → Warp) : (s.modWarp k f).cores = s.cores := rfl
@[simp] theorem State.modWarp_clusters (s : State) (k : Nat) (f : Warp → Warp) : (s.modWarp k f).clusters = s.clusters := rfl
@[simp] theorem State.modWarp_slices (s : State) (k : Nat) (f : Warp → Warp) : (s.modWarp k f).slices = s.slices := rfl
@[simp] theorem State.modWarp_tenants (s : State) (k : Nat) (f : Warp → Warp) : (s.modWarp k f).tenants = s.tenants := rfl
@[simp] theorem State.modWarp_views (s : State) (k : Nat) (f : Warp → Warp) : (s.modWarp k f).views = s.views := rfl
@[simp] theorem State.modWarp_reqs (s : State) (k : Nat) (f : Warp → Warp) : (s.modWarp k f).reqs = s.reqs := rfl
@[simp] theorem State.modWarp_fences (s : State) (k : Nat) (f : Warp → Warp) : (s.modWarp k f).fences = s.fences := rfl
@[simp] theorem State.modWarp_copies (s : State) (k : Nat) (f : Warp → Warp) : (s.modWarp k f).copies = s.copies := rfl
@[simp] theorem State.modWarp_commits (s : State) (k : Nat) (f : Warp → Warp) : (s.modWarp k f).commits = s.commits := rfl
@[simp] theorem State.modWarp_gathers (s : State) (k : Nat) (f : Warp → Warp) : (s.modWarp k f).gathers = s.gathers := rfl
@[simp] theorem State.modWarp_pfaults (s : State) (k : Nat) (f : Warp → Warp) : (s.modWarp k f).pfaults = s.pfaults := rfl
@[simp] theorem State.modWarp_devLaunches (s : State) (k : Nat) (f : Warp → Warp) :
    (s.modWarp k f).devLaunches = s.devLaunches := rfl
@[simp] theorem State.modWarp_hostTdv (s : State) (k : Nat) (f : Warp → Warp) : (s.modWarp k f).hostTdv = s.hostTdv := rfl
@[simp] theorem State.modWarp_outside (s : State) (k : Nat) (f : Warp → Warp) : (s.modWarp k f).outside = s.outside := rfl
@[simp] theorem State.modWarp_railMove (s : State) (k : Nat) (f : Warp → Warp) : (s.modWarp k f).railMove = s.railMove := rfl
@[simp] theorem State.modWarp_thermalCap (s : State) (k : Nat) (f : Warp → Warp) :
    (s.modWarp k f).thermalCap = s.thermalCap := rfl
@[simp] theorem State.modWarp_coolSince (s : State) (k : Nat) (f : Warp → Warp) : (s.modWarp k f).coolSince = s.coolSince := rfl
@[simp] theorem State.modWarp_wakes (s : State) (k : Nat) (f : Warp → Warp) : (s.modWarp k f).wakes = s.wakes := rfl
@[simp] theorem State.modWarp_histBuf (s : State) (k : Nat) (f : Warp → Warp) : (s.modWarp k f).histBuf = s.histBuf := rfl
@[simp] theorem State.modWarp_security (s : State) (k : Nat) (f : Warp → Warp) : (s.modWarp k f).security = s.security := rfl
@[simp] theorem State.modWarp_tick (s : State) (k : Nat) (f : Warp → Warp) : (s.modWarp k f).tick = s.tick := rfl

/-! ### `State.modBlock` -/

@[simp] theorem State.modBlock_code (s : State) (k : Nat) (f : Block → Block) : (s.modBlock k f).code = s.code := rfl
@[simp] theorem State.modBlock_pulses (s : State) (k : Nat) (f : Block → Block) : (s.modBlock k f).pulses = s.pulses := rfl
@[simp] theorem State.modBlock_cursor (s : State) (k : Nat) (f : Block → Block) : (s.modBlock k f).cursor = s.cursor := rfl
@[simp] theorem State.modBlock_agenda (s : State) (k : Nat) (f : Block → Block) : (s.modBlock k f).agenda = s.agenda := rfl
@[simp] theorem State.modBlock_mem (s : State) (k : Nat) (f : Block → Block) : (s.modBlock k f).mem = s.mem := rfl
@[simp] theorem State.modBlock_owners (s : State) (k : Nat) (f : Block → Block) : (s.modBlock k f).owners = s.owners := rfl
@[simp] theorem State.modBlock_poison (s : State) (k : Nat) (f : Block → Block) : (s.modBlock k f).poison = s.poison := rfl
@[simp] theorem State.modBlock_reported (s : State) (k : Nat) (f : Block → Block) : (s.modBlock k f).reported = s.reported := rfl
@[simp] theorem State.modBlock_corrected (s : State) (k : Nat) (f : Block → Block) :
    (s.modBlock k f).corrected = s.corrected := rfl
@[simp] theorem State.modBlock_lastCorr (s : State) (k : Nat) (f : Block → Block) : (s.modBlock k f).lastCorr = s.lastCorr := rfl
@[simp] theorem State.modBlock_bar0 (s : State) (k : Nat) (f : Block → Block) : (s.modBlock k f).bar0 = s.bar0 := rfl
@[simp] theorem State.modBlock_queues (s : State) (k : Nat) (f : Block → Block) : (s.modBlock k f).queues = s.queues := rfl
@[simp] theorem State.modBlock_rings (s : State) (k : Nat) (f : Block → Block) : (s.modBlock k f).rings = s.rings := rfl
@[simp] theorem State.modBlock_msix (s : State) (k : Nat) (f : Block → Block) : (s.modBlock k f).msix = s.msix := rfl
@[simp] theorem State.modBlock_ctxs (s : State) (k : Nat) (f : Block → Block) : (s.modBlock k f).ctxs = s.ctxs := rfl
@[simp] theorem State.modBlock_grids (s : State) (k : Nat) (f : Block → Block) : (s.modBlock k f).grids = s.grids := rfl
@[simp] theorem State.modBlock_graphs (s : State) (k : Nat) (f : Block → Block) : (s.modBlock k f).graphs = s.graphs := rfl
@[simp] theorem State.modBlock_blocks (s : State) (k : Nat) (f : Block → Block) :
    (s.modBlock k f).blocks = mapModify s.blocks k f := rfl
@[simp] theorem State.modBlock_warps (s : State) (k : Nat) (f : Block → Block) : (s.modBlock k f).warps = s.warps := rfl
@[simp] theorem State.modBlock_cores (s : State) (k : Nat) (f : Block → Block) : (s.modBlock k f).cores = s.cores := rfl
@[simp] theorem State.modBlock_clusters (s : State) (k : Nat) (f : Block → Block) : (s.modBlock k f).clusters = s.clusters := rfl
@[simp] theorem State.modBlock_slices (s : State) (k : Nat) (f : Block → Block) : (s.modBlock k f).slices = s.slices := rfl
@[simp] theorem State.modBlock_tenants (s : State) (k : Nat) (f : Block → Block) : (s.modBlock k f).tenants = s.tenants := rfl
@[simp] theorem State.modBlock_views (s : State) (k : Nat) (f : Block → Block) : (s.modBlock k f).views = s.views := rfl
@[simp] theorem State.modBlock_reqs (s : State) (k : Nat) (f : Block → Block) : (s.modBlock k f).reqs = s.reqs := rfl
@[simp] theorem State.modBlock_fences (s : State) (k : Nat) (f : Block → Block) : (s.modBlock k f).fences = s.fences := rfl
@[simp] theorem State.modBlock_copies (s : State) (k : Nat) (f : Block → Block) : (s.modBlock k f).copies = s.copies := rfl
@[simp] theorem State.modBlock_commits (s : State) (k : Nat) (f : Block → Block) : (s.modBlock k f).commits = s.commits := rfl
@[simp] theorem State.modBlock_gathers (s : State) (k : Nat) (f : Block → Block) : (s.modBlock k f).gathers = s.gathers := rfl
@[simp] theorem State.modBlock_pfaults (s : State) (k : Nat) (f : Block → Block) : (s.modBlock k f).pfaults = s.pfaults := rfl
@[simp] theorem State.modBlock_devLaunches (s : State) (k : Nat) (f : Block → Block) :
    (s.modBlock k f).devLaunches = s.devLaunches := rfl
@[simp] theorem State.modBlock_hostTdv (s : State) (k : Nat) (f : Block → Block) : (s.modBlock k f).hostTdv = s.hostTdv := rfl
@[simp] theorem State.modBlock_outside (s : State) (k : Nat) (f : Block → Block) : (s.modBlock k f).outside = s.outside := rfl
@[simp] theorem State.modBlock_railMove (s : State) (k : Nat) (f : Block → Block) : (s.modBlock k f).railMove = s.railMove := rfl
@[simp] theorem State.modBlock_thermalCap (s : State) (k : Nat) (f : Block → Block) :
    (s.modBlock k f).thermalCap = s.thermalCap := rfl
@[simp] theorem State.modBlock_coolSince (s : State) (k : Nat) (f : Block → Block) :
    (s.modBlock k f).coolSince = s.coolSince := rfl
@[simp] theorem State.modBlock_wakes (s : State) (k : Nat) (f : Block → Block) : (s.modBlock k f).wakes = s.wakes := rfl
@[simp] theorem State.modBlock_histBuf (s : State) (k : Nat) (f : Block → Block) : (s.modBlock k f).histBuf = s.histBuf := rfl
@[simp] theorem State.modBlock_security (s : State) (k : Nat) (f : Block → Block) : (s.modBlock k f).security = s.security := rfl
@[simp] theorem State.modBlock_tick (s : State) (k : Nat) (f : Block → Block) : (s.modBlock k f).tick = s.tick := rfl

/-! ### `State.modGrid` -/

@[simp] theorem State.modGrid_code (s : State) (k : Nat) (f : Grid → Grid) : (s.modGrid k f).code = s.code := rfl
@[simp] theorem State.modGrid_pulses (s : State) (k : Nat) (f : Grid → Grid) : (s.modGrid k f).pulses = s.pulses := rfl
@[simp] theorem State.modGrid_cursor (s : State) (k : Nat) (f : Grid → Grid) : (s.modGrid k f).cursor = s.cursor := rfl
@[simp] theorem State.modGrid_agenda (s : State) (k : Nat) (f : Grid → Grid) : (s.modGrid k f).agenda = s.agenda := rfl
@[simp] theorem State.modGrid_mem (s : State) (k : Nat) (f : Grid → Grid) : (s.modGrid k f).mem = s.mem := rfl
@[simp] theorem State.modGrid_owners (s : State) (k : Nat) (f : Grid → Grid) : (s.modGrid k f).owners = s.owners := rfl
@[simp] theorem State.modGrid_poison (s : State) (k : Nat) (f : Grid → Grid) : (s.modGrid k f).poison = s.poison := rfl
@[simp] theorem State.modGrid_reported (s : State) (k : Nat) (f : Grid → Grid) : (s.modGrid k f).reported = s.reported := rfl
@[simp] theorem State.modGrid_corrected (s : State) (k : Nat) (f : Grid → Grid) : (s.modGrid k f).corrected = s.corrected := rfl
@[simp] theorem State.modGrid_lastCorr (s : State) (k : Nat) (f : Grid → Grid) : (s.modGrid k f).lastCorr = s.lastCorr := rfl
@[simp] theorem State.modGrid_bar0 (s : State) (k : Nat) (f : Grid → Grid) : (s.modGrid k f).bar0 = s.bar0 := rfl
@[simp] theorem State.modGrid_queues (s : State) (k : Nat) (f : Grid → Grid) : (s.modGrid k f).queues = s.queues := rfl
@[simp] theorem State.modGrid_rings (s : State) (k : Nat) (f : Grid → Grid) : (s.modGrid k f).rings = s.rings := rfl
@[simp] theorem State.modGrid_msix (s : State) (k : Nat) (f : Grid → Grid) : (s.modGrid k f).msix = s.msix := rfl
@[simp] theorem State.modGrid_ctxs (s : State) (k : Nat) (f : Grid → Grid) : (s.modGrid k f).ctxs = s.ctxs := rfl
@[simp] theorem State.modGrid_grids (s : State) (k : Nat) (f : Grid → Grid) : (s.modGrid k f).grids = mapModify s.grids k f := rfl
@[simp] theorem State.modGrid_graphs (s : State) (k : Nat) (f : Grid → Grid) : (s.modGrid k f).graphs = s.graphs := rfl
@[simp] theorem State.modGrid_blocks (s : State) (k : Nat) (f : Grid → Grid) : (s.modGrid k f).blocks = s.blocks := rfl
@[simp] theorem State.modGrid_warps (s : State) (k : Nat) (f : Grid → Grid) : (s.modGrid k f).warps = s.warps := rfl
@[simp] theorem State.modGrid_cores (s : State) (k : Nat) (f : Grid → Grid) : (s.modGrid k f).cores = s.cores := rfl
@[simp] theorem State.modGrid_clusters (s : State) (k : Nat) (f : Grid → Grid) : (s.modGrid k f).clusters = s.clusters := rfl
@[simp] theorem State.modGrid_slices (s : State) (k : Nat) (f : Grid → Grid) : (s.modGrid k f).slices = s.slices := rfl
@[simp] theorem State.modGrid_tenants (s : State) (k : Nat) (f : Grid → Grid) : (s.modGrid k f).tenants = s.tenants := rfl
@[simp] theorem State.modGrid_views (s : State) (k : Nat) (f : Grid → Grid) : (s.modGrid k f).views = s.views := rfl
@[simp] theorem State.modGrid_reqs (s : State) (k : Nat) (f : Grid → Grid) : (s.modGrid k f).reqs = s.reqs := rfl
@[simp] theorem State.modGrid_fences (s : State) (k : Nat) (f : Grid → Grid) : (s.modGrid k f).fences = s.fences := rfl
@[simp] theorem State.modGrid_copies (s : State) (k : Nat) (f : Grid → Grid) : (s.modGrid k f).copies = s.copies := rfl
@[simp] theorem State.modGrid_commits (s : State) (k : Nat) (f : Grid → Grid) : (s.modGrid k f).commits = s.commits := rfl
@[simp] theorem State.modGrid_gathers (s : State) (k : Nat) (f : Grid → Grid) : (s.modGrid k f).gathers = s.gathers := rfl
@[simp] theorem State.modGrid_pfaults (s : State) (k : Nat) (f : Grid → Grid) : (s.modGrid k f).pfaults = s.pfaults := rfl
@[simp] theorem State.modGrid_devLaunches (s : State) (k : Nat) (f : Grid → Grid) :
    (s.modGrid k f).devLaunches = s.devLaunches := rfl
@[simp] theorem State.modGrid_hostTdv (s : State) (k : Nat) (f : Grid → Grid) : (s.modGrid k f).hostTdv = s.hostTdv := rfl
@[simp] theorem State.modGrid_outside (s : State) (k : Nat) (f : Grid → Grid) : (s.modGrid k f).outside = s.outside := rfl
@[simp] theorem State.modGrid_railMove (s : State) (k : Nat) (f : Grid → Grid) : (s.modGrid k f).railMove = s.railMove := rfl
@[simp] theorem State.modGrid_thermalCap (s : State) (k : Nat) (f : Grid → Grid) :
    (s.modGrid k f).thermalCap = s.thermalCap := rfl
@[simp] theorem State.modGrid_coolSince (s : State) (k : Nat) (f : Grid → Grid) : (s.modGrid k f).coolSince = s.coolSince := rfl
@[simp] theorem State.modGrid_wakes (s : State) (k : Nat) (f : Grid → Grid) : (s.modGrid k f).wakes = s.wakes := rfl
@[simp] theorem State.modGrid_histBuf (s : State) (k : Nat) (f : Grid → Grid) : (s.modGrid k f).histBuf = s.histBuf := rfl
@[simp] theorem State.modGrid_security (s : State) (k : Nat) (f : Grid → Grid) : (s.modGrid k f).security = s.security := rfl
@[simp] theorem State.modGrid_tick (s : State) (k : Nat) (f : Grid → Grid) : (s.modGrid k f).tick = s.tick := rfl

/-! ### `State.modCtx` -/

@[simp] theorem State.modCtx_code (s : State) (k : Nat) (f : Ctx → Ctx) : (s.modCtx k f).code = s.code := rfl
@[simp] theorem State.modCtx_pulses (s : State) (k : Nat) (f : Ctx → Ctx) : (s.modCtx k f).pulses = s.pulses := rfl
@[simp] theorem State.modCtx_cursor (s : State) (k : Nat) (f : Ctx → Ctx) : (s.modCtx k f).cursor = s.cursor := rfl
@[simp] theorem State.modCtx_agenda (s : State) (k : Nat) (f : Ctx → Ctx) : (s.modCtx k f).agenda = s.agenda := rfl
@[simp] theorem State.modCtx_mem (s : State) (k : Nat) (f : Ctx → Ctx) : (s.modCtx k f).mem = s.mem := rfl
@[simp] theorem State.modCtx_owners (s : State) (k : Nat) (f : Ctx → Ctx) : (s.modCtx k f).owners = s.owners := rfl
@[simp] theorem State.modCtx_poison (s : State) (k : Nat) (f : Ctx → Ctx) : (s.modCtx k f).poison = s.poison := rfl
@[simp] theorem State.modCtx_reported (s : State) (k : Nat) (f : Ctx → Ctx) : (s.modCtx k f).reported = s.reported := rfl
@[simp] theorem State.modCtx_corrected (s : State) (k : Nat) (f : Ctx → Ctx) : (s.modCtx k f).corrected = s.corrected := rfl
@[simp] theorem State.modCtx_lastCorr (s : State) (k : Nat) (f : Ctx → Ctx) : (s.modCtx k f).lastCorr = s.lastCorr := rfl
@[simp] theorem State.modCtx_bar0 (s : State) (k : Nat) (f : Ctx → Ctx) : (s.modCtx k f).bar0 = s.bar0 := rfl
@[simp] theorem State.modCtx_queues (s : State) (k : Nat) (f : Ctx → Ctx) : (s.modCtx k f).queues = s.queues := rfl
@[simp] theorem State.modCtx_rings (s : State) (k : Nat) (f : Ctx → Ctx) : (s.modCtx k f).rings = s.rings := rfl
@[simp] theorem State.modCtx_msix (s : State) (k : Nat) (f : Ctx → Ctx) : (s.modCtx k f).msix = s.msix := rfl
@[simp] theorem State.modCtx_ctxs (s : State) (k : Nat) (f : Ctx → Ctx) : (s.modCtx k f).ctxs = mapModify s.ctxs k f := rfl
@[simp] theorem State.modCtx_grids (s : State) (k : Nat) (f : Ctx → Ctx) : (s.modCtx k f).grids = s.grids := rfl
@[simp] theorem State.modCtx_graphs (s : State) (k : Nat) (f : Ctx → Ctx) : (s.modCtx k f).graphs = s.graphs := rfl
@[simp] theorem State.modCtx_blocks (s : State) (k : Nat) (f : Ctx → Ctx) : (s.modCtx k f).blocks = s.blocks := rfl
@[simp] theorem State.modCtx_warps (s : State) (k : Nat) (f : Ctx → Ctx) : (s.modCtx k f).warps = s.warps := rfl
@[simp] theorem State.modCtx_cores (s : State) (k : Nat) (f : Ctx → Ctx) : (s.modCtx k f).cores = s.cores := rfl
@[simp] theorem State.modCtx_clusters (s : State) (k : Nat) (f : Ctx → Ctx) : (s.modCtx k f).clusters = s.clusters := rfl
@[simp] theorem State.modCtx_slices (s : State) (k : Nat) (f : Ctx → Ctx) : (s.modCtx k f).slices = s.slices := rfl
@[simp] theorem State.modCtx_tenants (s : State) (k : Nat) (f : Ctx → Ctx) : (s.modCtx k f).tenants = s.tenants := rfl
@[simp] theorem State.modCtx_views (s : State) (k : Nat) (f : Ctx → Ctx) : (s.modCtx k f).views = s.views := rfl
@[simp] theorem State.modCtx_reqs (s : State) (k : Nat) (f : Ctx → Ctx) : (s.modCtx k f).reqs = s.reqs := rfl
@[simp] theorem State.modCtx_fences (s : State) (k : Nat) (f : Ctx → Ctx) : (s.modCtx k f).fences = s.fences := rfl
@[simp] theorem State.modCtx_copies (s : State) (k : Nat) (f : Ctx → Ctx) : (s.modCtx k f).copies = s.copies := rfl
@[simp] theorem State.modCtx_commits (s : State) (k : Nat) (f : Ctx → Ctx) : (s.modCtx k f).commits = s.commits := rfl
@[simp] theorem State.modCtx_gathers (s : State) (k : Nat) (f : Ctx → Ctx) : (s.modCtx k f).gathers = s.gathers := rfl
@[simp] theorem State.modCtx_pfaults (s : State) (k : Nat) (f : Ctx → Ctx) : (s.modCtx k f).pfaults = s.pfaults := rfl
@[simp] theorem State.modCtx_devLaunches (s : State) (k : Nat) (f : Ctx → Ctx) : (s.modCtx k f).devLaunches = s.devLaunches := rfl
@[simp] theorem State.modCtx_hostTdv (s : State) (k : Nat) (f : Ctx → Ctx) : (s.modCtx k f).hostTdv = s.hostTdv := rfl
@[simp] theorem State.modCtx_outside (s : State) (k : Nat) (f : Ctx → Ctx) : (s.modCtx k f).outside = s.outside := rfl
@[simp] theorem State.modCtx_railMove (s : State) (k : Nat) (f : Ctx → Ctx) : (s.modCtx k f).railMove = s.railMove := rfl
@[simp] theorem State.modCtx_thermalCap (s : State) (k : Nat) (f : Ctx → Ctx) : (s.modCtx k f).thermalCap = s.thermalCap := rfl
@[simp] theorem State.modCtx_coolSince (s : State) (k : Nat) (f : Ctx → Ctx) : (s.modCtx k f).coolSince = s.coolSince := rfl
@[simp] theorem State.modCtx_wakes (s : State) (k : Nat) (f : Ctx → Ctx) : (s.modCtx k f).wakes = s.wakes := rfl
@[simp] theorem State.modCtx_histBuf (s : State) (k : Nat) (f : Ctx → Ctx) : (s.modCtx k f).histBuf = s.histBuf := rfl
@[simp] theorem State.modCtx_security (s : State) (k : Nat) (f : Ctx → Ctx) : (s.modCtx k f).security = s.security := rfl
@[simp] theorem State.modCtx_tick (s : State) (k : Nat) (f : Ctx → Ctx) : (s.modCtx k f).tick = s.tick := rfl

/-! ### `State.modTenant` -/

@[simp] theorem State.modTenant_code (s : State) (k : Nat) (f : Tenant → Tenant) : (s.modTenant k f).code = s.code := rfl
@[simp] theorem State.modTenant_pulses (s : State) (k : Nat) (f : Tenant → Tenant) : (s.modTenant k f).pulses = s.pulses := rfl
@[simp] theorem State.modTenant_cursor (s : State) (k : Nat) (f : Tenant → Tenant) : (s.modTenant k f).cursor = s.cursor := rfl
@[simp] theorem State.modTenant_agenda (s : State) (k : Nat) (f : Tenant → Tenant) : (s.modTenant k f).agenda = s.agenda := rfl
@[simp] theorem State.modTenant_mem (s : State) (k : Nat) (f : Tenant → Tenant) : (s.modTenant k f).mem = s.mem := rfl
@[simp] theorem State.modTenant_owners (s : State) (k : Nat) (f : Tenant → Tenant) : (s.modTenant k f).owners = s.owners := rfl
@[simp] theorem State.modTenant_poison (s : State) (k : Nat) (f : Tenant → Tenant) : (s.modTenant k f).poison = s.poison := rfl
@[simp] theorem State.modTenant_reported (s : State) (k : Nat) (f : Tenant → Tenant) :
    (s.modTenant k f).reported = s.reported := rfl
@[simp] theorem State.modTenant_corrected (s : State) (k : Nat) (f : Tenant → Tenant) :
    (s.modTenant k f).corrected = s.corrected := rfl
@[simp] theorem State.modTenant_lastCorr (s : State) (k : Nat) (f : Tenant → Tenant) :
    (s.modTenant k f).lastCorr = s.lastCorr := rfl
@[simp] theorem State.modTenant_bar0 (s : State) (k : Nat) (f : Tenant → Tenant) : (s.modTenant k f).bar0 = s.bar0 := rfl
@[simp] theorem State.modTenant_queues (s : State) (k : Nat) (f : Tenant → Tenant) : (s.modTenant k f).queues = s.queues := rfl
@[simp] theorem State.modTenant_rings (s : State) (k : Nat) (f : Tenant → Tenant) : (s.modTenant k f).rings = s.rings := rfl
@[simp] theorem State.modTenant_msix (s : State) (k : Nat) (f : Tenant → Tenant) : (s.modTenant k f).msix = s.msix := rfl
@[simp] theorem State.modTenant_ctxs (s : State) (k : Nat) (f : Tenant → Tenant) : (s.modTenant k f).ctxs = s.ctxs := rfl
@[simp] theorem State.modTenant_grids (s : State) (k : Nat) (f : Tenant → Tenant) : (s.modTenant k f).grids = s.grids := rfl
@[simp] theorem State.modTenant_graphs (s : State) (k : Nat) (f : Tenant → Tenant) : (s.modTenant k f).graphs = s.graphs := rfl
@[simp] theorem State.modTenant_blocks (s : State) (k : Nat) (f : Tenant → Tenant) : (s.modTenant k f).blocks = s.blocks := rfl
@[simp] theorem State.modTenant_warps (s : State) (k : Nat) (f : Tenant → Tenant) : (s.modTenant k f).warps = s.warps := rfl
@[simp] theorem State.modTenant_cores (s : State) (k : Nat) (f : Tenant → Tenant) : (s.modTenant k f).cores = s.cores := rfl
@[simp] theorem State.modTenant_clusters (s : State) (k : Nat) (f : Tenant → Tenant) :
    (s.modTenant k f).clusters = s.clusters := rfl
@[simp] theorem State.modTenant_slices (s : State) (k : Nat) (f : Tenant → Tenant) : (s.modTenant k f).slices = s.slices := rfl
@[simp] theorem State.modTenant_tenants (s : State) (k : Nat) (f : Tenant → Tenant) :
    (s.modTenant k f).tenants = mapModify s.tenants k f := rfl
@[simp] theorem State.modTenant_views (s : State) (k : Nat) (f : Tenant → Tenant) : (s.modTenant k f).views = s.views := rfl
@[simp] theorem State.modTenant_reqs (s : State) (k : Nat) (f : Tenant → Tenant) : (s.modTenant k f).reqs = s.reqs := rfl
@[simp] theorem State.modTenant_fences (s : State) (k : Nat) (f : Tenant → Tenant) : (s.modTenant k f).fences = s.fences := rfl
@[simp] theorem State.modTenant_copies (s : State) (k : Nat) (f : Tenant → Tenant) : (s.modTenant k f).copies = s.copies := rfl
@[simp] theorem State.modTenant_commits (s : State) (k : Nat) (f : Tenant → Tenant) : (s.modTenant k f).commits = s.commits := rfl
@[simp] theorem State.modTenant_gathers (s : State) (k : Nat) (f : Tenant → Tenant) : (s.modTenant k f).gathers = s.gathers := rfl
@[simp] theorem State.modTenant_pfaults (s : State) (k : Nat) (f : Tenant → Tenant) : (s.modTenant k f).pfaults = s.pfaults := rfl
@[simp] theorem State.modTenant_devLaunches (s : State) (k : Nat) (f : Tenant → Tenant) :
    (s.modTenant k f).devLaunches = s.devLaunches := rfl
@[simp] theorem State.modTenant_hostTdv (s : State) (k : Nat) (f : Tenant → Tenant) : (s.modTenant k f).hostTdv = s.hostTdv := rfl
@[simp] theorem State.modTenant_outside (s : State) (k : Nat) (f : Tenant → Tenant) : (s.modTenant k f).outside = s.outside := rfl
@[simp] theorem State.modTenant_railMove (s : State) (k : Nat) (f : Tenant → Tenant) :
    (s.modTenant k f).railMove = s.railMove := rfl
@[simp] theorem State.modTenant_thermalCap (s : State) (k : Nat) (f : Tenant → Tenant) :
    (s.modTenant k f).thermalCap = s.thermalCap := rfl
@[simp] theorem State.modTenant_coolSince (s : State) (k : Nat) (f : Tenant → Tenant) :
    (s.modTenant k f).coolSince = s.coolSince := rfl
@[simp] theorem State.modTenant_wakes (s : State) (k : Nat) (f : Tenant → Tenant) : (s.modTenant k f).wakes = s.wakes := rfl
@[simp] theorem State.modTenant_histBuf (s : State) (k : Nat) (f : Tenant → Tenant) : (s.modTenant k f).histBuf = s.histBuf := rfl
@[simp] theorem State.modTenant_security (s : State) (k : Nat) (f : Tenant → Tenant) :
    (s.modTenant k f).security = s.security := rfl
@[simp] theorem State.modTenant_tick (s : State) (k : Nat) (f : Tenant → Tenant) : (s.modTenant k f).tick = s.tick := rfl

/-! ### `State.modView` -/

@[simp] theorem State.modView_code (s : State) (k : Nat) (f : View → View) : (s.modView k f).code = s.code := rfl
@[simp] theorem State.modView_pulses (s : State) (k : Nat) (f : View → View) : (s.modView k f).pulses = s.pulses := rfl
@[simp] theorem State.modView_cursor (s : State) (k : Nat) (f : View → View) : (s.modView k f).cursor = s.cursor := rfl
@[simp] theorem State.modView_agenda (s : State) (k : Nat) (f : View → View) : (s.modView k f).agenda = s.agenda := rfl
@[simp] theorem State.modView_mem (s : State) (k : Nat) (f : View → View) : (s.modView k f).mem = s.mem := rfl
@[simp] theorem State.modView_owners (s : State) (k : Nat) (f : View → View) : (s.modView k f).owners = s.owners := rfl
@[simp] theorem State.modView_poison (s : State) (k : Nat) (f : View → View) : (s.modView k f).poison = s.poison := rfl
@[simp] theorem State.modView_reported (s : State) (k : Nat) (f : View → View) : (s.modView k f).reported = s.reported := rfl
@[simp] theorem State.modView_corrected (s : State) (k : Nat) (f : View → View) : (s.modView k f).corrected = s.corrected := rfl
@[simp] theorem State.modView_lastCorr (s : State) (k : Nat) (f : View → View) : (s.modView k f).lastCorr = s.lastCorr := rfl
@[simp] theorem State.modView_bar0 (s : State) (k : Nat) (f : View → View) : (s.modView k f).bar0 = s.bar0 := rfl
@[simp] theorem State.modView_queues (s : State) (k : Nat) (f : View → View) : (s.modView k f).queues = s.queues := rfl
@[simp] theorem State.modView_rings (s : State) (k : Nat) (f : View → View) : (s.modView k f).rings = s.rings := rfl
@[simp] theorem State.modView_msix (s : State) (k : Nat) (f : View → View) : (s.modView k f).msix = s.msix := rfl
@[simp] theorem State.modView_ctxs (s : State) (k : Nat) (f : View → View) : (s.modView k f).ctxs = s.ctxs := rfl
@[simp] theorem State.modView_grids (s : State) (k : Nat) (f : View → View) : (s.modView k f).grids = s.grids := rfl
@[simp] theorem State.modView_graphs (s : State) (k : Nat) (f : View → View) : (s.modView k f).graphs = s.graphs := rfl
@[simp] theorem State.modView_blocks (s : State) (k : Nat) (f : View → View) : (s.modView k f).blocks = s.blocks := rfl
@[simp] theorem State.modView_warps (s : State) (k : Nat) (f : View → View) : (s.modView k f).warps = s.warps := rfl
@[simp] theorem State.modView_cores (s : State) (k : Nat) (f : View → View) : (s.modView k f).cores = s.cores := rfl
@[simp] theorem State.modView_clusters (s : State) (k : Nat) (f : View → View) : (s.modView k f).clusters = s.clusters := rfl
@[simp] theorem State.modView_slices (s : State) (k : Nat) (f : View → View) : (s.modView k f).slices = s.slices := rfl
@[simp] theorem State.modView_tenants (s : State) (k : Nat) (f : View → View) : (s.modView k f).tenants = s.tenants := rfl
@[simp] theorem State.modView_views (s : State) (k : Nat) (f : View → View) : (s.modView k f).views = mapModify s.views k f := rfl
@[simp] theorem State.modView_reqs (s : State) (k : Nat) (f : View → View) : (s.modView k f).reqs = s.reqs := rfl
@[simp] theorem State.modView_fences (s : State) (k : Nat) (f : View → View) : (s.modView k f).fences = s.fences := rfl
@[simp] theorem State.modView_copies (s : State) (k : Nat) (f : View → View) : (s.modView k f).copies = s.copies := rfl
@[simp] theorem State.modView_commits (s : State) (k : Nat) (f : View → View) : (s.modView k f).commits = s.commits := rfl
@[simp] theorem State.modView_gathers (s : State) (k : Nat) (f : View → View) : (s.modView k f).gathers = s.gathers := rfl
@[simp] theorem State.modView_pfaults (s : State) (k : Nat) (f : View → View) : (s.modView k f).pfaults = s.pfaults := rfl
@[simp] theorem State.modView_devLaunches (s : State) (k : Nat) (f : View → View) :
    (s.modView k f).devLaunches = s.devLaunches := rfl
@[simp] theorem State.modView_hostTdv (s : State) (k : Nat) (f : View → View) : (s.modView k f).hostTdv = s.hostTdv := rfl
@[simp] theorem State.modView_outside (s : State) (k : Nat) (f : View → View) : (s.modView k f).outside = s.outside := rfl
@[simp] theorem State.modView_railMove (s : State) (k : Nat) (f : View → View) : (s.modView k f).railMove = s.railMove := rfl
@[simp] theorem State.modView_thermalCap (s : State) (k : Nat) (f : View → View) :
    (s.modView k f).thermalCap = s.thermalCap := rfl
@[simp] theorem State.modView_coolSince (s : State) (k : Nat) (f : View → View) : (s.modView k f).coolSince = s.coolSince := rfl
@[simp] theorem State.modView_wakes (s : State) (k : Nat) (f : View → View) : (s.modView k f).wakes = s.wakes := rfl
@[simp] theorem State.modView_histBuf (s : State) (k : Nat) (f : View → View) : (s.modView k f).histBuf = s.histBuf := rfl
@[simp] theorem State.modView_security (s : State) (k : Nat) (f : View → View) : (s.modView k f).security = s.security := rfl
@[simp] theorem State.modView_tick (s : State) (k : Nat) (f : View → View) : (s.modView k f).tick = s.tick := rfl

/-! ### `State.modReq` -/

@[simp] theorem State.modReq_code (s : State) (k : Nat) (f : Req → Req) : (s.modReq k f).code = s.code := rfl
@[simp] theorem State.modReq_pulses (s : State) (k : Nat) (f : Req → Req) : (s.modReq k f).pulses = s.pulses := rfl
@[simp] theorem State.modReq_cursor (s : State) (k : Nat) (f : Req → Req) : (s.modReq k f).cursor = s.cursor := rfl
@[simp] theorem State.modReq_agenda (s : State) (k : Nat) (f : Req → Req) : (s.modReq k f).agenda = s.agenda := rfl
@[simp] theorem State.modReq_mem (s : State) (k : Nat) (f : Req → Req) : (s.modReq k f).mem = s.mem := rfl
@[simp] theorem State.modReq_owners (s : State) (k : Nat) (f : Req → Req) : (s.modReq k f).owners = s.owners := rfl
@[simp] theorem State.modReq_poison (s : State) (k : Nat) (f : Req → Req) : (s.modReq k f).poison = s.poison := rfl
@[simp] theorem State.modReq_reported (s : State) (k : Nat) (f : Req → Req) : (s.modReq k f).reported = s.reported := rfl
@[simp] theorem State.modReq_corrected (s : State) (k : Nat) (f : Req → Req) : (s.modReq k f).corrected = s.corrected := rfl
@[simp] theorem State.modReq_lastCorr (s : State) (k : Nat) (f : Req → Req) : (s.modReq k f).lastCorr = s.lastCorr := rfl
@[simp] theorem State.modReq_bar0 (s : State) (k : Nat) (f : Req → Req) : (s.modReq k f).bar0 = s.bar0 := rfl
@[simp] theorem State.modReq_queues (s : State) (k : Nat) (f : Req → Req) : (s.modReq k f).queues = s.queues := rfl
@[simp] theorem State.modReq_rings (s : State) (k : Nat) (f : Req → Req) : (s.modReq k f).rings = s.rings := rfl
@[simp] theorem State.modReq_msix (s : State) (k : Nat) (f : Req → Req) : (s.modReq k f).msix = s.msix := rfl
@[simp] theorem State.modReq_ctxs (s : State) (k : Nat) (f : Req → Req) : (s.modReq k f).ctxs = s.ctxs := rfl
@[simp] theorem State.modReq_grids (s : State) (k : Nat) (f : Req → Req) : (s.modReq k f).grids = s.grids := rfl
@[simp] theorem State.modReq_graphs (s : State) (k : Nat) (f : Req → Req) : (s.modReq k f).graphs = s.graphs := rfl
@[simp] theorem State.modReq_blocks (s : State) (k : Nat) (f : Req → Req) : (s.modReq k f).blocks = s.blocks := rfl
@[simp] theorem State.modReq_warps (s : State) (k : Nat) (f : Req → Req) : (s.modReq k f).warps = s.warps := rfl
@[simp] theorem State.modReq_cores (s : State) (k : Nat) (f : Req → Req) : (s.modReq k f).cores = s.cores := rfl
@[simp] theorem State.modReq_clusters (s : State) (k : Nat) (f : Req → Req) : (s.modReq k f).clusters = s.clusters := rfl
@[simp] theorem State.modReq_slices (s : State) (k : Nat) (f : Req → Req) : (s.modReq k f).slices = s.slices := rfl
@[simp] theorem State.modReq_tenants (s : State) (k : Nat) (f : Req → Req) : (s.modReq k f).tenants = s.tenants := rfl
@[simp] theorem State.modReq_views (s : State) (k : Nat) (f : Req → Req) : (s.modReq k f).views = s.views := rfl
@[simp] theorem State.modReq_reqs (s : State) (k : Nat) (f : Req → Req) : (s.modReq k f).reqs = mapModify s.reqs k f := rfl
@[simp] theorem State.modReq_fences (s : State) (k : Nat) (f : Req → Req) : (s.modReq k f).fences = s.fences := rfl
@[simp] theorem State.modReq_copies (s : State) (k : Nat) (f : Req → Req) : (s.modReq k f).copies = s.copies := rfl
@[simp] theorem State.modReq_commits (s : State) (k : Nat) (f : Req → Req) : (s.modReq k f).commits = s.commits := rfl
@[simp] theorem State.modReq_gathers (s : State) (k : Nat) (f : Req → Req) : (s.modReq k f).gathers = s.gathers := rfl
@[simp] theorem State.modReq_pfaults (s : State) (k : Nat) (f : Req → Req) : (s.modReq k f).pfaults = s.pfaults := rfl
@[simp] theorem State.modReq_devLaunches (s : State) (k : Nat) (f : Req → Req) : (s.modReq k f).devLaunches = s.devLaunches := rfl
@[simp] theorem State.modReq_hostTdv (s : State) (k : Nat) (f : Req → Req) : (s.modReq k f).hostTdv = s.hostTdv := rfl
@[simp] theorem State.modReq_outside (s : State) (k : Nat) (f : Req → Req) : (s.modReq k f).outside = s.outside := rfl
@[simp] theorem State.modReq_railMove (s : State) (k : Nat) (f : Req → Req) : (s.modReq k f).railMove = s.railMove := rfl
@[simp] theorem State.modReq_thermalCap (s : State) (k : Nat) (f : Req → Req) : (s.modReq k f).thermalCap = s.thermalCap := rfl
@[simp] theorem State.modReq_coolSince (s : State) (k : Nat) (f : Req → Req) : (s.modReq k f).coolSince = s.coolSince := rfl
@[simp] theorem State.modReq_wakes (s : State) (k : Nat) (f : Req → Req) : (s.modReq k f).wakes = s.wakes := rfl
@[simp] theorem State.modReq_histBuf (s : State) (k : Nat) (f : Req → Req) : (s.modReq k f).histBuf = s.histBuf := rfl
@[simp] theorem State.modReq_security (s : State) (k : Nat) (f : Req → Req) : (s.modReq k f).security = s.security := rfl
@[simp] theorem State.modReq_tick (s : State) (k : Nat) (f : Req → Req) : (s.modReq k f).tick = s.tick := rfl

/-! ### `State.modCopy` -/

@[simp] theorem State.modCopy_code (s : State) (k : Nat) (f : CopyOp → CopyOp) : (s.modCopy k f).code = s.code := rfl
@[simp] theorem State.modCopy_pulses (s : State) (k : Nat) (f : CopyOp → CopyOp) : (s.modCopy k f).pulses = s.pulses := rfl
@[simp] theorem State.modCopy_cursor (s : State) (k : Nat) (f : CopyOp → CopyOp) : (s.modCopy k f).cursor = s.cursor := rfl
@[simp] theorem State.modCopy_agenda (s : State) (k : Nat) (f : CopyOp → CopyOp) : (s.modCopy k f).agenda = s.agenda := rfl
@[simp] theorem State.modCopy_mem (s : State) (k : Nat) (f : CopyOp → CopyOp) : (s.modCopy k f).mem = s.mem := rfl
@[simp] theorem State.modCopy_owners (s : State) (k : Nat) (f : CopyOp → CopyOp) : (s.modCopy k f).owners = s.owners := rfl
@[simp] theorem State.modCopy_poison (s : State) (k : Nat) (f : CopyOp → CopyOp) : (s.modCopy k f).poison = s.poison := rfl
@[simp] theorem State.modCopy_reported (s : State) (k : Nat) (f : CopyOp → CopyOp) : (s.modCopy k f).reported = s.reported := rfl
@[simp] theorem State.modCopy_corrected (s : State) (k : Nat) (f : CopyOp → CopyOp) :
    (s.modCopy k f).corrected = s.corrected := rfl
@[simp] theorem State.modCopy_lastCorr (s : State) (k : Nat) (f : CopyOp → CopyOp) : (s.modCopy k f).lastCorr = s.lastCorr := rfl
@[simp] theorem State.modCopy_bar0 (s : State) (k : Nat) (f : CopyOp → CopyOp) : (s.modCopy k f).bar0 = s.bar0 := rfl
@[simp] theorem State.modCopy_queues (s : State) (k : Nat) (f : CopyOp → CopyOp) : (s.modCopy k f).queues = s.queues := rfl
@[simp] theorem State.modCopy_rings (s : State) (k : Nat) (f : CopyOp → CopyOp) : (s.modCopy k f).rings = s.rings := rfl
@[simp] theorem State.modCopy_msix (s : State) (k : Nat) (f : CopyOp → CopyOp) : (s.modCopy k f).msix = s.msix := rfl
@[simp] theorem State.modCopy_ctxs (s : State) (k : Nat) (f : CopyOp → CopyOp) : (s.modCopy k f).ctxs = s.ctxs := rfl
@[simp] theorem State.modCopy_grids (s : State) (k : Nat) (f : CopyOp → CopyOp) : (s.modCopy k f).grids = s.grids := rfl
@[simp] theorem State.modCopy_graphs (s : State) (k : Nat) (f : CopyOp → CopyOp) : (s.modCopy k f).graphs = s.graphs := rfl
@[simp] theorem State.modCopy_blocks (s : State) (k : Nat) (f : CopyOp → CopyOp) : (s.modCopy k f).blocks = s.blocks := rfl
@[simp] theorem State.modCopy_warps (s : State) (k : Nat) (f : CopyOp → CopyOp) : (s.modCopy k f).warps = s.warps := rfl
@[simp] theorem State.modCopy_cores (s : State) (k : Nat) (f : CopyOp → CopyOp) : (s.modCopy k f).cores = s.cores := rfl
@[simp] theorem State.modCopy_clusters (s : State) (k : Nat) (f : CopyOp → CopyOp) : (s.modCopy k f).clusters = s.clusters := rfl
@[simp] theorem State.modCopy_slices (s : State) (k : Nat) (f : CopyOp → CopyOp) : (s.modCopy k f).slices = s.slices := rfl
@[simp] theorem State.modCopy_tenants (s : State) (k : Nat) (f : CopyOp → CopyOp) : (s.modCopy k f).tenants = s.tenants := rfl
@[simp] theorem State.modCopy_views (s : State) (k : Nat) (f : CopyOp → CopyOp) : (s.modCopy k f).views = s.views := rfl
@[simp] theorem State.modCopy_reqs (s : State) (k : Nat) (f : CopyOp → CopyOp) : (s.modCopy k f).reqs = s.reqs := rfl
@[simp] theorem State.modCopy_fences (s : State) (k : Nat) (f : CopyOp → CopyOp) : (s.modCopy k f).fences = s.fences := rfl
@[simp] theorem State.modCopy_copies (s : State) (k : Nat) (f : CopyOp → CopyOp) :
    (s.modCopy k f).copies = mapModify s.copies k f := rfl
@[simp] theorem State.modCopy_commits (s : State) (k : Nat) (f : CopyOp → CopyOp) : (s.modCopy k f).commits = s.commits := rfl
@[simp] theorem State.modCopy_gathers (s : State) (k : Nat) (f : CopyOp → CopyOp) : (s.modCopy k f).gathers = s.gathers := rfl
@[simp] theorem State.modCopy_pfaults (s : State) (k : Nat) (f : CopyOp → CopyOp) : (s.modCopy k f).pfaults = s.pfaults := rfl
@[simp] theorem State.modCopy_devLaunches (s : State) (k : Nat) (f : CopyOp → CopyOp) :
    (s.modCopy k f).devLaunches = s.devLaunches := rfl
@[simp] theorem State.modCopy_hostTdv (s : State) (k : Nat) (f : CopyOp → CopyOp) : (s.modCopy k f).hostTdv = s.hostTdv := rfl
@[simp] theorem State.modCopy_outside (s : State) (k : Nat) (f : CopyOp → CopyOp) : (s.modCopy k f).outside = s.outside := rfl
@[simp] theorem State.modCopy_railMove (s : State) (k : Nat) (f : CopyOp → CopyOp) : (s.modCopy k f).railMove = s.railMove := rfl
@[simp] theorem State.modCopy_thermalCap (s : State) (k : Nat) (f : CopyOp → CopyOp) :
    (s.modCopy k f).thermalCap = s.thermalCap := rfl
@[simp] theorem State.modCopy_coolSince (s : State) (k : Nat) (f : CopyOp → CopyOp) :
    (s.modCopy k f).coolSince = s.coolSince := rfl
@[simp] theorem State.modCopy_wakes (s : State) (k : Nat) (f : CopyOp → CopyOp) : (s.modCopy k f).wakes = s.wakes := rfl
@[simp] theorem State.modCopy_histBuf (s : State) (k : Nat) (f : CopyOp → CopyOp) : (s.modCopy k f).histBuf = s.histBuf := rfl
@[simp] theorem State.modCopy_security (s : State) (k : Nat) (f : CopyOp → CopyOp) : (s.modCopy k f).security = s.security := rfl
@[simp] theorem State.modCopy_tick (s : State) (k : Nat) (f : CopyOp → CopyOp) : (s.modCopy k f).tick = s.tick := rfl

/-! ### `State.modFence` -/

@[simp] theorem State.modFence_code (s : State) (k : Nat) (f : FenceOp → FenceOp) : (s.modFence k f).code = s.code := rfl
@[simp] theorem State.modFence_pulses (s : State) (k : Nat) (f : FenceOp → FenceOp) : (s.modFence k f).pulses = s.pulses := rfl
@[simp] theorem State.modFence_cursor (s : State) (k : Nat) (f : FenceOp → FenceOp) : (s.modFence k f).cursor = s.cursor := rfl
@[simp] theorem State.modFence_agenda (s : State) (k : Nat) (f : FenceOp → FenceOp) : (s.modFence k f).agenda = s.agenda := rfl
@[simp] theorem State.modFence_mem (s : State) (k : Nat) (f : FenceOp → FenceOp) : (s.modFence k f).mem = s.mem := rfl
@[simp] theorem State.modFence_owners (s : State) (k : Nat) (f : FenceOp → FenceOp) : (s.modFence k f).owners = s.owners := rfl
@[simp] theorem State.modFence_poison (s : State) (k : Nat) (f : FenceOp → FenceOp) : (s.modFence k f).poison = s.poison := rfl
@[simp] theorem State.modFence_reported (s : State) (k : Nat) (f : FenceOp → FenceOp) :
    (s.modFence k f).reported = s.reported := rfl
@[simp] theorem State.modFence_corrected (s : State) (k : Nat) (f : FenceOp → FenceOp) :
    (s.modFence k f).corrected = s.corrected := rfl
@[simp] theorem State.modFence_lastCorr (s : State) (k : Nat) (f : FenceOp → FenceOp) :
    (s.modFence k f).lastCorr = s.lastCorr := rfl
@[simp] theorem State.modFence_bar0 (s : State) (k : Nat) (f : FenceOp → FenceOp) : (s.modFence k f).bar0 = s.bar0 := rfl
@[simp] theorem State.modFence_queues (s : State) (k : Nat) (f : FenceOp → FenceOp) : (s.modFence k f).queues = s.queues := rfl
@[simp] theorem State.modFence_rings (s : State) (k : Nat) (f : FenceOp → FenceOp) : (s.modFence k f).rings = s.rings := rfl
@[simp] theorem State.modFence_msix (s : State) (k : Nat) (f : FenceOp → FenceOp) : (s.modFence k f).msix = s.msix := rfl
@[simp] theorem State.modFence_ctxs (s : State) (k : Nat) (f : FenceOp → FenceOp) : (s.modFence k f).ctxs = s.ctxs := rfl
@[simp] theorem State.modFence_grids (s : State) (k : Nat) (f : FenceOp → FenceOp) : (s.modFence k f).grids = s.grids := rfl
@[simp] theorem State.modFence_graphs (s : State) (k : Nat) (f : FenceOp → FenceOp) : (s.modFence k f).graphs = s.graphs := rfl
@[simp] theorem State.modFence_blocks (s : State) (k : Nat) (f : FenceOp → FenceOp) : (s.modFence k f).blocks = s.blocks := rfl
@[simp] theorem State.modFence_warps (s : State) (k : Nat) (f : FenceOp → FenceOp) : (s.modFence k f).warps = s.warps := rfl
@[simp] theorem State.modFence_cores (s : State) (k : Nat) (f : FenceOp → FenceOp) : (s.modFence k f).cores = s.cores := rfl
@[simp] theorem State.modFence_clusters (s : State) (k : Nat) (f : FenceOp → FenceOp) :
    (s.modFence k f).clusters = s.clusters := rfl
@[simp] theorem State.modFence_slices (s : State) (k : Nat) (f : FenceOp → FenceOp) : (s.modFence k f).slices = s.slices := rfl
@[simp] theorem State.modFence_tenants (s : State) (k : Nat) (f : FenceOp → FenceOp) : (s.modFence k f).tenants = s.tenants := rfl
@[simp] theorem State.modFence_views (s : State) (k : Nat) (f : FenceOp → FenceOp) : (s.modFence k f).views = s.views := rfl
@[simp] theorem State.modFence_reqs (s : State) (k : Nat) (f : FenceOp → FenceOp) : (s.modFence k f).reqs = s.reqs := rfl
@[simp] theorem State.modFence_fences (s : State) (k : Nat) (f : FenceOp → FenceOp) :
    (s.modFence k f).fences = mapModify s.fences k f := rfl
@[simp] theorem State.modFence_copies (s : State) (k : Nat) (f : FenceOp → FenceOp) : (s.modFence k f).copies = s.copies := rfl
@[simp] theorem State.modFence_commits (s : State) (k : Nat) (f : FenceOp → FenceOp) : (s.modFence k f).commits = s.commits := rfl
@[simp] theorem State.modFence_gathers (s : State) (k : Nat) (f : FenceOp → FenceOp) : (s.modFence k f).gathers = s.gathers := rfl
@[simp] theorem State.modFence_pfaults (s : State) (k : Nat) (f : FenceOp → FenceOp) : (s.modFence k f).pfaults = s.pfaults := rfl
@[simp] theorem State.modFence_devLaunches (s : State) (k : Nat) (f : FenceOp → FenceOp) :
    (s.modFence k f).devLaunches = s.devLaunches := rfl
@[simp] theorem State.modFence_hostTdv (s : State) (k : Nat) (f : FenceOp → FenceOp) : (s.modFence k f).hostTdv = s.hostTdv := rfl
@[simp] theorem State.modFence_outside (s : State) (k : Nat) (f : FenceOp → FenceOp) : (s.modFence k f).outside = s.outside := rfl
@[simp] theorem State.modFence_railMove (s : State) (k : Nat) (f : FenceOp → FenceOp) :
    (s.modFence k f).railMove = s.railMove := rfl
@[simp] theorem State.modFence_thermalCap (s : State) (k : Nat) (f : FenceOp → FenceOp) :
    (s.modFence k f).thermalCap = s.thermalCap := rfl
@[simp] theorem State.modFence_coolSince (s : State) (k : Nat) (f : FenceOp → FenceOp) :
    (s.modFence k f).coolSince = s.coolSince := rfl
@[simp] theorem State.modFence_wakes (s : State) (k : Nat) (f : FenceOp → FenceOp) : (s.modFence k f).wakes = s.wakes := rfl
@[simp] theorem State.modFence_histBuf (s : State) (k : Nat) (f : FenceOp → FenceOp) : (s.modFence k f).histBuf = s.histBuf := rfl
@[simp] theorem State.modFence_security (s : State) (k : Nat) (f : FenceOp → FenceOp) :
    (s.modFence k f).security = s.security := rfl
@[simp] theorem State.modFence_tick (s : State) (k : Nat) (f : FenceOp → FenceOp) : (s.modFence k f).tick = s.tick := rfl

/-! ### `State.next` -/

@[simp] theorem State.next_code (s : State) : (s.next).code = s.code := rfl
@[simp] theorem State.next_pulses (s : State) : (s.next).pulses = s.pulses := rfl
@[simp] theorem State.next_cursor (s : State) : (s.next).cursor = s.cursor := rfl
@[simp] theorem State.next_agenda (s : State) : (s.next).agenda = s.agenda := rfl
@[simp] theorem State.next_mem (s : State) : (s.next).mem = s.mem := rfl
@[simp] theorem State.next_owners (s : State) : (s.next).owners = s.owners := rfl
@[simp] theorem State.next_poison (s : State) : (s.next).poison = s.poison := rfl
@[simp] theorem State.next_reported (s : State) : (s.next).reported = s.reported := rfl
@[simp] theorem State.next_corrected (s : State) : (s.next).corrected = s.corrected := rfl
@[simp] theorem State.next_lastCorr (s : State) : (s.next).lastCorr = s.lastCorr := rfl
@[simp] theorem State.next_bar0 (s : State) : (s.next).bar0 = s.bar0 := rfl
@[simp] theorem State.next_queues (s : State) : (s.next).queues = s.queues := rfl
@[simp] theorem State.next_rings (s : State) : (s.next).rings = s.rings := rfl
@[simp] theorem State.next_msix (s : State) : (s.next).msix = s.msix := rfl
@[simp] theorem State.next_ctxs (s : State) : (s.next).ctxs = s.ctxs := rfl
@[simp] theorem State.next_grids (s : State) : (s.next).grids = s.grids := rfl
@[simp] theorem State.next_graphs (s : State) : (s.next).graphs = s.graphs := rfl
@[simp] theorem State.next_blocks (s : State) : (s.next).blocks = s.blocks := rfl
@[simp] theorem State.next_warps (s : State) : (s.next).warps = s.warps := rfl
@[simp] theorem State.next_cores (s : State) : (s.next).cores = s.cores := rfl
@[simp] theorem State.next_clusters (s : State) : (s.next).clusters = s.clusters := rfl
@[simp] theorem State.next_slices (s : State) : (s.next).slices = s.slices := rfl
@[simp] theorem State.next_tenants (s : State) : (s.next).tenants = s.tenants := rfl
@[simp] theorem State.next_views (s : State) : (s.next).views = s.views := rfl
@[simp] theorem State.next_reqs (s : State) : (s.next).reqs = s.reqs := rfl
@[simp] theorem State.next_fences (s : State) : (s.next).fences = s.fences := rfl
@[simp] theorem State.next_copies (s : State) : (s.next).copies = s.copies := rfl
@[simp] theorem State.next_commits (s : State) : (s.next).commits = s.commits := rfl
@[simp] theorem State.next_gathers (s : State) : (s.next).gathers = s.gathers := rfl
@[simp] theorem State.next_pfaults (s : State) : (s.next).pfaults = s.pfaults := rfl
@[simp] theorem State.next_devLaunches (s : State) : (s.next).devLaunches = s.devLaunches := rfl
@[simp] theorem State.next_hostTdv (s : State) : (s.next).hostTdv = s.hostTdv := rfl
@[simp] theorem State.next_outside (s : State) : (s.next).outside = s.outside := rfl
@[simp] theorem State.next_railMove (s : State) : (s.next).railMove = s.railMove := rfl
@[simp] theorem State.next_thermalCap (s : State) : (s.next).thermalCap = s.thermalCap := rfl
@[simp] theorem State.next_coolSince (s : State) : (s.next).coolSince = s.coolSince := rfl
@[simp] theorem State.next_wakes (s : State) : (s.next).wakes = s.wakes := rfl
@[simp] theorem State.next_histBuf (s : State) : (s.next).histBuf = s.histBuf := rfl
@[simp] theorem State.next_security (s : State) : (s.next).security = s.security := rfl
@[simp] theorem State.next_tick (s : State) : (s.next).tick = s.tick + 1 := rfl

/-! ### `State.modLane` -/

@[simp] theorem State.modLane_code (s : State) (w l : Nat) (f : Lane → Lane) : (s.modLane w l f).code = s.code := rfl
@[simp] theorem State.modLane_pulses (s : State) (w l : Nat) (f : Lane → Lane) : (s.modLane w l f).pulses = s.pulses := rfl
@[simp] theorem State.modLane_cursor (s : State) (w l : Nat) (f : Lane → Lane) : (s.modLane w l f).cursor = s.cursor := rfl
@[simp] theorem State.modLane_agenda (s : State) (w l : Nat) (f : Lane → Lane) : (s.modLane w l f).agenda = s.agenda := rfl
@[simp] theorem State.modLane_mem (s : State) (w l : Nat) (f : Lane → Lane) : (s.modLane w l f).mem = s.mem := rfl
@[simp] theorem State.modLane_owners (s : State) (w l : Nat) (f : Lane → Lane) : (s.modLane w l f).owners = s.owners := rfl
@[simp] theorem State.modLane_poison (s : State) (w l : Nat) (f : Lane → Lane) : (s.modLane w l f).poison = s.poison := rfl
@[simp] theorem State.modLane_reported (s : State) (w l : Nat) (f : Lane → Lane) : (s.modLane w l f).reported = s.reported := rfl
@[simp] theorem State.modLane_corrected (s : State) (w l : Nat) (f : Lane → Lane) :
    (s.modLane w l f).corrected = s.corrected := rfl
@[simp] theorem State.modLane_lastCorr (s : State) (w l : Nat) (f : Lane → Lane) : (s.modLane w l f).lastCorr = s.lastCorr := rfl
@[simp] theorem State.modLane_bar0 (s : State) (w l : Nat) (f : Lane → Lane) : (s.modLane w l f).bar0 = s.bar0 := rfl
@[simp] theorem State.modLane_queues (s : State) (w l : Nat) (f : Lane → Lane) : (s.modLane w l f).queues = s.queues := rfl
@[simp] theorem State.modLane_rings (s : State) (w l : Nat) (f : Lane → Lane) : (s.modLane w l f).rings = s.rings := rfl
@[simp] theorem State.modLane_msix (s : State) (w l : Nat) (f : Lane → Lane) : (s.modLane w l f).msix = s.msix := rfl
@[simp] theorem State.modLane_ctxs (s : State) (w l : Nat) (f : Lane → Lane) : (s.modLane w l f).ctxs = s.ctxs := rfl
@[simp] theorem State.modLane_grids (s : State) (w l : Nat) (f : Lane → Lane) : (s.modLane w l f).grids = s.grids := rfl
@[simp] theorem State.modLane_graphs (s : State) (w l : Nat) (f : Lane → Lane) : (s.modLane w l f).graphs = s.graphs := rfl
@[simp] theorem State.modLane_blocks (s : State) (w l : Nat) (f : Lane → Lane) : (s.modLane w l f).blocks = s.blocks := rfl
@[simp] theorem State.modLane_warps (s : State) (w l : Nat) (f : Lane → Lane) :
    (s.modLane w l f).warps = mapModify s.warps w (fun wp => wp.modLane l f) := rfl
@[simp] theorem State.modLane_cores (s : State) (w l : Nat) (f : Lane → Lane) : (s.modLane w l f).cores = s.cores := rfl
@[simp] theorem State.modLane_clusters (s : State) (w l : Nat) (f : Lane → Lane) : (s.modLane w l f).clusters = s.clusters := rfl
@[simp] theorem State.modLane_slices (s : State) (w l : Nat) (f : Lane → Lane) : (s.modLane w l f).slices = s.slices := rfl
@[simp] theorem State.modLane_tenants (s : State) (w l : Nat) (f : Lane → Lane) : (s.modLane w l f).tenants = s.tenants := rfl
@[simp] theorem State.modLane_views (s : State) (w l : Nat) (f : Lane → Lane) : (s.modLane w l f).views = s.views := rfl
@[simp] theorem State.modLane_reqs (s : State) (w l : Nat) (f : Lane → Lane) : (s.modLane w l f).reqs = s.reqs := rfl
@[simp] theorem State.modLane_fences (s : State) (w l : Nat) (f : Lane → Lane) : (s.modLane w l f).fences = s.fences := rfl
@[simp] theorem State.modLane_copies (s : State) (w l : Nat) (f : Lane → Lane) : (s.modLane w l f).copies = s.copies := rfl
@[simp] theorem State.modLane_commits (s : State) (w l : Nat) (f : Lane → Lane) : (s.modLane w l f).commits = s.commits := rfl
@[simp] theorem State.modLane_gathers (s : State) (w l : Nat) (f : Lane → Lane) : (s.modLane w l f).gathers = s.gathers := rfl
@[simp] theorem State.modLane_pfaults (s : State) (w l : Nat) (f : Lane → Lane) : (s.modLane w l f).pfaults = s.pfaults := rfl
@[simp] theorem State.modLane_devLaunches (s : State) (w l : Nat) (f : Lane → Lane) :
    (s.modLane w l f).devLaunches = s.devLaunches := rfl
@[simp] theorem State.modLane_hostTdv (s : State) (w l : Nat) (f : Lane → Lane) : (s.modLane w l f).hostTdv = s.hostTdv := rfl
@[simp] theorem State.modLane_outside (s : State) (w l : Nat) (f : Lane → Lane) : (s.modLane w l f).outside = s.outside := rfl
@[simp] theorem State.modLane_railMove (s : State) (w l : Nat) (f : Lane → Lane) : (s.modLane w l f).railMove = s.railMove := rfl
@[simp] theorem State.modLane_thermalCap (s : State) (w l : Nat) (f : Lane → Lane) :
    (s.modLane w l f).thermalCap = s.thermalCap := rfl
@[simp] theorem State.modLane_coolSince (s : State) (w l : Nat) (f : Lane → Lane) :
    (s.modLane w l f).coolSince = s.coolSince := rfl
@[simp] theorem State.modLane_wakes (s : State) (w l : Nat) (f : Lane → Lane) : (s.modLane w l f).wakes = s.wakes := rfl
@[simp] theorem State.modLane_histBuf (s : State) (w l : Nat) (f : Lane → Lane) : (s.modLane w l f).histBuf = s.histBuf := rfl
@[simp] theorem State.modLane_security (s : State) (w l : Nat) (f : Lane → Lane) : (s.modLane w l f).security = s.security := rfl
@[simp] theorem State.modLane_tick (s : State) (w l : Nat) (f : Lane → Lane) : (s.modLane w l f).tick = s.tick := rfl

/-! ### `State.modLanes` -/

@[simp] theorem State.modLanes_code (s : State) (w : Nat) (ls : List Nat) (f : Lane → Lane) :
    (s.modLanes w ls f).code = s.code := rfl
@[simp] theorem State.modLanes_pulses (s : State) (w : Nat) (ls : List Nat) (f : Lane → Lane) :
    (s.modLanes w ls f).pulses = s.pulses := rfl
@[simp] theorem State.modLanes_cursor (s : State) (w : Nat) (ls : List Nat) (f : Lane → Lane) :
    (s.modLanes w ls f).cursor = s.cursor := rfl
@[simp] theorem State.modLanes_agenda (s : State) (w : Nat) (ls : List Nat) (f : Lane → Lane) :
    (s.modLanes w ls f).agenda = s.agenda := rfl
@[simp] theorem State.modLanes_mem (s : State) (w : Nat) (ls : List Nat) (f : Lane → Lane) :
    (s.modLanes w ls f).mem = s.mem := rfl
@[simp] theorem State.modLanes_owners (s : State) (w : Nat) (ls : List Nat) (f : Lane → Lane) :
    (s.modLanes w ls f).owners = s.owners := rfl
@[simp] theorem State.modLanes_poison (s : State) (w : Nat) (ls : List Nat) (f : Lane → Lane) :
    (s.modLanes w ls f).poison = s.poison := rfl
@[simp] theorem State.modLanes_reported (s : State) (w : Nat) (ls : List Nat) (f : Lane → Lane) :
    (s.modLanes w ls f).reported = s.reported := rfl
@[simp] theorem State.modLanes_corrected (s : State) (w : Nat) (ls : List Nat) (f : Lane → Lane) :
    (s.modLanes w ls f).corrected = s.corrected := rfl
@[simp] theorem State.modLanes_lastCorr (s : State) (w : Nat) (ls : List Nat) (f : Lane → Lane) :
    (s.modLanes w ls f).lastCorr = s.lastCorr := rfl
@[simp] theorem State.modLanes_bar0 (s : State) (w : Nat) (ls : List Nat) (f : Lane → Lane) :
    (s.modLanes w ls f).bar0 = s.bar0 := rfl
@[simp] theorem State.modLanes_queues (s : State) (w : Nat) (ls : List Nat) (f : Lane → Lane) :
    (s.modLanes w ls f).queues = s.queues := rfl
@[simp] theorem State.modLanes_rings (s : State) (w : Nat) (ls : List Nat) (f : Lane → Lane) :
    (s.modLanes w ls f).rings = s.rings := rfl
@[simp] theorem State.modLanes_msix (s : State) (w : Nat) (ls : List Nat) (f : Lane → Lane) :
    (s.modLanes w ls f).msix = s.msix := rfl
@[simp] theorem State.modLanes_ctxs (s : State) (w : Nat) (ls : List Nat) (f : Lane → Lane) :
    (s.modLanes w ls f).ctxs = s.ctxs := rfl
@[simp] theorem State.modLanes_grids (s : State) (w : Nat) (ls : List Nat) (f : Lane → Lane) :
    (s.modLanes w ls f).grids = s.grids := rfl
@[simp] theorem State.modLanes_graphs (s : State) (w : Nat) (ls : List Nat) (f : Lane → Lane) :
    (s.modLanes w ls f).graphs = s.graphs := rfl
@[simp] theorem State.modLanes_blocks (s : State) (w : Nat) (ls : List Nat) (f : Lane → Lane) :
    (s.modLanes w ls f).blocks = s.blocks := rfl
@[simp] theorem State.modLanes_warps (s : State) (w : Nat) (ls : List Nat) (f : Lane → Lane) :
    (s.modLanes w ls f).warps = mapModify s.warps w (fun wp => wp.modLanes ls f) := rfl
@[simp] theorem State.modLanes_cores (s : State) (w : Nat) (ls : List Nat) (f : Lane → Lane) :
    (s.modLanes w ls f).cores = s.cores := rfl
@[simp] theorem State.modLanes_clusters (s : State) (w : Nat) (ls : List Nat) (f : Lane → Lane) :
    (s.modLanes w ls f).clusters = s.clusters := rfl
@[simp] theorem State.modLanes_slices (s : State) (w : Nat) (ls : List Nat) (f : Lane → Lane) :
    (s.modLanes w ls f).slices = s.slices := rfl
@[simp] theorem State.modLanes_tenants (s : State) (w : Nat) (ls : List Nat) (f : Lane → Lane) :
    (s.modLanes w ls f).tenants = s.tenants := rfl
@[simp] theorem State.modLanes_views (s : State) (w : Nat) (ls : List Nat) (f : Lane → Lane) :
    (s.modLanes w ls f).views = s.views := rfl
@[simp] theorem State.modLanes_reqs (s : State) (w : Nat) (ls : List Nat) (f : Lane → Lane) :
    (s.modLanes w ls f).reqs = s.reqs := rfl
@[simp] theorem State.modLanes_fences (s : State) (w : Nat) (ls : List Nat) (f : Lane → Lane) :
    (s.modLanes w ls f).fences = s.fences := rfl
@[simp] theorem State.modLanes_copies (s : State) (w : Nat) (ls : List Nat) (f : Lane → Lane) :
    (s.modLanes w ls f).copies = s.copies := rfl
@[simp] theorem State.modLanes_commits (s : State) (w : Nat) (ls : List Nat) (f : Lane → Lane) :
    (s.modLanes w ls f).commits = s.commits := rfl
@[simp] theorem State.modLanes_gathers (s : State) (w : Nat) (ls : List Nat) (f : Lane → Lane) :
    (s.modLanes w ls f).gathers = s.gathers := rfl
@[simp] theorem State.modLanes_pfaults (s : State) (w : Nat) (ls : List Nat) (f : Lane → Lane) :
    (s.modLanes w ls f).pfaults = s.pfaults := rfl
@[simp] theorem State.modLanes_devLaunches (s : State) (w : Nat) (ls : List Nat) (f : Lane → Lane) :
    (s.modLanes w ls f).devLaunches = s.devLaunches := rfl
@[simp] theorem State.modLanes_hostTdv (s : State) (w : Nat) (ls : List Nat) (f : Lane → Lane) :
    (s.modLanes w ls f).hostTdv = s.hostTdv := rfl
@[simp] theorem State.modLanes_outside (s : State) (w : Nat) (ls : List Nat) (f : Lane → Lane) :
    (s.modLanes w ls f).outside = s.outside := rfl
@[simp] theorem State.modLanes_railMove (s : State) (w : Nat) (ls : List Nat) (f : Lane → Lane) :
    (s.modLanes w ls f).railMove = s.railMove := rfl
@[simp] theorem State.modLanes_thermalCap (s : State) (w : Nat) (ls : List Nat) (f : Lane → Lane) :
    (s.modLanes w ls f).thermalCap = s.thermalCap := rfl
@[simp] theorem State.modLanes_coolSince (s : State) (w : Nat) (ls : List Nat) (f : Lane → Lane) :
    (s.modLanes w ls f).coolSince = s.coolSince := rfl
@[simp] theorem State.modLanes_wakes (s : State) (w : Nat) (ls : List Nat) (f : Lane → Lane) :
    (s.modLanes w ls f).wakes = s.wakes := rfl
@[simp] theorem State.modLanes_histBuf (s : State) (w : Nat) (ls : List Nat) (f : Lane → Lane) :
    (s.modLanes w ls f).histBuf = s.histBuf := rfl
@[simp] theorem State.modLanes_security (s : State) (w : Nat) (ls : List Nat) (f : Lane → Lane) :
    (s.modLanes w ls f).security = s.security := rfl
@[simp] theorem State.modLanes_tick (s : State) (w : Nat) (ls : List Nat) (f : Lane → Lane) :
    (s.modLanes w ls f).tick = s.tick := rfl

/-! ### `State.writePhys` -/

@[simp] theorem State.writePhys_code (s : State) (a : Nat) (bs : List (BitVec 8)) : (s.writePhys a bs).code = s.code := rfl
@[simp] theorem State.writePhys_pulses (s : State) (a : Nat) (bs : List (BitVec 8)) : (s.writePhys a bs).pulses = s.pulses := rfl
@[simp] theorem State.writePhys_cursor (s : State) (a : Nat) (bs : List (BitVec 8)) : (s.writePhys a bs).cursor = s.cursor := rfl
@[simp] theorem State.writePhys_agenda (s : State) (a : Nat) (bs : List (BitVec 8)) : (s.writePhys a bs).agenda = s.agenda := rfl
@[simp] theorem State.writePhys_mem (s : State) (a : Nat) (bs : List (BitVec 8)) :
    (s.writePhys a bs).mem = writeMemBytes s.mem a bs := rfl
@[simp] theorem State.writePhys_owners (s : State) (a : Nat) (bs : List (BitVec 8)) : (s.writePhys a bs).owners = s.owners := rfl
@[simp] theorem State.writePhys_poison (s : State) (a : Nat) (bs : List (BitVec 8)) : (s.writePhys a bs).poison = s.poison := rfl
@[simp] theorem State.writePhys_reported (s : State) (a : Nat) (bs : List (BitVec 8)) :
    (s.writePhys a bs).reported = s.reported := rfl
@[simp] theorem State.writePhys_corrected (s : State) (a : Nat) (bs : List (BitVec 8)) :
    (s.writePhys a bs).corrected = s.corrected := rfl
@[simp] theorem State.writePhys_lastCorr (s : State) (a : Nat) (bs : List (BitVec 8)) :
    (s.writePhys a bs).lastCorr = s.lastCorr := rfl
@[simp] theorem State.writePhys_bar0 (s : State) (a : Nat) (bs : List (BitVec 8)) : (s.writePhys a bs).bar0 = s.bar0 := rfl
@[simp] theorem State.writePhys_queues (s : State) (a : Nat) (bs : List (BitVec 8)) : (s.writePhys a bs).queues = s.queues := rfl
@[simp] theorem State.writePhys_rings (s : State) (a : Nat) (bs : List (BitVec 8)) : (s.writePhys a bs).rings = s.rings := rfl
@[simp] theorem State.writePhys_msix (s : State) (a : Nat) (bs : List (BitVec 8)) : (s.writePhys a bs).msix = s.msix := rfl
@[simp] theorem State.writePhys_ctxs (s : State) (a : Nat) (bs : List (BitVec 8)) : (s.writePhys a bs).ctxs = s.ctxs := rfl
@[simp] theorem State.writePhys_grids (s : State) (a : Nat) (bs : List (BitVec 8)) : (s.writePhys a bs).grids = s.grids := rfl
@[simp] theorem State.writePhys_graphs (s : State) (a : Nat) (bs : List (BitVec 8)) : (s.writePhys a bs).graphs = s.graphs := rfl
@[simp] theorem State.writePhys_blocks (s : State) (a : Nat) (bs : List (BitVec 8)) : (s.writePhys a bs).blocks = s.blocks := rfl
@[simp] theorem State.writePhys_warps (s : State) (a : Nat) (bs : List (BitVec 8)) : (s.writePhys a bs).warps = s.warps := rfl
@[simp] theorem State.writePhys_cores (s : State) (a : Nat) (bs : List (BitVec 8)) : (s.writePhys a bs).cores = s.cores := rfl
@[simp] theorem State.writePhys_clusters (s : State) (a : Nat) (bs : List (BitVec 8)) :
    (s.writePhys a bs).clusters = s.clusters := rfl
@[simp] theorem State.writePhys_slices (s : State) (a : Nat) (bs : List (BitVec 8)) : (s.writePhys a bs).slices = s.slices := rfl
@[simp] theorem State.writePhys_tenants (s : State) (a : Nat) (bs : List (BitVec 8)) :
    (s.writePhys a bs).tenants = s.tenants := rfl
@[simp] theorem State.writePhys_views (s : State) (a : Nat) (bs : List (BitVec 8)) : (s.writePhys a bs).views = s.views := rfl
@[simp] theorem State.writePhys_reqs (s : State) (a : Nat) (bs : List (BitVec 8)) : (s.writePhys a bs).reqs = s.reqs := rfl
@[simp] theorem State.writePhys_fences (s : State) (a : Nat) (bs : List (BitVec 8)) : (s.writePhys a bs).fences = s.fences := rfl
@[simp] theorem State.writePhys_copies (s : State) (a : Nat) (bs : List (BitVec 8)) : (s.writePhys a bs).copies = s.copies := rfl
@[simp] theorem State.writePhys_commits (s : State) (a : Nat) (bs : List (BitVec 8)) :
    (s.writePhys a bs).commits = s.commits := rfl
@[simp] theorem State.writePhys_gathers (s : State) (a : Nat) (bs : List (BitVec 8)) :
    (s.writePhys a bs).gathers = s.gathers := rfl
@[simp] theorem State.writePhys_pfaults (s : State) (a : Nat) (bs : List (BitVec 8)) :
    (s.writePhys a bs).pfaults = s.pfaults := rfl
@[simp] theorem State.writePhys_devLaunches (s : State) (a : Nat) (bs : List (BitVec 8)) :
    (s.writePhys a bs).devLaunches = s.devLaunches := rfl
@[simp] theorem State.writePhys_hostTdv (s : State) (a : Nat) (bs : List (BitVec 8)) :
    (s.writePhys a bs).hostTdv = s.hostTdv := rfl
@[simp] theorem State.writePhys_outside (s : State) (a : Nat) (bs : List (BitVec 8)) :
    (s.writePhys a bs).outside = s.outside := rfl
@[simp] theorem State.writePhys_railMove (s : State) (a : Nat) (bs : List (BitVec 8)) :
    (s.writePhys a bs).railMove = s.railMove := rfl
@[simp] theorem State.writePhys_thermalCap (s : State) (a : Nat) (bs : List (BitVec 8)) :
    (s.writePhys a bs).thermalCap = s.thermalCap := rfl
@[simp] theorem State.writePhys_coolSince (s : State) (a : Nat) (bs : List (BitVec 8)) :
    (s.writePhys a bs).coolSince = s.coolSince := rfl
@[simp] theorem State.writePhys_wakes (s : State) (a : Nat) (bs : List (BitVec 8)) : (s.writePhys a bs).wakes = s.wakes := rfl
@[simp] theorem State.writePhys_histBuf (s : State) (a : Nat) (bs : List (BitVec 8)) :
    (s.writePhys a bs).histBuf = s.histBuf := rfl
@[simp] theorem State.writePhys_security (s : State) (a : Nat) (bs : List (BitVec 8)) :
    (s.writePhys a bs).security = s.security := rfl
@[simp] theorem State.writePhys_tick (s : State) (a : Nat) (bs : List (BitVec 8)) : (s.writePhys a bs).tick = s.tick := rfl

/-! ### `State.setReg` -/

@[simp] theorem State.setReg_code (s : State) (o : Nat) (v : DWord) : (s.setReg o v).code = s.code := rfl
@[simp] theorem State.setReg_pulses (s : State) (o : Nat) (v : DWord) : (s.setReg o v).pulses = s.pulses := rfl
@[simp] theorem State.setReg_cursor (s : State) (o : Nat) (v : DWord) : (s.setReg o v).cursor = s.cursor := rfl
@[simp] theorem State.setReg_agenda (s : State) (o : Nat) (v : DWord) : (s.setReg o v).agenda = s.agenda := rfl
@[simp] theorem State.setReg_mem (s : State) (o : Nat) (v : DWord) : (s.setReg o v).mem = s.mem := rfl
@[simp] theorem State.setReg_owners (s : State) (o : Nat) (v : DWord) : (s.setReg o v).owners = s.owners := rfl
@[simp] theorem State.setReg_poison (s : State) (o : Nat) (v : DWord) : (s.setReg o v).poison = s.poison := rfl
@[simp] theorem State.setReg_reported (s : State) (o : Nat) (v : DWord) : (s.setReg o v).reported = s.reported := rfl
@[simp] theorem State.setReg_corrected (s : State) (o : Nat) (v : DWord) : (s.setReg o v).corrected = s.corrected := rfl
@[simp] theorem State.setReg_lastCorr (s : State) (o : Nat) (v : DWord) : (s.setReg o v).lastCorr = s.lastCorr := rfl
@[simp] theorem State.setReg_bar0 (s : State) (o : Nat) (v : DWord) :
    (s.setReg o v).bar0 = mapPut (regReset s.code o) s.bar0 o v := rfl
@[simp] theorem State.setReg_queues (s : State) (o : Nat) (v : DWord) : (s.setReg o v).queues = s.queues := rfl
@[simp] theorem State.setReg_rings (s : State) (o : Nat) (v : DWord) : (s.setReg o v).rings = s.rings := rfl
@[simp] theorem State.setReg_msix (s : State) (o : Nat) (v : DWord) : (s.setReg o v).msix = s.msix := rfl
@[simp] theorem State.setReg_ctxs (s : State) (o : Nat) (v : DWord) : (s.setReg o v).ctxs = s.ctxs := rfl
@[simp] theorem State.setReg_grids (s : State) (o : Nat) (v : DWord) : (s.setReg o v).grids = s.grids := rfl
@[simp] theorem State.setReg_graphs (s : State) (o : Nat) (v : DWord) : (s.setReg o v).graphs = s.graphs := rfl
@[simp] theorem State.setReg_blocks (s : State) (o : Nat) (v : DWord) : (s.setReg o v).blocks = s.blocks := rfl
@[simp] theorem State.setReg_warps (s : State) (o : Nat) (v : DWord) : (s.setReg o v).warps = s.warps := rfl
@[simp] theorem State.setReg_cores (s : State) (o : Nat) (v : DWord) : (s.setReg o v).cores = s.cores := rfl
@[simp] theorem State.setReg_clusters (s : State) (o : Nat) (v : DWord) : (s.setReg o v).clusters = s.clusters := rfl
@[simp] theorem State.setReg_slices (s : State) (o : Nat) (v : DWord) : (s.setReg o v).slices = s.slices := rfl
@[simp] theorem State.setReg_tenants (s : State) (o : Nat) (v : DWord) : (s.setReg o v).tenants = s.tenants := rfl
@[simp] theorem State.setReg_views (s : State) (o : Nat) (v : DWord) : (s.setReg o v).views = s.views := rfl
@[simp] theorem State.setReg_reqs (s : State) (o : Nat) (v : DWord) : (s.setReg o v).reqs = s.reqs := rfl
@[simp] theorem State.setReg_fences (s : State) (o : Nat) (v : DWord) : (s.setReg o v).fences = s.fences := rfl
@[simp] theorem State.setReg_copies (s : State) (o : Nat) (v : DWord) : (s.setReg o v).copies = s.copies := rfl
@[simp] theorem State.setReg_commits (s : State) (o : Nat) (v : DWord) : (s.setReg o v).commits = s.commits := rfl
@[simp] theorem State.setReg_gathers (s : State) (o : Nat) (v : DWord) : (s.setReg o v).gathers = s.gathers := rfl
@[simp] theorem State.setReg_pfaults (s : State) (o : Nat) (v : DWord) : (s.setReg o v).pfaults = s.pfaults := rfl
@[simp] theorem State.setReg_devLaunches (s : State) (o : Nat) (v : DWord) : (s.setReg o v).devLaunches = s.devLaunches := rfl
@[simp] theorem State.setReg_hostTdv (s : State) (o : Nat) (v : DWord) : (s.setReg o v).hostTdv = s.hostTdv := rfl
@[simp] theorem State.setReg_outside (s : State) (o : Nat) (v : DWord) : (s.setReg o v).outside = s.outside := rfl
@[simp] theorem State.setReg_railMove (s : State) (o : Nat) (v : DWord) : (s.setReg o v).railMove = s.railMove := rfl
@[simp] theorem State.setReg_thermalCap (s : State) (o : Nat) (v : DWord) : (s.setReg o v).thermalCap = s.thermalCap := rfl
@[simp] theorem State.setReg_coolSince (s : State) (o : Nat) (v : DWord) : (s.setReg o v).coolSince = s.coolSince := rfl
@[simp] theorem State.setReg_wakes (s : State) (o : Nat) (v : DWord) : (s.setReg o v).wakes = s.wakes := rfl
@[simp] theorem State.setReg_histBuf (s : State) (o : Nat) (v : DWord) : (s.setReg o v).histBuf = s.histBuf := rfl
@[simp] theorem State.setReg_security (s : State) (o : Nat) (v : DWord) : (s.setReg o v).security = s.security := rfl
@[simp] theorem State.setReg_tick (s : State) (o : Nat) (v : DWord) : (s.setReg o v).tick = s.tick := rfl

/-! ### `State.advance` -/

@[simp] theorem State.advance_code (s : State) (n : Nat) : (s.advance n).code = s.code := rfl
@[simp] theorem State.advance_pulses (s : State) (n : Nat) : (s.advance n).pulses = s.pulses + n := rfl
@[simp] theorem State.advance_cursor (s : State) (n : Nat) : (s.advance n).cursor = s.cursor := rfl
@[simp] theorem State.advance_agenda (s : State) (n : Nat) : (s.advance n).agenda = s.agenda := rfl
@[simp] theorem State.advance_mem (s : State) (n : Nat) : (s.advance n).mem = s.mem := rfl
@[simp] theorem State.advance_owners (s : State) (n : Nat) : (s.advance n).owners = s.owners := rfl
@[simp] theorem State.advance_poison (s : State) (n : Nat) : (s.advance n).poison = s.poison := rfl
@[simp] theorem State.advance_reported (s : State) (n : Nat) : (s.advance n).reported = s.reported := rfl
@[simp] theorem State.advance_corrected (s : State) (n : Nat) : (s.advance n).corrected = s.corrected := rfl
@[simp] theorem State.advance_lastCorr (s : State) (n : Nat) : (s.advance n).lastCorr = s.lastCorr := rfl
@[simp] theorem State.advance_bar0 (s : State) (n : Nat) : (s.advance n).bar0 = s.bar0 := rfl
@[simp] theorem State.advance_queues (s : State) (n : Nat) : (s.advance n).queues = s.queues := rfl
@[simp] theorem State.advance_rings (s : State) (n : Nat) : (s.advance n).rings = s.rings := rfl
@[simp] theorem State.advance_msix (s : State) (n : Nat) : (s.advance n).msix = s.msix := rfl
@[simp] theorem State.advance_ctxs (s : State) (n : Nat) : (s.advance n).ctxs = s.ctxs := rfl
@[simp] theorem State.advance_grids (s : State) (n : Nat) : (s.advance n).grids = s.grids := rfl
@[simp] theorem State.advance_graphs (s : State) (n : Nat) : (s.advance n).graphs = s.graphs := rfl
@[simp] theorem State.advance_blocks (s : State) (n : Nat) : (s.advance n).blocks = s.blocks := rfl
@[simp] theorem State.advance_warps (s : State) (n : Nat) : (s.advance n).warps = s.warps := rfl
@[simp] theorem State.advance_cores (s : State) (n : Nat) : (s.advance n).cores = s.cores := rfl
@[simp] theorem State.advance_clusters (s : State) (n : Nat) : (s.advance n).clusters = s.clusters := rfl
@[simp] theorem State.advance_slices (s : State) (n : Nat) : (s.advance n).slices = s.slices := rfl
@[simp] theorem State.advance_tenants (s : State) (n : Nat) : (s.advance n).tenants = s.tenants := rfl
@[simp] theorem State.advance_views (s : State) (n : Nat) : (s.advance n).views = s.views := rfl
@[simp] theorem State.advance_reqs (s : State) (n : Nat) : (s.advance n).reqs = s.reqs := rfl
@[simp] theorem State.advance_fences (s : State) (n : Nat) : (s.advance n).fences = s.fences := rfl
@[simp] theorem State.advance_copies (s : State) (n : Nat) : (s.advance n).copies = s.copies := rfl
@[simp] theorem State.advance_commits (s : State) (n : Nat) : (s.advance n).commits = s.commits := rfl
@[simp] theorem State.advance_gathers (s : State) (n : Nat) : (s.advance n).gathers = s.gathers := rfl
@[simp] theorem State.advance_pfaults (s : State) (n : Nat) : (s.advance n).pfaults = s.pfaults := rfl
@[simp] theorem State.advance_devLaunches (s : State) (n : Nat) : (s.advance n).devLaunches = s.devLaunches := rfl
@[simp] theorem State.advance_hostTdv (s : State) (n : Nat) : (s.advance n).hostTdv = s.hostTdv := rfl
@[simp] theorem State.advance_outside (s : State) (n : Nat) : (s.advance n).outside = s.outside := rfl
@[simp] theorem State.advance_railMove (s : State) (n : Nat) : (s.advance n).railMove = s.railMove := rfl
@[simp] theorem State.advance_thermalCap (s : State) (n : Nat) : (s.advance n).thermalCap = s.thermalCap := rfl
@[simp] theorem State.advance_coolSince (s : State) (n : Nat) : (s.advance n).coolSince = s.coolSince := rfl
@[simp] theorem State.advance_wakes (s : State) (n : Nat) : (s.advance n).wakes = s.wakes := rfl
@[simp] theorem State.advance_histBuf (s : State) (n : Nat) : (s.advance n).histBuf = s.histBuf := rfl
@[simp] theorem State.advance_security (s : State) (n : Nat) : (s.advance n).security = s.security := rfl
@[simp] theorem State.advance_tick (s : State) (n : Nat) : (s.advance n).tick = s.tick := rfl

/-! ### `State.popCursor` -/

@[simp] theorem State.popCursor_code (s : State) : (s.popCursor).code = s.code := rfl
@[simp] theorem State.popCursor_pulses (s : State) : (s.popCursor).pulses = s.pulses := rfl
@[simp] theorem State.popCursor_cursor (s : State) : (s.popCursor).cursor = s.cursor.tail := rfl
@[simp] theorem State.popCursor_agenda (s : State) : (s.popCursor).agenda = s.agenda := rfl
@[simp] theorem State.popCursor_mem (s : State) : (s.popCursor).mem = s.mem := rfl
@[simp] theorem State.popCursor_owners (s : State) : (s.popCursor).owners = s.owners := rfl
@[simp] theorem State.popCursor_poison (s : State) : (s.popCursor).poison = s.poison := rfl
@[simp] theorem State.popCursor_reported (s : State) : (s.popCursor).reported = s.reported := rfl
@[simp] theorem State.popCursor_corrected (s : State) : (s.popCursor).corrected = s.corrected := rfl
@[simp] theorem State.popCursor_lastCorr (s : State) : (s.popCursor).lastCorr = s.lastCorr := rfl
@[simp] theorem State.popCursor_bar0 (s : State) : (s.popCursor).bar0 = s.bar0 := rfl
@[simp] theorem State.popCursor_queues (s : State) : (s.popCursor).queues = s.queues := rfl
@[simp] theorem State.popCursor_rings (s : State) : (s.popCursor).rings = s.rings := rfl
@[simp] theorem State.popCursor_msix (s : State) : (s.popCursor).msix = s.msix := rfl
@[simp] theorem State.popCursor_ctxs (s : State) : (s.popCursor).ctxs = s.ctxs := rfl
@[simp] theorem State.popCursor_grids (s : State) : (s.popCursor).grids = s.grids := rfl
@[simp] theorem State.popCursor_graphs (s : State) : (s.popCursor).graphs = s.graphs := rfl
@[simp] theorem State.popCursor_blocks (s : State) : (s.popCursor).blocks = s.blocks := rfl
@[simp] theorem State.popCursor_warps (s : State) : (s.popCursor).warps = s.warps := rfl
@[simp] theorem State.popCursor_cores (s : State) : (s.popCursor).cores = s.cores := rfl
@[simp] theorem State.popCursor_clusters (s : State) : (s.popCursor).clusters = s.clusters := rfl
@[simp] theorem State.popCursor_slices (s : State) : (s.popCursor).slices = s.slices := rfl
@[simp] theorem State.popCursor_tenants (s : State) : (s.popCursor).tenants = s.tenants := rfl
@[simp] theorem State.popCursor_views (s : State) : (s.popCursor).views = s.views := rfl
@[simp] theorem State.popCursor_reqs (s : State) : (s.popCursor).reqs = s.reqs := rfl
@[simp] theorem State.popCursor_fences (s : State) : (s.popCursor).fences = s.fences := rfl
@[simp] theorem State.popCursor_copies (s : State) : (s.popCursor).copies = s.copies := rfl
@[simp] theorem State.popCursor_commits (s : State) : (s.popCursor).commits = s.commits := rfl
@[simp] theorem State.popCursor_gathers (s : State) : (s.popCursor).gathers = s.gathers := rfl
@[simp] theorem State.popCursor_pfaults (s : State) : (s.popCursor).pfaults = s.pfaults := rfl
@[simp] theorem State.popCursor_devLaunches (s : State) : (s.popCursor).devLaunches = s.devLaunches := rfl
@[simp] theorem State.popCursor_hostTdv (s : State) : (s.popCursor).hostTdv = s.hostTdv := rfl
@[simp] theorem State.popCursor_outside (s : State) : (s.popCursor).outside = s.outside := rfl
@[simp] theorem State.popCursor_railMove (s : State) : (s.popCursor).railMove = s.railMove := rfl
@[simp] theorem State.popCursor_thermalCap (s : State) : (s.popCursor).thermalCap = s.thermalCap := rfl
@[simp] theorem State.popCursor_coolSince (s : State) : (s.popCursor).coolSince = s.coolSince := rfl
@[simp] theorem State.popCursor_wakes (s : State) : (s.popCursor).wakes = s.wakes := rfl
@[simp] theorem State.popCursor_histBuf (s : State) : (s.popCursor).histBuf = s.histBuf := rfl
@[simp] theorem State.popCursor_security (s : State) : (s.popCursor).security = s.security := rfl
@[simp] theorem State.popCursor_tick (s : State) : (s.popCursor).tick = s.tick := rfl

end Sys2Proof.Machine
end

