-- ==== Sys2Proof/Laws/Tile.lean ====
section
/-! SUPPORT. What entering a tile instruction in its queue, and starting one, leaves (R293, R295). -/

set_option linter.unusedSimpArgs false
set_option linter.unusedVariables false

namespace Sys2Proof.Machine

/-- A change of a tenant, as a frame. -/
theorem tenantStep {s : State} {n : Nat} {te : Tenant} (ht : s.tenant? n = some te) (f : Tenant → Tenant) :
    OnlyTenant s (s.modTenant n f) n ∧ (s.modTenant n f).tenant? n = some (f te) :=
  ⟨onlyTenant_modTenant _ _ _, by rw [State.tenant?_modTenant, if_pos rfl, ht]; rfl⟩

/-- A tile instruction enters its queue with what its sources hold, while the queue has room (R293). -/
theorem enqueue_spec {s : State} {n : Nat} {te : Tenant} (ht : SeqRuns s n te) {h : Hdr} (hgd : guardOf h te.pred = true) (i : Instr) (vals : Regs → List DWord) :
    (te.queue.length < 8 → ∃ u, enqueue h i vals s = .next u ∧ OnlyTenant s u n ∧ u.tenant? n = some { te with
        pc := te.pc + 16
        queue := te.queue ++ [{ instr := i, pc := te.pc, vals := vals (te.regs (s.widOf te.block) (s.seedOf te.block)), doneClock := 0, last := 0, locks := [], paused := none }] }) ∧
      (8 ≤ te.queue.length → enqueue h i vals s = .next s) := by
  have hon : ∀ F, onSeq h n s F = F te s := by
    intro F; unfold onSeq; rw [ht.tenant]; dsimp only; rw [if_pos hgd]
  unfold enqueue
  rw [ht.seq]
  dsimp only
  rw [hon]
  refine ⟨fun hl => ?_, fun hl => ?_⟩
  · rw [if_neg (by omega)]
    refine ⟨_, rfl, ?_, ?_⟩
    · exact ⟨rfl, fun v hv => by
        unfold State.stepSeq
        rw [State.tenant?_modTenant, if_neg hv, State.tenant?_modTenant, if_neg hv]⟩
    · unfold State.stepSeq
      rw [State.tenant?_modTenant, if_pos rfl, State.tenant?_modTenant, if_pos rfl, ht.tenant]
      rfl
  · rw [if_pos hl]

/-- A counter register is up by a number. -/
theorem bump_eq (s : State) (off n : Nat) : s.bump off n = { s with bar0 := (s.bump off n).bar0 } := rfl

/-- Only counters and one tenant change. -/
structure Only (s u : State) (n : Nat) (te' : Tenant) : Prop where
  frame : u = { s with tenants := u.tenants, bar0 := u.bar0 }
  tenant : u.tenant? n = some te'
  others : ∀ v, v ≠ n → u.tenant? v = s.tenant? v

/-- Counting changes only registers. -/
theorem only_count {s : State} {n : Nat} {te : Tenant} (ht : s.tenant? n = some te) (f : Tenant → Tenant) (s1 : State)
    (h1 : s1 = { s with bar0 := s1.bar0 }) : Only s (s1.modTenant n f) n (f te) := by
  have h2 : s1.tenants = s.tenants := by rw [h1]
  have h3 : ∀ v, s1.tenant? v = s.tenant? v := fun v => by unfold State.tenant?; rw [h2]
  refine ⟨?_, ?_, fun v hv => ?_⟩
  · exact congrArg (fun x : State => { x with tenants := (s1.modTenant n f).tenants }) h1
  · rw [State.tenant?_modTenant, if_pos rfl, h3, ht]; rfl
  · rw [State.tenant?_modTenant, if_neg hv, h3]

/-- Starting a tile instruction changes one tenant and counters. -/
theorem startRun_only {s : State} {n : Nat} {te : Tenant} (ht : s.tenant? n = some te) (op : TileOp) (clocks : Nat) :
    Only s (s.startRun n op clocks) n { te with queue := te.queue.tail, running := te.running ++ [{ op with doneClock := s.clock te.core + clocks }] } := by
  have := only_count ht (fun te' => { te' with queue := te'.queue.tail, running := te'.running ++ [{ op with doneClock := s.clock te.core + clocks }] })
    (s.tileCount n te.core 1 1) rfl
  unfold State.startRun
  rw [ht]
  exact this

/-- Two changes of a tenant are one. -/
theorem modTenant_modTenant (s : State) (n : Nat) (f f' : Tenant → Tenant) :
    (s.modTenant n f).modTenant n f' = s.modTenant n (fun te => f' (f te)) := by
  unfold State.modTenant
  dsimp only
  rw [mapModify_mapModify]

/-- A tile's configuration changes one tenant and counters. -/
theorem tcfg_only {s : State} {n : Nat} {te : Tenant} (ht : s.tenant? n = some te) (f f' : Tenant → Tenant) (c : Nat) :
    Only s (((s.modTenant n f).tileCount n c 1 1).modTenant n f') n (f' (f te)) := by
  have := only_count ht (fun te => f' (f te)) { s with bar0 := ((s.modTenant n f).tileCount n c 1 1).bar0 } rfl
  rw [← modTenant_modTenant] at this
  exact this

/-- A tenant changed for one lane after the other. -/
theorem foldl_tenants (s0 : State) (tn : Nat) (f : Nat → Tenant → Tenant) (F : State → Nat → State) (G : List Nat)
    (hF : ∀ T, ∀ l ∈ G, F { s0 with tenants := T } l = State.modTenant { s0 with tenants := T } tn (f l)) (T : NatMap Tenant) :
    G.foldl F { s0 with tenants := T } = State.modTenant { s0 with tenants := T } tn (fun te => G.foldl (fun te l => f l te) te) := by
  induction G generalizing T with
  | nil =>
    show _ = State.modTenant _ tn (fun te => te)
    unfold State.modTenant; rw [mapModify_id]; rfl
  | cons l G ih =>
    rw [List.foldl_cons, hF T l (by simp)]
    have := ih (fun T l hl => hF T l (by simp [hl])) (mapModify T tn (f l))
    refine Eq.trans this ?_
    exact modTenant_modTenant { s0 with tenants := T } tn (f l) _

/-- A warp changed for one lane after the other. -/
theorem foldl_lanes (s0 : State) (w : Nat) (f : Nat → Lane → Lane) (F : State → Nat → State) (G : List Nat)
    (hF : ∀ W, ∀ l ∈ G, F { s0 with warps := W } l = State.modLanes { s0 with warps := W } w [l] (f l)) (W : NatMap Warp) :
    G.foldl F { s0 with warps := W } = G.foldl (fun s k => s.modLanes w [k] (f k)) { s0 with warps := W } := by
  induction G generalizing W with
  | nil => rfl
  | cons l G ih =>
    rw [List.foldl_cons, List.foldl_cons, hF W l (by simp)]
    exact ih (fun T l hl => hF T l (by simp [hl])) _

/-- A warp changed for one lane after the other, and marked. -/
theorem foldl_lanes' (s0 : State) (w : Nat) (f : Nat → Lane → Lane) (F : State → Nat → State) (G : List Nat)
    (hF : ∀ W, ∀ l ∈ G, F { s0 with warps := W } l = State.modLanes { s0 with warps := W } w [l] (f l)) :
    G.foldl F s0 = G.foldl (fun s k => s.modLanes w [k] (f k)) s0 := foldl_lanes s0 w f F G hF s0.warps

end Sys2Proof.Machine
end

