-- ==== Sys2Proof/Laws/Trap.lean ====
section
/-! SUPPORT. What lanes that take a trap leave: each enters the handler of its launch and forgets its arrivals (R373), or its block is killed (R375). -/

set_option linter.unusedSimpArgs false
set_option linter.unusedVariables false

namespace Sys2Proof.Machine

/-- A change of a block changes no lane. -/
theorem State.lane?_modBlock (s : State) (w l b : Nat) (f : Block → Block) : (s.modBlock b f).lane? w l = s.lane? w l := rfl

/-- … nor the launch record of any block. -/
theorem recOfBlock_modBlock (s : State) (b c : Nat) (f : Block → Block) (hf : ∀ bl, (f bl).grid = bl.grid) :
    (s.modBlock b f).recOfBlock c = s.recOfBlock c := by
  unfold State.recOfBlock State.gridOfBlock
  congr 1
  rw [State.block?_modBlock]
  split
  · cases s.block? c with
    | none => rfl
    | some bl =>
      show State.grid? _ (f bl).grid = State.grid? _ bl.grid
      rw [hf]; rfl
  · rfl

/-- One lane enters the handler of its launch. -/
theorem trapLane_enter {s : State} {w l : Nat} {wp : Warp} {la : Lane} {lr : LaunchRec} (t : Trap) (hw : s.warp? w = some wp)
    (hl : wp.lane? l = some la) (hr : s.recOfBlock wp.block = some lr) (hh : lr.handler ≠ 0) (hi : la.inHandler = false)
    (he : la.st ≠ .exited) (hs : s.aheadOf w l = none) :
    s.trapLane w l t = (s.modLanes w [l] (fun la => la.enter t (BitVec.ofNat 57 lr.handler) (s.clock wp.core))).modBlock wp.block
      (fun bl => bl.forget w l) := by
  unfold State.trapLane
  simp only [hw, hl, hr]
  rw [if_neg he, hs]
  dsimp only
  rw [if_neg (by simp [hh, hi])]
  rfl

/-- Forgetting one lane and then others forgets all of them. -/
theorem filter_forget {α : Type} (xs : List α) (p q : α → Nat) (w l : Nat) (G : List Nat) :
    (xs.filter (fun a => ¬(p a = w ∧ q a = l))).filter (fun a => ¬(p a = w ∧ q a ∈ G)) = xs.filter (fun a => ¬(p a = w ∧ q a ∈ l :: G)) := by
  rw [List.filter_filter]
  apply List.filter_congr
  intro a _
  simp only [List.mem_cons, ← Bool.decide_and]
  congr 1
  apply propext
  tauto

/-- A change of lanes keeps the block of the warp … -/
theorem Warp.modLanes_block (ls : List Nat) (wp : Warp) (f : Lane → Lane) : (wp.modLanes ls f).block = wp.block := by
  rw [Warp.modLanes_eq]

/-- … and its core. -/
theorem Warp.modLanes_core (ls : List Nat) (wp : Warp) (f : Lane → Lane) : (wp.modLanes ls f).core = wp.core := by
  rw [Warp.modLanes_eq]

/-- What several lanes that enter the handler of their launch leave. -/
structure Entered (s t : State) (w b : Nat) (G : List Nat) (f : Lane → Lane) : Prop where
  frame : t = { s with warps := t.warps, blocks := t.blocks }
  others : ∀ v, v ≠ w → t.warp? v = s.warp? v
  rest : ∀ x, (t.warp? w).map (fun wp => { wp with lanes := x }) = (s.warp? w).map (fun wp => { wp with lanes := x })
  lanes : ∀ l, t.lane? w l = (s.lane? w l).map (fun la => if l ∈ G then f la else la)
  blocks : ∀ c, t.block? c = (s.block? c).map (fun bl =>
    if c = b then
      { bl with
        arrivals := bl.arrivals.filter (fun a => ¬(a.warp = w ∧ a.lane ∈ G))
        barArrived := bl.barArrived.filter (fun a => ¬(a.1 = w ∧ a.2 ∈ G)) }
    else bl)

/-- Lanes outside a handler, in a launch that names one, enter it together. -/
theorem trapLanes_enter (w b core : Nat) (lr : LaunchRec) (hh : lr.handler ≠ 0) (t : Trap) (c : Nat) (G : List Nat) (hn : G.Nodup) (s : State)
    (hw : ∃ wp, s.warp? w = some wp ∧ wp.block = b ∧ wp.core = core) (hc : s.clock core = c) (hr : s.recOfBlock b = some lr)
    (hG : ∀ l ∈ G, ∃ la, s.lane? w l = some la ∧ la.inHandler = false ∧ la.st ≠ .exited) (hs : ∀ l ∈ G, s.aheadOf w l = none) :
    Entered s (s.trapLanes w G t) w b G (fun la => la.enter t (BitVec.ofNat 57 lr.handler) c) := by
  induction G generalizing s with
  | nil =>
    refine ⟨rfl, fun _ _ => rfl, fun _ => rfl, fun l => by cases h : s.lane? w l <;> simp [State.trapLanes, h], fun c => ?_⟩
    cases h : s.block? c <;> simp [State.trapLanes, h]
  | cons l G ih =>
    obtain ⟨h1, h2⟩ := List.nodup_cons.mp hn
    obtain ⟨wp, hwp, hb, hcore⟩ := hw
    obtain ⟨la, hla, hi, he⟩ := hG l (by simp)
    subst hb hcore hc
    have hla' : wp.lane? l = some la := by simpa [State.lane?, hwp] using hla
    have step1 := trapLane_enter t hwp hla' hr hh hi he (hs l (by simp))
    set f : Lane → Lane := fun la => la.enter t (BitVec.ofNat 57 lr.handler) (s.clock wp.core) with hf
    set s1 := (s.modLanes w [l] f).modBlock wp.block (fun bl => bl.forget w l) with hs1
    have hs1l : ∀ m, s1.lane? w m = (s.lane? w m).map (fun la => if m = l then f la else la) := by
      intro m
      rw [hs1, State.lane?_modBlock, State.lane?_modLanes _ _ _ (List.nodup_singleton _)]
      by_cases hm : m = l
      · subst hm; simp
      · simp [hm]
    have hs1w : s1.warp? w = some (wp.modLanes [l] f) := by
      show (s.modLanes w [l] f).warp? w = _
      rw [State.warp?_modLanes, if_pos rfl, hwp]; rfl
    have hrec : s1.recOfBlock wp.block = some lr := by
      exact (recOfBlock_modBlock (s.modLanes w [l] f) wp.block wp.block (fun bl => bl.forget w l) (fun _ => rfl)).trans hr
    have hlanes : ∀ k ∈ G, ∃ la, s1.lane? w k = some la ∧ la.inHandler = false ∧ la.st ≠ .exited := by
      intro k hk
      obtain ⟨la', h3, h4⟩ := hG k (by simp [hk])
      refine ⟨la', ?_, h4⟩
      rw [hs1l, h3]
      have : k ≠ l := fun e => h1 (e ▸ hk)
      simp [this]
    have := ih h2 s1 ⟨_, hs1w, Warp.modLanes_block _ _ _, Warp.modLanes_core _ _ _⟩ rfl hrec hlanes (fun k hk => hs k (by simp [hk]))
    have e : s.trapLanes w (l :: G) t = s1.trapLanes w G t := by
      unfold State.trapLanes; rw [List.foldl_cons, step1]
    rw [e]
    refine ⟨?_, fun v hv => ?_, fun x => ?_, fun m => ?_, fun d => ?_⟩
    · have h3 := this.frame
      rw [h3]
      rfl
    · rw [this.others v hv]
      show (s.modLanes w [l] f).warp? v = _
      rw [State.warp?_modLanes, if_neg hv]
    · rw [this.rest]
      show Option.map _ ((s.modLanes w [l] f).warp? w) = _
      exact rest_modLanes _ _ _ _ _
    · rw [this.lanes, hs1l]
      cases s.lane? w m with
      | none => rfl
      | some la =>
        simp only [Option.map_some, List.mem_cons]
        by_cases hm : m = l
        · subst hm; simp [h1]
        · simp [hm]
    · rw [this.blocks]
      have hb : s1.block? d = (s.block? d).map (fun bl => if d = wp.block then bl.forget w l else bl) := by
        rw [hs1, State.block?_modBlock]
        show (if d = wp.block then Option.map _ (s.block? d) else s.block? d) = _
        by_cases hd : d = wp.block
        · simp [hd]
        · rw [if_neg hd]; cases s.block? d <;> simp [hd]
      rw [hb]
      cases s.block? d with
      | none => rfl
      | some bl =>
        simp only [Option.map_some]
        by_cases hd : d = wp.block
        · simp only [if_pos hd]
          unfold Block.forget
          have e1 := filter_forget bl.arrivals (fun a => a.warp) (fun a => a.lane) w l G
          have e2 := filter_forget bl.barArrived (fun a => a.1) (fun a => a.2) w l G
          dsimp only
          rw [e1, e2]
        · simp only [if_neg hd]

/-- What several lanes that enter the handler of their launch leave, each by its own trap. -/
structure EachEntered (s t : State) (w : Nat) (G : List Nat) (f : Nat → Lane → Lane) : Prop where
  frame : t = { s with warps := t.warps, blocks := t.blocks }
  others : ∀ v, v ≠ w → t.warp? v = s.warp? v
  lanes : ∀ l, t.lane? w l = (s.lane? w l).map (fun la => if l ∈ G then f l la else la)

/-- Lanes outside a handler enter it, each by its own trap. -/
theorem trapEach_enter (w b core : Nat) (lr : LaunchRec) (hh : lr.handler ≠ 0) (τ : Nat → Trap) (c : Nat) (G : List Nat) (hn : G.Nodup) (s : State)
    (hw : ∃ wp, s.warp? w = some wp ∧ wp.block = b ∧ wp.core = core) (hc : s.clock core = c) (hr : s.recOfBlock b = some lr)
    (hG : ∀ l ∈ G, ∃ la, s.lane? w l = some la ∧ la.inHandler = false ∧ la.st ≠ .exited) (hs : ∀ l ∈ G, s.aheadOf w l = none) :
    EachEntered s (s.trapEach w (G.map (fun l => (l, τ l)))) w G (fun l la => la.enter (τ l) (BitVec.ofNat 57 lr.handler) c) := by
  induction G generalizing s with
  | nil =>
    exact ⟨rfl, fun _ _ => rfl, fun l => by cases h : s.lane? w l <;> simp [State.trapEach, h]⟩
  | cons l G ih =>
    obtain ⟨h1, h2⟩ := List.nodup_cons.mp hn
    obtain ⟨wp, hwp, hb, hcore⟩ := hw
    obtain ⟨la, hla, hi, he⟩ := hG l (by simp)
    subst hb hcore hc
    have hla' : wp.lane? l = some la := by simpa [State.lane?, hwp] using hla
    have step1 := trapLane_enter (τ l) hwp hla' hr hh hi he (hs l (by simp))
    set f : Lane → Lane := fun la => la.enter (τ l) (BitVec.ofNat 57 lr.handler) (s.clock wp.core) with hf
    set s1 := (s.modLanes w [l] f).modBlock wp.block (fun bl => bl.forget w l) with hs1
    have hs1l : ∀ m, s1.lane? w m = (s.lane? w m).map (fun la => if m = l then f la else la) := by
      intro m
      rw [hs1, State.lane?_modBlock, State.lane?_modLanes _ _ _ (List.nodup_singleton _)]
      by_cases hm : m = l
      · subst hm; simp
      · simp [hm]
    have hs1w : s1.warp? w = some (wp.modLanes [l] f) := by
      show (s.modLanes w [l] f).warp? w = _
      rw [State.warp?_modLanes, if_pos rfl, hwp]; rfl
    have hrec : s1.recOfBlock wp.block = some lr := by
      exact (recOfBlock_modBlock (s.modLanes w [l] f) wp.block wp.block (fun bl => bl.forget w l) (fun _ => rfl)).trans hr
    have hlanes : ∀ k ∈ G, ∃ la, s1.lane? w k = some la ∧ la.inHandler = false ∧ la.st ≠ .exited := by
      intro k hk
      obtain ⟨la', h3, h4⟩ := hG k (by simp [hk])
      refine ⟨la', ?_, h4⟩
      rw [hs1l, h3]
      have : k ≠ l := fun e => h1 (e ▸ hk)
      simp [this]
    have := ih h2 s1 ⟨_, hs1w, Warp.modLanes_block _ _ _, Warp.modLanes_core _ _ _⟩ rfl hrec hlanes (fun k hk => hs k (by simp [hk]))
    have e : s.trapEach w ((l :: G).map (fun l => (l, τ l))) = s1.trapEach w (G.map (fun l => (l, τ l))) := by
      unfold State.trapEach; rw [List.map_cons, List.foldl_cons, step1]
    rw [e]
    refine ⟨?_, fun v hv => ?_, fun m => ?_⟩
    · have h3 := this.frame
      rw [h3]
      rfl
    · rw [this.others v hv]
      show (s.modLanes w [l] f).warp? v = _
      rw [State.warp?_modLanes, if_neg hv]
    · rw [this.lanes, hs1l]
      cases s.lane? w m with
      | none => rfl
      | some la =>
        simp only [Option.map_some, List.mem_cons]
        by_cases hm : m = l
        · subst hm; simp [h1]; try rfl
        · simp [hm]; try rfl

/-- Every lane fails its check: nothing is left to perform. -/
theorem checkLanes_traps (s : State) (g : Grp) (p : Who) (m : MAddr) (i : MemI) (τ : Nat → Trap) (G : List Nat)
    (h : ∀ l ∈ G, s.checkLane p g.pc i.kind ((s.laneRegs g l).addr m) i.bytes i.align = .trap (τ l)) :
    s.checkLanes g p m i G = { traps := G.map (fun l => (l, τ l)), perform := [], queue := [] } := by
  have key : ∀ (G : List Nat) (c : Checked), (∀ l ∈ G, s.checkLane p g.pc i.kind ((s.laneRegs g l).addr m) i.bytes i.align = .trap (τ l)) →
      G.foldl (fun c l =>
        match s.checkLane p g.pc i.kind ((s.laneRegs g l).addr m) i.bytes i.align with
        | .trap t => { c with traps := c.traps ++ [(l, t)] }
        | .ok a .queue => { c with queue := c.queue ++ [(l, a)] }
        | .ok a _ => { c with perform := c.perform ++ [(l, a)] }) c = { c with traps := c.traps ++ G.map (fun l => (l, τ l)) } := by
    intro G
    induction G with
    | nil => intro c _; simp
    | cons l G ih =>
      intro c hc
      rw [List.foldl_cons, hc l (by simp)]
      dsimp only
      rw [ih _ (fun k hk => hc k (by simp [hk]))]
      simp
  exact key G _ h

end Sys2Proof.Machine
end

