-- ==== Sys2Proof/Laws/World.lean ====
section
/-! SUPPORT. How the instructions of phases and worlds run (R311 to R314). -/

set_option linter.unusedSimpArgs false
set_option linter.unusedVariables false

namespace Sys2Proof.Machine

/-- No lane is in a handler: the instruction goes on (R374). -/
theorem outsideHandler_clear {s : State} {g : Grp} {h : Hdr} (hg : s.grp = some g)
    (hx : ∀ l ∈ g.trues h, ∀ la, s.lane? g.w l = some la → la.inHandler = false) (u : State) (f : State → State) :
    outsideHandler g (g.trues h) u f = f u := by
  have hw := State.warp?_of_grp hg
  unfold outsideHandler
  have : (g.trues h).filter (fun l => (g.wp.lane? l).any (·.inHandler)) = [] := by
    rw [List.filter_eq_nil_iff]
    intro l hl
    obtain ⟨la, e⟩ := pass_lane hg h l hl
    have := hx l hl la (by simpa [State.lane?, hw] using e)
    rw [e]; simp [this]
  rw [this]

/-- A phase boundary that nothing forbids parks its lanes (R311). -/
theorem boundary_runs {s : State} {g : Grp} {h : Hdr} {bl : Block} {lr : LaunchRec} (hg : s.grp = some g) (hG : g.trues h ≠ [])
    (hx : ∀ k ∈ g.trues h, ∀ la, s.lane? g.w k = some la → la.tx = none ∧ la.inHandler = false)
    (hb : s.block? g.wp.block = some bl) (hr : s.recOfBlock g.wp.block = some lr) (deny kind label) :
    boundary h s deny kind label = if lr.psize = 0 || bl.judging || deny bl lr then (s.passFalse g h).illopLanes g (g.trues h) 0x0B
      else match bl.tbroken g.pc with
        | some t => (s.passFalse g h).trapLanes g.w (g.trues h) t
        | none => (s.passFalse g h).arriveBoundary g.w (g.trues h) (kind (s.passFalse g h) g (g.trues h)) g.pc (label g.pc) := by
  have hgr : Runs s g 0 := ⟨hg, Nat.zero_le _⟩
  have hb' : (s.passFalse g h).block? g.wp.block = some bl := hb
  have hr' : (s.passFalse g h).recOfBlock g.wp.block = some lr := hr
  unfold boundary
  rw [onGroup_runs hgr hG, outsideTx_clear hg hG (fun k hk la e => (hx k hk la e).1),
    outsideHandler_clear hg (fun k hk la e => (hx k hk la e).2)]
  rw [hb', hr'] <;> rfl

/-- The arrivals of a group at a boundary. -/
theorem arrive_eq {s : State} {g : Grp} {h : Hdr} (hg : s.grp = some g) (kind label) :
    (s.passFalse g h).arriveBoundary g.w (g.trues h) kind g.pc label =
    (((s.passFalse g h).modLanes g.w (g.trues h) (fun la => { la with st := .boundary })).modBlock g.wp.block (fun b =>
        { b with arrivals := b.arrivals ++ (g.trues h).map (fun l => { warp := g.w, lane := l, kind := kind, pc := g.pc, label := label }) })).checkArrivals g.wp.block := by
  have hw := State.warp?_of_grp hg
  have hw' : (s.passFalse g h).warp? g.w = some (g.wp.modLanes (g.lanes.filter (fun l => l ∉ g.trues h)) Lane.step) := by
    unfold State.passFalse State.stepLanes State.modLanes
    rw [State.warp?_modWarp, if_pos rfl, hw]; rfl
  unfold State.arriveBoundary
  rw [hw']
  dsimp only
  have hbk : (g.wp.modLanes (g.lanes.filter (fun l => l ∉ g.trues h)) Lane.step).block = g.wp.block := by rw [Warp.modLanes_eq]
  rw [hbk]

/-- Arrivals of one kind trap nobody (R313). -/
theorem check_same {s : State} {b : Nat} {bl : Block} (hb : s.block? b = some bl) (h : sameKind bl.arrivals = true) : s.checkArrivals b = s := by
  unfold State.checkArrivals
  rw [hb]
  simp [h]

/-- An instruction of worlds that nothing forbids acts. -/
theorem worldOp_runs {s : State} {g : Grp} {h : Hdr} {top : Nat} {bl : Block} (hg : Runs s g top) (hG : g.trues h ≠ [])
    (hx : ∀ k ∈ g.trues h, ∀ la, s.lane? g.w k = some la → la.tx = none ∧ la.inHandler = false)
    (hb : s.block? g.wp.block = some bl) (ok f) :
    worldOp h top s ok f = if ok (s.passFalse g h) g (g.trues h) bl then f g (g.trues h) bl (s.passFalse g h) else
      (s.passFalse g h).illopLanes g (g.trues h) 0x0B := by
  have hb' : (s.passFalse g h).block? g.wp.block = some bl := hb
  unfold worldOp
  rw [onGroup_runs hg hG, outsideTx_clear hg.grp hG (fun k hk la e => (hx k hk la e).1),
    outsideHandler_clear hg.grp (fun k hk la e => (hx k hk la e).2)]
  rw [hb']

end Sys2Proof.Machine
end

