-- ==== Sys2Proof/Laws/Writes.lean ====
section
/-! SUPPORT. What a release half, and the requests of stores and atomics, leave (R97, R99, R269). -/

set_option linter.unusedSimpArgs false
set_option linter.unusedVariables false

namespace Sys2Proof.Machine

/-- What a release before writes begins. -/
theorem releaseFor_spec (s : State) (g : Grp) (G : List Nat) (kind : Kind) (scope : Scope) :
    let r := s.releaseFor g G kind scope
    (if kind = .rel ∨ kind = .ar then
      ∃ n f tick, r = ({ s with fences := s.fences ++ [(n, f)], tick := tick }, some n) ∧ f.warp = g.w ∧ f.lanes = lanesMask G ∧ f.kind = .rel ∧
        f.scope = scope ∧ f.spec = false ∧ f.after = .nothing
    else r = (s, none)) := by
  cases kind with
  | none => rw [if_neg (by simp)]; rfl
  | acq => rw [if_neg (by simp)]; rfl
  | rel => rw [if_pos (by simp)]; exact ⟨_, _, _, rfl, rfl, rfl, rfl, rfl, rfl, rfl⟩
  | ar => rw [if_pos (by simp)]; exact ⟨_, _, _, rfl, rfl, rfl, rfl, rfl, rfl, rfl⟩

/-- The requests of a write that follow a release wait for it, others start at once (R97). -/
theorem writes_after {s s1 : State} {g : Grp} {h : Hdr} {k : Warp → Warp} (hg : s.grp = some g)
    (hG : g.trues h ≠ []) (hr : Ready s s1 g h Lane.step) (hf : s1.fences = s.fences) (i : MemI) (p : Who) (hp : p.view = s.viewOf g.wp.block ∧ p.asid = s.asidOf g.wp.block)
    (group : Nat) (kind : Kind) (data : Nat → Nat) (m : MAddr) (hk : ∀ wp, k wp = wp.count i.kind true) (u : State)
    (hu : u = (s1.releaseFor g (g.trues h) kind i.scope).1.startWrites g i group (s1.releaseFor g (g.trues h) kind i.scope).2
        (mkReqs g p i group false data ((g.trues h).map (fun l => (l, va57 ((s.laneRegs g l).addr m)))))) :
    (if kind = .rel ∨ kind = .ar then
            ∃ n f, u.fences = s.fences ++ [(n, f)] ∧ f.warp = g.w ∧ f.lanes = lanesMask (g.trues h) ∧ f.kind = .rel ∧
              f.scope = i.scope ∧ f.spec = false ∧ f.after = .nothing ∧ Issues s u g h i Lane.step k (.fenced n) ((g.trues h).map (accOf s g m i data))
          else u.fences = s.fences ∧ Issues s u g h i Lane.step k .waiting ((g.trues h).map (accOf s g m i data))) := by
  have hrel := releaseFor_spec s1 g (g.trues h) kind i.scope
  dsimp only at hrel
  by_cases hc : kind = .rel ∨ kind = .ar
  · rw [if_pos hc] at hrel ⊢
    obtain ⟨n, f, tick, e, h1, h2, h3, h4, h5, h6⟩ := hrel
    rw [e] at hu
    have := issues_startWrites hg hG (hr.tick tick (s1.fences ++ [(n, f)])) i p hp group (some n) data (fun l => va57 ((s.laneRegs g l).addr m)) hk
    rw [accOf_eq] at this
    subst hu
    exact ⟨n, f, by rw [← hf]; exact this.2, h1, h2, h3, h4, h5, h6, this.1⟩
  · rw [if_neg hc] at hrel ⊢
    rw [hrel] at hu
    have := issues_startWrites hg hG hr i p hp group none data (fun l => va57 ((s.laneRegs g l).addr m)) hk
    rw [accOf_eq] at this
    subst hu
    exact ⟨by rw [← hf]; exact this.2, this.1⟩

/-- Lanes that only pass change nobody's identity. -/
theorem whoOf_pass (s : State) (g : Grp) (h : Hdr) : (s.passFalse g h).whoOf g = s.whoOf g := rfl

/-- No escaping access: nothing is queued. -/
theorem queueLanes_nil (s : State) (g : Grp) (p : Who) (i : MemI) (data : Nat → Nat) : ∃ n, s.queueLanes g p i data [] = { s with tick := n } := by
  unfold State.queueLanes mkReqs mkAccs
  have : groupAccs i.kind.alone [] = [] := by unfold groupAccs; rfl
  simp only [List.map_nil, this, List.foldl_nil]
  split
  · exact ⟨_, rfl⟩
  · exact ⟨_, rfl⟩

/-- Atomics and reductions whose lanes pass every check. -/
theorem atomLanes_pass {s : State} {g : Grp} {h : Hdr} {k : Warp → Warp} (hg : s.grp = some g) (hG : g.trues h ≠ []) (m : MAddr) (i : MemI) (kind : Kind)
    (data : Nat → Nat) (hc : Clear (s.passFalse g h) g (g.trues h) m i) (hk : ∀ wp, k wp = wp.count i.kind true) :
    let u := (s.passFalse g h).atomLanes g ((s.passFalse g h).whoOf g) m i kind data (g.trues h)
    (if kind = .rel ∨ kind = .ar then
            ∃ n f, u.fences = s.fences ++ [(n, f)] ∧ f.warp = g.w ∧ f.lanes = lanesMask (g.trues h) ∧ f.kind = .rel ∧
              f.scope = i.scope ∧ f.spec = false ∧ f.after = .nothing ∧ Issues s u g h i Lane.step k (.fenced n) ((g.trues h).map (accOf s g m i data))
          else u.fences = s.fences ∧ Issues s u g h i Lane.step k .waiting ((g.trues h).map (accOf s g m i data))) := by
  have hck := checkLanes_pass (s.passFalse g h) g _ m i (g.trues h) hc.pass
  unfold State.atomLanes
  rw [hck]
  have hne : (g.trues h).map (fun l => (l, va57 (((s.passFalse g h).laneRegs g l).addr m))) ≠ [] := by simpa using hG
  dsimp only
  rw [if_neg hne]
  have e1 : ((g.trues h).map (fun l => (l, va57 (((s.passFalse g h).laneRegs g l).addr m)))).map (·.1) = g.trues h := by
    rw [List.map_map]; exact List.map_id _
  rw [List.append_nil]
  have e1' : List.map (fun x => x.1) ((g.trues h).map (fun l => (l, va57 (((s.passFalse g h).laneRegs g l).addr m)))) = g.trues h := e1
  rw [e1']
  have e2 : ∀ s : State, s.trapEach g.w [] = s := fun _ => rfl
  rw [e2]
  obtain ⟨n, hq⟩ := queueLanes_nil ((s.passFalse g h).stepLanes g.w (g.trues h)) g ((s.passFalse g h).whoOf g) i data
  rw [hq]
  have hr := (Ready.of_modLanes hg (h := h) Lane.step).tick (n + 1) (s.passFalse g h).fences
  have key := writes_after (k := k) hg hG hr rfl i ((s.passFalse g h).whoOf g) ⟨rfl, rfl⟩ n kind data m hk _ rfl
  have hA := fun (st : ReqSt) (t : State) (hi : Issues s t g h i Lane.step k st ((g.trues h).map (accOf s g m i data))) => hi.acquireFor (g.trues h) kind n
  by_cases hcc : kind = .rel ∨ kind = .ar
  · rw [if_pos hcc] at key ⊢
    obtain ⟨n', f, h1, h2, h3, h4, h5, h6, h7, h8⟩ := key
    have := hA _ _ h8
    exact ⟨n', f, this.2.trans h1, h2, h3, h4, h5, h6, h7, this.1⟩
  · rw [if_neg hcc] at key ⊢
    have := hA _ _ key.2
    exact ⟨this.2.trans key.1, this.1⟩

end Sys2Proof.Machine
end

