-- ==== Sys2Proof/Tests/Slice0.lean ====
section
/-! SUPPORT. Tests: words written out from the encodings of the manual, ill-formed terms that the checks refuse, one step on values
from the manual's tables of worked results, and for each statement with hypotheses a state and operands that meet them. -/

set_option Elab.async false

namespace Sys2Proof.Tests

open Sys2Proof Sys2Proof.Machine

/-! ### Small states -/

/-- Neither guard, slack nor hint. -/
def h : Hdr := { g1 := 7, g2 := 7, gc := false, sch := 0, slk := 0, hint := 0 }
/-- Guarded by p0, which only lane 0 of `g0` holds. -/
def hOne : Hdr := { h with g1 := 0 }
/-- A guard that no lane meets, `?!p7` (R187). -/
def hNone : Hdr := { h with g1 := 15 }
def hp : PktHdr := { idem := false, nocpl := false, fence := false, ring := 0, user := 0 }

/-- Lane 0 of the two lanes: p0 is true, v2:v3 is no canonical address, v4:v5 is 8, v6:v7 is 192. -/
def la0 : Lane := { Lane.start true 0 with preds := 1, regs := [(3, 0x2000000), (4, 8), (6, 192)] }
def la1 : Lane := Lane.start true 0
def wp0 : Warp := Warp.start 0 0 [la0, la1] 0
def te0 : Tenant := Tenant.start seedRec 0 0 0 true
def bl0 : Block :=
  { Block.start 0 0 0 with st := .resident, cores := [0], warps := [0], tenants := [0], nbars := [(0, NBar.start 2)] }
/-- A launch of eight registers, 64 tags, one barrier and a handler at 192, with a phase-record area. -/
def lr0 : LaunchRec := { seedRec with regs := 8, tags := 64, nbars := 1, psize := 4096 }
def gr0 : Grid := { Grid.fresh 0 0 0 hp .packet lr0 0 0 0 with next := 1 }
def cx0 : Ctx :=
  { body := { ctx := 0, asid := 1, vquota := 0, fgroup := 0, root := 0, aperture := 0x10000000000, l1lease := 64, cllease := 64, cllimit := 64,
              hslimit := 64, fring := 0, wins := [] }
    destroying := false, standing := none }
/-- One context, one grid, one block of one warp of two lanes on core 0, with its sequencer; the warp's group is selected. -/
def s0 : State :=
  { State.reset with cursor := [.group 0 3], ctxs := [(0, cx0)], grids := [(0, gr0)], blocks := [(0, bl0)], warps := [(0, wp0)],
                     tenants := [(0, te0)] }
def g0 : Grp := { w := 0, wp := wp0, lanes := [0, 1], pc := 0 }
/-- … where the sequencer is selected. -/
def q0 : State := { s0 with cursor := [.seq 0] }
/-- … with another warp. -/
def withWarp (wp : Warp) : State := { s0 with warps := [(0, wp)] }
/-- … with another block. -/
def withBlock (bl : Block) : State := { s0 with blocks := [(0, bl)] }
/-- … with another launch record. -/
def withRec (r : LaunchRec) : State := { s0 with grids := [(0, { gr0 with lrec := r })] }

/-- What holds of every lane of some lanes, when it holds of those that stand in the state. -/
theorem lanesAll {s : State} {w : Nat} {G : List Nat} (P : Lane → Prop) [DecidablePred P]
    (hall : (G.all fun l => (s.lane? w l).all (fun la => decide (P la))) = true) : ∀ l ∈ G, ∀ la, s.lane? w l = some la → P la := by
  intro l hl la e
  have := List.all_eq_true.mp hall l hl
  simpa [e] using this

/-! ### Words of the encoding tables -/

/-- Words of Table 9.2. -/
theorem test_decode_integer :
    decodeWord .vector 0x00001234000002C3880001FF01010001 = .ok (.iadd { h with g1 := 1, slk := 3 } .i32 false (.v 4) (.v 2) (.lit 0x1234)) ∧
    decodeWord .vector 0x0000000000040003B800018581404402 = .ok (.isub h .n32 true (.s 1) (.s 2) (.int 5)) ∧
    decodeWord .vector 0x0000000000000143B800000301010003 = .ok (.imul { h with slk := 5 } .i32 false (.v 4) (.v 2) (.v 3)) ∧
    decodeWord .vector 0x0000000000000003B800000602008804 = .ok (.imulh h .i64 (.v 2) (.v 4) (.v 6)) ∧
    decodeWord .vector 0x0000000000000003B800080301004005 = .ok (.imad h .i32 false (.v 1) (.v 2) (.v 3) (.v 4)) ∧
    decodeWord .vector 0x0000000000000003B824000301004406 = .ok (.idiv h .n32 false (.v 1) (.v 9) (.v 2) (.v 3)) ∧
    decodeWord .vector 0x0000000000000003B80001FE02008C07 = .ok (.imin h .n64 (.v 2) (.v 4) .zero) ∧
    decodeWord .tile 0x0000000000000003B800019F81404008 = .ok (.imax h .i32 (.s 1) (.s 2) (.int 31)) ∧
    decodeWord .vector 0x0000000000040003B800000001004009 = .ok (.iabs h .i32 true (.v 1) (.v 2)) := by
  decide

/-- Words of Tables 9.4, 9.5. -/
theorem test_decode_logic :
    decodeWord .vector 0x0000000000000003B800000301005810 = .ok (.and h .b32 (.v 1) (.v 2) (.v 3)) ∧
    decodeWord .vector 0x0000000000000003B800000602009C11 = .ok (.or h .b64 (.v 2) (.v 4) (.v 6)) ∧
    decodeWord .tile 0x0000000000000003B80001058240C412 = .ok (.xor h .n32 (.s 3) (.s 4) (.s 5)) ∧
    decodeWord .vector 0x0000000000000003B800000301004013 = .ok (.andn h .i32 (.v 1) (.v 2) (.v 3)) ∧
    decodeWord .vector 0x000000E800000003B800080301005814 = .ok (.bfn3 h .b32 (.v 1) (.v 2) (.v 3) (.v 4) 0xE8) ∧
    decodeWord .vector 0x0000000000000003B800018301005818 = .ok (.shl h .b32 (.v 1) (.v 2) (.int 3)) ∧
    decodeWord .vector 0x0000002800000203B80001FF01004019 = .ok (.shr h .i32 (.v 1) (.v 2) (.lit 40)) ∧
    decodeWord .vector 0x0000000000000003B80310030100581A = .ok (.fsh h .b32 (.v 1) (.v 2) (.v 3) (.int 8)) ∧
    decodeWord .vector 0x0000000000000003B800000001005C20 = .ok (.popc h .b64 (.v 1) (.v 2)) ∧
    decodeWord .vector 0x0000000000000003B800000001005821 = .ok (.clz h .b32 (.v 1) (.v 2)) ∧
    decodeWord .vector 0x0000000000000003B800000001005822 = .ok (.brev h .b32 (.v 1) (.v 2)) ∧
    decodeWord .vector 0x0000000000000003B803098801004023 = .ok (.bfx h .i32 (.v 1) (.v 2) (.int 8) (.int 4)) ∧
    decodeWord .vector 0x0000000000000003BE23080301005824 = .ok (.bfi h .b32 (.v 1) (.v 2) (.v 3) (.int 4) (.int 8)) ∧
    decodeWord .vector 0x0000000000000003B803080182008025 = .ok (.adrs h .i32 (.v 2) (.s 4) (.v 1) 4) ∧
    decodeWord .vector 0x0000F65400000203B803FE0301005826 = .ok (.permb h (.v 1) (.v 2) (.v 3) (.lit 0xF654)) := by
  decide

/-- Words of Tables 9.7, 9.8, R217 to R219. -/
theorem test_decode_select :
    decodeWord .vector 0x0000000000000003B80307A201006C28 = .ok (.sel h .f32 (.v 1) (.v 2) (.const 2) 3) ∧
    decodeWord .vector 0x0000000000000003B800000004012029 = .ok (.mov h .b128 (.v 4) (.v 8)) ∧
    decodeWord .vector 0x0000000000000003B8000000CD451C2A = .ok (.movs h true (.s 20) 0x1A) ∧
    decodeWord .vector 0x0000008000000203B8000000FFE8982B = .ok (.movc h .tenable (.lit 0x80)) ∧
    decodeWord .vector 0x0000000000880003B800000301000030 = .ok (.icmp h .lt .i32 1 (.v 2) (.v 3)) ∧
    decodeWord .vector 0x0000008800100003B8030F81C0000031 = .ok (.plop h 2 0 1 7 0x88) := by
  decide

/-- Words of Table 9.9. -/
theorem test_decode_cross_lane :
    decodeWord .vector 0x0000000000283003B803078401005840 = .ok (.shfl h .xor .b32 5 1 2 (.int 4) 3) ∧
    decodeWord .vector 0x0000000000082003B8000000C17F9841 = .ok (.vote h .same 1 .none 2) ∧
    decodeWord .vector 0x0000000000000003B8000000C240D842 = .ok (.ballot h (.s 3) 4) ∧
    decodeWord .vector 0x0000000000000003B800000001410043 = .ok (.redux h .add .i32 (.s 4) 2) ∧
    decodeWord .vector 0x0000000000020003B803060002014044 = .ok (.scan h .add false (some 3) .i32 5 4) ∧
    decodeWord .vector 0x0000000000000003B800000001005845 = .ok (.matchLanes h false .b32 0 (.v 1) 2) ∧
    decodeWord .vector 0x0000000000201003B8000000017F9C45 = .ok (.matchLanes h true .b64 4 .none 2) ∧
    decodeWord .vector 0x0000000000080003B8000000007F8046 = .ok (.elect h 1 .none) := by
  decide

/-- Words of Tables 10.1, 10.3, 10.5. -/
theorem test_decode_float :
    decodeWord .vector 0x0000000000010003B800000301006C60 = .ok (.fadd h .f32 false .rz (.v 1) (.v 2) (.v 3)) ∧
    decodeWord .vector 0x0000000000030003B80000060200B061 = .ok (.fsub h .f64 false .ru (.v 2) (.v 4) (.v 6)) ∧
    decodeWord .vector 0x0000000000040003B80001A001006462 = .ok (.fmul h .f16x2 true .rn (.v 1) (.v 2) (.const 0)) ∧
    decodeWord .vector 0x0000000000000103B8000C050200EC63 = .ok (.ffma { h with slk := 4 } .f32 false .rn (.v 3) (.v 4) (.v 5) (.v 6)) ∧
    decodeWord .vector 0x0000000000000003B800000301006C64 = .ok (.fmin h .f32 (.v 1) (.v 2) (.v 3)) ∧
    decodeWord .vector 0x0000000000000003B800000301006865 = .ok (.fmax h .bf16x2 (.v 1) (.v 2) (.v 3)) ∧
    decodeWord .vector 0x0000000002300003B800000301002C66 = .ok (.fcmp h .equ .f32 6 (.v 2) (.v 3)) ∧
    decodeWord .vector 0x0000000300080203B80001FF01003067 = .ok (.fclass h .f64 1 (.v 2) (.lit 3)) ∧
    decodeWord .vector 0x0000000000020003B800000001006C68 = .ok (.frnd h .f32 .rd (.v 1) (.v 2)) ∧
    decodeWord .vector 0x0000000000000003B800000301006C69 = .ok (.fscale h .f32 .rn (.v 1) (.v 2) (.v 3)) ∧
    decodeWord .vector 0x0000000000000003B80000000100706A = .ok (.fgexp h .f64 (.v 1) (.v 2)) ∧
    decodeWord .vector 0x0000000000000003B80344030100686B = .ok (.fdot2 h .bf16x2 .rn (.v 1) (.v 2) (.v 3) (.const 2)) := by
  decide

/-- Words of Table 10.5. -/
theorem test_decode_special :
    decodeWord .vector 0x0000000000000003B800000001006C70 = .ok (.frcp h .f32 .rn (.v 1) (.v 2)) ∧
    decodeWord .vector 0x0000000000000003B800000001006C71 = .ok (.frsq h .f32 (.v 1) (.v 2)) ∧
    decodeWord .vector 0x0000000000000003B800000001006C72 = .ok (.fsqrt h .f32 .rn (.v 1) (.v 2)) ∧
    decodeWord .vector 0x0000000000000003B800000001006C73 = .ok (.fexp2 h .f32 (.v 1) (.v 2)) ∧
    decodeWord .vector 0x0000000000000003B800000001006C74 = .ok (.flog2 h .f32 (.v 1) (.v 2)) ∧
    decodeWord .vector 0x0000000000000003B800000001006C75 = .ok (.fsin h .f32 (.v 1) (.v 2)) ∧
    decodeWord .vector 0x0000000000000003B800000001006C76 = .ok (.fcos h .f32 (.v 1) (.v 2)) ∧
    decodeWord .vector 0x0000000000000003B800000001006C77 = .ok (.ftanh h .f32 (.v 1) (.v 2)) ∧
    decodeWord .vector 0x0000000000000003B800000001006C78 = .ok (.fsigm h .f32 (.v 1) (.v 2)) := by
  decide

/-- Words of Table 10.8, R254 to R260. -/
theorem test_decode_conversion :
    decodeWord .vector 0x000000000001B003B800000000808080 = .ok (.cvt h .i32 .f32 false .rz (.v 2) (.v 1) none) ∧
    decodeWord .vector 0x000000000000B003B80001FE0080A480 = .ok (.cvt h .f16x2 .f32 false .rn (.v 2) (.v 1) (some .zero)) ∧
    decodeWord .vector 0x000000000C00B003BE03000301005881 = .ok (.cvtsEncode h 3 (.v 1) (.v 2) (.v 3) (.int 0) 0) ∧
    decodeWord .vector 0x000000000C006003B800018601006C81 = .ok (.cvtsDecode h 3 (.v 1) (.v 2) 6) ∧
    decodeWord .vector 0x000000000800B003B800000002015882 = .ok (.qblk h 2 5 (.v 4)) ∧
    decodeWord .vector 0x0000000008006003B80000000281AC83 = .ok (.dqblk h 2 6 5) ∧
    decodeWord .vector 0x0000E66600080203B80001FF01001C88 = .ok (.dropm h true 1 (.v 2) (.lit 0xE666)) ∧
    decodeWord .vector 0x0000000000000003B800000001011C89 = .ok (.rng h .b64 (.v 4) (.v 2)) := by
  decide

/-- Words of Tables 1.2, 9.11, R229 to R238. -/
theorem test_decode_control :
    decodeWord .vector 0x0000002000000003C8000000000000C0 = .ok (.bra { h with g1 := 9 } 0x20) ∧
    decodeWord .vector 0x0000000000000003B8000000820000C1 = .ok (.brx h (.s 4)) ∧
    decodeWord .vector 0x0000004000000003B8000000000780C2 = .ok (.call h 30 0x40) ∧
    decodeWord .vector 0x0000000000000003B80000000F0000C3 = .ok (.ret h 30) ∧
    decodeWord .vector 0x0000000000000003B8000000000000C4 = .ok (.exit h) ∧
    decodeWord .vector 0x0000000000000003B8000000000000C5 = .ok (.yield h) ∧
    decodeWord .vector 0x0000000000000003B8000000000000C6 = .ok (.nop h) ∧
    decodeWord .vector 0x0000000400000003B8000000000000C7 = .ok (.waitc h 4 0 0 0) ∧
    decodeWord .vector 0x0000000000000003B8000000000000C8 = .ok (.enrol h 0) ∧
    decodeWord .vector 0x0000000000000003B8000000000000C9 = .ok (.rejoin h 0) ∧
    decodeWord .vector 0x0000000000005003B8000000000000CA = .ok (.strike h 5) ∧
    decodeWord .vector 0x0000007F00000003B8000000000000CB = .ok (.trap h 0x7F) ∧
    decodeWord .vector 0x0000000000000003B8000000000000CC = .ok (.rte h) ∧
    decodeWord .vector 0x000FEFE000000003B8000000C08000D0 = .ok (.ipf h 1 0xFEFE0) ∧
    decodeWord .vector 0x000000C000000203B80001FF010000D1 = .ok (.icinv h (.v 2) (.lit 192)) ∧
    decodeWord .vector 0x0000000000000003B8000000000000D2 = .ok (.ifence h) := by
  decide

/-- Words of Tables 11.1, 11.2. -/
theorem test_decode_memory :
    decodeWord .vector 0x0000001006000003B800000181019D00 = .ok (.ld h .b64 .none .wp (.v 6) { base := .s 2, index := .v 1, isc := 3, off := 16 }) ∧
    decodeWord .vector 0x0000000400023003B80005FE81001901 = .ok (.st h .b32 .rel .dv { base := .s 2, index := .zero, isc := 0, off := 4 } (.v 2)) ∧
    decodeWord .vector 0x0000000000003003B80303FE81004502 = .ok (.atom h .add .n32 .none .dv (.v 1) { base := .s 2, index := .zero, isc := 0, off := 0 } (.int 1)) ∧
    decodeWord .vector 0x0000000000003003B00303FE84000503 = .ok (.red { h with g1 := 6 } .add .n32 .none .dv { base := .s 8, index := .zero, isc := 0, off := 0 } (.int 1)) ∧
    decodeWord .vector 0x0000000000400003B80001FE02009D08 = .ok (.fld h 2 1 { base := .v 4, index := .zero, isc := 0, off := 0 }) ∧
    decodeWord .vector 0xFFFFFFF000C00003B80005FE02001D09 = .ok (.fset h 3 { base := .v 4, index := .zero, isc := 0, off := 0xFFFFFFF0 } (.v 2)) ∧
    decodeWord .vector 0x0000000008000003B800000602001D0A = .ok (.fclr h { base := .v 4, index := .v 6, isc := 4, off := 0 }) ∧
    decodeWord .vector 0x0000000400000003B80003FE817F850B = .ok (.waiton h .eq .n32 .none { base := .s 2, index := .zero, isc := 0, off := 4 } (.v 1)) ∧
    decodeWord .vector 0x0000004000000003B800000000000110 = .ok (.txb h 0x40) ∧
    decodeWord .vector 0x0000000000000003B800000000000111 = .ok (.txe h) ∧
    decodeWord .vector 0x0000000900000003B800000000000112 = .ok (.txa h 9) ∧
    decodeWord .vector 0x0000000000023003B800000000000118 = .ok (.fence h .rel .dv false) ∧
    decodeWord .vector 0x0000037004000003B800000882029919 = .ok (.gath h .b32 10 { base := .s 4, index := .v 8, isc := 2, off := 0x370 } 0) ∧
    decodeWord .vector 0x0000000000000023B80001FE8100011A = .ok (.dpf { h with hint := 2 } { base := .s 2, index := .zero, isc := 0, off := 0 }) := by
  decide

/-- Words of Tables 11.5 to 11.7. -/
theorem test_decode_engine :
    decodeWord .vector 0x00000000000430038803070682414140 = .ok (.cpy { h with g1 := 1 } .dv true (.s 5) (.s 4) (.s 6) (.tag 3)) ∧
    decodeWord .vector 0x0000000000004003B802130802008141 = .ok (.cpyt h .sy false (.v 2) (.v 4) (.s 8) (.reg 9)) ∧
    decodeWord .vector 0x0000030000000203B80001FFD0800148 = .ok (.tagarm h (.tag 33) (.lit 768)) ∧
    decodeWord .vector 0x0000000000000003B8000000C4000549 = .ok (.tagwt h true (.int 8)) ∧
    decodeWord .tile 0x0000000000000003B80000008240C14A = .ok (.tagff h (.s 3) (.s 4)) ∧
    decodeWord .vector 0x000000F000000203B8000000FF80014B = .ok (.tagclr h (.lit 0xF0)) ∧
    decodeWord .vector 0x0000000000040003B800019FC1000160 = .ok (.bari h true 2 (.int 31)) ∧
    decodeWord .vector 0x0000000000000003B80001FEC0000161 = .ok (.bara h 0 .zero) ∧
    decodeWord .tile 0x0000000000000003B8000180C0000162 = .ok (.barw h 0 (.int 0)) ∧
    decodeWord .vector 0x0000000000000003B800000000000163 = .ok (.bar h) := by
  decide

/-- Words of Table 12.2 and Table 12.7. -/
theorem test_decode_tile :
    decodeWord .tile 0x0020000000000203B8000000FFE04580 = .ok (.tcfg h .rows 1 (.lit 0x200000)) ∧
    decodeWord .tile 0x0000000000000003B800010280600181 = .ok (.tld h 0 0 (some 2)) ∧
    decodeWord .tile 0x0000000000000003B800000000608582 = .ok (.tzero h true 2) ∧
    decodeWord .tile 0x0000000000000003B8000181C0600183 = .ok (.mma h 0 0 1) ∧
    decodeWord .tile 0x0000000000000003B8030983C1604D84 = .ok (.mmas h .p48 1 2 3 4) ∧
    decodeWord .tile 0x0000000000000003B8020B818A600185 = .ok (.dcmp h .p24 0 20 1 (.s 5)) ∧
    decodeWord .tile 0x0000000000000003B8000181C060C186 = .ok (.mmad h 3 0 1) ∧
    decodeWord .tile 0x0000000000013003B803050883600187 = .ok (.tdrain h false false true .dv .f32 0 6 (some 8) (.tag 2)) ∧
    decodeWord .tile 0x0000000000000003B8000183C1616188 = .ok (.tmov h .f64 5 2 (.int 3)) ∧
    decodeWord .tile 0x0000000000000003BE0E0980C0E08589 = .ok (.tepi h .relu .f32 2 1 (.int 0) (.s 4) (some 3)) ∧
    decodeWord .vector 0x0000000000000003B8000002C0605D90 = .ok (.tstv h .b64 1 (.int 0) 2) ∧
    decodeWord .vector 0x000000B000000203B80001FFC1822191 = .ok (.tldv h .b128 8 3 (.lit 176)) := by
  decide

/-- Words of Tables 7.3, 12.8, R309 to R315. -/
theorem test_decode_system :
    decodeWord .vector 0x0000000000000003B8000000850001C0 = .ok (.launch h (.s 10)) ∧
    decodeWord .vector 0x0000000000000003B8000000000001C1 = .ok (.pbar h) ∧
    decodeWord .vector 0x0000000000000003B8000000000001C2 = .ok (.gbar h) ∧
    decodeWord .vector 0x0000000000000003B8000000038001C3 = .ok (.event h (.v 7)) ∧
    decodeWord .vector 0x0000006000000003B8000000C18001E0 = .ok (.forkw h (.int 3) 0x60) ∧
    decodeWord .vector 0x0000000000000003B8000000838001E1 = .ok (.yieldw h (.s 7)) ∧
    decodeWord .vector 0x0000000000000003B8000000C38001E2 = .ok (.choose h (.int 7)) ∧
    decodeWord .vector 0x0000000000000003B8000000FF0005E2 = .ok (.chooseNone h) ∧
    decodeWord .vector 0x0000000000000003B8000000FF0009E2 = .ok (.chooseSelf h) := by
  decide

/-! ### Witnesses: a state and operands for each statement with hypotheses -/

theorem runs0 {n : Nat} (hn : n ≤ 8) : Runs s0 g0 n := ⟨by decide, Nat.le_trans hn (by decide)⟩
theorem seqRuns0 : SeqRuns q0 0 te0 := ⟨by decide, by decide⟩

/-- The three cases of `Computes`, at the highest vector register of the launch (v7), the first beyond it (v8) and in the tile stream. -/
def Cases (bits : Nat) : Prop :=
  Runs s0 g0 (max (Dst.top (.v 7) 32) (Opd.top (.v 4) bits)) ∧ (s0.grp = some g0 ∧ s0.regsOf g0.wp.block < Dst.top (.v 8) 32) ∧
    SeqRuns q0 0 te0
theorem cases32 : Cases 32 := ⟨runs0 (by decide), ⟨by decide, by decide⟩, seqRuns0⟩

theorem test_witness_IntegerArithmeticResults : Cases 32 := cases32
theorem test_witness_LogicResults : Cases 32 := cases32
theorem test_witness_ShiftAndFieldResults : Cases 64 := ⟨runs0 (by decide), ⟨by decide, by decide⟩, seqRuns0⟩
theorem test_witness_SelectMoveCompareResults : Cases 32 ∧ Cond.isInt .lt = true := ⟨cases32, rfl⟩
theorem test_witness_CrossLaneResults : Cases 32 := cases32
theorem test_witness_FloatArithmeticResults : Cases 32 := cases32
theorem test_witness_SpecialFunctionResults : Cases 32 ∧ (Ty.f32 = .f32 ∨ Ty.f32 = .f64 ∨ Ty.f32 = .f16x2 ∨ Ty.f32 = .bf16x2) :=
  ⟨cases32, .inl rfl⟩
theorem test_witness_ConversionAndDrawResults : Cases 32 := cases32
theorem test_witness_SpecialRegisterReadsAndControlWrites :
    Cases 32 ∧ (1 ∈ g0.lanes ∧ g0.wp.lane? 1 = some la1) ∧ g0.trues h = 0 :: [1] ∧
      (∀ k, k < 32 → k ≠ 7 → (BitVec.ofNat 32 ((s0.laneRegs g0 0).src32 (.lit 0x80))).getLsbD k = false) ∧
      ∃ k, k < 32 ∧ k ≠ 7 ∧ (BitVec.ofNat 32 ((s0.laneRegs g0 0).src32 (.int 1))).getLsbD k = true :=
  ⟨cases32, by decide, by decide, by decide, 0, by decide⟩
theorem test_witness_SlackBiasOfAWarp : s0.grp = some g0 ∧ g0.trues h = 0 :: [1] ∧ Runs s0 g0 8 :=
  ⟨by decide, by decide, runs0 (by decide)⟩

theorem test_witness_BranchResults :
    Runs s0 g0 8 ∧ SeqRuns q0 0 te0 ∧
      (∀ l ∈ g0.trues hOne, canonical (BitVec.ofNat 64 ((s0.laneRegs g0 l).src64 (.v 6))) = true ∧
        (BitVec.ofNat 64 ((s0.laneRegs g0 l).src64 (.v 6))).toNat % 16 = 0) ∧
      g0.trues hOne = [0] ∧ canonical (BitVec.ofNat 64 ((s0.laneRegs g0 0).src64 (.v 2))) = false ∧
      canonical (BitVec.ofNat 64 ((s0.laneRegs g0 0).src64 (.v 4))) = true ∧
      (BitVec.ofNat 64 ((s0.laneRegs g0 0).src64 (.v 4))).toNat % 16 ≠ 0 :=
  ⟨runs0 (by decide), seqRuns0, by decide, by decide, by decide, by decide, by decide⟩
theorem test_witness_NopYieldAndWaitcResults : s0.grp = some g0 ∧ SeqRuns q0 0 te0 := ⟨by decide, seqRuns0⟩
theorem test_witness_RejoinMaskResults : s0.grp = some g0 ∧ g0.trues h ≠ [] ∧ g0.trues hNone = [] := by decide
theorem test_witness_TrapAndReturnResults :
    s0.grp = some g0 ∧ s0.recOfBlock g0.wp.block = some lr0 ∧ lr0.handler ≠ 0 ∧
      (∀ l ∈ g0.trues h, ∀ la, s0.lane? g0.w l = some la → la.inHandler = false) ∧ (∀ l ∈ g0.trues h, s0.aheadOf g0.w l = none) ∧
      g0.trues h ≠ [] ∧
      (let wp := { wp0 with lanes := [{ la0 with inHandler := true }] }
       let g : Grp := { g0 with wp := wp, lanes := [0] }
       (withWarp wp).grp = some g ∧ ∀ l ∈ g.trues h, ∀ la, (withWarp wp).lane? g.w l = some la → la.inHandler = true) :=
  ⟨by decide, by decide, by decide, lanesAll _ (by decide), by decide, by decide, by decide, lanesAll _ (by decide)⟩
theorem test_witness_TrapWithoutHandlerKillsTheBlock :
    (let s := withRec { lr0 with handler := 0 }
     s.grp = some g0 ∧ s.recOfBlock g0.wp.block = some { lr0 with handler := 0 } ∧ s.block? g0.wp.block = some bl0 ∧ bl0.killed = none ∧
       g0.trues hOne = [0] ∧ s.lane? g0.w 0 = some la0) ∧
    (let x := { la0 with inHandler := true }
     let s := withWarp { wp0 with lanes := [x, la1] }
     let g : Grp := { g0 with wp := { wp0 with lanes := [x, la1] } }
     s.grp = some g ∧ s.recOfBlock g.wp.block = some lr0 ∧ s.block? g.wp.block = some bl0 ∧ g.trues hOne = [0] ∧ s.lane? g.w 0 = some x) := by
  decide
theorem test_witness_ExitEndsLanes :
    s0.grp = some g0 ∧ (∀ e ∈ s0.blocks, ∀ a ∈ e.2.barArrived, a.1 = g0.w → a.2 ∉ g0.lanes) ∧
      (∀ bl, s0.block? g0.wp.block = some bl → bl.arrivals = []) ∧ SeqRuns q0 0 te0 :=
  ⟨by decide, by decide, by rintro _ ⟨⟩; rfl, seqRuns0⟩

/-- Addresses 192 and 0, through v6:v7. -/
def m0 : MAddr := { base := .v 6, index := .zero, isc := 0, off := 0 }
theorem clear0 {i : MemI} (hp : ∀ l ∈ g0.trues h, (s0.passFalse g0 h).checkLane ((s0.passFalse g0 h).whoOf g0) g0.pc i.kind
    ((s0.laneRegs g0 l).addr m0) i.bytes i.align = .ok (va57 ((s0.laneRegs g0 l).addr m0)) .perform) :
    Clear (s0.passFalse g0 h) g0 (g0.trues h) m0 i :=
  ⟨lanesAll (s := s0) (w := 0) (fun la => la.tx = none) (by decide), hp, by decide⟩
def memI (k : AccKindM) (bytes : Nat) (dst : Dst) (pd : BitVec 3) (scope : Scope) : MemI :=
  { kind := k, bytes := bytes, align := bytes, dst := dst, bits := 8 * bytes, pd := pd, hint := h.hint, scope := scope, pin := false, rel := false }

theorem test_witness_MemoryWritesAreAsked :
    Runs s0 g0 8 ∧ g0.trues h ≠ [] ∧
      Clear (s0.passFalse g0 h) g0 (g0.trues h) m0 { memI .store 4 .none 7 .wp with bits := 0 } ∧
      Clear (s0.passFalse g0 h) g0 (g0.trues h) m0 (memI (.atom .add .i32 true) 4 (.v 1) 7 .dv) ∧
      Clear (s0.passFalse g0 h) g0 (g0.trues h) m0 (memI (.atom .add .i32 false) 4 .none 7 .dv) ∧
      Clear (s0.passFalse g0 h) g0 (g0.trues h) m0 { memI .fset 16 .none 1 .dv with bits := 64 } ∧
      Clear (s0.passFalse g0 h) g0 (g0.trues h) m0 { memI .fclr 16 .none 7 .dv with bits := 64 } :=
  ⟨runs0 (by decide), by decide, clear0 (by decide), clear0 (by decide), clear0 (by decide), clear0 (by decide), clear0 (by decide)⟩

theorem test_witness_MemoryReadsAreAsked :
    Runs s0 g0 8 ∧ g0.trues h = 0 :: [1] ∧ s0.specFence g0.w (lanesMask g0.lanes) = none ∧
      Clear (s0.passFalse g0 h) g0 (g0.trues h) m0 (memI (.load true) 4 (.v 1) 7 .wp) ∧
      Clear (s0.passFalse g0 h) g0 (g0.trues h) m0 (memI (.load false) 4 (.s 1) 7 .wp) ∧
      Clear (s0.passFalse g0 h) g0 (g0.trues h) m0 { memI .fld 16 (.v 2) 1 .wp with bits := 64 } ∧
      Clear (s0.passFalse g0 h) g0 (g0.trues h) m0 (memI (.waiton .eq .i32) 4 (.v 1) 7 .wp) :=
  ⟨runs0 (by decide), by decide, by decide, clear0 (by decide), clear0 (by decide), clear0 (by decide), clear0 (by decide)⟩

theorem test_witness_PrefetchAndCodeResults : Runs s0 g0 8 ∧ g0.trues h ≠ [] := ⟨runs0 (by decide), by decide⟩

theorem test_witness_GatherIssues :
    Runs s0 g0 8 ∧ g0.trues h ≠ [] ∧ (s0.cluster (clusterOf g0.wp.core)).freeLock = some 0 ∧
      Clear (s0.passFalse g0 h) g0 (g0.trues h) m0 (memI (.gath (mapFresh s0.gathers)) 4 (.v 1) 7 .wp) :=
  ⟨runs0 (by decide), by decide, by decide, clear0 (by decide)⟩

/-- The addresses of lanes 0 and 1 through v2:v3: lane 0's is not canonical. -/
theorem test_witness_AddressCheckTraps :
    canonical ((s0.laneRegs g0 0).addr { m0 with base := .v 2 }) = false ∧
      (canonical ((s0.laneRegs g0 0).addr { m0 with base := .v 4 }) = true ∧ ((s0.laneRegs g0 0).addr { m0 with base := .v 4 }).toNat % 16 ≠ 0) ∧
      (∃ (s : State) (e : RangeLock), canonical 0 = true ∧ (0 : DWord).toNat % 4 = 0 ∧ s.wideRed (s.whoOf g0) .store 0 = false ∧
        (s.cluster 0).lockHit 1 0 0 4 true = some (3, e)) ∧
      (Runs s0 g0 8 ∧ s0.recOfBlock g0.wp.block = some lr0 ∧ lr0.handler ≠ 0 ∧ g0.trues hOne ≠ [] ∧
        (∀ l ∈ g0.trues hOne, ∀ la, s0.lane? g0.w l = some la → la.tx = none ∧ la.inHandler = false) ∧
        s0.specFence g0.w (lanesMask g0.lanes) = none ∧ (∀ l ∈ g0.trues hOne, s0.aheadOf g0.w l = none) ∧
        (∃ e, (s0.cluster ((s0.passFalse g0 hOne).whoOf g0).cluster).freeLock = some e) ∧
        ∃ τ : Nat → Trap, ∀ l ∈ g0.trues hOne, (s0.passFalse g0 hOne).checkLane ((s0.passFalse g0 hOne).whoOf g0) g0.pc (.load false)
          ((s0.laneRegs g0 l).addr { m0 with base := .v 2 }) 4 4 = .trap (τ l)) := by
  refine ⟨by decide, by decide, ⟨{ s0 with clusters := [(0, { Cluster.reset with locks := [(3,
    { view := 0, asid := 1, lo := 0, hi := 15, kind := 0, dest := true })] })] },
    { view := 0, asid := 1, lo := 0, hi := 15, kind := 0, dest := true }, by decide⟩,
    runs0 (by decide), by decide, by decide, by decide, lanesAll _ (by decide), by decide, by decide, ⟨0, by decide⟩,
    fun _ => { cause := 0x03, pc := 0, addr := some 0x0200000000000000, info := 0x06, resume := 0 }, by decide⟩

/-- Both lanes in a transaction. -/
def wpTx : Warp :=
  { wp0 with lanes := [{ la0 with tx := some { fallback := 64, reads := [], writes := [] } },
                       { la1 with tx := some { fallback := 64, reads := [], writes := [] } }] }
theorem test_witness_TransactionResults :
    (Runs s0 g0 0 ∧ g0.trues h ≠ [] ∧ ∀ l ∈ g0.trues h, ∀ la, s0.lane? g0.w l = some la → la.tx = none) ∧
      (let g : Grp := { g0 with wp := wpTx }
       Runs (withWarp wpTx) g 0 ∧ g.trues h ≠ [] ∧ ∀ l ∈ g.trues h, ∀ la, (withWarp wpTx).lane? g.w l = some la → la.tx ≠ none) :=
  ⟨⟨runs0 (by decide), by decide, lanesAll _ (by decide)⟩, ⟨by decide, by decide⟩, by decide, lanesAll _ (by decide)⟩

/-- A release of lane 0 at the word, whose older operations are over. -/
def f0 : FenceOp :=
  { warp := 0, lanes := 1, kind := .rel, scope := .dv, spec := false, pc := 0, after := .step, step := 4, loads := [], writes := [],
    born := 0, issued := 0, saved := [], specLines := [], back := false, until_ := 0 }
theorem test_witness_FenceAndReleaseResults :
    (Runs s0 g0 0 ∧ g0.trues h ≠ [] ∧ ∀ l ∈ g0.trues h, ∀ la, s0.lane? g0.w l = some la → la.tx = none) ∧
      (let s : State := { s0 with fences := [(5, f0), (6, { f0 with spec := true, kind := .acq }), (7, { f0 with spec := true, back := true })] }
       (∀ n f, (n = 5 ∧ f = f0) ∨ (n = 6 ∧ f = { f0 with spec := true, kind := .acq }) ∨ (n = 7 ∧ f = { f0 with spec := true, back := true }) →
         mapGet? s.fences n = some f ∧ s.warp? f.warp = some wp0 ∧ (∀ x ∈ f.loads, x ∉ s.openLoads f.warp f.lanes) ∧
         (f.kind = .acq ∨ ((∀ x ∈ f.writes, x ∉ s.openWrites f.warp f.lanes) ∧ f.step = 4 ∧
           f.until_ ≤ s.gtimeAt (placeCore wp0.core)))) ∧ f0.spec = false ∧ f0.back = false ∧ f0.after = .step) := by
  refine ⟨⟨runs0 (by decide), by decide, lanesAll _ (by decide)⟩, ?_, rfl, rfl, rfl⟩
  rintro n f (⟨rfl, rfl⟩ | ⟨rfl, rfl⟩ | ⟨rfl, rfl⟩)
  · exact ⟨by decide, by decide, by decide, .inr ⟨by decide, rfl, Nat.zero_le _⟩⟩
  · exact ⟨by decide, by decide, by decide, .inl rfl⟩
  · exact ⟨by decide, by decide, by decide, .inr ⟨by decide, rfl, Nat.zero_le _⟩⟩

/-- Tag 0 is ready, tag 1 is not, tag 2 is ready and has failed. -/
def sTags : State :=
  withBlock { bl0 with tags := [(0, { count := 0, ready := true, failed := none }), (1, { count := 1, ready := false, failed := none }),
                                (2, { count := 0, ready := true, failed := some (192, 3) })] }
/-- A launch of eight tags. -/
def sEight : State := withRec { lr0 with tags := 8 }
def inMask (m : DWord) (n : Nat) : Bool := n < 64 && m.getLsbD n
theorem test_witness_TagInstructionResults :
    (sTags.grp = some g0 ∧ g0.trues h = 0 :: [1]) ∧
      ((s0.laneRegs g0 0).tagOf (.tag 63) < s0.tagsOf 0 ∧ ¬ (sEight.laneRegs g0 0).tagOf (.tag 8) < sEight.tagsOf 0) ∧
      ((∀ n < 64, inMask 0xFFFFFFFFFFFFFFFF n = true → n < s0.tagsOf 0) ∧ ¬ ∀ n < 64, inMask 0x100 n = true → n < sEight.tagsOf 0) ∧
      ((sTags.laneRegs g0 0).src64 (.int 1) = 1 ∧ ∀ n < 64, inMask 1 n = true → (sTags.tag 0 0 n).ready = true ∧ (sTags.tag 0 0 n).failed = none) ∧
      (inMask 3 1 = true ∧ (sTags.tag 0 0 1).ready = false ∧ ∀ n < 64, inMask 2 n = true → ¬ (sTags.tag 0 0 n).ready = true) ∧
      ((∀ n < 64, inMask 4 n = true → (sTags.tag 0 0 n).ready = true ∧ (sTags.tag 0 0 n).failed ≠ none) ∧ inMask 4 2 = true) ∧
      ((∀ n < 64, inMask 3 n = true → (sTags.tag 0 0 n).ready = true → (sTags.tag 0 0 n).failed = none) ∧ inMask 3 0 = true) ∧
      2 + 1 ≤ sTags.regsOf 0 := by
  decide

def sBroken : State := withBlock { bl0 with broken := some (3, 1, 192) }
theorem test_witness_BarrierInstructionResults :
    (s0.grp = some g0 ∧ g0.trues h = 0 :: [1] ∧ ∀ k ∈ g0.trues h, ∀ la, s0.lane? g0.w k = some la → la.tx = none) ∧
      (s0.block? 0).bind (·.broken) = none ∧
      ((0#5).toNat < s0.nbarsOf 0 ∧ 0 < (s0.laneRegs g0 0).src32 (.int 1) ∧ (s0.laneRegs g0 0).src32 (.lit 16388) ≤ 16388) ∧
      (if Opd.zero = .zero then g0.wp.rank else 1) < s0.coresOf 0 ∧
      (s0.nbarsOf 0 ≤ (1#5).toNat ∧ (s0.laneRegs g0 0).src32 .zero = 0 ∧ 16388 < (s0.laneRegs g0 0).src32 (.lit 16389)) ∧
      s0.coresOf 0 ≤ (s0.laneRegs g0 0).src32 (.int 1) ∧
      (sBroken.grp = some g0 ∧ (∀ k ∈ g0.trues h, ∀ la, sBroken.lane? g0.w k = some la → la.tx = none) ∧
        (sBroken.block? 0).bind (·.broken) = some (3, 1, 192)) :=
  ⟨⟨by decide, by decide, lanesAll _ (by decide)⟩, by decide, by decide, by decide, by decide, by decide, by decide, lanesAll _ (by decide),
    by decide⟩

/-- The sequencer of `te`, with a block. -/
def seqOf (te : Tenant) (bl : Block) : State := { q0 with tenants := [(0, te)], blocks := [(0, bl)] }
def opOf (i : Instr) (vals : List DWord) : TileOp := { instr := i, pc := 0, vals := vals, doneClock := 0, last := 0, locks := [], paused := none }
theorem test_witness_SequencerTagAndBarrierResults :
    (SeqRuns q0 0 te0 ∧ guardOf h te0.pred = true) ∧ (0#5).toNat < q0.nbarsOf 0 ∧ 0 < 16388 ∧ te0.rank < q0.coresOf 0 ∧ te0.writing = false ∧
      (let te := { te0 with queue := [opOf (.tzero h false 0) []] }
       SeqRuns (seqOf te bl0) 0 te ∧ guardOf h te.pred = true ∧ te.writing = true) ∧
      (q0.block? 0 = some bl0 ∧ bl0.broken = none) ∧
      (let bl := { bl0 with broken := some (3, 1, 192) }
       SeqRuns (seqOf te0 bl) 0 te0 ∧ (seqOf te0 bl).block? 0 = some bl ∧ bl.broken = some (3, 1, 192) ∧ te0.st ≠ .exited) ∧
      (63 < q0.tagsOf 0 ∧ ∀ n < 64, inMask 0xFFFFFFFFFFFFFFFF n = true → n < q0.tagsOf 0) ∧
      (let s := seqOf te0 { bl0 with tags := [(0, { count := 0, ready := true, failed := none })] }
       SeqRuns s 0 te0 ∧ (∀ n < 64, inMask 1 n = true → (s.tag 0 0 n).ready = true ∧ (s.tag 0 0 n).failed = none) ∧
       (∀ n < 64, inMask 2 n = true → ¬ (s.tag 0 0 n).ready = true) ∧
       ∀ n < 64, inMask 3 n = true → (s.tag 0 0 n).ready = true → (s.tag 0 0 n).failed = none) :=
  ⟨⟨seqRuns0, by decide⟩, by decide, by decide, by decide, by decide, ⟨⟨by decide, by decide +kernel⟩, by decide, by decide⟩, by decide,
    ⟨⟨by decide, by decide⟩, by decide, by decide, by decide⟩, by decide, ⟨⟨by decide, by decide⟩, by decide, by decide, by decide⟩⟩

theorem test_witness_TileInstructionsEnterTheirQueue :
    (SeqRuns q0 0 te0 ∧ guardOf h te0.pred = true ∧ te0.queue.length < 8) ∧
      (let te (n : Nat) : Tenant := { te0 with queue := List.replicate n (opOf (.tzero h false 0) []) }
       (SeqRuns (seqOf (te 7) bl0) 0 (te 7) ∧ (te 7).queue.length < 8) ∧ SeqRuns (seqOf (te 8) bl0) 0 (te 8) ∧ 8 ≤ (te 8).queue.length) :=
  ⟨⟨seqRuns0, by decide, by decide⟩, ⟨⟨by decide, by decide +kernel⟩, by decide⟩, ⟨by decide, by decide +kernel⟩, by decide⟩

/-- A last of rank 1, of `n` elements from address 0, at the start of the scratch window of the block. -/
def atLast : DWord := 0x10000000000
def lastBits (n : Nat) : Nat := 2 ^ 64 + n * 2 ^ 128
def sLast (i : Instr) (vals : List DWord) (n : Nat) : State :=
  { seqOf { te0 with queue := [opOf i vals] } bl0 with
    grids := [(0, { gr0 with lrec := { lr0 with scratch := 192 } })]
    clusters := [(0, { Cluster.reset with banks := [(0, { Bank.reset with mode := .scratchpad 0, bytes := [(8, 1), (16, BitVec.ofNat 8 n)] })] })] }
/-- The read of that last, and a test of what it leaves. -/
def lastIs (P : State → Nat → Bool) (s : State) : Bool :=
  match s.readLast (s.whoSeq te0) te0.core (some te0.block) (va57 atLast) with
  | (s1, .ok v) => P s1 v
  | _ => false
theorem ofLastIs {P} {s : State} (hs : lastIs P s = true) :
    ∃ s1 v, s.readLast (s.whoSeq te0) te0.core (some te0.block) (va57 atLast) = (s1, .ok v) ∧ P s1 v = true := by
  unfold lastIs at hs
  split at hs
  · next s1 v e => exact ⟨s1, v, e, hs⟩
  · cases hs
/-- Its checks pass; the slot of the launch is the first, of format FP64. -/
def lastGood (n : Nat) (s1 : State) (v : Nat) : Bool :=
  v = lastBits n && !lastIllop (BitVec.ofNat 512 v) 0 0 && !(Last.ofBits (BitVec.ofNat 512 v)).misaligned 0 &&
    slotFmt ((s1.slotsOf 0).getD (Last.ofBits (BitVec.ofNat 512 v)).slot 0) = 0 && s1.engineLoad 0 < 256 && 1 ≤ (s1.cluster 0).locksFree
def dec0 : Decomp := { pat := .p24, terms := 1, tu := 0, status := 2, l := 0, s := 0, offcuts := [] }
def iTld : Instr := .tld h 0 20 none
def iDrain : Instr := .tdrain h false false false .dv .f32 0 20 none (.tag 0)

theorem test_witness_TileInstructionsStartAndComplete :
    (∀ i ∈ [Instr.tzero h false 0, .dcmp h .p24 0 20 1 .zero, .mma h 0 0 1, .mmas h .p24 0 0 1 2, .tmov h .f32 0 0 (.int 0),
        .tepi h .none .f32 0 0 (.int 0) .zero none, .tcfg h .slot 1 (.int 7), .mmad h 0 0 1],
      let te := { te0 with queue := [opOf i [7]], decomp := [(0, dec0)] }
      (seqOf te bl0).tenant? 0 = some te ∧ (seqOf te bl0).headFree te i = true ∧ te.parked = false ∧
        (seqOf te bl0).isSaving (some te.block) = false ∧ mapGet? te.decomp 0 = some dec0) ∧
      productBad 0 (te0.tile (q0.slotsOf 0) 0) (te0.tile (q0.slotsOf 0) 1) = false ∧ (te0.tile (q0.slotsOf 0) 0).K % patM .p24 = 0 ∧
      32 * (0 : DWord).toNat < (te0.tile (q0.slotsOf 0) 0).K ∧ (7 : DWord).toNat < 8 ∧
      ((0x00200000 : DWord).toNat % 65536 ≤ (0x00200000 : DWord).toNat / 65536 ∧ (0x00200000 : DWord).toNat / 65536 ≤ 32) ∧
      (∀ i ∈ [Instr.tzero h false 0, .mma h 0 0 1, .mmas h .p24 0 0 1 2, .dcmp h .p24 0 20 1 .zero, .mmad h 0 0 1, .tmov h .f32 0 0 (.int 0),
          .tepi h .none .f32 0 0 (.int 0) .zero none, iTld],
        let te := { te0 with running := [opOf i []], decomp := [(0, dec0)] }
        (seqOf te bl0).tenant? 0 = some te ∧ te.running[0]? = some (opOf i []) ∧ (opOf i []).doneClock ≤ (seqOf te bl0).clock te.core ∧
          mapGet? te.decomp 0 = some dec0 ∧ (opOf i []).paused = none ∧ (seqOf te bl0).isSaving (some te.block) = false) := by
  decide +kernel

/-- A tile load starts where its last is read, of no element and of one. -/
theorem test_witness_TileLoadStarts :
    (∀ n ∈ [0, 1], ∃ s1 v, let s := sLast iTld [atLast] n
      canonical atLast = true ∧ atLast.toNat % 64 = 0 ∧
        s.readLast (s.whoSeq te0) te0.core (some te0.block) (va57 atLast) = (s1, .ok v) ∧ lastGood n s1 v = true) ∧
      tileReads (Last.ofBits (BitVec.ofNat 512 (lastBits 0))) 0 (orgOf []) = [] ∧
      tileReads (Last.ofBits (BitVec.ofNat 512 (lastBits 1))) 0 (orgOf []) ≠ [] := by
  refine ⟨fun n hn => ?_, by decide +kernel, by decide +kernel⟩
  obtain ⟨s1, v, e, hg⟩ := ofLastIs (P := lastGood n) (s := sLast iTld [atLast] n)
    (by rcases List.mem_cons.mp hn with rfl | hn
        · decide +kernel
        · obtain rfl := List.mem_singleton.mp hn; decide +kernel)
  exact ⟨s1, v, by decide, by decide, e, hg⟩

/-- … and a drain, of no element and of one. -/
def drainGood (n : Nat) (s1 : State) (v : Nat) : Bool :=
  let ps := drainPieces te0 (Last.ofBits (BitVec.ofNat 512 v)) 0 (orgOf []) .f32 false 0 (fun _ => 0)
  let cop := drainOp s1 0 te0 (opOf iDrain [0, atLast]) 0 .dv 0 none ps
  lastGood n s1 v && ps.all (fun p => canonical p.addr) && (ps.isEmpty == (n == 0)) && s1.copyRoom cop &&
    (match s1.probeDst cop with | (_, .ok none, _) => true | _ => false)
theorem test_witness_TileDrainStarts :
    ∀ n ∈ [0, 1], lastIs (drainGood n) (sLast iDrain [0, atLast] n) = true ∧ (0 : DWord).toNat < (sLast iDrain [0, atLast] n).tagsOf 0 := by
  decide +kernel

theorem test_witness_TileMoveResults :
    (Runs s0 g0 8 ∧ g0.trues h ≠ [] ∧ s0.tenantOn 0 0 = some 0 ∧ s0.tenant? 0 = some te0) ∧
      (let s : State := { withBlock { bl0 with tenants := [] } with tenants := [] }
       Runs s g0 8 ∧ s.tenantOn 0 0 = none) :=
  ⟨⟨runs0 (by decide), by decide, by decide, by decide⟩, ⟨by decide, by decide⟩, by decide⟩

/-- An operation of an engine of cluster 0 in progress. -/
def cp0 : CopyOp :=
  { kind := .cpy, st := .active, ctx := 0, asid := 1, view := 0, cluster := 0, core := 0, block := some 0, rank := 0, tag := some 0,
    scope := .dv, warp := none, lane := 0, pc := 0, instr := none, args := [], snap := [], org := .zero, auto := false, armed := false, pieces := [],
    back := false, add := none, total := 0, ahead := [], locks := [], counting := [], paused := none, tenant := none, cmd := none,
    rel := none, group := 0 }
theorem test_witness_CopyIssues :
    (Runs s0 g0 8 ∧ g0.trues hOne = 0 :: [] ∧ (∀ k ∈ g0.trues hOne, ∀ la, s0.lane? g0.w k = some la → la.tx = none) ∧
      (s0.laneRegs g0 0).tagOf (.tag 63) < s0.tagsOf 0 ∧ s0.viewOf 0 = 0 ∧
      (∀ k ∈ g0.trues hOne, (s0.laneRegs g0 k).src32 (.int 16) ≠ 0 ∧ (s0.passFalse g0 hOne).checkCpy (s0.whoOf g0) g0.pc
        (BitVec.ofNat 64 ((s0.laneRegs g0 k).src64 (.v 6))) (BitVec.ofNat 64 ((s0.laneRegs g0 k).src64 .zero)) 16 = none) ∧
      s0.engineLoad (clusterOf g0.wp.core) < 256 ∧ (∀ e ∈ s0.copies, e.2.warp = some g0.w → e.2.atIssue = false) ∧
      mapGet? (s0.cluster 0).locks 0 = none ∧ mapGet? (s0.cluster 0).locks 31 = none ∧ 2 ≤ (s0.cluster 0).locksFree) ∧
      (let c255 : State := { s0 with copies := List.replicate 255 (0, cp0) }
       let c256 : State := { s0 with copies := List.replicate 256 (0, cp0) }
       c255.engineLoad 0 < 256 ∧ c256.grp = some g0 ∧ 256 ≤ c256.engineLoad 0) :=
  ⟨⟨runs0 (by decide), by decide, lanesAll _ (by decide), by decide, by decide, by decide, by decide, by decide, by decide, by decide, by decide⟩,
    by decide +kernel, by decide +kernel, by decide +kernel⟩

/-- Page 0 of context 0 is mapped, as type 2, to the first frame of host memory, and the mapping stands in the translator of its slice. -/
def sMap (m : List Host.Cell) : State :=
  { s0 with
    mem := m
    slices := [(s0.homeOf 0 0, { Slice.reset with
      tlb := [{ asid := 1, page := 0, pages := 1, level := 0, leaf := BitVec.ofNat 64 (0xDF + 2 ^ 45 + 2 ^ 62), entry := 0 }] })] }
def isOk {α : Type} (r : State × EngR α) : Bool :=
  match r.2 with
  | .ok _ => true
  | _ => false
theorem ofIsOk {α : Type} {r : State × EngR α} (hr : isOk r = true) : ∃ s v, r = (s, .ok v) := by
  rcases r with ⟨s, v⟩
  cases v <;> simp_all [isOk]
/-- What a read of a record answers passes a test. -/
def readIs (P : State → List (BitVec 8) → Bool) (r : State × EngR (List (BitVec 8)) × Nat) : Bool :=
  match r.2.1 with
  | .ok bs => P r.1 bs
  | _ => false
theorem ofReadIs {P} {r : State × EngR (List (BitVec 8)) × Nat} (hr : readIs P r = true) : ∃ s bs a, r = (s, .ok bs, a) ∧ P s bs = true := by
  rcases r with ⟨s, v, a⟩
  cases v <;> simp_all [readIs]

/-- What an operation reads and writes of the next sector is performed; or its reads are not, and it does not end for that. -/
def deliversOk (d : State) (c : CopyOp) : Bool :=
  let e := d.nextSector c
  let due := c.pieces.filterMap (fun p => p.part e.1 e.2)
  let whole := c.add.isNone && (List.range (e.2 - e.1)).all (fun i => due.any (fun p => p.dst ≤ e.1 + i && e.1 + i < p.dst + p.len))
  match d.readParts c due with
  | (s1, .ok ahead, _) => isOk ((s1.writeParts c ahead due whole).1, (s1.writeParts c ahead due whole).2.1)
  | _ => false
def staysOpen (d : State) (n : Nat) (c : CopyOp) : Bool :=
  match d.readParts c (c.pieces.filterMap (fun p => p.part (d.nextSector c).1 (d.nextSector c).2)) with
  | (_, .ok _, _) => false
  | (_, r, x) => (mapGet? (d.stopCopy n c x r).copies n).all (fun c => c.pieces ≠ [])

/-- A copy of the 16 bytes at 192 to 0 in progress. -/
def p16 : CopyPiece := { dst := 0, src := some 192, len := 16, keep := none, data := 0, row := 0 }
def cp16 : CopyOp := { cp0 with pieces := [p16], total := 16 }
def sCopy : State := { sMap [] with copies := [(7, cp16)] }
theorem test_witness_TensorCopyAndDeliveryResults :
    (Runs s0 g0 8 ∧ g0.trues hOne = 0 :: [] ∧ (∀ k ∈ g0.trues hOne, ∀ la, s0.lane? g0.w k = some la → la.tx = none) ∧
      (s0.laneRegs g0 0).tagOf (.tag 63) < s0.tagsOf 0 ∧
      ∀ k ∈ g0.trues hOne, canonical (BitVec.ofNat 64 ((s0.laneRegs g0 k).src64 (.v 6))) = true ∧
        (BitVec.ofNat 64 ((s0.laneRegs g0 k).src64 (.v 6))).toNat % 64 = 0) ∧
      (let c := { cp16 with st := .queued, warp := some 0, rel := some 9 }
       let s : State := { withWarp { wp0 with lanes := [{ la0 with hold := .engine }, la1] } with copies := [(7, c)] }
       let d := s.countDelivered 7 c
       mapGet? s.copies 7 = some c ∧ c.tenant = none ∧ c.paused = none ∧ c.counting = [] ∧ c.auto = false ∧ c.total ≠ 0 ∧
         (d.warp? 0).isSome = true ∧ d.copyHeld c = (true, true) ∧ d.copyTurn 7 c = true ∧ d.copyRoom c = true ∧ mapGet? d.fences 9 = none) ∧
      ((∀ s ∈ [sCopy, { s0 with copies := [(7, cp16)] }], mapGet? s.copies 7 = some cp16 ∧
          (s.countDelivered 7 cp16).isSaving cp16.block = false) ∧
        cp16.st = .active ∧ cp16.paused = none ∧ (cp16.armed = true → cp16.locks ≠ []) ∧ cp16.pieces ≠ [] ∧
        deliversOk (sCopy.countDelivered 7 cp16) cp16 = true ∧
        staysOpen (State.countDelivered { s0 with copies := [(7, cp16)] } 7 cp16) 7 cp16 = true) ∧
      (let c := { cp0 with st := .closed }
       let s : State := { s0 with copies := [(7, c)] }
       mapGet? s.copies 7 = some c ∧ c.st = .closed ∧ mapGet? (s.countDelivered 7 c).copies 7 = some c ∧ c.counting = []) :=
  ⟨⟨runs0 (by decide), by decide, lanesAll _ (by decide), by decide, by decide⟩, by decide,
    ⟨by decide, rfl, rfl, by decide, by decide, by decide +kernel, by decide +kernel⟩, by decide⟩

theorem test_witness_PhaseBoundaryResults :
    (s0.grp = some g0 ∧ g0.trues h ≠ [] ∧ (∀ k ∈ g0.trues h, ∀ la, s0.lane? g0.w k = some la → la.tx = none ∧ la.inHandler = false) ∧
      s0.block? 0 = some bl0 ∧ s0.recOfBlock 0 = some lr0 ∧ lr0.psize ≠ 0 ∧ bl0.judging = false ∧ bl0.broken = none ∧ bl0.depth = 0 ∧
      lr0.gang = 0 ∧ sameKind (bl0.arrivals ++ (g0.trues h).map (fun l => { warp := 0, lane := l, kind := .pbar, pc := 0, label := 0 })) = true) ∧
      (let s := withRec { lr0 with psize := 0, gang := 2 }
       s.grp = some g0 ∧ s.block? 0 = some bl0 ∧ s.recOfBlock 0 = some { lr0 with psize := 0, gang := 2 }) ∧
      (let s := withBlock { bl0 with judging := true, depth := 4 }
       s.grp = some g0 ∧ s.block? 0 = some { bl0 with judging := true, depth := 4 } ∧ s.recOfBlock 0 = some lr0) ∧
      (SeqRuns q0 0 te0 ∧ guardOf h te0.pred = true ∧ q0.recOfBlock te0.block = some lr0 ∧ q0.block? te0.block = some bl0 ∧ te0.queue = [] ∧ te0.running = [] ∧
        ∀ c ∈ q0.copies, c.2.tenant = some 0 → c.2.st = .closed) :=
  ⟨⟨by decide, by decide, lanesAll _ (by decide), by decide, by decide, by decide, by decide, by decide, by decide, by decide, by decide⟩,
    by decide, by decide, seqRuns0, by decide, by decide, by decide, by decide, by decide, by decide⟩

/-- The block in a world: view 5. -/
def vw0 : View :=
  { parent := 0, ctx := 0, grid := 0, slot := 0, outbox := [], outNo := 0, latest := 0, returnAt := none, commit := none, pendingInstalls := [], performing := none }
def sWorld : State := { withBlock { bl0 with view := 5, depth := 1 } with views := [(5, vw0)] }
/-- The queue of device launches of context 0 is full. -/
def dl1 : DevLaunch := { ctx := 0, addr := 192, grid := 0, warp := none, group := 99, waiting := none, view := none, paused := none, due := 0 }
def sFull : State := { s0 with devLaunches := List.replicate 1024 (7, dl1) }
theorem test_witness_LaunchAndEventResults :
    (Runs s0 g0 8 ∧ g0.trues h ≠ [] ∧ (∀ k ∈ g0.trues h, ∀ la, s0.lane? g0.w k = some la → la.tx = none) ∧
      s0.viewOf g0.wp.block = 0 ∧ s0.launches (s0.ctxIdOf g0.wp.block) + (g0.trues h).length ≤ 1024) ∧
      (Runs sWorld g0 8 ∧ sWorld.viewOf g0.wp.block ≠ 0) ∧
      (sFull.grp = some g0 ∧ (match Opd.v 6 with | .v _ => g0.trues h | _ => (g0.trues h).take 1) = 0 :: [1] ∧
        canonical (BitVec.ofNat 64 ((sFull.laneRegs g0 0).src64 (.v 6))) = true ∧ (sFull.laneRegs g0 0).src64 (.v 6) % 192 = 0 ∧
        sFull.viewOf g0.wp.block = 0 ∧ 1024 ≤ sFull.launches (sFull.ctxIdOf g0.wp.block) ∧
        (∀ e ∈ sFull.devLaunches, e.2.warp = some g0.w → e.2.group ≠ sFull.tick)) ∧
      canonical (0x0200000000000000 : DWord) = false ∧ (canonical (8 : DWord) = true ∧ (8 : DWord).toNat % 192 ≠ 0) ∧
      (canonical (192 : DWord) = true ∧ (192 : DWord).toNat % 192 = 0) ∧ s0.block? g0.wp.block = some bl0 :=
  ⟨⟨runs0 (by decide), by decide, lanesAll _ (by decide), by decide, by decide⟩, ⟨⟨by decide, by decide⟩, by decide⟩,
    ⟨by decide, by decide, by decide, by decide, by decide, by decide +kernel, fun e he hw => by rw [List.eq_of_mem_replicate he] at hw; cases hw⟩,
    by decide, by decide, by decide, by decide⟩

def rv (status : Nat) : RivalEnd := { status := status, score := 0, view := 6, chosen := false, time := 0, isOver := true }
theorem test_witness_WorldInstructionResults :
    (Runs s0 g0 8 ∧ g0.trues h ≠ [] ∧ (∀ k ∈ g0.trues h, ∀ la, s0.lane? g0.w k = some la → la.tx = none ∧ la.inHandler = false) ∧
      s0.block? 0 = some bl0 ∧ bl0.depth = 0 ∧ bl0.judging = false) ∧
      (sWorld.grp = some g0 ∧ sWorld.block? 0 = some { bl0 with view := 5, depth := 1 } ∧ (1 : Nat) ≠ 0) ∧
      (let bl := { bl0 with judging := true, rivals := [rv 0, rv 4] }
       let s := withBlock bl
       s.grp = some g0 ∧ s.block? 0 = some bl ∧ bl.judging = true ∧
         ((s.passFalse g0 h).groupSrc g0 (g0.trues h) (.int 0) = 0 ∧ bl.rivals[0]? = some (rv 0) ∧ (rv 0).status = 0) ∧
         (8 ≤ (s.passFalse g0 h).groupSrc g0 (g0.trues h) (.int 8)) ∧
         ∀ r, bl.rivals[1]? = some r → r.status ≠ 0) :=
  ⟨⟨runs0 (by decide), by decide, lanesAll _ (by decide), by decide, by decide, by decide⟩, by decide,
    by decide, by decide, by decide, by decide, by decide, by rintro _ ⟨⟩; decide⟩

/-- A warp whose lane waits at a word whose line is in the instruction cache: `nop`. -/
def sNop : State := s0.putWord 0 0 1 0 0 0x0000000000000003B8000000000000C6#128
theorem test_witness_IssueChoiceResults :
    (sNop.partWarps 0 0 ≠ [] ∧ sNop.partWarps 0 1 = []) ∧
      (State.candidates 0 (sNop.allCands 0 0 0 [(0, wp0)]) [(0, wp0)] ≠ [] ∧ State.candidates 0 (s0.allCands 0 0 0 []) [] = []) ∧
      (let a : ICand := { w := 0, wp := wp0, lanes := [0], pc := 0, instr := none, why := none }
       let b : ICand := { a with lanes := [1], pc := 16 }
       let ctr (c : ICand) : Nat := if c.pc = 16 then 64 else 63
       pickGroup ctr [a, b] = some b ∧ pickGroup (fun _ => 63) [a, b] = some a) := by
  decide +kernel

/-- A thrifty producer of v1 for lane 0 that a stalled `nop` at 0 waited for. -/
def pn0 : Pend :=
  { lanes := 1, vregs := [1], sregs := [], preds := [], done := some 0, unit := .vec, thrifty := true, promise := none, slk := 1, pc := 0,
    issued := 0, req := none }
def st0 : Stall := { lanes := 1, pc := 0, producers := [pn0] }
theorem test_witness_ClockEventResults :
    (let u : Inst := { kind := .vec, thrifty := true }
     let p : Part := { insts := [{ inst := u, queue := [(0, 4)], busyUntil := 0, gated := false, wakeAt := none }], batch := some (1, 0),
                       ctrlUsed := 0, histEvents := 0 }
     let s : State := { s0 with cores := [(0, { Core.reset with parts := [(0, p)] })] }
     (s.part 0 0).batch = some (1, 0) ∧ 0 ≤ s.clock 0 ∧ ((s.part 0 0).inst u).queue = (0, 4) :: []) ∧
      (let u : Inst := { kind := .vec, thrifty := false }
       let p : Part := { insts := [{ inst := u, queue := [], busyUntil := 0, gated := true, wakeAt := some 9 }], batch := none, ctrlUsed := 0,
                         histEvents := 0 }
       let s : State := { s0 with pulses := 40, cores := [(0, { Core.reset with parts := [(0, p)] })] }
       ((s.part 0 0).inst u).wakeAt = some 9 ∧ 9 ≤ s.clock 0) ∧
      (let u : Inst := { kind := .vec, thrifty := false }
       let s : State := { s0 with pulses := 40 }
       ((s.part 0 0).inst u).queue = [] ∧ ((s.part 0 0).inst u).wakeAt = none ∧ ((s.part 0 0).inst u).busyUntil + 32 ≤ s.clock 0) ∧
      s0.warp? 0 = some wp0 ∧
      (let wp := { wp0 with stalls := [st0], tenable := 0x80 }
       ∀ fs ∈ [[], [(5, { f0 with spec := true })]],
       let s : State := { sNop with warps := [(0, wp)], fences := fs }
       s.warp? 0 = some wp ∧ wp.stalls.find? (fun x => decide (x.producers ≠ []) && (s.stallOver (s.clock wp.core) wp x).isSome) = some st0 ∧
         st0.charged = some pn0 ∧ s.stallOver (s.clock wp.core) wp st0 = some [0, 1] ∧ wp.tenable.getLsbD 7 = true ∧
         (wp.lane? 0).any (fun la => !la.inHandler) = true ∧ s.aheadOf 0 1 = none ∧ s.aheadOf 0 0 = if fs = [] then none else some 5) := by
  decide +kernel

/-- A load of 4 bytes at 192 by lane 0 of the warp, waiting to be sent. -/
def rq0 : Req :=
  { kind := .load false, st := .waiting, ctx := 0, asid := 1, view := 0, core := 0, warp := some 0, block := some 0, line := 1, page := 0,
    accs := [{ lane := 0, addr := 192, bytes := 4, data := 0, result := none, pred := false }], uni := 0, dst := .v 1, bits := 32, pd := 7,
    hint := 0, scope := .wp, pin := false, rel := false, inTx := false, demand := true, keep := true, keepCc := true, lookAt := 0, hitAt := none, exp := 0, readNo := 0, slot := none, sentNo := 0, pc := 0, tcl := 0,
    tdv := 0, tsy := 0, fill := none, replay := none, group := 0, due := 0, word := 0 }
def withReq (q : Req) : State := { s0 with reqs := [(3, q)] }
/-- A copy of line 1 whose lease runs for long. -/
def dl0 : DLine :=
  { line := 1, asid := 1, view := 0, ctx := 0, data := 0, valid := 0xFFF, expiry := 1000, tldv := 0, tlsy := 0, hint := 0, lastUse := 0, way := 0,
    leafs := [(0, 0xDF)] }
theorem gtimeAt_le (s : State) (p : Nat) : s.gtimeAt p ≤ s.gtime + 2 := by
  unfold State.gtimeAt
  omega
theorem early (p : Nat) (s : State) (hs : s.pulses = 0) : s.gtimeAt p < 1000 := by
  have := gtimeAt_le s p
  unfold State.gtime at this
  omega
theorem ccFresh : ({ withReq { rq0 with st := .sent } with clusters := [(0, { Cluster.reset with cc := [dl0] })] } : State).ccCopy
    { rq0 with st := .sent } = some dl0 := by
  have e := early (placeCluster 0) ({ withReq { rq0 with st := .sent } with clusters := [(0, { Cluster.reset with cc := [dl0] })] } : State) rfl
  simp only [State.ccCopy, show clusterOf (0 : Nat) = 0 from rfl, rq0] at *
  show [dl0].find? _ = _
  rw [List.find?_cons_of_pos]
  simp only [Req.chunks, List.map, List.all_cons, List.all_nil, Bool.and_true, DLine.supplies]
  simp only [show dl0.expiry = 1000 from rfl, e, decide_true, Bool.and_true]
  decide
theorem l1Fresh : ({ withReq rq0 with cores := [(0, { Core.reset with l1d := [dl0] })] } : State).l1Copy rq0 = some dl0 := by
  have e := early (placeCore 0) ({ withReq rq0 with cores := [(0, { Core.reset with l1d := [dl0] })] } : State) rfl
  simp only [State.l1Copy, rq0] at *
  show [dl0].find? _ = _
  rw [List.find?_cons_of_pos]
  simp only [Req.chunks, List.map, List.all_cons, List.all_nil, Bool.and_true, DLine.supplies]
  simp only [show dl0.expiry = 1000 from rfl, e, decide_true, Bool.and_true]
  decide
/-- A started shootdown of the first page of the space of context 0. -/
def shooting : Queue :=
  { Queue.reset with cmds := [{ Cmd.fresh 3 (.inval 0 3 { idem := false, nocpl := false, fence := false, ring := 0, user := 0 } 0 4096 false) 0 with started := true }] }

theorem test_witness_RequestPathResults :
    (let s := withReq rq0
     s.req? 3 = some rq0 ∧ rq0.st = .waiting ∧ rq0.lookAt ≤ s.clock rq0.core ∧ s.olderOnLine 3 rq0 = false ∧ s.olderOfLane 3 rq0 = false ∧
       s.apertureOff 0 (rq0.line * 192) = none ∧
       rq0.kind.fills = true ∧ rq0.kind ≠ .prefetch ∧ rq0.hint ≠ 3 ∧ s.l1Copy rq0 = none ∧ s.pendingFill 3 rq0 = none ∧ s.slotFree rq0 = true) ∧
      ((withReq { rq0 with lookAt := 2 }).clock 0 < 2) ∧
      ({ withReq rq0 with cores := [(0, { Core.reset with l1d := [dl0] })] } : State).l1Copy rq0 = some dl0 ∧
      (let p : Req := { rq0 with st := .sent, slot := some 0 }
       let s : State := { s0 with reqs := [(3, rq0), (4, p)] }
       s.req? 3 = some rq0 ∧ s.olderOnLine 3 rq0 = false ∧ s.olderOfLane 3 rq0 = false ∧ s.l1Copy rq0 = none ∧ s.pendingFill 3 rq0 = some (4, p) ∧
         s.clock rq0.core < p.slot.getD 0 + 32) ∧
      (let q : Req := { rq0 with kind := .fld }
       (withReq q).req? 3 = some q ∧ q.kind.fills = false ∧ q.kind.slotted = false ∧ (withReq q).olderOnLine 3 q = false ∧ (withReq q).olderOfLane 3 q = false) ∧
      (let q : Req := { rq0 with kind := .store }
       (withReq q).req? 3 = some q ∧ q.kind.fills = false ∧ q.kind.slotted = true ∧ (withReq q).slotFree q = true ∧ (withReq q).olderOnLine 3 q = false ∧ (withReq q).olderOfLane 3 q = false) ∧
      (∀ k ∈ [AccKindM.load false, .gath 0, .prefetch, .store, .fset, .fclr, .atom .add .i32 true, .red .add .i32, .fld, .waiton .eq .i32],
        let q : Req := { rq0 with st := .sent, kind := k }
        (withReq q).req? 3 = some q ∧ q.st = .sent ∧ (withReq q).mayArrive 3 q = true ∧ (withReq q).apertureOff 0 192 = none) ∧
      (let q : Req := { rq0 with st := .sent, line := 0x10000000000 / 192,
                                 accs := [{ lane := 0, addr := 0x10000000000, bytes := 4, data := 0, result := none, pred := false }] }
       (withReq q).mayArrive 3 q = true ∧ ((withReq q).apertureOff 0 0x10000000000).isSome = true) ∧
      (let q : Req := { rq0 with st := .sent }
       ({ withReq q with queues := [(0, shooting)] } : State).req? 3 = some q ∧
         ({ withReq q with queues := [(0, shooting)] } : State).invalHolds 3 q = true) ∧
      ({ withReq { rq0 with st := .sent } with clusters := [(0, { Cluster.reset with cc := [dl0] })] } : State).ccCopy
        { rq0 with st := .sent } = some dl0 ∧
      (∀ t ∈ [ReqSt.retry, .ackWait true, .ackWait false], (withReq { rq0 with st := t }).req? 3 = some { rq0 with st := t }) ∧
      (let q : Req := { rq0 with kind := .waiton .eq .i32, st := .held }
       let s := withReq q
       s.req? 3 = some q ∧ 3 ∉ (s.slice (s.homeOf q.ctx q.page)).waits ∧ q.due ≤ s.sliceTime q.who q.page ∧
         s.apertureOff q.ctx (q.line * 192) = none) :=
  ⟨by decide, by decide, l1Fresh, by decide, by decide, by decide, by decide, by decide, by decide, ccFresh, by decide, by decide, by decide, Nat.zero_le _, by decide⟩

theorem test_witness_ResponseResults :
    (∀ q ∈ [{ rq0 with st := .performed }, { rq0 with st := .faulted 0 }, { rq0 with st := .error 2 },
        { rq0 with st := .performed, kind := .store }], (withReq q).req? 3 = some q ∧ q.warp = some 0 ∧ q.kind ≠ .ifetch) ∧
      (rq0.hitAt = none ∧ (withReq { rq0 with st := .performed, hitAt := some 6 }).req? 3 = some { rq0 with st := .performed, hitAt := some 6 } ∧
        (withReq { rq0 with st := .performed, hitAt := some 6 }).clock 0 < 6) ∧
      (AccKindM.load false).returns = true ∧ AccKindM.store.returns = false ∧
      ((withReq { rq0 with st := .performed, kind := .store }).warp? 0 = some wp0 ∧
        ∀ e ∈ (withReq { rq0 with st := .performed, kind := .store }).reqs, e.2.st ≠ .joined 3) ∧
      (let q : Req := { rq0 with kind := .store, st := .held }
       let k : Bank := { Bank.reset with mode := .fifo 0 0, waiting := [3], fifo := List.replicate 3 7 }
       let s : State := { withReq q with clusters := [(0, { Cluster.reset with banks := [(2, k)] })] }
       ((s.cluster 0).bank 2).mode = .fifo 0 0 ∧ ((s.cluster 0).bank 2).waiting = 3 :: [] ∧ s.req? 3 = some q ∧
         ((s.cluster 0).bank 2).fifo = 7 :: [7, 7] ∧ ((s.cluster 0).bank 2).fifo.length < 16384 ∧
         q.accs = [{ lane := 0, addr := 192, bytes := 4, data := 0, result := none, pred := false }]) ∧
      (let rec_ : Replay := { req := rq0, lanes := 1, waits := [], fails := [], faddr := 0 }
       let wp := { wp0 with replays := [(2, rec_)] }
       (withWarp wp).warp? 0 = some wp ∧ mapGet? wp.replays 2 = some rec_ ∧ rec_.replaying = true ∧
         ∀ e ∈ (withWarp wp).reqs, e.2.warp = some 0 → e.2.replay ≠ some 2) := by
  decide

/-- Lanes with open transactions commit. -/
def cm0 : Commit := { warp := 0, lanes := [0, 1], installed := false, until_ := 0 }
def ga0 : Gather :=
  { warp := 0, issued := 0, lanes := 3, arrived := 1, released := 0, lock := none, dst := 1, regs := 1, vals := [], pc := 0, group := 0 }
/-- The words from 192 on are read or written, and their line stands at its home slice, locked by another commit. -/
def wpRead : Warp := { wp0 with lanes := [{ la0 with hold := .commit 2, tx := some { fallback := 64, reads := [], writes := [(192, (5, 0xFF))] } }] }
def sLocked : State :=
  { withWarp wpRead with
    commits := [(2, cm0)]
    slices := [(s0.homeOf 0 0, { Slice.reset with lines := [
      { line := 1, asid := 1, view := 0, ctx := 0, data := 0, valid := 0xFFF, dirty := 0, written := 0, tags := [], exp := [], tldv := 0,
        tlsy := 0, pinCo := none, pinCl := none, lockTx := some 9, lockView := none, hint := 0, lastUse := 0, way := 0, pinWay := 0, tx := 0, spilled := false }] })] }
/-- How the locking of the lines of commit 2 ends. -/
def locking (s : State) (wp : Warp) : Locking :=
  let u := s.abortLanes 0 (conflicts [] (s.committing 2 cm0)) 0x01 0
  let p := u.whoCommit 2 wp
  let ps := commitPieces (u.committing 2 cm0)
  (lockPieces 2 cm0 p wp.core wp.block (u.unpinPieces 0 wp.core p.asid ps) ps).2
def wpFree : Warp := { wp0 with lanes := [{ la0 with hold := .commit 2, tx := some { fallback := 64, reads := [], writes := [] } }] }
def sTx : State := { withWarp wpFree with commits := [(2, cm0)] }
def wpGath : Warp := { wp0 with lanes := [{ la0 with st := .gath 2 }, { la1 with st := .gath 2 }] }
/-- A gather of both lanes, 16 clocks on. -/
def sGath (ga : Gather) : State := { withWarp wpGath with pulses := 16, gathers := [(2, ga)] }
theorem test_witness_CommitGatherAndFaultEventResults :
    (cm0.installed = false ∧ (mapGet? sTx.commits 2 = some cm0 ∧ sTx.warp? 0 = some wpFree ∧ sTx.txOpen cm0 = false) ∧
        mapGet? sLocked.commits 2 = some cm0 ∧ sLocked.warp? 0 = some wpRead ∧ sLocked.txOpen cm0 = false) ∧
      (locking sTx wpFree = .done ∧ locking sLocked wpRead = .retry) ∧
      (let cm : Commit := { cm0 with installed := true }
       let s : State := { s0 with commits := [(2, cm)] }
       mapGet? s.commits 2 = some cm ∧ s.warp? cm.warp = some wp0 ∧ cm.installed = true ∧ cm.until_ ≤ s.gtimeAt (placeCore wp0.core)) ∧
      (∀ ga ∈ [ga0, { ga0 with arrived := 3 }],
        mapGet? (sGath ga).gathers 2 = some ga ∧ (sGath ga).warp? ga.warp = some wpGath ∧ (sGath ga).gatherStill 2 ga = 3) ∧
      ((sGath ga0).clock wpGath.core = 16 ∧ ga0.issued < 16 ∧ 3#32 &&& ga0.arrived ≠ 0 ∧ (16 - ga0.issued) % 16 = 0 ∧ ga0.released < 3) ∧
      (let f : PFault := { ctx := 0, page := 9, fetch := false, reason := 0, faddr := 0, engine := 0, queue := 0, seq := 0, routed := false }
       let s : State := { s0 with pfaults := [f] }
       s.pfaults.find? (fun f => f.ctx = 0 && f.page = 9 && !f.routed) = some f ∧ s.ctx? 0 = some cx0) :=
  ⟨by decide, by decide +kernel, ⟨by decide, by decide, rfl, Nat.zero_le _⟩, by decide, by decide +kernel, by decide⟩

/-- A translation ends in a fault. -/
def faults (r : State × HRes) : Bool :=
  match r.2 with
  | .fault _ => true
  | _ => false
theorem ofFaults {r : State × HRes} (hr : faults r = true) : ∃ s e, r = (s, .fault e) := by
  rcases r with ⟨s, v⟩
  cases v <;> simp_all [faults]
theorem test_witness_CodeFetchResults :
    (let v : FetchWaiter := { warp := some 0, lane := 0, tenant := none, block := 0, addr := 0 }
     (s0.fetchWaiters 0).find? (fun v => lineOf v.addr = 0 && !s0.fetchPending 0 0 (s0.asidOf v.block) (s0.viewOf v.block)) = some v ∧
       (s0.fetches 0).length < 8) ∧
      (let q : Req := { rq0 with kind := .ifetch, st := .sent, demand := true }
       (withReq q).req? 3 = some q ∧ (withReq q).ccCopy q = none ∧ (withReq q).invalHolds 3 q = false ∧
         ({ withReq q with queues := [(0, shooting)] } : State).ccCopy q = none ∧
         ({ withReq q with queues := [(0, shooting)] } : State).invalHolds 3 q = true ∧
         ∃ u e, (withReq q).home q.who q.line q.page false q.hint = (u, .fault e)) ∧
      (let q : Req := { rq0 with kind := .ifetch, st := .faulted 1 }
       (withReq q).req? 3 = some q ∧ q.kind = .ifetch ∧ q.st = .faulted 1) := by
  exact ⟨by decide, ⟨by decide, by decide, by decide, by decide, by decide, ofFaults (by decide +kernel)⟩, by decide⟩

theorem gtimeAt_ge (s : State) (p n : Nat) (hn : n + 2 ≤ s.gtime) : n ≤ s.gtimeAt p := by
  unfold State.gtimeAt
  omega
/-- The horizons of a block have passed where its warps have none. -/
theorem released {s : State} {bl : Block} (hw : ∀ w ∈ bl.warps, ∀ wp, (s.blockReleased bl).1.warp? w = some wp → wp.hdv = 0) :
    ∃ u, s.blockReleased bl = (u, true) := by
  refine ⟨(s.blockReleased bl).1, Prod.ext rfl ?_⟩
  refine List.all_eq_true.mpr fun w hm => ?_
  show Option.all _ ((s.blockReleased bl).1.warp? w) = true
  cases e : (s.blockReleased bl).1.warp? w with
  | none => rfl
  | some wp => exact decide_eq_true (by rw [hw w hm wp e]; exact Nat.zero_le _)
theorem warpsAll {s : State} {ws : List Nat} (P : Warp → Prop) [DecidablePred P]
    (hall : (ws.all fun w => (s.warp? w).all (fun wp => decide (P wp))) = true) : ∀ w ∈ ws, ∀ wp, s.warp? w = some wp → P wp := by
  intro w hw wp e
  simpa [e] using List.all_eq_true.mp hall w hw

def arr (k : Boundary) (l : Nat) : Arrival := { warp := 0, lane := l, kind := k, pc := 0, label := 0 }
def blArr (k : Boundary) : Block := { bl0 with tenants := [], arrivals := [arr k 0, arr k 1] }
/-- Both lanes of the block have arrived at a boundary; the context may have eight views more. -/
def sArr (k : Boundary) (vsq : Nat) : State :=
  { withRec { lr0 with vsq := vsq } with
    blocks := [(0, blArr k)], tenants := [], cursor := [], ctxs := [(0, { cx0 with body := { cx0.body with vquota := 8 } })]
    warps := [(0, { wp0 with lanes := [{ la0 with st := .boundary }, { la1 with st := .boundary }] })] }
theorem ready (k : Boundary) (n : Nat) : ∃ u, (sArr k n).phaseReady 0 (blArr k) = (u, true) := by
  unfold State.phaseReady
  rw [show (!(sArr k n).blockQuiet 0 (blArr k) || !(sArr k n).seqsArrived (blArr k)) = false from rfl, if_neg (by decide)]
  exact released (warpsAll (fun wp => wp.hdv = 0) (by rfl))

theorem test_witness_PhaseRecordKeepsCarriedState :
    (∀ k ∈ [Boundary.pbar, .gbar, .forkw 1, .forkw 9, .forkw 2, .forkw 8],
      (sArr k 8).block? 0 = some (blArr k) ∧ (sArr k 8).recOfBlock 0 = some { lr0 with vsq := 8 } ∧ (blArr k).st = .resident ∧
        (blArr k).arrivals = arr k 0 :: [arr k 1] ∧ (blArr k).arrivals.length = (sArr k 8).liveThreads (blArr k) ∧
        sameKind (blArr k).arrivals = true) ∧
      (∀ k, ∃ u, (sArr k 8).phaseReady 0 (blArr k) = (u, true)) ∧
      ((sArr (.forkw 8) 8).forkDenied (blArr (.forkw 8)) { lr0 with vsq := 8 } 8 = none ∧
        (sArr (.forkw 8) 7).forkDenied (blArr (.forkw 8)) { lr0 with vsq := 7 } 8 = some 4) ∧
      (∃ p : PhaseRec, p.warps = [wp0.phaseRec 0 lr0 [arr .pbar 0]]) ∧
      [arr .pbar 0].find? (fun a => a.warp = 0 && a.lane = 0) = some (arr .pbar 0) ∧
      [arr .pbar 0].find? (fun a => a.warp = 0 && a.lane = 31) = none :=
  ⟨by decide +kernel, fun k => ready k 8, by decide +kernel, ⟨{ warps := [_], scratch := [], seqs := [] }, rfl⟩, by decide, by decide⟩

/-! Placement: only cluster 0 has a scratchpad bank of the context, so the free choices all come to it. -/

/-- The clusters that suit a grid and where its blocks fit, for a first core to try. -/
def fitAt (s : State) (g : Grid) (n : Nat) (full : Bool) (st : Nat) : List Nat :=
  (s.partClusters (ctxPart g.ctx)).filter (fun c => s.suits g full c && (s.fitOn g n c st).isSome)
theorem fitsAre {s : State} {g : Grid} {n : Nat} {full : Bool} {cs : List Nat} (hk : ∀ st : Fin 8, fitAt s g n full st.val = cs) :
    s.fits g n full = cs := hk ⟨Config.choice s.tick % 8, Nat.mod_lt _ (by decide)⟩
/-- The one cluster that fits is taken. -/
theorem picks {s : State} {g : Grid} {n cl : Nat} (hk : ∀ st : Fin 8, fitAt s g n false st.val = [cl]) : s.pickCluster g n = some cl := by
  unfold State.pickCluster
  simp only [fitsAre hk, reduceCtorEq, if_false]
  cases h : s.awake cl <;> simp [h, Nat.mod_one]
/-- Blocks are seated where, however the free choices fall, one cluster fits and is awake; nowhere, where none fits. -/
theorem seats {s : State} {g : Grid} {bs : List (Nat × BlockData)} {x cl : Nat} (ha : s.awake cl = true)
    (hk : ∀ st : Fin 8, fitAt s g bs.length false st.val = [cl]) : ∃ v, s.seatAll g bs x = (v, true) := by
  have hf : (s.fitOn g bs.length cl (Config.choice s.tick % 8)).isSome = true := by
    have hm : cl ∈ s.fits g bs.length false := by rw [fitsAre hk]; exact List.mem_singleton_self _
    exact (Bool.and_eq_true _ _ ▸ (List.mem_filter.mp hm).2).2
  obtain ⟨y, hy⟩ := Option.isSome_iff_exists.mp hf
  unfold State.seatAll
  rw [picks hk]
  simp only [ha, hy]
  exact ⟨_, rfl⟩
theorem seatsNot {s : State} {g : Grid} {bs : List (Nat × BlockData)} {x : Nat}
    (hk : ∀ full, ∀ st : Fin 8, fitAt s g bs.length full st.val = []) : ∃ v, s.seatAll g bs x = (v, false) := by
  refine ⟨s, ?_⟩
  unfold State.seatAll State.pickCluster
  simp [fitsAre (hk false), fitsAre (hk true)]

/-- A grid of one block, not yet placed, that wants one scratchpad bank. -/
def grNew : Grid := { gr0 with next := 0, lrec := { lr0 with banks := 1, e := [2, 1, 1, 1, 1, 1] } }
/-- Cluster 0, awake, with or without such a bank. -/
def sPlace (mode : BankMode) (bs : NatMap Block) : State :=
  { State.reset with
    ctxs := [(0, cx0)], grids := [(0, grNew)], blocks := bs
    clusters := [(0, { Cluster.reset with woken := true, banks := [(3, { Bank.reset with mode := mode })] })] }
def blQueued : Block := { bl0 with st := .queued, cores := [], warps := [], tenants := [] }

/-- The launch record at an address of host memory: two threads, one block, `8 regs` registers, eight rows. -/
def recBytes (regs : Nat) : List (Nat × Nat) :=
  [(0, 0x31), (1, 0x4C), (2, 0x4E), (3, 0x4C), (4, 1), (8, 5), (0x10, 2), (0x12, 1), (0x18, 1), (0x20, 1), (0x28, 1), (0x30, 1)] ++
    (List.range 64).map (fun i => (0x38 + i, 0xFF)) ++ (if regs = 0 then [] else [(0x142, regs)]) ++ [(0x143, 8)]
def hostMem (a : Nat) (cs : List (Nat × Nat)) : List Host.Cell := cs.map (fun c => (0x800000000000 + a + c.1, BitVec.ofNat 8 c.2))
def sRec (regs : Nat) : State := sMap (hostMem 192 (recBytes regs))
theorem recGood : readIs (fun u bs => u.ctxOpen 0 && u.recordReason 0 bs = none)
    (State.engReadList ((sRec 1).whoFirmware 0) (sRec 1) 192 24) = true := by decide +kernel
theorem recBad : readIs (fun u bs => u.ctxOpen 0 && u.recordReason 0 bs = some 0x05)
    (State.engReadList ((sRec 0).whoFirmware 0) (sRec 0) 192 24) = true := by decide +kernel
/-- A read that ends in a fault, or in an error. -/
def isFault : EngR (List (BitVec 8)) → Bool
  | .fault _ => true
  | _ => false
def isError : EngR (List (BitVec 8)) → Bool
  | .error _ => true
  | _ => false
theorem ofFault {r : State × EngR (List (BitVec 8)) × Nat} (hr : isFault r.2.1 = true) : ∃ s e a, r = (s, .fault e, a) := by
  rcases r with ⟨s, v, a⟩
  cases v <;> simp_all [isFault]
theorem ofError {r : State × EngR (List (BitVec 8)) × Nat} (hr : isError r.2.1 = true) : ∃ s e a, r = (s, .error e, a) := by
  rcases r with ⟨s, v, a⟩
  cases v <;> simp_all [isError]
/-- The page is mapped to a frame outside every range of Table 18.1. -/
def sHole : State :=
  { s0 with slices := [(s0.homeOf 0 0, { Slice.reset with
      tlb := [{ asid := 1, page := 0, pages := 1, level := 0, leaf := BitVec.ofNat 64 (0xDF + 2 ^ 44), entry := 0 }] })] }

/-- A grid of a lower class, and one of a higher class that could be seated now. -/
def grLow : Grid := { grNew with class_ := 3 }
def sRanks : State := { sPlace (.scratchpad 0) [] with grids := [(0, grNew), (1, grLow)] }
theorem outranked1 : sRanks.outranked grLow = true := by
  unfold State.outranked
  rw [show sRanks.waiting (ctxPart grLow.ctx) (fun h => h.order < grLow.order) = [(grNew, 1)] from by decide]
  simp only [List.any_cons, List.any_nil, Bool.or_false]
  rw [picks (cl := 0) (by decide +kernel)]
  decide
/-- Two blocks whose phases a barrier of the grid has queued. -/
def blTurn (curve : Nat) : Block := { blQueued with turn := some 9, curve := curve }
def sTurn : State := sPlace (.scratchpad 0) [(3, blTurn 0), (4, blTurn 1)]

def ids1 : NatMap Block := [(0, Block.start 0 0 0)]
theorem test_witness_PlacementResults :
    (sRanks.grid? 1 = some grLow ∧ grLow.noPlace = false ∧ grLow.offered = false ∧ sRanks.outranked grLow = true) ∧
      ((sPlace (.scratchpad 0) []).grid? 0 = some grNew ∧ (sPlace (.scratchpad 0) []).outranked grNew = false ∧ grNew.noPlace = false ∧ grNew.offered = false ∧ grNew.lrec.nextOffer 4096 0 = some 0 ∧
      grNew.lrec.gangOf (grNew.lrec.widAt 0) = [0] ∧ ∀ k ∈ grNew.lrec.gangOf (grNew.lrec.widAt 0), 0 ≤ grNew.lrec.curveIndex k) ∧
      (∃ v, ({ sPlace (.scratchpad 0) ids1 with tick := 1 } : State).seatAll grNew [(0, BlockData.first grNew.lrec)] 0 = (v, true)) ∧
      (∃ v, ({ sPlace .cacheWay ids1 with tick := 1 } : State).seatAll grNew [(0, BlockData.first grNew.lrec)] 0 = (v, false)) ∧
      (let s := sPlace (.scratchpad 0) [(4, blQueued)]
       s.block? 4 = some blQueued ∧ s.gridOfBlock 4 = some grNew ∧ blQueued.st = .queued ∧ blQueued.killed = none ∧
         s.phaseMates 4 blQueued grNew.lrec = [(4, blQueued)] ∧ s.outranked grNew = false ∧ s.afterTurn blQueued = false ∧
         ∃ v, s.seatAll grNew [(4, BlockData.first grNew.lrec)] 0 = (v, true)) ∧
      (sTurn.block? 4 = some (blTurn 1) ∧ sTurn.gridOfBlock 4 = some grNew ∧ sTurn.phaseMates 4 (blTurn 1) grNew.lrec = [(4, blTurn 1)] ∧
        sTurn.outranked grNew = false ∧ sTurn.afterTurn (blTurn 1) = true ∧ sTurn.afterTurn (blTurn 0) = false) ∧
      (let s : State := { s0 with blocks := [(0, { bl0 with st := .gbar })] }
       s.grid? 0 = some gr0 ∧ gr0.offered = true ∧
         s.blocks.filter (fun e => e.2.grid = 0 && e.2.parent.isNone && e.2.killed.isNone) = [(0, { bl0 with st := .gbar })]) ∧
      (let s : State := { s0 with devLaunches := [(6, dl1)] }
       mapGet? s.devLaunches 6 = some dl1 ∧ s.grid? dl1.grid = some gr0 ∧ dl1.paused = none ∧ dl1.waiting = none) ∧
      (∃ u bs a, State.engReadList ((sRec 1).whoFirmware 0) (sRec 1) 192 24 = (u, .ok bs, a) ∧ u.recordReason 0 bs = none) ∧
      (∃ u bs a, State.engReadList ((sRec 0).whoFirmware 0) (sRec 0) 192 24 = (u, .ok bs, a) ∧ u.recordReason 0 bs = some 0x05) ∧
      (∃ u e a, State.engReadList (s0.whoFirmware 0) s0 192 24 = (u, .fault e, a)) ∧
      ∃ u e a, State.engReadList (sHole.whoFirmware 0) sHole 192 24 = (u, .error e, a) := by
  refine ⟨⟨by decide, by decide, by decide, outranked1⟩, by decide, seats (cl := 0) (by decide) (by decide +kernel), seatsNot (by decide +kernel),
    ⟨by decide, by decide, by decide, by decide, by decide, by decide, by decide, seats (cl := 0) (by decide) (by decide +kernel)⟩, by decide, by decide, by decide, ?_, ?_,
    ofFault (by decide +kernel), ofError (by decide +kernel)⟩
  · obtain ⟨u, bs, a, e, hr⟩ := ofReadIs recGood
    simp only [Bool.and_eq_true, decide_eq_true_eq] at hr
    exact ⟨u, bs, a, e, hr.2⟩
  · obtain ⟨u, bs, a, e, hr⟩ := ofReadIs recBad
    simp only [Bool.and_eq_true, decide_eq_true_eq] at hr
    exact ⟨u, bs, a, e, hr.2⟩

/-- A block whose threads have exited, a rival or not. -/
def blOver (parent : Option Nat) : Block := { bl0 with parent := parent, tenants := [], yielded := some 5 }
def sOver (parent : Option Nat) : State :=
  { s0 with blocks := [(0, blOver parent)], tenants := [], warps := [(0, { wp0 with lanes := [Lane.start false 0] })] }
theorem gridOver0 (s : State) (n : Nat) (g : Grid) (hg : g.hsy = 0)
    (hr : ((g.offered || g.noPlace && 4 ≤ g.status) && !s.blocks.any (fun e => e.2.grid = n) &&
      s.views.all (fun e => e.2.grid ≠ n || e.2.returnAt.isSome) && !s.devLaunches.any (fun e => e.2.grid = n)) = true) :
    s.gridOver n g = true := by
  show (_ && decide (g.hsy ≤ s.gtimeAt 0)) = true
  rw [hr, hg]
  simp
theorem expired0 {s : State} (hs : s.gtime = 1111) : expired 1 (some 0) (s.gtimeAt 0) = true := by
  have : 1000 ≤ s.gtimeAt 0 := gtimeAt_ge _ _ _ (by omega)
  simp [expired, this]
def sGrid (g : Grid) : State := { s0 with grids := [(0, g)], blocks := [], warps := [], tenants := [], cursor := [], pulses := 2000 }
def gph : Graph :=
  { ctx := 0, queue := 0, seq := 0, hdr := hp, limit := 1, firstStart := some 0, recs := [192], cost := [1], preds := [[]], slack := [0],
    st := [0], status := 0, reason := 0, cause := 0, faddr := 0, engine := 0, failing := 0, paused := [] }
theorem test_witness_BlockAndGridEndResults :
    (∀ p ∈ [none, some 9], (sOver p).block? 0 = some (blOver p) ∧ (sOver p).blockOver (blOver p) = true ∧ (blOver p).children = [] ∧
      ((sOver p).judgeLast 0 (blOver p)).blockQuiet 0 (blOver p) = true) ∧
      (∀ p, ∃ u, ((sOver p).judgeLast 0 (blOver p)).blockReleased (blOver p) = (u, true)) ∧ (blOver none).st = .resident ∧
      (∀ g ∈ [gr0, { gr0 with status := 4, hdr := { hp with idem := true } }, { gr0 with src := .device 0 }, { gr0 with src := .node 3 0 }],
        (sGrid g).grid? 0 = some g ∧ (sGrid g).gridOver 0 g = true ∧ (sGrid g).canFinish g.hdr g.status = true) ∧
      (let g := { gr0 with limit := 1, firstIssue := some 0 }
       (sGrid g).grid? 0 = some g ∧ g.status ≠ 6 ∧ expired g.limit g.firstIssue ((sGrid g).gtimeAt 0) = true ∧ g.src = .packet) ∧
      (let g := { gr0 with src := .node 3 0 }
       let s : State := { sGrid g with graphs := [(3, gph)] }
       s.grid? 0 = some g ∧ mapGet? s.graphs 3 = some gph ∧ gph.status ≠ 6 ∧ expired gph.limit gph.firstStart (s.gtimeAt 0) = true) := by
  refine ⟨by decide +kernel, fun p => released (warpsAll (fun wp => wp.hdv = 0) (by rfl)), rfl, ?_, ⟨by decide, by decide, expired0 rfl, rfl⟩,
    ⟨by decide, by decide, by decide, expired0 rfl⟩⟩
  intro g hg
  simp only [List.mem_cons, List.not_mem_nil, or_false] at hg
  rcases hg with rfl | rfl | rfl | rfl <;> exact ⟨by decide, gridOver0 _ _ _ rfl (by decide), by decide⟩

/-- A FIFO bank of the context at its aperture, and a store to it. -/
def sFifo : State :=
  { s0 with clusters := [(0, { Cluster.reset with banks := [(2, { Bank.reset with mode := .fifo 0 0 })] })] }
def rqPort : Req :=
  { rq0 with kind := .store, view := 5, accs := [{ lane := 0, addr := 0x10000000000, bytes := 16, data := 0, result := none, pred := false }] }
def vwOut (ops : List OutOp) : View := { vw0 with outbox := ops, performing := some none }
theorem test_witness_ViewEventResults :
    (let vw := { vw0 with commit := some (some 0, 0) }
     let s : State := { s0 with views := [(5, vw)] }
     s.view? 5 = some vw ∧ vw.commit.isSome = true ∧ vw.pendingInstalls = [] ∧ (∀ e ∈ s.copiesOf 5, e.2.written = 0) ∧ 0 ≤ s.gtimeAt 0) ∧
      (let vw := { vw0 with returnAt := some 0 }
       ({ s0 with views := [(5, vw)] } : State).view? 5 = some vw ∧ 0 ≤ ({ s0 with views := [(5, vw)] } : State).gtimeAt 0) ∧
      ((vwOut [.access rqPort]).performing = some none ∧ (vwOut [.access rqPort]).pendingInstalls = [] ∧
        (sFifo.performOut 5 (vwOut [.access rqPort]) none rqPort).2 = true) ∧
      (s0.outReleased none .dv = (s0, true) ∧ s0.launches 0 < 1024) ∧
      (s0.outReleased none .sy = (s0, true) ∧ s0.grid? vw0.grid = some gr0 ∧ s0.ringRoom gr0.lrec.cring = true) :=
  ⟨⟨by decide, rfl, rfl, by decide, Nat.zero_le _⟩, ⟨by decide, Nat.zero_le _⟩, ⟨rfl, rfl, by decide +kernel⟩, ⟨rfl, by decide⟩,
    rfl, by decide, by decide⟩

/-! Packets: command 3 of queue 0 is read and not started; nothing is before it. -/

def queued (s : State) (i : Instr) : State := { s with queues := [(0, { Queue.reset with cmds := [Cmd.fresh 3 i 0] })] }
theorem starts (s : State) (i : Instr) (b : Bool) (ho : s.ctxOpen (s.queueCtx 0) = true)
    (hs : s.outside = [] ∧ s.hostTdv = 0 := by exact ⟨rfl, rfl⟩) : Starts (queued s i) i 0 3 b := by
  refine ⟨⟨Cmd.fresh 3 i 0, rfl, rfl⟩, ?_, fun _ => ho⟩
  unfold State.mayStart
  rw [show (queued s i).cmd? 0 3 = some (Cmd.fresh 3 i 0) from rfl]
  show (true && true && true && true && decide (0 ≤ _) && s.outside.isEmpty && decide (s.hostTdv ≤ _) && true && (_ || true)) = true
  simp [hs.1, hs.2]
/-- A cluster whose engine takes an operation of a packet. -/
theorem picksEngine {s : State} {p : Nat} (hn : (s.partClusters p).filter (fun c => s.engineLoad c < 256) ≠ []) : ∃ c, s.pickEngine p = some c := by
  unfold State.pickEngine
  have := List.length_pos_iff.mpr hn
  rw [List.getElem?_eq_getElem (Nat.lt_of_lt_of_le (Nat.mod_lt _ (by omega)) (by omega))]
  exact ⟨_, rfl⟩
theorem queuedPicks (i : Instr) : ∃ c, (queued s0 i).pickEngine ((queued s0 i).queuePart 0) = some c :=
  picksEngine (show (s0.partClusters (s0.queuePart 0)).filter (fun c => s0.engineLoad c < 256) ≠ [] from by decide +kernel)
/-- The read of 16 times `n` bytes at 192 for a packet passes a test. -/
def reads (s : State) (n : Nat) (P : State → List (BitVec 8) → Bool) : Prop :=
  ∃ u bs a, State.engReadList (s.whoFirmware 0) s 192 n = (u, .ok bs, a) ∧ P u bs = true
theorem ofReads {s : State} {n : Nat} {P} (hr : readIs P (State.engReadList (s.whoFirmware 0) s 192 n) = true) : reads s n P := ofReadIs hr

/-- A ring of 48 times two bytes in host memory, in which a PAD of one unit stands at QHEAD. -/
def sPad : State :=
  { State.reset with
    bar0 := [(0x28, 1), (0x10000, 0x800000000000), (0x10020, 1)]
    queues := [(0, { Queue.reset with doorbell := 48 })]
    mem := [(0x800000000001, 1)] }
def iLaunch : Instr := .launchPkt 0 3 hp 192 0
def iGraph : Instr := .graph 0 3 hp 192 1 0
def iCopy (n : Nat) : Instr := .copy 0 3 hp 0 192 n
def iFill (dst n : Nat) : Instr := .fill 0 3 hp dst n 5
def sNode (regs : Nat) : State := { sRec regs with graphs := [(3, gph)] }
theorem inTime (n : Nat) : expired gph.limit gph.firstStart ((sNode n).gtimeAt 0) = false := by
  have := early 0 (sNode n) rfl
  simp only [expired, gph]
  simp
  omega
theorem test_witness_WorkPacketsStart :
    sPad.peek 0 = .packet (.pad 0 1) 48 ∧
      (Starts (queued (sRec 1) iLaunch) iLaunch 0 3 true ∧ canonical (BitVec.ofNat 64 192) = true ∧ (queued (sRec 1) iLaunch).queueCtx 0 = 0 ∧
        reads (queued (sRec 1) iLaunch) 24 (fun u bs => u.recordReason 0 bs = none)) ∧
      (Starts (queued (sRec 0) iLaunch) iLaunch 0 3 true ∧
        reads (queued (sRec 0) iLaunch) 24 (fun u bs => u.recordReason 0 bs = some 0x05)) ∧
      (Starts (queued (sMap []) iGraph) iGraph 0 3 true ∧ reads (queued (sMap []) iGraph) 3 (fun _ bs => (upTo 1).all (nodeOk bs))) ∧
      (let s := sMap (hostMem 192 [(14, 1)])
       Starts (queued s iGraph) iGraph 0 3 true ∧ reads (queued s iGraph) 3 (fun _ bs => !(upTo 1).all (nodeOk bs))) ∧
      (∀ n, Starts (queued s0 (iCopy n)) (iCopy n) 0 3 true ∧ ∃ c, (queued s0 (iCopy n)).pickEngine ((queued s0 (iCopy n)).queuePart 0) = some c) ∧
      (badAddress (BitVec.ofNat 64 192) 64 = none ∧ badAddress (BitVec.ofNat 64 0) 0 = none) ∧
      (∀ dst n, Starts (queued s0 (iFill dst n)) (iFill dst n) 0 3 true ∧
        ∃ c, (queued s0 (iFill dst n)).pickEngine ((queued s0 (iFill dst n)).queuePart 0) = some c) ∧
      (∃ a, badAddress (BitVec.ofNat 64 0x0100000000000000) 1 = some a) ∧
      (∀ r, mapGet? (sNode r).graphs 3 = some gph ∧ expired gph.limit gph.firstStart ((sNode r).gtimeAt 0) = false) ∧
      expired gph.limit gph.firstStart (State.gtimeAt { sNode 1 with pulses := 2000 } 0) = true ∧
      gph.ready 0 = true ∧ gph.recs.getD 0 0 = 192 ∧ gph.paused = [] ∧
      reads (sNode 1) 24 (fun u bs => u.recordReason 0 bs = none) ∧ reads (sNode 0) 24 (fun u bs => u.recordReason 0 bs = some 0x05) :=
  ⟨by decide +kernel, ⟨starts _ _ _ (by decide), by decide, by decide, ofReads (by decide +kernel)⟩,
    ⟨starts _ _ _ (by decide), ofReads (by decide +kernel)⟩, ⟨starts _ _ _ (by decide), ofReads (by decide +kernel)⟩,
    ⟨starts _ _ _ (by decide), ofReads (by decide +kernel)⟩, fun n => ⟨starts _ _ _ (by decide), queuedPicks _⟩, by decide,
    fun a n => ⟨starts _ _ _ (by decide), queuedPicks _⟩, ⟨_, rfl⟩, fun r => ⟨rfl, inTime r⟩, expired0 rfl, by decide, rfl, rfl,
    ofReads (by decide +kernel), ofReads (by decide +kernel)⟩

def iSig (v : DWord) : Instr := .signalWrite 0 3 hp 192 v
def iAdd (v : DWord) : Instr := .signalAdd 0 3 hp 192 v
def iWait : Instr := .wait 0 3 hp 192 7 .ge 1
def sMapped : State := sMap []
theorem ofIsOk2 {α β : Type} {r : State × EngR (α × β)} (hr : isOk r = true) : ∃ s v w, r = (s, .ok (v, w)) := by
  obtain ⟨s, v, e⟩ := ofIsOk hr
  exact ⟨s, v.1, v.2, e⟩
/-- Command 3 has started at tick 0 and waits. -/
def cmWait : Cmd := { Cmd.fresh 3 iWait 0 with started := true }
def sWait : State := { s0 with pulses := 2000, queues := [(0, { Queue.reset with cmds := [cmWait] })] }
/-- A pending page fault of context 0 at page 0. -/
def pf0 : PFault := { ctx := 0, page := 0, fetch := false, reason := 0, faddr := 192, engine := 0, queue := 0, seq := 0, routed := false }
def sFault : State := { s0 with pfaults := [pf0] }
theorem test_witness_ControlPacketsStart :
    canonical (BitVec.ofNat 64 192) = true ∧
      (∀ v, Starts (queued sMapped (iSig v)) (iSig v) 0 3 true ∧ Starts (queued sMapped (iAdd v)) (iAdd v) 0 3 true) ∧
      (let s := queued sMapped (iSig 5)
       ∃ u t tsy, s.engWrite (s.whoFirmware (s.queueCtx 0)) none 192 8 5 none false = (u, .ok (t, tsy))) ∧
      (let s := queued sMapped (iAdd 5)
       ∃ u t tsy, s.engWrite (s.whoFirmware (s.queueCtx 0)) none 192 8 5 (some { ty := .n64, pc := 0, row := 0 }) false = (u, .ok (t, tsy))) ∧
      (let s := queued sMapped iWait
       Starts s iWait 0 3 true ∧ ∃ u w, (s.startCmd 0 3).engRead (s.whoFirmware (s.queueCtx 0)) none 192 8 = (u, .ok w)) ∧
      (sWait.cmd? 0 3 = some cmWait ∧ cmWait.instr = iWait ∧ cmWait.started = true ∧ cmWait.done = false ∧
        expired 1 (some cmWait.due) (sWait.gtimeAt 0) = true) ∧
      (∀ t, Starts (queued s0 (.stop 0 3 hp t)) (.stop 0 3 hp t) 0 3 false ∧
        Starts (queued s0 (.stopContinue 0 3 hp t)) (.stopContinue 0 3 hp t) 0 3 false) ∧
      (∀ n w, Starts (queued s0 (.inval 0 3 hp 0 n w)) (.inval 0 3 hp 0 n w) 0 3 true) ∧
      (∀ u, Starts (queued s0 (.resume 0 3 hp 0 0 192 u)) (.resume 0 3 hp 0 0 192 u) 0 3 true ∧
        Starts (queued sFault (.resume 0 3 hp 0 0 192 u)) (.resume 0 3 hp 0 0 192 u) 0 3 true) ∧
      s0.pfaults.find? (fun f => f.ctx = 0 && f.page = pageOf 192) = none ∧
      sFault.pfaults.find? (fun f => f.ctx = 0 && f.page = pageOf 192) = some pf0 :=
  ⟨by decide, fun v => ⟨starts _ _ _ (by decide), starts _ _ _ (by decide)⟩, ofIsOk2 (by decide +kernel), ofIsOk2 (by decide +kernel),
    ⟨starts _ _ _ (by decide), ofIsOk (by decide +kernel)⟩, ⟨by decide, rfl, rfl, rfl, expired0 rfl⟩,
    fun t => ⟨starts _ _ _ (by decide), starts _ _ _ (by decide)⟩, fun n w => starts _ _ _ (by decide),
    fun u => ⟨starts _ _ _ (by decide), starts _ _ _ (by decide)⟩, by decide, by decide⟩

theorem test_witness_ContextAndPowerPacketsStart :
    (∀ b, Starts (queued s0 (.ctxcreate 0 3 hp b)) (.ctxcreate 0 3 hp b) 0 3 false) ∧
      (s0.ctx? (64 * s0.queuePart 0 + 0)).isSome = true ∧ s0.ctx? (64 * s0.queuePart 0 + 63) = none ∧
      (∀ k, Starts (queued s0 (.ctxdestroy 0 3 hp k)) (.ctxdestroy 0 3 hp k) 0 3 false) ∧
      (64 ≤ 64 ∧ s0.ctxOpen (64 * s0.queuePart 0 + 63) = false ∧ 0 < 64 ∧ s0.ctxOpen (64 * s0.queuePart 0 + 0) = true) ∧
      (∀ c m o p, Starts (queued s0 (.cmcfgCacheWay 0 3 hp c m)) (.cmcfgCacheWay 0 3 hp c m) 0 3 false ∧
        Starts (queued s0 (.cmcfgScratchpad 0 3 hp c m o)) (.cmcfgScratchpad 0 3 hp c m o) 0 3 false ∧
        Starts (queued s0 (.cmcfgFifo 0 3 hp c m o p)) (.cmcfgFifo 0 3 hp c m o p) 0 3 false) ∧
      (∀ m n f t, Starts (queued s0 (.oppoint 0 3 hp m n f t)) (.oppoint 0 3 hp m n f t) 0 3 false ∧
        (queued s0 (.oppoint 0 3 hp m n f t)).railMove = none) :=
  ⟨fun b => starts _ _ _ (by decide), by decide, by decide, fun k => starts _ _ _ (by decide), by decide,
    fun c m o p => ⟨starts _ _ _ (by decide), starts _ _ _ (by decide), starts _ _ _ (by decide)⟩,
    fun m n f t => ⟨starts _ _ _ (by decide), rfl⟩⟩

/-! Pre-emption: the standing area of context 0 is the page at 0, in host memory; another grid waits to be placed. -/

def iSaveQ (t area size : Nat) : Instr := .preemptSaveQueue 0 3 hp t area size
def iSaveC (area size : Nat) : Instr := .preemptSaveContext 0 3 hp area size
def iRest (area size : Nat) : Instr := .preemptRestore 0 3 hp area size
def cxSt : Ctx := { cx0 with standing := some (192, 3904, 192) }
def sDesched (bl : Block) (rs : NatMap Req) (m : List Host.Cell) : State :=
  { sMap m with
    cursor := [], ctxs := [(0, cxSt)], grids := [(0, gr0), (9, grNew)], tenants := [], blocks := [(0, bl)], reqs := rs
    warps := [(0, { wp0 with lanes := [{ la0 with st := .bar }] })] }
/-- The block as it is brought to rest. -/
def resting (s : State) : State := (s.modBlock 0 (fun bl => { bl with saving := true, saveAt := some 192 })).quiesce 0
/-- A block whose warp waits, with a prefetch in flight. -/
def blBusy : Block := { bl0 with tenants := [], nbars := [] }
def sBusy : State := { sDesched blBusy [(3, { rq0 with st := .sent, kind := .prefetch, block := some 0 })] [] with ctxs := [(0, { cxSt with standing := some (192, 16192, 192) })] }
/-- A block that holds its core without a warp: its record has 960 bytes. -/
def blBare : Block := { blBusy with warps := [] }
def sBare : State := sDesched blBare [] []
/-- Its record fits, and is written. -/
def recordOk (r : State × Bool) : Bool :=
  (r.1.block? 0).any (fun b => decide (192 + (r.1.blockRecord 0 b gr0).length ≤ 3904) &&
    (match (r.1.saveBytes 0 (192 + 192) (r.1.blockRecord 0 b gr0)).2.1 with
    | .ok _ => true
    | _ => false))
theorem ofRecordOk {r : State × Bool} (hr : recordOk r = true) (hb : r.2 = true) : ∃ u b v ok a, r = (u, true) ∧ u.block? 0 = some b ∧
    192 + (u.blockRecord 0 b gr0).length ≤ 3904 ∧ u.saveBytes 0 (192 + 192) (u.blockRecord 0 b gr0) = (v, .ok ok, a) := by
  rcases r with ⟨u, x⟩
  obtain rfl : x = true := hb
  obtain ⟨b, hu, hx⟩ := Option.any_eq_true _ _ |>.mp hr
  simp only [Bool.and_eq_true, decide_eq_true_eq] at hx
  obtain ⟨h1, h2⟩ := hx
  generalize hg : u.saveBytes 0 (192 + 192) (u.blockRecord 0 b gr0) = y at h2
  rcases y with ⟨v, e, a⟩
  cases e <;> first | exact ⟨u, b, v, _, a, rfl, hu, h1, hg⟩ | cases h2
/-- A block whose record is a header of 192 bytes at 192. -/
def blDown : Block := { blBare with st := .descheduled, saveAt := some 192, cores := [] }
def grSmall : Grid := { gr0 with lrec := { lr0 with regs := 1, nbars := 1 } }
def sDown : State := { sDesched blDown [] (hostMem 192 [(0, 192)]) with grids := [(0, grSmall)] }
/-- Its body, of no bytes, reads as zeros, which are in range. -/
theorem bodyNone : (sDown.bodyOf 0 blDown grSmall.lrec []).isSome = true := by decide +kernel
theorem bodyOf_copies {s u : State} (hc : s.copies = u.copies) (b bl r bs) : s.bodyOf b bl r bs = u.bodyOf b bl r bs := by
  unfold State.bodyOf State.blockCopies
  rw [hc]
def downOk : Bool :=
  match State.engReadList (sDown.whoFirmware 0) sDown 192 12 with
  | (u, .ok hd, _) =>
    (match State.engReadList (u.whoFirmware 0) u 384 (field hd 0 4 / 16 - 12) with
    | (v, .ok body, _) => v.copies = [] && body = []
    | _ => false)
  | _ => false
theorem ofDownOk (hd : downOk = true) : ∃ u hd x v body y sv, State.engReadList (sDown.whoFirmware 0) sDown 192 12 = (u, .ok hd, x) ∧
    State.engReadList (u.whoFirmware 0) u 384 (field hd 0 4 / 16 - 12) = (v, .ok body, y) ∧ v.bodyOf 0 blDown grSmall.lrec body = some sv := by
  unfold downOk at hd
  split at hd
  · next u b x e =>
    split at hd
    · next v body y e' =>
      simp only [Bool.and_eq_true, decide_eq_true_eq] at hd
      obtain ⟨hc, rfl⟩ := hd
      obtain ⟨sv, hs⟩ := Option.isSome_iff_exists.mp bodyNone
      exact ⟨u, b, x, v, [], y, sv, e, e', by rw [bodyOf_copies (u := sDown) hc]; exact hs⟩
    · cases hd
  · cases hd

/-! Class 0 work that fits only in the one bank, which a block of class 1 has taken. -/

def lrBig : LaunchRec := { lr0 with banks := 1, scratch := 262080, e := [2, 1, 1, 1, 1, 1] }
def grOne : Grid := { gr0 with class_ := 1, lrec := lrBig }
def grTop : Grid := { gr0 with next := 0, class_ := 0, lrec := lrBig }
def sEvict (bl : Block) (rs : NatMap Req) : State :=
  { s0 with
    cursor := [], grids := [(0, grOne), (9, grTop)], tenants := [], blocks := [(0, bl)], reqs := rs
    clusters := [(0, { Cluster.reset with banks := [(3, { Bank.reset with mode := .scratchpad 0 })] })] }
def blLow (ws : List Nat) : Block := { blBusy with scratchOff := 786432, warps := ws }
theorem picksNone {s : State} {g : Grid} {n : Nat} (hk : ∀ full, ∀ st : Fin 8, fitAt s g n full st.val = []) :
    (s.pickCluster g n).isNone = true := by
  unfold State.pickCluster
  simp [fitsAre (hk false), fitsAre (hk true)]
theorem yields {bl : Block} {rs : NatMap Req} (hw : (sEvict bl rs).class0Waits 0 = [(grTop, 1)])
    (hk : ∀ full, ∀ st : Fin 8, fitAt (sEvict bl rs) grTop 1 full st.val = [])
    (hf : (((sEvict bl rs).withoutLower bl.cluster).fitOn grTop 1 bl.cluster 0).isSome = true) : (sEvict bl rs).yieldsToClass0 bl grOne = true := by
  unfold State.yieldsToClass0
  rw [show ctxPart grOne.ctx = 0 from rfl, hw]
  simp only [List.any_cons, List.any_nil, picksNone (g := grTop) hk, hf]
  decide
def blKept : Block := { blDown with saveAt := none, kept := some [] }
theorem bodyOf_block (s : State) (b r bs) : s.bodyOf b blKept r bs = s.bodyOf b blDown r bs := rfl
def marked (s : State) : State := (s.modBlock 0 (fun bl => { bl with saving := true, kept := some [] })).quiesce 0
theorem test_witness_PreemptionResults :
    (∀ t a n, Starts (queued s0 (iSaveQ t a n)) (iSaveQ t a n) 0 3 true ∧ Starts (queued s0 (iSaveC a n)) (iSaveC a n) 0 3 true ∧
      Starts (queued s0 (iRest a n)) (iRest a n) 0 3 true) ∧
      badAddress (BitVec.ofNat 64 192) 4096 = none ∧ badAddress (BitVec.ofNat 64 0) 191 = none ∧
      (∃ a, badAddress (BitVec.ofNat 64 0x00FFFFFFFFFFFF40) 193 = some a) ∧
      (sBusy.block? 0 = some blBusy ∧ sBusy.gridOfBlock 0 = some gr0 ∧ blBusy.st = .resident ∧ blBusy.killed = none ∧ blBusy.saving = false ∧
        gr0.lrec.gang = 0 ∧ (∀ w ∈ blBusy.warps, sBusy.warpWaits w = true) ∧ sBusy.workWaits = true ∧ 192 + sBusy.recordBytes 0 ≤ 16192 ∧
        ∃ u, (resting sBusy).saveReady 0 = (u, false)) ∧
      (sBare.block? 0 = some blBare ∧ sBare.gridOfBlock 0 = some gr0 ∧ sBare.ctx? 0 = some cxSt ∧ (∀ w ∈ blBare.warps, sBare.warpWaits w = true) ∧
        sBare.workWaits = true ∧ 192 + sBare.recordBytes 0 ≤ 3904 ∧
        ∃ u b v ok a, (resting sBare).saveReady 0 = (u, true) ∧ u.block? 0 = some b ∧ 192 + (u.blockRecord 0 b gr0).length ≤ 3904 ∧
          u.saveBytes 0 (192 + 192) (u.blockRecord 0 b gr0) = (v, .ok ok, a)) ∧
      (let s := sEvict (blLow [0]) [(3, { rq0 with st := .sent, kind := .prefetch, block := some 0 })]
       s.block? 0 = some (blLow [0]) ∧ s.gridOfBlock 0 = some grOne ∧ (blLow [0]).st = .resident ∧ (blLow [0]).killed = none ∧
         (blLow [0]).saving = false ∧ grOne.lrec.gang = 0 ∧ s.mayDeschedule 0 (blLow [0]) grOne = false ∧ s.yieldsToClass0 (blLow [0]) grOne = true ∧
         ∃ u, (marked s).saveReady 0 = (u, false)) ∧
      (let s := sEvict (blLow []) []
       s.block? 0 = some (blLow []) ∧ s.mayDeschedule 0 (blLow []) grOne = false ∧ s.yieldsToClass0 (blLow []) grOne = true ∧
         ∃ u b, (marked s).saveReady 0 = (u, true) ∧ u.block? 0 = some b) ∧
      (let bl := { blLow [] with saving := true, kept := some [] }
       (sEvict bl []).block? 0 = some bl ∧ (sEvict bl []).gridOfBlock 0 = some grOne ∧ bl.st = .resident ∧ bl.killed = none ∧
         bl.saving = true ∧ bl.kept.isSome = true) ∧
      (let s : State := { sDown with blocks := [(0, blKept)] }
       s.block? 0 = some blKept ∧ s.gridOfBlock 0 = some grSmall ∧ blKept.st = .descheduled ∧ blKept.saveAt = none ∧ blKept.kept = some [] ∧
         s.class0Waits (ctxPart grSmall.ctx) = [] ∧ grSmall.noPlace = false ∧ s.outranked grSmall = false ∧
         (s.phaseMates 0 blKept grSmall.lrec).filter (fun e => e.2.kept.isSome) = [(0, blKept)] ∧ ∃ sv, s.bodyOf 0 blKept grSmall.lrec (List.drop 192 []) = some sv) ∧
      (sDown.block? 0 = some blDown ∧ sDown.gridOfBlock 0 = some grSmall ∧ blDown.st = .descheduled ∧ blDown.saveAt = some 192 ∧ grSmall.noPlace = false ∧ sDown.outranked grSmall = false ∧
        ∃ u hd x v body y sv, State.engReadList (sDown.whoFirmware 0) sDown 192 12 = (u, .ok hd, x) ∧
          State.engReadList (u.whoFirmware 0) u 384 (field hd 0 4 / 16 - 12) = (v, .ok body, y) ∧
          v.bodyOf 0 blDown grSmall.lrec body = some sv) :=
  ⟨fun t a n => ⟨starts _ _ _ (by decide), starts _ _ _ (by decide), starts _ _ _ (by decide)⟩, by decide, by decide, ⟨_, rfl⟩,
    ⟨by decide, by decide, by decide, by decide, by decide, by decide, by decide, by decide, by decide +kernel,
      ⟨_, Prod.ext rfl (show ((resting sBusy).saveReady 0).2 = false by decide +kernel)⟩⟩,
    ⟨by decide, by decide, by decide, by decide, by decide, by decide +kernel, ofRecordOk (by decide +kernel) (by rfl)⟩,
    ⟨by decide, by decide, rfl, rfl, rfl, rfl, by decide, yields (by decide) (by decide +kernel) (by decide +kernel),
      ⟨_, Prod.ext rfl (show ((marked _).saveReady 0).2 = false by decide +kernel)⟩⟩,
    ⟨by decide, by decide, yields (by decide) (by decide +kernel) (by decide +kernel),
      ((marked (sEvict (blLow []) [])).saveReady 0).1, _, Prod.ext rfl (by rfl), by rfl⟩,
    by decide, ⟨by decide, by decide, rfl, rfl, rfl, by decide, rfl, by decide, by decide, Option.isSome_iff_exists.mp (by
      rw [bodyOf_block]; exact (bodyOf_copies (s := { sDown with blocks := [(0, blKept)] }) (u := sDown) rfl 0 blDown grSmall.lrec []) ▸ bodyNone)⟩,
    ⟨by decide, by decide, rfl, rfl, rfl, by decide, ofDownOk (by decide +kernel)⟩⟩

/-- Queue 0, enabled, of 768 bytes; ring 0 of 768 bytes, with one record between EHEAD and ETAIL, of a batch that has come to its time. -/
def sBar (bar0 : NatMap DWord) : State := { s0 with bar0 := bar0, pulses := 3000, queues := [(0, Queue.reset)], rings := [(0, { Ring.reset with batch := 1 })] }
def barOn : NatMap DWord := [(0x10020, 1), (0x20010, 48), (0x20020, 0x10000)]
theorem test_witness_QueueAndRingRegisterWrites :
    ((barOn.map (·.1)).Pairwise (· < ·) ∧ (0 : Nat) < 256 ∧ (sBar barOn).queueOn 0 = true ∧ (sBar barOn).queueHalted 0 = false ∧
      (768 : DWord).toNat % 48 = 0 ∧ (sBar barOn).queueSize 0 ≤ (768 : DWord).toNat ∧ (719 : DWord).toNat % 48 ≠ 0 ∧
      ((720 : DWord).toNat % 48 = 0 ∧ (720 : DWord).toNat < (sBar barOn).queueSize 0)) ∧
      ((256 : Nat) ≤ 256 ∧ (sBar []).queueOn 0 = false ∧ (([(0x10020, 1), (0x10028, 256)] : NatMap DWord).map (·.1)).Pairwise (· < ·) ∧
        (sBar [(0x10020, 1), (0x10028, 256)]).queueHalted 0 = true) ∧
      ((0x7FFFFFFF : DWord).getLsbD 31 = false ∧ (0x80000000 : DWord).getLsbD 31 = true) ∧
      (let s := sBar barOn
       (768 : DWord).toNat % 48 = 0 ∧ s.ringSize 0 ≤ (768 : DWord).toNat ∧
         (s.etail 0 + s.ringSize 0 - s.ehead 0) % s.ringSize 0 < ((96 : DWord).toNat + s.ringSize 0 - s.ehead 0) % s.ringSize 0 ∧
         ((48 : DWord).toNat % 48 = 0 ∧ (48 : DWord).toNat < s.ringSize 0 ∧
           ((48 : DWord).toNat + s.ringSize 0 - s.ehead 0) % s.ringSize 0 ≤ (s.etail 0 + s.ringSize 0 - s.ehead 0) % s.ringSize 0)) ∧
      ((1 : Nat) = ((sBar barOn).reg (offRing 0 0x20)).toNat / 65536 % 65536 ∧ ((sBar barOn).ring 0).batch ≠ 0 ∧
        ((sBar barOn).ring 0).batchFirst + 1000 * 1 ≤ (sBar barOn).gtimeAt 0) :=
  ⟨by decide, by decide, by decide, by decide, by decide, by decide,
    Nat.le_trans (by decide) (gtimeAt_ge (sBar barOn) 0 1000 (by decide))⟩

theorem test_witness_DeviceRegisterWrites :
    ctxPart 63 < s0.nparts ∧ s0.ctxs ≠ [] ∧ State.reset.ctxs = [] ∧ (8 : Nat) % 8 = 0 ∧ (12 : Nat) % 4 = 0 ∧
      ¬(((8 : Nat) = 8 ∧ 12 % 8 = 0) ∨ ((8 : Nat) = 4 ∧ 12 % 4 = 0)) ∧
      (let s : State := { s0 with bar0 := [(offHsize, 4)] }
       (s.reg offHctl).getLsbD 63 = false ∧ (1 : DWord).toNat / 2 % 4 ≠ 3 ∧ 4 ≤ s.histLog ∧ s.histLog ≤ 20 ∧
         (1 : DWord).toNat / 256 % 8 < s.nparts) ∧
      ({ s0 with bar0 := [(offHsize, 20)] } : State).histLog ≤ 20 ∧
      (({ s0 with bar0 := [(offHctl, 0x8000000000000000)] } : State).reg offHctl).getLsbD 63 = true := by
  decide

/-- The line of frame 0 at its home slice, pinned or not. -/
def sPinned (k : Option Nat) : State :=
  { s0 with slices := [(0, { Slice.reset with lines := [
      { line := 0, asid := 1, view := 0, ctx := 0, data := 0, valid := 0xFFF, dirty := 0, written := 0,
        tags := [(0, { frame := 0, leaf := 0, mtype := 0 })], exp := [], tldv := 0, tlsy := 0, pinCo := k, pinCl := none, lockTx := none,
        lockView := none, hint := 0, lastUse := 0, way := 0, pinWay := 0, tx := 0, spilled := false }] })] }
theorem test_witness_OutsideEventResults :
    s0.range 0 = .local_ ∧ s0.range (s0.dramSize - 1) = .local_ ∧ s0.range 0x800000000000 = .host ∧ s0.range (2 ^ 47 - 1) ≠ .local_ ∧
      s0.range (2 ^ 47 - 1) ≠ .host ∧ (({ s0 with bar0 := [(offPort 11 0, 1)] } : State).reg (offPort 11 0)).getLsbD 0 = true ∧
      (sPinned (some 0)).pinnedOutside 8 8 = true ∧ (sPinned none).pinnedOutside 8 8 = false := by
  decide

/-- A move of the rails that is due; cluster 3 idle, waking or waiting to wake. -/
def rm0 : RailMove := { fast := 900, thrifty := 600, due := 0, clusters := [0], slots := 8, queue := 0, seq := 3 }
def sPow (c : Cluster) : State := { State.reset with pulses := 2000, clusters := [(3, c)] }
def clIdle : Cluster := { Cluster.reset with power := .running, idleSince := some 0, woken := false }
def clWait : Cluster := { Cluster.reset with power := .retention, wakeReq := some (0, 0), woken := false }
def clWaking : Cluster := { Cluster.reset with power := .waking 0 }
theorem test_witness_PowerEventResults :
    (({ s0 with railMove := some rm0 } : State).railMove = some rm0 ∧ rm0.due ≤ s0.gtimeAt 0) ∧
      (((sPow clIdle).cluster 3).power = .running ∧ ((sPow clIdle).cluster 3).idleSince = some 0 ∧ 0 + 1024 ≤ (sPow clIdle).gtimeAt 0 ∧
        (sPow clIdle).clusterIdle 3 = true ∧ ((sPow clIdle).cluster 3).woken = false ∧
        (let mine (h : HLine) : Bool := h.pinCl = some 3 || h.pinCo.any (fun j => clusterOf j = 3)
         (sPow clIdle).pinned mine = [] ∧ (sPow clIdle).warpsOn 3 = [] ∧
           ({ sPow clIdle with slices := (sPinned (some 24)).slices } : State).pinned mine ≠ [] ∧
           ({ sPow clIdle with slices := (sPinned (some 24)).slices } : State).clusterIdle 3 = true)) ∧
      (∃ e, (sPow clWait).wakers.find? (fun e => e.1 = 3) = some e ∧ (∀ f ∈ (sPow clWait).wakers, e.2 ≤ f.2) ∧ (sPow clWait).wakeLeft ≠ 0) ∧
      (((sPow clWaking).cluster 3).power = .waking 0 ∧ 0 ≤ (sPow clWaking).gtimeAt 0) ∧
      ((94 : Nat) < 95 ∧ (95 : Nat) ≤ 104 ∧ (104 : Nat) < 105 ∧ (105 : Nat) ≤ 105) ∧
      (let s : State := { s0 with thermalCap := 15, coolSince := some 0, pulses := 20000000 }
       s.thermalCap < 16 ∧ s.coolSince = some 0 ∧ 0 + 10000000 ≤ s.gtimeAt 0) :=
  ⟨⟨rfl, Nat.zero_le _⟩, ⟨by decide, by decide, gtimeAt_ge _ 0 _ (by decide), by decide, by decide, by decide⟩,
    ⟨(3, 3), by decide +kernel, by decide +kernel, by
      unfold State.wakeLeft
      simp [show (sPow clWait).wakes.2 = 0 from rfl]
      decide⟩, ⟨by decide, Nat.zero_le _⟩, by decide, ⟨by decide, rfl, gtimeAt_ge _ 0 _ (by decide)⟩⟩

/-- The mailbox of a device whose memory holds the record of a key for slot 1, without a signature, at 64. -/
def sMail (keys : NatMap KeySlot) (cs : List (Nat × Nat)) : State :=
  { State.reset with
    bar0 := [(offMbarg 0, 64), (offMbarg 1, 256)], mem := cs.map (fun c => (64 + c.1, BitVec.ofNat 8 c.2))
    security := { Security.reset with keys := keys } }
def bytesOf (s : State) : List (BitVec 8) := s.physBytes (s.reg (offMbarg 0)).toNat 256
def keyGone : KeySlot := { x := 0, y := 0, written := false, revoked := false }
theorem test_witness_ResetAndMailboxResults :
    (({ State.reset with bar0 := [(offMbarg 2, 1)] } : State).reg (offMbarg 2) ≠ 0 ∧
        ({ State.reset with bar0 := [(offMbarg 3, 1)] } : State).reg (offMbarg 3) ≠ 0) ∧
      (let s := sMail [] [(96, 1)]
       s.reg (offMbarg 2) = 0 ∧ s.reg (offMbarg 3) = 0 ∧ s.ctxs = [] ∧ keyRecordOk (bytesOf s) 64 256 = true ∧ s.authStatus (bytesOf s) = 0 ∧
         zeros (bytesOf s) 0 96 = true ∧ field (bytesOf s) 96 1 = 1 ∧ mapGet? s.security.keys 1 = none ∧
         s.imageStatus (bytesOf s) (s.physBytes 320 0) 64 256 = 2 ∧ keyRecordOk (bytesOf s) 64 255 = false) ∧
      (let s := sMail [(1, keyGone)] [(96, 1)]
       s.authStatus (bytesOf s) = 0 ∧ mapGet? s.security.keys 1 = some keyGone ∧ keyGone.written = false) ∧
      (let s := sMail [(2, { keyGone with written := true })] [(96, 1)]
       keyRecordOk (bytesOf s) 64 256 = true ∧ s.authStatus (bytesOf s) = 6 ∧ zeros (bytesOf s) 0 96 = true) ∧
      (let k : KeySlot := { keyGone with written := true }
       let s := sMail [(1, k)] [(96, 1), (97, 1)]
       keyRecordOk (bytesOf s) 64 256 = true ∧ mapGet? s.security.keys (field (bytesOf s) 96 1) = some k ∧ k.written = true ∧ k.revoked = false ∧
         (Config.ecdsaVerify 0 0 (Config.sha384 ((bytesOf s).take 128)) (field384 (bytesOf s) 128) (field384 (bytesOf s) 176) = true →
           s.authStatus (bytesOf s) = 0) ∧
         (Config.ecdsaVerify 0 0 (Config.sha384 ((bytesOf s).take 128)) (field384 (bytesOf s) 128) (field384 (bytesOf s) 176) = false →
           s.authStatus (bytesOf s) = 1)) ∧
      s0.ctxs ≠ [] := by
  refine ⟨by decide, by decide +kernel, by decide +kernel, by decide +kernel, ⟨by decide +kernel, by decide +kernel, rfl, rfl, ?_, ?_⟩, by decide⟩
  all_goals
    intro hv
    unfold State.authStatus
    simp only [show field (bytesOf (sMail [(1, { keyGone with written := true })] [(96, 1), (97, 1)])) 97 1 = 1 by decide +kernel]
    simp [sMail, Security.key, mapGet?, keyGone] at hv ⊢
    simp [hv]

/-! ### Ill-formed terms: one for each check -/

/-- The header: guards, slack and scheduling of a stream, SLK of class CTRL, HINT where no entry names it (R40, R136, R187 to R189). -/
theorem test_ill_formed_headers :
    WellFormed .vector (.nop { h with g1 := 4 }) = true ∧ WellFormed .tile (.nop { h with g1 := 4 }) = false ∧
      WellFormed .tile (.nop { h with g2 := 14 }) = false ∧ WellFormed .tile (.iadd { h with slk := 1 } .i32 false (.s 1) (.s 2) (.int 3)) = false ∧
      WellFormed .tile (.nop { h with sch := 1 }) = false ∧ WellFormed .vector (.nop { h with sch := 3 }) = false ∧
      WellFormed .vector (.nop { h with slk := 1 }) = false ∧ WellFormed .vector (.yield { h with sch := 1 }) = false ∧
      WellFormed .vector (.iadd { h with hint := 1 } .i32 false (.v 1) (.v 2) (.v 3)) = false ∧
      WellFormed .vector (.dpf { h with hint := 3 } { base := .s 2, index := .zero, isc := 0, off := 0 }) = true := by
  decide

/-- Operands: odd pairs, unaligned quads, a q register out of range, literals, uniform destinations (R181, R182, R185, R186). -/
theorem test_ill_formed_operands :
    WellFormed .vector (.iadd h .i64 false (.v 1) (.v 2) (.v 4)) = false ∧ WellFormed .vector (.iadd h .i64 false (.v 2) (.s 3) (.v 4)) = false ∧
      WellFormed .vector (.mov h .b128 (.v 4) (.v 6)) = false ∧ WellFormed .vector (.mov h .b128 (.v 4) (.s 4)) = false ∧
      WellFormed .tile (.iadd h .i32 false (.s 32) (.s 1) (.int 1)) = false ∧ WellFormed .tile (.iadd h .i32 false (.s 1) (.v 1) (.int 1)) = false ∧
      WellFormed .vector (.iadd h .i32 false (.v 1) (.lit 1) (.lit 2)) = false ∧ WellFormed .vector (.iadd h .i32 false (.s 1) (.v 2) (.int 1)) = false ∧
      WellFormed .vector (.iadd h .i32 false .none (.v 2) (.int 1)) = false ∧ WellFormed .vector (.iadd h .i32 false (.v 1) (.const 2) (.v 2)) = false ∧
      WellFormed .vector (.idiv h .i32 false (.v 1) (.v 1) (.v 2) (.v 3)) = false ∧ WellFormed .vector (.idiv h .i64 false (.v 2) (.v 4) (.v 2) (.v 3)) = false ∧
      WellFormed .vector (.idiv h .i32 false (.s 1) (.s 2) (.v 2) (.int 3)) = false ∧ WellFormed .vector (.brx h (.int 1)) = false ∧
      WellFormed .vector (.movc h .sbias (.v 1)) = false := by
  decide

/-- Types, conditions and codes that an entry does not accept (R208, R217, R218, R225, Tables 10.1, 10.8, 11.3). -/
theorem test_ill_formed_types :
    WellFormed .vector (.iabs h .n32 false (.v 1) (.v 2)) = false ∧ WellFormed .tile (.iadd h .i64 false (.s 2) (.s 4) (.s 6)) = false ∧
      WellFormed .vector (.iadd h .f32 false (.v 1) (.v 2) (.v 3)) = false ∧ WellFormed .vector (.popc h .i32 (.v 1) (.v 2)) = false ∧
      WellFormed .vector (.icmp h .ltu .i32 1 (.v 2) (.v 3)) = false ∧ WellFormed .tile (.icmp h .lt .i32 4 (.s 2) (.s 3)) = false ∧
      WellFormed .vector (.movs h false (.s 1) 0x05) = false ∧ WellFormed .vector (.movs h false (.s 1) 0x23) = false ∧
      WellFormed .tile (.movs h false (.s 1) 0x00) = false ∧ WellFormed .vector (.redux h .exch .i32 (.v 1) 2) = false ∧
      WellFormed .vector (.redux h .and .f32 (.v 1) 2) = false ∧ WellFormed .vector (.vote h .every 7 .none 1) = false ∧
      WellFormed .vector (.fadd h .f32 true .rn (.v 1) (.v 2) (.v 3)) = false ∧ WellFormed .vector (.fadd h .f16x2 false .rz (.v 1) (.v 2) (.v 3)) = false ∧
      WellFormed .vector (.cvt h .f32 .f32 false .rn (.v 1) (.v 2) none) = false ∧ WellFormed .vector (.red h .exch .i32 .none .wp { base := .s 2, index := .zero, isc := 0, off := 0 } (.v 1)) = false := by
  decide

/-- Ranges: offsets, scales, counts, positions, ranks and scopes (R145, R193, R262, R290, Tables 11.7, 12.1, 12.7). -/
theorem test_ill_formed_ranges :
    WellFormed .vector (.bra h 8) = false ∧ WellFormed .vector (.ld h .b32 .none .wp (.v 1) { base := .s 2, index := .v 1, isc := 5, off := 0 }) = false ∧
      WellFormed .vector (.ld h .b32 .none .cl (.v 1) { base := .s 2, index := .v 1, isc := 0, off := 0 }) = false ∧
      WellFormed .vector (.ld h .b32 .none .wp (.v 1) { base := .s 127, index := .v 1, isc := 0, off := 0 }) = false ∧
      WellFormed .vector (.shfl h .pick .b32 7 1 2 (.int 0) 6) = false ∧ WellFormed .vector (.ipf h 0 0) = false ∧
      WellFormed .vector (.ipf h 9 0) = false ∧ WellFormed .vector (.fence h .none .cl false) = false ∧
      WellFormed .vector (.fence h .rel .cl true) = false ∧ WellFormed .vector (.bari h false 0 (.int 0)) = false ∧
      WellFormed .vector (.bari h false 0 (.lit 16389)) = false ∧ WellFormed .vector (.bara h 0 (.lit 1)) = false ∧
      WellFormed .tile (.bara h 0 (.lit 1)) = true ∧ WellFormed .vector (.cvtsDecode h 0 (.v 1) (.v 2) 8) = false ∧
      WellFormed .vector (.tstv h .b64 0 (.int 4) 2) = false ∧ WellFormed .vector (.choose h (.int 8)) = false ∧
      WellFormed .vector (.forkw h (.int 9) 0) = false ∧ WellFormed .vector (.forkw h (.int 8) 0) = true := by
  decide

/-- Entries of one stream only, and ranges of the tile stream (R141, R300, Tables 6.1, 12.2). -/
theorem test_ill_formed_streams :
    WellFormed .tile (.waitc h 0 0 0 0) = false ∧ WellFormed .vector (.mma h 0 0 0) = false ∧ WellFormed .tile (.mma h 0 0 0) = true ∧
      WellFormed .vector (.tcfg h .slot 0 (.int 1)) = false ∧ WellFormed .tile (.dcmp h .p24 0 29 1 (.int 0)) = false ∧
      WellFormed .tile (.dcmp h .p24 0 28 5 (.int 0)) = false ∧ WellFormed .tile (.dcmp h .p24 0 28 0 (.int 0)) = false ∧
      WellFormed .tile (.tdrain h false false false .co .f32 0 0 none (.tag 0)) = false ∧
      WellFormed .tile (.tdrain h false false false .cl .f32 0 1 none (.tag 0)) = false ∧
      WellFormed .tile (.tzero h true 1) = false ∧ WellFormed .tile (.gbar h) = false ∧ WellFormed .tile (.tld h 0 1 none) = false := by
  decide

/-! ### One step on register values: the tables of worked results of the manual -/

/-- Lane 7 of a warp stands at a PC with some registers. -/
def sRegs (pc : Nat) (regs : NatMap Word) : State :=
  { withWarp { wp0 with lanes := List.replicate 8 { Lane.start true 0 with pc := BitVec.ofNat 57 pc, regs := regs } } with
    cursor := [.group 0 0x80] }
/-- After the instruction, register `n` of lane 7 holds `x`, and the lane is one word on. -/
def gives (i : Instr) (regs : NatMap Word) (n : Nat) (x : Word) : Bool :=
  match exec i (sRegs 0x40001230 regs) with
  | .next t => (t.lane? 0 7).any (fun la => la.reg n = x && la.pc = 0x40001240)
  | _ => false
/-- … and the predicate `n`. -/
def decides (i : Instr) (regs : NatMap Word) (n : Nat) : Option Bool :=
  match exec i (sRegs 0x40001230 regs) with
  | .next t => (t.lane? 0 7).map (fun la => la.pred n)
  | _ => none

/-- Table 9.3. -/
theorem test_integer_results :
    gives (.iadd h .i32 true (.v 1) (.v 2) (.int 1)) [(2, 0x7FFFFFFF)] 1 0x7FFFFFFF = true ∧
      gives (.iadd h .n32 false (.v 1) (.v 2) (.int 2)) [(2, 0xFFFFFFFF)] 1 1 = true ∧
      gives (.isub h .n32 true (.v 2) (.v 2) (.int 5)) [(2, 3)] 2 0 = true ∧
      gives (.imulh h .i32 (.v 1) (.v 2) (.int 2)) [(2, 0x80000000)] 1 0xFFFFFFFF = true ∧
      gives (.imulh h .n32 (.v 1) (.v 2) (.int 2)) [(2, 0x80000000)] 1 1 = true ∧
      gives (.idiv h .i32 false (.v 1) (.v 3) (.v 2) (.int 2)) [(2, 0xFFFFFFF9)] 1 0xFFFFFFFD = true ∧
      gives (.idiv h .i32 false (.v 1) (.v 3) (.v 2) (.int 2)) [(2, 0xFFFFFFF9)] 3 0xFFFFFFFF = true ∧
      gives (.idiv h .n32 false (.v 1) (.v 3) (.v 2) (.int 0)) [(2, 9)] 1 0xFFFFFFFF = true ∧
      gives (.idiv h .n32 false (.v 1) (.v 3) (.v 2) (.int 0)) [(2, 9)] 3 9 = true ∧
      gives (.iabs h .i32 false (.v 1) (.v 2)) [(2, 0x80000000)] 1 0x80000000 = true ∧
      gives (.iabs h .i32 true (.v 1) (.v 2)) [(2, 0x80000000)] 1 0x7FFFFFFF = true := by
  decide +kernel

/-- Tables 9.4, 9.6, 9.7: the last source of `bfn3` and `plop` is the most significant bit of the index. -/
theorem test_bit_results :
    gives (.fsh h .b32 (.v 1) (.v 2) (.v 3) (.int 8)) [(2, 0x12345678), (3, 0x9ABCDEF0)] 1 0x789ABCDE = true ∧
      gives (.shr h .i32 (.v 1) (.v 2) (.lit 40)) [(2, 0x80000000)] 1 0xFFFFFFFF = true ∧
      gives (.shl h .b32 (.v 1) (.v 2) (.lit 32)) [(2, 0x80000001)] 1 0 = true ∧
      gives (.clz h .b32 (.v 1) (.v 2)) [(2, 1)] 1 31 = true ∧ gives (.popc h .b32 (.v 1) (.v 2)) [(2, 0xF1)] 1 5 = true ∧
      gives (.brev h .b32 (.v 1) (.v 2)) [(2, 1)] 1 0x80000000 = true ∧
      gives (.bfx h .i32 (.v 1) (.v 2) (.int 8) (.int 4)) [(2, 0xF00)] 1 0xFFFFFFFF = true ∧
      gives (.bfx h .n32 (.v 1) (.v 2) (.int 8) (.int 4)) [(2, 0xF00)] 1 0xF = true ∧
      gives (.bfi h .b32 (.v 1) (.v 2) (.int 0) (.int 4) (.int 8)) [(2, 0xFFFFFFFF)] 1 0xFFFFF00F = true ∧
      gives (.adrs h .i32 (.v 4) (.v 2) (.v 1) 4) [(1, 0xFFFFFFFD), (2, 0x100000)] 4 0xFFFD0 = true ∧
      gives (.permb h (.v 1) (.v 2) (.v 3) (.lit 0xF654)) [(2, 0x44332211), (3, 0x88776655)] 1 0xFF776655 = true ∧
      gives (.bfn3 h .b32 (.v 1) (.v 2) (.v 3) (.v 4) 0xF0) [(2, 1), (3, 2), (4, 4)] 1 4 = true ∧
      gives (.andn h .b32 (.v 1) (.v 2) (.v 3)) [(2, 0xF), (3, 5)] 1 0xA = true ∧
      decides (.icmp h .lt .i32 1 (.v 2) (.v 3)) [(2, 0xFFFFFFFF)] 1 = some true ∧
      decides (.icmp h .lt .n32 1 (.v 2) (.v 3)) [(2, 0xFFFFFFFF)] 1 = some false ∧
      decides (.plop h 2 0 1 7 0xF0) [] 2 = some true := by
  decide +kernel

/-- Table 10.2, and the example of R128. -/
theorem test_float_results :
    gives (.fadd h .f32 false .rn (.v 1) (.v 2) (.v 3)) [(2, 0x3F800000), (3, 0x33800000)] 1 0x3F800000 = true ∧
      gives (.fadd h .f32 false .ru (.v 1) (.v 2) (.v 3)) [(2, 0x3F800000), (3, 0x33800000)] 1 0x3F800001 = true ∧
      gives (.ffma h .f32 false .rn (.v 1) (.v 2) (.v 2) (.v 3)) [(2, 0x3F800001), (3, 0xBF800002)] 1 0x28800000 = true ∧
      gives (.fmul h .f32 false .rn (.v 1) (.v 2) (.v 2)) [(2, 0x3F800001)] 1 0x3F800002 = true ∧
      gives (.fmul h .f32 false .rn (.v 1) (.v 2) (.v 3)) [(3, 0x7F800000)] 1 0x7FC06467 = true ∧
      gives (.fmin h .f32 (.v 1) (.v 2) (.v 3)) [(3, 0x80000000)] 1 0x80000000 = true ∧
      gives (.fmin h .f32 (.v 1) (.v 2) (.v 3)) [(2, 0x3F800000), (3, 0x7FC00005)] 1 0x7FC00005 = true ∧
      gives (.fadd h .f16x2 false .rn (.v 1) (.v 2) (.v 3)) [(2, 0x7BFF3C00), (3, 0x50000000)] 1 0x7C003C00 = true ∧
      gives (.fadd h .f16x2 true .rn (.v 1) (.v 2) (.v 3)) [(2, 0x7BFF3C00), (3, 0x50000000)] 1 0x7BFF3C00 = true ∧
      gives (.fdot2 h .bf16x2 .rn (.v 1) (.v 2) (.v 3) (.lit 0x3F000000)) [(2, 0x40003F80), (3, 0x40404080)] 1 0x41280000 = true ∧
      gives (.fscale h .f32 .rn (.v 1) (.v 2) (.v 3)) [(2, 0x3FC00000), (3, 0xFFFFFF7E)] 1 0x000C0000 = true ∧
      gives (.fgexp h .f32 (.v 1) (.v 2)) [(2, 0x200)] 1 0xFFFFFF74 = true ∧
      gives (.frnd h .f32 .rn (.v 1) (.v 2)) [(2, 0x40200000)] 1 0x40000000 = true ∧
      gives (.frnd h .f32 .ru (.v 1) (.v 2)) [(2, 0x40200000)] 1 0x40400000 = true ∧
      gives (.frnd h .f32 .rn (.v 1) (.v 2)) [(2, 0xBE99999A)] 1 0x80000000 = true := by
  decide +kernel

/-- Table 10.7. -/
theorem test_special_function_results :
    gives (.frcp h .f32 .rn (.v 1) (.v 2)) [(2, 0x40400000)] 1 0x3EAAAAAB = true ∧
      gives (.fsqrt h .f32 .rn (.v 1) (.v 2)) [(2, 0x40000000)] 1 0x3FB504F3 = true ∧
      gives (.fexp2 h .f32 (.v 1) (.v 2)) [(2, 0xC3150000)] 1 1 = true ∧
      gives (.fexp2 h .f32 (.v 1) (.v 2)) [(2, 0xC3160000)] 1 0 = true ∧
      gives (.flog2 h .f32 (.v 1) (.v 2)) [(2, 1)] 1 0xC3150000 = true ∧
      gives (.fsigm h .f32 (.v 1) (.v 2)) [] 1 0x3F000000 = true ∧
      gives (.ftanh h .f32 (.v 1) (.v 2)) [(2, 0x7F800000)] 1 0x3F800000 = true := by
  decide +kernel
theorem test_sine_of_pi : gives (.fsin h .f32 (.v 1) (.v 2)) [(2, 0x40490FDB)] 1 0xB3BBBD2E = true := by decide +kernel

/-- Table 10.9. -/
theorem test_conversion_results :
    gives (.cvt h .i32 .f32 false .rn (.v 1) (.v 2) none) [(2, 0x4F000000)] 1 0x7FFFFFFF = true ∧
      gives (.cvt h .i32 .f32 false .rz (.v 1) (.v 2) none) [(2, 0xC06CCCCD)] 1 0xFFFFFFFD = true ∧
      gives (.cvt h .f32 .i32 false .rn (.v 1) (.v 2) none) [(2, 16777217)] 1 0x4B800000 = true ∧
      gives (.cvt h .bf16x2 .f32 false .rn (.v 1) (.v 2) (some .zero)) [(2, 0x3DCCCCCD)] 1 0x3DCD = true ∧
      gives (.cvt h .f32 .f16x2 false .rn (.v 1) (.v 2) (some (.int 1))) [(2, 0x7E670000)] 1 0x7FC00067 = true ∧
      gives (.cvt h .i32 .i64 false .rn (.v 1) (.v 2) none) [(3, 1)] 1 0 = true ∧
      gives (.cvt h .i32 .i64 true .rn (.v 1) (.v 2) none) [(3, 1)] 1 0x7FFFFFFF = true := by
  decide +kernel

/-! ### Words, steps and registers -/

/-- The word of `nop`, and where it stands in the instruction cache of a core, the group or the sequencer is to run. -/
def wNop : IWord := 0x0000000000000003B8000000000000C6
def sStep : State := s0.putWord 0 0 1 0 0 wNop
theorem test_witness_InstructionWordsRoundTrip :
    (∃ w, WellFormed .vector (.iadd { h with g1 := 1, slk := 3 } .i32 false (.v 4) (.v 2) (.lit 0x1234)) = true ∧
      encode (.iadd { h with g1 := 1, slk := 3 } .i32 false (.v 4) (.v 2) (.lit 0x1234)) = some w) ∧
      decodeWord .tile wNop = .ok (.nop h) := by
  refine ⟨⟨0x00001234000002C3880001FF01010001, by decide, by decide⟩, by decide⟩
theorem test_witness_StepRunsTheDecodedWord :
    (sStep.cursor ≠ [] ∧ sStep.fetch = some (.vector, wNop) ∧ decodeWord .vector wNop = .ok (.nop h) ∧
      exec (.nop h) sStep = .next (sStep.stepLanes 0 [0, 1])) ∧
      (let s := s0.putWord 0 0 1 0 0 0xFF
       s.fetch = some (.vector, 0xFF) ∧ decodeWord .vector 0xFF = .error 0x01 ∧ s.grp = some g0) ∧
      (let s := q0.putWord 0 0 1 0 0 0xFF
       s.fetch = some (.tile, 0xFF) ∧ decodeWord .tile 0xFF = .error 0x01 ∧ s.seq = some 0) ∧
      (s0.cursor ≠ [] ∧ s0.fetch = none) ∧
      (let s : State := { State.reset with agenda := [⟨3, .blockEnd 0⟩] }
       s.cursor = [] ∧ s.agenda = ⟨3, .blockEnd 0⟩ :: []) ∧
      State.reset.cursor = [] ∧ State.reset.agenda = [] :=
  ⟨⟨by decide, by decide +kernel, by decide, rfl⟩, by decide +kernel, by decide +kernel, by decide +kernel, by decide, rfl, rfl⟩
/-- What the host asks of `withFetchWord`: the first step after reset runs the word. -/
theorem test_fetch_word : (State.reset.withFetchWord 128 wNop.toNat).fetch = some (.vector, wNop) := by decide +kernel
theorem test_witness_MemoryKeepsItsForm :
    State.reset.Safe ∧ (State.reset.writePhys 5 [0, 7]).Safe ∧ (State.reset.writePhys 5 [0, 7]).mem = [(6, 7)] ∧
      Memory.wf [(6, 7)] = true ∧ (([(0x28, 1), (0x30, 2)] : NatMap DWord).map (·.1)).Pairwise (· < ·) := by
  refine ⟨(by decide : Memory.wf State.reset.mem = true), (by decide : Memory.wf (State.reset.writePhys 5 [0, 7]).mem = true), by decide,
    by decide, by decide⟩
theorem test_witness_GuardFalseEverywhereOnlyAdvances :
    ((Instr.nop hNone).uses.map (·.1) = some hNone ∧ WellFormed .vector (.nop hNone) = true ∧ s0.grp = some g0 ∧ g0.trues hNone = []) ∧
      (WellFormed .tile (.nop hNone) = true ∧ SeqRuns q0 0 te0 ∧ guardOf hNone te0.pred = false) :=
  ⟨by decide, by decide, seqRuns0, by decide⟩
theorem test_witness_PartcfgZeroesDram :
    ((State.reset.bar0.map (·.1)).Pairwise (· < ·) ∧ State.reset.ctxs = [] ∧ 0 < State.reset.dramSize) ∧ s0.ctxs ≠ [] := by
  decide

theorem test_witness_EveryStepKeepsMemoryForm : State.reset.Safe ∧ ∃ t, step State.reset = .next t := ⟨rfl, _, rfl⟩

end Sys2Proof.Tests
end

section
/-! What the instructions of control flow leave: branches, `nop`, `yield`, `waitc`, rejoin masks, traps and `exit`. -/

namespace Sys2Proof.Machine

/-! ### Groups that act -/

/-- An instruction that changes each guard-true lane by one function: the others pass, and nothing else changes (R6). -/
theorem onGroup_modLanes {s : State} {g : Grp} {h : Hdr} {top : Nat} (hg : Runs s g top) {F : Grp → List Nat → State → State}
    {f : Lane → Lane} (hF : F g (g.trues h) (s.passFalse g h) = (s.passFalse g h).modLanes g.w (g.trues h) f) :
    LanesResult s (onGroup h top s F) g (groupLane g h (fun _ => f)) := by
  by_cases hG : g.trues h = []
  · rw [onGroup_none hg.grp hG]
    exact lanesResult_none hg.grp hG _
  · rw [onGroup_runs hg hG, hF]
    exact lanesResult_modLanes h hg.grp f

/-- … or each by a function of its own. -/
theorem onGroup_foldLanes {s : State} {g : Grp} {h : Hdr} {top : Nat} (hg : Runs s g top) {F : Grp → List Nat → State → State}
    {f : Nat → Lane → Lane}
    (hF : F g (g.trues h) (s.passFalse g h) = (g.trues h).foldl (fun t l => t.modLanes g.w [l] (f l)) (s.passFalse g h)) :
    LanesResult s (onGroup h top s F) g (groupLane g h f) := by
  by_cases hG : g.trues h = []
  · rw [onGroup_none hg.grp hG]
    exact lanesResult_none hg.grp hG _
  · rw [onGroup_runs hg hG, hF]
    exact lanesResult_foldl h hg.grp f

/-- A group with no register named beyond the launch's count runs. -/
theorem runs_zero {s : State} {g : Grp} (hg : s.grp = some g) : Runs s g 0 := ⟨hg, Nat.zero_le _⟩

/-- The guard-true lanes of a group are listed once. -/
theorem trues_nodup_of_grp {s : State} {g : Grp} (hg : s.grp = some g) (h : Hdr) : (g.trues h).Nodup :=
  Grp.trues_nodup (State.grp_spec hg).2.1 h

/-- A change of the sequencer that runs. -/
theorem tenant?_modTenant_of_runs {s : State} {n : Nat} {te : Tenant} (hs : SeqRuns s n te) (f : Tenant → Tenant) :
    (s.modTenant n f).tenant? n = some (f te) := by
  rw [State.tenant?_modTenant, if_pos rfl, hs.tenant]; rfl

/-! ### Branches (R228) -/

/-- A target is a multiple of 16 when its low four bits are zero. -/
theorem lowBits_zero_iff (t : DWord) : t.extractLsb' 0 4 = 0 ↔ t.toNat % 16 = 0 := by
  rw [← BitVec.toNat_inj]
  simp [BitVec.extractLsb'_toNat]

/-- A lane branches to a canonical multiple of 16 … -/
theorem branchTo_good {s : State} {g : Grp} {l : Nat} {t : DWord} (hc : canonical t = true) (hm : t.toNat % 16 = 0) :
    s.branchTo g l t = s.modLanes g.w [l] (fun la => { la with pc := t.setWidth 57 }) := by
  unfold State.branchTo
  rw [if_neg (by simp [hc]), if_neg (by simpa using (lowBits_zero_iff t).mpr hm)]
  rfl

/-- … takes ACCESS for another address that is not canonical … -/
theorem branchTo_notCanonical {s : State} {g : Grp} {l : Nat} {t : DWord} (hc : canonical t = false) :
    s.branchTo g l t = s.trapLane g.w l (.access g.pc t 0x06) := by
  unfold State.branchTo
  rw [if_pos (by simp [hc])]

/-- … and MISALIGN for one that is not a multiple of 16. -/
theorem branchTo_misaligned {s : State} {g : Grp} {l : Nat} {t : DWord} (hc : canonical t = true) (hm : t.toNat % 16 ≠ 0) :
    s.branchTo g l t = s.trapLane g.w l (.misalign g.pc t) := by
  unfold State.branchTo
  rw [if_neg (by simp [hc]), if_pos (by rw [Ne, lowBits_zero_iff]; exact hm)]

/-- Lanes that branch to a register's value, one after the other. -/
def State.branchEach (s : State) (g : Grp) (o : Opd) (G : List Nat) : State :=
  G.foldl (fun s' l => s'.branchTo g l (BitVec.ofNat 64 ((s.laneRegs g l).src64 o))) s

/-- Where every target is good, each lane goes to its own. -/
theorem branchEach_good {s u : State} {g : Grp} {o : Opd} {G : List Nat}
    (hG : ∀ l ∈ G, canonical (BitVec.ofNat 64 ((s.laneRegs g l).src64 o)) = true ∧
      (BitVec.ofNat 64 ((s.laneRegs g l).src64 o)).toNat % 16 = 0) :
    G.foldl (fun s' l => s'.branchTo g l (BitVec.ofNat 64 ((s.laneRegs g l).src64 o))) u =
      G.foldl (fun t l => t.modLanes g.w [l] (fun la => { la with pc := (BitVec.ofNat 64 ((s.laneRegs g l).src64 o)).setWidth 57 })) u := by
  refine List.foldl_ext _ _ _ (fun t l hl => ?_)
  exact branchTo_good (hG l hl).1 (hG l hl).2

/-- `brx` and `ret` send each lane to the value of a register. -/
def execBranchEach (h : Hdr) (o : Opd) (s : State) : State := onGroup h (o.top 64) s (fun g G s => s.branchEach g o G)

theorem exec_brx (h : Hdr) (o : Opd) (s : State) : exec (.brx h o) s = .next (execBranchEach h o s) := rfl
theorem exec_ret (h : Hdr) (a : BitVec 8) (s : State) : exec (.ret h a) s = .next (execBranchEach h (.v a) s) := rfl

/-- `bra` adds the offset for guard-true lanes. -/
theorem bra_lanes {s : State} {g : Grp} (hg : s.grp = some g) (h : Hdr) (off : Word) : ∃ t, exec (.bra h off) s = .next t ∧
    LanesResult s t g (groupLane g h (fun _ la => { la with pc := g.pc + off.signExtend 57 })) := by
  refine ⟨onGroup h 0 s (fun g G s => s.jump g.w G (target g.pc off)), ?_, onGroup_modLanes (runs_zero hg) rfl⟩
  show execBra h off s = _
  unfold execBra
  rw [State.seq_of_grp hg]

/-- … and for a sequencer. -/
theorem bra_seq {s : State} {n : Nat} {te : Tenant} (hs : SeqRuns s n te) (h : Hdr) (off : Word) : ∃ t, exec (.bra h off) s = .next t ∧
    OnlyTenant s t n ∧ t.tenant? n = some { te with pc := if guardOf h te.pred then te.pc + off.signExtend 57 else te.pc + 16 } := by
  refine ⟨s.modTenant n (fun te => { te with pc := if guardOf h te.pred then target te.pc off else te.pc + 16 }), ?_,
    onlyTenant_modTenant _ _ _, tenant?_modTenant_of_runs hs _⟩
  show execBra h off s = _
  unfold execBra
  rw [hs.seq]

/-- `call` writes the address of the next word to a pair and branches. -/
theorem call_lanes {s : State} {g : Grp} {a : BitVec 8} (hg : Runs s g (a.toNat + 2)) (h : Hdr) (off : Word) :
    ∃ t, exec (.call h a off) s = .next t ∧ LanesResult s t g (groupLane g h (fun _ la =>
      { (la.setReg a.toNat (BitVec.ofNat 32 ((g.pc + 16).signExtend 64).toNat)).setReg (a.toNat + 1)
          (BitVec.ofNat 32 (((g.pc + 16).signExtend 64).toNat / 2 ^ 32))
        with pc := g.pc + off.signExtend 57 })) :=
  ⟨_, rfl, onGroup_modLanes hg (State.modLanes_modLanes _ _ _ (trues_nodup_of_grp hg.grp h) _ _)⟩

/-- A jump to the value of a register where every target is good. -/
theorem branchEach_lanes {s : State} {g : Grp} {h : Hdr} {o : Opd} (hg : Runs s g (o.top 64))
    (hG : ∀ l ∈ g.trues h, canonical (BitVec.ofNat 64 ((s.laneRegs g l).src64 o)) = true ∧
      (BitVec.ofNat 64 ((s.laneRegs g l).src64 o)).toNat % 16 = 0) :
    LanesResult s (execBranchEach h o s) g
      (groupLane g h (fun l la => { la with pc := (BitVec.ofNat 64 ((s.laneRegs g l).src64 o)).setWidth 57 })) :=
  onGroup_foldLanes hg (branchEach_good (u := s.passFalse g h) hG)

/-- A jump of one lane. -/
theorem branchEach_one {s : State} {g : Grp} {h : Hdr} {o : Opd} {l : Nat} (hg : Runs s g (o.top 64)) (hl : g.trues h = [l]) :
    execBranchEach h o s = (s.passFalse g h).branchTo g l (BitVec.ofNat 64 ((s.laneRegs g l).src64 o)) := by
  unfold execBranchEach
  rw [onGroup_runs hg (by simp [hl]), hl]
  rfl

/-- Settles O10: the branches change the PC of guard-true lanes only, and a bad register target is a trap. -/
theorem branchResults : Obligations.BranchResults := by
  intro h off a b s
  have jumps : ∀ (i : Instr) (o : Opd), exec i s = .next (execBranchEach h o s) →
      (∀ g, Runs s g (o.top 64) → (∀ l ∈ g.trues h, canonical (BitVec.ofNat 64 ((s.laneRegs g l).src64 o)) = true ∧
          (BitVec.ofNat 64 ((s.laneRegs g l).src64 o)).toNat % 16 = 0) →
        ∃ t, exec i s = .next t ∧ LanesResult s t g
          (groupLane g h (fun l la => { la with pc := (BitVec.ofNat 64 ((s.laneRegs g l).src64 o)).setWidth 57 }))) ∧
      (∀ g l, Runs s g (o.top 64) → g.trues h = [l] →
        (canonical (BitVec.ofNat 64 ((s.laneRegs g l).src64 o)) = false → exec i s = .next ((s.passFalse g h).trapLane g.w l
          { cause := 0x03, pc := g.pc, addr := some (BitVec.ofNat 64 ((s.laneRegs g l).src64 o)), info := 0x06, resume := g.pc })) ∧
        (canonical (BitVec.ofNat 64 ((s.laneRegs g l).src64 o)) = true → (BitVec.ofNat 64 ((s.laneRegs g l).src64 o)).toNat % 16 ≠ 0 →
          exec i s = .next ((s.passFalse g h).trapLane g.w l
          { cause := 0x02, pc := g.pc, addr := some (BitVec.ofNat 64 ((s.laneRegs g l).src64 o)), info := 0, resume := g.pc }))) := by
    intro i o hi
    refine ⟨fun g hg hG => ⟨_, hi, branchEach_lanes hg hG⟩, fun g l hg hl => ⟨fun hc => ?_, fun hc hm => ?_⟩⟩
    · rw [hi, branchEach_one hg hl, branchTo_notCanonical hc]; rfl
    · rw [hi, branchEach_one hg hl, branchTo_misaligned hc hm]; rfl
  exact ⟨fun g hg => bra_lanes hg h off, fun n te hs => bra_seq hs h off, fun g hg => call_lanes hg h off,
    jumps _ _ (exec_brx h b s), jumps _ _ (exec_ret h a s)⟩

end Sys2Proof.Machine
end

section
namespace Sys2Proof.Machine

/-! ### `nop`, `yield` and `waitc` (R230 to R233) -/

/-- What an instruction makes of the lanes where guard-true and guard-false lanes advance alike. -/
theorem groupLane_step (g : Grp) (h : Hdr) (l : Nat) (la : Lane) :
    groupLane g h (fun _ => Lane.step) l la = if l ∈ g.lanes then la.step else la := by
  unfold groupLane
  by_cases hl : l ∈ g.trues h
  · rw [if_pos hl, if_pos (Grp.mem_trues hl)]
  · rw [if_neg hl]

/-- An instruction that advances its guard-true lanes advances the group. -/
theorem LanesResult.all_step {s t : State} {g : Grp} {h : Hdr} (hr : LanesResult s t g (groupLane g h (fun _ => Lane.step))) :
    LanesResult s t g (fun l la => if l ∈ g.lanes then la.step else la) :=
  hr.congr (fun l la _ => groupLane_step g h l la)

/-- The lanes of a group all advance. -/
theorem stepLanes_group {s : State} {g : Grp} (hg : s.grp = some g) :
    LanesResult s (s.stepLanes g.w g.lanes) g (fun l la => if l ∈ g.lanes then la.step else la) := by
  obtain ⟨hw, hnd, -, -⟩ := State.grp_spec hg
  refine ⟨onlyWarp_modLanes _ _ _ _, fun l => ?_, ?_⟩
  · rw [State.stepLanes, State.lane?_modLanes _ _ _ hnd]
    by_cases hl : l ∈ g.lanes <;> simp [hl]
  · rw [State.stepLanes, rest_modLanes, hw]
    rfl

theorem nop_lanes {s : State} {g : Grp} (hg : s.grp = some g) (h : Hdr) : ∃ t, exec (.nop h) s = .next t ∧
    LanesResult s t g (fun l la => if l ∈ g.lanes then la.step else la) := by
  refine ⟨s.stepLanes g.w g.lanes, ?_, stepLanes_group hg⟩
  show execNop h s = _
  unfold execNop
  rw [State.seq_of_grp hg, hg]

theorem nop_seq {s : State} {n : Nat} {te : Tenant} (hs : SeqRuns s n te) (h : Hdr) : ∃ t, exec (.nop h) s = .next t ∧
    OnlyTenant s t n ∧ t.tenant? n = some { te with pc := te.pc + 16 } := by
  refine ⟨s.stepSeq n, ?_, onlyTenant_modTenant _ _ _, tenant?_modTenant_of_runs hs _⟩
  show execNop h s = _
  unfold execNop
  rw [hs.seq]

theorem yield_lanes {s : State} {g : Grp} (hg : s.grp = some g) (h : Hdr) : ∃ t, exec (.yield h) s = .next t ∧
    LanesResult s t g (groupLane g h (fun _ la => { la.step with yieldUntil := some (s.clock g.wp.core + 16) })) :=
  ⟨_, rfl, onGroup_modLanes (runs_zero hg) (State.modLanes_modLanes _ _ _ (trues_nodup_of_grp hg h) _ _)⟩

/-- The limits of `waitc`, as a proposition. -/
theorem countersOk_iff (wp : Warp) (ld st cp tl : BitVec 8) : wp.countersOk ld st cp tl = true ↔
    wp.ctrLd ≤ ld.toNat ∧ min 255 wp.ctrSt ≤ st.toNat ∧ wp.ctrCp ≤ cp.toNat ∧ wp.ctrTl ≤ tl.toNat := by
  simp [Warp.countersOk, and_assoc]

theorem waitc_lanes {s : State} {g : Grp} (hg : s.grp = some g) (h : Hdr) (ld st cp tl : BitVec 8) :
    ∃ t, exec (.waitc h ld st cp tl) s = .next t ∧ LanesResult s t g (groupLane g h (fun _ la =>
      if g.wp.ctrLd ≤ ld.toNat ∧ min 255 g.wp.ctrSt ≤ st.toNat ∧ g.wp.ctrCp ≤ cp.toNat ∧ g.wp.ctrTl ≤ tl.toNat then la.step else la)) := by
  refine ⟨_, rfl, onGroup_modLanes (runs_zero hg) ?_⟩
  simp only [countersOk_iff]
  split
  · rfl
  · exact (State.modLanes_same _ _ _).symm

/-- Settles O11: `nop`, `yield` and `waitc` change the lanes of their group only. -/
theorem nopYieldAndWaitcResults : Obligations.NopYieldAndWaitcResults := fun h ld st cp tl _ =>
  ⟨fun _ hg => nop_lanes hg h, fun _ _ hs => nop_seq hs h, fun _ hg => yield_lanes hg h, fun _ hg => waitc_lanes hg h ld st cp tl⟩

/-! ### Rejoin masks (R12) -/

theorem enrol_lanes {s : State} {g : Grp} (hg : s.grp = some g) (h : Hdr) (hG : g.trues h ≠ []) (n : BitVec 3) :
    ∃ t, exec (.enrol h n) s = .next t ∧ WarpResult s t g (fun l la => if l ∈ g.lanes then la.step else la)
      (g.wp.setMask n.toNat (g.wp.mask n.toNat ||| lanesMask (g.trues h))) := by
  have hk : ∀ (wp : Warp) (x : List Lane), Warp.setMask { wp with lanes := x } n.toNat (Warp.mask { wp with lanes := x } n.toNat ||| lanesMask (g.trues h)) =
      { wp.setMask n.toNat (wp.mask n.toNat ||| lanesMask (g.trues h)) with lanes := x } := fun _ _ => rfl
  refine ⟨_, rfl, ?_⟩
  show WarpResult s (onGroup h 0 s _) g _ _
  rw [onGroup_runs (runs_zero hg) hG]
  show WarpResult s (((s.passFalse g h).modWarp g.w _).modLanes g.w (g.trues h) Lane.step) g _ _
  rw [modWarp_modLanes _ _ _ _ _ hk]
  exact ((lanesResult_modLanes h hg Lane.step).all_step).thenWarp _ hk

/-- A lane of the group is runnable, so it waits at no mask. -/
theorem lane_runnable {s : State} {g : Grp} (hg : s.grp = some g) {l : Nat} (hl : l ∈ g.lanes) {la : Lane} (e : s.lane? g.w l = some la) :
    la.st = .runnable := by
  obtain ⟨-, -, -, hmem⟩ := State.grp_spec hg
  obtain ⟨-, la', e', hst, -⟩ := hmem l hl
  rw [e'] at e
  cases e
  exact hst

theorem rejoin_lanes {s : State} {g : Grp} (hg : s.grp = some g) (h : Hdr) (hG : g.trues h ≠ []) (n : BitVec 3) :
    let k := n.toNat
    let W := (List.range 32).filter (fun l => (s.lane? g.w l).any (fun la => l ∈ g.trues h || decide (la.st = .rejoin k)))
    let all : Bool := W ≠ [] ∧ g.wp.mask k &&& ~~~(lanesMask W) = 0
    ∃ t, exec (.rejoin h n) s = .next t ∧
      WarpResult s t g (fun l la =>
        if all = true ∧ l ∈ W then freed (s.clock g.wp.core) la
        else if l ∈ g.trues h then { la with st := .rejoin k }
        else if l ∈ g.lanes then la.step else la) (if all then g.wp.setMask k 0 else g.wp) := by
  intro k W all
  have hW : W = (upTo 32).filter (fun l => (s.lane? g.w l).any (fun la =>
      (groupLane g h (fun _ la => { la with st := .rejoin k }) l la).st = .rejoin k)) := by
    rw [upTo_eq]
    refine List.filter_congr (fun l _ => ?_)
    cases e : s.lane? g.w l with
    | none => rfl
    | some la =>
      unfold groupLane
      by_cases h1 : l ∈ g.trues h
      · simp [h1]
      · by_cases h2 : l ∈ g.lanes
        · simp [h1, h2, Lane.step]
        · simp [h1, h2]
  have hr := (lanesResult_modLanes h hg (fun la => { la with st := .rejoin k })).thenTry (fun wp => wp) (fun _ _ => rfl) k
    (fun wp => s.clock wp.core) (fun _ _ => rfl) W hW all rfl
  refine ⟨_, rfl, ?_⟩
  show WarpResult s (onGroup h 0 s _) g _ _
  rw [onGroup_runs (runs_zero hg) hG]
  refine WarpResult.congr hr (fun l la e => ?_)
  unfold groupLane
  by_cases hc : all = true ∧ l ∈ W
  · rw [if_pos hc, if_pos hc]
    have hm := (List.mem_filter.mp hc.2).2
    rw [e] at hm
    by_cases h1 : l ∈ g.trues h
    · rw [if_pos h1]; rfl
    · have hst : la.st = .rejoin k := by simpa [h1] using hm
      have h2 : l ∉ g.lanes := fun h2 => by
        have := lane_runnable hg h2 e
        rw [hst] at this; cases this
      rw [if_neg h1, if_neg h2]
  · rw [if_neg hc, if_neg hc]

theorem strike_lanes {s : State} {g : Grp} (hg : s.grp = some g) (h : Hdr) (hG : g.trues h ≠ []) (n : BitVec 3) :
    let k := n.toNat
    let W := (List.range 32).filter (fun l => (s.lane? g.w l).any (fun la => la.st = .rejoin k))
    let wp' := g.wp.setMask k (g.wp.mask k &&& ~~~(lanesMask (g.trues h)))
    let all : Bool := W ≠ [] ∧ wp'.mask k &&& ~~~(lanesMask W) = 0
    ∃ t, exec (.strike h n) s = .next t ∧
      WarpResult s t g (fun l la => if all = true ∧ l ∈ W then freed (s.clock g.wp.core) la else if l ∈ g.lanes then la.step else la)
        (if all then wp'.setMask k 0 else wp') := by
  intro k W wp' all
  have hW : W = (upTo 32).filter (fun l => (s.lane? g.w l).any (fun la =>
      (if l ∈ g.lanes then la.step else la).st = .rejoin k)) := by
    rw [upTo_eq]
    refine List.filter_congr (fun l _ => ?_)
    by_cases h2 : l ∈ g.lanes <;> simp [h2, Lane.step]
  have hr := ((lanesResult_modLanes h hg Lane.step).all_step).thenTry
    (fun wp => wp.setMask k (wp.mask k &&& ~~~(lanesMask (g.trues h)))) (fun _ _ => rfl) k
    (fun wp => s.clock wp.core) (fun _ _ => rfl) W hW all rfl
  refine ⟨_, rfl, ?_⟩
  show WarpResult s (onGroup h 0 s _) g _ _
  rw [onGroup_runs (runs_zero hg) hG]
  refine WarpResult.congr hr (fun l la e => ?_)
  by_cases hc : all = true ∧ l ∈ W
  · rw [if_pos hc, if_pos hc]
    have hm := (List.mem_filter.mp hc.2).2
    rw [e] at hm
    have hst : la.st = .rejoin k := by simpa using hm
    have h2 : l ∉ g.lanes := fun h2 => by
      have := lane_runnable hg h2 e
      rw [hst] at this; cases this
    rw [if_neg h2]
  · rw [if_neg hc, if_neg hc]

/-- A group with no true guard passes an instruction of the rejoin masks. -/
theorem rejoin_none {s : State} {g : Grp} (hg : s.grp = some g) {h : Hdr} (hG : g.trues h = []) (n : BitVec 3) :
    ∀ i ∈ [Instr.enrol h n, .rejoin h n, .strike h n], exec i s = .next (s.passFalse g h) := by
  have pass : ∀ F, (Host.Outcome.next (onGroup h 0 s F) : Out) = .next (s.passFalse g h) := fun F => by rw [onGroup_none hg hG]
  intro i hi
  simp only [List.mem_cons, List.not_mem_nil, or_false] at hi
  rcases hi with rfl | rfl | rfl
  · exact pass _
  · exact pass _
  · exact pass _

/-- Settles O12: `enrol`, `rejoin` and `strike` change the mask, and a release frees the lanes parked at it. -/
theorem rejoinMaskResults : Obligations.RejoinMaskResults := by
  intro h n s g hg
  refine ⟨fun hG i hi => ⟨_, rejoin_none hg hG n i hi, ?_⟩, fun hG => ⟨enrol_lanes hg h hG n, rejoin_lanes hg h hG n, strike_lanes hg h hG n⟩⟩
  exact (lanesResult_none hg hG (fun _ => Lane.step)).all_step

end Sys2Proof.Machine
end

section
namespace Sys2Proof.Machine

/-! ### Traps, returns and exits (R229, R234, R235) -/

/-- The lanes of the group once the guard-false ones have passed. -/
theorem passFalse_lane? {s : State} {g : Grp} (hg : s.grp = some g) (h : Hdr) (l : Nat) :
    (s.passFalse g h).lane? g.w l = (s.lane? g.w l).map (fun la => if l ∈ g.lanes ∧ l ∉ g.trues h then la.step else la) := by
  have hnd := (State.grp_spec hg).2.1
  unfold State.passFalse State.stepLanes
  rw [State.lane?_modLanes _ _ _ (hnd.filter _)]
  by_cases hl : l ∈ g.lanes ∧ l ∉ g.trues h
  · rw [if_pos (by simpa using hl)]; simp [hl]
  · rw [if_neg (by simpa using hl)]; simp [hl]

/-- A guard-true lane has not changed. -/
theorem passFalse_lane?_true {s : State} {g : Grp} (hg : s.grp = some g) {h : Hdr} {l : Nat} (hl : l ∈ g.trues h) :
    (s.passFalse g h).lane? g.w l = s.lane? g.w l := by
  rw [passFalse_lane? hg]
  simp [hl]

/-- The warp of the group once the guard-false lanes have passed. -/
theorem passFalse_warp? {s : State} {g : Grp} (hg : s.grp = some g) (h : Hdr) :
    ∃ wp, (s.passFalse g h).warp? g.w = some wp ∧ wp.block = g.wp.block ∧ wp.core = g.wp.core := by
  refine ⟨g.wp.modLanes (g.lanes.filter (fun l => l ∉ g.trues h)) Lane.step, ?_, Warp.modLanes_block _ _ _, Warp.modLanes_core _ _ _⟩
  unfold State.passFalse State.stepLanes
  rw [State.warp?_modLanes, if_pos rfl, State.warp?_of_grp hg]; rfl

/-- What the warp holds besides its lanes stays. -/
theorem passFalse_rest {s : State} {g : Grp} (hg : s.grp = some g) (h : Hdr) (x : List Lane) :
    ((s.passFalse g h).warp? g.w).map (fun wp => { wp with lanes := x }) = some { g.wp with lanes := x } := by
  unfold State.passFalse State.stepLanes
  rw [rest_modLanes, State.warp?_of_grp hg]; rfl

/-- Other warps stay. -/
theorem passFalse_warp?_other (s : State) (g : Grp) (h : Hdr) {v : Nat} (hv : v ≠ g.w) : (s.passFalse g h).warp? v = s.warp? v := by
  unfold State.passFalse State.stepLanes
  rw [State.warp?_modLanes, if_neg hv]

/-- The lanes of a group are there and run. -/
theorem grp_lane {s : State} {g : Grp} (hg : s.grp = some g) {l : Nat} (hl : l ∈ g.lanes) :
    ∃ la, s.lane? g.w l = some la ∧ g.wp.lane? l = some la ∧ la.st = .runnable := by
  obtain ⟨hw, -, -, hmem⟩ := State.grp_spec hg
  obtain ⟨-, la, e, hst, -⟩ := hmem l hl
  exact ⟨la, e, by simpa [State.lane?, hw] using e, hst⟩

/-- What a lane keeps that enters the handler for `trap`. -/
theorem enter_swtrap (la : Lane) (pc handler : PC) (code : BitVec 8) (c : Nat) :
    la.enter { cause := 0x08, pc := pc, addr := none, info := code.setWidth 64, resume := pc + 16 } handler c =
      { la with
        tcause := 0x08
        tpc := pc.setWidth 64
        tinfo := code.setWidth 64
        resume := match la.tx with
          | some tx => tx.fallback
          | none => pc + 16
        txstat := if la.tx.isSome then 0x05 else la.txstat
        tx := none
        pc := handler
        st := .entry (c + 4)
        hold := .none
        readyAt := c + 4
        inHandler := true } := by
  unfold Lane.enter
  cases e : la.tx with
  | none => simp
  | some tx => simp

/-- `trap` where the launch names a handler that no lane is in. -/
theorem trap_enters {s : State} {g : Grp} (hg : s.grp = some g) (h : Hdr) (code : BitVec 8) {lr : LaunchRec}
    (hr : s.recOfBlock g.wp.block = some lr) (hh : lr.handler ≠ 0)
    (hi : ∀ l ∈ g.trues h, ∀ la, s.lane? g.w l = some la → la.inHandler = false) (ha : ∀ l ∈ g.trues h, s.aheadOf g.w l = none) :
    Entered (s.passFalse g h)
      ((s.passFalse g h).trapLanes g.w (g.trues h)
        { cause := 0x08, pc := g.pc, addr := none, info := code.setWidth 64, resume := g.pc + 16 }) g.w g.wp.block (g.trues h)
      (fun la => la.enter { cause := 0x08, pc := g.pc, addr := none, info := code.setWidth 64, resume := g.pc + 16 }
        (BitVec.ofNat 57 lr.handler) (s.clock g.wp.core)) := by
  refine trapLanes_enter g.w g.wp.block g.wp.core lr hh _ _ _ (trues_nodup_of_grp hg h) _ (passFalse_warp? hg h) rfl hr (fun l hl => ?_) ha
  obtain ⟨la, e, -, hst⟩ := grp_lane hg (Grp.mem_trues hl)
  exact ⟨la, (passFalse_lane?_true hg hl).trans e, hi l hl la e, by rw [hst]; simp⟩

/-- The group's lanes that are in a handler, where all of the guard-true ones are. -/
theorem inHandler_all {s : State} {g : Grp} (hg : s.grp = some g) {h : Hdr}
    (hi : ∀ l ∈ g.trues h, ∀ la, s.lane? g.w l = some la → la.inHandler = true) :
    (g.trues h).filter (fun l => (g.wp.lane? l).any (·.inHandler)) = g.trues h := by
  refine List.filter_eq_self.mpr (fun l hl => ?_)
  obtain ⟨la, e, e', -⟩ := grp_lane hg (Grp.mem_trues hl)
  rw [e']
  exact hi l hl la e

/-- … and where none is. -/
theorem inHandler_none {s : State} {g : Grp} (hg : s.grp = some g) {h : Hdr}
    (hi : ∀ l ∈ g.trues h, ∀ la, s.lane? g.w l = some la → la.inHandler = false) :
    (g.trues h).filter (fun l => (g.wp.lane? l).any (·.inHandler)) = [] := by
  refine List.filter_eq_nil_iff.mpr (fun l hl => ?_)
  obtain ⟨la, e, e', -⟩ := grp_lane hg (Grp.mem_trues hl)
  rw [e']
  simp [hi l hl la e]

theorem rte_returns {s : State} {g : Grp} (hg : s.grp = some g) (h : Hdr)
    (hi : ∀ l ∈ g.trues h, ∀ la, s.lane? g.w l = some la → la.inHandler = true) :
    ∃ t, exec (.rte h) s = .next t ∧ LanesResult s t g (groupLane g h (fun _ la =>
      { la with pc := la.resume, inHandler := false, readyAt := s.clock g.wp.core + 3 })) := by
  refine ⟨_, rfl, onGroup_modLanes (runs_zero hg) ?_⟩
  dsimp only
  rw [inHandler_all hg hi, List.filter_eq_nil_iff.mpr (by simp)]
  rfl

theorem rte_traps {s : State} {g : Grp} (hg : s.grp = some g) (h : Hdr) (hG : g.trues h ≠ [])
    (hi : ∀ l ∈ g.trues h, ∀ la, s.lane? g.w l = some la → la.inHandler = false) :
    exec (.rte h) s = .next ((s.passFalse g h).illopLanes g (g.trues h) 0x0B) := by
  show Host.Outcome.next (onGroup h 0 s _) = _
  rw [onGroup_runs (runs_zero hg) hG]
  dsimp only
  rw [inHandler_none hg hi, modLanes_nil, List.filter_eq_self.mpr (by simp)]

/-- Settles O13: `trap` enters the handler of the launch, and `rte` returns from it. -/
theorem trapAndReturnResults : Obligations.TrapAndReturnResults := by
  intro h code s g hg
  refine ⟨fun lr hr hh hi ha => ?_, rte_returns hg h, rte_traps hg h⟩
  have he := trap_enters hg h code hr hh hi ha
  refine ⟨_, congrArg Host.Outcome.next (onGroup_any (runs_zero hg) _ (fun _ => rfl)), he.frame, fun v hv => ?_, ?_, fun l => ?_, he.blocks⟩
  · rw [he.others v hv, passFalse_warp?_other s g h hv]
  · rw [he.rest, passFalse_rest hg]
  · rw [he.lanes, passFalse_lane? hg, Option.map_map]
    congr 1
    funext la
    simp only [Function.comp, groupLane]
    by_cases h1 : l ∈ g.trues h
    · simp only [h1, if_true, not_true_eq_false, and_false, if_false]
      exact enter_swtrap la _ _ _ _
    · simp [h1]

/-- A sequencer that exits, or passes. -/
theorem exit_seq {s : State} {n : Nat} {te : Tenant} (hs : SeqRuns s n te) (h : Hdr) : ∃ t, exec (.exit h) s = .next t ∧
    OnlyTenant s t n ∧ t.tenant? n = some (if guardOf h te.pred then { te with st := .exited } else { te with pc := te.pc + 16 }) := by
  refine ⟨s.modTenant n (fun te => if guardOf h te.pred then { te with st := .exited } else { te with pc := te.pc + 16 }), ?_,
    onlyTenant_modTenant _ _ _, tenant?_modTenant_of_runs hs _⟩
  show execExit h s = _
  unfold execExit
  rw [hs.seq]

/-- With no arrival at a phase boundary there is none to check (R313). -/
theorem checkArrivals_nil {s : State} {b : Nat} (h : ∀ bl, s.block? b = some bl → bl.arrivals = []) : s.checkArrivals b = s := by
  unfold State.checkArrivals
  split
  · rfl
  · rename_i bl hbl
    simp [h bl hbl]

/-- The guard-true lanes of a group exit, and the guard-false ones pass. -/
theorem exit_lanes {s : State} {g : Grp} (hg : s.grp = some g) (h : Hdr) (hbar : NoBar s g.w g.lanes)
    (harr : ∀ bl, s.block? g.wp.block = some bl → bl.arrivals = []) :
    ∃ t, exec (.exit h) s = .next t ∧
      (∀ l ∈ g.trues h, ∃ la, t.lane? g.w l = some la ∧ la.st = .exited ∧ la.tx = none ∧ la.hold = .none ∧ la.inHandler = false) ∧
      (∀ l ∈ g.lanes, l ∉ g.trues h → t.lane? g.w l = (s.lane? g.w l).map Lane.step) := by
  set L := g.lanes.filter (fun l => l ∉ g.trues h) with hL
  have hsub : ∀ l ∈ L ++ g.trues h, l ∈ g.lanes := fun l hl => by
    rcases List.mem_append.mp hl with hl | hl
    · exact (List.mem_filter.mp hl).1
    · exact Grp.mem_trues hl
  obtain ⟨calm, ended⟩ := exitLanes_spec g.w (g.trues h) (trues_nodup_of_grp hg h) (s.passFalse g h) L
    (fun m hm hmL => by simpa [hm] using (List.mem_filter.mp hmL).2)
    (fun e he a ha hw hm => hbar e he a ha hw (hsub _ hm))
    (fun m hm => by
      obtain ⟨la, e, -, hst⟩ := grp_lane hg (Grp.mem_trues hm)
      exact ⟨la, (passFalse_lane?_true hg hm).trans e, hst⟩)
  have hbarL : NoBar (s.passFalse g h) g.w L := fun e he a ha hw hm => hbar e he a ha hw (List.mem_filter.mp hm).1
  refine ⟨(s.passFalse g h).exitLanes g.w (g.trues h), ?_, ended, fun l hl hnt => ?_⟩
  · show execExit h s = _
    unfold execExit
    rw [State.seq_of_grp hg]
    dsimp only
    rw [onGroup_any (runs_zero hg) _ (fun _ => checkArrivals_nil (s := s.passFalse g h) harr), checkArrivals_nil (calm.arr _ harr)]
  · obtain ⟨la, e, -, hst⟩ := grp_lane hg hl
    have e' : (s.passFalse g h).lane? g.w l = some la.step := by
      rw [passFalse_lane? hg, e]; simp [hl, hnt]
    rw [e]
    exact calm.lanes hbarL l (by simp [hL, hl, hnt]) _ e' (Or.inl hst)

/-- Settles O15: the guard-true lanes end, and a sequencer too. -/
theorem exitEndsLanes : Obligations.ExitEndsLanes := fun h _ =>
  ⟨fun _ hg hbar harr => exit_lanes hg h hbar harr, fun _ _ hs => exit_seq hs h⟩

end Sys2Proof.Machine
end

section
namespace Sys2Proof.Machine

/-! ### Special registers and control registers (R218, R219) -/

/-- `movs` computes the value of a special register. -/
theorem movs_computes (h : Hdr) (wide : Bool) (a : Dst) (x : BitVec 6) (s : State) :
    Computes h (a.top (if wide then 64 else 32)) (fun _ r => [.reg a (if wide then 64 else 32) (s.special r x.toNat)]) s
      (exec (.movs h wide a x) s) := by
  refine computes_of (f := fun _ r => [.reg a (if wide then 64 else 32) (s.special r x.toNat)]) ?_ (fun _ _ => rfl)
  show Host.Outcome.next (alu1 h a (if wide then 64 else 32) 0 (fun r => s.special r x.toNat) s) = _
  unfold alu1
  rw [Nat.max_zero]

/-- A special register of a group's lane is one of the lane, its warp or its block. -/
theorem special_of_grp {s : State} {g : Grp} (hg : s.grp = some g) (r : Regs) (x : Nat) : s.special r x = s.laneSpecial g r x := by
  unfold State.special
  rw [hg]

/-- The trap registers of a lane. -/
theorem laneSpecial_trap (s : State) {g : Grp} {l : Nat} {la : Lane} (hl : g.wp.lane? l = some la) :
    s.laneSpecial g (s.laneRegs g l) 0x1C = la.tcause.toNat ∧ s.laneSpecial g (s.laneRegs g l) 0x1D = la.tpc.toNat ∧
    s.laneSpecial g (s.laneRegs g l) 0x1E = la.taddr.toNat ∧ s.laneSpecial g (s.laneRegs g l) 0x1F = la.tinfo.toNat ∧
    s.laneSpecial g (s.laneRegs g l) 0x20 = la.txstat.toNat := by
  have hl' : g.wp.lane? (s.laneRegs g l).lane = some la := hl
  simp [State.laneSpecial, hl']

/-- `%exec` has the bits of the lanes of the group. -/
theorem laneSpecial_exec (s : State) (g : Grp) (r : Regs) {k : Nat} (hk : k < 32) :
    (s.laneSpecial g r 0x12).testBit k = decide (k ∈ g.lanes) := lanesMask_bit g.lanes k hk

/-- Only bit 7 of `%tenable` may be set (R219). -/
theorem tenable_legal_iff (v : Word) : v &&& 0xFFFFFF7F#32 = 0 ↔ ∀ k, k < 32 → k ≠ 7 → v.getLsbD k = false := by
  have hbits : ∀ k : Fin 32, (0xFFFFFF7F#32).getLsbD k = decide (k.val ≠ 7) := by decide
  constructor
  · intro hv k hk h7
    have h1 : (v &&& 0xFFFFFF7F#32).getLsbD k = false := by rw [hv]; simp
    have h2 := hbits ⟨k, hk⟩
    rw [BitVec.getLsbD_and, h2] at h1
    simpa [h7] using h1
  · intro hv
    refine BitVec.eq_of_getLsbD_eq (fun k hk => ?_)
    rw [BitVec.getLsbD_and, hbits ⟨k, hk⟩]
    by_cases h7 : k = 7
    · simp [h7]
    · simp [hv k hk h7]

/-- `movc` of a group with a guard-true lane reads the value of the lowest one. -/
theorem exec_movc {s : State} {g : Grp} (hg : s.grp = some g) {h : Hdr} {l : Nat} {rest : List Nat} (hl : g.trues h = l :: rest)
    (x : CtlReg) (b : Opd) :
    exec (.movc h x b) s = .next (
      let v := BitVec.ofNat 32 ((s.laneRegs g l).src32 b)
      match x with
      | .sbias => (s.modWarp g.w (fun wp => { wp with sbias := max (-2) (min 3 v.toInt) })).stepLanes g.w g.lanes
      | .tenable =>
        if v &&& 0xFFFFFF7F#32 ≠ 0 then
          (s.stepLanes g.w (g.lanes.filter (fun l => l ∉ g.trues h))).illopLanes g (g.trues h) 0x0B
        else (s.modWarp g.w (fun wp => { wp with tenable := v })).stepLanes g.w g.lanes) := by
  have hv : s.views' g h = s.laneRegs g l :: rest.map (s.laneRegs g) := by
    unfold State.views'
    rw [hl]; rfl
  show execMovc h x b s = _
  unfold execMovc
  rw [hg]
  dsimp only
  rw [hv] <;> cases x <;> rfl

/-- A change of the warp before its group advances. -/
theorem modWarp_stepLanes {s : State} {g : Grp} (hg : s.grp = some g) (k : Warp → Warp)
    (hk : ∀ wp x, k { wp with lanes := x } = { k wp with lanes := x }) :
    WarpResult s ((s.modWarp g.w k).stepLanes g.w g.lanes) g (fun l la => if l ∈ g.lanes then la.step else la) (k g.wp) := by
  rw [State.stepLanes, modWarp_modLanes _ _ _ _ _ hk]
  exact (stepLanes_group hg).thenWarp k hk

/-- The clamp of `%sbias` (R42). -/
theorem clamp_sbias (v : Int) : max (-2) (min 3 v) = if v < -2 then -2 else if 3 < v then 3 else v := by
  split <;> [skip; split] <;> omega

/-- Settles O9: `movs` reads the special registers, and `movc` writes `%sbias` clamped and only legal `%tenable` values. -/
theorem specialRegisterReadsAndControlWrites : Obligations.SpecialRegisterReadsAndControlWrites := by
  intro h wide a b s
  refine ⟨fun x => movs_computes h wide a x s, fun g hg l _ la hla => ?_, fun g hg l rest hl => ⟨?_, fun hv => ?_, fun hv => ?_⟩⟩
  · obtain ⟨hcause, htpc, haddr, hinfo, htx⟩ := laneSpecial_trap s hla
    simp only [special_of_grp hg]
    exact ⟨rfl, rfl, rfl, rfl, rfl, fun k hk => laneSpecial_exec s g _ hk, rfl, hcause, htpc, haddr, hinfo, htx, rfl, rfl⟩
  · refine ⟨_, exec_movc hg hl .sbias b, ?_⟩
    have hr := modWarp_stepLanes hg (fun wp => { wp with sbias := max (-2) (min 3 (BitVec.ofNat 32 ((s.laneRegs g l).src32 b)).toInt) })
      (fun _ _ => rfl)
    refine ⟨hr.frame, hr.lanes, hr.warp.trans ?_⟩
    rw [clamp_sbias]
  · have hr := modWarp_stepLanes hg (fun wp => { wp with tenable := BitVec.ofNat 32 ((s.laneRegs g l).src32 b) }) (fun _ _ => rfl)
    refine ⟨_, ?_, hr.frame, hr.lanes, hr.warp⟩
    rw [exec_movc hg hl]
    dsimp only
    rw [if_neg (not_not.mpr ((tenable_legal_iff _).mpr hv))]
  · rw [exec_movc hg hl]
    dsimp only
    rw [if_pos]
    rw [Ne, tenable_legal_iff]
    obtain ⟨k, hk, h7, hb⟩ := hv
    exact fun hall => by rw [hall k hk h7] at hb; cases hb

end Sys2Proof.Machine
end

section
namespace Sys2Proof.Machine

/-! ### Prefetches and code (R236 to R238, R282) -/

/-- The request of `ipf` for line `i` after the one that holds its label. -/
def IpfReq (s : State) (g : Grp) (off : Word) (n : Nat) (q : Req) : Prop :=
  q.kind = .ifetch ∧ q.demand = false ∧ q.st = .sent ∧ q.core = g.wp.core ∧ q.asid = s.asidOf g.wp.block ∧
    q.view = s.viewOf g.wp.block ∧ ∃ i < n, q.line = lineOf (target g.pc off).toNat + i

/-- Lines are 192 bytes each. -/
theorem lineOf_add (a i : Nat) : lineOf (a * 192 + 192 * i) = a + i := by
  unfold lineOf; omega

/-- The lines that `ipf` asks for. -/
theorem ipf_adds (s : State) (g : Grp) (h : Hdr) (n : BitVec 5) (off : Word) :
    Adds (IpfReq s g off n.toNat) (s.passFalse g h)
      ((upTo n.toNat).foldl (fun s i =>
        s.prefetchLine g.wp.core (s.ctxIdOf g.wp.block) (s.asidOf g.wp.block) (s.viewOf g.wp.block) (some g.wp.block)
          (lineOf (target g.pc off).toNat * 192 + 192 * i)) (s.passFalse g h)) n.toNat := by
  have hfold := adds_fold (IpfReq s g off n.toNat) (fun s i =>
        s.prefetchLine g.wp.core (s.ctxIdOf g.wp.block) (s.asidOf g.wp.block) (s.viewOf g.wp.block) (some g.wp.block)
          (lineOf (target g.pc off).toNat * 192 + 192 * i)) (upTo n.toNat) (s.passFalse g h)
    (fun u hu i hi => by
      have hasid : u.asidOf g.wp.block = s.asidOf g.wp.block := by rw [hu]; rfl
      have hview : u.viewOf g.wp.block = s.viewOf g.wp.block := by rw [hu]; rfl
      exact prefetchLine_adds _ _ _ _ _ _ _ _ (fun _ _ =>
        ⟨rfl, rfl, rfl, rfl, hasid, hview, i, (mem_upTo _ _).mp hi, lineOf_add _ _⟩))
    (s.passFalse g h) rfl
  rwa [length_upTo] at hfold

theorem ipf_result {s : State} {g : Grp} (hg : Runs s g 0) (h : Hdr) (n : BitVec 5) (off : Word) :
    ∃ t new, exec (.ipf h n off) s = .next t ∧
      LanesResult { s with reqs := t.reqs, tick := t.tick } t g (groupLane g h (fun _ => Lane.step)) ∧ t.reqs = s.reqs ++ new ∧
      new.length ≤ n.toNat ∧ ∀ e ∈ new, IpfReq s g off n.toNat e.2 := by
  by_cases hG : g.trues h = []
  · exact ⟨_, [], congrArg Host.Outcome.next (onGroup_none hg.grp hG _), lanesResult_none hg.grp hG _, (List.append_nil _).symm,
      Nat.zero_le _, by simp⟩
  · obtain ⟨hlanes, new, hreqs, hlen, hnew⟩ := adds_lanes hg.grp _ (ipf_adds s g h n off)
    exact ⟨_, new, congrArg Host.Outcome.next (onGroup_runs hg hG _), hlanes, hreqs, hlen, hnew⟩

/-- The group advances once code has been dropped. -/
theorem dropsCode_lanes {s u : State} {g : Grp} {h : Hdr} (hg : s.grp = some g) {k : Nat} {bad : DLine → Prop}
    (hd : DropsCode (s.passFalse g h) u k bad) :
    LanesResult { s with cores := u.cores, reqs := u.reqs } (u.stepLanes g.w (g.trues h)) g (groupLane g h (fun _ => Lane.step)) := by
  have hr := (lanesResult_modLanes h hg Lane.step).besides (fun s => { s with cores := u.cores, reqs := u.reqs }) (fun _ _ => rfl)
  have e : u.stepLanes g.w (g.trues h) = { (s.passFalse g h).modLanes g.w (g.trues h) Lane.step with cores := u.cores, reqs := u.reqs } :=
    congrArg (fun v : State => v.stepLanes g.w (g.trues h)) hd.frame
  rw [e]
  exact hr

/-- The code that `icinv` drops for a guard-true lane. -/
def IcinvLane (s : State) (g : Grp) (b len : Opd) (l : Nat) (d : DLine) : Prop :=
  0 < (s.laneRegs g l).src32 len ∧ (d.asid = s.asidOf g.wp.block ∨ d.asid = 0) ∧
    d.line * 192 < va57 (BitVec.ofNat 64 ((s.laneRegs g l).src64 b)) + (s.laneRegs g l).src32 len ∧
    va57 (BitVec.ofNat 64 ((s.laneRegs g l).src64 b)) < d.line * 192 + 192

theorem icinv_result {s : State} {g : Grp} (h : Hdr) (b len : Opd) (hg : Runs s g (max (b.top 64) (len.top 32))) :
    ∃ u, exec (.icinv h b len) s = .next (u.stepLanes g.w (g.trues h)) ∧
      DropsCode (s.passFalse g h) u g.wp.core (fun d => ∃ l ∈ g.trues h, IcinvLane s g b len l d) :=
  ⟨_, congrArg Host.Outcome.next (onGroup_any hg _ (fun _ => stepLanes_nil _ _)),
    dropCodes_spec g.wp.core _ (IcinvLane s g b len) (g.trues h) (fun s' _ => dropCode_spec s' _ _ _ _) (s.passFalse g h)⟩

theorem ifence_result {s : State} {g : Grp} (hg : Runs s g 0) (h : Hdr) (hG : g.trues h ≠ []) :
    ∃ t, exec (.ifence h) s = .next t ∧ WarpResult s t g (groupLane g h (fun _ => Lane.step))
      { g.wp with
        acquire := g.wp.acquire ++ (s.openLoads g.w (lanesMask (g.trues h))).map (fun x => (lanesMask (g.trues h), x)) } :=
  ⟨_, congrArg Host.Outcome.next (onGroup_runs hg hG _), acq_then hg.grp Lane.step⟩

/-- Each request of `mkReqs` is that of a lane: its line and page are those of the lane's address. -/
theorem mkReqs_lane {g : Grp} {p : Who} {i : MemI} {group : Nat} {inTx : Bool} {data addr : Nat → Nat} {G : List Nat} {q : Req}
    (hq : q ∈ mkReqs g p i group inTx data (G.map (fun l => (l, addr l)))) :
    (∃ accs, q = mkReq g p i group 0 inTx accs) ∧ ∃ l ∈ G, q.line = lineOf (addr l) ∧ q.page = pageOf (addr l) := by
  obtain ⟨hall, heach, -, -⟩ := mkReqs_spec g p i group inTx data addr G
  obtain ⟨accs, rfl, hne, hin⟩ := heach q hq
  obtain ⟨a, ha⟩ := List.exists_mem_of_ne_nil _ hne
  have hmem : a ∈ mkAccs i.bytes data (G.map (fun l => (l, addr l))) :=
    hall.mem_iff.mp (List.mem_flatMap.mpr ⟨_, hq, ha⟩)
  rw [mkAccs_map] at hmem
  obtain ⟨l, hl, rfl⟩ := List.mem_map.mp hmem
  obtain ⟨hline, hpage⟩ := hin _ ha
  exact ⟨⟨accs, rfl⟩, l, hl, hline.symm, hpage.symm⟩

/-- The guard-true lanes for which `dpf` asks. -/
def dpfLanes (s : State) (g : Grp) (h : Hdr) (m : MAddr) : List Nat :=
  (g.wp.notTx (g.trues h)).filter (fun l => canonical ((s.laneRegs g l).addr m) &&
    (s.apertureOff (s.ctxIdOf g.wp.block) (va57 ((s.laneRegs g l).addr m))).isNone)

/-- A filter that keeps an address with each lane. -/
theorem filterMap_pair (L : List Nat) (p : Nat → Bool) (f : Nat → Nat) :
    L.filterMap (fun l => if p l then some (l, f l) else none) = (L.filter p).map (fun l => (l, f l)) := by
  induction L with
  | nil => rfl
  | cons l L ih => by_cases hp : p l <;> simp [hp, ih]

/-- The requests of `dpf`. -/
def DpfReq (s : State) (g : Grp) (h : Hdr) (m : MAddr) (q : Req) : Prop :=
  q.kind = .prefetch ∧ q.demand = false ∧ q.st = .waiting ∧ q.core = g.wp.core ∧ q.asid = s.asidOf g.wp.block ∧
    q.view = s.viewOf g.wp.block ∧ ∃ l ∈ g.trues h, canonical ((s.laneRegs g l).addr m) = true ∧
      q.line = lineOf (va57 ((s.laneRegs g l).addr m)) ∧ q.page = pageOf (va57 ((s.laneRegs g l).addr m))

/-- Each of them is a prefetch for a canonical address of a guard-true lane. -/
theorem dpf_req {s : State} {g : Grp} {h : Hdr} {m : MAddr} {p : Who} (hp : p = { s.whoOf g with demand := false }) {group : Nat} {q : Req}
    (hq : q ∈ mkReqs g p (dpfI h) group false (fun _ => 0) ((dpfLanes s g h m).map (fun l => (l, va57 ((s.laneRegs g l).addr m)))))
    (w : IWord) : DpfReq s g h m { q with warp := none, word := w } := by
  obtain ⟨⟨accs, rfl⟩, l, hl, hline, hpage⟩ := mkReqs_lane (addr := fun l => va57 ((s.laneRegs g l).addr m)) hq
  obtain ⟨hnt, hc⟩ := List.mem_filter.mp hl
  subst hp
  rw [Bool.and_eq_true] at hc
  exact ⟨rfl, rfl, rfl, rfl, rfl, rfl, l, (List.mem_filter.mp hnt).1, hc.1, hline, hpage⟩

/-- Requests that all satisfy `P` are added. -/
theorem addReqs_adds (P : Req → Prop) (s : State) (qs : List Req) (hq : ∀ q ∈ qs, ∀ w, P { q with word := w }) :
    Adds P s (s.addReqs qs).next qs.length := by
  obtain ⟨xs, hx, hmap⟩ := addReqs_spec s qs
  rw [hx]
  refine ⟨rfl, xs, rfl, ?_, fun e he => ?_⟩
  · have := congrArg List.length hmap
    rw [List.length_map, List.length_map] at this
    omega
  · have : e.2 ∈ qs.map (fun q => { q with word := (s.fetch.map (·.2)).getD q.word }) := hmap ▸ List.mem_map_of_mem he
    obtain ⟨q, hmem, e2⟩ := List.mem_map.mp this
    rw [← e2]
    exact hq q hmem _

theorem dpf_result {s : State} {g : Grp} (h : Hdr) (m : MAddr) (hg : Runs s g m.top) :
    ∃ t new, exec (.dpf h m) s = .next t ∧
      LanesResult { s with reqs := t.reqs, tick := t.tick } t g (groupLane g h (fun _ => Lane.step)) ∧ t.reqs = s.reqs ++ new ∧
      ∀ e ∈ new, DpfReq s g h m e.2 := by
  by_cases hG : g.trues h = []
  · exact ⟨_, [], congrArg Host.Outcome.next (onGroup_none hg.grp hG _), lanesResult_none hg.grp hG _, (List.append_nil _).symm, by simp⟩
  · set qs := mkReqs g { s.whoOf g with demand := false } (dpfI h) s.tick false (fun _ => 0)
      ((dpfLanes s g h m).map (fun l => (l, va57 ((s.laneRegs g l).addr m)))) with hqs
    have hadds : Adds (DpfReq s g h m) (s.passFalse g h) ((s.passFalse g h).addReqs (qs.map (fun q => { q with warp := none }))).next
        (qs.map (fun q => { q with warp := none })).length := addReqs_adds _ _ _ (fun q hq w => by
      obtain ⟨q', hq', rfl⟩ := List.mem_map.mp hq
      exact dpf_req rfl hq' w)
    obtain ⟨hlanes, new, hreqs, -, hnew⟩ := adds_lanes hg.grp _ hadds
    refine ⟨_, new, ?_, hlanes, hreqs, hnew⟩
    refine congrArg Host.Outcome.next ((onGroup_runs hg hG _).trans ?_)
    dsimp only
    rw [filterMap_pair]
    rfl

/-- Settles O18: `ipf` and `dpf` ask for lines, `icinv` drops code, `ifence` begins an acquire. -/
theorem prefetchAndCodeResults : Obligations.PrefetchAndCodeResults := by
  intro h n off b len m s g
  refine ⟨fun hg => ipf_result hg h n off, fun hg => ?_, fun hg hG => ifence_result hg h hG, fun hg => dpf_result h m hg⟩
  obtain ⟨u, he, hd⟩ := icinv_result h b len hg
  refine ⟨_, he, dropsCode_lanes hg.grp hd, hd.reqs, hd.others, hd.core, fun d => (hd.lines d).trans (and_congr_right (fun _ => ?_))⟩
  rw [not_exists]
  exact forall_congr' (fun l => not_and)

end Sys2Proof.Machine
end

section
namespace Sys2Proof.Machine

/-! ### `gath` (R78, R281) -/

/-- A minimum is at most each of its numbers. -/
theorem foldl_min_le (xs : List Nat) (b : Nat) : xs.foldl min b ≤ b ∧ ∀ x ∈ xs, xs.foldl min b ≤ x := by
  induction xs generalizing b with
  | nil => exact ⟨le_refl _, by simp⟩
  | cons y xs ih =>
    obtain ⟨h1, h2⟩ := ih (min b y)
    rw [List.foldl_cons]
    refine ⟨h1.trans (Nat.min_le_left _ _), fun x hx => ?_⟩
    rcases List.mem_cons.mp hx with rfl | hx
    · exact h1.trans (Nat.min_le_right _ _)
    · exact h2 x hx

/-- … and a maximum at least. -/
theorem le_foldl_max (xs : List Nat) (b : Nat) : b ≤ xs.foldl max b ∧ ∀ x ∈ xs, x ≤ xs.foldl max b := by
  induction xs generalizing b with
  | nil => exact ⟨le_refl _, by simp⟩
  | cons y xs ih =>
    obtain ⟨h1, h2⟩ := ih (max b y)
    rw [List.foldl_cons]
    refine ⟨(Nat.le_max_left _ _).trans h1, fun x hx => ?_⟩
    rcases List.mem_cons.mp hx with rfl | hx
    · exact (Nat.le_max_right _ _).trans h1
    · exact h2 x hx

theorem le_listMax {xs : List Nat} {x : Nat} (hx : x ∈ xs) : x ≤ listMax xs := (le_foldl_max xs 0).2 x hx

/-- Requests that have been added as `mkReqs` makes them are what an instruction asks for. -/
theorem asks_addReqs {s s1 u : State} {g : Grp} {i : MemI} {p : Who} (hreqs : s1.reqs = s.reqs)
    (hp : p.view = s.viewOf g.wp.block ∧ p.asid = s.asidOf g.wp.block) (group : Nat) (data addr : Nat → Nat) (G : List Nat)
    (hu : u.reqs = (s1.addReqs (mkReqs g p i group false data (G.map (fun l => (l, addr l))))).reqs) :
    Asks s u g i .waiting (mkAccs i.bytes data (G.map (fun l => (l, addr l)))) := by
  obtain ⟨hall, -, halone, hlines⟩ := mkReqs_spec g p i group false data addr G
  have heach := mkReqs_each (i := i) hp group data addr G
  generalize mkReqs g p i group false data (G.map (fun l => (l, addr l))) = qs at *
  obtain ⟨xs, hx, hmap⟩ := addReqs_spec s1 qs
  rw [hx] at hu
  have hureqs : u.reqs = s.reqs ++ xs := by rw [hu, ← hreqs]
  have hdrop : u.reqs.drop s.reqs.length = xs := by rw [hureqs, List.drop_left]
  have hof : ∀ e ∈ xs, ∃ q ∈ qs, ∃ w, e.2 = { q with word := w } := fun e he => by
    have : e.2 ∈ xs.map (·.2) := List.mem_map_of_mem he
    rw [hmap] at this
    obtain ⟨q, hq, e2⟩ := List.mem_map.mp this
    exact ⟨q, hq, _, e2.symm⟩
  refine ⟨by rw [hureqs, List.take_left], ?_, fun e he => ?_, fun hal e he => ?_, fun hal => ?_⟩
  · have : xs.flatMap (fun e => e.2.accs) = (xs.map (·.2)).flatMap (fun q => q.accs) := by rw [List.flatMap_map]
    rw [hdrop, this, hmap, List.flatMap_map]
    exact hall
  · obtain ⟨q, hq, w, e2⟩ := hof e (hdrop ▸ he)
    rw [e2]
    exact heach q hq
  · obtain ⟨q, hq, w, e2⟩ := hof e (hdrop ▸ he)
    rw [e2]
    exact halone hal q hq
  · have : xs.map (fun e => (e.2.line, e.2.page)) = (xs.map (·.2)).map (fun q => (q.line, q.page)) := by rw [List.map_map]; rfl
    rw [hdrop, this, hmap, List.map_map]
    exact hlines hal

/-- The source range of a gather: whole 16-byte chunks from the lowest to the highest byte that its lanes read. -/
def gatherRange (p : Who) (bytes : Nat) (as : List (Nat × Nat)) : RangeLock :=
  { view := p.view, asid := p.asid, lo := (as.map (·.2)).foldl min (2 ^ 57) / 16 * 16,
    hi := listMax (as.map (fun x => x.2 + bytes - 1)) / 16 * 16 + 15, kind := 4, dest := false }

/-- It spans every byte that they read. -/
theorem gatherRange_spans (p : Who) {bytes : Nat} (hb : 0 < bytes) {as : List (Nat × Nat)} {a : Nat × Nat} (ha : a ∈ as) :
    (gatherRange p bytes as).lo ≤ a.2 ∧ a.2 + (bytes - 1) ≤ (gatherRange p bytes as).hi := by
  have hlo := (foldl_min_le (as.map (·.2)) (2 ^ 57)).2 a.2 (List.mem_map_of_mem ha)
  have hhi : a.2 + bytes - 1 ≤ listMax (as.map (fun x => x.2 + bytes - 1)) := le_listMax (List.mem_map.mpr ⟨a, ha, rfl⟩)
  unfold gatherRange
  dsimp only
  omega

/-- The gather that begins. -/
def gatherStart (s : State) (g : Grp) (h : Hdr) (t : Ty) (a : BitVec 8) (cl e : Nat) : Gather :=
  { warp := g.w, issued := s.clock g.wp.core, lanes := lanesMask (g.trues h), arrived := 0, released := 0,
    lock := some (cl, e), dst := a, regs := t.regBits / 32, vals := [], pc := g.pc, group := s.tick }

/-- The addresses that the guard-true lanes of a group access. -/
def laneAddrs (s : State) (g : Grp) (h : Hdr) (m : MAddr) : List (Nat × Nat) :=
  (g.trues h).map (fun l => (l, va57 ((s.laneRegs g l).addr m)))

/-- The lanes of a gather's warp are enrolled … -/
def gatherMask (g : Grp) (h : Hdr) (n : BitVec 3) (wp : Warp) : Warp :=
  wp.setMask n.toNat (wp.mask n.toNat ||| lanesMask (g.trues h))

/-- … and its destination is pending. -/
def gatherCount (g : Grp) (h : Hdr) (t : Ty) (a : BitVec 8) (id group clock : Nat) (wp : Warp) : Warp :=
  { wp.addPend (lanesMask (g.trues h)) (gathI h t a id) group clock g.pc with ctrLd := wp.ctrLd + 1 }

/-- A warp changes by `k`, a cluster by `f`, a gather begins and holds lanes. -/
def State.holdGather (s : State) (w cl id : Nat) (k : Warp → Warp) (f : Cluster → Cluster) (ga : Gather) (G : List Nat)
    (hold : Lane → Lane) : State :=
  { (s.modWarp w k).next.modCluster cl f with gathers := s.gathers ++ [(id, ga)] }.modLanes w G hold

/-- A group whose gather begins, before it asks. -/
def gatherHeld (s : State) (g : Grp) (h : Hdr) (t : Ty) (a : BitVec 8) (m : MAddr) (n : BitVec 3) (e : Nat) : State :=
  (s.passFalse g h).holdGather g.w (clusterOf g.wp.core) (mapFresh s.gathers) (gatherMask g h n)
    (fun c => { c with locks := mapSet c.locks e (gatherRange (s.whoOf g) (t.bits / 8) (laneAddrs s g h m)) })
    (gatherStart s g h t a (clusterOf g.wp.core) e) (g.trues h) (fun la => { la with st := .gath (mapFresh s.gathers) })

/-- … once it has asked … -/
def gatherAsked (s : State) (g : Grp) (h : Hdr) (t : Ty) (a : BitVec 8) (m : MAddr) (n : BitVec 3) (e : Nat) : State :=
  (gatherHeld s g h t a m n e).addReqs
    (mkReqs g (s.whoOf g) (gathI h t a (mapFresh s.gathers)) s.tick false (fun _ => 0) (laneAddrs s g h m))

/-- … and what it leaves. -/
def gatherIssued (s : State) (g : Grp) (h : Hdr) (t : Ty) (a : BitVec 8) (m : MAddr) (n : BitVec 3) (e : Nat) : State :=
  (gatherAsked s g h t a m n e).modWarp g.w
    (gatherCount g h t a (mapFresh s.gathers) s.tick ((gatherAsked s g h t a m n e).clock g.wp.core))

/-- `gath` begins a gather where a range entry is free and every guard-true lane passes its checks. -/
theorem exec_gath {s : State} {g : Grp} {h : Hdr} {t : Ty} {a : BitVec 8} {m : MAddr} (n : BitVec 3) {e : Nat}
    (hg : Runs s g (max (Opd.top (.v a) t.bits) m.top)) (hG : g.trues h ≠ []) (hlock : (s.cluster (clusterOf g.wp.core)).freeLock = some e)
    (hc : Clear (s.passFalse g h) g (g.trues h) m (gathI h t a (mapFresh s.gathers))) :
    exec (.gath h t a m n) s = .next (gatherIssued s g h t a m n e) := by
  have hlock' : ((s.passFalse g h).cluster ((s.passFalse g h).whoOf g).cluster).freeLock = some e := hlock
  have hck := checkLanes_pass (s.passFalse g h) g ((s.passFalse g h).whoOf g) m (gathI h t a (mapFresh s.gathers)) (g.trues h) hc.pass
  have hperform : (g.trues h).map (fun l => (l, va57 (((s.passFalse g h).laneRegs g l).addr m))) ≠ [] := by simpa using hG
  have hlanes : ((g.trues h).map (fun l => (l, va57 (((s.passFalse g h).laneRegs g l).addr m)))).map (·.1) = g.trues h := by
    rw [List.map_map]; exact List.map_id _
  show Host.Outcome.next (onGroup h (max (Opd.top (.v a) t.bits) m.top) s _) = _
  rw [onGroup_runs hg hG]
  rw [outsideTx_none _ _ _ _ hc.tx (pass_lane hg.grp h) hG]
  dsimp only
  rw [hlock']
  dsimp only
  rw [show (s.passFalse g h).gathers = s.gathers from rfl, hck]
  dsimp only
  rw [if_neg hperform, hlanes]
  rfl

/-- The registers that a gather will still write. -/
theorem gatherPend_vregs (wp : Warp) (M : Mask) (h : Hdr) (t : Ty) (a : BitVec 8) (id group clock : Nat) (pc : PC) :
    (pendOf wp M (gathI h t a id) group clock pc).vregs = (List.range (max 1 (t.regBits / 32))).map (fun j => a.toNat + j) := by
  unfold pendOf gathI regRange
  rw [upTo_eq]

/-- Requests that are added change no warp. -/
theorem addReqs_warps (s : State) (qs : List Req) : (s.addReqs qs).warps = s.warps := by
  obtain ⟨xs, hx, -⟩ := addReqs_spec s qs
  rw [hx]

/-- The mask of the guard-true lanes is not empty. -/
theorem trues_mask_ne_zero {s : State} {g : Grp} {h : Hdr} (hg : s.grp = some g) (hG : g.trues h ≠ []) : lanesMask (g.trues h) ≠ 0 :=
  mask_ne_zero hG (fun l hl => by
    rw [lanesMask_bit _ _ ((State.grp_spec hg).2.2.2 l (Grp.mem_trues hl)).1]
    exact decide_eq_true hl)

theorem gatherCount_eq {g : Grp} {h : Hdr} (hM : lanesMask (g.trues h) ≠ 0) (t : Ty) (a : BitVec 8) (id group clock : Nat) (wp : Warp) :
    gatherCount g h t a id group clock wp =
      { wp with ctrLd := wp.ctrLd + 1
                pend := wp.pend ++ [pendOf wp (lanesMask (g.trues h)) (gathI h t a id) group clock g.pc] } := by
  unfold gatherCount
  rw [Warp.addPend_pos _ _ _ _ _ _ hM]

/-- The warps that a gather leaves which begins. -/
theorem gatherIssued_warps (s : State) (g : Grp) (h : Hdr) (t : Ty) (a : BitVec 8) (m : MAddr) (n : BitVec 3) (e : Nat) :
    (gatherIssued s g h t a m n e).warps =
      ((((s.passFalse g h).modLanes g.w (g.trues h) (fun la => { la with st := .gath (mapFresh s.gathers) })).modWarp g.w
        (gatherMask g h n)).modWarp g.w
          (gatherCount g h t a (mapFresh s.gathers) s.tick ((gatherAsked s g h t a m n e).clock g.wp.core))).warps := by
  have hheld : (gatherAsked s g h t a m n e).warps =
      (((s.passFalse g h).modWarp g.w (gatherMask g h n)).modLanes g.w (g.trues h) (fun la => { la with st := .gath (mapFresh s.gathers) })).warps :=
    (addReqs_warps _ _).trans rfl
  rw [← modWarp_modLanes _ _ _ _ _ (fun _ _ => rfl)]
  exact congrArg (fun ws => mapModify ws g.w _) hheld

/-- The lanes and the warp of a gather that begins. -/
theorem gatherIssued_warp {s : State} {g : Grp} {h : Hdr} (hg : s.grp = some g) (hG : g.trues h ≠ []) (t : Ty) (a : BitVec 8) (m : MAddr)
    (n : BitVec 3) (e : Nat) :
    let u := gatherIssued s g h t a m n e
    (∀ l, u.lane? g.w l = (s.lane? g.w l).map (groupLane g h (fun _ la => { la with st := .gath (mapFresh s.gathers) }) l)) ∧
      (∀ v, v ≠ g.w → u.warp? v = s.warp? v) ∧
      ∃ wp, u.warp? g.w = some wp ∧ { wp with lanes := g.wp.lanes, pend := g.wp.pend } =
          { g.wp.setMask n.toNat (g.wp.mask n.toNat ||| lanesMask (g.trues h)) with ctrLd := g.wp.ctrLd + 1 } ∧
        ∃ p ∈ wp.pend, p.lanes = lanesMask (g.trues h) ∧
          p.vregs = (List.range (max 1 (t.regBits / 32))).map (fun j => a.toNat + j) := by
  intro u
  have hws := gatherIssued_warps s g h t a m n e
  set clock := (gatherAsked s g h t a m n e).clock g.wp.core
  have hM := trues_mask_ne_zero hg hG
  have hr := ((lanesResult_modLanes h hg (fun la => { la with st := .gath (mapFresh s.gathers) })).thenWarp (gatherMask g h n)
    (fun _ _ => rfl)).thenWarp (gatherCount g h t a (mapFresh s.gathers) s.tick clock) (fun wp x => by
      rw [gatherCount_eq hM, gatherCount_eq hM]; rfl)
  have hwarp : ∀ v, u.warp? v = _ := fun v => congrArg (fun ws => mapGet? ws v) hws
  have hlane : ∀ l, u.lane? g.w l = _ := fun l => congrArg (fun x : Option Warp => x.bind (fun wp => wp.lane? l)) (hwarp g.w)
  refine ⟨fun l => (hlane l).trans (hr.lanes l), fun v hv => (hwarp v).trans (hr.frame.2 v hv), ?_⟩
  obtain ⟨wp, hwp, heq⟩ := Option.map_eq_some_iff.mp hr.warp
  rw [gatherCount_eq hM] at heq
  have hpend := congrArg Warp.pend heq
  dsimp only at hpend
  refine ⟨wp, (hwarp g.w).trans hwp, ?_, _, ?_, rfl,
    gatherPend_vregs (gatherMask g h n g.wp) (lanesMask (g.trues h)) h t a (mapFresh s.gathers) s.tick clock g.pc⟩
  · have hrest := congrArg (fun v : Warp => { v with pend := g.wp.pend }) heq
    exact hrest
  · rw [hpend]
    exact List.mem_append_right _ (List.mem_singleton.mpr rfl)

/-- Requests that are added and a change of a warp change only requests and warps. -/
theorem addReqs_modWarp_frame (s : State) (qs : List Req) (w : Nat) (f : Warp → Warp) :
    let u := (s.addReqs qs).modWarp w f
    u = { s with warps := u.warps, reqs := u.reqs } := by
  obtain ⟨xs, hx, -⟩ := addReqs_spec s qs
  rw [hx]
  rfl

/-- What a gather changes before it asks. -/
theorem holdGather_frame (s : State) (w cl id : Nat) (k : Warp → Warp) (f : Cluster → Cluster) (ga : Gather) (G : List Nat)
    (hold : Lane → Lane) :
    let u := s.holdGather w cl id k f ga G hold
    u = { s with warps := u.warps, clusters := u.clusters, gathers := u.gathers, tick := u.tick } := rfl

theorem holdGather_cluster (s : State) (w cl id : Nat) (k : Warp → Warp) (f : Cluster → Cluster) (ga : Gather) (G : List Nat)
    (hold : Lane → Lane) (j : Nat) :
    (s.holdGather w cl id k f ga G hold).cluster j = if j = cl then f (s.cluster j) else s.cluster j :=
  State.cluster_modCluster s cl j f

/-- Passing lanes changes only warps. -/
theorem passFalse_frame (s : State) (g : Grp) (h : Hdr) : s.passFalse g h = { s with warps := (s.passFalse g h).warps } := rfl

theorem gatherHeld_frame (s : State) (g : Grp) (h : Hdr) (t : Ty) (a : BitVec 8) (m : MAddr) (n : BitVec 3) (e : Nat) :
    let u := gatherHeld s g h t a m n e
    u = { s with warps := u.warps, clusters := u.clusters, gathers := u.gathers, tick := u.tick } := by
  have h1 := passFalse_frame s g h
  unfold gatherHeld
  generalize s.passFalse g h = v at h1 ⊢
  refine (holdGather_frame v _ _ _ _ _ _ _ _).trans ?_
  rw [h1]

/-- A gather's lanes wait, its requests are made, its range is entered, and nothing else changes. -/
theorem gatherIssued_frame (s : State) (g : Grp) (h : Hdr) (t : Ty) (a : BitVec 8) (m : MAddr) (n : BitVec 3) (e : Nat) :
    let u := gatherIssued s g h t a m n e
    u = { s with warps := u.warps, reqs := u.reqs, clusters := u.clusters, gathers := u.gathers, tick := u.tick } := by
  have h1 := gatherHeld_frame s g h t a m n e
  have h2 : gatherIssued s g h t a m n e = { gatherHeld s g h t a m n e with
      warps := (gatherIssued s g h t a m n e).warps, reqs := (gatherIssued s g h t a m n e).reqs } := addReqs_modWarp_frame _ _ _ _
  dsimp only at h1 ⊢
  generalize gatherHeld s g h t a m n e = v at h1 h2
  generalize gatherIssued s g h t a m n e = u at h2 ⊢
  rw [h2, h1]

/-- Requests that are added change no gather … -/
theorem addReqs_gathers (s : State) (qs : List Req) : (s.addReqs qs).gathers = s.gathers := by
  obtain ⟨xs, hx, -⟩ := addReqs_spec s qs
  rw [hx]

/-- … and no cluster. -/
theorem addReqs_clusters (s : State) (qs : List Req) : (s.addReqs qs).clusters = s.clusters := by
  obtain ⟨xs, hx, -⟩ := addReqs_spec s qs
  rw [hx]

theorem gatherIssued_gathers (s : State) (g : Grp) (h : Hdr) (t : Ty) (a : BitVec 8) (m : MAddr) (n : BitVec 3) (e : Nat) :
    (gatherIssued s g h t a m n e).gathers =
      s.gathers ++ [(mapFresh s.gathers, gatherStart s g h t a (clusterOf g.wp.core) e)] := addReqs_gathers _ _

theorem gatherIssued_cluster (s : State) (g : Grp) (h : Hdr) (t : Ty) (a : BitVec 8) (m : MAddr) (n : BitVec 3) (e j : Nat) :
    (gatherIssued s g h t a m n e).cluster j = if j = clusterOf g.wp.core then
      { s.cluster j with locks := mapSet (s.cluster j).locks e (gatherRange (s.whoOf g) (t.bits / 8) (laneAddrs s g h m)) }
    else s.cluster j :=
  (congrArg (fun cs => mapGetD cs j Cluster.reset) (addReqs_clusters _ _)).trans (holdGather_cluster _ _ _ _ _ _ _ _ _ _)

/-- A gather asks for one access of each guard-true lane. -/
theorem gatherIssued_asks (s : State) (g : Grp) (h : Hdr) (t : Ty) (a : BitVec 8) (m : MAddr) (n : BitVec 3) (e : Nat) :
    Asks s (gatherIssued s g h t a m n e) g (gathI h t a (mapFresh s.gathers)) .waiting
      ((g.trues h).map (accOf s g m (gathI h t a (mapFresh s.gathers)) (fun _ => 0))) := by
  have hreqs : (gatherHeld s g h t a m n e).reqs = s.reqs := by
    rw [gatherHeld_frame s g h t a m n e]
  have hadded : (gatherIssued s g h t a m n e).reqs = ((gatherHeld s g h t a m n e).addReqs
      (mkReqs g (s.whoOf g) (gathI h t a (mapFresh s.gathers)) s.tick false (fun _ => 0) (laneAddrs s g h m))).reqs := by
    unfold gatherIssued gatherAsked
    rfl
  have hasks := asks_addReqs (u := gatherIssued s g h t a m n e) (i := gathI h t a (mapFresh s.gathers)) (p := s.whoOf g) hreqs
    ⟨rfl, rfl⟩ s.tick (fun _ => 0) (fun l => va57 ((s.laneRegs g l).addr m)) (g.trues h) hadded
  rwa [accOf_eq] at hasks

/-- A type is at least a byte wide. -/
theorem Ty.bytes_pos (t : Ty) : 0 < t.bits / 8 := by cases t <;> decide

/-- Settles O19: `gath` enrols and holds its lanes, enters one source range and asks for one access per lane. -/
theorem gatherIssues : Obligations.GatherIssues := by
  intro h t a m n s g e G id cl q hg hG hlock hc
  obtain ⟨hlanes, hothers, hwarp⟩ := gatherIssued_warp hg.grp hG t a m n e
  refine ⟨gatherIssued s g h t a m n e, gatherStart s g h t a cl e, gatherRange (s.whoOf g) (t.bits / 8) (laneAddrs s g h m),
    exec_gath n hg hG hlock hc, gatherIssued_frame s g h t a m n e, gatherIssued_asks s g h t a m n e, hlanes, hothers, hwarp,
    gatherIssued_gathers s g h t a m n e, rfl, rfl, rfl, rfl, rfl, rfl, rfl, ?_, ?_, rfl, rfl, rfl, fun l hl => ?_⟩
  · exact (gatherIssued_cluster s g h t a m n e _).trans (if_pos rfl)
  · exact fun j hj => (gatherIssued_cluster s g h t a m n e j).trans (if_neg hj)
  · exact gatherRange_spans _ (Ty.bytes_pos t) (List.mem_map.mpr ⟨l, hl, rfl⟩)

end Sys2Proof.Machine
end

section
namespace Sys2Proof.Machine

/-! ### Phase boundaries (R311 to R313) -/

/-- The arrivals of the guard-true lanes of a group at a phase boundary. -/
def arrivalsOf (g : Grp) (h : Hdr) (kind : Boundary) (label : PC) : List Arrival :=
  (g.trues h).map (fun l => { warp := g.w, lane := l, kind := kind, pc := g.pc, label := label })

/-- The guard-true lanes have parked and their block notes their arrivals. -/
def State.parkedAt (s : State) (g : Grp) (h : Hdr) (kind : Boundary) (label : PC) : State :=
  ((s.passFalse g h).modLanes g.w (g.trues h) (fun la => { la with st := .boundary })).modBlock g.wp.block (fun b =>
    { b with arrivals := b.arrivals ++ arrivalsOf g h kind label })

section
variable {s : State} {g : Grp} {h : Hdr} {bl : Block} {lr : LaunchRec} (hg : s.grp = some g) (hG : g.trues h ≠ [])
  (hx : ∀ k ∈ g.trues h, ∀ la, s.lane? g.w k = some la → la.tx = none ∧ la.inHandler = false)
  (hb : s.block? g.wp.block = some bl) (hr : s.recOfBlock g.wp.block = some lr)
include hg hG hx hb hr

/-- A phase boundary that nothing forbids: the lanes arrive. -/
theorem boundary_parks (hp : lr.psize ≠ 0) (hj : bl.judging = false) (hn : bl.broken = none) {deny : Block → LaunchRec → Bool}
    (hd : deny bl lr = false) (kind : State → Grp → List Nat → Boundary) (label : PC → PC) :
    boundary h s deny kind label =
      (s.parkedAt g h (kind (s.passFalse g h) g (g.trues h)) (label g.pc)).checkArrivals g.wp.block := by
  rw [boundary_runs hg hG hx hb hr, if_neg (by simp [hp, hj, hd])]
  have hnone : bl.tbroken g.pc = none := by
    unfold Block.tbroken
    rw [hn]; rfl
  rw [hnone]
  exact arrive_eq hg _ _

/-- A phase boundary that is forbidden is illegal. -/
theorem boundary_illegal {deny : Block → LaunchRec → Bool} (hd : lr.psize = 0 ∨ bl.judging = true ∨ deny bl lr = true)
    (kind : State → Grp → List Nat → Boundary) (label : PC → PC) :
    boundary h s deny kind label = (s.passFalse g h).illopLanes g (g.trues h) 0x0B := by
  rw [boundary_runs hg hG hx hb hr, if_pos]
  rcases hd with hd | hd | hd <;> simp [hd]

end

/-- Where the arrivals agree in kind, nothing more happens. -/
theorem parkedAt_check {s : State} {g : Grp} {h : Hdr} {bl : Block} (hb : s.block? g.wp.block = some bl) {kind : Boundary} {label : PC}
    (hk : sameKind (bl.arrivals ++ arrivalsOf g h kind label) = true) :
    (s.parkedAt g h kind label).checkArrivals g.wp.block = s.parkedAt g h kind label := by
  refine check_same (bl := { bl with arrivals := bl.arrivals ++ arrivalsOf g h kind label }) ?_ hk
  unfold State.parkedAt
  rw [State.block?_modBlock, if_pos rfl]
  exact congrArg (Option.map _) hb

/-- `pbar` of a group is a boundary. -/
theorem exec_pbar {s : State} {g : Grp} (hg : s.grp = some g) (h : Hdr) :
    exec (.pbar h) s = .next (boundary h s (fun _ _ => false) (fun _ _ _ => .pbar) (fun pc => pc)) := by
  show execPbar h s = _
  unfold execPbar
  rw [State.seq_of_grp hg]

theorem exec_gbar (h : Hdr) (s : State) :
    exec (.gbar h) s = .next (boundary h s (fun bl _ => bl.depth ≠ 0) (fun _ _ _ => .gbar) (fun pc => pc)) := rfl

theorem exec_forkw (h : Hdr) (n : Opd) (off : Word) (s : State) :
    exec (.forkw h n off) s =
      .next (boundary h s (fun _ lr => lr.gang ≠ 0) (fun s g G => .forkw (s.groupSrc g G n)) (fun pc => target pc off)) := rfl

/-- `pbar` of a sequencer whose guard is true. -/
theorem exec_pbar_seq {s : State} {t : Nat} {te : Tenant} {lr : LaunchRec} {bl : Block} {h : Hdr} (hs : SeqRuns s t te)
    (hguard : guardOf h te.pred = true) (hr : s.recOfBlock te.block = some lr) (hb : s.block? te.block = some bl) :
    exec (.pbar h) s = .next (if lr.psize = 0 ∨ bl.judging = true then s.illopSeq t 0x0B
      else if s.streamIdle t te then s.modTenant t (fun te => { te with st := .pbar }) else s) := by
  show execPbar h s = _
  unfold execPbar onSeq
  simp only [hs.seq, hs.tenant, hguard, hr, hb]
  simp

/-- A sequencer whose queue, instructions and drains are over is idle. -/
theorem streamIdle_of {s : State} {t : Nat} {te : Tenant} (hq : te.queue = []) (hrun : te.running = [])
    (hc : ∀ c ∈ s.copies, c.2.tenant = some t → c.2.st = .closed) : s.streamIdle t te = true := by
  have hcopies : s.copies.any (fun e => e.2.tenant = some t && e.2.st ≠ .closed) = false := by
    rw [List.any_eq_false]
    intro c hm
    simp only [Bool.and_eq_true, decide_eq_true_eq, not_and, not_not]
    exact hc c hm
  unfold State.streamIdle
  rw [hq, hrun, hcopies]
  rfl

/-- Settles O30: `pbar`, `gbar` and `forkw` park their lanes as arrivals of the block, or are illegal. -/
theorem phaseBoundaryResults : Obligations.PhaseBoundaryResults := by
  refine ⟨fun h n off s g bl lr hg hG hx hb hr => ⟨fun hp hj hn => ⟨?_, fun hd => ?_, fun hd => ?_, fun kind label hk => ?_⟩,
    fun hd => ?_, fun hd => ?_, fun hd => ?_⟩, fun h s t te lr hs hguard hr bl hb => ⟨fun hp hj hq hrun hc => ?_, fun hd => ?_⟩⟩
  · rw [exec_pbar hg, boundary_parks hg hG hx hb hr hp hj hn rfl]
    rfl
  · rw [exec_gbar, boundary_parks hg hG hx hb hr hp hj hn (by simp [hd])]
    rfl
  · rw [exec_forkw, boundary_parks hg hG hx hb hr hp hj hn (by simp [hd])]
    rfl
  · exact parkedAt_check hb hk
  · rw [exec_pbar hg, boundary_illegal hg hG hx hb hr (hd.imp_right Or.inl)]
  · rw [exec_gbar, boundary_illegal hg hG hx hb hr (by simpa using hd)]
  · rw [exec_forkw, boundary_illegal hg hG hx hb hr (by simpa using hd)]
  · rw [exec_pbar_seq hs hguard hr hb, if_neg (by simp [hp, hj]), if_pos (streamIdle_of hq hrun hc)]
  · rw [exec_pbar_seq hs hguard hr hb, if_pos hd]

end Sys2Proof.Machine
end

section
namespace Sys2Proof.Machine

/-! ### `launch` and `event` (R309, R314) -/

/-- A smaller bound on the registers named. -/
theorem Runs.mono {s : State} {g : Grp} {m n : Nat} (hg : Runs s g n) (hmn : m ≤ n) : Runs s g m := ⟨hg.grp, hmn.trans hg.regs⟩

/-- A 64-bit register pair is below 2^64. -/
theorem regGet64_lt (f : Nat → Word) (n : Nat) : regGet f n (Ty.regBits .b64) < 2 ^ 64 := by
  have hlo := (f n).isLt
  have hhi := (f (n + 1)).isLt
  have hpair : regGet f n (Ty.regBits .b64) = (f n).toNat + 2 ^ 32 * (f (n + 1)).toNat := rfl
  omega

/-- A 64-bit source is below 2^64. -/
theorem src64_lt (r : Regs) (o : Opd) : r.src64 o < 2 ^ 64 := by
  cases o with
  | v n => exact regGet64_lt _ _
  | s n => exact regGet64_lt _ _
  | int n =>
    have := n.isLt
    show n.toNat < 2 ^ 64
    omega
  | const c =>
    show const32.getD c.toNat 0 < 2 ^ 64
    have hall : ∀ x ∈ const32, x < 2 ^ 64 := by decide
    by_cases hc : c.toNat < const32.length
    · rw [List.getD_eq_getElem _ _ hc]
      exact hall _ (List.getElem_mem hc)
    · rw [List.getD_eq_default _ _ (Nat.le_of_not_lt hc)]
      decide
  | zero => exact Nat.two_pow_pos 64
  | lit x =>
    have := x.isLt
    show x.toNat < 2 ^ 64
    omega

/-- Launches whose queue has room for each of them enter one after the other. -/
theorem launchLanes_room (g : Grp) (group : Nat) (addr : Nat → DWord) (ls : List Nat) (s : State) (free : Nat) (hf : ls.length ≤ free) :
    State.launchLanes g group addr s free ls = ls.foldl (fun u l => u.launchLane g group l (addr l)) s := by
  induction ls generalizing s free with
  | nil => rfl
  | cons l ls ih =>
    rw [List.length_cons] at hf
    unfold State.launchLanes
    dsimp only
    rw [if_neg (by simp; omega), List.foldl_cons]
    exact ih _ _ (by split <;> omega)

/-- A lane that would enter stays where no entry is free. -/
theorem launchLanes_full {g : Grp} {group : Nat} {addr : Nat → DWord} {l : Nat} {rest : List Nat} {s : State}
    (hc : canonical (addr l) = true) (hm : (addr l).toNat % 192 = 0) :
    State.launchLanes g group addr s 0 (l :: rest) = s := by
  unfold State.launchLanes
  simp [hc, hm]

/-- The lanes of a group for which `launch` acts: every guard-true lane for a vector address, else the lowest one. -/
def launchers (g : Grp) (h : Hdr) (b : Opd) : List Nat :=
  match b with
  | .v _ => g.trues h
  | _ => (g.trues h).take 1

/-- The state in which they act: the other lanes have passed. -/
def launchStart (s : State) (g : Grp) (h : Hdr) (b : Opd) : State :=
  ((s.passFalse g h).stepLanes g.w ((g.trues h).filter (fun l => l ∉ launchers g h b))).next

/-- The address that a lane launches. -/
def launchAddr (s : State) (g : Grp) (b : Opd) (l : Nat) : DWord := BitVec.ofNat 64 ((s.laneRegs g l).src64 b)

/-- Launches of one instruction count once in st (R232). -/
def State.countLaunch (u : State) (g : Grp) (group : Nat) : State :=
  if u.devLaunches.any (fun e => e.2.warp = some g.w && e.2.group = group) then
    u.modWarp g.w (fun wp => { wp with ctrSt := wp.ctrSt + 1 })
  else u

section
variable {s : State} {g : Grp} {h : Hdr} (hG : g.trues h ≠ [])
  (hx : ∀ k ∈ g.trues h, ∀ la, s.lane? g.w k = some la → la.tx = none)
include hG hx

theorem exec_launch {b : Opd} (hg : Runs s g (b.top 64)) : exec (.launch h b) s = .next (
    (State.launchLanes g s.tick (launchAddr s g b) (launchStart s g h b)
      (if s.viewOf g.wp.block = 0 then 1024 - s.launches (s.ctxIdOf g.wp.block) else (launchers g h b).length)
      (launchers g h b)).countLaunch g s.tick) := by
  show Host.Outcome.next (onGroup h (b.top 64) s _) = _
  rw [onGroup_runs hg hG, outsideTx_clear hg.grp hG hx]
  rfl

theorem launch_room {b : Opd} (hg : Runs s g (b.top 64))
    (hroom : s.viewOf g.wp.block ≠ 0 ∨ s.launches (s.ctxIdOf g.wp.block) + (launchers g h b).length ≤ 1024) :
    exec (.launch h b) s = .next (((launchers g h b).foldl (fun u l => u.launchLane g s.tick l (launchAddr s g b l))
      (launchStart s g h b)).countLaunch g s.tick) := by
  rw [exec_launch hG hx hg, launchLanes_room]
  split <;> omega

theorem launch_full {b : Opd} (hg : Runs s g (b.top 64)) {l : Nat} {rest : List Nat} (hl : launchers g h b = l :: rest)
    (hc : canonical (launchAddr s g b l) = true) (hm : (s.laneRegs g l).src64 b % 192 = 0) (hv : s.viewOf g.wp.block = 0)
    (hfull : 1024 ≤ s.launches (s.ctxIdOf g.wp.block)) (hnew : ∀ e ∈ s.devLaunches, e.2.warp = some g.w → e.2.group ≠ s.tick) :
    exec (.launch h b) s = .next (launchStart s g h b) := by
  have hm' : (launchAddr s g b l).toNat % 192 = 0 := by
    unfold launchAddr
    rw [BitVec.toNat_ofNat, Nat.mod_eq_of_lt (src64_lt _ _)]
    exact hm
  rw [exec_launch hG hx hg, if_pos hv, hl, Nat.sub_eq_zero_of_le hfull, launchLanes_full hc hm']
  have hnone : (launchStart s g h b).devLaunches.any (fun e => e.2.warp = some g.w && e.2.group = s.tick) = false := by
    rw [List.any_eq_false]
    intro e he
    simp only [Bool.and_eq_true, decide_eq_true_eq, not_and]
    exact hnew e he
  unfold State.countLaunch
  rw [hnone]
  rfl

theorem exec_event {x : Opd} (hg : Runs s g (x.top 32)) : exec (.event h x) s = .next (
    let val : Word := BitVec.ofNat 32 ((s.passFalse g h).groupSrc g (g.trues h) x)
    if s.viewOf g.wp.block ≠ 0 then
      ((s.passFalse g h).stepLanes g.w (g.trues h)).queueOut (s.viewOf g.wp.block) (.event val g.wp.core)
    else ((((s.passFalse g h).beginFence g (g.trues h) .rel .sy (.event val)).1).stepLanes g.w (g.trues h)).modWarp g.w
      (fun wp => { wp with ctrSt := wp.ctrSt + 1 })) := by
  show Host.Outcome.next (onGroup h (x.top 32) s _) = _
  rw [onGroup_runs hg hG, outsideTx_clear hg.grp hG hx]
  rfl

/-- `event` in the base view begins a release that will write the record. -/
theorem event_base {x : Opd} (hg : Runs s g (x.top 32)) (hv : s.viewOf g.wp.block = 0) :
    ∃ t f, exec (.event h x) s = .next t ∧
      WarpResult { s with fences := t.fences, tick := s.tick + 1 } t g (groupLane g h (fun _ la => la.step))
        { g.wp with ctrSt := g.wp.ctrSt + 1 } ∧
      t.fences = s.fences ++ [(s.tick, f)] ∧ f.warp = g.w ∧ f.lanes = lanesMask (g.trues h) ∧ f.kind = .rel ∧ f.scope = .sy ∧
      f.after = .event (BitVec.ofNat 32 ((s.passFalse g h).groupSrc g (g.trues h) x)) := by
  have he := exec_event hG hx hg
  dsimp only at he
  rw [if_neg (not_not.mpr hv)] at he
  refine ⟨_, _, he, ?_, rfl, rfl, rfl, rfl, rfl, rfl⟩
  exact (((lanesResult_modLanes h hg.grp Lane.step).besides (fun u => { u with fences := _, tick := s.tick + 1 }) (fun _ _ => rfl)).thenWarp
    (fun wp => { wp with ctrSt := wp.ctrSt + 1 }) (fun _ _ => rfl))

end

/-! #### One lane's launch -/

theorem launchLane_notCanonical (s : State) (g : Grp) (k l : Nat) {a : DWord} (hc : canonical a = false) :
    s.launchLane g k l a = s.trapLane g.w l (.access g.pc a 0x06) := by
  unfold State.launchLane
  rw [if_pos (by simp [hc])]

theorem launchLane_misaligned (s : State) (g : Grp) (k l : Nat) {a : DWord} (hc : canonical a = true) (hm : a.toNat % 192 ≠ 0) :
    s.launchLane g k l a = s.trapLane g.w l (.misalign g.pc a) := by
  unfold State.launchLane
  rw [if_neg (by simp [hc]), if_pos hm]

theorem launchLane_enters (s : State) (g : Grp) (k l : Nat) {a : DWord} (hc : canonical a = true) (hm : a.toNat % 192 = 0) :
    s.launchLane g k l a = (s.enterLaunch g k l a).stepLanes g.w [l] := by
  unfold State.launchLane
  rw [if_neg (by simp [hc]), if_neg (not_not.mpr hm)]

theorem enterLaunch_world (s : State) (g : Grp) (k l : Nat) (a : DWord) (hv : s.viewOf g.wp.block ≠ 0) :
    s.enterLaunch g k l a = s.queueOut (s.viewOf g.wp.block) (.launch (va57 a) g.wp.core g.w) := by
  unfold State.enterLaunch
  dsimp only
  rw [if_pos hv]

/-- The entry of a lane's launch in the queue of its context, behind a release. -/
def queuedLaunch (s : State) (g : Grp) (k : Nat) (a : DWord) (bl : Block) : DevLaunch :=
  { ctx := s.ctxIdOf g.wp.block, addr := va57 a, grid := bl.grid, warp := some g.w, group := k, waiting := some s.tick, view := none,
    paused := none, due := 0 }

theorem enterLaunch_base (s : State) (g : Grp) (k l : Nat) (a : DWord) (hv : s.viewOf g.wp.block = 0) {bl : Block}
    (hb : s.block? g.wp.block = some bl) : ∃ f : FenceOp,
    s.enterLaunch g k l a = { s with fences := s.fences ++ [(s.tick, f)]
                                     devLaunches := s.devLaunches ++ [(s.tick + 1, queuedLaunch s g k a bl)]
                                     tick := s.tick + 2 } ∧
    f.warp = g.w ∧ f.lanes = lanesMask [l] ∧ f.kind = .rel ∧ f.scope = .dv ∧ f.after = .nothing := by
  unfold State.enterLaunch
  dsimp only
  rw [if_neg (not_not.mpr hv), hb]
  exact ⟨_, rfl, rfl, rfl, rfl, rfl, rfl⟩

/-- Settles O31: `launch` enters the queue of device launches behind a release, and `event` begins the release of its record. -/
theorem launchAndEventResults : Obligations.LaunchAndEventResults := by
  refine ⟨fun h b x s g hg hG hx => ?_, fun s g k l a => ⟨launchLane_notCanonical s g k l, launchLane_misaligned s g k l,
    fun hc hm hv => ?_, fun hc hm hv bl hb => ?_⟩⟩
  · have hgb : Runs s g (b.top 64) := hg.mono (Nat.le_max_left _ _)
    have hgx : Runs s g (x.top 32) := hg.mono (Nat.le_max_right _ _)
    refine ⟨fun hroom => launch_room hG hx hgb hroom, fun l rest hl hc hm hv hfull hnew => launch_full hG hx hgb hl hc hm hv hfull hnew,
      fun hv => ?_, event_base hG hx hgx⟩
    have he := exec_event hG hx hgx
    dsimp only at he
    rwa [if_pos hv] at he
  · rw [launchLane_enters s g k l hc hm, enterLaunch_world s g k l a hv]
  · obtain ⟨f, he, hwarp, hlanes, hkind, hscope, hafter⟩ := enterLaunch_base s g k l a hv hb
    refine ⟨f, queuedLaunch s g k a bl, ?_, hwarp, hlanes, hkind, hscope, hafter, rfl⟩
    rw [launchLane_enters s g k l hc hm, he]

end Sys2Proof.Machine
end

section
/-! O33. What ISSUE_SELECT does on a clock of a partition (R8, R10). -/

namespace Sys2Proof.Machine

/-- On a partition with no warp a clock has no candidate. -/
theorem candidates_nil (t : Nat) (all : List ICand) : State.candidates t all [] = [] := rfl

/-- A charged clock with no warp is a clock without candidate for the histogram engine. -/
theorem charge_nil (s : State) (k j t : Nat) : s.charge k j t [] [] = s.histEvent k j 1 0 0 none := rfl

/-- No warp of an empty partition notes anything. -/
theorem noteEligible_nil (s : State) (t : Nat) (elig : List ICand) : s.noteEligible t [] elig = s := rfl

/-- No slot of an empty partition issues. -/
theorem issueSlot_nil (s : State) (k j t : Nat) : s.issueSlot k j t [] = (s, none) := rfl

/-- A batch that no candidate keeps open closes. -/
theorem bind_guard_nil (batch : Option (Nat × Nat)) (t : Nat) :
    (batch.bind (fun b => if t < b.2 && ([] : List ICand).any (fun c => c.cls = b.1) then some b else none)) = none := by
  cases batch with
  | none => rfl
  | some b => simp

/-- ISSUE_SELECT of a partition with no warp closes its class batch and shows the histogram engine an empty clock. -/
theorem exec_issueSelect_empty (k j : Nat) (s : State) (hw : s.partWarps k j = []) :
    exec (.issueSelect k j) s =
      .next ((s.histEvent k j 1 0 0 none).modPart k j (fun p => { p with batch := none })) := by
  show execIssueSelect k j s = _
  unfold execIssueSelect
  simp only [hw, List.foldl_nil, candidates_nil, charge_nil, noteEligible_nil, issueSlot_nil, bind_guard_nil]

/-- Of no candidates none is picked … -/
theorem pickCand_nil (t : Nat) (batch : Option (Nat × Nat)) : pickCand t batch [] = none := rfl

/-- … and of some, one of the lowest rank. -/
theorem pickCand_lowest (t : Nat) (batch : Option (Nat × Nat)) (cs : List ICand) (hcs : cs ≠ []) :
    ∃ c ∈ cs, pickCand t batch cs = some c ∧ ∀ d ∈ cs, c.rank t batch ≤ d.rank t batch := by
  obtain ⟨c, cs, rfl⟩ := List.exists_cons_of_ne_nil hcs
  obtain ⟨r, hr, hmem, hle, hmin⟩ := pickCand_spec t batch cs c
  exact ⟨r, List.mem_cons.2 hmem, hr, List.forall_mem_cons.2 ⟨hle, hmin⟩⟩

/-- The group that R8 picks: one of the groups, the first where none is aged, and an aged one of the largest counter else. -/
theorem pickGroup_spec (ctr : ICand → Nat) (gs : List ICand) (g : ICand) (h : pickGroup ctr gs = some g) :
    g ∈ gs ∧ ((∀ d ∈ gs, ctr d < 64) → gs.head? = some g) ∧ ∀ d ∈ gs, 64 ≤ ctr d → ctr d ≤ ctr g := by
  unfold pickGroup at h
  split at h
  next hf =>
    have young : ∀ d ∈ gs, ¬ 64 ≤ ctr d := by simpa using hf
    exact ⟨List.mem_of_head? h, fun _ => h, fun d hd ha => absurd ha (young d hd)⟩
  next a rest hf =>
    obtain rfl : _ = g := Option.some.inj h
    obtain ⟨hmem, hle, hmax⟩ := pickAged ctr rest a
    have aged : ∀ d, d ∈ a :: rest ↔ d ∈ gs ∧ 64 ≤ ctr d := fun d => by rw [← hf]; simp
    obtain ⟨hin, h64⟩ := (aged _).1 (List.mem_cons.2 hmem)
    refine ⟨hin, fun hy => absurd h64 (Nat.not_le.2 (hy _ hin)), fun d hd ha => ?_⟩
    rcases List.mem_cons.1 ((aged d).2 ⟨hd, ha⟩) with rfl | hd
    · exact hle
    · exact hmax d hd

/-- Settles O33: ISSUE_SELECT by its parts, the slots by the candidate of the lowest rank, and the choice among the groups of a warp. -/
theorem issueChoiceResults : Obligations.IssueChoiceResults := by
  unfold Obligations.IssueChoiceResults
  refine ⟨fun k j s => ⟨?_, exec_issueSelect_empty k j s⟩, fun s k j t ws => ?_, pickGroup_spec⟩
  · show execIssueSelect k j s = _
    unfold execIssueSelect
    rfl
  · intro live all cs
    have slot : s.issueSlot k j t ws = match pickCand t (s.part k j).batch cs with
      | none => (s, none)
      | some c => (s.issue k j t c all, some c.w) := rfl
    refine ⟨fun hcs => by rw [slot, hcs, pickCand_nil], fun hcs => ?_⟩
    obtain ⟨c, hc, hpick, hmin⟩ := pickCand_lowest t (s.part k j).batch cs hcs
    exact ⟨c, hc, by rw [slot, hpick], issue_spec s k j t c all, hmin⟩

end Sys2Proof.Machine
end

section
/-! O36. What the responses of the memory path, a FIFO port and the end of a replay do (R31 to R33, R68, R94). -/

namespace Sys2Proof.Machine

section
variable {r : Nat} {s : State} {q : Req} {w : Nat} (hq : s.req? r = some q) (hw : q.warp = some w)

/-- The response of a request of a warp is taken: it is no code fetch, and its data is due. -/
theorem fillArrive_due (hk : q.kind ≠ .ifetch) (hd : ∀ c, q.hitAt = some c → c ≤ s.clock q.core) :
    ¬ (q.kind = .ifetch ∨ q.hitAt.any (fun c => s.clock q.core < c) = true) := by
  rintro (h | h)
  · exact hk h
  · obtain ⟨c, hc, hlt⟩ := (Option.any_eq_true _ _).1 h
    exact Nat.not_lt.2 (hd c hc) (of_decide_eq_true hlt)

include hq hw

/-- A performed request keeps its fill, where it may, and completes. -/
theorem fillArrive_performed (hk : q.kind ≠ .ifetch) (hd : ∀ c, q.hitAt = some c → c ≤ s.clock q.core)
    (hst : q.st = .performed) (hret : q.kind.returns = true) :
    exec (.fillArrive r) s = .next (((s.keepFill q).map (fun u => u.complete r q w)).getD s) := by
  show execFillArrive r s = _
  unfold execFillArrive
  rw [hq]
  refine congrArg Host.Outcome.next ((if_neg (fillArrive_due hk hd)).trans ?_)
  rw [hst, hw]
  exact if_pos hret

/-- A faulted request becomes a replay record, with no reason … -/
theorem fillArrive_faulted (e : Nat) (hk : q.kind ≠ .ifetch) (hd : ∀ c, q.hitAt = some c → c ≤ s.clock q.core)
    (hst : q.st = .faulted e) : exec (.fillArrive r) s = .next ((s.toReplay r q w 0).endGone r) := by
  show execFillArrive r s = _
  unfold execFillArrive
  rw [hq]
  refine congrArg Host.Outcome.next ((if_neg (fillArrive_due hk hd)).trans ?_)
  rw [hst, hw]

/-- … and a failed one with the reason of its error. -/
theorem fillArrive_error (e : Nat) (hk : q.kind ≠ .ifetch) (hd : ∀ c, q.hitAt = some c → c ≤ s.clock q.core)
    (hst : q.st = .error e) : exec (.fillArrive r) s = .next ((s.toReplay r q w e).endGone r) := by
  show execFillArrive r s = _
  unfold execFillArrive
  rw [hq]
  refine congrArg Host.Outcome.next ((if_neg (fillArrive_due hk hd)).trans ?_)
  rw [hst, hw]

omit hw in
/-- The data of an L1 hit is waited for. -/
theorem fillArrive_early (c : Nat) (hc : q.hitAt = some c) (hlt : s.clock q.core < c) : exec (.fillArrive r) s = .next s := by
  show execFillArrive r s = _
  unfold execFillArrive
  rw [hq]
  exact congrArg Host.Outcome.next (if_pos (.inr (by simp [hc, hlt])))

/-- A write completes with its acknowledgement. -/
theorem writeAck_performed (hst : q.st = .performed) (hret : q.kind.returns = false) :
    exec (.writeAck r) s = .next (s.complete r q w) := by
  show execWriteAck r s = _
  unfold execWriteAck
  rw [hq]
  dsimp only
  rw [hst, hw]
  dsimp only
  rw [if_neg (by simp [hret])]

/-- An acknowledged store has left the list of requests, and its times have reached the horizons of its warp. -/
theorem writeAck_store (wp : Warp) (hst : q.st = .performed) (hkind : q.kind = .store) (hwp : s.warp? w = some wp)
    (hj : ∀ e ∈ s.reqs, e.2.st ≠ .joined r) : ∃ (t : State) (wp' : Warp), exec (.writeAck r) s = .next t ∧
      t.req? r = none ∧ t.warp? w = some wp' ∧
      wp'.hcl = max wp.hcl q.tcl ∧ wp'.hdv = max wp.hdv q.tdv ∧ wp'.hsy = max wp.hsy q.tsy := by
  obtain ⟨htimes, hreqs⟩ := complete_store s r q w hkind hj
  have merged : timesOf (s.complete r q w) w = some (wp.merge q.tcl q.tdv q.tsy).times := by
    rw [htimes, timesOf, State.warp?_modWarp, if_pos rfl, hwp]
    rfl
  obtain ⟨wp', hwp', heq⟩ := Option.map_eq_some_iff.1 merged
  obtain ⟨hcl, hdv, hsy⟩ : wp'.hcl = _ ∧ wp'.hdv = _ ∧ wp'.hsy = _ := by simpa [Warp.times, Warp.merge] using heq
  refine ⟨_, wp', writeAck_performed hq hw hst (by rw [hkind]; rfl), ?_, hwp', hcl, hdv, hsy⟩
  rw [State.req?, hreqs]
  exact mapGet?_filter_ne s.reqs r

end

/-- A FIFO port serves the first waiting request, where its one access is not served and the queue allows it. -/
theorem exec_fifoServe (cl b o p r : Nat) (rest : List Nat) (s : State) (q : Req) (a a' : Acc) (f : List (BitVec 128))
    (hm : ((s.cluster cl).bank b).mode = .fifo o p) (hwait : ((s.cluster cl).bank b).waiting = r :: rest)
    (hq : s.req? r = some q) (ha : q.accs = [a]) (hp : a.served = false)
    (hcan : (if q.kind = .store then decide (((s.cluster cl).bank b).fifo.length < 16384)
      else decide (((s.cluster cl).bank b).fifo ≠ [])) = true)
    (hserve : serveFifo (q.kind = .store) ((s.cluster cl).bank b).fifo [a] = (f, [a'])) (ha' : a'.served = true) :
    exec (.fifoServe cl b) s = .next ((s.modBank cl b (fun k =>
        { k with fifo := f, waiting := k.waiting.filter (· ≠ r) })).modReq r (fun q =>
          { q with accs := [a'], st := .performed, tcl := s.gtimeAt (placeCluster cl), tdv := s.gtimeAt (placeCluster cl),
                   tsy := s.gtimeAt (placeCluster cl) })) := by
  have first : ((s.cluster cl).bank b).waiting.find? (fun r => (s.req? r).any (fun q =>
      q.accs.any (fun a => !a.served) && (if q.kind = .store then ((s.cluster cl).bank b).fifo.length < 16384
        else ((s.cluster cl).bank b).fifo ≠ []))) = some r := by
    rw [hwait]
    refine List.find?_cons_of_pos ?_
    rw [hq, Option.any_some, ha, List.any_cons, hp, hcan]
    rfl
  show execFifoServe cl b s = _
  unfold execFifoServe
  dsimp only
  rw [hm, first]
  dsimp only
  rw [hq]
  dsimp only
  rw [ha, hserve]
  simp [ha']

/-- A store pushes its bytes behind a queue with room. -/
theorem serveFifo_push (f : List (BitVec 128)) (a : Acc) (hp : a.served = false) (hlen : f.length < 16384) :
    serveFifo true f [a] = (f ++ [a.data], [{ a with pred := true }]) := by
  simp [serveFifo, hp, hlen]

/-- A load takes the oldest entry. -/
theorem serveFifo_pop (x : BitVec 128) (f : List (BitVec 128)) (a : Acc) (hp : a.served = false) :
    serveFifo false (x :: f) [a] = (f, [{ a with pred := true, result := some x }]) := by
  simp [serveFifo, hp]

/-- A replayed access with no request left frees its record. -/
theorem exec_replayComplete (w i : Nat) (s : State) (wp : Warp) (rec : Replay) (hwp : s.warp? w = some wp)
    (hrec : mapGet? wp.replays i = some rec) (hrep : rec.replaying = true)
    (hnone : ∀ e ∈ s.reqs, e.2.warp = some w → e.2.replay ≠ some i) :
    exec (.replayComplete w i) s = .next ((s.modWarp w (fun wp =>
      { wp with
        replays := mapErase wp.replays i
        lanes := wp.lanes.map (fun la => if la.st = .faultPark i then { la with st := .runnable } else la) })).lanesDone w
          rec.req.group rec.req.kind rec.lanes) := by
  have done_ : ¬ ((!rec.replaying) = true ∨ s.reqs.any (fun e => e.2.warp = some w && e.2.replay = some i) = true) := by
    rw [hrep, List.any_eq_true]
    rintro (h | ⟨e, he, h⟩)
    · cases h
    · simp only [Bool.and_eq_true, decide_eq_true_eq] at h
      exact hnone e he h.1 h.2
  show execReplayComplete w i s = _
  unfold execReplayComplete
  rw [hwp, Option.bind_some, hrec]
  exact congrArg Host.Outcome.next (if_neg done_)

/-- Settles O36: the responses by the state of the request, the FIFO port by what is waiting, and the end of a replay. -/
theorem responseResults : Obligations.ResponseResults := by
  unfold Obligations.ResponseResults
  refine ⟨fun r s q w hq hw hk => ?_, ?_, exec_replayComplete⟩
  · have noHit (hn : q.hitAt = none) : ∀ c, q.hitAt = some c → c ≤ s.clock q.core := by simp [hn]
    refine ⟨fun hst hret hd => ?_, fun c => fillArrive_early hq c,
      fun e hst hn => fillArrive_faulted hq hw e hk (noHit hn) hst, fun e hst hn => fillArrive_error hq hw e hk (noHit hn) hst,
      writeAck_performed hq hw, fun wp => writeAck_store hq hw wp⟩
    rw [fillArrive_performed hq hw hk hd hst hret]
    cases s.keepFill q <;> rfl
  · intro cl b o p r rest s q a k t served hm hwait hq ha hp
    refine ⟨fun hkind hlen => ?_, fun x f hkind hf => ?_⟩
    · exact exec_fifoServe cl b o p r rest s q a _ _ hm hwait hq ha hp (by rw [if_pos hkind]; exact decide_eq_true hlen)
        (by rw [decide_eq_true hkind]; exact serveFifo_push k.fifo a hp hlen) rfl
    · have load : q.kind ≠ .store := by rw [hkind]; exact fun h => nomatch h
      exact exec_fifoServe cl b o p r rest s q a _ _ hm hwait hq ha hp
        (by rw [if_neg load]; exact decide_eq_true (fun h => by rw [hf] at h; cases h))
        (by rw [decide_eq_false load, hf]; exact serveFifo_pop x f a hp) rfl

end Sys2Proof.Machine
end

section
/-! O39. The end of a phase, and what its record carries into the next one (R23, R24, R165, R166). -/

namespace Sys2Proof.Machine

/-- What a block does once its live threads have all arrived at one kind of boundary: the part of `execPhaseRecordWrite` behind its
test of the arrivals (`exec_phaseRecordWrite`). -/
def State.atBoundary (s : State) (b : Nat) (bl : Block) (r : LaunchRec) (kind : Boundary) : State :=
  let bad := match kind with | .forkw n => n < 2 || 8 < n | _ => false
  let code := match kind with | .forkw n => s.forkDenied bl r n | _ => none
  if bad then bl.arrivals.foldl (fun s a => s.trapLane a.warp a.lane (.illop a.pc 0x0B)) s
  else
    match code with
    | some c => s.forkTrap bl c
    | none =>
      match s.phaseReady b bl with
      | (s, false) => s
      | (s, true) => s.endPhase b bl r kind

/-- The arrivals of a block bring it to its boundary. -/
theorem exec_phaseRecordWrite {b : Nat} {s : State} {bl : Block} {r : LaunchRec} {a : Arrival} {rest : List Arrival}
    (hbl : s.block? b = some bl) (hr : s.recOfBlock b = some r) (hst : bl.st = .resident) (harr : bl.arrivals = a :: rest)
    (hall : bl.arrivals.length = s.liveThreads bl) (hsame : sameKind bl.arrivals = true) :
    exec (.phaseRecordWrite b) s = .next (s.atBoundary b bl r a.kind) := by
  have arrived : ¬ (bl.st ≠ .resident ∨ bl.arrivals = [] ∨ bl.arrivals.length ≠ s.liveThreads bl ∨
      (!sameKind bl.arrivals) = true) := by
    rintro (h | h | h | h)
    · exact h hst
    · rw [harr] at h; cases h
    · exact h hall
    · rw [hsame] at h; cases h
  have kind : (bl.arrivals.head?).map (·.kind) = some a.kind := by rw [harr]; rfl
  show execPhaseRecordWrite b s = _
  unfold execPhaseRecordWrite
  rw [hbl, hr]
  refine congrArg Host.Outcome.next ((if_neg arrived).trans ?_)
  rw [kind]
  rfl

section
variable (s u : State) (b : Nat) (bl : Block) (r : LaunchRec)

/-- At a pbar a block that is ready ends its phase … -/
theorem atBoundary_pbar (hu : s.phaseReady b bl = (u, true)) : s.atBoundary b bl r .pbar = u.endPhase b bl r .pbar := by
  unfold State.atBoundary
  rw [hu]
  rfl

/-- … and so it does at a gbar. -/
theorem atBoundary_gbar (hu : s.phaseReady b bl = (u, true)) : s.atBoundary b bl r .gbar = u.endPhase b bl r .gbar := by
  unfold State.atBoundary
  rw [hu]
  rfl

/-- A forkw of a bad count is illegal for each arrived lane. -/
theorem atBoundary_forkw_bad (n : Nat) (hn : n < 2 ∨ 8 < n) : s.atBoundary b bl r (.forkw n) =
    bl.arrivals.foldl (fun s a => s.trapLane a.warp a.lane (.illop a.pc 0x0B)) s := by
  unfold State.atBoundary
  exact if_pos (by simpa using hn)

/-- A count from 2 to 8 is not bad. -/
theorem forkw_count (n : Nat) (h2 : 2 ≤ n) (h8 : n ≤ 8) : ¬ (decide (n < 2) || decide (8 < n)) = true := by
  simp only [Bool.or_eq_true, decide_eq_true_eq]
  omega

/-- A forkw that the limits deny traps with its code. -/
theorem atBoundary_forkw_denied (n : Nat) (h2 : 2 ≤ n) (h8 : n ≤ 8) (c : Nat) (hc : s.forkDenied bl r n = some c) :
    s.atBoundary b bl r (.forkw n) = s.forkTrap bl c := by
  unfold State.atBoundary
  refine (if_neg (forkw_count n h2 h8)).trans ?_
  dsimp only
  rw [hc]

/-- A forkw that nothing denies ends the phase of a block that is ready. -/
theorem atBoundary_forkw (n : Nat) (h2 : 2 ≤ n) (h8 : n ≤ 8) (hc : s.forkDenied bl r n = none)
    (hu : s.phaseReady b bl = (u, true)) : s.atBoundary b bl r (.forkw n) = u.endPhase b bl r (.forkw n) := by
  unfold State.atBoundary
  refine (if_neg (forkw_count n h2 h8)).trans ?_
  dsimp only
  rw [hc, hu]

end

/-! ### The record of a thread, and the thread that starts from it -/

/-- The record of a lane that arrived. -/
theorem phaseRec_arrived (wp : Warp) (w : Nat) (r : LaunchRec) (as : List Arrival) {l : Nat} (hl : l < 32) {la : Lane} {a : Arrival}
    (hla : wp.lane? l = some la) (ha : as.find? (fun a => a.warp = w && a.lane = l) = some a) :
    (wp.phaseRec w r as).threads[l]? = some
      { pc := a.pc + 16, label := a.label, live := true, preds := la.preds, regs := carried la.regs (fun i => r.carryv.getLsbD i) } := by
  unfold Warp.phaseRec
  rw [upTo_eq, List.getElem?_map, List.getElem?_range hl, Option.map_some, hla, ha]

/-- The record of a lane that did not. -/
theorem phaseRec_exited (wp : Warp) (w : Nat) (r : LaunchRec) (as : List Arrival) {l : Nat} (hl : l < 32)
    (h : wp.lane? l = none ∨ as.find? (fun a => a.warp = w && a.lane = l) = none) :
    (wp.phaseRec w r as).threads[l]? = some { pc := 0, label := 0, live := false, preds := 0, regs := [] } := by
  unfold Warp.phaseRec
  rw [upTo_eq, List.getElem?_map, List.getElem?_range hl, Option.map_some]
  rcases h with h | h
  · rw [h]
  · rw [h]
    cases wp.lane? l <;> rfl

/-- The warp of a block that starts a phase from the record of one warp. -/
def LaunchRec.nextWarp (r : LaunchRec) (wr : WarpRec) : Warp :=
  { Warp.start 0 (r.rankOf 0) (wr.threads.map ThreadRec.lane) wr.sbias with sregs := wr.sregs, masks := wr.masks, tenable := wr.tenable }

/-- A block of one recorded warp starts with that warp. -/
theorem next_warps (r : LaunchRec) (p : PhaseRec) (wr : WarpRec) (h : p.warps = [wr]) : (BlockData.next r p).warps = [r.nextWarp wr] := by
  unfold BlockData.next
  rw [h]
  rfl

/-- A lane of the next phase starts from the record of its thread. -/
theorem nextWarp_lane (r : LaunchRec) (wr : WarpRec) (l : Nat) (t : ThreadRec) (ht : wr.threads[l]? = some t) :
    (r.nextWarp wr).lane? l = some t.lane := by
  show (wr.threads.map ThreadRec.lane)[l]? = _
  rw [List.getElem?_map, ht, Option.map_some]

/-- Each thread starts the next phase from what it carries: runnable at the word after its boundary where it arrived, exited where not. -/
theorem nextWarp_phaseRec_lane (wp : Warp) (w : Nat) (r : LaunchRec) (as : List Arrival) (l : Nat) (hl : l < 32) :
    ∃ x, (r.nextWarp (wp.phaseRec w r as)).lane? l = some x ∧ x.inHandler = false ∧ x.tx = none ∧
      (∀ la a, wp.lane? l = some la → as.find? (fun a => a.warp = w && a.lane = l) = some a →
        x.st = .runnable ∧ x.pc = a.pc + 16 ∧ x.preds = la.preds ∧ ∀ i, x.reg i = if r.carryv.getLsbD i then la.reg i else 0) ∧
      (as.find? (fun a => a.warp = w && a.lane = l) = none → x.st = .exited) := by
  cases ha : as.find? (fun a => a.warp = w && a.lane = l) with
  | none =>
    exact ⟨_, nextWarp_lane r _ l _ (phaseRec_exited wp w r as hl (.inr ha)), rfl, rfl, fun _ _ _ h => (nomatch h), fun _ => rfl⟩
  | some a =>
    cases hla : wp.lane? l with
    | none =>
      exact ⟨_, nextWarp_lane r _ l _ (phaseRec_exited wp w r as hl (.inl hla)), rfl, rfl, fun _ _ h => (nomatch h), fun h => (nomatch h)⟩
    | some la =>
      refine ⟨_, nextWarp_lane r _ l _ (phaseRec_arrived wp w r as hl hla ha), rfl, rfl, ?_, fun h => nomatch h⟩
      rintro _ _ ⟨⟩ ⟨⟩
      exact ⟨rfl, rfl, rfl, carried_get la.regs _⟩

/-- Settles O39: the end of a phase by the kind of its boundary, and the next phase from the record of one warp. -/
theorem phaseRecordKeepsCarriedState : Obligations.PhaseRecordKeepsCarriedState := by
  unfold Obligations.PhaseRecordKeepsCarriedState
  refine ⟨fun b s bl r a rest hbl hr hst harr hall hsame => ?_, fun wp w r as p hp => ?_⟩
  · rw [exec_phaseRecordWrite hbl hr hst harr hall hsame]
    refine ⟨fun u hkind hu => ?_, fun n hkind => ?_⟩
    · rcases hkind with hkind | hkind <;> rw [hkind]
      · rw [atBoundary_pbar s u b bl r hu]
      · rw [atBoundary_gbar s u b bl r hu]
    · rw [hkind]
      exact ⟨fun hn => congrArg _ (atBoundary_forkw_bad s b bl r n hn),
        fun h2 h8 c hc => congrArg _ (atBoundary_forkw_denied s b bl r n h2 h8 c hc),
        fun h2 h8 hc u hu => congrArg _ (atBoundary_forkw s u b bl r n h2 h8 hc hu)⟩
  · exact ⟨_, next_warps r p _ hp, rfl, rfl, rfl, carried_get wp.sregs _, rfl, rfl, rfl, rfl, rfl, rfl, rfl,
      nextWarp_phaseRec_lane wp w r as⟩

end Sys2Proof.Machine
end

section
/-! O57. What a guard is, and what an instruction does whose guard is false for its group or its sequencer (R4, R6, R187, R292). -/

namespace Sys2Proof.Machine

/-! ### Predicates and guards -/

/-- Writing bit `n` of a register of predicates sets it and keeps every other bit. -/
theorem getLsbD_writeBit {w : Nat} (p : BitVec w) (n k : Nat) (x : Bool) (hn : n < w) :
    ((p &&& ~~~(BitVec.ofNat w (2 ^ n))) ||| (if x then BitVec.ofNat w (2 ^ n) else 0)).getLsbD k =
      if k = n then x else p.getLsbD k := by
  have bit : (BitVec.ofNat w (2 ^ n)).getLsbD k = decide (k = n) := by
    rw [BitVec.getLsbD_ofNat, Nat.testBit_two_pow]
    by_cases hk : k = n
    · simp [hk, hn]
    · simp [hk, Ne.symm hk]
  generalize BitVec.ofNat w (2 ^ n) = b at bit ⊢
  have inside : p.getLsbD k = true → k < w := BitVec.lt_of_getLsbD
  by_cases hk : k = n
  · subst hk
    cases x <;> simp [bit]
  · cases x <;> simpa [bit, hk] using inside

/-- p7 of a lane reads as true, a write to it is ignored, and a written predicate reads back. -/
theorem lane_pred (la : Lane) (x : Bool) : la.pred 7 = true ∧ la.setPred 7 x = la ∧
    ∀ n k, n < 7 → (la.setPred n x).pred k = if k = n then x else la.pred k := by
  refine ⟨rfl, rfl, fun n k hn => ?_⟩
  unfold Lane.setPred Lane.pred
  rw [if_pos hn]
  by_cases h7 : k = 7
  · rw [if_pos h7, if_pos h7, if_neg (by omega)]
  · rw [if_neg h7, if_neg h7]
    exact getLsbD_writeBit la.preds n k x hn

/-- p7 of a sequencer reads as true, a write to it is ignored, and a written predicate reads back. -/
theorem tenant_pred (te : Tenant) (x : Bool) : te.pred 7 = true ∧ te.setPred 7 x = te ∧
    ∀ n k, n < 4 → (te.setPred n x).pred k = if k = n then x else te.pred k := by
  refine ⟨rfl, rfl, fun n k hn => ?_⟩
  unfold Tenant.setPred Tenant.pred
  rw [if_pos hn]
  by_cases h7 : k = 7
  · rw [if_pos h7, if_pos h7, if_neg (by omega)]
  · rw [if_neg h7, if_neg h7]
    exact getLsbD_writeBit te.qp n k x hn

/-- The predicate that a guard index names, inverted where its top bit says so. -/
theorem guardPred_eq (g : BitVec 4) (p : Nat → Bool) : guardPred g p = xor (p (g.extractLsb' 0 3).toNat) (g.getLsbD 3) := by
  have index : (g.extractLsb' 0 3).toNat = g.toNat % 8 := by simp
  rw [index]
  rfl

/-! ### Instructions that compute -/

section
variable {s : State} {g : Grp} {h : Hdr} (hg : s.grp = some g) (hG : g.trues h = [])
include hg hG

/-- An instruction with no check but that of its registers passes a group with no guard-true lane … -/
theorem alu_passes (top : Nat) (f : List Regs → Regs → List Wr) :
    Host.Outcome.next (alu h top f s) = (Host.Outcome.next (s.stepLanes g.w g.lanes) : Out) := aluCk_passes hg hG true f

/-- … and so does one of a single destination. -/
theorem alu1_passes (a : Dst) (bits top : Nat) (f : Regs → Nat) :
    Host.Outcome.next (alu1 h a bits top f s) = (Host.Outcome.next (s.stepLanes g.w g.lanes) : Out) := alu_passes hg hG _ _

end

section
variable {s : State} {n : Nat} {te : Tenant} {h : Hdr} (hs : SeqRuns s n te) (hf : guardOf h te.pred = false)
include hs hf

/-- A sequencer with a false guard steps over an instruction with no check … -/
theorem alu_steps (top : Nat) (f : List Regs → Regs → List Wr) : SeqSteps s n te (Host.Outcome.next (alu h top f s)) :=
  aluCk_steps hs hf true f

/-- … and over one of a single destination. -/
theorem alu1_steps (a : Dst) (bits top : Nat) (f : Regs → Nat) : SeqSteps s n te (Host.Outcome.next (alu1 h a bits top f s)) :=
  alu_steps hs hf _ _

end

/-! ### Instructions of either party -/

/-- What an instruction does that acts for the running sequencer, or else for the running group. -/
def byParty (s : State) (seq : Nat → State) (group : State) : State :=
  match s.seq with
  | some t => seq t
  | none => group

/-- For a group with no guard-true lane it only advances the group. -/
theorem byParty_passes {s : State} {g : Grp} {h : Hdr} {top : Nat} (hg : s.grp = some g) (hG : g.trues h = []) (f : Nat → State)
    (f' : Grp → List Nat → State → State) :
    Host.Outcome.next (byParty s f (onGroup h top s f')) = (Host.Outcome.next (s.stepLanes g.w g.lanes) : Out) := by
  unfold byParty
  rw [seq_of_grp hg]
  exact onGroup_passes hg hG f'

/-- For a sequencer it acts as it says. -/
theorem byParty_seq {s : State} {n : Nat} {te : Tenant} (hs : SeqRuns s n te) (f : Nat → State) (x : State) : byParty s f x = f n := by
  unfold byParty
  rw [hs.seq]

/-- A sequencer whose guard is false only advances. -/
theorem byParty_steps {s : State} {n : Nat} {te : Tenant} {h : Hdr} (hs : SeqRuns s n te) (hf : guardOf h te.pred = false)
    (f : Nat → Tenant → State → State) (x : State) : SeqSteps s n te (Host.Outcome.next (byParty s (fun t => onSeq h t s (f t)) x)) := by
  rw [byParty_seq hs]
  exact onSeq_passes hs hf _

/-- … and so it does where the instruction changes its tenant alone. -/
theorem byParty_modTenant {s : State} {n : Nat} {te : Tenant} (hs : SeqRuns s n te) (f : Tenant → Tenant)
    (hf : f te = { te with pc := te.pc + 16 }) (x : State) :
    SeqSteps s n te (Host.Outcome.next (byParty s (fun t => s.modTenant t f) x)) := by
  rw [byParty_seq hs]
  exact seqSteps_modTenant hs hf

/-- A tile word whose guard is false does not enter the queue. -/
theorem enqueue_steps {s : State} {n : Nat} {te : Tenant} {h : Hdr} (hs : SeqRuns s n te) (hf : guardOf h te.pred = false) (i : Instr)
    (vals : Regs → List DWord) : SeqSteps s n te (enqueue h i vals s) := by
  unfold enqueue
  rw [hs.seq]
  exact onSeq_passes hs hf _

/-- movc with no guard-true lane only advances the group. -/
theorem movc_passes {s : State} {g : Grp} {h : Hdr} (hg : s.grp = some g) (hG : g.trues h = []) (x : CtlReg) (b : Opd) :
    exec (.movc h x b) s = .next (s.stepLanes g.w g.lanes) := by
  have views : s.views' g h = [] := by rw [State.views', hG, List.map_nil]
  show execMovc h x b s = _
  unfold execMovc
  rw [hg]
  dsimp only
  rw [views]

/-- nop advances every lane of the group. -/
theorem nop_passes {s : State} {g : Grp} (hg : s.grp = some g) (h : Hdr) : exec (.nop h) s = .next (s.stepLanes g.w g.lanes) := by
  show execNop h s = _
  unfold execNop
  rw [seq_of_grp hg, hg]

/-! ### Every instruction of a stream -/

/-- Each instruction of the vector stream with no guard-true lane only advances its group. -/
theorem vector_passes {i : Instr} {h : Hdr} {s : State} {g : Grp} (hi : i.uses.map (·.1) = some h) (hw : WellFormed .vector i = true)
    (hg : s.grp = some g) (hG : g.trues h = []) : exec i s = .next (s.stepLanes g.w g.lanes) := by
  cases i with
  | iadd | isub | imul | imulh | imad | imin | imax | iabs | and | or | xor | andn | bfn3 | shl | shr | fsh | popc | clz | brev | bfx
  | bfi | adrs | permb | sel | mov | movs | fadd | fsub | fmul | ffma | fmin | fmax | frnd | fscale | fgexp | fdot2 | frcp | frsq
  | fsqrt | fexp2 | flog2 | fsin | fcos | ftanh | fsigm | cvt | rng =>
    obtain rfl := Option.some.inj hi
    exact alu1_passes hg hG _ _ _ _
  | idiv | icmp | plop | shfl | vote | ballot | redux | scan | matchLanes | elect | fcmp | fclass | dropm =>
    obtain rfl := Option.some.inj hi
    exact alu_passes hg hG _ _
  | cvtsEncode | cvtsDecode | qblk | dqblk =>
    obtain rfl := Option.some.inj hi
    exact aluCk_passes hg hG _ _
  | movc =>
    obtain rfl := Option.some.inj hi
    exact movc_passes hg hG _ _
  | nop => exact nop_passes hg _
  | bra | exit | tagarm | tagwt | tagff | tagclr | bari | bara | barw | pbar =>
    obtain rfl := Option.some.inj hi
    exact byParty_passes hg hG _ _
  | brx | call | ret | yield | waitc | enrol | rejoin | strike | trap | rte | ipf | icinv | ifence | ld | st | atom | red | fld | fset
  | fclr | waiton | txb | txe | txa | fence | gath | dpf | cpy | cpyt | bar | tstv | tldv | launch | gbar | event | forkw | yieldw
  | choose | chooseNone | chooseSelf =>
    obtain rfl := Option.some.inj hi
    exact onGroup_passes hg hG _
  | tcfg | tld | tzero | mma | mmas | dcmp | mmad | tdrain | tmov | tepi => exact (Bool.false_ne_true hw).elim
  | _ => nomatch hi

/-- Each instruction of the tile stream whose guard is false only advances its sequencer. -/
theorem tile_steps {i : Instr} {h : Hdr} {s : State} {n : Nat} {te : Tenant} (hi : i.uses.map (·.1) = some h)
    (hw : WellFormed .tile i = true) (hs : SeqRuns s n te) (hf : guardOf h te.pred = false) : SeqSteps s n te (exec i s) := by
  cases i with
  | iadd | isub | imul | imad | imin | imax | and | or | xor | shl | shr | sel | mov | movs =>
    obtain rfl := Option.some.inj hi
    exact alu1_steps hs hf _ _ _ _
  | icmp =>
    obtain rfl := Option.some.inj hi
    exact alu_steps hs hf _ _
  | bra | exit =>
    obtain rfl := Option.some.inj hi
    exact byParty_modTenant hs _ (by simp [hf]) _
  | nop => exact byParty_modTenant hs _ rfl _
  | tagarm | tagwt | tagff | tagclr | bari | bara | barw | pbar =>
    obtain rfl := Option.some.inj hi
    exact byParty_steps hs hf _ _
  | tcfg | tld | tzero | mma | mmas | dcmp | mmad | tdrain | tmov | tepi =>
    obtain rfl := Option.some.inj hi
    unfold exec
    exact enqueue_steps hs hf _ _
  | imulh | idiv | iabs | andn | bfn3 | fsh | popc | clz | brev | bfx | bfi | adrs | permb | movc | plop | shfl | vote | ballot
  | redux | scan | matchLanes | elect | fadd | fsub | fmul | ffma | fmin | fmax | fcmp | fclass | frnd | fscale | fgexp | fdot2 | frcp
  | frsq | fsqrt | fexp2 | flog2 | fsin | fcos | ftanh | fsigm | cvt | cvtsEncode | cvtsDecode | qblk | dqblk | dropm | rng | brx
  | call | ret | yield | waitc | enrol | rejoin | strike | trap | rte | ipf | icinv | ifence | ld | st | atom | red | fld | fset | fclr
  | waiton | txb | txe | txa | fence | gath | dpf | cpy | cpyt | bar | tstv | tldv | launch | gbar | event | forkw | yieldw | choose
  | chooseNone | chooseSelf => exact (Bool.false_ne_true hw).elim
  | _ => nomatch hi

/-- Settles O57: the guard by its two predicates, and every instruction of either stream by the shared operation that it is made of. -/
theorem guardFalseEverywhereOnlyAdvances : Obligations.GuardFalseEverywhereOnlyAdvances := by
  unfold Obligations.GuardFalseEverywhereOnlyAdvances
  refine ⟨fun h p => ?_, lane_pred, tenant_pred, fun i h s hi => ⟨fun hw g hg hG => vector_passes hi hw hg hG,
    fun hw n te hs hf => tile_steps hi hw hs hf⟩⟩
  dsimp only
  rw [guardOf, guardPred_eq, guardPred_eq]
  cases h.gc <;> rfl

end Sys2Proof.Machine
end

section
/-! O34. What batches, units, yields, results and slack violations do when their clock comes (R10, R37, R50 to R52, R230, R390). -/

namespace Sys2Proof.Machine

section
variable (k j : Nat) (u : Inst) (s : State)

/-- A batch whose end has come closes. -/
theorem classBatchClose_due (c e : Nat) (hb : (s.part k j).batch = some (c, e)) (he : e ≤ s.clock k) :
    exec (.classBatchClose k j) s = .next (s.modPart k j (fun _ => { s.part k j with batch := none })) := by
  have closed : (s.part k j).batch.bind (fun b => if b.2 ≤ s.clock k then none else some b) = none := by
    rw [hb]
    exact if_pos he
  show execClassBatchClose k j s = _
  unfold execClassBatchClose
  rw [modPart_congr, closed]

/-- The first instruction of a unit's queue starts on its clock. -/
theorem instanceStart_due (e : Nat × Nat) (rest : List (Nat × Nat)) (hq : ((s.part k j).inst u).queue = e :: rest) (he : e.1 ≤ s.clock k) :
    exec (.instanceStart k j u) s = .next (s.modPart k j (fun _ =>
      (s.part k j).setInst { (s.part k j).inst u with queue := rest, busyUntil := e.1 + e.2 })) := by
  show execInstanceStart k j u s = _
  unfold execInstanceStart
  rw [modPart_congr]
  dsimp only
  rw [hq]
  exact congrArg (fun q => Host.Outcome.next (s.modPart k j (fun _ => q))) (if_pos he)

/-- A unit that has been idle for 32 clocks is gated. -/
theorem unitGate_asleep (hq : ((s.part k j).inst u).queue = []) (hw : ((s.part k j).inst u).wakeAt = none)
    (hb : ((s.part k j).inst u).busyUntil + 32 ≤ s.clock k) :
    exec (.unitGate k j u) s = .next (s.modPart k j (fun _ => (s.part k j).setInst { (s.part k j).inst u with gated := true })) := by
  have asleep : ((s.part k j).inst u).asleep (s.clock k) = true := by simp [InstSt.asleep, hq, hw, hb]
  show execUnitGate k j u s = _
  unfold execUnitGate
  rw [modPart_congr]
  exact congrArg (fun q => Host.Outcome.next (s.modPart k j (fun _ => q))) (if_pos asleep)

/-- A unit whose wake is over is awake. -/
theorem unitWake_due (c : Nat) (hw : ((s.part k j).inst u).wakeAt = some c) (hc : c ≤ s.clock k) :
    exec (.unitWake k j u) s = .next (s.modPart k j (fun _ =>
      (s.part k j).setInst { (s.part k j).inst u with gated := false, wakeAt := none })) := by
  have due : ((s.part k j).inst u).wakeAt.any (fun c => c ≤ s.clock k) = true := by simp [hw, hc]
  show execUnitWake k j u s = _
  unfold execUnitWake
  rw [modPart_congr]
  exact congrArg (fun q => Host.Outcome.next (s.modPart k j (fun _ => q))) (if_pos due)

end

/-- The lanes of a group that a slack violation traps: those in no handler, while SLKV is enabled (R52). -/
def Warp.slkvLanes (wp : Warp) (ls : List Nat) : List Nat :=
  if wp.tenable.getLsbD 7 then ls.filter (fun l => (wp.lane? l).any (fun la => !la.inHandler)) else []

section
variable {w : Nat} {s : State} {wp : Warp} (hw : s.warp? w = some wp)
include hw

/-- A change of one warp, as an outcome. -/
theorem modWarp_outcome (f : Warp → Warp) : ∃ u, (Host.Outcome.next (s.modWarp w f) : Out) = .next u ∧ OnlyWarp s u w ∧ u.warp? w = some (f wp) :=
  ⟨_, rfl, onlyWarp_modWarp _ _ _, by rw [State.warp?_modWarp, if_pos rfl, hw]; rfl⟩

variable {x : Stall} {p : Pend} {ls : List Nat}
  (hx : wp.stalls.find? (fun x => decide (x.producers ≠ []) && (s.stallOver (s.clock wp.core) wp x).isSome) = some x)
  (hp : x.charged = some p) (hls : s.stallOver (s.clock wp.core) wp x = some ls)
include hx hp hls

/-- What a violation does: a fence that a lane to trap is ahead of is undone, else it is counted and traps. -/
theorem exec_slackViolation : exec (.slackViolation w) s = .next (((wp.slkvLanes ls).findSome? (s.aheadOf w)).elim
    (((s.bump (offCounter wp.core (0x100 * wp.part + 0x40 + 8 * p.unit.cls)) 1).modWarp w (fun wp =>
      { wp with stalls := wp.stalls.map (fun y => if y = x then { y with producers := [] } else y) })).trapLanes w
        (wp.slkvLanes ls) (slkvTrap x.pc p)) s.breakSpec) := by
  show execSlackViolation w s = _
  unfold execSlackViolation
  rw [hw]
  dsimp only
  rw [hx]
  dsimp only
  rw [hp, hls]
  show Host.Outcome.next (match (wp.slkvLanes ls).findSome? (s.aheadOf w) with
    | some n => s.breakSpec n
    | none => _) = _
  cases (wp.slkvLanes ls).findSome? (s.aheadOf w) with
  | none => rfl
  | some m => rfl

/-- A violation with no lane ahead of a speculative fence to trap is counted, and traps. -/
theorem slackViolation_traps (ha : ∀ l ∈ wp.slkvLanes ls, s.aheadOf w l = none) :
    exec (.slackViolation w) s = .next (((s.bump (offCounter wp.core (0x100 * wp.part + 0x40 + 8 * p.unit.cls)) 1).modWarp w (fun wp =>
        { wp with stalls := wp.stalls.map (fun y => if y = x then { y with producers := [] } else y) })).trapLanes w
      (wp.slkvLanes ls) (slkvTrap x.pc p)) := by
  rw [exec_slackViolation hw hx hp hls, List.findSome?_eq_none_iff.2 ha]
  rfl

/-- Where some lane is ahead of a speculative fence, its group rolls back. -/
theorem slackViolation_breaks (l n : Nat) (hl : l ∈ wp.slkvLanes ls) (ha : s.aheadOf w l = some n) :
    ∃ m, (wp.slkvLanes ls).findSome? (s.aheadOf w) = some m ∧ exec (.slackViolation w) s = .next (s.breakSpec m) := by
  have ahead : ((wp.slkvLanes ls).findSome? (s.aheadOf w)).isSome :=
    List.findSome?_isSome_iff.2 ⟨l, hl, Option.isSome_iff_exists.2 ⟨n, ha⟩⟩
  obtain ⟨m, hm⟩ := Option.isSome_iff_exists.1 ahead
  exact ⟨m, hm, by rw [exec_slackViolation hw hx hp hls, hm]; rfl⟩

end

/-- Settles O34: each event by the condition of its clock. -/
theorem clockEventResults : Obligations.ClockEventResults := by
  unfold Obligations.ClockEventResults
  refine ⟨fun k j u s => ⟨classBatchClose_due k j s, instanceStart_due k j u s, unitGate_asleep k j u s, unitWake_due k j u s,
    fun q => ⟨modPart_part s k j _, fun k' j' h => modPart_other s k j k' j' _ h⟩⟩, fun w s wp hw => ?_⟩
  exact ⟨modWarp_outcome hw (fun wp => { wp with lanes := wp.lanes.map (fun la =>
      if la.yieldUntil.any (fun c => c ≤ s.clock wp.core) then { la with yieldUntil := none } else la) }),
    modWarp_outcome hw (fun wp => { wp with
      pend := wp.pend.filter (fun p => !p.over (s.clock wp.core))
      ctrTl := wp.ctrTl - (wp.pend.filter (fun p => p.over (s.clock wp.core) && p.unit = .agu)).length }),
    fun x p ls hx hp hls => ⟨slackViolation_traps hw hx hp hls, slackViolation_breaks hw hx hp hls⟩⟩

end Sys2Proof.Machine
end

section
/-! O37. How a commit decides and unlocks, when a gather releases, and how a page fault is reported (R78, R84, R109, R366). -/

namespace Sys2Proof.Machine

/-- A commit whose conflicting lanes have aborted (R84). -/
def State.txStart (s : State) (c : Nat) (cm : Commit) : State :=
  s.abortLanes cm.warp (conflicts [] (s.committing c cm)) 0x01 0

/-- The locking of its lines. -/
def State.txLock (u : State) (c : Nat) (cm : Commit) (wp : Warp) : State × Locking :=
  lockPieces c cm (u.whoCommit c wp) wp.core wp.block
    (u.unpinPieces cm.warp wp.core (u.whoCommit c wp).asid (commitPieces (u.committing c cm))) (commitPieces (u.committing c cm))

/-- The lanes whose recorded reads no longer hold abort (R109). -/
def State.txValidate (v : State) (p : Who) (c : Nat) (cm : Commit) : State :=
  (v.committing c cm).foldl (fun s e => if s.validate p e.2 = 0 then s else s.abortLanes cm.warp [e.1] (s.validate p e.2) 0) v

/-- What the answer of the locking means for a commit. -/
def State.txDecide (p : Who) (c : Nat) (cm : Commit) (wp : Warp) (ps : NatMap Bool) : State × Locking → State
  | (v, .retry) => if v.commitPinned p ps then v.bump (offCounter wp.core (0x100 * wp.part + 0x68)) 1 else v
  | (v, .full) => v
  | (v, .done) => (v.txValidate p c cm).commitLanes p c cm wp.core ((v.txValidate p c cm).committing c cm)

section
variable {c : Nat} {s : State} {cm : Commit} {wp : Warp} (hc : mapGet? s.commits c = some cm) (hw : s.warp? cm.warp = some wp)
include hc hw

/-- A commit whose loads have returned decides by the locking of its lines. -/
theorem exec_txCommit (hi : cm.installed = false) (ho : s.txOpen cm = false) :
    exec (.txCommit c) s = .next (State.txDecide ((s.txStart c cm).whoCommit c wp) c cm wp
      (commitPieces ((s.txStart c cm).committing c cm)) ((s.txStart c cm).txLock c cm wp)) := by
  have ready : ¬ (cm.installed || s.txOpen cm) = true := by simp [hi, ho]
  show execTxCommit c s = _
  unfold execTxCommit
  rw [hc]
  dsimp only
  rw [hw]
  refine congrArg Host.Outcome.next ((if_neg ready).trans ?_)
  unfold State.txDecide
  rfl

/-- A commit is over once gtime has reached its time: its lines are unlocked. -/
theorem exec_txUnlock (hi : cm.installed = true) (ht : cm.until_ ≤ s.gtimeAt (placeCore wp.core)) :
    exec (.txUnlock c) s = .next (
      let lines := s.slices.flatMap (fun e => (e.2.lines.filter (fun h => h.lockTx = some c)).map (fun h => (e.1, h)))
      lines.foldl (fun s e => s.afterWrite e.1 e.2.line)
        (lines.foldl (fun s e => s.modHLine e.1 e.2 (fun h => { h with lockTx := none }))
          ({ s with commits := mapErase s.commits c } : State))) := by
  have due : ¬ ((!cm.installed || decide (s.gtimeAt (placeCore (((s.warp? cm.warp).map (·.core)).getD 0)) < cm.until_)) = true) := by
    rw [hw]
    simp [hi, ht]
  show execTxUnlock c s = _
  unfold execTxUnlock
  rw [hc]
  exact congrArg Host.Outcome.next (if_neg due)

end

section
variable {n : Nat} {s : State} {ga : Gather} {wp : Warp} (hg : mapGet? s.gathers n = some ga) (hw : s.warp? ga.warp = some wp)
  (ht : ga.issued < s.clock wp.core)
include hg hw ht

/-- A gather after its issue, with the lanes that still wait in it. -/
theorem exec_gatherSubgroupRelease :
    exec (.gatherSubgroupRelease n) s = .next (
      let live := { ga with lanes := s.gatherStill n ga }
      let ready := live.lanes &&& live.arrived
      if ready = live.lanes then s.gatherRelease n live ready
      else if ready = 0 ∨ (s.clock wp.core - ga.issued) % 16 ≠ 0 ∨ 3 ≤ ga.released then s
      else s.gatherRelease n live ready) := by
  show execGatherSubgroupRelease n s = _
  unfold execGatherSubgroupRelease
  rw [hg]
  dsimp only
  rw [hw]
  exact congrArg Host.Outcome.next (if_neg (Nat.not_le.2 ht))

end

/-- A state with the faults of a page noted as reported. -/
def State.noteRouted (s : State) (x page : Nat) : State :=
  { s with pfaults := s.pfaults.map (fun g => if g.ctx = x && g.page = page then { g with routed := true } else g) }

/-- The note keeps the contexts … -/
theorem noteRouted_ctx (s : State) (x page : Nat) : (s.noteRouted x page).ctx? x = s.ctx? x := rfl

/-- … and what the packets say of their users. -/
theorem noteRouted_user (s : State) (x page q n : Nat) : (s.noteRouted x page).userOf q n = s.userOf q n := rfl

/-- A pending fault is reported once, to the ring of its context. -/
theorem exec_pageFaultRoute (x page : Nat) (s : State) (f : PFault) (c : Ctx)
    (hf : s.pfaults.find? (fun f => f.ctx = x && f.page = page && !f.routed) = some f) (hc : s.ctx? x = some c) :
    exec (.pageFaultRoute x page) s =
      .next ((s.noteRouted x page).post c.body.fring { f.record with user := s.userOf f.queue f.seq }) := by
  rw [← noteRouted_user s x page]
  show execPageFaultRoute x page s = _
  unfold execPageFaultRoute
  rw [hf]
  show Host.Outcome.next (match (s.noteRouted x page).ctx? x with
    | some c => (s.noteRouted x page).post c.body.fring { f.record with user := (s.noteRouted x page).userOf f.queue f.seq }
    | none => s.noteRouted x page) = _
  rw [noteRouted_ctx, hc]

/-- Settles O37: the commit by the answer of its locking, the gather by the data that has arrived, and the fault by its record. -/
theorem commitGatherAndFaultEventResults : Obligations.CommitGatherAndFaultEventResults := by
  unfold Obligations.CommitGatherAndFaultEventResults
  refine ⟨fun c s cm wp hc hw => ⟨fun hi ho v => ⟨fun hl => ?_, fun hl => ?_⟩,
    fun hi ht => exec_txUnlock hc hw hi ht⟩, fun n s ga wp hg hw ht => ⟨fun hr => ?_, fun h0 h16 h3 => ?_⟩, exec_pageFaultRoute⟩
  · exact (exec_txCommit hc hw hi ho).trans (congrArg (fun x => Host.Outcome.next (State.txDecide _ c cm wp _ x)) hl)
  · exact (exec_txCommit hc hw hi ho).trans (congrArg (fun x => Host.Outcome.next (State.txDecide _ c cm wp _ x)) hl)
  · rw [exec_gatherSubgroupRelease hg hw ht]
    exact congrArg Host.Outcome.next (if_pos hr)
  · have turn : ¬ (s.gatherStill n ga &&& ga.arrived = 0 ∨ (s.clock wp.core - ga.issued) % 16 ≠ 0 ∨ 3 ≤ ga.released) := by
      rintro (h | h | h)
      · exact h0 h
      · exact h h16
      · omega
    rw [exec_gatherSubgroupRelease hg hw ht]
    refine congrArg Host.Outcome.next ?_
    dsimp only
    rw [if_neg turn, ite_self]

end Sys2Proof.Machine
end

section
/-! O38. Requests for code, their fills, and the faults of fetches (R320 to R323). -/

namespace Sys2Proof.Machine

/-- A line that a party waits for is asked for, and the next one prefetched. -/
theorem exec_ifetchRequest (k line : Nat) (s : State) (v : FetchWaiter)
    (hv : (s.fetchWaiters k).find? (fun v => lineOf v.addr = line && !s.fetchPending k line (s.asidOf v.block) (s.viewOf v.block)) = some v)
    (hroom : (s.fetches k).length < 8) :
    exec (.ifetchRequest k line) s = .next ((s.addReqs [fetchReq s k (s.ctxIdOf v.block) (s.asidOf v.block) (s.viewOf v.block)
      (some v.block) v.addr true]).next.prefetchLine k (s.ctxIdOf v.block) (s.asidOf v.block) (s.viewOf v.block) (some v.block)
        ((line + 1) * 192)) := by
  show execIfetchRequest k line s = _
  unfold execIfetchRequest
  rw [hv]
  exact congrArg Host.Outcome.next (if_neg (Nat.not_le.2 hroom))

/-- The bytes that a copy of the cluster cache supplies for a fetch. -/
def DLine.fetchFill (d : DLine) : Fill :=
  { data := d.data, valid := d.valid, expCc := 0, expL1 := 0, tldv := d.tldv, tlsy := d.tlsy, leafs := d.leafs }

/-- A fetch request is over with a fill, which the caches keep where they may. -/
def State.fetchDone (s : State) (r : Nat) (q : Req) (f : Fill) : State :=
  let u := if q.keep = true ∧ q.keepCc = true then (s.fillCc (clusterOf q.core) (q.copy f f.expCc s.tick)).getD s else s
  (if q.keep then u.fillL1i q f else u).dropReq r

section
variable {r : Nat} {s : State} {q : Req} (hq : s.req? r = some q) (hk : q.kind = .ifetch)
include hq hk

/-- Every party that waits for the word of a faulted fetch parks on the page. -/
theorem exec_fetchFault (e : Nat) (hst : q.st = .faulted e) :
    exec (.fetchFault r) s = .next (((s.waitersOf q).foldl (fun s v =>
      match v.warp, v.tenant with
      | some w, _ => s.modLane w v.lane (fun la => { la with st := .fetchPark q.page })
      | none, some t => s.modTenant t (fun te => { te with st := .faultPark q.page })
      | none, none => s) s).dropReq r) := by
  show execFetchFault r s = _
  unfold execFetchFault
  rw [hq]
  dsimp only
  rw [hk, hst] <;> rfl

variable (hst : q.st = .sent)
include hst

/-- The cluster cache supplies a fetch. -/
theorem ifetchFill_copy (d : DLine) (hd : s.ccCopy q = some d) :
    exec (.ifetchFill r) s = .next (s.fetchDone r q d.fetchFill) := by
  have sent : ¬ (q.kind ≠ .ifetch ∨ q.st ≠ .sent) := by simp [hk, hst]
  show execIfetchFill r s = _
  unfold execIfetchFill
  rw [hq]
  refine congrArg Host.Outcome.next ((if_neg sent).trans ?_)
  rw [hd]
  simp only [State.fetchDone, DLine.fetchFill, Bool.and_eq_true]

/-- A shootdown holds a fetch at its slice. -/
theorem ifetchFill_held (hd : s.ccCopy q = none) (hinv : s.invalHolds r q = true) : exec (.ifetchFill r) s = .next s := by
  have sent : ¬ (q.kind ≠ .ifetch ∨ q.st ≠ .sent) := by simp [hk, hst]
  show execIfetchFill r s = _
  unfold execIfetchFill
  rw [hq]
  refine congrArg Host.Outcome.next ((if_neg sent).trans ?_)
  rw [hd]
  exact if_pos hinv

/-- A walk that faults makes a demand fetch a faulted request, and drops a prefetch. -/
theorem ifetchFill_fault (hd : s.ccCopy q = none) (hinv : s.invalHolds r q = false) (u : State) (e : Nat)
    (hh : s.home q.who q.line q.page false q.hint = (u, .fault e)) :
    exec (.ifetchFill r) s = .next (if q.demand then u.faultReq r q e else u.dropReq r) := by
  have sent : ¬ (q.kind ≠ .ifetch ∨ q.st ≠ .sent) := by simp [hk, hst]
  show execIfetchFill r s = _
  unfold execIfetchFill
  rw [hq]
  refine congrArg Host.Outcome.next ((if_neg sent).trans ?_)
  rw [hd]
  refine (if_neg (by simp [hinv])).trans ?_
  rw [hh]

end

/-- Settles O38: the request of a line, its fill by what supplies it, and the fault of a fetch. -/
theorem codeFetchResults : Obligations.CodeFetchResults := by
  unfold Obligations.CodeFetchResults
  exact ⟨fun k line s v hv hroom => exec_ifetchRequest k line s v hv hroom, fun r s q hq hk => ⟨fun hst =>
    ⟨fun d hd => ⟨d.fetchFill, rfl, rfl, ifetchFill_copy hq hk hst d hd⟩,
      fun u e hd hinv hh => ifetchFill_fault hq hk hst hd hinv u e hh, fun hd hinv => ifetchFill_held hq hk hst hd hinv⟩,
    fun e hst => exec_fetchFault hq hk e hst⟩⟩

end Sys2Proof.Machine
end

section
/-! O40. Placing blocks, starting phases, opening a grid barrier, and launches from the device (R16 to R30, R309, R310). -/

namespace Sys2Proof.Machine

/-! ### BLOCK_PLACE -/

section
variable (n : Nat) (s : State) (g : Grid) (x : Nat)

/-- The work-group numbers that a grid offers with a curve index: those of its gang. -/
def Grid.offerWids (g : Grid) (x : Nat) : List Nat := g.lrec.gangOf (g.lrec.widAt x)

/-- The numbers of the blocks that are offered. -/
def State.offerIds (s : State) (g : Grid) (x : Nat) : List Nat := (upTo (g.offerWids x).length).map (fun i => s.tick + i)

/-- The state in which the offered blocks have entered. -/
def State.offer (s : State) (n : Nat) (g : Grid) (x : Nat) : State := { s with
  blocks := s.blocks ++ ((s.offerIds g x).zip (g.offerWids x)).map (fun e => (e.1, Block.start n (g.lrec.curveIndex e.2) e.2))
  tick := s.tick + (g.offerWids x).length }

/-- What the seating of offered blocks leaves. -/
def State.offered (n x : Nat) (ids : List Nat) : State × Bool → State
  | (v, true) => (v.modGrid n (fun g => { g with next := x + 1 })).noteFirst n
  | (v, false) => { v with blocks := v.blocks.filter (fun e => e.1 ∉ ids) }

variable {n s g x} (hg : s.grid? n = some g)
include hg

/-- A grid that work before it outranks offers nothing. -/
theorem blockPlace_outranked (hr : s.outranked g = true) : exec (.blockPlace n) s = .next s := by
  show execBlockPlace n s = _
  unfold execBlockPlace
  rw [hg]
  exact congrArg Host.Outcome.next (if_pos (.inr (.inr hr)))

/-- A grid that may place offers its next curve index, where it begins a gang. -/
theorem exec_blockPlace (hp : g.noPlace = false) (ho : g.offered = false) (hr : s.outranked g = false)
    (hx : g.lrec.nextOffer 4096 g.next = some x) (hmin : ∀ k ∈ g.offerWids x, x ≤ g.lrec.curveIndex k) :
    exec (.blockPlace n) s = .next (State.offered n x (s.offerIds g x)
      ((s.offer n g x).seatAll g ((s.offerIds g x).map (fun i => (i, BlockData.first g.lrec))) x)) := by
  have places : ¬ (g.noPlace = true ∨ g.offered = true ∨ s.outranked g = true) := by simp [hp, ho, hr]
  have begins : ¬ (((g.offerWids x).map g.lrec.curveIndex).any (· < x)) = true := by simpa using hmin
  show execBlockPlace n s = _
  unfold execBlockPlace
  rw [hg]
  refine congrArg Host.Outcome.next ((if_neg places).trans ?_)
  rw [hx]
  refine (if_neg begins).trans ?_
  unfold State.offered
  rfl

end

/-! ### PHASE_START and GBAR_OPEN -/

/-- What a block brings to its next phase: its record, or its first phase. -/
def Block.phaseData (r : LaunchRec) (bl : Block) : BlockData :=
  match bl.rec_ with
  | some p => BlockData.next r p
  | none => BlockData.first r

/-- What the seating of the blocks of a phase leaves: horizons take the time of a commit that the block chose. -/
def State.phaseSeated (b : Nat) (bl : Block) : State × Bool → State
  | (v, true) => (((v.block? b).map (·.warps)).getD []).foldl (fun s w => s.modWarp w (fun wp =>
      { wp with hdv := max wp.hdv (listMax (bl.rivals.map (fun r => if r.status = 1 then r.time else 0))) })) v
  | (v, false) => v

section
variable {b : Nat} {s : State} {bl : Block} {g : Grid} (hb : s.block? b = some bl) (hg : s.gridOfBlock b = some g)
  (hst : bl.st = .queued)
include hb hg hst

/-- A block whose turn after a grid barrier has not come waits. -/
theorem phaseStart_waits (ht : ∀ e ∈ s.phaseMates b bl g.lrec, s.afterTurn e.2 = true) : exec (.phaseStart b) s = .next s := by
  show execPhaseStart b s = _
  unfold execPhaseStart
  rw [hb, hg]
  dsimp only
  rw [hst]
  exact congrArg Host.Outcome.next (if_pos (.inr (.inr (.inr (.inl (List.all_eq_true.2 ht))))))

/-- A queued phase that nothing holds back is seated with its gang. -/
theorem exec_phaseStart (hp : g.noPlace = false) (hk : bl.killed = none)
    (hq : ∀ e ∈ s.phaseMates b bl g.lrec, e.2.st = .queued) (hr : s.outranked g = false)
    (ht : ∃ e ∈ s.phaseMates b bl g.lrec, s.afterTurn e.2 = false) :
    exec (.phaseStart b) s = .next (State.phaseSeated b bl
      (s.seatAll g ((s.phaseMates b bl g.lrec).map (fun e => (e.1, e.2.phaseData g.lrec))) bl.curve)) := by
  have starts : ¬ (g.noPlace = true ∨ bl.killed.isSome = true ∨ (s.phaseMates b bl g.lrec).any (fun e => e.2.st ≠ .queued) = true ∨
      (s.phaseMates b bl g.lrec).all (fun e => s.afterTurn e.2) = true ∨ s.outranked g = true) := by
    rintro (h | h | h | h | h)
    · rw [hp] at h; cases h
    · rw [hk] at h; cases h
    · obtain ⟨e, he, h⟩ := List.any_eq_true.1 h
      exact of_decide_eq_true h (hq e he)
    · obtain ⟨e, he, hf⟩ := ht
      rw [List.all_eq_true.1 h e he] at hf
      cases hf
    · rw [hr] at h; cases h
  show execPhaseStart b s = _
  unfold execPhaseStart
  rw [hb, hg]
  dsimp only
  rw [hst]
  refine congrArg Host.Outcome.next ((if_neg starts).trans ?_)
  unfold State.phaseSeated
  rfl

end

/-- A grid whose blocks are all held at gbar queues their next phases. -/
theorem exec_gbarOpen (n : Nat) (s : State) (g : Grid) (hg : s.grid? n = some g) (ho : g.offered = true)
    (hne : s.blocks.filter (fun e => e.2.grid = n && e.2.parent.isNone && e.2.killed.isNone) ≠ [])
    (hall : ∀ e ∈ s.blocks.filter (fun e => e.2.grid = n && e.2.parent.isNone && e.2.killed.isNone), e.2.st = .gbar) :
    exec (.gbarOpen n) s = .next ((s.blocks.filter (fun e => e.2.grid = n && e.2.parent.isNone && e.2.killed.isNone)).foldl
      (fun s e => s.modBlock e.1 (fun bl => { bl with st := .queued, turn := some s.tick })) s.next) := by
  show execGbarOpen n s = _
  unfold execGbarOpen
  rw [hg]
  exact congrArg Host.Outcome.next (if_pos ⟨ho, hne, List.all_eq_true.2 (fun e he => decide_eq_true (hall e he))⟩)

/-! ### DEVICE_LAUNCH_READ -/

/-- The grid of a child that a device launch starts. -/
def State.childGrid (u : State) (d : DevLaunch) (g : Grid) (r : LaunchRec) : Grid :=
  Grid.fresh d.ctx g.queue g.seq { idem := false, nocpl := false, fence := false, ring := g.lrec.cring, user := 0 } (.device d.grid) r d.addr
    (gridClass r g.class_) (match g.src with
      | .node k _ => ((mapGet? u.graphs k).map (·.limit)).getD 0
      | _ => g.limit)

/-- What the read of a launch record leaves: a child grid or a refusal, a fault, or an error. -/
def State.launchReadDone (n : Nat) (d : DevLaunch) (g : Grid) : State × EngR (List (BitVec 8)) × Nat → State
  | (u, .ok bs, _) =>
    match (if u.ctxOpen d.ctx then u.recordReason d.ctx bs else some 0x0B) with
    | some reason => (u.dropLaunch n d).refuseLaunch g (LaunchRec.ofBytes bs).cring reason 0
    | none => (u.dropLaunch n d).addGrid (u.childGrid d g (LaunchRec.ofBytes bs))
  | (u, .fault e, a) =>
    (u.raiseFault { ctx := d.ctx, page := pageOf a, fetch := false, reason := e, faddr := a, engine := commandEngine g.queue,
                    queue := g.queue, seq := g.seq, routed := false }).modLaunch n (pageOf a)
  | (u, .error e, a) =>
    ((u.logError d.ctx a e (commandEngine g.queue)).dropLaunch n d).refuseLaunch g g.lrec.cring 0x01 (signAddr d.addr).toNat
  | (u, _, _) => u

section
variable {n : Nat} {s : State} {d : DevLaunch} {g : Grid} (hd : mapGet? s.devLaunches n = some d) (hg : s.grid? d.grid = some g)
  (hp : d.paused = none) (hw : ∀ f, d.waiting = some f → mapGet? s.fences f = none)
include hd hg hp hw

/-- A launch whose release is over reads its record. -/
theorem exec_deviceLaunchRead : exec (.deviceLaunchRead n) s =
    .next (State.launchReadDone n d g (State.engReadList (s.whoFirmware d.ctx) s d.addr 24)) := by
  have ready : ¬ (d.paused.isSome = true ∨ d.waiting.any (fun f => (mapGet? s.fences f).isSome) = true) := by
    rw [hp]
    rintro (h | h)
    · cases h
    · obtain ⟨f, hf, h⟩ := (Option.any_eq_true _ _).1 h
      rw [hw f hf] at h
      cases h
  show execDeviceLaunchRead n s = _
  unfold execDeviceLaunchRead
  rw [hd]
  dsimp only
  rw [hg]
  refine congrArg Host.Outcome.next ((if_neg ready).trans ?_)
  unfold State.launchReadDone
  rfl

end

/-- Settles O40: the placing of blocks by the answer of their seating, and the launch by the answer of its read. -/
theorem placementResults : Obligations.PlacementResults := by
  unfold Obligations.PlacementResults
  refine ⟨⟨fun n s g x hg hp ho => ⟨blockPlace_outranked hg, fun hr hx => ?_⟩,
    fun b s bl g v hb hg hst hp hk hq hr => ⟨phaseStart_waits hb hg hst, fun ht hv => ?_⟩,
    exec_gbarOpen⟩, fun n s d g hd hg hp hw => ?_⟩
  · intro wids ids u hmin
    exact ⟨fun v hv => (exec_blockPlace hg hp ho hr hx hmin).trans (congrArg (fun y => Host.Outcome.next (State.offered n x ids y)) hv),
      fun v hv => (exec_blockPlace hg hp ho hr hx hmin).trans (congrArg (fun y => Host.Outcome.next (State.offered n x ids y)) hv)⟩
  · exact (exec_phaseStart hb hg hst hp hk hq hr ht).trans (congrArg (fun y => Host.Outcome.next (State.phaseSeated b bl y)) hv)
  · rw [exec_deviceLaunchRead hd hg hp hw]
    intro read
    refine ⟨fun u bs a hread => ?_, fun u e a hread => congrArg (fun y => Host.Outcome.next (State.launchReadDone n d g y)) hread,
      fun u e a hread => congrArg (fun y => Host.Outcome.next (State.launchReadDone n d g y)) hread⟩
    have hread' : State.engReadList (s.whoFirmware d.ctx) s d.addr 24 = (u, .ok bs, a) := hread
    rw [hread']
    refine ⟨fun reason hreason => ?_, fun hreason => ?_⟩
    · unfold State.launchReadDone
      dsimp only
      rw [hreason]
    · unfold State.launchReadDone
      dsimp only
      rw [hreason] <;> rfl

end Sys2Proof.Machine
end

section
/-! O44. What the control packets do when they start (R33, R338, R339, R367, R368, R382). -/

namespace Sys2Proof.Machine

section
variable (q n : Nat) (h : PktHdr) {s : State}

/-! ### SIGNAL and WAIT -/

/-- A signal whose write is performed is done when that time has come. -/
theorem signal_ok {addr : Nat} (v : DWord) (add : Option Ty) (ha : canonical (BitVec.ofNat 64 addr) = true) {u : State} {t : Times} {tsy : Nat}
    (hw : s.engWrite (s.whoFirmware (s.queueCtx q)) none (addr % 2 ^ 57) 8 v.toNat
      (add.map (fun ty => ({ ty := ty, pc := 0, row := 0 } : AddOf))) false = (u, .ok (t, tsy))) :
    s.signal q n addr v add = u.doneCmd q n 0 (max t.tdv tsy) := by
  unfold State.signal
  refine (if_neg (by simp [ha])).trans ?_
  rw [hw]

/-- A wait reads its word, and is done where the comparison holds. -/
theorem pollWait_ok {addr : Nat} (v : DWord) (cond : Cond) (ha : canonical (BitVec.ofNat 64 addr) = true) {u : State} {w : Nat}
    (hr : s.engRead (s.whoFirmware (s.queueCtx q)) none (addr % 2 ^ 57) 8 = (u, .ok w)) :
    s.pollWait q n addr v cond = if cmpInt cond w v.toNat then u.doneCmd q n 0 0 else u := by
  unfold State.pollWait
  refine (if_neg (by simp [ha])).trans ?_
  rw [hr]

/-- A signal that writes its word. -/
theorem exec_signalWrite (addr : Nat) (v : DWord) (ha : canonical (BitVec.ofNat 64 addr) = true)
    (hs : Starts s (.signalWrite q n h addr v) q n true) (u : State) (t : Times) (tsy : Nat)
    (hw : s.engWrite (s.whoFirmware (s.queueCtx q)) none (addr % 2 ^ 57) 8 v.toNat none false = (u, .ok (t, tsy))) :
    exec (.signalWrite q n h addr v) s = .next ((u.doneCmd q n 0 (max t.tdv tsy)).closeCmd q n) := by
  rw [← signal_ok q n v none ha hw]
  exact congrArg Host.Outcome.next (packet_start hs _ _)

/-- A signal that adds to it. -/
theorem exec_signalAdd (addr : Nat) (v : DWord) (ha : canonical (BitVec.ofNat 64 addr) = true)
    (hs : Starts s (.signalAdd q n h addr v) q n true) (u : State) (t : Times) (tsy : Nat)
    (hw : s.engWrite (s.whoFirmware (s.queueCtx q)) none (addr % 2 ^ 57) 8 v.toNat (some { ty := .n64, pc := 0, row := 0 }) false =
      (u, .ok (t, tsy))) :
    exec (.signalAdd q n h addr v) s = .next ((u.doneCmd q n 0 (max t.tdv tsy)).closeCmd q n) := by
  rw [← signal_ok q n v (some .n64) ha hw]
  exact congrArg Host.Outcome.next (packet_start hs _ _)

/-- A wait that starts polls its word at once. -/
theorem exec_wait (addr : Nat) (v : DWord) (cond : Cond) (timeout : Nat) (ha : canonical (BitVec.ofNat 64 addr) = true)
    (hs : Starts s (.wait q n h addr v cond timeout) q n true) (u : State) (w : Nat)
    (hr : (s.startCmd q n).engRead (s.whoFirmware (s.queueCtx q)) none (addr % 2 ^ 57) 8 = (u, .ok w)) :
    exec (.wait q n h addr v cond timeout) s =
      .next ((if cmpInt cond w v.toNat then u.doneCmd q n 0 0 else u).closeCmd q n) := by
  rw [← pollWait_ok (s := s.startCmd q n) q n v cond ha hr]
  exact congrArg Host.Outcome.next (packet_start hs _ _)

/-- A wait whose timeout has run out ends. -/
theorem exec_waitTimeout (c : Cmd) (h' : PktHdr) (addr : Nat) (v : DWord) (cond : Cond) (timeout : Nat) (hc : s.cmd? q n = some c)
    (hi : c.instr = .wait q n h' addr v cond timeout) (hst : c.started = true) (hd : c.done = false)
    (he : expired timeout (some c.due) (s.gtimeAt 0) = true) :
    exec (.waitTimeout q n) s = .next ((s.endCmd q n 6 0 0).closeCmd q n) := by
  show execWaitTimeout q n s = _
  unfold execWaitTimeout
  rw [hc]
  dsimp only
  rw [hi]
  exact congrArg Host.Outcome.next (if_pos (by simp [hst, hd, he]))

/-! ### INVAL and RESUME -/

variable {start bytes : Nat} {whole : Bool} (hs : Starts s (.inval q n h start bytes whole) q n true)
include hs

/-- An INVAL of no bytes is done at once. -/
theorem inval_empty (hb : bytes = 0) (hw : whole = false) :
    exec (.inval q n h start bytes whole) s = .next ((s.doneCmd q n (s.gtimeAt 0) 0).closeCmd q n) := by
  refine congrArg Host.Outcome.next ((packet_start hs _ _).trans (congrArg (fun t => State.closeCmd t q n) ?_))
  exact if_pos ⟨hb, by simp [hw]⟩

/-- Any other drops the translations of its range and shoots down. -/
theorem inval_range (hb : bytes ≠ 0 ∨ whole = true) : exec (.inval q n h start bytes whole) s =
    .next ((((s.startCmd q n).dropTranslations (s.rangeOf (s.queueCtx q) start bytes whole)).shoot q n
      (s.rangeOf (s.queueCtx q) start bytes whole)).closeCmd q n) := by
  refine congrArg Host.Outcome.next ((packet_start hs _ _).trans (congrArg (fun t => State.closeCmd t q n) ?_))
  refine if_neg ?_
  rintro ⟨h0, hw⟩
  rcases hb with hb | hb
  · exact hb h0
  · rw [hb] at hw; cases hw

end

section
variable (q n : Nat) (h : PktHdr) {s : State} {fq seq addr : Nat} {unres : Bool}
  (hs : Starts s (.resume q n h fq seq addr unres) q n true) (ha : canonical (BitVec.ofNat 64 addr) = true)
include hs ha

/-- A RESUME of no pending page is done. -/
theorem resume_none (hf : s.pfaults.find? (fun f => f.ctx = s.queueCtx q && f.page = pageOf (addr % 2 ^ 57)) = none) :
    exec (.resume q n h fq seq addr unres) s = .next ((s.doneCmd q n 0 0).closeCmd q n) := by
  refine congrArg Host.Outcome.next ((packet_start hs _ _).trans (congrArg (fun t => State.closeCmd t q n) ?_))
  dsimp only
  rw [if_pos ha, hf]

/-- A RESUME of a pending page answers it once. -/
theorem resume_some (f : PFault)
    (hf : s.pfaults.find? (fun f => f.ctx = s.queueCtx q && f.page = pageOf (addr % 2 ^ 57)) = some f) :
    exec (.resume q n h fq seq addr unres) s = .next (
      let x := s.queueCtx q
      let page := pageOf (addr % 2 ^ 57)
      let t : State := { s with pfaults := s.pfaults.filter (fun g => !(g.ctx = x && g.page = page)) }
      ((if unres then t.resumeFail x page f.faddr else t.resumeRetry x page).doneCmd q n (s.waitersOn x page) 0).closeCmd q n) := by
  refine congrArg Host.Outcome.next ((packet_start hs _ _).trans (congrArg (fun t => State.closeCmd t q n) ?_))
  dsimp only
  rw [if_pos ha, hf]

end

/-- Settles O44: each packet by what it does once it starts, `packet_start`. -/
theorem controlPacketsStart : Obligations.ControlPacketsStart := by
  unfold Obligations.ControlPacketsStart
  exact fun q n h s => ⟨fun addr v ha => ⟨exec_signalWrite q n h addr v ha, exec_signalAdd q n h addr v ha⟩,
    exec_wait q n h, exec_waitTimeout q n, fun target hs => congrArg Host.Outcome.next (packet_start hs _ _),
    fun target hs => congrArg Host.Outcome.next (packet_start hs _ _),
    fun start bytes whole hs => ⟨inval_empty q n h hs, inval_range q n h hs⟩,
    fun fq seq addr unres hs ha => ⟨resume_none q n h hs ha, resume_some q n h hs ha⟩⟩

end Sys2Proof.Machine
end

section
/-! O46. PREEMPT, and blocks that are descheduled, pre-empted and placed again (R29, R350, R377 to R381). -/

namespace Sys2Proof.Machine

/-! ### PREEMPT -/

section
variable {q n area size : Nat} {s : State}

/-- A save on a canonical area begins and goes on. -/
theorem save_canonical (mode : Nat) (target : Option Nat) (ha : badAddress (BitVec.ofNat 64 area) size = none) :
    s.save q n mode target area size = ((s.startCmd q n).beginSave (s.queueCtx q) target).goSave q n mode target area size := by
  unfold State.save
  rw [ha]

/-- A save on another area faults. -/
theorem save_bad (mode : Nat) (target : Option Nat) (a : DWord) (ha : badAddress (BitVec.ofNat 64 area) size = some a) :
    s.save q n mode target area size = s.endCmd q n 1 0x06 a.toNat := by
  unfold State.save
  rw [ha]

/-- An area that holds no header restores nothing. -/
theorem restore_short (first : Bool) (h : size < 192) : s.restore q n area size first = s.endCmd q n 7 0x02 0 := by
  unfold State.restore
  exact if_pos h

variable {h : PktHdr}

/-- A save of a queue that starts. -/
theorem exec_preemptSaveQueue (target : Nat) (hs : Starts s (.preemptSaveQueue q n h target area size) q n true) :
    exec (.preemptSaveQueue q n h target area size) s = .next ((s.save q n 0 (some target) area size).closeCmd q n) :=
  congrArg Host.Outcome.next (packet_start hs _ _)

/-- A save of a context that starts. -/
theorem exec_preemptSaveContext (hs : Starts s (.preemptSaveContext q n h area size) q n true) :
    exec (.preemptSaveContext q n h area size) s = .next ((s.save q n 1 none area size).closeCmd q n) :=
  congrArg Host.Outcome.next (packet_start hs _ _)

/-- A restore of a canonical area that starts. -/
theorem exec_preemptRestore (hs : Starts s (.preemptRestore q n h area size) q n true)
    (ha : badAddress (BitVec.ofNat 64 area) size = none) :
    exec (.preemptRestore q n h area size) s = .next ((s.restore q n area size true).closeCmd q n) := by
  refine congrArg Host.Outcome.next ((packet_start hs _ _).trans (congrArg (fun t => State.closeCmd t q n) ?_))
  rw [ha]

end

/-! ### BLOCK_DESCHEDULE -/

/-- The state in which a block is being saved to a place of the standing area of its context. -/
def State.savingAt (s : State) (b used : Nat) : State :=
  (s.modBlock b (fun bl => { bl with saving := true, saveAt := some used })).quiesce b

/-- The state in which firmware brings a block to rest to keep its record. -/
def State.keeping (s : State) (b : Nat) : State :=
  (s.modBlock b (fun bl => { bl with saving := true, kept := some [] })).quiesce b

section
variable {b : Nat} {s : State} {bl : Block} {g : Grid}

/-- A block that is not yet ready is only brought nearer to it. -/
theorem evict_waits (u : State) (hu : (s.keeping b).saveReady b = (u, false)) : s.evict b g = u := by
  unfold State.evict
  show (match (s.keeping b).saveReady b with
    | (s, false) => s
    | (s, true) => _) = u
  rw [hu]

/-- One that is ready leaves its cores, and firmware keeps its record. -/
theorem evict_keeps (u : State) (bl' : Block) (hu : (s.keeping b).saveReady b = (u, true)) (hb : u.block? b = some bl') :
    s.evict b g = (u.saveBlock b .descheduled).modBlock b (fun k => { k with kept := some (u.blockRecord b bl' g) }) := by
  unfold State.evict
  show (match (s.keeping b).saveReady b with
    | (s, false) => s
    | (s, true) => _) = _
  rw [hu]
  dsimp only
  rw [hb]

variable (hb : s.block? b = some bl) (hg : s.gridOfBlock b = some g) (hst : bl.st = .resident) (hk : bl.killed = none)
include hb hg hst hk

/-- A block that firmware is pre-empting is pre-empted further. -/
theorem blockDeschedule_kept (hs : bl.saving = true) (hkept : bl.kept.isSome = true) :
    exec (.blockDeschedule b) s = .next (s.evict b g) := by
  show execBlockDeschedule b s = _
  unfold execBlockDeschedule
  rw [hb, hg]
  exact congrArg Host.Outcome.next (if_pos (by simp [hst, hk, hs, hkept]))

variable (hs : bl.saving = false)
include hs

/-- A block of a lower class that may not be descheduled yields to class 0 work, with its gang. -/
theorem blockDeschedule_yields (hm : (g.lrec.gang = 0 ∨ bl.parent.isSome = true) → s.mayDeschedule b bl g = false)
    (hy : s.yieldsToClass0 bl g = true) : exec (.blockDeschedule b) s =
      .next (((s.phaseMates b bl g.lrec).filter (fun e => e.2.st = .resident)).foldl (fun s e => s.evict e.1 g) s) := by
  have stays : ((g.lrec.gang = 0 || bl.parent.isSome) && s.mayDeschedule b bl g) = false := by
    by_cases ha : g.lrec.gang = 0 ∨ bl.parent.isSome = true
    · rw [hm ha, Bool.and_false]
    · have alone : (decide (g.lrec.gang = 0) || bl.parent.isSome) = false := by simpa using ha
      rw [alone, Bool.false_and]
  show execBlockDeschedule b s = _
  unfold execBlockDeschedule
  rw [hb, hg]
  refine congrArg Host.Outcome.next ((if_neg (by simp [hs])).trans ((if_pos ?_).trans rfl))
  rw [stays, hy, hs, hst, hk]
  rfl

variable {area size used : Nat} {c : Ctx} (hc : s.ctx? g.ctx = some c) (hstand : c.standing = some (area, size, used))
  (hal : g.lrec.gang = 0 ∨ bl.parent.isSome = true) (hw : ∀ w ∈ bl.warps, s.warpWaits w = true) (hww : s.workWaits = true)
  (hfit : used + s.recordBytes b ≤ size)
include hc hstand hal hw hww hfit

omit hst hk in
/-- A block that waits, with room for its record, is descheduled. -/
theorem exec_blockDeschedule : exec (.blockDeschedule b) s = .next (s.deschedule b) := by
  have standing : (s.ctx? g.ctx).bind (·.standing) = some (area, size, used) := by rw [hc]; exact hstand
  have may : s.mayDeschedule b bl g = true := by
    unfold State.mayDeschedule
    rw [standing, Option.any_some, List.all_eq_true.2 hw, hww]
    simpa using hfit
  have alone : (decide (g.lrec.gang = 0) || bl.parent.isSome) = true := by simpa using hal
  show execBlockDeschedule b s = _
  unfold execBlockDeschedule
  rw [hb, hg]
  exact congrArg Host.Outcome.next ((if_neg (by simp [hs])).trans (if_neg (by rw [alone, may]; simp)))

omit hb hg hc hstand hw hww hfit in
/-- It stands on its cores, alive, and may be descheduled by itself. -/
theorem deschedule_stands : ¬ (bl.st ≠ .resident ∨ bl.killed.isSome = true ∨ (bl.saving = true ∧ bl.saveAt.isNone = true) ∨
    (g.lrec.gang ≠ 0 ∧ bl.parent.isNone = true)) := by
  rintro (h | h | h | h)
  · exact h hst
  · rw [hk] at h; cases h
  · rw [hs] at h; cases h.1
  · rcases hal with ha | ha
    · exact h.1 ha
    · cases hpar : bl.parent <;> simp [hpar] at ha h

omit hb hg hst hk hs hc hstand hal in
/-- It waits, and its record fits. -/
theorem deschedule_fits : ¬ (!bl.saving && !(bl.warps.all s.warpWaits && s.workWaits && used + s.recordBytes b ≤ size)) = true := by
  rw [List.all_eq_true.2 hw, hww, decide_eq_true hfit]
  simp

/-- What its descheduling does: it is brought to a state that can be saved, and waits there … -/
theorem deschedule_waits (u : State) (hu : (s.savingAt b used).saveReady b = (u, false)) : s.deschedule b = u := by
  have standing : (s.ctx? g.ctx).bind (·.standing) = some (area, size, used) := by rw [hc]; exact hstand
  have ready : ((s.modBlock b (fun bl => { bl with saving := true, saveAt := some used })).quiesce b).saveReady b = (u, false) := hu
  unfold State.deschedule
  rw [hb, hg]
  dsimp only
  rw [standing]
  refine (if_neg (deschedule_stands hst hk hs hal)).trans ((if_neg (deschedule_fits hw hww hfit)).trans ?_)
  rw [ready]

/-- … until its record is written, and it gives up its cores. -/
theorem deschedule_saves (u : State) (bl' : Block) (v : State) (ok a : Nat) (hu : (s.savingAt b used).saveReady b = (u, true))
    (hb' : u.block? b = some bl') (hlen : used + (u.blockRecord b bl' g).length ≤ size)
    (hv : u.saveBytes g.ctx (area + used) (u.blockRecord b bl' g) = (v, .ok ok, a)) :
    s.deschedule b = ((v.saveBlock b .descheduled).modBlock b (fun bl => { bl with saveAt := some (area + used) })).modCtx g.ctx (fun c =>
      { c with standing := some (area, size, used + (u.blockRecord b bl' g).length) }) := by
  have standing : (s.ctx? g.ctx).bind (·.standing) = some (area, size, used) := by rw [hc]; exact hstand
  have ready : ((s.modBlock b (fun bl => { bl with saving := true, saveAt := some used })).quiesce b).saveReady b = (u, true) := hu
  unfold State.deschedule
  rw [hb, hg]
  dsimp only
  rw [standing]
  refine (if_neg (deschedule_stands hst hk hs hal)).trans ((if_neg (deschedule_fits hw hww hfit)).trans ?_)
  rw [ready]
  dsimp only
  rw [hb']
  refine (if_neg (Nat.not_lt.2 hlen)).trans ?_
  rw [hv]

end

/-! ### BLOCK_REQUEUE -/

/-- A list of values that are all there. -/
theorem allSome_map_some {α : Type} (vs : List α) : allSome (vs.map some) = some vs := by
  induction vs with
  | nil => rfl
  | cons v vs ih => rw [List.map_cons, allSome, Option.bind_some, ih]; rfl

section
variable {b : Nat} {s : State} {bl : Block} {g : Grid} (hb : s.block? b = some bl) (hg : s.gridOfBlock b = some g)
  (hst : bl.st = .descheduled) (hp : g.noPlace = false) (hr : s.outranked g = false)
include hb hg hst hp hr

/-- A kept block is placed again with its gang, once no class 0 work of its partition waits. -/
theorem blockRequeue_kept (bs : List (BitVec 8)) (vs : List (Nat × Block × SavedBlock)) (hat : bl.saveAt = none)
    (hkept : bl.kept = some bs) (h0 : s.class0Waits (ctxPart g.ctx) = [])
    (hm : ∀ e ∈ (s.phaseMates b bl g.lrec).filter (fun e => e.2.kept.isSome), e.2.st = .descheduled)
    (hvs : ((s.phaseMates b bl g.lrec).filter (fun e => e.2.kept.isSome)).map (fun e =>
      (s.bodyOf e.1 e.2 g.lrec ((e.2.kept.getD []).drop 192)).map (fun v => (e.1, e.2, v))) = vs.map some) :
    exec (.blockRequeue b) s = .next (s.placeSaved g vs).1 := by
  have rest : ((s.phaseMates b bl g.lrec).filter (fun e => e.2.kept.isSome)).any (fun e => e.2.st ≠ .descheduled) = false := by
    rw [List.any_eq_false]
    exact fun e he => by simp [hm e he]
  show execBlockRequeue b s = _
  unfold execBlockRequeue
  rw [hb, hg]
  dsimp only
  rw [hst, hat, hkept]
  refine congrArg Host.Outcome.next ((if_neg ?_).trans ?_)
  · rw [hp, hr, h0, rest]
    simp
  · rw [hvs, allSome_map_some]

/-- A descheduled block is placed again from the record in its standing area. -/
theorem blockRequeue_saved (at_ : Nat) (u : State) (hd : List (BitVec 8)) (x : Nat) (v : State) (body : List (BitVec 8)) (y : Nat)
    (sv : SavedBlock) (hat : bl.saveAt = some at_)
    (hhd : State.engReadList (s.whoFirmware g.ctx) s at_ 12 = (u, .ok hd, x))
    (hbody : State.engReadList (u.whoFirmware g.ctx) u (at_ + 192) (field hd 0 4 / 16 - 12) = (v, .ok body, y))
    (hsv : v.bodyOf b bl g.lrec body = some sv) : exec (.blockRequeue b) s = .next (v.placeSaved g [(b, bl, sv)]).1 := by
  show execBlockRequeue b s = _
  unfold execBlockRequeue
  rw [hb, hg]
  dsimp only
  rw [hst, hat]
  refine congrArg Host.Outcome.next ((if_neg (by simp [hp, hr])).trans ?_)
  rw [hhd]
  dsimp only
  rw [hbody]
  dsimp only
  rw [hsv]

end

/-- Settles O46: PREEMPT through `packet_start`, BLOCK_DESCHEDULE by which of its three ways a block goes, and BLOCK_REQUEUE by where
its record is. -/
theorem preemptionResults : Obligations.PreemptionResults := by
  unfold Obligations.PreemptionResults
  refine ⟨fun q n area size h s => ⟨fun target hs => ⟨fun ha => ?_, fun a ha => ?_⟩, fun hs ha => ?_, fun hs ha => ?_⟩,
    fun b s bl g hb hg => ⟨?_, blockDeschedule_yields hb hg, blockDeschedule_kept hb hg, ⟨evict_waits, evict_keeps⟩,
      fun bs vs hst hat hkept hp hr h0 hm hvs => blockRequeue_kept hb hg hst hp hr bs vs hat hkept h0 hm hvs,
      fun at_ u hd x v body y sv hst hat hp hr => blockRequeue_saved hb hg hst hp hr at_ u hd x v body y sv hat⟩⟩
  · rw [exec_preemptSaveQueue target hs, save_canonical 0 (some target) ha]
  · rw [exec_preemptSaveQueue target hs, save_bad 0 (some target) a ha]
  · rw [exec_preemptSaveContext hs, save_canonical 1 none ha]
  · exact ⟨exec_preemptRestore hs ha, fun hshort => by rw [exec_preemptRestore hs ha, restore_short true hshort]⟩
  · intro area size used c hc hstand hst hk hs hal hw hww hfit t
    rw [exec_blockDeschedule hb hg hs hc hstand hal hw hww hfit]
    exact ⟨fun u hu => congrArg _ (deschedule_waits hb hg hst hk hs hc hstand hal hw hww hfit u hu),
      fun u bl' v ok a hu hb' hlen hv => congrArg _
        (deschedule_saves hb hg hst hk hs hc hstand hal hw hww hfit u bl' v ok a hu hb' hlen hv)⟩

end Sys2Proof.Machine
end

section
/-! What `%sbias` takes from the launch, what `movc` writes to it and what `movs` reads back (R42). -/

namespace Sys2Proof.Machine

/-! ### The slack bias of a warp (R42) -/

/-- Each warp of a block at its first phase starts with the bias of the launch. -/
theorem first_warps_sbias {lr : LaunchRec} {wp : Warp} (hwp : wp ∈ (BlockData.first lr).warps) : wp.sbias = lr.sbias := by
  obtain ⟨w, -, rfl⟩ := List.mem_map.mp hwp
  rfl

/-- A record that no check refuses has the form of Table 18.12. -/
theorem formOk_of_recordReason {s : State} {x : Nat} {bs : List (BitVec 8)} (hr : s.recordReason x bs = none) :
    (LaunchRec.ofBytes bs).formOk bs (fun k => k < 64 && s.ringPart k = ctxPart x) = true := by
  by_contra hf
  rw [Bool.not_eq_true] at hf
  unfold State.recordReason at hr
  dsimp only at hr
  rw [hf] at hr
  cases hr

/-- … and such a record has a bias from -2 to 3. -/
theorem sbias_of_formOk {r : LaunchRec} {bs : List (BitVec 8)} {rings : Nat → Bool} (hf : r.formOk bs rings = true) :
    -2 ≤ r.sbias ∧ r.sbias ≤ 3 := by
  simp only [LaunchRec.formOk, Bool.and_eq_true, decide_eq_true_eq] at hf
  obtain ⟨⟨⟨⟨⟨⟨-, hlo⟩, hhi⟩, -⟩, -⟩, -⟩, -⟩ := hf
  exact ⟨hlo, hhi⟩

/-- `movc %sbias` writes the clamped source of the lowest guard-true lane to its warp. -/
theorem movc_sbias {s : State} {g : Grp} (hg : s.grp = some g) {h : Hdr} {l : Nat} {rest : List Nat} (hl : g.trues h = l :: rest)
    (b : Opd) : ∃ t, exec (.movc h .sbias b) s = .next t ∧ OnlyWarp s t g.w ∧
      (t.warp? g.w).map (·.sbias) = some (max (-2) (min 3 (BitVec.ofNat 32 ((s.laneRegs g l).src32 b)).toInt)) := by
  have hr := modWarp_stepLanes hg (fun wp => { wp with sbias := max (-2) (min 3 (BitVec.ofNat 32 ((s.laneRegs g l).src32 b)).toInt) })
    (fun _ _ => rfl)
  refine ⟨_, exec_movc hg hl .sbias b, hr.frame, ?_⟩
  have hbias := congrArg (Option.map Warp.sbias) hr.warp
  rwa [Option.map_map] at hbias

/-- `movs` of `%sbias` reads the bias of the warp. -/
theorem movs_sbias {s : State} {g : Grp} {top : Nat} (hg : Runs s g top) (h : Hdr) {a : Dst} (ha : a.top 32 ≤ top) :
    ∃ t, exec (.movs h false a 0x21) s = .next t ∧
      GroupResult s t g (g.trues h) (fun _ => [.reg a 32 (BitVec.ofInt 32 g.wp.sbias).toNat]) := by
  have hv : ∀ r, s.special r 0x21 = (BitVec.ofInt 32 g.wp.sbias).toNat := fun r => special_of_grp hg.grp r 0x21
  obtain ⟨t, he, hr⟩ := (movs_computes h false a 0x21 s).vector g ⟨hg.grp, ha.trans hg.regs⟩
  refine ⟨t, he, ?_⟩
  simpa only [hv, Bool.false_eq_true, if_false, BitVec.reduceToNat] using hr

/-- Settles O59: the bias of the launch record by its form check, `movc` by its change of the warp, and `movs` by the special register. -/
theorem slackBiasOfAWarp : Obligations.SlackBiasOfAWarp :=
  ⟨fun _ _ hwp => first_warps_sbias hwp, fun _ _ _ hr => sbias_of_formOk (formOk_of_recordReason hr),
    fun h b _ _ _ hg => ⟨fun _ _ hl => movc_sbias hg hl b, fun _ hr ha => movs_sbias hr h ha⟩⟩

end Sys2Proof.Machine
end

section
/-! What the moves between the registers of a warp and the tiles of its core leave (R307, R308). -/

namespace Sys2Proof.Machine

/-! ### Tile moves (R147, R308) -/

/-- A group whose lanes have moved marks its registers and advances. -/
def State.endMove (v : State) (g : Grp) (h : Hdr) (vregs : List Nat) : State :=
  (v.modWarp g.w (fun wp => wp.markMove (lanesMask (g.trues h)) vregs g.pc (v.clock wp.core))).stepLanes g.w (g.trues h)

/-- Where the tile stream of the block runs on the core, a tile move acts for each guard-true lane in turn. -/
theorem tileMove_runs {s : State} {g : Grp} {h : Hdr} {top n : Nat} (hg : Runs s g top) (hG : g.trues h ≠ [])
    (ht : s.tenantOn g.wp.block g.wp.core = some n) (o : Opd) (vregs : List Nat) (f : Grp → Nat → Nat → Nat → State → State) :
    tileMove h top o vregs s f =
      ((g.trues h).foldl (fun s l => f g n (moveOff o) l s) (s.passFalse g h)).endMove g h vregs := by
  have ht' : (s.passFalse g h).tenantOn g.wp.block g.wp.core = some n := ht
  unfold tileMove
  rw [onGroup_runs hg hG]
  dsimp only
  rw [ht']
  rfl

/-- Without one it is illegal. -/
theorem tileMove_noTenant {s : State} {g : Grp} {h : Hdr} {top : Nat} (hg : Runs s g top) (hG : g.trues h ≠ [])
    (ht : s.tenantOn g.wp.block g.wp.core = none) (o : Opd) (vregs : List Nat) (f : Grp → Nat → Nat → Nat → State → State) :
    tileMove h top o vregs s f = (s.passFalse g h).illopLanes g (g.trues h) 0x0B := by
  have ht' : (s.passFalse g h).tenantOn g.wp.block g.wp.core = none := ht
  unfold tileMove
  rw [onGroup_runs hg hG]
  dsimp only
  rw [ht']

/-- The mark of a move leaves the lanes of its warp. -/
theorem markMove_lanes (wp : Warp) (M : Mask) (vregs : List Nat) (pc : PC) (clock : Nat) (x : List Lane) :
    Warp.markMove { wp with lanes := x } M vregs pc clock = { wp.markMove M vregs pc clock with lanes := x } := by
  unfold Warp.markMove
  dsimp only
  split <;> rfl

/-- A move counts in tl, and besides only the pending marks of its warp change. -/
theorem markMove_rest (wp : Warp) (M : Mask) (vregs : List Nat) (pc : PC) (clock : Nat) :
    { wp.markMove M vregs pc clock with pend := wp.pend } = { wp with ctrTl := wp.ctrTl + 1 } := by
  unfold Warp.markMove
  dsimp only
  split <;> rfl

/-- What a move leaves, after the moves of its lanes: `s` holds the tiles as they have left them. -/
theorem moved_of_lanes {s v : State} {g : Grp} {h : Hdr} {f : Nat → Lane → Lane} (hnd : (g.trues h).Nodup)
    (hv : LanesResult s v g (groupLane g h f)) (vregs : List Nat) :
    ∃ r, WarpResult s (v.endMove g h vregs) g (groupLane g h (fun l la => (f l la).step)) r ∧
      { r with pend := g.wp.pend } = { g.wp with ctrTl := g.wp.ctrTl + 1 } := by
  have hr := (hv.thenWarp (fun wp => wp.markMove (lanesMask (g.trues h)) vregs g.pc (v.clock wp.core))
    (fun _ _ => markMove_lanes _ _ _ _ _ _)).thenLanes (g.trues h) hnd Lane.step
  refine ⟨_, hr.congr (fun l la _ => ?_), markMove_rest _ _ _ _ _⟩
  unfold groupLane
  by_cases hl : l ∈ g.trues h <;> simp only [hl, if_true, if_false]

/-- A guard-true lane writes its row of a tile. -/
def tileRowPut (s : State) (g : Grp) (ty : Ty) (t : BitVec 3) (at_ : Nat) (v : BitVec 8) (l : Nat) (te : Tenant) : Tenant :=
  { te.written t.toNat with
    tiles := mapPut 0 te.tiles (32 * t.toNat + l)
      (lineSet (mapGetD te.tiles (32 * t.toNat + l) 0) at_ (ty.bits / 8) ((s.laneRegs g l).src ty (.v v))) }

/-- A tenant after the rows that the guard-true lanes write. -/
def tileRowsPut (s : State) (g : Grp) (h : Hdr) (ty : Ty) (t : BitVec 3) (at_ : Nat) (v : BitVec 8) (te : Tenant) : Tenant :=
  (g.trues h).foldl (fun te l => tileRowPut s g ty t at_ v l te) te

/-- `tstv` changes one tenant, row by row. -/
theorem exec_tstv {s : State} {g : Grp} {h : Hdr} {ty : Ty} (t : BitVec 3) (o : Opd) {v : BitVec 8} {n : Nat}
    (hg : Runs s g (Opd.top (.v v) ty.bits)) (hG : g.trues h ≠ []) (ht : s.tenantOn g.wp.block g.wp.core = some n) :
    exec (.tstv h ty t o v) s =
      .next (((s.passFalse g h).modTenant n (tileRowsPut s g h ty t (moveOff o) v)).endMove g h []) := by
  have hfold := foldl_tenants (s.passFalse g h) n (tileRowPut s g ty t (moveOff o) v)
    (fun u l => u.modTenant n (tileRowPut u g ty t (moveOff o) v l)) (g.trues h) (fun _ _ _ => rfl) s.tenants
  exact congrArg Host.Outcome.next ((tileMove_runs hg hG ht o [] _).trans (congrArg (fun u : State => u.endMove g h []) hfold))

/-- A change of a tenant after the guard-false lanes have passed. -/
theorem lanesResult_modTenant {s : State} {g : Grp} (hg : s.grp = some g) (h : Hdr) (n : Nat) (f : Tenant → Tenant) :
    LanesResult { s with tenants := mapModify s.tenants n f } ((s.passFalse g h).modTenant n f) g (groupLane g h (fun _ la => la)) := by
  have hr := lanesResult_modLanes h hg (fun la => la)
  rw [State.modLanes_same] at hr
  exact hr.besides (fun u => { u with tenants := mapModify s.tenants n f }) (fun _ _ => rfl)

/-- What `tstv` leaves. -/
theorem tstv_result {s : State} {g : Grp} {h : Hdr} {ty : Ty} (t : BitVec 3) (o : Opd) {v : BitVec 8} {n : Nat} {te : Tenant}
    (hg : Runs s g (Opd.top (.v v) ty.bits)) (hG : g.trues h ≠ []) (ht : s.tenantOn g.wp.block g.wp.core = some n)
    (hte : s.tenant? n = some te) :
    ∃ u, exec (.tstv h ty t o v) s = .next u ∧
      (∃ r, WarpResult { s with tenants := u.tenants } u g (groupLane g h (fun _ la => la.step)) r ∧
        { r with pend := g.wp.pend } = { g.wp with ctrTl := g.wp.ctrTl + 1 }) ∧
      (∀ k, k ≠ n → u.tenant? k = s.tenant? k) ∧ u.tenant? n = some (tileRowsPut s g h ty t (moveOff o) v te) := by
  have htenant := State.tenant?_modTenant (s.passFalse g h) n (f := tileRowsPut s g h ty t (moveOff o) v)
  refine ⟨_, exec_tstv t o hg hG ht, moved_of_lanes (trues_nodup_of_grp hg.grp h) (lanesResult_modTenant hg.grp h n _) [],
    fun k hk => (htenant k).trans (if_neg hk), (htenant n).trans ((if_pos rfl).trans ?_)⟩
  exact congrArg (Option.map _) hte

/-- What `tldv` makes of a lane that it moves to. -/
def tileRowGet (ty : Ty) (v : BitVec 8) (t : BitVec 3) (at_ : Nat) (te : Tenant) (l : Nat) (la : Lane) : Lane :=
  la.setRegs v.toNat ty.bits (lineGet (mapGetD te.tiles (32 * t.toNat + l) 0) at_ (ty.bits / 8))

/-- `tldv` changes lanes, each from its row. -/
theorem exec_tldv {s : State} {g : Grp} {h : Hdr} {ty : Ty} (t : BitVec 3) (o : Opd) {v : BitVec 8} {n : Nat} {te : Tenant}
    (hg : Runs s g (Opd.top (.v v) ty.bits)) (hG : g.trues h ≠ []) (ht : s.tenantOn g.wp.block g.wp.core = some n)
    (hte : s.tenant? n = some te) :
    exec (.tldv h ty v t o) s = .next (((g.trues h).foldl (fun u l => u.modLanes g.w [l] (tileRowGet ty v t (moveOff o) te l))
      (s.passFalse g h)).endMove g h (regRange v.toNat ty.bits)) := by
  have hfold := foldl_lanes' (s.passFalse g h) g.w (tileRowGet ty v t (moveOff o) te)
    (fun u l => match u.tenant? n with
      | none => u
      | some te => u.modLane g.w l (tileRowGet ty v t (moveOff o) te l)) (g.trues h) (fun W l _ => by
        have hte' : State.tenant? { s.passFalse g h with warps := W } n = some te := hte
        rw [hte']
        rfl)
  exact congrArg Host.Outcome.next ((tileMove_runs hg hG ht o _ _).trans
    (congrArg (fun u : State => u.endMove g h (regRange v.toNat ty.bits)) hfold))

/-- What `tldv` leaves. -/
theorem tldv_result {s : State} {g : Grp} {h : Hdr} {ty : Ty} (t : BitVec 3) (o : Opd) {v : BitVec 8} {n : Nat} {te : Tenant}
    (hg : Runs s g (Opd.top (.v v) ty.bits)) (hG : g.trues h ≠ []) (ht : s.tenantOn g.wp.block g.wp.core = some n)
    (hte : s.tenant? n = some te) :
    ∃ u, exec (.tldv h ty v t o) s = .next u ∧ u.tenants = s.tenants ∧
      ∃ r, WarpResult s u g (groupLane g h (fun l la => (tileRowGet ty v t (moveOff o) te l la).step)) r ∧
        { r with pend := g.wp.pend } = { g.wp with ctrTl := g.wp.ctrTl + 1 } := by
  obtain ⟨r, hr, hrest⟩ := moved_of_lanes (trues_nodup_of_grp hg.grp h)
    (lanesResult_foldl h hg.grp (tileRowGet ty v t (moveOff o) te)) (regRange v.toNat ty.bits)
  have htenants := congrArg State.tenants hr.frame.1
  exact ⟨_, exec_tldv t o hg hG ht hte, htenants, r, hr, hrest⟩

/-- Settles O27: `tstv` by the rows that its lanes write, `tldv` by the rows that they read, and both without a tenant. -/
theorem tileMoveResults : Obligations.TileMoveResults := by
  intro h ty t o v s g hg hG at_ moved
  have hat : at_ = moveOff o := by cases o <;> rfl
  refine ⟨fun n te ht hte => ⟨?_, ?_⟩, fun ht i hi => ?_⟩
  · rw [hat]
    exact tstv_result t o hg hG ht hte
  · obtain ⟨u, he, hu, hmoved⟩ := tldv_result t o hg hG ht hte
    refine ⟨u, he, hu, ?_⟩
    show ∃ r, WarpResult { s with tenants := u.tenants } u g _ r ∧ _
    rw [hu, hat]
    exact hmoved
  · rcases List.mem_pair.mp hi with rfl | rfl
    · exact congrArg Host.Outcome.next (tileMove_noTenant hg hG ht o _ _)
    · exact congrArg Host.Outcome.next (tileMove_noTenant hg hG ht o _ _)

end Sys2Proof.Machine
end

section
/-! What the instructions that write memory ask for (R232, R263, R267 to R274). -/

namespace Sys2Proof.Machine

/-! ### Lanes that pass the checks (R263) -/

/-- Where every guard-true lane is clear, the checks perform each access and nothing else. -/
theorem checkLanes_clear {s : State} {g : Grp} {h : Hdr} {m : MAddr} {i : MemI} (hc : Clear (s.passFalse g h) g (g.trues h) m i) :
    (s.passFalse g h).checkLanes g (s.whoOf g) m i (g.trues h) = { traps := [], perform := laneAddrs s g h m, queue := [] } :=
  checkLanes_pass (s.passFalse g h) g (s.whoOf g) m i (g.trues h) hc.pass

/-- The lanes of the accesses are the guard-true lanes. -/
theorem laneAddrs_lanes (s : State) (g : Grp) (h : Hdr) (m : MAddr) : (laneAddrs s g h m).map (·.1) = g.trues h := by
  unfold laneAddrs
  rw [List.map_map]
  exact List.map_id _

theorem laneAddrs_ne_nil (s : State) {g : Grp} {h : Hdr} (hG : g.trues h ≠ []) (m : MAddr) : laneAddrs s g h m ≠ [] := by
  unfold laneAddrs
  simpa using hG

/-- None of them is at a FIFO port. -/
theorem laneAddrs_atPort {s : State} {g : Grp} {h : Hdr} {m : MAddr} {i : MemI} (hc : Clear (s.passFalse g h) g (g.trues h) m i) :
    ∀ e ∈ laneAddrs s g h m, s.atPort (s.whoOf g) e.2 = false := by
  intro e he
  obtain ⟨l, hl, rfl⟩ := List.mem_map.mp he
  exact hc.port l hl

/-- An instruction that ends transactions acts for every guard-true lane where each is clear. -/
theorem outsideTx_of_clear {s : State} {g : Grp} {h : Hdr} {m : MAddr} {i : MemI} (hg : s.grp = some g) (hG : g.trues h ≠ [])
    (hc : Clear (s.passFalse g h) g (g.trues h) m i) (u : State) (f : List Nat → State → State) :
    outsideTx g (g.trues h) u f = f (g.trues h) u :=
  outsideTx_none g (g.trues h) u f hc.tx (pass_lane hg h) hG

/-- No clear lane is in a transaction. -/
theorem inTx_of_clear {s : State} {g : Grp} {h : Hdr} {m : MAddr} {i : MemI} (hg : s.grp = some g)
    (hc : Clear (s.passFalse g h) g (g.trues h) m i) : g.wp.inTx (g.trues h) = [] := by
  unfold Warp.inTx
  rw [List.filter_eq_nil_iff]
  intro l hl
  obtain ⟨la, hla⟩ := pass_lane hg h l hl
  simp [hla, hc.tx l hl la hla]

/-- Where no lane is at a port, all of them advance and none waits. -/
theorem step_portWait_nil {u : State} {p : Who} {ls : List (Nat × Nat)} (hp : ∀ e ∈ ls, u.atPort p e.2 = false) (w group : Nat) :
    (u.stepLanes w ((ls.filter (fun e => !u.atPort p e.2)).map (·.1))).portWait w ((ls.filter (fun e => u.atPort p e.2)).map (·.1)) group =
      u.stepLanes w (ls.map (·.1)) := by
  have hall : ls.filter (fun e => !u.atPort p e.2) = ls := List.filter_eq_self.mpr (fun e he => by rw [hp e he]; rfl)
  have hnone : ls.filter (fun e => u.atPort p e.2) = [] := List.filter_eq_nil_iff.mpr (fun e he => by rw [hp e he]; exact Bool.false_ne_true)
  rw [hall, hnone]
  exact modLanes_nil _ _ _

/-! ### Writes (R267 to R271, R273, R274) -/

/-- What an instruction that writes memory asks for: with a release half its requests wait for the release that has begun, else they
may be sent (R97, R99). -/
def WritesAsked (s u : State) (g : Grp) (h : Hdr) (i : MemI) (kind : Kind) (k : Warp → Warp) (accs : List Acc) : Prop :=
  if kind = .rel ∨ kind = .ar then
    ∃ n f, u.fences = s.fences ++ [(n, f)] ∧ f.warp = g.w ∧ f.lanes = lanesMask (g.trues h) ∧ f.kind = .rel ∧
      f.scope = i.scope ∧ f.spec = false ∧ f.after = .nothing ∧ Issues s u g h i Lane.step k (.fenced n) accs
  else u.fences = s.fences ∧ Issues s u g h i Lane.step k .waiting accs

/-- Stores of lanes that are at no port: the lanes advance, a release half begins, and the requests start. -/
theorem storeLanes_noPort {u : State} {p : Who} {ls : List (Nat × Nat)} (hp : ∀ e ∈ ls, u.atPort p e.2 = false) (hne : ls ≠ [])
    (g : Grp) (i : MemI) (kind : Kind) (data : Nat → Nat) :
    u.storeLanes g p i kind data ls =
      let r := (u.next.stepLanes g.w (ls.map (·.1))).releaseFor g (ls.map (·.1)) kind i.scope
      r.1.startWrites g i u.tick r.2 (mkReqs g p i u.tick false data ls) := by
  unfold State.storeLanes
  dsimp only
  rw [if_neg hne, step_portWait_nil (u := u.next) hp]

/-- `st` of clear lanes. -/
theorem exec_st {s : State} {g : Grp} {h : Hdr} {t : Ty} {kind : Kind} {scope : Scope} {m : MAddr} {d : Opd}
    (hg : Runs s g (max (d.top t.regBits) m.top)) (hG : g.trues h ≠ [])
    (hc : Clear (s.passFalse g h) g (g.trues h) m (stI h t kind scope)) :
    ∃ n, exec (.st h t kind scope m d) s = .next (({ s.passFalse g h with tick := n } : State).storeLanes g (s.whoOf g) (stI h t kind scope)
      kind (fun l => (s.laneRegs g l).src t d) (laneAddrs s g h m)) := by
  obtain ⟨n, hq⟩ := queueLanes_nil (s.passFalse g h) g (s.whoOf g) (stI h t kind scope) (fun l => (s.laneRegs g l).src t d)
  refine ⟨n, ?_⟩
  have hck := checkLanes_clear hc
  have hall : (laneAddrs s g h m).filter (fun e => decide (e.1 ∉ ([] : List Nat))) = laneAddrs s g h m :=
    List.filter_eq_self.mpr (fun _ _ => rfl)
  have hnone : (laneAddrs s g h m).filter (fun e => decide (e.1 ∈ ([] : List Nat))) = [] :=
    List.filter_eq_nil_iff.mpr (fun _ _ => Bool.false_ne_true)
  refine congrArg Host.Outcome.next ((onGroup_runs hg hG _).trans ?_)
  dsimp only
  simp only [outsideTx_of_clear hg.grp hG hc, ite_self, whoOf_pass, hck, inTx_of_clear hg.grp hc, List.append_nil, hall, hnone,
    List.filter_nil, List.map_nil, List.foldl_nil, stepLanes_nil]
  exact congrArg (fun u : State => u.storeLanes g (s.whoOf g) (stI h t kind scope) kind _ (laneAddrs s g h m)) hq

/-- A store of clear lanes asks for one access of each. -/
theorem st_asks {s : State} {g : Grp} {h : Hdr} {t : Ty} {kind : Kind} {scope : Scope} {m : MAddr} {d : Opd}
    (hg : Runs s g (max (d.top t.regBits) m.top)) (hG : g.trues h ≠ [])
    (hc : Clear (s.passFalse g h) g (g.trues h) m (stI h t kind scope)) :
    ∃ u, exec (.st h t kind scope m d) s = .next u ∧
      WritesAsked s u g h (stI h t kind scope) kind (fun wp => { wp with ctrSt := wp.ctrSt + 1 })
        ((g.trues h).map (accOf s g m (stI h t kind scope) (fun l => (s.laneRegs g l).src t d))) := by
  obtain ⟨n, he⟩ := exec_st hg hG hc
  refine ⟨_, he, ?_⟩
  have hport := laneAddrs_atPort hc
  have hstore := storeLanes_noPort (u := { s.passFalse g h with tick := n }) hport (laneAddrs_ne_nil s hG m) g
    (stI h t kind scope) kind (fun l => (s.laneRegs g l).src t d)
  rw [laneAddrs_lanes] at hstore
  exact writes_after hg.grp hG ((Ready.of_modLanes hg.grp Lane.step).tick (n + 1) s.fences) rfl (stI h t kind scope) (s.whoOf g)
    ⟨rfl, rfl⟩ n kind _ m (fun _ => rfl) _ hstore

/-- Atomics, reductions and the future writes of clear lanes ask for one access of each. -/
theorem atomics_ask {s : State} {g : Grp} {h : Hdr} {m : MAddr} {i : Instr} {top : Nat} {q : MemI} {kind : Kind}
    {data : State → Grp → Nat → Nat} {k : Warp → Warp}
    (hi : exec i s = .next (onGroup h top s (fun g G s => outsideTx g G s (fun G s => s.atomLanes g (s.whoOf g) m q kind (data s g) G))))
    (hdata : ∀ g, data (s.passFalse g h) g = data s g) (hk : ∀ wp, k wp = wp.count q.kind true)
    (hg : Runs s g top) (hG : g.trues h ≠ []) (hc : Clear (s.passFalse g h) g (g.trues h) m q) :
    ∃ u, exec i s = .next u ∧ WritesAsked s u g h q kind k ((g.trues h).map (accOf s g m q (data s g))) := by
  refine ⟨_, hi, ?_⟩
  rw [onGroup_runs hg hG, outsideTx_of_clear hg.grp hG hc, hdata]
  exact atomLanes_pass hg.grp hG m q kind (data s g) hc hk

/-- An atomic counts in ld where it returns a value, else in st (R232). -/
theorem count_atom (op : Aop) (t : Ty) (a : Dst) (wp : Warp) :
    (if a ≠ .none then (fun wp : Warp => { wp with ctrLd := wp.ctrLd + 1 }) else fun wp => { wp with ctrSt := wp.ctrSt + 1 }) wp =
      wp.count (.atom op t (a ≠ .none)) true := by
  cases a <;> rfl

/-- Settles O16: `st` by its lanes that are at no port, the others by what atomics of clear lanes ask for. -/
theorem memoryWritesAreAsked : Obligations.MemoryWritesAreAsked := by
  intro h op t kind scope a m d pd s asks src upSt upLd
  refine ⟨fun _ hg hG hc => st_asks hg hG hc, fun _ hg hG hc => ?_, fun _ hg hG hc => ?_, fun _ hg hG hc => ?_, fun _ hg hG hc => ?_⟩
  · exact atomics_ask (i := .atom h op t kind scope a m d) (data := fun s g l => (s.laneRegs g l).src t d) rfl (fun _ => rfl)
      (count_atom op t a) hg hG hc
  · exact atomics_ask (i := .red h op t kind scope m d) (data := fun s g l => (s.laneRegs g l).src t d) rfl (fun _ => rfl)
      (fun _ => rfl) hg hG hc
  · exact atomics_ask (i := .fset h pd m d) (data := fun s g l => (s.laneRegs g l).src64 d) rfl (fun _ => rfl) (fun _ => rfl) hg hG hc
  · exact atomics_ask (i := .fclr h m) (data := fun _ _ _ => 0) rfl (fun _ => rfl) (fun _ => rfl) hg hG hc

end Sys2Proof.Machine
end

section
/-! What the instructions that read memory ask for (R58, R62, R80, R266, R272, R276). -/

namespace Sys2Proof.Machine

/-! ### Loads (R266) -/

/-- A clear lane of a group that has advanced is in no transaction. -/
theorem laneTx_of_ready {s u : State} {g : Grp} {h : Hdr} (hg : s.grp = some g) (hr : Ready s u g h Lane.step)
    (htx : ∀ l ∈ g.trues h, ∀ la, g.wp.lane? l = some la → la.tx = none) {l : Nat} (hl : l ∈ g.trues h) : u.laneTx g.w l = none := by
  obtain ⟨la, hla⟩ := pass_lane hg h l hl
  have hlane : s.lane? g.w l = some la := by
    unfold State.lane?
    rw [State.warp?_of_grp hg]
    exact hla
  unfold State.laneTx
  rw [hr.lanes, hlane]
  have hstep : groupLane g h (fun _ => Lane.step) l la = la.step := if_pos hl
  rw [Option.map_some, hstep]
  exact htx l hl la hla

/-- The request of a uniform load: that of its lowest lane, for all of them (R58). -/
def uniReq (g : Grp) (p : Who) (i : MemI) (group : Nat) (l a : Nat) (G : List Nat) : Req :=
  mkReq g p i group (lanesMask G) false (mkAccs i.bytes (fun _ => 0) [(l, a)])

/-- A uniform load of lanes that are in no transaction makes that one request. -/
theorem uniLoad_noTx {u : State} {g : Grp} {ls : List (Nat × Nat)} {l a : Nat} {rest : List (Nat × Nat)} (hls : ls = (l, a) :: rest)
    (htx : ∀ e ∈ ls, u.laneTx g.w e.1 = none) (p : Who) (i : MemI) (group : Nat) :
    u.uniLoad g p i group ls = (u, [uniReq g p i group l a (ls.map (·.1))]) := by
  have hfst : ∀ k ∈ ls.map (·.1), u.laneTx g.w k = none := fun k hk => by
    obtain ⟨e, he, rfl⟩ := List.mem_map.mp hk
    exact htx e he
  have hfull : (ls.map (·.1)).filter (fun k => (u.laneTx g.w k).any (fun t => t.readsFull a i.bytes)) = [] :=
    List.filter_eq_nil_iff.mpr (fun k hk => by rw [hfst k hk]; exact Bool.false_ne_true)
  have hrest : (ls.map (·.1)).filter (fun k => decide (k ∉ ([] : List Nat))) = ls.map (·.1) := List.filter_eq_self.mpr (fun _ _ => rfl)
  have hany : (ls.map (·.1)).any (fun k => (u.laneTx g.w k).isSome) = false :=
    List.any_eq_false.mpr (fun k hk => by rw [hfst k hk]; exact Bool.false_ne_true)
  have hl : u.laneTx g.w l = none := hfst l (by rw [hls]; exact List.mem_cons_self)
  subst hls
  unfold State.uniLoad
  dsimp only
  rw [hfull, hrest, abort_nil]
  rw [List.map_cons] at hany ⊢
  dsimp only
  rw [List.all_cons, hl, hany]
  rfl

/-- The loads of lanes that are at no port and in no transaction, with a vector destination … -/
theorem loadLanes_vector {u : State} {g : Grp} {p : Who} {ls : List (Nat × Nat)} {i : MemI} {v : BitVec 8} (hi : i.dst = .v v)
    (hp : ∀ e ∈ ls, u.atPort p e.2 = false) (htx : ∀ e ∈ ls, (u.next.stepLanes g.w (ls.map (·.1))).laneTx g.w e.1 = none) :
    u.loadLanes g p i ls = (u.next.stepLanes g.w (ls.map (·.1))).startLoads g i u.tick (mkReqs g p i u.tick false (fun _ => 0) ls) := by
  have hout : ls.filter (fun e => ((u.next.stepLanes g.w (ls.map (·.1))).laneTx g.w e.1).isNone) = ls :=
    List.filter_eq_self.mpr (fun e he => by rw [htx e he]; rfl)
  have hin : ls.filter (fun e => ((u.next.stepLanes g.w (ls.map (·.1))).laneTx g.w e.1).isSome) = [] :=
    List.filter_eq_nil_iff.mpr (fun e he => by rw [htx e he]; exact Bool.false_ne_true)
  have hnone : mkReqs g p i u.tick true (fun _ => 0) [] = [] := by
    unfold mkReqs mkAccs groupAccs
    rfl
  unfold State.loadLanes
  dsimp only
  rw [step_portWait_nil (u := u.next) hp, hi]
  dsimp only
  rw [hout, hin]
  unfold State.txLoads
  dsimp only
  rw [hnone, List.nil_append]

/-- … with a uniform destination. -/
theorem loadLanes_uniform {u : State} {g : Grp} {p : Who} {ls : List (Nat × Nat)} {l a : Nat} {rest : List (Nat × Nat)} {i : MemI}
    {x : BitVec 7} (hls : ls = (l, a) :: rest) (hi : i.dst = .s x) (hp : ∀ e ∈ ls, u.atPort p e.2 = false)
    (htx : ∀ e ∈ ls, (u.next.stepLanes g.w (ls.map (·.1))).laneTx g.w e.1 = none) :
    u.loadLanes g p i ls =
      (u.next.stepLanes g.w (ls.map (·.1))).startLoads g i u.tick [uniReq g p i u.tick l a (ls.map (·.1))] := by
  unfold State.loadLanes
  dsimp only
  rw [step_portWait_nil (u := u.next) hp, hi]
  dsimp only
  rw [uniLoad_noTx hls htx]

/-- `ld` of clear lanes ahead of no speculative fence. -/
theorem exec_ld {s : State} {g : Grp} {h : Hdr} {t : Ty} {kind : Kind} {scope : Scope} {a : Dst} {m : MAddr}
    (hg : Runs s g (max (a.top t.regBits) m.top)) (hG : g.trues h ≠ []) (hcalm : s.specFence g.w (lanesMask g.lanes) = none)
    (hc : Clear (s.passFalse g h) g (g.trues h) m (ldI h t scope a)) :
    exec (.ld h t kind scope a m) s =
      .next (((s.passFalse g h).loadLanes g (s.whoOf g) (ldI h t scope a) (laneAddrs s g h m)).acquireFor g (g.trues h) kind s.tick) := by
  have hck := checkLanes_clear hc
  have hdemand : (s.whoOf g).demand = true := by
    unfold State.whoOf
    rw [hcalm]
    rfl
  refine congrArg Host.Outcome.next ((onGroup_runs hg hG _).trans ?_)
  dsimp only
  simp only [outsideTx_of_clear hg.grp hG hc, ite_self, whoOf_pass, hck, hdemand, Bool.not_true, Bool.false_and, Bool.false_eq_true,
    if_false, laneAddrs_lanes]
  rfl

/-- An acquire leaves the requests. -/
theorem acquireFor_reqs (u : State) (g : Grp) (G : List Nat) (kind : Kind) (group : Nat) : (u.acquireFor g G kind group).reqs = u.reqs := by
  unfold State.acquireFor
  cases kind with
  | none => rfl
  | rel => rfl
  | acq => dsimp only; split <;> rfl
  | ar => dsimp only; split <;> rfl

/-- The lanes of a group are advanced, its number drawn. -/
theorem ready_load {s : State} {g : Grp} (hg : s.grp = some g) (h : Hdr) (m : MAddr) :
    Ready s ((s.passFalse g h).next.stepLanes g.w ((laneAddrs s g h m).map (·.1))) g h Lane.step := by
  rw [laneAddrs_lanes]
  exact (Ready.of_modLanes hg Lane.step).tick (s.tick + 1) s.fences

/-- … and none is in a transaction. -/
theorem laneAddrs_laneTx {s : State} {g : Grp} {h : Hdr} {m : MAddr} {i : MemI} (hg : s.grp = some g)
    (hc : Clear (s.passFalse g h) g (g.trues h) m i) :
    ∀ e ∈ laneAddrs s g h m, ((s.passFalse g h).next.stepLanes g.w ((laneAddrs s g h m).map (·.1))).laneTx g.w e.1 = none := by
  intro e he
  obtain ⟨l, hl, rfl⟩ := List.mem_map.mp he
  exact laneTx_of_ready hg (ready_load hg h m) hc.tx hl

/-- Each lane stands in a request of its access. -/
theorem mkReqs_lanes (g : Grp) (p : Who) (i : MemI) (group : Nat) (data addr : Nat → Nat) {G : List Nat} {l : Nat} (hl : l ∈ G)
    (hl32 : l < 32) : ∃ q ∈ mkReqs g p i group false data (G.map (fun l => (l, addr l))), q.lanes.getLsbD l = true := by
  obtain ⟨hall, hmk, -, -⟩ := mkReqs_spec g p i group false data addr G
  have hacc : l ∈ (mkAccs i.bytes data (G.map (fun l => (l, addr l)))).map (fun a => a.lane) := by
    rw [mkAccs_map, List.map_map]
    exact List.mem_map.mpr ⟨l, hl, rfl⟩
  rw [← (hall.map _).mem_iff] at hacc
  obtain ⟨a, ha, hal⟩ := List.mem_map.mp hacc
  obtain ⟨q, hq, haq⟩ := List.mem_flatMap.mp ha
  refine ⟨q, hq, ?_⟩
  obtain ⟨accs, rfl, -, -⟩ := hmk q hq
  show (lanesMask (accs.map (·.lane))).getLsbD l = true
  rw [lanesMask_bit _ _ hl32]
  exact decide_eq_true (List.mem_map.mpr ⟨a, haq, hal⟩)

/-- The counter of a load goes up (R232). -/
def Warp.upLd (wp : Warp) : Warp := { wp with ctrLd := wp.ctrLd + 1 }

/-- A vector load of clear lanes asks for one access of each. -/
theorem ld_vector {s : State} {g : Grp} {h : Hdr} {t : Ty} {kind : Kind} {scope : Scope} {v : BitVec 8} {m : MAddr}
    (hg : Runs s g (max (Opd.top (.v v) t.regBits) m.top)) (hG : g.trues h ≠ []) (hcalm : s.specFence g.w (lanesMask g.lanes) = none)
    (hc : Clear (s.passFalse g h) g (g.trues h) m (ldI h t scope (.v v))) :
    ∃ u, exec (.ld h t kind scope (.v v) m) s = .next u ∧ u.fences = s.fences ∧
      Issues s u g h (ldI h t scope (.v v)) Lane.step Warp.upLd .waiting
        ((g.trues h).map (accOf s g m (ldI h t scope (.v v)) (fun _ => 0))) := by
  obtain ⟨-, -, -, hmem⟩ := State.grp_spec hg.grp
  have hport := laneAddrs_atPort hc
  have hload := loadLanes_vector (u := s.passFalse g h) (i := ldI h t scope (.v v)) rfl hport (laneAddrs_laneTx hg.grp hc)
  obtain ⟨hall, hmk, -, hlines⟩ := mkReqs_spec g (s.whoOf g) (ldI h t scope (.v v)) s.tick false (fun _ => 0)
    (fun l => va57 ((s.laneRegs g l).addr m)) (g.trues h)
  rw [accOf_eq] at hall
  obtain ⟨hissues, hfences, -⟩ := loads_issue (k := Warp.upLd) hG (ready_load hg.grp h m) (ldI h t scope (.v v)) s.tick _ hall
    (mkReqs_each ⟨rfl, rfl⟩ _ _ _ _) (fun hal => by cases hal) hlines
    (fun q hq => by obtain ⟨accs, rfl, -, -⟩ := hmk q hq; rfl)
    (fun l hl => ⟨(hmem l (Grp.mem_trues hl)).1, mkReqs_lanes _ _ _ _ _ _ hl (hmem l (Grp.mem_trues hl)).1⟩) (fun _ => rfl)
  obtain ⟨hi, hf⟩ := hissues.acquireFor (g.trues h) kind s.tick
  refine ⟨_, (exec_ld hg hG hcalm hc).trans ?_, hf.trans hfences, hi⟩
  exact congrArg (fun u : State => Host.Outcome.next (u.acquireFor g (g.trues h) kind s.tick)) hload

/-- Every lane of a uniform load stands in its request. -/
theorem uniReq_lanes (g : Grp) (p : Who) (i : MemI) (group l a : Nat) {G : List Nat} (hG : lanesMask G ≠ 0) :
    (uniReq g p i group l a G).lanes = lanesMask G := if_neg hG

/-- Requests that are added keep the lanes that they answer together. -/
theorem addReqs_uni {s s1 : State} (hreqs : s1.reqs = s.reqs) {qs : List Req} {M : Mask} (hq : ∀ q ∈ qs, q.uni = M) :
    ∀ e ∈ (s1.addReqs qs).reqs.drop s.reqs.length, e.2.uni = M := by
  obtain ⟨xs, hx, hmap⟩ := addReqs_spec s1 qs
  have hdrop : (s1.addReqs qs).reqs.drop s.reqs.length = xs := by
    rw [hx, ← hreqs]
    exact List.drop_left
  intro e he
  have hmem : e.2 ∈ xs.map (·.2) := List.mem_map_of_mem (hdrop ▸ he)
  rw [hmap] at hmem
  obtain ⟨q, hqs, he2⟩ := List.mem_map.mp hmem
  rw [← he2]
  exact hq q hqs

/-- Before an instruction asks, the requests are the older ones. -/
theorem Ready.reqs {s s1 : State} {g : Grp} {h : Hdr} {f : Lane → Lane} (hr : Ready s s1 g h f) : s1.reqs = s.reqs := by
  rw [hr.frame]

/-- The request of a uniform load issues for its group. -/
theorem uniReq_issues {s s1 : State} {g : Grp} {h : Hdr} (hg : s.grp = some g) (hG : g.trues h ≠ []) (hr : Ready s s1 g h Lane.step)
    {i : MemI} (halone : i.kind.alone = false) (group l a : Nat) {k : Warp → Warp} (hk : ∀ wp, k wp = wp.count i.kind true) :
    let u := s1.startLoads g i group [uniReq g (s.whoOf g) i group l a (g.trues h)]
    Issues s u g h i Lane.step k .waiting (mkAccs i.bytes (fun _ => 0) [(l, a)]) ∧ u.fences = s1.fences ∧
      u.reqs = (s1.addReqs [uniReq g (s.whoOf g) i group l a (g.trues h)]).reqs := by
  obtain ⟨-, -, -, hlanes⟩ := State.grp_spec hg
  refine loads_issue hG hr i group _ (.refl _) (fun q hq => ?_) (fun hal => ?_) (fun _ => List.nodup_singleton _) (fun q hq => ?_)
    (fun n hn => ⟨(hlanes n (Grp.mem_trues hn)).1, _, List.mem_singleton_self _, ?_⟩) hk
  · obtain rfl := List.mem_singleton.mp hq
    refine ⟨rfl, rfl, rfl, rfl, rfl, rfl, rfl, rfl, List.cons_ne_nil _ _, fun b hb => ?_⟩
    obtain rfl := List.mem_singleton.mp hb
    exact ⟨rfl, rfl⟩
  · rw [halone] at hal
    cases hal
  · obtain rfl := List.mem_singleton.mp hq
    rfl
  · rw [uniReq_lanes _ _ _ _ _ _ (trues_mask_ne_zero hg hG), lanesMask_bit _ _ (hlanes n (Grp.mem_trues hn)).1]
    exact decide_eq_true hn

/-- A uniform load of clear lanes asks for one access, that of the lowest, for all of them. -/
theorem ld_uniform {s : State} {g : Grp} {h : Hdr} {t : Ty} {kind : Kind} {scope : Scope} {x : BitVec 7} {m : MAddr} {l : Nat}
    {rest : List Nat} (hg : Runs s g m.top) (hl : g.trues h = l :: rest) (hcalm : s.specFence g.w (lanesMask g.lanes) = none)
    (hc : Clear (s.passFalse g h) g (g.trues h) m (ldI h t scope (.s x))) :
    ∃ u, exec (.ld h t kind scope (.s x) m) s = .next u ∧ u.fences = s.fences ∧
      Issues s u g h (ldI h t scope (.s x)) Lane.step Warp.upLd .waiting [accOf s g m (ldI h t scope (.s x)) (fun _ => 0) l] ∧
      ∀ e ∈ u.reqs.drop s.reqs.length, e.2.uni = lanesMask (g.trues h) := by
  have hG : g.trues h ≠ [] := by rw [hl]; exact List.cons_ne_nil _ _
  have hregs : Runs s g (max (Dst.top (.s x) t.regBits) m.top) := ⟨hg.grp, (Nat.zero_max _).le.trans hg.regs⟩
  have hls : laneAddrs s g h m = (l, va57 ((s.laneRegs g l).addr m)) :: rest.map (fun l => (l, va57 ((s.laneRegs g l).addr m))) := by
    unfold laneAddrs
    rw [hl, List.map_cons]
  have hport := laneAddrs_atPort hc
  have hready := ready_load hg.grp h m
  have hload := loadLanes_uniform (u := s.passFalse g h) (i := ldI h t scope (.s x)) hls rfl hport (laneAddrs_laneTx hg.grp hc)
  rw [laneAddrs_lanes] at hready hload
  obtain ⟨hissues, hfences, hreqs⟩ := uniReq_issues (i := ldI h t scope (.s x)) (k := Warp.upLd) hg.grp hG hready rfl s.tick l
    (va57 ((s.laneRegs g l).addr m)) (fun _ => rfl)
  obtain ⟨hi, hf⟩ := hissues.acquireFor (g.trues h) kind s.tick
  refine ⟨_, (exec_ld hregs hG hcalm hc).trans ?_, hf.trans hfences, hi, ?_⟩
  · exact congrArg (fun u : State => Host.Outcome.next (u.acquireFor g (g.trues h) kind s.tick)) hload
  · rw [acquireFor_reqs, hreqs]
    refine addReqs_uni hready.reqs (fun q hq => ?_)
    obtain rfl := List.mem_singleton.mp hq
    rfl

/-! ### Waits (R80, R272, R276) -/

/-- A read whose lanes wait asks for one access of each. -/
theorem waits_ask {s : State} {g : Grp} {h : Hdr} {m : MAddr} {i : Instr} {top : Nat} {q : MemI} {data : State → Grp → Nat → Nat}
    (hi : exec i s = .next (onGroup h top s (fun g G s => outsideTx g G s (fun G s => s.waitLanes g m q (data s g) G))))
    (hdata : ∀ g, data (s.passFalse g h) g = data s g) (hk : ∀ wp : Warp, wp.upLd = wp.count q.kind true)
    (hg : Runs s g top) (hG : g.trues h ≠ []) (hc : Clear (s.passFalse g h) g (g.trues h) m q) :
    ∃ u n, exec i s = .next u ∧ Issues s u g h q (fun la => { la with st := .memWait n }) Warp.upLd .waiting
      ((g.trues h).map (accOf s g m q (data s g))) ∧ u.fences = s.fences := by
  obtain ⟨n, hissues, hfences⟩ := waits_issue hg.grp hG m q (data s g) hc hk
  refine ⟨_, n, hi.trans ?_, hissues, hfences⟩
  rw [onGroup_runs hg hG, outsideTx_of_clear hg.grp hG hc, hdata]

/-- Settles O17: `ld` by its destination, `fld` and `waiton` by what waits of clear lanes ask for. -/
theorem memoryReadsAreAsked : Obligations.MemoryReadsAreAsked := by
  intro h t kind scope cond v x a m d pd s upLd ldOf calm waits
  refine ⟨fun g hg hG hcalm hc => ld_vector hg hG hcalm hc, fun g l rest hg hl hcalm hc => ld_uniform hg hl hcalm hc,
    fun g hg hG hc => ?_, fun g hg hG hc => ?_⟩
  · exact waits_ask (i := .fld h v pd m) (data := fun _ _ _ => 0) rfl (fun _ => rfl) (fun _ => rfl) hg hG hc
  · exact waits_ask (i := .waiton h cond t a m d) (data := fun s g l => (s.laneRegs g l).src t d) rfl (fun _ => rfl) (fun _ => rfl) hg hG hc

end Sys2Proof.Machine
end

section
/-! O20. Transactions begin, abort and hand over to a commit for the guard-true lanes of a group (R82 to R84, R278, R279). -/

namespace Sys2Proof.Machine

section
variable {s : State} {g : Grp} {h : Hdr} (hg : Runs s g 0) (hG : g.trues h ≠ [])
include hg hG

/-! ### Lanes outside a transaction -/

section
variable (hx : ∀ l ∈ g.trues h, ∀ la, s.lane? g.w l = some la → la.tx = none)
include hx

/-- txb begins a transaction in each lane, which goes on to the next word. -/
theorem txb_begins (off : Word) : ∃ t, exec (.txb h off) s = .next t ∧ LanesResult s t g (groupLane g h (fun _ la =>
    { la.step with tx := some { fallback := target g.pc off, reads := [], writes := [] } })) := by
  obtain ⟨outside, inside⟩ := notTx_all hg.grp hx
  refine ⟨_, rfl, ?_⟩
  rw [onGroup_runs hg hG, inside, outside, illop_nil]
  unfold State.stepLanes
  rw [State.modLanes_modLanes _ _ _ (trues_nodup_of_grp hg.grp h)]
  exact lanesResult_modLanes h hg.grp _

/-- txa traps. -/
theorem txa_outside (code : BitVec 8) : exec (.txa h code) s = .next ((s.passFalse g h).illopLanes g (g.trues h) 0x0B) := by
  obtain ⟨outside, inside⟩ := notTx_all hg.grp hx
  show execTxa h code s = _
  unfold execTxa
  rw [onGroup_runs hg hG, inside, outside, abort_nil]

/-- txe traps. -/
theorem txe_outside : exec (.txe h) s = .next ((s.passFalse g h).illopLanes g (g.trues h) 0x0B) := by
  obtain ⟨outside, inside⟩ := notTx_all hg.grp hx
  show execTxe h s = _
  unfold execTxe
  rw [onGroup_runs hg hG, inside, outside]
  exact congrArg Host.Outcome.next (if_pos rfl)

end

/-! ### Lanes in a transaction -/

section
variable (hx : ∀ l ∈ g.trues h, ∀ la, s.lane? g.w l = some la → la.tx ≠ none)
include hx

/-- txb traps. -/
theorem txb_inside (off : Word) : exec (.txb h off) s = .next ((s.passFalse g h).illopLanes g (g.trues h) 0x0B) := by
  obtain ⟨inside, outside⟩ := inTx_all hg.grp hx
  show execTxb h off s = _
  unfold execTxb
  rw [onGroup_runs hg hG, inside, outside]
  refine congrArg Host.Outcome.next ?_
  dsimp only
  rw [stepLanes_nil, modLanes_nil]

/-- txa sends each lane to its fallback. -/
theorem txa_aborts (code : BitVec 8) : ∃ t, exec (.txa h code) s = .next t ∧
    LanesResult s t g (groupLane g h (fun _ la => la.abort 0x07 code.toNat)) := by
  obtain ⟨inside, outside⟩ := inTx_all hg.grp hx
  refine ⟨_, rfl, ?_⟩
  rw [onGroup_runs hg hG, inside, outside, illop_nil]
  exact lanesResult_modLanes h hg.grp _

/-- txe enters a commit that holds the lanes at their word. -/
theorem txe_holds : ∃ t, exec (.txe h) s = .next t ∧
    t.commits = s.commits ++ [(mapFresh s.commits, { warp := g.w, lanes := g.trues h, installed := false, until_ := 0 })] ∧
    LanesResult { s with commits := t.commits } t g (groupLane g h (fun _ la => { la with hold := .commit (mapFresh s.commits) })) := by
  obtain ⟨inside, outside⟩ := inTx_all hg.grp hx
  have held := lanesResult_modLanes h hg.grp (fun la => { la with hold := .commit (mapFresh s.commits) })
  refine ⟨{ (s.passFalse g h).modLanes g.w (g.trues h) (fun la => { la with hold := .commit (mapFresh s.commits) }) with
    commits := s.commits ++ [(mapFresh s.commits, { warp := g.w, lanes := g.trues h, installed := false, until_ := 0 })] }, ?_, rfl,
    held.besides (fun u => { u with commits := s.commits ++
      [(mapFresh s.commits, { warp := g.w, lanes := g.trues h, installed := false, until_ := 0 })] }) (fun _ _ => rfl)⟩
  show execTxe h s = _
  unfold execTxe
  rw [onGroup_runs hg hG, inside, outside, illop_nil]
  exact congrArg Host.Outcome.next (if_neg hG)

end
end

/-- Settles O20: the lanes of a group are all outside a transaction or all in one, and each of txb, txa and txe acts or traps. -/
theorem transactionResults : Obligations.TransactionResults := by
  unfold Obligations.TransactionResults
  intro h off code s g hg hG
  refine ⟨fun hx => ⟨txb_begins hg hG hx off, txa_outside hg hG hx code, txe_outside hg hG hx⟩,
    fun hx => ⟨?_, txe_holds hg hG hx, txb_inside hg hG hx off⟩⟩
  obtain ⟨t, ht, hr⟩ := txa_aborts hg hG hx code
  refine ⟨t, ht, hr.congr (fun l la _ => ?_)⟩
  unfold groupLane Lane.abort
  cases la.tx <;> rfl

end Sys2Proof.Machine
end

section
/-! O22. Tag instructions of a group: arming, clearing, waiting and finding the first ready tag (R72 to R74, R98, R287 to R289). -/

namespace Sys2Proof.Machine

/-! ### How a wait on a mask stands -/

section
variable {tag : Nat → Tag} {all : Bool} {m : DWord}

/-- A wait for all tags passes when each is ready and none failed, one for any when a ready one did not fail. -/
theorem tagWaitOf_passes (hp : if all then ∀ n, n < 64 ∧ m.getLsbD n = true → (tag n).ready = true ∧ (tag n).failed = none
    else ∃ n, (n < 64 ∧ m.getLsbD n = true) ∧ (tag n).ready = true ∧ (tag n).failed = none) : tagWaitOf tag all m = .passes := by
  cases all with
  | true => exact (tagWaitOf_all tag m).1 hp
  | false => exact (tagWaitOf_any tag m).1 hp

/-- A wait for all tags goes on while one is not ready, one for any while none is. -/
theorem tagWaitOf_waits (hw : if all then ∃ n, (n < 64 ∧ m.getLsbD n = true) ∧ ¬ (tag n).ready = true
    else ∀ n, n < 64 ∧ m.getLsbD n = true → ¬ (tag n).ready = true) : tagWaitOf tag all m = .waits := by
  cases all with
  | true => exact (tagWaitOf_all tag m).2.1 hw
  | false => exact (tagWaitOf_any tag m).2.1 hw

/-- Else it completes through a failed tag of the mask. -/
theorem tagWaitOf_fails (hf : if all then (∀ n, n < 64 ∧ m.getLsbD n = true → (tag n).ready = true) ∧
      ∃ n, (n < 64 ∧ m.getLsbD n = true) ∧ ¬ (tag n).failed = none
    else (∃ n, (n < 64 ∧ m.getLsbD n = true) ∧ (tag n).ready = true) ∧
      ∀ n, n < 64 ∧ m.getLsbD n = true → (tag n).ready = true → ¬ (tag n).failed = none) :
    ∃ n a e, (n < 64 ∧ m.getLsbD n = true) ∧ (tag n).ready = true ∧ (tag n).failed = some (a, e) ∧ tagWaitOf tag all m = .fails a e := by
  cases all with
  | true => exact (tagWaitOf_all tag m).2.2 hf
  | false => exact (tagWaitOf_any tag m).2.2 hf

end

/-- A mask that names a tag at or beyond the count is not below it. -/
theorem maskBelow_eq_false {m : DWord} {t : Nat} (hb : ¬ ∀ n, n < 64 ∧ m.getLsbD n = true → n < t) : maskBelow m t = false :=
  Bool.eq_false_iff.2 (fun h => hb ((maskBelow_iff m t).1 h))

/-- The tags of a mask, from the range of their numbers. -/
theorem maskTags_eq (m : DWord) : maskTags m = (List.range 64).filter (fun n => m.getLsbD n) := by
  rw [maskTags, upTo_eq]

/-- The lowest ready tag has not failed where no ready tag of the mask has. -/
theorem lowestSet_clean {tag : Nat → Tag} {m : DWord} {n : Nat}
    (hc : ∀ j, j < 64 ∧ m.getLsbD j = true → (tag j).ready = true → (tag j).failed = none)
    (hn : ((n < 64 ∧ m.getLsbD n = true) ∧ (tag n).ready = true ∧ ∀ j, j < 64 ∧ m.getLsbD j = true → (tag j).ready = true → n ≤ j) ∨
      (n = 64 ∧ ∀ j, j < 64 ∧ m.getLsbD j = true → ¬ (tag j).ready = true)) :
    (if n < 64 then (tag n).failed else none) = none := by
  rcases hn with ⟨hm, hr, -⟩ | ⟨rfl, -⟩
  · rw [if_pos hm.1]
    exact hc n hm hr
  · exact if_neg (Nat.lt_irrefl 64)

/-! ### The group acts once -/

/-- What a wait of a group leaves by how it stands. -/
def State.tagWaitDone (s : State) (g : Grp) (G : List Nat) (all : Bool) (m : DWord) : TagWait → State
  | .waits => s.modLanes g.w G (fun la => { la with st := .tagWait all m })
  | .passes => s.stepLanes g.w G
  | .fails a e => (s.hear g.wp.block g.wp.rank m).trapLanes g.w G (tagTrap g.pc a e)

/-- What a warp holds once some lanes have begun an acquire. -/
def Warp.acquired (wp : Warp) (s : State) (w : Nat) (m : Mask) : Warp :=
  { wp with acquire := wp.acquire ++ (s.openLoads w m).map (fun y => (m, y)) }

/-- A tag instruction of a group acts for its guard-true lanes with what the lowest of them reads. -/
theorem onTags_group {s : State} {g : Grp} {h : Hdr} {top l : Nat} {rest : List Nat} (hg : Runs s g top) (hl : g.trues h = l :: rest)
    (lanes : Grp → List Nat → Regs → State → State) (seq : Nat → Tenant → Regs → State → State) :
    onTags h top s lanes seq = lanes g (g.trues h) (s.laneRegs g l) (s.passFalse g h) := by
  unfold onTags
  rw [State.seq_of_grp hg.grp]
  refine (onGroup_runs hg (by rw [hl]; exact List.cons_ne_nil _ _) _).trans ?_
  rw [hl]
  rfl

section
variable {s : State} {g : Grp} {h : Hdr} {l : Nat} {rest : List Nat} (hg : s.grp = some g) (hl : g.trues h = l :: rest)
  (tag : TagOpd) (count mask : Opd) (all : Bool)
include hg hl

/-- tagarm arms a tag below the count. -/
theorem exec_tagarm : exec (.tagarm h tag count) s = .next (if s.tagsOf g.wp.block ≤ (s.laneRegs g l).tagOf tag then
      (s.passFalse g h).illopLanes g (g.trues h) 0x0B
    else ((s.passFalse g h).armTag g.wp.block g.wp.rank ((s.laneRegs g l).tagOf tag) ((s.laneRegs g l).src32 count)).stepLanes g.w
      (g.trues h)) :=
  congrArg Host.Outcome.next (onTags_group (runs_zero hg) hl _ _)

/-- tagclr clears the tags of a mask below the count. -/
theorem exec_tagclr : exec (.tagclr h mask) s = .next
    (if !maskBelow (BitVec.ofNat 64 ((s.laneRegs g l).src64 mask)) (s.tagsOf g.wp.block) then (s.passFalse g h).illopLanes g (g.trues h) 0x0B
    else ((maskTags (BitVec.ofNat 64 ((s.laneRegs g l).src64 mask))).foldl (fun s n => s.setTag g.wp.block g.wp.rank n Tag.zero)
      (s.passFalse g h)).stepLanes g.w (g.trues h)) :=
  congrArg Host.Outcome.next (onTags_group (runs_zero hg) hl _ _)

/-- tagwt begins an acquire and waits, passes or fails. -/
theorem exec_tagwt (hb : maskBelow (BitVec.ofNat 64 ((s.laneRegs g l).src64 mask)) (s.tagsOf g.wp.block) = true)
    (hm : all = false → BitVec.ofNat 64 ((s.laneRegs g l).src64 mask) ≠ 0) :
    exec (.tagwt h all mask) s = .next (((s.passFalse g h).acquire g.w (lanesMask (g.trues h))).tagWaitDone g (g.trues h) all
      (BitVec.ofNat 64 ((s.laneRegs g l).src64 mask))
      (tagWaitOf (s.tag g.wp.block g.wp.rank) all (BitVec.ofNat 64 ((s.laneRegs g l).src64 mask)))) := by
  refine congrArg Host.Outcome.next ((onTags_group (runs_zero hg) hl _ _).trans ((if_neg ?_).trans ?_))
  · have hb' : maskBelow (BitVec.ofNat 64 ((s.laneRegs g l).src64 mask)) ((s.passFalse g h).tagsOf g.wp.block) = true := hb
    rw [hb']
    cases all with
    | true => simp
    | false => simpa using hm rfl
  · unfold State.tagWaitDone
    rfl

/-- tagwt of an illegal mask traps. -/
theorem tagwt_illegal (hb : maskBelow (BitVec.ofNat 64 ((s.laneRegs g l).src64 mask)) (s.tagsOf g.wp.block) = false ∨
    (all = false ∧ BitVec.ofNat 64 ((s.laneRegs g l).src64 mask) = 0)) :
    exec (.tagwt h all mask) s = .next ((s.passFalse g h).illopLanes g (g.trues h) 0x0B) := by
  refine congrArg Host.Outcome.next ((onTags_group (runs_zero hg) hl _ _).trans (if_pos ?_))
  rcases hb with hb | ⟨rfl, hm⟩
  · have hb' : maskBelow (BitVec.ofNat 64 ((s.laneRegs g l).src64 mask)) ((s.passFalse g h).tagsOf g.wp.block) = false := hb
    simp [hb']
  · simp [hm]

omit hl
/-- After an acquire where one is begun, lanes change, then what the warp holds besides them, and the lanes go on. -/
theorem acquireIf_lanes_warp (p : Prop) [Decidable p] (f : Lane → Lane) (k : Warp → Warp)
    (hk : ∀ wp x, k { wp with lanes := x } = { k wp with lanes := x }) :
    WarpResult s ((((if p then (s.passFalse g h).acquire g.w (lanesMask (g.trues h)) else s.passFalse g h).modLanes g.w (g.trues h) f).modWarp
        g.w k).stepLanes g.w (g.trues h)) g (groupLane g h (fun _ la => (f la).step))
      (k (if p then g.wp.acquired s g.w (lanesMask (g.trues h)) else g.wp)) := by
  have first : WarpResult s ((if p then (s.passFalse g h).acquire g.w (lanesMask (g.trues h)) else s.passFalse g h).modLanes g.w (g.trues h) f)
      g (groupLane g h (fun _ => f)) (if p then g.wp.acquired s g.w (lanesMask (g.trues h)) else g.wp) := by
    by_cases hp : p
    · rw [if_pos hp, if_pos hp]
      exact acq_then hg f
    · rw [if_neg hp, if_neg hp]
      exact (lanesResult_modLanes h hg f).warpResult
  refine ((first.thenWarp k hk).thenLanes _ (trues_nodup_of_grp hg h) Lane.step).congr (fun j la _ => ?_)
  unfold groupLane
  by_cases hj : j ∈ g.trues h
  · simp only [if_pos hj]
  · simp only [if_neg hj]

end

/-- tagff writes the lowest ready tag of a mask of which no ready tag failed. -/
theorem exec_tagff {s : State} {g : Grp} {h : Hdr} {l : Nat} {rest : List Nat} {a : Dst} {mask : Opd} {n : Nat} (hg : Runs s g (a.top 32))
    (hl : g.trues h = l :: rest) (hb : maskBelow (BitVec.ofNat 64 ((s.laneRegs g l).src64 mask)) (s.tagsOf g.wp.block) = true)
    (hn : lowestSet (s.tag g.wp.block g.wp.rank) (BitVec.ofNat 64 ((s.laneRegs g l).src64 mask)) = n)
    (hc : (if n < 64 then (s.tag g.wp.block g.wp.rank n).failed else none) = none) :
    exec (.tagff h a mask) s = .next (((((if n < 64 then (s.passFalse g h).acquire g.w (lanesMask (g.trues h)) else s.passFalse g h).modLanes g.w
      (g.trues h) (fun la => la.put (.reg a 32 n))).modWarp g.w (fun wp => wp.putUni (.reg a 32 n))).stepLanes g.w (g.trues h))) := by
  subst hn
  refine congrArg Host.Outcome.next ((onTags_group hg hl _ _).trans ((if_neg ?_).trans ?_))
  · have hb' : maskBelow (BitVec.ofNat 64 ((s.laneRegs g l).src64 mask)) ((s.passFalse g h).tagsOf g.wp.block) = true := hb
    simp [hb']
  · have hc' : (if lowestSet ((s.passFalse g h).tag g.wp.block g.wp.rank) (BitVec.ofNat 64 ((s.laneRegs g l).src64 mask)) < 64 then
        ((s.passFalse g h).tag g.wp.block g.wp.rank
          (lowestSet ((s.passFalse g h).tag g.wp.block g.wp.rank) (BitVec.ofNat 64 ((s.laneRegs g l).src64 mask)))).failed
      else none) = none := hc
    rw [hc']
    rfl

/-- Settles O22: the group acts once, by how its wait stands, and no ready tag of a clean mask has failed. -/
theorem tagInstructionResults : Obligations.TagInstructionResults := by
  unfold Obligations.TagInstructionResults
  intro h tag count mask all v x s g l rest hg hl G b r m k c inMask ready clean acquired bad below
  refine ⟨?_, fun hb => ?_, fun hb => ⟨?_, tagwt_illegal hg hl mask all (.inl (maskBelow_eq_false hb))⟩,
    fun hm => tagwt_illegal hg hl mask false (.inr ⟨rfl, hm⟩), fun hb hm => ?_, fun hb hc n hn => ?_⟩
  · rw [exec_tagarm hg hl]
    refine congrArg Host.Outcome.next ?_
    by_cases hk : k < s.tagsOf b
    · exact (if_neg (Nat.not_le.2 hk)).trans (if_pos hk).symm
    · exact (if_pos (Nat.not_lt.1 hk)).trans (if_neg hk).symm
  · rw [exec_tagclr hg hl, (maskBelow_iff m _).2 hb, maskTags_eq]
    rfl
  · rw [exec_tagclr hg hl, maskBelow_eq_false hb]
    rfl
  · have wait := exec_tagwt hg hl mask all ((maskBelow_iff m _).2 hb) hm
    refine ⟨fun hp => ⟨_, wait, ?_⟩, fun hw => ⟨_, wait, ?_⟩, fun hf => ?_⟩
    · rw [tagWaitOf_passes (tag := s.tag b r) hp]
      exact acq_then hg Lane.step
    · rw [tagWaitOf_waits (tag := s.tag b r) hw]
      exact acq_then hg _
    · obtain ⟨n, a, e, hmn, hr, hfl, hwait⟩ := tagWaitOf_fails (tag := s.tag b r) hf
      exact ⟨n, a, e, hmn, hr, hfl, wait.trans (congrArg (fun y => Host.Outcome.next (State.tagWaitDone _ g G all m y)) hwait)⟩
  · have lowest := lowestSet_spec (s.tag b r) m n hn
    have unfailed := lowestSet_clean (tag := s.tag b r) hc hn
    have mine := (maskBelow_iff m _).2 hb
    refine ⟨fun hv => ⟨_, exec_tagff ⟨hg, hv⟩ hl mine lowest unfailed, ?_⟩, ⟨_, exec_tagff ⟨hg, Nat.zero_le _⟩ hl mine lowest unfailed, ?_⟩⟩
    · exact acquireIf_lanes_warp hg _ _ _ (fun _ _ => rfl)
    · exact acquireIf_lanes_warp hg _ _ _ (fun _ _ => rfl)

end Sys2Proof.Machine
end

section
/-! O23. Barrier instructions of a group: setting, arriving, waiting, and barriers that are broken (R83, R106, R143 to R149, R290, R291). -/

namespace Sys2Proof.Machine

/-- The TBROKEN trap at a word, from the cause, rank and address of the tenant fault that broke the barriers (R149). -/
def brokenTrap (pc : PC) (x : Nat × Nat × Nat) : Trap :=
  { cause := 0x0B, pc := pc, addr := some (BitVec.ofNat 64 x.2.2), info := BitVec.ofNat 64 (x.1 + 256 * x.2.1), resume := pc }

/-- A block whose barriers are broken traps by what broke them. -/
theorem tbroken_eq (s : State) (b : Nat) (pc : PC) :
    (s.block? b).bind (fun bl => bl.tbroken pc) = ((s.block? b).bind (fun bl => bl.broken)).map (brokenTrap pc) := by
  cases s.block? b with
  | none => rfl
  | some bl => rfl

section
variable {s : State} {g : Grp} {h : Hdr} {l : Nat} {rest : List Nat} (hg : s.grp = some g) (hl : g.trues h = l :: rest)
  (hx : ∀ k ∈ g.trues h, ∀ la, s.lane? g.w k = some la → la.tx = none)
include hl

/-- What the lowest guard-true lane reads is what the group reads. -/
theorem groupSrc_trues (o : Opd) : (s.passFalse g h).groupSrc g (g.trues h) o = (s.laneRegs g l).src32 o := by
  rw [hl]
  rfl

include hg hx

/-- A barrier instruction acts for its group where the barriers are whole … -/
theorem barrier_whole (hb : (s.block? g.wp.block).bind (fun bl => bl.broken) = none) (f : Grp → List Nat → State → State) :
    onGroup h 0 s (fun g G s => barrierLanes g G s (f g)) = f g (g.trues h) (s.passFalse g h) := by
  have some_true : g.trues h ≠ [] := by rw [hl]; exact List.cons_ne_nil _ _
  have whole : ((s.passFalse g h).block? g.wp.block).bind (fun bl => bl.tbroken g.pc) = none :=
    (tbroken_eq s g.wp.block g.pc).trans (by rw [hb]; rfl)
  rw [onGroup_runs (runs_zero hg) some_true]
  unfold barrierLanes
  rw [outsideTx_clear hg some_true hx, whole]

/-- … and traps its lanes with TBROKEN where they are broken. -/
theorem barrier_broken {x : Nat × Nat × Nat} (hb : (s.block? g.wp.block).bind (fun bl => bl.broken) = some x)
    (f : Grp → List Nat → State → State) :
    onGroup h 0 s (fun g G s => barrierLanes g G s (f g)) = (s.passFalse g h).trapLanes g.w (g.trues h) (brokenTrap g.pc x) := by
  have some_true : g.trues h ≠ [] := by rw [hl]; exact List.cons_ne_nil _ _
  have broken : ((s.passFalse g h).block? g.wp.block).bind (fun bl => bl.tbroken g.pc) = some (brokenTrap g.pc x) :=
    (tbroken_eq s g.wp.block g.pc).trans (by rw [hb]; rfl)
  rw [onGroup_runs (runs_zero hg) some_true]
  unfold barrierLanes
  rw [outsideTx_clear hg some_true hx, broken]

section
variable (hb : (s.block? g.wp.block).bind (fun bl => bl.broken) = none) (nx : Bool) (nb : BitVec 5) (n rank phi : Opd)
include hb

/-- What bari leaves: the barrier is set and the lanes go on, or they trap. -/
theorem exec_bari : exec (.bari h nx nb n) s = .next
    (if s.nbarsOf g.wp.block ≤ nb.toNat ∨ (s.laneRegs g l).src32 n = 0 ∨ 16388 < (s.laneRegs g l).src32 n then
      (s.passFalse g h).illopLanes g (g.trues h) 0x0B
    else ((s.passFalse g h).modNbar g.wp.block g.wp.rank nb.toNat (NBar.init ((s.laneRegs g l).src32 n) nx)).stepLanes g.w (g.trues h)) := by
  rw [← groupSrc_trues hl n]
  show execBari h nx nb n s = _
  unfold execBari
  rw [State.seq_of_grp hg]
  exact congrArg Host.Outcome.next (barrier_whole hg hl hx hb (fun g G s =>
    if s.nbarsOf g.wp.block ≤ nb.toNat ∨ s.groupSrc g G n = 0 ∨ 16388 < s.groupSrc g G n then s.illopLanes g G 0x0B
    else (s.modNbar g.wp.block g.wp.rank nb.toNat (NBar.init (s.groupSrc g G n) nx)).stepLanes g.w G))

/-- What bara leaves: a release that holds the lanes, or they trap. -/
theorem exec_bara : exec (.bara h nb rank) s = .next
    (if s.nbarsOf g.wp.block ≤ nb.toNat ∨ s.coresOf g.wp.block ≤ (if rank = .zero then g.wp.rank else (s.laneRegs g l).src32 rank) then
      (s.passFalse g h).illopLanes g (g.trues h) 0x0B
    else (s.passFalse g h).holdRelease g (g.trues h) .rel
      (if (if rank = .zero then g.wp.rank else (s.laneRegs g l).src32 rank) = g.wp.rank then .co else .cl)
      (.bara nb.toNat (if rank = .zero then g.wp.rank else (s.laneRegs g l).src32 rank))) := by
  rw [← groupSrc_trues hl rank]
  show execBara h nb rank s = _
  unfold execBara
  rw [State.seq_of_grp hg]
  exact congrArg Host.Outcome.next (barrier_whole hg hl hx hb (fun g G s =>
    if s.nbarsOf g.wp.block ≤ nb.toNat ∨ s.coresOf g.wp.block ≤ (if rank = .zero then g.wp.rank else s.groupSrc g G rank) then
      s.illopLanes g G 0x0B
    else s.holdRelease g G .rel (if (if rank = .zero then g.wp.rank else s.groupSrc g G rank) = g.wp.rank then .co else .cl)
      (.bara nb.toNat (if rank = .zero then g.wp.rank else s.groupSrc g G rank))))

/-- What barw leaves: an acquire and the lanes waiting or going on, or they trap. -/
theorem exec_barw : exec (.barw h nb phi) s = .next
    (if s.nbarsOf g.wp.block ≤ nb.toNat then (s.passFalse g h).illopLanes g (g.trues h) 0x0B
    else if (s.nbar g.wp.block g.wp.rank nb.toNat).p = decide ((s.laneRegs g l).src32 phi % 2 = 1) then
      ((s.passFalse g h).acquire g.w (lanesMask (g.trues h))).modLanes g.w (g.trues h)
        (fun la => { la with st := .barw nb.toNat (decide ((s.laneRegs g l).src32 phi % 2 = 1)) })
    else ((s.passFalse g h).acquire g.w (lanesMask (g.trues h))).stepLanes g.w (g.trues h)) := by
  rw [← groupSrc_trues hl phi]
  show execBarw h nb phi s = _
  unfold execBarw
  rw [State.seq_of_grp hg]
  exact congrArg Host.Outcome.next (barrier_whole hg hl hx hb (fun g G s =>
    if s.nbarsOf g.wp.block ≤ nb.toNat then s.illopLanes g G 0x0B
    else if ((s.acquire g.w (lanesMask G)).nbar g.wp.block g.wp.rank nb.toNat).p = decide (s.groupSrc g G phi % 2 = 1) then
      (s.acquire g.w (lanesMask G)).modLanes g.w G (fun la => { la with st := .barw nb.toNat (decide (s.groupSrc g G phi % 2 = 1)) })
    else (s.acquire g.w (lanesMask G)).stepLanes g.w G))

/-- bar begins a release that holds the lanes. -/
theorem exec_bar : exec (.bar h) s = .next ((s.passFalse g h).holdRelease g (g.trues h) .rel
    (if s.coresOf g.wp.block = 1 then .co else .cl) .bar) :=
  congrArg Host.Outcome.next (barrier_whole hg hl hx hb (fun g G s =>
    s.holdRelease g G .rel (if s.coresOf g.wp.block = 1 then .co else .cl) .bar))

end

/-- Every barrier instruction of a block whose barriers are broken traps. -/
theorem exec_broken {x : Nat × Nat × Nat} (hb : (s.block? g.wp.block).bind (fun bl => bl.broken) = some x) (nx : Bool) (nb : BitVec 5)
    (n rank phi : Opd) : ∀ i ∈ [Instr.bari h nx nb n, .bara h nb rank, .barw h nb phi, .bar h],
      exec i s = .next ((s.passFalse g h).trapLanes g.w (g.trues h) (brokenTrap g.pc x)) := by
  have traps := barrier_broken hg hl hx hb
  intro i hi
  simp only [List.mem_cons, List.not_mem_nil, or_false] at hi
  rcases hi with rfl | rfl | rfl | rfl
  · show execBari h nx nb n s = _
    unfold execBari
    rw [State.seq_of_grp hg]
    exact congrArg Host.Outcome.next (traps _)
  · show execBara h nb rank s = _
    unfold execBara
    rw [State.seq_of_grp hg]
    exact congrArg Host.Outcome.next (traps _)
  · show execBarw h nb phi s = _
    unfold execBarw
    rw [State.seq_of_grp hg]
    exact congrArg Host.Outcome.next (traps _)
  · exact congrArg Host.Outcome.next (traps _)

end

/-- Setting a numbered barrier changes that barrier of its block only. -/
theorem block?_modNbar (s : State) (b r n : Nat) (f : NBar → NBar) :
    (∀ k, k ≠ b → (s.modNbar b r n f).block? k = s.block? k) ∧
    ((s.modNbar b r n f).block? b).map (fun bl => { bl with nbars := [] }) = (s.block? b).map (fun bl => { bl with nbars := [] }) ∧
    ∀ key, ((s.modNbar b r n f).block? b).bind (fun bl => mapGet? bl.nbars key) =
      ((s.block? b).bind (fun bl => mapGet? bl.nbars key)).map (fun y => if key = nbarKey r n then f y else y) := by
  unfold State.modNbar
  refine ⟨fun k hk => ?_, ?_, fun key => ?_⟩
  · rw [State.block?_modBlock, if_neg hk]
  · rw [State.block?_modBlock, if_pos rfl, Option.map_map]
    rfl
  · rw [State.block?_modBlock, if_pos rfl]
    cases s.block? b with
    | none => rfl
    | some bl =>
      show mapGet? (mapModify bl.nbars (nbarKey r n) f) key = Option.map _ (mapGet? bl.nbars key)
      rw [mapGet?_mapModify]
      by_cases hk : key = nbarKey r n
      · simp only [if_pos hk]
      · simp only [if_neg hk, Option.map_id']

/-- bari of a legal count sets its barrier, and the lanes go on. -/
theorem bari_sets {s : State} {g : Grp} {h : Hdr} (hg : s.grp = some g) (b r n : Nat) (f : NBar → NBar) :
    let t := ((s.passFalse g h).modNbar b r n f).stepLanes g.w (g.trues h)
    LanesResult { s with blocks := t.blocks } t g (groupLane g h (fun _ => Lane.step)) ∧
      (∀ k, k ≠ b → t.block? k = s.block? k) ∧
      (t.block? b).map (fun bl => { bl with nbars := [] }) = (s.block? b).map (fun bl => { bl with nbars := [] }) ∧
      ∀ key, (t.block? b).bind (fun bl => mapGet? bl.nbars key) =
        ((s.block? b).bind (fun bl => mapGet? bl.nbars key)).map (fun y => if key = nbarKey r n then f y else y) := by
  intro t
  exact ⟨(lanesResult_modLanes h hg Lane.step).besides (fun u => { u with blocks := t.blocks }) (fun _ _ => rfl), block?_modNbar s b r n f⟩

/-- Settles O23: where the barriers are whole each instruction acts by its own law, and where they are broken each traps. -/
theorem barrierInstructionResults : Obligations.BarrierInstructionResults := by
  unfold Obligations.BarrierInstructionResults
  intro h nx nb n rank phi s g l rest hg hl hx G b v r f bad acquired holds
  have release : ∀ (scope : Scope) (after : AfterRel) (i : Instr),
      exec i s = .next ((s.passFalse g h).holdRelease g (g.trues h) .rel scope after) → holds i scope after := by
    intro scope after i hi
    obtain ⟨x, hf, hlanes, h1, h2, h3, h4, h5, h6, h7, h8, h9, -⟩ := holdRelease_spec (h := h) hg .rel scope after
    exact ⟨_, x, hi, hf, hlanes, h1, h2, h3, h4, h5, h6, h7, h8, h9⟩
  refine ⟨fun hb => ⟨fun hn hv hm => ?_, fun hn hr => release _ _ _ ?_, release _ _ _ (exec_bar hg hl hx hb), fun hn => ?_, fun hn => ?_,
    fun hn => ?_, fun hn => ?_⟩, fun c k a hb => exec_broken hg hl hx hb nx nb n rank phi⟩
  · refine ⟨_, (exec_bari hg hl hx hb nx nb n).trans (congrArg Host.Outcome.next (if_neg ?_)), bari_sets hg b g.wp.rank nb.toNat (NBar.init v nx)⟩
    rintro (h1 | h1 | h1)
    · exact absurd h1 (Nat.not_le.2 hn)
    · exact absurd h1 (Nat.ne_of_gt hv)
    · exact absurd h1 (Nat.not_lt.2 hm)
  · refine (exec_bara hg hl hx hb nb rank).trans (congrArg Host.Outcome.next (if_neg ?_))
    exact not_or.2 ⟨Nat.not_le.2 hn, Nat.not_le.2 hr⟩
  · refine ⟨_, (exec_barw hg hl hx hb nb phi).trans (congrArg Host.Outcome.next (if_neg (Nat.not_le.2 hn))), ?_⟩
    by_cases hp : (s.nbar b g.wp.rank nb.toNat).p = f
    · rw [if_pos hp]
      simp only [if_pos hp]
      exact acq_then hg _
    · rw [if_neg hp]
      simp only [if_neg hp]
      exact acq_then hg Lane.step
  · exact (exec_bari hg hl hx hb nx nb n).trans (congrArg Host.Outcome.next (if_pos hn))
  · exact (exec_bara hg hl hx hb nb rank).trans (congrArg Host.Outcome.next (if_pos hn))
  · exact (exec_barw hg hl hx hb nb phi).trans (congrArg Host.Outcome.next (if_pos hn))

end Sys2Proof.Machine
end

section
/-! O24. Tag and barrier instructions of the tile stream, for their sequencer (R73, R74, R143 to R149, R287 to R293). -/

namespace Sys2Proof.Machine

/-- Changes of one tenant, one after the other. -/
theorem OnlyTenant.trans {s t u : State} {n : Nat} (h : OnlyTenant s t n) (h' : OnlyTenant t u n) : OnlyTenant s u n := by
  refine ⟨?_, fun v hv => (h'.2 v hv).trans (h.2 v hv)⟩
  rw [h'.1, h.1]

section
variable {s : State} {i : Nat} {te : Tenant} {h : Hdr} (hs : SeqRuns s i te) (hf : guardOf h te.pred = true)
include hs

/-- An outcome that changes the sequencer alone. -/
theorem becomes_modTenant (x : Out) (f : Tenant → Tenant) (te' : Tenant) (hx : x = .next (s.modTenant i f)) (hf : f te = te') :
    ∃ t, x = .next t ∧ OnlyTenant s t i ∧ t.tenant? i = some te' :=
  ⟨_, hx, onlyTenant_modTenant _ _ _, by rw [tenant?_modTenant_of_runs hs, hf]⟩

include hf

/-- An instruction of the tile stream whose guard is true acts for its sequencer. -/
theorem onSeq_true (f : Tenant → State → State) : onSeq h i s f = f te s := by
  unfold onSeq
  rw [hs.tenant]
  exact if_pos hf

/-- A tag instruction acts for its sequencer. -/
theorem onTags_seq (top : Nat) (lanes : Grp → List Nat → Regs → State → State) (seq : Nat → Tenant → Regs → State → State) :
    onTags h top s lanes seq = seq i te (s.seqRegs te) s := by
  unfold onTags
  rw [hs.seq]
  exact onSeq_true hs hf _

/-! ### Barriers -/

section
variable (nb : BitVec 5) (hn : nb.toNat < s.nbarsOf te.block)
include hn

/-- bari sets the barrier and the sequencer goes on. -/
theorem seq_bari (nx : Bool) (n : Opd) (h0 : 0 < (s.seqRegs te).src32 n) (hm : (s.seqRegs te).src32 n ≤ 16388) :
    exec (.bari h nx nb n) s = .next ((s.modNbar te.block te.rank nb.toNat (NBar.init ((s.seqRegs te).src32 n) nx)).stepSeq i) := by
  show execBari h nx nb n s = _
  unfold execBari
  rw [hs.seq]
  refine congrArg Host.Outcome.next ((onSeq_true hs hf _).trans (if_neg ?_))
  omega

/-- What bara leaves at a rank of the block. -/
theorem seq_bara (rank : Opd) (hr : (if rank = .zero then te.rank else (s.seqRegs te).src32 rank) < s.coresOf te.block) :
    exec (.bara h nb rank) s = .next (if te.writing then s else
      ((s.modNbar te.block (if rank = .zero then te.rank else (s.seqRegs te).src32 rank) nb.toNat (fun y =>
        { y with a := y.a + 1, arrived := if partySeq te.rank ∈ y.arrived then y.arrived else y.arrived ++ [partySeq te.rank] })).stepSeq
          i).checkNbar te.block (if rank = .zero then te.rank else (s.seqRegs te).src32 rank) nb.toNat) := by
  show execBara h nb rank s = _
  unfold execBara
  rw [hs.seq]
  refine congrArg Host.Outcome.next ((onSeq_true hs hf _).trans (if_neg ?_))
  exact not_or.2 ⟨Nat.not_le.2 hn, Nat.not_le.2 hr⟩

/-- What barw leaves. -/
theorem seq_barw (phi : Opd) : exec (.barw h nb phi) s = .next
    (if (s.block? te.block).any (fun bl => bl.broken.isSome) then s.stopSeq i
    else if (s.nbar te.block te.rank nb.toNat).p = decide ((s.seqRegs te).src32 phi % 2 = 1) then
      s.modTenant i (fun te' => { te' with st := .barw nb.toNat (decide ((s.seqRegs te).src32 phi % 2 = 1)) })
    else s.stepSeq i) := by
  show execBarw h nb phi s = _
  unfold execBarw
  rw [hs.seq]
  exact congrArg Host.Outcome.next ((onSeq_true hs hf _).trans (if_neg (Nat.not_le.2 hn)))

end

/-! ### Tags -/

section
variable (mask : Opd) (hb : maskBelow (BitVec.ofNat 64 ((s.seqRegs te).src64 mask)) (s.tagsOf te.block) = true)
include hb

/-- tagclr clears the tags of its mask. -/
theorem seq_tagclr : exec (.tagclr h mask) s = .next (((maskTags (BitVec.ofNat 64 ((s.seqRegs te).src64 mask))).foldl
    (fun s j => s.setTag te.block te.rank j Tag.zero) s).stepSeq i) :=
  congrArg Host.Outcome.next ((onTags_seq hs hf _ _ _).trans (if_neg (by rw [hb]; exact Bool.false_ne_true)))

/-- tagwt passes, or waits. -/
theorem seq_tagwt (all : Bool) (hm : all = false → BitVec.ofNat 64 ((s.seqRegs te).src64 mask) ≠ 0) :
    (tagWaitOf (s.tag te.block te.rank) all (BitVec.ofNat 64 ((s.seqRegs te).src64 mask)) = .passes →
      exec (.tagwt h all mask) s = .next (s.stepSeq i)) ∧
    (tagWaitOf (s.tag te.block te.rank) all (BitVec.ofNat 64 ((s.seqRegs te).src64 mask)) = .waits →
      exec (.tagwt h all mask) s = .next (s.modTenant i (fun te' =>
        { te' with st := .tagWait all (BitVec.ofNat 64 ((s.seqRegs te).src64 mask)) }))) := by
  have legal : ¬ (!maskBelow (BitVec.ofNat 64 ((s.seqRegs te).src64 mask)) (s.tagsOf te.block) ||
      (!all && decide (BitVec.ofNat 64 ((s.seqRegs te).src64 mask) = 0))) = true := by
    rw [hb]
    cases all with
    | true => simp
    | false => simpa using hm rfl
  constructor
  all_goals
    intro hw
    refine congrArg Host.Outcome.next ((onTags_seq hs hf _ _ _).trans ((if_neg legal).trans ?_))
    rw [hw]

/-- tagff writes the lowest ready tag of a mask of which no ready tag failed. -/
theorem seq_tagff {c : Nat} (q : BitVec 7) (hc : lowestSet (s.tag te.block te.rank) (BitVec.ofNat 64 ((s.seqRegs te).src64 mask)) = c)
    (hu : (if c < 64 then (s.tag te.block te.rank c).failed else none) = none) :
    exec (.tagff h (.s q) mask) s = .next ((s.modTenant i (fun te => te.setQreg q.toNat (BitVec.ofNat 32 c))).stepSeq i) := by
  subst hc
  refine congrArg Host.Outcome.next ((onTags_seq hs hf _ _ _).trans ((if_neg (by rw [hb]; exact Bool.false_ne_true)).trans ?_))
  rw [hu]
  rfl

end
end

/-- Settles O24: a sequencer acts on barriers and tags alone, by the same judgement of a wait as a group. -/
theorem sequencerTagAndBarrierResults : Obligations.SequencerTagAndBarrierResults := by
  unfold Obligations.SequencerTagAndBarrierResults
  intro h nx nb n rank phi count mask tag all q s i te hs hf b R v r f m k inMask ready clean becomes on
  have becomesOn : ∀ x : Instr, exec x s = .next (s.stepSeq i) → becomes x on := fun x hx => becomes_modTenant hs _ _ _ hx rfl
  refine ⟨fun hn => ⟨fun h0 hm => seq_bari hs hf nb hn nx n h0 hm, fun hr => ⟨fun hw => ?_, fun hw => ?_⟩, fun bl hbl hbr => ?_,
    fun bl x hbl hbr hst => ?_⟩, fun hk => ?_, fun hb => ⟨?_, fun hm => ⟨fun hp => ?_, fun hw => ?_⟩, fun hc c hlow => ?_⟩⟩
  · exact (seq_bara hs hf nb hn rank hr).trans (congrArg Host.Outcome.next (if_pos hw))
  · exact (seq_bara hs hf nb hn rank hr).trans (congrArg Host.Outcome.next (if_neg (by rw [hw]; exact Bool.false_ne_true)))
  · have whole : ¬ (s.block? te.block).any (fun bl => bl.broken.isSome) = true := by
      rw [hbl]
      simp [hbr]
    have wait := (seq_barw hs hf nb hn phi).trans (congrArg Host.Outcome.next (if_neg whole))
    by_cases hp : (s.nbar b te.rank nb.toNat).p = f
    · rw [if_pos hp]
      exact becomes_modTenant hs _ _ _ (wait.trans (congrArg Host.Outcome.next (if_pos hp))) rfl
    · rw [if_neg hp]
      exact becomesOn _ (wait.trans (congrArg Host.Outcome.next (if_neg hp)))
  · have broken : (s.block? te.block).any (fun bl => bl.broken.isSome) = true := by
      rw [hbl]
      simp [hbr]
    exact becomes_modTenant hs _ _ _ ((seq_barw hs hf nb hn phi).trans (congrArg Host.Outcome.next (if_pos broken))) (if_neg hst)
  · exact congrArg Host.Outcome.next ((onTags_seq hs hf _ _ _).trans (if_neg (Nat.not_le.2 hk)))
  · refine (seq_tagclr hs hf mask ((maskBelow_iff m _).2 hb)).trans ?_
    rw [maskTags_eq]
    rfl
  · exact becomesOn _ ((seq_tagwt hs hf mask ((maskBelow_iff m _).2 hb) all hm).1 (tagWaitOf_passes (tag := s.tag b te.rank) hp))
  · exact becomes_modTenant hs _ _ _
      ((seq_tagwt hs hf mask ((maskBelow_iff m _).2 hb) all hm).2 (tagWaitOf_waits (tag := s.tag b te.rank) hw)) rfl
  · have written := seq_tagff hs hf mask ((maskBelow_iff m _).2 hb) q (lowestSet_spec (s.tag b te.rank) m c hlow)
      (lowestSet_clean (tag := s.tag b te.rank) hc hlow)
    refine ⟨_, written, ?_, ?_⟩
    · exact OnlyTenant.trans (onlyTenant_modTenant _ _ _) (onlyTenant_modTenant _ _ _)
    · unfold State.stepSeq
      rw [State.tenant?_modTenant, if_pos rfl, tenant?_modTenant_of_runs hs]
      rfl

end Sys2Proof.Machine
end

section
/-! O28. Copies at issue: the operation of each lane enters, the first begins its release where there is room, and all wait where the
engine is full (R73, R75, R97, R232, R283, R284). -/

namespace Sys2Proof.Machine

/-! ### Operations that stand at their word -/

/-- A 32-bit source is below 2^32. -/
theorem src32_lt (r : Regs) (o : Opd) : r.src32 o < 2 ^ 32 := by
  have const_lt : ∀ c : BitVec 4, const32.getD c.toNat 0 < 2 ^ 32 := by decide
  cases o with
  | v n => exact (r.vr n.toNat).isLt
  | s n => exact (r.sr n.toNat).isLt
  | int n => exact Nat.lt_of_lt_of_le n.isLt (by decide)
  | const c => exact const_lt c
  | zero => exact Nat.two_pow_pos 32
  | lit x => exact x.isLt

/-- A copy of bytes that stands at its word in a state, none of it done, whose address checks pass; where it is at issue is left open. -/
structure CopyStands (b : State) (c : CopyOp) : Prop where
  kind : c.kind = .cpy
  view : c.view = 0
  paused : c.paused = none
  rel : c.rel = none
  tenant : c.tenant = none
  some_bytes : c.total ≠ 0
  checks : ∃ t f n, c.args = [t, f, n] ∧ b.checkCpy c.who c.pc t f n.toNat = none
  warp : ∃ w wp, c.warp = some w ∧ b.warp? w = some wp
  held : b.copyHeld c = (true, true)

section
variable {b : State} {c : CopyOp} (hc : CopyStands b c)
include hc

/-- It stands there whatever its state at issue is, and whatever other operations there are. -/
theorem CopyStands.anyState (x : CopySt) (cs : NatMap CopyOp) : CopyStands { b with copies := cs } { c with st := x } :=
  ⟨hc.kind, hc.view, hc.paused, hc.rel, hc.tenant, hc.some_bytes, hc.checks, hc.warp, hc.held⟩

/-- Its checks make it queued. -/
theorem checkCopy_passes (k : Nat) : b.checkCopy k c = b.modCopy k (fun o => { o with st := .queued }) := by
  obtain ⟨t, f, n, hargs, hpass⟩ := hc.checks
  have probe : b.probeDst c = (b, .ok none, 0) := if_pos hc.view
  unfold State.checkCopy
  rw [hc.kind, hargs]
  dsimp only
  rw [hpass, probe]

/-- A queued one without room waits. -/
theorem issueCopy_waits (k : Nat) (hr : b.copyRoom c = false) : b.issueCopy k c = b := by
  obtain ⟨w, wp, hw, hwp⟩ := hc.warp
  unfold State.issueCopy
  rw [hw]
  dsimp only [Option.bind_some]
  rw [hwp]
  exact if_pos (by rw [hr]; rfl)

/-- A queued one with room begins the release of its lane. -/
theorem issueCopy_releases {w : Nat} {wp : Warp} (k : Nat) (hw : c.warp = some w) (hwp : b.warp? w = some wp) (hr : b.copyRoom c = true) :
    b.issueCopy k c = (b.beginRelease { w := w, wp := wp, lanes := [c.lane], pc := c.pc } [c.lane] c.scope).1.modCopy k
      (fun o => { o with rel := some b.tick }) := by
  unfold State.issueCopy
  rw [hw]
  dsimp only [Option.bind_some]
  rw [hwp]
  refine (if_neg (by rw [hr]; exact Bool.false_ne_true)).trans ?_
  rw [hc.rel]
  rfl

end

/-! ### Operations that enter after the others -/

/-- Operations at issue count in no engine's load. -/
theorem engineLoad_append (b : State) (cs ds : NatMap CopyOp) (hd : ∀ e ∈ ds, (e.2.st = .checks ∨ e.2.st = .queued) ∧ e.2.tenant = none)
    (cl : Nat) : ({ b with copies := cs ++ ds } : State).engineLoad cl = ({ b with copies := cs } : State).engineLoad cl := by
  have none_counts : ds.filter (fun e => e.2.cluster = cl && (e.2.st = .active || (e.2.st = .checks && e.2.tenant.isSome))) = [] := by
    rw [List.filter_eq_nil_iff]
    intro e he
    obtain ⟨hst | hst, ht⟩ := hd e he
    all_goals simp [hst, ht]
  unfold State.engineLoad
  rw [List.filter_append, none_counts, List.append_nil]

/-- Operations that have entered under their keys and not issued. -/
structure Unissued (keys : List Nat) (ops : List CopyOp) (ds : NatMap CopyOp) : Prop where
  entries : ds.map (fun e => (e.1, { e.2 with st := .checks })) = keys.zip ops
  atIssue : ∀ e ∈ ds, e.2.st = .checks ∨ e.2.st = .queued

section
variable {keys : List Nat} {ops : List CopyOp} {ds : NatMap CopyOp} (hu : Unissued keys ops ds)
include hu

/-- Each is one of them, but for its state at issue. -/
theorem Unissued.mem {e : Nat × CopyOp} (he : e ∈ ds) : e.1 ∈ keys ∧ { e.2 with st := .checks } ∈ ops := by
  have entry : (e.1, ({ e.2 with st := .checks } : CopyOp)) ∈ keys.zip ops := hu.entries ▸ List.mem_map_of_mem he
  exact List.of_mem_zip entry

/-- They stand for the lanes of the operations, in order. -/
theorem Unissued.lanes (hlen : ops.length ≤ keys.length) : ds.map (fun e => e.2.lane) = ops.map (fun c => c.lane) := by
  have entered := congrArg (fun m : NatMap CopyOp => (m.map Prod.snd).map (fun c => c.lane)) hu.entries
  dsimp only at entered
  rw [List.map_snd_zip hlen, List.map_map, List.map_map] at entered
  exact entered

/-- Each stands at its word where they all do. -/
theorem Unissued.stands {b : State} (hb : ∀ c ∈ ops, CopyStands b c) {e : Nat × CopyOp} (he : e ∈ ds) (cs : NatMap CopyOp) :
    CopyStands { b with copies := cs } e.2 :=
  (hb _ (hu.mem he).2).anyState e.2.st cs

/-- One of them becomes queued. -/
theorem Unissued.queue (k : Nat) : Unissued keys ops (mapModify ds k (fun o => { o with st := .queued })) := by
  refine ⟨?_, fun e he => ?_⟩
  · rw [← hu.entries]
    unfold mapModify
    rw [List.map_map]
    refine List.map_congr_left (fun e _ => ?_)
    dsimp only [Function.comp]
    split <;> rfl
  · obtain ⟨f, hf, rfl⟩ := List.mem_map.1 he
    by_cases hk : f.1 = k
    · rw [if_pos hk]
      exact .inr rfl
    · rw [if_neg hk]
      exact hu.atIssue f hf

end

/-- Fresh operations as they enter, each to be checked. -/
theorem unissued_enter {keys : List Nat} {ops : List CopyOp} (ho : ∀ c ∈ ops, c.st = .checks) : Unissued keys ops (keys.zip ops) := by
  have same : ∀ e ∈ keys.zip ops, (e.1, ({ e.2 with st := .checks } : CopyOp)) = e := fun e he => by
    rw [← ho e.2 (mem_zip_right he)]
  exact ⟨(List.map_congr_left same).trans (List.map_id _), fun e he => .inl (ho e.2 (mem_zip_right he))⟩

/-! ### While the engine is full -/

section
variable {b : State} {cs : NatMap CopyOp} {keys : List Nat} {ops : List CopyOp} {cl : Nat} (hb : ∀ c ∈ ops, CopyStands b c ∧ c.cluster = cl)
  (hfull : 256 ≤ ({ b with copies := cs } : State).engineLoad cl)
include hb hfull

/-- None of them has room. -/
theorem copyRoom_full {ds : NatMap CopyOp} (hu : Unissued keys ops ds) {e : Nat × CopyOp} (he : e ∈ ds) :
    ({ b with copies := cs ++ ds } : State).copyRoom e.2 = false := by
  have stands : ∀ e ∈ ds, CopyStands _ e.2 := fun e he => hu.stands (fun c hc => (hb c hc).1) he cs
  have load := engineLoad_append b cs ds (fun e he => ⟨hu.atIssue e he, (stands e he).tenant⟩) cl
  have cluster : e.2.cluster = cl := (hb _ (hu.mem he).2).2
  unfold State.copyRoom
  rw [cluster, load, decide_eq_false (Nat.not_lt.2 hfull), decide_eq_false (stands e he).some_bytes]
  rfl

/-- An operation that is pushed becomes queued in its turn, and none issues. -/
theorem pushCopy_full {ds : NatMap CopyOp} (hu : Unissued keys ops ds) {k : Nat} (hk : ∀ e ∈ cs, e.1 ≠ k) :
    ∃ ds', ({ b with copies := cs ++ ds } : State).pushCopy k = { b with copies := cs ++ ds' } ∧ Unissued keys ops ds' := by
  have stands : ∀ {ds : NatMap CopyOp}, Unissued keys ops ds → ∀ e ∈ ds, ∀ cs, CopyStands { b with copies := cs } e.2 :=
    fun hu e he cs => hu.stands (fun c hc => (hb c hc).1) he cs
  cases hget : mapGet? ds k with
  | none =>
    refine ⟨ds, ?_, hu⟩
    have absent : mapGet? (cs ++ ds) k = none := (mapGet?_append_fresh cs k hk ds).trans hget
    simp only [State.pushCopy, absent]
  | some c =>
    have mem := mem_of_mapGet? hget
    have found : mapGet? (cs ++ ds) k = some c := (mapGet?_append_fresh cs k hk ds).trans hget
    have here := stands hu _ mem (cs ++ ds)
    rcases hu.atIssue _ mem with hst | hst
    · have hq := hu.queue k
      have queued : mapGet? (mapModify ds k (fun o => { o with st := .queued })) k = some { c with st := .queued } := by
        rw [mapGet?_mapModify_self, hget]
        rfl
      have there := stands hq _ (mem_of_mapGet? queued) (cs ++ mapModify ds k (fun o => { o with st := .queued }))
      have checked : ({ b with copies := cs ++ ds } : State).checkCopy k c =
          { b with copies := cs ++ mapModify ds k (fun o => { o with st := .queued }) } := by
        rw [checkCopy_passes here]
        unfold State.modCopy
        rw [mapModify_append_fresh cs k hk]
      have push := pushCopy_checks (s := { b with copies := cs ++ ds }) found hst here.paused here.held checked
        ((mapGet?_append_fresh cs k hk _).trans queued) rfl there.paused there.held
      rw [issueCopy_waits there k (copyRoom_full hb hfull hq (mem_of_mapGet? queued)), ite_self] at push
      by_cases turn : ({ b with copies := cs ++ ds } : State).copyTurn k c = true
      · exact ⟨_, push.trans (if_pos turn), hq⟩
      · exact ⟨ds, push.trans (if_neg turn), hu⟩
    · refine ⟨ds, ?_, hu⟩
      rw [pushCopy_queued _ k c found hst here.paused here.held, issueCopy_waits here k (copyRoom_full hb hfull hu mem), ite_self]

/-- … and so for one after the other. -/
theorem pushCopies_full (ks : List Nat) (hk : ∀ k ∈ ks, ∀ e ∈ cs, e.1 ≠ k) {ds : NatMap CopyOp} (hu : Unissued keys ops ds) :
    ∃ ds', ks.foldl State.pushCopy { b with copies := cs ++ ds } = { b with copies := cs ++ ds' } ∧ Unissued keys ops ds' := by
  induction ks generalizing ds with
  | nil => exact ⟨ds, rfl, hu⟩
  | cons k ks ih =>
    obtain ⟨ds1, push, hu1⟩ := pushCopy_full hb hfull hu (hk k (by simp))
    rw [List.foldl_cons, push]
    exact ih (fun k hk' => hk k (by simp [hk'])) hu1

end

/-! ### With room for one -/

/-- A release of lanes as it begins, at a scope, with nothing to follow it (R97). -/
def State.releaseOf (s : State) (g : Grp) (G : List Nat) (scope : Scope) : FenceOp :=
  { warp := g.w, lanes := lanesMask G, kind := .rel, scope := scope, spec := false, pc := g.pc, after := .nothing, step := 1,
    loads := s.openLoads g.w (lanesMask G), writes := s.openWrites g.w (lanesMask G), born := s.tick, issued := 0, saved := [],
    specLines := [], back := false, until_ := 0 }

/-- Beginning a release adds it under the next number. -/
theorem beginRelease_eq (s : State) (g : Grp) (G : List Nat) (scope : Scope) : s.beginRelease g G scope =
    ({ s with fences := s.fences ++ [(s.tick, s.releaseOf g G scope)], tick := s.tick + 1 }, s.tick) := rfl

/-- The operation of one lane is checked, queued, and begins the release of its lane. -/
theorem pushCopy_one {b : State} {cs : NatMap CopyOp} {k w : Nat} {c : CopyOp} {wp : Warp} (hc : CopyStands b c) (hst : c.st = .checks)
    (hk : ∀ e ∈ cs, e.1 ≠ k) (hw : c.warp = some w) (hwp : b.warp? w = some wp)
    (hroom : ({ b with copies := cs } : State).engineLoad c.cluster < 256) (hlocks : c.entries ≤ (b.cluster c.cluster).locksFree)
    (hfirst : ∀ e ∈ cs, e.2.warp = some w → e.2.atIssue = false) :
    ∃ f, ({ b with copies := cs ++ [(k, c)] } : State).pushCopy k =
      { b with copies := cs ++ [(k, { c with st := .queued, rel := some b.tick })], fences := b.fences ++ [(b.tick, f)], tick := b.tick + 1 } ∧
      f.warp = w ∧ f.lanes = lanesMask [c.lane] ∧ f.kind = .rel ∧ f.scope = c.scope ∧ f.after = .nothing := by
  have here := hc.anyState c.st (cs ++ [(k, c)])
  have there := hc.anyState .queued (cs ++ [(k, { c with st := .queued })])
  have alone : ∀ x, mapGet? (cs ++ [(k, x)]) k = some x := fun x => (mapGet?_append_fresh cs k hk _).trans (if_pos rfl)
  have becomes : ∀ (x : CopyOp) f, mapModify (cs ++ [(k, x)]) k f = cs ++ [(k, f x)] := fun x f => by
    rw [mapModify_append_fresh cs k hk]
    exact congrArg (cs ++ [·]) (if_pos rfl)
  have turn : ∀ x : CopyOp, x.warp = some w → ({ b with copies := cs ++ [(k, x)] } : State).copyTurn k x = true := by
    intro x hx
    refine List.all_eq_true.2 (fun e he => ?_)
    obtain ⟨mem, mate⟩ := List.mem_filter.1 he
    simp only [Bool.and_eq_true, decide_eq_true_eq] at mate
    obtain ⟨⟨hne, hew⟩, -⟩ := mate
    rcases List.mem_append.1 mem with mem | mem
    · rw [hfirst e mem (hew.trans hx)]
      exact Bool.or_true _
    · exact absurd (congrArg Prod.fst (List.mem_singleton.1 mem)) hne
  have checked : ({ b with copies := cs ++ [(k, c)] } : State).checkCopy k c = { b with copies := cs ++ [(k, { c with st := .queued })] } := by
    refine (checkCopy_passes here k).trans ?_
    unfold State.modCopy
    rw [becomes]
  have room : ({ b with copies := cs ++ [(k, { c with st := .queued })] } : State).copyRoom { c with st := .queued } = true := by
    have load := engineLoad_append b cs [(k, { c with st := .queued })] (fun e he => by
      rw [List.mem_singleton.1 he]
      exact ⟨.inr rfl, hc.tenant⟩) c.cluster
    unfold State.copyRoom
    rw [load, decide_eq_true hroom, Bool.true_and]
    exact Bool.or_eq_true_iff.2 (.inr (decide_eq_true hlocks))
  refine ⟨State.releaseOf { b with copies := cs ++ [(k, { c with st := .queued })] } { w := w, wp := wp, lanes := [c.lane], pc := c.pc }
    [c.lane] c.scope, ?_, rfl, rfl, rfl, rfl, rfl⟩
  rw [pushCopy_checks (s := { b with copies := cs ++ [(k, c)] }) (alone c) hst here.paused here.held checked (alone _) rfl there.paused
    there.held, if_pos (turn c hw), if_pos (turn { c with st := .queued } hw), issueCopy_releases there k hw hwp room, beginRelease_eq]
  unfold State.modCopy
  dsimp only
  rw [becomes]

/-! ### The lanes of cpy -/

/-- The lanes of an instruction of the engine are held at it, and its counter is up by one. -/
def State.holdEngine (s : State) (g : Grp) (G : List Nat) : State :=
  (s.modLanes g.w G (fun la => { la with hold := .engine })).modWarp g.w (fun wp => { wp with ctrCp := wp.ctrCp + 1 })

/-- The keys of the next operations. -/
def State.copyKeys (s : State) (n : Nat) : List Nat := (upTo n).map (fun i => mapFresh s.copies + i)

/-- A new key lies at or above the fresh one, and above every listed one. -/
theorem copyKeys_fresh {s : State} {n k : Nat} (hk : k ∈ s.copyKeys n) : mapFresh s.copies ≤ k ∧ ∀ e ∈ s.copies, e.1 ≠ k := by
  obtain ⟨i, -, rfl⟩ := List.mem_map.1 hk
  refine ⟨Nat.le_add_right _ _, fun e he => ?_⟩
  have := mapFresh_gt s.copies e he
  omega

/-- Operations that start enter behind the others and are pushed in order. -/
theorem startCopies_eq (s : State) (g : Grp) {ops : List CopyOp} (ho : ops ≠ []) :
    s.startCopies g ops = (s.copyKeys ops.length).foldl State.pushCopy { s.holdEngine g (ops.map (fun c => c.lane)) with
      copies := s.copies ++ (s.copyKeys ops.length).zip ops } :=
  if_neg ho

/-- The operation that a lane of cpy enters (R284). -/
def State.cpyOp (s : State) (g : Grp) (h : Hdr) (scope : Scope) (auto : Bool) (x y len : Opd) (tag : TagOpd) (n l : Nat) : CopyOp :=
  { copyOf g ((s.passFalse g h).whoOf g) .cpy n scope (auto && (g.trues h).head? = some l) s.tick l with
    st := .checks
    instr := some (.cpy h scope auto x y len tag)
    args := [BitVec.ofNat 64 ((s.laneRegs g l).src64 x), BitVec.ofNat 64 ((s.laneRegs g l).src64 y),
      BitVec.ofNat 64 ((s.laneRegs g l).src32 len)]
    pieces := if (s.laneRegs g l).src32 len = 0 then [] else
      [{ dst := va57 (BitVec.ofNat 64 ((s.laneRegs g l).src64 x)), src := some (va57 (BitVec.ofNat 64 ((s.laneRegs g l).src64 y))),
         len := (s.laneRegs g l).src32 len, keep := none, data := 0, row := 0 }]
    back := va57 (BitVec.ofNat 64 ((s.laneRegs g l).src64 y)) < va57 (BitVec.ofNat 64 ((s.laneRegs g l).src64 x)) &&
      va57 (BitVec.ofNat 64 ((s.laneRegs g l).src64 x)) < va57 (BitVec.ofNat 64 ((s.laneRegs g l).src64 y)) + (s.laneRegs g l).src32 len
    total := (s.laneRegs g l).src32 len }

section
variable {s : State} {g : Grp} {h : Hdr} {l : Nat} {rest : List Nat} {x y len : Opd} (hl : g.trues h = l :: rest)

/-- cpy enters the operations of its lanes. -/
theorem exec_cpy (hl : g.trues h = l :: rest) (hg : Runs s g (max (max (x.top 64) (y.top 64)) (len.top 32)))
    (hx : ∀ k ∈ g.trues h, ∀ la, s.lane? g.w k = some la → la.tx = none) (scope : Scope) (auto : Bool) (tag : TagOpd)
    (hn : (s.laneRegs g l).tagOf tag < s.tagsOf g.wp.block) :
    exec (.cpy h scope auto x y len tag) s = .next ((s.passFalse g h).next.startCopies g
      ((g.trues h).map (s.cpyOp g h scope auto x y len tag ((s.laneRegs g l).tagOf tag)))) := by
  have some_true : g.trues h ≠ [] := by rw [hl]; exact List.cons_ne_nil _ _
  show execCpy h scope auto x y len tag s = _
  unfold execCpy
  rw [onGroup_runs hg some_true, outsideTx_clear hg.grp some_true hx]
  unfold State.cpyOp
  rw [hl]
  exact congrArg Host.Outcome.next (if_neg (Nat.not_le.2 hn))

/-- The warp of a group whose lanes the engine holds. -/
theorem holdEngine_warp (hg : s.grp = some g) : WarpResult s.next ((s.passFalse g h).next.holdEngine g (g.trues h)) g
    (groupLane g h (fun _ la => { la with hold := .engine })) { g.wp with ctrCp := g.wp.ctrCp + 1 } :=
  ((lanesResult_modLanes h hg (fun la => { la with hold := .engine })).besides State.next (fun _ _ => rfl)).thenWarp _ (fun _ _ => rfl)

/-- Holding lanes changes no engine's load … -/
theorem holdEngine_load (cl : Nat) :
    ({ (s.passFalse g h).next.holdEngine g (g.trues h) with copies := s.copies } : State).engineLoad cl = s.engineLoad cl := by
  unfold State.engineLoad
  rfl

/-- … and no range table. -/
theorem holdEngine_cluster (cl : Nat) : ((s.passFalse g h).next.holdEngine g (g.trues h)).cluster cl = s.cluster cl := by
  unfold State.cluster
  rfl

/-- The operation of each lane stands at its word once the lanes are held. -/
theorem cpyOp_stands (hg : s.grp = some g) (scope : Scope) (auto : Bool) (tag : TagOpd) (n : Nat) (hv : s.viewOf g.wp.block = 0) {k : Nat}
    (hk : k ∈ g.trues h) (hsize : (s.laneRegs g k).src32 len ≠ 0)
    (hpass : (s.passFalse g h).checkCpy (s.whoOf g) g.pc (BitVec.ofNat 64 ((s.laneRegs g k).src64 x))
      (BitVec.ofNat 64 ((s.laneRegs g k).src64 y)) ((s.laneRegs g k).src32 len) = none) :
    CopyStands ((s.passFalse g h).next.holdEngine g (g.trues h)) (s.cpyOp g h scope auto x y len tag n k) := by
  have held := holdEngine_warp (h := h) hg
  obtain ⟨hw, -, -, hmem⟩ := State.grp_spec hg
  obtain ⟨-, la, hla, hst, hpc⟩ := hmem k (Grp.mem_trues hk)
  have lane : ((s.passFalse g h).next.holdEngine g (g.trues h)).lane? g.w k = some { la with hold := .engine } := by
    have after := held.lanes k
    rw [show s.next.lane? g.w k = some la from hla] at after
    exact after.trans (congrArg some (if_pos hk))
  refine ⟨rfl, hv, rfl, rfl, rfl, hsize, ⟨_, _, _, rfl, ?_⟩, ?_, ?_⟩
  · have size : (BitVec.ofNat 64 ((s.laneRegs g k).src32 len)).toNat = (s.laneRegs g k).src32 len :=
      (BitVec.toNat_ofNat _ _).trans (Nat.mod_eq_of_lt (Nat.lt_trans (src32_lt _ _) (by decide)))
    rw [size]
    exact hpass
  · cases hwp : ((s.passFalse g h).next.holdEngine g (g.trues h)).warp? g.w with
    | none =>
      rw [State.lane?, hwp] at lane
      cases lane
    | some wp => exact ⟨g.w, wp, rfl, hwp⟩
  · unfold State.copyHeld
    rw [show ((s.cpyOp g h scope auto x y len tag n k).warp.bind (fun w => State.lane?
      ((s.passFalse g h).next.holdEngine g (g.trues h)) w (s.cpyOp g h scope auto x y len tag n k).lane)) =
        some { la with hold := .engine } from lane]
    exact Prod.ext (by simp [hpc, State.cpyOp, copyOf]) (by simp [hst])

/-- The operations stand for the lanes, in order. -/
theorem cpyOp_lanes (scope : Scope) (auto : Bool) (tag : TagOpd) (n : Nat) (G : List Nat) :
    (G.map (s.cpyOp g h scope auto x y len tag n)).map (fun c => c.lane) = G := by
  rw [List.map_map]
  exact List.map_id _

/-- Two range entries are enough for a copy of bytes. -/
theorem cpyOp_entries (scope : Scope) (auto : Bool) (tag : TagOpd) (n k : Nat) :
    (s.cpyOp g h scope auto x y len tag n k).entries ≤ 2 := by
  unfold CopyOp.entries
  split
  · exact Nat.zero_le _
  · split
    · exact Nat.le_refl _
    · exact Nat.le_succ _

end

section
variable {s : State} {g : Grp} {h : Hdr} {x y len : Opd} {scope : Scope} {auto : Bool} {tag : TagOpd} {n : Nat}

/-- The copy of one lane enters, and the release of the lane begins. -/
theorem startCopies_one {l : Nat} (hl : g.trues h = [l])
    (hc : CopyStands ((s.passFalse g h).next.holdEngine g (g.trues h)) (s.cpyOp g h scope auto x y len tag n l))
    (hload : s.engineLoad (clusterOf g.wp.core) < 256) (hlocks : 2 ≤ (s.cluster (clusterOf g.wp.core)).locksFree)
    (hfirst : ∀ e ∈ s.copies, e.2.warp = some g.w → e.2.atIssue = false) :
    ∃ f, (s.passFalse g h).next.startCopies g ((g.trues h).map (s.cpyOp g h scope auto x y len tag n)) =
      { (s.passFalse g h).next.holdEngine g (g.trues h) with
        copies := s.copies ++ [(mapFresh s.copies, { s.cpyOp g h scope auto x y len tag n l with st := .queued, rel := some (s.tick + 1) })]
        fences := s.fences ++ [(s.tick + 1, f)]
        tick := s.tick + 2 } ∧
      f.warp = g.w ∧ f.lanes = lanesMask [l] ∧ f.kind = .rel ∧ f.scope = scope ∧ f.after = .nothing := by
  obtain ⟨w, wp, hw, hwp⟩ := hc.warp
  obtain rfl := Option.some.inj hw
  have locks : (s.cpyOp g h scope auto x y len tag n l).entries ≤
      (((s.passFalse g h).next.holdEngine g (g.trues h)).cluster (clusterOf g.wp.core)).locksFree := by
    rw [holdEngine_cluster]
    exact Nat.le_trans (cpyOp_entries scope auto tag n l) hlocks
  obtain ⟨f, push, hfence⟩ := pushCopy_one (k := mapFresh s.copies) (w := g.w) (cs := s.copies) hc rfl
    (fun e he => Nat.ne_of_lt (mapFresh_gt s.copies e he)) rfl hwp ((holdEngine_load _).trans_lt hload) locks hfirst
  have start := startCopies_eq (s.passFalse g h).next g (ops := (g.trues h).map (s.cpyOp g h scope auto x y len tag n)) (by simp [hl])
  rw [cpyOp_lanes, List.length_map] at start
  refine ⟨f, start.trans ?_, hfence⟩
  rw [hl] at push ⊢
  exact push

/-- While the engine is full, the copies of the lanes enter and none issues. -/
theorem startCopies_full (hG : g.trues h ≠ [])
    (hc : ∀ k ∈ g.trues h, CopyStands ((s.passFalse g h).next.holdEngine g (g.trues h)) (s.cpyOp g h scope auto x y len tag n k))
    (hfull : 256 ≤ s.engineLoad (clusterOf g.wp.core)) :
    ∃ ds, (s.passFalse g h).next.startCopies g ((g.trues h).map (s.cpyOp g h scope auto x y len tag n)) =
      { (s.passFalse g h).next.holdEngine g (g.trues h) with copies := s.copies ++ ds } ∧
      Unissued (s.copyKeys (g.trues h).length) ((g.trues h).map (s.cpyOp g h scope auto x y len tag n)) ds := by
  have start := startCopies_eq (s.passFalse g h).next g (ops := (g.trues h).map (s.cpyOp g h scope auto x y len tag n))
    (fun he => hG (List.map_eq_nil_iff.mp he))
  rw [cpyOp_lanes, List.length_map] at start
  obtain ⟨ds, push, hu⟩ := pushCopies_full (cs := s.copies) (cl := clusterOf g.wp.core)
    (b := (s.passFalse g h).next.holdEngine g (g.trues h)) (ops := (g.trues h).map (s.cpyOp g h scope auto x y len tag n))
    (fun c hmem => by
      obtain ⟨k, hk, rfl⟩ := List.mem_map.1 hmem
      exact ⟨hc k hk, rfl⟩)
    (hfull.trans_eq (holdEngine_load _).symm) (s.copyKeys (g.trues h).length) (fun k hk => (copyKeys_fresh hk).2)
    (unissued_enter (keys := s.copyKeys (g.trues h).length) (fun c hmem => by
      obtain ⟨k, -, rfl⟩ := List.mem_map.1 hmem
      rfl))
  exact ⟨ds, start.trans push, hu⟩

end

/-- Settles O28: the operations enter as they are; one alone is checked and begins its release, and while the engine is full every one
only waits. -/
theorem copyIssues : Obligations.CopyIssues := by
  unfold Obligations.CopyIssues
  intro h scope auto x y len tag s g l rest hg hl hx b cl n to_ from_ size op hn hv hpass
  have enter := exec_cpy hl hg hx scope auto tag hn
  have is : ∀ k ∈ g.trues h, ∀ st rel, op k { s.cpyOp g h scope auto x y len tag n k with st := st, rel := rel } := fun k hk st rel =>
    ⟨rfl, rfl, rfl, hv, rfl, rfl, rfl, rfl, rfl, rfl, rfl, rfl, rfl, rfl, if_neg (hpass k hk).1,
      (Bool.and_eq_true _ _).to_iff.trans (and_congr decide_eq_true_iff decide_eq_true_iff)⟩
  have lowest : ∀ k, (s.cpyOp g h scope auto x y len tag n k).auto = (auto && decide (k = l)) := fun k => by
    show (auto && decide ((g.trues h).head? = some k)) = _
    rw [hl, List.head?_cons, decide_eq_decide.2 (Option.some_inj.trans eq_comm)]
  have stands : ∀ k ∈ g.trues h, CopyStands ((s.passFalse g h).next.holdEngine g (g.trues h)) (s.cpyOp g h scope auto x y len tag n k) :=
    fun k hk => cpyOp_stands hg.grp scope auto tag n hv hk (hpass k hk).1 (hpass k hk).2
  have warp := holdEngine_warp (h := h) hg.grp
  have lanes := cpyOp_lanes (s := s) (g := g) (h := h) (x := x) (y := y) (len := len) scope auto tag n (g.trues h)
  refine ⟨⟨_, enter, lanes, fun c hc => ?_⟩, fun hrest hload hlocks hfirst => ?_, fun hfull => ?_⟩
  · obtain ⟨k, hk, rfl⟩ := List.mem_map.1 hc
    exact ⟨is k hk .checks none, rfl, lowest k⟩
  · subst hrest
    have first : l ∈ g.trues h := hl ▸ List.mem_singleton_self l
    obtain ⟨f, start, hwarp, hmask, hkind, hscope, hafter⟩ := startCopies_one hl (stands l first) hload hlocks hfirst
    refine ⟨_, f, _, enter.trans (congrArg Host.Outcome.next start), ?_, rfl, hwarp, hmask, hkind, hscope, hafter, rfl,
      is l first .queued (some (s.tick + 1)), ?_, rfl, rfl⟩
    · exact warp.besides (fun u => { u with
        copies := s.copies ++ [(mapFresh s.copies, { s.cpyOp g h scope auto x y len tag n l with st := .queued, rel := some (s.tick + 1) })]
        fences := s.fences ++ [(s.tick + 1, f)]
        tick := s.tick + 2 }) (fun _ _ => rfl)
    · exact (lowest l).trans (by simp)
  · obtain ⟨ds, start, hu⟩ := startCopies_full (by rw [hl]; exact List.cons_ne_nil _ _) stands hfull
    refine ⟨_, ds, enter.trans (congrArg Host.Outcome.next start), warp.besides (fun u => { u with copies := s.copies ++ ds }) (fun _ _ => rfl),
      rfl, ?_, fun e he => ?_⟩
    · rw [hu.lanes (by simp [State.copyKeys, upTo_eq]), lanes]
    · obtain ⟨key, c⟩ := e
      obtain ⟨hkey, hentered⟩ := hu.mem he
      obtain ⟨k, hk, hck⟩ := List.mem_map.1 hentered
      obtain ⟨st, rfl⟩ : ∃ st, c = { s.cpyOp g h scope auto x y len tag n k with st := st } := ⟨c.st, by rw [hck]⟩
      exact ⟨(copyKeys_fresh hkey).1, hu.atIssue _ he, rfl, lowest k, is k hk st none⟩

end Sys2Proof.Machine
end

section
/-! O56. The checks of an access, and the traps of lanes that fail them (R54, R79, R174, R263, R373). -/

namespace Sys2Proof.Machine

/-! ### The checks of a lane (R263) -/

/-- Sign extension of the low 57 bits repeats bit 56. -/
theorem getLsbD_canon (a : DWord) (k : Nat) (hk : k < 64) :
    ((a.setWidth 57).signExtend 64).getLsbD k = if k < 57 then a.getLsbD k else a.getLsbD 56 := by
  rw [BitVec.getLsbD_signExtend]
  by_cases h : k < 57
  · simp [hk, h]
  · simp [hk, h, BitVec.msb_setWidth]

/-- An address is canonical where its upper bits repeat bit 56 (R54). -/
theorem canonical_iff (a : DWord) : canonical a = true ↔ ∀ k, 57 ≤ k → k < 64 → a.getLsbD k = a.getLsbD 56 := by
  unfold canonical
  rw [decide_eq_true_iff]
  constructor
  · intro he k h57 h64
    have hbit := getLsbD_canon a k h64
    rwa [he, if_neg (Nat.not_lt.mpr h57)] at hbit
  · intro hk
    refine BitVec.eq_of_getLsbD_eq (fun k h64 => ?_)
    rw [getLsbD_canon a k h64]
    split
    · rfl
    · rename_i h57
      exact (hk k (Nat.not_lt.mp h57) h64).symm

section
variable {s : State} {p : Who} {pc : PC} {k : AccKindM} {a : DWord} {bytes align : Nat}

/-- An address that is canonical and aligned meets the range locks … -/
theorem checkLane_locked (hc : canonical a = true) (ha : a.toNat % (if s.wideRed p k (va57 a) then 8 else align) = 0) {e : Nat × RangeLock}
    (hl : (s.cluster p.cluster).lockHit p.asid p.view (va57 a) bytes k.writes = some e) :
    s.checkLane p pc k a bytes align = .trap { cause := 0x04, pc := pc, addr := some a, info := lockInfo e, resume := pc } := by
  unfold State.checkLane
  rw [if_neg (by rw [hc]; exact Bool.false_ne_true), if_neg (not_not_intro ha), hl]

/-- … and then the escape of a world. -/
theorem checkLane_unlocked (hc : canonical a = true) (ha : a.toNat % (if s.wideRed p k (va57 a) then 8 else align) = 0)
    (hl : (s.cluster p.cluster).lockHit p.asid p.view (va57 a) bytes k.writes = none) :
    (s.escapeOf p k (va57 a) = .wesc →
      s.checkLane p pc k a bytes align = .trap { cause := 0x05, pc := pc, addr := some a, info := 0, resume := pc }) ∧
    (s.escapeOf p k (va57 a) ≠ .wesc → s.checkLane p pc k a bytes align = .ok (va57 a) (s.escapeOf p k (va57 a))) := by
  unfold State.checkLane
  rw [if_neg (by rw [hc]; exact Bool.false_ne_true), if_neg (not_not_intro ha), hl]
  dsimp only
  refine ⟨fun hw => by rw [hw], fun hw => ?_⟩
  split
  · contradiction
  · rfl

theorem checkLane_notCanonical (hc : canonical a = false) :
    s.checkLane p pc k a bytes align = .trap { cause := 0x03, pc := pc, addr := some a, info := 0x06, resume := pc } := by
  unfold State.checkLane
  rw [if_pos (by rw [hc]; rfl)]
  rfl

theorem checkLane_misaligned (hc : canonical a = true) (ha : a.toNat % (if s.wideRed p k (va57 a) then 8 else align) ≠ 0) :
    s.checkLane p pc k a bytes align = .trap { cause := 0x02, pc := pc, addr := some a, info := 0, resume := pc } := by
  unfold State.checkLane
  rw [if_neg (by rw [hc]; exact Bool.false_ne_true), if_pos ha]
  rfl

end

/-! ### Lanes that each trap (R373) -/

/-- What a lane that is in no transaction becomes by a trap into the handler of its launch. -/
def Lane.trapped (la : Lane) (t : Trap) (handler clock : Nat) : Lane :=
  { la with
    tcause := BitVec.ofNat 32 t.cause
    tpc := t.pc.setWidth 64
    taddr := t.addr.getD la.taddr
    tinfo := t.info
    resume := t.resume
    pc := BitVec.ofNat 57 handler
    st := .entry (clock + 4)
    hold := .none
    readyAt := clock + 4
    inHandler := true }

theorem Lane.enter_noTx {la : Lane} (htx : la.tx = none) (t : Trap) (handler clock : Nat) :
    la.enter t (BitVec.ofNat 57 handler) clock = la.trapped t handler clock := by
  unfold Lane.enter Lane.trapped
  rw [htx]
  simp only [Option.map_none, Option.getD_none, Option.isSome_none, Bool.false_eq_true, if_false]

/-- Every guard-true lane of a group has trapped, each by its own trap, and nothing was asked. -/
structure EachTrapped (s u : State) (g : Grp) (h : Hdr) (τ : Nat → Trap) (handler : Nat) : Prop where
  mem : u.mem = s.mem
  reqs : u.reqs = s.reqs
  others : ∀ v, v ≠ g.w → u.warp? v = s.warp? v
  lanes : ∀ l, u.lane? g.w l =
    (s.lane? g.w l).map (groupLane g h (fun l la => la.trapped (τ l) handler (s.clock g.wp.core)) l)

section
variable {s u : State} {g : Grp} {h : Hdr} {τ : Nat → Trap} {handler : Nat}

theorem EachTrapped.tick (ht : EachTrapped s u g h τ handler) (n : Nat) : EachTrapped s { u with tick := n } g h τ handler :=
  ⟨ht.mem, ht.reqs, ht.others, ht.lanes⟩

/-- What its warp holds besides its lanes may change. -/
theorem EachTrapped.modWarp (ht : EachTrapped s u g h τ handler) {k : Warp → Warp} (hk : ∀ wp, (k wp).lanes = wp.lanes) :
    EachTrapped s (u.modWarp g.w k) g h τ handler := by
  refine ⟨ht.mem, ht.reqs, fun v hv => ?_, fun l => ?_⟩
  · rw [State.warp?_modWarp, if_neg hv]
    exact ht.others v hv
  · rw [← ht.lanes]
    unfold State.lane? Warp.lane?
    rw [State.warp?_modWarp, if_pos rfl]
    cases u.warp? g.w with
    | none => rfl
    | some wp => simp [hk]

theorem lanes_addPend (wp : Warp) (lanes : Mask) (i : MemI) (group clock : Nat) (pc : PC) :
    (wp.addPend lanes i group clock pc).lanes = wp.lanes := by
  unfold Warp.addPend
  split <;> rfl

/-- A load or an atomic whose lanes have all trapped asks for nothing … -/
theorem EachTrapped.loadLanes_nil (ht : EachTrapped s u g h τ handler) (p : Who) (i : MemI) :
    EachTrapped s (u.loadLanes g p i []) g h τ handler := by
  have hstart : EachTrapped s (u.next.startLoads g i u.tick []) g h τ handler := by
    unfold State.startLoads
    dsimp only
    split
    · exact ht.tick _
    · exact (ht.tick _).modWarp (fun wp => (Warp.count_lanes _ _ _).trans (lanes_addPend wp _ _ _ _ _))
  have hmk : ∀ b, mkReqs g p i u.tick b (fun _ => 0) [] = [] := fun b => by
    unfold mkReqs mkAccs groupAccs
    rfl
  have hall : ((u.next.stepLanes g.w []).portWait g.w [] u.tick) = u.next := (modLanes_nil _ _ _).trans (stepLanes_nil _ _)
  unfold State.loadLanes
  simp only [List.filter_nil, List.map_nil]
  rw [hall]
  split
  · exact hstart
  · unfold State.txLoads
    dsimp only
    rw [hmk, hmk]
    exact hstart

/-- … acquires … -/
theorem EachTrapped.acquireFor (ht : EachTrapped s u g h τ handler) (G : List Nat) (kind : Kind) (group : Nat) :
    EachTrapped s (u.acquireFor g G kind group) g h τ handler := by
  have hacq : EachTrapped s (u.acquire g.w (lanesMask G)) g h τ handler := ht.modWarp (fun _ => rfl)
  unfold State.acquireFor
  cases kind with
  | none | rel => exact ht
  | acq | ar =>
    dsimp only
    split
    · exact hacq.modWarp (fun _ => rfl)
    · exact hacq

/-- … and queues nothing. -/
theorem EachTrapped.queueLanes_nil (ht : EachTrapped s u g h τ handler) (p : Who) (i : MemI) (data : Nat → Nat) :
    EachTrapped s (u.queueLanes g p i data []) g h τ handler := by
  obtain ⟨n, hn⟩ := Machine.queueLanes_nil u g p i data
  rw [hn]
  exact ht.tick n

theorem EachTrapped.storeLanes_nil (ht : EachTrapped s u g h τ handler) (p : Who) (i : MemI) (kind : Kind) (data : Nat → Nat) :
    EachTrapped s (u.storeLanes g p i kind data []) g h τ handler := by
  have hall : ((u.next.stepLanes g.w []).portWait g.w [] u.tick) = u.next := (modLanes_nil _ _ _).trans (stepLanes_nil _ _)
  unfold State.storeLanes
  simp only [List.filter_nil, List.map_nil]
  rw [if_pos trivial, hall]
  exact ht.tick _

end

/-! ### Groups whose guard-true lanes all fail a check -/

/-- The lanes of a group that runs and whose guard-true lanes all fail a check of an access at an operand. -/
structure AllFail (s : State) (g : Grp) (h : Hdr) (m : MAddr) (i : MemI) (τ : Nat → Trap) (lr : LaunchRec) : Prop where
  grp : s.grp = some g
  launch : s.recOfBlock g.wp.block = some lr
  handler : lr.handler ≠ 0
  nonempty : g.trues h ≠ []
  calm : ∀ l ∈ g.trues h, s.aheadOf g.w l = none
  out : ∀ l ∈ g.trues h, ∀ la, s.lane? g.w l = some la → la.tx = none ∧ la.inHandler = false
  fails : ∀ l ∈ g.trues h, (s.passFalse g h).checkLane ((s.passFalse g h).whoOf g) g.pc i.kind ((s.laneRegs g l).addr m) i.bytes i.align =
    .trap (τ l)

section
variable {s : State} {g : Grp} {h : Hdr} {m : MAddr} {i : MemI} {τ : Nat → Trap} {lr : LaunchRec}

theorem AllFail.noTx (hf : AllFail s g h m i τ lr) : ∀ l ∈ g.trues h, ∀ la, s.lane? g.w l = some la → la.tx = none :=
  fun l hl la hla => (hf.out l hl la hla).1

theorem AllFail.checks (hf : AllFail s g h m i τ lr) :
    (s.passFalse g h).checkLanes g ((s.passFalse g h).whoOf g) m i (g.trues h) =
      { traps := (g.trues h).map (fun l => (l, τ l)), perform := [], queue := [] } :=
  checkLanes_traps _ g _ m i τ (g.trues h) hf.fails

/-- Each takes its trap, whatever has changed of its warp besides its lanes. -/
theorem AllFail.traps (hf : AllFail s g h m i τ lr) {k : Warp → Warp} (hk : ∀ wp, k wp = { wp with masks := (k wp).masks }) :
    EachTrapped s (((s.passFalse g h).modWarp g.w k).trapEach g.w ((g.trues h).map (fun l => (l, τ l)))) g h τ lr.handler := by
  obtain ⟨wp, hwp, hblock, hcore⟩ := passFalse_warp? hf.grp h
  have hkeep : ∀ l, ((s.passFalse g h).modWarp g.w k).lane? g.w l = (s.passFalse g h).lane? g.w l := fun l => by
    unfold State.lane? Warp.lane?
    rw [State.warp?_modWarp, if_pos rfl, hwp, Option.map_some, Option.bind_some, Option.bind_some, hk wp]
  have hent := trapEach_enter g.w g.wp.block g.wp.core lr hf.handler τ (s.clock g.wp.core) (g.trues h) (trues_nodup_of_grp hf.grp h)
    ((s.passFalse g h).modWarp g.w k) ⟨k wp, ?_, ?_, ?_⟩ rfl hf.launch (fun l hl => ?_) hf.calm
  · refine ⟨?_, ?_, fun v hv => ?_, fun l => ?_⟩
    · rw [hent.frame]
      rfl
    · rw [hent.frame]
      rfl
    · rw [hent.others v hv, State.warp?_modWarp, if_neg hv]
      exact passFalse_warp?_other s g h hv
    · rw [hent.lanes, hkeep, passFalse_lane? hf.grp, Option.map_map]
      cases hla : s.lane? g.w l with
      | none => rfl
      | some la =>
        refine congrArg some ?_
        unfold groupLane
        by_cases hl : l ∈ g.trues h
        · simp only [Function.comp, hl, not_true_eq_false, and_false, if_true, if_false]
          exact Lane.enter_noTx (hf.out l hl la hla).1 _ _ _
        · simp [hl]
  · rw [State.warp?_modWarp, if_pos rfl, hwp]
    rfl
  · rw [hk wp]
    exact hblock
  · rw [hk wp]
    exact hcore
  · obtain ⟨la, hla, -, hst⟩ := grp_lane hf.grp (Grp.mem_trues hl)
    exact ⟨la, (hkeep l).trans ((passFalse_lane?_true hf.grp hl).trans hla), (hf.out l hl la hla).2, by rw [hst]; simp⟩

/-- … and where nothing has. -/
theorem AllFail.trapEach (hf : AllFail s g h m i τ lr) :
    EachTrapped s ((s.passFalse g h).trapEach g.w ((g.trues h).map (fun l => (l, τ l)))) g h τ lr.handler := by
  have ht := hf.traps (k := fun wp => wp) (fun _ => rfl)
  rwa [modWarp_id] at ht

/-- Atomics, reductions and the writes of futures. -/
theorem AllFail.atomLanes (hf : AllFail s g h m i τ lr) (kind : Kind) (data : Nat → Nat) :
    EachTrapped s ((s.passFalse g h).atomLanes g ((s.passFalse g h).whoOf g) m i kind data (g.trues h)) g h τ lr.handler := by
  unfold State.atomLanes
  dsimp only
  rw [hf.checks]
  simp only [List.append_nil, List.map_nil, stepLanes_nil]
  rw [if_pos trivial]
  exact hf.trapEach.queueLanes_nil _ i data

/-- Reads that wait. -/
theorem AllFail.waitLanes (hf : AllFail s g h m i τ lr) (data : Nat → Nat) :
    EachTrapped s ((s.passFalse g h).waitLanes g m i data (g.trues h)) g h τ lr.handler := by
  unfold State.waitLanes
  dsimp only
  rw [hf.checks]
  dsimp only
  rw [if_pos rfl]
  exact hf.trapEach

/-- No lane is in a transaction: an instruction that ends them is performed as it is. -/
theorem AllFail.outsideTx (hf : AllFail s g h m i τ lr) (u : State) (f : List Nat → State → State) :
    outsideTx g (g.trues h) u f = f (g.trues h) u := outsideTx_clear hf.grp hf.nonempty hf.noTx u f

end

/-- Instructions that end transactions and then trap their lanes. -/
theorem outside_traps {s : State} {g : Grp} {h : Hdr} {m : MAddr} {q : MemI} {τ : Nat → Trap} {lr : LaunchRec} {i : Instr} {top : Nat}
    {f : Grp → List Nat → State → State} (hi : exec i s = .next (onGroup h top s (fun g G s => outsideTx g G s (f g))))
    (hg : Runs s g top) (hf : AllFail s g h m q τ lr) (ht : EachTrapped s (f g (g.trues h) (s.passFalse g h)) g h τ lr.handler) :
    ∃ u, exec i s = .next u ∧ EachTrapped s u g h τ lr.handler := by
  refine ⟨_, hi, ?_⟩
  rw [onGroup_runs hg hf.nonempty, hf.outsideTx]
  exact ht

/-- `ld` ahead of no speculative fence. -/
theorem ld_traps {s : State} {g : Grp} {h : Hdr} {t : Ty} {kind : Kind} {scope : Scope} {a : Dst} {m : MAddr} {τ : Nat → Trap}
    {lr : LaunchRec} (hg : Runs s g (max (a.top t.regBits) m.top)) (hcalm : s.specFence g.w (lanesMask g.lanes) = none)
    (hf : AllFail s g h m (ldI h t scope a) τ lr) : ∃ u, exec (.ld h t kind scope a m) s = .next u ∧ EachTrapped s u g h τ lr.handler := by
  have hdemand : ((s.passFalse g h).whoOf g).demand = true := by
    rw [whoOf_pass]
    unfold State.whoOf
    rw [hcalm]
    rfl
  refine ⟨_, congrArg Host.Outcome.next (onGroup_runs hg hf.nonempty _), ?_⟩
  dsimp only
  simp only [hf.outsideTx, ite_self, hf.checks, hdemand, Bool.not_true, Bool.false_and, Bool.false_eq_true, if_false]
  exact (hf.trapEach.loadLanes_nil _ _).acquireFor _ _ _

/-- `st`. -/
theorem st_traps {s : State} {g : Grp} {h : Hdr} {t : Ty} {kind : Kind} {scope : Scope} {m : MAddr} {d : Opd} {τ : Nat → Trap}
    {lr : LaunchRec} (hg : Runs s g (max (d.top t.regBits) m.top)) (hf : AllFail s g h m (stI h t kind scope) τ lr) :
    ∃ u, exec (.st h t kind scope m d) s = .next u ∧ EachTrapped s u g h τ lr.handler := by
  refine ⟨_, congrArg Host.Outcome.next (onGroup_runs hg hf.nonempty _), ?_⟩
  dsimp only
  simp only [hf.outsideTx, ite_self, hf.checks, List.append_nil, List.filter_nil, List.map_nil, List.foldl_nil, stepLanes_nil]
  exact (hf.trapEach.queueLanes_nil _ _ _).storeLanes_nil _ _ _ _

/-- `gath` enrols its lanes in the rejoin mask before they trap. -/
theorem gath_traps {s : State} {g : Grp} {h : Hdr} {t : Ty} {v : BitVec 8} {m : MAddr} {n : BitVec 3} {τ : Nat → Trap} {lr : LaunchRec}
    {e : Nat} (hg : Runs s g (max (Opd.top (.v v) t.bits) m.top)) (hf : AllFail s g h m (gathI h t v (mapFresh s.gathers)) τ lr)
    (he : (s.cluster ((s.passFalse g h).whoOf g).cluster).freeLock = some e) :
    ∃ u, exec (.gath h t v m n) s = .next u ∧ EachTrapped s u g h τ lr.handler := by
  have he' : ((s.passFalse g h).cluster ((s.passFalse g h).whoOf g).cluster).freeLock = some e := he
  refine outside_traps (f := fun g G s => _) rfl hg hf ?_
  dsimp only
  rw [he']
  dsimp only
  have hck := hf.checks
  unfold gathI at hck ⊢
  rw [show mapFresh (s.passFalse g h).gathers = mapFresh s.gathers from rfl, hck]
  dsimp only
  rw [if_pos rfl]
  exact hf.traps (fun _ => rfl)

/-- Settles O56: the order of the checks, and each instruction by what it makes of lanes that all trap. -/
theorem addressCheckTraps : Obligations.AddressCheckTraps := by
  refine ⟨canonical_iff, fun s p pc k a bytes align => ⟨checkLane_notCanonical, checkLane_misaligned,
    fun hc ha => ⟨fun n e hl => checkLane_locked hc ha hl, checkLane_unlocked hc ha⟩⟩, fun h op t kind scope a v m d pd n cond s => ?_⟩
  · intro traps any
    have main : ∀ {i : Instr} {top : Nat} {q : MemI} {may : Grp → Prop},
        (∀ g lr τ, Runs s g top → may g → AllFail s g h m q τ lr → ∃ u, exec i s = .next u ∧ EachTrapped s u g h τ lr.handler) →
        traps i top q may := by
      intro i top q may hi g lr τ hg hr hh hG hm ha hx hck
      obtain ⟨u, hu, hmem, hreqs, hothers, hlanes⟩ := hi g lr τ hg hm ⟨hg.grp, hr, hh, hG, ha, hx, hck⟩
      exact ⟨u, hu, hmem, hreqs, hothers, hlanes⟩
    exact ⟨main (fun _ _ _ hg hm hf => ld_traps hg hm hf), main (fun _ _ _ hg _ hf => st_traps hg hf),
      main (fun _ _ _ hg _ hf => outside_traps rfl hg hf (hf.atomLanes _ _)),
      main (fun _ _ _ hg _ hf => outside_traps rfl hg hf (hf.atomLanes _ _)),
      main (fun _ _ _ hg _ hf => outside_traps rfl hg hf (hf.waitLanes _)),
      main (fun _ _ _ hg _ hf => outside_traps rfl hg hf (hf.atomLanes _ _)),
      main (fun _ _ _ hg _ hf => outside_traps rfl hg hf (hf.atomLanes _ _)),
      main (fun _ _ _ hg _ hf => outside_traps rfl hg hf (hf.waitLanes _)),
      main (fun _ _ _ hg ⟨_, he⟩ hf => gath_traps hg hf he)⟩

end Sys2Proof.Machine
end

section
/-! O29. Tensor copies at issue, and what the engine delivers of an operation (R73, R108, R151, R284 to R286). -/

namespace Sys2Proof.Machine

/-! ### The lanes of cpyt (R285) -/

/-- An element of the origin operands of cpyt. -/
def orgWord (rg : Regs) (org : Opd) (i : Nat) : DWord :=
  match org with
  | .v m => (rg.vr (m.toNat + i)).setWidth 64
  | .s m => (rg.sr (m.toNat + i)).setWidth 64
  | _ => 0

/-- The operation that a lane of cpyt enters. -/
def State.cpytOp (s : State) (g : Grp) (h : Hdr) (scope : Scope) (auto : Bool) (x y org : Opd) (tag : TagOpd) (n l : Nat) : CopyOp :=
  { copyOf g ((s.passFalse g h).whoOf g) .cpyt n scope (auto && (g.trues h).head? = some l) s.tick l with
    st := .lasts
    instr := some (.cpyt h scope auto x y org tag)
    args := [BitVec.ofNat 64 ((s.laneRegs g l).src64 x), BitVec.ofNat 64 ((s.laneRegs g l).src64 y)] ++
      (upTo 5).map (orgWord (s.laneRegs g l) org)
    org := org }

/-- cpyt enters the operations of its lanes where each names its two lasts by canonical addresses at multiples of 64. -/
theorem exec_cpyt {s : State} {g : Grp} {h : Hdr} {l : Nat} {rest : List Nat} {x y org : Opd} (hl : g.trues h = l :: rest)
    (hg : Runs s g (max (max (x.top 64) (y.top 64)) (org.top 32)))
    (hx : ∀ k ∈ g.trues h, ∀ la, s.lane? g.w k = some la → la.tx = none) (scope : Scope) (auto : Bool) (tag : TagOpd)
    (hn : (s.laneRegs g l).tagOf tag < s.tagsOf g.wp.block)
    (ha : ∀ k ∈ g.trues h, canonical (BitVec.ofNat 64 ((s.laneRegs g k).src64 x)) = true ∧
      canonical (BitVec.ofNat 64 ((s.laneRegs g k).src64 y)) = true ∧ (BitVec.ofNat 64 ((s.laneRegs g k).src64 x)).toNat % 64 = 0 ∧
      (BitVec.ofNat 64 ((s.laneRegs g k).src64 y)).toNat % 64 = 0) :
    exec (.cpyt h scope auto x y org tag) s = .next ((s.passFalse g h).next.startCopies g
      ((g.trues h).map (s.cpytOp g h scope auto x y org tag ((s.laneRegs g l).tagOf tag)))) := by
  have some_true : g.trues h ≠ [] := by rw [hl]; exact List.cons_ne_nil _ _
  have count : ¬ (s.passFalse g h).tagsOf g.wp.block ≤ ((s.passFalse g h).laneRegs g l).tagOf tag := Nat.not_le.2 hn
  show execCpyt h scope auto x y org tag s = _
  unfold execCpyt
  rw [onGroup_runs hg some_true, outsideTx_clear hg.grp some_true hx]
  refine congrArg Host.Outcome.next ?_
  dsimp only
  rw [hl]
  refine (if_neg count).trans ?_
  rw [← hl, foldl_append (s.cpytOp g h scope auto x y org tag ((s.laneRegs g l).tagOf tag))]
  · rfl
  · intro k hk xs
    obtain ⟨hct, hcf, hat, haf⟩ := ha k hk
    have passes : ∀ {b : Bool}, b = true → ¬ (!b) = true := by decide
    refine (if_neg (passes hct)).trans ((if_neg (passes hcf)).trans ((if_neg (not_not_intro hat)).trans
      ((if_neg (not_not_intro haf)).trans ?_)))
    unfold State.cpytOp orgWord
    rw [hl]
    rfl

/-! ### COPY_DELIVER (R73, R108, R284) -/

section
variable {s : State} {n : Nat} {c : CopyOp} (hc : mapGet? s.copies n = some c)
include hc

/-- An operation that has nothing to count stays as it is. -/
theorem countDelivered_idle (hcount : c.counting = []) : mapGet? (s.countDelivered n c).copies n = some c := by
  have same : mapGet? (s.modCopy n (fun op => { op with
      counting := op.counting.filter (fun e => ¬ e.2 ≤ s.gtimeAt (placeCluster c.cluster)) })).copies n = some c := by
    unfold State.modCopy
    rw [mapGet?_mapModify_self, hc, Option.map_some, hcount, List.filter_nil, ← hcount]
  unfold State.countDelivered
  dsimp only
  rw [hcount]
  split
  · exact same
  · exact same

/-- A queued one, with no bytes to count, is pushed. -/
theorem copyDeliver_queued (hst : c.st = .queued) (ht : c.tenant = none) :
    exec (.copyDeliver n) s = .next ((s.countDelivered n c).pushCopy n) := by
  show execCopyDeliver n s = _
  unfold execCopyDeliver
  rw [hc]
  dsimp only
  rw [hst, ht]

/-- One in progress delivers, and is closed when nothing is left of it. -/
theorem copyDeliver_active (hst : c.st = .active) (hp : c.paused = none) (hb : (s.countDelivered n c).isSaving c.block = false)
    (ha : c.armed = true → c.locks ≠ []) {u : State} (hu : (s.countDelivered n c).deliverPiece n c = u) :
    (mapGet? u.copies n = none → exec (.copyDeliver n) s = .next u) ∧
    ∀ o, mapGet? u.copies n = some o →
      exec (.copyDeliver n) s = .next (if o.st = .active && o.pieces = [] then u.closeCopy n o else u) := by
  have entered : ¬ (c.armed && decide (c.locks = [])) = true := by
    simpa using ha
  have runs : ¬ (c.paused.isSome || (s.countDelivered n c).isSaving c.block) = true := by simp [hp, hb]
  show (_ → execCopyDeliver n s = _) ∧ ∀ o, _ → execCopyDeliver n s = _
  unfold execCopyDeliver
  rw [hc]
  dsimp only
  rw [hst]
  dsimp only
  rw [if_neg runs, if_neg entered, hu]
  exact ⟨fun hnone => by rw [hnone], fun o hsome => by rw [hsome]⟩

/-- One that is closed is over once its bytes are counted. -/
theorem copyDeliver_closed (hst : c.st = .closed) {o : CopyOp} (ho : mapGet? (s.countDelivered n c).copies n = some o)
    (hcount : o.counting = []) : exec (.copyDeliver n) s = .next ((s.countDelivered n c).copyOver n o) := by
  show execCopyDeliver n s = _
  unfold execCopyDeliver
  rw [hc]
  dsimp only
  rw [hst]
  dsimp only
  rw [ho]
  exact congrArg Host.Outcome.next (if_pos hcount)

end

/-- A queued operation of one lane whose release is over enters its ranges, and its lane goes on. -/
theorem issueCopy_released {s : State} {n w f : Nat} {c : CopyOp} {wp : Warp} (hw : c.warp = some w) (hwp : s.warp? w = some wp)
    (hroom : s.copyRoom c = true) (hrel : c.rel = some f) (hf : mapGet? s.fences f = none) (hauto : c.auto = false) (ht : c.total ≠ 0) :
    s.issueCopy n c = ((s.copyLaneGoes c).lockCopy c).1.modCopy n
      (fun o => { o with st := .active, locks := ((s.copyLaneGoes c).lockCopy c).2, rel := none }) := by
  unfold State.issueCopy
  rw [hw]
  dsimp only [Option.bind_some]
  rw [hwp]
  refine (if_neg (by rw [hroom]; exact Bool.false_ne_true)).trans ?_
  rw [hrel]
  dsimp only
  rw [hf, hauto, if_neg (by simp), if_neg Bool.false_ne_true, if_neg ht]

section
variable {s : State} {n : Nat} {c : CopyOp} (hp : c.pieces ≠ [])
include hp

/-- What the engine delivers where its reads succeed … -/
theorem deliverPiece_reads {s1 : State} {ahead : NatMap (BitVec 128)} {x : Nat}
    (hr : s.readParts c (c.pieces.filterMap (fun p => p.part (s.nextSector c).1 (s.nextSector c).2)) = (s1, .ok ahead, x))
    {s2 : State} {done : List (Nat × Nat × Nat)} {y : Nat}
    (hw : s1.writeParts c ahead (c.pieces.filterMap (fun p => p.part (s.nextSector c).1 (s.nextSector c).2))
      (c.add.isNone && (List.range ((s.nextSector c).2 - (s.nextSector c).1)).all (fun i =>
        (c.pieces.filterMap (fun p => p.part (s.nextSector c).1 (s.nextSector c).2)).any (fun p =>
          p.dst ≤ (s.nextSector c).1 + i && (s.nextSector c).1 + i < p.dst + p.len))) = (s2, .ok done, y)) :
    s.deliverPiece n c =
      if ∃ p ∈ c.pieces.flatMap (fun p => p.left (s.nextSector c).1 (s.nextSector c).2),
          lineOf p.dst ≤ lineOf (s.nextSector c).1 ∧ lineOf (s.nextSector c).1 ≤ lineOf (p.dst + p.len - 1) then
        s2.delivered n c ahead (c.pieces.flatMap (fun p => p.left (s.nextSector c).1 (s.nextSector c).2)) done
      else (s2.delivered n c ahead (c.pieces.flatMap (fun p => p.left (s.nextSector c).1 (s.nextSector c).2)) done).drainFill c
        (((c.pieces.filterMap (fun p => p.part (s.nextSector c).1 (s.nextSector c).2)).map (·.dst)).headD (s.nextSector c).1) := by
  unfold State.deliverPiece
  rw [if_neg hp]
  dsimp only
  rw [hr]
  dsimp only
  rw [upTo_eq, hw]
  dsimp only
  refine if_congr ?_ rfl rfl
  simp only [List.any_eq_true, Bool.and_eq_true, decide_eq_true_eq]

/-- … and where one does not. -/
theorem deliverPiece_stops {s1 : State} {r : EngR (NatMap (BitVec 128))} {x : Nat} (hno : ∀ v, r ≠ .ok v)
    (hr : s.readParts c (c.pieces.filterMap (fun p => p.part (s.nextSector c).1 (s.nextSector c).2)) = (s1, r, x)) :
    s.deliverPiece n c = s.stopCopy n c x r := by
  unfold State.deliverPiece
  rw [if_neg hp]
  dsimp only
  rw [hr]
  cases r with
  | ok v => exact absurd rfl (hno v)
  | retry | full | fault | error => rfl

end

/-- Settles O29: cpyt by its lanes, and COPY_DELIVER by where the operation stands. -/
theorem tensorCopyAndDeliveryResults : Obligations.TensorCopyAndDeliveryResults := by
  unfold Obligations.TensorCopyAndDeliveryResults
  constructor
  · intro h scope auto x y org tag s g l rest hg hl hx to_ from_ hn ha
    refine ⟨_, exec_cpyt hl hg hx scope auto tag hn ha, ?_, fun c hm => ?_⟩
    · rw [List.map_map]
      exact List.map_id _
    · obtain ⟨k, -, rfl⟩ := List.mem_map.1 hm
      refine ⟨rfl, rfl, rfl, rfl, ?_, rfl, rfl, rfl⟩
      show (auto && decide ((g.trues h).head? = some k)) = _
      rw [hl, List.head?_cons, decide_eq_decide.2 (Option.some_inj.trans eq_comm)]
      rfl
  · intro s n c hc d
    refine ⟨?_, ?_, ?_⟩
    · intro w wp f hst ht hp hcount hauto hbytes hw hwp hheld hturn hroom hrel hf
      rw [copyDeliver_queued hc hst ht, pushCopy_queued d n c (countDelivered_idle hc hcount) hst hp hheld, if_pos hturn,
        issueCopy_released hw hwp hroom hrel hf hauto hbytes]
    · intro hst hp hb ha hpieces e due left whole
      constructor
      · intro s1 ahead x s2 done y hr hw s3 s4 c' hc'
        have step := (copyDeliver_active hc hst hp hb ha (deliverPiece_reads hpieces hr hw)).2 c' hc'
        rw [step]
        refine congrArg Host.Outcome.next (if_congr ?_ rfl rfl)
        rw [Bool.and_eq_true, decide_eq_true_iff, decide_eq_true_iff]
      · intro s1 r x hr hno hleft
        have step := copyDeliver_active hc hst hp hb ha (deliverPiece_stops hpieces hno hr)
        cases hget : mapGet? (d.stopCopy n c x r).copies n with
        | none => exact step.1 hget
        | some c' =>
          rw [step.2 c' hget, if_neg]
          obtain hgone | hstays := hleft
          · rw [hgone] at hget
            cases hget
          · simp [hstays c' hget]
    · intro hst c' hc' hcount
      exact copyDeliver_closed hc hst hc' hcount

end Sys2Proof.Machine
end

section
/-! O35. The path of a request: its L1 lookup, its arrival, retries, polls and acknowledgements (R55, R61, R62, R66, R93, R96, R103,
R271, R277, R368). -/

namespace Sys2Proof.Machine

/-- What a load does at its L1 lookup. -/
def State.lookUp (s : State) (r : Nat) (q : Req) : State :=
  match s.l1Copy q with
  | some d => if q.kind = .prefetch then s.dropReq r else s.hitL1 r q d
  | none =>
    match s.pendingFill r q with
    | some (j, p) =>
      if q.kind = .prefetch then s.dropReq r
      else if s.clock q.core < p.slot.getD 0 + 32 then (s.modReq r (fun q => { q with st := .joined j, sentNo := s.tick })).next
      else s
    | none => if s.slotFree q then s.sendReq r true else if q.kind = .prefetch then s.dropReq r else s

/-- What a request does at its home slice, by its kind. -/
def State.arriveHome (s : State) (r : Nat) (q : Req) : State :=
  match q.kind with
  | .load _ | .gath _ | .prefetch => s.arriveLoad r q
  | .store | .atom _ _ _ | .red _ _ | .fset | .fclr => s.arriveWrite r q
  | .fld => s.arriveFld r q
  | .waiton c t => s.arriveWait r q c t
  | .ifetch => s

/-- A load that does not bypass looks its line up in the L1. -/
theorem looksUp {q : Req} (hf : q.kind.fills = true) (hh : q.hint ≠ 3) : (q.kind.fills && decide (q.hint ≠ 3)) = true := by
  rw [hf, decide_eq_true hh]
  rfl

section
variable {r : Nat} {s : State} {q : Req} (hq : s.req? r = some q)
include hq

/-! ### Leaving the core (R60 to R62, R96) -/

/-- Before the clock of its L1 lookup a request stays where it is. -/
theorem requestSend_early (ht : s.clock q.core < q.lookAt) : exec (.requestSend r) s = .next s := by
  show execRequestSend r s = _
  unfold execRequestSend
  rw [hq]
  exact congrArg Host.Outcome.next (if_pos (.inr (.inl ht)))

section
variable (hst : q.st = .waiting) (ht : q.lookAt ≤ s.clock q.core) (hline : s.olderOnLine r q = false) (hlane : s.olderOfLane r q = false)
  (hap : s.apertureOff q.ctx (q.line * 192) = none)
include hst ht hline hlane hap

/-- One that may leave, outside cluster memory, looks its line up in the L1, or is sent with the slot that it needs. -/
theorem requestSend_ready {u : State} (hu : (if q.kind.fills && q.hint ≠ 3 then s.lookUp r q
    else if !q.kind.slotted || s.slotFree q then s.sendWrite r q
    else if q.kind = .prefetch then s.dropReq r
    else s) = u) : exec (.requestSend r) s = .next u := by
  have may : ¬ (q.st ≠ .waiting ∨ s.clock q.core < q.lookAt ∨ s.olderOnLine r q = true ∨ s.olderOfLane r q = true) := by
    rw [hst, hline, hlane]
    simpa using ht
  have outside : ¬ (s.apertureOff q.ctx (q.line * 192)).isSome = true := by
    rw [hap]
    exact Bool.false_ne_true
  show execRequestSend r s = _
  unfold execRequestSend
  rw [hq]
  refine congrArg Host.Outcome.next ((if_neg may).trans ((if_neg outside).trans hu))

section
variable (hf : q.kind.fills = true) (hk : q.kind ≠ .prefetch) (hh : q.hint ≠ 3)
include hf hk hh

/-- A load hits in the L1 … -/
theorem requestSend_hits {d : DLine} (hd : s.l1Copy q = some d) : exec (.requestSend r) s = .next (s.hitL1 r q d) := by
  refine requestSend_ready hq hst ht hline hlane hap ((if_pos (looksUp hf hh)).trans ?_)
  unfold State.lookUp
  rw [hd]
  exact if_neg hk

/-- … or joins a pending fill … -/
theorem requestSend_joins (hd : s.l1Copy q = none) {j : Nat} {p : Req} (hp : s.pendingFill r q = some (j, p))
    (hc : s.clock q.core < p.slot.getD 0 + 32) :
    exec (.requestSend r) s = .next (s.modReq r (fun q => { q with st := .joined j, sentNo := s.tick })).next := by
  refine requestSend_ready hq hst ht hline hlane hap ((if_pos (looksUp hf hh)).trans ?_)
  unfold State.lookUp
  rw [hd, hp]
  exact (if_neg hk).trans (if_pos hc)

omit hk in
/-- … or is sent with a free slot. -/
theorem requestSend_sends (hd : s.l1Copy q = none) (hp : s.pendingFill r q = none) (hslot : s.slotFree q = true) :
    exec (.requestSend r) s = .next (s.sendReq r true) := by
  refine requestSend_ready hq hst ht hline hlane hap ((if_pos (looksUp hf hh)).trans ?_)
  unfold State.lookUp
  rw [hd, hp]
  exact if_pos hslot

end

/-- Any other request is sent once it has the slot that it needs. -/
theorem requestSend_writes (hf : q.kind.fills = false ∨ q.hint = 3) (hslot : q.kind.slotted = false ∨ s.slotFree q = true) :
    exec (.requestSend r) s = .next (s.sendWrite r q) := by
  have bypasses : ¬ (q.kind.fills && decide (q.hint ≠ 3)) = true := by
    rcases hf with hf | hf
    · simp [hf]
    · simp [hf]
  have slot : (!q.kind.slotted || s.slotFree q) = true := by
    rcases hslot with hslot | hslot
    · simp [hslot]
    · simp [hslot]
  exact requestSend_ready hq hst ht hline hlane hap ((if_neg bypasses).trans (if_pos slot))

end

/-! ### Arrival (R55, R66, R93, R271, R368) -/

/-- A shootdown holds the requests for its range. -/
theorem homeSliceRequest_held (hi : s.invalHolds r q = true) : exec (.homeSliceRequest r) s = .next s := by
  have waits : (!s.mayArrive r q) = true := by
    unfold State.mayArrive
    rw [hi]
    rfl
  show execHomeSliceRequest r s = _
  unfold execHomeSliceRequest
  rw [hq]
  exact congrArg Host.Outcome.next (if_pos (.inr waits))

section
variable (hst : q.st = .sent) (hm : s.mayArrive r q = true)
include hst hm

/-- A request that may arrive is performed at the bank that its address names … -/
theorem homeSliceRequest_bank (hb : (s.apertureOff q.ctx (((q.accs.head?).map (·.addr)).getD (q.line * 192))).isSome = true) :
    exec (.homeSliceRequest r) s = .next (s.arriveBank r q) := by
  have may : ¬ (q.st ≠ .sent ∨ (!s.mayArrive r q) = true) := by simp [hst, hm]
  show execHomeSliceRequest r s = _
  unfold execHomeSliceRequest
  rw [hq]
  exact congrArg Host.Outcome.next ((if_neg may).trans (if_pos hb))

/-- … or at its home slice. -/
theorem homeSliceRequest_home (hb : s.apertureOff q.ctx (((q.accs.head?).map (·.addr)).getD (q.line * 192)) = none) :
    exec (.homeSliceRequest r) s = .next (s.arriveHome r q) := by
  have may : ¬ (q.st ≠ .sent ∨ (!s.mayArrive r q) = true) := by simp [hst, hm]
  have slice : ¬ (s.apertureOff q.ctx (((q.accs.head?).map (·.addr)).getD (q.line * 192))).isSome = true := by
    rw [hb]
    exact Bool.false_ne_true
  show execHomeSliceRequest r s = _
  unfold execHomeSliceRequest
  rw [hq]
  exact congrArg Host.Outcome.next ((if_neg may).trans (if_neg slice))

end

/-! ### Retries, polls and acknowledgements (R93, R103, R277) -/

/-- A retry is counted where a pin holds its line, and is sent again. -/
theorem exec_accessRetry (hst : q.st = .retry) : exec (.accessRetry r) s = .next
    (((if s.pinnedAt q.who q.line q.page then
        s.bump (offCounter q.core (0x100 * ((q.warp.bind s.warp?).map (·.part)).getD 0 + 0x68)) 1 else s).modReq r (fun q =>
      { q with st := .sent, sentNo := s.tick })).next) := by
  show execAccessRetry r s = _
  unfold execAccessRetry
  rw [hq]
  exact congrArg Host.Outcome.next (if_neg (not_not_intro hst))

/-- A wait that is not registered reads again when it is due. -/
theorem exec_waitonPoll {c : Cond} {t : Ty} (hk : q.kind = .waiton c t) (hst : q.st = .held)
    (hw : r ∉ (s.slice (s.homeOf q.ctx q.page)).waits) (hd : q.due ≤ s.sliceTime q.who q.page)
    (hap : s.apertureOff q.ctx (q.line * 192) = none) : exec (.waitonPoll r) s = .next (s.arriveWait r q c t false) := by
  show execWaitonPoll r s = _
  unfold execWaitonPoll
  rw [hq]
  dsimp only
  rw [hk]
  exact congrArg Host.Outcome.next (if_pos ⟨hst, hw, hd, by rw [hap]; rfl⟩)

/-- An acknowledged write of type 2 takes its time for all three … -/
theorem exec_writeAck_type2 (hst : q.st = .ackWait true) : exec (.hostPeerWriteAck r) s = .next (s.modReq r (fun p =>
    { p with
      st := .performed
      tcl := s.sliceTime q.who q.page
      tdv := s.sliceTime q.who q.page
      tsy := s.sliceTime q.who q.page })) := by
  show execHostPeerWriteAck r s = _
  unfold execHostPeerWriteAck
  rw [hq]
  dsimp only
  rw [hst]

/-- … another has its Tsy then. -/
theorem exec_writeAck_other (hst : q.st = .ackWait false) : exec (.hostPeerWriteAck r) s = .next
    ((s.noteTsy q.who q.line q.page (max q.tdv (s.sliceTime q.who q.page))).modReq r (fun p =>
      { p with st := .performed, tsy := max p.tsy (max p.tdv (s.sliceTime q.who q.page)) })) := by
  show execHostPeerWriteAck r s = _
  unfold execHostPeerWriteAck
  rw [hq]
  dsimp only
  rw [hst]

end

/-- A load that the cluster cache holds is performed with the bytes of the copy (R92). -/
theorem arriveLoad_cached {s : State} {q : Req} {d : DLine} (r : Nat) (hh : q.hint ≠ 3) (hk : q.kind ≠ .prefetch)
    (hd : s.ccCopy q = some d) : s.arriveLoad r q =
      (s.ccFill q d).1.loaded r (s.readAccs q (fun i n => some (lineGet d.data i n))).1
        (s.readAccs q (fun i n => some (lineGet d.data i n))).2 (some (s.ccFill q d).2) d.tldv d.tlsy := by
  unfold State.arriveLoad
  dsimp only
  rw [if_neg (by simp [hk]), if_neg hh, hd]

/-- Settles O35: REQUEST_SEND by whether the request may leave and what answers it, HOME_SLICE_REQUEST by where it arrives. -/
theorem requestPathResults : Obligations.RequestPathResults := by
  intro r s q hq arrive bank now
  refine ⟨fun _ ht => requestSend_early hq ht, fun hst ht hline hlane hap => ⟨fun hf hk hh => ⟨fun d hd => ?_, fun hd j p hp hc => ?_,
      fun hd hp hslot => ?_⟩, fun hf => ⟨fun hslot => ?_, fun _ hslot => ?_⟩⟩,
    homeSliceRequest_held hq, fun hst hm => ⟨homeSliceRequest_bank hq hst hm, fun hb => ?_⟩,
    fun d hh hk hd => ⟨_, _, arriveLoad_cached r hh hk hd, rfl, rfl, rfl⟩, exec_accessRetry hq,
    fun c t hk hst hw hd hap => exec_waitonPoll hq hk hst hw hd hap, exec_writeAck_type2 hq, fun hst => ?_⟩
  · exact requestSend_hits hq hst ht hline hlane hap hf hk hh hd
  · exact requestSend_joins hq hst ht hline hlane hap hf hk hh hd hp hc
  · exact requestSend_sends hq hst ht hline hlane hap hf hh hd hp hslot
  · exact requestSend_writes hq hst ht hline hlane hap hf (.inl hslot)
  · exact requestSend_writes hq hst ht hline hlane hap hf (.inr hslot)
  · have home : ∀ {u : State}, s.arriveHome r q = u → arrive = .next u := fun hu =>
      (homeSliceRequest_home hq hst hm hb).trans (congrArg Host.Outcome.next hu)
    unfold State.arriveHome at home
    refine ⟨fun f hk => home ?_, fun g hk => home ?_, fun hk => home ?_, fun hk => home ?_, fun op t ret hk => home ?_,
      fun op t hk => home ?_, fun hk => home ?_, fun c t hk => home ?_⟩
    case refine_4 =>
      rcases hk with hk | hk | hk
      · rw [hk]
      · rw [hk]
      · rw [hk]
    all_goals rw [hk]
  · exact exec_writeAck_other hq hst

end Sys2Proof.Machine
end

section
/-! O45. What the packets of contexts, banks and power do when they start (R64, R67 to R69, R352, R388, R393). -/

namespace Sys2Proof.Machine

/-- A packet that starts leaves what its start leaves, closed. -/
theorem exec_starts {s u : State} {i : Instr} {q n : Nat} {inCtx : Bool} {start goOn : State → State}
    (hi : exec i s = .next (s.packet i q n inCtx start goOn)) (hs : Starts s i q n inCtx) (hu : start s = u) :
    exec i s = .next (u.closeCmd q n) := by
  rw [hi, packet_start hs, hu]

section
variable {q n : Nat} {h : PktHdr} {s : State}

/-! ### Contexts (R352) -/

/-- CTXCREATE of a number in use is refused … -/
theorem ctxcreate_used {body : CtxBody} (hs : Starts s (.ctxcreate q n h body) q n false)
    (hx : (s.ctx? (64 * s.queuePart q + body.ctx)).isSome = true) :
    exec (.ctxcreate q n h body) s = .next ((s.endCmd q n 7 0x0D 0).closeCmd q n) :=
  exec_starts rfl hs (if_pos hx)

/-- … and of a free one makes the context live, its counters zero. -/
theorem ctxcreate_free {body : CtxBody} (hs : Starts s (.ctxcreate q n h body) q n false)
    (hx : s.ctx? (64 * s.queuePart q + body.ctx) = none) :
    let t := (upTo 4).foldl (fun u i => u.setReg (offCtx (64 * s.queuePart q + body.ctx) (0x10 + 8 * i)) 0) s
    exec (.ctxcreate q n h body) s = .next ((State.doneCmd
      { t with ctxs := mapSet t.ctxs (64 * s.queuePart q + body.ctx) { body := body, destroying := false, standing := none } }
      q n 0 0).closeCmd q n) :=
  exec_starts rfl hs (if_neg (by
    rw [hx]
    exact Bool.false_ne_true))

/-- CTXDESTROY of a context that is not open is refused … -/
theorem ctxdestroy_closed {k : Nat} (hs : Starts s (.ctxdestroy q n h k) q n false)
    (hx : 64 ≤ k ∨ s.ctxOpen (64 * s.queuePart q + k) = false) :
    exec (.ctxdestroy q n h k) s = .next ((s.endCmd q n 7 0x0B 0).closeCmd q n) :=
  exec_starts rfl hs (if_pos (hx.imp_right (fun ho => (congrArg Bool.not ho : (!s.ctxOpen (64 * s.queuePart q + k)) = !false))))

/-- … and of an open one marks it and frees it where nothing of it is left. -/
theorem ctxdestroy_open {k : Nat} (hs : Starts s (.ctxdestroy q n h k) q n false) (hk : k < 64)
    (ho : s.ctxOpen (64 * s.queuePart q + k) = true) :
    let t := (s.startCmd q n).modCtx (64 * s.queuePart q + k) (fun c => { c with destroying := true })
    exec (.ctxdestroy q n h k) s =
      .next ((if t.ctxIdle (64 * s.queuePart q + k) then (t.freeCtx (64 * s.queuePart q + k)).doneCmd q n 0 0
        else t.killUnstarted (64 * s.queuePart q + k)).closeCmd q n) := by
  refine exec_starts rfl hs (if_neg ?_)
  rintro (h64 | hclosed)
  · omega
  · rw [ho] at hclosed
    exact Bool.false_ne_true hclosed

/-! ### Operating points (R388) -/

/-- OPPOINT while no rail moves. -/
theorem oppoint_still {mask : DWord} {slots f t : Nat} (hs : Starts s (.oppoint q n h mask slots f t) q n false) (hr : s.railMove = none) :
    exec (.oppoint q n h mask slots f t) s =
      .next (((s.startCmd q n).startOppoint q n ((upTo 64).filter (fun c => mask.getLsbD c)) slots f t).closeCmd q n) :=
  exec_starts rfl hs (if_neg (by
    rw [hr]
    exact Bool.false_ne_true))

end

/-- Settles O45: each packet by what it does once it starts; the banks of CMCFG by `State.configure`. -/
theorem contextAndPowerPacketsStart : Obligations.ContextAndPowerPacketsStart := by
  unfold Obligations.ContextAndPowerPacketsStart
  intro q n h s
  refine ⟨fun body hs => ⟨ctxcreate_used hs, ctxcreate_free hs⟩, fun k hs => ⟨ctxdestroy_closed hs, ctxdestroy_open hs⟩, ?_, ?_, ?_, ?_⟩
  · exact fun cluster mask hs => exec_starts rfl hs rfl
  · exact fun cluster mask owner hs => exec_starts rfl hs rfl
  · exact fun cluster mask owner port hs => exec_starts rfl hs rfl
  · exact fun mask slots f t hs => oppoint_still hs

end Sys2Proof.Machine
end

section
/-! O48. Writes of device registers: CRESET, PARTCFG, registers without behaviour of their own, and the histogram engine (R333, R351,
R352, R364, R395 to R397). -/

namespace Sys2Proof.Machine

/-! ### PARTCFG (R64, R351, R364) -/

/-- The state with local DRAM zeroed and every cache, translator, bank mode and histogram sample gone (R364). -/
def State.wiped (s : State) : State :=
  { s with
    mem := s.mem.filter (fun c => s.dramSize ≤ c.1)
    owners := []
    poison := s.poison.filter (fun q => s.dramSize ≤ 16 * q)
    clusters := s.clusters.map (fun e => (e.1, { e.2 with banks := [], cc := [] }))
    cores := s.cores.map (fun e => (e.1, { e.2 with l1d := [], l1i := [] }))
    slices := []
    histBuf := [] }

/-- PARTCFG where no context is alive. -/
theorem exec_partcfgWrite {s : State} (h : s.ctxs = []) (v : DWord) : exec (.partcfgWrite v) s =
    .next ((s.wiped.setReg offHctl (s.wiped.reg offHctl &&& 0x3FFF6)).setReg offPartcfg (v &&& 3)) :=
  congrArg Host.Outcome.next (if_neg (not_not_intro h))

/-- A byte of memory that keeps only what lies at or above an address reads 0 below it. -/
theorem readMem_above (m : List Host.Cell) (d a : Nat) :
    readMem (m.filter (fun c => d ≤ c.1)) a = if d ≤ a then readMem m a else 0 := by
  unfold readMem mapGetD
  rw [get_filter m (fun x => d ≤ x) a]
  by_cases h : d ≤ a
  · rw [if_pos h, if_pos (decide_eq_true h)]
  · rw [if_neg h, if_neg (by simpa using h)]
    rfl

theorem wiped_clusters {s : State} {e : Nat × Cluster} (he : e ∈ s.wiped.clusters) : e.2.banks = [] ∧ e.2.cc = [] := by
  obtain ⟨c, -, rfl⟩ := List.mem_map.mp he
  exact ⟨rfl, rfl⟩

theorem wiped_cores {s : State} {e : Nat × Core} (he : e ∈ s.wiped.cores) : e.2.l1d = [] ∧ e.2.l1i = [] := by
  obtain ⟨c, -, rfl⟩ := List.mem_map.mp he
  exact ⟨rfl, rfl⟩

/-! ### The histogram engine (R395, R397) -/

/-- HIST_ENABLE that is accepted. -/
theorem exec_histEnable {s : State} {v : DWord} (hbusy : (s.reg offHctl).getLsbD 63 = false) (hsource : v.toNat / 2 % 4 ≠ 3)
    (hlow : 4 ≤ s.histLog) (hhigh : s.histLog ≤ 20) (hpart : v.toNat / 256 % 8 < s.nparts) :
    exec (.histEnable v) s = .next { s.setReg offHctl (v &&& 0x3FFF7) with
      histBuf := []
      cores := s.cores.map (fun e => (e.1, { e.2 with parts := e.2.parts.map (fun p => (p.1, { p.2 with histEvents := 0 })) })) } := by
  refine congrArg Host.Outcome.next (if_neg ?_)
  rw [hbusy]
  rintro (h | h | h | h | h)
  · exact Bool.false_ne_true h
  · exact hsource h
  · omega
  · omega
  · omega

/-- Settles O48: each write by whether its register accepts it. -/
theorem deviceRegisterWrites : Obligations.DeviceRegisterWrites := by
  intro s v
  refine ⟨fun x hx => congrArg Host.Outcome.next (if_pos hx), fun hc => congrArg Host.Outcome.next (if_pos hc), fun hc => ?_,
    fun off size => ⟨fun hw => congrArg Host.Outcome.next (if_pos hw), fun hw => congrArg Host.Outcome.next (if_neg hw)⟩,
    exec_histEnable, rfl, fun hbusy => congrArg Host.Outcome.next (if_pos hbusy)⟩
  refine ⟨_, exec_partcfgWrite hc v, rfl, rfl, rfl, rfl, rfl, rfl, fun a ha => ?_, fun a ha => ?_, fun _ => wiped_clusters,
    fun _ => wiped_cores, s.wiped, rfl⟩
  · exact (readMem_above s.mem s.dramSize a).trans (if_neg (Nat.not_le.mpr ha))
  · exact (readMem_above s.mem s.dramSize a).trans (if_pos ha)

end Sys2Proof.Machine
end

section
/-! O49. What comes from outside: host writes, merged reductions, ports, and memory errors (R85, R330, R331, R353, R405 to R407). -/

namespace Sys2Proof.Machine

/-! ### Accesses from outside (R85, R103, R330) -/

/-- An access from outside that meets a pinned line is kept to be made again … -/
theorem fromOutside_pinned {s : State} {pa n : Nat} (h : s.pinnedOutside pa n = true) (i : Instr) (f : State → State) :
    s.fromOutside pa n i f = { s with outside := s.outside ++ [i] } := if_pos h

/-- … any other is performed. -/
theorem fromOutside_free {s : State} {pa n : Nat} (h : s.pinnedOutside pa n = false) (i : Instr) (f : State → State) :
    s.fromOutside pa n i f = f s := if_neg (by rw [h]; exact Bool.false_ne_true)

/-- A host write names device or host memory … -/
theorem exec_hostMemWrite {s : State} {pa : Nat} (hr : s.range pa = .local_ ∨ s.range pa = .host) (bytes : List (BitVec 8)) :
    exec (.hostMemWrite pa bytes) s = .next (s.fromOutside pa bytes.length (.hostMemWrite pa bytes) (fun s =>
      { (s.outsideWrite pa bytes).1 with hostTdv := max (s.outsideWrite pa bytes).1.hostTdv (s.outsideWrite pa bytes).2 })) := by
  show execHostMemWrite pa bytes s = _
  unfold execHostMemWrite
  rcases hr with hr | hr
  · rw [hr]
  · rw [hr]

/-- … or does nothing. -/
theorem exec_hostMemWrite_elsewhere {s : State} {pa : Nat} (hl : s.range pa ≠ .local_) (hh : s.range pa ≠ .host)
    (bytes : List (BitVec 8)) : exec (.hostMemWrite pa bytes) s = .next s := by
  show execHostMemWrite pa bytes s = _
  unfold execHostMemWrite
  cases hr : s.range pa with
  | local_ => exact absurd hr hl
  | host => exact absurd hr hh
  | device | peer | none => rfl

/-- A merged reduction on local DRAM. -/
theorem exec_ylReductionArrive {s : State} {pa : Nat} (hr : s.range pa = .local_) (op : Aop) (t : Ty) (x : DWord) :
    exec (.ylReductionArrive pa op t x) s = .next (s.fromOutside pa (t.bits / 8) (.ylReductionArrive pa op t x) (fun s =>
      (s.outsideWrite pa (natBytes (t.bits / 8)
        (atomNew op t 0 0 (bytesNat (s.physBytes pa (t.bits / 8))) (x.toNat % 2 ^ t.bits)))).1)) :=
  congrArg Host.Outcome.next (if_pos hr)

/-! ### Ports (R353) -/

theorem exec_ylLinkState {y : Nat} (hy : y < 12) (up : Bool) (chip : Nat) (s : State) :
    exec (.ylLinkState y up chip) s = .next (s.setReg (offPort y 8)
      (if up && (s.reg (offPort y 0)).getLsbD 0 then BitVec.ofNat 64 (1 + 16 * (chip % 1024)) else 0)) :=
  congrArg Host.Outcome.next (if_pos hy)

/-! ### Memory errors (R405 to R407) -/

/-- An uncorrectable error of an on-chip memory, by its unit. -/
theorem exec_uncorrSram (s : State) (pa unit index va : Nat) (x : Option Nat) :
    let t := s.uncorrectable 0x02 unit index pa va x
    (unit = 1 → exec (.memoryError .uncorrSram unit index pa va x) s = .next (t.poisonSector pa va true)) ∧
    (unit = 2 → exec (.memoryError .uncorrSram unit index pa va x) s = .next
      ((t.modCluster index (fun c => { c with cc := c.cc.filter (fun d => d.line ≠ va / 192) })).modBank index (pa / 262144) (fun b =>
        if b.mode = .cacheWay then b else { b with poison := (pa % 262144 / 48 :: b.poison).eraseDups }))) ∧
    (unit ≠ 1 → unit ≠ 2 → exec (.memoryError .uncorrSram unit index pa va x) s = .next t) := by
  refine ⟨fun h1 => congrArg Host.Outcome.next (if_pos h1), fun h2 => ?_, fun h1 h2 => ?_⟩
  · exact congrArg Host.Outcome.next ((if_neg (by omega)).trans (if_pos h2))
  · exact congrArg Host.Outcome.next ((if_neg h1).trans (if_neg h2))

/-- A parity error drops copies of one core. -/
theorem exec_l1Parity (s : State) (pa unit index va : Nat) (x : Option Nat) :
    ∃ t, exec (.memoryError .l1Parity unit index pa va x) s = .next t ∧ t = { s with cores := t.cores } ∧
      (∀ j, j ≠ index → t.core j = s.core j) ∧ t.core index = (let c := s.core index
        if unit = 0 then { c with l1d := c.l1d.filter (fun d => d.line ≠ va / 192) }
        else { c with l1i := c.l1i.filter (fun d => d.line ≠ va / 192) }) := by
  refine ⟨_, rfl, rfl, fun j hj => ?_, ?_⟩
  · rw [State.core_modCore, if_neg hj]
  · rw [State.core_modCore, if_pos rfl]

/-- Settles O49: accesses by whether a pin holds their line, ports, and each kind of memory error. -/
theorem outsideEventResults : Obligations.OutsideEventResults := by
  intro s pa
  refine ⟨fun bytes => ⟨fun hr => ⟨fun hp => ?_, fun hp => ?_⟩, fun hl hh => exec_hostMemWrite_elsewhere hl hh bytes⟩,
    fun op t x hr => ⟨fun hp => ?_, fun hp => ?_⟩,
    fun y up chip hy => ⟨fun hu ho => ?_, fun hu => ?_, congrArg Host.Outcome.next (if_pos hy)⟩,
    fun unit index va x => ⟨rfl, rfl, rfl, exec_uncorrSram s pa unit index va x, rfl, exec_l1Parity s pa unit index va x⟩⟩
  · rw [exec_hostMemWrite hr, fromOutside_free hp]
  · rw [exec_hostMemWrite hr, fromOutside_pinned hp]
  · rw [exec_ylReductionArrive hr, fromOutside_free hp]
  · rw [exec_ylReductionArrive hr, fromOutside_pinned hp]
  · rw [exec_ylLinkState hy, hu, ho]
    rfl
  · rw [exec_ylLinkState hy, hu]
    rfl

end Sys2Proof.Machine
end

section
/-! O21. Fences at issue, releases that complete, and the end of a speculative fence (R97 to R101, R280). -/

namespace Sys2Proof.Machine

/-! ### fence at issue -/

section
variable {s : State} {g : Grp} {h : Hdr} (hg : Runs s g 0) (hG : g.trues h ≠ [])
  (hx : ∀ l ∈ g.trues h, ∀ la, s.lane? g.w l = some la → la.tx = none)
include hg

/-- The lanes that a speculative fence saves are as the guard-true lanes stand before it, one word on. -/
theorem savedLanes_passFalse (h : Hdr) :
    (g.trues h).filterMap (fun l => ((s.passFalse g h).lane? g.w l).map (fun la => (l, la.step))) =
      (g.trues h).filterMap (fun l => (s.lane? g.w l).map (fun la => (l, la.step))) :=
  List.filterMap_congr (fun l hl => by rw [passFalse_lane?_true hg.grp hl])

/-- A speculative fence begins as it is, and its group advances. -/
theorem beginFence_spec (kind : Kind) (scope : Scope) (after : AfterRel) (saved : NatMap Lane) :
    let t := ((s.passFalse g h).beginFence g (g.trues h) kind scope after true saved).1.stepLanes g.w (g.trues h)
    ∃ f, t.fences = s.fences ++ [(s.tick, f)] ∧
      LanesResult { s with fences := t.fences, tick := s.tick + 1 } t g (groupLane g h (fun _ => Lane.step)) ∧
      f.warp = g.w ∧ f.lanes = lanesMask (g.trues h) ∧ f.kind = kind ∧ f.scope = scope ∧ f.spec = true ∧ f.after = after ∧ f.pc = g.pc ∧
      f.loads = s.openLoads g.w (lanesMask (g.trues h)) ∧ f.writes = s.openWrites g.w (lanesMask (g.trues h)) ∧ f.saved = saved := by
  intro t
  refine ⟨_, rfl, ?_, rfl, rfl, rfl, rfl, rfl, rfl, rfl, passFalse_openLoads _ _ _ _ _, passFalse_openWrites _ _ _ _ _, rfl⟩
  exact (lanesResult_modLanes h hg.grp Lane.step).besides (fun u => { u with fences := t.fences, tick := s.tick + 1 }) (fun _ _ => rfl)

include hG hx

/-- A plain fence holds its lanes … -/
theorem exec_fence_plain (kind : Kind) (scope : Scope) :
    exec (.fence h kind scope false) s = .next ((s.passFalse g h).holdRelease g (g.trues h) kind scope .step) := by
  show Host.Outcome.next (onGroup h 0 s _) = _
  rw [onGroup_runs hg hG, outsideTx_clear hg.grp hG hx]
  rfl

/-- … and a speculative one saves them and lets them pass. -/
theorem exec_fence_spec (kind : Kind) (scope : Scope) :
    exec (.fence h kind scope true) s = .next (((s.passFalse g h).beginFence g (g.trues h) kind scope .step true
      ((g.trues h).filterMap (fun l => (s.lane? g.w l).map (fun la => (l, la.step))))).1.stepLanes g.w (g.trues h)) := by
  rw [← savedLanes_passFalse hg h]
  show Host.Outcome.next (onGroup h 0 s _) = _
  rw [onGroup_runs hg hG, outsideTx_clear hg.grp hG hx]
  rfl

end

/-! ### Releases that complete -/

theorem mem_heldBy (s : State) (n : Nat) (f : FenceOp) (l : Nat) :
    l ∈ s.heldBy n f ↔ (l < 32 ∧ f.lanes.getLsbD l = true) ∧ ∃ la, s.lane? f.warp l = some la ∧ la.hold = .fence n := by
  unfold State.heldBy
  rw [List.mem_filter, mem_maskLanes, Option.any_eq_true]
  simp only [decide_eq_true_eq]

theorem heldBy_nodup (s : State) (n : Nat) (f : FenceOp) : (s.heldBy n f).Nodup := (maskLanes_nodup _).filter _

/-- A lane that a release at its word lets go. -/
def Lane.released (la : Lane) : Lane := { la with hold := .none, pc := la.pc + 16 }

/-- A fence that is complete advances the lanes that it holds. -/
theorem finishRelease_step {s : State} {n : Nat} {f : FenceOp} (ha : f.after = .step) :
    s.finishRelease n f = (s.startFenced n).modLanes f.warp (s.heldBy n f) Lane.released := by
  unfold State.finishRelease
  rw [ha]
  exact State.modLanes_modLanes _ _ _ (heldBy_nodup s n f) _ _

/-- Advancing the held lanes, said of each lane by itself. -/
theorem lane?_released (s : State) (n : Nat) (f : FenceOp) (l : Nat) :
    ((s.startFenced n).modLanes f.warp (s.heldBy n f) Lane.released).lane? f.warp l = (s.lane? f.warp l).map (fun la =>
      if la.hold = .fence n ∧ l < 32 ∧ f.lanes.getLsbD l = true then la.released else la) := by
  rw [State.lane?_modLanes _ _ _ (heldBy_nodup s n f)]
  show (if l ∈ s.heldBy n f then (s.lane? f.warp l).map Lane.released else s.lane? f.warp l) = _
  cases hla : s.lane? f.warp l with
  | none => exact ite_self _
  | some la =>
    have held : l ∈ s.heldBy n f ↔ la.hold = .fence n ∧ l < 32 ∧ f.lanes.getLsbD l = true := by
      rw [mem_heldBy, hla]
      simp only [Option.some.injEq, exists_eq_left']
      exact and_comm
    by_cases hl : l ∈ s.heldBy n f
    · exact (if_pos hl).trans (congrArg some (if_pos (held.1 hl)).symm)
    · exact (if_neg hl).trans (congrArg some (if_neg (mt held.2 hl)).symm)

section
variable {s : State} {n : Nat} {f : FenceOp} {wp : Warp} (hf : mapGet? s.fences n = some f) (hw : s.warp? f.warp = some wp)
  (hdue : s.fenceAdvance n f wp = (s, true))
include hf hw hdue

/-- RELEASE_COMPLETE of a fence that is due completes it. -/
theorem exec_releaseComplete_due (hs : f.spec = false) (ha : f.after = .step) :
    exec (.releaseComplete n) s = .next (s.finishRelease n f) := by
  have plain : ¬ f.spec = true := by rw [hs]; exact Bool.false_ne_true
  have room : ¬ s.afterBlocked f = true := by
    unfold State.afterBlocked
    rw [ha]
    exact Bool.false_ne_true
  show execReleaseComplete n s = _
  unfold execReleaseComplete
  rw [hf]
  refine congrArg Host.Outcome.next ((if_neg plain).trans ?_)
  rw [hw]
  dsimp only
  rw [hdue]
  exact if_neg room

/-- SPEC_FENCE_COMPLETE of a fence that is due judges the copies used ahead of it. -/
theorem exec_specFenceComplete_due (hs : f.spec = true) (hb : f.back = false) :
    exec (.specFenceComplete n) s = .next (
      if (f.specLines.all ((s.startFenced n).copyStands wp) && (s.startFenced n).flightStands f wp) = true then s.startFenced n
      else (s.startFenced n).rollback f) := by
  have speculative : ¬ (!f.spec) = true := by rw [hs]; exact Bool.false_ne_true
  have calm : ¬ f.back = true := by rw [hb]; exact Bool.false_ne_true
  show execSpecFenceComplete n s = _
  unfold execSpecFenceComplete
  rw [hf]
  refine congrArg Host.Outcome.next ((if_neg speculative).trans ((if_neg calm).trans ?_))
  rw [hw]
  dsimp only
  rw [hdue]
  dsimp only
  rw [hf]

end

/-- Where an instruction ahead of the fence was about to trap, its lanes roll back, and the fence stays. -/
theorem exec_specFenceComplete_back {s : State} {n : Nat} {f : FenceOp} (hf : mapGet? s.fences n = some f) (hs : f.spec = true)
    (hb : f.back = true) : exec (.specFenceComplete n) s = .next
      ((s.rollback f).modFence n (fun f => { f with back := false, issued := 16, specLines := [] })) := by
  have speculative : ¬ (!f.spec) = true := by rw [hs]; exact Bool.false_ne_true
  show execSpecFenceComplete n s = _
  unfold execSpecFenceComplete
  rw [hf]
  exact congrArg Host.Outcome.next ((if_neg speculative).trans (if_pos hb))

/-- A copy stands while the L1 holds the line with a lease that runs and is no longer than the one that was used (R101). -/
theorem copyStands_iff (s : State) (wp : Warp) (e : Nat × Nat) :
    s.copyStands wp e = true ↔ ∃ d ∈ (s.core wp.core).l1d, d.hits e.1 (s.asidOf wp.block) (s.viewOf wp.block) = true ∧
      s.gtimeAt (placeCore wp.core) < d.expiry ∧ d.expiry ≤ e.2 := by
  unfold State.copyStands
  simp only [List.any_eq_true, Bool.and_eq_true, decide_eq_true_eq, and_assoc]

/-- Settles O21: `fence` by its two forms, and each release that is due by what it was to do when complete. -/
theorem fenceAndReleaseResults : Obligations.FenceAndReleaseResults := by
  unfold Obligations.FenceAndReleaseResults
  intro h kind scope s
  refine ⟨fun g spec hg hG hx => ?_, fun n f wp hf hw hl hr => ?_⟩
  · cases spec with
    | false =>
      obtain ⟨f, hfences, hlanes, hwarp, hmask, hkind, hscope, hspec, hafter, hpc, hloads, hwrites, hsaved⟩ :=
        holdRelease_spec (h := h) hg.grp kind scope .step
      exact ⟨_, f, exec_fence_plain hg hG hx kind scope, hfences, hlanes, hwarp, hmask, hkind, hscope, hspec, hafter, hpc, hloads, hwrites,
        hsaved⟩
    | true =>
      obtain ⟨f, begun⟩ := beginFence_spec (h := h) hg kind scope .step _
      exact ⟨_, f, exec_fence_spec hg hG hx kind scope, begun⟩
  · intro started
    have due := fenceAdvance_due (n := n) hw hl hr
    refine ⟨fun hs ha => ⟨_, exec_releaseComplete_due hf hw due hs ha, ?_⟩, exec_specFenceComplete_back hf, fun hs hb => ?_⟩
    · rw [finishRelease_step ha]
      exact ⟨onlyWarp_modLanes _ _ _ _, lane?_released s n f⟩
    · rw [exec_specFenceComplete_due hf hw due hs hb]
      refine congrArg Host.Outcome.next (if_congr ?_ rfl rfl)
      rw [Bool.and_eq_true, List.all_eq_true]
      exact and_congr_left (fun _ => forall₂_congr (fun e _ => copyStands_iff _ wp e))

end Sys2Proof.Machine
end

section
/-! O41. The ends of blocks, of rivals and of grids, and time limits (R104, R150, R168, R169, R287, R343 to R347, R375, R392). -/

namespace Sys2Proof.Machine

/-! ### BLOCK_END and RIVAL_END -/

section
variable {b : Nat} {s u : State} {bl : Block} (hb : s.block? b = some bl) (ho : s.blockOver bl = true) (hc : bl.children = [])
  (hq : (s.judgeLast b bl).blockQuiet b bl = true) (hr : (s.judgeLast b bl).blockReleased bl = (u, true))
include hb ho hc hq hr

/-- A block of a grid that is over leaves its cores. -/
theorem exec_blockEnd (hp : bl.parent = none) (hst : bl.st = .resident ∨ bl.killed.isSome = true) :
    exec (.blockEnd b) s = .next ((((u.leaveCores b bl).tellUnheard bl).dropBlock b).settleCluster bl.cluster) := by
  have ends : ¬ (bl.parent.isSome = true ∨ (bl.st ≠ .resident ∧ bl.killed.isNone = true) ∨ (!s.blockOver bl) = true ∨
      bl.children ≠ []) := by
    rintro (h | ⟨h, hk⟩ | h | h)
    · rw [hp] at h; cases h
    · rcases hst with hst | hst
      · exact h hst
      · rw [Option.isNone_iff_eq_none] at hk
        rw [hk] at hst
        cases hst
    · rw [ho] at h; cases h
    · exact h hc
  show execBlockEnd b s = _
  unfold execBlockEnd
  rw [hb]
  dsimp only
  rw [if_neg ends, hq, hr]
  rfl

/-- A rival that is over leaves its cores and tells its parent. -/
theorem exec_rivalEnd {pa : Nat} (hp : bl.parent = some pa) :
    exec (.rivalEnd b) s = .next ((((((u.leaveCores b bl).tellUnheard bl).dropBlock b).modBlock pa (fun p =>
      { p with
        children := p.children.filter (· ≠ b)
        rivals := listModify p.rivals bl.world (fun r =>
          { r with status := bl.rivalStatus, score := if bl.rivalStatus ≤ 1 then bl.yielded.getD 0 else 0 }) })).rivalEnded
        pa bl bl.rivalStatus).tryQueueParent pa) := by
  have ends : ¬ ((!s.blockOver bl) = true ∨ bl.children ≠ []) := by
    rintro (h | h)
    · rw [ho] at h; cases h
    · exact h hc
  show execRivalEnd b s = _
  unfold execRivalEnd
  rw [hb]
  dsimp only
  rw [hp]
  dsimp only
  rw [if_neg ends, hq, hr]
  rfl

end

/-! ### GRID_COMPLETE -/

/-- What the end of a grid leaves, by what started the grid (R343, R346, R347). -/
def State.gridEnded (s : State) (n : Nat) (g : Grid) : State :=
  match g.src with
  | .node gr node => { s with grids := mapErase s.grids n, graphs := mapModify s.graphs gr (fun x => x.nodeOver g node) }
  | .packet => if s.canFinish g.hdr g.status then { s.finish g.queue g.seq g.hdr g.finalRecord with grids := mapErase s.grids n } else s
  | .device _ => if s.canFinish g.hdr g.status then { s.post g.hdr.ring g.finalRecord with grids := mapErase s.grids n } else s

theorem gridEnded_node {s : State} {n : Nat} {g : Grid} {gr node : Nat} (hsrc : g.src = .node gr node) :
    s.gridEnded n g = { s with grids := mapErase s.grids n, graphs := mapModify s.graphs gr (fun x => x.nodeOver g node) } := by
  unfold State.gridEnded
  rw [hsrc]

section
variable {s : State} {g : Grid} (hroom : s.canFinish g.hdr g.status = true) (n : Nat)
include hroom

theorem gridEnded_packet (hsrc : g.src = .packet) :
    s.gridEnded n g = { s.finish g.queue g.seq g.hdr g.finalRecord with grids := mapErase s.grids n } := by
  unfold State.gridEnded
  rw [hsrc]
  exact if_pos hroom

theorem gridEnded_device {k : Nat} (hsrc : g.src = .device k) :
    s.gridEnded n g = { s.post g.hdr.ring g.finalRecord with grids := mapErase s.grids n } := by
  unfold State.gridEnded
  rw [hsrc]
  exact if_pos hroom

end

section
variable {n : Nat} {s : State} {g : Grid} (hg : s.grid? n = some g)
include hg

section
variable (ho : s.gridOver n g = true)
include ho

/-- GRID_COMPLETE of a grid that is over starts it once more or ends it. -/
theorem exec_gridComplete : exec (.gridComplete n) s =
    .next (if g.status = 4 ∧ g.hdr.idem = true ∧ (!g.retried) = true then s.modGrid n Grid.again else s.gridEnded n g) := by
  have complete : ¬ (!s.gridOver n g) = true := by rw [ho]; exact Bool.false_ne_true
  show execGridComplete n s = _
  unfold execGridComplete
  rw [hg]
  exact congrArg Host.Outcome.next (if_neg complete)

/-- A lost grid whose command carries IDEM starts once more, the first time … -/
theorem gridComplete_again (hl : g.status = 4) (hi : g.hdr.idem = true) (ht : g.retried = false) :
    exec (.gridComplete n) s = .next (s.modGrid n Grid.again) := by
  rw [exec_gridComplete hg ho, if_pos ⟨hl, hi, by rw [ht]; rfl⟩]

/-- … any other ends. -/
theorem gridComplete_ends (hend : g.status ≠ 4 ∨ g.hdr.idem = false ∨ g.retried = true) :
    exec (.gridComplete n) s = .next (s.gridEnded n g) := by
  have last : ¬ (g.status = 4 ∧ g.hdr.idem = true ∧ (!g.retried) = true) := by
    rintro ⟨h4, hi, ht⟩
    rcases hend with h | h | h
    · exact h h4
    · rw [h] at hi; cases hi
    · rw [h] at ht; cases ht
  rw [exec_gridComplete hg ho, if_neg last]

end

/-! ### GRID_TIME_LIMIT -/

/-- The limit of a grid that is no node stops it. -/
theorem gridTimeLimit_grid (hst : g.status ≠ 6) (he : expired g.limit g.firstIssue (s.gtimeAt 0) = true)
    (hsrc : ∀ k i, g.src ≠ .node k i) : exec (.gridTimeLimit n) s = .next (s.stopGrid n 6) := by
  show execGridTimeLimit n s = _
  unfold execGridTimeLimit
  rw [hg]
  dsimp only
  cases h : g.src with
  | node k i => exact absurd h (hsrc k i)
  | packet => exact congrArg Host.Outcome.next (if_pos ⟨he, hst⟩)
  | device k => exact congrArg Host.Outcome.next (if_pos ⟨he, hst⟩)

/-- For a node the limit is that of its graph. -/
theorem gridTimeLimit_node {k i : Nat} (hsrc : g.src = .node k i) : exec (.gridTimeLimit n) s = .next (s.limitGraph k) := by
  show execGridTimeLimit n s = _
  unfold execGridTimeLimit
  rw [hg]
  dsimp only
  rw [hsrc]

end

/-- A graph whose limit has run out is marked, and each of its grids stops. -/
theorem limitGraph_expired {s : State} {k : Nat} {gr : Graph} (hk : mapGet? s.graphs k = some gr) (hst : gr.status ≠ 6)
    (he : expired gr.limit gr.firstStart (s.gtimeAt 0) = true) :
    let low := ((upTo gr.st.length).find? (fun i => gr.st.getD i 0 ≠ 2)).getD 0
    s.limitGraph k = (s.grids.filter (fun e => match e.2.src with | .node k' _ => k' = k | _ => false)).foldl
      (fun s e => s.stopGrid e.1 6) { s with graphs := mapModify s.graphs k (fun gr => { gr with status := 6, failing := low }) } := by
  intro low
  unfold State.limitGraph
  rw [hk]
  exact if_pos ⟨he, hst⟩

/-- Settles O41: the end of a block by whether it has a parent, that of a grid by what started it, and a time limit by whether the grid
is a node. -/
theorem blockAndGridEndResults : Obligations.BlockAndGridEndResults := by
  unfold Obligations.BlockAndGridEndResults
  refine ⟨fun b s bl hb ho hc => ?_, fun n s g hg => ⟨fun ho => ⟨gridComplete_again hg ho, fun hend => ⟨?_, fun hroom => ⟨?_, ?_⟩⟩⟩,
    gridTimeLimit_grid hg, fun k i gr hsrc hk hst he => ?_⟩⟩
  · intro j hq u hr
    exact ⟨exec_blockEnd hb ho hc hq hr, fun pa => exec_rivalEnd hb ho hc hq hr⟩
  · exact fun gr node hsrc => (gridComplete_ends hg ho hend).trans (congrArg Host.Outcome.next (gridEnded_node hsrc))
  · exact fun hsrc => (gridComplete_ends hg ho hend).trans (congrArg Host.Outcome.next (gridEnded_packet hroom n hsrc))
  · exact fun k hsrc => (gridComplete_ends hg ho hend).trans (congrArg Host.Outcome.next (gridEnded_device hroom n hsrc))
  · exact (gridTimeLimit_node hg hsrc).trans (congrArg Host.Outcome.next (limitGraph_expired hk hst he))

end Sys2Proof.Machine
end

section
/-! O6. Sums, products, comparisons and scalings of floating-point numbers (R126, R127, R240 to R246). -/

namespace Sys2Proof.Machine

/-! ### Parts of a type -/

/-- A function of each part of a source: of both halves of a pair, else of the value. -/
theorem joinParts_part (t : Ty) (x : Nat) (f : Nat → Nat → Nat) :
    joinParts t (fun p => f p (part t x p)) =
      if t.isPair then f 0 (x % 2 ^ 16) + 2 ^ 16 * f 1 (x / 2 ^ 16 % 2 ^ 16) else f 0 x := by
  unfold joinParts part
  by_cases ht : t.isPair = true
  · simp only [ht, if_true, Nat.mul_zero, Nat.mul_one, Nat.pow_zero, Nat.div_one]
  · simp only [ht, Bool.false_eq_true, if_false]

/-! ### Results (R126, R127) -/

section
variable (f : FF) (rnd : Rnd) (sat : Bool) (r16 : Nat) (pc : PC) (o : Nat) {ops : List FV}

/-- The first NaN operand is the result, quieted … -/
theorem FF.result_nan {q : Bool × Nat} (h : firstNaN ops = some q) (v : Option FV) :
    f.result rnd sat r16 pc o ops v = f.quieted q.1 q.2 := by
  unfold FF.result
  rw [h]

/-- … an invalid operation gives a NaN of its own … -/
theorem FF.result_invalid (h : firstNaN ops = none) : f.result rnd sat r16 pc o ops none = f.nan false (nanPayload pc o) := by
  unfold FF.result
  rw [h]

/-- … and a value is rounded. -/
theorem FF.result_value (h : firstNaN ops = none) (v : FV) : f.result rnd sat r16 pc o ops (some v) = f.writeFV rnd sat r16 v := by
  unfold FF.result
  rw [h]

end

/-! ### Instructions of several sources (R240) -/

theorem listMax_pair (x y : Nat) : listMax [x, y] = max x y := by
  show max (max 0 x) y = _
  rw [Nat.zero_max]

theorem listMax_triple (x y z : Nat) : listMax [x, y, z] = max x (max y z) := by
  show max (max (max 0 x) y) z = _
  rw [Nat.zero_max, Nat.max_assoc]

/-- What part `p` of the sources reads as. -/
def Regs.floats (r : Regs) (t : Ty) (ops : List Opd) (p : Nat) : List FV := ops.map (fun o => (Ty.ff t).read (part t (r.src t o) p))

/-- A floating-point instruction computes each part of its result from that part of its sources. -/
theorem floatOp_computes {i : Instr} {h : Hdr} {t : Ty} {sat : Bool} {rnd : Rnd} {a : Dst} {ops : List Opd} {f : List FV → Option FV}
    {s : State} {top : Nat} {f' : Regs → Nat → Nat} (hi : exec i s = .next (floatOp h t sat rnd a ops f s))
    (ht : listMax (ops.map (fun o => o.top t.bits)) = top)
    (hf : ∀ r p, (Ty.ff t).result rnd sat (r.rand p) r.pc r.lane (r.floats t ops p) (f (r.floats t ops p)) = f' r p) :
    Computes h (max (a.top t.bits) top) (fun _ r => [.reg a t.bits (joinParts t (f' r))]) s (exec i s) := by
  rw [hi, ← ht]
  exact alu1_computes (fun r => congrArg (joinParts t) (funext (hf r)))

/-- Settles O6: the four of R240 by the three ways in which a part has its result, the others as they compute. -/
theorem floatArithmeticResults : Obligations.FloatArithmeticResults := by
  unfold Obligations.FloatArithmeticResults
  intro h t sat rnd a b c e pd cond s n F v pairs rounds answers does top2
  have rounded (r : Regs) (p : Nat) (ops : List FV) (x : Option FV) :
      F.result rnd sat (r.rand p) r.pc r.lane ops x = rounds r p ops x := by
    dsimp only [rounds]
    cases hN : firstNaN ops with
    | some q => exact F.result_nan _ _ _ _ _ hN x
    | none =>
      cases x with
      | none => exact F.result_invalid _ _ _ _ _ hN
      | some x => exact F.result_value _ _ _ _ _ hN x
  refine ⟨?fadd, ?fsub, ?fmul, ?ffma, ?fmin, ?fmax, ?fcmp, ?fclass, ?frnd, ?fscale, ?fgexp, ?fdot2⟩
  all_goals refine And.symm (Computes.completes ?_)
  case fadd => exact floatOp_computes (i := .fadd h t sat rnd a b c) rfl (listMax_pair _ _) (fun r p => rounded r p _ _)
  case fsub => exact floatOp_computes (i := .fsub h t sat rnd a b c) rfl (listMax_pair _ _) (fun r p => rounded r p _ _)
  case fmul => exact floatOp_computes (i := .fmul h t sat rnd a b c) rfl (listMax_pair _ _) (fun r p => rounded r p _ _)
  case ffma => exact floatOp_computes (i := .ffma h t sat rnd a b c e) rfl (listMax_triple _ _ _) (fun r p => rounded r p _ _)
  case fcmp | fclass => exact alu_computes _ _ _ _
  case fmin | fmax | frnd | fscale | fgexp | fdot2 => exact alu1_computes (fun _ => rfl)

end Sys2Proof.Machine
end

section
/-! O7. The special functions at the operands of Table 10.6 (R126, R127, R249). -/

namespace Sys2Proof.Machine

/-! ### Values that a format holds exactly -/

section
variable (f : FF) (rnd : Rnd) (sat : Bool) (r16 : Nat) (neg : Bool)

/-- A zero is written with its sign. -/
theorem FF.writeFV_zero (e : Int) : f.writeFV rnd sat r16 (.fin neg 0 e) = f.zero neg := by
  cases neg <;> rfl

/-- An infinity rounded to nearest is written as it is. -/
theorem FF.writeFV_inf (hf : f.kind = .ieee) : f.writeFV .rn false r16 (.inf neg) = f.inf neg := by
  show (if 16 < f.bits then f.inf neg else f.overflow .rn false neg) = _
  unfold FF.overflow
  rw [hf]
  simp only [Bool.false_eq_true, if_false, ite_self]

end

theorem ff_kind_ieee (t : Ty) : (Ty.ff t).kind = .ieee := by
  cases t <;> rfl

/-- The pattern of one with a sign: the bias as exponent. -/
def FF.one (f : FF) (neg : Bool) : Nat := f.pack neg (f.bias * 2 ^ f.mbits)

/-- The pattern of a half. -/
def FF.half (f : FF) : Nat := f.pack false ((f.bias - 1) * 2 ^ f.mbits)

/-- One is written by its exponent alone … -/
theorem writeFV_one (t : Ty) (r16 : Nat) (neg : Bool) : (Ty.ff t).writeFV .rn false r16 (.fin neg 1 0) = (Ty.ff t).one neg := by
  cases t <;> cases neg <;> rfl

/-- … and so is a half. -/
theorem writeFV_half (t : Ty) (r16 : Nat) : (Ty.ff t).writeFV .rn false r16 (.fin false 1 (-1)) = (Ty.ff t).half := by
  cases t <;> rfl

/-! ### The rows of Table 10.6 -/

/-- What a function of one part gives for a NaN, a zero and an infinity, and, where it is invalid for them, for negative numbers; `none`
stands for the NaN of an invalid operation (R126, Table 10.6). -/
structure SpecialRows (F : FF) (f : Nat → PC → Nat → Nat → Nat) (zero inf : Bool → Option Nat) (negative : Bool) : Prop where
  nan : ∀ r16 pc l x n m, F.read x = .nan n m → f r16 pc l x = F.quieted n m
  inf : ∀ r16 pc l x n, F.read x = .inf n → f r16 pc l x = (inf n).getD (F.nan false (nanPayload pc l))
  zero : ∀ r16 pc l x n e, F.read x = .fin n 0 e → f r16 pc l x = (zero n).getD 0
  neg : negative = true → ∀ r16 pc l x m e, F.read x = .fin true m e → m ≠ 0 → f r16 pc l x = F.nan false (nanPayload pc l)

/-- `frcp`: zeros and infinities change places. -/
theorem rcpBits_rows (f : FF) (rnd : Rnd) :
    SpecialRows f (fun r16 _ _ x => rcpBits f rnd r16 x) (fun n => some (f.inf n)) (fun n => some (f.zero n)) false where
  nan r16 pc l x n m hx := by unfold rcpBits; rw [hx]
  inf r16 pc l x n hx := by unfold rcpBits; rw [hx]; rfl
  zero r16 pc l x n e hx := by unfold rcpBits; rw [hx]; rfl
  neg h := nomatch h

/-- The reciprocal of a nonzero number is its exact reciprocal, rounded once. -/
theorem rcpBits_fin {f : FF} (rnd : Rnd) (r16 : Nat) {x m : Nat} {n : Bool} {e : Int} (hx : f.read x = .fin n m e) (hm : m ≠ 0) :
    rcpBits f rnd r16 x = f.write rnd false r16 n ((Ex.ofInt 1).div (FV.fin n m e).ex) := by
  unfold rcpBits
  rw [hx]
  exact if_neg hm

/-- `frsq` and `fsqrt`: negative numbers have no root. -/
theorem rootBits_rows (recip : Bool) (f : FF) (rnd : Rnd) :
    SpecialRows f (rootBits recip f rnd) (fun n => some (if recip then f.inf n else f.zero n))
      (fun n => if n = false then some (if recip then f.zero false else f.inf false) else none) true where
  nan r16 pc l x n m hx := by unfold rootBits; rw [hx]
  inf r16 pc l x n hx := by unfold rootBits; rw [hx]; cases n <;> rfl
  zero r16 pc l x n e hx := by unfold rootBits; rw [hx]; rfl
  neg _ r16 pc l x m e hx hm := by unfold rootBits; rw [hx]; exact (if_neg hm).trans (if_pos rfl)

/-! ### Functions with exact values -/

section
variable (fn : SpecialFn) {f : FF} (r16 : Nat) (pc : PC) (l : Nat) {x : Nat}

/-- Where a function has an exact value, or is invalid, that is its result. -/
theorem specialBits_of_exact {v : FV} {y : Option FV} (hx : f.read x = v) (he : specialExact fn v = some y) :
    specialBits fn f r16 pc l x = f.result .rn false r16 pc l [v] y := by
  unfold specialBits
  rw [hx]
  dsimp only
  rw [he]

theorem specialExact_nan (n : Bool) (m : Nat) : specialExact fn (.nan n m) = some (some (.nan n m)) := by
  cases fn <;> rfl

end

/-- A function has the rows of what is exact, or invalid, at its zeros, infinities and negative numbers. -/
theorem specialBits_rows (fn : SpecialFn) (f : FF) {zero inf : Bool → Option Nat} {negative : Bool}
    (hinf : ∀ n, ∃ y, specialExact fn (.inf n) = some y ∧ ∀ r16, y.map (f.writeFV .rn false r16) = inf n)
    (hzero : ∀ n e, ∃ y, specialExact fn (.fin n 0 e) = some (some y) ∧ ∀ r16, some (f.writeFV .rn false r16 y) = zero n)
    (hneg : negative = true → ∀ m e, m ≠ 0 → specialExact fn (.fin true m e) = some none) :
    SpecialRows f (specialBits fn f) zero inf negative where
  nan r16 pc l x n m hx := by
    rw [specialBits_of_exact fn r16 pc l hx (specialExact_nan fn n m)]
    exact f.result_nan (q := (n, m)) _ _ _ _ _ rfl _
  inf r16 pc l x n hx := by
    obtain ⟨y, he, hy⟩ := hinf n
    rw [specialBits_of_exact fn r16 pc l hx he, ← hy r16]
    cases y with
    | none => exact f.result_invalid _ _ _ _ _ rfl
    | some y => exact f.result_value _ _ _ _ _ rfl y
  zero r16 pc l x n e hx := by
    obtain ⟨y, he, hy⟩ := hzero n e
    rw [specialBits_of_exact fn r16 pc l hx he, ← hy r16]
    exact f.result_value _ _ _ _ _ rfl y
  neg h r16 pc l x m e hx hm := by
    rw [specialBits_of_exact fn r16 pc l hx (hneg h m e hm)]
    exact f.result_invalid _ _ _ _ _ rfl

/-! ### Powers of two, logarithms, circular and hyperbolic functions (Table 10.6) -/

/-- 2 to the power of a zero is 1. -/
theorem specialExact_exp2_zero (n : Bool) (e : Int) : specialExact .exp2 (.fin n 0 e) = some (some (.fin false 1 0)) := by
  have integer : isIntEx 0 e = true := by simp [isIntEx]
  have rounds : (FV.fin n 0 e).ex.round .rz = 0 := by cases n <;> simp [FV.ex, Ex.round, Ex.roundAt, roundDiv]
  show (if isIntEx 0 e = true ∧ _ then some (some (FV.ofNum 1 ((FV.fin n 0 e).ex.round .rz) false)) else none) = _
  rw [if_pos ⟨integer, Or.inl rfl⟩, rounds]
  rfl

section
variable (t : Ty)

theorem exp2_rows : SpecialRows (Ty.ff t) (specialBits .exp2 (Ty.ff t)) (fun _ => some ((Ty.ff t).one false))
    (fun n => some (if n then (Ty.ff t).zero false else (Ty.ff t).inf false)) false := by
  refine specialBits_rows .exp2 _ (fun n => ?_) (fun n e => ?_) nofun
  · cases n with
    | true => exact ⟨some (.fin false 0 0), rfl, fun r16 => congrArg some (FF.writeFV_zero ..)⟩
    | false => exact ⟨some (.inf false), rfl, fun r16 => congrArg some (FF.writeFV_inf _ r16 false (ff_kind_ieee t))⟩
  · exact ⟨_, specialExact_exp2_zero n e, fun r16 => congrArg some (writeFV_one t r16 false)⟩

theorem log2_rows : SpecialRows (Ty.ff t) (specialBits .log2 (Ty.ff t)) (fun _ => some ((Ty.ff t).inf true))
    (fun n => if n = false then some ((Ty.ff t).inf false) else none) true := by
  refine specialBits_rows .log2 _ (fun n => ?_) (fun n e => ?_) (fun _ m e hm => (if_neg hm).trans (if_pos rfl))
  · cases n with
    | true => exact ⟨none, rfl, fun _ => rfl⟩
    | false => exact ⟨some (.inf false), rfl, fun r16 => congrArg some (FF.writeFV_inf _ r16 false (ff_kind_ieee t))⟩
  · exact ⟨.inf true, rfl, fun r16 => congrArg some (FF.writeFV_inf _ r16 true (ff_kind_ieee t))⟩

theorem sin_rows : SpecialRows (Ty.ff t) (specialBits .sin (Ty.ff t)) (fun n => some ((Ty.ff t).zero n)) (fun _ => none) false :=
  specialBits_rows .sin _ (fun _ => ⟨none, rfl, fun _ => rfl⟩)
    (fun n e => ⟨.fin n 0 e, rfl, fun _ => congrArg some (FF.writeFV_zero ..)⟩) nofun

theorem cos_rows : SpecialRows (Ty.ff t) (specialBits .cos (Ty.ff t)) (fun _ => some ((Ty.ff t).one false)) (fun _ => none) false :=
  specialBits_rows .cos _ (fun _ => ⟨none, rfl, fun _ => rfl⟩)
    (fun _ _ => ⟨.fin false 1 0, rfl, fun r16 => congrArg some (writeFV_one t r16 false)⟩) nofun

theorem tanh_rows : SpecialRows (Ty.ff t) (specialBits .tanh (Ty.ff t)) (fun n => some ((Ty.ff t).zero n))
    (fun n => some ((Ty.ff t).one n)) false := by
  refine specialBits_rows .tanh _ (fun n => ⟨some (.fin n 1 0), ?_, fun r16 => congrArg some (writeFV_one t r16 n)⟩)
    (fun n e => ⟨.fin n 0 e, rfl, fun _ => congrArg some (FF.writeFV_zero ..)⟩) nofun
  cases n <;> rfl

theorem sigm_rows : SpecialRows (Ty.ff t) (specialBits .sigm (Ty.ff t)) (fun _ => some (Ty.ff t).half)
    (fun n => some (if n then (Ty.ff t).zero false else (Ty.ff t).one false)) false := by
  refine specialBits_rows .sigm _ (fun n => ?_)
    (fun _ _ => ⟨.fin false 1 (-1), rfl, fun r16 => congrArg some (writeFV_half t r16)⟩) nofun
  cases n with
  | true => exact ⟨some (.fin false 0 0), rfl, fun _ => congrArg some (FF.writeFV_zero ..)⟩
  | false => exact ⟨some (.fin false 1 0), rfl, fun r16 => congrArg some (writeFV_one t r16 false)⟩

end

/-! ### Each part of a source (R249) -/

/-- A function of one source computes it of each part. -/
theorem specialOp_computes {i : Instr} {h : Hdr} {t : Ty} {a : Dst} {b : Opd} {g : FF → Nat → Regs → Nat → Nat} {s : State}
    (hi : exec i s = .next (specialOp h t a b g s)) :
    Computes h (max (a.top t.bits) (b.top t.bits))
      (fun _ r => [.reg a t.bits
        (if t.isPair then g (Ty.ff t) (r.rand 0) r (r.src t b % 2 ^ 16) + 2 ^ 16 * g (Ty.ff t) (r.rand 1) r (r.src t b / 2 ^ 16 % 2 ^ 16)
        else g (Ty.ff t) (r.rand 0) r (r.src t b))]) s (exec i s) := by
  rw [hi]
  exact alu1_computes (fun r => joinParts_part t (r.src t b) (fun p x => g (Ty.ff t) (r.rand p) r x))

/-- Settles O7: each function computes its parts, and has the rows of what is exact or invalid at its special operands. -/
theorem specialFunctionResults : Obligations.SpecialFunctionResults := by
  unfold Obligations.SpecialFunctionResults
  intro h t rnd a b s _ F one answers does table sign only
  have rows {f : Nat → PC → Nat → Nat → Nat} {zero inf : Bool → Option Nat} {negative : Bool}
      (r : SpecialRows F f zero inf negative) : table f zero inf negative := by
    intro r16 pc l x
    cases hx : F.read x with
    | nan n m => exact r.nan r16 pc l x n m hx
    | inf n => exact r.inf r16 pc l x n hx
    | fin n m e =>
      refine ⟨fun hm => r.zero r16 pc l x n e (hm ▸ hx), fun hm hn negative => ?_⟩
      exact r.neg negative r16 pc l x m e (hn ▸ hx) hm
  refine ⟨⟨_, ?frcp, rows (rcpBits_rows F rnd), fun r16 pc l x n m e hx hm => rcpBits_fin rnd r16 hx hm⟩,
    ⟨_, ?frsq, rows (rootBits_rows true F .rn)⟩, ⟨_, ?fsqrt, rows (rootBits_rows false F rnd)⟩, ⟨_, ?fexp2, rows (exp2_rows t)⟩,
    ⟨_, ?flog2, rows (log2_rows t)⟩, ⟨_, ?fsin, rows (sin_rows t)⟩, ⟨_, ?fcos, rows (cos_rows t)⟩,
    ⟨_, ?ftanh, rows (tanh_rows t)⟩, ⟨_, ?fsigm, rows (sigm_rows t)⟩⟩
  all_goals refine And.symm (Computes.completes ?_)
  case frcp => exact specialOp_computes (i := .frcp h t rnd a b) rfl
  case frsq => exact specialOp_computes (i := .frsq h t a b) rfl
  case fsqrt => exact specialOp_computes (i := .fsqrt h t rnd a b) rfl
  case fexp2 => exact specialOp_computes (i := .fexp2 h t a b) rfl
  case flog2 => exact specialOp_computes (i := .flog2 h t a b) rfl
  case fsin => exact specialOp_computes (i := .fsin h t a b) rfl
  case fcos => exact specialOp_computes (i := .fcos h t a b) rfl
  case ftanh => exact specialOp_computes (i := .ftanh h t a b) rfl
  case fsigm => exact specialOp_computes (i := .fsigm h t a b) rfl

end Sys2Proof.Machine
end

section
/-! O8. Conversions, stored elements, blocks and draws (R123, R252 to R260). -/

namespace Sys2Proof.Machine

/-! ### Conversions (R252) -/

/-- The shapes of a conversion: pair to pair, two values to a pair, one half of a pair, and one value (Table 10.8). -/
theorem cvtBits_eq (d t : Ty) (sat : Bool) (rnd : Rnd) (b : Opd) (third : Option Opd) (r : Regs) :
    cvtBits d t sat rnd b third r =
      if d.isPair = true ∧ t.isPair = true then
        cvtValue d t sat rnd (r.rand 0) (r.src t b % 2 ^ 16) + 2 ^ 16 * cvtValue d t sat rnd (r.rand 1) (r.src t b / 2 ^ 16 % 2 ^ 16)
      else if d.isPair = true then
        cvtValue d t sat rnd (r.rand 0) (r.src t b) + 2 ^ 16 * cvtValue d t sat rnd (r.rand 1) (r.src t (third.getD .zero))
      else if t.isPair = true then
        cvtValue d t sat rnd (r.rand 0) (r.src t b / 2 ^ (16 * r.src32 (third.getD .zero)) % 2 ^ 16)
      else cvtValue d t sat rnd (r.rand 0) (r.src t b) := by
  unfold cvtBits joinParts part
  cases hd : d.isPair <;> cases ht : t.isPair <;> simp

/-! ### Instructions that check their slot (R196, R254) -/

section
variable {i : Instr} {h : Hdr} {ok : Bool} {top : Nat} {f : List Regs → Regs → List Wr} {s : State}
  (hi : exec i s = .next (aluCk h top ok f s))
include hi

/-- An instruction whose check holds computes … -/
theorem aluCk_ok (hok : ok = true) {f' : List Regs → Regs → List Wr} (hf : ∀ G r, f G r = f' G r) :
    Computes h top f' s (exec i s) := by
  obtain rfl : f = f' := funext₂ hf
  rw [hi, hok]
  exact aluCk_computes h top f s

/-- … and one whose check fails traps in the guard-true lanes of its group. -/
theorem aluCk_illop (hok : ok = false) {g : Grp} (hg : s.grp = some g) :
    exec i s = .next ((s.stepLanes g.w (g.lanes.filter (fun l => l ∉ g.trues h))).illopLanes g (g.trues h) 0x0B) := by
  rw [hi, hok]
  unfold aluCk
  rw [hg]
  exact congrArg Host.Outcome.next (if_pos (Or.inr rfl))

end

/-- The formats of blocks are the three DX formats. -/
theorem dxBits_isSome (c : Nat) : (dxBits c).isSome = decide (c = 7 ∨ c = 8 ∨ c = 9) := by
  unfold dxBits
  split
  · rfl
  · rfl
  · rfl
  · next h7 h8 h9 => exact (decide_eq_false (fun h => h.elim h7 (fun h => h.elim h8 h9))).symm

/-- The formats that `cvts` takes. -/
theorem cvtsFmt_eq (slot : BitVec 128) :
    cvtsFmt slot = decide ((2 ≤ slotFmt slot ∧ slotFmt slot ≤ 6) ∨ slotFmt slot = 10 ∨ slotFmt slot = 11) := by
  unfold cvtsFmt
  simp only [Bool.decide_or, Bool.decide_and, Bool.or_assoc]

/-- Settles O8: `cvt` by its shapes, the slot instructions by their check, the draws as they compute. -/
theorem conversionAndDrawResults : Obligations.ConversionAndDrawResults := by
  unfold Obligations.ConversionAndDrawResults
  intro h d t sat rnd a b c m pos slot wide va vb pd s sl w fits dx mb answers checked one
  have converted (r16 x : Nat) : cvtValue d t sat rnd r16 x = one r16 x := by
    dsimp only [one]
    unfold cvtValue
    cases typeXV t x <;> rfl
  have dxFmt : (dxBits (slotFmt sl)).isSome = dx := dxBits_isSome _
  have cvts (place : Bool) : (cvtsFmt sl && place) = (fits && place) := congrArg (· && place) (cvtsFmt_eq sl)
  refine ⟨fun third => And.symm (Computes.completes ?cvt),
    ⟨fun ok => And.symm (Computes.completes ?encode),
      fun bad _ => aluCk_illop (i := .cvtsEncode h slot a b c m pos) rfl ((cvts _).trans bad)⟩,
    ⟨fun ok => And.symm (Computes.completes ?decode),
      fun bad _ => aluCk_illop (i := .cvtsDecode h slot a b pos) rfl ((cvts _).trans bad)⟩,
    ⟨fun ok => And.symm (Computes.completes ?qblk), fun bad _ => aluCk_illop (i := .qblk h slot va b) rfl (dxFmt.trans bad)⟩,
    ⟨fun ok => And.symm (Computes.completes ?dqblk), fun bad _ => aluCk_illop (i := .dqblk h slot va vb) rfl (dxFmt.trans bad)⟩,
    And.symm (Computes.completes ?dropm), And.symm (Computes.completes ?rng)⟩
  case cvt =>
    refine alu1_computes (fun r => (cvtBits_eq d t sat rnd b third r).trans ?_)
    simp only [converted]
  case encode => exact aluCk_ok (i := .cvtsEncode h slot a b c m pos) rfl ((cvts _).trans ok) (fun _ _ => rfl)
  case decode => exact aluCk_ok (i := .cvtsDecode h slot a b pos) rfl ((cvts _).trans ok) (fun _ _ => rfl)
  case qblk =>
    refine aluCk_ok (i := .qblk h slot va b) rfl (dxFmt.trans ok) (fun G r => ?_)
    rw [upTo_eq]
  case dqblk =>
    refine aluCk_ok (i := .dqblk h slot va vb) rfl (dxFmt.trans ok) (fun G r => ?_)
    have word (j : Nat) : ((G.find? (fun x => x.lane = j)).map (fun x => x.src32 (.v vb))).getD 0 =
        match G.find? (fun x => x.lane = j) with
        | some x => x.src32 (.v vb)
        | none => 0 := by
      cases G.find? (fun x => x.lane = j) <;> rfl
    rw [upTo_eq]
    simp only [word] <;> rfl
  case dropm =>
    refine computes_of rfl (fun G r => ?_)
    simp only [Bool.decide_or]
  case rng => exact alu1_computes (fun _ => rfl)

end Sys2Proof.Machine
end

section
/-! O25. Tile instructions enter the queue of their tenant (R137, R292, R293, R295, R297). -/

namespace Sys2Proof.Machine

/-- Settles O25: every tile word enters by `enqueue`, with the sources that it names. -/
theorem tileInstructionsEnterTheirQueue : Obligations.TileInstructionsEnterTheirQueue := by
  unfold Obligations.TileInstructionsEnterTheirQueue
  intro h part t ta tb tm x blk alpha l ql qd terms qc f64 add raw auto a pat scope kind tag op ob s n te hs hg R val pair orgs enters
  have enters_of (i : Instr) (vals : Regs → List DWord) (hi : exec i s = enqueue h i vals s) : enters i (vals R) := by
    show (_ → ∃ u, exec i s = _ ∧ _) ∧ (_ → exec i s = _)
    rw [hi]
    exact enqueue_spec hs hg i vals
  have horgs : R.capOrg qc = orgs := by
    refine (congrArg (List.map _) (upTo_eq 5)).trans ?_
    cases qc <;> rfl
  have tld := enters_of (.tld h t ql qc) (fun r => r.capPair ql.toNat :: r.capOrg qc) rfl
  have tdrain := enters_of (.tdrain h add raw auto scope kind a ql qc tag)
    (fun r => BitVec.ofNat 64 (r.tagOf tag) :: r.capPair ql.toNat :: r.capOrg qc) rfl
  rw [horgs] at tld tdrain
  exact ⟨enters_of _ (fun r => [r.cap .b32 x]) rfl, tld, enters_of _ (fun _ => []) rfl, enters_of _ (fun _ => []) rfl,
    enters_of _ (fun _ => []) rfl, enters_of _ (fun r => [r.cap .f32 l]) rfl, enters_of _ (fun _ => []) rfl, tdrain,
    enters_of _ (fun r => [r.cap .b32 blk]) rfl, enters_of _ (fun r => [r.cap .b32 blk, r.cap .f32 alpha]) rfl⟩

end Sys2Proof.Machine
end

section
/-! O26. Tile instructions from the head of their queue to their results (R137 to R141, R158, R160, R295 to R305). -/

namespace Sys2Proof.Machine

theorem exec_tileInstrStart (n : Nat) (s : State) : exec (.tileInstrStart n) s = execTileInstrStart n s := rfl

theorem exec_tileInstrComplete (n k : Nat) (s : State) : exec (.tileInstrComplete n k) s = execTileInstrComplete n k s := rfl

/-! ### Starting (R137, R295) -/

/-- The head of the queue of a tenant may start: it has no hazard with what runs, the sequencer is not parked and the block is not
being saved. -/
structure HeadStarts (s : State) (n : Nat) (te : Tenant) (op : TileOp) (rest : List TileOp) : Prop where
  tenant : s.tenant? n = some te
  queue : te.queue = op :: rest
  free : s.headFree te op.instr = true
  awake : te.parked = false
  stays : s.isSaving (some te.block) = false

/-- A last is read and passes the checks of a tile load or drain (R297, R304). -/
def LastPasses (s : State) (te : Tenant) (a : DWord) (org : List DWord) (qc : Option (BitVec 5)) (v : Nat) (s1 : State) : Prop :=
  let d := Last.ofBits (BitVec.ofNat 512 v)
  let fmt := slotFmt ((s1.slotsOf te.block).getD d.slot 0)
  canonical a = true ∧ a.toNat % 64 = 0 ∧ s.readLast (s.whoSeq te) te.core (some te.block) (va57 a) = (s1, .ok v) ∧
  lastIllop (BitVec.ofNat 512 v) fmt ((orgOf org).getD 0 0) = false ∧ (∀ q, qc = some q → q.toNat + d.rank ≤ 32) ∧
  d.misaligned fmt = false

/-- What needs a last goes on with one that passes. -/
theorem withLast_passes {s s1 : State} {te : Tenant} {a : DWord} {org : List DWord} {qc : Option (BitVec 5)} {v : Nat}
    (hl : LastPasses s te a org qc v s1) (n : Nat) (op : TileOp) (f : BitVec 512 → Last → BitVec 128 → State → State) :
    s.withLast n te op a org qc f = f (BitVec.ofNat 512 v) (Last.ofBits (BitVec.ofNat 512 v))
      ((s1.slotsOf te.block).getD (Last.ofBits (BitVec.ofNat 512 v)).slot 0) s1 := by
  obtain ⟨hcanon, halign, hread, hlegal, hrank, hplace⟩ := hl
  have hqc : qc.any (fun q => decide (32 < q.toNat + (Last.ofBits (BitVec.ofNat 512 v)).rank)) = false := by
    cases qc with
    | none => rfl
    | some q => exact decide_eq_false (Nat.not_lt.2 (hrank q rfl))
  unfold State.withLast
  simp only [hcanon, halign, hread, hlegal, hqc, hplace, Bool.not_true, Bool.or_false, Bool.false_eq_true, ne_eq, not_true_eq_false,
    if_false]

/-- A drain enters the copy engine under a key and runs for its 32 clocks (R155). -/
def State.handDrain (s : State) (n : Nat) (op : TileOp) (key : Nat) (cop : CopyOp) : State :=
  let r := s.lockCopy cop
  ({ r.1 with copies := r.1.copies ++ [(key, { cop with st := .active, locks := r.2 })] }.next).startRun n op 32

/-- The checks of a drain on its combination, its shape and its pieces (R155, R304). -/
structure DrainPasses (s : State) (te : Tenant) (add raw : Bool) (kind : AccKind) (slot : BitVec 128) (col : Int) (size : Nat)
    (ps : List DrainPiece) : Prop where
  rawForm : raw = true → kind ≠ .f64 ∧ slotFmt slot = 1
  addForm : add = true → (drainAdd slot kind raw).isSome = true
  nibbles : fmtBits (slotFmt slot) = 4 → col % 2 = 0 ∧ size % 2 = 0
  blocks : (dxBits (slotFmt slot)).isSome = true → size % 32 = 0
  canon : ∀ p ∈ ps, canonical p.addr = true
  windows : ∀ p ∈ ps, add = true → raw = false → slotFmt slot = 1 → p.addr.toNat % 8 ≠ 0 →
    (s.windowOf (s.ctxIdOf te.block) (va57 p.addr)).any (fun w => w.2.fp32) = false

section
variable {s : State} {te : Tenant} {add raw : Bool} {kind : AccKind} {slot : BitVec 128} {col : Int} {size : Nat}
  {ps : List DrainPiece} (hc : DrainPasses s te add raw kind slot col size ps)
include hc

/-- Its combination and shape are legal. -/
theorem DrainPasses.legal : ((raw && decide (slotFmt slot ≠ 1)) || (add && (drainAdd slot kind raw).isNone) ||
    (decide (fmtBits (slotFmt slot) = 4) && (decide (col % 2 ≠ 0) || decide (size % 2 ≠ 0))) ||
    ((dxBits (slotFmt slot)).isSome && decide (size % 32 ≠ 0))) = false := by
  have hadd : add = true → (drainAdd slot kind raw).isNone = false := fun h => by
    rw [Option.isNone_eq_false_iff]
    exact hc.addForm h
  simp only [Bool.or_eq_false_iff, Bool.and_eq_false_imp, decide_eq_false_iff_not, decide_eq_true_eq, not_not]
  exact ⟨⟨⟨fun h => (hc.rawForm h).2, hadd⟩, hc.nibbles⟩, hc.blocks⟩

/-- No piece lies at a bad address … -/
theorem DrainPasses.noBadAddr : ps.find? (fun p => !canonical p.addr) = none := by
  rw [List.find?_eq_none]
  exact fun p hp => by rw [hc.canon p hp]; exact Bool.false_ne_true

/-- … and none is an FP32 addition into half an element of a window. -/
theorem DrainPasses.noWindow : ps.find? (fun p => add && !raw && decide (slotFmt slot = 1) && decide (p.addr.toNat % 8 ≠ 0) &&
    (s.windowOf (s.ctxIdOf te.block) (va57 p.addr)).any (fun w => w.2.fp32)) = none := by
  rw [List.find?_eq_none]
  intro p hp
  simp only [Bool.and_eq_true, Bool.not_eq_true', decide_eq_true_eq]
  rintro ⟨⟨⟨⟨hadds, hvalue⟩, hfp32⟩, hodd⟩, hin⟩
  exact ne_true_of_eq_false (hc.windows p hp hadds hvalue hfp32 hodd) hin

end

section
variable {s : State} {n : Nat} {te : Tenant} {op : TileOp} {rest : List TileOp} (hd : HeadStarts s n te op rest)
include hd

theorem HeadStarts.tail : te.queue.tail = rest := by
  rw [hd.queue]
  rfl

/-- What runs is the head of the queue, for its clocks. -/
theorem HeadStarts.runs (clocks : Nat) : Only s (s.startRun n op clocks) n
    { te with queue := rest, running := te.running ++ [{ op with doneClock := s.clock te.core + clocks }] } := by
  have hrun := startRun_only hd.tenant op clocks
  rw [hd.tail] at hrun
  exact hrun

/-- Nothing holds the head back. -/
theorem HeadStarts.not_held {i : Instr} (hi : op.instr = i) :
    ¬ (!s.headFree te i ∨ te.parked ∨ s.isSaving (some te.block)) := by
  rw [← hi, hd.free, hd.awake, hd.stays]
  simp

/-! #### The head of the queue, by its word -/

theorem start_tzero {h : Hdr} {f : Bool} {a : BitVec 2} (hi : op.instr = .tzero h f a) :
    exec (.tileInstrStart n) s = .next (s.startRun n op 32) := by
  simp only [exec_tileInstrStart, execTileInstrStart, hd.tenant, hd.queue, hi, if_neg (hd.not_held hi)]

theorem start_dcmp {h : Hdr} {p : Pattern} {ta : BitVec 3} {qd terms : BitVec 5} {l : Opd} (hi : op.instr = .dcmp h p ta qd terms l) :
    exec (.tileInstrStart n) s = .next (s.startRun n op 64) := by
  simp only [exec_tileInstrStart, execTileInstrStart, hd.tenant, hd.queue, hi, if_neg (hd.not_held hi)]

theorem start_tcfg {h : Hdr} {part : TilePart} {x : BitVec 3} {o : Opd} (hi : op.instr = .tcfg h part x o) :
    exec (.tileInstrStart n) s = .next (s.runTcfg n op part x.toNat) := by
  simp only [exec_tileInstrStart, execTileInstrStart, hd.tenant, hd.queue, hi, if_neg (hd.not_held hi)]

theorem start_tld {h : Hdr} {x : BitVec 3} {ql : BitVec 5} {qc : Option (BitVec 5)} (hi : op.instr = .tld h x ql qc) :
    exec (.tileInstrStart n) s = .next (s.startTld n te op qc) := by
  simp only [exec_tileInstrStart, execTileInstrStart, hd.tenant, hd.queue, hi, if_neg (hd.not_held hi)]

theorem start_tdrain {h : Hdr} {add raw auto : Bool} {scope : Scope} {kind : AccKind} {a : BitVec 2} {ql : BitVec 5}
    {qc : Option (BitVec 5)} {tag : TagOpd} (hi : op.instr = .tdrain h add raw auto scope kind a ql qc tag) :
    exec (.tileInstrStart n) s = .next (s.startDrain n te op add raw auto scope kind a qc) := by
  simp only [exec_tileInstrStart, execTileInstrStart, hd.tenant, hd.queue, hi, if_neg (hd.not_held hi)]

/-- A move or an epilogue runs where its block lies in the tile. -/
theorem start_move {x : BitVec 3} (hi : (∃ h k a b, op.instr = .tmov h k x a b) ∨ ∃ h e k a b al y, op.instr = .tepi h e k x a b al y)
    (hb : 32 * (op.vals.getD 0 0).toNat < (te.tile (s.slotsOf te.block) x.toNat).K) :
    exec (.tileInstrStart n) s = .next (s.startRun n op 32) := by
  obtain ⟨h, k, a, b, hi⟩ | ⟨h, e, k, a, b, al, y, hi⟩ := hi
  all_goals
    simp only [exec_tileInstrStart, execTileInstrStart, hd.tenant, hd.queue, hi, if_neg (hd.not_held hi), if_neg (Nat.not_le.2 hb)]

section
variable {a : BitVec 2} {ta tb : BitVec 3}
  (hp : productBad a.toNat (te.tile (s.slotsOf te.block) ta.toNat) (te.tile (s.slotsOf te.block) tb.toNat) = false)
include hp

theorem start_mma {h : Hdr} (hi : op.instr = .mma h a ta tb) : exec (.tileInstrStart n) s =
    .next (s.startRun n op (mmaClocks (te.tile (s.slotsOf te.block) ta.toNat).fmt * rowPasses te.rows)) := by
  simp only [exec_tileInstrStart, execTileInstrStart, hd.tenant, hd.queue, hi, if_neg (hd.not_held hi), hp, Bool.false_eq_true, if_false]

theorem start_mmas {h : Hdr} {p : Pattern} {tm : BitVec 3} (hi : op.instr = .mmas h p a ta tb tm)
    (hk : (te.tile (s.slotsOf te.block) ta.toNat).K % patM p = 0) : exec (.tileInstrStart n) s =
    .next (s.startRun n op (passClocks (te.tile (s.slotsOf te.block) ta.toNat).fmt p * rowPasses te.rows)) := by
  simp only [exec_tileInstrStart, execTileInstrStart, hd.tenant, hd.queue, hi, if_neg (hd.not_held hi), hp, hk, ne_eq,
    not_true_eq_false, decide_false, Bool.or_self, Bool.false_eq_true, if_false]

theorem start_mmad {h : Hdr} {d : Decomp} (hi : op.instr = .mmad h a ta tb) (hdec : mapGet? te.decomp ta.toNat = some d) :
    exec (.tileInstrStart n) s = .next (s.startRun n op
      (if d.status = 2 then mmaClocks (te.tile (s.slotsOf te.block) ta.toNat).fmt * rowPasses te.rows
      else (d.tu * passClocks (te.tile (s.slotsOf te.block) ta.toNat).fmt d.pat +
        ((if d.status = 0 then d.offcuts.length else 0) + 3) / 4) * rowPasses te.rows)) := by
  simp only [exec_tileInstrStart, execTileInstrStart, hd.tenant, hd.queue, hi, if_neg (hd.not_held hi), hdec, hp,
    Bool.false_eq_true, if_false]

end

/-! #### Configuration, loads and drains -/

/-! The control register of a tile is written and the decomposition of the tile goes (R160, R296). -/

theorem runTcfg_slot (x : BitVec 3) (hx : (op.vals.getD 0 0).toNat < 8) : Only s (s.runTcfg n op .slot x.toNat) n { te with
    tslot := mapPut 0 te.tslot x.toNat ((op.vals.getD 0 0).setWidth 32), decomp := mapErase te.decomp x.toNat, queue := rest } := by
  rw [← BitVec.ofNat_toNat, ← hd.tail]
  unfold State.runTcfg
  dsimp only
  rw [if_neg (Nat.not_le.2 hx)]
  exact tcfg_only hd.tenant _ _ _

section
variable (x : BitVec 3) (hle : (op.vals.getD 0 0).toNat % 65536 ≤ (op.vals.getD 0 0).toNat / 65536)
include hle

theorem runTcfg_rows (h32 : (op.vals.getD 0 0).toNat / 65536 ≤ 32) : Only s (s.runTcfg n op .rows x.toNat) n { te with
    trows := mapPut 0 te.trows x.toNat ((op.vals.getD 0 0).setWidth 32), decomp := mapErase te.decomp x.toNat, queue := rest } := by
  rw [← BitVec.ofNat_toNat, ← hd.tail]
  unfold State.runTcfg
  dsimp only
  rw [if_neg (not_or.2 ⟨Nat.not_lt.2 hle, Nat.not_lt.2 h32⟩)]
  exact tcfg_only hd.tenant _ _ _

theorem runTcfg_cols : Only s (s.runTcfg n op .cols x.toNat) n { te with
    tcols := mapPut 0 te.tcols x.toNat ((op.vals.getD 0 0).setWidth 32), decomp := mapErase te.decomp x.toNat, queue := rest } := by
  rw [← BitVec.ofNat_toNat, ← hd.tail]
  unfold State.runTcfg
  dsimp only
  rw [if_neg (Nat.not_lt.2 hle)]
  exact tcfg_only hd.tenant _ _ _

end

/-- A tile load whose last passes registers its one source entry, none when it reads nothing, and runs (R75, R154). -/
theorem exec_tld_passes {h : Hdr} {x : BitVec 3} {ql : BitVec 5} {qc : Option (BitVec 5)} {v : Nat} {s1 : State}
    (hi : op.instr = .tld h x ql qc) (hl : LastPasses s te (op.vals.getD 0 0) (op.vals.drop 1) qc v s1)
    (hroom : s1.engineLoad (clusterOf te.core) < 256) :
    let d := Last.ofBits (BitVec.ofNat 512 v)
    let fmt := slotFmt ((s1.slotsOf te.block).getD d.slot 0)
    let rs := (tileReads d fmt (orgOf (op.vals.drop 1))).map (fun r => (va57 r.addr, r.bytes))
    (rs = [] → exec (.tileInstrStart n) s = .next (s1.startRun n { op with last := BitVec.ofNat 512 v, locks := [] } 0)) ∧
    (rs ≠ [] → 1 ≤ (s1.cluster (clusterOf te.core)).locksFree → exec (.tileInstrStart n) s = .next
      (let r := s1.putLock (clusterOf te.core)
         { view := s1.viewOf te.block, asid := s1.asidOf te.block, lo := (spanOf rs).1, hi := (spanOf rs).2, kind := 3, dest := false }
       r.1.startRun n { op with last := BitVec.ofNat 512 v, locks := r.2 } 0)) := by
  intro d fmt rs
  have entered (x : State × List Nat) (hheld : ¬ (256 ≤ s1.engineLoad (clusterOf te.core) ∨
      (rs ≠ [] ∧ (s1.cluster (clusterOf te.core)).locksFree < 1)))
      (hx : (if rs = [] then (s1, []) else s1.putLock (clusterOf te.core)
        { view := s1.viewOf te.block, asid := s1.asidOf te.block, lo := (spanOf rs).1, hi := (spanOf rs).2, kind := 3, dest := false }) = x) :
      exec (.tileInstrStart n) s = .next (x.1.startRun n { op with last := BitVec.ofNat 512 v, locks := x.2 } 0) := by
    rw [start_tld hd hi]
    unfold State.startTld
    rw [withLast_passes hl, ← hx]
    exact congrArg Host.Outcome.next (if_neg hheld)
  refine ⟨fun hrs => entered _ ?_ (if_pos hrs), fun hrs hfree => entered _ ?_ (if_neg hrs)⟩
  · exact not_or.2 ⟨Nat.not_le.2 hroom, fun ⟨hne, _⟩ => hne hrs⟩
  · exact not_or.2 ⟨Nat.not_le.2 hroom, fun ⟨_, hlt⟩ => Nat.not_lt.2 hfree hlt⟩

/-- A drain whose checks pass hands its pieces to the copy engine and runs (R155, R304). -/
theorem exec_tdrain_passes {h : Hdr} {add raw auto : Bool} {scope : Scope} {kind : AccKind} {a : BitVec 2} {ql : BitVec 5}
    {qc : Option (BitVec 5)} {tag : TagOpd} {v : Nat} {s1 : State} (hi : op.instr = .tdrain h add raw auto scope kind a ql qc tag) :
    let word : DWord := op.vals.getD 0 0
    let org := op.vals.drop 2
    let d := Last.ofBits (BitVec.ofNat 512 v)
    let slot := (s1.slotsOf te.block).getD d.slot 0
    let ps := drainPieces te d slot (orgOf org) kind raw a.toNat (fun k => rand16 (s1.seedOf te.block) op.pc k (s1.widOf te.block))
    let cop := drainOp s1 n te op a.toNat scope word.toNat (if add then drainAdd slot kind raw else none) ps
    word.toNat < s.tagsOf te.block → LastPasses s te (op.vals.getD 1 0) org qc v s1 →
    DrainPasses s1 te add raw kind slot ((orgOf org).getD 0 0) (d.size 0) ps →
    (ps = [] → exec (.tileInstrStart n) s = .next ((if auto then s1.armTag te.block te.rank word.toNat 0 else s1).startRun n op 32)) ∧
    (∀ s2 y, ps ≠ [] → s1.copyRoom cop = true → s1.probeDst cop = (s2, .ok none, y) → exec (.tileInstrStart n) s = .next
      ((if auto then s2.armTag te.block te.rank word.toNat cop.total else s2).handDrain n op (mapFresh s1.copies) cop)) := by
  intro word org d slot ps cop htag hl hc
  have hlegal : ¬ (s.tagsOf te.block ≤ word.toNat ∨ raw = true ∧ kind = .f64) :=
    not_or.2 ⟨Nat.not_le.2 htag, fun ⟨hraw, hkind⟩ => (hc.rawForm hraw).1 hkind⟩
  unfold State.handDrain
  refine ⟨fun hps => ?_, fun s2 y hps hroom hprobe => ?_⟩
  all_goals
    rw [start_tdrain hd hi]
    refine congrArg Host.Outcome.next ?_
    refine (if_neg hlegal).trans ?_
    refine (withLast_passes hl n op _).trans ?_
    refine (if_neg (ne_true_of_eq_false hc.legal)).trans ?_
    dsimp only
    rw [hc.noBadAddr, hc.noWindow]
  · exact if_pos hps
  · refine (if_neg hps).trans ((if_neg (by rw [hroom]; exact Bool.false_ne_true)).trans ?_)
    rw [hprobe]

end

/-! ### Completing (R137 to R141) -/

section
variable {s : State} {n k : Nat} {te : Tenant} {op : TileOp} (ht : s.tenant? n = some te) (hk : te.running[k]? = some op)
  (hdone : op.doneClock ≤ s.clock te.core)
include ht hk hdone

/-- A running instruction other than a load leaves with its result; besides its tenant only counters change. -/
theorem complete_only (hi : ∀ h x ql qc, op.instr ≠ .tld h x ql qc) : ∃ u, exec (.tileInstrComplete n k) s = .next u ∧
    Only s u n { te.complete (s.slotsOf te.block) (s.seedOf te.block) (s.widOf te.block) op with running := te.running.eraseIdx k } := by
  rw [exec_tileInstrComplete]
  unfold execTileInstrComplete
  rw [ht]
  dsimp only
  rw [hk]
  dsimp only
  rw [if_neg (Nat.not_lt.2 hdone)]
  split
  case h_1 h x ql qc he => exact absurd he (hi h x ql qc)
  case h_2 =>
    refine ⟨_, rfl, ?_⟩
    generalize he : State.tileCount (State.tileCount (State.tileCount s _ _ _ _) _ _ _ _) _ _ _ _ = s1
    have hcount : s1 = { s with bar0 := s1.bar0 } := by rw [← he]; rfl
    rw [hcount]
    exact only_count ht (fun te' => { te'.complete (s.slotsOf te.block) (s.seedOf te.block) (s.widOf te.block) op with
      running := te'.running.eraseIdx k }) { s with bar0 := s1.bar0 } rfl

/-- A running load reads its elements. -/
theorem complete_tld {h : Hdr} {x : BitVec 3} {ql : BitVec 5} {qc : Option (BitVec 5)} (hi : op.instr = .tld h x ql qc)
    (hpause : op.paused = none) (hsave : s.isSaving (some te.block) = false) :
    exec (.tileInstrComplete n k) s = .next (s.finishTld n k te op x h.hint) := by
  simp only [exec_tileInstrComplete, execTileInstrComplete, ht, hk, if_neg (Nat.not_lt.2 hdone), hi, hpause, hsave,
    Option.isSome_none, Bool.false_eq_true, or_self, if_false]

end

/-- Settles O26: the head of the queue by its word, what runs by the result of its word. -/
theorem tileInstructionsStartAndComplete : Obligations.TileInstructionsStartAndComplete := by
  unfold Obligations.TileInstructionsStartAndComplete
  intro s n te ht slots tile makes lastOf slotFor lastOk
  have makes_of {i : Instr} {u : State} {te' : Tenant} (he : exec i s = .next u) (ho : Only s u n te') : makes i te' :=
    ⟨u, he, ho.frame, ho.tenant, ho.others⟩
  refine ⟨fun op rest hq hfree hawake hstays => ?_, fun k op hk hdone => ?_⟩
  · have hd : HeadStarts s n te op rest := ⟨ht, hq, hfree, hawake, hstays⟩
    intro runs word
    have runs_of {clocks : Nat} (he : exec (.tileInstrStart n) s = .next (s.startRun n op clocks)) : runs clocks :=
      makes_of he (hd.runs clocks)
    refine ⟨fun h f a hi => runs_of (start_tzero hd hi), fun h p ta qd terms l hi => runs_of (start_dcmp hd hi),
      fun h a ta tb hi hp => runs_of (start_mma hd hp hi), fun h p a ta tb tm hi hp hK => runs_of (start_mmas hd hp hi hK),
      fun h k x a b hi hb => runs_of (start_move hd (.inl ⟨h, k, a, b, hi⟩) hb),
      fun h e k x a b al y hi hb => runs_of (start_move hd (.inr ⟨h, e, k, a, b, al, y, hi⟩) hb),
      fun h x o hi hw => makes_of (start_tcfg hd hi) (runTcfg_slot hd x hw),
      fun h x o hi hle hw => makes_of (start_tcfg hd hi) (runTcfg_rows hd x hle hw),
      fun h x o hi hle => makes_of (start_tcfg hd hi) (runTcfg_cols hd x hle),
      fun h a ta tb d hi hdec hp => runs_of (start_mmad hd hp hi hdec), fun h x ql qc v s1 hi hl hroom => exec_tld_passes hd hi hl hroom, ?_⟩
    · intro h add raw auto scope kind a ql qc tag v s1 hi org fmt size ty ps cop htag hraw hl hadd hnib hblock hcanon hwindow
      have hform : add = true → (drainAdd (slotFor s1 v) kind raw).isSome = true := fun ha => by
        rw [← hadd ha]
        exact congrArg Option.isSome (if_pos ha).symm
      obtain ⟨hnone, hsome⟩ := exec_tdrain_passes hd hi htag hl ⟨hraw, hform, hnib, hblock, hcanon, hwindow⟩
      refine ⟨hnone, fun s2 y hps hroom hprobe => ?_⟩
      show _ = Host.Outcome.next
        ((if auto then s2.armTag te.block te.rank word.toNat cop.total else s2).handDrain n op (mapFresh s1.copies) cop)
      exact hsome s2 y hps hroom hprobe
  · intro kind draw product ends
    have ends_complete (hi : ∀ h x ql qc, op.instr ≠ .tld h x ql qc) :
        ends (te.complete slots (s.seedOf te.block) (s.widOf te.block) op) := by
      obtain ⟨u, he, ho⟩ := complete_only ht hk hdone hi
      exact makes_of he ho
    have ends_of {i : Instr} {te' : Tenant} (hi : op.instr = i) (hld : ∀ h x ql qc, i ≠ .tld h x ql qc)
        (hc : te.complete slots (s.seedOf te.block) (s.widOf te.block) { op with instr := i } = te') : ends te' := by
      subst hi
      exact hc ▸ ends_complete hld
    refine ⟨ends_complete, fun h wide a hi => ends_of hi nofun rfl, fun h a ta tb hi => ends_of hi nofun rfl,
      fun h p a ta tb tm hi => ends_of hi nofun rfl, fun h p ta qd terms l hi => ends_of hi nofun rfl,
      fun h a ta tb d hi hdec => ends_of hi nofun ?_, fun h k' x a b hi => ends_of hi nofun rfl,
      fun h e k' x a b al y hi => ends_of hi nofun ?_, ?_⟩
    · unfold Tenant.complete
      dsimp only
      rw [hdec]
    · cases y <;> rfl
    · intro h x ql qc s1 rows y hi hpause hsave d fmt org hrows
      refine (complete_tld ht hk hdone hi hpause hsave).trans (congrArg Host.Outcome.next ?_)
      unfold State.finishTld
      dsimp only
      rw [hrows]

end Sys2Proof.Machine
end

section
/-! O32. `yieldw` and the forms of `choose` (R168, R170 to R173, R315). -/

namespace Sys2Proof.Machine

section
variable {s : State} {g : Grp} {h : Hdr} {bl : Block} {top : Nat} (hg : Runs s g top) (hG : g.trues h ≠ [])
  (hx : ∀ k ∈ g.trues h, ∀ la, s.lane? g.w k = some la → la.tx = none ∧ la.inHandler = false)
  (hb : s.block? g.wp.block = some bl) {ok : State → Grp → List Nat → Block → Bool}
include hg hG hx hb

/-- An instruction of worlds acts where its test holds. -/
theorem worldOp_acts (hok : ok (s.passFalse g h) g (g.trues h) bl = true) (f : Grp → List Nat → Block → State → State) :
    worldOp h top s ok f = f g (g.trues h) bl (s.passFalse g h) := by
  rw [worldOp_runs hg hG hx hb, if_pos hok]

/-- An instruction of worlds is illegal where its test fails (R315). -/
theorem worldOp_illegal (hok : ok (s.passFalse g h) g (g.trues h) bl = false) (f : Grp → List Nat → Block → State → State) :
    worldOp h top s ok f = (s.passFalse g h).illopLanes g (g.trues h) 0x0B := by
  rw [worldOp_runs hg hG hx hb, if_neg (Bool.eq_false_iff.mp hok)]

end

/-- The view of a rival that ended as YIELDED. -/
def Block.yieldedView (bl : Block) (i : Nat) : Option Nat := (bl.rivals[i]?).bind (fun r => if r.status = 0 then some r.view else none)

/-- A rival may be chosen when it is below 8 and YIELDED (R171). -/
theorem Block.mayChoose_iff (bl : Block) (n : Nat) : bl.mayChoose n = true ↔ n < 8 ∧ ∃ r, bl.rivals[n]? = some r ∧ r.status = 0 := by
  simp [Block.mayChoose, Option.any_eq_true]

/-- A judging block that drops every rival discards each YIELDED one. -/
theorem judge_all (s : State) (b : Nat) (bl : Block) : s.judge b bl (fun _ => true) =
    (((upTo 8).filterMap bl.yieldedView).foldl State.discardView s).modBlock b (fun bl => { bl with judging := false }) := rfl

/-- A judging block that keeps rival `n` discards every other YIELDED one. -/
theorem judge_others (s : State) (b : Nat) (bl : Block) (n : Nat) : s.judge b bl (fun i => i ≠ n) =
    (((upTo 8).filterMap (fun i => if i ≠ n then bl.yieldedView i else none)).foldl State.discardView s).modBlock b
      (fun bl => { bl with judging := false }) := by
  unfold State.judge Block.yieldedView
  simp only [decide_eq_true_eq]

/-- Settles O32: each of the four acts where its test of the block holds, `worldOp_acts`, and is illegal elsewhere. -/
theorem worldInstructionResults : Obligations.WorldInstructionResults := by
  unfold Obligations.WorldInstructionResults
  intro h x k s g bl hg hG hx hb u b n score done_ illegal yielded
  have hg0 : Runs s g 0 := hg.mono (Nat.zero_le _)
  have next_of {t t' : State} (ht : t = t') : (.next t : Out) = .next t' := congrArg _ ht
  refine ⟨fun hd => ⟨?_, ?_⟩, fun hd => ⟨?_, ?_⟩, fun hj => ⟨?_, fun r hn hr hst => ?_, fun hbad => ?_⟩, fun hj => ⟨?_, ?_⟩⟩
  · exact next_of (worldOp_acts hg hG hx hb (decide_eq_true hd) _)
  · exact next_of (worldOp_acts hg0 hG hx hb (decide_eq_true hd) _)
  · exact next_of (worldOp_illegal hg hG hx hb (decide_eq_false (not_not.mpr hd)) _)
  · exact next_of (worldOp_illegal hg0 hG hx hb (decide_eq_false (not_not.mpr hd)) _)
  · refine next_of ((worldOp_acts hg0 hG hx hb hj _).trans ?_)
    rw [judge_all]
    rfl
  · have hok : (bl.judging && bl.mayChoose n) = true := Bool.and_eq_true_iff.mpr ⟨hj, (bl.mayChoose_iff n).mpr ⟨hn, r, hr, hst⟩⟩
    refine next_of ((worldOp_acts hg0 hG hx hb hok _).trans ?_)
    have hview : ((bl.rivals[n]?).map (·.view)).getD 0 = r.view := by rw [hr]; rfl
    dsimp only
    rw [judge_others, hview]
    rfl
  · have hno : (bl.judging && bl.mayChoose n) = false := by
      rw [hj, Bool.true_and, Bool.eq_false_iff, Ne, Block.mayChoose_iff]
      rintro ⟨hn, r, hr, hst⟩
      exact hbad.elim (Nat.not_le_of_lt hn) (fun hnone => hnone r hr hst)
    exact next_of (worldOp_illegal hg0 hG hx hb hno _)
  · exact next_of (worldOp_illegal hg0 hG hx hb hj _)
  · exact next_of (worldOp_illegal hg0 hG hx hb (by rw [hj]; rfl) _)

end Sys2Proof.Machine
end

section
/-! O42. Views as they are committed, performed, given back and spilled (R172 to R177, R328, R329, R409). -/

namespace Sys2Proof.Machine

/-- The entry of a launch of the outbox of view `v` in the queue of its context. -/
def View.launchEntry (vw : View) (v a group : Nat) : DevLaunch :=
  { ctx := vw.ctx, addr := a, grid := vw.grid, warp := none, group := group, waiting := none, view := some v, paused := none, due := 0 }

section
variable {v : Nat} {s : State} {vw : View} (hv : s.view? v = some vw)
include hv

/-! ### The commit and the return of the ID -/

/-- VIEW_COMMIT of a view that is being committed installs what it can (R172). -/
theorem exec_viewCommit (hc : vw.commit.isSome = true) :
    let u := s.unpinAll (fun h => h.view = v && (h.pinCo.isSome || h.pinCl.isSome)) noCluster []
    exec (.viewCommit v) s = .next ((u.copiesOf v).foldl (fun s e => e.2.tags.foldl (fun s t => s.commitPage v e.1 e.2 t.1) s) u) := by
  obtain ⟨c, hc⟩ := Option.isSome_iff_exists.mp hc
  show execViewCommit v s = _
  unfold execViewCommit
  rw [hv, Option.bind_some, hc]

/-- COMMIT_RETRY_END of a commit that has nothing left to install and whose time has come. -/
theorem exec_commitRetryEnd {w : Option Nat} {t : Nat} (hc : vw.commit = some (w, t)) (hp : vw.pendingInstalls = [])
    (hw : ∀ e ∈ s.copiesOf v, e.2.written = 0) (ht : t ≤ s.gtimeAt 0) : exec (.commitRetryEnd v) s = .next (s.endRetry v vw w t) := by
  have hall : (s.copiesOf v).all (fun e => e.2.written = 0) = true := List.all_eq_true.mpr (fun e he => decide_eq_true (hw e he))
  show execCommitRetryEnd v s = _
  unfold execCommitRetryEnd
  rw [hv]
  dsimp only
  rw [hc]
  dsimp only
  rw [if_pos ⟨hp, hall, ht⟩]

/-- VIEW_ID_RETURN once no lease of the view runs. -/
theorem exec_viewIdReturn {t : Nat} (hr : vw.returnAt = some t) (ht : t ≤ s.gtimeAt 0) :
    exec (.viewIdReturn v) s = .next { s with views := mapErase s.views v } := by
  show execViewIdReturn v s = _
  unfold execViewIdReturn
  rw [hv, Option.bind_some, hr]
  dsimp only
  rw [if_pos ht]

/-! ### The outbox -/

variable {w : Option Nat} (hp : vw.performing = some w) {u : State}
include hp

/-- An access leaves the outbox once it is performed, behind its release where it has one (R175). -/
theorem outboxPerform_access {q : Req} {rest : List OutOp} {t : State} (ho : vw.outbox = .access q :: rest)
    (hn : vw.pendingInstalls = []) (hr : s.outRelease w q = (u, true)) (hdone : u.performOut v vw w q = (t, true)) :
    exec (.outboxPerform v) s = .next (t.outDone v w true) := by
  show execOutboxPerform v s = _
  unfold execOutboxPerform
  rw [hv]
  dsimp only
  rw [hp, ho]
  dsimp only
  rw [if_neg (not_not.mpr hn), hr]
  dsimp only
  rw [hdone]

/-- A launch enters the queue of its context once the release at .dv is over and there is room (R174). -/
theorem outboxPerform_launch {a k x : Nat} {rest : List OutOp} (ho : vw.outbox = .launch a k x :: rest)
    (hfirst : ∀ e ∈ s.devLaunches, e.2.view ≠ some v) (hr : s.outReleased w .dv = (u, true)) (hroom : u.launches vw.ctx < 1024) :
    exec (.outboxPerform v) s =
      .next ({ u with devLaunches := u.devLaunches ++ [(u.tick, vw.launchEntry v a u.tick)] } : State).next := by
  have hany : ¬ s.devLaunches.any (fun e => e.2.view = some v) = true := by
    rw [List.any_eq_true]
    rintro ⟨e, he, h⟩
    exact hfirst e he (of_decide_eq_true h)
  show execOutboxPerform v s = _
  unfold execOutboxPerform
  rw [hv]
  dsimp only
  rw [hp, ho]
  dsimp only
  rw [if_neg hany, hr]
  dsimp only
  rw [if_neg (Nat.not_le_of_lt hroom)]
  rfl

/-- An event writes its record once the release at .sy is over and its ring has room (R174). -/
theorem outboxPerform_event {x : Word} {k : Nat} {rest : List OutOp} {g : Grid} (ho : vw.outbox = .event x k :: rest)
    (hr : s.outReleased w .sy = (u, true)) (hgrid : s.grid? vw.grid = some g) (hroom : u.ringRoom g.lrec.cring = true) :
    exec (.outboxPerform v) s = .next ((u.post g.lrec.cring { Record.blank g.queue g.seq
      (0x1000 + ((w.bind u.warp?).map (·.core)).getD k) (x.setWidth 64) with kind := 2 }).outDone v w true) := by
  show execOutboxPerform v s = _
  unfold execOutboxPerform
  rw [hv]
  dsimp only
  rw [hp, ho]
  dsimp only
  rw [hr, hgrid]
  dsimp only
  rw [if_pos hroom]

end

/-- Settles O42: each event by what it asks of the view, and OUTBOX_PERFORM by the first operation of the outbox. -/
theorem viewEventResults : Obligations.ViewEventResults := by
  refine ⟨fun _ _ _ => rfl, fun v s vw hv => ⟨exec_viewCommit hv, fun w t => exec_commitRetryEnd hv, fun t hr ht =>
    ⟨exec_viewIdReturn hv hr ht, mapGet?_erase _ _⟩, fun w hp => ⟨?_, ?_, ?_⟩⟩⟩
  · exact fun q rest u t => outboxPerform_access hv hp
  · exact fun a k x rest u => outboxPerform_launch hv hp
  · exact fun x k rest u g => outboxPerform_event hv hp

end Sys2Proof.Machine
end

section
/-! O52. Every instruction word decodes to its instruction, and whatever decodes has a word (R180 to R195). -/

namespace Sys2Proof

/-- What the decoder builds is an instruction word, which the encoder knows. -/
theorem encode_build (r : Raw) (o : Op) : ∃ w, encode (build r o) = some w := by
  cases o with
  | cvts =>
    by_cases hd : r.sub = Ty.code .f32
    · rw [build, if_pos hd]; exact ⟨_, rfl⟩
    · rw [build, if_neg hd]; exact ⟨_, rfl⟩
  | choose =>
    by_cases h0 : r.sub = 0
    · rw [build, if_pos h0]; exact ⟨_, rfl⟩
    by_cases h1 : r.sub = 1
    · rw [build, if_neg h0, if_pos h1]; exact ⟨_, rfl⟩
    · rw [build, if_neg h0, if_neg h1]; exact ⟨_, rfl⟩
  | _ => exact ⟨_, rfl⟩

/-- The decoder answers an instruction only as what it builds of the word's fields. -/
theorem build_of_decodeWord {st : Stream} {w : IWord} {i : Instr} (h : decodeWord st w = .ok i) : ∃ r o, i = build r o := by
  rw [decodeWord, decodeRaw] at h
  split at h
  · cases h
  · next o _ =>
    split at h
    · cases h
    · exact ⟨_, o, (Except.ok.inj h).symm⟩

/-- Each instruction's word decodes to it, by the law of its constructor; an event or a command has no word. -/
theorem decodeWord_encode (i : Instr) : Laws.RoundTrip.Statement i := by
  cases i with
  | iadd => apply Laws.RoundTrip.iadd
  | isub => apply Laws.RoundTrip.isub
  | imul => apply Laws.RoundTrip.imul
  | imulh => apply Laws.RoundTrip.imulh
  | imad => apply Laws.RoundTrip.imad
  | idiv => apply Laws.RoundTrip.idiv
  | imin => apply Laws.RoundTrip.imin
  | imax => apply Laws.RoundTrip.imax
  | iabs => apply Laws.RoundTrip.iabs
  | and => apply Laws.RoundTrip.and
  | or => apply Laws.RoundTrip.or
  | xor => apply Laws.RoundTrip.xor
  | andn => apply Laws.RoundTrip.andn
  | bfn3 => apply Laws.RoundTrip.bfn3
  | shl => apply Laws.RoundTrip.shl
  | shr => apply Laws.RoundTrip.shr
  | fsh => apply Laws.RoundTrip.fsh
  | popc => apply Laws.RoundTrip.popc
  | clz => apply Laws.RoundTrip.clz
  | brev => apply Laws.RoundTrip.brev
  | bfx => apply Laws.RoundTrip.bfx
  | bfi => apply Laws.RoundTrip.bfi
  | adrs => apply Laws.RoundTrip.adrs
  | permb => apply Laws.RoundTrip.permb
  | sel => apply Laws.RoundTrip.sel
  | mov => apply Laws.RoundTrip.mov
  | movs => apply Laws.RoundTrip.movs
  | movc => apply Laws.RoundTrip.movc
  | icmp => apply Laws.RoundTrip.icmp
  | plop => apply Laws.RoundTrip.plop
  | shfl => apply Laws.RoundTrip.shfl
  | vote => apply Laws.RoundTrip.vote
  | ballot => apply Laws.RoundTrip.ballot
  | redux => apply Laws.RoundTrip.redux
  | scan => apply Laws.RoundTrip.scan
  | matchLanes => apply Laws.RoundTrip.matchLanes
  | elect => apply Laws.RoundTrip.elect
  | fadd => apply Laws.RoundTrip.fadd
  | fsub => apply Laws.RoundTrip.fsub
  | fmul => apply Laws.RoundTrip.fmul
  | ffma => apply Laws.RoundTrip.ffma
  | fmin => apply Laws.RoundTrip.fmin
  | fmax => apply Laws.RoundTrip.fmax
  | fcmp => apply Laws.RoundTrip.fcmp
  | fclass => apply Laws.RoundTrip.fclass
  | frnd => apply Laws.RoundTrip.frnd
  | fscale => apply Laws.RoundTrip.fscale
  | fgexp => apply Laws.RoundTrip.fgexp
  | fdot2 => apply Laws.RoundTrip.fdot2
  | frcp => apply Laws.RoundTrip.frcp
  | frsq => apply Laws.RoundTrip.frsq
  | fsqrt => apply Laws.RoundTrip.fsqrt
  | fexp2 => apply Laws.RoundTrip.fexp2
  | flog2 => apply Laws.RoundTrip.flog2
  | fsin => apply Laws.RoundTrip.fsin
  | fcos => apply Laws.RoundTrip.fcos
  | ftanh => apply Laws.RoundTrip.ftanh
  | fsigm => apply Laws.RoundTrip.fsigm
  | cvt => apply Laws.RoundTrip.cvt
  | cvtsEncode => apply Laws.RoundTrip.cvtsEncode
  | cvtsDecode => apply Laws.RoundTrip.cvtsDecode
  | qblk => apply Laws.RoundTrip.qblk
  | dqblk => apply Laws.RoundTrip.dqblk
  | dropm => apply Laws.RoundTrip.dropm
  | rng => apply Laws.RoundTrip.rng
  | bra => apply Laws.RoundTrip.bra
  | brx => apply Laws.RoundTrip.brx
  | call => apply Laws.RoundTrip.call
  | ret => apply Laws.RoundTrip.ret
  | exit => apply Laws.RoundTrip.exit
  | yield => apply Laws.RoundTrip.yield
  | nop => apply Laws.RoundTrip.nop
  | waitc => apply Laws.RoundTrip.waitc
  | enrol => apply Laws.RoundTrip.enrol
  | rejoin => apply Laws.RoundTrip.rejoin
  | strike => apply Laws.RoundTrip.strike
  | trap => apply Laws.RoundTrip.trap
  | rte => apply Laws.RoundTrip.rte
  | ipf => apply Laws.RoundTrip.ipf
  | icinv => apply Laws.RoundTrip.icinv
  | ifence => apply Laws.RoundTrip.ifence
  | ld => apply Laws.RoundTrip.ld
  | st => apply Laws.RoundTrip.st
  | atom => apply Laws.RoundTrip.atom
  | red => apply Laws.RoundTrip.red
  | fld => apply Laws.RoundTrip.fld
  | fset => apply Laws.RoundTrip.fset
  | fclr => apply Laws.RoundTrip.fclr
  | waiton => apply Laws.RoundTrip.waiton
  | txb => apply Laws.RoundTrip.txb
  | txe => apply Laws.RoundTrip.txe
  | txa => apply Laws.RoundTrip.txa
  | fence => apply Laws.RoundTrip.fence
  | gath => apply Laws.RoundTrip.gath
  | dpf => apply Laws.RoundTrip.dpf
  | cpy => apply Laws.RoundTrip.cpy
  | cpyt => apply Laws.RoundTrip.cpyt
  | tagarm => apply Laws.RoundTrip.tagarm
  | tagwt => apply Laws.RoundTrip.tagwt
  | tagff => apply Laws.RoundTrip.tagff
  | tagclr => apply Laws.RoundTrip.tagclr
  | bari => apply Laws.RoundTrip.bari
  | bara => apply Laws.RoundTrip.bara
  | barw => apply Laws.RoundTrip.barw
  | bar => apply Laws.RoundTrip.bar
  | tcfg => apply Laws.RoundTrip.tcfg
  | tld => apply Laws.RoundTrip.tld
  | tzero => apply Laws.RoundTrip.tzero
  | mma => apply Laws.RoundTrip.mma
  | mmas => apply Laws.RoundTrip.mmas
  | dcmp => apply Laws.RoundTrip.dcmp
  | mmad => apply Laws.RoundTrip.mmad
  | tdrain => apply Laws.RoundTrip.tdrain
  | tmov => apply Laws.RoundTrip.tmov
  | tepi => apply Laws.RoundTrip.tepi
  | tstv => apply Laws.RoundTrip.tstv
  | tldv => apply Laws.RoundTrip.tldv
  | launch => apply Laws.RoundTrip.launch
  | pbar => apply Laws.RoundTrip.pbar
  | gbar => apply Laws.RoundTrip.gbar
  | event => apply Laws.RoundTrip.event
  | forkw => apply Laws.RoundTrip.forkw
  | yieldw => apply Laws.RoundTrip.yieldw
  | choose => apply Laws.RoundTrip.choose
  | chooseNone => apply Laws.RoundTrip.chooseNone
  | chooseSelf => apply Laws.RoundTrip.chooseSelf
  | _ => intro st w _ hw; cases hw

end Sys2Proof

namespace Sys2Proof.Machine

/-- Settles O52: `decodeWord_encode`, and `encode_build` of what the decoder built. -/
theorem instructionWordsRoundTrip : Obligations.InstructionWordsRoundTrip := by
  refine ⟨fun st i => decodeWord_encode i st, fun st i w hi => ?_⟩
  obtain ⟨r, o, rfl⟩ := build_of_decodeWord hi
  exact encode_build r o

end Sys2Proof.Machine
end

section
/-! O54. Words of the manual, and words that fail a check (R180, R181, R187, R190, R198, R311). -/

namespace Sys2Proof.Machine

/-- Settles O54: a word of the manual is what the encoder gives a well-formed instruction, so O52 reads it back; each refused word
fails one check of Table 8.10 first. -/
theorem wordsDecode : Obligations.WordsDecode := by
  refine ⟨?iadd, ?ld, ?ffma, ?redux, ?call, ?waitc, ?cvt, ?st, ?pbarVector, ?pbarTile, ?opcode, ?stream, ?type, ?operand, ?unused,
    ?literal, ?sched⟩
  case iadd | ld | ffma | redux | call | waitc | cvt | st | pbarVector | pbarTile =>
    exact decodeWord_encode _ _ _ (by decide) (by decide)
  case opcode | stream | type | operand | unused | literal | sched => decide

end Sys2Proof.Machine
end

section
/-! O53. A step: the word of the selected party, else the first event of the agenda, else a master pulse (R195, R196, R292). -/

namespace Sys2Proof.Machine

/-! ### The outcome of every instruction -/

/-- Every instruction, event and command answers a next state, whatever the state: what fails is an effect inside that state. -/
theorem exec_goesOn (i : Instr) (s : State) : Out.GoesOn (exec i s) := by
  cases i <;> exact ⟨_, rfl⟩

/-! ### The word of a party -/

/-- A word that decodes runs as its instruction, after which its party has had its turn. -/
theorem runWord_ok {st : Stream} {w : IWord} {i : Instr} {s t : State} (hi : decodeWord st w = .ok i) (ht : exec i s = .next t) :
    runWord st w s = .next t.popCursor := by
  rw [runWord, hi]
  dsimp only
  rw [ht]
  rfl

/-- An illegal word traps or faults its party with the reason (R195). -/
theorem runWord_error {st : Stream} {w : IWord} {reason : Nat} (s : State) (hr : decodeWord st w = .error reason) :
    runWord st w s = .next (illegalWord reason s).popCursor := by
  rw [runWord, hr]

/-- A word goes on, legal or not. -/
theorem runWord_goesOn (st : Stream) (w : IWord) (s : State) : Out.GoesOn (runWord st w s) := by
  cases hw : decodeWord st w with
  | error reason => exact ⟨_, runWord_error s hw⟩
  | ok i =>
    obtain ⟨t, ht⟩ := exec_goesOn i s
    exact ⟨_, runWord_ok hw ht⟩

/-- In the vector stream an illegal word traps every lane of the group (R196). -/
theorem illegalWord_grp {s : State} {g : Grp} (hg : s.grp = some g) (reason : Nat) :
    illegalWord reason s = s.illopLanes g g.lanes reason := by
  rw [illegalWord, hg]

/-- In the tile stream it faults the tenant (R292). -/
theorem illegalWord_seq {s : State} {n : Nat} (hn : s.seq = some n) (reason : Nat) : illegalWord reason s = s.illopSeq n reason := by
  rw [illegalWord, State.grp_of_seq hn, hn]

/-! ### The cases of a step -/

section
variable {s : State} (hc : s.cursor ≠ [])
include hc

/-- A selected party runs its word. -/
theorem step_word {st : Stream} {w : IWord} (hf : s.fetch = some (st, w)) : step s = runWord st w s := by
  obtain ⟨c, cs, hcons⟩ := List.exists_cons_of_ne_nil hc
  rw [step, runStep, hcons, hf]

/-- A selected party without a word is passed over. -/
theorem step_noWord (hf : s.fetch = none) : step s = .next s.popCursor := by
  obtain ⟨c, cs, hcons⟩ := List.exists_cons_of_ne_nil hc
  rw [step, runStep, hcons, hf]

end

section
variable {s : State} (hc : s.cursor = [])
include hc

/-- With no party selected, the first event of the agenda happens at its time. -/
theorem step_event {e : Coming} {rest : List Coming} (ha : s.agenda = e :: rest) :
    step s = exec e.ev ({ s with agenda := rest }.advance e.pulses) := by
  rw [step, runStep, hc, ha]

/-- With no event either, one master pulse passes. -/
theorem step_pulse (ha : s.agenda = []) : step s = .next s.pulse := by
  rw [step, runStep, hc, ha]

end

/-- No state makes a step fault or refuse. -/
theorem step_goesOn (s : State) : Out.GoesOn (step s) := by
  by_cases hc : s.cursor = []
  · cases ha : s.agenda with
    | nil => exact ⟨_, step_pulse hc ha⟩
    | cons e rest => rw [step_event hc ha]; exact exec_goesOn _ _
  · cases hf : s.fetch with
    | none => exact ⟨_, step_noWord hc hf⟩
    | some p => rw [step_word hc hf]; exact runWord_goesOn _ _ _

/-- Settles O53: the cases of `step`, one by one, and `step_goesOn`. -/
theorem stepRunsTheDecodedWord : Obligations.StepRunsTheDecodedWord := by
  refine fun s => ⟨fun st w i t hc hf hi ht => ?_, fun st w reason hc hf hr => ⟨fun g hg => ?_, fun n hn => ?_⟩, step_noWord,
    fun _ _ hc => step_event hc, step_pulse, step_goesOn s⟩
  · exact (step_word hc hf).trans (runWord_ok hi ht)
  · rw [step_word hc hf, runWord_error s hr, illegalWord_grp hg]
  · rw [step_word hc hf, runWord_error s hr, illegalWord_seq hn]

end Sys2Proof.Machine
end

section
/-! O1. Integer arithmetic (R130, R209). -/

namespace Sys2Proof.Machine

/-- An integer instruction of two sources computes `f` of them, saturated or wrapped. -/
theorem intOp2_computes {i : Instr} {h : Hdr} {t : Ty} {sat : Bool} {a : Dst} {b c : Opd} {f f' : Int → Int → Int} {s : State}
    (hi : exec i s = .next (intOp2 h t sat a b c f s)) (hf : ∀ x y, f x y = f' x y) :
    Computes h (max (a.top t.bits) (max (b.top t.bits) (c.top t.bits)))
      (fun _ r => [.reg a t.bits (intResult t sat (f' (intVal t (r.src t b)) (intVal t (r.src t c))))]) s (exec i s) := by
  rw [hi]
  exact alu1_computes (fun r => congrArg (intResult t sat) (hf _ _))

/-- The results of a division: by 0, of the least signed number by −1, and otherwise (R130, R209). -/
theorem quotient_remainder (t : Ty) (sat : Bool) (x y : Int) :
    (quotient t sat x y, remainder t x y) =
      if y = 0 then ((if t.signed then -1 else (2 ^ t.bits : Nat) - 1 : Int), x)
      else if t.signed = true ∧ x = tyMin t ∧ y = -1 then (if sat then tyMax t else tyMin t, 0)
      else (x.tdiv y, x - x.tdiv y * y) := by
  unfold quotient remainder
  by_cases zero : y = 0
  · simp only [if_pos zero]
    cases signed : t.signed with
    | true => rfl
    | false => simp [tyMax, signed]
  · simp only [if_neg zero]
    by_cases overflow : t.signed = true ∧ x = tyMin t ∧ y = -1
    · simp only [if_pos overflow]
    · simp only [if_neg overflow]

/-- Settles O1: the six of two sources by `intOp2_computes`, `idiv` by `quotient_remainder`. -/
theorem integerArithmeticResults : Obligations.IntegerArithmeticResults := by
  unfold Obligations.IntegerArithmeticResults
  intro h t sat a m b c e s w two
  refine ⟨?iadd, ?isub, ?imul, ?imulh, ?imin, ?imax, ?imad, ?iabs, ?idiv⟩
  case iadd => exact intOp2_computes (i := .iadd h t sat a b c) rfl (fun _ _ => rfl)
  case isub => exact intOp2_computes (i := .isub h t sat a b c) rfl (fun _ _ => rfl)
  case imul => exact intOp2_computes (i := .imul h t sat a b c) rfl (fun _ _ => rfl)
  case imulh => exact intOp2_computes (i := .imulh h t a b c) rfl (fun _ _ => rfl)
  case imin => exact intOp2_computes (i := .imin h t a b c) (f' := fun x y => if x ≤ y then x else y) rfl Int.min_def
  case imax => exact intOp2_computes (i := .imax h t a b c) (f' := fun x y => if x ≤ y then y else x) rfl Int.max_def
  case imad | iabs => exact alu1_computes (fun _ => rfl)
  case idiv =>
    refine computes_of rfl (fun _ r => ?_)
    dsimp only
    rw [← quotient_remainder t sat (w r b) (w r c)]

end Sys2Proof.Machine
end

section
/-! O2. Logic on bits (R211). -/

namespace Sys2Proof.Machine

/-- A bit of a source below 64 is that bit of the 64-bit word on which logic computes. -/
theorem getLsbD_ofNat_of_lt (x : Nat) {j : Nat} (hj : j < 64) : (BitVec.ofNat 64 x).getLsbD j = x.testBit j := by
  rw [BitVec.getLsbD_ofNat, decide_eq_true hj, Bool.true_and]

/-- A logic instruction of two sources has the bits that `g` makes of theirs. -/
theorem logicOp_computes {i : Instr} {h : Hdr} {t : Ty} {a : Dst} {b c : Opd} {f : DWord → DWord → DWord} {s : State}
    (hi : exec i s = .next (logicOp h t a b c f s)) (g : Bool → Bool → Bool)
    (hf : ∀ x y j, j < 64 → (f x y).getLsbD j = g (x.getLsbD j) (y.getLsbD j)) :
    ∃ v : Regs → Nat, (∀ r j, j < t.bits → j < 64 → (v r).testBit j = g ((r.src t b).testBit j) ((r.src t c).testBit j)) ∧
      Computes h (max (a.top t.bits) (max (b.top t.bits) (c.top t.bits))) (fun _ r => [.reg a t.bits (v r)]) s (exec i s) := by
  refine ⟨fun r => (f (BitVec.ofNat 64 (r.src t b)) (BitVec.ofNat 64 (r.src t c))).toNat, fun r j _ hj => ?_, ?_⟩
  · rw [BitVec.testBit_toNat, hf _ _ j hj, getLsbD_ofNat_of_lt _ hj, getLsbD_ofNat_of_lt _ hj]
  · rw [hi]
    exact alu1_computes (fun _ => rfl)

/-- A bit of `bfn3` is the entry of the truth table at the bits of its sources: of the eight rows one matches them. -/
theorem bfn3_getLsbD (tt : BitVec 8) (b c e : DWord) {j : Nat} (hj : j < 64) :
    (bfn3 tt b c e).getLsbD j = ttBit tt (b.getLsbD j) (c.getLsbD j) (e.getLsbD j) := by
  have row (p : Bool) (x : DWord) : (if p then x else 0).getLsbD j = (p && x.getLsbD j) := by
    cases p with
    | true => rfl
    | false => exact BitVec.getLsbD_zero
  have negated (x : DWord) : (~~~x).getLsbD j = !x.getLsbD j := by
    rw [BitVec.getLsbD_not, decide_eq_true hj, Bool.true_and]
  unfold bfn3 ttBit
  simp only [BitVec.getLsbD_or, row, BitVec.getLsbD_and, apply_ite (BitVec.getLsbD · j), negated]
  generalize b.getLsbD j = x, c.getLsbD j = y, e.getLsbD j = z
  cases x <;> cases y <;> cases z <;> simp

/-- Settles O2: the four of two sources by `logicOp_computes`, `bfn3` by `bfn3_getLsbD`. -/
theorem logicResults : Obligations.LogicResults := by
  unfold Obligations.LogicResults
  intro h t a b c e tt s bit does
  refine ⟨?and, ?or, ?xor, ?andn, ?bfn3⟩
  case and => exact logicOp_computes (i := .and h t a b c) rfl (· && ·) (fun _ _ _ _ => BitVec.getLsbD_and)
  case or => exact logicOp_computes (i := .or h t a b c) rfl (· || ·) (fun _ _ _ _ => BitVec.getLsbD_or)
  case xor => exact logicOp_computes (i := .xor h t a b c) rfl (· != ·) (fun _ _ _ _ => BitVec.getLsbD_xor)
  case andn =>
    refine logicOp_computes (i := .andn h t a b c) rfl (fun x y => x && !y) (fun x y j hj => ?_)
    rw [BitVec.getLsbD_and, BitVec.getLsbD_not, decide_eq_true hj, Bool.true_and]
  case bfn3 =>
    refine ⟨_, fun r j _ hj => ?_, alu1_computes (fun _ => rfl)⟩
    rw [BitVec.testBit_toNat, bfn3_getLsbD tt _ _ _ hj]
    simp only [getLsbD_ofNat_of_lt _ hj]
    rfl

end Sys2Proof.Machine
end

section
/-! O3. Shifts, bit counts and bit fields (R212, R213). -/

namespace Sys2Proof.Machine

/-! ### Counts -/

theorem popcount_eq_countP (n b : Nat) : popcount n b = (List.range n).countP (fun j => b.testBit j) := by
  unfold popcount
  rw [upTo_eq, List.countP_eq_length_filter]

/-- The leading zeros of a number other than 0 stop at its highest one. -/
theorem leadingZeros_spec {n x : Nat} (hx : 0 < x) (hn : x < 2 ^ n) :
    leadingZeros n x < n ∧ x.testBit (n - 1 - leadingZeros n x) = true ∧
      ∀ j, n - 1 - leadingZeros n x < j → x.testBit j = false := by
  have ne : x ≠ 0 := Nat.pos_iff_ne_zero.mp hx
  have top : Nat.log2 x < n := (Nat.log2_lt ne).mpr hn
  have zeros : leadingZeros n x = n - 1 - Nat.log2 x := if_neg ne
  have highest : n - 1 - leadingZeros n x = Nat.log2 x := by omega
  rw [highest]
  refine ⟨by omega, Nat.testBit_log2 ne, fun j hj => Nat.testBit_lt_two_pow ?_⟩
  exact (Nat.log2_lt ne).mp hj

/-! ### Reversal -/

/-- Reversing one more bit places it lowest, below the others reversed. -/
theorem reverseBits_succ (n x : Nat) : reverseBits (n + 1) x = Nat.bit (x.testBit n) (reverseBits n x) := by
  unfold reverseBits
  have others : (List.range n).map (fun i => if x.testBit i then 2 ^ (n + 1 - 1 - i) else 0) =
      (List.range n).map (fun i => 2 * if x.testBit i then 2 ^ (n - 1 - i) else 0) := by
    refine List.map_congr_left (fun i hi => ?_)
    have lt : i < n := List.mem_range.mp hi
    rw [mul_ite, Nat.mul_zero, ← Nat.pow_succ', show (n - 1 - i).succ = n + 1 - 1 - i by omega]
  have lowest : [n].map (fun i => if x.testBit i then 2 ^ (n + 1 - 1 - i) else 0) = [(x.testBit n).toNat] := by
    cases hx : x.testBit n <;> simp [hx]
  rw [upTo_eq, upTo_eq, List.range_succ, List.map_append, List.sum_append, others, lowest, List.sum_map_mul_left, List.sum_singleton,
    Nat.bit_val]

theorem reverseBits_testBit (x : Nat) {n j : Nat} (hj : j < n) : (reverseBits n x).testBit j = x.testBit (n - 1 - j) := by
  induction n generalizing j with
  | zero => exact absurd hj (Nat.not_lt_zero j)
  | succ n ih =>
    rw [reverseBits_succ]
    cases j with
    | zero => exact Nat.testBit_bit_zero _ _
    | succ j => rw [Nat.testBit_bit_succ, ih (Nat.lt_of_succ_lt_succ hj), show n + 1 - 1 - (j + 1) = n - 1 - j by omega]

/-! ### Fields and bytes -/

/-- `bfi` replaces the bits of the field and keeps the others. -/
theorem bfiBits_testBit (n x y pos len j : Nat) : (bfiBits n x y pos len).testBit j =
    if pos ≤ j ∧ j < pos + fieldWidth n pos len then y.testBit (j - pos) else x.testBit j := by
  unfold bfiBits
  dsimp only
  generalize fieldWidth n pos len = w
  by_cases empty : w = 0
  · rw [if_pos empty, if_neg (by omega)]
  · have stacked : x / 2 ^ (pos + w) * 2 ^ (pos + w) + y % 2 ^ w * 2 ^ pos + x % 2 ^ pos =
        2 ^ pos * (2 ^ w * (x / 2 ^ (pos + w)) + y % 2 ^ w) + x % 2 ^ pos := by ring
    have low (z k : Nat) : z % 2 ^ k < 2 ^ k := Nat.mod_lt z (Nat.two_pow_pos k)
    rw [if_neg empty, stacked, Nat.testBit_two_pow_mul_add _ (low x pos), Nat.testBit_two_pow_mul_add _ (low y w),
      Nat.testBit_mod_two_pow, Nat.testBit_mod_two_pow, Nat.testBit_div_two_pow]
    by_cases below : j < pos
    · rw [if_pos below, decide_eq_true below, Bool.true_and, if_neg (by omega)]
    · rw [if_neg below]
      by_cases inside : j - pos < w
      · rw [if_pos inside, decide_eq_true inside, Bool.true_and, if_pos (by omega)]
      · rw [if_neg inside, if_neg (by omega), show j - pos - w + (pos + w) = j by omega]

/-- A selector nibble of 8 or more replicates the sign of its byte. -/
theorem permByte_eq (b c : Nat) {sel : Nat} (hs : sel < 16) :
    permByte b c sel =
      if 8 ≤ sel then (if 128 ≤ (b + 2 ^ 32 * c) / 2 ^ (8 * (sel % 8)) % 256 then 0xFF else 0)
      else (b + 2 ^ 32 * c) / 2 ^ (8 * (sel % 8)) % 256 := by
  have high : sel / 8 % 2 = 1 ↔ 8 ≤ sel := by omega
  unfold permByte
  simp only [high]

/-- Settles O3: the shifts, `bfx` and `adrs` as they compute, the others by what their results are bit by bit. -/
theorem shiftAndFieldResults : Obligations.ShiftAndFieldResults := by
  unfold Obligations.ShiftAndFieldResults
  intro h t a b c d e k s n does fw
  refine ⟨?shl, ?shr, ?fsh, ?popc, ⟨leadingZeros n, ?clz, rfl, fun x => leadingZeros_spec⟩,
    ⟨reverseBits n, ?brev, fun x j => reverseBits_testBit x⟩, ?bfx,
    ⟨bfiBits n, ?bfi, fun x y pos len j _ => bfiBits_testBit n x y pos len j⟩, ?adrs, ?permb⟩
  case shl | shr | fsh | clz | brev | bfx | bfi | adrs => exact alu1_computes (fun _ => rfl)
  case popc => exact alu1_computes (fun r => popcount_eq_countP t.bits (r.src t b))
  case permb =>
    refine alu1_computes (fun r => ?_)
    have nibble (i : Nat) : r.src32 d / 2 ^ (4 * i) % 16 < 16 := Nat.mod_lt _ (by decide)
    simp only [permByte_eq _ _ (nibble _), upTo_eq]

end Sys2Proof.Machine
end

section
/-! O4. Select, move, compare and predicate logic (R216). -/

namespace Sys2Proof.Machine

/-- Settles O4: each as it computes, `icmp` for each of its six conditions; no other is an integer condition (R217). -/
theorem selectMoveCompareResults : Obligations.SelectMoveCompareResults := by
  unfold Obligations.SelectMoveCompareResults
  intro h t a b c p pd pa pb pc tt s
  refine ⟨?sel, ?mov, fun cond isInt => ?icmp, ?plop⟩
  case sel | mov => exact alu1_computes (fun _ => rfl)
  case plop => exact alu_computes _ _ _ _
  case icmp =>
    refine computes_of rfl (fun _ r => ?_)
    cases cond with
    | eq | ne | lt | le | gt | ge => rfl
    | equ | neu | ltu | leu | gtu | geu | num | nan => exact Bool.noConfusion isInt

end Sys2Proof.Machine
end

section
/-! O5. Cross-lane instructions (R220, R222 to R224). -/

namespace Sys2Proof.Machine

/-! ### Votes (R223) -/

/-- Every predicate is true when as many are true as there are. -/
theorem all_id_eq (ps : List Bool) : ps.all id = decide (ps.countP (fun x => x) = ps.length) := by
  rw [Bool.eq_iff_iff, List.all_eq_true, decide_eq_true_iff, List.countP_eq_length]
  rfl

/-- Some predicate is true when their number is not 0 … -/
theorem any_id_eq (ps : List Bool) : ps.any id = decide (0 < ps.countP (fun x => x)) := by
  rw [Bool.eq_iff_iff, List.any_eq_true, decide_eq_true_iff, List.countP_pos_iff]
  rfl

/-- … and none when it is. -/
theorem all_not_eq (ps : List Bool) : ps.all (fun p => !p) = decide (ps.countP (fun x => x) = 0) := by
  rw [Bool.eq_iff_iff, List.all_eq_true, decide_eq_true_iff, List.countP_eq_zero]
  simp only [Bool.not_eq_true', Bool.not_eq_true]

/-! ### Scans (R224) -/

section
variable (op : Aop) (t : Ty) (pc : PC) (excl : Bool)

/-- The running value of a scan that begins at `x`, after the lanes `ys` of one segment. -/
def scanTotal (x : Nat) (ys : List (Nat × Nat × Bool)) : Nat := ys.foldl (fun acc y => crossOp op t pc y.1 acc y.2.1) x

/-- A scan begins anew at the lowest lane and at each start of a segment. -/
theorem scanGo_start {acc : Option Nat} {first : Nat × Nat × Bool} (start : acc = none ∨ first.2.2 = true)
    (rest : List (Nat × Nat × Bool)) :
    scanGo op t pc excl acc (first :: rest) =
      (first.1, if excl then crossId op t else first.2.1) :: scanGo op t pc excl (some first.2.1) rest := by
  obtain ⟨l, x, seg⟩ := first
  cases acc with
  | none => rfl
  | some acc => exact if_pos (start.resolve_left (Option.some_ne_none acc))

/-- Within a segment a lane is combined into the running value. -/
theorem scanGo_within (acc : Nat) {y : Nat × Nat × Bool} (within : y.2.2 = false) (rest : List (Nat × Nat × Bool)) :
    scanGo op t pc excl (some acc) (y :: rest) =
      (y.1, if excl then acc else crossOp op t pc y.1 acc y.2.1) :: scanGo op t pc excl (some (crossOp op t pc y.1 acc y.2.1)) rest := by
  obtain ⟨l, x, seg⟩ := y
  exact if_neg (Bool.eq_false_iff.mp within)

/-- Each lane scanned before leaves one result and some running value. -/
theorem scanGo_drop (before rest : List (Nat × Nat × Bool)) (acc : Option Nat) :
    ∃ acc', (before = [] → acc' = acc) ∧
      (scanGo op t pc excl acc (before ++ rest)).drop before.length = scanGo op t pc excl acc' rest := by
  induction before generalizing acc with
  | nil => exact ⟨acc, fun _ => rfl, rfl⟩
  | cons y before ih =>
    have head : ∃ r acc₁, scanGo op t pc excl acc (y :: (before ++ rest)) = r :: scanGo op t pc excl acc₁ (before ++ rest) := by
      cases acc with
      | none => exact ⟨_, _, scanGo_start op t pc excl (.inl rfl) _⟩
      | some acc =>
        cases seg : y.2.2 with
        | true => exact ⟨_, _, scanGo_start op t pc excl (.inr seg) _⟩
        | false => exact ⟨_, _, scanGo_within op t pc excl acc seg _⟩
    obtain ⟨r, acc₁, head⟩ := head
    obtain ⟨acc', -, tail⟩ := ih acc₁
    refine ⟨acc', nofun, ?_⟩
    rw [List.cons_append, head]
    exact tail

/-- The result of lane `z` of a segment, after the lanes `run` of it: the running value before it or with it. -/
theorem scanGo_run (run after : List (Nat × Nat × Bool)) (z : Nat × Nat × Bool) (acc : Nat)
    (within : ∀ y ∈ run ++ [z], y.2.2 = false) :
    (scanGo op t pc excl (some acc) (run ++ z :: after))[run.length]? =
      some (z.1, if excl then scanTotal op t pc acc run else scanTotal op t pc acc (run ++ [z])) := by
  induction run generalizing acc with
  | nil =>
    rw [List.nil_append, scanGo_within op t pc excl acc (within z List.mem_cons_self)]
    rfl
  | cons y run ih =>
    rw [List.cons_append, scanGo_within op t pc excl acc (within y List.mem_cons_self)]
    exact ih _ (fun x hx => within x (List.mem_cons_of_mem y hx))

/-- The result of the last lane of `first :: run`, where `first` begins a segment and `run` continues it. -/
theorem scanGo_segment (before run after : List (Nat × Nat × Bool)) (first : Nat × Nat × Bool)
    (start : before = [] ∨ first.2.2 = true) (within : ∀ y ∈ run, y.2.2 = false) :
    (scanGo op t pc excl none (before ++ first :: run ++ after))[before.length + run.length]? =
      some (((first :: run).getLastD first).1,
        if excl then (if run = [] then crossId op t else scanTotal op t pc first.2.1 run.dropLast)
        else scanTotal op t pc first.2.1 run) := by
  obtain ⟨acc, same, dropped⟩ := scanGo_drop op t pc excl before (first :: (run ++ after)) none
  rw [List.append_assoc, List.cons_append, ← List.getElem?_drop, dropped, scanGo_start op t pc excl (start.imp_left same)]
  obtain rfl | ⟨run, z, rfl⟩ := List.eq_nil_or_concat' run
  · rfl
  · rw [List.length_append, List.length_singleton, List.getElem?_cons_succ, List.append_assoc, List.singleton_append,
      scanGo_run op t pc excl run after z _ within, if_neg (List.append_ne_nil_of_right_ne_nil run (List.cons_ne_nil z [])),
      List.dropLast_concat, ← List.cons_append, List.getLastD_concat]

end

/-- Settles O5: each from what it computes of the guard-true lanes, `scan` by `scanGo_segment`. -/
theorem crossLaneResults : Obligations.CrossLaneResults := by
  unfold Obligations.CrossLaneResults
  intro h t pd p d a b c w op s maskOf
  refine ⟨fun mode => ?shfl, fun mode => ?vote, ?ballot, ?each, ?whole, ?elect, ?redux,
    fun excl seg => ⟨fun pc => scanGo op t pc excl none, ?scan, fun pc before first run after start within => ?segment⟩⟩
  case ballot | each | elect => exact alu_computes _ _ _ _
  case shfl =>
    refine computes_of rfl (fun G r => ?_)
    cases mode with
    | pick | shift | rot | xor =>
      dsimp only [shflSource]
      generalize Option.bind _ _ = source
      cases source <;> rfl
  case vote =>
    refine computes_of rfl (fun G r => ?_)
    cases mode with
    | every => simp only [voteValue, all_id_eq]; rfl
    | some => simp only [voteValue, any_id_eq]; rfl
    | same => simp only [voteValue, all_id_eq, all_not_eq, Bool.decide_or]; rfl
    | count => simp only [voteValue, List.countP_eq_length_filter]; rfl
  case whole =>
    refine computes_of rfl (fun G r => ?_)
    have equal : G.all (fun k => G.all (fun j => k.src t (.v b) = j.src t (.v b))) =
        decide (∀ k ∈ G, ∀ j ∈ G, k.src t (.v b) = j.src t (.v b)) := by
      rw [Bool.eq_iff_iff]
      simp only [List.all_eq_true, decide_eq_true_iff]
    rw [if_pos rfl, equal]
  case redux =>
    refine computes_of rfl (fun G r => ?_)
    cases G with
    | nil => rfl
    | cons x rest => simp only [reduce, List.map_cons, List.foldl_map]
  case scan =>
    refine computes_of rfl (fun G r => ?_)
    cases seg <;> rfl
  case segment => exact scanGo_segment op t pc excl before run after first start within

end Sys2Proof.Machine
end

section
/-! O43. PAD, the packets that enter work when they start, and the nodes of a graph (R284, R335, R338 to R344). -/

namespace Sys2Proof.Machine

/-- A PAD at QHEAD is passed over, and the queue is read on. -/
theorem exec_pad {q len bytes : Nat} {s : State} (hp : s.peek q = .packet (.pad q len) bytes) :
    exec (.pad q len) s = .next ((s.passPacket q bytes).readOn q) := by
  show execPad q len s = _
  unfold execPad
  rw [hp]
  exact congrArg Host.Outcome.next (if_pos rfl)

/-- A read for a packet that is answered goes on with its bytes. -/
theorem cmdRead_ok {s u : State} {x addr count a : Nat} {bs : List (BitVec 8)} (q n : Nat) (k : List (BitVec 8) → State → State)
    (ha : canonical (BitVec.ofNat 64 addr) = true)
    (hr : State.engReadList (s.whoFirmware x) s (addr % 2 ^ 57) count = (u, .ok bs, a)) : s.cmdRead q n x addr count k = k bs u := by
  unfold State.cmdRead
  refine (if_neg (by simp [ha])).trans ?_
  rw [hr]

/-! ### LAUNCH (R341, R342) -/

section
variable {q n record limit a : Nat} {h : PktHdr} {s u : State} {bs : List (BitVec 8)}
  (hs : Starts s (.launchPkt q n h record limit) q n true) (ha : canonical (BitVec.ofNat 64 record) = true)
  (hr : State.engReadList (s.whoFirmware (s.queueCtx q)) s (record % 2 ^ 57) 24 = (u, .ok bs, a))
include hs ha hr

/-- A LAUNCH of a good record enters a grid … -/
theorem launchPkt_good (hg : u.recordReason (s.queueCtx q) bs = none) :
    exec (.launchPkt q n h record limit) s = .next (((u.startCmd q n).addGrid (Grid.fresh (s.queueCtx q) q n h .packet
      (LaunchRec.ofBytes bs) (record % 2 ^ 57) (gridClass (LaunchRec.ofBytes bs) (u.queueClass q)) limit)).closeCmd q n) :=
  exec_starts rfl hs ((cmdRead_ok q n _ ha hr).trans (by rw [hg]))

/-- … and of a bad one ends with its reason. -/
theorem launchPkt_bad (e : Nat) (hg : u.recordReason (s.queueCtx q) bs = some e) :
    exec (.launchPkt q n h record limit) s = .next ((u.endCmd q n 7 e 0).closeCmd q n) :=
  exec_starts rfl hs ((cmdRead_ok q n _ ha hr).trans (by rw [hg]))

end

/-! ### GRAPH (R343) -/

/-- The graph that a node table gives: the costs, predecessors and slacks of its nodes, none of them started. -/
def tableGraph (x q n : Nat) (h : PktHdr) (limit count : Nat) (bs : List (BitVec 8)) : Graph :=
  { ctx := x, queue := q, seq := n, hdr := h, limit := limit, firstStart := none, recs := (upTo count).map (nodeRec bs),
    cost := (upTo count).map (nodeCost bs), preds := (upTo count).map (nodePreds bs),
    slack := slackOf ((upTo count).map (nodeCost bs)) ((upTo count).map (nodePreds bs)), st := (upTo count).map (fun _ => 0),
    status := 0, reason := 0, cause := 0, faddr := 0, engine := 0, failing := 0, paused := [] }

section
variable {q n table count limit a : Nat} {h : PktHdr} {s u : State} {bs : List (BitVec 8)}
  (hs : Starts s (.graph q n h table count limit) q n true) (ha : canonical (BitVec.ofNat 64 table) = true)
  (hr : State.engReadList (s.whoFirmware (s.queueCtx q)) s (table % 2 ^ 57) (3 * count) = (u, .ok bs, a))
include hs ha hr

/-- A GRAPH of good nodes enters the graph of its table … -/
theorem graph_good (hg : (upTo count).all (nodeOk bs) = true) :
    exec (.graph q n h table count limit) s = .next ((State.next { u.startCmd q n with
      graphs := u.graphs ++ [(u.tick, tableGraph (s.queueCtx q) q n h limit count bs)] }).closeCmd q n) :=
  exec_starts rfl hs ((cmdRead_ok q n _ ha hr).trans (if_neg (by simp [hg])))

/-- … and one with a bad node ends with reason 0x0C. -/
theorem graph_bad (hg : (upTo count).all (nodeOk bs) = false) :
    exec (.graph q n h table count limit) s = .next ((u.endCmd q n 7 0x0C 0).closeCmd q n) :=
  exec_starts rfl hs ((cmdRead_ok q n _ ha hr).trans (if_pos (by rw [hg]; rfl)))

end

/-! ### COPY and FILL (R284, R339) -/

section
variable {q n dst bytes c : Nat} {src : Option Nat} {s : State} (kind : CopyKind) (args : List DWord)

/-- A copy or fill whose destination is not canonical ends with FAULT. -/
theorem startPktCopy_badDst {a : DWord} (hd : badAddress (BitVec.ofNat 64 dst) bytes = some a) :
    s.startPktCopy q n kind args dst src bytes = s.endCmd q n 1 0x06 a.toNat := by
  unfold State.startPktCopy
  rw [hd]
  rfl

/-- One of canonical ranges, with an engine to take it, is done at once where it has no bytes, else enters one operation. -/
theorem startPktCopy_canonical (hc : s.pickEngine (s.queuePart q) = some c) (hd : badAddress (BitVec.ofNat 64 dst) bytes = none)
    (hsrc : src.bind (fun a => badAddress (BitVec.ofNat 64 a) bytes) = none) :
    s.startPktCopy q n kind args dst src bytes =
      if bytes = 0 then s.doneCmd q n 0 0
      else State.next { s.startCmd q n with copies := s.copies ++
        [(mapFresh s.copies, pktOp s q n c kind args (dst % 2 ^ 57) (src.map (· % 2 ^ 57)) bytes)] } := by
  unfold State.startPktCopy
  rw [hd, hsrc, hc]
  rfl

end

/-! ### GRAPH_NODE_START (R341, R343, R344) -/

section
variable {gr node : Nat} {s : State} {g : Graph} (hg : mapGet? s.graphs gr = some g)
include hg

/-- Once the time limit of a graph has run out, a node that would start stops the graph. -/
theorem graphNodeStart_late (ht : expired g.limit g.firstStart (s.gtimeAt 0) = true) :
    exec (.graphNodeStart gr node) s = .next (s.limitGraph gr) := by
  show execGraphNodeStart gr node s = _
  unfold execGraphNodeStart
  rw [hg]
  exact congrArg Host.Outcome.next (if_pos ht)

/-- Before that, a ready node reads its record, which starts its grid or fails it. -/
theorem graphNodeStart_read {u : State} {bs : List (BitVec 8)} {b : Nat} (hready : g.ready node = true)
    (hp : ∀ e ∈ g.paused, e.1 ≠ node) (ht : expired g.limit g.firstStart (s.gtimeAt 0) = false)
    (ha : canonical (BitVec.ofNat 64 (g.recs.getD node 0)) = true) (h192 : g.recs.getD node 0 % 192 = 0)
    (hr : State.engReadList (s.whoFirmware g.ctx) s (g.recs.getD node 0 % 2 ^ 57) 24 = (u, .ok bs, b)) :
    exec (.graphNodeStart gr node) s = .next ((u.recordReason g.ctx bs).elim
      ((u.modGraph gr (fun g => { g with st := g.st.set node 1 })).addGrid (Grid.fresh g.ctx g.queue g.seq g.hdr (.node gr node)
        (LaunchRec.ofBytes bs) (g.recs.getD node 0 % 2 ^ 57) (gridClass (LaunchRec.ofBytes bs) (u.queueClass g.queue)) 0))
      (fun e => u.modGraph gr (fun g => g.fails node 7 e 0))) := by
  have unpaused : g.paused.any (fun e => e.1 = node) = false := List.any_eq_false.2 (fun e he => by simp [hp e he])
  show execGraphNodeStart gr node s = _
  unfold execGraphNodeStart
  rw [hg]
  dsimp only
  rw [if_neg (by rw [ht]; exact Bool.false_ne_true), if_neg (by rw [hready, unpaused]; exact Bool.false_ne_true),
    if_neg (by rw [ha]; exact Bool.false_ne_true), if_neg (not_not_intro h192), hr]
  dsimp only
  cases u.recordReason g.ctx bs <;> rfl

end

/-- Settles O43: each packet by what its read or the checks of its ranges answer, and a node by the read of its record. -/
theorem workPacketsStart : Obligations.WorkPacketsStart := by
  unfold Obligations.WorkPacketsStart
  refine ⟨fun q len bytes s hp => exec_pad hp, fun q n h s => ⟨?launch, ?graph, ?copy, ?fill⟩,
    fun gr node s g hg hready hp => ⟨?late, ?inTime⟩⟩
  case launch => exact fun record limit hs ha u bs a hr => ⟨launchPkt_good hs ha hr, launchPkt_bad hs ha hr⟩
  case graph =>
    exact fun table count limit hs ha u bs a hr =>
      ⟨fun hg => ⟨tableGraph (s.queueCtx q) q n h limit count bs, graph_good hs ha hr hg, rfl, rfl, rfl, rfl, rfl, rfl, rfl, rfl, rfl,
        mem_st count⟩, graph_bad hs ha hr⟩
  case copy =>
    intro src dst bytes hs c hc hd hsrc
    have start := startPktCopy_canonical (n := n) .copyPkt [] hc hd (src := some src) hsrc
    exact ⟨fun hb => exec_starts rfl hs (start.trans (if_neg hb)), fun hb => exec_starts rfl hs (start.trans (if_pos hb))⟩
  case fill =>
    intro dst bytes v hs c hc
    refine ⟨fun a hd => exec_starts rfl hs (startPktCopy_badDst .fillPkt [v] hd), fun hd => ?_⟩
    have start := startPktCopy_canonical (n := n) .fillPkt [v] hc hd (src := none) rfl
    exact ⟨fun hb => exec_starts rfl hs (start.trans (if_neg hb)), fun hb => exec_starts rfl hs (start.trans (if_pos hb))⟩
  case late => exact graphNodeStart_late hg
  case inTime =>
    intro ht a ha h192 u bs b hr
    have read := graphNodeStart_read hg hready hp ht ha h192 hr
    exact ⟨fun hgood => by rw [read, hgood]; rfl, fun e hbad => by rw [read, hbad]; rfl⟩

end Sys2Proof.Machine
end

section
/-! O60. Every step keeps physical memory in canonical form.

An operation that does not write memory has a lemma `f_mem`: it leaves `State.mem` as it is. One that may write it has
a lemma `f_wf`: it keeps the form. Both are rules of `simp`, so the lemma about an operation is one pass over its
branches with the rules of the operations that it calls. They stand in the order of the model's definitions.

`-implicitDefEqProofs` makes `simp` cite those rules where they hold by `rfl`: the kernel would else evaluate the
operation, with the 32-bit counters of the error logs in it. -/

namespace Sys2Proof.Machine

/-! ### Branches, folds and outcomes -/

@[simp] theorem State.ite_mem (c : Prop) [Decidable c] (x y : State) :
    (if c then x else y).mem = if c then x.mem else y.mem :=
  apply_ite State.mem c x y

@[simp] theorem ite_fst {α β : Type} (c : Prop) [Decidable c] (x y : α × β) :
    (if c then x else y).1 = if c then x.1 else y.1 :=
  apply_ite Prod.fst c x y

@[simp] theorem wf_ite (c : Prop) [Decidable c] (x y : List Host.Cell) :
    Memory.wf (if c then x else y) = if c then Memory.wf x else Memory.wf y :=
  apply_ite Memory.wf c x y

/-- A case of a match on a pair names its parts; this says what they are. -/
theorem eq_pair_iff {α β : Type} (p : α × β) (a : α) (b : β) : p = (a, b) ↔ a = p.1 ∧ b = p.2 := by
  constructor
  · rintro rfl; exact ⟨rfl, rfl⟩
  · rintro ⟨rfl, rfl⟩; rfl

@[simp] theorem foldl_mem {α : Type} (l : List α) (f : State → α → State) (hf : ∀ t a, (f t a).mem = t.mem)
    (s : State) : (l.foldl f s).mem = s.mem := by
  induction l generalizing s with
  | nil => rfl
  | cons a l ih => exact (ih _).trans (hf s a)

@[simp] theorem foldl_wf {α : Type} (l : List α) (f : State → α → State)
    (hf : ∀ t a, Memory.wf t.mem → Memory.wf (f t a).mem) (s : State) (hs : Memory.wf s.mem) :
    Memory.wf (l.foldl f s).mem := by
  induction l generalizing s with
  | nil => exact hs
  | cons a l ih => exact ih _ (hf s a hs)

theorem getD_wf (o : Option State) (s : State) (ho : ∀ u, o = some u → Memory.wf u.mem) (hs : Memory.wf s.mem) :
    Memory.wf (o.getD s).mem := by
  cases o with
  | none => exact hs
  | some u => exact ho u rfl

/-- A state that is answered has its memory in canonical form. -/
def Out.MemWf (o : Out) : Prop := ∀ t, o = .next t → Memory.wf t.mem

@[simp] theorem Out.memWf_next (s : State) : Out.MemWf (.next s) ↔ Memory.wf s.mem := by simp [Out.MemWf]

@[simp] theorem Out.memWf_ite (c : Prop) [Decidable c] (x y : Out) :
    Out.MemWf (if c then x else y) ↔ if c then x.MemWf else y.MemWf := by
  split <;> rfl

/-! ### The operations of the state -/

section
variable (s : State)

/-! #### Physical memory -/

@[simp] theorem State.writePhys_wf (a bs) (hs : Memory.wf s.mem) : Memory.wf (s.writePhys a bs).mem :=
  State.safe_writePhys hs a bs

/-! #### Groups (R5, R6) -/

@[simp] theorem State.stepLanes_mem (w ls) : (s.stepLanes w ls).mem = s.mem := by simp [State.stepLanes]
@[simp] theorem State.stepSeq_mem (t) : (s.stepSeq t).mem = s.mem := by simp [State.stepSeq]

/-! #### Numbered barriers (R144, R145) -/

@[simp] theorem State.modNbar_mem (b r n f) : (s.modNbar b r n f).mem = s.mem := by simp [State.modNbar]

@[simp] theorem State.releaseBarw_mem (b r n) : (s.releaseBarw b r n).mem = s.mem := by
  unfold State.releaseBarw
  split <;> simp -implicitDefEqProofs

@[simp] theorem State.checkNbar_mem (b r n) : (s.checkNbar b r n).mem = s.mem := by simp [State.checkNbar]

@[simp] theorem State.leaveNbars_mem (b party) : (s.leaveNbars b party).mem = s.mem := by
  unfold State.leaveNbars
  split <;> simp

/-! #### The block barrier (R291, R107) -/

@[simp] theorem State.mergeHorizons_mem (bl) : (s.mergeHorizons bl).mem = s.mem :=
  foldl_mem _ _ (fun _ _ => by simp) _

@[simp] theorem State.tryBar_mem (b) : (s.tryBar b).mem = s.mem := by
  unfold State.tryBar
  split <;> simp -implicitDefEqProofs

/-! #### Taking a trap, killing a block, exit (R229, R372 to R375) -/

@[simp] theorem State.dropHeld_mem (drop) : (s.dropHeld drop).mem = s.mem := by simp [State.dropHeld]
@[simp] theorem State.withdraw_mem (w l) : (s.withdraw w l).mem = s.mem := by simp [State.withdraw]

@[simp] theorem State.exitLane_mem (w l) : (s.exitLane w l).mem = s.mem := by
  unfold State.exitLane
  (repeat' split) <;> simp

@[simp] theorem State.stopSeq_mem (t) : (s.stopSeq t).mem = s.mem := by simp [State.stopSeq]
@[simp] theorem State.clearQueue_mem (t) : (s.clearQueue t).mem = s.mem := by simp [State.clearQueue]

@[simp] theorem State.noteKill_mem (b cause addr core) : (s.noteKill b cause addr core).mem = s.mem := by
  unfold State.noteKill
  split <;> simp

@[simp] theorem State.killBlock_mem (b cause addr core) : (s.killBlock b cause addr core).mem = s.mem := by
  unfold State.killBlock
  split <;> simp

@[simp] theorem State.breakSpec_mem (n) : (s.breakSpec n).mem = s.mem := by simp [State.breakSpec]

@[simp] theorem State.trapLane_mem (w l t) : (s.trapLane w l t).mem = s.mem := by
  unfold State.trapLane
  (repeat' split) <;> simp

@[simp] theorem State.trapLanes_mem (w ls t) : (s.trapLanes w ls t).mem = s.mem := by simp [State.trapLanes]
@[simp] theorem State.exitLanes_mem (w ls) : (s.exitLanes w ls).mem = s.mem := by simp [State.exitLanes]

@[simp] theorem State.checkArrivals_mem (b) : (s.checkArrivals b).mem = s.mem := by
  unfold State.checkArrivals
  split <;> simp

/-! #### Tenant faults (R149, R376) -/

@[simp] theorem State.breakBarriers_mem (b cause rank addr) : (s.breakBarriers b cause rank addr).mem = s.mem := by
  unfold State.breakBarriers
  split
  · rfl
  · refine (foldl_mem _ _ (fun t w => foldl_mem _ _ (fun t l => ?_) _) _).trans (by simp)
    (repeat' split) <;> simp

@[simp] theorem State.tenantFault_mem (t cause reason spc addr) :
    (s.tenantFault t cause reason spc addr).mem = s.mem := by
  simp only [State.tenantFault]
  (repeat' split) <;> simp

@[simp] theorem State.illopLanes_mem (g ls reason) : (s.illopLanes g ls reason).mem = s.mem := by
  simp [State.illopLanes]

@[simp] theorem State.illopSeq_mem (t reason) : (s.illopSeq t reason).mem = s.mem := by
  unfold State.illopSeq
  split <;> simp

@[simp] theorem illegalWord_mem (reason) : (illegalWord reason s).mem = s.mem := by
  unfold illegalWord
  (repeat' split) <;> simp

/-! #### Operand forms -/

@[simp] theorem aluCk_mem (h top ok f) : (aluCk h top ok f s).mem = s.mem := by
  unfold aluCk
  (repeat' split) <;> simp

@[simp] theorem alu_mem (h top f) : (alu h top f s).mem = s.mem := by simp [alu]
@[simp] theorem alu1_mem (h a bits top f) : (alu1 h a bits top f s).mem = s.mem := by simp [alu1]

/-! #### Control -/

@[simp] theorem onGroup_mem (h top) (s : State) (f) (hf : ∀ g G t, (f g G t).mem = t.mem) :
    (onGroup h top s f).mem = s.mem := by
  unfold onGroup
  split
  · rfl
  · simp [hf]

@[simp] theorem onGroup_wf (h top) (s : State) (f) (hf : ∀ g G t, Memory.wf t.mem → Memory.wf (f g G t).mem)
    (hs : Memory.wf s.mem) :
    Memory.wf (onGroup h top s f).mem := by
  unfold onGroup
  split
  · exact hs
  · simp [hf, hs]

theorem Out.memWf_onGroup {s : State} {h top f} (hs : Memory.wf s.mem)
    (hf : ∀ g G t, Memory.wf t.mem → Memory.wf (f g G t).mem) :
    Out.MemWf (.next (onGroup h top s f)) :=
  (Out.memWf_next _).mpr (onGroup_wf _ _ _ _ hf hs)

@[simp] theorem State.abortLanes_mem (w ls cause code) : (s.abortLanes w ls cause code).mem = s.mem := by
  simp [State.abortLanes]

@[simp] theorem outsideTx_mem (g G) (s : State) (f) (hf : ∀ G t, (f G t).mem = t.mem) :
    (outsideTx g G s f).mem = s.mem := by
  unfold outsideTx
  split <;> simp [hf]

@[simp] theorem outsideTx_wf (g G) (s : State) (f) (hf : ∀ G t, Memory.wf t.mem → Memory.wf (f G t).mem)
    (hs : Memory.wf s.mem) :
    Memory.wf (outsideTx g G s f).mem := by
  unfold outsideTx
  split <;> simp [hf, hs]

/-- An instruction of groups that aborts transactions, by what it does for the lanes in none. -/
theorem Out.memWf_onGroupTx {s : State} {h top} {f : Grp → List Nat → State → State} (hs : Memory.wf s.mem)
    (hf : ∀ g G t, Memory.wf t.mem → Memory.wf (f g G t).mem) :
    Out.MemWf (.next (onGroup h top s (fun g G s => outsideTx g G s (f g)))) :=
  Out.memWf_onGroup hs (fun g _ _ ht => outsideTx_wf _ _ _ _ (hf g) ht)

/-! #### Branches (R227, R228) -/

@[simp] theorem State.jump_mem (w ls pc) : (s.jump w ls pc).mem = s.mem := by simp [State.jump]

@[simp] theorem execBra_wf (h off) (hs : Memory.wf s.mem) : Out.MemWf (execBra h off s) := by
  unfold execBra
  split <;> simp [hs]

@[simp] theorem State.branchTo_mem (g l t) : (s.branchTo g l t).mem = s.mem := by simp [State.branchTo]

/-! #### Ending, yielding, doing nothing (R229 to R231) -/

@[simp] theorem execExit_wf (h) (hs : Memory.wf s.mem) : Out.MemWf (execExit h s) := by
  unfold execExit
  split <;> simp [hs]

@[simp] theorem execNop_wf (x0) (hs : Memory.wf s.mem) : Out.MemWf (execNop x0 s) := by
  unfold execNop
  (repeat' split) <;> simp [hs]

/-! #### Rejoin masks (R12) -/

@[simp] theorem execRejoin_wf (h n) (hs : Memory.wf s.mem) : Out.MemWf (execRejoin h n s) := by
  simp -implicitDefEqProofs [execRejoin, hs]

/-! #### Offsets -/

@[simp] theorem State.bump_mem (off n) : (s.bump off n).mem = s.mem := by simp [State.bump]

/-! #### Physical ranges (Table 18.1) -/

@[simp] theorem State.claim_wf (f owner) (hs : Memory.wf s.mem) : Memory.wf (s.claim f owner).mem :=
  State.safe_claim hs f owner

@[simp] theorem State.logError_mem (x addr reason engine) : (s.logError x addr reason engine).mem = s.mem := by
  simp [State.logError]

@[simp] theorem State.deviceError_mem (kind structure_ unit pa) :
    (s.deviceError kind structure_ unit pa).mem = s.mem := by
  simp [State.deviceError]

/-! #### Walk cache and TLB (R358) -/

@[simp] theorem State.keepWalk_mem (x sl asid page w) : (s.keepWalk x sl asid page w).mem = s.mem :=
  foldl_mem _ _ (fun _ _ => by simp) _

@[simp] theorem State.keepPtrs_mem (sl asid page w) : (s.keepPtrs sl asid page w).mem = s.mem := by
  simp [State.keepPtrs]

/-! #### Accessed and dirty bits, frames (R360, R361, R365) -/

@[simp] theorem State.useFrame_wf (p e lvl page) (hs : Memory.wf s.mem) :
    Memory.wf (s.useFrame p e lvl page).1.mem := by
  simp only [State.useFrame]
  split <;> simp [hs]

@[simp] theorem quiet_wf (p) (hs : Memory.wf s.mem) (hp : Memory.wf p.1.mem) : Memory.wf (quiet (s, p)).1.mem := by
  obtain ⟨u, _ | _⟩ := p <;> simp_all [quiet]

@[simp] theorem State.walkAt_wf (p page store lvl a) (hs : Memory.wf s.mem) :
    Memory.wf (s.walkAt p page store lvl a).1.mem := by
  simp only [State.walkAt]
  split
  · simp [hs]
  · simp [hs, wf_writeMemBytes]

@[simp] theorem State.walk_wf (p page store) (hs : Memory.wf s.mem) : Memory.wf (s.walk p page store).1.mem := by
  simp [State.walk, hs]

@[simp] theorem State.translate_wf (p page store) (hs : Memory.wf s.mem) :
    Memory.wf (s.translate p page store).1.mem := by
  simp only [State.translate]
  split <;> simp [hs, wf_writeMemBytes]

/-! #### Lines, chunks and pages (R58) -/

@[simp] theorem State.modHLine_mem (x h f) : (s.modHLine x h f).mem = s.mem := by simp [State.modHLine]

/-! #### Write-back, view store, eviction -/

@[simp] theorem State.writeBack_wf (h) (hs : Memory.wf s.mem) : Memory.wf (s.writeBack h).mem :=
  State.safe_writeBack hs h

@[simp] theorem State.keepExpiry_mem (x h) : (s.keepExpiry x h).mem = s.mem := by simp [State.keepExpiry]

@[simp] theorem State.evictBase_wf (x h) (hs : Memory.wf s.mem) : Memory.wf (s.evictBase x h).mem := by
  simp [State.evictBase, hs]

/-! #### The areas of a grid in memory (R24, R25, R176) -/

@[simp] theorem State.areaFlush_wf (x a n) (hs : Memory.wf s.mem) : Memory.wf (s.areaFlush x a n).mem := by
  refine foldl_wf _ _ (fun t e ht => ?_) _ hs
  exact foldl_wf _ _ (fun u h hu => by simp [hu]) _ ht

@[simp] theorem State.areaPut_wf (x a bs) (hs : Memory.wf s.mem) : Memory.wf (s.areaPut x a bs).mem := by
  refine foldl_wf _ _ (fun t e ht => ?_) _ (by simp [hs])
  have := State.translate_wf t (t.whoArea x) e.1 true ht
  split <;> simp_all [wf_writeMemBytes]

@[simp] theorem State.putRecord_wf (x a n) (hs : Memory.wf s.mem) : Memory.wf (s.putRecord x a n).mem := by
  simp [State.putRecord, hs]

@[simp] theorem State.putEntry_wf (v k bytes) (hs : Memory.wf s.mem) : Memory.wf (s.putEntry v k bytes).mem := by
  unfold State.putEntry
  split <;> simp [hs]

@[simp] theorem State.freeEntry_wf (v k key) (hs : Memory.wf s.mem) : Memory.wf (s.freeEntry v k key).mem := by
  simp only [State.freeEntry]
  (repeat' split) <;> simp [hs]

@[simp] theorem State.putLineEntry_wf (h) (hs : Memory.wf s.mem) : Memory.wf (s.putLineEntry h).mem := by
  simp [State.putLineEntry, hs]

@[simp] theorem State.freeLineEntry_wf (h) (hs : Memory.wf s.mem) : Memory.wf (s.freeLineEntry h).mem := by
  simp [State.freeLineEntry, hs]

@[simp] theorem State.putOutEntry_wf (v j) (hs : Memory.wf s.mem) : Memory.wf (s.putOutEntry v j).mem := by
  simp [State.putOutEntry, hs]

@[simp] theorem State.freeOutEntries_wf (v vw) (hs : Memory.wf s.mem) : Memory.wf (s.freeOutEntries v vw).mem :=
  foldl_wf _ _ (fun _ _ ht => by simp [ht]) _ hs

@[simp] theorem State.freeLineEntries_wf (v) (hs : Memory.wf s.mem) : Memory.wf (s.freeLineEntries v).mem :=
  foldl_wf _ _ (fun _ _ ht => by simp [ht]) _ hs

@[simp] theorem State.exhaust_mem (v) : (s.exhaust v).mem = s.mem := by simp [State.exhaust]

@[simp] theorem State.spill_wf (x h) (hs : Memory.wf s.mem) : Memory.wf (s.spill x h).mem := by
  simp [State.spill, hs]

@[simp] theorem State.evictHome_wf (x h) (hs : Memory.wf s.mem) : Memory.wf (s.evictHome x h).mem := by
  simp [State.evictHome, hs]

theorem State.homeRoom_wf (x set ctx) (hs : Memory.wf s.mem) {u : State × Nat} (h : s.homeRoom x set ctx = some u) :
    Memory.wf u.1.mem := by
  simp only [State.homeRoom] at h
  split at h
  · cases h; exact hs
  · split at h
    · cases h
    · obtain ⟨_, _, rfl⟩ := Option.map_eq_some_iff.mp h
      simp [hs]

/-! #### Bringing a line in -/

theorem State.bringIn_wf (p line page hint t) (hs : Memory.wf s.mem) (u) (h : s.bringIn p line page hint t = some u) :
    Memory.wf u.mem := by
  unfold State.bringIn at h
  dsimp only at h
  split at h
  · split at h <;> cases h <;> simpa using hs
  · obtain ⟨⟨v, way⟩, hv, rfl⟩ := Option.map_eq_some_iff.mp h
    simpa using State.homeRoom_wf s _ _ _ hs hv

@[simp] theorem State.home_wf (p line page store hint) (hs : Memory.wf s.mem) :
    Memory.wf (s.home p line page store hint).1.mem := by
  have ht := State.translate_wf s p page store hs
  unfold State.home
  (repeat' split) <;> simp_all
  rename_i h
  exact State.bringIn_wf _ _ _ _ _ _ ht _ h

/-! #### Waits and held futures (R80, R81, R276) -/

@[simp] theorem State.spoilFills_mem (cores cluster line asid view f) :
    (s.spoilFills cores cluster line asid view f).mem = s.mem := by
  simp [State.spoilFills]

@[simp] theorem State.dropCopies_mem (cores cluster line asid view) :
    (s.dropCopies cores cluster line asid view).mem = s.mem :=
  foldl_mem _ _ (fun _ _ => by simp) _

@[simp] theorem State.tryAnswer_mem (x r) : (s.tryAnswer x r).mem = s.mem := by
  unfold State.tryAnswer
  (repeat' split) <;> simp

@[simp] theorem State.afterWrite_mem (x line) : (s.afterWrite x line).mem = s.mem := by
  simp [State.afterWrite]

/-! #### Writes (R163, R93) -/

@[simp] theorem State.unspill_wf (x h) (hs : Memory.wf s.mem) : Memory.wf (s.unspill x h).mem := by
  unfold State.unspill
  split
  · split
    · rename_i u way e
      simp [State.homeRoom_wf s _ _ _ hs e]
    · exact hs
  · exact hs

@[simp] theorem State.ownCopy_wf (p line page) (hs : Memory.wf s.mem) : Memory.wf (s.ownCopy p line page).1.mem := by
  simp only [State.ownCopy]
  split
  · exact hs
  · split
    · simp [hs]
    · split
      · simp [hs]
      · split
        · exact hs
        · rename_i e
          simp [State.homeRoom_wf s _ _ _ hs e]

@[simp] theorem State.install_wf (p line page i n v) (hs : Memory.wf s.mem) :
    Memory.wf (s.install p line page i n v).1.mem := by
  have ho := State.ownCopy_wf s p line page hs
  unfold State.install
  split <;> rename_i e <;> rw [e] at ho <;> simp [ho]

@[simp] theorem State.recalled_mem (p line page tdv) : (s.recalled p line page tdv).1.mem = s.mem := by
  unfold State.recalled
  split <;> simp

@[simp] theorem State.noteTsy_mem (p line page tsy) : (s.noteTsy p line page tsy).mem = s.mem := by
  unfold State.noteTsy
  split <;> simp

/-! #### Pins (R102 to R104) -/

@[simp] theorem State.takePin_wf (p line page scope) (hs : Memory.wf s.mem) :
    Memory.wf (s.takePin p line page scope).1.mem := by
  simp only [State.takePin]
  (repeat' split) <;> simp_all [eq_pair_iff]

@[simp] theorem State.unpin_mem (x h cluster) : (s.unpin x h cluster).1.mem = s.mem := by simp [State.unpin]

@[simp] theorem State.unpinAll_mem (f cluster ws) : (s.unpinAll f cluster ws).mem = s.mem := by
  simp -implicitDefEqProofs [State.unpinAll]

@[simp] theorem State.widen_mem (k scope ws) : (s.widen k scope ws).mem = s.mem := by
  unfold State.widen
  split <;> simp -implicitDefEqProofs

/-! #### Cluster memory (R64 to R68) -/

@[simp] theorem State.modBank_mem (cl b f) : (s.modBank cl b f).mem = s.mem := by simp [State.modBank]

/-! #### Requests -/

@[simp] theorem State.dropReq_mem (r) : (s.dropReq r).mem = s.mem := by simp [State.dropReq]
@[simp] theorem State.awaitFence_mem (r q) : (s.awaitFence r q).mem = s.mem := by simp [State.awaitFence]

@[simp] theorem State.raiseRelease_mem (r q) : (s.raiseRelease r q).mem = s.mem := by
  unfold State.raiseRelease
  split <;> simp

@[simp] theorem State.addReqs_mem (qs) : (s.addReqs qs).mem = s.mem := by simp [State.addReqs]
@[simp] theorem State.pushEvent_mem (ev) : (s.pushEvent ev).mem = s.mem := by simp [State.pushEvent]

/-- Errors that are logged leave memory alone. The new state is named by an equation, so that the kernel need not
evaluate the 32-bit counters of `State.logError` to see it. -/
theorem foldl_logError_mem {α : Type} (l : List α) (f : State → α → State)
    (hf : ∀ t e, ∃ x a r g, f t e = t.logError x a r g) (s : State) :
    (l.foldl f s).mem = s.mem := by
  refine foldl_mem _ _ (fun t e => ?_) _
  obtain ⟨x, a, r, g, h⟩ := hf t e
  rw [h, State.logError_mem]

@[simp] theorem State.splitErrors_mem (r bad) : (s.splitErrors r bad).mem = s.mem := by
  simp only [State.splitErrors]
  split
  · rfl
  · split
    · rfl
    · rename_i q _
      have hf := foldl_logError_mem bad
        (fun t e => t.logError q.ctx e.2.addr e.1 (0x4000 + t.homeOf q.ctx q.page)) (fun _ _ => ⟨_, _, _, _, rfl⟩) s
      split <;> simp [hf]

@[simp] theorem State.failReq_mem (r q reason engine) : (s.failReq r q reason engine).mem = s.mem :=
  (State.modReq_mem _ _ _).trans (State.logError_mem _ _ _ _ _)

@[simp] theorem State.raiseFault_mem (f) : (s.raiseFault f).mem = s.mem := by simp [State.raiseFault]

@[simp] theorem State.faultReq_mem (r q reason) : (s.faultReq r q reason).mem = s.mem := by
  simp [State.faultReq]

/-! #### Copies in the L1 and the cluster cache (R55, R60, R65, R71, R92) -/

theorem State.fillL1_mem (k d) {u : State} (h : s.fillL1 k d = some u) : u.mem = s.mem := by
  simp only [State.fillL1] at h
  split at h
  · cases h; rfl
  · obtain ⟨_, _, rfl⟩ := Option.map_eq_some_iff.mp h
    rfl

theorem State.fillCc_mem (cl d) {u : State} (h : s.fillCc cl d = some u) : u.mem = s.mem := by
  simp only [State.fillCc] at h
  split at h
  · cases h; rfl
  · obtain ⟨_, _, rfl⟩ := Option.map_eq_some_iff.mp h
    rfl

/-! #### Arrival at the home slice: loads (R55, R59, R92, R96, R162) -/

@[simp] theorem State.grant_mem (p line page e) : (s.grant p line page e).mem = s.mem := by
  unfold State.grant
  split <;> simp

@[simp] theorem State.supply_wf (p q mtype) (hs : Memory.wf s.mem) : Memory.wf (s.supply p q mtype).1.mem := by
  unfold State.supply
  split
  · exact hs
  · dsimp -zeta only
    extract_lets
    rename_i h t pinned expCc expL1 leaf f granted u other page2 y
    have hu : Memory.wf u.mem := by simp [u, hs]
    have hh := State.home_wf u { p with demand := false } q.line page2 false q.hint hu
    split
    · exact hu
    · split
      · (repeat' split) <;> simp_all
      · exact hu

@[simp] theorem State.ccFill_mem (q d) : (s.ccFill q d).1.mem = s.mem := by simp [State.ccFill]

@[simp] theorem State.targetWrite_wf (pa n v) (hs : Memory.wf s.mem) : Memory.wf (s.targetWrite pa n v).mem := by
  unfold State.targetWrite
  (repeat' split) <;> simp [hs, wf_writeMemBytes]

@[simp] theorem State.loaded_mem (r accs bad fill tldv tlsy) : (s.loaded r accs bad fill tldv tlsy).mem = s.mem := by
  simp [State.loaded]

@[simp] theorem State.arriveLoad_wf (r q) (hs : Memory.wf s.mem) : Memory.wf (s.arriveLoad r q).mem := by
  simp only [State.arriveLoad]
  (repeat' split) <;> simp_all [eq_pair_iff]

/-! #### Arrival: writes and futures (R80, R93, R102, R267 to R275) -/

/-- Where a request writes: a write there keeps the canonical form. -/
def Cell.KeepsWf (c : Cell) : Prop := ∀ s a n v, Memory.wf s.mem → Memory.wf (c.wr s a n v).1.mem

theorem performAcc_wf {s : State} {q : Req} {c : Cell} {a : Acc} {r} (hc : c.KeepsWf) (hs : Memory.wf s.mem)
    (h : performAcc s q c a = some r) :
    Memory.wf r.1.mem := by
  have hw := fun a n v => hc s a n v hs
  revert h
  fun_cases performAcc <;>
    simp only [Option.map_eq_some_iff, Option.some.injEq, reduceCtorEq, false_implies, forall_exists_index,
      and_imp] <;>
    intros <;> subst_vars <;> simp_all

@[simp] theorem performAccs_wf (q : Req) (c : Cell) (hc : c.KeepsWf) (l : List Acc) (s : State) (hs : Memory.wf s.mem)
    :
    Memory.wf (performAccs q c s l).1.mem := by
  induction l generalizing s with
  | nil => exact hs
  | cons a rest ih =>
    unfold performAccs
    split
    · exact ih s hs
    · rename_i e
      exact ih _ (performAcc_wf hc hs e)

@[simp] theorem State.performed_mem (r ok bad tcl tdv tsy wait) :
    (s.performed r ok bad tcl tdv tsy wait).mem = s.mem := by
  simp [State.performed]

@[simp] theorem State.queueOut_wf (v op) (hs : Memory.wf s.mem) : Memory.wf (s.queueOut v op).mem := by
  unfold State.queueOut
  split <;> simp [hs]

@[simp] theorem State.escapeReq_wf (r q) (hs : Memory.wf s.mem) : Memory.wf (s.escapeReq r q).mem := by
  simp [State.escapeReq, hs]

@[simp] theorem State.yieldLine_wf (p line page) (hs : Memory.wf s.mem) :
    Memory.wf (s.yieldLine p line page).mem := by
  unfold State.yieldLine
  split <;> simp [hs]

@[simp] theorem homeCell_keepsWf (p : Who) (line page : ℕ) : (homeCell p line page).KeepsWf := by
  intro s a n v hs
  simp [homeCell, hs]

@[simp] theorem targetCell_keepsWf (f t : ℕ) : (targetCell f t).KeepsWf := by
  intro s a n v hs
  simp [targetCell, hs]

@[simp] theorem State.arriveWrite_wf (r q) (hs : Memory.wf s.mem) : Memory.wf (s.arriveWrite r q).mem := by
  have hh := State.home_wf s q.who q.line q.page true q.hint hs
  unfold State.arriveWrite
  extract_lets p eng
  split
  · simp [hs]
  · split <;> rename_i e <;> rw [e] at hh
    case h_6 u f =>
      have hp := performAccs_wf q _ (targetCell_keepsWf f (u.sliceTime p q.page)) q.accs u hh
      dsimp only
      split <;> simp [hh, hp]
    case h_7 u mt =>
      split
      · simp [hh]
      · have hown := State.ownCopy_wf u p q.line q.page hh
        dsimp only
        split
        · exact hown
        · split
          · rw [State.performed_mem]
            exact performAccs_wf _ _ (targetCell_keepsWf _ _) _ _ (by simp [hown])
          · have hw := fun t (ht : Memory.wf t.mem) => performAccs_wf q _ (homeCell_keepsWf p q.line q.page) q.accs t ht
            cases q.kind <;> simp [hown, hw]
    all_goals simp [hh]

@[simp] theorem State.answered_mem (r td ts f) : (s.answered r td ts f).mem = s.mem := by
  simp [State.answered]

@[simp] theorem State.arriveFld_wf (r q) (hs : Memory.wf s.mem) : Memory.wf (s.arriveFld r q).mem := by
  simp only [State.arriveFld]
  (repeat' split) <;> simp_all [eq_pair_iff]

@[simp] theorem State.arriveWait_wf (r q c t first) (hs : Memory.wf s.mem) :
    Memory.wf (s.arriveWait r q c t first).mem := by
  simp only [State.arriveWait]
  (repeat' split) <;> simp_all [eq_pair_iff]

/-! #### Physical accesses -/

@[simp] theorem State.physPut_wf (a b) (hs : Memory.wf s.mem) : Memory.wf (s.physPut a b).mem :=
  State.safe_physPut hs a b

@[simp] theorem State.physWrite_wf (a bs) (hs : Memory.wf s.mem) : Memory.wf (s.physWrite a bs).mem :=
  State.safe_physWrite bs s hs a

/-! #### Event rings (Table 18.5, R346 to R349) -/

@[simp] theorem State.raiseMsix_mem (r) : (s.raiseMsix r).mem = s.mem := by simp [State.raiseMsix]

@[simp] theorem State.countRecord_mem (r kind) : (s.countRecord r kind).mem = s.mem := by
  simp [State.countRecord]

@[simp] theorem State.writeRecord_wf (r x) (hs : Memory.wf s.mem) : Memory.wf (s.writeRecord r x).mem := by
  simp [State.writeRecord, hs]

@[simp] theorem State.post_wf (r x) (hs : Memory.wf s.mem) : Memory.wf (s.post r x).mem := by
  simp [State.post, hs]

@[simp] theorem State.releaseHeld_wf (r n : ℕ) (s : State) (hs : Memory.wf s.mem) :
    Memory.wf (State.releaseHeld s r n).mem := by
  induction n generalizing s with
  | zero => exact hs
  | succ n ih =>
    unfold State.releaseHeld
    (repeat' split) <;> simp [ih, hs]

/-! #### Final records of packets (R336, R346, R354) -/

@[simp] theorem State.finish_wf (q n h x) (hs : Memory.wf s.mem) : Memory.wf (s.finish q n h x).mem := by
  simp [State.finish, hs]

@[simp] theorem State.modCmd_mem (q n f) : (s.modCmd q n f).mem = s.mem := by simp [State.modCmd]

/-! #### The instruction as a whole -/

@[simp] theorem State.acquire_mem (w lanes) : (s.acquire w lanes).mem = s.mem := by simp [State.acquire]

@[simp] theorem State.lanesDone_mem (w group k lanes) : (s.lanesDone w group k lanes).mem = s.mem := by
  simp [State.lanesDone]

/-! #### Delivering values (R82, R86, R266, R272, R276) -/

@[simp] theorem State.writeDst_mem (w l d bits x) : (s.writeDst w l d bits x).mem = s.mem := by
  simp [State.writeDst]

@[simp] theorem State.noteSpec_mem (w q expiry) : (s.noteSpec w q expiry).mem = s.mem := by
  simp [State.noteSpec]

@[simp] theorem State.deliver_mem (w q a) : (s.deliver w q a).mem = s.mem := by
  unfold State.deliver
  split <;> simp

/-! #### Leaving the core (R61, R62, R96) -/

@[simp] theorem State.sendReq_mem (r slot) : (s.sendReq r slot).mem = s.mem := by simp [State.sendReq]
@[simp] theorem State.touchL1_mem (k d) : (s.touchL1 k d).mem = s.mem := by simp [State.touchL1]
@[simp] theorem State.hitL1_mem (r q d) : (s.hitL1 r q d).mem = s.mem := by simp [State.hitL1]

@[simp] theorem State.markStale_mem (k line asid view) : (s.markStale k line asid view).mem = s.mem := by
  simp [State.markStale]

@[simp] theorem State.touchLine_mem (q) : (s.touchLine q).mem = s.mem := by simp [State.touchLine]
@[simp] theorem State.sendWrite_mem (r q) : (s.sendWrite r q).mem = s.mem := by simp [State.sendWrite]

@[simp] theorem execRequestSend_wf (r) (hs : Memory.wf s.mem) : Out.MemWf (execRequestSend r s) := by
  unfold execRequestSend
  (repeat' split) <;> simp [hs]

/-! #### Cluster memory (R66 to R68) -/

@[simp] theorem State.bankWaits_mem (cl b) : (s.bankWaits cl b).mem = s.mem := by
  refine foldl_mem _ _ (fun t e => ?_) _
  (repeat' split) <;> simp

@[simp] theorem bankCell_keepsWf (cl b t off) : (bankCell cl b t off).KeepsWf := by
  intro s a n v hs
  simp [bankCell, hs]

@[simp] theorem State.arriveBank_wf (r q) (hs : Memory.wf s.mem) : Memory.wf (s.arriveBank r q).mem := by
  simp only [State.arriveBank]
  split
  · simp [hs]
  · split
    · simp [hs]
    · split
      · simp [hs]
      · simp [hs]
      · split <;> simp [hs]

@[simp] theorem execFifoServe_wf (cluster bank) (hs : Memory.wf s.mem) :
    Out.MemWf (execFifoServe cluster bank s) := by
  simp only [execFifoServe]
  (repeat' split) <;> simp [hs]

/-! #### Arrival (R93, R96) -/

@[simp] theorem execHomeSliceRequest_wf (r) (hs : Memory.wf s.mem) : Out.MemWf (execHomeSliceRequest r s) := by
  unfold execHomeSliceRequest
  (repeat' split) <;> simp [hs]

@[simp] theorem execAccessRetry_wf (r) (hs : Memory.wf s.mem) : Out.MemWf (execAccessRetry r s) := by
  unfold execAccessRetry
  split <;> simp [hs]

@[simp] theorem execWaitonPoll_wf (r) (hs : Memory.wf s.mem) : Out.MemWf (execWaitonPoll r s) := by
  unfold execWaitonPoll
  (repeat' split) <;> simp [hs]

/-! #### Responses (R31 to R33, R61, R88, R94) -/

@[simp] theorem State.toReplay_mem (r q w reason) : (s.toReplay r q w reason).mem = s.mem := by
  unfold State.toReplay
  (repeat' split) <;> simp

@[simp] theorem State.endReq_mem (r fill) : (s.endReq r fill).mem = s.mem := by
  refine foldl_mem _ _ (fun t e => ?_) _
  split <;> simp

@[simp] theorem State.endGone_mem (r) : (s.endGone r).mem = s.mem := by simp [State.endGone]

@[simp] theorem State.gatherRelease_mem (n ga ls) : (s.gatherRelease n ga ls).mem = s.mem := by
  unfold State.gatherRelease
  split <;> simp

@[simp] theorem State.gatherFinal_mem (n) : (s.gatherFinal n).mem = s.mem := by
  unfold State.gatherFinal
  split <;> simp

@[simp] theorem State.complete_mem (r q w) : (s.complete r q w).mem = s.mem := by
  unfold State.complete
  split <;> simp

theorem State.keepFill_mem (q u) (h : s.keepFill q = some u) : u.mem = s.mem := by
  unfold State.keepFill at h
  split at h
  · simp_all
  · obtain ⟨v, hv, hu⟩ := Option.bind_eq_some_iff.mp h
    have hv : v.mem = s.mem := by
      split at hv
      · exact State.fillCc_mem _ _ _ hv
      · cases hv; rfl
    split at hu
    · rw [State.fillL1_mem _ _ _ hu, ← hv]; simp
    · cases hu; exact hv

@[simp] theorem execFillArrive_wf (r : Nat) (s : State) (hs : Memory.wf s.mem) : (execFillArrive r s).MemWf := by
  have hk : ∀ q (f : State → State), (∀ u, (f u).mem = u.mem) →
      Memory.wf (((s.keepFill q).map f).getD s).mem := by
    intro q f hf
    refine getD_wf _ _ (fun u h => ?_) hs
    obtain ⟨v, hv, rfl⟩ := Option.map_eq_some_iff.mp h
    rwa [hf, State.keepFill_mem _ _ _ hv]
  refine (Out.memWf_next _).mpr ?_
  split
  · exact hs
  · split
    · exact hs
    · split
      · split
        · exact hk _ _ (fun u => by simp)
        · exact hs
      · split
        · exact hk _ _ (fun u => by simp)
        · exact hs
      all_goals simp [hs]

@[simp] theorem execWriteAck_wf (r) (hs : Memory.wf s.mem) : Out.MemWf (execWriteAck r s) := by
  unfold execWriteAck
  (repeat' split) <;> simp [hs]

@[simp] theorem execHostPeerWriteAck_wf (r) (hs : Memory.wf s.mem) : Out.MemWf (execHostPeerWriteAck r s) := by
  unfold execHostPeerWriteAck
  (repeat' split) <;> simp [hs]

@[simp] theorem State.startFenced_mem (n) : (s.startFenced n).mem = s.mem := by simp [State.startFenced]

@[simp] theorem State.rollback_mem (f) : (s.rollback f).mem = s.mem := by
  simp only [State.rollback]
  split <;> simp -implicitDefEqProofs

@[simp] theorem State.undoFence_mem (n) : (s.undoFence n).mem = s.mem := by
  unfold State.undoFence
  split <;> simp

@[simp] theorem execReplayComplete_wf (w i) (hs : Memory.wf s.mem) : Out.MemWf (execReplayComplete w i s) := by
  unfold execReplayComplete
  split <;> simp [hs]

/-! #### Instruction fetch -/

@[simp] theorem State.prefetchLine_mem (k ctx asid view block addr) :
    (s.prefetchLine k ctx asid view block addr).mem = s.mem := by
  simp [State.prefetchLine]

@[simp] theorem execIfetchRequest_wf (k line) (hs : Memory.wf s.mem) : Out.MemWf (execIfetchRequest k line s) := by
  unfold execIfetchRequest
  split <;> simp [hs]

@[simp] theorem State.fillL1i_mem (q f) : (s.fillL1i q f).mem = s.mem := by simp [State.fillL1i]

@[simp] theorem State.touchL1i_mem (k asid view pc) : (s.touchL1i k asid view pc).mem = s.mem := by
  simp [State.touchL1i]

@[simp] theorem State.fetchError_mem (q reason) : (s.fetchError q reason).mem = s.mem := by
  refine foldl_mem _ _ (fun t e => ?_) _
  split <;> simp

@[simp] theorem execIfetchFill_wf (r : ℕ) (s : State) (hs : Memory.wf s.mem) : (execIfetchFill r s).MemWf := by
  refine (Out.memWf_next _).mpr ?_
  split
  · exact hs
  · rename_i q _
    split
    · exact hs
    · extract_lets done
      have hdone : ∀ (u : State) f, Memory.wf u.mem → Memory.wf (done u f).mem := by
        intro u f hu
        have hc : Memory.wf (((u.fillCc (clusterOf q.core) (q.copy f f.expCc u.tick)).getD u)).mem :=
          getD_wf _ _ (fun v h => by rwa [State.fillCc_mem _ _ _ h]) hu
        simp [done, hu, hc]
      have hh := State.home_wf s q.who q.line q.page false q.hint hs
      split
      · exact hdone _ _ hs
      · split
        · exact hs
        · split <;> rename_i e <;> rw [e] at hh
          case h_7 u mt =>
            have hf := State.supply_wf u q.who q mt hh
            split
            · split <;> simp [hh]
            · split <;> rename_i e <;> rw [e] at hf <;> simp [hdone, hf]
          all_goals simp [hdone, hh]

@[simp] theorem execFetchFault_wf (r : ℕ) (s : State) (hs : Memory.wf s.mem) : (execFetchFault r s).MemWf := by
  refine (Out.memWf_next _).mpr ?_
  split
  · exact hs
  · split
    · rw [State.dropReq_mem, foldl_mem]
      · exact hs
      · intro t v
        split <;> simp
    · exact hs

@[simp] theorem State.dropCode_wf (k asid b len) (hs : Memory.wf s.mem) :
    Memory.wf (s.dropCode k asid b len).mem := by
  simp [State.dropCode, hs]

@[simp] theorem execIcinv_wf (h b len) (hs : Memory.wf s.mem) : Out.MemWf (execIcinv h b len s) :=
  Out.memWf_onGroup hs fun g G t ht => by
    rw [State.stepLanes_mem]
    exact foldl_wf _ _ (fun u l hu => by simp [hu]) _ ht

/-! #### Requests of a group -/

@[simp] theorem State.startLoads_mem (g i group qs) : (s.startLoads g i group qs).mem = s.mem := by
  simp [State.startLoads]

@[simp] theorem State.startWrites_mem (g i group fence qs) : (s.startWrites g i group fence qs).mem = s.mem := by
  simp [State.startWrites]

/-! #### Releases (R97, R99, R106) -/

@[simp] theorem State.beginFence_mem (g G kind scope after spec saved) :
    (s.beginFence g G kind scope after spec saved).1.mem = s.mem := by
  simp [State.beginFence]

@[simp] theorem State.beginRelease_mem (g G scope) : (s.beginRelease g G scope).1.mem = s.mem := by
  simp [State.beginRelease]

@[simp] theorem State.holdRelease_mem (g G kind scope after) : (s.holdRelease g G kind scope after).mem = s.mem := by
  simp [State.holdRelease]

@[simp] theorem State.releaseFor_mem (g G kind scope) : (s.releaseFor g G kind scope).1.mem = s.mem := by
  unfold State.releaseFor
  split <;> simp

@[simp] theorem State.acquireFor_mem (g G kind group) : (s.acquireFor g G kind group).mem = s.mem := by
  unfold State.acquireFor
  split <;> simp

/-! #### The instruction at issue -/

@[simp] theorem State.trapEach_mem (w ts) : (s.trapEach w ts).mem = s.mem := by simp [State.trapEach]

@[simp] theorem State.queueLanes_wf (g p i data ls) (hs : Memory.wf s.mem) :
    Memory.wf (s.queueLanes g p i data ls).mem := by
  unfold State.queueLanes
  split <;> simp -implicitDefEqProofs +contextual [hs]

/-! #### Inside a transaction (R82, R83) -/

@[simp] theorem State.txLoads_mem (g : Grp) (i : MemI) (ls : List (ℕ × ℕ)) (s : State) :
    (State.txLoads s g i ls).1.mem = s.mem := by
  induction ls generalizing s with
  | nil => rfl
  | cons e ls ih =>
    unfold State.txLoads
    split <;> simp [ih]

@[simp] theorem State.uniLoad_mem (g p i group ls) : (s.uniLoad g p i group ls).1.mem = s.mem := by
  rcases ls with _ | ⟨e, ls⟩
  · rfl
  · unfold State.uniLoad
    dsimp only
    split <;> simp

@[simp] theorem State.txStore_wf (g p bytes la v) (hs : Memory.wf s.mem) :
    Memory.wf (s.txStore g p bytes la v).mem := by
  unfold State.txStore
  split <;> simp [hs]

/-! #### Loads (R266) -/

@[simp] theorem State.portWait_mem (w ls group) : (s.portWait w ls group).mem = s.mem := by
  simp [State.portWait]

@[simp] theorem State.loadLanes_mem (g p i ls) : (s.loadLanes g p i ls).mem = s.mem := by
  unfold State.loadLanes
  split <;> simp

/-! #### Stores (R267) -/

@[simp] theorem State.storeLanes_mem (g p i kind data ls) : (s.storeLanes g p i kind data ls).mem = s.mem := by
  simp [State.storeLanes]

@[simp] theorem execSt_wf (h t kind scope m d) (hs : Memory.wf s.mem) : Out.MemWf (execSt h t kind scope m d s) := by
  refine Out.memWf_onGroup hs (fun g G u hu => ?_)
  extract_lets p i data f
  have hf : ∀ G v, Memory.wf v.mem → Memory.wf (f G v).mem := by
    intro G v hv
    simp only [f, State.storeLanes_mem]
    exact State.queueLanes_wf _ _ _ _ _ _ (foldl_wf _ _ (fun w e hw => by simp [hw]) _ (by simp [hv]))
  split
  · exact hf G u hu
  · exact outsideTx_wf _ _ _ _ hf hu

/-! #### Atomics and reductions (R268 to R271) -/

@[simp] theorem State.atomLanes_wf (g p m i kind data G) (hs : Memory.wf s.mem) :
    Memory.wf (s.atomLanes g p m i kind data G).mem := by
  simp [State.atomLanes, hs]

@[simp] theorem execAtom_wf (h op t kind scope a m d) (hs : Memory.wf s.mem) :
    Out.MemWf (execAtom h op t kind scope a m d s) :=
  Out.memWf_onGroupTx hs fun _ _ _ ht => by simp [ht]

@[simp] theorem execRed_wf (h op t kind scope m d) (hs : Memory.wf s.mem) :
    Out.MemWf (execRed h op t kind scope m d s) :=
  Out.memWf_onGroupTx hs fun _ _ _ ht => by simp [ht]

/-! #### Gather (R78, R281, R325) -/

@[simp] theorem execGatherSubgroupRelease_wf (g) (hs : Memory.wf s.mem) :
    Out.MemWf (execGatherSubgroupRelease g s) := by
  unfold execGatherSubgroupRelease
  split <;> simp [hs]

@[simp] theorem execGath_wf (h : Hdr) (t : Ty) (a : BitVec 8) (m : MAddr) (n : BitVec 3) (s : State)
    (hs : Memory.wf s.mem) :
    (execGath h t a m n s).MemWf := by
  refine Out.memWf_onGroupTx hs (fun g G t ht => ?_)
  dsimp only
  split
  · exact ht
  · split <;> simp [ht]

/-! #### Futures and waits on a word (R79 to R81, R272 to R277) -/

@[simp] theorem State.waitLanes_wf (g m i data G) (hs : Memory.wf s.mem) :
    Memory.wf (s.waitLanes g m i data G).mem := by
  simp [State.waitLanes, hs]

@[simp] theorem execFld_wf (h a pd m) (hs : Memory.wf s.mem) : Out.MemWf (execFld h a pd m s) :=
  Out.memWf_onGroupTx hs fun _ _ _ ht => by simp [ht]

@[simp] theorem execWaiton_wf (h cond t a m d) (hs : Memory.wf s.mem) : Out.MemWf (execWaiton h cond t a m d s) :=
  Out.memWf_onGroupTx hs fun _ _ _ ht => by simp [ht]

@[simp] theorem execFset_wf (h pd m d) (hs : Memory.wf s.mem) : Out.MemWf (execFset h pd m d s) :=
  Out.memWf_onGroupTx hs fun _ _ _ ht => by simp [ht]

@[simp] theorem execFclr_wf (h m) (hs : Memory.wf s.mem) : Out.MemWf (execFclr h m s) :=
  Out.memWf_onGroupTx hs fun _ _ _ ht => by simp [ht]

/-! #### The commit (R84, R109) -/

@[simp] theorem State.unpinPieces_mem (w k asid ps) : (s.unpinPieces w k asid ps).mem = s.mem := by
  simp [State.unpinPieces]

@[simp] theorem State.abortPiece_mem (c cm k cause) : (s.abortPiece c cm k cause).mem = s.mem := by
  simp [State.abortPiece]

theorem lockPieces_wf (c : Nat) (cm : Commit) (p : Who) (core : Nat) (block : Nat) (l : NatMap Bool) (s : State)
    (hs : Memory.wf s.mem) :
    Memory.wf (lockPieces c cm p core block s l).1.mem := by
  induction l generalizing s with
  | nil => exact hs
  | cons k rest ih =>
    obtain ⟨k, w⟩ := k
    have hh := State.home_wf s p (pieceLine k) (piecePage k) w 0 hs
    unfold lockPieces
    split
    · exact ih s hs
    · dsimp only
      split <;> rename_i e <;> rw [e] at hh
      case h_7 u mt =>
        have ho := State.ownCopy_wf u p (pieceLine k) (piecePage k) hh
        split
        · exact ih _ (by simpa using hh)
        · split <;> simp [ho, hh, ih]
      all_goals simp [ih, hh]

@[simp] theorem State.commitWord_wf (p core a v m) (hs : Memory.wf s.mem) :
    Memory.wf (s.commitWord p core a v m).1.mem := by
  refine foldl_fst_safe _ _ (fun r i hr => ?_) _ (by simpa [State.Safe] using hs)
  unfold State.Safe at *
  split <;> simp [hr]

@[simp] theorem State.commitLanes_wf (p c cm core ts) (hs : Memory.wf s.mem) :
    Memory.wf (s.commitLanes p c cm core ts).mem := by
  simp only [State.commitLanes, State.modLanes_mem, State.modWarp_mem]
  refine foldl_fst_safe _ _ (fun r e hr => foldl_fst_safe _ _ (fun r w hr => ?_) _ hr) _ hs
  unfold State.Safe at *
  simp [hr]

@[simp] theorem execTxCommit_wf (c : ℕ) (s : State) (hs : Memory.wf s.mem) : (execTxCommit c s).MemWf := by
  refine (Out.memWf_next _).mpr ?_
  split
  · exact hs
  · rename_i cm _
    split
    · exact hs
    · rename_i wp _
      split
      · exact hs
      · extract_lets t p ps u
        have hl := lockPieces_wf c cm p wp.core wp.block ps u (by simp [u, t, hs])
        split <;> rename_i e <;> rw [e] at hl
        · split <;> simp [hl]
        · exact hl
        · refine State.commitLanes_wf _ _ _ _ _ _ (foldl_wf _ _ (fun t e ht => ?_) _ hl)
          dsimp only
          split <;> simp [ht]

@[simp] theorem execTxUnlock_wf (c) (hs : Memory.wf s.mem) : Out.MemWf (execTxUnlock c s) := by
  unfold execTxUnlock
  split <;> simp [hs]

/-! #### Fences and the progress of releases (R97 to R101, R104, R280) -/

@[simp] theorem State.widenDue_mem (wp scope ws) : (s.widenDue wp scope ws).1.mem = s.mem := by
  simp [State.widenDue]

@[simp] theorem State.fenceAdvance_mem (n f wp) : (s.fenceAdvance n f wp).1.mem = s.mem := by
  simp only [State.fenceAdvance]
  (repeat' split) <;> simp_all [eq_pair_iff]

@[simp] theorem State.arriveNbar_mem (w ls nb rank) : (s.arriveNbar w ls nb rank).mem = s.mem := by
  unfold State.arriveNbar
  split <;> simp

@[simp] theorem State.arriveBar_mem (w ls) : (s.arriveBar w ls).mem = s.mem := by
  unfold State.arriveBar
  split <;> simp

@[simp] theorem State.postEvent_wf (w x) (hs : Memory.wf s.mem) : Memory.wf (s.postEvent w x).mem := by
  unfold State.postEvent
  (repeat' split) <;> simp [hs]

@[simp] theorem State.finishRelease_wf (n f) (hs : Memory.wf s.mem) : Memory.wf (s.finishRelease n f).mem := by
  simp only [State.finishRelease]
  split <;> simp [hs]

@[simp] theorem execReleaseComplete_wf (n) (hs : Memory.wf s.mem) : Out.MemWf (execReleaseComplete n s) := by
  simp only [execReleaseComplete]
  (repeat' split) <;> simp_all [eq_pair_iff]

@[simp] theorem execSpecFenceComplete_wf (n) (hs : Memory.wf s.mem) : Out.MemWf (execSpecFenceComplete n s) := by
  simp only [execSpecFenceComplete]
  (repeat' split) <;> simp_all [eq_pair_iff]

/-! #### Numbered barriers and the block barrier (R143 to R146, R290, R291) -/

@[simp] theorem barrierLanes_mem (g G) (s : State) (f) (hf : ∀ G t, (f G t).mem = t.mem) :
    (barrierLanes g G s f).mem = s.mem := by
  refine outsideTx_mem _ _ _ _ (fun G t => ?_)
  split <;> simp [hf]

@[simp] theorem onSeq_mem (h t) (s : State) (f) (hf : ∀ te t, (f te t).mem = t.mem) :
    (onSeq h t s f).mem = s.mem := by
  unfold onSeq
  split <;> simp [hf]

@[simp] theorem execBari_wf (h nx nb n) (hs : Memory.wf s.mem) : Out.MemWf (execBari h nx nb n s) := by
  unfold execBari
  split <;> simp [hs]

@[simp] theorem execBara_wf (h nb rank) (hs : Memory.wf s.mem) : Out.MemWf (execBara h nb rank s) := by
  unfold execBara
  split <;> simp [hs]

@[simp] theorem execBarw_wf (h nb phi) (hs : Memory.wf s.mem) : Out.MemWf (execBarw h nb phi s) := by
  unfold execBarw
  split <;> simp [hs]

/-! #### Copy tags (R72 to R74, R287 to R289) -/

@[simp] theorem State.setTag_mem (b r n t) : (s.setTag b r n t).mem = s.mem := by simp [State.setTag]
@[simp] theorem State.hear_mem (b r m) : (s.hear b r m).mem = s.mem := by simp [State.hear]

@[simp] theorem State.tagWake_mem (b r) : (s.tagWake b r).mem = s.mem := by
  unfold State.tagWake
  split
  · rfl
  · refine (foldl_mem _ _ (fun t n => ?_) _).trans (foldl_mem _ _ (fun t w => ?_) _)
    · (repeat' split) <;> simp
    · split
      · rfl
      · split
        · rfl
        · refine foldl_mem _ _ (fun t l => ?_) _
          (repeat' split) <;> simp

@[simp] theorem onTags_mem (h top) (s : State) (f k) (hf : ∀ g G r t, (f g G r t).mem = t.mem)
    (hk : ∀ n te r t, (k n te r t).mem = t.mem) :
    (onTags h top s f k).mem = s.mem := by
  unfold onTags
  split
  · simp [hk]
  · refine onGroup_mem _ _ _ _ (fun g G t => ?_)
    split <;> simp [hf]

@[simp] theorem State.armTag_mem (b r n count) : (s.armTag b r n count).mem = s.mem := by simp [State.armTag]

@[simp] theorem execTagwt_wf (h : Hdr) (all : Bool) (mask : Opd) (s : State) (hs : Memory.wf s.mem) :
    (execTagwt h all mask s).MemWf := by
  refine (Out.memWf_next _).mpr ?_
  rw [onTags_mem]
  · exact hs
  · intro g G r t
    dsimp only
    (repeat' split) <;> simp
  · intro n te r t
    dsimp only
    (repeat' split) <;> simp

@[simp] theorem execTagff_wf (h : Hdr) (a : Dst) (mask : Opd) (s : State) (hs : Memory.wf s.mem) :
    (execTagff h a mask s).MemWf := by
  refine (Out.memWf_next _).mpr ?_
  rw [onTags_mem]
  · exact hs
  · intro g G r t
    dsimp only
    (repeat' split) <;> simp
  · intro n te r t
    dsimp only
    (repeat' split) <;> simp

/-! #### Accesses of engines, sequencers and firmware -/

@[simp] theorem engEach_wf {α β : Type} (at_ : α → ℕ) (f : State → α → β → State × EngR β)
    (hf : ∀ t x b, Memory.wf t.mem → Memory.wf (f t x b).1.mem) (l : List α) (s : State) (b : β)
    (hs : Memory.wf s.mem) :
    Memory.wf (engEach at_ f s l b).1.mem := by
  induction l generalizing s b with
  | nil => exact hs
  | cons x l ih =>
    have := hf s x b hs
    unfold engEach
    split <;> simp_all

@[simp] theorem State.engRead_wf (p block a n) (hs : Memory.wf s.mem) : Memory.wf (s.engRead p block a n).1.mem := by
  simp only [State.engRead]
  (repeat' split) <;> simp_all [eq_pair_iff]

@[simp] theorem State.cellWrite_wf (x c t a n v add whole) (hc : c.KeepsWf) (hs : Memory.wf s.mem) :
    Memory.wf (s.cellWrite x c t a n v add whole).1.mem := by
  have hw := fun a n v => hc s a n v hs
  unfold State.cellWrite
  extract_lets put
  split
  · split
    · exact hw _ _ _
    · exact hs
  · rename_i sum _ d
    have hsum : ∀ n f, Memory.wf (sum n f).1.mem := by
      intro n f
      simp only [sum]
      split
      · exact hs
      · exact hw _ _ _
    (repeat' split) <;> simp [hs, hsum]

@[simp] theorem State.engWrite_wf (p block a n v add whole) (hs : Memory.wf s.mem) :
    Memory.wf (s.engWrite p block a n v add whole).1.mem := by
  have hh := State.home_wf s p (lineOf a) (pageOf a) true 0 hs
  simp only [State.engWrite]
  split
  · (repeat' split) <;> simp [hs]
  · split <;> rename_i e <;> rw [e] at hh
    case h_7 u mt =>
      have ho := State.ownCopy_wf u p (lineOf a) (pageOf a) hh
      split <;> rename_i e <;> rw [e] at ho
      · exact ho
      · split
        · simp [ho]
        · rename_i w h _ _
          have hc := State.cellWrite_wf w p.ctx (homeCell p (lineOf a) (pageOf a)) (u.sliceTime p (pageOf a)) a n v add
            whole (homeCell_keepsWf _ _ _) ho
          split <;> rename_i e <;> rw [e] at hc
          · split <;> simp [hc]
          · exact hc
    all_goals simp [hh]

@[simp] theorem State.coreRead_wf (p core block hint a n) (hs : Memory.wf s.mem) :
    Memory.wf (s.coreRead p core block hint a n).1.mem := by
  unfold State.coreRead
  extract_lets q p i keep
  have hk : ∀ (u : State) f v, Memory.wf u.mem → Memory.wf (keep u f v).1.mem := by
    intro u f v hu
    simp only [keep]
    split
    · rename_i h
      rwa [State.keepFill_mem _ _ _ h]
    · exact hu
  clear_value keep
  have hh := State.home_wf s p q.line q.page false hint hs
  split
  · simp [hs]
  · split
    · simp [hs]
    · exact hk _ _ _ (by simp [hs])
    · split
      case h_7 u mt e =>
        rw [e] at hh
        have hf := State.supply_wf u p q mt hh
        split
        · exact hh
        · split
          · simpa using hh
          · split <;> rename_i e <;> rw [e] at hf
            · split
              · exact hk _ _ _ hf
              · exact hf
            · exact hf
      all_goals simp_all

@[simp] theorem State.readLast_wf (p core block a) (hs : Memory.wf s.mem) :
    Memory.wf (s.readLast p core block a).1.mem := by
  simp +contextual [State.readLast, hs]

/-! #### Tags and range entries -/

@[simp] theorem State.countTag_mem (b r n core bytes) : (s.countTag b r n core bytes).mem = s.mem := by
  simp [State.countTag]

@[simp] theorem State.putLock_mem (cluster l) : (s.putLock cluster l).1.mem = s.mem := by
  unfold State.putLock
  split <;> simp

@[simp] theorem State.dropLocks_mem (cluster ls) : (s.dropLocks cluster ls).mem = s.mem := by
  simp [State.dropLocks]

/-! #### Operations -/

@[simp] theorem State.closeCopy_mem (c op) : (s.closeCopy c op).mem = s.mem := by
  unfold State.closeCopy
  split <;> simp

@[simp] theorem State.dropCopy_mem (c op) : (s.dropCopy c op).mem = s.mem := by simp [State.dropCopy]

@[simp] theorem State.drainError_mem (op addr reason) : (s.drainError op addr reason).mem = s.mem := by
  unfold State.drainError
  split <;> simp

@[simp] theorem State.copyLaneGoes_mem (op) : (s.copyLaneGoes op).mem = s.mem := by
  unfold State.copyLaneGoes
  split <;> simp

@[simp] theorem State.failCmd_mem (cmd addr reason late) : (s.failCmd cmd addr reason late).mem = s.mem := by
  unfold State.failCmd
  split <;> simp

@[simp] theorem State.failCopy_mem (c op addr reason) : (s.failCopy c op addr reason).mem = s.mem := by
  unfold State.failCopy
  split <;> simp

@[simp] theorem State.pauseCopy_mem (c op a reason) : (s.pauseCopy c op a reason).mem = s.mem := by
  simp [State.pauseCopy]

@[simp] theorem State.errorCopy_mem (c op a reason) : (s.errorCopy c op a reason).mem = s.mem := by
  simp [State.errorCopy]

@[simp] theorem State.countRetry_mem (w core p a) : (s.countRetry w core p a).mem = s.mem := by
  simp [State.countRetry]

@[simp] theorem State.stopCopy_mem {α : Type} (c op a) (r : EngR α) : (s.stopCopy c op a r).mem = s.mem := by
  unfold State.stopCopy
  split <;> simp

/-! #### Sectors (R57, R77) -/

@[simp] theorem State.noteSy_mem (block t) : (s.noteSy block t).mem = s.mem := by
  unfold State.noteSy
  split <;> simp

@[simp] theorem State.drainFill_wf (op a) (hs : Memory.wf s.mem) : Memory.wf (s.drainFill op a).mem := by
  simp only [State.drainFill]
  split
  · exact hs
  · have hf := State.supply_wf s op.who (coreReq op.who op.core op.block op.hint a 1) 0 hs
    split <;> rename_i e <;> rw [e] at hf
    · refine getD_wf _ _ (fun u h => ?_) hf
      simpa [State.keepFill_mem _ _ _ h] using hf
    · exact hf

@[simp] theorem State.readParts_wf (op due) (hs : Memory.wf s.mem) : Memory.wf (s.readParts op due).1.mem := by
  simp +contextual [State.readParts, hs]

@[simp] theorem State.writeParts_wf (op ahead due whole) (hs : Memory.wf s.mem) :
    Memory.wf (s.writeParts op ahead due whole).1.mem := by
  simp +contextual [State.writeParts, hs]

@[simp] theorem State.delivered_mem (c op ahead left done) : (s.delivered c op ahead left done).mem = s.mem := by
  simp [State.delivered]

@[simp] theorem State.deliverPiece_wf (c op) (hs : Memory.wf s.mem) : Memory.wf (s.deliverPiece c op).mem := by
  unfold State.deliverPiece
  split
  · exact hs
  · split
    extract_lets due left whole
    have h1 := State.readParts_wf s op due hs
    split <;> rename_i e1 <;> rw [e1] at h1
    · rename_i s1 ahead _
      have h2 := State.writeParts_wf s1 op ahead due whole h1
      split <;> rename_i e2 <;> rw [e2] at h2
      · dsimp only
        split <;> simp [h2]
      · simp [hs]
    · simp [hs]

@[simp] theorem State.countDelivered_mem (c op) : (s.countDelivered c op).mem = s.mem := by
  unfold State.countDelivered
  split <;> simp

@[simp] theorem State.copyOver_mem (c op) : (s.copyOver c op).mem = s.mem := by
  unfold State.copyOver
  split <;> simp

/-! #### An operation at issue -/

@[simp] theorem State.lockCopy_mem (op) : (s.lockCopy op).1.mem = s.mem := by
  unfold State.lockCopy
  split <;> simp

@[simp] theorem State.issueCopy_mem (c op) : (s.issueCopy c op).mem = s.mem := by
  simp only [State.issueCopy]
  (repeat' split) <;> simp -implicitDefEqProofs

@[simp] theorem State.trapCopy_mem (c op t) : (s.trapCopy c op t).mem = s.mem := by
  unfold State.trapCopy
  split <;> simp

@[simp] theorem State.probePages_wf (p : Who) (l : List ℕ) (s : State) (hs : Memory.wf s.mem) :
    Memory.wf (State.probePages p s l).1.mem := by
  induction l generalizing s with
  | nil => exact hs
  | cons page rest ih =>
    have ht := State.translate_wf s p page true hs
    unfold State.probePages
    (repeat' split) <;> simp_all

@[simp] theorem State.probeDst_wf (op) (hs : Memory.wf s.mem) : Memory.wf (s.probeDst op).1.mem := by
  simp [State.probeDst, hs]

@[simp] theorem State.checkCopy_wf (c op) (hs : Memory.wf s.mem) : Memory.wf (s.checkCopy c op).mem := by
  have hp := State.probeDst_wf s op hs
  unfold State.checkCopy
  extract_lets trap
  clear_value trap
  split
  · simp [hs]
  · split <;> rename_i e <;> rw [e] at hp <;> simp [hp]

@[simp] theorem State.checkDrain_wf (c op t) (hs : Memory.wf s.mem) : Memory.wf (s.checkDrain c op t).mem := by
  have hp := State.probeDst_wf s op hs
  unfold State.checkDrain
  split <;> rename_i e <;> rw [e] at hp <;> simp [hp]

/-! #### Tensor copies (R285) -/

@[simp] theorem State.parkLasts_mem (op w a reason) : (s.parkLasts op w a reason).mem = s.mem := by
  unfold State.parkLasts
  split <;> simp

@[simp] theorem State.lastsCopy_wf (c op) (hs : Memory.wf s.mem) : Memory.wf (s.lastsCopy c op).mem := by
  simp only [State.lastsCopy]
  (repeat' split) <;> simp_all [eq_pair_iff]

@[simp] theorem State.pushCopy_wf (c) (hs : Memory.wf s.mem) : Memory.wf (s.pushCopy c).mem := by
  unfold State.pushCopy
  extract_lets step turn
  have hstep : ∀ (u : State) (f : ℕ → CopyOp → State → State) w,
      (∀ c op t, Memory.wf t.mem → Memory.wf (f c op t).mem) → Memory.wf u.mem → Memory.wf (step u f w).mem := by
    intro u f w hf hu
    simp only [step]
    split
    · split
      · exact hu
      · simp [hf, hu]
    · exact hu
  have hturn : ∀ (f : State → ℕ → CopyOp → State), (∀ t c op, Memory.wf t.mem → Memory.wf (f t c op).mem) →
      ∀ c op t, Memory.wf t.mem → Memory.wf (turn f c op t).mem := by
    intro f hf c op t ht
    simp only [turn]
    split
    · exact hf _ _ _ ht
    · exact ht
  refine hstep _ _ _ (hturn _ fun t c op ht => ?_) (hstep _ _ _ (hturn _ fun t c op ht => ?_)
    (hstep _ (fun c op t => t.lastsCopy c op) _ (fun c op t ht => ?_) hs))
  all_goals simp [ht]

@[simp] theorem State.startCopies_wf (g ops) (hs : Memory.wf s.mem) : Memory.wf (s.startCopies g ops).mem := by
  simp +contextual [State.startCopies, hs]

@[simp] theorem execCpy_wf (h scope auto to_ from_ len tag) (hs : Memory.wf s.mem) :
    Out.MemWf (execCpy h scope auto to_ from_ len tag s) :=
  Out.memWf_onGroupTx hs fun _ _ _ ht => by
    extract_lets n
    split <;> simp [ht]

@[simp] theorem execCpyt_wf (h : Hdr) (scope : Scope) (auto : Bool) (to_ from_ org : Opd) (tag : TagOpd) (s : State)
    (hs : Memory.wf s.mem) :
    (execCpyt h scope auto to_ from_ org tag s).MemWf := by
  refine Out.memWf_onGroupTx hs (fun g G t ht => ?_)
  extract_lets n
  split
  · simp [ht]
  · refine State.startCopies_wf _ _ _ ?_
    rw [State.next_mem]
    refine foldl_fst_safe _ _ (fun r l hr => ?_) _ ht
    unfold State.Safe at *
    (repeat' split) <;> simp [hr]

@[simp] theorem execCopyDeliver_wf (c) (hs : Memory.wf s.mem) : Out.MemWf (execCopyDeliver c s) := by
  simp only [execCopyDeliver]
  (repeat' split) <;> simp [hs]

/-! #### The histogram engine -/

@[simp] theorem State.histWrite_wf (key n) (hs : Memory.wf s.mem) : Memory.wf (s.histWrite key n).mem := by
  simp [State.histWrite, hs]

@[simp] theorem State.histAdd_wf (key) (hs : Memory.wf s.mem) : Memory.wf (s.histAdd key).mem := by
  unfold State.histAdd
  (repeat' split) <;> simp [hs]

@[simp] theorem State.modPart_mem (k j f) : (s.modPart k j f).mem = s.mem := by simp [State.modPart]

@[simp] theorem State.histEvent_wf (k j source code pc ctx) (hs : Memory.wf s.mem) :
    Memory.wf (s.histEvent k j source code pc ctx).mem := by
  simp [State.histEvent, hs]

@[simp] theorem execHistDrainDone_wf (hs : Memory.wf s.mem) : Out.MemWf (execHistDrainDone s) := by
  simp +contextual [execHistDrainDone, hs]

/-! #### Special functions, correctly rounded (Table 10.5, R248 to R250) -/

@[simp] theorem specialOp_mem (h t a b f) : (specialOp h t a b f s).mem = s.mem := by simp [specialOp]

/-! #### Entering the queue (R137, R292) -/

@[simp] theorem enqueue_wf (h i vals) (hs : Memory.wf s.mem) : Out.MemWf (enqueue h i vals s) := by
  unfold enqueue
  split <;> simp [hs]

/-! #### Checks at the start (R141, R295, R299) -/

@[simp] theorem State.startFault_mem (t op cause reason addr) :
    (s.startFault t op cause reason addr).mem = s.mem := by
  simp [State.startFault]

@[simp] theorem State.tileCount_mem (t core n amount) : (s.tileCount t core n amount).mem = s.mem := by
  simp [State.tileCount]

@[simp] theorem State.startRun_mem (t op clocks) : (s.startRun t op clocks).mem = s.mem := by
  simp [State.startRun]

@[simp] theorem State.parkSeq_mem (t te n a reason) : (s.parkSeq t te n a reason).mem = s.mem := by
  simp [State.parkSeq]

@[simp] theorem State.withLast_wf (t te op a org qc) (f : BitVec 512 → Last → BitVec 128 → State → State)
    (hf : ∀ x d b u, Memory.wf u.mem → Memory.wf (f x d b u).mem) (hs : Memory.wf s.mem) :
    Memory.wf (s.withLast t te op a org qc f).mem := by
  have hr := State.readLast_wf s (s.whoSeq te) te.core (some te.block) (va57 a) hs
  simp only [State.withLast]
  split
  · simp [hs]
  · split
    · simp [hs]
    · split <;> rename_i e <;> rw [e] at hr <;> simp [hr, hf]

/-! #### Tile loads (R154, R297) -/

@[simp] theorem tileRows_wf (te hint xs) (hs : Memory.wf s.mem) : Memory.wf (tileRows te hint s xs).1.mem := by
  simp +contextual [tileRows, hs]

@[simp] theorem State.finishTld_wf (t n te op tile hint) (hs : Memory.wf s.mem) :
    Memory.wf (s.finishTld t n te op tile hint).mem := by
  simp only [State.finishTld]
  (repeat' split) <;> simp_all -implicitDefEqProofs [eq_pair_iff]

/-! #### Drains (R155, R303, R304) -/

@[simp] theorem State.startDrain_wf (t te op add raw auto scope kind a qc) (hs : Memory.wf s.mem) :
    Memory.wf (s.startDrain t te op add raw auto scope kind a qc).mem := by
  unfold State.startDrain
  extract_lets tag org o
  split
  · simp [hs]
  · refine State.withLast_wf _ _ _ _ _ _ _ _ (fun x d slot u hu => ?_) hs
    dsimp -zeta only
    extract_lets fmt odd ragged draw ps wide cop v key go
    have hgo : ∀ (v : State) st, Memory.wf v.mem → Memory.wf (go v st).mem := by
      intro v st hv
      simp only [go]
      split <;> simp [hv]
    clear_value go
    split
    · simp [hu]
    · split
      · simp [hu]
      · simp [hu]
      · split
        · simp [v, hu]
        · split
          · exact hu
          · have hp := State.probeDst_wf u cop hu
            split <;> rename_i e <;> rw [e] at hp
            · exact hgo _ _ hp
            · simp [hp]
            · exact hp
            · exact hp
            · dsimp only
              split <;> simp [hgo, hp]

/-! #### Starting (R137, R295) -/

@[simp] theorem State.runTcfg_mem (t op part n) : (s.runTcfg t op part n).mem = s.mem := by
  unfold State.runTcfg
  split <;> simp

@[simp] theorem State.startTld_wf (t te op qc) (hs : Memory.wf s.mem) : Memory.wf (s.startTld t te op qc).mem := by
  simp [State.startTld, hs]

@[simp] theorem execTileInstrStart_wf (t) (hs : Memory.wf s.mem) : Out.MemWf (execTileInstrStart t s) := by
  unfold execTileInstrStart
  (repeat' split) <;> simp [hs]

/-! #### Completing -/

@[simp] theorem execTileInstrComplete_wf (t n) (hs : Memory.wf s.mem) : Out.MemWf (execTileInstrComplete t n s) := by
  unfold execTileInstrComplete
  (repeat' split) <;> simp [hs]

/-! #### Moves between a warp and the tiles of the tenant on its core (R147, R307, R308) -/

@[simp] theorem tileMove_mem (h top off vregs) (s : State) (f) (hf : ∀ g t off l s, (f g t off l s).mem = s.mem) :
    (tileMove h top off vregs s f).mem = s.mem := by
  refine onGroup_mem _ _ _ _ (fun g G t => ?_)
  dsimp only
  split <;> simp [hf]

@[simp] theorem execTstv_wf (h ty t off vs) (hs : Memory.wf s.mem) : Out.MemWf (execTstv h ty t off vs s) := by
  simp -implicitDefEqProofs [execTstv, hs]

@[simp] theorem execTldv_wf (h : Hdr) (ty : Ty) (vd : BitVec 8) (t : BitVec 3) (off : Opd) (s : State)
    (hs : Memory.wf s.mem) :
    (execTldv h ty vd t off s).MemWf := by
  refine (Out.memWf_next _).mpr ?_
  rw [tileMove_mem]
  · exact hs
  · intro g t off l s
    split <;> simp

/-! #### Views (R161, R162, R173) -/

@[simp] theorem State.dropTagged_wf (v) (hs : Memory.wf s.mem) : Memory.wf (s.dropTagged v).mem := by
  simp [State.dropTagged, hs]

@[simp] theorem State.retireView_wf (v) (hs : Memory.wf s.mem) : Memory.wf (s.retireView v).mem := by
  unfold State.retireView
  cases s.view? v <;> simp [hs]

@[simp] theorem State.discardView_wf (v) (hs : Memory.wf s.mem) : Memory.wf (s.discardView v).mem :=
  foldl_wf _ _ (fun _ _ ht => by simp [ht]) _ hs

@[simp] theorem State.beginCommit_mem (v w) : (s.beginCommit v w).mem = s.mem := by simp [State.beginCommit]

@[simp] theorem outsideHandler_mem (g G) (s : State) (f) (hf : ∀ t, (f t).mem = t.mem) :
    (outsideHandler g G s f).mem = s.mem := by
  unfold outsideHandler
  split <;> simp [hf]

@[simp] theorem outsideHandler_wf (g G) (s : State) (f) (hf : ∀ t, Memory.wf t.mem → Memory.wf (f t).mem)
    (hs : Memory.wf s.mem) :
    Memory.wf (outsideHandler g G s f).mem := by
  unfold outsideHandler
  split <;> simp [hf, hs]

/-! #### Phase boundaries (R22, R23, R311 to R313) -/

@[simp] theorem State.arriveBoundary_mem (w ls kind pc label) :
    (s.arriveBoundary w ls kind pc label).mem = s.mem := by
  unfold State.arriveBoundary
  split <;> simp

@[simp] theorem boundary_mem (h) (s : State) (deny kind label) : (boundary h s deny kind label).mem = s.mem := by
  refine onGroup_mem _ _ _ _ (fun g G t => outsideTx_mem _ _ _ _ (fun G t => outsideHandler_mem _ _ _ _ (fun t => ?_)))
  (repeat' split) <;> simp

/-! #### Sequencers and groups at a boundary -/

@[simp] theorem execPbar_wf (h) (hs : Memory.wf s.mem) : Out.MemWf (execPbar h s) := by
  unfold execPbar
  split <;> simp [hs]

/-! #### Device launch (R30, R309) -/

@[simp] theorem State.enterLaunch_wf (g group l a) (hs : Memory.wf s.mem) :
    Memory.wf (s.enterLaunch g group l a).mem := by
  simp [State.enterLaunch, hs]

@[simp] theorem State.launchLane_wf (g group l a) (hs : Memory.wf s.mem) :
    Memory.wf (s.launchLane g group l a).mem := by
  simp [State.launchLane, hs]

@[simp] theorem State.launchLanes_wf (g : Grp) (group : ℕ) (addr : ℕ → DWord) (ls : List ℕ) (s : State) (n : ℕ)
    (hs : Memory.wf s.mem) :
    Memory.wf (State.launchLanes g group addr s n ls).mem := by
  induction ls generalizing s n with
  | nil => exact hs
  | cons l rest ih =>
    simp only [State.launchLanes]
    split
    · exact hs
    · exact ih _ _ (by simp [hs])

@[simp] theorem execLaunch_wf (h b) (hs : Memory.wf s.mem) : Out.MemWf (execLaunch h b s) :=
  Out.memWf_onGroupTx hs fun _ _ _ ht => by simp [ht]

/-! #### Events (R314) -/

@[simp] theorem execEvent_wf (h x) (hs : Memory.wf s.mem) : Out.MemWf (execEvent h x s) :=
  Out.memWf_onGroupTx hs fun _ _ _ ht => by simp [ht]

/-! #### Ending rivals and choosing (R168 to R171) -/

@[simp] theorem worldOp_wf (h top) (s : State) (ok f) (hf : ∀ g G b t, Memory.wf t.mem → Memory.wf (f g G b t).mem)
    (hs : Memory.wf s.mem) :
    Memory.wf (worldOp h top s ok f).mem := by
  refine onGroup_wf _ _ _ _ (fun g G t ht =>
    outsideTx_wf _ _ _ _ (fun G t ht => outsideHandler_wf _ _ _ _ (fun t ht => ?_) ht) ht) hs
  (repeat' split) <;> simp [hf, ht]

@[simp] theorem State.judge_wf (b bl drop) (hs : Memory.wf s.mem) : Memory.wf (s.judge b bl drop).mem :=
  foldl_wf _ _ (fun _ _ ht => by simp [ht]) _ hs

@[simp] theorem execChoose_wf (h k) (hs : Memory.wf s.mem) : Out.MemWf (execChoose h k s) := by
  simp +contextual [execChoose, hs]

@[simp] theorem execChooseNone_wf (h) (hs : Memory.wf s.mem) : Out.MemWf (execChooseNone h s) := by
  simp +contextual [execChooseNone, hs]

/-! #### Killing a family of blocks (R169, R375) -/

@[simp] theorem State.killFamily_mem (b cause) : (s.killFamily b cause).mem = s.mem := by
  simp [State.killFamily]

/-! #### Commits (R172, R409) -/

@[simp] theorem State.commitLoss_mem (vw a reason engine) : (s.commitLoss vw a reason engine).mem = s.mem :=
  (State.modGrid_mem _ _ _).trans (State.logError_mem _ _ _ _ _)

@[simp] theorem State.commitFault_mem (v vw line a reason) : (s.commitFault v vw line a reason).mem = s.mem := by
  simp [State.commitFault]

@[simp] theorem State.installMask_mem (p h g page) : (s.installMask p h g page).1.mem = s.mem := by
  simp [State.installMask]

@[simp] theorem State.clearWritten_mem (x h page) : (s.clearWritten x h page).mem = s.mem := by
  simp [State.clearWritten]

@[simp] theorem State.commitPage_wf (v x h page) (hs : Memory.wf s.mem) :
    Memory.wf (s.commitPage v x h page).mem := by
  simp only [State.commitPage]
  (repeat' split) <;> simp_all [eq_pair_iff]

@[simp] theorem execViewCommit_wf (v) (hs : Memory.wf s.mem) : Out.MemWf (execViewCommit v s) := by
  refine (Out.memWf_next _).mpr ?_
  split
  · exact hs
  · exact foldl_wf _ _ (fun t e ht => foldl_wf _ _ (fun u p hu => by simp [hu]) _ ht) _ (by simp [hs])

@[simp] theorem State.tryQueueParent_mem (b) : (s.tryQueueParent b).mem = s.mem := by
  unfold State.tryQueueParent
  split <;> simp

@[simp] theorem State.dropView_wf (v) (hs : Memory.wf s.mem) : Memory.wf (s.dropView v).mem := by
  simp [State.dropView, hs]

@[simp] theorem State.endRetry_wf (v vw w t) (hs : Memory.wf s.mem) : Memory.wf (s.endRetry v vw w t).mem := by
  unfold State.endRetry
  extract_lets lines s1 s2 s3 s4
  have h2 : Memory.wf s2.mem := by
    rw [State.modView_mem]
    exact State.dropTagged_wf s1 v hs
  have h4 : Memory.wf s4.mem := by
    have h3 : Memory.wf s3.mem := by simp [s3, h2]
    cases w <;> simp [s4, h3]
  split
  · simp [h4]
  · exact State.dropView_wf _ _ (foldl_wf _ _ (fun u op hu => by simp [hu]) _ (by simp [h4]))

@[simp] theorem execCommitRetryEnd_wf (v) (hs : Memory.wf s.mem) : Out.MemWf (execCommitRetryEnd v s) := by
  unfold execCommitRetryEnd
  (repeat' split) <;> simp [hs]

/-! #### The outbox (R174, R175, R329, R409) -/

@[simp] theorem State.outDone_wf (v w count) (hs : Memory.wf s.mem) : Memory.wf (s.outDone v w count).mem := by
  unfold State.outDone
  extract_lets u t
  have hu : Memory.wf u.mem := by
    simp only [u]
    split <;> simp [hs]
  have ht : Memory.wf t.mem := by
    simp only [t]
    cases u.view? v <;> simp [hu]
  simp [ht]

theorem State.outAccess_wf (vw w q c) (sy : State → ℕ → State × ℕ) (hc : c.KeepsWf)
    (hsy : ∀ t n, Memory.wf t.mem → Memory.wf (sy t n).1.mem) (hs : Memory.wf s.mem) :
    Memory.wf (s.outAccess vw w q c sy).mem := by
  have hp := performAccs_wf q c hc q.accs s hs
  simp only [State.outAccess]
  split <;> simp [hsy, hp]

@[simp] theorem State.performOut_wf (v vw w q) (hs : Memory.wf s.mem) : Memory.wf (s.performOut v vw w q).1.mem := by
  unfold State.performOut
  extract_lets q p a engine
  have hh := State.home_wf s p q.line q.page true q.hint hs
  split
  · (repeat' split) <;> simp [hs]
  · split
    · simp [hs]
    · split <;> rename_i e <;> rw [e] at hh
      case h_6 u f =>
        exact State.outAccess_wf _ _ _ _ _ _ (targetCell_keepsWf _ _) (fun t n ht => ht) hh
      case h_7 u mt =>
        have ho := State.ownCopy_wf u p q.line q.page hh
        split <;> rename_i e <;> rw [e] at ho
        · exact ho
        · exact State.outAccess_wf _ _ _ _ _ _ (homeCell_keepsWf _ _ _) (fun t n ht => by simp [ht]) ho
      all_goals simp [hh]

@[simp] theorem State.outReleased_mem (w scope) : (s.outReleased w scope).1.mem = s.mem := by
  unfold State.outReleased
  split <;> simp

@[simp] theorem State.outRelease_mem (w q) : (s.outRelease w q).1.mem = s.mem := by simp [State.outRelease]

@[simp] theorem execOutboxPerform_wf (v) (hs : Memory.wf s.mem) : Out.MemWf (execOutboxPerform v s) := by
  simp only [execOutboxPerform]
  (repeat' split) <;> simp_all [eq_pair_iff]

@[simp] theorem execViewIdReturn_wf (v) (hs : Memory.wf s.mem) : Out.MemWf (execViewIdReturn v s) := by
  unfold execViewIdReturn
  split <;> simp [hs]

@[simp] theorem execViewSpill_wf (v line) (hs : Memory.wf s.mem) : Out.MemWf (execViewSpill v line s) := by
  simp +contextual [execViewSpill, hs]

/-! #### The end of a block's work -/

@[simp] theorem State.blockReleased_mem (bl) : (s.blockReleased bl).1.mem = s.mem := by
  refine foldl_mem _ _ (fun t w => ?_) _
  split <;> simp

@[simp] theorem State.tellUnheard_mem (bl) : (s.tellUnheard bl).mem = s.mem := by
  unfold State.tellUnheard
  split <;> simp

@[simp] theorem State.leaveCores_mem (b bl) : (s.leaveCores b bl).mem = s.mem := by simp [State.leaveCores]
@[simp] theorem State.dropBlock_mem (b) : (s.dropBlock b).mem = s.mem := by simp [State.dropBlock]

@[simp] theorem State.judgeLast_wf (b bl) (hs : Memory.wf s.mem) : Memory.wf (s.judgeLast b bl).mem := by
  simp [State.judgeLast, hs]

@[simp] theorem State.rivalEnded_wf (parent bl status) (hs : Memory.wf s.mem) :
    Memory.wf (s.rivalEnded parent bl status).mem := by
  unfold State.rivalEnded
  split <;> simp +contextual [hs]

@[simp] theorem execRivalEnd_wf (b) (hs : Memory.wf s.mem) : Out.MemWf (execRivalEnd b s) := by
  simp only [execRivalEnd]
  (repeat' split) <;> simp_all [eq_pair_iff]

/-! #### Reading -/

@[simp] theorem State.engReadList_wf (p : Who) (n : ℕ) (s : State) (a : ℕ) (hs : Memory.wf s.mem) :
    Memory.wf (State.engReadList p s a n).1.mem := by
  induction n generalizing s a with
  | zero => exact hs
  | succ n ih =>
    have hr := State.engRead_wf s p none a 16 hs
    unfold State.engReadList
    split
    case h_1 u v e =>
      rw [e] at hr
      have := ih u (a + 16) hr
      split <;> simp_all
    all_goals simp_all

/-! #### A new grid -/

@[simp] theorem State.addGrid_mem (g) : (s.addGrid g).mem = s.mem := by simp [State.addGrid]

/-! #### Clusters: patterns and wake-ups (R387, R388, R393) -/

@[simp] theorem State.setPattern_mem (cl pat) : (s.setPattern cl pat).mem = s.mem := by
  simp [State.setPattern]

@[simp] theorem State.settleCluster_mem (cl) : (s.settleCluster cl).mem = s.mem := by
  simp [State.settleCluster]

@[simp] theorem State.askWake_mem (cl class_ curve) : (s.askWake cl class_ curve).mem = s.mem := by
  simp [State.askWake]

/-! #### Seating a block -/

@[simp] theorem State.fillWindow_mem (cl off size f) : (s.fillWindow cl off size f).mem = s.mem := by
  simp [State.fillWindow]

@[simp] theorem seatWarps_mem (b : ℕ) (cores : List ℕ) (l : List Warp) (s : State) :
    (seatWarps b cores s l).1.mem = s.mem := by
  induction l generalizing s with
  | nil => rfl
  | cons wp rest ih => simp [seatWarps, ih]

@[simp] theorem seatTenants_mem (b : ℕ) (cores : List ℕ) (l : List Tenant) (s : State) :
    (seatTenants b cores s l).1.mem = s.mem := by
  induction l generalizing s with
  | nil => rfl
  | cons wp rest ih => simp [seatTenants, ih]

@[simp] theorem State.seat_mem (b cl cores win d) : (s.seat b cl cores win d).mem = s.mem := by
  simp [State.seat]

@[simp] theorem State.seatAll_mem (g bs curve) : (s.seatAll g bs curve).1.mem = s.mem := by
  unfold State.seatAll
  (repeat' split) <;> simp

/-! #### The first phase (R21, R344) -/

@[simp] theorem State.noteFirst_mem (g) : (s.noteFirst g).mem = s.mem := by
  unfold State.noteFirst
  dsimp only
  split <;> simp

/-! #### The order of service (R350) -/

@[simp] theorem execBlockPlace_wf (n) (hs : Memory.wf s.mem) : Out.MemWf (execBlockPlace n s) := by
  simp only [execBlockPlace]
  (repeat' split) <;> simp_all [eq_pair_iff]

/-! #### The end of a phase (R23 to R27, R165, R166) -/

@[simp] theorem State.forkTrap_mem (bl code) : (s.forkTrap bl code).mem = s.mem := by
  simp -implicitDefEqProofs [State.forkTrap]

@[simp] theorem State.phaseReady_mem (b bl) : (s.phaseReady b bl).1.mem = s.mem := by simp [State.phaseReady]

@[simp] theorem State.forkRivals_wf (b bl r p n) (hs : Memory.wf s.mem) : Memory.wf (s.forkRivals b bl r p n).mem :=
  foldl_wf _ _ (fun _ _ ht => by simp [ht]) _ hs

@[simp] theorem State.endPhase_wf (b bl r kind) (hs : Memory.wf s.mem) : Memory.wf (s.endPhase b bl r kind).mem := by
  unfold State.endPhase
  split <;> simp [hs]

@[simp] theorem execPhaseRecordWrite_wf (b) (hs : Memory.wf s.mem) : Out.MemWf (execPhaseRecordWrite b s) := by
  simp only [execPhaseRecordWrite]
  (repeat' split) <;> simp_all [eq_pair_iff]

/-! #### The start of a later phase (R26, R135, R170) -/

@[simp] theorem State.loadArgs_wf (t te r) (hs : Memory.wf s.mem) : Memory.wf (s.loadArgs t te r).mem := by
  unfold State.loadArgs
  extract_lets p res a
  have hres : Memory.wf res.1.mem := by
    refine foldl_fst_safe _ _ (fun x i hx => ?_) _ hs
    split
    · have hr := State.engRead_wf x.1 p (some te.block) ((r.args + 16 * i) % 2 ^ 57) 16 hx
      dsimp only
      split <;> rename_i e <;> rw [e] at hr <;> exact hr
    · exact hx
  split
  · simp [hs]
  · clear_value res
    obtain ⟨u, v, m⟩ := res
    cases v <;> simp -implicitDefEqProofs [show Memory.wf u.mem from hres]

@[simp] theorem execPhaseStart_wf (b : ℕ) (s : State) (hs : Memory.wf s.mem) : (execPhaseStart b s).MemWf := by
  refine (Out.memWf_next _).mpr ?_
  split
  · split
    · refine foldl_wf _ _ (fun t n ht => ?_) _ hs
      split
      · split <;> simp [ht]
      · exact ht
    · dsimp only
      split
      · exact hs
      · have hseat := fun g l c => State.seatAll_mem s g l c
        split <;> rename_i e <;> simp_all [eq_pair_iff]
    · exact hs
  · exact hs

@[simp] theorem execGbarOpen_wf (n) (hs : Memory.wf s.mem) : Out.MemWf (execGbarOpen n s) := by
  unfold execGbarOpen
  split <;> simp -implicitDefEqProofs [hs]

/-! #### The end of blocks and grids -/

@[simp] theorem execBlockEnd_wf (b) (hs : Memory.wf s.mem) : Out.MemWf (execBlockEnd b s) := by
  simp only [execBlockEnd]
  (repeat' split) <;> simp_all [eq_pair_iff]

@[simp] theorem execGridComplete_wf (n) (hs : Memory.wf s.mem) : Out.MemWf (execGridComplete n s) := by
  unfold execGridComplete
  (repeat' split) <;> simp [hs]

@[simp] theorem State.stopGrid_mem (n status) : (s.stopGrid n status).mem = s.mem := by simp [State.stopGrid]

@[simp] theorem State.limitGraph_mem (k) : (s.limitGraph k).mem = s.mem := by
  unfold State.limitGraph
  split <;> simp

@[simp] theorem execGridTimeLimit_wf (n) (hs : Memory.wf s.mem) : Out.MemWf (execGridTimeLimit n s) := by
  unfold execGridTimeLimit
  (repeat' split) <;> simp [hs]

/-! #### Launches from the device (R309, R310, R342, R344) -/

@[simp] theorem State.dropLaunch_wf (n d) (hs : Memory.wf s.mem) : Memory.wf (s.dropLaunch n d).mem := by
  unfold State.dropLaunch
  split <;> simp [hs]

@[simp] theorem State.modLaunch_mem (n page) : (s.modLaunch n page).mem = s.mem := by simp [State.modLaunch]

@[simp] theorem State.refuseLaunch_wf (g ring reason faddr) (hs : Memory.wf s.mem) :
    Memory.wf (s.refuseLaunch g ring reason faddr).mem := by
  simp [State.refuseLaunch, hs]

@[simp] theorem execDeviceLaunchRead_wf (n) (hs : Memory.wf s.mem) : Out.MemWf (execDeviceLaunchRead n s) := by
  refine (Out.memWf_next _).mpr ?_
  split
  · exact hs
  · rename_i d _
    split
    · simp [hs]
    · split
      · exact hs
      · dsimp only
        have hr := State.engReadList_wf (s.whoFirmware d.ctx) 24 s d.addr hs
        split <;> rename_i e <;> rw [e] at hr
        · split <;> simp [hr]
        · simp [hr]
        · simp -implicitDefEqProofs [hr]
        · exact hr

/-! #### What comes from outside, and errors -/

@[simp] theorem State.outsidePut_wf (pa b) (hs : Memory.wf s.mem) : Memory.wf (s.outsidePut pa b).mem := by
  simp [State.outsidePut, hs]

@[simp] theorem State.outsideWrite_wf (pa bs) (hs : Memory.wf s.mem) : Memory.wf (s.outsideWrite pa bs).1.mem := by
  refine foldl_fst_safe _ _ (fun r e hr => ?_) _ ?_
  · simpa [State.Safe] using hr
  · exact foldl_wf _ _ (fun t i ht => by simp [ht]) _ hs

@[simp] theorem State.fromOutside_wf (pa n i) (f : State → State) (hf : Memory.wf (f s).mem) (hs : Memory.wf s.mem) :
    Memory.wf (s.fromOutside pa n i f).mem := by
  simp [State.fromOutside, hf, hs]

@[simp] theorem execHostMemWrite_wf (pa bytes) (hs : Memory.wf s.mem) : Out.MemWf (execHostMemWrite pa bytes s) := by
  unfold execHostMemWrite
  split <;> simp [hs]

/-! #### Memory errors (R405 to R407) -/

@[simp] theorem State.reportFrame_mem (pa index) : (s.reportFrame pa index).mem = s.mem := by
  simp [State.reportFrame]

@[simp] theorem State.corrRecord_mem (kind unit index pa) : (s.corrRecord kind unit index pa).mem = s.mem := by
  simp [State.corrRecord]

@[simp] theorem State.poisonSector_mem (pa va held) : (s.poisonSector pa va held).mem = s.mem := by
  simp [State.poisonSector]

@[simp] theorem State.uncorrectable_mem (kind unit index pa va x) :
    (s.uncorrectable kind unit index pa va x).mem = s.mem := by
  cases x with
  | none => exact State.deviceError_mem _ _ _ _ _
  | some x =>
    have h : State.uncorrectable s kind unit index pa va (some x) =
        (s.deviceError kind unit index pa).logError x va 0x05 (0x4000 + index) := rfl
    rw [h, State.logError_mem, State.deviceError_mem]

@[simp] theorem execMemoryError_wf (kind unit index pa va x) (hs : Memory.wf s.mem) :
    Out.MemWf (execMemoryError kind unit index pa va x s) := by
  unfold execMemoryError
  split <;> simp [hs]

/-! #### Page faults (R366) -/

@[simp] theorem execPageFaultRoute_wf (x page) (hs : Memory.wf s.mem) : Out.MemWf (execPageFaultRoute x page s) := by
  simp only [execPageFaultRoute]
  (repeat' split) <;> simp [hs]

/-! #### Patterns and rails (R388, R408) -/

@[simp] theorem State.applyCap_mem : (s.applyCap).mem = s.mem := by simp [State.applyCap]

@[simp] theorem State.setSlots_mem (cs n) : (s.setSlots cs n).mem = s.mem := by
  simp -implicitDefEqProofs [State.setSlots]

@[simp] theorem State.startOppoint_mem (q n cs slots railf railt) :
    (s.startOppoint q n cs slots railf railt).mem = s.mem := by
  simp -implicitDefEqProofs [State.startOppoint]

@[simp] theorem execRailSlewDone_wf (hs : Memory.wf s.mem) : Out.MemWf (execRailSlewDone s) := by
  unfold execRailSlewDone
  split <;> simp [hs]

/-! #### Retention (R391, R392) -/

@[simp] theorem execRetentionEnter_wf (cluster) (hs : Memory.wf s.mem) :
    Out.MemWf (execRetentionEnter cluster s) := by
  simp -implicitDefEqProofs [execRetentionEnter, hs]

@[simp] theorem execWakeStart_wf (cluster) (hs : Memory.wf s.mem) : Out.MemWf (execWakeStart cluster s) := by
  simp only [execWakeStart]
  split <;> simp [hs]

@[simp] theorem execRetentionExit_wf (cluster parityError) (hs : Memory.wf s.mem) :
    Out.MemWf (execRetentionExit cluster parityError s) := by
  unfold execRetentionExit
  split <;> simp [hs]

/-! #### Queues (Table 18.4, R337, R338, R349) -/

@[simp] theorem State.setQstat_mem (q status halt seq) : (s.setQstat q status halt seq).mem = s.mem := by
  simp [State.setQstat]

@[simp] theorem State.haltQueue_wf (q status off user) (hs : Memory.wf s.mem) :
    Memory.wf (s.haltQueue q status off user).mem := by
  simp [State.haltQueue, hs]

@[simp] theorem State.passPacket_mem (q bytes) : (s.passPacket q bytes).mem = s.mem := by
  simp [State.passPacket]

@[simp] theorem State.readPackets_wf (q n : ℕ) (s : State) (hs : Memory.wf s.mem) :
    Memory.wf (State.readPackets q n s).mem := by
  induction n generalizing s with
  | zero => exact hs
  | succ n ih =>
    unfold State.readPackets
    (repeat' split) <;> simp [ih, hs]

@[simp] theorem State.readOn_wf (q) (hs : Memory.wf s.mem) : Memory.wf (s.readOn q).mem := by
  simp [State.readOn, hs]

@[simp] theorem execPad_wf (q len) (hs : Memory.wf s.mem) : Out.MemWf (execPad q len s) := by
  unfold execPad
  split <;> simp [hs]

/-! #### Starting and ending (R338, R344 to R347, R354, R382) -/

@[simp] theorem State.startCmd_mem (q n) : (s.startCmd q n).mem = s.mem := by simp [State.startCmd]

@[simp] theorem State.doneCmd_mem (q n result late) : (s.doneCmd q n result late).mem = s.mem := by
  simp [State.doneCmd]

@[simp] theorem State.endCmd_mem (q n status reason faddr) : (s.endCmd q n status reason faddr).mem = s.mem := by
  simp [State.endCmd]

@[simp] theorem State.closeCmd_wf (q n) (hs : Memory.wf s.mem) : Memory.wf (s.closeCmd q n).mem := by
  unfold State.closeCmd
  split <;> simp [hs]

@[simp] theorem State.pauseCmd_mem (q n x a reason) : (s.pauseCmd q n x a reason).mem = s.mem := by
  simp [State.pauseCmd]

@[simp] theorem State.errorCmd_mem (q n x a reason) : (s.errorCmd q n x a reason).mem = s.mem := by
  simp [State.errorCmd]

@[simp] theorem State.packet_wf (i q n inCtx) (start goOn : State → State) (hstart : Memory.wf (start s).mem)
    (hgo : Memory.wf (goOn s).mem) (hs : Memory.wf s.mem) :
    Memory.wf (s.packet i q n inCtx start goOn).mem := by
  unfold State.packet
  split
  · simp [hstart, hgo, hs]
  · exact hs

/-! #### LAUNCH (R340 to R342) -/

@[simp] theorem State.cmdRead_wf (q n x addr count) (k : List (BitVec 8) → State → State)
    (hk : ∀ bs t, Memory.wf t.mem → Memory.wf (k bs t).mem) (hs : Memory.wf s.mem) :
    Memory.wf (s.cmdRead q n x addr count k).mem := by
  have hr := State.engReadList_wf (s.whoFirmware x) count s (addr % 2 ^ 57) hs
  unfold State.cmdRead
  split
  · simp [hs]
  · split <;> rename_i e <;> rw [e] at hr <;> simp [hr, hk]

@[simp] theorem execLaunchPkt_wf (q n : Nat) (h : PktHdr) (record limit : Nat) (s : State) (hs : Memory.wf s.mem) :
    (execLaunchPkt q n h record limit s).MemWf := by
  refine (Out.memWf_next _).mpr (State.packet_wf _ _ _ _ _ _ _ ?_ hs hs)
  refine State.cmdRead_wf _ _ _ _ _ _ _ (fun bs t ht => ?_) hs
  split <;> simp [ht]

/-! #### GRAPH (R343, R344) -/

@[simp] theorem State.tryGraph_wf (q n) (hs : Memory.wf s.mem) : Memory.wf (s.tryGraph q n).mem := by
  unfold State.tryGraph
  split <;> simp [hs]

@[simp] theorem State.limitOf_mem (q n) : (s.limitOf q n).mem = s.mem := by
  unfold State.limitOf
  cases s.graphOf q n <;> simp

@[simp] theorem State.modGraph_mem (k f) : (s.modGraph k f).mem = s.mem := by simp [State.modGraph]

@[simp] theorem execGraphNodeStart_wf (gr node) (hs : Memory.wf s.mem) :
    Out.MemWf (execGraphNodeStart gr node s) := by
  refine (Out.memWf_next _).mpr ?_
  split
  · exact hs
  · rename_i g _
    extract_lets a
    have hr := State.engReadList_wf (s.whoFirmware g.ctx) 24 s (a % 2 ^ 57) hs
    split
    · simp [hs]
    · split
      · exact hs
      · split
        · simp [hs]
        · split
          · simp [hs]
          · split <;> rename_i e <;> rw [e] at hr
            · split <;> simp [hr]
            · simp [hr]
            · simp -implicitDefEqProofs [hr]
            · exact hr

/-! #### COPY and FILL (R284, R339) -/

@[simp] theorem State.startPktCopy_mem (q n kind args dst src bytes) :
    (s.startPktCopy q n kind args dst src bytes).mem = s.mem := by
  simp only [State.startPktCopy]
  split <;> simp

/-! #### SIGNAL and WAIT (R338, R339) -/

@[simp] theorem State.signal_wf (q n addr v add) (hs : Memory.wf s.mem) :
    Memory.wf (s.signal q n addr v add).mem := by
  simp only [State.signal]
  (repeat' split) <;> simp_all [eq_pair_iff]

@[simp] theorem State.pollWait_wf (q n addr v cond) (hs : Memory.wf s.mem) :
    Memory.wf (s.pollWait q n addr v cond).mem := by
  simp only [State.pollWait]
  (repeat' split) <;> simp_all [eq_pair_iff]

@[simp] theorem execWaitTimeout_wf (q n) (hs : Memory.wf s.mem) : Out.MemWf (execWaitTimeout q n s) := by
  unfold execWaitTimeout
  (repeat' split) <;> simp [hs]

/-! #### STOP (R382) -/

@[simp] theorem State.tryStop_mem (q n target) : (s.tryStop q n target).mem = s.mem := by simp [State.tryStop]

/-! #### CTXCREATE (R352) -/

@[simp] theorem execCtxcreate_wf (q n h body) (hs : Memory.wf s.mem) : Out.MemWf (execCtxcreate q n h body s) := by
  simp -implicitDefEqProofs [execCtxcreate, hs]

/-! #### CMCFG (R64, R67 to R69) -/

@[simp] theorem State.setBank_mem (cl b m) : (s.setBank cl b m).mem = s.mem := by simp [State.setBank]

@[simp] theorem State.configure_mem (q n cluster mask m) : (s.configure q n cluster mask m).mem = s.mem := by
  simp [State.configure]

/-! #### The steps of a shootdown (R368) -/

@[simp] theorem State.dropTranslations_mem (r) : (s.dropTranslations r).mem = s.mem :=
  foldl_mem _ _ (fun _ _ => by simp) _

@[simp] theorem State.purgeLine_wf (r x h) (hs : Memory.wf s.mem) : Memory.wf (s.purgeLine r x h).mem := by
  simp [State.purgeLine, hs]

@[simp] theorem State.purge_wf (r) (hs : Memory.wf s.mem) : Memory.wf (s.purge r).mem := by
  unfold State.purge
  extract_lets keep cs s1 s2 s3
  have h1 : s1.mem = s.mem := foldl_mem _ _ (fun _ _ => by simp) _
  have h2 : s2.mem = s1.mem := foldl_mem _ _ (fun _ _ => by simp) _
  exact foldl_wf _ _ (fun t x ht => foldl_wf _ _ (fun u h hu => by simp [hu]) _ ht) s2 (by simpa [h2, h1] using hs)

/-! #### The promotion engine (R370, R371) -/

@[simp] theorem State.moveFrame_wf (x from_ to_) (hs : Memory.wf s.mem) :
    Memory.wf (s.moveFrame x from_ to_).mem := by
  simp only [State.moveFrame]
  split
  · exact hs
  · generalize readMemBytes s.mem (from_ * 4096) 4096 = bytes
    exact State.writePhys_wf _ _ _ (State.claim_wf s _ _ hs)

@[simp] theorem State.writeMerged_wf (m) (hs : Memory.wf s.mem) : Memory.wf (s.writeMerged m).mem := by
  simp only [State.writeMerged]
  split
  · exact hs
  · split
    · exact State.writePhys_wf _ _ _ hs
    · exact foldl_wf _ _ (fun t p ht => State.writePhys_wf _ _ _ ht) _ hs

@[simp] theorem State.promote_wf (r m) (hs : Memory.wf s.mem) : Memory.wf (s.promote r m).mem :=
  foldl_wf _ _ (fun _ _ ht => by simp [ht]) _
    (State.writeMerged_wf _ _ (foldl_wf _ _ (fun _ _ ht => by simp [ht]) _ hs))

/-! #### INVAL (R368, R369) -/

@[simp] theorem State.shoot_wf (q n r) (hs : Memory.wf s.mem) : Memory.wf (s.shoot q n r).mem := by
  simp only [State.shoot]
  (repeat' split) <;> simp [hs]

/-! #### RESUME (R33, R148, R286, R310, R323, R367, R409) -/

@[simp] theorem State.replayWarp_mem (w page) : (s.replayWarp w page).mem = s.mem := by
  unfold State.replayWarp
  split <;> simp

@[simp] theorem State.resumeRetry_mem (x page) : (s.resumeRetry x page).mem = s.mem := by
  simp [State.resumeRetry]

@[simp] theorem State.loseInstalls_wf (v page) (hs : Memory.wf s.mem) : Memory.wf (s.loseInstalls v page).mem := by
  unfold State.loseInstalls
  (repeat' split) <;> simp [hs]

@[simp] theorem State.failSeq_mem (t te page a) : (s.failSeq t te page a).mem = s.mem := by
  simp only [State.failSeq]
  split <;> simp

@[simp] theorem State.resumeFail_wf (x page a) (hs : Memory.wf s.mem) : Memory.wf (s.resumeFail x page a).mem := by
  unfold State.resumeFail
  extract_lets ofCtx ws s1 s2 s3 s4 s5 s6 s7 s8 s9
  have h1 : Memory.wf s1.mem := foldl_wf _ _ (fun t e ht => by simpa using ht) _ hs
  have h2 : Memory.wf s2.mem := foldl_wf _ _ (fun t e ht => by simpa using ht) _ h1
  have h4 : Memory.wf s4.mem := by
    refine foldl_wf _ _ (fun t e ht => foldl_wf _ _ (fun t l ht => ?_) _ ht) s3 h2
    split
    · split <;> simp [ht]
    · exact ht
  have h5 : Memory.wf s5.mem := foldl_wf _ _ (fun t e ht => by simpa using ht) _ h4
  have h6 : Memory.wf s6.mem := foldl_wf _ _ (fun t e ht => by simpa using ht) _ h5
  have h7 : Memory.wf s7.mem := by
    refine foldl_wf _ _ (fun t e ht => foldl_wf _ _ (fun t c ht => ?_) _ ht) _ h6
    dsimp only
    split <;> simp [ht]
  have h8 : Memory.wf s8.mem := by
    refine foldl_wf _ _ (fun t e ht => ?_) _ h7
    split <;> simp [ht]
  have h9 : Memory.wf s9.mem := by
    refine foldl_wf _ _ (fun t e ht => foldl_wf _ _ (fun t p ht => ?_) _ ht) _ h8
    simp [ht]
  exact foldl_wf _ _ (fun t e ht => by simp [ht]) _ h9

@[simp] theorem execResume_wf (q n : Nat) (h : PktHdr) (fq seq addr : Nat) (unres : Bool) (s : State)
    (hs : Memory.wf s.mem) :
    (execResume q n h fq seq addr unres s).MemWf := by
  refine (Out.memWf_next _).mpr (State.packet_wf _ _ _ _ _ _ _ ?_ hs hs)
  dsimp only
  split <;> simp [hs]

/-! #### CTXDESTROY (R352, R365, R404) -/

@[simp] theorem State.killUnstarted_mem (x) : (s.killUnstarted x).mem = s.mem := by simp [State.killUnstarted]

@[simp] theorem State.freeCtx_wf (x) (hs : Memory.wf s.mem) : Memory.wf (s.freeCtx x).mem := by
  unfold State.freeCtx
  extract_lets r s1 s2 s3 mine s4 s5
  have h2 : Memory.wf s2.mem := by simp [s2, s1, hs]
  have h3 : Memory.wf s3.mem := foldl_wf _ _ (fun t e ht => by simp [ht]) _ h2
  have h4 : Memory.wf s4.mem := foldl_wf _ _ (fun t c ht => by simpa using ht) _ h3
  exact foldl_wf _ _ (fun t e ht => by simp [ht]) _ h4

/-! #### Queues (R335, R337, R349) -/

@[simp] theorem State.resetQueue_mem (q) : (s.resetQueue q).mem = s.mem := by simp [State.resetQueue]

/-! #### Counters and partitions (R351, R352, R364, R397) -/

@[simp] theorem execPartcfgWrite_wf (v : DWord) (s : State) (hs : Memory.wf s.mem) :
    (execPartcfgWrite v s).MemWf := by
  refine (Out.memWf_next _).mpr ?_
  split
  · exact hs
  · exact wf_filter s.mem _ hs

/-! #### Other registers (R333) -/

@[simp] theorem State.ringWrite_mem (on isSize o v) : (s.ringWrite on isSize o v).mem = s.mem := by
  simp [State.ringWrite]

@[simp] theorem State.writeReg_mem (o v) : (s.writeReg o v).mem = s.mem := by
  fun_cases State.writeReg <;> simp [*]

/-! #### Reset and start-up (R398) -/

@[simp] theorem State.boot_wf (hs : Memory.wf s.mem) : Memory.wf (s.boot).mem :=
  foldl_wf _ _ (fun _ _ ht => by simp [ht]) _ hs

/-! #### The security mailbox (R402) -/

@[simp] theorem State.mbDone_mem (status) : (s.mbDone status).mem = s.mem := by simp [State.mbDone]

@[simp] theorem State.mailbox_mem (f : State → State) (hf : (f s).mem = s.mem) : (s.mailbox f).mem = s.mem := by
  simp [State.mailbox, hf]

@[simp] theorem State.logMeasure_mem (kind digest) : (s.logMeasure kind digest).mem = s.mem := by
  simp [State.logMeasure]

/-! #### Images (R399, R400) -/

@[simp] theorem State.restartEngine_mem (engine) : (s.restartEngine engine).mem = s.mem := by
  simp [State.restartEngine]

@[simp] theorem State.setAltfw_mem : (s.setAltfw).mem = s.mem := by simp [State.setAltfw]
@[simp] theorem State.runImage_mem (hd) : (s.runImage hd).mem = s.mem := by simp [State.runImage]

/-! #### Owner keys (R401) -/

@[simp] theorem execEnrolKey_wf (hs : Memory.wf s.mem) : (execEnrolKey s).MemWf := by
  refine (Out.memWf_next _).mpr ?_
  rw [State.mailbox_mem]
  · exact hs
  · dsimp only
    (repeat' split) <;> simp

@[simp] theorem execRevoke_wf (hs : Memory.wf s.mem) : (execRevoke s).MemWf := by
  refine (Out.memWf_next _).mpr ?_
  rw [State.mailbox_mem]
  · exact hs
  · dsimp only
    (repeat' split) <;> simp

/-! #### Attestation (R403, Table 22.4) -/

@[simp] theorem State.spdm_mem (n req) : (s.spdm n req).mem = s.mem := by simp [State.spdm]
@[simp] theorem State.setSession_mem (n) : (s.setSession n).mem = s.mem := by simp [State.setSession]

/-! #### Park points (R31, R33, R88; Table 1.7) -/

@[simp] theorem State.leaveReplay_mem (w i l rp) : (s.leaveReplay w i l rp).mem = s.mem := by
  simp [State.leaveReplay]

@[simp] theorem State.parkLane_mem (w i l) : (s.parkLane w i l).mem = s.mem := by
  simp only [State.parkLane]
  (repeat' split) <;> simp

@[simp] theorem State.parkWarp_mem (t w) : (s.parkWarp t w).mem = s.mem := by
  simp only [State.parkWarp]
  split <;> simp

/-! #### Slack violations (R50 to R52) -/

@[simp] theorem State.noteStalls_mem (k j t w) : (s.noteStalls k j t w).mem = s.mem := by
  unfold State.noteStalls
  split <;> simp

@[simp] theorem execSlackViolation_wf (w : Nat) (s : State) (hs : Memory.wf s.mem) :
    (execSlackViolation w s).MemWf := by
  refine (Out.memWf_next _).mpr ?_
  split
  · exact hs
  · dsimp only
    (repeat' split) <;> simp [hs]

/-! #### Issuing one instruction -/

@[simp] theorem State.acceptCand_mem (k j t c) : (s.acceptCand k j t c).1.mem = s.mem := by
  unfold State.acceptCand
  split <;> simp

@[simp] theorem State.issuedWarps_mem (k j t c all cls) : (s.issuedWarps k j t c all cls).mem = s.mem := by
  simp [State.issuedWarps]

@[simp] theorem State.issue_wf (k j t c all) (hs : Memory.wf s.mem) : Memory.wf (s.issue k j t c all).mem := by
  simp [State.issue, hs]

/-! #### The choice (R8, R10, R189) -/

@[simp] theorem State.issueSlot_wf (k j t ws) (hs : Memory.wf s.mem) : Memory.wf (s.issueSlot k j t ws).1.mem := by
  simp only [State.issueSlot]
  split <;> simp [hs]

/-! #### Charges (R394) -/

@[simp] theorem State.charge_wf (k j t ws elig) (hs : Memory.wf s.mem) : Memory.wf (s.charge k j t ws elig).mem := by
  unfold State.charge
  split <;> simp [hs]

@[simp] theorem State.noteEligible_mem (t ws elig) : (s.noteEligible t ws elig).mem = s.mem :=
  foldl_mem _ _ (fun _ _ => by simp) _

@[simp] theorem execIssueSelect_wf (k j) (hs : Memory.wf s.mem) : Out.MemWf (execIssueSelect k j s) := by
  refine (Out.memWf_next _).mpr ?_
  extract_lets t s1 ws all elig s2 s3 s4
  have h1 : Memory.wf s1.mem := foldl_wf _ _ (fun u e hu => by simp [hu]) _ hs
  have h4 : Memory.wf s4.mem := by simp [s4, s3, s2, h1]
  have hi := State.issueSlot_wf s4 k j t ws h4
  split <;> rename_i e <;> rw [e] at hi
  · exact hi
  · exact State.issueSlot_wf _ _ _ _ _ hi

/-! #### Bringing a block to a state that can be saved (R377, steps 1 and 2; Table 20.3) -/

@[simp] theorem State.withdrawReq_mem (w r q) : (s.withdrawReq w r q).mem = s.mem := by
  simp [State.withdrawReq]

@[simp] theorem State.withdrawWaits_mem (w) : (s.withdrawWaits w).mem = s.mem := by simp [State.withdrawWaits]

@[simp] theorem State.endGathers_mem (w) : (s.endGathers w).mem = s.mem := by
  refine foldl_mem _ _ (fun t e => ?_) _
  dsimp only
  (repeat' split) <;> simp

@[simp] theorem State.endFences_mem (w) : (s.endFences w).mem = s.mem := by
  refine foldl_mem _ _ (fun t e => ?_) _
  (repeat' split) <;> simp

@[simp] theorem State.endLanes_mem (w) : (s.endLanes w).mem = s.mem := by simp [State.endLanes]
@[simp] theorem State.backToCopy_mem (op w) : (s.backToCopy op w).mem = s.mem := by simp [State.backToCopy]

@[simp] theorem State.endIssue_mem (b) : (s.endIssue b).mem = s.mem := by
  refine foldl_mem _ _ (fun t e => ?_) _
  (repeat' split) <;> simp

@[simp] theorem State.endLoads_mem (t) : (s.endLoads t).mem = s.mem := by
  unfold State.endLoads
  split <;> simp

@[simp] theorem State.quiesce_mem (b) : (s.quiesce b).mem = s.mem := by
  unfold State.quiesce
  split <;> simp

@[simp] theorem State.saveReady_mem (b) : (s.saveReady b).1.mem = s.mem := by
  unfold State.saveReady
  split <;> simp

/-! #### Writing (R379, R380) -/

@[simp] theorem State.engWriteList_wf (p : Who) (l : List (List (BitVec 8))) (s : State) (a : ℕ)
    (hs : Memory.wf s.mem) :
    Memory.wf (State.engWriteList p s a l).1.mem := by
  induction l generalizing s a with
  | nil => exact hs
  | cons x rest ih =>
    have hr := State.engWrite_wf s p none a 16 (bytesNat x) none true hs
    unfold State.engWriteList
    split
    case h_1 u t tsy e =>
      rw [e] at hr
      have := ih u (a + 16) hr
      split <;> simp_all
    all_goals simp_all

@[simp] theorem State.saveBytes_wf (x a bs) (hs : Memory.wf s.mem) : Memory.wf (s.saveBytes x a bs).1.mem := by
  simp [State.saveBytes, hs]

@[simp] theorem State.saveBlock_mem (b st) : (s.saveBlock b st).mem = s.mem := by
  unfold State.saveBlock
  split <;> simp

/-! #### PREEMPT: saving (R377, R379) -/

@[simp] theorem State.beginSave_mem (x target) : (s.beginSave x target).mem = s.mem := by
  simp -implicitDefEqProofs [State.beginSave]

@[simp] theorem State.undoSave_mem (gs) : (s.undoSave gs).mem = s.mem := by
  simp -implicitDefEqProofs [State.undoSave]

@[simp] theorem State.writeSave_wf (q n mode x gs area size) (hs : Memory.wf s.mem) :
    Memory.wf (s.writeSave q n mode x gs area size).mem := by
  simp only [State.writeSave]
  (repeat' split) <;> simp_all [eq_pair_iff]

@[simp] theorem State.goSave_wf (q n mode target area size) (hs : Memory.wf s.mem) :
    Memory.wf (s.goSave q n mode target area size).mem := by
  simp only [State.goSave]
  have hr : ∀ (l : List (Nat × Block)) (r : State × Bool),
      (l.foldl (fun r e => ((r.1.saveReady e.1).1, r.2 && (r.1.saveReady e.1).2)) r).1.mem = r.1.mem := by
    intro l r
    induction l generalizing r with
    | nil => rfl
    | cons e l ih => simp [ih]
  split <;> simp [hr, hs]

@[simp] theorem State.save_wf (q n mode target area size) (hs : Memory.wf s.mem) :
    Memory.wf (s.save q n mode target area size).mem := by
  unfold State.save
  split <;> simp [hs]

/-! #### Placing what was saved (R378) -/

@[simp] theorem State.replaySaved_mem (w v) : (s.replaySaved w v).mem = s.mem := by
  refine foldl_mem _ _ (fun t e => ?_) _
  split <;> simp

@[simp] theorem State.resumeCopies_mem (b) : (s.resumeCopies b).mem = s.mem := by
  unfold State.resumeCopies
  split <;> simp

@[simp] theorem State.wakeSaved_mem (b v old) : (s.wakeSaved b v old).mem = s.mem := by simp [State.wakeSaved]

@[simp] theorem State.placeSaved_mem (g vs) : (s.placeSaved g vs).1.mem = s.mem := by
  simp only [State.placeSaved]
  (repeat' split) <;> simp_all [eq_pair_iff]

@[simp] theorem State.placeAll_mem (rs) : (s.placeAll rs).mem = s.mem := by
  refine foldl_mem _ _ (fun t r => ?_) _
  split
  · split
    · split
      · rfl
      · dsimp only
        split <;> simp
    · rfl
  · rfl

@[simp] theorem State.restore_wf (q n area size first) (hs : Memory.wf s.mem) :
    Memory.wf (s.restore q n area size first).mem := by
  unfold State.restore
  extract_lets x a stop
  have hstop : ∀ (u : State) b r, Memory.wf u.mem → Memory.wf (stop u b r).mem := by
    intro u b r hu
    simp only [stop]
    split <;> simp [hu]
  clear_value stop
  split
  · simp [hs]
  · have hr := State.engReadList_wf (s.whoFirmware x) 12 s a hs
    split <;> rename_i e <;> rw [e] at hr
    · split
      · simp [hr]
      · rename_i u hd _ _
        have hr := State.engReadList_wf (u.whoFirmware x) (field hd 12 8 / 16 - 12) u (a + 192) hr
        split <;> rename_i e <;> rw [e] at hr
        · split
          · split <;> simp [hr]
          · dsimp only
            split
            · rw [State.doneCmd_mem]
              refine foldl_wf _ _ (fun t r ht => ?_) _ (by simp [hr])
              split <;> simp [ht]
            · simp [hr]
        · exact hstop _ _ _ hr
    · exact hstop _ _ _ hr

@[simp] theorem execPreemptRestore_wf (q n h area size) (hs : Memory.wf s.mem) :
    Out.MemWf (execPreemptRestore q n h area size s) := by
  unfold execPreemptRestore
  split <;> simp [hs]

/-! #### Descheduling (R29, R381) -/

@[simp] theorem State.withoutLower_mem (cl) : (s.withoutLower cl).mem = s.mem := by simp [State.withoutLower]

@[simp] theorem State.evict_mem (b g) : (s.evict b g).mem = s.mem := by
  simp only [State.evict]
  (repeat' split) <;> simp_all [eq_pair_iff]

@[simp] theorem State.deschedule_wf (b) (hs : Memory.wf s.mem) : Memory.wf (s.deschedule b).mem := by
  simp only [State.deschedule]
  (repeat' split) <;> simp_all [eq_pair_iff]

@[simp] theorem State.evictMates_mem (b bl g) : (s.evictMates b bl g).mem = s.mem := by
  simp [State.evictMates]

@[simp] theorem execBlockDeschedule_wf (b) (hs : Memory.wf s.mem) : Out.MemWf (execBlockDeschedule b s) := by
  unfold execBlockDeschedule
  split <;> simp [hs]

@[simp] theorem execBlockRequeue_wf (b) (hs : Memory.wf s.mem) : Out.MemWf (execBlockRequeue b s) := by
  simp only [execBlockRequeue]
  (repeat' split) <;> simp_all [eq_pair_iff]

/-! #### Sequencers (R137, R292) -/

@[simp] theorem State.seqIssue_mem (t te) : (s.seqIssue t te).mem = s.mem := by
  unfold State.seqIssue
  extract_lets now te' u
  have hu : u.mem = s.mem := rfl
  split
  · exact hu
  · split
    · exact hu
    · rename_i run _ _ _ _ _ _
      have hrun : ∀ v, (run v).mem = v.mem := fun v => by simp [run]
      split
      · rw [hrun, hu]
      · split
        · rw [hrun, hu]
        · dsimp only
          split
          · exact hu
          · rw [hrun]
            split <;> simp [hu]

/-! #### Power, telemetry, rings -/

@[simp] theorem State.noteIdle_mem : (s.noteIdle).mem = s.mem :=
  foldl_mem _ _ (fun _ _ => by simp) _

/-! #### The pulse -/

@[simp] theorem State.pulse_wf (hs : Memory.wf s.mem) : Memory.wf (s.pulse).mem := by
  simp only [State.pulse]
  (repeat' split) <;> simp [hs]

/-! #### Floating-point arithmetic, compare and classify (Tables 10.1 and 10.3, R239 to R247) -/

@[simp] theorem floatOp_mem (h t sat rnd a ops f) : (floatOp h t sat rnd a ops f s).mem = s.mem := by
  simp [floatOp]

@[simp] theorem floatMinMax_mem (h isMax t a b c) : (floatMinMax h isMax t a b c s).mem = s.mem := by
  simp [floatMinMax]

/-! #### Integer arithmetic (Table 9.2, R208 to R210) -/

@[simp] theorem intOp2_mem (h t sat a b c f) : (intOp2 h t sat a b c f s).mem = s.mem := by simp [intOp2]

/-! #### Logic (Table 9.4, R211) -/

@[simp] theorem logicOp_mem (h t a b c f) : (logicOp h t a b c f s).mem = s.mem := by simp [logicOp]

/-! #### Select, move, compare and predicate logic (R215 to R217) -/

@[simp] theorem execMovc_wf (h x b) (hs : Memory.wf s.mem) : Out.MemWf (execMovc h x b s) := by
  unfold execMovc
  (repeat' split) <;> simp [hs]

end

/-! ### One step -/

/-- What every operation does: a new state that it answers has its memory in canonical form. -/
theorem exec_wf (i : Instr) (s : State) (hs : Memory.wf s.mem) : Out.MemWf (exec i s) := by
  cases i with
  | iadd | isub | imul | imulh | imad | idiv | imin | imax | iabs | and | or | xor | andn | bfn3 | sel | mov | icmp
  | plop | movs =>
    simp [exec, execIadd, execIsub, execImul, execImulh, execImad, execIdiv, execImin, execImax, execIabs, execAnd,
      execOr, execXor, execAndn, execBfn3, execSel, execMov, execIcmp, execPlop, execMovs, hs]
  | shl | shr | fsh | popc | clz | brev | bfx | bfi | adrs | permb =>
    simp [exec, execShl, execShr, execFsh, execPopc, execClz, execBrev, execBfx, execBfi, execAdrs, execPermb, hs]
  | shfl | vote | ballot | redux | scan | matchLanes | elect =>
    simp [exec, execShfl, execVote, execBallot, execRedux, execScan, execMatchLanes, execElect, hs]
  | fadd | fsub | fmul | ffma | fmin | fmax | fcmp | fclass | frnd | fscale | fgexp | fdot2 =>
    simp [exec, execFadd, execFsub, execFmul, execFfma, execFmin, execFmax, execFcmp, execFclass, execFrnd,
      execFscale, execFgexp, execFdot2, hs]
  | frcp | frsq | fsqrt | fexp2 | flog2 | fsin | fcos | ftanh | fsigm =>
    simp [exec, execFrcp, execFrsq, execFsqrt, execFexp2, execFlog2, execFsin, execFcos, execFtanh, execFsigm, hs]
  | cvt | cvtsEncode | cvtsDecode | qblk | dqblk | dropm | rng =>
    simp [exec, execCvt, execCvtsEncode, execCvtsDecode, execQblk, execDqblk, execDropm, execRng, hs]
  | brx | call | ret | yield | waitc | enrol | strike | trap | rte | ipf | ifence =>
    simp [exec, execBrx, execCall, execRet, execYield, execWaitc, execEnrol, execStrike, execTrap, execRte, execIpf,
      execIfence, hs]
  | ld | dpf | txb | txa | txe | fence | bar | tagarm | tagclr =>
    simp [exec, execLd, execDpf, execTxb, execTxa, execTxe, execFence, execBar, execTagarm, execTagclr, hs]
  | tcfg | tld | tzero | mma | mmas | dcmp | mmad | tdrain | tmov | tepi =>
    simp [exec, execTcfg, execTld, execTzero, execMma, execMmas, execDcmp, execMmad, execTdrain, execTmov, execTepi,
      hs]
  | gbar | forkw | yieldw | chooseSelf =>
    simp [exec, execGbar, execForkw, execYieldw, execChooseSelf, hs]
  | histEnable | histDisable | ylReductionArrive | ylLinkState | yunavinFlitRetry | thermalSample | thermalRecover =>
    simp [exec, execHistEnable, execHistDisable, execYlReductionArrive, execYlLinkState, execYunavinFlitRetry,
      execThermalSample, execThermalRecover, hs]
  | classBatchClose | yieldExpiry | instanceStart | unitGate | unitWake | resultWrite =>
    simp [exec, execClassBatchClose, execYieldExpiry, execInstanceStart, execUnitGate, execUnitWake, execResultWrite,
      hs]
  | eheadWrite | ringEnable | ringDisable | interruptCoalesceTimeout | qtailDoorbell | qctlReset | queueEnable
  | queueDisable | creset | registerWrite =>
    simp [exec, execEheadWrite, execRingEnable, execRingDisable, execInterruptCoalesceTimeout, execQtailDoorbell,
      execQctlReset, execQueueEnable, execQueueDisable, execCreset, execRegisterWrite, hs]
  | graph | copy | fill | signalWrite | signalAdd | wait | stop | stopContinue | cmcfgCacheWay | cmcfgScratchpad
  | cmcfgFifo | oppoint | inval | ctxdestroy | preemptSaveQueue | preemptSaveContext =>
    simp [exec, execGraph, execCopy, execFill, execSignalWrite, execSignalAdd, execWait, execStop, execStopContinue,
      execCmcfgCacheWay, execCmcfgScratchpad, execCmcfgFifo, execOppoint, execInval, execCtxdestroy,
      execPreemptSaveQueue, execPreemptSaveContext, hs]
  | mailboxBadcmd | loadimg | romboot | getVersion | getCapabilities | negotiateAlgorithms | getDigests
  | getCertificate | challenge | getMeasurements | keyExchange | finish =>
    simp [exec, execMailboxBadcmd, execLoadimg, execRomboot, execGetVersion, execGetCapabilities,
      execNegotiateAlgorithms, execGetDigests, execGetCertificate, execChallenge, execGetMeasurements,
      execKeyExchange, execFinish, hs]
  | deviceReset => exact fun _ h => execDeviceReset_safe hs h
  | _ => simp [exec, hs]

theorem popOutcome_wf {o : Out} (ho : o.MemWf) : (popOutcome o).MemWf := by
  cases o with
  | next s => simpa [popOutcome] using ho
  | fault f => exact fun t h => nomatch h
  | refused r => exact fun t h => nomatch h

theorem runWord_wf (st : Stream) (w : IWord) (s : State) (hs : Memory.wf s.mem) : (runWord st w s).MemWf := by
  unfold runWord
  split
  · exact popOutcome_wf (exec_wf _ _ hs)
  · simp [hs]

/-- A step runs a word, or an event of its agenda, or a master pulse. -/
theorem runStep_wf (s : State) (hs : Memory.wf s.mem) : (runStep s).MemWf := by
  unfold runStep
  split
  · split
    · exact runWord_wf _ _ _ hs
    · simp [hs]
  · split
    · exact exec_wf _ _ (by simpa using hs)
    · simp [hs]

/-- Settles O60: an operation either leaves memory alone or changes it by writes that keep the canonical form. -/
theorem everyStepKeepsMemoryForm : Obligations.EveryStepKeepsMemoryForm :=
  fun s t hs h => runStep_wf s hs t h

end Sys2Proof.Machine
end

section
/-! O47. Writes of the registers of queues and rings: doorbells, enables and disables, resets, EHEAD and coalescing (R335 to R338,
R346 to R349). -/

namespace Sys2Proof.Machine

/-! ### The registers of a queue, and of a ring, lie apart -/

theorem offQueue_ne (q : Nat) {a b : Nat} (h : a ≠ b) : offQueue q a ≠ offQueue q b := by
  unfold offQueue; omega

theorem offRing_ne (r : Nat) {a b : Nat} (h : a ≠ b) : offRing r a ≠ offRing r b := by
  unfold offRing; omega

section
variable {s : State} {q r : Nat} {v : DWord}

/-! ### Doorbells (R337, R338) -/

/-- A queue that there is not, that is disabled or halted ignores its doorbell … -/
theorem qtailDoorbell_ignored (h : 256 ≤ q ∨ s.queueOn q = false ∨ s.queueHalted q = true) :
    exec (.qtailDoorbell q v) s = .next s :=
  congrArg Host.Outcome.next (if_pos (by simpa using h))

section
variable (hq : q < 256) (hon : s.queueOn q = true) (hhalt : s.queueHalted q = false)
include hq hon hhalt

theorem doorbell_heard : ¬(256 ≤ q ∨ (!s.queueOn q) = true ∨ s.queueHalted q = true) := by
  simp [hq, hon, hhalt]

/-- … another is halted with status 2 by a value that is no packet offset below its size … -/
theorem qtailDoorbell_halts (hv : v.toNat % 48 ≠ 0 ∨ s.queueSize q ≤ v.toNat) :
    exec (.qtailDoorbell q v) s = .next (s.haltQueue q 2 v.toNat 0) :=
  congrArg Host.Outcome.next ((if_neg (doorbell_heard hq hon hhalt)).trans (if_pos hv))

/-- … and else takes it and reads packets on. -/
theorem qtailDoorbell_taken (h48 : v.toNat % 48 = 0) (hv : v.toNat < s.queueSize q) :
    exec (.qtailDoorbell q v) s = .next ((s.modQueue q (fun k => { k with doorbell := v.toNat, asleep := false })).readOn q) :=
  congrArg Host.Outcome.next ((if_neg (doorbell_heard hq hon hhalt)).trans
    (if_neg (not_or_intro (not_not_intro h48) (Nat.not_le.mpr hv))))

end

/-! ### Enables and disables (R337, R346, R349) -/

/-- QUEUE_ENABLE: QHEAD, QSTAT and the last doorbell are 0, and QCTL is as written. -/
theorem queueEnable_leaves (hs : (s.bar0.map (·.1)).Pairwise (· < ·)) (q : Nat) (v : DWord) :
    ∃ t, exec (.queueEnable q v) s = .next t ∧ t = { s with bar0 := t.bar0, queues := t.queues } ∧
      t.reg (offQueue q 0x20) = qctlBits v ∧ t.reg (offQueue q 0x18) = 0 ∧ t.reg (offQueue q 0x28) = 0 ∧
      t.queue q = { s.queue q with doorbell := 0 } ∧
      ∀ o, o ≠ offQueue q 0x18 → o ≠ offQueue q 0x20 → o ≠ offQueue q 0x28 → t.reg o = s.reg o := by
  have h1 := setReg_sorted s hs (offQueue q 0x20) (qctlBits v)
  have h2 := setReg_sorted _ h1 (offQueue q 0x18) 0
  refine ⟨_, rfl, rfl, ?ctl, ?head, ?stat, modQueue_self _ _ _, fun o hhead hctl hstat => ?other⟩
  all_goals rw [modQueue_reg, State.setQstat]
  case ctl =>
    rw [reg_setReg_ne _ _ _ (offQueue_ne q (by decide)), reg_setReg_ne _ _ _ (offQueue_ne q (by decide)), reg_setReg_self _ hs]
  case head => rw [reg_setReg_ne _ _ _ (offQueue_ne q (by decide)), reg_setReg_self _ h1]
  case stat => exact reg_setReg_self _ h2 _ _
  case other => rw [reg_setReg_ne _ _ _ hstat, reg_setReg_ne _ _ _ hhead, reg_setReg_ne _ _ _ hctl]

/-- QUEUE_DISABLE writes QCTL, and resets the queue where bit 31 says so. -/
theorem queueDisable_writes (h : v.getLsbD 31 = false) :
    exec (.queueDisable q v) s = .next (s.setReg (offQueue q 0x20) (qctlBits v)) :=
  congrArg Host.Outcome.next (if_neg (by rw [h]; exact Bool.false_ne_true))

theorem queueDisable_resets (h : v.getLsbD 31 = true) :
    exec (.queueDisable q v) s = .next ((s.setReg (offQueue q 0x20) (qctlBits v)).resetQueue q) :=
  congrArg Host.Outcome.next (if_pos h)

/-- RING_ENABLE: EHEAD and ETAIL are 0, and the ring is as at reset. -/
theorem ringEnable_leaves (hs : (s.bar0.map (·.1)).Pairwise (· < ·)) (r : Nat) (v : DWord) :
    ∃ t, exec (.ringEnable r v) s = .next t ∧ t = { s with bar0 := t.bar0, rings := t.rings } ∧ t.ehead r = 0 ∧ t.etail r = 0 ∧
      t.reg (offRing r 0x28) = v &&& 0x1FFF ∧ t.ring r = Ring.reset ∧ (t.ring r).phase = true := by
  have h1 := setReg_sorted s hs (offRing r 0x28) (v &&& 0x1FFF)
  have h2 := setReg_sorted _ h1 (offRing r 0x10) 0
  refine ⟨_, rfl, rfl, ?head, ?tail, ?ctl, modRing_self _ _ _, congrArg Ring.phase (modRing_self _ _ _)⟩
  case head => exact congrArg BitVec.toNat (reg_setReg_self _ h2 _ _)
  case tail =>
    exact congrArg BitVec.toNat ((reg_setReg_ne _ _ _ (offRing_ne r (by decide)) _).trans (reg_setReg_self _ h1 _ _))
  case ctl =>
    exact (reg_setReg_ne _ _ _ (offRing_ne r (by decide)) _).trans
      ((reg_setReg_ne _ _ _ (offRing_ne r (by decide)) _).trans (reg_setReg_self _ hs _ _))

/-- RING_DISABLE discards the records that are held. -/
theorem ringDisable_leaves (hs : (s.bar0.map (·.1)).Pairwise (· < ·)) (r : Nat) (v : DWord) :
    ∃ t, exec (.ringDisable r v) s = .next t ∧ t = { s with bar0 := t.bar0, rings := t.rings } ∧
      t.reg (offRing r 0x28) = v &&& 0x1FFF ∧ t.ring r = { s.ring r with held := [], batch := 0 } :=
  ⟨_, rfl, rfl, reg_setReg_self _ hs _ _, modRing_self _ _ _⟩

/-! ### EHEAD and coalescing (R347, R348) -/

/-- EHEAD ignores a value that is no record offset between EHEAD and ETAIL … -/
theorem eheadWrite_ignored (h : v.toNat % 48 ≠ 0 ∨ s.ringSize r ≤ v.toNat ∨
      (s.etail r + s.ringSize r - s.ehead r) % s.ringSize r < (v.toNat + s.ringSize r - s.ehead r) % s.ringSize r) :
    exec (.eheadWrite r v) s = .next s :=
  congrArg Host.Outcome.next (if_pos h)

/-- … and takes one that is, whereupon held records are written. -/
theorem eheadWrite_taken (h48 : v.toNat % 48 = 0) (hsize : v.toNat < s.ringSize r)
    (hbetween : (v.toNat + s.ringSize r - s.ehead r) % s.ringSize r ≤ (s.etail r + s.ringSize r - s.ehead r) % s.ringSize r) :
    exec (.eheadWrite r v) s = .next ((s.setReg (offRing r 0x18) v).releaseHeld r (s.ring r).held.length) :=
  congrArg Host.Outcome.next (if_neg (not_or_intro (not_not_intro h48)
    (not_or_intro (Nat.not_le.mpr hsize) (Nat.not_lt.mpr hbetween))))

/-- A batch whose coalescing time has come raises the vector of its ring. -/
theorem coalesceTimeout_raises (ht : 1 ≤ (s.reg (offRing r 0x20)).toNat / 65536 % 65536) (hb : (s.ring r).batch ≠ 0)
    (hdue : (s.ring r).batchFirst + 1000 * ((s.reg (offRing r 0x20)).toNat / 65536 % 65536) ≤ s.gtimeAt 0) :
    exec (.interruptCoalesceTimeout r) s = .next (s.raiseMsix r) :=
  congrArg Host.Outcome.next (if_pos ⟨ht, hb, hdue⟩)

end

/-- Settles O47: each register write by its own lemma. -/
theorem queueAndRingRegisterWrites : Obligations.QueueAndRingRegisterWrites := by
  unfold Obligations.QueueAndRingRegisterWrites
  refine fun s v hs => ⟨fun o o' => ⟨reg_setReg_self s hs o v, fun h => reg_setReg_ne s o o' h v⟩, fun q => ?queue, fun r => ?ring⟩
  case queue =>
    exact ⟨qtailDoorbell_ignored,
      fun hq hon hhalt => ⟨qtailDoorbell_halts hq hon hhalt, qtailDoorbell_taken hq hon hhalt⟩,
      rfl, queueEnable_leaves hs q v, queueDisable_writes, queueDisable_resets⟩
  case ring =>
    refine ⟨ringEnable_leaves hs r v, ringDisable_leaves hs r v, eheadWrite_ignored, eheadWrite_taken, ?_⟩
    rintro t rfl ht hb hdue
    exact coalesceTimeout_raises ht hb hdue

end Sys2Proof.Machine
end

section
/-! O58 and O55. Registers and memory: what a write reads back as, the reset values, and an accepted write to PARTCFG (R333, R364, R398). -/

namespace Sys2Proof.Machine

/-- Memory of which only some addresses were kept. -/
theorem readMem_filter (m : List Host.Cell) (p : Nat → Bool) (a : Nat) :
    readMem (m.filter (fun c => p c.1)) a = if p a then readMem m a else 0 := by
  unfold readMem mapGetD
  rw [get_filter]
  split <;> rfl

/-- Dropping local DRAM zeroes its bytes and keeps every other. -/
theorem readMem_dropDram (s : State) (a : Nat) :
    readMem (s.mem.filter (fun c => s.dramSize ≤ c.1)) a = if s.dramSize ≤ a then readMem s.mem a else 0 := by
  simpa using readMem_filter s.mem (fun a => decide (s.dramSize ≤ a)) a

/-! ### PARTCFG (R351, R364) -/

/-- What an accepted write to PARTCFG leaves but for the new number of partitions: no frame is owned, local DRAM and every cache is
empty, and the histogram engine is off (R64, R364, R397). -/
def State.emptied (s : State) : State :=
  { s with
    mem := s.mem.filter (fun c => s.dramSize ≤ c.1)
    owners := []
    poison := s.poison.filter (fun q => s.dramSize ≤ 16 * q)
    clusters := s.clusters.map (fun e => (e.1, { e.2 with banks := [], cc := [] }))
    cores := s.cores.map (fun e => (e.1, { e.2 with l1d := [], l1i := [] }))
    slices := []
    histBuf := []
    bar0 := (s.setReg offHctl (s.reg offHctl &&& 0x3FFF6)).bar0 }

theorem exec_partcfgWrite_accepted {s : State} (hc : s.ctxs = []) (v : DWord) :
    exec (.partcfgWrite v) s = .next (s.emptied.setReg offPartcfg (v &&& 3)) :=
  congrArg Host.Outcome.next (if_neg (not_not_intro hc))

theorem exec_partcfgWrite_refused {s : State} (hc : s.ctxs ≠ []) (v : DWord) :
    exec (.partcfgWrite v) s = .next (s.setReg offGstat (s.reg offGstat ||| 2)) :=
  congrArg Host.Outcome.next (if_pos hc)

/-- Settles O58: with no context the write empties local DRAM before PARTCFG takes its value; with one it only marks GSTAT. -/
theorem partcfgZeroesDram : Obligations.PartcfgZeroesDram := by
  unfold Obligations.PartcfgZeroesDram
  refine fun s v hs => ⟨fun hc => ⟨_, exec_partcfgWrite_accepted hc v, ?_⟩, fun hc => ⟨_, exec_partcfgWrite_refused hc v, rfl, rfl, ?_⟩⟩
  · exact ⟨fun a ha => (readMem_dropDram s a).trans (if_neg (Nat.not_le.mpr ha)), fun _ => rfl,
      reg_setReg_self _ (setReg_sorted s hs _ _) _ _, fun a ha => (readMem_dropDram s a).trans (if_pos ha)⟩
  · exact reg_setReg_ne _ _ _ (by decide) _

/-! ### Writes keep the form of memory (R332) -/

/-- The first entry of a canonical map is not the default. -/
theorem mapWf_head {α : Type} [DecidableEq α] {d : α} {e : Nat × α} {m : NatMap α} (h : mapWf d (e :: m) = true) : e.2 ≠ d := by
  cases m with
  | nil => simpa [mapWf] using h
  | cons f rest =>
    simp only [mapWf, Bool.and_eq_true, decide_eq_true_eq] at h
    exact h.1.1

/-- A key that a canonical map lists does not read as the default. -/
theorem mapGetD_ne_of_mem {α : Type} [DecidableEq α] {d : α} {m : NatMap α} (h : mapWf d m = true) :
    ∀ e ∈ m, mapGetD m e.1 d ≠ d := by
  induction m with
  | nil => simp
  | cons f rest ih =>
    intro e he
    rcases List.mem_cons.mp he with rfl | he
    · simpa [mapGetD, mapGet?] using mapWf_head h
    · have hread := ih (mapWf_tail h) e he
      have hne : e.1 ≠ f.1 := fun heq => hread (by rw [mapGetD, mapGet?_of_lt rest f h e.1 heq.le]; rfl)
      simpa [mapGetD, mapGet?, hne] using hread

/-- Writing what an unlisted byte reads as leaves no entry. -/
theorem writeMem_zero_unlists {m : List Host.Cell} (hm : Memory.wf m = true) (a : Nat) : ∀ e ∈ writeMem m a 0, e.1 ≠ a := by
  rintro e he rfl
  have hw := wf_writeMem m hm e.1 0
  rw [Memory.wf_eq] at hw
  exact mapGetD_ne_of_mem hw e he ((readMem_writeMem m hm e.1 e.1 0).trans (if_pos rfl))

/-! ### Reset values (R333, R398) -/

/-- Where the registers of queues and rings stand. -/
def inQueueOrRing (o : Nat) : Prop := (0x10000 ≤ o ∧ o < 0x14000) ∨ (0x20000 ≤ o ∧ o < 0x21000)

/-- Of the registers of a queue or a ring the size code alone is not 0 after reset (Tables 18.4, 18.5). -/
theorem regReset_queueOrRing (code : OrderingCode) {o : Nat} (ho : inQueueOrRing o) :
    regReset code o = if o % 0x40 = 0x08 then 4 else 0 := by
  have low (k : Nat) (hk : k < 0x10000) : o ≠ k := by rcases ho with ho | ho <;> omega
  have high (k : Nat) (hk : 0x21000 ≤ k) : o ≠ k := by rcases ho with ho | ho <;> omega
  unfold regReset
  rw [if_neg (low 0x00 (by decide)), if_neg (low 0x08 (by decide)), if_neg (low 0x10 (by decide)), if_neg (low offYlid (by decide)),
    if_neg (high offRailf (by decide)), if_neg (high offRailt (by decide)), if_neg (high offSlewk (by decide)),
    if_neg (high offSlewwin (by decide))]
  rcases ho with ho | ho <;> by_cases h8 : o % 0x40 = 0x08 <;> simp [ho, h8]

theorem reset_reg (o : Nat) : State.reset.reg o = regReset State.reset.code o := rfl

/-- A queue after reset has size code 4 and is off. -/
theorem reset_queue {q : Nat} (hq : q < 256) : State.reset.reg (offQueue q 0x08) = 4 ∧ State.reset.reg (offQueue q 0x20) = 0 := by
  have span (n : Nat) (hn : n < 0x40) : inQueueOrRing (offQueue q n) := .inl (by unfold offQueue; omega)
  rw [reset_reg, reset_reg, regReset_queueOrRing _ (span _ (by decide)), regReset_queueOrRing _ (span _ (by decide))]
  exact ⟨if_pos (by unfold offQueue; omega), if_neg (by unfold offQueue; omega)⟩

/-- So does a ring. -/
theorem reset_ring {r : Nat} (hr : r < 64) : State.reset.reg (offRing r 0x08) = 4 ∧ State.reset.reg (offRing r 0x28) = 0 := by
  have span (n : Nat) (hn : n < 0x40) : inQueueOrRing (offRing r n) := .inr (by unfold offRing; omega)
  rw [reset_reg, reset_reg, regReset_queueOrRing _ (span _ (by decide)), regReset_queueOrRing _ (span _ (by decide))]
  exact ⟨if_pos (by unfold offRing; omega), if_neg (by unfold offRing; omega)⟩

/-- Settles O55: memory and registers by what a write of each reads back as, and reset by its reset values. -/
theorem memoryKeepsItsForm : Obligations.MemoryKeepsItsForm := by
  unfold Obligations.MemoryKeepsItsForm
  refine ⟨fun s a bs hs => ⟨State.safe_writePhys hs a bs, rfl, fun c => ?read⟩, fun m a hm => writeMem_zero_unlists hm a,
    fun s o v hs => ⟨setReg_sorted s hs o v, reg_setReg_self s hs o v, fun o' ho => reg_setReg_ne s o o' ho v⟩,
    List.Pairwise.nil, reset_mem_wf, fun _ => rfl, ?reset⟩
  case read =>
    rw [List.getD_eq_getElem?_getD]
    exact readMem_writeMemBytes bs s.mem hs a c
  case reset =>
    exact ⟨rfl, rfl, rfl, rfl, rfl, rfl, rfl, rfl, rfl, rfl, rfl, rfl, rfl, rfl, rfl, rfl, fun q hq => reset_queue hq, fun r hr => reset_ring hr⟩

end Sys2Proof.Machine
end

section
/-! O14. A trap in a launch without a handler, or in a handler, kills the block (R373, R375). -/

namespace Sys2Proof.Machine

/-- The record of a kill changes no block and no sequencer … -/
theorem noteKill_frame (s : State) (b cause : Nat) (addr : DWord) (core : Nat) :
    s.noteKill b cause addr core = { s with grids := (s.noteKill b cause addr core).grids } := by
  unfold State.noteKill
  split <;> [rfl; split <;> rfl]

/-- … and gives the grid of a block that is no rival the cause, as reason too where it had no failure before. -/
theorem noteKill_grid {s : State} {b : Nat} {bl : Block} {gr : Grid} (hb : s.block? b = some bl) (hp : bl.parent = none)
    (hg : s.grid? bl.grid = some gr) (cause : Nat) (addr : DWord) (core : Nat) :
    ∃ gr', (s.noteKill b cause addr core).grid? bl.grid = some gr' ∧ gr'.cause = gr.cause ||| BitVec.ofNat 16 (2 ^ cause) ∧
      gr'.status = (if gr.status = 0 then 1 else gr.status) ∧ gr'.reason = (if gr.status = 0 then cause else gr.reason) := by
  unfold State.noteKill
  rw [hb]
  dsimp only
  rw [if_neg (by simp [hp]), State.grid?_modGrid, if_pos rfl, hg]
  refine ⟨_, rfl, ?_⟩
  by_cases h0 : gr.status = 0 <;> simp [h0]

/-- The exit of every thread of a block, warp by warp. -/
theorem keepsKills_exitAll (ws : List Nat) (s : State) :
    KeepsKills s (ws.foldl (fun s w => (upTo 32).foldl (fun s l => s.exitLane w l) s) s) :=
  keepsKills_foldl _ (fun s w => keepsKills_foldl _ (fun s l => keepsKills_exitLane s w l) _ s) ws s

/-- What the kill of a block leaves: its cause, sequencers that have ended with their queues as they were, and the grids with the record
of the kill (R375). -/
theorem killBlock_spec {s : State} {b : Nat} {bl : Block} (hb : s.block? b = some bl) (hk : bl.killed = none) (cause : Nat) (addr : DWord)
    (core : Nat) :
    let t := s.killBlock b cause addr core
    (t.block? b).map (fun bl => bl.killed) = some (some cause) ∧
    (∀ n ∈ bl.tenants, ∀ te, s.tenant? n = some te → ∃ te', t.tenant? n = some te' ∧ te'.queue = te.queue ∧
      (te'.st = .stopped ∨ te'.st = .exited)) ∧
    t.grids = (s.noteKill b cause addr core).grids := by
  set marked := (s.noteKill b cause addr core).modBlock b (fun bl => { bl with killed := some cause }) with hmarked
  set left := bl.warps.foldl (fun s w => (upTo 32).foldl (fun s l => s.exitLane w l) s) marked
  have hkill : s.killBlock b cause addr core = bl.tenants.foldl (fun s t => s.stopSeq t) left := by
    unfold State.killBlock
    rw [hb]
    exact if_neg (by simp [hk])
  have kept : KeepsKills marked left := keepsKills_exitAll bl.warps marked
  obtain ⟨hgrids, hblocks, -, hstopped⟩ := stopAll bl.tenants left
  intro t
  have ht : t = bl.tenants.foldl (fun s t => s.stopSeq t) left := hkill
  rw [ht]
  refine ⟨?_, fun n hn te hte => ?_, hgrids.trans kept.grids⟩
  · have hmark : marked.block? b = some { bl with killed := some cause } := by
      rw [hmarked, State.block?_modBlock, if_pos rfl, noteKill_frame]
      exact congrArg _ hb
    unfold State.block? at hmark ⊢
    rw [hblocks]
    exact (kept.killed b).trans (congrArg _ hmark)
  · have hqueue : (left.tenant? n).map (fun te => te.queue) = some te.queue := by
      rw [kept.tenants n, hmarked, noteKill_frame]
      exact congrArg _ hte
    obtain ⟨te₁, hte₁, hq₁⟩ := Option.map_eq_some_iff.mp hqueue
    obtain ⟨te', hte', hq', hst⟩ := hstopped n hn te₁ hte₁
    exact ⟨te', hte', hq'.trans hq₁, hst⟩

/-- A lane that traps where no handler may take the trap kills its block. -/
theorem trapLane_kills {s : State} {w l : Nat} {wp : Warp} {la : Lane} {lr : LaunchRec} (hw : s.warp? w = some wp)
    (hl : s.lane? w l = some la) (hr : s.recOfBlock wp.block = some lr) (hst : la.st ≠ .exited) (ha : s.aheadOf w l = none)
    (hh : lr.handler = 0 ∨ la.inHandler = true) (t : Trap) :
    s.trapLane w l t = s.killBlock wp.block t.cause (t.addr.getD (t.pc.setWidth 64)) wp.core := by
  have hl' : wp.lane? l = some la := by simpa [State.lane?, hw] using hl
  unfold State.trapLane
  simp only [hw, hl', hr]
  rw [if_neg hst, ha]
  exact if_pos hh

/-- Settles O14: the one guard-true lane traps, which kills its block. -/
theorem trapWithoutHandlerKillsTheBlock : Obligations.TrapWithoutHandlerKillsTheBlock := by
  unfold Obligations.TrapWithoutHandlerKillsTheBlock
  intro h code s g lr bl l la hg hr hb hk hG hl ha hh
  have hmem : l ∈ g.trues h := by simp [hG]
  obtain ⟨la₁, hl₁, -, hrun⟩ := grp_lane hg (Grp.mem_trues hmem)
  obtain rfl : la₁ = la := Option.some.inj (hl₁.symm.trans hl)
  obtain ⟨wp, hw, hblock, hcore⟩ := passFalse_warp? hg h
  have hexec : exec (.trap h code) s = .next ((s.passFalse g h).killBlock g.wp.block 0x08 (g.pc.setWidth 64) g.wp.core) := by
    show Host.Outcome.next (onGroup h 0 s _) = _
    rw [onGroup_runs (runs_zero hg) (List.ne_nil_of_mem hmem), hG, ← hblock, ← hcore]
    exact congrArg Host.Outcome.next (trapLane_kills hw ((passFalse_lane?_true hg hmem).trans hl) (by rw [hblock]; exact hr)
      (by rw [hrun]; simp) ha hh _)
  obtain ⟨hkilled, hstopped, hgrids⟩ := killBlock_spec (s := s.passFalse g h) hb hk 0x08 (g.pc.setWidth 64) g.wp.core
  refine ⟨_, hexec, hkilled, hstopped, fun gr hp hgr => ?_⟩
  unfold State.grid?
  rw [hgrids]
  exact noteKill_grid (s := s.passFalse g h) hb hp hgr 0x08 _ _

end Sys2Proof.Machine
end

section
/-! O50. What rails, retention and the thermal sensor change when their time has come (R388, R391 to R393, R408). -/

namespace Sys2Proof.Machine

/-- A noted time lies some ticks back. -/
theorem any_passed {o : Option Nat} {t n now : Nat} (ho : o = some t) (ht : t + n ≤ now) : o.any (fun t => t + n ≤ now) = true := by
  rw [Option.any_eq_true]
  exact ⟨t, ho, decide_eq_true ht⟩

section
variable {s : State}

/-! ### Rails (R388) -/

/-- A rail whose move is over stands at its new voltages, and what waited for it happens. -/
theorem exec_railSlewDone {m : RailMove} (hm : s.railMove = some m) (ht : m.due ≤ s.gtimeAt 0) :
    exec .railSlewDone s = .next ((({ (s.setReg offRailf (BitVec.ofNat 64 m.fast)).setReg offRailt (BitVec.ofNat 64 m.thrifty) with
      railMove := none } : State).setSlots m.clusters m.slots).modCmd m.queue m.seq (fun c => { c with done := true })) := by
  show execRailSlewDone s = _
  unfold execRailSlewDone
  rw [hm]
  exact congrArg Host.Outcome.next (if_neg (Nat.not_lt.mpr ht))

/-! ### Retention (R391, R392) -/

/-- A line that a cluster, or a core of it, has pinned. -/
def pinnedBy (k : Nat) (h : HLine) : Bool := h.pinCl = some k || h.pinCo.any (fun j => clusterOf j = k)

section
variable {k t : Nat} (hp : (s.cluster k).power = .running) (hi : (s.cluster k).idleSince = some t) (ht : t + 1024 ≤ s.gtimeAt 0)
  (hidle : s.clusterIdle k = true) (hw : (s.cluster k).woken = false)
include hp hi ht hidle hw

/-- A running cluster that has been idle for 1,024 ticks is on its way to sleep. -/
theorem retention_due : (s.cluster k).power = .running ∧ (s.cluster k).idleSince.any (fun t => t + 1024 ≤ s.gtimeAt 0) = true ∧
    s.clusterIdle k = true ∧ (!(s.cluster k).woken) = true :=
  ⟨hp, any_passed hi ht, hidle, by simp [hw]⟩

/-- While pins of the cluster are left it widens them … -/
theorem retentionEnter_widens (hpins : s.pinned (pinnedBy k) ≠ []) :
    exec (.retentionEnter k) s = .next (s.unpinAll (pinnedBy k) k
      ((s.warpsOn k).map (·.1))) :=
  congrArg Host.Outcome.next ((if_pos (retention_due hp hi ht hidle hw)).trans (if_pos hpins))

/-- … and with none left, and every horizon of its warps past, it drops its lines and sleeps. -/
theorem retentionEnter_sleeps (hpins : s.pinned (pinnedBy k) = [])
    (hpast : ∀ e ∈ s.warpsOn k, e.2.hsy ≤ s.gtimeAt (placeCore e.2.core)) :
    exec (.retentionEnter k) s = .next (((clusterCores k).foldl (fun s j => s.modCore j (fun c => { c with l1d := [], l1i := [] })) s).modCluster k
      (fun c => { c with cc := [], power := .retention, idleSince := none })) := by
  have past : ¬ (s.warpsOn k).any (fun e => s.gtimeAt (placeCore e.2.core) < e.2.hsy) = true := by
    rw [List.any_eq_true]
    rintro ⟨e, he, hlt⟩
    exact Nat.not_lt.mpr (hpast e he) (of_decide_eq_true hlt)
  exact congrArg Host.Outcome.next ((if_pos (retention_due hp hi ht hidle hw)).trans ((if_neg (not_not_intro hpins)).trans (if_neg past)))

end

/-- A waking cluster runs at its time, or loses its banks and the grids of its blocks to a parity error. -/
theorem exec_retentionExit {k t : Nat} (hp : (s.cluster k).power = .waking t) (ht : t ≤ s.gtimeAt 0) (bad : Bool) :
    exec (.retentionExit k bad) s = .next (
      let u := s.modCluster k (fun c => { c with power := .running, idleSince := none })
      if bad = true then
        (((u.onCluster k).map (fun e => e.2.grid)).eraseDups).foldl
          (fun s g => s.stopGrid g 4) ((u.modCluster k (fun c => { c with banks := c.banks.map (fun b =>
            (b.1, { b.2 with bytes := [], poison := [], fifo := [] })) })).deviceError 0x06 5 k 0)
      else u) := by
  show execRetentionExit k bad s = _
  unfold execRetentionExit
  rw [hp]
  exact congrArg Host.Outcome.next (if_neg (Nat.not_lt.mpr ht))

/-! ### Wake-ups (R392, R393) -/

/-- The wake-ups of the window, with one more counted (R393). -/
def State.oneMoreWake (s : State) : Nat × Nat :=
  let win := s.gtimeAt 0 / max 1 (s.reg offSlewwin).toNat
  (win, (if s.wakes.1 = win then s.wakes.2 else 0) + 1)

/-- The first of the waiting wake-ups counts in the window, and its cluster wakes where it slept. -/
theorem exec_wakeStart {k : Nat} {e : Nat × Nat} (he : s.wakers.find? (fun e => e.1 = k) = some e) (hfirst : ∀ f ∈ s.wakers, e.2 ≤ f.2)
    (hleft : s.wakeLeft ≠ 0) : exec (.wakeStart k) s = .next (({ s with wakes := s.oneMoreWake } : State).modCluster k (fun c =>
      { c with wakeReq := none, woken := true, power := if c.power = .retention then .waking (s.gtimeAt 0 + 400) else c.power })) := by
  have first : ¬ (s.wakers.any (fun f => f.2 < e.2) = true ∨ s.wakeLeft = 0) := by
    rintro (hany | h0)
    · obtain ⟨f, hf, hlt⟩ := List.any_eq_true.mp hany
      exact Nat.not_lt.mpr (hfirst f hf) (of_decide_eq_true hlt)
    · exact hleft h0
  show execWakeStart k s = _
  unfold execWakeStart
  dsimp only
  rw [he]
  exact congrArg Host.Outcome.next (if_neg first)

/-! ### Module cooling (R408) -/

/-- The note of when the sensor last began to read cool. -/
def State.noteCool (s : State) (c : Nat) : State :=
  { s with coolSince := if c < 90 then some (s.coolSince.getD (s.gtimeAt 0)) else none }

/-- What 105 °C costs: no pulse passes, and every grid with a resident block is lost. -/
def State.overheat (s : State) : State :=
  let w := ((upTo 64).foldl (fun s j => s.setPattern j 0) s).deviceError 0x02 5 0 0
  ((w.grids.filter (fun e => w.blocks.any (fun b => b.2.grid = e.1 && b.2.st = .resident))).map (·.1)).foldl (fun s g => s.stopGrid g 4) w

/-- Below 95 °C a sample only notes whether it is cool … -/
theorem thermalSample_below95 {c : Nat} (hc : c < 95) : exec (.thermalSample c) s = .next (s.noteCool c) :=
  congrArg Host.Outcome.next ((if_neg (by omega)).trans (if_neg (by omega)))

/-- … from 95 °C it lowers the cap … -/
theorem thermalSample_below105 {c : Nat} (hlow : 95 ≤ c) (hc : c < 105) :
    exec (.thermalSample c) s = .next (State.applyCap { s.noteCool c with thermalCap := max 8 ((s.noteCool c).cap - 2) }) :=
  congrArg Host.Outcome.next ((if_neg (by omega)).trans (if_pos hlow))

/-- … and from 105 °C it stops the clusters. -/
theorem thermalSample_from105 {c : Nat} (hc : 105 ≤ c) : exec (.thermalSample c) s = .next (s.noteCool c).overheat :=
  congrArg Host.Outcome.next (if_pos hc)

/-- After 10 ms below 90 °C a lowered cap rises. -/
theorem exec_thermalRecover {t : Nat} (hcap : s.thermalCap < 16) (hcool : s.coolSince = some t) (ht : t + 10000000 ≤ s.gtimeAt 0) :
    exec .thermalRecover s = .next
      (State.applyCap { s with thermalCap := min 16 (s.thermalCap + 2), coolSince := some (s.gtimeAt 0) }) := by
  show execThermalRecover s = _
  unfold execThermalRecover
  rw [if_pos ⟨hcap, any_passed hcool ht⟩]

end

/-- Settles O50: each event by its own lemma. -/
theorem powerEventResults : Obligations.PowerEventResults := by
  unfold Obligations.PowerEventResults
  refine fun s k => ⟨fun m hm ht => exec_railSlewDone hm ht, fun t hp hi ht hidle hw => ⟨retentionEnter_widens hp hi ht hidle hw,
    retentionEnter_sleeps hp hi ht hidle hw⟩, fun e he hfirst hleft => ⟨_, exec_wakeStart he hfirst hleft, ?wake⟩,
    fun t bad hp ht => ?exit, fun c => ⟨thermalSample_below95, thermalSample_below105, thermalSample_from105⟩,
    fun t hcap hcool ht => exec_thermalRecover hcap hcool ht⟩
  case wake =>
    simp only [State.cluster_modCluster, if_true]
    exact ⟨trivial, trivial, fun hp => if_pos hp, fun hp => if_neg hp, fun j hj => if_neg hj, rfl⟩
  case exit =>
    rw [exec_retentionExit hp ht]
    constructor <;> rintro rfl <;> rfl

end Sys2Proof.Machine
end

section
/-! O51. Device reset, the security mailbox and attestation (R386, R398 to R403). -/

namespace Sys2Proof.Machine

section
variable {s : State}

/-! ### The security mailbox (R402) -/

/-- A command whose MBARG2 or MBARG3 is not zero does nothing but answer BADCMD … -/
theorem mailbox_badArgs (h : s.reg (offMbarg 2) ≠ 0 ∨ s.reg (offMbarg 3) ≠ 0) (f : State → State) : s.mailbox f = s.mbDone 7 := if_pos h

section
variable (h2 : s.reg (offMbarg 2) = 0) (h3 : s.reg (offMbarg 3) = 0)
include h2 h3

/-- … and any other is carried out. -/
theorem mailbox_runs (f : State → State) : s.mailbox f = f s :=
  if_neg (not_or_intro (not_not_intro h2) (not_not_intro h3))

/-! ### Images (R399, R400) -/

/-- LOADIMG answers the status of its image, and runs it where that is 0. -/
theorem exec_loadimg :
    let addr := (s.reg (offMbarg 0)).toNat
    let size := (s.reg (offMbarg 1)).toNat
    let status := s.imageStatus (s.physBytes addr 256) (s.physBytes (addr + 256) (size - 256)) addr size
    exec .loadimg s = .next ((if status = 0 then s.runImage (s.physBytes addr 256) else s).mbDone status) :=
  congrArg Host.Outcome.next (mailbox_runs h2 h3 _)

/-- ROMBOOT is refused while a context exists … -/
theorem romboot_refused (hc : s.ctxs ≠ []) : exec .romboot s = .next (s.mbDone 4) :=
  congrArg Host.Outcome.next ((mailbox_runs h2 h3 _).trans (if_pos hc))

/-- … and else the engine has no image. -/
theorem romboot_discards (hc : s.ctxs = []) :
    let engine := (s.reg (offMbarg 0)).toNat % 2
    let x := { s.security with image := mapErase s.security.image engine }
    exec .romboot s = .next ((({ s with security := x } : State).restartEngine engine).setAltfw.mbDone 0) :=
  congrArg Host.Outcome.next ((mailbox_runs h2 h3 _).trans (if_neg (not_not_intro hc)))

/-! ### Owner keys (R401) -/

/-- The record that ENROL or REVOKE names. -/
abbrev State.keyRecord (s : State) : List (BitVec 8) := s.physBytes (s.reg (offMbarg 0)).toNat 256

/-- It has the form of a record. -/
abbrev State.keyRecordGood (s : State) : Bool := keyRecordOk s.keyRecord (s.reg (offMbarg 0)).toNat (s.reg (offMbarg 1)).toNat

/-- The slot that it names. -/
abbrev State.keySlot (s : State) : Nat := field s.keyRecord 96 1

/-- ENROL and REVOKE answer 2 to a record of the wrong form. -/
theorem enrolKey_badRecord (hr : s.keyRecordGood = false) : exec .enrolKey s = .next (s.mbDone 2) :=
  congrArg Host.Outcome.next ((mailbox_runs h2 h3 _).trans (if_pos (congrArg not hr)))

theorem revoke_badRecord (hr : s.keyRecordGood = false) : exec .revoke s = .next (s.mbDone 2) :=
  congrArg Host.Outcome.next ((mailbox_runs h2 h3 _).trans (if_pos (Bool.or_eq_true_iff.mpr (.inl (congrArg not hr)))))

section
variable (hr : s.keyRecordGood = true)
include hr

/-- The answer of ENROL to a record that is not authorised. -/
theorem enrolKey_unauthorised {e : Nat} (he : s.authStatus s.keyRecord = e) (h0 : e ≠ 0) : exec .enrolKey s = .next (s.mbDone e) := by
  show execEnrolKey s = _
  unfold execEnrolKey
  simp only [mailbox_runs h2 h3, hr, Bool.not_true, Bool.false_eq_true, if_false]
  split
  · next h => exact absurd (he.symm.trans h) h0
  · exact congrArg (fun n => Host.Outcome.next (s.mbDone n)) he

/-- ENROL of an authorised record writes its slot unless it has been written. -/
theorem enrolKey_authorised (ha : s.authStatus s.keyRecord = 0) :
    let k : KeySlot := { x := field384 s.keyRecord 0, y := field384 s.keyRecord 48, written := true, revoked := false }
    let x := { s.security with keys := mapSet s.security.keys s.keySlot k }
    exec .enrolKey s = .next (
      if (mapGet? s.security.keys s.keySlot).any (fun k => k.written) then s.mbDone 5
      else (({ s with security := x } : State).logMeasure 2 (Config.sha384 x.keyBytes)).mbDone 0) := by
  show execEnrolKey s = _
  unfold execEnrolKey
  simp only [mailbox_runs h2 h3, hr, Bool.not_true, Bool.false_eq_true, if_false]
  split
  · rfl
  · next h => exact absurd ha h

/-- ENROL writes and measures a slot that has not been written … -/
theorem enrolKey_writes (ha : s.authStatus s.keyRecord = 0) (hfree : ∀ k, mapGet? s.security.keys s.keySlot = some k → k.written = false) :
    let k : KeySlot := { x := field384 s.keyRecord 0, y := field384 s.keyRecord 48, written := true, revoked := false }
    let x := { s.security with keys := mapSet s.security.keys s.keySlot k }
    exec .enrolKey s = .next ((({ s with security := x } : State).logMeasure 2 (Config.sha384 x.keyBytes)).mbDone 0) := by
  have unwritten : ¬ (mapGet? s.security.keys s.keySlot).any (fun k => k.written) = true := by
    rw [Option.any_eq_true]
    rintro ⟨k, hk, hw⟩
    exact Bool.false_ne_true ((hfree k hk).symm.trans hw)
  exact (enrolKey_authorised h2 h3 hr ha).trans (congrArg Host.Outcome.next (if_neg unwritten))

/-- … and answers 5 for one that has. -/
theorem enrolKey_written (ha : s.authStatus s.keyRecord = 0) {k : KeySlot} (hk : mapGet? s.security.keys s.keySlot = some k)
    (hw : k.written = true) : exec .enrolKey s = .next (s.mbDone 5) :=
  (enrolKey_authorised h2 h3 hr ha).trans (congrArg Host.Outcome.next (if_pos (by rw [hk]; exact hw)))

section
variable (hz : zeros s.keyRecord 0 96 = true)
include hz

/-- The answer of REVOKE to a record that is not authorised. -/
theorem revoke_unauthorised {e : Nat} (he : s.authStatus s.keyRecord = e) (h0 : e ≠ 0) : exec .revoke s = .next (s.mbDone e) := by
  show execRevoke s = _
  unfold execRevoke
  simp only [mailbox_runs h2 h3, hr, hz, Bool.not_true, Bool.or_self, Bool.false_eq_true, if_false]
  split
  · next h => exact absurd (he.symm.trans h) h0
  · exact congrArg (fun n => Host.Outcome.next (s.mbDone n)) he

/-- REVOKE of an authorised record revokes a written slot, once. -/
theorem revoke_authorised (ha : s.authStatus s.keyRecord = 0) {k : KeySlot} (hk : mapGet? s.security.keys s.keySlot = some k) :
    let x := { s.security with keys := mapSet s.security.keys s.keySlot { k with revoked := true } }
    exec .revoke s = .next (
      if !k.written || k.revoked then s.mbDone 6
      else (({ s with security := x } : State).logMeasure 3 (Config.sha384 x.keyBytes)).mbDone 0) := by
  show execRevoke s = _
  unfold execRevoke
  simp only [mailbox_runs h2 h3, hr, hz, Bool.not_true, Bool.or_self, Bool.false_eq_true, if_false]
  split
  · split
    · next k' hk' =>
      obtain rfl : k' = k := Option.some.inj (hk'.symm.trans hk)
      rfl
    · next h => cases h.symm.trans hk
  · next h => exact absurd ha h

/-- A written slot that is not revoked is revoked, and measured … -/
theorem revoke_revokes (ha : s.authStatus s.keyRecord = 0) {k : KeySlot} (hk : mapGet? s.security.keys s.keySlot = some k)
    (hw : k.written = true) (hn : k.revoked = false) :
    let x := { s.security with keys := mapSet s.security.keys s.keySlot { k with revoked := true } }
    exec .revoke s = .next ((({ s with security := x } : State).logMeasure 3 (Config.sha384 x.keyBytes)).mbDone 0) :=
  (revoke_authorised h2 h3 hr hz ha hk).trans (congrArg Host.Outcome.next (if_neg (by simp [hw, hn])))

/-- … and any other is refused. -/
theorem revoke_refused (ha : s.authStatus s.keyRecord = 0) {k : KeySlot} (hk : mapGet? s.security.keys s.keySlot = some k)
    (hno : k.written = false ∨ k.revoked = true) : exec .revoke s = .next (s.mbDone 6) :=
  (revoke_authorised h2 h3 hr hz ha hk).trans (congrArg Host.Outcome.next (if_pos (by rcases hno with h | h <;> simp [h])))

end
end
end

/-! ### Reset (R386, R398) -/

/-- DEVICE_RESET keeps the fuses, the ordering code and memory outside local DRAM. -/
theorem deviceReset_leaves (s : State) : ∃ t, exec .deviceReset s = .next t ∧
    t = { State.reset with code := s.code, mem := t.mem, agenda := s.agenda, tick := s.tick, security := t.security } ∧
    t.security = { Security.reset with keys := s.security.keys, minSvn := s.security.minSvn } ∧
    (∀ a, a < s.dramSize → readMem t.mem a = 0) ∧ ∀ a, s.dramSize ≤ a → readMem t.mem a = readMem s.mem a :=
  ⟨_, rfl, rfl, rfl, fun a ha => (readMem_dropDram s a).trans (if_neg (Nat.not_le.mpr ha)), fun a ha => (readMem_dropDram s a).trans (if_pos ha)⟩

end

/-- Settles O51: reset, then the mailbox by whether MBARG2 and MBARG3 are zero, then the messages. -/
theorem resetAndMailboxResults : Obligations.ResetAndMailboxResults := by
  unfold Obligations.ResetAndMailboxResults
  refine ⟨⟨deviceReset_leaves, fun s => ⟨rfl, fun h => ?bad⟩, fun s h2 h3 => ?good⟩, fun req s => ?messages⟩
  case bad =>
    exact ⟨congrArg Host.Outcome.next (mailbox_badArgs h _), congrArg Host.Outcome.next (mailbox_badArgs h _),
      congrArg Host.Outcome.next (mailbox_badArgs h _), congrArg Host.Outcome.next (mailbox_badArgs h _)⟩
  case good =>
    refine ⟨?loadimg, romboot_refused h2 h3, fun hc => ⟨romboot_discards h2 h3 hc, mapGet?_erase _ _⟩,
      fun hr => ⟨enrolKey_badRecord h2 h3 hr, revoke_badRecord h2 h3 hr⟩, fun hr => ⟨fun e he h0 => ?unauthorised, fun ha => ?authorised⟩⟩
    case loadimg =>
      rintro _ rfl
      exact exec_loadimg h2 h3
    case unauthorised => exact ⟨enrolKey_unauthorised h2 h3 hr he h0, fun hz => revoke_unauthorised h2 h3 hr hz he h0⟩
    case authorised =>
      exact ⟨enrolKey_writes h2 h3 hr ha, fun k hk => ⟨enrolKey_written h2 h3 hr ha hk, fun hz =>
        ⟨revoke_revokes h2 h3 hr hz ha hk, revoke_refused h2 h3 hr hz ha hk⟩⟩⟩
  case messages =>
    exact ⟨⟨_, rfl⟩, ⟨_, rfl⟩, ⟨_, rfl⟩, ⟨_, rfl⟩, ⟨_, rfl⟩, ⟨_, rfl⟩, ⟨_, rfl⟩, ⟨_, rfl⟩, ⟨_, rfl⟩⟩

end Sys2Proof.Machine
end
